-- ==== Sys2Proof/Word.lean ====
section
/-! DEFINITION. The machine's word types (spec R4): a word is ten bits, a management register twenty, an
accumulator and a lane instruction forty. -/

namespace Sys2Proof

/-- R4: a word is 10 bits. -/
abbrev Word := BitVec 10

/-- R4: a management register is 20 bits, two words. -/
abbrev Reg := BitVec 20

/-- R4: an accumulator is 40 bits, four words. -/
abbrev Acc := BitVec 40

/-- One byte of flash, of a packed image (R7) or of a service port transaction. -/
abbrev Byte := BitVec 8

end Sys2Proof
end

