-- ==== Sys2Proof/Data.lean ====
section
/-! DEFINITION. The operand types of the commands: what the outside world hands the block with a command. -/

namespace Sys2Proof

/-- R62: one record of a Survey Plan or an amendment, framing and CRC already checked. -/
structure PlanRec where
  /-- Type, 0x001 to 0x3FF. -/
  type : Nat
  payload : List Word
  deriving DecidableEq, Repr

/-- A P-384 public key (R48, R49). -/
structure PubKey where
  x : Nat
  y : Nat
  deriving DecidableEq, Repr

/-- The islands' and paths' name of a register path (R461): 0 the service port, 1 to 3 the management unit of link
path − 1, 4 to 7 the field cores. -/
abbrev Path := Fin 8

/-- One sample instant of a polarisation (R112, R117, R137): the SAR results of its two inputs. The slices that converted
them and their marks follow from the converters' state. -/
structure IQ where
  i : Int
  q : Int
  deriving DecidableEq, Repr

/-- A complex value. -/
structure Cx where
  re : Int
  im : Int
  deriving DecidableEq, Repr

/-- R114: the estimator's new targets of one slice. -/
structure SliceTarget where
  slice : Nat
  skew : Int
  bandwidth : Int
  deriving DecidableEq, Repr

/-- R114, R119: what one complete skew window gives the activity detector (the sum of squares in LSB², the largest
and the median bin of the averaged periodogram) and the corrections. -/
structure SkewWindow where
  /-- Device time of its first sample. -/
  began : Nat
  sumSq : Nat
  maxBin : Nat
  medianBin : Nat
  targets : List SliceTarget
  deriving DecidableEq, Repr

/-- R115: one correction value that a foreground calibration writes: input, slice, kind (0 skew tap or delay tap,
1 offset, 2 gain, 3 bandwidth, 4 comparator threshold), comparator. -/
structure CalVal where
  input : Nat
  slice : Nat
  kind : Nat
  comp : Nat
  value : Int
  deriving DecidableEq, Repr

/-- A frame as a link carries it (R387 to R389): header fields and payload. -/
structure Frame where
  ftype : Nat
  dest : Nat
  src : Nat
  tag : Nat
  flags : Nat
  hops : Nat
  payload : List Word
  deriving DecidableEq, Repr

/-- A lane predicate selector (R230): execute where predicate `psel` (0 always) is set, or clear when `neg`. -/
structure Pred where
  neg : Bool
  psel : Fin 4
  deriving DecidableEq, Repr

/-- R231 format R. -/
structure FmtR where
  rd : Fin 32
  ra : Fin 32
  rb : Fin 32
  fn : Fin 16
  sh : Fin 64
  rnd : Fin 4
  sat : Bool
  cj : Bool
  /-- Accumulator selected: false acc0, true acc1. -/
  a : Bool
  deriving DecidableEq, Repr

/-- R231 format I. -/
structure FmtI where
  rd : Fin 32
  ra : Fin 32
  fn : Fin 16
  /-- Width: false 10-bit words, true 20-bit pairs. -/
  w : Bool
  imm : BitVec 16
  deriving DecidableEq, Repr

/-- R231 format M. -/
structure FmtM where
  r : Fin 32
  x : Fin 4
  off : Fin 16384
  scl : Fin 4
  inc : Fin 8
  /-- Bit 4: the accumulator of ALD and AST. -/
  acc : Bool
  deriving DecidableEq, Repr

/-- R231 format P, for the port transfers with a count and a region. -/
structure FmtP where
  r : Fin 32
  ra : Fin 32
  n : Fin 64
  region : Fin 4
  deriving DecidableEq, Repr

/-- R231 format O. -/
structure FmtO where
  rs : Fin 32
  n : Fin 4
  rf : Fin 32
  code : Fin 1024
  deriving DecidableEq, Repr

end Sys2Proof
end

