-- ==== Sys2Proof/Syntax.lean ====
section
/-! DEFINITION. The commands of the block: one constructor per row of the spec's table of operations and events.
A command's operands are what the outside world supplies with it; everything else it needs is in the state. -/

namespace Sys2Proof

/-- The commands, in the order of the spec's table. Times, counts and codes are naturals; signed measurements are
integers in the unit their rule gives. -/
inductive Instr where
  -- power, boot and trust
  | powerOnReset
  | pwrgoodRise
  | pwrgoodFall
  | resetNLow
  | resetNRise
  | otpReadDone
  | xspiInitDone (sfdp : Option (Nat × Nat))
  | stagingFilled
  | imageVerificationDone (readA readB : Bool)
  | stage1Release
  | stage2Loaded
  | selfTestDone (t : Fin 8) (failLane : Option (Fin 64))
  | planApplied
  | scsFinalLock
  | mbxHeartbeat
  | mbxBootComplete
  | mbxLaserArm (line : Fin 2)
  | mbxLaserDisarm (line : Fin 2)
  | mbxResetWarm
  | mbxResetCold
  | mbxResetLine (line : Fin 2)
  | mbxStandbyEnter
  | mbxStandbyExit
  | mbxDramFreq (sp : Fin 3)
  | mbxRecordHash (amendedPlan : Bool)
  | mbxLoopRelease (n : Fin 8)
  | mbxStaleClear (line : Fin 2)
  | mbxLifecycle (addr : Nat) (token : List Word)
  | mbxBadCode (code : Fin 1024)
  | watchdogPeriodExpiry
  | warmHashCheck
  | lineResetDone (line : Fin 2)
  | standbyThermalExit
  | resetCmd
  | standbyCmd
  -- fences, amendments and features
  | fenceIssue (scope : BitVec 18)
  | fenceAck (island : Fin 18) (id : Fin 1024)
  | fenceComplete
  | fenceTimeout (id : Fin 1024)
  | rwfAutoFence
  | traverseClockChangeDone (t : Fin 8)
  | amend (link : Fin 3) (words : List Word)
  | featureOfferRepeat (l : Fin 3)
  | featureAccept (l : Fin 3) (word : BitVec 60) (serial : Fin 1024)
  | featureOfferReceived (l : Fin 3) (word : BitVec 60) (serial : Fin 1024) (changed : Bool)
  | featureChangedRepeat (l : Fin 3)
  -- probe synthesis
  | launchCmdArrive (line : Fin 2) (slot : Fin 16)
  | probeLaunch (line : Fin 2)
  | envelopeSubwindowEnd (line : Fin 2)
  | interlockTrip (line : Fin 2)
  | interlockRelease (line : Fin 2)
  | fibreBreakRaise (line : Fin 2)
  | fibreBreakClear (line : Fin 2)
  -- converters
  | rotationStep (line : Fin 2) (input : Fin 4) (window : Option SkewWindow)
  | spareMeasureDone (line : Fin 2) (input : Fin 4) (offset gain : Int) (thresholds : List Int)
  | correctionStep (line : Fin 2)
  | refFallback (line : Fin 2)
  | refSettled (line : Fin 2)
  | priorityPassEnd (line : Fin 2) (input : Fin 4)
  | fgCalInputDone (line : Fin 2) (input : Fin 4) (values : List CalVal)
  | fullFgCalDone (line : Fin 2) (values : List CalVal) (gains : List Nat)
  | overRange (line : Fin 2) (input : Fin 6) (length gap : Nat)
  | ramanFgCalStart (line : Fin 2)
  | ramanFgCalForce (line : Fin 2)
  | ramanFgCalDone (line : Fin 2) (values : List CalVal) (gains : List Nat)
  | captureWindowEnd (line : Fin 2)
  -- channeliser and pulse compression
  | recal (line : Fin 2)
  | launchMeasureDone (line : Fin 2)
  | launchMeasureTimeout (line : Fin 2)
  | traceDeliver (line : Fin 2) (slot : Fin 16) (pol : Fin 2) (samples : List IQ)
  -- passes
  | shotPass (t : Fin 8)
  | outputPass (t : Fin 8)
  | ramanPass (t : Fin 8)
  | servicePass (t : Fin 8)
  | backgroundSlice (t : Fin 8)
  | passDrop (t : Fin 8)
  | recoveryPass (t : Fin 8) (failLane : Option (Fin 64))
  -- lane instructions
  | nop (t : Fin 8)
  | rep (t : Fin 8) (src : Bool) (count : Fin 1024) (reg : Fin 32) (len : Fin 64)
  | br (t : Fin 8) (p : Pred) (mode : Fin 4) (target : Fin 4096)
  | end_ (t : Fin 8)
  | hook (t : Fin 8) (h : Fin 4)
  | mode (t : Fin 8) (g : Bool)
  | aovclr (t : Fin 8) (p : Pred)
  | wait (t : Fin 8) (n : Fin 64)
  | ld (t : Fin 8) (p : Pred) (m : FmtM)
  | ldp (t : Fin 8) (p : Pred) (m : FmtM)
  | st (t : Fin 8) (p : Pred) (m : FmtM)
  | stp (t : Fin 8) (p : Pred) (m : FmtM)
  | ald (t : Fin 8) (p : Pred) (m : FmtM)
  | ast (t : Fin 8) (p : Pred) (m : FmtM)
  | xld (t : Fin 8) (p : Pred) (f : FmtI)
  | xadd (t : Fin 8) (p : Pred) (f : FmtI)
  | alu (t : Fin 8) (p : Pred) (r : FmtR)
  | alud (t : Fin 8) (p : Pred) (r : FmtR)
  | alui (t : Fin 8) (p : Pred) (f : FmtI)
  | cmp (t : Fin 8) (p : Pred) (r : FmtR)
  | cmpi (t : Fin 8) (p : Pred) (f : FmtI)
  | sel (t : Fin 8) (p : Pred) (r : FmtR)
  | movi (t : Fin 8) (p : Pred) (rd : Fin 32) (imm : BitVec 20) (w : Bool)
  | mac (t : Fin 8) (p : Pred) (r : FmtR)
  | cmac (t : Fin 8) (p : Pred) (r : FmtR)
  | dmac (t : Fin 8) (p : Pred) (r : FmtR)
  | aop (t : Fin 8) (p : Pred) (r : FmtR)
  | ash (t : Fin 8) (p : Pred) (r : FmtR)
  | atst (t : Fin 8) (p : Pred) (r : FmtR)
  | gmac (t : Fin 8) (p : Pred) (r : FmtR)
  | atan (t : Fin 8) (p : Pred) (r : FmtR)
  | mag (t : Fin 8) (p : Pred) (r : FmtR)
  | mag2 (t : Fin 8) (p : Pred) (r : FmtR)
  | unit (t : Fin 8) (p : Pred) (r : FmtR)
  | rot (t : Fin 8) (p : Pred) (r : FmtR)
  | lnr (t : Fin 8) (p : Pred) (r : FmtR)
  | dbl (t : Fin 8) (p : Pred) (r : FmtR)
  | expw (t : Fin 8) (p : Pred) (r : FmtR)
  | div (t : Fin 8) (p : Pred) (r : FmtR)
  | maxi (t : Fin 8) (p : Pred) (r : FmtR)
  | mini (t : Fin 8) (p : Pred) (r : FmtR)
  | portInput (t : Fin 8) (p : Pred) (pair : Bool) (r : Fin 32)
  | portDramRead (t : Fin 8) (p : Pred) (f : FmtP)
  | portDramWrite (t : Fin 8) (p : Pred) (f : FmtP)
  | portXbufRead (t : Fin 8) (p : Pred) (r ra : Fin 32)
  | portXbufWrite (t : Fin 8) (p : Pred) (r ra : Fin 32)
  | out (t : Fin 8) (p : Pred) (o : FmtO)
  | xch (t : Fin 8) (p : Pred) (r : FmtR)
  | prm (t : Fin 8) (p : Pred) (f : FmtI)
  -- spectral shift, Raman and fusion
  | captureRequest (line : Fin 2)
  | captureStart (line : Fin 2)
  | datumSlow (line : Fin 2)
  | ramanCapture (line : Fin 2) (asSamples stSamples asDark stDark : List Int)
  | ramanBlockEnd (line : Fin 2)
  | ramanBlockSelfPass (line : Fin 2)
  | coilcal (line : Fin 2)
  | coilCalResume (line : Fin 2)
  | calAgeExpiry (line : Fin 2)
  | fusionStart (line : Fin 2)
  -- streams
  | streamInput (n : Fin 256) (stamp : Nat)
  | detectorSummary (n : Fin 256) (d : Fin 4)
  | syncNEdge
  | stCmdSync (n : Fin 256)
  | streamReset (n : Fin 256)
  | swapRequest (n : Fin 256)
  | coefWrite (n : Fin 256) (value : BitVec 20)
  -- coding and replay
  | codeFrame
  | ringWrite
  | ringGapTimeout (n : Fin 256)
  | cursorStart (c : Fin 16)
  | cursorStop (c : Fin 16)
  | seekOldest (c : Fin 16)
  | seekNewest (c : Fin 16)
  | seekSerial (c : Fin 16)
  | seekDone (c : Fin 16)
  | cursorRead (c : Fin 16)
  -- zones and loops
  | zoneStaleTimeout (z : Fin 4096)
  | zonePortUpdate (z : Fin 4096)
  | zqSelect (addr : Fin 4096)
  | zqAddressChange (addr : Fin 4096)
  | zqDeselect
  | zqForceTimeout
  | alarmStretchExpiry (pin : Fin 4)
  | znAck
  | loopFaultTimer (n : Fin 8)
  | loopReleaseTimer (n : Fin 8)
  | loopReleaseCmd (n : Fin 8)
  | loopOpen (n : Fin 8)
  | loopDeviation (n : Fin 8)
  | loopConditionClear (n : Fin 8) (openCond : Bool)
  -- housekeeping
  | m0ConversionEnd (d : Int)
  | m1FrameStart
  | m1ConversionEnd (ch : Fin 32) (value : Int) (isOver : Bool)
  | notchLengthUpdate (count : Nat)
  | hkRefWindowExit
  | hkRefRestore
  | urgentRequest (ch : Fin 32)
  | burnoutPulse (n : Fin 4) (openBalls : BitVec 4)
  | rtdOpenClear (n : Fin 4)
  -- time and TDC
  | trefPresent (is100 : Bool)
  | trefLoss
  | timeNoClock
  | timeRelock
  | disciplineMeasurement (e : Int) (tm : Nat)
  | ppsEdge (q f : Nat)
  | ppsLoss
  | hostHoldover
  | timeSet (src tag seq t : Nat)
  | timeTrack (src tag seq t : Nat)
  | timePpsLabel (src tag seq seconds : Nat)
  | ppsOutPulse
  | timeSnapshot (src : Fin 4)
  | timeAdjust
  | tdcEdge (ch : Fin 9) (falling : Bool) (q f : Nat)
  | tdcGateChange (g : Fin 4) (level : Bool)
  | tdcWindowEnd (g : Fin 4)
  | tdcArm (ch : Fin 9)
  | tdcDisarm (ch : Fin 9)
  | tdcPop (ch : Fin 9)
  | tdcFlushTimer (ch : Fin 9)
  | tdcPairHoldEnd (pair : Fin 4)
  | tdcPairWindowExpiry (pair : Fin 4)
  | tdcCal (ch : Fin 9)
  | tdcCalComplete (ch : Fin 9) (hist : List Nat)
  | tdcCalTimeout (ch : Fin 9)
  | tdcCalRetry (ch : Fin 9)
  | tdcCalPeriod (ch : Fin 9)
  | monWindowExpiry (line : Fin 2)
  -- serial lanes
  | laneDetectDone (q : Fin 3) (present : BitVec 4)
  | absentRetry (q : Fin 3)
  | linkActive (q : Fin 3)
  | blindTimeout (q : Fin 3)
  | trainingSetReceived (q : Fin 3) (p : Fin 4) (symbols : List Nat)
  | trainStepPass (q : Fin 3) (lanes : BitVec 4)
  | trainStepTimeout (q : Fin 3) (lanes : BitVec 4)
  | downRetry (q : Fin 3)
  | laneLos (q : Fin 3) (p : Fin 4)
  | losDetectReturn (q : Fin 3) (p : Fin 4)
  | linkFaultDetect (q : Fin 3) (cause : Fin 8)
  | orderedSetInsert (q : Fin 3)
  | idleWake (q : Fin 3)
  | linkReset (q : Fin 3)
  | feLoopbackExit (q : Fin 3)
  -- link protocol
  | credit (l : Fin 3) (grants : List Nat)
  | creditSend (l : Fin 3)
  | read (l : Fin 3) (tag src : Nat) (addr : BitVec 20) (count : Nat)
  | write (l : Fin 3) (tag src : Nat) (addr mask : BitVec 20) (values : List (BitVec 20))
  | timedSend (l : Fin 3) (tag src : Nat) (words : List Word)
  | timedLaunch
  | frameForward (l : Fin 3) (symbols : List Nat)
  | levelRunStart
  | levelReq (l : Fin 3) (frame : Frame) (stamp : Nat)
  | levelResp (l : Fin 3) (frame : Frame) (stamp : Nat)
  | levelRunEnd
  | chainSync (l : Fin 3) (frame : Frame)
  -- memory
  | dramTrainingDone (failed : BitVec 8)
  | dqsOscRead (drift : List Int)
  | shortRetrainStart (ch : Fin 4)
  | trainingCollectionDone (ch : Fin 4) (pass : Bool)
  | freqChangeDone
  | thermalReturn
  | dramRead (addr : Nat) (single double other : Bool)
  | freezeEnd (intact : Bool)
  | freezeTimeout
  | channelLossDone
  | scrubRead (single double other : Bool)
  | c3AgePromote
  -- clocks and standby
  | standbyExitStep
  | scsLockLoss
  | scsRelock
  | refclkLoss
  | scsFreerunTimeout
  | refclkReturn
  | refclkAltLoss
  -- management space
  | hostFenceIssue (path : Path)
  | registerSnapshot (path : Path) (clear : Bool) (count : Fin 8)
  | loReadCapture (path : Path) (addr : BitVec 20)
  | hiReadShadow (path : Path) (addr : BitVec 20)
  | loWriteStage (path : Path) (addr value mask : BitVec 20)
  | hiWriteCommit (path : Path) (addr value mask : BitVec 20)
  | loStageExpiry (path : Path)
  | rcRead (path : Path) (addr : BitVec 20)
  | registerWrite (path : Path) (addr value mask : BitVec 20)
  | eventLogSelect (index : Fin 1024)
  | svcRegRead (addr : BitVec 24) (count : Nat)
  | svcRegWrite (addr mask : BitVec 24) (values : List (BitVec 24))
  | svcStatus
  | flashRead (addr : BitVec 32) (count : Nat)
  | flashProgram (addr : BitVec 32) (bytes : List Byte)
  | flashErase (addr : BitVec 32)
  | flashOpDone (ok : Bool)
  | refclkAltPresent
  | eiosReceived (q : Fin 3) (p : Fin 4)
  | mr4Readout (hot cool : Bool)
  | keeperSramError
  | snapshotComplete
  | jtagAccess (ir : BitVec 8)
  deriving DecidableEq, Repr

end Sys2Proof
end

