-- ==== Sys2Proof/Decode.lean ====
section
/-! DEFINITION. The table gives no row any bits: a command is an event or a transaction, not a word, so no word
spells one. The words that do spell something are the lanes' instructions of spec R230, R231, R233 and R237, which a custom
kernel's record holds. -/

namespace Sys2Proof

/-- The command a word spells by the table's bits: none, since no row of the table has bits. -/
def decodeTableWord (_nbits _w : Nat) : Option Instr := none

/-! ### The fields of an instruction word (R230, R231) -/

/-- A field of an instruction. -/
def insBits (w : BitVec 40) (hi lo : Nat) : Nat := w.toNat / 2 ^ lo % 2 ^ (hi + 1 - lo)

/-- One bit of an instruction. -/
def insBit (w : BitVec 40) (i : Nat) : Bool := decide (insBits w i i = 1)

/-- A register field. -/
def insReg (w : BitVec 40) (lo : Nat) : Fin 32 := ⟨insBits w (lo + 4) lo % 32, Nat.mod_lt _ (by decide)⟩

/-- A field as a bounded number. -/
def insFin (n : Nat) [NeZero n] (w : BitVec 40) (hi lo : Nat) : Fin n := ⟨insBits w hi lo % n, Nat.mod_lt _ (NeZero.pos n)⟩

/-- R230: NEG and PSEL. -/
def insPred (w : BitVec 40) : Pred := { neg := insBit w 33, psel := insFin 4 w 32 31 }

/-- R231 format R. -/
def insR (w : BitVec 40) : FmtR :=
  { rd := insReg w 26, ra := insReg w 21, rb := insReg w 16, fn := insFin 16 w 15 12, sh := insFin 64 w 11 6,
    rnd := insFin 4 w 5 4, sat := insBit w 3, cj := insBit w 2, a := insBit w 1 }

/-- R231 format I. -/
def insI (w : BitVec 40) : FmtI :=
  { rd := insReg w 26, ra := insReg w 21, fn := insFin 16 w 20 17, w := insBit w 16, imm := BitVec.ofNat 16 (insBits w 15 0) }

/-- R231 format M. -/
def insM (w : BitVec 40) : FmtM :=
  { r := insReg w 26, x := insFin 4 w 25 24, off := insFin 16384 w 23 10, scl := insFin 4 w 9 8, inc := insFin 8 w 7 5,
    acc := insBit w 4 }

/-- R231 format P. -/
def insP (w : BitVec 40) : FmtP :=
  { r := insReg w 26, ra := insReg w 21, n := insFin 64 w 17 12, region := insFin 4 w 11 10 }

/-- R231 format O. -/
def insO (w : BitVec 40) : FmtO :=
  { rs := insReg w 26, n := insFin 4 w 25 24, rf := insReg w 19, code := insFin 1024 w 18 9 }

/-- R231: the low bits that a format gives as 0; a word with one of them set is no instruction (log entry 142). -/
def lowZero (w : BitVec 40) (n : Nat) : Bool := decide (w.toNat % 2 ^ n = 0)

/-- An instruction that needs its low `n` bits zero. -/
def ifLow (w : BitVec 40) (n : Nat) (i : Instr) : Option Instr := if lowZero w n then some i else none

/-- R237: the predicate that BR evaluates: its own PSEL field, inverted by NEG. -/
def insBrPred (w : BitVec 40) : Pred := { neg := insBit w 33, psel := insFin 4 w 28 27 }

/-- R242: PORT by its PORT field; 6 and 7 name no path. -/
def decodePort (t : Fin 8) (w : BitVec 40) : Option Instr :=
  let p := insPred w
  match insBits w 20 18 with
  | 0 => some (.portInput t p false (insReg w 26))
  | 1 => some (.portInput t p true (insReg w 26))
  | 2 => some (.portDramRead t p (insP w))
  | 3 => some (.portDramWrite t p (insP w))
  | 4 => some (.portXbufRead t p (insReg w 26) (insReg w 21))
  | 5 => some (.portXbufWrite t p (insReg w 26) (insReg w 21))
  | _ => none

/-- R233, R236: the format R instructions by opcode. -/
def decodeR (t : Fin 8) (w : BitVec 40) : Option Instr :=
  let p := insPred w
  let r := insR w
  match insBits w 39 34 with
  | 0x010 => some (.alu t p r)
  | 0x011 => some (.alud t p r)
  | 0x013 => some (.cmp t p r)
  | 0x015 => some (.sel t p r)
  | 0x018 => some (.mac t p r)
  | 0x019 => some (.cmac t p r)
  | 0x01A => some (.dmac t p r)
  | 0x01B => some (.aop t p r)
  | 0x01C => some (.ash t p r)
  | 0x01D => some (.atst t p r)
  | 0x01E => some (.gmac t p r)
  | 0x020 => some (.atan t p r)
  | 0x021 => some (.mag t p r)
  | 0x022 => some (.mag2 t p r)
  | 0x023 => some (.unit t p r)
  | 0x024 => some (.rot t p r)
  | 0x025 => some (.lnr t p r)
  | 0x026 => some (.dbl t p r)
  | 0x027 => some (.expw t p r)
  | 0x028 => some (.div t p r)
  | 0x029 => some (.maxi t p r)
  | 0x02A => some (.mini t p r)
  | 0x03A => some (.xch t p r)
  | _ => none

/-- R230, R233: the instruction that a word spells on a traverse; a reserved opcode spells none. -/
def decodeLane (t : Fin 8) (w : BitVec 40) : Option Instr :=
  let p := insPred w
  match insBits w 39 34 with
  | 0x000 => some (.nop t)
  | 0x001 => some (.rep t (insBit w 30) (insFin 1024 w 29 20) (insReg w 25) (insFin 64 w 19 14))
  | 0x002 => some (.br t (insBrPred w) (insFin 4 w 30 29) (insFin 4096 w 26 15))
  | 0x003 => some (.end_ t)
  | 0x004 => some (.hook t (insFin 4 w 30 29))
  | 0x005 => some (.mode t (insBit w 30))
  | 0x006 => some (.aovclr t p)
  | 0x007 => some (.wait t (insFin 64 w 15 10))
  | 0x008 => ifLow w 4 (.ld t p (insM w))
  | 0x009 => ifLow w 4 (.ldp t p (insM w))
  | 0x00A => ifLow w 4 (.st t p (insM w))
  | 0x00B => ifLow w 4 (.stp t p (insM w))
  | 0x00C => ifLow w 4 (.ald t p (insM w))
  | 0x00D => ifLow w 4 (.ast t p (insM w))
  | 0x00E => some (.xld t p (insI w))
  | 0x00F => some (.xadd t p (insI w))
  | 0x012 => some (.alui t p (insI w))
  | 0x014 => some (.cmpi t p (insI w))
  | 0x016 => ifLow w 5 (.movi t p (insReg w 26) (BitVec.ofNat 20 (insBits w 25 6)) (insBit w 5))
  | 0x038 => if lowZero w 10 then decodePort t w else none
  | 0x039 => ifLow w 9 (.out t p (insO w))
  | 0x03B => some (.prm t p (insI w))
  | _ => if lowZero w 1 then decodeR t w else none

end Sys2Proof
end

