-- ==== Sys2Proof/Config.lean ====
section
/-! DEFINITION. What an implementation fixes and the free values: constants without a body, so that nothing in a
proof can lean on a number the spec does not give. -/

namespace Sys2Proof.Config
open Sys2Proof

/-- A free value of the spec, drawn by the model's counter `freeCtr` (log entry 2): within a stated tolerance, or
wholly open. -/
opaque freeNat : Nat → Nat

/-- R228: what a lane's registers hold at a pass, slice or kernel entry: the draw number, the lane and the item. -/
opaque freeLane : Nat → Nat → Nat → BitVec 40

/-- R87: the DAC interpolation filter, whose coefficients and length the spec does not state: coefficient n at the phase rate
of 25.6 GHz for group width g, in 2^-16, and the number of coefficients. -/
opaque dacTap : Nat → Nat → Int
opaque dacTaps : Nat → Nat

/-- R117, R138, R142: what a value becomes that does not fit a variable of the width declared for it, which the spec does not
state: the width and the value. -/
opaque misfit : Nat → Int → Nat

/-- R117: whether a quarter of an offset code is rounded up to the 4 fraction bits of u, which the spec does not state. -/
opaque quarterUp : Int → Bool

/-- R112: which of the eight conversion places takes sample 0 of a fast input, which the spec does not state: line and input. -/
opaque slicePlace : Nat → Nat → Nat

/-- R86: what rounding between the interpolator and the sum adds, which the spec does not state: the draw number, the
slot and the DAC sample. -/
opaque dacRound : Nat → Nat → Nat → Nat

/-- R85: whether the phase increment of sample i of a chirp is rounded up, which the spec does not state: f_start and f_stop in
kHz, L, g and i. -/
opaque chirpRound : Int → Int → Nat → Nat → Nat → Bool

/-- R139, R140: the channeliser prototype, whose coefficients the spec does not state: tap n of 2,048 at 12.8 GS/s, in 2^-30. -/
opaque protoTap : Nat → Int

/-- R141: the interpolation filter with which the merge upsamples by g, whose coefficients and length the spec does not state:
tap n at 100·g MS/s, in 2^-30, and the number of taps. -/
opaque mergeTap : Nat → Nat → Int
opaque mergeTaps : Nat → Nat

/-- R143: the PCE's error within its tolerance: the draw number, the station and the component. -/
opaque pceError : Nat → Nat → Nat → Nat

/-- R35: a plan's coded host-link demand in bit/s, which depends on data the plan does not hold. -/
opaque hostDemand : Nat → Nat

/-- R340, R359: PPS_OUT_WIDTH in µs where no TIME_CONFIG states it. -/
opaque ppsWidth : Nat → Nat

/-- R49: the SHA-384 of the vendor's public key in the mask ROM, which the spec does not give. -/
opaque vendorHash : Nat → Nat

/-- R1, R48: whether the manufacturing trim marks a TH2512-IB; the spec does not say which of its bits does. -/
opaque trimGrade : Nat → Bool

/-- R353, R354: the manufacturing-trim bin width of a TDC channel's code, in 2^-20 ns. -/
opaque tdcTrim : Nat → Nat → Nat

/-- R319: the value of channel 4, HK_REF against the bandgap, in 10 µV, from its conversion result and gain. -/
opaque hkRefValue : Int → Nat → Int

/-- R241: the local memory word that an upset strikes at an elapsed time, if any: traverse, lane and address. -/
opaque upset : Nat → Option (Nat × Nat × Nat)

/-- R183, R199, R289, R300: the DRAM byte addresses that Fieldbook chose for a plan: 0 the datum region, 1 the ring's index. The
plan is named by its identifier and revision. -/
opaque regionBase : Nat → Nat → Nat → Nat

/-- R45, R496: what a JTAG instruction code asks for, whose codes the spec does not give: 0 IDCODE, 1 BYPASS, 2 boundary
scan, 3 field-core debug, 4 any other part but the keeper core, anything else the keeper core. -/
opaque jtagClass : Nat → Nat

end Sys2Proof.Config
end

