-- ==== Sys2Proof/Machine/Tab.lean ====
section
/-! DEFINITION. Sparse tables in one canonical form: a list of (key, value) pairs with rising keys and no entry
equal to the default of its key, so that equal tables are equal data. Also the small list and vector helpers. -/

namespace Sys2Proof

/-- A sparse table by Nat key. -/
abbrev Tab (α : Type) := List (Nat × α)

namespace Machine

/-- The value at a key, `d` where the table lists none. -/
def tabGet {α : Type} (d : α) : Tab α → Nat → α
  | [], _ => d
  | (k, v) :: t, a => if a = k then v else tabGet d t a

/-- The listed value at a key, if any. -/
def tabFind {α : Type} : Tab α → Nat → Option α
  | [], _ => none
  | (k, v) :: t, a => if a = k then some v else tabFind t a

/-- The table without an entry at the key. -/
def tabErase {α : Type} (t : Tab α) (a : Nat) : Tab α := t.filter (fun e => decide (e.1 ≠ a))

/-- The table with the entry listed, in key order. -/
def tabPut {α : Type} : Tab α → Nat → α → Tab α
  | [], a, x => [(a, x)]
  | (k, v) :: t, a, x =>
    if a < k then (a, x) :: (k, v) :: t
    else if a = k then (a, x) :: t
    else (k, v) :: tabPut t a x

/-- The table with `x` at key `a`; an entry equal to the default `d` of that key is not listed. -/
def tabSet {α : Type} [DecidableEq α] (d : α) (t : Tab α) (a : Nat) (x : α) : Tab α :=
  if x = d then tabErase t a else tabPut t a x

/-- Every key of the table is above `lo` (none: any key) and the keys rise. -/
def tabSorted {α : Type} : Option Nat → Tab α → Bool
  | _, [] => true
  | lo, (k, _) :: t => (match lo with | none => true | some l => decide (l < k)) && tabSorted (some k) t

/-- The canonical form: keys rise, and no entry equals the default of its key. -/
def tabWf {α : Type} [DecidableEq α] (d : Nat → α) (t : Tab α) : Bool :=
  tabSorted none t && t.all (fun e => decide (e.2 ≠ d e.1))

/-- The table with every listed value mapped; values mapped to the default are no longer listed. -/
def tabMap {α : Type} [DecidableEq α] (d : Nat → α) (f : Nat → α → α) (t : Tab α) : Tab α :=
  t.filterMap (fun e => let x := f e.1 e.2; if x = d e.1 then none else some (e.1, x))

/-- The table's entries whose key passes the test. -/
def tabKeep {α : Type} (p : Nat → Bool) (t : Tab α) : Tab α := t.filter (fun e => p e.1)

/-- Element `i` of a vector, the last in range where `i` is not (callers pass indexes in range). -/
def vget {α : Type} {n : Nat} (v : Vector α n) (i : Fin n) : α := v[i.val]

/-- The vector with element `i` replaced. -/
def vset {α : Type} {n : Nat} (v : Vector α n) (i : Fin n) (x : α) : Vector α n := v.set i.val x

/-- The vector with element `i` changed by `f`. -/
def vmod {α : Type} {n : Nat} (v : Vector α n) (i : Fin n) (f : α → α) : Vector α n :=
  v.set i.val (f v[i.val])

/-- Element `i` of a list, `d` beyond its end. -/
def lget {α : Type} (d : α) (l : List α) (i : Nat) : α := l.getD i d

end Machine
end Sys2Proof
end

