-- ==== Sys2Proof/Machine/Bits.lean ====
section
/-! DEFINITION. Bit fields, sign extension, saturation and the word layouts of spec R4 to R7. -/

namespace Sys2Proof.Machine
open Sys2Proof

/-- Bits [hi:lo] of a natural number. -/
def bitsOf (v hi lo : Nat) : Nat := (v / 2 ^ lo) % 2 ^ (hi + 1 - lo)

/-- Bit `i` of a natural number. -/
def bitOf (v i : Nat) : Bool := (v / 2 ^ i) % 2 = 1

/-- The number with bits [hi:lo] replaced by the low bits of `x`. -/
def bitsPut (v hi lo x : Nat) : Nat :=
  v - bitsOf v hi lo * 2 ^ lo + (x % 2 ^ (hi + 1 - lo)) * 2 ^ lo

/-- A Bool as a one-bit number. -/
def b2n (b : Bool) : Nat := if b then 1 else 0

/-- R6: the two's complement value of the low `w` bits. -/
def signedOf (w v : Nat) : Int :=
  let x := v % 2 ^ w
  if x < 2 ^ (w - 1) then (x : Int) else (x : Int) - 2 ^ w

/-- R6: the two's complement field of `w` bits of an integer (modulo 2^w). -/
def fieldOf (w : Nat) (v : Int) : Nat := (v % (2 ^ w : Int)).toNat

/-- The integer limited to the range lo to hi. -/
def clampI (lo hi v : Int) : Int := if v < lo then lo else if hi < v then hi else v

/-- The natural number limited to the range lo to hi. -/
def clampN (lo hi v : Nat) : Nat := if v < lo then lo else if hi < v then hi else v

/-- Saturation to a signed field of `w` bits. -/
def satS (w : Nat) (v : Int) : Int := clampI (-(2 ^ (w - 1) : Int)) ((2 ^ (w - 1) : Int) - 1) v

/-- Saturation to an unsigned field of `w` bits. -/
def satU (w v : Nat) : Nat := if v < 2 ^ w then v else 2 ^ w - 1

/-- Floor division by a power of two (an arithmetic shift right). -/
def shrI (v : Int) (k : Nat) : Int := v / (2 ^ k : Int)

/-- Division rounding half up: floor(v/d + 1/2). -/
def roundHalfUp (v : Int) (d : Nat) : Int := (2 * v + d) / (2 * (d : Int))

/-- Division rounding to nearest, halves away from zero. -/
def roundAway (v : Int) (d : Nat) : Int :=
  if 0 ≤ v then (2 * v + d) / (2 * (d : Int)) else -((2 * (-v) + d) / (2 * (d : Int)))

/-- Division rounding to nearest, halves to even. -/
def roundEven (v : Int) (d : Nat) : Int :=
  let q := v / (d : Int)
  let r := v - q * d
  if 2 * r < d then q else if (d : Int) < 2 * r then q + 1 else if q % 2 = 0 then q else q + 1

/-- The value of words in R4's order, word 0 lowest. -/
def wordsVal : List Word → Nat
  | [] => 0
  | w :: ws => w.toNat + 1024 * wordsVal ws

/-- The low `n` words of a value, word 0 first (R4). -/
def wordsOf : Nat → Nat → List Word
  | 0, _ => []
  | n + 1, v => BitVec.ofNat 10 v :: wordsOf n (v / 1024)

/-- The value of `n` words of a payload from word `i`. -/
def wAt (p : List Word) (i n : Nat) : Nat := wordsVal ((p.drop i).take n)

/-- The signed value of `n` words of a payload from word `i`. -/
def wAtS (p : List Word) (i n : Nat) : Int := signedOf (10 * n) (wAt p i n)

/-- R7: four words pack into five bytes, little-endian; missing words of the last group are zero. -/
def packWords : List Word → List Byte
  | [] => []
  | a :: [] => packGroup (wordsVal [a])
  | a :: b :: [] => packGroup (wordsVal [a, b])
  | a :: b :: c :: [] => packGroup (wordsVal [a, b, c])
  | a :: b :: c :: d :: t => packGroup (wordsVal [a, b, c, d]) ++ packWords t
where
  /-- The five bytes of a 40-bit group, byte 0 the lowest. -/
  packGroup (v : Nat) : List Byte :=
    [BitVec.ofNat 8 v, BitVec.ofNat 8 (v / 2 ^ 8), BitVec.ofNat 8 (v / 2 ^ 16), BitVec.ofNat 8 (v / 2 ^ 24),
     BitVec.ofNat 8 (v / 2 ^ 32)]

/-- The value of bytes, byte 0 lowest. -/
def bytesVal : List Byte → Nat
  | [] => 0
  | b :: t => b.toNat + 256 * bytesVal t

/-- R7 backwards: `n` words read from packed bytes. -/
def unpackWords (n : Nat) (bs : List Byte) : List Word := wordsOf n (bytesVal bs)

/-- R7: the bytes of `n` words in their packed image: whole groups of four words in five bytes. -/
def packedBytes (n : Nat) : Nat := 5 * ((n + 3) / 4)

/-- The same as `k n`: whoever evaluates it has `n` as a numeral first, so a long computation stays short (`force_eq`). -/
def force {α : Type} (n : Nat) (k : Nat → α) : α :=
  match n with
  | 0 => k 0
  | m + 1 => k (m + 1)

@[simp] theorem force_eq {α : Type} (n : Nat) (k : Nat → α) : force n k = k n := by cases n <;> rfl

/-- One bit step of the reflected CRC-32C (Castagnoli polynomial 0x1EDC6F41, reflected 0x82F63B78). -/
def crcBits : Nat → Nat → Nat
  | 0, c => c
  | n + 1, c => crcBits n (if c % 2 = 1 then c / 2 ^^^ 0x82F63B78 else c / 2)

/-- The CRC register over a list of bytes. -/
def crcStep : Nat → List Byte → Nat
  | c, [] => c
  | c, b :: t => force (crcBits 8 (c ^^^ b.toNat)) (fun v => crcStep v t)

/-- CRC-32C of bytes (all-ones preset and final complement, as the standard defines it). -/
def crc32c (bs : List Byte) : BitVec 32 := ~~~ (BitVec.ofNat 32 (crcStep 0xFFFFFFFF bs))

/-- R7: the CRC-32C of words, over their packed byte image. -/
def crcWords (ws : List Word) : Nat := (crc32c (packWords ws)).toNat

/-- Integer square root, floor, by the digit method with fuel (2^fuel bounds the root). -/
def isqrtGo : Nat → Nat → Nat → Nat
  | 0, _, r => r
  | f + 1, n, r => let c := r + 2 ^ f; if c * c ≤ n then isqrtGo f n c else isqrtGo f n r

/-- Floor of the square root of a number below 2^(2·128). -/
def isqrt (n : Nat) : Nat := isqrtGo 128 n 0

/-- The least k with n ≤ 2^k (ceil of the base-2 logarithm), for n up to 2^fuel. -/
def ceilLog2 (n : Nat) : Nat := (List.range 64).foldl (fun a k => if 2 ^ k < n then k + 1 else a) 0

/-- Ceiling division. -/
def ceilDiv (a b : Nat) : Nat := (a + b - 1) / b

/-- The sum of a list of integers. -/
def sumI (l : List Int) : Int := l.foldl (· + ·) 0

/-- The sum of a list of naturals. -/
def sumN (l : List Nat) : Nat := l.foldl (· + ·) 0

/-- The set bits of a mask below `n`, lowest first. -/
def maskBits (n m : Nat) : List Nat := (List.range n).filter (fun i => bitOf m i)

/-- R27: identifier a is later than b when (a − b) mod 1,024 lies in 1 to 511. -/
def idLater (a b : Nat) : Bool :=
  let d := (a + 1024 - b % 1024) % 1024
  decide (1 ≤ d ∧ d ≤ 511)

end Sys2Proof.Machine
end

