-- ==== Sys2Proof/Machine/RegMap.lean ====
section
/-! DEFINITION. The register tables of the spec (R81, R109, R136, R155, R179, R199, R220, R250, R276, R300, R317,
R336, R360, R386, R411, R436, R455, R466, R471, R491) as rows: address, copies, bits, access, reset value and what
keeps the field. A field marked live holds no stored bits here: it is computed when read, from the state that has
its value. -/

namespace Sys2Proof.Machine
open Sys2Proof

/-- R14: the Access column of a register table. -/
inductive Access where
  | ro | rw | wo | w1c | rc | rwf | rwb
  deriving DecidableEq, Repr

/-- One field of the register tables (R13): `n1` copies every `s1` addresses, each with `n2` copies every `s2`. -/
structure RegRow where
  base : Nat
  n1 : Nat
  s1 : Nat
  n2 : Nat
  s2 : Nat
  hi : Nat
  lo : Nat
  acc : Access
  /-- Value after POR and COLD reset. -/
  reset : Nat
  keptW : Bool
  keptL : Bool
  keptS : Bool
  /-- No stored bits: read from other state. -/
  live : Bool
  deriving DecidableEq, Repr

/-- A field of one register: its address and bits. -/
structure Fld where
  addr : Nat
  hi : Nat
  lo : Nat
  deriving DecidableEq, Repr

/-- The row covers this address. -/
def rowHas (r : RegRow) (a : Nat) : Bool :=
  decide (r.base ≤ a) &&
    (let d := a - r.base
     decide (d / r.s1 < r.n1) && decide ((d % r.s1) / r.s2 < r.n2) && decide ((d % r.s1) % r.s2 = 0))

/-- The fields of block 0x000 (MG). -/
def rowsMg : List RegRow := [
  ⟨0x00000, 1, 1, 1, 1, 19, 0, .ro, 2512, true, true, true, false⟩,  -- MG_ID.PART
  ⟨0x00001, 1, 1, 1, 1, 10, 10, .ro, 0, true, true, true, true⟩,  -- MG_REV.GRADE
  ⟨0x00001, 1, 1, 1, 1, 9, 5, .ro, 1, true, true, true, false⟩,  -- MG_REV.LETTER
  ⟨0x00001, 1, 1, 1, 1, 4, 0, .ro, 1, true, true, true, false⟩,  -- MG_REV.NUMBER
  ⟨0x00002, 7, 1, 1, 1, 19, 0, .ro, 0, true, true, true, true⟩,  -- MG_UID.UID
  ⟨0x00009, 1, 1, 1, 1, 19, 0, .ro, 0, true, true, true, false⟩,  -- MG_IMAGE.SEQ
  ⟨0x0000A, 1, 1, 1, 1, 19, 0, .ro, 0, true, true, true, false⟩,  -- MG_PLAN_ID.ID
  ⟨0x0000B, 1, 1, 1, 1, 19, 0, .ro, 0, true, true, true, false⟩,  -- MG_PLAN_REV.REV
  ⟨0x0000C, 1, 1, 1, 1, 19, 0, .ro, 0, true, true, true, false⟩,  -- MG_AMEND_SEQ.SEQ
  ⟨0x00010, 1, 1, 1, 1, 19, 17, .w1c, 0, true, true, true, false⟩,  -- MG_FEAT.REJECT
  ⟨0x00010, 1, 1, 1, 1, 16, 14, .ro, 0, false, false, false, true⟩,  -- MG_FEAT.CHANGED
  ⟨0x00011, 3, 1, 1, 1, 19, 0, .ro, 0, true, true, true, false⟩,  -- MG_OFFER.WORD
  ⟨0x00014, 3, 3, 3, 1, 19, 0, .ro, 0, true, false, true, false⟩,  -- MG_ACC.WORD
  ⟨0x00020, 1, 1, 1, 1, 17, 0, .rw, 0, true, true, true, false⟩,  -- MG_FENCE_SCOPE.MASK
  ⟨0x00021, 1, 1, 1, 1, 19, 19, .wo, 0, false, false, false, false⟩,  -- MG_FENCE.ISSUE
  ⟨0x00021, 1, 1, 1, 1, 18, 17, .ro, 0, true, true, true, false⟩,  -- MG_FENCE.STATUS
  ⟨0x00021, 1, 1, 1, 1, 16, 10, .ro, 0, false, false, false, true⟩,  -- MG_FENCE.OUTSTANDING
  ⟨0x00021, 1, 1, 1, 1, 9, 0, .ro, 0, true, true, true, false⟩,  -- MG_FENCE.HOST_ID
  ⟨0x00022, 1, 1, 1, 1, 19, 10, .ro, 0, true, true, true, false⟩,  -- MG_EPOCH.ISSUED
  ⟨0x00022, 1, 1, 1, 1, 9, 0, .ro, 0, true, true, true, false⟩,  -- MG_EPOCH.EPOCH
  ⟨0x00023, 1, 1, 1, 1, 9, 0, .ro, 0, true, true, true, false⟩,  -- MG_FENCE_FAIL.ID
  ⟨0x00024, 1, 1, 1, 1, 17, 0, .ro, 0, true, true, true, false⟩,  -- MG_FENCE_MISS.MASK
  ⟨0x00030, 1, 1, 1, 1, 19, 19, .wo, 0, false, false, false, false⟩,  -- MG_SNAP_CMD.SNAP
  ⟨0x00030, 1, 1, 1, 1, 18, 18, .wo, 0, false, false, false, false⟩,  -- MG_SNAP_CMD.CLEAR
  ⟨0x00030, 1, 1, 1, 1, 17, 15, .wo, 0, false, false, false, false⟩,  -- MG_SNAP_CMD.COUNT
  ⟨0x00031, 1, 1, 1, 1, 19, 0, .rw, 0, true, true, true, false⟩,  -- MG_SNAP_ADDR.ADDR
  ⟨0x00032, 8, 1, 1, 1, 19, 0, .ro, 0, true, true, true, false⟩,  -- MG_SNAP_DATA.DATA
  ⟨0x0003A, 1, 1, 1, 1, 19, 19, .ro, 0, false, false, false, true⟩,  -- MG_SNAP_STATUS.BUSY
  ⟨0x0003A, 1, 1, 1, 1, 18, 18, .ro, 0, true, true, true, false⟩  -- MG_SNAP_STATUS.ERR
  ]

/-- The fields of block 0x001 (BM). -/
def rowsBm : List RegRow := [
  ⟨0x00400, 1, 1, 1, 1, 19, 18, .ro, 0, true, true, true, true⟩,  -- BM_STATE.LIFECYCLE
  ⟨0x00400, 1, 1, 1, 1, 17, 16, .ro, 0, true, true, true, false⟩,  -- BM_STATE.BOOT_SLOT
  ⟨0x00400, 1, 1, 1, 1, 15, 9, .ro, 0, true, true, true, true⟩,  -- BM_STATE.SEC_COUNTER
  ⟨0x00400, 1, 1, 1, 1, 8, 5, .ro, 0, false, true, true, false⟩,  -- BM_STATE.BOOT_PHASE
  ⟨0x00400, 1, 1, 1, 1, 4, 4, .ro, 0, true, true, true, false⟩,  -- BM_STATE.ALT_BOOT
  ⟨0x00401, 1, 1, 1, 1, 19, 10, .ro, 0, true, true, true, false⟩,  -- BM_BOOT_ERR.ERR_A
  ⟨0x00401, 1, 1, 1, 1, 9, 0, .ro, 0, true, true, true, false⟩,  -- BM_BOOT_ERR.ERR_B
  ⟨0x00402, 1, 1, 1, 1, 9, 8, .ro, 0, true, true, true, true⟩,  -- BM_KEYS.ACTIVE_SLOT
  ⟨0x00402, 1, 1, 1, 1, 7, 4, .ro, 0, true, true, true, true⟩,  -- BM_KEYS.REVOKED
  ⟨0x00402, 1, 1, 1, 1, 3, 0, .ro, 0, true, true, true, true⟩,  -- BM_KEYS.PROGRAMMED
  ⟨0x00403, 1, 1, 1, 1, 19, 10, .ro, 0, false, true, true, false⟩,  -- BM_MBX.LAST_CODE
  ⟨0x00403, 1, 1, 1, 1, 9, 0, .ro, 0, false, true, true, false⟩,  -- BM_MBX.LAST_STATUS
  ⟨0x00404, 1, 1, 1, 1, 19, 4, .ro, 0, true, true, true, false⟩,  -- BM_WDOG.WDOG_RESETS
  ⟨0x00404, 1, 1, 1, 1, 1, 0, .ro, 0, false, true, true, false⟩,  -- BM_WDOG.MISSED
  ⟨0x00405, 1, 1, 1, 1, 19, 0, .ro, 0, true, true, true, false⟩,  -- BM_VIOLATION.COUNT
  ⟨0x00406, 1, 1, 1, 1, 19, 18, .ro, 0, true, true, true, true⟩,  -- BM_RESET.KIND
  ⟨0x00406, 1, 1, 1, 1, 17, 13, .ro, 0, true, true, true, true⟩,  -- BM_RESET.CAUSE
  ⟨0x00406, 1, 1, 1, 1, 12, 9, .ro, 0, true, true, true, true⟩,  -- BM_RESET.WARM_RECENT
  ⟨0x00407, 1, 1, 1, 1, 19, 19, .ro, 0, true, false, true, false⟩,  -- BM_POWER.STANDBY
  ⟨0x00407, 1, 1, 1, 1, 18, 17, .ro, 0, true, false, true, false⟩,  -- BM_POWER.STBY_CAUSE
  ⟨0x00407, 1, 1, 1, 1, 16, 16, .ro, 0, false, false, false, true⟩,  -- BM_POWER.TRANSIT
  ⟨0x00407, 1, 1, 1, 1, 15, 8, .ro, 0, true, true, true, false⟩,  -- BM_POWER.LINE0_RESETS
  ⟨0x00407, 1, 1, 1, 1, 7, 0, .ro, 0, true, true, true, false⟩,  -- BM_POWER.LINE1_RESETS
  ⟨0x00408, 1, 1, 1, 1, 19, 19, .ro, 0, false, false, false, true⟩,  -- BM_CLOCK.SCS_LOCK
  ⟨0x00408, 1, 1, 1, 1, 18, 18, .ro, 0, false, false, false, true⟩,  -- BM_CLOCK.FREQ_STALE
  ⟨0x00408, 1, 1, 1, 1, 17, 16, .ro, 0, false, false, false, true⟩,  -- BM_CLOCK.SCS_REF
  ⟨0x00408, 1, 1, 1, 1, 15, 15, .ro, 0, false, false, false, true⟩,  -- BM_CLOCK.CORE_ALT
  ⟨0x00408, 1, 1, 1, 1, 14, 14, .ro, 0, false, false, false, true⟩,  -- BM_CLOCK.REF_PRESENT
  ⟨0x00408, 1, 1, 1, 1, 13, 13, .ro, 0, false, false, false, true⟩,  -- BM_CLOCK.ALT_PRESENT
  ⟨0x00408, 1, 1, 1, 1, 9, 0, .ro, 0, true, true, true, false⟩  -- BM_CLOCK.UNLOCKS
  ]

/-- The fields of block 0x002 (TM). -/
def rowsTm : List RegRow := [
  ⟨0x00800, 1, 1, 1, 1, 19, 18, .ro, 0, true, true, true, true⟩,  -- TM_STATUS.SOURCE
  ⟨0x00800, 1, 1, 1, 1, 17, 16, .ro, 0, false, false, false, true⟩,  -- TM_STATUS.FREQ_REF
  ⟨0x00800, 1, 1, 1, 1, 15, 15, .ro, 0, false, false, false, true⟩,  -- TM_STATUS.TREF_PRESENT
  ⟨0x00800, 1, 1, 1, 1, 14, 14, .ro, 0, false, false, false, true⟩,  -- TM_STATUS.TREF_100
  ⟨0x00800, 1, 1, 1, 1, 13, 13, .ro, 0, false, false, false, true⟩,  -- TM_STATUS.PPS_PRESENT
  ⟨0x00800, 1, 1, 1, 1, 12, 12, .ro, 0, false, false, false, true⟩,  -- TM_STATUS.HOLDOVER
  ⟨0x00800, 1, 1, 1, 1, 11, 11, .ro, 0, false, false, false, true⟩,  -- TM_STATUS.LOCKED
  ⟨0x00800, 1, 1, 1, 1, 10, 10, .ro, 0, false, false, false, true⟩,  -- TM_STATUS.NO_CLOCK
  ⟨0x00800, 1, 1, 1, 1, 9, 9, .w1c, 0, true, true, true, false⟩,  -- TM_STATUS.STEPPED
  ⟨0x00800, 1, 1, 1, 1, 8, 8, .w1c, 0, true, true, true, false⟩,  -- TM_STATUS.ADJ_LATE
  ⟨0x00801, 1, 1, 1, 1, 19, 19, .wo, 0, false, false, false, false⟩,  -- TM_SNAP_CMD.SNAP
  ⟨0x00801, 1, 1, 1, 1, 18, 17, .wo, 0, false, false, false, false⟩,  -- TM_SNAP_CMD.SRC
  ⟨0x00802, 6, 1, 1, 1, 19, 0, .ro, 0, true, true, true, false⟩,  -- TM_SNAP.TIME
  ⟨0x00808, 1, 1, 1, 1, 19, 0, .rwf, 0, true, true, true, false⟩,  -- TM_INC_LO.INC
  ⟨0x00809, 1, 1, 1, 1, 19, 0, .rwf, 2560, true, true, true, false⟩,  -- TM_INC_HI.INC
  ⟨0x0080A, 1, 1, 1, 1, 19, 0, .ro, 0, true, true, true, false⟩,  -- TM_PHASE_LO.E
  ⟨0x0080B, 1, 1, 1, 1, 19, 0, .ro, 0, true, true, true, false⟩,  -- TM_PHASE_HI.E
  ⟨0x0080C, 1, 1, 1, 1, 19, 0, .ro, 0, true, true, true, true⟩,  -- TM_FREQ.Y
  ⟨0x0080D, 1, 1, 1, 1, 19, 10, .rc, 0, true, true, true, false⟩,  -- TM_COUNTS.STEPS
  ⟨0x0080D, 1, 1, 1, 1, 9, 0, .rc, 0, true, true, true, false⟩,  -- TM_COUNTS.HOST_MSGS
  ⟨0x0080E, 1, 1, 1, 1, 19, 0, .rc, 0, true, true, true, false⟩  -- TM_PPS_BAD.COUNT
  ]

/-- The fields of block 0x003 (TD). -/
def rowsTd : List RegRow := [
  ⟨0x00C00, 1, 1, 1, 1, 19, 11, .ro, 0, false, false, false, true⟩,  -- TD_STATUS.CAL_BUSY
  ⟨0x00C00, 1, 1, 1, 1, 10, 2, .ro, 0, false, false, false, true⟩,  -- TD_STATUS.STALE
  ⟨0x00C01, 1, 1, 1, 1, 19, 11, .w1c, 0, true, true, true, false⟩,  -- TD_CALFAIL.FAIL
  ⟨0x00C01, 1, 1, 1, 1, 10, 8, .ro, 0, true, true, true, false⟩,  -- TD_CALFAIL.CODE
  ⟨0x00C20, 9, 16, 1, 1, 19, 19, .ro, 0, true, true, true, true⟩,  -- TD_CH_STATUS.ENABLED
  ⟨0x00C20, 9, 16, 1, 1, 18, 18, .ro, 0, false, false, false, true⟩,  -- TD_CH_STATUS.ARMED
  ⟨0x00C20, 9, 16, 1, 1, 17, 16, .ro, 0, true, true, true, true⟩,  -- TD_CH_STATUS.MODE
  ⟨0x00C20, 9, 16, 1, 1, 15, 6, .ro, 0, false, false, false, true⟩,  -- TD_CH_STATUS.DEPTH
  ⟨0x00C20, 9, 16, 1, 1, 5, 5, .w1c, 0, false, false, false, false⟩,  -- TD_CH_STATUS.LOST
  ⟨0x00C21, 9, 16, 1, 1, 19, 19, .wo, 0, false, false, false, false⟩,  -- TD_CH_CTRL.ARM
  ⟨0x00C21, 9, 16, 1, 1, 18, 18, .wo, 0, false, false, false, false⟩,  -- TD_CH_CTRL.DISARM
  ⟨0x00C21, 9, 16, 1, 1, 17, 17, .wo, 0, false, false, false, false⟩,  -- TD_CH_CTRL.CAL
  ⟨0x00C21, 9, 16, 1, 1, 16, 16, .wo, 0, false, false, false, false⟩,  -- TD_CH_CTRL.POP
  ⟨0x00C22, 9, 16, 8, 1, 19, 0, .ro, 0, false, false, false, false⟩,  -- TD_CH_ENTRY.WORDS
  ⟨0x00C2A, 9, 16, 1, 1, 19, 0, .ro, 0, true, true, true, true⟩,  -- TD_CH_CALTEMP.TEMP
  ⟨0x00C2B, 9, 16, 1, 1, 19, 12, .rw, 0, true, true, true, false⟩,  -- TD_CH_TAB_SEL.CODE
  ⟨0x00C2C, 9, 16, 1, 1, 19, 0, .ro, 0, false, false, false, true⟩,  -- TD_CH_TAB_DATA.WIDTH
  ⟨0x00C2D, 9, 16, 1, 1, 19, 0, .rwf, 0, true, true, true, false⟩,  -- TD_CH_OFFSET.OFFSET
  ⟨0x00C2E, 9, 16, 1, 1, 19, 0, .ro, 0, false, false, false, true⟩,  -- TD_CH_MON.MEAN
  ⟨0x00D00, 9, 8, 1, 1, 19, 0, .rc, 0, true, true, true, false⟩,  -- TD_DEAD.COUNT
  ⟨0x00D01, 9, 8, 1, 1, 19, 0, .rc, 0, true, true, true, false⟩,  -- TD_QDROP.COUNT
  ⟨0x00D02, 9, 8, 1, 1, 19, 0, .rc, 0, true, true, true, false⟩,  -- TD_ORPHAN_STOP.COUNT
  ⟨0x00D03, 9, 8, 1, 1, 19, 0, .rc, 0, true, true, true, false⟩,  -- TD_ORPHAN_START.COUNT
  ⟨0x00D04, 9, 8, 1, 1, 19, 0, .rc, 0, true, true, true, false⟩,  -- TD_COINC.COUNT
  ⟨0x00D05, 9, 8, 1, 1, 19, 0, .rc, 0, true, true, true, false⟩,  -- TD_MON_MISS.COUNT
  ⟨0x00D06, 9, 8, 1, 1, 19, 0, .rc, 0, true, true, true, false⟩,  -- TD_CAL_REJECT.COUNT
  ⟨0x00D07, 9, 8, 1, 1, 19, 0, .rc, 0, true, true, true, false⟩  -- TD_CAL_LOSS.COUNT
  ]

/-- The fields of block 0x004 (CV). -/
def rowsCv : List RegRow := [
  ⟨0x01000, 2, 1024, 1, 1, 19, 19, .ro, 0, false, false, false, true⟩,  -- CV_STATUS.REF_ACTIVE
  ⟨0x01000, 2, 1024, 1, 1, 18, 18, .ro, 0, false, false, false, true⟩,  -- CV_STATUS.REF_SETTLING
  ⟨0x01000, 2, 1024, 1, 1, 17, 17, .w1c, 0, true, true, true, false⟩,  -- CV_STATUS.REF_FALLBACK
  ⟨0x01000, 2, 1024, 1, 1, 15, 10, .ro, 0, false, false, false, false⟩,  -- CV_STATUS.FG_BUSY
  ⟨0x01000, 2, 1024, 1, 1, 9, 4, .ro, 0, false, false, false, true⟩,  -- CV_STATUS.OVR_ACTIVE
  ⟨0x01000, 2, 1024, 1, 1, 3, 0, .ro, 0, false, false, false, false⟩,  -- CV_STATUS.PASS
  ⟨0x01001, 2, 1024, 1, 1, 19, 16, .ro, 0, true, false, false, false⟩,  -- CV_CAL_STATUS.NOT_CONV
  ⟨0x01001, 2, 1024, 1, 1, 15, 15, .ro, 0, false, false, false, false⟩,  -- CV_CAL_STATUS.RAMAN_FG_PENDING
  ⟨0x01002, 2, 1024, 6, 1, 19, 0, .ro, 0, true, true, true, false⟩,  -- CV_CAL_TEMP.TEMP
  ⟨0x01008, 2, 1024, 6, 1, 19, 0, .rc, 0, true, true, true, false⟩,  -- CV_OVR_COUNT.COUNT
  ⟨0x0100E, 2, 1024, 1, 1, 19, 0, .rc, 0, true, true, true, false⟩,  -- CV_NOTCONV_COUNT.COUNT
  ⟨0x0100F, 2, 1024, 1, 1, 19, 19, .ro, 0, true, true, true, true⟩,  -- CV_PGA.AS_AUTO
  ⟨0x0100F, 2, 1024, 1, 1, 18, 18, .ro, 0, true, true, true, true⟩,  -- CV_PGA.ST_AUTO
  ⟨0x0100F, 2, 1024, 1, 1, 17, 16, .ro, 0, true, true, true, true⟩,  -- CV_PGA.AS_RANGE
  ⟨0x0100F, 2, 1024, 1, 1, 15, 14, .ro, 0, true, true, true, true⟩,  -- CV_PGA.ST_RANGE
  ⟨0x0100F, 2, 1024, 1, 1, 13, 13, .ro, 0, false, false, false, true⟩,  -- CV_PGA.AS_DEFERRED
  ⟨0x0100F, 2, 1024, 1, 1, 12, 12, .ro, 0, false, false, false, true⟩,  -- CV_PGA.ST_DEFERRED
  ⟨0x0100F, 2, 1024, 1, 1, 11, 0, .rc, 0, true, true, true, false⟩,  -- CV_PGA.CHANGES
  ⟨0x01010, 2, 1024, 1, 1, 15, 0, .ro, 34952, true, true, false, true⟩,  -- CV_SPARE.SPARE
  ⟨0x01011, 2, 1024, 1, 1, 15, 13, .rw, 0, true, true, true, false⟩,  -- CV_TAP_SEL.INPUT
  ⟨0x01011, 2, 1024, 1, 1, 12, 9, .rw, 0, true, true, true, false⟩,  -- CV_TAP_SEL.SLICE
  ⟨0x01011, 2, 1024, 1, 1, 8, 6, .rw, 0, true, true, true, false⟩,  -- CV_TAP_SEL.KIND
  ⟨0x01011, 2, 1024, 1, 1, 5, 2, .rw, 0, true, true, true, false⟩,  -- CV_TAP_SEL.COMP
  ⟨0x01012, 2, 1024, 1, 1, 9, 0, .ro, 0, false, false, false, true⟩,  -- CV_TAP_DATA.VALUE
  ⟨0x01020, 2, 1024, 8, 1, 19, 0, .ro, 0, true, true, true, false⟩  -- CV_PGA_GAIN.GAIN
  ]

/-- The fields of block 0x006 (PS). -/
def rowsPs : List RegRow := [
  ⟨0x01800, 2, 1024, 1, 1, 19, 19, .ro, 0, false, false, false, false⟩,  -- PS_STATUS.ARMED
  ⟨0x01800, 2, 1024, 1, 1, 18, 18, .ro, 0, false, false, false, true⟩,  -- PS_STATUS.ILK
  ⟨0x01800, 2, 1024, 1, 1, 17, 17, .ro, 0, true, true, true, false⟩,  -- PS_STATUS.APR
  ⟨0x01800, 2, 1024, 1, 1, 16, 16, .ro, 0, false, false, false, true⟩,  -- PS_STATUS.REPHASE_PENDING
  ⟨0x01800, 2, 1024, 1, 1, 15, 0, .ro, 0, true, true, true, true⟩,  -- PS_STATUS.ACTIVE
  ⟨0x01801, 2, 1024, 1, 1, 19, 0, .ro, 0, true, true, true, true⟩,  -- PS_TSHOT.TSHOT
  ⟨0x01802, 2, 1024, 1, 1, 19, 18, .rwb, 0, true, true, true, false⟩,  -- PS_MUTE.CAUSE
  ⟨0x01802, 2, 1024, 1, 1, 15, 0, .rwb, 0, true, true, true, false⟩,  -- PS_MUTE.MUTED
  ⟨0x01803, 2, 1024, 1, 1, 19, 0, .rc, 0, true, true, true, false⟩,  -- PS_LATE.COUNT
  ⟨0x01804, 2, 1024, 1, 1, 19, 0, .rc, 0, true, true, true, false⟩,  -- PS_DAC_SAT.COUNT
  ⟨0x01805, 2, 1024, 1, 1, 19, 19, .ro, 0, true, true, true, false⟩,  -- PS_BREAK.ACTIVE
  ⟨0x01805, 2, 1024, 1, 1, 17, 0, .ro, 0, true, true, true, false⟩,  -- PS_BREAK.STATION
  ⟨0x01806, 2, 1024, 1, 1, 19, 0, .ro, 0, false, false, false, true⟩,  -- PS_ENV_AVG_LO.AVG
  ⟨0x01807, 2, 1024, 1, 1, 19, 0, .ro, 0, false, false, false, true⟩  -- PS_ENV_AVG_HI.AVG
  ]

/-- The fields of block 0x008 (PC). -/
def rowsPc : List RegRow := [
  ⟨0x02000, 2, 1024, 1, 1, 19, 19, .ro, 0, false, false, false, true⟩,  -- PC_STATUS.CAL_BUSY
  ⟨0x02000, 2, 1024, 1, 1, 18, 18, .w1c, 0, true, true, true, false⟩,  -- PC_STATUS.CAL_FAIL
  ⟨0x02000, 2, 1024, 1, 1, 17, 17, .ro, 0, true, true, true, true⟩,  -- PC_STATUS.IQ_SWAP_X
  ⟨0x02000, 2, 1024, 1, 1, 16, 16, .ro, 0, true, true, true, true⟩,  -- PC_STATUS.IQ_SWAP_Y
  ⟨0x02000, 2, 1024, 1, 1, 15, 15, .ro, 1, true, true, true, true⟩,  -- PC_STATUS.DC_CANCEL
  ⟨0x02000, 2, 1024, 1, 1, 14, 0, .ro, 0, true, true, true, true⟩,  -- PC_STATUS.TAPBINS
  ⟨0x02001, 2, 1024, 1, 1, 19, 19, .wo, 0, false, false, false, false⟩,  -- PC_CTRL.RECAL
  ⟨0x02002, 2, 1024, 1, 1, 19, 0, .ro, 0, true, true, true, true⟩,  -- PC_LAUNCH.DELAY
  ⟨0x02003, 2, 1024, 1, 1, 19, 0, .ro, 0, true, true, true, false⟩,  -- PC_LAUNCH_MEAS.DELAY
  ⟨0x02004, 2, 1024, 1, 1, 19, 0, .ro, 96221, true, true, true, true⟩,  -- PC_NG.NG
  ⟨0x02005, 2, 1024, 1, 1, 19, 0, .rc, 0, true, true, true, false⟩,  -- PC_SAT.COUNT
  ⟨0x02006, 2, 1024, 1, 1, 19, 0, .rc, 0, true, true, true, false⟩,  -- PC_CLIP.COUNT
  ⟨0x02008, 2, 1024, 4, 1, 19, 0, .ro, 0, false, false, false, true⟩  -- PC_DC.MEAN
  ]

/-- The fields of block 0x00A (DA). -/
def rowsDa : List RegRow := [
  ⟨0x02800, 2, 16, 1, 1, 19, 19, .ro, 0, true, true, true, true⟩,  -- DA_STATUS.ACTIVE
  ⟨0x02800, 2, 16, 1, 1, 17, 14, .ro, 0, true, true, true, true⟩,  -- DA_STATUS.GROUPS
  ⟨0x02800, 2, 16, 1, 1, 13, 8, .ro, 0, true, true, true, true⟩,  -- DA_STATUS.MAXB
  ⟨0x02801, 2, 16, 1, 1, 10, 0, .ro, 0, true, true, true, true⟩,  -- DA_GAUGE.M
  ⟨0x02802, 2, 16, 1, 1, 19, 10, .ro, 0, true, true, true, false⟩,  -- DA_NOISE.MEAS
  ⟨0x02802, 2, 16, 1, 1, 9, 0, .ro, 0, true, true, true, true⟩,  -- DA_NOISE.LEVEL
  ⟨0x02803, 2, 16, 1, 1, 19, 0, .rc, 0, true, true, true, false⟩,  -- DA_HELD.COUNT
  ⟨0x02804, 2, 16, 1, 1, 19, 0, .rc, 0, true, true, true, false⟩,  -- DA_SLIP.COUNT
  ⟨0x02805, 2, 16, 1, 1, 19, 0, .rc, 0, true, true, true, false⟩,  -- DA_DISCORD.COUNT
  ⟨0x02806, 2, 16, 1, 1, 19, 0, .ro, 0, true, true, true, true⟩,  -- DA_STRAIN_F_LO.F
  ⟨0x02807, 2, 16, 1, 1, 19, 0, .ro, 0, true, true, true, true⟩  -- DA_STRAIN_F_HI.F
  ]

/-- The fields of block 0x00B (DS). -/
def rowsDs : List RegRow := [
  ⟨0x02C00, 2, 16, 1, 1, 19, 19, .ro, 0, true, true, true, true⟩,  -- DS_STATUS.ACTIVE
  ⟨0x02C00, 2, 16, 1, 1, 18, 18, .ro, 0, true, true, true, true⟩,  -- DS_STATUS.CAPTURING
  ⟨0x02C00, 2, 16, 1, 1, 17, 0, .ro, 0, true, true, true, true⟩,  -- DS_STATUS.PENDING
  ⟨0x02C01, 2, 16, 1, 1, 19, 19, .wo, 0, false, false, false, false⟩,  -- DS_CTRL.CAPTURE
  ⟨0x02C02, 2, 16, 1, 1, 19, 14, .ro, 0, true, true, true, true⟩,  -- DS_POINTS.P_LO
  ⟨0x02C02, 2, 16, 1, 1, 13, 7, .ro, 0, true, true, true, true⟩,  -- DS_POINTS.C_LINE
  ⟨0x02C03, 2, 16, 1, 1, 19, 14, .ro, 0, true, true, true, true⟩,  -- DS_SEARCH.W
  ⟨0x02C03, 2, 16, 1, 1, 13, 8, .ro, 0, true, true, true, true⟩,  -- DS_SEARCH.REDATUM_K
  ⟨0x02C0C, 2, 16, 1, 1, 9, 0, .ro, 0, true, true, true, true⟩,  -- DS_QMIN.Q_MIN
  ⟨0x02C04, 2, 16, 1, 1, 19, 10, .ro, 0, true, true, true, true⟩,  -- DS_PERIOD.OUT_SWEEPS
  ⟨0x02C04, 2, 16, 1, 1, 9, 0, .ro, 0, true, true, true, true⟩,  -- DS_PERIOD.CAP_SWEEPS
  ⟨0x02C05, 2, 16, 1, 1, 19, 0, .rc, 0, true, true, true, false⟩,  -- DS_REDATUM.COUNT
  ⟨0x02C06, 2, 16, 1, 1, 19, 0, .rc, 0, true, true, true, false⟩,  -- DS_RANGE.COUNT
  ⟨0x02C07, 2, 16, 1, 1, 19, 0, .rc, 0, true, true, true, false⟩,  -- DS_WEAK.COUNT
  ⟨0x02C08, 2, 16, 1, 1, 19, 0, .rc, 0, true, true, true, false⟩,  -- DS_RECAPTURE.COUNT
  ⟨0x02C09, 2, 16, 1, 1, 19, 0, .ro, 0, false, false, false, true⟩,  -- DS_SWEEPS.COUNT
  ⟨0x02C0A, 2, 16, 1, 1, 19, 0, .ro, 0, true, true, true, true⟩,  -- DS_BASE_LO.ADDR
  ⟨0x02C0B, 2, 16, 1, 1, 19, 0, .ro, 0, true, true, true, true⟩  -- DS_BASE_HI.ADDR
  ]

/-- The fields of block 0x00C (RM). -/
def rowsRm : List RegRow := [
  ⟨0x03000, 2, 16, 1, 1, 19, 19, .ro, 0, true, true, true, true⟩,  -- RM_STATUS.ACTIVE
  ⟨0x03000, 2, 16, 1, 1, 18, 18, .ro, 0, true, true, true, true⟩,  -- RM_STATUS.FUSION
  ⟨0x03000, 2, 16, 1, 1, 17, 17, .ro, 1, true, true, true, false⟩,  -- RM_STATUS.UNCAL
  ⟨0x03000, 2, 16, 1, 1, 16, 16, .ro, 0, false, false, false, true⟩,  -- RM_STATUS.CAL_OLD
  ⟨0x03000, 2, 16, 1, 1, 15, 15, .ro, 0, false, false, false, true⟩,  -- RM_STATUS.SUSPENDED
  ⟨0x03000, 2, 16, 1, 1, 14, 14, .ro, 0, true, true, true, true⟩,  -- RM_STATUS.GAIN_NORM
  ⟨0x03000, 2, 16, 1, 1, 13, 10, .ro, 0, true, true, true, true⟩,  -- RM_STATUS.SMOOTH
  ⟨0x03000, 2, 16, 1, 1, 9, 0, .ro, 0, false, false, false, false⟩,  -- RM_STATUS.RESTART_BLOCKS
  ⟨0x03001, 2, 16, 1, 1, 19, 19, .wo, 0, false, false, false, false⟩,  -- RM_CTRL.COILCAL
  ⟨0x03002, 2, 16, 1, 1, 19, 16, .ro, 0, true, true, true, false⟩,  -- RM_COIL.REJECT
  ⟨0x03002, 2, 16, 1, 1, 15, 0, .ro, 0, true, true, true, false⟩,  -- RM_COIL.ACCEPTED
  ⟨0x03003, 2, 16, 1, 1, 19, 0, .ro, 0, true, true, true, true⟩,  -- RM_C_LO.C
  ⟨0x03004, 2, 16, 1, 1, 19, 0, .ro, 0, true, true, true, true⟩,  -- RM_C_HI.C
  ⟨0x03005, 2, 16, 1, 1, 19, 0, .ro, 0, true, true, true, false⟩,  -- RM_COIL_TEMP.TC
  ⟨0x03006, 2, 16, 1, 1, 19, 0, .ro, 1048575, true, true, true, false⟩,  -- RM_CAL_AGE.AGE
  ⟨0x03007, 2, 16, 1, 1, 19, 0, .ro, 0, false, false, false, false⟩,  -- RM_DARK_AS.DARK
  ⟨0x03008, 2, 16, 1, 1, 19, 0, .ro, 0, false, false, false, false⟩,  -- RM_DARK_ST.DARK
  ⟨0x03009, 2, 16, 1, 1, 19, 0, .rc, 0, true, true, true, false⟩,  -- RM_REJECT.COUNT
  ⟨0x0300A, 2, 16, 1, 1, 19, 0, .rc, 0, true, true, true, false⟩,  -- RM_DIVERGE.COUNT
  ⟨0x0300B, 2, 16, 1, 1, 19, 0, .rc, 0, true, true, true, false⟩  -- RM_RESEED.COUNT
  ]

/-- The fields of block 0x010 (TR). -/
def rowsTr : List RegRow := [
  ⟨0x04000, 8, 1024, 1, 1, 19, 19, .ro, 0, true, true, true, true⟩,  -- TR_STATUS.ASSIGNED
  ⟨0x04000, 8, 1024, 1, 1, 18, 18, .ro, 0, true, true, true, true⟩,  -- TR_STATUS.LINE
  ⟨0x04000, 8, 1024, 1, 1, 17, 15, .ro, 0, false, false, false, true⟩,  -- TR_STATUS.STATE
  ⟨0x04000, 8, 1024, 1, 1, 14, 14, .ro, 0, false, false, false, true⟩,  -- TR_STATUS.GANG
  ⟨0x04000, 8, 1024, 1, 1, 13, 13, .w1c, 0, false, false, false, true⟩,  -- TR_STATUS.AOV
  ⟨0x04000, 8, 1024, 1, 1, 12, 12, .ro, 0, false, false, false, true⟩,  -- TR_STATUS.KSUSP
  ⟨0x04000, 8, 1024, 1, 1, 11, 5, .ro, 0, true, true, true, true⟩,  -- TR_STATUS.LANES
  ⟨0x04001, 8, 1024, 1, 1, 19, 14, .rwf, 32, true, true, true, false⟩,  -- TR_CLOCK.STEPS
  ⟨0x04001, 8, 1024, 1, 1, 13, 8, .ro, 32, true, true, true, false⟩,  -- TR_CLOCK.APPLIED
  ⟨0x04002, 8, 1024, 1, 1, 19, 10, .ro, 0, false, false, false, true⟩,  -- TR_LOAD.AVG
  ⟨0x04002, 8, 1024, 1, 1, 9, 0, .ro, 0, false, false, false, true⟩,  -- TR_LOAD.PEAK
  ⟨0x04003, 8, 1024, 1, 1, 19, 13, .ro, 0, false, false, false, true⟩,  -- TR_QUEUE.FG_DEPTH
  ⟨0x04003, 8, 1024, 1, 1, 12, 6, .rc, 0, true, true, true, false⟩,  -- TR_QUEUE.FG_MAX
  ⟨0x04003, 8, 1024, 1, 1, 5, 1, .ro, 0, false, false, false, true⟩,  -- TR_QUEUE.BG_DEPTH
  ⟨0x04004, 8, 1024, 1, 1, 19, 0, .rc, 0, true, true, true, false⟩,  -- TR_DROP.COUNT
  ⟨0x04005, 8, 1024, 1, 1, 19, 0, .rc, 0, true, true, true, false⟩,  -- TR_AOV.COUNT
  ⟨0x04006, 8, 1024, 1, 1, 19, 0, .rc, 0, true, true, true, false⟩,  -- TR_PARITY.COUNT
  ⟨0x04007, 8, 1024, 1, 1, 19, 17, .ro, 0, true, true, true, false⟩,  -- TR_KFAULT.CAUSE
  ⟨0x04007, 8, 1024, 1, 1, 16, 13, .ro, 0, true, true, true, false⟩,  -- TR_KFAULT.KERNEL
  ⟨0x04007, 8, 1024, 1, 1, 12, 7, .ro, 0, true, true, true, false⟩,  -- TR_KFAULT.LANE
  ⟨0x04008, 8, 1024, 1, 1, 9, 0, .ro, 0, true, true, true, false⟩  -- TR_KADDR.ADDR
  ]

/-- The fields of block 0x020 (ST). -/
def rowsSt : List RegRow := [
  ⟨0x08000, 256, 64, 1, 1, 19, 19, .rwf, 0, true, true, true, false⟩,  -- ST_CTRL.ENABLE
  ⟨0x08000, 256, 64, 1, 1, 18, 15, .rwf, 0, true, true, true, false⟩,  -- ST_CTRL.DEST
  ⟨0x08000, 256, 64, 1, 1, 14, 14, .rwf, 0, true, true, true, false⟩,  -- ST_CTRL.PRIO
  ⟨0x08000, 256, 64, 1, 1, 13, 13, .rwf, 0, true, true, true, false⟩,  -- ST_CTRL.CODED
  ⟨0x08000, 256, 64, 1, 1, 12, 11, .rwf, 0, true, true, true, false⟩,  -- ST_CTRL.FLAGS
  ⟨0x08000, 256, 64, 1, 1, 10, 10, .ro, 0, true, true, true, true⟩,  -- ST_CTRL.SYNC_PIN
  ⟨0x08001, 256, 64, 1, 1, 19, 19, .ro, 0, true, true, true, true⟩,  -- ST_STATUS.DEFINED
  ⟨0x08001, 256, 64, 1, 1, 18, 18, .ro, 0, true, true, true, true⟩,  -- ST_STATUS.SHED
  ⟨0x08001, 256, 64, 1, 1, 17, 17, .ro, 0, false, false, false, true⟩,  -- ST_STATUS.SETTLING
  ⟨0x08001, 256, 64, 1, 1, 16, 16, .ro, 0, false, false, false, true⟩,  -- ST_STATUS.FADING
  ⟨0x08001, 256, 64, 1, 1, 15, 15, .ro, 0, true, true, true, true⟩,  -- ST_STATUS.BANK
  ⟨0x08001, 256, 64, 1, 1, 14, 14, .ro, 0, false, false, false, true⟩,  -- ST_STATUS.QUEUED
  ⟨0x08001, 256, 64, 1, 1, 13, 13, .w1c, 0, true, true, true, false⟩,  -- ST_STATUS.AOV
  ⟨0x08001, 256, 64, 1, 1, 12, 10, .ro, 0, false, true, false, true⟩,  -- ST_STATUS.PENDING
  ⟨0x08001, 256, 64, 1, 1, 9, 2, .ro, 0, true, true, true, true⟩,  -- ST_STATUS.TRAVERSES
  ⟨0x08002, 256, 64, 1, 1, 19, 10, .ro, 0, true, true, true, true⟩,  -- ST_SOURCE.PRODUCT
  ⟨0x08002, 256, 64, 1, 1, 9, 9, .ro, 0, true, true, true, true⟩,  -- ST_SOURCE.LINE
  ⟨0x08002, 256, 64, 1, 1, 8, 3, .ro, 0, true, true, true, true⟩,  -- ST_SOURCE.A
  ⟨0x08002, 256, 64, 1, 1, 2, 2, .ro, 0, true, true, true, true⟩,  -- ST_SOURCE.SMODE
  ⟨0x08003, 256, 64, 1, 1, 17, 0, .ro, 0, true, true, true, true⟩,  -- ST_FIRST.VALUE
  ⟨0x08004, 256, 64, 1, 1, 17, 0, .ro, 0, true, true, true, true⟩,  -- ST_COUNT.VALUE
  ⟨0x08005, 256, 64, 1, 1, 19, 16, .ro, 0, true, true, true, true⟩,  -- ST_PRE.W_M
  ⟨0x08005, 256, 64, 1, 1, 15, 12, .ro, 0, true, true, true, true⟩,  -- ST_PRE.RANK
  ⟨0x08005, 256, 64, 1, 1, 11, 6, .ro, 0, true, true, true, true⟩,  -- ST_PRE.PRE_SH
  ⟨0x08006, 256, 64, 1, 1, 19, 17, .ro, 0, true, true, true, true⟩,  -- ST_CIC.N
  ⟨0x08006, 256, 64, 1, 1, 16, 7, .ro, 0, true, true, true, true⟩,  -- ST_CIC.R
  ⟨0x08007, 256, 64, 1, 1, 19, 11, .ro, 0, true, true, true, true⟩,  -- ST_FIR.T
  ⟨0x08007, 256, 64, 1, 1, 10, 7, .ro, 0, true, true, true, true⟩,  -- ST_FIR.D_F
  ⟨0x08008, 256, 64, 1, 1, 19, 18, .ro, 0, true, true, true, true⟩,  -- ST_FORMAT.OUT_WORDS
  ⟨0x08008, 256, 64, 1, 1, 17, 5, .ro, 0, true, true, true, true⟩,  -- ST_FORMAT.FRAME_WORDS
  ⟨0x08009, 256, 64, 1, 1, 19, 10, .ro, 0, true, true, true, true⟩,  -- ST_SETTLE.N_SETTLE
  ⟨0x08009, 256, 64, 1, 1, 9, 0, .ro, 0, false, false, false, true⟩,  -- ST_SETTLE.REMAIN
  ⟨0x0800A, 256, 64, 1, 1, 19, 0, .rwf, 1, true, true, true, false⟩,  -- ST_SCALE.SCALE
  ⟨0x0800B, 256, 64, 1, 1, 19, 14, .rwf, 0, true, true, true, false⟩,  -- ST_SHIFT.SSH
  ⟨0x0800B, 256, 64, 1, 1, 13, 4, .rwf, 0, true, true, true, false⟩,  -- ST_SHIFT.EXCL
  ⟨0x0800C, 256, 64, 1, 1, 19, 0, .rwf, 0, true, true, true, false⟩,  -- ST_OFFSET_LO.OFFSET
  ⟨0x0800D, 256, 64, 1, 1, 19, 0, .rwf, 0, true, true, true, false⟩,  -- ST_OFFSET_HI.OFFSET
  ⟨0x0800E, 256, 64, 1, 1, 19, 19, .rwf, 0, false, false, false, false⟩,  -- ST_SWAP.REQ
  ⟨0x0800E, 256, 64, 1, 1, 18, 18, .rwf, 0, true, true, true, false⟩,  -- ST_SWAP.TARGET
  ⟨0x0800E, 256, 64, 1, 1, 17, 5, .rwf, 512, true, true, true, false⟩  -- ST_SWAP.F
  ] ++ [
  ⟨0x0800F, 256, 64, 1, 1, 19, 7, .ro, 0, false, false, false, true⟩,  -- ST_FADE.K
  ⟨0x08010, 256, 64, 1, 1, 19, 19, .rw, 0, true, true, true, false⟩,  -- ST_COEF_SEL.BANK
  ⟨0x08010, 256, 64, 1, 1, 18, 11, .rw, 0, true, true, true, false⟩,  -- ST_COEF_SEL.INDEX
  ⟨0x08011, 256, 64, 1, 1, 19, 0, .rw, 0, true, true, true, true⟩,  -- ST_COEF_DATA.COEF
  ⟨0x08012, 256, 64, 1, 1, 19, 19, .wo, 0, false, false, false, false⟩,  -- ST_CMD.RESET
  ⟨0x08012, 256, 64, 1, 1, 18, 18, .wo, 0, false, false, false, false⟩,  -- ST_CMD.SYNC
  ⟨0x08013, 256, 64, 1, 1, 19, 0, .ro, 0, true, true, true, true⟩,  -- ST_SEQ.NEXT
  ⟨0x08014, 256, 64, 1, 1, 19, 0, .rc, 0, true, true, true, false⟩,  -- ST_DROP.COUNT
  ⟨0x08015, 256, 64, 1, 1, 19, 0, .rc, 0, true, true, true, false⟩,  -- ST_FILLED.COUNT
  ⟨0x08016, 256, 64, 1, 1, 19, 0, .rc, 0, true, true, true, false⟩,  -- ST_SAT.COUNT
  ⟨0x08017, 256, 64, 1, 1, 19, 0, .rc, 0, true, true, true, false⟩,  -- ST_SWAP_SUPERSEDED.COUNT
  ⟨0x08018, 256, 64, 1, 1, 19, 0, .rc, 0, true, true, true, false⟩,  -- ST_BANK_BUSY.COUNT
  ⟨0x08019, 256, 64, 1, 1, 19, 10, .rc, 0, true, true, true, false⟩,  -- ST_SYNCS.APPLIED
  ⟨0x08019, 256, 64, 1, 1, 9, 0, .rc, 0, true, true, true, false⟩,  -- ST_SYNCS.LATE
  ⟨0x08020, 256, 64, 4, 8, 19, 19, .rwf, 0, true, true, true, false⟩,  -- ST_DET_CTRL.EN
  ⟨0x08020, 256, 64, 4, 8, 18, 16, .rwf, 0, true, true, true, false⟩,  -- ST_DET_CTRL.KIND
  ⟨0x08020, 256, 64, 4, 8, 15, 8, .rwf, 0, true, true, true, false⟩,  -- ST_DET_CTRL.N_ON
  ⟨0x08020, 256, 64, 4, 8, 7, 0, .rwf, 0, true, true, true, false⟩,  -- ST_DET_CTRL.N_OFF
  ⟨0x08021, 256, 64, 4, 8, 19, 0, .rwf, 0, true, true, true, false⟩,  -- ST_DET_HI_LO.V
  ⟨0x08022, 256, 64, 4, 8, 19, 0, .rwf, 0, true, true, true, false⟩,  -- ST_DET_HI_HI.V
  ⟨0x08023, 256, 64, 4, 8, 19, 0, .rwf, 0, true, true, true, false⟩,  -- ST_DET_LO_LO.V
  ⟨0x08024, 256, 64, 4, 8, 19, 0, .rwf, 0, true, true, true, false⟩,  -- ST_DET_LO_HI.V
  ⟨0x08025, 256, 64, 4, 8, 19, 0, .rwf, 0, true, true, true, false⟩,  -- ST_DET_HYST.HYST
  ⟨0x08026, 256, 64, 4, 8, 19, 10, .rwf, 1023, true, true, true, false⟩,  -- ST_DET_LIMIT.EV_LIMIT
  ⟨0x08027, 256, 64, 4, 8, 19, 0, .rc, 0, true, true, true, false⟩  -- ST_DET_EVENTS.COUNT
  ]

/-- The fields of block 0x030 (BC). -/
def rowsBc : List RegRow := [
  ⟨0x0C000, 1, 1, 1, 1, 19, 19, .ro, 0, true, true, true, true⟩,  -- BC_STATUS.RING
  ⟨0x0C000, 1, 1, 1, 1, 18, 18, .ro, 0, true, true, true, true⟩,  -- BC_STATUS.GROW_PENDING
  ⟨0x0C001, 1, 1, 1, 1, 13, 0, .rwf, 0, true, true, true, false⟩,  -- BC_RING_LEN.CHUNKS
  ⟨0x0C002, 1, 1, 1, 1, 13, 0, .ro, 0, true, true, true, true⟩,  -- BC_RING_USE.CHUNKS
  ⟨0x0C003, 1, 1, 1, 1, 13, 0, .ro, 0, true, true, true, true⟩,  -- BC_RING_MAX.CHUNKS
  ⟨0x0C004, 1, 1, 1, 1, 19, 0, .ro, 0, true, true, true, true⟩,  -- BC_WRITE_LO.SERIAL
  ⟨0x0C005, 1, 1, 1, 1, 9, 0, .ro, 0, true, true, true, true⟩,  -- BC_WRITE_HI.SERIAL
  ⟨0x0C006, 1, 1, 1, 1, 19, 0, .ro, 0, true, true, true, true⟩,  -- BC_OLDEST_LO.SERIAL
  ⟨0x0C007, 1, 1, 1, 1, 9, 0, .ro, 0, true, true, true, true⟩,  -- BC_OLDEST_HI.SERIAL
  ⟨0x0C008, 1, 1, 1, 1, 19, 0, .rc, 0, true, true, true, false⟩,  -- BC_LOST.COUNT
  ⟨0x0C009, 1, 1, 1, 1, 19, 0, .rc, 0, true, true, true, false⟩,  -- BC_GAP.COUNT
  ⟨0x0C00A, 1, 1, 1, 1, 19, 0, .rc, 0, true, true, true, false⟩,  -- BC_RAW.COUNT
  ⟨0x0C00B, 1, 1, 1, 1, 19, 0, .rc, 0, true, true, true, false⟩,  -- BC_DROP.COUNT
  ⟨0x0C00C, 1, 1, 1, 1, 19, 0, .rc, 0, true, true, true, false⟩,  -- BC_UNCODED.COUNT
  ⟨0x0C00D, 1, 1, 1, 1, 19, 17, .ro, 0, true, true, true, false⟩,  -- BC_DEC_ERR.CODE
  ⟨0x0C00D, 1, 1, 1, 1, 16, 0, .ro, 0, true, true, true, false⟩,  -- BC_DEC_ERR.COUNT
  ⟨0x0C00E, 1, 1, 1, 1, 19, 10, .ro, 0, false, false, false, true⟩,  -- BC_LOAD.CODER
  ⟨0x0C00E, 1, 1, 1, 1, 9, 0, .ro, 0, false, false, false, true⟩,  -- BC_LOAD.RATIO
  ⟨0x0C00F, 1, 1, 1, 1, 19, 0, .ro, 0, true, true, true, true⟩,  -- BC_BASE_LO.ADDR
  ⟨0x0C010, 1, 1, 1, 1, 19, 0, .ro, 0, true, true, true, true⟩,  -- BC_BASE_HI.ADDR
  ⟨0x0C040, 16, 8, 1, 1, 19, 18, .rwf, 0, true, true, true, false⟩,  -- BC_CUR_CTRL.DEST
  ⟨0x0C040, 16, 8, 1, 1, 17, 17, .rwf, 0, true, true, true, false⟩,  -- BC_CUR_CTRL.MODE
  ⟨0x0C040, 16, 8, 1, 1, 16, 16, .rwf, 1, true, true, true, false⟩,  -- BC_CUR_CTRL.ALL
  ⟨0x0C040, 16, 8, 1, 1, 15, 8, .rwf, 0, true, true, true, false⟩,  -- BC_CUR_CTRL.STREAM
  ⟨0x0C040, 16, 8, 1, 1, 7, 0, .rwf, 0, true, true, true, false⟩,  -- BC_CUR_CTRL.RATE
  ⟨0x0C041, 16, 8, 1, 1, 19, 19, .wo, 0, false, false, false, false⟩,  -- BC_CUR_CMD.START
  ⟨0x0C041, 16, 8, 1, 1, 18, 18, .wo, 0, false, false, false, false⟩,  -- BC_CUR_CMD.STOP
  ⟨0x0C041, 16, 8, 1, 1, 17, 15, .wo, 0, false, false, false, false⟩,  -- BC_CUR_CMD.SEEK
  ⟨0x0C042, 16, 8, 1, 1, 19, 0, .rw, 0, true, true, true, false⟩,  -- BC_CUR_SEEK_LO.SERIAL
  ⟨0x0C043, 16, 8, 1, 1, 9, 0, .rw, 0, true, true, true, false⟩,  -- BC_CUR_SEEK_HI.SERIAL
  ⟨0x0C044, 16, 8, 1, 1, 19, 17, .ro, 0, true, true, true, true⟩,  -- BC_CUR_STATUS.STATE
  ⟨0x0C044, 16, 8, 1, 1, 16, 16, .w1c, 0, true, true, true, false⟩,  -- BC_CUR_STATUS.CURSOR_MOVED
  ⟨0x0C044, 16, 8, 1, 1, 15, 15, .w1c, 0, true, true, true, false⟩,  -- BC_CUR_STATUS.DEC_FAIL
  ⟨0x0C044, 16, 8, 1, 1, 14, 14, .ro, 0, true, true, true, false⟩,  -- BC_CUR_STATUS.END
  ⟨0x0C045, 16, 8, 1, 1, 19, 0, .ro, 0, true, true, true, true⟩,  -- BC_CUR_POS_LO.POS
  ⟨0x0C046, 16, 8, 1, 1, 9, 0, .ro, 0, true, true, true, true⟩,  -- BC_CUR_POS_HI.POS
  ⟨0x0C047, 16, 8, 1, 1, 19, 0, .rc, 0, true, true, true, false⟩  -- BC_CUR_MOVES.COUNT
  ]

/-- The fields of block 0x031 (ZN). -/
def rowsZn : List RegRow := [
  ⟨0x0C400, 1, 1, 1, 1, 19, 18, .ro, 0, false, false, false, true⟩,  -- ZN_STATUS.MAX_LEVEL
  ⟨0x0C400, 1, 1, 1, 1, 17, 17, .ro, 0, false, false, false, true⟩,  -- ZN_STATUS.ANY_STALE
  ⟨0x0C400, 1, 1, 1, 1, 16, 16, .ro, 0, false, false, false, true⟩,  -- ZN_STATUS.ANY_FAULT
  ⟨0x0C400, 1, 1, 1, 1, 12, 0, .ro, 0, true, true, true, true⟩,  -- ZN_STATUS.DEFINED
  ⟨0x0C401, 1, 1, 1, 1, 12, 0, .ro, 0, false, false, false, true⟩,  -- ZN_NALARM.COUNT
  ⟨0x0C402, 1, 1, 1, 1, 12, 0, .ro, 0, false, false, false, true⟩,  -- ZN_NALERT.COUNT
  ⟨0x0C403, 1, 1, 1, 1, 19, 8, .rw, 0, true, true, true, false⟩,  -- ZN_SEL.ZONE
  ⟨0x0C404, 1, 1, 1, 1, 19, 18, .ro, 0, false, false, false, true⟩,  -- ZN_STATE.LEVEL
  ⟨0x0C404, 1, 1, 1, 1, 17, 17, .ro, 0, false, false, false, true⟩,  -- ZN_STATE.STALE
  ⟨0x0C404, 1, 1, 1, 1, 16, 16, .ro, 0, false, false, false, true⟩,  -- ZN_STATE.FAULT
  ⟨0x0C404, 1, 1, 1, 1, 15, 15, .ro, 0, false, false, false, true⟩,  -- ZN_STATE.LATCHED
  ⟨0x0C404, 1, 1, 1, 1, 14, 12, .ro, 0, false, false, false, true⟩,  -- ZN_STATE.FAULT_CAUSE
  ⟨0x0C404, 1, 1, 1, 1, 11, 9, .ro, 0, false, false, false, true⟩,  -- ZN_STATE.STALE_CAUSE
  ⟨0x0C404, 1, 1, 1, 1, 8, 6, .ro, 0, false, false, false, true⟩,  -- ZN_STATE.SLICE
  ⟨0x0C404, 1, 1, 1, 1, 5, 5, .ro, 0, false, false, false, true⟩,  -- ZN_STATE.DEFINED
  ⟨0x0C405, 1, 1, 1, 1, 19, 0, .ro, 0, false, false, false, true⟩,  -- ZN_AGG_LO.A
  ⟨0x0C406, 1, 1, 1, 1, 19, 0, .ro, 0, false, false, false, true⟩,  -- ZN_AGG_HI.A
  ⟨0x0C407, 1, 1, 1, 1, 19, 19, .wo, 0, false, false, false, false⟩,  -- ZN_ACK.ACK
  ⟨0x0C408, 1, 1, 1, 1, 19, 0, .rc, 0, true, true, true, false⟩,  -- ZN_FORCED.COUNT
  ⟨0x0C409, 1, 1, 1, 1, 19, 0, .rc, 0, true, true, true, false⟩,  -- ZN_EVENTS.COUNT
  ⟨0x0C40A, 1, 1, 1, 1, 19, 0, .rc, 0, true, true, true, false⟩,  -- ZN_EVDROP.COUNT
  ⟨0x0C40B, 1, 1, 1, 1, 19, 16, .ro, 0, false, false, false, true⟩  -- ZN_PINS.ASSERTED
  ]

/-- The fields of block 0x032 (HK). -/
def rowsHk : List RegRow := [
  ⟨0x0C900, 8, 8, 1, 1, 19, 17, .ro, 0, false, false, false, true⟩,  -- HK_LOOP_STATUS.STATE
  ⟨0x0C900, 8, 8, 1, 1, 16, 16, .w1c, 0, true, true, true, false⟩,  -- HK_LOOP_STATUS.OPEN
  ⟨0x0C900, 8, 8, 1, 1, 15, 15, .w1c, 0, true, true, true, false⟩,  -- HK_LOOP_STATUS.DEVIATING
  ⟨0x0C900, 8, 8, 1, 1, 14, 12, .ro, 0, false, false, false, true⟩,  -- HK_LOOP_STATUS.CAUSE
  ⟨0x0C901, 8, 8, 1, 1, 19, 0, .ro, 0, false, false, false, true⟩,  -- HK_LOOP_CODE.CODE
  ⟨0x0C902, 8, 8, 1, 1, 19, 0, .ro, 0, false, false, false, true⟩,  -- HK_LOOP_SENSE.CODE
  ⟨0x0C903, 8, 8, 1, 1, 19, 0, .rwf, 160000, true, false, true, false⟩,  -- HK_LOOP_HOST.CODE
  ⟨0x0C904, 8, 8, 1, 1, 19, 19, .wo, 0, false, false, false, false⟩,  -- HK_LOOP_CMD.RELEASE
  ⟨0x0C800, 1, 1, 1, 1, 19, 19, .ro, 0, false, false, false, true⟩,  -- HK_STATUS.EXT_REF
  ⟨0x0C800, 1, 1, 1, 1, 18, 18, .w1c, 0, true, true, true, false⟩,  -- HK_STATUS.REF_FALLBACK
  ⟨0x0C800, 1, 1, 1, 1, 17, 17, .w1c, 0, true, true, true, false⟩,  -- HK_STATUS.REF_DRIFT
  ⟨0x0C800, 1, 1, 1, 1, 16, 16, .ro, 0, false, false, false, true⟩,  -- HK_STATUS.NOTCH_FREE
  ⟨0x0C800, 1, 1, 1, 1, 15, 11, .ro, 0, false, false, false, true⟩,  -- HK_STATUS.M1_CH
  ⟨0x0C800, 1, 1, 1, 1, 10, 8, .ro, 0, false, false, false, true⟩,  -- HK_STATUS.M0_CH
  ⟨0x0C800, 1, 1, 1, 1, 7, 5, .ro, 0, false, false, false, true⟩,  -- HK_STATUS.URG_DEPTH
  ⟨0x0C801, 1, 1, 1, 1, 19, 19, .wo, 0, false, false, false, false⟩,  -- HK_URGENT.REQ
  ⟨0x0C801, 1, 1, 1, 1, 18, 14, .wo, 0, false, false, false, false⟩,  -- HK_URGENT.CH
  ⟨0x0C802, 1, 1, 1, 1, 19, 0, .rc, 0, true, true, true, false⟩,  -- HK_URGENT_DROP.COUNT
  ⟨0x0C803, 1, 1, 1, 1, 19, 0, .rc, 0, true, true, true, false⟩,  -- HK_DISCARD.COUNT
  ⟨0x0C804, 1, 1, 1, 1, 19, 10, .ro, 0, false, false, false, true⟩,  -- HK_SUPPLY.LOW
  ⟨0x0C804, 1, 1, 1, 1, 9, 0, .ro, 0, false, false, false, true⟩,  -- HK_SUPPLY.HIGH
  ⟨0x0C808, 4, 1, 1, 1, 19, 19, .ro, 0, true, true, true, true⟩,  -- HK_RTD_STATUS.ENABLED
  ⟨0x0C808, 4, 1, 1, 1, 18, 18, .ro, 0, true, true, true, true⟩,  -- HK_RTD_STATUS.WIRING
  ⟨0x0C808, 4, 1, 1, 1, 17, 17, .ro, 0, false, false, false, true⟩,  -- HK_RTD_STATUS.OPEN
  ⟨0x0C808, 4, 1, 1, 1, 16, 16, .w1c, 0, true, true, true, false⟩,  -- HK_RTD_STATUS.OPEN_SEEN
  ⟨0x0C808, 4, 1, 1, 1, 15, 12, .ro, 0, false, false, false, true⟩,  -- HK_RTD_STATUS.LEADS
  ⟨0x0C808, 4, 1, 1, 1, 11, 9, .ro, 0, true, true, true, true⟩,  -- HK_RTD_STATUS.GAIN
  ⟨0x0C840, 32, 2, 1, 1, 19, 0, .ro, 0, false, false, false, true⟩,  -- HK_VAL.VALUE
  ⟨0x0C841, 32, 2, 1, 1, 19, 10, .ro, 0, false, false, false, true⟩,  -- HK_FLAG.AGE
  ⟨0x0C841, 32, 2, 1, 1, 9, 9, .ro, 0, true, true, true, true⟩,  -- HK_FLAG.VALID
  ⟨0x0C841, 32, 2, 1, 1, 8, 8, .ro, 0, false, false, false, true⟩,  -- HK_FLAG.OPEN
  ⟨0x0C841, 32, 2, 1, 1, 7, 7, .ro, 0, false, false, false, true⟩,  -- HK_FLAG.OVER
  ⟨0x0C841, 32, 2, 1, 1, 6, 6, .ro, 0, false, false, false, true⟩,  -- HK_FLAG.FAULT
  ⟨0x0C880, 10, 1, 1, 1, 19, 0, .ro, 0, false, false, false, true⟩,  -- HK_SUP.VALUE
  ⟨0x0C8F0, 2, 1, 1, 1, 19, 19, .rwf, 1, true, true, true, false⟩,  -- HK_APDB.FOLLOW_ARM
  ⟨0x0C8F0, 2, 1, 1, 1, 9, 0, .rwf, 0, true, true, true, false⟩  -- HK_APDB.CODE
  ]

/-- The fields of block 0x034 (SL). -/
def rowsSl : List RegRow := [
  ⟨0x0D000, 3, 32, 1, 1, 19, 17, .ro, 0, false, false, false, true⟩,  -- SL_Q_STATUS.STATE
  ⟨0x0D000, 3, 32, 1, 1, 16, 15, .ro, 0, false, false, false, true⟩,  -- SL_Q_STATUS.RATE
  ⟨0x0D000, 3, 32, 1, 1, 14, 13, .ro, 0, false, false, false, true⟩,  -- SL_Q_STATUS.WIDTH
  ⟨0x0D000, 3, 32, 1, 1, 12, 9, .ro, 0, false, false, false, true⟩,  -- SL_Q_STATUS.LANES
  ⟨0x0D000, 3, 32, 1, 1, 8, 8, .ro, 0, false, false, false, true⟩,  -- SL_Q_STATUS.REVERSED
  ⟨0x0D000, 3, 32, 1, 1, 7, 6, .ro, 0, false, false, false, true⟩,  -- SL_Q_STATUS.STEP
  ⟨0x0D000, 3, 32, 1, 1, 5, 0, .ro, 0, false, false, false, true⟩,  -- SL_Q_STATUS.FAILS
  ⟨0x0D001, 3, 32, 1, 1, 19, 18, .rwf, 0, true, true, true, false⟩,  -- SL_Q_CTRL.RATE_MAX
  ⟨0x0D001, 3, 32, 1, 1, 17, 16, .ro, 0, true, true, true, true⟩,  -- SL_Q_CTRL.WIDTH_MAX
  ⟨0x0D001, 3, 32, 1, 1, 15, 15, .wo, 0, false, false, false, false⟩,  -- SL_Q_CTRL.LINK_RESET
  ⟨0x0D002, 3, 32, 1, 1, 19, 17, .rwf, 0, false, false, false, false⟩,  -- SL_Q_TEST.MODE
  ⟨0x0D002, 3, 32, 1, 1, 16, 15, .rwf, 0, true, true, true, false⟩,  -- SL_Q_TEST.PATTERN
  ⟨0x0D002, 3, 32, 1, 1, 14, 14, .ro, 0, false, false, false, true⟩,  -- SL_Q_TEST.PARTNER_FE
  ⟨0x0D003, 3, 32, 1, 1, 19, 10, .rc, 0, true, true, true, false⟩,  -- SL_Q_COUNT.RETRAINS
  ⟨0x0D003, 3, 32, 1, 1, 9, 0, .rc, 0, true, true, true, false⟩,  -- SL_Q_COUNT.NARROWINGS
  ⟨0x0D080, 12, 8, 1, 1, 19, 19, .ro, 0, false, false, false, true⟩,  -- SL_LN_STATUS.PRESENT
  ⟨0x0D080, 12, 8, 1, 1, 18, 18, .ro, 0, false, false, false, true⟩,  -- SL_LN_STATUS.LOS
  ⟨0x0D080, 12, 8, 1, 1, 17, 17, .ro, 0, false, false, false, true⟩,  -- SL_LN_STATUS.CDR_LOCK
  ⟨0x0D080, 12, 8, 1, 1, 16, 16, .ro, 0, false, false, false, true⟩,  -- SL_LN_STATUS.SYM_LOCK
  ⟨0x0D080, 12, 8, 1, 1, 15, 15, .ro, 0, false, false, false, true⟩,  -- SL_LN_STATUS.POL_INV
  ⟨0x0D080, 12, 8, 1, 1, 14, 13, .ro, 0, false, false, false, true⟩,  -- SL_LN_STATUS.LOGICAL
  ⟨0x0D080, 12, 8, 1, 1, 12, 12, .ro, 0, false, false, false, true⟩,  -- SL_LN_STATUS.IN_USE
  ⟨0x0D080, 12, 8, 1, 1, 11, 11, .ro, 0, false, false, false, true⟩,  -- SL_LN_STATUS.PRBS_LOCK
  ⟨0x0D081, 12, 8, 1, 1, 19, 0, .rc, 0, true, true, true, false⟩,  -- SL_LN_ERR.COUNT
  ⟨0x0D082, 12, 8, 1, 1, 19, 0, .rc, 0, true, true, true, false⟩,  -- SL_LN_PRBS.COUNT
  ⟨0x0D083, 12, 8, 1, 1, 19, 17, .ro, 0, true, true, true, true⟩,  -- SL_LN_EQ.TX_PRESET
  ⟨0x0D083, 12, 8, 1, 1, 16, 12, .ro, 0, false, false, false, true⟩,  -- SL_LN_EQ.CTLE
  ⟨0x0D083, 12, 8, 1, 1, 11, 2, .ro, 0, false, false, false, true⟩  -- SL_LN_EQ.MARGIN
  ]

/-- The fields of block 0x035 (LK). -/
def rowsLk : List RegRow := [
  ⟨0x0D400, 3, 32, 1, 1, 19, 18, .ro, 0, true, false, true, false⟩,  -- LK_STATUS.FEAT
  ⟨0x0D400, 3, 32, 1, 1, 17, 17, .ro, 0, false, false, false, true⟩,  -- LK_STATUS.CREDIT_OK
  ⟨0x0D400, 3, 32, 1, 1, 16, 16, .w1c, 0, true, false, true, false⟩,  -- LK_STATUS.MISWIRED
  ⟨0x0D400, 3, 32, 1, 1, 15, 4, .ro, 0, false, false, false, true⟩,  -- LK_STATUS.PARTNER
  ⟨0x0D400, 3, 32, 1, 1, 3, 2, .ro, 0, false, false, false, true⟩,  -- LK_STATUS.ROLE
  ⟨0x0D401, 3, 32, 1, 1, 19, 10, .ro, 0, false, false, false, true⟩,  -- LK_BUF.OUT
  ⟨0x0D401, 3, 32, 1, 1, 9, 0, .ro, 0, false, false, false, true⟩,  -- LK_BUF.FWD
  ⟨0x0D402, 3, 32, 1, 1, 19, 0, .rc, 0, true, true, true, false⟩,  -- LK_RX_BAD.COUNT
  ⟨0x0D403, 3, 32, 1, 1, 19, 0, .rc, 0, true, true, true, false⟩,  -- LK_NOROUTE.COUNT
  ⟨0x0D404, 3, 32, 1, 1, 19, 0, .rc, 0, true, true, true, false⟩,  -- LK_TTL_DROP.COUNT
  ⟨0x0D405, 3, 32, 1, 1, 19, 0, .rc, 0, true, true, true, false⟩,  -- LK_DUP.COUNT
  ⟨0x0D406, 3, 32, 1, 1, 19, 0, .rc, 0, true, true, true, false⟩,  -- LK_REFUSED.COUNT
  ⟨0x0D407, 3, 32, 1, 1, 19, 0, .rc, 0, true, true, true, false⟩,  -- LK_FEAT_STALE.COUNT
  ⟨0x0D480, 1, 1, 1, 1, 19, 8, .ro, 0, true, true, true, true⟩,  -- LK_CHAIN.ADDR
  ⟨0x0D480, 1, 1, 1, 1, 7, 6, .ro, 0, true, true, true, true⟩,  -- LK_CHAIN.TOPO
  ⟨0x0D480, 1, 1, 1, 1, 5, 4, .ro, 0, true, true, true, true⟩,  -- LK_CHAIN.HOST_DIR
  ⟨0x0D481, 1, 1, 1, 1, 19, 8, .ro, 4095, true, true, true, false⟩,  -- LK_LEVEL.DEPTH
  ⟨0x0D481, 1, 1, 1, 1, 7, 7, .ro, 0, false, false, false, true⟩,  -- LK_LEVEL.VALID
  ⟨0x0D481, 1, 1, 1, 1, 6, 6, .ro, 0, false, false, false, true⟩,  -- LK_LEVEL.FAILOVER
  ⟨0x0D482, 1, 1, 1, 1, 19, 0, .ro, 0, true, true, true, false⟩,  -- LK_LEVEL_DELAY_LO.DELAY
  ⟨0x0D483, 1, 1, 1, 1, 19, 0, .ro, 0, true, true, true, false⟩,  -- LK_LEVEL_DELAY_HI.DELAY
  ⟨0x0D484, 1, 1, 1, 1, 19, 15, .ro, 0, false, false, false, true⟩,  -- LK_TIMED.HELD
  ⟨0x0D484, 1, 1, 1, 1, 9, 0, .rc, 0, true, true, true, false⟩,  -- LK_TIMED.LATE
  ⟨0x0D485, 1, 1, 1, 1, 19, 0, .rc, 0, true, true, true, false⟩  -- LK_TIMED_LOST.COUNT
  ]

/-- The fields of block 0x038 (DM). -/
def rowsDm : List RegRow := [
  ⟨0x0E000, 1, 1, 1, 1, 19, 18, .ro, 0, false, false, false, true⟩,  -- DM_STATUS.SETPOINT
  ⟨0x0E000, 1, 1, 1, 1, 17, 17, .ro, 0, false, false, false, true⟩,  -- DM_STATUS.FROZEN
  ⟨0x0E000, 1, 1, 1, 1, 16, 16, .ro, 0, false, false, false, true⟩,  -- DM_STATUS.FREEZE_CAUSE
  ⟨0x0E000, 1, 1, 1, 1, 15, 15, .ro, 0, false, false, false, true⟩,  -- DM_STATUS.FORCED
  ⟨0x0E000, 1, 1, 1, 1, 14, 14, .ro, 0, false, false, false, true⟩,  -- DM_STATUS.BLACKOUT
  ⟨0x0E000, 1, 1, 1, 1, 13, 10, .ro, 0, false, false, false, true⟩,  -- DM_STATUS.IN_SERVICE
  ⟨0x0E000, 1, 1, 1, 1, 9, 6, .ro, 0, false, false, false, true⟩,  -- DM_STATUS.TRAINING
  ⟨0x0E001, 1, 1, 1, 1, 19, 10, .ro, 0, false, false, false, true⟩,  -- DM_LOAD.LOAD
  ⟨0x0E001, 1, 1, 1, 1, 9, 0, .ro, 0, false, false, false, true⟩,  -- DM_LOAD.PEAK
  ⟨0x0E002, 4, 1, 1, 1, 9, 0, .ro, 0, false, false, false, true⟩,  -- DM_BW.BW
  ⟨0x0E006, 1, 1, 1, 1, 19, 0, .rc, 0, true, true, true, false⟩,  -- DM_CE.COUNT
  ⟨0x0E007, 1, 1, 1, 1, 19, 0, .rc, 0, true, true, true, false⟩,  -- DM_UE.COUNT
  ⟨0x0E008, 1, 1, 1, 1, 19, 0, .rc, 0, true, true, true, false⟩,  -- DM_C3_AGED.COUNT
  ⟨0x0E009, 1, 1, 1, 1, 19, 0, .rc, 0, true, true, true, false⟩,  -- DM_RETRAIN.COUNT
  ⟨0x0E00A, 1, 1, 1, 1, 19, 0, .ro, 0, true, true, true, false⟩,  -- DM_UE_ADDR_LO.ADDR
  ⟨0x0E00B, 1, 1, 1, 1, 19, 0, .ro, 0, true, true, true, false⟩,  -- DM_UE_ADDR_HI.ADDR
  ⟨0x0E00C, 1, 1, 1, 1, 19, 17, .ro, 0, true, true, true, false⟩,  -- DM_FREEZE.RESULT
  ⟨0x0E00C, 1, 1, 1, 1, 16, 15, .ro, 0, true, true, true, false⟩,  -- DM_FREEZE.CHANNEL
  ⟨0x0E00C, 1, 1, 1, 1, 14, 14, .ro, 0, true, true, true, false⟩,  -- DM_FREEZE.SUBCH
  ⟨0x0E00C, 1, 1, 1, 1, 13, 6, .ro, 0, true, true, true, false⟩,  -- DM_FREEZE.DURATION
  ⟨0x0E00C, 1, 1, 1, 1, 5, 5, .w1c, 0, true, true, true, false⟩,  -- DM_FREEZE.NEW
  ⟨0x0E00D, 1, 1, 1, 1, 19, 10, .ro, 0, false, false, false, true⟩,  -- DM_SCRUB.PROGRESS
  ⟨0x0E00D, 1, 1, 1, 1, 9, 0, .ro, 0, true, true, true, false⟩,  -- DM_SCRUB.PASSES
  ⟨0x0E010, 4, 1, 1, 1, 19, 18, .ro, 0, false, false, false, true⟩,  -- DM_CH_STATUS.STATE
  ⟨0x0E010, 4, 1, 1, 1, 17, 15, .ro, 0, true, false, true, true⟩,  -- DM_CH_STATUS.TRAINED
  ⟨0x0E010, 4, 1, 1, 1, 14, 12, .ro, 0, false, false, false, true⟩,  -- DM_CH_STATUS.STEP
  ⟨0x0E010, 4, 1, 1, 1, 11, 6, .ro, 0, true, true, true, true⟩,  -- DM_CH_STATUS.HARD_UE
  ⟨0x0E010, 4, 1, 1, 1, 5, 0, .ro, 0, false, false, false, true⟩  -- DM_CH_STATUS.DRIFT
  ]

/-- The fields of block 0x03C (EV). -/
def rowsEv : List RegRow := [
  ⟨0x0F000, 1, 1, 1, 1, 19, 10, .ro, 0, true, true, true, true⟩,  -- EV_STATUS.NEXT
  ⟨0x0F001, 1, 1, 1, 1, 10, 0, .ro, 0, true, true, true, true⟩,  -- EV_COUNT.COUNT
  ⟨0x0F002, 1, 1, 1, 1, 19, 10, .rw, 0, true, true, true, false⟩,  -- EV_SEL.INDEX
  ⟨0x0F004, 4, 1, 1, 1, 19, 0, .ro, 0, true, true, true, false⟩,  -- EV_ENTRY.WORDS
  ⟨0x0F008, 1, 1, 1, 1, 19, 0, .rc, 0, true, true, true, false⟩  -- EV_LOST.COUNT
  ]

/-- The rows of the block that holds an address (the block map of R456). -/
def rowsAt (a : Nat) : List RegRow :=
  match a / 1024 with
  | 0x000 => rowsMg
  | 0x001 => rowsBm
  | 0x002 => rowsTm
  | 0x003 => rowsTd
  | 0x004 => rowsCv
  | 0x005 => rowsCv
  | 0x006 => rowsPs
  | 0x007 => rowsPs
  | 0x008 => rowsPc
  | 0x009 => rowsPc
  | 0x00A => rowsDa
  | 0x00B => rowsDs
  | 0x00C => rowsRm
  | 0x010 => rowsTr
  | 0x011 => rowsTr
  | 0x012 => rowsTr
  | 0x013 => rowsTr
  | 0x014 => rowsTr
  | 0x015 => rowsTr
  | 0x016 => rowsTr
  | 0x017 => rowsTr
  | 0x020 => rowsSt
  | 0x021 => rowsSt
  | 0x022 => rowsSt
  | 0x023 => rowsSt
  | 0x024 => rowsSt
  | 0x025 => rowsSt
  | 0x026 => rowsSt
  | 0x027 => rowsSt
  | 0x028 => rowsSt
  | 0x029 => rowsSt
  | 0x02A => rowsSt
  | 0x02B => rowsSt
  | 0x02C => rowsSt
  | 0x02D => rowsSt
  | 0x02E => rowsSt
  | 0x02F => rowsSt
  | 0x030 => rowsBc
  | 0x031 => rowsZn
  | 0x032 => rowsHk
  | 0x034 => rowsSl
  | 0x035 => rowsLk
  | 0x038 => rowsDm
  | 0x03C => rowsEv
  | _ => []

/-- The fields of the register at an address; none where no register is defined (R457). -/
def regRows (a : Nat) : List RegRow := (rowsAt a).filter (fun r => rowHas r a)

/-- A register is defined at the address. -/
def regDefined (a : Nat) : Bool := !(regRows a).isEmpty

/-- The Reset column's value of the stored bits of the register at an address. -/
def regReset (a : Nat) : Nat :=
  (regRows a).foldl (fun v r => if r.live then v else v + r.reset % 2 ^ (r.hi + 1 - r.lo) * 2 ^ r.lo) 0

/-- The bits of a row as a mask. -/
def rowMask (r : RegRow) : Nat := 2 ^ (r.hi + 1) - 2 ^ r.lo

/-- The stored bits of the register at an address that satisfy a test of their row. -/
def regMask (p : RegRow → Bool) (a : Nat) : Nat :=
  (regRows a).foldl (fun v r => if p r then v ||| rowMask r else v) 0

/-- R21, R456: the island that owns an address's block, for an ST block without its producing traverse (1). -/
def blockIsland (a : Nat) : Nat :=
  match a / 1024 with
  | 0x000 => 0 | 0x001 => 0 | 0x002 => 2 | 0x003 => 2 | 0x004 => 7 | 0x005 => 8 | 0x006 => 7 | 0x007 => 8
  | 0x008 => 7 | 0x009 => 8 | 0x00A => 1 | 0x00B => 6 | 0x00C => 9
  | 0x010 => 10 | 0x011 => 11 | 0x012 => 12 | 0x013 => 13 | 0x014 => 14 | 0x015 => 15 | 0x016 => 16 | 0x017 => 17
  | 0x030 => 5 | 0x031 => 0 | 0x032 => 3 | 0x034 => 5 | 0x035 => 5 | 0x038 => 4 | 0x03C => 0
  | _ => 1

/-- R81: BM_STATE.BOOT_SLOT. -/
def bmStateBootSlot : Fld := ⟨0x00400, 17, 16⟩
/-- R81: BM_STATE.BOOT_PHASE. -/
def bmStateBootPhase : Fld := ⟨0x00400, 8, 5⟩
/-- R81: BM_STATE.ALT_BOOT. -/
def bmStateAltBoot : Fld := ⟨0x00400, 4, 4⟩
/-- R81: BM_BOOT_ERR.ERR_A. -/
def bmBootErrErrA : Fld := ⟨0x00401, 19, 10⟩
/-- R81: BM_BOOT_ERR.ERR_B. -/
def bmBootErrErrB : Fld := ⟨0x00401, 9, 0⟩
/-- R81: BM_MBX.LAST_CODE. -/
def bmMbxLastCode : Fld := ⟨0x00403, 19, 10⟩
/-- R81: BM_MBX.LAST_STATUS. -/
def bmMbxLastStatus : Fld := ⟨0x00403, 9, 0⟩
/-- R81: BM_WDOG.WDOG_RESETS. -/
def bmWdogWdogResets : Fld := ⟨0x00404, 19, 4⟩
/-- R81: BM_WDOG.MISSED. -/
def bmWdogMissed : Fld := ⟨0x00404, 1, 0⟩
/-- R81: BM_VIOLATION.COUNT. -/
def bmViolationCount : Fld := ⟨0x00405, 19, 0⟩
/-- R109: PS_STATUS.ARMED. -/
def psStatusArmed (i : Nat) : Fld := ⟨0x01800 + 1024 * i, 19, 19⟩
/-- R109: PS_STATUS.APR. -/
def psStatusApr (i : Nat) : Fld := ⟨0x01800 + 1024 * i, 17, 17⟩
/-- R109: PS_MUTE.CAUSE. -/
def psMuteCause (i : Nat) : Fld := ⟨0x01802 + 1024 * i, 19, 18⟩
/-- R109: PS_MUTE.MUTED. -/
def psMuteMuted (i : Nat) : Fld := ⟨0x01802 + 1024 * i, 15, 0⟩
/-- R109: PS_LATE.COUNT. -/
def psLateCount (i : Nat) : Fld := ⟨0x01803 + 1024 * i, 19, 0⟩
/-- R109: PS_DAC_SAT.COUNT. -/
def psDacSatCount (i : Nat) : Fld := ⟨0x01804 + 1024 * i, 19, 0⟩
/-- R109: PS_BREAK.ACTIVE. -/
def psBreakActive (i : Nat) : Fld := ⟨0x01805 + 1024 * i, 19, 19⟩
/-- R109: PS_BREAK.STATION. -/
def psBreakStation (i : Nat) : Fld := ⟨0x01805 + 1024 * i, 17, 0⟩
/-- R136: CV_STATUS.REF_FALLBACK. -/
def cvStatusRefFallback (i : Nat) : Fld := ⟨0x01000 + 1024 * i, 17, 17⟩
/-- R136: CV_STATUS.FG_BUSY. -/
def cvStatusFgBusy (i : Nat) : Fld := ⟨0x01000 + 1024 * i, 15, 10⟩
/-- R136: CV_STATUS.PASS. -/
def cvStatusPass (i : Nat) : Fld := ⟨0x01000 + 1024 * i, 3, 0⟩
/-- R136: CV_CAL_STATUS.NOT_CONV. -/
def cvCalStatusNotConv (i : Nat) : Fld := ⟨0x01001 + 1024 * i, 19, 16⟩
/-- R136: CV_CAL_STATUS.RAMAN_FG_PENDING. -/
def cvCalStatusRamanFgPending (i : Nat) : Fld := ⟨0x01001 + 1024 * i, 15, 15⟩
/-- R136: CV_CAL_TEMP.TEMP. -/
def cvCalTempTemp (i : Nat) (j : Nat) : Fld := ⟨0x01002 + 1024 * i + j, 19, 0⟩
/-- R136: CV_OVR_COUNT.COUNT. -/
def cvOvrCountCount (i : Nat) (j : Nat) : Fld := ⟨0x01008 + 1024 * i + j, 19, 0⟩
/-- R136: CV_NOTCONV_COUNT.COUNT. -/
def cvNotconvCountCount (i : Nat) : Fld := ⟨0x0100E + 1024 * i, 19, 0⟩
/-- R136: CV_PGA.CHANGES. -/
def cvPgaChanges (i : Nat) : Fld := ⟨0x0100F + 1024 * i, 11, 0⟩
/-- R136: CV_TAP_SEL.INPUT. -/
def cvTapSelInput (i : Nat) : Fld := ⟨0x01011 + 1024 * i, 15, 13⟩
/-- R136: CV_TAP_SEL.SLICE. -/
def cvTapSelSlice (i : Nat) : Fld := ⟨0x01011 + 1024 * i, 12, 9⟩
/-- R136: CV_TAP_SEL.KIND. -/
def cvTapSelKind (i : Nat) : Fld := ⟨0x01011 + 1024 * i, 8, 6⟩
/-- R136: CV_TAP_SEL.COMP. -/
def cvTapSelComp (i : Nat) : Fld := ⟨0x01011 + 1024 * i, 5, 2⟩
/-- R136: CV_PGA_GAIN.GAIN. -/
def cvPgaGainGain (i : Nat) (j : Nat) : Fld := ⟨0x01020 + 1024 * i + j, 19, 0⟩
/-- R155: PC_STATUS.CAL_FAIL. -/
def pcStatusCalFail (i : Nat) : Fld := ⟨0x02000 + 1024 * i, 18, 18⟩
/-- R155: PC_LAUNCH_MEAS.DELAY. -/
def pcLaunchMeasDelay (i : Nat) : Fld := ⟨0x02003 + 1024 * i, 19, 0⟩
/-- R155: PC_SAT.COUNT. -/
def pcSatCount (i : Nat) : Fld := ⟨0x02005 + 1024 * i, 19, 0⟩
/-- R155: PC_CLIP.COUNT. -/
def pcClipCount (i : Nat) : Fld := ⟨0x02006 + 1024 * i, 19, 0⟩
/-- R179: DA_NOISE.MEAS. -/
def daNoiseMeas (i : Nat) : Fld := ⟨0x02802 + 16 * i, 19, 10⟩
/-- R179: DA_HELD.COUNT. -/
def daHeldCount (i : Nat) : Fld := ⟨0x02803 + 16 * i, 19, 0⟩
/-- R179: DA_SLIP.COUNT. -/
def daSlipCount (i : Nat) : Fld := ⟨0x02804 + 16 * i, 19, 0⟩
/-- R179: DA_DISCORD.COUNT. -/
def daDiscordCount (i : Nat) : Fld := ⟨0x02805 + 16 * i, 19, 0⟩
/-- R199: DS_REDATUM.COUNT. -/
def dsRedatumCount (i : Nat) : Fld := ⟨0x02C05 + 16 * i, 19, 0⟩
/-- R199: DS_RANGE.COUNT. -/
def dsRangeCount (i : Nat) : Fld := ⟨0x02C06 + 16 * i, 19, 0⟩
/-- R199: DS_WEAK.COUNT. -/
def dsWeakCount (i : Nat) : Fld := ⟨0x02C07 + 16 * i, 19, 0⟩
/-- R199: DS_RECAPTURE.COUNT. -/
def dsRecaptureCount (i : Nat) : Fld := ⟨0x02C08 + 16 * i, 19, 0⟩
/-- R220: RM_STATUS.UNCAL. -/
def rmStatusUncal (i : Nat) : Fld := ⟨0x03000 + 16 * i, 17, 17⟩
/-- R220: RM_STATUS.RESTART_BLOCKS. -/
def rmStatusRestartBlocks (i : Nat) : Fld := ⟨0x03000 + 16 * i, 9, 0⟩
/-- R220: RM_COIL.REJECT. -/
def rmCoilReject (i : Nat) : Fld := ⟨0x03002 + 16 * i, 19, 16⟩
/-- R220: RM_COIL.ACCEPTED. -/
def rmCoilAccepted (i : Nat) : Fld := ⟨0x03002 + 16 * i, 15, 0⟩
/-- R220: RM_COIL_TEMP.TC. -/
def rmCoilTempTc (i : Nat) : Fld := ⟨0x03005 + 16 * i, 19, 0⟩
/-- R220: RM_CAL_AGE.AGE. -/
def rmCalAgeAge (i : Nat) : Fld := ⟨0x03006 + 16 * i, 19, 0⟩
/-- R220: RM_DARK_AS.DARK. -/
def rmDarkAsDark (i : Nat) : Fld := ⟨0x03007 + 16 * i, 19, 0⟩
/-- R220: RM_DARK_ST.DARK. -/
def rmDarkStDark (i : Nat) : Fld := ⟨0x03008 + 16 * i, 19, 0⟩
/-- R220: RM_REJECT.COUNT. -/
def rmRejectCount (i : Nat) : Fld := ⟨0x03009 + 16 * i, 19, 0⟩
/-- R220: RM_DIVERGE.COUNT. -/
def rmDivergeCount (i : Nat) : Fld := ⟨0x0300A + 16 * i, 19, 0⟩
/-- R220: RM_RESEED.COUNT. -/
def rmReseedCount (i : Nat) : Fld := ⟨0x0300B + 16 * i, 19, 0⟩
/-- R250: TR_CLOCK.STEPS. -/
def trClockSteps (i : Nat) : Fld := ⟨0x04001 + 1024 * i, 19, 14⟩
/-- R250: TR_CLOCK.APPLIED. -/
def trClockApplied (i : Nat) : Fld := ⟨0x04001 + 1024 * i, 13, 8⟩
/-- R250: TR_QUEUE.FG_MAX. -/
def trQueueFgMax (i : Nat) : Fld := ⟨0x04003 + 1024 * i, 12, 6⟩
/-- R250: TR_DROP.COUNT. -/
def trDropCount (i : Nat) : Fld := ⟨0x04004 + 1024 * i, 19, 0⟩
/-- R250: TR_AOV.COUNT. -/
def trAovCount (i : Nat) : Fld := ⟨0x04005 + 1024 * i, 19, 0⟩
/-- R250: TR_PARITY.COUNT. -/
def trParityCount (i : Nat) : Fld := ⟨0x04006 + 1024 * i, 19, 0⟩
/-- R250: TR_KFAULT.CAUSE. -/
def trKfaultCause (i : Nat) : Fld := ⟨0x04007 + 1024 * i, 19, 17⟩
/-- R250: TR_KFAULT.KERNEL. -/
def trKfaultKernel (i : Nat) : Fld := ⟨0x04007 + 1024 * i, 16, 13⟩
/-- R250: TR_KFAULT.LANE. -/
def trKfaultLane (i : Nat) : Fld := ⟨0x04007 + 1024 * i, 12, 7⟩
/-- R250: TR_KADDR.ADDR. -/
def trKaddrAddr (i : Nat) : Fld := ⟨0x04008 + 1024 * i, 9, 0⟩
/-- R276: ST_CTRL.ENABLE. -/
def stCtrlEnable (i : Nat) : Fld := ⟨0x08000 + 64 * i, 19, 19⟩
/-- R276: ST_CTRL.DEST. -/
def stCtrlDest (i : Nat) : Fld := ⟨0x08000 + 64 * i, 18, 15⟩
/-- R276: ST_CTRL.PRIO. -/
def stCtrlPrio (i : Nat) : Fld := ⟨0x08000 + 64 * i, 14, 14⟩
/-- R276: ST_CTRL.CODED. -/
def stCtrlCoded (i : Nat) : Fld := ⟨0x08000 + 64 * i, 13, 13⟩
/-- R276: ST_CTRL.FLAGS. -/
def stCtrlFlags (i : Nat) : Fld := ⟨0x08000 + 64 * i, 12, 11⟩
/-- R276: ST_STATUS.AOV. -/
def stStatusAov (i : Nat) : Fld := ⟨0x08001 + 64 * i, 13, 13⟩
/-- R276: ST_SCALE.SCALE. -/
def stScaleScale (i : Nat) : Fld := ⟨0x0800A + 64 * i, 19, 0⟩
/-- R276: ST_SHIFT.SSH. -/
def stShiftSsh (i : Nat) : Fld := ⟨0x0800B + 64 * i, 19, 14⟩
/-- R276: ST_SHIFT.EXCL. -/
def stShiftExcl (i : Nat) : Fld := ⟨0x0800B + 64 * i, 13, 4⟩
/-- R276: ST_OFFSET_LO.OFFSET. -/
def stOffsetLoOffset (i : Nat) : Fld := ⟨0x0800C + 64 * i, 19, 0⟩
/-- R276: ST_OFFSET_HI.OFFSET. -/
def stOffsetHiOffset (i : Nat) : Fld := ⟨0x0800D + 64 * i, 19, 0⟩
/-- R276: ST_SWAP.REQ. -/
def stSwapReq (i : Nat) : Fld := ⟨0x0800E + 64 * i, 19, 19⟩
/-- R276: ST_SWAP.TARGET. -/
def stSwapTarget (i : Nat) : Fld := ⟨0x0800E + 64 * i, 18, 18⟩
/-- R276: ST_SWAP.F. -/
def stSwapF (i : Nat) : Fld := ⟨0x0800E + 64 * i, 17, 5⟩
/-- R276: ST_COEF_SEL.BANK. -/
def stCoefSelBank (i : Nat) : Fld := ⟨0x08010 + 64 * i, 19, 19⟩
/-- R276: ST_COEF_SEL.INDEX. -/
def stCoefSelIndex (i : Nat) : Fld := ⟨0x08010 + 64 * i, 18, 11⟩
/-- R276: ST_DROP.COUNT. -/
def stDropCount (i : Nat) : Fld := ⟨0x08014 + 64 * i, 19, 0⟩
/-- R276: ST_FILLED.COUNT. -/
def stFilledCount (i : Nat) : Fld := ⟨0x08015 + 64 * i, 19, 0⟩
/-- R276: ST_SAT.COUNT. -/
def stSatCount (i : Nat) : Fld := ⟨0x08016 + 64 * i, 19, 0⟩
/-- R276: ST_SWAP_SUPERSEDED.COUNT. -/
def stSwapSupersededCount (i : Nat) : Fld := ⟨0x08017 + 64 * i, 19, 0⟩
/-- R276: ST_BANK_BUSY.COUNT. -/
def stBankBusyCount (i : Nat) : Fld := ⟨0x08018 + 64 * i, 19, 0⟩
/-- R276: ST_SYNCS.APPLIED. -/
def stSyncsApplied (i : Nat) : Fld := ⟨0x08019 + 64 * i, 19, 10⟩
/-- R276: ST_SYNCS.LATE. -/
def stSyncsLate (i : Nat) : Fld := ⟨0x08019 + 64 * i, 9, 0⟩
/-- R300: BC_RING_LEN.CHUNKS. -/
def bcRingLenChunks : Fld := ⟨0x0C001, 13, 0⟩
/-- R300: BC_LOST.COUNT. -/
def bcLostCount : Fld := ⟨0x0C008, 19, 0⟩
/-- R300: BC_GAP.COUNT. -/
def bcGapCount : Fld := ⟨0x0C009, 19, 0⟩
/-- R300: BC_RAW.COUNT. -/
def bcRawCount : Fld := ⟨0x0C00A, 19, 0⟩
/-- R300: BC_DROP.COUNT. -/
def bcDropCount : Fld := ⟨0x0C00B, 19, 0⟩
/-- R300: BC_UNCODED.COUNT. -/
def bcUncodedCount : Fld := ⟨0x0C00C, 19, 0⟩
/-- R300: BC_DEC_ERR.CODE. -/
def bcDecErrCode : Fld := ⟨0x0C00D, 19, 17⟩
/-- R300: BC_DEC_ERR.COUNT. -/
def bcDecErrCount : Fld := ⟨0x0C00D, 16, 0⟩
/-- R300: BC_CUR_CTRL.DEST. -/
def bcCurCtrlDest (i : Nat) : Fld := ⟨0x0C040 + 8 * i, 19, 18⟩
/-- R300: BC_CUR_CTRL.MODE. -/
def bcCurCtrlMode (i : Nat) : Fld := ⟨0x0C040 + 8 * i, 17, 17⟩
/-- R300: BC_CUR_CTRL.ALL. -/
def bcCurCtrlAll (i : Nat) : Fld := ⟨0x0C040 + 8 * i, 16, 16⟩
/-- R300: BC_CUR_CTRL.STREAM. -/
def bcCurCtrlStream (i : Nat) : Fld := ⟨0x0C040 + 8 * i, 15, 8⟩
/-- R300: BC_CUR_CTRL.RATE. -/
def bcCurCtrlRate (i : Nat) : Fld := ⟨0x0C040 + 8 * i, 7, 0⟩
/-- R300: BC_CUR_SEEK_LO.SERIAL. -/
def bcCurSeekLoSerial (i : Nat) : Fld := ⟨0x0C042 + 8 * i, 19, 0⟩
/-- R300: BC_CUR_SEEK_HI.SERIAL. -/
def bcCurSeekHiSerial (i : Nat) : Fld := ⟨0x0C043 + 8 * i, 9, 0⟩
/-- R300: BC_CUR_STATUS.CURSOR_MOVED. -/
def bcCurStatusCursorMoved (i : Nat) : Fld := ⟨0x0C044 + 8 * i, 16, 16⟩
/-- R300: BC_CUR_STATUS.DEC_FAIL. -/
def bcCurStatusDecFail (i : Nat) : Fld := ⟨0x0C044 + 8 * i, 15, 15⟩
/-- R300: BC_CUR_STATUS.END. -/
def bcCurStatusEnd (i : Nat) : Fld := ⟨0x0C044 + 8 * i, 14, 14⟩
/-- R300: BC_CUR_MOVES.COUNT. -/
def bcCurMovesCount (i : Nat) : Fld := ⟨0x0C047 + 8 * i, 19, 0⟩
/-- R317: ZN_SEL.ZONE. -/
def znSelZone : Fld := ⟨0x0C403, 19, 8⟩
/-- R317: ZN_FORCED.COUNT. -/
def znForcedCount : Fld := ⟨0x0C408, 19, 0⟩
/-- R317: ZN_EVENTS.COUNT. -/
def znEventsCount : Fld := ⟨0x0C409, 19, 0⟩
/-- R317: ZN_EVDROP.COUNT. -/
def znEvdropCount : Fld := ⟨0x0C40A, 19, 0⟩
/-- R317: HK_LOOP_STATUS.OPEN. -/
def hkLoopStatusOpen (i : Nat) : Fld := ⟨0x0C900 + 8 * i, 16, 16⟩
/-- R317: HK_LOOP_STATUS.DEVIATING. -/
def hkLoopStatusDeviating (i : Nat) : Fld := ⟨0x0C900 + 8 * i, 15, 15⟩
/-- R317: HK_LOOP_HOST.CODE. -/
def hkLoopHostCode (i : Nat) : Fld := ⟨0x0C903 + 8 * i, 19, 0⟩
/-- R336: HK_STATUS.REF_FALLBACK. -/
def hkStatusRefFallback : Fld := ⟨0x0C800, 18, 18⟩
/-- R336: HK_STATUS.REF_DRIFT. -/
def hkStatusRefDrift : Fld := ⟨0x0C800, 17, 17⟩
/-- R336: HK_URGENT_DROP.COUNT. -/
def hkUrgentDropCount : Fld := ⟨0x0C802, 19, 0⟩
/-- R336: HK_DISCARD.COUNT. -/
def hkDiscardCount : Fld := ⟨0x0C803, 19, 0⟩
/-- R336: HK_RTD_STATUS.OPEN_SEEN. -/
def hkRtdStatusOpenSeen (i : Nat) : Fld := ⟨0x0C808 + i, 16, 16⟩
/-- R360: TM_STATUS.STEPPED. -/
def tmStatusStepped : Fld := ⟨0x00800, 9, 9⟩
/-- R360: TM_STATUS.ADJ_LATE. -/
def tmStatusAdjLate : Fld := ⟨0x00800, 8, 8⟩
/-- R360: TM_SNAP.TIME. -/
def tmSnapTime (i : Nat) : Fld := ⟨0x00802 + i, 19, 0⟩
/-- R360: TM_INC_LO.INC. -/
def tmIncLoInc : Fld := ⟨0x00808, 19, 0⟩
/-- R360: TM_INC_HI.INC. -/
def tmIncHiInc : Fld := ⟨0x00809, 19, 0⟩
/-- R360: TM_PHASE_LO.E. -/
def tmPhaseLoE : Fld := ⟨0x0080A, 19, 0⟩
/-- R360: TM_PHASE_HI.E. -/
def tmPhaseHiE : Fld := ⟨0x0080B, 19, 0⟩
/-- R360: TM_COUNTS.STEPS. -/
def tmCountsSteps : Fld := ⟨0x0080D, 19, 10⟩
/-- R360: TM_COUNTS.HOST_MSGS. -/
def tmCountsHostMsgs : Fld := ⟨0x0080D, 9, 0⟩
/-- R360: TM_PPS_BAD.COUNT. -/
def tmPpsBadCount : Fld := ⟨0x0080E, 19, 0⟩
/-- R360: TD_CALFAIL.FAIL. -/
def tdCalfailFail : Fld := ⟨0x00C01, 19, 11⟩
/-- R360: TD_CALFAIL.CODE. -/
def tdCalfailCode : Fld := ⟨0x00C01, 10, 8⟩
/-- R360: TD_CH_STATUS.LOST. -/
def tdChStatusLost (i : Nat) : Fld := ⟨0x00C20 + 16 * i, 5, 5⟩
/-- R360: TD_CH_ENTRY.WORDS. -/
def tdChEntryWords (i : Nat) (j : Nat) : Fld := ⟨0x00C22 + 16 * i + j, 19, 0⟩
/-- R360: TD_CH_TAB_SEL.CODE. -/
def tdChTabSelCode (i : Nat) : Fld := ⟨0x00C2B + 16 * i, 19, 12⟩
/-- R360: TD_CH_OFFSET.OFFSET. -/
def tdChOffsetOffset (i : Nat) : Fld := ⟨0x00C2D + 16 * i, 19, 0⟩
/-- R360: TD_DEAD.COUNT. -/
def tdDeadCount (i : Nat) : Fld := ⟨0x00D00 + 8 * i, 19, 0⟩
/-- R360: TD_QDROP.COUNT. -/
def tdQdropCount (i : Nat) : Fld := ⟨0x00D01 + 8 * i, 19, 0⟩
/-- R360: TD_ORPHAN_STOP.COUNT. -/
def tdOrphanStopCount (i : Nat) : Fld := ⟨0x00D02 + 8 * i, 19, 0⟩
/-- R360: TD_ORPHAN_START.COUNT. -/
def tdOrphanStartCount (i : Nat) : Fld := ⟨0x00D03 + 8 * i, 19, 0⟩
/-- R360: TD_COINC.COUNT. -/
def tdCoincCount (i : Nat) : Fld := ⟨0x00D04 + 8 * i, 19, 0⟩
/-- R360: TD_MON_MISS.COUNT. -/
def tdMonMissCount (i : Nat) : Fld := ⟨0x00D05 + 8 * i, 19, 0⟩
/-- R360: TD_CAL_REJECT.COUNT. -/
def tdCalRejectCount (i : Nat) : Fld := ⟨0x00D06 + 8 * i, 19, 0⟩
/-- R360: TD_CAL_LOSS.COUNT. -/
def tdCalLossCount (i : Nat) : Fld := ⟨0x00D07 + 8 * i, 19, 0⟩
/-- R386: SL_Q_CTRL.RATE_MAX. -/
def slQCtrlRateMax (i : Nat) : Fld := ⟨0x0D001 + 32 * i, 19, 18⟩
/-- R386: SL_Q_TEST.MODE. -/
def slQTestMode (i : Nat) : Fld := ⟨0x0D002 + 32 * i, 19, 17⟩
/-- R386: SL_Q_TEST.PATTERN. -/
def slQTestPattern (i : Nat) : Fld := ⟨0x0D002 + 32 * i, 16, 15⟩
/-- R386: SL_Q_COUNT.RETRAINS. -/
def slQCountRetrains (i : Nat) : Fld := ⟨0x0D003 + 32 * i, 19, 10⟩
/-- R386: SL_Q_COUNT.NARROWINGS. -/
def slQCountNarrowings (i : Nat) : Fld := ⟨0x0D003 + 32 * i, 9, 0⟩
/-- R386: SL_LN_ERR.COUNT. -/
def slLnErrCount (i : Nat) : Fld := ⟨0x0D081 + 8 * i, 19, 0⟩
/-- R386: SL_LN_PRBS.COUNT. -/
def slLnPrbsCount (i : Nat) : Fld := ⟨0x0D082 + 8 * i, 19, 0⟩
/-- R411: LK_STATUS.FEAT. -/
def lkStatusFeat (i : Nat) : Fld := ⟨0x0D400 + 32 * i, 19, 18⟩
/-- R411: LK_STATUS.MISWIRED. -/
def lkStatusMiswired (i : Nat) : Fld := ⟨0x0D400 + 32 * i, 16, 16⟩
/-- R411: LK_RX_BAD.COUNT. -/
def lkRxBadCount (i : Nat) : Fld := ⟨0x0D402 + 32 * i, 19, 0⟩
/-- R411: LK_NOROUTE.COUNT. -/
def lkNorouteCount (i : Nat) : Fld := ⟨0x0D403 + 32 * i, 19, 0⟩
/-- R411: LK_TTL_DROP.COUNT. -/
def lkTtlDropCount (i : Nat) : Fld := ⟨0x0D404 + 32 * i, 19, 0⟩
/-- R411: LK_DUP.COUNT. -/
def lkDupCount (i : Nat) : Fld := ⟨0x0D405 + 32 * i, 19, 0⟩
/-- R411: LK_REFUSED.COUNT. -/
def lkRefusedCount (i : Nat) : Fld := ⟨0x0D406 + 32 * i, 19, 0⟩
/-- R411: LK_FEAT_STALE.COUNT. -/
def lkFeatStaleCount (i : Nat) : Fld := ⟨0x0D407 + 32 * i, 19, 0⟩
/-- R411: LK_LEVEL.DEPTH. -/
def lkLevelDepth : Fld := ⟨0x0D481, 19, 8⟩
/-- R411: LK_LEVEL_DELAY_LO.DELAY. -/
def lkLevelDelayLoDelay : Fld := ⟨0x0D482, 19, 0⟩
/-- R411: LK_LEVEL_DELAY_HI.DELAY. -/
def lkLevelDelayHiDelay : Fld := ⟨0x0D483, 19, 0⟩
/-- R411: LK_TIMED.LATE. -/
def lkTimedLate : Fld := ⟨0x0D484, 9, 0⟩
/-- R411: LK_TIMED_LOST.COUNT. -/
def lkTimedLostCount : Fld := ⟨0x0D485, 19, 0⟩
/-- R436: DM_CE.COUNT. -/
def dmCeCount : Fld := ⟨0x0E006, 19, 0⟩
/-- R436: DM_UE.COUNT. -/
def dmUeCount : Fld := ⟨0x0E007, 19, 0⟩
/-- R436: DM_C3_AGED.COUNT. -/
def dmC3AgedCount : Fld := ⟨0x0E008, 19, 0⟩
/-- R436: DM_RETRAIN.COUNT. -/
def dmRetrainCount : Fld := ⟨0x0E009, 19, 0⟩
/-- R436: DM_UE_ADDR_LO.ADDR. -/
def dmUeAddrLoAddr : Fld := ⟨0x0E00A, 19, 0⟩
/-- R436: DM_UE_ADDR_HI.ADDR. -/
def dmUeAddrHiAddr : Fld := ⟨0x0E00B, 19, 0⟩
/-- R436: DM_FREEZE.RESULT. -/
def dmFreezeResult : Fld := ⟨0x0E00C, 19, 17⟩
/-- R436: DM_FREEZE.CHANNEL. -/
def dmFreezeChannel : Fld := ⟨0x0E00C, 16, 15⟩
/-- R436: DM_FREEZE.SUBCH. -/
def dmFreezeSubch : Fld := ⟨0x0E00C, 14, 14⟩
/-- R436: DM_FREEZE.DURATION. -/
def dmFreezeDuration : Fld := ⟨0x0E00C, 13, 6⟩
/-- R436: DM_FREEZE.NEW. -/
def dmFreezeNew : Fld := ⟨0x0E00C, 5, 5⟩
/-- R436: DM_SCRUB.PASSES. -/
def dmScrubPasses : Fld := ⟨0x0E00D, 9, 0⟩
/-- R455: BM_POWER.STANDBY. -/
def bmPowerStandby : Fld := ⟨0x00407, 19, 19⟩
/-- R455: BM_POWER.STBY_CAUSE. -/
def bmPowerStbyCause : Fld := ⟨0x00407, 18, 17⟩
/-- R455: BM_POWER.LINE0_RESETS. -/
def bmPowerLine0Resets : Fld := ⟨0x00407, 15, 8⟩
/-- R455: BM_POWER.LINE1_RESETS. -/
def bmPowerLine1Resets : Fld := ⟨0x00407, 7, 0⟩
/-- R455: BM_CLOCK.UNLOCKS. -/
def bmClockUnlocks : Fld := ⟨0x00408, 9, 0⟩
/-- R491: HK_APDB.FOLLOW_ARM. -/
def hkApdbFollowArm (i : Nat) : Fld := ⟨0x0C8F0 + i, 19, 19⟩
/-- R491: HK_APDB.CODE. -/
def hkApdbCode (i : Nat) : Fld := ⟨0x0C8F0 + i, 9, 0⟩
/-- R466: MG_ID.PART. -/
def mgIdPart : Fld := ⟨0x00000, 19, 0⟩
/-- R466: MG_REV.LETTER. -/
def mgRevLetter : Fld := ⟨0x00001, 9, 5⟩
/-- R466: MG_REV.NUMBER. -/
def mgRevNumber : Fld := ⟨0x00001, 4, 0⟩
/-- R466: MG_IMAGE.SEQ. -/
def mgImageSeq : Fld := ⟨0x00009, 19, 0⟩
/-- R466: MG_PLAN_ID.ID. -/
def mgPlanIdId : Fld := ⟨0x0000A, 19, 0⟩
/-- R466: MG_PLAN_REV.REV. -/
def mgPlanRevRev : Fld := ⟨0x0000B, 19, 0⟩
/-- R466: MG_AMEND_SEQ.SEQ. -/
def mgAmendSeqSeq : Fld := ⟨0x0000C, 19, 0⟩
/-- R466: MG_FEAT.REJECT. -/
def mgFeatReject : Fld := ⟨0x00010, 19, 17⟩
/-- R466: MG_OFFER.WORD. -/
def mgOfferWord (i : Nat) : Fld := ⟨0x00011 + i, 19, 0⟩
/-- R466: MG_ACC.WORD. -/
def mgAccWord (i : Nat) (j : Nat) : Fld := ⟨0x00014 + 3 * i + j, 19, 0⟩
/-- R466: MG_FENCE_SCOPE.MASK. -/
def mgFenceScopeMask : Fld := ⟨0x00020, 17, 0⟩
/-- R466: MG_FENCE.STATUS. -/
def mgFenceStatus : Fld := ⟨0x00021, 18, 17⟩
/-- R466: MG_FENCE.HOST_ID. -/
def mgFenceHostId : Fld := ⟨0x00021, 9, 0⟩
/-- R466: MG_EPOCH.ISSUED. -/
def mgEpochIssued : Fld := ⟨0x00022, 19, 10⟩
/-- R466: MG_EPOCH.EPOCH. -/
def mgEpochEpoch : Fld := ⟨0x00022, 9, 0⟩
/-- R466: MG_FENCE_FAIL.ID. -/
def mgFenceFailId : Fld := ⟨0x00023, 9, 0⟩
/-- R466: MG_FENCE_MISS.MASK. -/
def mgFenceMissMask : Fld := ⟨0x00024, 17, 0⟩
/-- R466: MG_SNAP_ADDR.ADDR. -/
def mgSnapAddrAddr : Fld := ⟨0x00031, 19, 0⟩
/-- R466: MG_SNAP_DATA.DATA. -/
def mgSnapDataData (i : Nat) : Fld := ⟨0x00032 + i, 19, 0⟩
/-- R466: MG_SNAP_STATUS.ERR. -/
def mgSnapStatusErr : Fld := ⟨0x0003A, 18, 18⟩
/-- R471: EV_SEL.INDEX. -/
def evSelIndex : Fld := ⟨0x0F002, 19, 10⟩
/-- R471: EV_ENTRY.WORDS. -/
def evEntryWords (i : Nat) : Fld := ⟨0x0F004 + i, 19, 0⟩
/-- R471: EV_LOST.COUNT. -/
def evLostCount : Fld := ⟨0x0F008, 19, 0⟩
/-- R276: ST_DET_CTRL.EN. -/
def stDetCtrlEn (i : Nat) (j : Nat) : Fld := ⟨0x08020 + 64 * i + 8 * j, 19, 19⟩
/-- R276: ST_DET_CTRL.KIND. -/
def stDetCtrlKind (i : Nat) (j : Nat) : Fld := ⟨0x08020 + 64 * i + 8 * j, 18, 16⟩
/-- R276: ST_DET_CTRL.N_ON. -/
def stDetCtrlNOn (i : Nat) (j : Nat) : Fld := ⟨0x08020 + 64 * i + 8 * j, 15, 8⟩
/-- R276: ST_DET_CTRL.N_OFF. -/
def stDetCtrlNOff (i : Nat) (j : Nat) : Fld := ⟨0x08020 + 64 * i + 8 * j, 7, 0⟩
/-- R276: ST_DET_HI_LO.V. -/
def stDetHiLoV (i : Nat) (j : Nat) : Fld := ⟨0x08021 + 64 * i + 8 * j, 19, 0⟩
/-- R276: ST_DET_HI_HI.V. -/
def stDetHiHiV (i : Nat) (j : Nat) : Fld := ⟨0x08022 + 64 * i + 8 * j, 19, 0⟩
/-- R276: ST_DET_LO_LO.V. -/
def stDetLoLoV (i : Nat) (j : Nat) : Fld := ⟨0x08023 + 64 * i + 8 * j, 19, 0⟩
/-- R276: ST_DET_LO_HI.V. -/
def stDetLoHiV (i : Nat) (j : Nat) : Fld := ⟨0x08024 + 64 * i + 8 * j, 19, 0⟩
/-- R276: ST_DET_HYST.HYST. -/
def stDetHystHyst (i : Nat) (j : Nat) : Fld := ⟨0x08025 + 64 * i + 8 * j, 19, 0⟩
/-- R276: ST_DET_LIMIT.EV_LIMIT. -/
def stDetLimitEvLimit (i : Nat) (j : Nat) : Fld := ⟨0x08026 + 64 * i + 8 * j, 19, 10⟩
/-- R276: ST_DET_EVENTS.COUNT. -/
def stDetEventsCount (i : Nat) (j : Nat) : Fld := ⟨0x08027 + 64 * i + 8 * j, 19, 0⟩

end Sys2Proof.Machine
end

