-- ==== Sys2Proof/Machine/StCore.lean ====
section
/-! DEFINITION. The parts of the state that every subsystem shares: fences, held writes, the event log, product
samples, and the traverses with their lanes (spec R25 to R30, R468, R222 to R229). -/

namespace Sys2Proof.Machine
open Sys2Proof

/-- Who issued a fence, and what its completion must still do. -/
inductive FenceFor where
  /-- A bare host fence (R467). -/
  | host
  /-- Fieldbook, for an RWF write from outside (R76). -/
  | auto
  /-- Plan application, first fence after boot or WARM reset (R58). -/
  | plan
  /-- An accepted amendment, with its sequence number and the link its answer goes to (R72). -/
  | amend (seq : Nat) (link : Fin 3)
  /-- Fieldbook, for a launch delay it measured (R149). -/
  | measured (line : Fin 2) (delay : Nat)
  /-- Fieldbook, for a change it makes itself (R74). -/
  | fieldbook
  deriving DecidableEq, Repr

/-- R25: one outstanding fence. -/
structure Fence where
  id : Nat
  /-- Islands named, island n at bit n. -/
  scope : Nat
  /-- Islands that have acknowledged, or are acknowledged for (R28). -/
  acked : Nat
  /-- Islands treated as acknowledged after 100 ms (R28). -/
  missed : Nat
  /-- Issue number, counting every fence since reset (an identifier without the wrap). -/
  serial : Nat
  /-- Elapsed time at its issue. -/
  at_ : Nat
  why : FenceFor
  /-- Islands that took their plan records as they acknowledged (R225). -/
  took : Nat
  /-- Plan records an amendment holds until the fence completes (R72). -/
  recs : List PlanRec
  deriving DecidableEq, Repr

/-- R29: a value written to RWF bits and not yet in effect. -/
structure HeldWrite where
  addr : Nat
  mask : Nat
  value : Nat
  /-- Fences issued when the write was accepted: a qualifying fence has a serial at or above it. -/
  serial : Nat
  deriving DecidableEq, Repr

/-- R72: a plan record that waits for a fence of its island. -/
structure HeldRec where
  body : PlanRec
  island : Nat
  serial : Nat
  deriving DecidableEq, Repr

/-- The fence unit of the always-on island. -/
structure FenceUnit where
  /-- Identifier of the next fence (R27). -/
  nextId : Nat
  /-- Fences issued since the last POR or COLD reset. -/
  issued : Nat
  /-- Outstanding fences, oldest first. -/
  out : List Fence
  /-- Per island, the last fence completed with its acknowledgement (R30). -/
  epoch : Vector Nat 18
  /-- RWF writes held (R29), oldest first. -/
  held : List HeldWrite
  /-- Plan records held past a fence their island missed (R29, R72). -/
  heldRecs : List HeldRec
  /-- Fieldbook retries a refused fence of its own (R75): scope and purpose. -/
  retry : List (Nat × FenceFor)
  /-- Islands that owe an automatic fence (R76), island n at bit n. -/
  autoMask : Nat
  deriving DecidableEq, Repr

/-- R468, R469: the event log. -/
structure EventLog where
  /-- Entries of 8 words, oldest first, at most 1,024. -/
  entries : List (List Word)
  /-- Index the next entry takes. -/
  next : Nat
  /-- Seconds bits [59:10] of the last entry; none after POR or COLD reset. -/
  lastSec : Option Nat
  deriving DecidableEq, Repr

/-- A product sample: the newest of its line, product and station. -/
structure Sample where
  /-- Device-time stamp. -/
  stamp : Nat
  /-- The sample's words, lowest first. -/
  words : List Word
  flag : Nat
  invalid : Bool
  /-- Epoch of the shot or event it comes from (R30). -/
  epoch : Nat
  deriving DecidableEq, Repr

/-- R222: what a traverse is running. -/
inductive PassKind where
  | idle | shot | output | raman | service
  deriving DecidableEq, Repr

/-- A foreground request: a delivered trace's launch (R222). -/
structure ShotReq where
  line : Nat
  /-- Launch stamp shared by the traces of the pass. -/
  stamp : Nat
  deriving DecidableEq, Repr

/-- A background request (R222). -/
inductive BgReq where
  /-- End of a spectral output period or capture block: its tag (R185) and its first schedule point's stamp and the
  traverse's epoch at its first launch (R30). -/
  | output (line : Nat) (tag : Nat) (stamp : Nat) (epoch : Nat) (capture : Bool)
  /-- Delivery of Raman block k. -/
  | raman (line : Nat) (block : Nat) (stamp : Nat)
  deriving DecidableEq, Repr

/-- R227, R229: one lane. -/
structure Lane where
  /-- General registers w0 to w31. -/
  w : Vector Word 32
  /-- INV tags of w0 to w31. -/
  inv : BitVec 32
  /-- Index registers x0 to x3. -/
  x : Vector (BitVec 14) 4
  /-- Predicates p0 to p3; bit 0 is never read (p0 reads 1). -/
  p : BitVec 4
  acc0 : Acc
  acc1 : Acc
  sat0 : Bool
  sat1 : Bool
  /-- The accumulator holds a result formed from an INV register (R238). -/
  ai0 : Bool
  ai1 : Bool
  aov : Bool
  /-- SAT0 or SAT1 newly set in the running pass (TR_AOV counts it once). -/
  satSeen : Bool
  /-- A parity error was read in the running pass: its products carry INVALID (R241). -/
  parErr : Bool
  /-- Local memory, 16,384 words; an unlisted word is zero. -/
  mem : Tab Word
  /-- Addresses whose parity bit is wrong. -/
  badPar : List Nat
  /-- Words waiting at the input port. -/
  inFifo : List Word
  deriving DecidableEq, Repr

/-- R237: a running repeat. -/
structure Repeat where
  len : Nat
  count : Nat
  /-- Instructions of the body already issued in this iteration. -/
  pos : Nat
  /-- The iteration index rc. -/
  rc : Nat
  deriving DecidableEq, Repr

/-- A sample OUT has formed and not yet sent. -/
structure OutSample where
  lane : Nat
  code : Nat
  words : List Word
  flag : Nat
  invalid : Bool
  deriving DecidableEq, Repr

/-- R243: a running custom kernel invocation. -/
structure KernRun where
  k : Nat
  /-- Kernels of the hook still to run, in ascending number. -/
  rest : List Nat
  h : Nat
  /-- Store address of the next instruction. -/
  pc : Nat
  /-- Cycle at which the next instruction may issue. -/
  cyc : Nat
  /-- Cycle from which a written resource may be read (see `laneRes`). -/
  ready : Tab Nat
  outs : List OutSample
  deriving DecidableEq, Repr

/-- R223: background work that runs in slices: the request, and the index within the lane block of the next station. -/
structure BgWork where
  req : BgReq
  next : Nat
  deriving DecidableEq, Repr

/-- R181, R186: the open output period or capture block: its tag, its first point's stamp, and the traverse's epoch at its first
launch (R30). -/
structure OpenSpan where
  tag : Nat
  stamp : Nat
  epoch : Nat
  deriving DecidableEq, Repr

/-- One traverse (R221 to R229). -/
structure Trav where
  lanes : Vector Lane 64
  run : PassKind
  /-- Marked OUT_OF_SERVICE (R240). -/
  oos : Bool
  /-- A clock change runs (R23). -/
  clockChange : Bool
  gang : Bool
  kern : Option KernRun
  rep : Option Repeat
  /-- Store address of the next instruction outside a kernel. -/
  pc : Nat
  /-- Index within the lane block of the station the running pass works on. -/
  stIdx : Nat
  /-- Stamp of the event the running pass serves, and the traverse's epoch when it arose (R30). -/
  stamp : Nat
  epoch : Nat
  /-- DAS group the running shot pass updates. -/
  grp : Nat
  /-- Raman block the running pass works on. -/
  blk : Nat
  /-- SEQ of R243, by hook × 2^18 + station. -/
  hookSeq : Tab Nat
  /-- Kernels suspended under R246. -/
  susp : List Nat
  /-- Instruction store (R18): 4,096 instructions; an unlisted one is zero. -/
  store : Tab (BitVec 40)
  fg : List ShotReq
  bg : List BgReq
  /-- The background work under way. -/
  work : Option BgWork
  /-- R225, R249: the kernel parameters in effect, by kernel. -/
  params : List (Nat × List Word)
  /-- Requests refused in the current second (R224). -/
  refused : Nat
  /-- Groups (by launch offset) whose refused shot pass leaves the next update HELD (R224). -/
  heldNext : List Nat
  /-- R181, R186: the open output period and capture block, and the tag of the last sweep seen. -/
  openP : Option OpenSpan
  openB : Option OpenSpan
  lastSw : Option Nat
  /-- R196: start of a period or block that was discarded: nothing opens in it again; 0 until the next sweep names it. -/
  waitP : Option Nat
  waitB : Option Nat
  /-- A parity error asks for a recovery pass (R241). -/
  recovery : Bool
  /-- Busy cycles of the last second in 1/1,000 of the clock, and the peak 10 ms fraction (TR_LOAD). -/
  loadAvg : Nat
  loadPeak : Nat
  /-- Busy cycles since the last whole second and in the running 10 ms, and the second's highest 10 ms. -/
  busy : Nat
  busy10 : Nat
  busyMax : Nat
  deriving DecidableEq, Repr

/-- A lane with nothing in it. -/
def Lane.zero : Lane :=
  { w := Vector.replicate 32 0, inv := 0, x := Vector.replicate 4 0, p := 0, acc0 := 0, acc1 := 0, sat0 := false,
    sat1 := false, ai0 := false, ai1 := false, aov := false, satSeen := false, parErr := false, mem := [], badPar := [], inFifo := [] }

/-- A traverse after reset. -/
def Trav.zero : Trav :=
  { lanes := Vector.replicate 64 Lane.zero, run := .idle, oos := false, clockChange := false, gang := false,
    kern := none, rep := none, pc := 0, stIdx := 0, stamp := 0, epoch := 0, grp := 0, blk := 0, hookSeq := [], susp := [], store := [], fg := [],
    bg := [], work := none, params := [], refused := 0, heldNext := [], openP := none, openB := none, lastSw := none, waitP := none, waitB := none, recovery := false, loadAvg := 0, loadPeak := 0, busy := 0, busy10 := 0, busyMax := 0 }

/-- The fence unit after POR or COLD reset: the first fence takes identifier 0x001 (R27). -/
def FenceUnit.zero : FenceUnit :=
  { nextId := 1, issued := 0, out := [], epoch := Vector.replicate 18 0, held := [], heldRecs := [], retry := [],
    autoMask := 0 }

end Sys2Proof.Machine
end

