-- ==== Sys2Proof/Machine/StLine.lean ====
section
/-! DEFINITION. One line's front end (spec chapters on probe synthesis, receive converters, channeliser and pulse
compression): shot sequencer, laser path, converter calibration and the traces on their way to the lanes. -/

namespace Sys2Proof.Machine
open Sys2Proof

/-- A launch the sequencer has made, whose traces are still to come (R94, R106, R151). -/
structure Launch where
  slot : Nat
  /-- Scheduled launch time, units of 2^-20 ns. -/
  stamp : Nat
  /-- Elapsed time at the launch. -/
  at_ : Nat
  /-- Schedule point index m. -/
  m : Nat
  /-- Spectral point of a sweep slot (R90). -/
  point : Nat
  dark : Bool
  gap : Bool
  rephased : Bool
  apr : Bool
  realigned : Bool
  /-- First launch after a change of waveform, fine offset or phase word (R176). -/
  fresh : Bool
  /-- Number of the schedule's origin, counting each new one. -/
  era : Nat
  /-- R30: the epochs of the islands at the launch. -/
  epochs : List Nat
  /-- Polarisations still to be delivered, X at bit 0. -/
  due : Nat
  /-- The slot's reference h′ as (I, Q) pairs, and LAUNCH_DELAY, when it launched (R142, R152). -/
  g : Nat
  kind : Nat
  k0 : Nat
  href : List (Int × Int)
  delay : Nat
  /-- Output power summed over each 64-station block, over the polarisations delivered so far (R103). -/
  pow : List Nat
  /-- R148: the calibration correlator's |y|² over the search window, over the polarisations delivered so far, and whether one
  of them was CLIPPED in the window. -/
  cal : List Nat
  marked : Bool
  deriving DecidableEq, Repr

/-- R95: a launch command the sequencer holds. -/
structure LaunchCmd where
  slot : Nat
  /-- Schedule point index. -/
  m : Nat
  /-- Launch time. -/
  time : Nat
  deriving DecidableEq, Repr

/-- R151: one station of a trace. -/
structure TraceStation where
  re : Int
  im : Int
  clipped : Bool
  stale : Bool
  beyond : Bool
  deriving DecidableEq, Repr

/-- R151: one branch trace as the lanes get it. -/
structure Trace where
  slot : Nat
  pol : Nat
  kind : Nat
  point : Nat
  stamp : Nat
  dark : Bool
  gap : Bool
  rephased : Bool
  apr : Bool
  realigned : Bool
  fresh : Bool
  era : Nat
  m : Nat
  epochs : List Nat
  stations : List TraceStation
  deriving DecidableEq, Repr

/-- R159 to R162: one station of a branch compared with its previous trace: 0 usable, 1 CLIPPED, 2 STALE, 3 NO_PREV,
4 FADED; its stored phase and level, its differential and clarity. -/
structure Diff where
  why : Nat
  ph : Nat
  lv : Nat
  d : Int
  c : Int
  deriving DecidableEq, Repr

/-- A trace with the traverses that have not yet worked on it, traverse t at bit t, and its differentials once a pass
has formed them. -/
structure TraceDue where
  tr : Trace
  due : Nat
  diff : Option (List Diff)
  deriving DecidableEq, Repr

/-- R98: a Raman trigger: era and index of its trigger point, the reference slot's launch stamp, the pulse's edge. -/
structure RamanTrig where
  era : Nat
  point : Nat
  launch : Nat
  /-- The reference slot. -/
  slot : Nat
  edge : Nat
  /-- Elapsed time of the edge. -/
  at_ : Nat
  /-- R30: the islands' epochs at the reference slot's launch. -/
  epochs : List Nat
  deriving DecidableEq, Repr

/-- R86: a lit slot of a launch on its way through the DACs. -/
structure Emit where
  slot : Nat
  /-- Scheduled launch time. -/
  stamp : Nat
  /-- First DAC sample, on the DACs' own count, its time after the launch instant in fifths of a DAC sample, and the samples the
  waveform covers. -/
  t0 : Nat
  d5 : Nat
  n : Nat
  /-- Samples put out so far. -/
  pos : Nat
  g : Nat
  wave : List (Int × Int)
  amp : Nat
  nco : Int
  phase : Nat
  /-- DAC sample from which it is cut. -/
  cut : Option Nat
  /-- Energy so far, in 1/256 code². -/
  energy : Nat
  /-- Number of the launch's free values. -/
  draw : Nat
  deriving DecidableEq, Repr

/-- The shot sequencer, laser path and break monitor of a line (R92 to R105). -/
structure Probe where
  /-- Ln_ILK_N is low. -/
  ilkLow : Bool
  /-- Ln_LASER_EN pin. -/
  laserEn : Bool
  /-- Device time before which no launch emits (R99 settle). -/
  settleTo : Nat
  /-- The schedule origin; none before one is set. -/
  origin : Option Nat
  /-- Steps of device time since the origin was set, which have moved it (R358). -/
  shift : Int
  /-- Accepted origins not yet reached, in the order of their acceptance (R97). -/
  newOrigins : List Nat
  /-- PS_STATUS.REPHASE_PENDING of the last one (R109). -/
  rephPend : Bool
  /-- Immediate mode waits for the next LASER_ARM grant to set the origin. -/
  needOrigin : Bool
  /-- Per slot, the index m of its next schedule point. -/
  nextM : Vector Nat 16
  /-- Per slot, the origin that its next schedule point belongs to. -/
  slotOrigin : Vector (Option Nat) 16
  /-- Launch commands the sequencer holds. -/
  cmds : List LaunchCmd
  /-- Slots whose previous schedule point did not launch (GAP). -/
  gapNext : Nat
  /-- Slots whose next launch is the first under a new origin. -/
  rephNext : Nat
  /-- Slots whose next launch is the first after a LAUNCH_DELAY or n_g change. -/
  realNext : Nat
  /-- Slots whose next launch is the first after a change of waveform, fine offset or phase word. -/
  freshNext : Nat
  /-- Number of the schedule's origin. -/
  era : Nat
  /-- Sweeps under the origin that DS_SWEEPS no longer counts, after a reset (R199). -/
  sweepBase : Nat
  /-- Launches whose traces are due, oldest first. -/
  launches : List Launch
  /-- R86: waveforms that the DACs emit or are about to. -/
  emits : List Emit
  /-- The DAC samples put out last, I and Q codes, oldest first; none stands for zero code. -/
  dac : List (Int × Int)
  /-- R96: how far launch instants stand from the cadence of the SCS, in 39.0625 ps, and the last shot period's launch that
  slewed. -/
  slew : Int
  slewAt : Nat
  /-- Energy of the present sub-window and of the last sixteen, newest first, in code². -/
  subNow : Nat
  subs : List Nat
  /-- Raman triggers fired whose captures are to come. -/
  ramanTrigs : List RamanTrig
  /-- R98: rise and fall of the last Ln_RAMAN_TRIG pulse. -/
  ramanPulse : Option (Nat × Nat)
  /-- Break monitor: break stations of the latest consecutive launches that had one, newest last (R104). -/
  breakRun : List Nat
  /-- Consecutive monitor launches without a break station (R105). -/
  noBreakRun : Nat
  /-- Elapsed time when Ln_ILK_N last fell. -/
  ilkAt : Option Nat
  deriving DecidableEq, Repr

/-- R134: why samples of a converter input carry a mark. -/
inductive MarkWhy
  | ovr
  | isolated
  | settling
  deriving DecidableEq, Repr

/-- R121, R123, R126, R133: a span of elapsed time over which the samples of some inputs carry a mark; no end while it lasts. -/
structure MarkSpan where
  why : MarkWhy
  /-- The inputs, input i at bit i. -/
  mask : Nat
  from_ : Nat
  to_ : Option Nat
  deriving DecidableEq, Repr

/-- Converter calibration of a line (R112 to R133). -/
structure Conv where
  /-- Applied corrections by `calKey`; an unlisted one is nominal. -/
  applied : Tab Int
  target : Tab Int
  /-- Spare slice of each fast input. -/
  spare : Vector Nat 4
  /-- R112: per fast input, the active slice at each of the eight conversion places, and the elapsed time of the last rotation
  step. -/
  order : Vector (List Nat) 4
  rotAt : Vector Nat 4
  /-- Rotation steps of a running priority pass, per fast input. -/
  passSteps : Vector Nat 4
  /-- Die reading at the start of a running priority pass, per fast input. -/
  passStart : Vector Int 4
  /-- Inputs queued for foreground calibration, in input order. -/
  fgQueue : List Nat
  /-- Die readings at the start of the running foreground calibration: front end and Raman. -/
  fgStart : Int
  fgStartRaman : Int
  /-- A full foreground calibration runs (R124). -/
  fullCal : Bool
  /-- A Raman foreground calibration runs, and one is forced to the next capture window end (R129). -/
  ramanFg : Bool
  ramanForce : Bool
  /-- R125: a Raman foreground calibration that a reset or standby stopped or found queued is owed. -/
  ramanOwed : Bool
  /-- R326: the die reading asked for as a calibration started has not come, for the fast and for the Raman inputs. -/
  askFast : Bool
  askRaman : Bool
  /-- The SHARED reference is in use. -/
  shared : Bool
  settling : Bool
  /-- PGA range of AS and ST. -/
  range : Vector Nat 2
  /-- Deferred range change of AS and ST, commanded or automatic. -/
  deferred : Vector (Option (Nat × Bool)) 2
  /-- The newest captures since the last range change, per input: carried OVR, largest |code|. -/
  hist : Vector (List (Bool × Nat)) 2
  /-- The next capture is the first after a range change. -/
  changed : Vector Bool 2
  /-- A capture window is open. -/
  inWindow : Bool
  /-- Elapsed time until which each input carries OVR samples. -/
  ovrUntil : Vector Nat 6
  /-- The spans of marked samples that traces and captures still to come may meet. -/
  spans : List MarkSpan
  /-- The last two die readings of the front end's island, newest first: device time and mK; the Raman island's last. -/
  die : List (Nat × Int)
  dieRaman : Option Int
  /-- An APD bias code waits for the window's end (R490). -/
  apdPend : Option Nat
  apdCode : Nat
  deriving DecidableEq, Repr

/-- R138: a stretch of input samples over which the DC canceller has run: the number of its first sample on the converters' own
count and the estimate after each of its samples. -/
structure DcRun where
  first : Nat
  est : List Int
  deriving DecidableEq, Repr

/-- Channeliser and pulse compression of a line (R137 to R152). -/
structure Pce where
  /-- DC estimates m(c), 16 fraction bits, and the last stretch of samples they ran over. -/
  dc : Vector Int 4
  dcRun : Vector DcRun 4
  /-- Applied LAUNCH_DELAY. -/
  delay : Nat
  /-- A measurement runs: launches collected, schedule points passed and the sums of the search window's powers. -/
  measuring : Bool
  collected : Nat
  points : Nat
  sums : List Nat
  /-- A measurement that a LINE reset abandoned restarts after it. -/
  again : Bool
  /-- A measured delay whose fence the line's island did not acknowledge in time (R28, R29). -/
  pend : Option Nat
  /-- Traces delivered and not yet worked on. -/
  traces : List TraceDue
  deriving DecidableEq, Repr

/-- The sequencer after reset. -/
def Probe.zero : Probe :=
  { ilkLow := false, laserEn := false, settleTo := 0, origin := none, shift := 0, newOrigins := [], rephPend := false, needOrigin := false,
    nextM := Vector.replicate 16 0, slotOrigin := Vector.replicate 16 none, cmds := [], gapNext := 0, rephNext := 0, realNext := 0, freshNext := 0, era := 0, sweepBase := 0,
    launches := [], emits := [], dac := [], slew := 0, slewAt := 0,
    subNow := 0, subs := [], ramanTrigs := [], ramanPulse := none, breakRun := [], noBreakRun := 0, ilkAt := none }

/-- The converters after POR or COLD reset: slice 8 is the spare, the reference settles. -/
def Conv.zero : Conv :=
  { applied := [], target := [], spare := Vector.replicate 4 8, order := Vector.replicate 4 (List.range 8), rotAt := Vector.replicate 4 0,
    passSteps := Vector.replicate 4 0, passStart := Vector.replicate 4 0, fgQueue := [],
    fgStart := 0, fgStartRaman := 0, fullCal := false, ramanFg := false, ramanForce := false, ramanOwed := false, askFast := false, askRaman := false, shared := false, settling := true,
    range := Vector.replicate 2 0, deferred := Vector.replicate 2 none, hist := Vector.replicate 2 [],
    changed := Vector.replicate 2 false, inWindow := false, ovrUntil := Vector.replicate 6 0,
    spans := [{ why := .settling, mask := 15, from_ := 0, to_ := none }], die := [],
    dieRaman := none, apdPend := none, apdCode := 0 }

/-- The PCE after reset. -/
def Pce.zero : Pce :=
  { dc := Vector.replicate 4 0, dcRun := Vector.replicate 4 { first := 0, est := [] }, delay := 0, measuring := false, collected := 0,
    points := 0, sums := [], again := false, pend := none, traces := [] }

end Sys2Proof.Machine
end

