-- ==== Sys2Proof/Machine/StKeeper.lean ====
section
/-! DEFINITION. What Benchmark, the fuses and the clock monitors hold (spec R37 to R61, R437 to R455), and what
Fieldbook holds about the plan. -/

namespace Sys2Proof.Machine
open Sys2Proof

/-- R48: the OTP array, by its fields; an unprogrammed bit reads 0. -/
structure Otp where
  /-- Bits [8:0]. -/
  life : BitVec 9
  /-- Bits [15:9], reserved. -/
  rsvLow : BitVec 7
  /-- Bits [79:16], the anti-rollback thermometer. -/
  therm : BitVec 64
  /-- Bits [1615:80], the SHA-384 of key slots 0 to 3. -/
  keys : Vector Nat 4
  /-- Bits [1619:1616]. -/
  revoke : BitVec 4
  /-- Bits [1631:1620], reserved. -/
  rsvMid : BitVec 12
  /-- Bits [1759:1632]. -/
  uid : Nat
  /-- Bits [2559:1760]. -/
  trim : Nat
  /-- Bits [4095:2560], reserved. -/
  rsvHigh : BitVec 1536
  deriving DecidableEq, Repr

/-- R450, R451: what a clock runs on. -/
inductive ClkRef where
  | refclk | alt | none_
  deriving DecidableEq, Repr

/-- R58: what the boot has done so far. -/
structure Boot where
  otpRead : Bool
  /-- R51: the read command and dummy-cycle count of 8D-8D-8D mode; none: Fast Read in 1S-1S-1S mode. -/
  octal : Option (Nat × Nat)
  staged : Bool
  verified : Bool
  /-- Security version and COMMIT of the booted manifest (R50), and the key slot of its certificate. -/
  secVersion : Nat
  commit : Bool
  certSlot : Nat
  /-- R54: the key of that certificate, and the decompressed lengths of Fieldbook stage 1 and of all Fieldbook, in words. -/
  certKey : PubKey
  stage1Len : Nat
  fieldLen : Nat
  /-- R55: lengths in words of the sections in the staging region. -/
  lens : List Nat
  /-- BOOT_COMPLETE granted this COLD boot. -/
  complete : Bool
  /-- The first fence of a plan application has been issued, and has completed. -/
  planFence : Bool
  /-- R240: traverses whose self-test of BOOT_PHASE 6 has run, traverse t at bit t. -/
  tested : Nat
  deriving DecidableEq, Repr

/-- R42: a mailbox request of four words: its code and three arguments. -/
structure MbxReq where
  code : Word
  a1 : Word
  a2 : Word
  a3 : Word
  deriving DecidableEq, Repr

/-- Benchmark, resets, standby and clocks. -/
structure Keeper where
  /-- Pins PWRGOOD and RESET_N. -/
  pwrgood : Bool
  resetN : Bool
  /-- R484: elapsed time when RESET_N last rose. -/
  riseAt : Nat
  otp : Otp
  /-- R49: the SHA-384 of the vendor's public key, in the mask ROM. -/
  vendorHash : Nat
  /-- R37: the keeper core's private SRAM by byte address, 32 KB; an unlisted byte is zero. -/
  sram : Tab Byte
  /-- R42: mailbox requests that await an answer, at most four. -/
  mbx : List MbxReq
  boot : Boot
  /-- R455 BM_RESET. -/
  resetKind : Nat
  resetCause : Nat
  /-- R439: device times of the WARM resets of the last 600 s. -/
  warmTimes : List Nat
  /-- A WARM reset is in progress (R448). -/
  warm : Bool
  /-- Lines under LINE reset. -/
  lineReset : BitVec 2
  /-- Lines Fieldbook is to request LASER_ARM for (R444). -/
  rearm : BitVec 2
  /-- R447: a standby exit is in progress (2); its step. Entry is one step (log entry 30). -/
  transit : Nat
  exitStep : Nat
  /-- The SCS lost lock in standby: the full foreground calibration runs at exit (R448). -/
  calOwed : Bool
  /-- R449: device time since which every die reading has been at or below the limit less 10 K. -/
  coolSince : Option Nat
  /-- R450. -/
  scsLock : Bool
  freqStale : Bool
  scsRef : ClkRef
  /-- The SCS has locked once, and stopped for want of a reference. -/
  scsStopped : Bool
  /-- R451. -/
  coreRef : ClkRef
  refPresent : Bool
  altPresent : Bool
  /-- R43, R61: the hashes recorded of the Fieldbook region and of the amended plan. -/
  hashField : Option Nat
  hashPlan : Option Nat
  /-- Detail word of the last mailbox answer. -/
  detail : Nat
  deriving DecidableEq, Repr

/-- What Fieldbook holds about the plan. -/
structure Book where
  /-- The plan of the booted image. -/
  plan : List PlanRec
  /-- R73: the amended plan, with every accepted amendment merged. -/
  amended : List PlanRec
  /-- R38, R61: the decompressed copy of Fieldbook in DRAM. -/
  fieldCopy : List Word
  /-- R54, R58: the lane microcode library of the booted image. -/
  micro : List Word
  /-- R36: products shed, as (line, product code). -/
  shed : List (Nat × Nat)
  /-- R443: a RESET_CMD or STANDBY_CMD whose fence has completed and whose request is still to be sent. -/
  resetReq : Option (Nat × Nat)
  standbyReq : Option Nat
  deriving DecidableEq, Repr

/-- An unprogrammed OTP array. -/
def Otp.zero : Otp :=
  { life := 0, rsvLow := 0, therm := 0, keys := Vector.replicate 4 0, revoke := 0, rsvMid := 0, uid := 0, trim := 0, rsvHigh := 0 }

/-- A boot that has not begun. -/
def Boot.zero : Boot :=
  { otpRead := false, octal := none, staged := false, verified := false, secVersion := 0, commit := false, certSlot := 0,
    certKey := { x := 0, y := 0 }, stage1Len := 0, fieldLen := 0, lens := [], complete := false, planFence := false, tested := 0 }

/-- The keeper after POR. -/
def Keeper.zero : Keeper :=
  { pwrgood := true, resetN := true, riseAt := 0, otp := Otp.zero, vendorHash := Config.vendorHash 0, sram := [], mbx := [], boot := Boot.zero, resetKind := 0, resetCause := 0,
    warmTimes := [], warm := false, lineReset := 0, rearm := 0, transit := 0, exitStep := 0, calOwed := false,
    coolSince := none, scsLock := false, freqStale := false, scsRef := .none_, scsStopped := false, coreRef := .none_,
    refPresent := true, altPresent := false, hashField := none, hashPlan := none, detail := 0 }

/-- Fieldbook before any plan. -/
def Book.zero : Book :=
  { plan := [], amended := [], fieldCopy := [], micro := [], shed := [], resetReq := none, standbyReq := none }

end Sys2Proof.Machine
end

