-- ==== Sys2Proof/Machine/StSense.lean ====
section
/-! DEFINITION. What the sensing products hold per station and per line (spec R168, R184 to R187, R201 to R212). -/

namespace Sys2Proof.Machine
open Sys2Proof

/-- R168: the DAS state of a coherent station, with what the model keeps beside it. -/
structure DasSt where
  phi : Nat
  v : Int
  ebar : Int
  /-- Phi_g, by group; a missing entry is 0. -/
  phig : Tab Nat
  psi : Nat
  /-- Branches with a valid stored previous trace, branch b at bit b. -/
  prev : Nat
  /-- Groups whose last update was HELD. -/
  held : Nat
  /-- The flag word of the last update and the stamp it carries; none since a restart. -/
  flag : Nat
  at_ : Option Nat
  /-- The stamp of the last gauge sample, and whether it carried HELD. -/
  gaugeAt : Option Nat
  gaugeHeld : Bool
  deriving DecidableEq, Repr

/-- R185: marks of the contributions of one period or block at a station. -/
structure SpecMarks where
  tag : Nat
  clip : Bool
  stale : Bool
  apr : Bool
  deriving DecidableEq, Repr

/-- One spectral output as fusion reads it (R212). -/
structure SpecOut where
  stamp : Nat
  t40 : Int
  flag : Nat
  deriving DecidableEq, Repr

/-- What a lane keeps of a spectral station beside its record of R184. -/
structure SpecSt where
  marks : SpecMarks
  marksOld : SpecMarks
  /-- Tag from which output periods are measured (R186). -/
  from_ : Nat
  /-- The next valid output carries NEW_DATUM. -/
  fresh : Bool
  /-- R184, R186: ACT in the lane's copy of the record. -/
  act : Nat
  /-- R194: the Raman temperature last delivered to the lane. -/
  tR : Option Int
  /-- R212: the outputs that a Raman block still to come may need, newest first. -/
  hist : List SpecOut
  deriving DecidableEq, Repr

/-- R185: what a cell held for the period or block before (log entry 40). -/
structure OldCell where
  tag : Nat
  sum : Nat
  cnt : Nat
  deriving DecidableEq, Repr

/-- Spectral shift of a line. -/
structure SpecLine where
  /-- A capture starts at the next sweep boundary (R187). -/
  pending : Bool
  /-- Tag of the sweep at which the running or last capture started. -/
  capStart : Nat
  /-- Sweeps of the running or last capture, and the tag of the last one counted. -/
  done_ : Nat
  seen : Nat
  /-- DATUM_SLOW was written for the running capture. -/
  slow : Bool
  deriving DecidableEq, Repr

/-- R201: one cell of the Raman accumulator. -/
structure RCell where
  asum : Int
  ssum : Int
  cnt : Nat
  fl : Nat
  deriving DecidableEq, Repr

/-- R203: a delivered Raman block. -/
structure RBlock where
  line : Nat
  blk : Nat
  stamp : Nat
  cells : Tab RCell
  dsum : Vector Int 2
  dcnt : Vector Nat 2
  /-- CV_PGA_GAIN of the ranges in use at the block end, AS and ST. -/
  gain : Vector Nat 2
  rangeChanged : Bool
  restarted : Bool
  /-- A coil attempt is due (R207): the first failing condition of R208's codes 1 to 3, else 0, and the sum and number
  of the readings of R209. -/
  attempt : Option (Nat × Int × Nat)
  /-- Traverses that took its request, and those that have still to work on it, traverse t at bit t. -/
  taken : Nat
  due : Nat
  /-- R30: the islands' epochs at its first shot's launch. -/
  epochs : List Nat
  deriving DecidableEq, Repr

/-- R242: what goes with T_LAST in the exchange buffer: whether it is valid, and the station's flag word. -/
structure RamanMark where
  valid : Bool
  flag : Nat
  deriving DecidableEq, Repr

/-- R206: what a lane keeps of a Raman station. -/
structure RamanSt where
  t : Int
  t40 : Int
  /-- T_LAST is valid: the last block was not held. -/
  valid : Bool
  l : Int
  flag : Nat
  deriving DecidableEq, Repr

/-- R212: a fused station. -/
structure FuseSt where
  o : Int
  n : Nat
  div : Nat
  seeded : Bool
  deriving DecidableEq, Repr

/-- Raman temperature of a line. -/
structure RamanLine where
  dsum : Vector Int 2
  dcnt : Vector Nat 2
  /-- The open block: era and index, the stamp of its first trigger point. -/
  open_ : Option (Nat × Nat)
  stamp : Nat
  /-- The elapsed time of its first trigger point's launch, and the islands' epochs at its first shot's launch (R30). -/
  at_ : Nat
  epochs : List Nat
  rangeChanged : Bool
  /-- Ranges of AS and ST at the last capture. -/
  rng : Vector Nat 2
  /-- OUT_CAP, SMOOTH and GAIN_NORM as applied (R217). -/
  use : Option (Nat × Nat × Bool)
  /-- Blocks delivered since the start, modulo nothing: block k of R242. -/
  count : Nat
  /-- Blocks delivered since the last restart of the averaging (R204). -/
  since : Nat
  /-- Blocks since the last coil attempt, and an attempt asked for. -/
  sinceCal : Nat
  coilReq : Bool
  /-- R210. -/
  suspended : Bool
  /-- C as last accepted; none: C0. -/
  c : Option Int
  /-- A block all traverses have written, whose fusion is to start (R242). -/
  ready : List RBlock
  deriving DecidableEq, Repr

/-- A DAS station after a restart. -/
def DasSt.zero : DasSt :=
  { phi := 0, v := 0, ebar := 0, phig := [], psi := 0, prev := 0, held := 0, flag := 0, at_ := none, gaugeAt := none,
    gaugeHeld := false }

/-- No contribution. -/
def SpecMarks.zero : SpecMarks := { tag := 0, clip := false, stale := false, apr := false }

/-- Nothing held. -/
def OldCell.zero : OldCell := { tag := 0, sum := 0, cnt := 0 }

/-- A spectral station before any capture. -/
def SpecSt.zero : SpecSt :=
  { marks := SpecMarks.zero, marksOld := SpecMarks.zero, from_ := 0, fresh := false,
    act := 0, tR := none, hist := [] }

/-- Spectral shift before plan start. -/
def SpecLine.zero : SpecLine := { pending := false, capStart := 0, done_ := 0, seen := 0, slow := false }

/-- An empty cell. -/
def RCell.zero : RCell := { asum := 0, ssum := 0, cnt := 0, fl := 0 }

/-- A Raman station before its first valid block (R206). -/
def RamanSt.zero : RamanSt := { t := 0, t40 := 0, valid := false, l := 0, flag := 0 }

/-- Nothing delivered. -/
def RamanMark.zero : RamanMark := { valid := false, flag := 0 }

/-- An unseeded station. -/
def FuseSt.zero : FuseSt := { o := 0, n := 0, div := 0, seeded := false }

/-- Raman before plan start. -/
def RamanLine.zero : RamanLine :=
  { dsum := Vector.replicate 2 0, dcnt := Vector.replicate 2 0, open_ := none, stamp := 0, at_ := 0, epochs := [],
    rangeChanged := false, rng := Vector.replicate 2 0, use := none, count := 0, since := 0, sinceCal := 0, coilReq := false, suspended := false, c := none, ready := [] }

/-- Everything the sensing products hold. -/
structure Sense where
  /-- By line × 2^18 + station. -/
  das : Tab DasSt
  spec : Tab SpecSt
  /-- R185: tag of the period or block a cell holds, by cell address of R183. -/
  accTag : Tab Nat
  accOld : Tab OldCell
  specLine : Vector SpecLine 2
  rcell : Tab RCell
  raman : Tab RamanSt
  /-- R242: beside the exchange buffer, by its key. -/
  xmark : Tab RamanMark
  fuse : Tab FuseSt
  ramanLine : Vector RamanLine 2
  blocks : List RBlock
  deriving DecidableEq, Repr

/-- The products before plan start. -/
def Sense.zero : Sense :=
  { das := [], spec := [], accTag := [], accOld := [], specLine := Vector.replicate 2 SpecLine.zero, rcell := [], raman := [], xmark := [],
    fuse := [], ramanLine := Vector.replicate 2 RamanLine.zero, blocks := [] }

end Sys2Proof.Machine
end

