-- ==== Sys2Proof/Machine/StLink.lean ====
section
/-! DEFINITION. The serial lanes and the links over them (spec R361 to R411). -/

namespace Sys2Proof.Machine
open Sys2Proof

/-- The states of a quad, in the order of SL_Qq_STATUS.STATE. -/
inductive QuadState where
  | down | detect | absent | blind | train | active | idle | test
  deriving DecidableEq, Repr

/-- One serial lane. -/
structure SlLane where
  /-- A receiver was found (R372). -/
  present : Bool
  los : Bool
  symLock : Bool
  polInv : Bool
  prbsLock : Bool
  /-- EIOS received: the loss of signal that follows is idle (R379). -/
  idleRx : Bool
  /-- Preset this lane's transmitter applies, and the one of the last ACTIVE state. -/
  preset : Nat
  storedPreset : Nat
  /-- Training sets received in succession: valid ones, TS1 with ACK, TS2. -/
  runAny : Nat
  runAck : Nat
  runTs2 : Nat
  /-- The partner's physical lane of symbol 1. -/
  partnerLane : Nat
  /-- Training sets sent since the step's 8 were first received, up to 16 (R374). -/
  runSent : Nat
  /-- Receive polarity of the last ACTIVE state (R373). -/
  storedPol : Bool
  /-- R364: the transmitter's running disparity, true when positive, and the code groups of the last four symbol times; none in
  electrical idle. -/
  rd : Bool
  out : List Nat
  /-- R379: EIOS sets, and FX sets, still to be sent. -/
  eios : Nat
  fx : Nat
  /-- R365: the receiver's running disparity and last code group. -/
  rxRd : Bool
  rxLast : Nat
  /-- R382: the generator's and the checker's last 31 line bits, and the checker's last 64 results, 1 for an error. -/
  gen : Nat
  chk : Nat
  errs : Nat
  deriving DecidableEq, Repr

/-- Rate code, width 1, 2 or 4, lanes in use and reversal of a link (R373, R374). -/
structure QuadSet where
  rate : Nat
  width : Nat
  inUse : Nat
  reversed : Bool
  deriving DecidableEq, Repr

/-- One quad (R361). -/
structure Quad where
  st : QuadState
  lanes : Vector SlLane 4
  /-- Training step T0 to T3. -/
  step : Nat
  /-- Lanes of the running attempt. -/
  attempt : Nat
  /-- Rate codes offered, and the partner's bitmap. -/
  offer : Nat
  partnerRates : Nat
  partnerLocked : Nat
  /-- Lanes that passed T2 (R374). -/
  working : Nat
  agreed : Nat
  /-- Lanes that have passed the running step (R374). -/
  passed : Nat
  /-- RATE_MAX of the running attempt (R378). -/
  topRate : Nat
  /-- R369: 4-symbol groups of the present training set sent, and the sequence of the next set. -/
  setPos : Nat
  setSeq : Nat
  /-- Elapsed time at which the step or test mode began. -/
  stepAt : Nat
  /-- The settings of the last ACTIVE state (R373), and those in use. -/
  kept : QuadSet
  rate : Nat
  width : Nat
  inUse : Nat
  reversed : Bool
  fails : Nat
  /-- A DOWN quad makes one attempt. -/
  fromDown : Bool
  /-- A RATE_MAX change waits for the attempt's end (R378). -/
  rateWait : Bool
  /-- Only rates below this code are offered on the next attempt (R375), or codes 0 to 2 until a LINK reset (R399). -/
  below : Option Nat
  capRate : Bool
  partnerFe : Bool
  /-- Ordered sets inserted since ACTIVE, and the ALIGN sequence. -/
  sets : Nat
  alignSeq : Nat
  /-- Partner address and role of the last training sets (R369); 4,096 where none was ever received. -/
  partner : Nat
  role : Nat
  deriving DecidableEq, Repr

/-- R387, R392: a frame on its way onto the wire: the symbols still to send, and how many are sent. -/
structure Sending where
  frame : Frame
  left : List Nat
  sent : Nat
  deriving DecidableEq, Repr

/-- One link (R387 to R399). -/
structure Link where
  /-- Frames that wait, by class; bulk frames of this engine and forwarded ones apart (R391). -/
  prio : List Frame
  mgmt : List Frame
  bulk : List Frame
  /-- Forwarded bulk frames with the link each arrived on. -/
  fwd : List (Nat × Frame)
  /-- The last bulk frame sent was a forwarded one. -/
  fwdLast : Bool
  /-- R393: latest grants received, units consumed, and units received, of each class since ACTIVE. -/
  grant : Vector Nat 3
  used : Vector Nat 3
  given : Vector Nat 3
  creditOk : Bool
  /-- Latest offer sent and its serial; whether it is unanswered, or a FEATURE_CHANGED (R397). -/
  offer : Nat
  serial : Nat
  unanswered : Bool
  changed : Bool
  accepted : Option Nat
  /-- Partner address and role at the previous entry to ACTIVE (R398). -/
  lastPartner : Option (Nat × Nat)
  /-- R392: the management or bulk frame being sent, and the priority frame being sent. -/
  low : Option Sending
  high : Option Sending
  /-- Frames sent to their end, oldest first. -/
  tx : List Frame
  deriving DecidableEq, Repr

/-- R406: a level run. -/
structure LevelRun where
  /-- The quad it runs over, the elapsed time of its start, and the exchanges begun. -/
  link : Nat
  start : Nat
  begun : Nat
  /-- Stamps t1 of the exchanges sent and not completed, by number. -/
  t1 : Tab Nat
  /-- Sum of e_x doubled and of the delays doubled, in 2^-20 ns, over the exchanges completed. -/
  sumE : Int
  sumD : Int
  done_ : Nat
  /-- Depth and HOLDOVER of the responder. -/
  depth : Nat
  holdover : Bool
  deriving DecidableEq, Repr

/-- Lanes, links and chain. -/
structure Net where
  quads : Vector Quad 3
  links : Vector Link 3
  /-- R401: timed frames held, by launch stamp. -/
  timed : List (Nat × Frame)
  /-- R404: ALL frames seen: source, serial, elapsed time. -/
  dups : List (Nat × Nat × Nat)
  /-- Serial of this engine's next broadcast. -/
  bserial : Nat
  level : Option LevelRun
  /-- The last run delivered; the engine runs on its other link; periods without a delivery. -/
  levelValid : Bool
  failover : Bool
  levelMiss : Nat
  deriving DecidableEq, Repr

/-- A lane before detection. -/
def SlLane.zero : SlLane :=
  { present := false, los := false, symLock := false, polInv := false, prbsLock := false, idleRx := false, preset := 0,
    storedPreset := 0, runAny := 0, runAck := 0, runTs2 := 0, partnerLane := 0, runSent := 0, storedPol := false, rd := false, out := [],
    eios := 0, fx := 0, rxRd := false, rxLast := 0, gen := 0, chk := 0, errs := 2 ^ 64 - 1 }

/-- A quad without a plan: electrical idle. -/
def Quad.zero : Quad :=
  { st := .idle, lanes := Vector.replicate 4 SlLane.zero, step := 0, attempt := 0, offer := 0, partnerRates := 0,
    partnerLocked := 0, working := 0, agreed := 0, passed := 0, topRate := 0, setPos := 0, setSeq := 0, stepAt := 0,
    kept := { rate := 0, width := 0, inUse := 0, reversed := false }, rate := 0, width := 0, inUse := 0, reversed := false, fails := 0,
    fromDown := false, rateWait := false, below := none, capRate := false, partnerFe := false, sets := 0, alignSeq := 0,
    partner := 4096, role := 0 }

/-- A link before its first activation. -/
def Link.zero : Link :=
  { prio := [], mgmt := [], bulk := [], fwd := [], fwdLast := false, grant := Vector.replicate 3 0,
    used := Vector.replicate 3 0, given := Vector.replicate 3 0, creditOk := false, offer := 0, serial := 0,
    unanswered := false, changed := false, accepted := none, lastPartner := none, low := none, high := none, tx := [] }

/-- The links after POR or COLD reset. -/
def Net.zero : Net :=
  { quads := Vector.replicate 3 Quad.zero, links := Vector.replicate 3 Link.zero, timed := [], dups := [], bserial := 0,
    level := none, levelValid := false, failover := false, levelMiss := 0 }

end Sys2Proof.Machine
end

