-- ==== Sys2Proof/Machine/StTime.lean ====
section
/-! DEFINITION. The time and TDC island (spec R337 to R360). -/

namespace Sys2Proof.Machine
open Sys2Proof

/-- One queue entry (R351): its stamp, value, and flags [9:0]. -/
structure TdcEntry where
  stamp : Nat
  value : Int
  flags : Nat
  /-- Elapsed time at which it was queued. -/
  at_ : Nat
  deriving DecidableEq, Repr

/-- An edge the pairing unit holds, or a pending start. -/
structure TdcHeld where
  stamp : Nat
  stop : Bool
  f : Nat
  flags : Nat
  /-- Elapsed time at which the edge came. -/
  at_ : Nat
  deriving DecidableEq, Repr

/-- A running code-density calibration: the die reading at its start, its start on elapsed time, and, under EXTERNAL, the hits of
each vernier code so far (R353). -/
structure TdcCal where
  die : Int
  at_ : Nat
  hist : List Nat
  deriving DecidableEq, Repr

/-- One TDC channel (R348 to R357). -/
structure TdcCh where
  /-- The bin-width table; none: manufacturing trim. -/
  table : Option (List Nat)
  /-- No calibration accepted since POR or COLD. -/
  uncal : Bool
  cal : Option TdcCal
  /-- A failed calibration retries from this elapsed time. -/
  retryAt : Option Nat
  /-- Elapsed time of the last accepted calibration. -/
  calAt : Nat
  calTemp : Int
  /-- GATE_MODE 3: armed by software. GATE_MODE 2: armed, from this time until that one. -/
  soft : Bool
  win : Bool
  from_ : Nat
  until_ : Nat
  lastEdge : Option Nat
  dead : Bool
  lost : Bool
  /-- A step whose STEP mark no entry has taken yet: its elapsed time. -/
  stepped : Option Nat
  q : List TdcEntry
  seq : Nat
  /-- Pairing unit of an interval pair (on the even channel). -/
  hold : List TdcHeld
  pending : Option TdcHeld
  /-- Monitor mode: the last 64 deviations, newest first; misses in a row. -/
  mon : List Int
  misses : Nat
  monLogged : Bool
  deriving DecidableEq, Repr

/-- The time island. -/
structure TimeSt where
  /-- y_int and the applied y (R341). -/
  yInt : Rat
  y : Rat
  /-- FREQ_REF: 0 TREF_IN, 1 REFCLK, 2 REFCLK_ALT, 3 the always-on oscillator. -/
  freqRef : Nat
  trefPresent : Bool
  tref100 : Bool
  holdover : Bool
  /-- Measurements in a row with |e| ≤ 100 ns. -/
  good : Nat
  ppsPresent : Bool
  /-- Edges in a row 1 s ± 10 µs apart, the last edge and the last accepted one. -/
  ppsRun : Nat
  ppsPrev : Option Nat
  ppsLast : Nat
  /-- R344: seconds of the next accepted PPS edge. -/
  label : Option Nat
  lastTrack : Option Nat
  /-- Elapsed time of the last TRACK message, or of the plan's start under HOST (R343). -/
  trackAt : Nat
  lastStep : Nat
  /-- R347: TIME_ADJUST steps to come: time and amount. -/
  adjusts : List (Nat × Int)
  /-- R345: PPS_OUT high until this elapsed time, and pulses made. -/
  ppsHighTo : Nat
  ppsPulses : Nat
  /-- The last whole second plus offset pulsed. -/
  ppsDone : Nat
  ch : Vector TdcCh 9
  /-- Level of TDC_GATE[3:0], and when each last changed. -/
  gates : BitVec 4
  gateAt : Vector Nat 4
  /-- Lit launches of each line whose monitor window runs, newest first, with whether an edge has paired (R357). -/
  shots : Vector (List (Nat × Bool)) 2
  /-- The last die reading of island 2. -/
  die : Option Int
  deriving DecidableEq, Repr

/-- A channel after POR or COLD reset. -/
def TdcCh.zero : TdcCh :=
  { table := none, uncal := true, cal := none, retryAt := none, calAt := 0, calTemp := 0, soft := false, win := false, from_ := 0, until_ := 0,
    lastEdge := none, dead := false, lost := false, stepped := none, q := [], seq := 0, hold := [], pending := none,
    mon := [], misses := 0, monLogged := false }

/-- The time island after POR or COLD reset. -/
def TimeSt.zero : TimeSt :=
  { yInt := 0, y := 0, freqRef := 1, trefPresent := false, tref100 := false, holdover := false, good := 0,
    ppsPresent := false, ppsRun := 0, ppsPrev := none, ppsLast := 0, label := none, lastTrack := none, trackAt := 0, lastStep := 0,
    adjusts := [], ppsHighTo := 0, ppsPulses := 0, ppsDone := 0, ch := Vector.replicate 9 TdcCh.zero, gates := 0,
    gateAt := Vector.replicate 4 0, shots := Vector.replicate 2 [], die := none }

end Sys2Proof.Machine
end

