-- ==== Sys2Proof/Machine/StMem.lean ====
section
/-! DEFINITION. The memory subsystem (spec R412 to R436). -/

namespace Sys2Proof.Machine
open Sys2Proof

/-- One memory channel. -/
structure MemCh where
  /-- Bit f: TRAINED at set point Ff (R425). -/
  trained : Nat
  inService : Bool
  training : Bool
  /-- Training step D0 to D6 while it trains. -/
  step : Nat
  /-- Collections of the running step that are done, the rank it trains, and whether some collection of the step found
  a passing setting. -/
  colls : Nat
  rank : Nat
  okStep : Bool
  /-- At boot: the set point being trained, and a step in which no setting passed (R423, R424). -/
  sp : Nat
  failed : Bool
  /-- A retrain that a frequency change abandoned runs again (R430). -/
  again : Bool
  /-- Device times of HARD outcomes of the last hour (R433). -/
  hard : List Nat
  /-- Drift since the last training, in 1/64 UI; the die reading and the time of the last training. -/
  drift : Int
  die : Int
  at_ : Nat
  deriving DecidableEq, Repr

/-- R431: a freeze in progress. -/
structure Freeze where
  /-- Cause RETRAIN (else UE). -/
  retrain : Bool
  chan : Nat
  sub : Nat
  addr : Nat
  at_ : Nat
  /-- R434: the channel is lost, for 1 a failed retrain or 2 UE_MAX; its steps run. -/
  loss : Option Nat
  deriving DecidableEq, Repr

/-- R428: a change of set point in its blackout, or waiting for a collection to end. -/
structure FreqChange where
  target : Nat
  forced : Bool
  deriving DecidableEq, Repr

/-- The memory subsystem. -/
structure MemSt where
  ch : Vector MemCh 4
  setPoint : Nat
  /-- A thermal set point applies; steps taken down by the die and by MR4. -/
  forced : Bool
  blackout : Option FreqChange
  /-- A granted DRAM_FREQ that waits for a collection's end, or a forced change that waits for a blackout's. -/
  waiting : Option FreqChange
  freeze : Option Freeze
  /-- A UE found during a blackout: the freeze starts when the change completes. -/
  uePend : Option Freeze
  /-- Any MR4 above 85 °C; since when die and MR4 have been cool (R429). -/
  mr4Hot : Bool
  coolSince : Option Nat
  die : Option Int
  /-- HOT_C, HOT_C + 5 K and MR4 have each had their forced step since the last return. -/
  stepHot : Bool
  stepHot5 : Bool
  stepMr4 : Bool
  /-- The system region's mirror is not rebuilt yet (R416). -/
  oneCopy : Bool
  /-- Blocks read by the patrol pass. -/
  scrub : Nat
  /-- Self-refresh in standby. -/
  selfRefresh : Bool
  deriving DecidableEq, Repr

/-- An untrained channel. -/
def MemCh.zero : MemCh :=
  { trained := 0, inService := false, training := false, step := 0, colls := 0, rank := 0, okStep := false, sp := 0, failed := false, again := false, hard := [], drift := 0,
    die := 0, at_ := 0 }

/-- Memory after POR or COLD reset. -/
def MemSt.zero : MemSt :=
  { ch := Vector.replicate 4 MemCh.zero, setPoint := 2, forced := false, blackout := none, waiting := none, freeze := none,
    uePend := none, mr4Hot := false, coolSince := none, die := none, stepHot := false, stepHot5 := false,
    stepMr4 := false, oneCopy := false, scrub := 0, selfRefresh := false }

end Sys2Proof.Machine
end

