-- ==== Sys2Proof/Machine/StHk.lean ====
section
/-! DEFINITION. The housekeeping front end (spec R318 to R336), the zones, the zone port, the alarm pins and the loop
outputs (R301 to R317). -/

namespace Sys2Proof.Machine
open Sys2Proof

/-- A delivered reading: device time, elapsed time and mK. -/
structure RtdRead where
  stamp : Nat
  at_ : Nat
  temp : Int
  deriving DecidableEq, Repr

/-- One RTD input. -/
structure RtdSt where
  open_ : Bool
  /-- Balls found open: 3 IEXA, 2 IEXB, 1 SP, 0 SN. -/
  leads : BitVec 4
  /-- Clean pulses in a row since the last open one. -/
  clean : Nat
  /-- GAIN: G = 2^GAIN for the next conversion. -/
  gain : Nat
  /-- R208, R209: delivered readings that RAMAN_COIL can still use, newest first. -/
  hist : List RtdRead
  /-- Elapsed time at which OPEN was last set or held. -/
  openAt : Option Nat
  deriving DecidableEq, Repr

/-- One channel's last reading. -/
structure HkVal where
  value : Int
  /-- Elapsed time of the reading. -/
  at_ : Nat
  valid : Bool
  over_ : Bool
  fault : Bool
  deriving DecidableEq, Repr

/-- One supply rail (R333): last reading in 10 µV, LOW, HIGH, and readings in a row below, above and within. -/
structure RailSt where
  value : Int
  low : Bool
  high : Bool
  runLow : Nat
  runHigh : Nat
  runIn : Nat
  deriving DecidableEq, Repr

/-- Housekeeping. -/
structure HkSt where
  /-- M0: the channel it converts, the last RTD it visited, orientation B, and R of orientation A in mΩ. -/
  m0 : Nat
  lastRtd : Nat
  orientB : Bool
  rA : Int
  /-- Elapsed time of the last channel 4 conversion, and its GAIN. -/
  refAt : Nat
  refGain : Nat
  vals : Vector HkVal 32
  rails : Vector RailSt 10
  rtd : Vector RtdSt 4
  /-- M1: the channel it converts, whether it converts, conversions left in the frame, next die sensor and rail, and
  the urgent queue. -/
  frame : List Nat
  m1Ch : Nat
  m1Busy : Bool
  nextDie : Nat
  nextRail : Nat
  urgent : List Nat
  /-- HK_REF inside its window; M1 uses EXT. -/
  extIn : Bool
  m1Ext : Bool
  notchFree : Bool
  /-- R321: modulator cycles of the last 10 ms. -/
  notch : Nat
  /-- Die sensors whose DIE_FAULT has been written since COLD reset. -/
  dieLogged : BitVec 18
  deriving DecidableEq, Repr

/-- One zone (R303, R304). -/
structure ZoneSt where
  level : Nat
  a : Int
  up : Vector (Option Nat) 3
  dn : Vector (Option Nat) 3
  /-- Active causes, code c at bit c − 1. -/
  fault : Nat
  stale : Nat
  /-- ZN_ACK removed the latch once. -/
  unlatch : Bool
  /-- Since when FAULT or STALE freezes the debounce timers. -/
  frz : Option Nat
  /-- Elapsed time of the last evaluation. -/
  lastEval : Nat
  /-- Stamp of the deciding output or cause. -/
  stamp : Nat
  /-- The port state last reported in a zone event frame. -/
  shown : Nat
  deriving DecidableEq, Repr

/-- The states of a loop, in the order of HK_LOOPn_STATUS.STATE. -/
inductive LoopState where
  | off | normal | fault | hold
  deriving DecidableEq, Repr

/-- One loop output (R310 to R312). -/
structure LoopSt where
  st : LoopState
  code : Nat
  sense : Nat
  cause : Nat
  /-- Causes that are active now, cause c at bit c. -/
  active : Nat
  /-- Since when a delayed cause has persisted, and since when no cause is active. -/
  since : Option Nat
  clearAt : Option Nat
  /-- A manual release was asked. -/
  ask : Bool
  /-- The source has updated since plan application. -/
  updated : Bool
  deriving DecidableEq, Repr

/-- Zones, port, pins and loops. -/
structure ZnSt where
  /-- Zones by number; a zone exists where the plan defines it. -/
  zones : Tab ZoneSt
  /-- The port's table: 4-bit states, and updates held while ZQ_CS_N is low. -/
  port : Tab Nat
  held : List (Nat × Nat)
  /-- Pins ZQ_CS_N (low: selected), ZQ_A. -/
  selected : Bool
  /-- ZQ_CS_N has been low for 1 µs: updates are forced in (R308). -/
  forcing : Bool
  addr : Nat
  /-- ALARM pins asserted, and when each last became asserted. -/
  pins : Vector Bool 4
  pinAt : Vector Nat 4
  loops : Vector LoopSt 8
  /-- Zone event frame sequence (R315). -/
  seq : Nat
  /-- Slices that have evaluated a shot of the line since the cause cleared (R305), line 0 and 1. -/
  evalSince : Vector (List Nat) 2
  /-- Stamp of the first shot launched on the line since the cause cleared. -/
  shotSince : Vector (Option Nat) 2
  deriving DecidableEq, Repr

/-- An RTD after POR or COLD reset. -/
def RtdSt.zero : RtdSt := { open_ := false, leads := 0, clean := 0, gain := 0, hist := [], openAt := none }

/-- No reading. -/
def HkVal.zero : HkVal := { value := 0, at_ := 0, valid := false, over_ := false, fault := false }

/-- A rail not yet read. -/
def RailSt.zero : RailSt := { value := 0, low := false, high := false, runLow := 0, runHigh := 0, runIn := 0 }

/-- Housekeeping after POR or COLD reset. -/
def HkSt.zero : HkSt :=
  { m0 := 0, lastRtd := 0, orientB := false, rA := 0, refAt := 0, refGain := 0, vals := Vector.replicate 32 HkVal.zero,
    rails := Vector.replicate 10 RailSt.zero, rtd := Vector.replicate 4 RtdSt.zero, frame := [], m1Ch := 5, m1Busy := false, nextDie := 0,
    nextRail := 0, urgent := [], extIn := true, m1Ext := false, notchFree := true, notch := 102400, dieLogged := 0 }

/-- A zone newly defined: STALE code 5 until its first evaluation (R304). -/
def ZoneSt.zero : ZoneSt :=
  { level := 0, a := 0, up := Vector.replicate 3 none, dn := Vector.replicate 3 none, fault := 0, stale := 16,
    unlatch := false, frz := none, lastEval := 0, stamp := 0, shown := 4 }

/-- A loop before any plan: 3.6 mA, cause 5 (R311). -/
def LoopSt.zero : LoopSt :=
  { st := .fault, code := 144000, sense := 0, cause := 5, active := 32, since := none, clearAt := none, ask := false,
    updated := false }

/-- Zones, port, pins and loops after POR: every alarm pin asserted (R309). -/
def ZnSt.zero : ZnSt :=
  { zones := [], port := [], held := [], selected := false, forcing := false, addr := 0, pins := Vector.replicate 4 true,
    pinAt := Vector.replicate 4 0, loops := Vector.replicate 8 LoopSt.zero, seq := 0,
    evalSince := Vector.replicate 2 [], shotSince := Vector.replicate 2 none }

end Sys2Proof.Machine
end

