-- ==== Sys2Proof/Machine/StStream.lean ====
section
/-! DEFINITION. Survey streams (spec R251 to R276). -/

namespace Sys2Proof.Machine
open Sys2Proof

/-- A detector at one output station (R266): ACTIVE, its counter, and the last output counted. -/
structure DetSt where
  active : Bool
  cnt : Nat
  o : Int
  flag : Nat
  deriving DecidableEq, Repr

/-- The filter chain of one output station (R254, R255). -/
structure ChainSt where
  /-- Last inputs, newest first; the held value. -/
  med : List Int
  held : Int
  /-- CIC integrators and combs, modulo 2^50. -/
  ints : List Nat
  combs : List Nat
  /-- FIR delay line, newest first. -/
  dl : List Int
  rPhase : Nat
  dPhase : Nat
  /-- Outputs that still carry SETTLING, and SYNC_LATE with it. -/
  settle : Nat
  late : Bool
  /-- Since the previous output: OR of product flag words, an input filled, an input accepted, an accepted one flagged. -/
  pflags : Nat
  filled : Bool
  taken : Bool
  flagged : Bool
  /-- A value clamped in sat20 since the previous output (R256). -/
  clamped : Bool
  dets : Vector DetSt 4
  deriving DecidableEq, Repr

/-- R259: a fade in progress: target bank, length, outputs done. -/
structure FadeSt where
  target : Nat
  len : Nat
  k : Nat
  deriving DecidableEq, Repr

/-- A detector of a stream (R267): the running second, events sent and suppressed in it, the last one suppressed. -/
structure DetSec where
  sec : Nat
  sent : Nat
  supp : Nat
  k : Nat
  flag : Nat
  deriving DecidableEq, Repr

/-- One stream. -/
structure StreamSt where
  /-- Chains by output station. -/
  chain : Tab ChainSt
  bank : Nat
  fade : Option FadeSt
  queued : Option (Nat × Nat)
  /-- Coefficients by bank × 256 + index, as 20-bit fields. -/
  coef : Tab Nat
  /-- Pending syncs in order of T_s, each with its lateness. -/
  syncs : List (Nat × Bool)
  /-- Stamp of the last input, and the grid point expected next (R253). -/
  lastIn : Option Nat
  expect : Option Nat
  /-- Number of the schedule's origin and the steps of device time at the last input: the grid restarts across them. -/
  gridEra : Nat
  gridShift : Int
  /-- Frame sequence and event-frame sequence. -/
  seq : Nat
  evSeq : Nat
  det : Vector DetSec 4
  shed : Bool
  deriving DecidableEq, Repr

/-- A detector before any output. -/
def DetSt.zero : DetSt := { active := false, cnt := 0, o := 0, flag := 0 }

/-- A chain after plan start, its phases at zero. -/
def ChainSt.zero : ChainSt :=
  { med := [], held := 0, ints := [], combs := [], dl := [], rPhase := 0, dPhase := 0, settle := 0, late := false,
    pflags := 0, filled := false, taken := false, flagged := false, clamped := false, dets := Vector.replicate 4 DetSt.zero }

/-- A stream at plan start. -/
def StreamSt.zero : StreamSt :=
  { chain := [], bank := 0, fade := none, queued := none, coef := [], syncs := [], lastIn := none, expect := none, gridEra := 0, gridShift := 0,
    seq := 0, evSeq := 0, det := Vector.replicate 4 { sec := 0, sent := 0, supp := 0, k := 0, flag := 0 }, shed := false }

end Sys2Proof.Machine
end

