-- ==== Sys2Proof/Machine/StCode.lean ====
section
/-! DEFINITION. The block coder and the replay ring (spec R277 to R300). -/

namespace Sys2Proof.Machine
open Sys2Proof

/-- A frame at the coder's input: its words and where it is bound for. -/
structure CodeJob where
  stream : Nat
  /-- An event frame (only for the ring). -/
  event : Bool
  prio : Bool
  words : List Word
  /-- Elements: number of samples, fields per sample, OUT_WORDS. -/
  m : Nat
  e : Nat
  outWords : Nat
  /-- Links that take the coded form, link l at bit l, and the ring. -/
  links : Nat
  ring : Bool
  /-- Some link has already taken the frame uncoded. -/
  sent : Bool
  seq : Nat
  stamp : Nat
  epoch : Nat
  deriving DecidableEq, Repr

/-- An entry of the ring, or one that waits in C2 (R290): type 0 BLOCK, 1 EVENT, 2 GAP, 3 WRAP. -/
structure RingEntry where
  ty : Nat
  serial : Nat
  /-- Stream word. -/
  sw : Nat
  seq : Nat
  /-- Granules. -/
  len : Nat
  stamp : Nat
  epoch : Nat
  body : List Word
  /-- First granule. -/
  at_ : Nat
  deriving DecidableEq, Repr

/-- R292: frames of a stream lost since its last entry: number, first sequence number, stream word, first stamp, elapsed time of the first loss. -/
structure GapSt where
  n : Nat
  seq : Nat
  sw : Nat
  stamp : Nat
  at_ : Nat
  deriving DecidableEq, Repr

/-- The states of a cursor, in the order of BC_CURc_STATUS.STATE. -/
inductive CurState where
  | stopped | running | waiting | seeking | tail
  deriving DecidableEq, Repr

/-- A cursor (R293 to R295). -/
structure CursorSt where
  st : CurState
  pos : Nat
  /-- Serial of the newest entry at a ONESHOT START. -/
  last : Nat
  /-- The next frame carries CURSOR_MOVED. -/
  moved : Bool
  /-- A seek in progress: kind 1 OLDEST, 2 NEWEST, 3 SERIAL, 4 TIME, with its operand; it runs on when done. -/
  seek : Option (Nat × Nat)
  run : Bool
  /-- Elapsed time before which the rate cap admits no further frame. -/
  next : Nat
  deriving DecidableEq, Repr

/-- Coder and ring. -/
structure CodeSt where
  /-- Frames at the coder's input, oldest first. -/
  jobs : List CodeJob
  /-- Entries queued in C2. -/
  c2 : List RingEntry
  /-- Readable entries, oldest first. -/
  ring : List RingEntry
  /-- BC_WRITE, the serial the next entry takes, and BC_OLDEST. -/
  write : Nat
  oldest : Nat
  /-- Granule of the next entry, usable length U in chunks, and a pending growth's length. -/
  pos : Nat
  u : Nat
  grow : Option Nat
  gaps : Tab GapSt
  /-- Index records by chunk: serial, granule offset, stamp. -/
  index : Tab (Nat × Nat × Nat)
  cur : Vector CursorSt 16
  /-- R300: source and coded words of the running second, and BC_LOAD's fields of the last one. -/
  srcWords : Nat
  codWords : Nat
  loadCoder : Nat
  loadRatio : Nat
  deriving DecidableEq, Repr

/-- A cursor after COLD reset. -/
def CursorSt.zero : CursorSt := { st := .stopped, pos := 0, last := 0, moved := false, seek := none, run := false, next := 0 }

/-- Coder and ring after COLD reset. -/
def CodeSt.zero : CodeSt :=
  { jobs := [], c2 := [], ring := [], write := 0, oldest := 0, pos := 0, u := 0, grow := none, gaps := [], index := [],
    cur := Vector.replicate 16 CursorSt.zero, srcWords := 0, codWords := 0, loadCoder := 0, loadRatio := 0 }

end Sys2Proof.Machine
end

