-- ==== Sys2Proof/Machine/StMgmt.lean ====
section
/-! DEFINITION. Management paths, snapshots, the service port, the boot flash and the JTAG TAP (spec R51, R456 to R473,
R496). -/

namespace Sys2Proof.Machine
open Sys2Proof

/-- R461: what one path holds. -/
structure PathSt where
  /-- R462: the HI address captured and its value. -/
  shadow : Option (Nat × Nat)
  /-- R463: a staged LO write: address, value, mask and when. -/
  staged : Option (Nat × Nat × Nat × Nat)
  /-- The answer to the path's last transaction: status, detail, and the values read (for a write the index of the first
  register not written). -/
  status : Nat
  detail : Nat
  values : List Nat
  deriving DecidableEq, Repr

/-- R472: a flash operation in progress. -/
inductive FlashOp where
  | program (addr : Nat) (bytes : List Byte)
  | erase (addr : Nat)
  deriving DecidableEq, Repr

/-- Management. -/
structure MgmtSt where
  paths : Vector PathSt 8
  /-- R464: a snapshot in progress, with the values copied; none inside where it is refused. -/
  snap : Option (Option (List Nat))
  /-- R51: the boot flash by byte address; an unlisted byte is erased, 0xFF. -/
  flash : Tab Byte
  flashOp : Option FlashOp
  /-- R51: opcodes of the last sequence on the flash bus, first issued first. -/
  flashBus : List Nat
  /-- R38, R55: the 2 MB management SRAM by byte address; an unlisted byte is zero. -/
  sram : Tab Byte
  flashRefused : Bool
  flashFail : Bool
  /-- R472: R396 status of the port's last register transaction, and the bytes its last transaction returned. -/
  svcStatus : Nat
  svcOut : List Byte
  /-- R496: the instruction loaded (none: the one test-logic reset selects), whether the last access was permitted, and the
  data register read. -/
  jtagIr : Option Nat
  jtagOk : Bool
  jtagData : Nat
  deriving DecidableEq, Repr

/-- A path that has carried nothing. -/
def PathSt.zero : PathSt := { shadow := none, staged := none, status := 0, detail := 0, values := [] }

/-- Management after POR, with an erased flash and the test logic reset. -/
def MgmtSt.zero : MgmtSt :=
  { paths := Vector.replicate 8 PathSt.zero, snap := none, flash := [], flashOp := none, flashBus := [], sram := [], flashRefused := false,
    flashFail := false, svcStatus := 0, svcOut := [], jtagIr := none, jtagOk := true, jtagData := 0 }

end Sys2Proof.Machine
end

