-- ==== Sys2Proof/Machine/State.lean ====
section
/-! DEFINITION. The state of the block, the reasons a step can stop, and the state after reset. -/

namespace Sys2Proof.Machine
open Sys2Proof

/-- Why the machine stops with a fault. -/
inductive Fault where
  /-- Raised by a lane instruction outside a custom kernel whose encoding or mode the spec calls illegal (R231,
  R233, R237, R239): the spec gives it no effect there. Safe: the machine stops where vendor microcode never goes. -/
  | laneIllegal
  deriving DecidableEq, Repr

/-- Why a command has no meaning. -/
inductive Refusal where
  /-- Raised by the dispatch for a command the model gives no meaning yet. Safe: no claim about it holds. -/
  | notModelled (mnemonic : String)
  deriving DecidableEq, Repr

/-- The state of the block: every register, buffer, counter, mode and pin the spec gives it. -/
structure State where
  /-- Stored bits of the registers, by 20-bit address (block × 1,024 + offset); an unlisted one has its Reset
  column's value. -/
  regs : Tab Reg
  /-- The plan records in effect: the applied plan with every change of an amendment whose fence has completed. -/
  cfg : List PlanRec
  keeper : Keeper
  book : Book
  log : EventLog
  fu : FenceUnit
  trav : Vector Trav 8
  /-- Shot sequencer and laser path, converters, channeliser and PCE of each line. -/
  probe : Vector Probe 2
  conv : Vector Conv 2
  pce : Vector Pce 2
  /-- Per-station and per-line state of the products. -/
  sense : Sense
  /-- Serial lanes, links and chain. -/
  net : Net
  /-- Time island and TDC. -/
  time : TimeSt
  /-- Memory subsystem. -/
  mem : MemSt
  /-- Housekeeping front end; zones, port, pins and loops. -/
  hk : HkSt
  zn : ZnSt
  /-- Survey streams by number. -/
  streams : Tab StreamSt
  /-- Block coder and replay ring. -/
  code : CodeSt
  /-- Management paths, service port, flash and JTAG. -/
  mgmt : MgmtSt
  /-- Newest product samples, keyed by line, product code and station. -/
  samples : Tab Sample
  /-- DRAM words the lanes reach: previous traces, datum, accumulation, station records. -/
  dram : Tab Word
  /-- Exchange buffer pairs, by line, bank and entry. -/
  xbuf : Tab Nat
  /-- Device time in units of 2^-30 ns (R8's fraction with ten further bits, R337). -/
  now : Nat
  /-- The model's own: time elapsed since POR in the unit of `now`, which no step of device time moves; the engine's
  durations are measured on it (log entry 124). -/
  up : Nat
  /-- The model's own: the number of free values drawn so far. -/
  freeCtr : Nat
  /-- Commands that wait, first in, first out. -/
  pending : List Instr
  deriving DecidableEq, Repr

/-- The machine right after reset. -/
def State.reset : State :=
  { regs := [], cfg := [], keeper := Keeper.zero, book := Book.zero, log := { entries := [], next := 0, lastSec := none }, fu := FenceUnit.zero,
    trav := Vector.replicate 8 Trav.zero,
    probe := Vector.replicate 2 Probe.zero, conv := Vector.replicate 2 Conv.zero, pce := Vector.replicate 2 Pce.zero, sense := Sense.zero, net := Net.zero,
    time := TimeSt.zero, mem := MemSt.zero, hk := HkSt.zero, zn := ZnSt.zero, streams := [], code := CodeSt.zero, mgmt := MgmtSt.zero,
    samples := [], dram := [], xbuf := [], now := 0, up := 0, freeCtr := 0,
    pending := [] }

end Sys2Proof.Machine
end

