-- ==== Sys2Proof/Machine/Ops.lean ====
section
/-! DEFINITION. The named operations every command's meaning is written with: register fields, free values, the
event log, plan records. -/

namespace Sys2Proof.Machine
open Sys2Proof

/-- The stored bits of the register at an address. -/
def regGet (s : State) (a : Nat) : Nat := (tabGet (BitVec.ofNat 20 (regReset a)) s.regs a).toNat

/-- The state with the register's stored bits replaced. -/
def regPut (s : State) (a v : Nat) : State :=
  { s with regs := tabSet (BitVec.ofNat 20 (regReset a)) s.regs a (BitVec.ofNat 20 v) }

/-- A stored register field. -/
def getF (s : State) (f : Fld) : Nat := bitsOf (regGet s f.addr) f.hi f.lo

/-- The state with a stored register field replaced. -/
def setF (s : State) (f : Fld) (v : Nat) : State := regPut s f.addr (bitsPut (regGet s f.addr) f.hi f.lo v)

/-- A stored register field as a signed value. -/
def getFS (s : State) (f : Fld) : Int := signedOf (f.hi + 1 - f.lo) (getF s f)

/-- The state with a stored signed register field replaced, saturated to the field's width. -/
def setFS (s : State) (f : Fld) (v : Int) : State :=
  setF s f (fieldOf (f.hi + 1 - f.lo) (satS (f.hi + 1 - f.lo) v))

/-- R465: a counter field goes up by `n` and saturates at its largest value. -/
def bumpBy (s : State) (f : Fld) (n : Nat) : State := setF s f (min (getF s f + n) (2 ^ (f.hi + 1 - f.lo) - 1))

/-- R465: a counter field goes up by one. -/
def bump (s : State) (f : Fld) : State := bumpBy s f 1

/-- A one-bit field is set. -/
def isSet (s : State) (f : Fld) : Bool := getF s f = 1

/-- Device time in units of 2^-20 ns (R8). DESIGN CHOICE (log entry 133): every island stamps with this one time; R31 lets
an island's copy differ from the time island's by up to one tick. -/
def stampNow (s : State) : Nat := s.now / 1024

/-- Time elapsed in units of 2^-20 ns, for durations (log entry 124). -/
def elapsed (s : State) : Nat := s.up / 1024

/-- One second in units of 2^-20 ns. -/
def secU : Nat := 1000000000 * 2 ^ 20

/-- R8: the last device time in units of 2^-30 ns: 2^60 s less one unit. Device time never wraps, so it stays there. -/
def timeTop : Nat := 2 ^ 60 * (secU * 1024) - 1

/-- One microsecond in units of 2^-20 ns. -/
def usU : Nat := 1000 * 2 ^ 20

/-- One nanosecond in units of 2^-20 ns. -/
def nsU : Nat := 2 ^ 20

/-- R8: a stamp as the 110-bit device-time value. -/
def time110 (t : Nat) : Nat :=
  (t / secU) * 2 ^ 50 + ((t % secU) / nsU) * 2 ^ 20 + t % nsU

/-- R8: a 110-bit device-time value as a stamp. -/
def ofTime110 (v : Nat) : Nat := (v / 2 ^ 50) * secU + ((v / 2 ^ 20) % 2 ^ 30) * nsU + v % 2 ^ 20

/-- R8: the 11 words of a stamp. -/
def timeWords (t : Nat) : List Word := wordsOf 11 (time110 t)

/-- Draws one free value (log entry 2). -/
def draw (s : State) : Nat × State := (Config.freeNat s.freeCtr, { s with freeCtr := s.freeCtr + 1 })

/-- A value in a signed variable of n bits. One that does not fit becomes a free value of that width: the spec does not say
whether it wraps or saturates (log entry 138). -/
def fitW (n : Nat) (v : Int) : Int :=
  if -(2 ^ (n - 1) : Int) ≤ v ∧ v < 2 ^ (n - 1) then v else ((Config.misfit n v % 2 ^ n : Nat) : Int) - 2 ^ (n - 1)

/-- R469: the 8 words of an event-log entry. -/
def logEntry (code island sev unit_ arg stamp : Nat) : List Word :=
  let sec := stamp / secU
  let ns := (stamp % secU) / nsU
  [BitVec.ofNat 10 code, BitVec.ofNat 10 (island * 32 + sev * 8 + unit_)]
    ++ wordsOf 3 ns ++ [BitVec.ofNat 10 sec] ++ wordsOf 2 arg

/-- R469: the TIME_MARK entry of a time. -/
def timeMark (stamp : Nat) : List Word :=
  [1#10, BitVec.ofNat 10 (2 * 32)] ++ wordsOf 5 (stamp / secU / 1024) ++ [0#10]

/-- R468: one entry into the circular buffer of 1,024. -/
def logPush (s : State) (e : List Word) : State :=
  let full := decide (1024 ≤ s.log.entries.length)
  let kept := if full then s.log.entries.drop 1 else s.log.entries
  let s1 := { s with log := { s.log with entries := kept ++ [e], next := (s.log.next + 1) % 1024 } }
  if full then bump s1 evLostCount else s1

/-- R468, R469: an entry for an event that arose at `stamp`, preceded by a TIME_MARK where the seconds' upper bits
differ from those of the previous entry. -/
def logAt (s : State) (stamp code island sev unit_ arg : Nat) : State :=
  let hi := stamp / secU / 1024
  let s1 := if s.log.lastSec = some hi then s else logPush s (timeMark stamp)
  let s2 := logPush s1 (logEntry code island sev unit_ (min arg 1048575) stamp)
  { s2 with log := { s2.log with lastSec := some hi } }

/-- An entry for an event that arises now. -/
def logEvent (s : State) (code island sev unit_ arg : Nat) : State := logAt s (stampNow s) code island sev unit_ arg

/-- The island field of an entry raised by Benchmark (R469). -/
def islBenchmark : Nat := 31

/-- The plan records of a type in effect. -/
def recsOf (s : State) (ty : Nat) : List (List Word) :=
  (s.cfg.filter (fun r => r.type = ty)).map (fun r => r.payload)

/-- The payload of the first record of a type in effect. -/
def recOf (s : State) (ty : Nat) : Option (List Word) := (recsOf s ty).head?

/-- The payload of the record of a type whose first word is `k`. -/
def recBy (s : State) (ty k : Nat) : Option (List Word) := (recsOf s ty).find? (fun p => wAt p 0 1 = k)

/-- The payload of the record of a type whose first two words are `k` and `j`. -/
def recBy2 (s : State) (ty k j : Nat) : Option (List Word) :=
  (recsOf s ty).find? (fun p => wAt p 0 1 = k ∧ wAt p 1 1 = j)

/-- R65: bit `l` of the plan's active-line mask. -/
def lineActive (s : State) (l : Nat) : Bool :=
  match recOf s 1 with
  | none => false
  | some p => bitOf (wAt p 5 1) l

/-- The state with one traverse changed. -/
def modTrav (s : State) (t : Fin 8) (f : Trav → Trav) : State := { s with trav := vmod s.trav t f }

/-- The state with one line's sequencer, converters or PCE changed. -/
def modProbe (s : State) (l : Fin 2) (f : Probe → Probe) : State := { s with probe := vmod s.probe l f }

/-- As `modProbe`, for the converters. -/
def modConv (s : State) (l : Fin 2) (f : Conv → Conv) : State := { s with conv := vmod s.conv l f }

/-- As `modProbe`, for the channeliser and PCE. -/
def modPce (s : State) (l : Fin 2) (f : Pce → Pce) : State := { s with pce := vmod s.pce l f }

/-- A command whose effect is a new state. -/
def done (s : State) : Host.Outcome State Fault Refusal := .next s

/-- The effect where the event's condition holds; elsewhere the event cannot arise and nothing changes (log entry 3). -/
def whenB (c : Bool) (s t : State) : State := if c then t else s

/-- BOOT_PHASE of R58; 15 is recovery. -/
def bootPhase (s : State) : Nat := getF s bmStateBootPhase

/-- Every element of a list folded into the state. -/
def forEach {α : Type} (l : List α) (s : State) (f : State → α → State) : State := l.foldl f s

end Sys2Proof.Machine
end

