-- ==== Sys2Proof/Machine/Operands.lean ====
section
/-! DEFINITION. The plan's records read as typed values (the payload tables of R65, R107, R154, R249 and the other
chapters), with the defaults the spec gives where a record is absent, and the station blocks of R20. -/

namespace Sys2Proof.Machine
open Sys2Proof

/-- The payload of a record of a type in effect, or before the plan's application of the booted image's plan. -/
def planRec (s : State) (ty : Nat) : Option (List Word) :=
  (recOf s ty).or ((s.book.plan.find? (fun r => decide (r.type = ty))).map (fun r => r.payload))

/-- R107 PROBE_SLOT. -/
structure SlotCfg where
  line : Nat
  slot : Nat
  /-- 0 rectangular, 1 chirp, 2 stored, 3 sweep (R82). -/
  kind : Nat
  g : Nat
  k0 : Nat
  amp : Nat
  d : Nat
  len : Nat
  fStart : Int
  fStop : Int
  fine : Int
  phase : Nat
  breakMon : Bool
  ramanRef : Bool
  deriving DecidableEq, Repr

/-- A PROBE_SLOT payload. -/
def slotOfPayload (p : List Word) : SlotCfg :=
  { line := wAt p 0 1, slot := wAt p 1 1, kind := wAt p 2 1, g := wAt p 3 1, k0 := wAt p 4 1, amp := wAt p 5 1,
    d := wAt p 6 2, len := wAt p 8 2, fStart := wAtS p 10 2, fStop := wAtS p 12 2, fine := wAtS p 14 2,
    phase := wAt p 16 1, breakMon := bitOf (wAt p 17 1) 0, ramanRef := bitOf (wAt p 17 1) 1 }

/-- The active slots of a line (R82), in slot order. -/
def slotsOf (s : State) (l : Nat) : List SlotCfg :=
  (List.range 16).filterMap (fun k => (recBy2 s 0x021 l k).map slotOfPayload)

/-- A slot of a line, if active. -/
def slotAt (s : State) (l k : Nat) : Option SlotCfg := (recBy2 s 0x021 l k).map slotOfPayload

/-- R82: a slot whose returns become DAS branches. -/
def isDas (c : SlotCfg) : Bool := c.kind ≠ 3

/-- R107 SHOT_SCHEDULE: T_shot in units of 10 ns. -/
def tShot (s : State) (l : Nat) : Nat := match recBy s 0x020 l with | none => 0 | some p => wAt p 1 2

/-- R91: RANGE_RT in units of 10 ns. -/
def rangeRt (s : State) (l : Nat) : Nat := match recBy s 0x020 l with | none => 0 | some p => wAt p 3 2

/-- R97: the line's origin mode is second-aligned. -/
def secondAligned (s : State) (l : Nat) : Bool :=
  match recBy s 0x020 l with | none => false | some p => wAt p 5 1 = 1

/-- R97: ORIGIN_PHASE in ns. -/
def originPhase (s : State) (l : Nat) : Nat := match recBy s 0x020 l with | none => 0 | some p => wAt p 6 3

/-- R99: the laser settle time in units of 0.1 ms, 10 (1 ms) by default. -/
def settleTenths (s : State) (l : Nat) : Nat := match recBy s 0x020 l with | none => 10 | some p => wAt p 9 1

/-- R107 SWEEP_TABLE: the points a sweep slot visits, in order. -/
def sweepTable (s : State) (l k : Nat) : List Nat :=
  match recBy2 s 0x023 l k with
  | none => []
  | some p => (List.range (wAt p 2 1)).map (fun i => wAt p (3 + i) 1)

/-- R107 STORED_WAVEFORM: the complex samples of a stored slot. -/
def storedWave (s : State) (l k : Nat) : List Cx :=
  match recBy2 s 0x022 l k with
  | none => []
  | some p => (List.range (wAt p 2 2)).map (fun i => { re := wAtS p (4 + 2 * i) 1, im := wAtS p (5 + 2 * i) 1 })

/-- R107 LASER_ENVELOPE of a line. -/
def envelopeOf (s : State) (l : Nat) : Option (List Word) := recBy s 0x024 l

/-- R101: PEAK_MAX, ENERGY_MAX and AVG_MAX. -/
def envLimits (s : State) (l : Nat) : Nat × Nat × Nat :=
  match envelopeOf s l with
  | none => (0, 0, 0)
  | some p => (wAt p 1 1, wAt p 2 4, wAt p 6 4)

/-- R105: the APR level in percent, 10 by default. -/
def aprLevel (s : State) (l : Nat) : Nat :=
  match envelopeOf s l with
  | none => 10
  | some p => if wAt p 10 1 = 0 then 10 else wAt p 10 1

/-- R103: the break monitor's slot: the flagged one, else the lowest DAS slot. -/
def breakMonitor (s : State) (l : Nat) : Option SlotCfg :=
  match (slotsOf s l).find? (fun c => c.breakMon) with
  | some c => some c
  | none => (slotsOf s l).find? isDas

/-- R98: the Raman reference slot. -/
def ramanRefSlot (s : State) (l : Nat) : Option SlotCfg := (slotsOf s l).find? (fun c => c.ramanRef)

/-- R249 TRAVERSE_MAP: the line a traverse serves by the plan, by default traverses 0 to 3 line 0 and 4 to 7 line 1
(R20). -/
def planLine (s : State) (t : Nat) : Option Nat :=
  match recOf s 0x0E0 with
  | some p => let l := wAt p (2 * t) 1; if l < 2 then some l else none
  | none => let l := t / 4; if lineActive s l then some l else none

/-- The traverses that serve a line, lowest first; one marked OUT_OF_SERVICE serves none (R240). -/
def lineTravs (s : State) (l : Nat) : List (Fin 8) :=
  (List.finRange 8).filter (fun t => planLine s t.val = some l && !(vget s.trav t).oos)

/-- The line a traverse serves. -/
def travLine (s : State) (t : Fin 8) : Option Nat := if (vget s.trav t).oos then none else planLine s t.val

/-- R221: position of a traverse among those of its line. -/
def travPos (s : State) (l : Nat) (t : Fin 8) : Nat := (lineTravs s l).findIdx (fun u => u = t)

/-- R20: stations each lane owns, ceil(N / L). -/
def laneBlock (s : State) (l n : Nat) : Nat :=
  let lanes := 64 * (lineTravs s l).length
  if lanes = 0 then 0 else ceilDiv n lanes

/-- R20: first station and number of stations of a lane of a traverse, for a product of `n` stations. -/
def laneStations (s : State) (l n : Nat) (t : Fin 8) (lane : Nat) : Nat × Nat :=
  let b := laneBlock s l n
  let first := (64 * travPos s l t + lane) * b
  (first, min b (n - first))

/-- R20: first station and number of stations of a traverse. -/
def travStations (s : State) (l n : Nat) (t : Fin 8) : Nat × Nat :=
  let b := laneBlock s l n
  let first := 64 * travPos s l t * b
  (first, min (64 * b) (n - first))

/-- The traverse that owns a station of a line, for a product of `n` stations. -/
def stationTrav (s : State) (l n st : Nat) : Option (Fin 8) :=
  let b := laneBlock s l n
  if b = 0 then none else (lineTravs s l)[st / (64 * b)]?

/-- R91: the line's coherent stations, RANGE_RT × g of its coherent slots (the widest where they differ). -/
def cohStations (s : State) (l : Nat) : Nat :=
  rangeRt s l * ((slotsOf s l).foldl (fun a c => max a c.g) 0)

/-- R219 RAMAN_CONFIG of a line. -/
structure RamanCfg where
  n : Nat
  launch : Nat
  outCap : Nat
  smooth : Nat
  gainNorm : Bool
  stFloor : Int
  gamma : Int
  dalpha : Int
  c0 : Int
  deriving DecidableEq, Repr

/-- The line's RAMAN_CONFIG record. -/
def ramanCfg (s : State) (l : Nat) : Option RamanCfg :=
  (recBy s 0x0C0 l).map (fun p =>
    { n := wAt p 1 2, launch := wAt p 3 2, outCap := wAt p 5 2, smooth := wAt p 7 1, gainNorm := bitOf (wAt p 8 1) 0,
      stFloor := wAt p 9 1, gamma := if wAt p 10 3 = 0 then 633000 else wAt p 10 3, dalpha := wAtS p 13 2,
      c0 := wAtS p 15 3 })

/-- R200: the line's Raman stations. -/
def ramanStations (s : State) (l : Nat) : Nat := match ramanCfg s l with | none => 0 | some c => c.n

/-- R249 CUSTOM_KERNEL. -/
structure KernCfg where
  k : Nat
  mask : Nat
  hook : Nat
  start : Nat
  len : Nat
  maxCycles : Nat
  codeLo : Nat
  codeHi : Nat
  nParams : Nat
  deriving DecidableEq, Repr

/-- A CUSTOM_KERNEL payload. -/
def kernOfPayload (p : List Word) : KernCfg :=
  { k := wAt p 0 1, mask := wAt p 1 1, hook := wAt p 2 1, start := wAt p 3 2, len := wAt p 5 2,
    maxCycles := wAt p 7 2, codeLo := wAt p 9 1, codeHi := wAt p 10 1, nParams := wAt p 11 1 }

/-- The instructions of a CUSTOM_KERNEL payload. -/
def kernCode (p : List Word) : List (BitVec 40) :=
  (List.range (wAt p 5 2)).map (fun i => BitVec.ofNat 40 (wAt p (12 + 4 * i) 4))

/-- A custom kernel of the plan. -/
def kernAt (s : State) (k : Nat) : Option KernCfg := (recBy s 0x0E1 k).map kernOfPayload

/-- The kernels of a traverse at a hook, in ascending number (R243). -/
def kernsAt (s : State) (t h : Nat) : List Nat :=
  (List.range 16).filter (fun k => match kernAt s k with
    | none => false
    | some c => bitOf c.mask t && decide (c.hook = h))

/-- R249 KERNEL_WINDOW: base, length and whether stores are allowed. -/
def kernWindows (s : State) (k : Nat) : List (Nat × Nat × Bool) :=
  ((recsOf s 0x0E2).filter (fun p => wAt p 0 1 = k)).map (fun p => (wAt p 2 2, wAt p 4 2, decide (wAt p 6 1 = 1)))

/-- R225, R249 KERNEL_PARAMS: parameter word i of a kernel as a traverse holds it. -/
def kernParam (s : State) (t : Fin 8) (k i : Nat) : Word :=
  match (vget s.trav t).params.find? (fun x => decide (x.1 = k)) with
  | none => 0
  | some x => lget 0 x.2 i

/-- R249: the parameters of a KERNEL_PARAMS payload with its kernel. -/
def paramsOf (p : List Word) : Nat × List Word := (wAt p 0 1, p.drop 1)

/-- R225: a traverse takes a kernel's parameters. -/
def takeParams (s : State) (t : Fin 8) (p : List Word) : State :=
  modTrav s t (fun T => { T with params := T.params.filter (fun x => decide (x.1 ≠ wAt p 0 1)) ++ [paramsOf p] })

/-- Every traverse takes the parameters of the plan in effect. -/
def loadParams (s : State) : State :=
  { s with trav := s.trav.map (fun T => { T with params := (recsOf s 0x0E3).map paramsOf }) }

/-- Key of the sample table. -/
def sampleKey (line code st : Nat) : Nat := (line * 1024 + code) * 2 ^ 18 + st

/-- The newest sample of a line, product and station. -/
def sampleAt (s : State) (line code st : Nat) : Option Sample := tabFind s.samples (sampleKey line code st)

/-- The value of the newest sample, zero where there is none. -/
def sampleVal (s : State) (line code st : Nat) : Nat :=
  match sampleAt s line code st with | none => 0 | some x => wordsVal x.words

/-- The flag word of the newest sample. -/
def sampleFlag (s : State) (line code st : Nat) : Nat :=
  match sampleAt s line code st with | none => 0 | some x => x.flag

/-- Puts a sample. -/
def putSample (s : State) (line code st : Nat) (x : Sample) : State :=
  { s with samples := tabPut s.samples (sampleKey line code st) x }

/-- Product codes of the products (R174, R193, R214 and R215). -/
def prodPhase : Nat := 0x010

end Sys2Proof.Machine
end

