-- ==== Sys2Proof/Machine/Fence.lean ====
section
/-! DEFINITION. The fence unit (spec R25 to R29): issue, acknowledgement and the islands it acknowledges for. What a
completed fence brings about stands in the files of the units it names. -/

namespace Sys2Proof.Machine
open Sys2Proof

/-- R21: every island. -/
def allIslands : Nat := 2 ^ 18 - 1

/-- The engine is in standby (R446). -/
def inStandby (s : State) : Bool := isSet s bmPowerStandby

/-- R28: the islands the fence unit acknowledges for: held in reset or recovery, stopped by standby or for want of the
sample clock, or marked OUT_OF_SERVICE. -/
def heldMask (s : State) : Nat :=
  let ph := bootPhase s
  let trav := 2 ^ 18 - 2 ^ 10
  let oos := (List.finRange 8).foldl (fun m t => if (vget s.trav t).oos then m ||| 2 ^ (10 + t.val) else m) 0
  let recovery := if ph = 15 then allIslands - (1 + 4 + 8 + 32) else 0
  let boot := (if ph < 7 then trav else 0) ||| (if ph < 4 ∧ s.keeper.warm = true then 2 else 0)
  let standby := if inStandby s then (128 + 256 + 512) ||| trav else 0
  let scs := if s.keeper.scsLock then 0 else 128 + 256 + 512
  oos ||| recovery ||| boot ||| standby ||| scs ||| (s.keeper.lineReset.toNat * 128)

/-- R28: the fence unit acknowledges the outstanding fences for the islands that are held now. -/
def proxyAck (s : State) : State :=
  let h := heldMask s
  { s with fu := { s.fu with out := s.fu.out.map (fun f => { f with acked := f.acked ||| (f.scope &&& h) }) } }

/-- R27: fewer than 64 fences are outstanding. -/
def fenceRoom (s : State) : Bool := decide (s.fu.out.length < 64)

/-- R25, R27: a fence is issued with the next identifier, where fewer than 64 are outstanding (callers report a refusal
themselves). -/
def issueFence (s : State) (scope : Nat) (why : FenceFor) (recs : List PlanRec) : State :=
  let f : Fence := { id := s.fu.nextId, scope := scope % 2 ^ 18, acked := scope % 2 ^ 18 &&& heldMask s, missed := 0,
                     serial := s.fu.issued + 1, at_ := elapsed s, why := why, took := 0, recs := recs }
  if fenceRoom s then
    setF { s with fu := { s.fu with nextId := (s.fu.nextId + 1) % 1024, issued := s.fu.issued + 1, out := s.fu.out ++ [f] } }
      mgEpochIssued f.id
  else s

/-- R75: Fieldbook issues a fence of its own, or retries once an outstanding fence has completed. -/
def bookFence (s : State) (scope : Nat) (why : FenceFor) : State :=
  if fenceRoom s then issueFence s scope why []
  else { s with fu := { s.fu with retry := s.fu.retry ++ [(scope, why)] } }

/-- R225, R23: a traverse cannot acknowledge inside a pass or a slice, or during a clock change. -/
def travBusy (s : State) (island : Nat) : Bool :=
  match (List.finRange 8).find? (fun t => t.val + 10 = island) with
  | none => false
  | some t => (vget s.trav t).run ≠ .idle

end Sys2Proof.Machine
end

