-- ==== Sys2Proof/Machine/Net.lean ====
section
/-! DEFINITION. The links (spec R387 to R404, R77 to R80): feature words, credits, the order of sending, the buffers,
and routing of frames. -/

namespace Sys2Proof.Machine
open Sys2Proof

/-- R388: a frame's class and type, as word 0 holds them. -/
def frameClass (f : Frame) : Nat := f.ftype / 256 % 4

/-- R388: class and type of a word 0. -/
def ftypeOf (cls ty : Nat) : Nat := cls * 256 + ty

/-- R388 flags: ALL, RING, DIR, LATE. -/
def flagAll : Nat := 1
def flagRing : Nat := 2
def flagDir : Nat := 4
def flagLate : Nat := 8

/-- R402: the address of the host. -/
def hostAddr : Nat := 4095

/-- R410 LK_CHAIN: address, topology (0 single, 1 chain, 2 ring), HOST_DIR (0 local, 1 west, 2 east). -/
def chainCfg (s : State) : Nat × Nat × Nat :=
  match recOf s 0x1E0 with
  | none => (0, 0, 0)
  | some p => (wAt p 0 2, wAt p 2 1, wAt p 3 1)

/-- This engine's address. -/
def ownAddr (s : State) : Nat := (chainCfg s).1

/-- R387: frame words: header, payload padded to a multiple of four, CRC. -/
def frameWords (f : Frame) : Nat := 12 + 4 * ceilDiv f.payload.length 4 + 4

/-- R393: what a frame costs in its class; a CREDIT frame costs nothing. -/
def frameCost (f : Frame) : Nat :=
  if f.ftype = 1 then 0 else if frameClass f = 0 then 1 else ceilDiv (frameWords f) 64

/-- R387: bytes of a frame's packed image. -/
def frameBytes (f : Frame) : Nat := 5 * frameWords f / 4

/-- The quad of a link is ACTIVE. -/
def linkUp (s : State) (l : Fin 3) : Bool := (vget s.net.quads l).st = .active

/-- The state with one link or quad changed. -/
def modLink (s : State) (l : Fin 3) (f : Link → Link) : State :=
  { s with net := { s.net with links := vmod s.net.links l f } }

/-- As `modLink`, for a quad. -/
def modQuad (s : State) (q : Fin 3) (f : Quad → Quad) : State :=
  { s with net := { s.net with quads := vmod s.net.quads q f } }

/-- R399: a feature bit is accepted on a link. -/
def linkHas (s : State) (l : Fin 3) (b : Nat) : Bool :=
  match (vget s.net.links l).accepted with | none => false | some w => bitOf w b

/-- R402: the partner of a link is the one the topology asks for; a link that has never trained has no partner to
compare. -/
def partnerOk (s : State) (q : Fin 3) : Bool :=
  let Q := vget s.net.quads q
  let (addr, topo, _) := chainCfg s
  if Q.partner = 4096 then decide (q = 0 ∨ topo ≠ 0)
  else if q = 0 then decide (Q.partner = hostAddr ∧ Q.role = 0)
  else
    decide (topo ≠ 0 ∧ Q.partner ≠ hostAddr ∧ Q.role ≠ 0) &&
      (topo = 2 || (if q = 1 then decide (Q.partner < addr) else decide (addr < Q.partner)))

/-- R78, R397, R402: the link carries bulk frames: ACTIVE, a feature set accepted, the partner as the plan says. -/
def carriesBulk (s : State) (l : Fin 3) : Bool :=
  linkUp s l && (vget s.net.links l).accepted.isSome && partnerOk s l

/-- R393: a frame of this class and cost may start: consumed plus cost does not pass the latest grant. -/
def creditFor (L : Link) (f : Frame) : Bool :=
  let c := frameClass f
  decide ((lget 0 L.grant.toList c + 2 ^ 20 - (lget 0 L.used.toList c + frameCost f) % 2 ^ 20) % 2 ^ 20 < 2 ^ 19)

/-- R393: a frame is started: its credit is consumed. -/
def useCredit (L : Link) (f : Frame) : Link :=
  let c := frameClass f
  { L with used := L.used.setIfInBounds c ((lget 0 L.used.toList c + frameCost f) % 2 ^ 20) }

/-- R400: bytes of local management and bulk frames in the output buffer. -/
def outFill (L : Link) : Nat := sumN ((L.mgmt ++ L.bulk).map frameBytes)

/-- R394: bulk units in the forwarding buffer. -/
def fwdFill (L : Link) : Nat := sumN (L.fwd.map (fun x => frameBytes x.2))

/-- R59, R391, R400: a local frame is handed to a link, where it waits its turn; the answer says whether the link takes it. A full buffer, a link that
is not ACTIVE or a bulk frame without an accepted feature set drops it at the source. -/
def sendOn (s : State) (l : Fin 3) (f : Frame) : State × Bool :=
  let L := vget s.net.links l
  if !(linkUp s l) then (s, false)
  else
    match frameClass f with
    | 0 => (modLink s l (fun L => { L with prio := L.prio ++ [f] }), true)
    | 1 => (modLink s l (fun L => { L with mgmt := L.mgmt ++ [f] }), true)
    | _ =>
      if !(carriesBulk s l) || decide (4194304 - 65536 < outFill L + frameBytes f) then (s, false)
      else (modLink s l (fun L => { L with bulk := L.bulk ++ [f] }), true)

/-- A frame that arrived on link `src` is forwarded on a link (R403): bulk ones through the forwarding buffer. -/
def forwardOn (s : State) (src : Nat) (l : Fin 3) (f : Frame) : State :=
  match frameClass f with
  | 0 => modLink s l (fun L => { L with prio := L.prio ++ [f] })
  | 1 => modLink s l (fun L => { L with mgmt := L.mgmt ++ [f] })
  | _ => modLink s l (fun L => { L with fwd := L.fwd ++ [(src, f)] })

/-- A frame of this engine with a type, destination, tag and payload. -/
def ownFrame (s : State) (ftype dest tag : Nat) (payload : List Word) : Frame :=
  { ftype := ftype, dest := dest, src := ownAddr s, tag := tag, flags := 0, hops := 0, payload := payload }

/-! ### Routing -/

/-- The direction of a link: east (2) or west (1). -/
def otherWay (l : Fin 3) : Fin 3 := if l.val = 1 then 2 else 1

/-- R399, R402, R404: a link can take a frame, its own (`own`) or one that it forwards, with RING set where `ring`. -/
def usableFor (s : State) (own ring : Bool) (f : Frame) (l : Fin 3) : Bool :=
  linkUp s l && (own || linkHas s l 9) && (!ring || linkHas s l 10) && (decide (frameClass f ≠ 2) || partnerOk s l)

/-- R404: the way a frame goes when its direction under R403 is this neighbour link; in a ring with bit 10 accepted a
frame whose link is not ACTIVE goes the other way with RING set. -/
def ringWay (s : State) (own : Bool) (f : Frame) (l : Fin 3) : Option (Fin 3 × Frame) :=
  if usableFor s own (bitOf f.flags 1) f l then some (l, f)
  else
    let o := otherWay l
    if (chainCfg s).2.1 = 2 ∧ linkUp s l = false ∧ usableFor s own true f o = true then
      some (o, { f with flags := (f.flags ||| flagRing) &&& (15 - flagDir) ||| (if o.val = 1 then flagDir else 0) })
    else none

/-- R403: where a frame that is not addressed to this engine goes; `own` for a frame of this engine. -/
def routeOf (s : State) (own : Bool) (f : Frame) : Option (Fin 3 × Frame) :=
  let (addr, _, dir) := chainCfg s
  if bitOf f.flags 1 then
    let l : Fin 3 := if bitOf f.flags 2 then 1 else 2
    if usableFor s own true f l then some (l, f) else none
  else if f.dest = hostAddr then
    if (vget s.net.links 0).accepted.isSome && usableFor s own false f 0 then some (0, f)
    else if dir = 1 then ringWay s own f 1
    else if dir = 2 then ringWay s own f 2
    else none
  else if addr < f.dest then ringWay s own f 2
  else ringWay s own f 1

/-- A frame of this engine to a destination, by R403; the answer says whether an output took it. A destination with no
usable output counts in LK_NOROUTE of the host link. -/
def sendRouted (s : State) (f : Frame) : State × Bool :=
  match routeOf s true f with
  | some (l, g) => sendOn s l g
  | none => (bump s (lkNorouteCount 0), false)

/-! ### Feature words -/

/-- Any record of a type in effect. -/
def hasRec (s : State) (ty : Nat) : Bool := (recOf s ty).isSome

/-- The product codes a line produces. -/
def lineProducts (s : State) (l : Nat) : List Nat :=
  (if (recBy s 0x080 l).isSome then [0x010, 0x011, 0x012, 0x013, 0x014, 0x015] else []) ++
  (if (recBy s 0x0A0 l).isSome then [0x020, 0x021, 0x022, 0x023, 0x024, 0x025] else []) ++
  (if (recBy s 0x0C0 l).isSome then [0x030, 0x031, 0x032, 0x033, 0x034] else []) ++
  (if (recBy s 0x0C2 l).isSome then [0x038, 0x039, 0x03A] else [])

/-- R80 bit 1: every product of the line is shed. -/
def allShed (s : State) (l : Nat) : Bool :=
  !(lineProducts s l).isEmpty && (lineProducts s l).all (fun c => s.book.shed.contains (l, c))

/-- Some product of a group is produced on a line and not shed. -/
def offersProduct (s : State) (ty : Nat) (codes : List Nat) : Bool :=
  [0, 1].any (fun l => lineActive s l && (recBy s ty l).isSome && codes.any (fun c => !(s.book.shed.contains (l, c))))

/-- R93, R156: the launch offsets of a line's interleaved DAS slots. -/
def interleaved (s : State) (l : Nat) : List Nat := (((slotsOf s l).filter isDas).map (fun c => c.d)).eraseDups

/-- R80: the feature word offered on a link: what the plan enables and the hardware can carry. -/
def offerWord (s : State) (l : Fin 3) : Nat :=
  let bit (n : Nat) (b : Bool) : Nat := if b then 2 ^ n else 0
  let quad (q : Nat) : Option (List Word) := recBy s 0x1C0 q
  let topo := (chainCfg s).2.1
  bit 0 true
    + bit 1 (lineActive s 0 && lineActive s 1 && !(allShed s 0) && !(allShed s 1))
    + bit 2 ([0, 1].any (fun k => lineActive s k && decide (4 < (interleaved s k).length)))
    + bit 3 (offersProduct s 0x080 [0x010, 0x011, 0x012, 0x013, 0x014, 0x015])
    + bit 4 (offersProduct s 0x0A0 [0x020, 0x021, 0x022, 0x023, 0x024, 0x025])
    + bit 5 (offersProduct s 0x0C0 [0x030, 0x031, 0x032, 0x033, 0x034])
    + bit 6 (offersProduct s 0x0C2 [0x038, 0x039, 0x03A])
    + bit 7 (hasRec s 0x140 && !(s.book.shed.contains (2, 0)))
    + bit 8 (hasRec s 0x0E1)
    + bit 9 (((quad 1).isSome || (quad 2).isSome) && decide (topo = 1 ∨ topo = 2))
    + bit 10 ((quad 1).isSome && (quad 2).isSome && decide (topo = 2))
    + bit 11 true
    + bit 12 ((recsOf s 0x1A1).any (fun p => decide (wAt p 11 1 ≠ 0)))
    + bit 13 (hasRec s 0x160)
    + bit 14 (match quad l.val with | none => false | some _ => decide (getF s (slQCtrlRateMax l.val) = 3))
    + bit 15 ((recsOf s 0x100).any (fun p => [0x013, 0x024, 0x025, 0x031, 0x039].contains (wAt p 1 1)
        || (decide (0x040 ≤ wAt p 1 1) && decide (wAt p 25 1 = 4))))

/-- R77: six words of a feature word. -/
def featWords (w : Nat) : List Word := wordsOf 6 w

/-- R466 MG_OFFER, R466 MG_ACC: a 60-bit word into three registers. -/
def putWord60 (s : State) (f : Nat → Fld) (w : Nat) : State :=
  (List.range 3).foldl (fun s k => setF s (f k) (w / 2 ^ (20 * k))) s

/-- R77, R397: an offer is sent on a link with a new serial; `changed` for FEATURE_CHANGED. `wait` says whether it is
repeated until answered. DESIGN CHOICE (log entry 135): its destination is the host address on every link. -/
def sendOffer (s : State) (l : Fin 3) (changed wait : Bool) : State :=
  let w := offerWord s l
  let n := ((vget s.net.links l).serial + 1) % 1024
  let s1 := modLink s l (fun L => { L with offer := w, serial := n, unanswered := wait && !changed, changed := changed || L.changed })
  let s2 := if l = 0 then putWord60 s1 mgOfferWord w else s1
  let s3 := if changed then setF s2 (lkStatusFeat l.val) 3
            else if wait then setF s2 (lkStatusFeat l.val) 1 else s2
  (sendOn s3 l (ownFrame s3 (ftypeOf 0 2) hostAddr 0
    (featWords w ++ [BitVec.ofNat 10 n, BitVec.ofNat 10 (b2n changed)]))).1

/-- The offer last sent is repeated. -/
def repeatOffer (s : State) (l : Fin 3) : State :=
  let L := vget s.net.links l
  (sendOn s l (ownFrame s (ftypeOf 0 2) hostAddr 0
    (featWords L.offer ++ [BitVec.ofNat 10 L.serial, BitVec.ofNat 10 (b2n L.changed)]))).1

end Sys2Proof.Machine
end

