-- ==== Sys2Proof/Machine/StreamCfg.lean ====
section
/-! DEFINITION. The STREAM, ZONE, ALARM_PIN and LOOP records read as typed values (spec R275, R316), the producing
traverses of R252, and the tests several chapters make of a line's state. -/

namespace Sys2Proof.Machine
open Sys2Proof

/-- R275 STREAM: the fields the image fixes. The scaling, exclusion and subscription fields live in registers. -/
structure StreamCfg where
  n : Nat
  product : Nat
  line : Nat
  s0 : Nat
  nOut : Nat
  a : Nat
  mean : Bool
  wm : Nat
  rank : Nat
  order : Nat
  r : Nat
  t : Nat
  df : Nat
  preSh : Nat
  outWords : Nat
  frameWords : Nat
  syncPin : Bool
  deriving DecidableEq, Repr

/-- A STREAM payload. -/
def streamOfPayload (p : List Word) : StreamCfg :=
  { n := wAt p 0 1, product := wAt p 1 1, line := wAt p 2 1, s0 := wAt p 3 2, nOut := wAt p 5 2, a := wAt p 7 1,
    mean := decide (wAt p 8 1 = 1), wm := wAt p 9 1, rank := wAt p 10 1, order := wAt p 11 1, r := wAt p 12 2,
    t := wAt p 14 1, df := wAt p 15 1, preSh := wAt p 16 1, outWords := wAt p 25 1, frameWords := wAt p 26 2,
    syncPin := bitOf (wAt p 28 1) 9 }

/-- A stream of the plan. -/
def streamAt (s : State) (n : Nat) : Option StreamCfg := (recBy s 0x100 n).map streamOfPayload

/-- The hook whose kernel emits a custom product code (R245), of the lowest kernel that may. -/
def customHook (s : State) (code : Nat) : Nat :=
  match (List.range 16).find? (fun k => match kernAt s k with
    | none => false | some c => decide (c.codeLo ≤ code ∧ code ≤ c.codeHi)) with
  | none => 0
  | some k => ((kernAt s k).map (fun c => c.hook)).getD 0

/-- R11: the product lies on the Raman grid. -/
def ramanGrid (s : State) (code : Nat) : Bool :=
  decide (0x030 ≤ code ∧ code ≤ 0x037) || (decide (0x040 ≤ code ∧ code ≤ 0x05F) && decide (customHook s code = 2))

/-- The stations of a product of a line. -/
def productStations (s : State) (l code : Nat) : Nat :=
  if ramanGrid s code then ramanStations s l else cohStations s l

/-- R252: the traverse whose unit reduces output station k: the lower-numbered one that holds one of its stations. -/
def outTrav (s : State) (c : StreamCfg) (k : Nat) : Option (Fin 8) :=
  stationTrav s c.line (productStations s c.line c.product) (c.s0 + k * c.a)

/-- R252: the stream's producing traverses. -/
def streamTravs (s : State) (c : StreamCfg) : List (Fin 8) :=
  let n := productStations s c.line c.product
  (lineTravs s c.line).filter (fun t =>
    let (f, k) := travStations s c.line n t
    decide (f < c.s0 + c.nOut * c.a ∧ c.s0 < f + k))

/-- R273, R36, R240: the stream is stopped: its product is shed or every producing traverse is out of service. -/
def streamShed (s : State) (c : StreamCfg) : Bool :=
  s.book.shed.contains (c.line, c.product) || (streamTravs s c).isEmpty

/-- R316 ZONE. -/
structure ZoneCfg where
  z : Nat
  stream : Nat
  first : Nat
  last : Nat
  agg : Nat
  cntTh : Int
  below : Bool
  th : List Int
  en : Nat
  hyst : Int
  onMs : Nat
  offMs : Nat
  zexcl : Nat
  zpexcl : Nat
  faultPct : Nat
  staleMs : Nat
  latch : Bool
  events : Bool
  pins : Nat
  deriving DecidableEq, Repr

/-- A ZONE payload. -/
def zoneOfPayload (p : List Word) : ZoneCfg :=
  { z := wAt p 0 2, stream := wAt p 2 1, first := wAt p 3 2, last := wAt p 5 2, agg := wAt p 7 1, cntTh := wAtS p 8 4,
    below := decide (wAt p 12 1 = 1), th := [wAtS p 13 4, wAtS p 17 4, wAtS p 21 4], en := wAt p 25 1,
    hyst := wAt p 26 2, onMs := wAt p 28 2, offMs := wAt p 30 2, zexcl := wAt p 32 1, zpexcl := wAt p 33 1,
    faultPct := if wAt p 34 1 = 0 then 50 else wAt p 34 1, staleMs := wAt p 35 2, latch := bitOf (wAt p 37 1) 0,
    events := bitOf (wAt p 37 1) 1, pins := bitsOf (wAt p 37 1) 5 2 }

/-- The zones of the plan. -/
def zonesOf (s : State) : List ZoneCfg := (recsOf s 0x160).map zoneOfPayload

/-- A zone of the plan. -/
def zoneCfg (s : State) (z : Nat) : Option ZoneCfg :=
  ((recsOf s 0x160).find? (fun p => wAt p 0 2 = z)).map zoneOfPayload

/-- The line of a zone: that of its source stream. -/
def zoneLine (s : State) (c : ZoneCfg) : Option Nat := (streamAt s c.stream).map (fun x => x.line)

/-- R301: the traverse whose slice evaluates a zone. -/
def zoneSlice (s : State) (c : ZoneCfg) : Option (Fin 8) := (streamAt s c.stream).bind (fun x => outTrav s x c.first)

/-- R316 LOOP. -/
structure LoopCfg where
  src : Nat
  idx : Nat
  vLo : Int
  vHi : Int
  codes : List Nat
  dirHigh : Bool
  stby1 : Bool
  faultMs : Nat
  releaseMs : Nat
  manual : Bool
  sense : Nat
  deriving DecidableEq, Repr

/-- A loop's record; without one the loop is off. -/
def loopCfg (s : State) (n : Nat) : LoopCfg :=
  match recBy s 0x163 n with
  | none => { src := 0, idx := 0, vLo := 0, vHi := 1, codes := [], dirHigh := false, stby1 := false, faultMs := 0,
              releaseMs := 0, manual := false, sense := 0 }
  | some p =>
    { src := wAt p 1 1, idx := wAt p 2 2, vLo := wAtS p 4 4, vHi := wAtS p 8 4,
      codes := [wAt p 12 2, wAt p 14 2, wAt p 16 2, wAt p 18 2], dirHigh := decide (wAt p 20 1 = 1),
      stby1 := decide (wAt p 21 1 = 1), faultMs := wAt p 22 2, releaseMs := wAt p 24 2, manual := bitOf (wAt p 26 1) 0,
      sense := wAt p 27 2 }

/-- R306, R309, R311: no plan is applied, or the engine is in recovery. -/
def noPlan (s : State) : Bool := s.cfg.isEmpty || decide (bootPhase s = 15)

/-- R305, R43: the line is sensing. -/
def lineSensing (s : State) (l : Nat) : Bool :=
  isSet s (psStatusArmed l) && s.keeper.scsLock && !(inStandby s) && !(s.keeper.lineReset.getLsbD l)
    && s.mem.freeze.isNone

/-- R304 FAULT code 3, R104: the zone has a station at or beyond the active break station. -/
def zoneBeyond (s : State) (c : ZoneCfg) : Bool :=
  match streamAt s c.stream with
  | none => false
  | some x =>
    let top := x.s0 + (c.last + 1) * x.a - 1
    match breakMonitor s x.line with
    | none => false
    | some b =>
      isSet s (psBreakActive x.line) &&
        (let bs := getF s (psBreakStation x.line)
         if ramanGrid s x.product then decide (16 * bs ≤ 5 * b.g * top)
         else
           let g := (slotsOf s x.line).foldl (fun a y => max a y.g) 1
           decide (bs * g ≤ top * b.g))

/-- One millisecond in units of 2^-20 ns. -/
def msU : Nat := 1000 * usU

end Sys2Proof.Machine
end

