-- ==== Sys2Proof/Machine/Gates.lean ====
section
/-! DEFINITION. Which frames a link may carry (spec R399), and what becomes of those that wait when the offer changes (R79, R409). -/

namespace Sys2Proof.Machine
open Sys2Proof

/-- R399: the feature bits that a link must have accepted for the frames of a stream; `fr` for stream frames. -/
def needBits (s : State) (c : StreamCfg) (fr : Bool) : List Nat :=
  let p := c.product
  (if fr ∧ c.outWords = 4 then [15] else []) ++ (if c.line = 1 then [1] else [])
    ++ (if 0x010 ≤ p ∧ p ≤ 0x01F ∧ 4 < (interleaved s c.line).length then [2] else [])
    ++ (if p = 0x014 ∨ p = 0x015 then [3] else []) ++ (if 0x020 ≤ p ∧ p ≤ 0x025 then [4] else [])
    ++ (if 0x030 ≤ p ∧ p ≤ 0x034 then [5] else []) ++ (if 0x038 ≤ p ∧ p ≤ 0x03A then [6] else [])
    ++ (if 0x040 ≤ p ∧ p ≤ 0x05F then [8] else [])

/-- R268, R270, R279: the stream of a stream, coded or event frame of this engine: the low byte of its stream word, which in a coded
block follows the header of 11 words. -/
def frameStream (s : State) (f : Frame) : Option StreamCfg :=
  match f.ftype with
  | 0x004 | 0x006 | 0x201 => streamAt s (wAt f.payload 0 1 % 256)
  | 0x005 | 0x202 => streamAt s (wAt f.payload 11 1 % 256)
  | _ => none

/-- R399: the feature bits that a waiting frame of this engine needs on its link. -/
def frameBits (s : State) (f : Frame) : List Nat :=
  (match f.ftype with
   | 0x005 | 0x202 => [0]
   | 0x203 => [7]
   | 0x204 => [12]
   | 0x007 => [13]
   | _ => [])
  ++ (match frameStream s f with | none => [] | some c => needBits s c (decide (f.ftype ≠ 0x006)))

/-- R399: a link has accepted what a frame needs. -/
def gateOpen (s : State) (l : Fin 3) (f : Frame) : Bool := (frameBits s f).all (fun b => linkHas s l b)

/-- R272: the link is the only destination of a frame's stream. -/
def onlyDest (s : State) (l : Fin 3) (c : StreamCfg) : Bool := decide (getF s (stCtrlDest c.n) = 2 ^ l.val)

/-- R399, R409: frames of this engine that wait on a link and whose bits are not accepted any more are dropped at the source; a
stream's frame that no other destination takes counts in ST_DROP, a zone event frame in ZN_EVDROP. -/
def dropWithdrawn (s : State) (l : Fin 3) : State :=
  let L := vget s.net.links l
  let own (f : Frame) : Bool := decide (f.src = ownAddr s)
  let keep (f : Frame) : Bool := !(own f) || gateOpen s l f
  let gone := (L.prio ++ L.bulk).filter (fun f => !(keep f))
  if gone.isEmpty then s
  else
    let s1 := modLink s l (fun L => { L with prio := L.prio.filter keep, bulk := L.bulk.filter keep })
    gone.foldl (fun s f =>
      if f.ftype = 0x007 then bumpBy s znEvdropCount (wAt f.payload 0 1)
      else match frameStream s f with
        | some c => if onlyDest s l c then bump s (stDropCount c.n) else s
        | none => s) s1

/-- R79: the offer has shrunk or grown: FEATURE_CHANGED on every ACTIVE link and on every one that has accepted an offer,
whose accepted set becomes its intersection with the new offer. -/
def featureChanged (s : State) : State :=
  (List.finRange 3).foldl (fun s l =>
    let L := vget s.net.links l
    let w := offerWord s l
    if w = L.offer then s
    else match L.accepted with
    | none => if linkUp s l then sendOffer s l true true else s
    | some a =>
      let s1 := modLink s l (fun L => { L with accepted := some (a &&& w) })
      dropWithdrawn (sendOffer (putWord60 s1 (mgAccWord l.val) (a &&& w)) l true true) l) s

end Sys2Proof.Machine
end

