-- ==== Sys2Proof/Machine/LaneCost.lean ====
section
/-! DEFINITION. What a lane instruction costs (spec R233, R236, R237): its issue cycles, its latency, the registers it waits for
and those it writes; the sequencer's interlock; and the worst-case cycle count of a custom kernel's code (R244). -/

namespace Sys2Proof.Machine
open Sys2Proof

/-- Resources of the scoreboard (R233): w registers 0 to 31, index registers 32 to 35, predicates 36 to 39,
accumulators 40 and 41. -/
def laneRes (kind i : Nat) : Nat :=
  match kind with
  | 0 => i % 32
  | 1 => 32 + i % 4
  | 2 => 36 + i % 4
  | _ => 40 + i % 2

/-- What an instruction costs and touches (R233): issue cycles, latency, resources read and written. -/
structure LaneCost where
  issue : Nat
  lat : Nat
  reads : List Nat
  writes : List Nat
  deriving DecidableEq, Repr

/-- The cost of an instruction that reads and writes no register. -/
def plainCost (n : Nat) : LaneCost := { issue := n, lat := 0, reads := [], writes := [] }

/-- The two scoreboard entries of a pair. -/
def pairRes (r : Fin 32) : List Nat := [laneRes 0 r.val, laneRes 0 (r.val + 1)]

/-- The scoreboard entries of a register operand of a width. -/
def regRes (wide : Bool) (r : Fin 32) : List Nat := if wide then pairRes r else [laneRes 0 r.val]

/-- The scoreboard entry of an accumulator. -/
def accRes (a : Bool) : Nat := laneRes 3 (if a then 1 else 0)

/-- The scoreboard entry of a predicate; p0 is constant and has none. -/
def predRes (i : Nat) : List Nat := if i % 4 = 0 then [] else [laneRes 2 i]

/-- R233: the FN codes that take a second operand (not a shift count, not a single operand). -/
def aluTwo (fn : Nat) : Bool := decide (fn ≤ 4) || decide (fn = 8) || decide (fn = 9)

/-- The cost of an access in format M: it reads its index register, and writes it where INC moves it. -/
def memCost (m : FmtM) (issue lat : Nat) (reads writes : List Nat) : LaneCost :=
  { issue := issue, lat := lat, reads := laneRes 1 m.x.val :: reads,
    writes := writes ++ (if m.inc.val = 0 then [] else [laneRes 1 m.x.val]) }

/-- Issue 1, with a latency. -/
def oneCost (lat : Nat) (reads writes : List Nat) : LaneCost := { issue := 1, lat := lat, reads := reads, writes := writes }

/-- R235: what AOP reads by its FN. -/
def aopReads (r : FmtR) : List Nat :=
  match r.fn.val with
  | 0 => []
  | 1 | 2 => [accRes false, accRes true]
  | 4 => pairRes r.ra
  | _ => [accRes r.a]

/-- R233, R236: an instruction's cost, its predicate apart. -/
def bareCost : Instr → LaneCost
  | .rep _ src _ reg _ => oneCost 0 (if src then [laneRes 0 reg.val] else []) []
  | .mode .. => plainCost 4
  | .ld _ _ m => memCost m 1 2 [] [laneRes 0 m.r.val]
  | .ldp _ _ m => memCost m 1 2 [] (pairRes m.r)
  | .st _ _ m => memCost m 1 1 [laneRes 0 m.r.val] []
  | .stp _ _ m => memCost m 1 1 (pairRes m.r) []
  | .ald _ _ m => memCost m 2 3 [] [accRes m.acc]
  | .ast _ _ m => memCost m 2 2 [accRes m.acc] []
  | .xld _ _ i => oneCost 1 (if i.fn.val = 1 then pairRes i.ra else []) [laneRes 1 i.rd.val]
  | .xadd _ _ i => oneCost 1 [laneRes 1 i.rd.val] [laneRes 1 i.rd.val]
  | .alu _ _ r => oneCost 1 (regRes false r.ra ++ (if aluTwo r.fn.val then regRes false r.rb else [])) (regRes false r.rd)
  | .alud _ _ r => oneCost 1 (regRes true r.ra ++ (if aluTwo r.fn.val then regRes true r.rb else [])) (regRes true r.rd)
  | .alui _ _ i => oneCost 1 (regRes i.w i.ra) (regRes i.w i.rd)
  | .cmp _ _ r =>
    let wide := decide (8 ≤ r.fn.val)
    oneCost 1 (regRes wide r.ra ++ regRes wide r.rb) (predRes r.rd.val)
  | .cmpi _ _ i => oneCost 1 (regRes i.w i.ra) (predRes i.rd.val)
  | .sel _ _ r => oneCost 1 (regRes r.cj r.ra ++ regRes r.cj r.rb ++ predRes r.fn.val) (regRes r.cj r.rd)
  | .movi _ _ rd _ w => oneCost 1 [] (regRes w rd)
  | .mac _ _ r => oneCost 3 (laneRes 0 r.ra.val :: laneRes 0 r.rb.val :: (if r.fn.val = 0 then [] else [accRes r.a])) [accRes r.a]
  | .cmac _ _ r =>
    oneCost 3 (pairRes r.ra ++ pairRes r.rb ++ (if r.fn.val = 0 then [] else [accRes false, accRes true])) [accRes false, accRes true]
  | .dmac _ _ r => oneCost 3 (pairRes r.ra ++ pairRes r.rb ++ (if r.fn.val = 0 then [] else [accRes r.a])) [accRes r.a]
  | .aop _ _ r => oneCost 1 (aopReads r) [accRes r.a]
  | .ash _ _ r => oneCost 1 [accRes r.a] (regRes (decide (r.fn.val = 1)) r.rd)
  | .atst _ _ r => oneCost 1 [accRes r.a] (predRes r.rd.val)
  | .gmac _ _ r => oneCost 4 (pairRes r.ra ++ pairRes r.rb ++ (if r.fn.val = 0 then [] else [accRes r.a])) [accRes r.a]
  | .atan _ _ r => oneCost 16 (pairRes r.ra ++ pairRes r.rb) (regRes (decide (r.fn.val = 1)) r.rd)
  | .mag _ _ r => oneCost 16 (pairRes r.ra ++ pairRes r.rb) (pairRes r.rd)
  | .mag2 _ _ r => oneCost 4 (pairRes r.ra ++ pairRes r.rb) [accRes r.a]
  | .unit _ _ r => oneCost 2 [laneRes 0 r.ra.val] (pairRes r.rd)
  | .rot _ _ r => oneCost 16 (laneRes 0 r.rd.val :: (pairRes r.ra ++ pairRes r.rb)) (pairRes r.ra ++ pairRes r.rb)
  | .lnr _ _ r => oneCost 24 [accRes false, accRes true] [accRes r.a]
  | .dbl _ _ r => oneCost 16 [accRes r.a] [laneRes 0 r.rd.val]
  | .expw _ _ r => oneCost 2 [laneRes 0 r.ra.val] [laneRes 0 r.rd.val]
  | .div _ _ r =>
    { issue := 21, lat := 42, reads := [accRes false, accRes true], writes := if r.fn.val = 0 then pairRes r.rd else [accRes r.a] }
  | .maxi _ _ r | .mini _ _ r =>
    oneCost 1 (pairRes r.ra ++ pairRes r.rd ++ (if r.fn.val = 0 then [] else [laneRes 1 (r.fn.val - 1)])) (laneRes 0 r.rb.val :: pairRes r.rd)
  | .portInput _ _ pair r => oneCost 2 [] (regRes pair r)
  | .portDramRead _ _ f => oneCost 2 (laneRes 1 0 :: pairRes f.ra) []
  | .portDramWrite _ _ f =>
    oneCost 2 (laneRes 1 0 :: (pairRes f.ra ++ (List.range (f.n.val + 1)).map (fun i => laneRes 0 (f.r.val + i)))) []
  | .portXbufRead _ _ r ra => oneCost 2 (pairRes ra) (pairRes r)
  | .portXbufWrite _ _ r ra => oneCost 2 (pairRes ra ++ pairRes r) []
  | .out _ _ o => oneCost 0 (laneRes 0 o.rf.val :: (List.range (o.n.val + 1)).map (fun i => laneRes 0 (o.rs.val + i))) []
  | .xch _ _ r => oneCost 2 (pairRes r.ra) (laneRes 2 3 :: pairRes r.rd)
  | .prm _ _ i => oneCost 2 [] [laneRes 0 i.rd.val]
  | _ => plainCost 1

/-- R230: the predicate that an instruction evaluates. -/
def predOf : Instr → Nat
  | .br _ p _ _ | .aovclr _ p | .ld _ p _ | .ldp _ p _ | .st _ p _ | .stp _ p _ | .ald _ p _ | .ast _ p _ | .xld _ p _ | .xadd _ p _
  | .alu _ p _ | .alud _ p _ | .alui _ p _ | .cmp _ p _ | .cmpi _ p _ | .sel _ p _ | .movi _ p _ _ _ | .mac _ p _ | .cmac _ p _
  | .dmac _ p _ | .aop _ p _ | .ash _ p _ | .atst _ p _ | .gmac _ p _ | .atan _ p _ | .mag _ p _ | .mag2 _ p _ | .unit _ p _
  | .rot _ p _ | .lnr _ p _ | .dbl _ p _ | .expw _ p _ | .div _ p _ | .maxi _ p _ | .mini _ p _ | .portInput _ p _ _
  | .portDramRead _ p _ | .portDramWrite _ p _ | .portXbufRead _ p _ _ | .portXbufWrite _ p _ _ | .out _ p _ | .xch _ p _
  | .prm _ p _ => p.psel.val
  | _ => 0

/-- R233: an instruction's cost; its predicate is an operand that it waits for. -/
def laneCost (i : Instr) : LaneCost := let c := bareCost i; { c with reads := predRes (predOf i) ++ c.reads }

/-- R233: the instructions marked V, illegal in a custom kernel. -/
def vendorOnly : Instr → Bool
  | .hook .. | .mode .. | .wait .. | .portInput .. | .portDramRead .. | .portDramWrite .. | .portXbufRead .. | .portXbufWrite ..
  | .xch .. => true
  | _ => false

/-! ### The interlock -/

/-- The cycle at which the next instruction may issue, and the cycle from which each written resource may be read. -/
structure Timing where
  cyc : Nat
  ready : Tab Nat
  deriving DecidableEq, Repr

/-- R233: the cycle at which an instruction issues: it stalls until its operands are ready. -/
def Timing.start (T : Timing) (c : LaneCost) : Nat := c.reads.foldl (fun a r => max a (tabGet 0 T.ready r)) T.cyc

/-- R233: the timing after an instruction. -/
def Timing.after (T : Timing) (c : LaneCost) : Timing :=
  let start := T.start c
  { cyc := start + c.issue, ready := c.writes.foldl (fun r w => tabPut r w (start + c.lat)) T.ready }

/-- The later of two timings, resource by resource. -/
def Timing.join (a b : Timing) : Timing :=
  { cyc := max a.cyc b.cyc, ready := b.ready.foldl (fun r e => tabPut r e.1 (max e.2 (tabGet 0 r e.1))) a.ready }

/-! ### The worst case of a kernel (R244) -/

/-- A walk over a kernel's code in address order: the latest timing at which control can reach each instruction, and the
longest invocation found. -/
structure KernWalk where
  at_ : Tab Timing
  worst : Nat
  deriving DecidableEq, Repr

/-- More cycles than a record can allow: the count of a code that does not end every way through it with END. -/
def kernNever : Nat := 65536

/-- Control reaches an instruction; beyond the code there is none. -/
def KernWalk.reach (w : KernWalk) (n i : Nat) (T : Timing) : KernWalk :=
  if i < n then { w with at_ := tabPut w.at_ i (match tabFind w.at_ i with | none => T | some U => U.join T) }
  else { w with worst := kernNever }

/-- R237, R244: the walk past one instruction, at its latest timing. A taken branch issues in 3 cycles; a repeat whose count is a
register's runs at most 1,023 times, or not at all. -/
def KernWalk.pass (start : Nat) (code : List (BitVec 40)) (w : KernWalk) (i : Nat) : KernWalk :=
  match tabFind w.at_ i, (code[i]?).bind (decodeLane 0) with
  | none, _ => w
  | some _, none => { w with worst := kernNever }
  | some T, some x =>
    let c := laneCost x
    match x with
    | .end_ _ => { w with worst := max w.worst (T.after c).cyc }
    | .br _ _ mode target =>
      let w1 := if target.val ≤ start + i then { w with worst := kernNever }
        else w.reach code.length (target.val - start) (T.after { c with issue := 3 })
      if mode.val = 0 then w1 else w1.reach code.length (i + 1) (T.after c)
    | .rep _ src count _ len =>
      let body := ((code.drop (i + 1)).take (len.val + 1)).map (fun v => ((decodeLane 0 v).map laneCost).getD (plainCost kernNever))
      let T1 := T.after c
      let T2 := Nat.repeat (fun T => body.foldl Timing.after T) (if src then 1023 else count.val + 1) T1
      let w1 := w.reach code.length (i + len.val + 2) T2
      if src then w1.reach code.length (i + len.val + 2) T1 else w1
    | _ => w.reach code.length (i + 1) (T.after c)

/-- R244: the worst-case cycle count of a kernel's code, over every way through its branches. -/
def kernWorst (start : Nat) (code : List (BitVec 40)) : Nat :=
  ((List.range code.length).foldl (KernWalk.pass start code) { at_ := [(0, { cyc := 0, ready := [] })], worst := 0 }).worst

end Sys2Proof.Machine
end

