-- ==== Sys2Proof/Machine/Num.lean ====
section
/-! DEFINITION. The CORDIC and phase unit's functions (spec R236, and the level, weight and log functions of the
DAS and Raman chapters), computed in fixed point with 128 fraction bits, far below every rounding the spec states. -/

namespace Sys2Proof.Machine
open Sys2Proof

/-- One, in 128-bit fixed point. -/
def fxOne : Nat := 2 ^ 128

/-- π in fixed point. -/
def fxPi : Nat := 1069028584064966747859680373161870783301

/-- ln 2 in fixed point. -/
def fxLn2 : Nat := 235865763225513294137944142764154484399

/-- ln 10 in fixed point. -/
def fxLn10 : Nat := 783529105480883066805338482703447369892

/-- Product in fixed point. -/
def fxMul (a b : Nat) : Nat := a * b / fxOne

/-- Σ ±x^(2k+1)/(2k+1), the signs alternating (`alt`) or not: arctan, or the inverse hyperbolic tangent. -/
def fxOddSeries (alt : Bool) : Nat → Nat → Nat → Nat → Int → Int
  | 0, _, _, _, acc => acc
  | f + 1, k, t, x2, acc =>
    let term : Int := ((t / (2 * k + 1) : Nat) : Int)
    fxOddSeries alt f (k + 1) (fxMul t x2) x2 (if alt && k % 2 = 1 then acc - term else acc + term)

/-- tan(φ/2) from tan φ. -/
def fxHalfTan (t : Nat) : Nat := t * fxOne / (fxOne + isqrtGo 136 (fxOne * fxOne + t * t) 0)

/-- arctan of a number from 0 to 1. -/
def fxAtan (t : Nat) : Nat :=
  let u := fxHalfTan (fxHalfTan t)
  4 * (fxOddSeries true 30 0 u (fxMul u u) 0).toNat

/-- The angle of (x, y) in turns, from 0 to 1, in fixed point; 0 for the origin. -/
def turnOf (y x : Int) : Nat :=
  let ay := y.natAbs
  let ax := x.natAbs
  if ay = 0 ∧ ax = 0 then 0
  else
    let r := if ay ≤ ax then fxAtan (ay * fxOne / ax) * fxOne / (2 * fxPi)
             else fxOne / 4 - fxAtan (ax * fxOne / ay) * fxOne / (2 * fxPi)
    if 0 ≤ x ∧ 0 ≤ y then r
    else if x < 0 ∧ 0 ≤ y then fxOne / 2 - r
    else if x < 0 then fxOne / 2 + r
    else fxOne - r

/-- R236 ATAN: the phase in 1/2^w turn, rounded half to even, modulo 2^w. -/
def phaseTU (w : Nat) (y x : Int) : Nat :=
  ((roundEven ((turnOf y x * 2 ^ w : Nat) : Int) fxOne).toNat) % 2 ^ w

/-- Taylor terms x^n/n!, n rising by two: the sine (from x) or the cosine (from 1). -/
def fxTrig : Nat → Nat → Nat → Nat → Nat → Int → Int
  | 0, _, _, _, _, acc => acc
  | f + 1, k, n, t, x2, acc =>
    fxTrig f (k + 1) (n + 2) (fxMul t x2 / ((n + 1) * (n + 2))) x2
      (if k % 2 = 1 then acc - (t : Int) else acc + (t : Int))

/-- Cosine and sine of a first-quadrant angle given in turns (fixed point, 0 to 1/4). -/
def fxCosSinQ (turn : Nat) : Int × Int :=
  let x := turn * (2 * fxPi) / fxOne
  let x2 := fxMul x x
  (fxTrig 22 0 0 fxOne x2 0, fxTrig 22 0 1 x x2 0)

/-- Cosine and sine of an angle in turns, in fixed point. -/
def fxCosSin (turn : Nat) : Int × Int :=
  let t := turn % fxOne
  let q := 4 * t / fxOne
  let (c, s) := fxCosSinQ (t - q * (fxOne / 4))
  match q with
  | 0 => (c, s)
  | 1 => (-s, c)
  | 2 => (-c, -s)
  | _ => (s, -c)

/-- R236 UNIT: the unit phasor of an angle in TU at amplitude 511. -/
def unitPhasor (w : Nat) : Int × Int :=
  let (c, s) := fxCosSin ((w % 1024) * (fxOne / 1024))
  (roundEven (511 * c) fxOne, roundEven (511 * s) fxOne)

/-- The exact rotation of (x, y) by an angle in turns (fixed point), each component as a fixed-point number. -/
def rotateFx (x y : Int) (turn : Nat) : Int × Int :=
  let (c, s) := fxCosSin turn
  (x * c - y * s, x * s + y * c)

/-- ln(n / d) of positive naturals, in fixed point. -/
def fxLn (n d : Nat) : Int :=
  let e : Int := (Nat.log2 n : Int) - (Nat.log2 d : Int)
  -- m = n / d / 2^e, in 1/2 to 2
  let m := if 0 ≤ e then n * fxOne / (d * 2 ^ e.toNat) else n * 2 ^ (-e).toNat * fxOne / d
  let up := fxOne ≤ m
  let z := if up then (m - fxOne) * fxOne / (m + fxOne) else (fxOne - m) * fxOne / (m + fxOne)
  let a := 2 * fxOddSeries false 44 0 z (fxMul z z) 0
  (if up then a else -a) + e * (fxLn2 : Int)

/-- Σ x^n/n!. -/
def fxExpSeries : Nat → Nat → Nat → Nat → Nat → Nat
  | 0, _, _, _, acc => acc
  | f + 1, n, t, x, acc => fxExpSeries f (n + 1) (fxMul t x / (n + 1)) x (acc + t)

/-- e^x of a fixed-point number, in fixed point. -/
def fxExp (x : Int) : Nat :=
  let k := x / (fxLn2 : Int)
  let r := (x - k * (fxLn2 : Int)).toNat
  let e := fxExpSeries 36 0 fxOne r 0
  if 0 ≤ k then e * 2 ^ k.toNat else e / 2 ^ (-k).toNat

/-- R236 DBL: the level of a power v / 2^sh in −1/8 dB, limited to 0 to 1,022. -/
def levelOf (v sh : Nat) : Nat :=
  let l := fxLn (max v 1) (2 ^ sh)
  (clampI 0 1022 (roundEven (-80 * l * (fxOne : Int) / (fxLn10 : Int)) fxOne)).toNat

/-- R159, R164: the level of a power num / den relative to full scale, limited to 0 to 1,022. -/
def levelRat (num den : Nat) : Nat :=
  let l := fxLn (max num 1) (max den 1)
  (clampI 0 1022 (roundEven (-80 * l * (fxOne : Int) / (fxLn10 : Int)) fxOne)).toNat

/-- R166: 320·log10(v / 32), rounded half to even and limited to a signed 10-bit field. -/
def clarityOf (v : Nat) : Int :=
  satS 10 (roundEven (320 * fxLn (max v 1) 32 * (fxOne : Int) / (fxLn10 : Int)) fxOne)

/-- num·√r / den, rounded half to even. -/
def roundSqrt (num r den : Nat) : Int :=
  let m := isqrt (r * 2 ^ 64)
  roundEven ((num * (2 * m + (if m * m = r * 2 ^ 64 then 0 else 1)) : Nat) : Int) (den * 2 ^ 33)

/-- R236 EXPW: the weight of a signed clarity, min(1023, round(32·10^(c/320))). -/
def weightOf (c : Int) : Nat :=
  (min 1023 (roundEven ((32 * fxExp (c * (fxLn10 : Int) / 320) : Nat) : Int) fxOne)).toNat

/-- The floor of 2^20·ln(a / b) for positive operands. -/
def lnRatioFloor (a b : Nat) : Int := fxLn a b * 2 ^ 20 / (fxOne : Int)

end Sys2Proof.Machine
end

