-- ==== Sys2Proof/Machine/LaneOps.lean ====
section
/-! DEFINITION. What every lane instruction shares (spec R226 to R246): operand reads and writes with INV tags,
rounding and saturation, the predicate, the kernel sandbox and its faults, the repeat, and the entry of kernels. -/

namespace Sys2Proof.Machine
open Sys2Proof

/-! ### Registers of one lane -/

/-- A word register, unsigned. -/
def laneW (L : Lane) (i : Nat) : Nat := (L.w.toList.getD (i % 32) 0).toNat

/-- A word register, signed. -/
def laneWS (L : Lane) (i : Nat) : Int := signedOf 10 (laneW L i)

/-- The pair whose low word is register `i`, unsigned (R227). -/
def laneD (L : Lane) (i : Nat) : Nat := laneW L i + 1024 * laneW L (i + 1)

/-- The pair as a signed scalar. -/
def laneDS (L : Lane) (i : Nat) : Int := signedOf 20 (laneD L i)

/-- The pair as a complex value. -/
def laneC (L : Lane) (i : Nat) : Cx := { re := laneWS L i, im := laneWS L (i + 1) }

/-- The INV tag of a word register. -/
def laneInv (L : Lane) (i : Nat) : Bool := L.inv.getLsbD (i % 32)

/-- The INV tag of a pair: either word carries it. -/
def laneInvD (L : Lane) (i : Nat) : Bool := laneInv L i || laneInv L (i + 1)

/-- Writes a word register with its tag. -/
def putW (L : Lane) (i : Nat) (v : Int) (tag : Bool) : Lane :=
  { L with w := L.w.setIfInBounds (i % 32) (BitVec.ofInt 10 v),
           inv := (L.inv &&& ~~~ (1#32 <<< (i % 32))) ||| (if tag then 1#32 <<< (i % 32) else 0) }

/-- Writes a pair with its tag. -/
def putD (L : Lane) (i : Nat) (v : Int) (tag : Bool) : Lane :=
  putW (putW L i v tag) (i + 1) (v / 1024) tag

/-- A word or a pair, by width. -/
def putR (L : Lane) (wide : Bool) (i : Nat) (v : Int) (tag : Bool) : Lane :=
  if wide then putD L i v tag else putW L i v tag

/-- A predicate; p0 reads 1. -/
def laneP (L : Lane) (i : Nat) : Bool := if i % 4 = 0 then true else L.p.getLsbD (i % 4)

/-- Writes a predicate; p0 ignores it. -/
def putP (L : Lane) (i : Nat) (v : Bool) : Lane :=
  if i % 4 = 0 then L
  else { L with p := (L.p &&& ~~~ (1#4 <<< (i % 4))) ||| (if v then 1#4 <<< (i % 4) else 0) }

/-- An index register. -/
def laneX (L : Lane) (i : Nat) : Nat := (L.x.toList.getD (i % 4) 0).toNat

/-- Writes an index register, modulo 16,384. -/
def putX (L : Lane) (i : Nat) (v : Int) : Lane := { L with x := L.x.setIfInBounds (i % 4) (BitVec.ofInt 14 v) }

/-- An accumulator, signed. -/
def laneAcc (L : Lane) (a : Bool) : Int := if a then L.acc1.toInt else L.acc0.toInt

/-- SAT of an accumulator. -/
def laneSat (L : Lane) (a : Bool) : Bool := if a then L.sat1 else L.sat0

/-- The INV tag an accumulator's contents carry. -/
def laneAccInv (L : Lane) (a : Bool) : Bool := if a then L.ai1 else L.ai0

/-- Sets an accumulator, its SAT and its tag. -/
def setAcc (L : Lane) (a : Bool) (v : Int) (sat tag : Bool) : Lane :=
  if a then { L with acc1 := BitVec.ofInt 40 v, sat1 := sat, ai1 := tag }
  else { L with acc0 := BitVec.ofInt 40 v, sat0 := sat, ai0 := tag }

/-- R238: pins an accumulator at the bound of a sign: SAT and AOV set. -/
def pinAcc (L : Lane) (a : Bool) (v : Int) (tag : Bool) : Lane :=
  let newly := !(laneSat L a)
  let L1 := setAcc L a v true tag
  { L1 with aov := true, satSeen := L1.satSeen || newly }

/-- R238: an exact result written to an accumulator; beyond the range it is pinned. `sat` is the SAT bit that stays
when the result fits. -/
def accWrite (L : Lane) (a : Bool) (v : Int) (sat tag : Bool) : Lane :=
  if v < -(2 ^ 39 : Int) then pinAcc L a (-(2 ^ 39 : Int)) tag
  else if (2 ^ 39 : Int) ≤ v then pinAcc L a ((2 ^ 39 : Int) - 1) tag
  else setAcc L a v sat tag

/-- R238: an operation that adds to, subtracts from, negates or shifts an accumulator: none while SAT is set. -/
def accUpdate (L : Lane) (a : Bool) (v : Int) (tag : Bool) : Lane :=
  if laneSat L a then L else accWrite L a v false (tag || laneAccInv L a)

/-- R238: an operation that loads an accumulator afresh and clears SAT. -/
def accFresh (L : Lane) (a : Bool) (v : Int) (tag : Bool) : Lane :=
  accWrite (setAcc L a 0 false false) a v false tag

/-- R232: rounding of v / 2^k. -/
def roundRnd (rnd : Nat) (v : Int) (d : Nat) : Int :=
  match rnd % 4 with
  | 0 => v / (d : Int)
  | 1 => if 0 ≤ v then v / (d : Int) else -((-v) / (d : Int))
  | 2 => roundEven v d
  | _ => roundAway v d

/-- R232: SAT clamps to the width, else the value wraps (by the write). -/
def satTo (w : Nat) (sat : Bool) (v : Int) : Int := if sat then satS w v else v

/-! ### Which lanes execute -/

/-- R243: what runs on a traverse works on the Raman grid: a kernel of hook 2, or a Raman pass outside a kernel. -/
def onRamanGrid (T : Trav) : Bool := match T.kern with | some k => decide (k.h = 2) | none => decide (T.run = .raman)

/-- The stations of a grid of a line. -/
def gridStations (s : State) (l : Nat) (ram : Bool) : Nat := if ram then ramanStations s l else cohStations s l

/-- R226: the lane holds a station of the running pass; with no station product running, every lane does. -/
def laneHolds (s : State) (t : Fin 8) (lane : Nat) : Bool :=
  let T := vget s.trav t
  match T.run, travLine s t with
  | .idle, _ | .service, _ | _, none => true
  | _, some l => decide (0 < (laneStations s l (gridStations s l (onRamanGrid T)) t lane).2)

/-- R226, R230: the lane executes an instruction with this predicate. -/
def laneExecs (s : State) (t : Fin 8) (p : Pred) (lane : Nat) (L : Lane) : Bool :=
  laneHolds s t lane && (laneP L p.psel.val ^^ p.neg)

/-- The station of a grid that a lane works on in the running pass, with its index in the lane block. -/
def laneStation (s : State) (t : Fin 8) (ram : Bool) (lane : Nat) : Option (Nat × Nat) :=
  let T := vget s.trav t
  match T.run, travLine s t with
  | .idle, _ | .service, _ | _, none => none
  | _, some l =>
    let (f, c) := laneStations s l (gridStations s l ram) t lane
    if T.stIdx < c then some (f + T.stIdx, T.stIdx) else none

/-- The lanes of a traverse with their numbers. -/
def lanesOf (T : Trav) : List (Nat × Lane) := (List.range 64).map (fun i => (i, T.lanes.toList.getD i Lane.zero))

/-- Every lane of a traverse changed by a function of its number. -/
def mapLanes (T : Trav) (f : Nat → Lane → Lane) : Trav :=
  { T with lanes := Vector.ofFn (fun i : Fin 64 => f i.val (vget T.lanes i)) }

/-! ### Entry of passes and kernels -/

/-- R228: the contents of a lane at the entry of a pass, slice or kernel are undefined: free values; AOV is kept. -/
def laneEnter (draw lane : Nat) (L : Lane) : Lane :=
  let v := Config.freeLane draw lane
  { L with
    w := Vector.ofFn (fun i : Fin 32 => (v i.val).setWidth 10), inv := (v 32).setWidth 32,
    x := Vector.ofFn (fun i : Fin 4 => (v (33 + i.val)).setWidth 14), p := (v 37).setWidth 4,
    acc0 := v 38, acc1 := v 39, sat0 := (v 40).getLsbD 0, sat1 := (v 40).getLsbD 1, ai0 := (v 40).getLsbD 2,
    ai1 := (v 40).getLsbD 3 }

/-- R241: parity errors are counted and logged, mark their lanes and ask for a recovery pass. -/
def notePar (s : State) (t : Fin 8) (hits : List (Nat × Nat)) : State :=
  let s := forEach hits s (fun s h =>
    logEvent (bump s (trParityCount t.val)) 0x01C (10 + t.val) 1 t.val (h.1 * 2 ^ 14 + h.2))
  if hits.isEmpty then s
  else modTrav s t (fun T =>
    { mapLanes T (fun i L => if hits.any (fun h => h.1 = i) then { L with parErr := true } else L)
      with recovery := true })

/-- R241: the parity errors that the microcode of a pass meets among the station words of its lanes. Which of them it reads
depends on Fieldbook's layout, which the spec leaves open: a free value decides (log entry 143). -/
def passParity (s : State) (t : Fin 8) (d : Nat) : State :=
  notePar s t ((lanesOf (vget s.trav t)).flatMap (fun x =>
    (x.2.badPar.filter (fun a => decide (a < 15360) && (Config.freeLane d x.1 (64 + a)).getLsbD 0)).map (fun a => (x.1, a))))

/-- R222, R228: a traverse enters a pass or a slice. -/
def enterPass (s : State) (t : Fin 8) (k : PassKind) (stamp epoch grp : Nat) : State :=
  let d := s.freeCtr
  let s1 := modTrav s t (fun T =>
    let T1 := mapLanes T (fun i L => { laneEnter d i L with satSeen := false, parErr := false, inFifo := [] })
    { T1 with run := k, kern := none, rep := none, stIdx := 0, stamp := stamp, epoch := epoch, grp := grp, pc := 0, gang := false })
  passParity { s1 with freeCtr := s.freeCtr + 1 } t d

/-- R243: what a kernel finds in its lane's registers at a hook. -/
def hookRegs (s : State) (line h st idx : Nat) (seq grp : Nat) (L : Lane) : Lane :=
  let v (c : Nat) : Nat := sampleVal s line c st
  let d6 (L : Lane) : Lane := putX (putW (putD L 12 (st : Int) false) 10 (seq : Int) false) 1 (idx : Int)
  match h with
  | 0 =>
    let L := putD (putD L 0 (v 0x010) false) 2 (v 0x011) false
    let L := putW (putW L 4 (sampleFlag s line 0x010 st) false) 5 (v 0x012) false
    let L := putW (putW (putW L 6 (v 0x014) false) 7 (v 0x015) false) 8 (grp : Int) false
    d6 L
  | 1 =>
    let sh := v 0x020
    let L := putW (putW (putW L 0 (sh : Int) false) 1 ((sh / 1024 : Nat) : Int) false) 2 ((sh / 1048576 : Nat) : Int) false
    let L := putW (putW L 4 (sampleFlag s line 0x020 st) false) 5 (v 0x023) false
    let L := putD (putD L 6 (v 0x021) false) 8 (v 0x022) false
    d6 L
  | 2 => d6 (putW (putD L 0 (v 0x030) false) 4 (sampleFlag s line 0x030 st) false)
  | _ => d6 (putW (putD L 0 (v 0x038) false) 4 (sampleFlag s line 0x038 st) false)

/-- R243: the next kernel of a hook starts on a traverse, suspended ones skipped (R246); with none left vendor
microcode resumes at the next station. -/
def nextKernel (s : State) (t : Fin 8) (h : Nat) (ks : List Nat) : State :=
  let T := vget s.trav t
  match ks.filter (fun k => !(T.susp.contains k)) with
  | [] => modTrav s t (fun T => { T with kern := none, rep := none, stIdx := T.stIdx + 1 })
  | k :: rest =>
    let d := s.freeCtr
    let start := match kernAt s k with | none => 3072 | some c => c.start
    let l := (travLine s t).getD 0
    let enter (i : Nat) (L : Lane) : Lane :=
      let L1 := laneEnter d i L
      match laneStation s t (decide (h = 2)) i with
      | none => L1
      | some (st, idx) =>
        let key := h * 2 ^ 18 + st
        hookRegs s l h st idx ((tabGet 0 T.hookSeq key + 1023) % 1024) T.grp L1
    { modTrav s t (fun T =>
        { mapLanes T enter with
          kern := some { k := k, rest := rest, h := h, pc := start, cyc := 0, ready := [], outs := [] }, rep := none })
      with freeCtr := s.freeCtr + 1 }

/-- R245: a sample formed by OUT reaches the product table of its line. -/
def emitOut (s : State) (t : Fin 8) (o : OutSample) : State :=
  match travLine s t, laneStation s t (onRamanGrid (vget s.trav t)) o.lane with
  | some l, some (st, _) =>
    let T := vget s.trav t
    let par := (T.lanes.toList.getD o.lane Lane.zero).parErr
    putSample s l o.code st
      { stamp := T.stamp, words := o.words, flag := o.flag, invalid := o.invalid || par,
        epoch := T.epoch }
  | _, _ => s

/-- R246: a kernel fault: the invocation is abandoned with its samples, the cause is recorded and the kernel is
suspended on the traverse. Causes: 1 window, 2 cycle limit, 3 illegal instruction, 4 parity. -/
def kernelFault (s : State) (t : Fin 8) (kr : KernRun) (cause lane : Nat) : State :=
  let s := setF (setF (setF s (trKfaultCause t.val) cause) (trKfaultKernel t.val) kr.k) (trKfaultLane t.val) lane
  let s := setF s (trKaddrAddr t.val) (kr.pc - 3072)
  let s := logEvent s 0x01D (10 + t.val) 1 t.val (cause * 1024 + kr.k * 64 + lane)
  let s := modTrav s t (fun T => { T with susp := if T.susp.contains kr.k then T.susp else T.susp ++ [kr.k] })
  nextKernel s t kr.h kr.rest

/-! ### Issuing one instruction -/

/-- R237: the repeat and the program counter after one instruction. -/
def advance (T : Trav) : Trav :=
  let inc (T : Trav) : Trav := match T.kern with
    | some k => { T with kern := some { k with pc := k.pc + 1 } }
    | none => { T with pc := (T.pc + 1) % 4096 }
  match T.rep with
  | none => inc T
  | some r =>
    if r.pos + 1 < r.len then inc { T with rep := some { r with pos := r.pos + 1 } }
    else if r.rc + 1 < r.count then
      let back (T : Trav) : Trav := match T.kern with
        | some k => { T with kern := some { k with pc := k.pc + 1 - r.len } }
        | none => { T with pc := T.pc + 1 - r.len }
      back { T with rep := some { r with pos := 0, rc := r.rc + 1 } }
    else inc { T with rep := none }

/-- The first lane of a traverse that holds a station, 0 where none does. -/
def firstLane (s : State) (t : Fin 8) : Nat := ((List.range 64).find? (fun i => laneHolds s t i)).getD 0

/-- One instruction issued on a traverse: an illegal one is a kernel fault in a kernel (R246) and has no meaning
outside; in a kernel its cycles count against MAX_CYCLES (R244). `vOnly` marks the instructions of R233 that a kernel
may not hold. -/
def issue (s : State) (t : Fin 8) (legal vOnly : Bool) (c : LaneCost) (run : State → State) :
    Host.Outcome State Fault Refusal :=
  match (vget s.trav t).kern with
  | none => if legal then .next (run s) else .fault .laneIllegal
  | some kr =>
    if !legal || vOnly then .next (kernelFault s t kr 3 (firstLane s t))
    else
      let T := ({ cyc := kr.cyc, ready := kr.ready } : Timing).after c
      let limit := match kernAt s kr.k with | none => 0 | some k => k.maxCycles
      if limit < T.cyc then .next (kernelFault s t kr 2 (firstLane s t))
      else .next (run (modTrav s t (fun X => { X with kern := some { kr with cyc := T.cyc, ready := T.ready } })))

/-- Counts the lanes whose SAT was newly set (R238) and the parity errors read (R241), then moves on. -/
def settle (s0 : State) (t : Fin 8) (s : State) : State :=
  let T0 := vget s0.trav t
  let T := vget s.trav t
  let n := ((lanesOf T).zip (lanesOf T0)).foldl
    (fun a x => if x.1.2.satSeen && !x.2.2.satSeen then a + 1 else a) 0
  modTrav (bumpBy s (trAovCount t.val) n) t advance

/-- A plain lane instruction: every executing lane changes by `f`. -/
def laneOp (s : State) (t : Fin 8) (p : Pred) (legal : Bool) (c : LaneCost) (f : Lane → Lane) :
    Host.Outcome State Fault Refusal :=
  issue s t legal false c (fun s1 =>
    settle s1 t (modTrav s1 t (fun T => mapLanes T (fun i L => if laneExecs s1 t p i L then f L else L))))

/-- As `laneOp`, with the repeat index at hand. -/
def rcOf (s : State) (t : Fin 8) : Nat := match (vget s.trav t).rep with | none => 0 | some r => r.rc

/-- A register that names a pair holds 2n; an odd one is illegal (R231). -/
def evenReg (r : Fin 32) : Bool := r.val % 2 = 0

/-! ### Local memory -/

/-- R231 format M: the address an access starts at. -/
def memAddr (L : Lane) (m : FmtM) : Nat := (m.off.val + laneX L m.x.val * 2 ^ m.scl.val) % 16384

/-- R231 format M: the index register after the access; INC 7 is illegal. -/
def memInc (L : Lane) (m : FmtM) : Lane :=
  let d : Int := match m.inc.val with | 1 => 1 | 2 => 2 | 3 => 4 | 4 => -1 | 5 => -2 | 6 => -4 | _ => 0
  if d = 0 then L else putX L m.x.val ((laneX L m.x.val : Int) + d)

/-- The addresses of an access of `n` words, modulo 16,384. -/
def memSpan (a n : Nat) : List Nat := (List.range n).map (fun i => (a + i) % 16384)

/-- R241: a word as read: zero where its parity is wrong. -/
def memRead (L : Lane) (a : Nat) : Nat := if L.badPar.contains a then 0 else (tabGet 0 L.mem a).toNat

/-- The value of `n` words read from an address, lowest first. -/
def memReadN (L : Lane) (a n : Nat) : Nat :=
  wordsVal ((memSpan a n).map (fun b => BitVec.ofNat 10 (memRead L b)))

/-- A word stored, its parity bit right. -/
def memWrite (L : Lane) (a : Nat) (v : Word) : Lane :=
  { L with mem := tabSet 0 L.mem a v, badPar := L.badPar.filter (fun b => b ≠ a) }

/-- `n` words stored from an address, lowest first. -/
def memWriteN (L : Lane) (a n v : Nat) : Lane :=
  ((memSpan a n).zip (wordsOf n v)).foldl (fun L x => memWrite L x.1 x.2) L

/-- R244: the access of a kernel lies in its windows (a store in an RW one). -/
def windowOk (ws : List (Nat × Nat × Bool)) (store : Bool) (span : List Nat) : Bool :=
  span.all (fun a => ws.any (fun w => decide (w.1 ≤ a ∧ a < w.1 + w.2.1) && (!store || w.2.2)))

/-- R241: the parity errors an access of the executing lanes reads: lane and address. -/
def parityHits (s : State) (t : Fin 8) (p : Pred) (m : FmtM) (n : Nat) : List (Nat × Nat) :=
  (lanesOf (vget s.trav t)).flatMap (fun x =>
    if laneExecs s t p x.1 x.2 then
      ((memSpan (memAddr x.2 m) n).filter (fun a => x.2.badPar.contains a)).map (fun a => (x.1, a))
    else [])

/-- A memory access of `n` words: the sandbox's window test and, for a load, parity, then `f` in every executing
lane with the access's address. -/
def memOp (s : State) (t : Fin 8) (p : Pred) (m : FmtM) (legal store : Bool) (n : Nat) (c : LaneCost)
    (f : Nat → Lane → Lane) : Host.Outcome State Fault Refusal :=
  issue s t (legal && decide (m.inc.val ≠ 7)) false c (fun s1 =>
    let T := vget s1.trav t
    let run (s2 : State) : State :=
      settle s1 t (modTrav s2 t (fun T => mapLanes T (fun i L =>
        if laneExecs s1 t p i L then memInc (f (memAddr L m) L) m else L)))
    match T.kern with
    | none => run (if store then s1 else notePar s1 t (parityHits s1 t p m n))
    | some kr =>
      let ws := kernWindows s1 kr.k
      match (lanesOf T).find? (fun x => laneExecs s1 t p x.1 x.2 && !(windowOk ws store (memSpan (memAddr x.2 m) n))) with
      | some x => kernelFault s1 t kr 1 x.1
      | none =>
        if store then run s1
        else
          let hits := parityHits s1 t p m n
          let s2 := notePar s1 t hits
          match hits.find? (fun h => 15360 ≤ h.2) with
          | some h => kernelFault s2 t kr 4 h.1
          | none => run s2)

end Sys2Proof.Machine
end

