-- ==== Sys2Proof/Machine/LaneCtl.lean ====
section
/-! DEFINITION. Control instructions of the lanes (spec R233, R237, R239, R243): NOP, REP, BR, END, HOOK, MODE,
AOVCLR, WAIT. -/

namespace Sys2Proof.Machine
open Sys2Proof

/-- R233 NOP. -/
def execNop (t : Fin 8) (s : State) : Host.Outcome State Fault Refusal :=
  issue s t true false (laneCost (.nop t)) (fun s => modTrav s t advance)

/-- R237 REP: the next `len` + 1 instructions run COUNT times; with SRC the count is the register's unsigned value in
the first lane that holds a station, and 0 skips the body. -/
def execRep (t : Fin 8) (src : Bool) (count : Fin 1024) (reg : Fin 32) (len : Fin 64) (s : State) :
    Host.Outcome State Fault Refusal :=
  let T := vget s.trav t
  let n := if src then laneW (T.lanes.toList.getD (firstLane s t) Lane.zero) reg.val else count.val + 1
  issue s t (T.rep = none) false (laneCost (.rep t src count reg len))
    (fun s => modTrav s t (fun T =>
      let T1 := advance T
      if n = 0 then
        match T1.kern with
        | some k => { T1 with kern := some { k with pc := k.pc + len.val + 1 } }
        | none => { T1 with pc := T1.pc + len.val + 1 }
      else { T1 with rep := some { len := len.val + 1, count := n, pos := 0, rc := 0 } }))

/-- R237: the branch condition over the lanes that hold stations of the pass. -/
def brTaken (s : State) (t : Fin 8) (p : Pred) (mode : Nat) : Bool :=
  let ps := ((lanesOf (vget s.trav t)).filter (fun x => laneHolds s t x.1)).map (fun x => laneP x.2 p.psel.val ^^ p.neg)
  match mode with
  | 0 => true
  | 1 => ps.any id
  | 2 => ps.all id
  | _ => !(ps.any id)

/-- R237 BR; in a kernel only to a later address of the same kernel (R244). -/
def execBr (t : Fin 8) (p : Pred) (mode : Fin 4) (target : Fin 4096) (s : State) :
    Host.Outcome State Fault Refusal :=
  let T := vget s.trav t
  let taken := brTaken s t p mode.val
  let inKernel := match T.kern with
    | none => true
    | some kr => match kernAt s kr.k with
      | none => false
      | some k => decide (kr.pc < target.val ∧ target.val < k.start + k.len)
  issue s t (decide (T.rep = none) && inKernel) false
    { laneCost (.br t p mode target) with issue := if taken then 3 else 1 }
    (fun s => modTrav s t (fun T =>
      if taken then match T.kern with
        | some k => { T with kern := some { k with pc := target.val } }
        | none => { T with pc := target.val }
      else advance T))

/-- R233 END: the end of a kernel invocation sends its samples and starts the hook's next kernel; outside a kernel
the pass or slice ends, a service pass with gang mode left (R239). -/
def execEnd (t : Fin 8) (s : State) : Host.Outcome State Fault Refusal :=
  issue s t ((vget s.trav t).rep = none) false (laneCost (.end_ t)) (fun s =>
    match (vget s.trav t).kern with
    | some kr => nextKernel (forEach kr.outs s (fun s o => emitOut s t o)) t kr.h kr.rest
    | none => modTrav s t (fun T => { T with run := .idle, gang := false, rep := none, pc := 0 }))

/-- R243 HOOK: one event at every lane's station of the running pass; the kernels of the hook run in turn. -/
def execHook (t : Fin 8) (h : Fin 4) (s : State) : Host.Outcome State Fault Refusal :=
  issue s t ((vget s.trav t).rep = none) true (laneCost (.hook t h)) (fun s =>
    let s := modTrav s t advance
    let s := modTrav s t (fun T =>
      { T with hookSeq := (List.range 64).foldl (fun q i =>
          match laneStation s t (decide (h.val = 2)) i with
          | none => q
          | some (st, _) => let k := h.val * 2 ^ 18 + st; tabSet 0 q k ((tabGet 0 q k + 1) % 1024)) T.hookSeq })
    nextKernel s t h.val (kernsAt s t.val h.val))

/-- R239 MODE: gang mode is entered only in a service pass. -/
def execMode (t : Fin 8) (g : Bool) (s : State) : Host.Outcome State Fault Refusal :=
  let T := vget s.trav t
  issue s t (decide (T.rep = none) && (!g || decide (T.run = .service))) true (laneCost (.mode t g))
    (fun s => modTrav s t (fun T => advance { T with gang := g }))

/-- R238 AOVCLR: AOV cleared in executing lanes. -/
def execAovclr (t : Fin 8) (p : Pred) (s : State) : Host.Outcome State Fault Refusal :=
  laneOp s t p true (laneCost (.aovclr t p)) (fun L => { L with aov := false })

/-- Every lane that holds a station has at least `n` words at its input port. -/
def fifoReady (s : State) (t : Fin 8) (p : Pred) (n : Nat) : Bool :=
  (lanesOf (vget s.trav t)).all (fun x => !(laneExecs s t p x.1 x.2) || decide (n ≤ x.2.inFifo.length))

/-- R233 WAIT: the traverse stalls, and nothing changes, until the input port holds n + 1 words. -/
def execWait (t : Fin 8) (n : Fin 64) (s : State) : Host.Outcome State Fault Refusal :=
  issue s t true true (laneCost (.wait t n)) (fun s =>
    if fifoReady s t { neg := false, psel := 0 } (n.val + 1) then modTrav s t advance else s)

end Sys2Proof.Machine
end

