-- ==== Sys2Proof/Machine/LanePort.lean ====
section
/-! DEFINITION. The lanes' ports (spec R242, R245): PORT input, DRAM and exchange buffer transfers, OUT and XCH. -/

namespace Sys2Proof.Machine
open Sys2Proof

/-- R242: words of one sub-index of a DRAM region: previous traces 2 (a phase and a level), datum 4, accumulation 4,
station records 12. -/
def dramCell (region : Nat) : Nat := match region % 4 with | 0 => 2 | 3 => 12 | _ => 4

/-- Key of a DRAM word of a region (0 previous traces, 1 datum, 2 accumulation, 3 station records). -/
def dramKey (line region st sub i : Nat) : Nat :=
  ((line * 4 + region % 4) * 2 ^ 18 + st % 2 ^ 18) * 2 ^ 12 + (sub * dramCell region + i) % 2 ^ 12

/-- The value of `n` DRAM words. -/
def dramVal (s : State) (line region st sub n : Nat) : Nat :=
  wordsVal ((List.range n).map (fun i => tabGet 0 s.dram (dramKey line region st sub i)))

/-- `n` DRAM words replaced. -/
def dramPut (s : State) (line region st sub n v : Nat) : State :=
  { s with dram := (((List.range n).zip (wordsOf n v)).foldl
      (fun d x => tabSet 0 d (dramKey line region st sub x.1) x.2) s.dram) }

/-- R242 PORT 0 and 1: the next word or pair of the pass's input stream; with too few words the traverse stalls and
nothing changes. -/
def execPortInput (t : Fin 8) (p : Pred) (pair : Bool) (r : Fin 32) (s : State) :
    Host.Outcome State Fault Refusal :=
  let n := if pair then 2 else 1
  issue s t (!pair || evenReg r) true
    (laneCost (.portInput t p pair r)) (fun s1 =>
      if fifoReady s1 t p n then
        settle s1 t (modTrav s1 t (fun T => mapLanes T (fun i L =>
          if laneExecs s1 t p i L then
            { putR L pair r.val ((wordsVal (L.inFifo.take n) : Nat) : Int) false with inFifo := L.inFifo.drop n }
          else L)))
      else s1)

/-- R34, R432: class C0 waits during a blackout of DRAM. -/
def c0Waits (s : State) : Bool := s.mem.blackout.isSome

/-- R432: a freeze refuses class C0. -/
def c0Refused (s : State) : Bool := s.mem.freeze.isSome

/-- R242 PORT 2: requests N words of a region for the station in d[ra] at sub-index x0; they arrive at the input port
in request order. The traverse stalls in a blackout; a freeze refuses the request. -/
def execPortDramRead (t : Fin 8) (p : Pred) (f : FmtP) (s : State) : Host.Outcome State Fault Refusal :=
  issue s t (evenReg f.ra) true
    (laneCost (.portDramRead t p f))
    (fun s1 =>
      let line := (travLine s1 t).getD 0
      if c0Waits s1 then s1 else
      settle s1 t (modTrav s1 t (fun T => mapLanes T (fun i L =>
        if !(c0Refused s1) && laneExecs s1 t p i L then
          { L with inFifo := (L.inFifo ++ wordsOf (f.n.val + 1)
              (dramVal s1 line f.region.val (laneD L f.ra.val) (laneX L 0) (f.n.val + 1))) }
        else L))))

/-- R242 PORT 3: writes N words from w[r] onward, N at most 32 − r; as PORT 2 in a blackout and a freeze. -/
def execPortDramWrite (t : Fin 8) (p : Pred) (f : FmtP) (s : State) : Host.Outcome State Fault Refusal :=
  let n := f.n.val + 1
  issue s t (evenReg f.ra && decide (n + f.r.val ≤ 32)) true
    (laneCost (.portDramWrite t p f))
    (fun s1 =>
      let line := (travLine s1 t).getD 0
      if c0Waits s1 then s1 else
      let s2 := (lanesOf (vget s1.trav t)).foldl (fun s x =>
        if !(c0Refused s1) && laneExecs s1 t p x.1 x.2 then
          dramPut s line f.region.val (laneD x.2 f.ra.val) (laneX x.2 0) n
            (wordsVal ((List.range n).map (fun i => BitVec.ofNat 10 (laneW x.2 (f.r.val + i)))))
        else s) s1
      settle s1 t s2)

/-- Key of an exchange buffer pair: line, bank and entry. -/
def xbufKey (line bank entry : Nat) : Nat := (line * 2 + bank % 2) * 2 ^ 18 + entry % 2 ^ 18

/-- R242 PORT 4: reads the pair at entry d[ra] of the bank of the running block's parity. -/
def execPortXbufRead (t : Fin 8) (p : Pred) (r ra : Fin 32) (s : State) : Host.Outcome State Fault Refusal :=
  issue s t (evenReg r && evenReg ra) true
    (laneCost (.portXbufRead t p r ra))
    (fun s1 =>
      let line := (travLine s1 t).getD 0
      let bank := (vget s1.trav t).blk
      settle s1 t (modTrav s1 t (fun T => mapLanes T (fun i L =>
        if laneExecs s1 t p i L then
          putD L r.val ((tabGet 0 s1.xbuf (xbufKey line bank (laneD L ra.val)) : Nat) : Int) false
        else L))))

/-- R242 PORT 5: writes the pair at entry d[ra]. -/
def execPortXbufWrite (t : Fin 8) (p : Pred) (r ra : Fin 32) (s : State) : Host.Outcome State Fault Refusal :=
  issue s t (evenReg r && evenReg ra) true
    (laneCost (.portXbufWrite t p r ra))
    (fun s1 =>
      let line := (travLine s1 t).getD 0
      let bank := (vget s1.trav t).blk
      settle s1 t { s1 with xbuf := ((lanesOf (vget s1.trav t)).foldl (fun b x =>
        if laneExecs s1 t p x.1 x.2 then tabSet 0 b (xbufKey line bank (laneD x.2 ra.val)) (laneD x.2 r.val) else b)
        s1.xbuf) })

/-- R244: a kernel may emit only the product codes its record names, from 0x040 to 0x05F. -/
def outLegal (s : State) (t : Fin 8) (o : FmtO) : Bool :=
  decide (o.rs.val + o.n.val < 32) && (match (vget s.trav t).kern with
    | none => true
    | some kr => match kernAt s kr.k with
      | none => false
      | some k => decide (k.codeLo ≤ o.code.val ∧ o.code.val ≤ k.codeHi ∧ 0x040 ≤ o.code.val ∧ o.code.val ≤ 0x05F))

/-- R245 OUT: N words from w[rs] onward and the flag word w[rf] as one sample, INVALID where any of them is
tagged; a kernel's samples leave at its END. -/
def execOut (t : Fin 8) (p : Pred) (o : FmtO) (s : State) : Host.Outcome State Fault Refusal :=
  let n := o.n.val + 1
  issue s t (outLegal s t o) false
    (laneCost (.out t p o))
    (fun s1 =>
      let outs := (lanesOf (vget s1.trav t)).filterMap (fun x =>
        if laneExecs s1 t p x.1 x.2 then
          some { lane := x.1, code := o.code.val,
                 words := (List.range n).map (fun i => BitVec.ofNat 10 (laneW x.2 (o.rs.val + i))),
                 flag := laneW x.2 o.rf.val,
                 invalid := laneInv x.2 o.rf.val || (List.range n).any (fun i => laneInv x.2 (o.rs.val + i)) : OutSample }
        else none)
      match (vget s1.trav t).kern with
      | some kr => settle s1 t (modTrav s1 t (fun T => { T with kern := some { kr with outs := kr.outs ++ outs } }))
      | none => settle s1 t (forEach outs s1 (fun s x => emitOut s t x)))

/-- The neighbour of a lane in lane order (R221), across the traverses of its line: traverse and lane. -/
def neighbour (s : State) (t : Fin 8) (lane : Nat) (next : Bool) : Option (Fin 8 × Nat) :=
  if next then
    if lane < 63 then some (t, lane + 1)
    else match travLine s t with
      | none => none
      | some l => ((lineTravs s l)[travPos s l t + 1]?).map (fun u => (u, 0))
  else
    if 0 < lane then some (t, lane - 1)
    else match travLine s t with
      | none => none
      | some l => if travPos s l t = 0 then none else ((lineTravs s l)[travPos s l t - 1]?).map (fun u => (u, 63))

/-- R242 XCH: d[rd] ← d[ra] of the previous (FN 0) or next (FN 1) lane; a lane without that neighbour receives zero
and has p3 cleared, every other executing lane has p3 set. -/
def execXch (t : Fin 8) (p : Pred) (r : FmtR) (s : State) : Host.Outcome State Fault Refusal :=
  issue s t (decide (r.fn.val ≤ 1) && evenReg r.rd && evenReg r.ra) true
    (laneCost (.xch t p r))
    (fun s1 => settle s1 t (modTrav s1 t (fun T => mapLanes T (fun i L =>
      if laneExecs s1 t p i L then
        match neighbour s1 t i (r.fn.val = 1) with
        | none => putP (putD L r.rd.val 0 false) 3 false
        | some (u, j) =>
          let N := (vget s1.trav u).lanes.toList.getD j Lane.zero
          putP (putD L r.rd.val (laneDS N r.ra.val) (laneInvD N r.ra.val)) 3 true
      else L))))

end Sys2Proof.Machine
end

