-- ==== Sys2Proof/Machine/Probe.lean ====
section
/-! DEFINITION. Probe synthesis and the shot schedule (spec R82 to R101): schedule points and origins, launch
commands, the waveform a launch emits, the laser envelope and the Raman trigger. -/

namespace Sys2Proof.Machine
open Sys2Proof

/-- 10 ns, the unit of the schedule, in units of 2^-20 ns. -/
def gridU : Nat := 10 * nsU

/-- A rational number of turns as a fixed-point fraction of a turn. -/
def turnFx (num : Int) (den : Nat) : Nat := ((num % (den : Int)).toNat) * fxOne / den

/-- R85: sample i of a waveform of amplitude 511 at a phase. -/
def chirpSample (ph : Nat) : Int × Int :=
  let (c, s) := fxCosSin ((ph % 2 ^ 32) * (fxOne / 2 ^ 32))
  (roundEven (511 * c) fxOne, roundEven (511 * s) fxOne)

/-- R85: the 32-bit phase increment at sample i of a chirp, in 2^-32 turns: the frequency at the sample's middle on the linear
sweep from f_start to f_stop over L samples, over the slot's rate of 100·g MS/s (log entry 97). -/
def chirpStep (c : SlotCfg) (i : Nat) : Int :=
  let num : Int := (c.fStart * (2 * (c.len : Int)) + (c.fStop - c.fStart) * (2 * (i : Int) + 1)) * 2 ^ 32
  num / ((2 * c.len * 100000 * c.g : Nat) : Int) + (if Config.chirpRound c.fStart c.fStop c.len c.g i then 1 else 0)

/-- R85: the phases of a chirp from sample i on, accumulated in 32 bits. -/
def chirpPhases (c : SlotCfg) : Nat → Nat → Nat → List Nat
  | 0, _, _ => []
  | n + 1, i, ph => ph :: chirpPhases c n (i + 1) (((ph : Int) + chirpStep c i) % 2 ^ 32).toNat

/-- R85: the L complex samples of a slot's waveform. -/
def slotWave (s : State) (c : SlotCfg) : List (Int × Int) :=
  match c.kind with
  | 1 => (chirpPhases c c.len 0 0).map chirpSample
  | 2 => (storedWave s c.line c.slot).map (fun z => (z.re, z.im))
  | _ => List.replicate c.len (511, 0)

/-- R90: the spectral point a sweep slot launches at schedule point m, 0x3FF for any other slot. -/
def slotPointNo (s : State) (c : SlotCfg) (m : Nat) : Nat :=
  if c.kind = 3 then
    let t := sweepTable s c.line c.slot
    if t.length = 0 then 1023 else lget 1023 t (m % t.length)
  else 1023

/-- R89, R90: the NCO frequency word of a launch. -/
def ncoWord (c : SlotCfg) (point : Nat) : Int :=
  if c.kind = 3 then (2 * (point : Int) - 63) * 2 ^ 24
  else (2 * (c.k0 : Int) + (c.g : Int) - 32) * 2 ^ 25 + c.fine

/-- R142: the matched filter's reference h′ of a launch. -/
def hRef (s : State) (c : SlotCfg) (point : Nat) : List (Int × Int) :=
  (slotWave s c).zipIdx.map (fun x =>
    let i : Int := (x.2 : Int)
    let turn := if c.kind = 3 then turnFx ((2 * ((point : Int) - 2 * (c.k0 : Int) - (c.g : Int)) + 1) * i) (5 * c.g)
                else turnFx (c.fine * 256 * i) (5 * c.g * 2 ^ 32)
    let (re, im) := rotateFx x.1.1 x.1.2 turn
    (fitW 10 (roundAway re fxOne), fitW 10 (roundAway im fxOne)))

/-! ### Schedule points and origins -/

/-- The origin a slot's next schedule point belongs to. -/
def slotOrig (P : Probe) (k : Nat) : Option Nat := lget none P.slotOrigin.toList k

/-- Sets the index of a slot's next schedule point. -/
def setNextM (P : Probe) (k m : Nat) : Probe := { P with nextM := P.nextM.setIfInBounds k m }

/-- R97: a slot starts anew under an origin: its next launch carries REPHASED, and GAP where it had a schedule before. -/
def moveSlot (n : Nat) (P : Probe) (k : Nat) : Probe :=
  { setNextM P k 0 with
    slotOrigin := P.slotOrigin.setIfInBounds k (some n), rephNext := P.rephNext ||| 2 ^ k,
    gapNext := if (slotOrig P k).isSome then P.gapNext ||| 2 ^ k else P.gapNext }

/-- R97: device time reaches an accepted origin: it becomes the line's, and slots that had not moved yet start anew. -/
def reachOrigin (P : Probe) (n : Nat) : Probe :=
  let rest := (P.newOrigins.dropWhile (fun x => decide (x ≠ n))).drop 1
  let on (k : Nat) : Bool := match slotOrig P k with | none => false | some o => (n :: rest).contains o
  let P1 := ((List.range 16).filter (fun k => !(on k))).foldl (moveSlot n) P
  { P1 with origin := some n, newOrigins := rest, shift := 0, era := P.era + 1, sweepBase := 0 }

/-- R97: accepted origins that device time has reached become the origin. -/
def originDue (now : Nat) (P : Probe) : Probe :=
  P.newOrigins.foldl (fun P n => if n ≤ now then reachOrigin P n else P) P

/-- R92: the launch time of a slot's next schedule point; none before an origin is set. -/
def nextPoint (s : State) (P : Probe) (c : SlotCfg) : Option Nat :=
  (slotOrig P c.slot).map (fun o => o + (lget 0 P.nextM.toList c.slot * tShot s c.line + c.d) * gridU)

/-- The accepted origins that a slot has still to move to. -/
def laterOrigins (P : Probe) (k : Nat) : List Nat :=
  match slotOrig P k with
  | none => P.newOrigins
  | some o => if P.newOrigins.contains o then (P.newOrigins.dropWhile (fun x => decide (x ≠ o))).drop 1 else P.newOrigins

/-- R97: a slot whose next point lies at or after (new origin − T_shot) moves to the new origin's first point. -/
def moveToNew (s : State) (P : Probe) (c : SlotCfg) : Probe :=
  (laterOrigins P c.slot).foldl (fun P n => match nextPoint s P c with
    | none => moveSlot n P c.slot
    | some t => if n ≤ t + tShot s c.line * gridU then moveSlot n P c.slot else P) P

/-- R97: a SCHEDULE_ORIGIN takes effect: what was to launch at or after (new origin − T_shot) is withdrawn, held commands and
the schedules of origins accepted before alike. -/
def acceptOrigin (s : State) (l : Fin 2) (n : Nat) : State :=
  modProbe s l (fun P =>
    let late (t : Nat) : Bool := decide (n ≤ t + tShot s l.val * gridU)
    let gone := (List.range 16).filter (fun k =>
      P.cmds.any (fun c => decide (c.slot = k) && late c.time)
        || (match slotOrig P k with | none => false | some o => P.newOrigins.contains o && late o))
    let P1 := { P with cmds := P.cmds.filter (fun c => !(late c.time)), needOrigin := false, rephPend := true,
                       newOrigins := P.newOrigins.filter (fun o => !(late o)) ++ [n] }
    gone.foldl (moveSlot n) P1)

/-- R97: a first or restarted schedule takes an origin; its slots begin at index 0. DESIGN CHOICE (log entry 136): the first
launches carry REPHASED only where an earlier origin stood. -/
def startOrigin (P : Probe) (n : Nat) : Probe :=
  { P with
    origin := some n, newOrigins := [], rephPend := false, needOrigin := false, shift := 0,
    slotOrigin := Vector.replicate 16 (some n), nextM := Vector.replicate 16 0, cmds := [],
    gapNext := 0, rephNext := if P.origin.isSome then 65535 else P.rephNext, era := P.era + 1,
    sweepBase := 0 }

/-- R97: second-aligned mode: the first whole second at least 1 ms ahead, plus ORIGIN_PHASE. -/
def secondOrigin (s : State) (l : Nat) : Nat :=
  ((stampNow s + 1000 * usU + (secU - 1)) / secU) * secU + originPhase s l / 10 * gridU

/-- R97, R99: the schedule of a line restarts: second-aligned at once, immediate at the next LASER_ARM grant. -/
def restartSchedule (s : State) (l : Fin 2) : State :=
  modProbe s l (fun P =>
    if secondAligned s l.val then startOrigin P (secondOrigin s l.val)
    else { P with needOrigin := true, cmds := [], newOrigins := [], rephPend := false })

/-- R109: PS_STATUS.REPHASE_PENDING: a new origin is accepted and device time has not reached it. -/
def rephasePending (s : State) (P : Probe) : Bool := P.rephPend && P.newOrigins.any (fun n => decide (stampNow s < n))

/-- R95: a command less than 200 ns before its launch time is discarded and counted; the slot is re-phased to its
first point at least 20 µs after the present device time. -/
def discardLaunch (s : State) (l : Fin 2) (c : SlotCfg) (t : Nat) : State :=
  let per := max (tShot s l.val) 1 * gridU
  let need := stampNow s + 20 * usU
  modProbe (bump s (psLateCount l.val)) l (fun P =>
    let m := lget 0 P.nextM.toList c.slot
    let skip := max 1 (ceilDiv (need - t) per)
    { setNextM P c.slot (m + skip) with gapNext := P.gapNext ||| 2 ^ c.slot })

/-- R95: the launch command of a slot's next schedule point reaches the sequencer. -/
def launchCmdSt (l : Fin 2) (k : Fin 16) (s : State) : State :=
  match slotAt s l.val k.val with
  | none => s
  | some c =>
    let s1 := modProbe s l (fun P => moveToNew s (originDue (stampNow s) P) c)
    let P := vget s1.probe l
    match nextPoint s1 P c with
    | none => s1
    | some t =>
      if t < stampNow s1 + 200 * nsU then discardLaunch s1 l c t
      else modProbe s1 l (fun P =>
        let m := lget 0 P.nextM.toList c.slot
        { setNextM P c.slot (m + 1) with cmds := P.cmds ++ [{ slot := c.slot, m := m, time := t }] })

/-- R95 LAUNCH_CMD_ARRIVE. -/
def execLaunchCmdArrive (line : Fin 2) (slot : Fin 16) (s : State) : Host.Outcome State Fault Refusal :=
  .next (launchCmdSt line slot s)

/-! ### The waveform a launch emits -/

/-- R105: apr(line), 1,024 at full power. -/
def aprScale (s : State) (l : Nat) : Nat :=
  if isSet s (psStatusApr l) then isqrt (1024 * 1024 * aprLevel s l / 100) else 1024

/-- R87: the interpolated waveform at a position in fifths of a DAC sample after the launch instant: a rational polyphase filter
of ratio 256/(5·g) on the waveform's samples, 256/g fifths apart, centred on sample 0 (R88), in 12 bits. -/
def dacInterp (wave : List (Int × Int)) (g pos : Nat) : Int × Int :=
  let len := Config.dacTaps g
  let tap (k : Nat) : Int :=
    let i : Int := (pos : Int) - ((k * (256 / max g 1) : Nat) : Int) + ((len / 2 : Nat) : Int)
    if 0 ≤ i ∧ i < (len : Int) then Config.dacTap g i.toNat else 0
  let sum (f : Int × Int → Int) : Int := sumI (wave.zipIdx.map (fun x => f x.1 * tap x.2))
  (satS 12 (roundEven (sum (·.1)) 65536), satS 12 (roundEven (sum (·.2)) 65536))

/-- The DACs' work on the waveforms of a line: those waveforms, samples clamped at ±511, slots that violated the peak and the
energy limit, energy put out, the samples put out, newest first. -/
structure DacRun where
  emits : List Emit
  sat : Nat
  peakMask : Nat
  energyMask : Nat
  energy : Nat
  out : List (Int × Int)
  deriving DecidableEq, Repr

/-- R86: a waveform covers DAC sample t and has not been cut. -/
def emitOn (e : Emit) (t : Nat) : Bool :=
  decide (e.t0 + e.pos = t) && decide (e.pos < e.n) && !(match e.cut with | none => false | some c => decide (c ≤ t))

/-- R86: a waveform's contribution at its next sample, in 1/16 code. -/
def emitAt (apr : Nat) (e : Emit) : Int × Int :=
  let pos := 5 * e.pos + e.d5
  let u := dacInterp e.wave e.g pos
  let turn := ((e.phase % 1024) * (fxOne / 1024) + turnFx (e.nco * (pos : Int)) (5 * 2 ^ 32)) % fxOne
  let (re, im) := rotateFx (u.1 * (e.amp * apr : Nat)) (u.2 * (e.amp * apr : Nat)) turn
  let err (k : Nat) : Int := ((Config.dacRound e.draw (2 * e.slot + k) e.pos % 3 : Nat) : Int) - 1
  (satS 16 (roundEven re (fxOne * 2 ^ 16) + err 0), satS 16 (roundEven im (fxOne * 2 ^ 16) + err 1))

/-- R101: the DAC sample from which a muted waveform is cut, within 8 samples of the violation. -/
def cutFrom (e : Emit) (t : Nat) : Option Nat := e.cut.or (some (t + 1 + Config.dacRound e.draw 64 t % 8))

/-- R86, R101: one DAC sample: the sum, the peak check with its clamp, the shot energy of each waveform. -/
def dacSample (apr peakMax energyMax : Nat) (r : DacRun) (t : Nat) : DacRun :=
  let ys := r.emits.map (fun e => if emitOn e t then emitAt apr e else (0, 0))
  let i := roundAway (sumI (ys.map (·.1))) 16
  let q := roundAway (sumI (ys.map (·.2))) 16
  let top := max i.natAbs q.natAbs
  let lim : Int := ((min peakMax 511 : Nat) : Int)
  let next := (r.emits.zip ys).map (fun x =>
    let e := x.1
    let sum := e.energy + x.2.1.natAbs ^ 2 + x.2.2.natAbs ^ 2
    let peak := decide (peakMax < top) && decide (x.2 ≠ (0, 0))
    let hot := decide (energyMax < sum / 256)
    ({ e with pos := if e.t0 + e.pos = t then e.pos + 1 else e.pos, energy := sum,
              cut := if peak || hot then cutFrom e t else e.cut }, peak, hot, sum / 256 - e.energy / 256))
  let mask (p : Emit × Bool × Bool × Nat → Bool) : Nat := next.foldl (fun m x => if p x then m ||| 2 ^ x.1.slot else m) 0
  { emits := next.map (·.1), sat := r.sat + b2n (decide (511 < top) && decide (511 ≤ peakMax)),
    peakMask := r.peakMask ||| mask (fun x => x.2.1), energyMask := r.energyMask ||| mask (fun x => x.2.2.1),
    energy := r.energy + sumN (next.map (fun x => x.2.2.2)), out := (clampI (-lim) lim i, clampI (-lim) lim q) :: r.out }

/-- R86, R101: the DAC samples from the first one due up to a limit. -/
def dacRun (apr peakMax energyMax limit : Nat) (es : List Emit) : DacRun :=
  let from_ := es.foldl (fun a e => min a (e.t0 + e.pos)) limit
  let to_ := min limit (es.foldl (fun a e => max a (e.t0 + e.n)) 0)
  (List.range (to_ - from_)).foldl (fun r i => dacSample apr peakMax energyMax r (from_ + i))
    { emits := es, sat := 0, peakMask := 0, energyMask := 0, energy := 0, out := [] }

/-- R100, R101, R106: launches whose waveforms are cut carry DARK; a Raman trigger of theirs still to come does not fire
(R98). -/
def darkLaunches (now : Nat) (es : List Emit) (P : Probe) : Probe :=
  let hit (slot stamp : Nat) : Bool := es.any (fun e => decide (e.slot = slot ∧ e.stamp = stamp))
  { P with
    launches := P.launches.map (fun L => if hit L.slot L.stamp then { L with dark := true } else L),
    ramanTrigs := P.ramanTrigs.filter (fun x => decide (x.edge ≤ now) || !(es.any (fun e => decide (e.slot = x.slot ∧ e.stamp = x.launch)))) }

/-- R101: slots are muted: PS_MUTE and a LASER_LIMIT entry with the mask newly muted. -/
def muteSlots (s : State) (l : Fin 2) (cause mask : Nat) : State :=
  if mask = 0 then s
  else
    let old := getF s (psMuteMuted l.val)
    let newly := mask &&& (65535 - old % 65536)
    let s1 := setF (setF s (psMuteMuted l.val) (old ||| mask)) (psMuteCause l.val) cause
    if newly = 0 then s1 else logEvent s1 0x013 (7 + l.val) 2 l.val (cause * 2 ^ 18 + newly)

/-- 195.3125 ps, a DAC sample at 5.12 GS/s, in units of 2^-20 ns. -/
def dacU : Nat := 204800

/-- A device time on the DACs' own count, which no step of device time moves. -/
def dacTime (s : State) (t : Nat) : Nat := ((t : Int) + (elapsed s : Int) - (stampNow s : Int)).toNat

/-- R86, R101: the DACs of a line put out their samples up to a limit. -/
def dacTo (s : State) (l : Fin 2) (limit : Nat) : State :=
  let P := vget s.probe l
  if P.emits.isEmpty then s
  else
    let (pk, en, _) := envLimits s l.val
    let r := dacRun (aprScale s l.val) pk en limit P.emits
    let cut := r.emits.filter (fun e => match e.cut with | none => false | some c => decide (c < e.t0 + e.n))
    let s1 := modProbe s l (fun P => darkLaunches (stampNow s) cut { P with
      emits := r.emits.filter (fun e => decide (e.pos < e.n)), dac := if r.out.isEmpty then P.dac else r.out.reverse,
      subNow := P.subNow + r.energy })
    let s2 := bumpBy s1 (psDacSatCount l.val) r.sat
    muteSlots (muteSlots s2 l 1 r.peakMask) l 2 (r.energyMask &&& (65535 - r.peakMask % 65536))

/-- The DACs of a line put out their samples up to the present. -/
def dacNow (s : State) (l : Fin 2) : State := dacTo s l (dacTime s (stampNow s) / dacU)

/-- The DACs of a line put out the waveforms that began at or before a launch. -/
def dacFinish (s : State) (l : Fin 2) (stamp : Nat) : State :=
  dacTo s l (((vget s.probe l).emits.filter (fun e => decide (e.stamp ≤ stamp))).foldl (fun a e => max a (e.t0 + e.n)) 0)

/-- R99, R100: a line's DACs go to zero code: waveforms in progress are cut, which makes their launches DARK, and a trigger pulse
still to come does not fire or ends (R98). -/
def cutLine (s : State) (l : Fin 2) : State :=
  let s1 := dacNow s l
  let now := stampNow s
  modProbe s1 l (fun P =>
    { darkLaunches now P.emits P with
      emits := [], dac := [], ramanTrigs := P.ramanTrigs.filter (fun x => decide (x.edge ≤ now)),
      ramanPulse := match P.ramanPulse with
        | none => none
        | some (a, b) => if now ≤ a then none else some (a, min b now) })

/-- R101: a waveform of a muted slot is cut at once, and its launch is DARK. -/
def cutSlots (s : State) (l : Fin 2) (mask : Nat) : State :=
  modProbe (dacNow s l) l (fun P =>
    let hit := P.emits.filter (fun e => bitOf mask e.slot)
    { darkLaunches (stampNow s) hit P with emits := P.emits.filter (fun e => !(bitOf mask e.slot)) })

/-- R99, R100, R101: a launch of this slot at this instant emits nothing. -/
def launchDark (s : State) (l : Fin 2) (k time : Nat) : Bool :=
  let P := vget s.probe l
  !(isSet s (psStatusArmed l.val)) || P.ilkLow || decide (time < P.settleTo)
    || bitOf (getF s (psMuteMuted l.val)) k

/-- R86: time of DAC sample 0 after a launch instant, in fifths of a DAC sample; the launch instant in fifths. -/
def launchFifths (fifths : Nat) : Nat := (5 - fifths % 5) % 5

/-- R96: device time is disciplined to TREF_IN or PPS_IN. -/
def slewing (s : State) : Bool :=
  decide (s.time.freqRef = 0) || (match recOf s 0x1A0 with | none => false | some p => decide (wAt p 0 1 = 2))

/-- R96: under such a discipline the launch instants keep the cadence of the SCS and move towards device time by at most
39.0625 ps per shot period; how far they lie apart no operand gives, so the move is a free value (log entry 137). -/
def slewLaunch (s : State) (l : Fin 2) (time : Nat) : State :=
  let (v, s1) := draw s
  if !(slewing s) then modProbe s l (fun P => { P with slew := 0, slewAt := time })
  else if (vget s.probe l).slewAt + tShot s l.val * gridU ≤ time then
    modProbe s1 l (fun P => { P with slew := P.slew + ((v % 3 : Nat) : Int) - 1, slewAt := time })
  else s

/-- R86: the waveforms of the lit slots of a launch. -/
def emitsOf (s : State) (l : Fin 2) (time : Nat) (lit : List (SlotCfg × Nat)) : List Emit :=
  let P := vget s.probe l
  let fifths := ((((time : Int) - P.shift).toNat / gridU * 256 : Nat) + P.slew).toNat
  let d5 := launchFifths fifths
  let t0 := ceilDiv ((dacTime s time * 5 / dacU + P.slew).toNat) 5
  lit.map (fun x =>
    let c := x.1
    { slot := c.slot, stamp := time, t0 := t0, d5 := d5, n := ceilDiv (256 * c.len / c.g - d5) 5, pos := 0, g := c.g,
      wave := slotWave s c, amp := c.amp, nco := ncoWord c x.2, phase := c.phase, cut := none, energy := 0, draw := s.freeCtr })

/-- R102: a slot's computed peak and shot energy at full power, alone, at the first point it visits (log entry 80). -/
def slotLevels (s : State) (l : Fin 2) (c : SlotCfg) : Nat × Nat :=
  let es := emitsOf { s with probe := Vector.replicate 2 Probe.zero } l 0 [(c, slotPointNo s c 0)]
  let r := dacRun 1024 511 (2 ^ 40) (es.foldl (fun a e => max a (e.t0 + e.n)) 0) es
  (r.out.foldl (fun a x => max a (max x.1.natAbs x.2.natAbs)) 0, r.energy)

/-- R98: D of a line's RAMAN_TRIGGER and its delay in units of 3.125 ns. -/
def ramanTrigger (s : State) (l : Nat) : Option (Nat × Nat) :=
  (recBy s 0x026 l).map (fun p => (wAt p 1 1 + 1, wAt p 2 2))

/-- R98: the width of the trigger pulse in units of 3.125 ns. -/
def ramanWidth (s : State) (l : Nat) : Nat := match recBy s 0x026 l with | none => 1 | some p => max 1 (wAt p 4 1)

/-- 3.125 ns in units of 2^-20 ns. -/
def raU : Nat := 3276800

/-- R94: the slots that launch at a schedule point, with their indexes: every slot whose command the sequencer holds
for it, and every other slot that shares it. -/
def launchSet (s : State) (l : Fin 2) (time : Nat) : List (SlotCfg × Nat) :=
  let P := vget s.probe l
  (slotsOf s l.val).filterMap (fun c =>
    match P.cmds.find? (fun x => x.slot = c.slot && x.time = time) with
    | some x => some (c, x.m)
    | none => if nextPoint s P c = some time then some (c, lget 0 P.nextM.toList c.slot) else none)

/-- R94, R106: the record of a slot's launch whose traces are to come. -/
def launchOf (s : State) (l : Fin 2) (time : Nat) (c : SlotCfg) (m : Nat) (dark : Bool) : Launch :=
  let P := vget s.probe l
  let pt := slotPointNo s c m
  { slot := c.slot, stamp := time, at_ := dacTime s time, m := m, point := pt, dark := dark, gap := bitOf P.gapNext c.slot,
    rephased := bitOf P.rephNext c.slot, apr := isSet s (psStatusApr l.val), realigned := bitOf P.realNext c.slot,
    fresh := bitOf P.freshNext c.slot, era := P.era, epochs := s.fu.epoch.toList, due := 3, g := c.g, kind := c.kind, k0 := c.k0,
    href := hRef s c pt, delay := (vget s.pce l).delay, pow := [], cal := [], marked := false }

/-- R148, R149: schedule points of the monitor slot are counted while a launch delay measurement runs. -/
def countPoint (s : State) (l : Fin 2) (set : List (SlotCfg × Nat)) : State :=
  match breakMonitor s l.val with
  | none => s
  | some b =>
    if (vget s.pce l).measuring && set.any (fun x => x.1.slot = b.slot) then
      modPce s l (fun C => { C with points := C.points + 1 })
    else s

/-- R98: on a line that produces Raman temperature a trigger fires at every D-th schedule point of the reference slot that emits
light. -/
def fireRaman (s : State) (l : Fin 2) (time : Nat) (set : List (SlotCfg × Nat)) (dark : SlotCfg → Bool) : State :=
  match ramanTrigger s l.val, ramanRefSlot s l.val with
  | some (d, delay), some r =>
    match set.find? (fun x => x.1.slot = r.slot) with
    | some x => if x.2 % d = 0 ∧ dark x.1 = false ∧ (ramanCfg s l.val).isSome = true then
        let edge := time + delay * raU
        modProbe s l (fun P => { P with
          ramanTrigs := P.ramanTrigs ++ [{ era := P.era, point := x.2 / d, launch := time, slot := r.slot, edge := edge,
                                              at_ := dacTime s edge, epochs := s.fu.epoch.toList }],
          ramanPulse := some (edge, edge + ramanWidth s l.val * raU) })
      else s
    | none => s
  | _, _ => s

/-- R98: the level of Ln_RAMAN_TRIG: high within its pulse, low whenever the line is not armed. -/
def ramanLevel (s : State) (l : Fin 2) : Bool :=
  isSet s (psStatusArmed l.val) && (match (vget s.probe l).ramanPulse with
    | none => false
    | some (a, b) => decide (a ≤ stampNow s ∧ stampNow s < b))

/-- R94: the slots of a launch set that no held command named move past the point. -/
def passPoints (time : Nat) (set : List (SlotCfg × Nat)) (P : Probe) : Probe :=
  set.foldl (fun P x => if (P.cmds.any (fun c => c.slot = x.1.slot && c.time = time)) then P
    else setNextM P x.1.slot (x.2 + 1)) P

/-- R94: everything that shares the earliest held schedule point launches. -/
def probeLaunchSt (l : Fin 2) (s0 : State) : State :=
  match (vget s0.probe l).cmds.map (fun c => c.time) with
  | [] => s0
  | t0 :: ts =>
    let time := ts.foldl min t0
    let s := slewLaunch (modProbe s0 l (originDue time)) l time
    let set := launchSet s l time
    let dark (c : SlotCfg) : Bool := launchDark s l c.slot time
    let es := emitsOf s l time ((set.filter (fun x => !(dark x.1))).map (fun x => (x.1, slotPointNo s x.1 x.2)))
    let mask := set.foldl (fun m x => m ||| 2 ^ x.1.slot) 0
    let before := dacTo s l (es.foldl (fun _ e => e.t0) 0)
    let s1 := modProbe before l (fun P =>
      { passPoints time set P with
        cmds := P.cmds.filter (fun c => c.time ≠ time),
        launches := P.launches ++ set.map (fun x => launchOf s l time x.1 x.2 (dark x.1)),
        gapNext := P.gapNext &&& (65535 - mask % 65536), rephNext := P.rephNext &&& (65535 - mask % 65536),
        realNext := P.realNext &&& (65535 - mask % 65536),
        freshNext := P.freshNext &&& (65535 - mask % 65536),
        emits := P.emits ++ es })
    let s2 := { s1 with freeCtr := s1.freeCtr + 1 }
    let s5 := countPoint (fireRaman s2 l time set dark) l set
    if set.any (fun x => !(dark x.1)) then
      let s6 := { s5 with zn := { s5.zn with shotSince := vmod s5.zn.shotSince l (fun o => some (o.getD time)) },
                          time := { s5.time with shots := vmod s5.time.shots l (fun x =>
                            if (recBy s5 0x1A3 l.val).isSome then (time, false) :: x else x) } }
      if bootPhase s6 = 10 then setF s6 bmStateBootPhase 11 else s6
    else s5

/-- R94 PROBE_LAUNCH. -/
def execProbeLaunch (line : Fin 2) (s : State) : Host.Outcome State Fault Refusal := .next (probeLaunchSt line s)

/-! ### The laser envelope -/

/-- R101: the mask of a line's active slots. -/
def activeMask (s : State) (l : Nat) : Nat := (slotsOf s l).foldl (fun m c => m ||| 2 ^ c.slot) 0

/-- R109 PS_ENV_AVG: the current 1 s energy sum in units of 2^20 code². -/
def envAvg (P : Probe) : Nat := (sumN (P.subs.take 15) + P.subNow) / 2 ^ 20

/-- R101: a sub-window of 62.5 ms ends; above AVG_MAX every slot of the line is muted. -/
def subwindowSt (l : Fin 2) (s : State) : State :=
  let s1 := modProbe (dacNow s l) l (fun P => { P with subs := (P.subNow :: P.subs).take 16, subNow := 0 })
  let (_, _, avg) := envLimits s l.val
  if (envelopeOf s l.val).isSome ∧ avg * 2 ^ 20 < sumN (vget s1.probe l).subs then
    muteSlots (cutSlots s1 l (activeMask s1 l.val)) l 3 (activeMask s1 l.val)
  else s1

/-- R101 ENVELOPE_SUBWINDOW_END. -/
def execEnvelopeSubwindowEnd (line : Fin 2) (s : State) : Host.Outcome State Fault Refusal :=
  .next (subwindowSt line s)

end Sys2Proof.Machine
end

