-- ==== Sys2Proof/Machine/Channel.lean ====
section
/-! DEFINITION. The channeliser, the bin-group merge and the alignment of the matched filter's reference (spec R139 to R143, R147),
over the filter coefficients that the spec leaves free, and the limits it sets for those filters (R87, R140, R141; log entry 97). -/

namespace Sys2Proof.Machine
open Sys2Proof

/-! ### The channeliser -/

/-- A complex sum of weighted, rotated samples, each with its weight and its angle in turns in fixed point. -/
def rotSum (xs : List ((Int × Int) × Int × Nat)) : Int × Int :=
  xs.foldl (fun a x => let r := rotateFx (x.1.1 * x.2.1) (x.1.2 * x.2.1) x.2.2; (a.1 + r.1, a.2 + r.2)) (0, 0)

/-- R139: a component limited to ±32,767, and 1 where it saturated. -/
def limit16 (v : Int) : Int × Nat := (clampI (-32767) 32767 v, b2n (decide (32767 < v.natAbs)))

/-- R139: sample m of bin k of a stream with 4 fraction bits, at 10·m ns, with the components that saturated. Bin k is centred at
(2k − 31)·40 MHz, and input sample n lies 5·n taps of the prototype after the stream's first. -/
def binSample (xs : List (Int × Int)) (k m : Nat) : Int × Int × Nat :=
  let lo := (128 * m - 1023) / 5
  let hi := (128 * m + 1024) / 5
  let (re, im) := rotSum (((xs.take (hi + 1)).drop lo).zipIdx.map (fun x =>
    let n := lo + x.2
    let tap : Int := 128 * (m : Int) - 5 * (n : Int) + 1024
    (x.1, if 0 ≤ tap ∧ tap < 2048 then Config.protoTap tap.toNat else 0, turnFx (-(2 * (k : Int) - 31) * (n : Int)) 64)))
  let a := limit16 (roundEven re (fxOne * 2 ^ 29))
  let b := limit16 (roundEven im (fxOne * 2 ^ 29))
  (a.1, b.1, a.2 + b.2)

/-- R141: group sample i of g bins, each upsampled by g, shifted by (k − k0 − (g − 1)/2)·80 MHz and summed; at g = 1 the single bin
passes through. A bin sample that saturated marks the group sample of its instant. -/
def groupSample (bins : List (List (Int × Int × Nat))) (g i : Nat) : Int × Int × Nat :=
  if g = 1 then lget (0, 0, 0) (bins.headD []) i
  else
    let len := Config.mergeTaps g
    let terms := bins.zipIdx.flatMap (fun b => b.1.zipIdx.map (fun y =>
      let tap : Int := (i : Int) - ((g * y.2 : Nat) : Int) + ((len / 2 : Nat) : Int)
      ((y.1.1, y.1.2.1), if 0 ≤ tap ∧ tap < (len : Int) then Config.mergeTap g tap.toNat else 0,
        turnFx (2 * (2 * (b.2 : Int) - (g : Int) + 1) * (i : Int)) (5 * g))))
    let (re, im) := rotSum terms
    let a := limit16 (roundEven re (fxOne * 2 ^ 30))
    let b := limit16 (roundEven im (fxOne * 2 ^ 30))
    let of := if i % g = 0 then sumN (bins.map (fun b => (lget (0, 0, 0) b (i / g)).2.2)) else 0
    (a.1, b.1, a.2 + b.2 + of)

/-- R139, R141: the group stream of a slot, each sample with the components that saturated on its way. -/
def channelise (xs : List (Int × Int)) (k0 g : Nat) : List (Int × Int × Nat) :=
  let m := 5 * xs.length / 128
  let bins := (List.range g).map (fun k => (List.range m).map (binSample xs (k0 + k)))
  (List.range (g * m)).map (groupSample bins g)

/-! ### The reference's alignment -/

/-- R143, R147: 2^-30 of the reference's unit, in which the aligned reference is held. -/
def refBits : Nat := 30

/-- R147: the impulse of a linear phase over the 2,048-point spectrum, `num`/`den` samples from its centre, as a fixed-point
number. -/
def dirichlet (num : Int) (den : Nat) : Int × Int :=
  (List.range 2048).foldl (fun a k =>
    let (c, s) := fxCosSin (turnFx (((k : Int) - 1024) * num) (2048 * den)); (a.1 + c, a.2 + s)) (0, 0)

/-- R147: the reference with the remainder of LAUNCH_DELAY, `rem`/`per` of a sample, as a linear phase on its spectrum: samples 0 to L
where there is a remainder, in 2^-30. -/
def alignRef (href : List (Int × Int)) (rem per : Nat) : List (Int × Int) :=
  if rem = 0 then href.map (fun h => (h.1 * 2 ^ refBits, h.2 * 2 ^ refBits))
  else (List.range (href.length + 1)).map (fun i =>
    let z := href.zipIdx.foldl (fun a h =>
      let (c, s) := dirichlet ((per : Int) * ((i : Int) - (h.2 : Int)) - (rem : Int)) per
      (a.1 + h.1.1 * c - h.1.2 * s, a.2 + h.1.1 * s + h.1.2 * c)) (0, 0)
    (roundEven z.1 (2048 * fxOne / 2 ^ refBits), roundEven z.2 (2048 * fxOne / 2 ^ refBits)))

/-- R143: the correlation at one station with an aligned reference, before the shift. -/
def correlate (xs ref : List (Int × Int)) (first : Nat) : Int × Int :=
  ((xs.drop first).zip ref).foldl (fun z p =>
    (z.1 + p.1.1 * p.2.1 + p.1.2 * p.2.2, z.2 + p.1.2 * p.2.1 - p.1.1 * p.2.2)) (0, 0)

/-! ### The limits of the filters -/

/-- The response of a filter at a frequency in kHz about its centre tap, at a tap rate in kHz, in fixed point. -/
def response (tap : Nat → Int) (len rate : Nat) (f : Int) : Int × Int :=
  rotSum ((List.range len).map (fun n => ((1, 0), tap n, turnFx (-f * ((n : Int) - ((len / 2 : Nat) : Int))) rate)))

/-- The power of a response. -/
def powerOf (z : Int × Int) : Nat := z.1.natAbs ^ 2 + z.2.natAbs ^ 2

/-- A response lies within ± 10/n dB of an amplitude. -/
def flatWithin (n amp : Nat) (z : Int × Int) : Prop :=
  powerOf z ^ n ≤ 10 * (amp ^ 2) ^ n ∧ (amp ^ 2) ^ n ≤ 10 * powerOf z ^ n

/-- R140: the prototype's response at a frequency in kHz, and its amplitude at the centre. -/
def protoResponse (f : Int) : Int × Int := response Config.protoTap 2048 12800000 f
def protoAmp : Nat := 5 * 2 ^ 30 * fxOne

/-- R140: the limits the prototype meets: linear phase; flat within 0.05 dB to 38 MHz; two neighbouring bins add to 1 within 0.01 dB
from 38 to 42 MHz, and at 40 MHz each is half; 70 dB from 42 MHz. -/
def ProtoMask : Prop :=
  (∀ i : Nat, 0 < i → i < 1024 → Config.protoTap (1024 + i) = Config.protoTap (1024 - i))
  ∧ (∀ f : Int, f.natAbs ≤ 38000 → flatWithin 200 protoAmp (protoResponse f))
  ∧ (∀ f : Int, 38000 ≤ f → f ≤ 42000 → flatWithin 1000 protoAmp
      ((protoResponse f).1 + (protoResponse (f - 80000)).1, (protoResponse f).2 + (protoResponse (f - 80000)).2))
  ∧ (∀ f : Int, f.natAbs = 40000 → flatWithin 1000 protoAmp (2 * (protoResponse f).1, 2 * (protoResponse f).2))
  ∧ (∀ f : Int, 42000 ≤ f.natAbs → f.natAbs ≤ 6400000 → 10 ^ 7 * powerOf (protoResponse f) ≤ protoAmp ^ 2)

/-- R141: the response of a group of g bins at a frequency in kHz about the group's centre. -/
def groupResponse (g : Nat) (f : Int) : Int × Int :=
  (List.range g).foldl (fun a k =>
    let d := f - (2 * (k : Int) - (g : Int) + 1) * 40000
    let h := protoResponse d
    let q := response (Config.mergeTap g) (Config.mergeTaps g) (100000 * g) d
    (a.1 + h.1 * q.1 - h.2 * q.2, a.2 + h.1 * q.2 + h.2 * q.1)) (0, 0)

/-- R141: the limits the merge meets: linear phase, and flat within 0.1 dB to 38·g MHz. -/
def MergeMask (g : Nat) : Prop :=
  (∀ i : Nat, i < Config.mergeTaps g → Config.mergeTap g (Config.mergeTaps g - 1 - i) = Config.mergeTap g i)
  ∧ ∀ f : Int, f.natAbs ≤ 38000 * g → flatWithin 100 (protoAmp * (g * 2 ^ 30 * fxOne)) (groupResponse g f)

/-- R87: the limits the DAC interpolation filter meets: unity gain, flat within 0.1 dB to 38·g MHz, 60 dB from 42·g MHz. -/
def InterpMask (g : Nat) : Prop :=
  let amp := 256 / max g 1 * 2 ^ 16 * fxOne
  let h (f : Int) := response (Config.dacTap g) (Config.dacTaps g) 25600000 f
  (∀ f : Int, f.natAbs ≤ 38000 * g → flatWithin 100 amp (h f))
  ∧ (∀ f : Int, 42000 * g ≤ f.natAbs → f.natAbs ≤ 12800000 → 10 ^ 6 * powerOf (h f) ≤ amp ^ 2)

end Sys2Proof.Machine
end

