-- ==== Sys2Proof/Machine/Conv.lean ====
section
/-! DEFINITION. Receive converters and their calibration (spec R110 to R134): the rotating spare, background and
foreground calibration, references, temperature triggers, over-range marks and PGA ranges. -/

namespace Sys2Proof.Machine
open Sys2Proof

/-- R110: a fast input (0 to 3), else a Raman input (4 AS, 5 ST). -/
def isFast (i : Nat) : Bool := decide (i < 4)

/-- Key of a correction: input, slice, kind (0 skew or delay tap, 1 offset, 2 gain, 3 bandwidth, 4 threshold) and
comparator. -/
def calKey (input slice kind comp : Nat) : Nat := ((input * 16 + slice) * 8 + kind) * 16 + comp

/-- R115: the nominal value of a correction: skew tap 32, gain code 512, else 0. -/
def calNominal (key : Nat) : Int :=
  let kind := key / 16 % 8
  if kind = 0 ∧ isFast (key / 2048) = true then 32 else if kind = 2 then 512 else 0

/-- R115: the range of a correction. -/
def calRange (key : Nat) : Int × Int :=
  match key / 16 % 8 with
  | 0 => if isFast (key / 2048) then (0, 63) else (0, 15)
  | 1 => (-512, 511)
  | 2 => (0, 1023)
  | 3 => (-512, 511)
  | _ => (-32, 31)

/-- An applied correction. -/
def calApplied (C : Conv) (key : Nat) : Int := tabGet (calNominal key) C.applied key

/-- A correction's target. -/
def calTarget (C : Conv) (key : Nat) : Int := tabGet (calNominal key) C.target key

/-- R115: the corrections that exist: a fast input has nine slices and the five kinds, a Raman input four slices and no bandwidth
correction. -/
def calExists (key : Nat) : Bool :=
  let slice := key / 128 % 16
  let kind := key / 16 % 8
  let comp := key % 16
  decide (key / 2048 ≤ 5 ∧ kind ≤ 4 ∧ (if kind = 4 then comp ≤ 9 else comp = 0))
    && (if isFast (key / 2048) then decide (slice ≤ 8) else decide (slice ≤ 3 ∧ kind ≠ 3))

/-- A target set, within its range. -/
def setTarget (C : Conv) (key : Nat) (v : Int) : Conv :=
  let (a, b) := calRange key
  if calExists key then { C with target := tabSet (calNominal key) C.target key (clampI a b v) } else C

/-- R123: a correction written directly: applied value and target. -/
def setApplied (C : Conv) (key : Nat) (v : Int) : Conv :=
  let (a, b) := calRange key
  if calExists key then
    { C with target := tabSet (calNominal key) C.target key (clampI a b v),
             applied := tabSet (calNominal key) C.applied key (clampI a b v) }
  else C

/-- R116: one step of an applied value towards its target. -/
def stepTo (a t : Int) : Int := if a < t then a + 1 else if t < a then a - 1 else a

/-- R116: every applied correction moves one step towards its target. -/
def stepAll (C : Conv) : Conv :=
  let keys := C.applied.map (·.1) ++ C.target.map (·.1)
  { C with applied := keys.eraseDups.foldl (fun a k =>
      tabSet (calNominal k) a k (stepTo (tabGet (calNominal k) C.applied k) (tabGet (calNominal k) C.target k))) C.applied }

/-- R116 CORRECTION_STEP. -/
def execCorrectionStep (line : Fin 2) (s : State) : Host.Outcome State Fault Refusal := .next (modConv s line stepAll)

/-! ### Digital corrections -/

/-- R117: u with its 4 fraction bits. A quarter of the offset that is no whole number of sixteenths is rounded up or down, a free
value (log entry 138). -/
def offsetCorrected (C : Conv) (input slice : Nat) (r : Int) : Int :=
  let o := calApplied C (calKey input slice 1 0)
  let q := o / 4
  fitW 14 (r * 16 - (if o % 4 ≠ 0 && Config.quarterUp o then q + 1 else q))

/-- R117: the gain-corrected sample v of a SAR result by slice s, with 4 fraction bits. -/
def gainCorrected (C : Conv) (input slice : Nat) (r : Int) : Int :=
  fitW 14 (roundEven (offsetCorrected C input slice r * (16384 + calApplied C (calKey input slice 2 0) - 512)) 16384)

/-- R117: the corrected code of a sample between its gain-corrected neighbours, and its OVR bit. -/
def correctedCode (C : Conv) (input slice : Nat) (v vPrev vNext : Int) (ovr : Bool) : Int × Bool :=
  let b := fitW 14 (roundEven (calApplied C (calKey input slice 3 0) * (vNext - vPrev)) (2 ^ 13))
  let y := roundEven (fitW 14 (v + b)) 16
  let code := clampI (-512) 511 y
  (code, ovr || decide (code ≠ y))

/-- R117: the corrected codes of one input's samples, each with its slice and OVR mark; an end sample is its own missing
neighbour. -/
def correctInput (C : Conv) (input : Nat) (xs : List (Int × Nat × Bool)) : List (Int × Bool) :=
  let vs := xs.map (fun x => gainCorrected C input x.2.1 x.1)
  let prev := (vs.head?.getD 0) :: vs
  let next := vs.drop 1 ++ [vs.getLast?.getD 0]
  (xs.zip (vs.zip (prev.zip next))).map (fun z => correctedCode C input z.1.2.1 z.2.1 z.2.2.1 z.2.2.2 z.1.2.2)

/-! ### Marks -/

/-- The elapsed time before which no sample of a trace or capture still to come was taken. -/
def oldestSample (s : State) (l : Fin 2) : Nat :=
  let P := vget s.probe l
  (P.launches.map (·.at_) ++ P.ramanTrigs.map (·.at_)).foldl min (elapsed s)

/-- A span of marked samples begins; those that no sample still to come can meet are forgotten. -/
def addSpan (s : State) (l : Fin 2) (x : MarkSpan) : State :=
  let t := oldestSample s l
  let live (y : MarkSpan) : Bool := match y.to_ with | none => true | some e => decide (t < e)
  modConv s l (fun C => { C with spans := C.spans.filter live ++ [x] })

/-- The samples of some inputs carry a mark from now on. -/
def openSpan (s : State) (l : Fin 2) (why : MarkWhy) (mask : Nat) : State :=
  if mask = 0 then s else addSpan s l { why := why, mask := mask, from_ := elapsed s, to_ := none }

/-- The samples of some inputs no longer carry a mark. -/
def closeSpan (s : State) (l : Fin 2) (why : MarkWhy) (mask : Nat) : State :=
  modConv s l (fun C => { C with spans := C.spans.flatMap (fun x =>
    if x.why = why ∧ x.to_ = none ∧ x.mask &&& mask ≠ 0 then
      { x with mask := x.mask &&& mask, to_ := some (elapsed s) }
        :: (if x.mask - (x.mask &&& mask) = 0 then [] else [{ x with mask := x.mask - (x.mask &&& mask) }])
    else [x]) })

/-- R123: the isolated inputs of a line become those of a mask: CV_STATUS.FG_BUSY, and the marks of their samples. -/
def setBusy (s : State) (l : Fin 2) (mask : Nat) : State :=
  let old := getF s (cvStatusFgBusy l.val)
  setF (closeSpan (openSpan s l .isolated (mask - (mask &&& old))) l .isolated (old - (old &&& mask))) (cvStatusFgBusy l.val) mask

/-- R121, R123, R126: a sample of an input at an elapsed time carries a mark. -/
def sampleMarked (C : Conv) (p : MarkWhy → Bool) (input t : Nat) : Bool :=
  C.spans.any (fun x => p x.why && bitOf x.mask input && decide (x.from_ ≤ t)
    && (match x.to_ with | none => true | some e => decide (t < e)))

/-- R126, R133: the sample carries OVR. -/
def sampleOvr (C : Conv) (input t : Nat) : Bool := sampleMarked C (fun w => w = .ovr) input t

/-- R123, R129: the input is isolated at the sample. -/
def sampleIsolated (C : Conv) (input t : Nat) : Bool := sampleMarked C (fun w => w = .isolated) input t

/-- R121, R123: the sample makes stations STALE. -/
def sampleStale (C : Conv) (input t : Nat) : Bool := sampleMarked C (fun w => w ≠ .ovr) input t

/-- R121: REF_SETTLING is raised. -/
def raiseSettling (s : State) (l : Fin 2) : State :=
  if (vget s.conv l).settling then s else openSpan (modConv s l (fun C => { C with settling := true })) l .settling 15

/-! ### Rotation, spare measurement and the activity detector -/

/-- R119: a window passes: rms at least 8 LSB over 2^20 samples, and no bin above the median by more than 24 dB. -/
def windowAccepted (w : SkewWindow) : Bool :=
  decide (64 * 2 ^ 20 ≤ w.sumSq) && decide (w.maxBin ^ 5 ≤ w.medianBin ^ 5 * 10 ^ 12)

/-- R122: the last die reading received before a time; the oldest held where all are later. -/
def dieBefore (C : Conv) (t : Nat) : Option Int :=
  match C.die.find? (fun d => decide (d.1 < t)) with
  | some d => some d.2
  | none => C.die.getLast?.map (·.2)

/-- The bit of input i in a mask field, set or cleared. -/
def setMaskBit (s : State) (f : Fld) (i : Nat) (b : Bool) : State :=
  setF s f (if b then getF s f ||| 2 ^ i else bitsPut (getF s f) i i 0)

/-- R114, R119, R122: the estimator's latest complete window is evaluated at a rotation step. -/
def evalWindow (s : State) (l : Fin 2) (i : Fin 4) (oldSpare : Nat) (w : SkewWindow) : State :=
  if windowAccepted w then
    let s1 := modConv s l (fun C => (w.targets.filter (fun t => t.slice ≠ oldSpare)).foldl (fun C t =>
      setTarget (setTarget C (calKey i.val t.slice 0 0) t.skew) (calKey i.val t.slice 3 0) t.bandwidth) C)
    let C := vget s.conv l
    let pass := bitOf (getF s (cvStatusPass l.val)) i.val
    let temp := if pass then some (vget C.passStart i) else dieBefore C w.began
    let s2 := match temp with | none => s1 | some v => setFS s1 (cvCalTempTemp l.val i.val) v
    setMaskBit s2 (cvCalStatusNotConv l.val) i.val false
  else
    let s1 := bump s (cvNotconvCountCount l.val)
    if bitOf (getF s (cvCalStatusNotConv l.val)) i.val then s1
    else logEvent (setMaskBit s1 (cvCalStatusNotConv l.val) i.val true) 0x016 (7 + l.val) 1 l.val i.val

/-- A fast input's sample interval, 0.390625 ns, in units of 2^-20 ns. -/
def faSample : Nat := 409600

/-- R112: the slice that converts a fast input's sample at an elapsed time. The eight active slices take turns in ascending order;
at a rotation step the old spare takes the new spare's place. Which place takes sample 0 is a free value. -/
def sliceAt (C : Conv) (l : Nat) (i : Fin 4) (t : Nat) : Nat :=
  let x := lget 0 (vget C.order i) ((t / faSample + Config.slicePlace l i.val) % 8)
  if t < vget C.rotAt i ∧ x = (vget C.spare i + 8) % 9 then vget C.spare i else x

/-- R112: the slice after the present spare becomes the spare, and the old spare takes its place. -/
def rotate (C : Conv) (i : Fin 4) (now : Nat) : Conv :=
  let old := vget C.spare i
  let new := (old + 1) % 9
  { C with spare := vset C.spare i new, order := vmod C.order i (List.map (fun x => if x = new then old else x)),
           rotAt := vset C.rotAt i now, passSteps := vmod C.passSteps i (· + 1) }

/-- R112, R114: the slice after the present spare becomes the spare; the latest window, if one is complete, is
evaluated. -/
def rotationSt (l : Fin 2) (i : Fin 4) (w : Option SkewWindow) (s : State) : State :=
  let old := vget (vget s.conv l).spare i
  let s1 := modConv s l (fun C => rotate C i (elapsed s))
  match w with
  | none => s1
  | some w => evalWindow s1 l i old w

/-- R112 ROTATION_STEP. -/
def execRotationStep (line : Fin 2) (input : Fin 4) (window : Option SkewWindow) (s : State) :
    Host.Outcome State Fault Refusal := .next (rotationSt line input window s)

/-- R113: the spare's offset, gain and thresholds become its targets. -/
def spareSt (l : Fin 2) (i : Fin 4) (offset gain : Int) (th : List Int) (s : State) : State :=
  modConv s l (fun C =>
    let sl := vget C.spare i
    let C1 := setTarget (setTarget C (calKey i.val sl 1 0) offset) (calKey i.val sl 2 0) gain
    ((th.take 10).zipIdx).foldl (fun C x => setTarget C (calKey i.val sl 4 x.2) x.1) C1)

/-- R113 SPARE_MEASURE_DONE. -/
def execSpareMeasureDone (line : Fin 2) (input : Fin 4) (offset gain : Int) (thresholds : List Int) (s : State) :
    Host.Outcome State Fault Refusal := .next (spareSt line input offset gain thresholds s)

/-! ### References -/

/-- R135: CONVERTER_CONFIG of a line: REFSEL is SHARED. -/
def refShared (s : State) (l : Nat) : Bool :=
  match recBy s 0x040 l with | none => false | some p => wAt p 1 1 = 1

/-- R135: TRIG_K in mK, 2.0 K by default. -/
def trigK (s : State) (l : Nat) : Int :=
  match recBy s 0x040 l with
  | none => 2000
  | some p => let k := wAt p 3 1; ((if k = 0 then 20 else k : Nat) : Int) * 100

/-- R120: a line on SHARED falls back to INT. -/
def refFallbackSt (l : Fin 2) (s : State) : State :=
  if (vget s.conv l).shared then
    let s1 := raiseSettling (modConv s l (fun C => { C with shared := false })) l
    logEvent (setF s1 (cvStatusRefFallback l.val) 1) 0x017 (7 + l.val) 1 l.val 0
  else s

/-- R120 REF_FALLBACK. -/
def execRefFallback (line : Fin 2) (s : State) : Host.Outcome State Fault Refusal := .next (refFallbackSt line s)

/-- R121 REF_SETTLED: the reference is within 0.05 % of its settled value. -/
def execRefSettled (line : Fin 2) (s : State) : Host.Outcome State Fault Refusal :=
  .next (closeSpan (modConv s line (fun C => { C with settling := false })) line .settling 15)

/-! ### Temperature triggers and foreground calibration -/

/-- R122 PRIORITY_PASS_END: after 9 steps the rotation returns to ROT_STEP. -/
def execPriorityPassEnd (line : Fin 2) (input : Fin 4) (s : State) : Host.Outcome State Fault Refusal :=
  .next (whenB (bitOf (getF s (cvStatusPass line.val)) input.val && decide (9 ≤ vget (vget s.conv line).passSteps input))
    s (setMaskBit s (cvStatusPass line.val) input.val false))

/-- Housekeeping changed. -/
def modHk (s : State) (f : HkSt → HkSt) : State := { s with hk := f s.hk }

/-- R325, R326: M1 takes its next conversion: the frame's, then the urgent queue's. -/
def m1Take (s : State) : State :=
  match s.hk.frame, s.hk.urgent with
  | c :: t, _ => modHk s (fun h => { h with frame := t, m1Ch := c, m1Busy := true })
  | [], c :: t => modHk s (fun h => { h with urgent := t, m1Ch := c, m1Busy := true })
  | [], [] => modHk s (fun h => { h with m1Busy := false })

/-- R326: an urgent request: channels 5 to 31; dropped where the queue is full or already holds the channel. -/
def urgentSt (ch : Nat) (s : State) : State :=
  if 5 ≤ ch ∧ ch < 32 then
    if 4 ≤ s.hk.urgent.length ∨ s.hk.urgent.contains ch = true then bump s hkUrgentDropCount
    else
      let s1 := modHk s (fun h => { h with urgent := h.urgent ++ [ch] })
      if s.hk.m1Busy then s1 else m1Take s1
  else s

/-- R319, R326: Fieldbook asks for a reading of a line front end's die sensor as a calibration of its fast inputs starts. -/
def askFast (s : State) (l : Fin 2) : State := urgentSt (20 + l.val) (modConv s l (fun C => { C with askFast := true }))

/-- R319, R326: as `askFast`, of the Raman front end's die sensor. -/
def askRaman (s : State) (l : Fin 2) : State := urgentSt 22 (modConv s l (fun C => { C with askRaman := true }))

/-- R123: the next queued fast input is isolated, in input order, where none is; its temperature is the last reading, until the
one asked for comes (log entry 147). -/
def startFg (s : State) (l : Fin 2) : State :=
  let C := vget s.conv l
  if getF s (cvStatusFgBusy l.val) % 16 ≠ 0 ∨ C.fullCal = true then s
  else match (List.range 4).find? (fun i => C.fgQueue.contains i) with
    | none => s
    | some i =>
      let s1 := modConv s l (fun C =>
        { C with fgQueue := C.fgQueue.filter (fun j => j ≠ i), fgStart := (C.die.head?.map (·.2)).getD 0 })
      askFast (setBusy s1 l (getF s (cvStatusFgBusy l.val) ||| 2 ^ i)) l

/-- R125: after a reset, the inputs that it stopped or found queued are calibrated. -/
def resumeCal (s : State) (l : Fin 2) : State :=
  let s1 := startFg s l
  if (vget s1.conv l).ramanOwed && !(vget s1.conv l).fullCal then
    setF (modConv s1 l (fun C => { C with ramanOwed := false })) (cvCalStatusRamanFgPending l.val) 1
  else s1

/-- R122: an input is queued for foreground calibration; a priority pass on it stops. -/
def queueFg (s : State) (l : Fin 2) (i : Nat) : State :=
  let s1 := setMaskBit s (cvStatusPass l.val) i false
  if (vget s1.conv l).fgQueue.contains i || bitOf (getF s1 (cvStatusFgBusy l.val)) i then s1
  else startFg (modConv s1 l (fun C => { C with fgQueue := C.fgQueue ++ [i] })) l

/-- R122: a priority pass starts on a fast input. -/
def startPass (s : State) (l : Fin 2) (i : Fin 4) (reading : Int) : State :=
  setMaskBit (modConv s l (fun C =>
    { C with passSteps := vset C.passSteps i 0, passStart := vset C.passStart i reading }))
    (cvStatusPass l.val) i.val true

/-- R122: a die reading of the line front end's island against CV_CAL_TEMP of the fast inputs. DESIGN CHOICE (log entry 139): for an
input that is isolated at the reading no pass starts, and it is not queued again: its calibration under way takes the
temperature of its own start. -/
def convDie (s : State) (l : Fin 2) (mk : Int) : State :=
  let s0 := modConv s l (fun C =>
    { C with die := ((elapsed s, mk) :: C.die).take 2, fgStart := if C.askFast then mk else C.fgStart, askFast := false })
  (List.finRange 4).foldl (fun s i =>
    let move := (mk - getFS s (cvCalTempTemp l.val i.val)).natAbs
    if 8000 < move then queueFg s l i.val
    else if trigK s l.val < move ∧ bitOf (getF s (cvStatusPass l.val)) i.val = false
        ∧ bitOf (getF s (cvCalStatusNotConv l.val)) i.val = false
        ∧ bitOf (getF s (cvStatusFgBusy l.val)) i.val = false ∧ (vget s.conv l).fgQueue.contains i.val = false then
      startPass s l i mk
    else s) s0

/-- R122, R129: a die reading of the Raman front end's island against the Raman inputs of a line. -/
def convDieRaman (s : State) (l : Fin 2) (mk : Int) : State :=
  let s0 := modConv s l (fun C =>
    { C with dieRaman := some mk, fgStartRaman := if C.askRaman then mk else C.fgStartRaman, askRaman := false })
  if [4, 5].any (fun i => decide (trigK s l.val < (mk - getFS s (cvCalTempTemp l.val i)).natAbs))
      && !(vget s.conv l).ramanFg then
    setF s0 (cvCalStatusRamanFgPending l.val) 1
  else s0

/-- Correction values written directly for the inputs that pass the test. -/
def writeCals (s : State) (l : Fin 2) (p : Nat → Bool) (values : List CalVal) : State :=
  modConv s l (fun C => (values.filter (fun v => p v.input)).foldl (fun C v =>
    setApplied C (calKey v.input v.slice v.kind v.comp) v.value) C)

/-- R123: the isolated fast input is done; the next one follows. -/
def fgInputSt (l : Fin 2) (i : Fin 4) (values : List CalVal) (s : State) : State :=
  if bitOf (getF s (cvStatusFgBusy l.val)) i.val && !(vget s.conv l).fullCal then
    let s1 := writeCals s l (fun j => j = i.val) values
    let s2 := setFS s1 (cvCalTempTemp l.val i.val) (vget s.conv l).fgStart
    let s3 := setMaskBit s2 (cvCalStatusNotConv l.val) i.val false
    startFg (setBusy s3 l (bitsPut (getF s3 (cvStatusFgBusy l.val)) i.val i.val 0)) l
  else s

/-- R123 FG_CAL_INPUT_DONE. -/
def execFgCalInputDone (line : Fin 2) (input : Fin 4) (values : List CalVal) (s : State) :
    Host.Outcome State Fault Refusal := .next (fgInputSt line input values s)

/-- R124: a full foreground calibration starts on all six inputs of a line. -/
def startFullCal (s : State) (l : Fin 2) : State :=
  let s1 := modConv s l (fun C =>
    { C with fullCal := true, fgQueue := [], ramanFg := false, ramanForce := false, ramanOwed := false,
             fgStart := (C.die.head?.map (·.2)).getD 0, fgStartRaman := C.dieRaman.getD ((C.die.head?.map (·.2)).getD 0) })
  askRaman (askFast (setF (setBusy s1 l 63) (cvStatusPass l.val) 0) l) l

/-- R130: a measured PGA gain; range 0 is 1.0 exactly. -/
def setPgaGain (s : State) (l n r g : Nat) : State :=
  setF s (cvPgaGainGain l (4 * n + r)) (if r = 0 then 65536 else g)

/-- R124, R130: the full calibration's results: every correction, the gains of both Raman inputs, CV_CAL_TEMP. -/
def fullCalSt (l : Fin 2) (values : List CalVal) (gains : List Nat) (s : State) : State :=
  let C := vget s.conv l
  let s1 := writeCals s l (fun _ => true) values
  let s2 := (List.range 6).foldl (fun s i =>
    setFS s (cvCalTempTemp l.val i) (if i < 4 then C.fgStart else C.fgStartRaman)) s1
  let s3 := (List.range 8).foldl (fun s k => setPgaGain s l.val (k / 4) (k % 4) (lget 65536 gains k)) s2
  let s4 := setF (setBusy (setF s3 (cvCalStatusNotConv l.val) 0) l 0) (cvCalStatusRamanFgPending l.val) 0
  modConv s4 l (fun C => { C with fullCal := false })

/-- R129: AS and ST are isolated together. -/
def startRamanFg (s : State) (l : Fin 2) : State :=
  let C := vget s.conv l
  let s1 := modConv s l (fun C => { C with ramanFg := true, ramanForce := false, fgStartRaman := C.dieRaman.getD 0 })
  askRaman (setBusy (setF s1 (cvCalStatusRamanFgPending l.val) 0) l (getF s (cvStatusFgBusy l.val) ||| 48 * b2n (!C.fullCal))) l

/-- R129 RAMAN_FG_CAL_START: an interval of at least 1.2 ms between captures. -/
def execRamanFgCalStart (line : Fin 2) (s : State) : Host.Outcome State Fault Refusal :=
  .next (whenB (isSet s (cvCalStatusRamanFgPending line.val) && !(vget s.conv line).inWindow) s (startRamanFg s line))

/-- R129 RAMAN_FG_CAL_FORCE: no such interval within 1 s; the calibration proceeds at the next capture window end. -/
def execRamanFgCalForce (line : Fin 2) (s : State) : Host.Outcome State Fault Refusal :=
  .next (whenB (isSet s (cvCalStatusRamanFgPending line.val)) s
    (modConv s line (fun C => { C with ramanForce := true })))

/-- R129: AS and ST are calibrated; the gains of their present ranges are remeasured. -/
def ramanFgDoneSt (l : Fin 2) (values : List CalVal) (gains : List Nat) (s : State) : State :=
  let C := vget s.conv l
  if C.ramanFg then
    let s1 := writeCals s l (fun i => decide (4 ≤ i)) values
    let s2 := [4, 5].foldl (fun s i => setFS s (cvCalTempTemp l.val i) C.fgStartRaman) s1
    let s3 := [0, 1].foldl (fun s n => setPgaGain s l.val n (lget 0 C.range.toList n) (lget 65536 gains n)) s2
    let s4 := setBusy s3 l (getF s3 (cvStatusFgBusy l.val) % 16)
    modConv s4 l (fun C => { C with ramanFg := false })
  else s

/-- R129 RAMAN_FG_CAL_DONE. -/
def execRamanFgCalDone (line : Fin 2) (values : List CalVal) (gains : List Nat) (s : State) :
    Host.Outcome State Fault Refusal := .next (ramanFgDoneSt line values gains s)

/-! ### Over-range -/

/-- One Raman sample, 3.125 ns, in units of 2^-20 ns. -/
def raSample : Nat := 3276800

/-- R126, R127, R133: an input over-ranges for `length` samples, `gap` samples after its last OVR sample. -/
def overRangeSt (l : Fin 2) (i : Fin 6) (length gap : Nat) (s : State) : State :=
  if bitOf (getF s (cvStatusFgBusy l.val)) i.val then s
  else
    let u := if i.val < 4 then faSample else raSample
    let now := elapsed s
    let s0 := modConv s l (fun C =>
      { C with ovrUntil := Vector.ofFn (fun j : Fin 6 =>
          let old := vget C.ovrUntil j
          if j = i then max old (now + (length + 2) * u)
          else if i.val < 4 ∧ j.val < 4 then max old (now + (length + 6) * u)
          else old) })
    let own := addSpan s0 l { why := .ovr, mask := 2 ^ i.val, from_ := now, to_ := some (now + (length + 2) * u) }
    let s1 := if i.val < 4 then
        addSpan own l { why := .ovr, mask := 15 - 2 ^ i.val, from_ := now, to_ := some (now + (length + 6) * u) }
      else own
    if 8 ≤ gap then bump s1 (cvOvrCountCount l.val i.val) else s1

/-- R126 OVER_RANGE. -/
def execOverRange (line : Fin 2) (input : Fin 6) (length gap : Nat) (s : State) : Host.Outcome State Fault Refusal :=
  .next (overRangeSt line input length gap s)

/-! ### Raman inputs -/

/-- R128: the offset targets of a Raman input's four slices move by 1/16 of the difference of each slice's mean of 64
corrected dark samples from the mean of all: from the 256 dark samples before the trigger, slice n mod 4. -/
def ramanOffsets (C : Conv) (input : Nat) (dark : List Int) : Conv :=
  let sums := (List.range 4).map (fun k => sumI (((dark.take 256).zipIdx).filterMap (fun x =>
    if x.2 % 4 = k then some x.1 else none)))
  let total := sumI sums
  (List.range 4).foldl (fun C k =>
    let key := calKey input k 1 0
    setTarget C key (calTarget C key + (4 * lget 0 sums k - total) / 64)) C

/-- R135 RAMAN_INPUT of a line and input: automatic mode and the plan's range. -/
def ramanInputCfg (s : State) (l n : Nat) : Bool × Nat :=
  match recBy2 s 0x041 l n with
  | none => (false, 0)
  | some p => (decide (wAt p 2 1 = 1), wAt p 3 1 % 4)

/-- R131: a range change requested; within a capture window it is deferred. A commanded one is not replaced by an
automatic one. -/
def requestRange (s : State) (l : Fin 2) (n : Fin 2) (r : Nat) (auto : Bool) : State :=
  modConv s l (fun C =>
    match vget C.deferred n with
    | some (_, false) => if auto then C else { C with deferred := vset C.deferred n (some (r, auto)) }
    | _ => { C with deferred := vset C.deferred n (some (r, auto)) })

/-- R131: a deferred change takes effect: the range, the counter, RANGE_CHANGED and the automatic window restart. -/
def applyRange (s : State) (l : Fin 2) (n : Fin 2) : State :=
  let C := vget s.conv l
  match vget C.deferred n with
  | none => s
  | some (r, _) =>
    let s1 := modConv s l (fun C =>
      { C with deferred := vset C.deferred n none, range := vset C.range n r,
               hist := vset C.hist n [], changed := vset C.changed n (vget C.changed n || decide (r ≠ vget C.range n)) })
    if r = vget C.range n then s1 else bump s1 (cvPgaChanges l.val)

/-- R131, R490: a capture window ends: deferred range changes and APD codes take effect. -/
def closeWindow (s : State) (l : Fin 2) : State :=
  modConv (applyRange (applyRange s l 0) l 1) l (fun C =>
    match C.apdPend with
    | none => { C with inWindow := false }
    | some w => { C with inWindow := false, apdPend := none, apdCode := w, changed := Vector.replicate 2 true })

/-- R132: after a capture, the decision over the 16 most recent captures at the present range. -/
def autoRange (s : State) (l : Fin 2) (n : Fin 2) (ovr : Bool) (peak : Nat) : State :=
  let s1 := modConv s l (fun C => { C with hist := vset C.hist n (((ovr, peak) :: vget C.hist n).take 16) })
  let C := vget s1.conv l
  let h := vget C.hist n
  let r := vget C.range n
  if (ramanInputCfg s l.val n.val).1 = false ∨ h.length < 16 then s1
  else if h.any (fun x => x.1 || decide (480 ≤ x.2)) then
    (if 0 < r then requestRange s1 l n (r - 1) true else s1)
  else if h.all (fun x => decide (x.2 < 224)) && decide (r < 3) then requestRange s1 l n (r + 1) true
  else s1

/-! ### What other events do to calibration -/

/-- R125: a LINE reset, standby or loss of SCS lock: running calibrations and passes stop and their partial results are
discarded; the inputs are queued again (`requeue`) or await a full calibration. -/
def convStop (s : State) (l : Fin 2) (requeue : Bool) : State :=
  let busy := (getF s (cvStatusFgBusy l.val) ||| getF s (cvStatusPass l.val)) % 16
  let raman := (vget s.conv l).ramanFg || isSet s (cvCalStatusRamanFgPending l.val)
  let s1 := modConv s l (fun C =>
    { C with
      fgQueue := if requeue then (C.fgQueue ++ maskBits 4 busy).eraseDups else [], fullCal := false,
      ramanFg := false, ramanForce := false, ramanOwed := requeue && (raman || C.ramanOwed) })
  setF (setF (setBusy s1 l 0) (cvStatusPass l.val) 0) (cvCalStatusRamanFgPending l.val) 0

/-- R112: slice 8 is the spare of every fast input after POR, COLD reset and exit from standby. -/
def resetSpare (C : Conv) : Conv :=
  { C with spare := Vector.replicate 4 8, order := Vector.replicate 4 (List.range 8), rotAt := Vector.replicate 4 0 }

end Sys2Proof.Machine
end

