-- ==== Sys2Proof/Machine/Pce.lean ====
section
/-! DEFINITION. Channeliser and pulse compression (spec R137 to R153): DC cancellation, the matched filter, the launch
delay measurement, the station marks, the fibre-break blocks and the delivery of traces to the lanes. -/

namespace Sys2Proof.Machine
open Sys2Proof

/-- R154 CHANNELISER of a line: flags. -/
def chanFlags (s : State) (l : Nat) : Nat := match recBy s 0x060 l with | none => 0 | some p => wAt p 1 1

/-- R146: n_g × 2^16 of a line. -/
def groupIndex (s : State) (l : Nat) : Nat :=
  match recBy s 0x060 l with
  | none => 96221
  | some p => let n := wAt p 2 2; if n = 0 then 96221 else n

/-- R154 LAUNCH_REF of a line. -/
structure LaunchRef where
  mode : Nat
  delay : Nat
  dRef : Nat
  start : Nat
  len : Nat
  floor : Int
  avgN : Nat
  deriving DecidableEq, Repr

/-- The line's LAUNCH_REF record. -/
def launchRef (s : State) (l : Nat) : Option LaunchRef :=
  (recBy s 0x061 l).map (fun p =>
    { mode := wAt p 1 1, delay := wAt p 2 2, dRef := wAt p 4 2, start := wAt p 6 2, len := wAt p 8 2,
      floor := wAtS p 10 1, avgN := if wAt p 11 2 = 0 then 256 else wAt p 11 2 })

/-! ### DC cancellation -/

/-- R138: the canceller's estimate after one sample. -/
def dcStep (m x : Int) (frozen : Bool) : Int := if frozen then m else m + Int.tdiv (x * 65536 - m) 65536

/-- R138: the estimates after each sample of a stretch, each sample with whether it freezes the canceller. -/
def dcEstimates : Int → List (Int × Bool) → List Int
  | _, [] => []
  | m, (x, fr) :: t => let m1 := dcStep m x fr; m1 :: dcEstimates m1 t

/-- R138: the estimates over a component's samples from number `first` on. The canceller takes one step per input sample, so where
a delivered trace already took it over some of them, those steps stand. Samples that no trace holds have moved it too: after a
gap the estimate is a free value, `gap` (log entry 140). -/
def dcOver (R : DcRun) (first : Nat) (gap : Int) (xs : List (Int × Bool)) : List Int :=
  if R.first ≤ first ∧ first ≤ R.first + R.est.length ∧ R.est ≠ [] then
    let known := (R.est.drop (first - R.first)).take xs.length
    known ++ dcEstimates (if known.isEmpty then R.est.getLast?.getD 0 else known.getLast?.getD 0) (xs.drop known.length)
  else dcEstimates gap xs

/-- R138: a cancelled sample with its 4 fraction bits. -/
def dcOut (off : Bool) (x m : Int) : Int := if off then x * 16 else fitW 14 (x * 16 - roundEven m 4096)

/-- R138: the stretch the canceller has run over once these estimates stand; an earlier one leaves it as it is. -/
def dcNote (R : DcRun) (first : Nat) (est : List Int) : DcRun :=
  if first < R.first ∨ first + est.length ≤ R.first + R.est.length then R else { first := first, est := est }

/-! ### Marks -/

/-- R150: group sample j of a slot of width g carries a mark: an input sample within 30 ns of its instant is marked. -/
def groupMarked (marks : List Nat) (g j : Nat) : Bool :=
  marks.any (fun n => decide ((128 * (j : Int) - 5 * (g : Int) * (n : Int)).natAbs ≤ 384 * g))

/-- The indexes of the samples that carry a mark. -/
def marksOf (xs : List Bool) : List Nat := (xs.zipIdx.filter (fun x => x.1)).map (·.2)

/-- R150: some group sample of a window carries a mark. -/
def windowMarked (marks : List Nat) (g first n : Nat) : Bool :=
  (List.range n).any (fun i => groupMarked marks g (first + i))

/-! ### The matched filter -/

/-- R143: SHIFT. -/
def pceShift (len : Nat) : Nat := 5 + ceilLog2 len

/-- R143: one output component and whether it saturated: a free whole number that differs from z / 2^sh by at most 2, limited. -/
def pceOut (draw st k : Nat) (z : Int) (sh : Nat) : Int × Bool :=
  let lo := -(-z / (2 : Int) ^ sh) - 2
  let hi := z / (2 : Int) ^ sh + 2
  let y := lo + ((Config.pceError draw (2 * st + k) sh % ((hi - lo).toNat + 1) : Nat) : Int)
  (clampI (-524287) 524287 y, decide (524287 < y.natAbs))

/-- R106: a station of a slot of width g lies at or beyond the active break station, which counts in the monitor
slot's stations. -/
def beyondBreak (s : State) (l g st : Nat) : Bool :=
  isSet s (psBreakActive l) &&
    (match breakMonitor s l with
     | none => false
     | some b => decide (getF s (psBreakStation l) * g ≤ st * b.g))

/-! ### Fibre break blocks -/

/-- R144, R148: v / n compares below 2^38 · 10^(f/160) · pct/100, f in 1/16 dB. -/
def belowFloor (v n : Nat) (f : Int) (pct : Nat) : Bool :=
  decide ((100 * v) ^ 160 * 10 ^ (-f).toNat < (n * 2 ^ 38 * pct) ^ 160 * 10 ^ f.toNat)

/-- R148: v / n lies above 2^38 · 10^(f/160). -/
def aboveFloor (v n : Nat) (f : Int) : Bool :=
  decide ((n * 2 ^ 38) ^ 160 * 10 ^ f.toNat < v ^ 160 * 10 ^ (-f).toNat)

/-- R103: the break station of a launch from the power of each 64-station block. DESIGN CHOICE (log entry 141): the mean of a block
is taken over both polarisations together, their powers summed and divided by twice the number of stations. -/
def breakStation (s : State) (l : Nat) (n : Nat) (blocks : List Nat) : Option Nat :=
  match recBy s 0x025 l with
  | none => none
  | some p =>
    let last := min (wAt p 1 2) (n - 1) / 64
    let pct := if isSet s (psStatusApr l) then aprLevel s l else 100
    let below (k : Nat) : Bool := belowFloor (lget 0 blocks k) (2 * min 64 (n - 64 * k)) (wAtS p 3 1) pct
    if n = 0 then none
    else
      let first := (List.range (last + 1)).foldl (fun a k => if below k then a else k + 1) 0
      if first ≤ last then some (64 * first) else none

/-- R103, R104, R105: the run of monitor launches after one more launch with or without a break station. -/
def noteBreak (P : Probe) (b : Option Nat) : Probe :=
  match b with
  | none => { P with breakRun := [], noBreakRun := min 8 (P.noBreakRun + 1) }
  | some st => { P with breakRun := (P.breakRun ++ [st]).drop (P.breakRun.length - 7), noBreakRun := 0 }

/-! ### Requests to the lanes -/

/-- R92, R157: the distinct offsets of a line's DAS slots, lowest first: its DAS groups in order. -/
def dasOffsets (s : State) (l : Nat) : List Nat :=
  (((slotsOf s l).filter isDas).map (fun c => c.d)).mergeSort.eraseDups

/-- R224: a refused request is counted. -/
def refuseReq (s : State) (t : Fin 8) : State :=
  bump (modTrav s t (fun T => { T with refused := T.refused + 1 })) (trDropCount t.val)

/-- R157: the requests of a queue with one more, in the order of launch time; it stays behind those of its own time. -/
def insertFg (q : List ShotReq) (r : ShotReq) : List ShotReq :=
  q.filter (fun x => decide (x.stamp ≤ r.stamp)) ++ [r] ++ q.filter (fun x => decide (r.stamp < x.stamp))

/-- R222, R224: a foreground request reaches a traverse; the answer says whether it was taken. -/
def requestFg (s : State) (t : Fin 8) (r : ShotReq) (group : Option Nat) : State × Bool :=
  if 64 ≤ (vget s.trav t).fg.length then
    (modTrav (refuseReq s t) t (fun T =>
      { T with heldNext := match group with | none => T.heldNext | some g => if T.heldNext.contains g then T.heldNext else T.heldNext ++ [g] }), false)
  else
    let s1 := modTrav s t (fun T => { T with fg := insertFg T.fg r })
    (setF s1 (trQueueFgMax t.val) (max (getF s1 (trQueueFgMax t.val)) (vget s1.trav t).fg.length), true)

/-- R222: the first trace of a launch instant asks every traverse of the line for a shot pass; the answer is the mask of
traverses that will work on it. -/
def requestShot (s : State) (l : Fin 2) (stamp offset : Nat) : State × Nat :=
  let g := (dasOffsets s l.val).idxOf? offset
  (lineTravs s l.val).foldl (fun a t =>
    let (s1, ok) := requestFg a.1 t { line := l.val, stamp := stamp } g
    (s1, if ok then a.2 ||| 2 ^ t.val else a.2)) (s, 0)

/-! ### Delivery -/

/-- The first launch of a slot whose trace of a polarisation is due. -/
def dueLaunch (P : Probe) (k pol : Nat) : Option Launch :=
  P.launches.find? (fun x => x.slot = k && bitOf x.due pol)

/-- R148: the units of a group sample of width g. -/
def unitsPer (g : Nat) : Nat := 256 / max g 1

/-- The elapsed time of a launch's input sample n. -/
def sampleTime (L : Launch) (n : Nat) : Nat := L.at_ + n * faSample

/-- R112, R117, R126: one fast input's codes of a launch, each with its OVR mark, from its SAR results. -/
def inputCodes (C : Conv) (l : Nat) (i : Fin 4) (L : Launch) (xs : List Int) : List (Int × Bool) :=
  correctInput C i.val (xs.zipIdx.map (fun x => (x.1, sliceAt C l i (sampleTime L x.2), sampleOvr C i.val (sampleTime L x.2))))

/-- R121, R123: which of a fast input's samples of a launch make stations STALE. -/
def inputStale (C : Conv) (i : Fin 4) (L : Launch) (n : Nat) : List Bool :=
  (List.range n).map (fun k => sampleStale C i.val (sampleTime L k))

/-- The I and the Q input of a polarisation. -/
def polInput (pol : Fin 2) (q : Fin 2) : Fin 4 := ⟨2 * pol.val + q.val, by omega⟩

/-- R138: the cancelled samples of one input, and the line with its estimate moved on. -/
def cancelInput (s : State) (l : Fin 2) (i : Fin 4) (L : Launch) (codes : List (Int × Bool)) (stale : List Bool) :
    List Int × State :=
  let off := bitOf (chanFlags s l.val) 2
  let (v, s1) := draw s
  let first := L.at_ / faSample
  let R := vget (vget s.pce l).dcRun i
  let est := dcOver R first (((v % (2 ^ 26) : Nat) : Int) - 2 ^ 25) ((codes.zip stale).map (fun x => (x.1.1, x.1.2 || x.2)))
  let R1 := dcNote R first est
  ((codes.zip est).map (fun x => dcOut off x.1.1 x.2),
   if off then s1
   else modPce s1 l (fun c => { c with dcRun := vset c.dcRun i R1, dc := vset c.dc i (R1.est.getLast?.getD (vget c.dc i)) }))

/-- R137, R138: the cancelled complex samples of a polarisation, and the state with its two DC estimates moved on. -/
def cancelled (s : State) (l : Fin 2) (pol : Fin 2) (L : Launch) (ci cq : List (Int × Bool)) (si sq : List Bool) :
    List (Int × Int) × State :=
  let (xi, s1) := cancelInput s l (polInput pol 0) L ci si
  let (xq, s2) := cancelInput s1 l (polInput pol 1) L cq sq
  (if bitOf (chanFlags s l.val) pol.val then xq.zip xi else xi.zip xq, s2)

/-- R143, R150: the stations of a trace with the number of components that saturated; `own` are the group samples that saturated on
their way. -/
def stationsOf (s : State) (l : Fin 2) (L : Launch) (xs : List (Int × Int)) (ovr own stale : List Nat) (n : Nat) :
    List TraceStation × Nat :=
  let per := unitsPer L.g
  let n0 := L.delay / per
  let rem := L.delay % per
  let ref := alignRef L.href rem per
  let win := ref.length
  let shift := pceShift L.href.length + refBits
  let outs := (List.range n).map (fun st =>
    let (zi, zq) := correlate xs ref (n0 + st)
    let (yi, a) := pceOut s.freeCtr st 0 zi shift
    let (yq, b) := pceOut s.freeCtr st 1 zq shift
    let sat := own.any (fun j => decide (n0 + st ≤ j ∧ j < n0 + st + win))
    (({ re := yi, im := yq, clipped := a || b || sat || windowMarked ovr L.g (n0 + st) win,
        stale := windowMarked stale L.g (n0 + st) win, beyond := beyondBreak s l.val L.g st } : TraceStation),
     b2n a + b2n b))
  (outs.map (·.1), sumN (outs.map (·.2)))

/-- R103: the power of a trace in blocks of 64 stations. -/
def blockPowers (st : List TraceStation) : List Nat :=
  (List.range (ceilDiv st.length 64)).map (fun k =>
    sumN (((st.drop (64 * k)).take 64).map (fun x => x.re.natAbs ^ 2 + x.im.natAbs ^ 2)))

/-- Element-wise sum of two lists, the shorter one extended with zeros. -/
def addLists : List Nat → List Nat → List Nat
  | [], b => b
  | a, [] => a
  | x :: a, y :: b => (x + y) :: addLists a b

/-- R148: the calibration correlator on one polarisation: |y|² over the search window, and whether an OVR mark or a saturation
meets the window. It evaluates the slot's own matched filter from SEARCH_START on, whatever the live alignment. -/
def calTrace (s : State) (l : Nat) (L : Launch) (xs : List (Int × Int)) (ovr own : List Nat) : List Nat × Bool :=
  match launchRef s l with
  | none => ([], false)
  | some r =>
    let per := unitsPer L.g
    let n0 := r.start / per
    let ref := alignRef L.href (r.start % per) per
    let sh := pceShift L.href.length + refBits
    let ys := (List.range r.len).map (fun p =>
      let (zi, zq) := correlate xs ref (n0 + p)
      (roundEven zi (2 ^ sh), roundEven zq (2 ^ sh)))
    let win := r.len + ref.length
    (ys.map (fun y => (satS 20 y.1).natAbs ^ 2 + (satS 20 y.2).natAbs ^ 2),
     ys.any (fun y => decide (524287 < y.1.natAbs ∨ 524287 < y.2.natAbs)) || windowMarked ovr L.g n0 win
       || own.any (fun j => decide (n0 ≤ j ∧ j < n0 + win)))

/-- R148: the launch with what the calibration correlator found on one polarisation while a measurement runs. -/
def noteCal (s : State) (l : Fin 2) (L : Launch) (xs : List (Int × Int)) (ovr own : List Nat) : Launch :=
  match breakMonitor s l.val with
  | none => L
  | some b =>
    if (vget s.pce l).measuring && decide (b.slot = L.slot) then
      let (p, m) := calTrace s l.val L xs ovr own
      { L with cal := addLists L.cal p, marked := L.marked || m }
    else L

/-- R103, R148, R149: a launch of the monitor slot whose two traces have come. -/
def monitorDone (s : State) (l : Fin 2) (L : Launch) (n : Nat) : State :=
  match breakMonitor s l.val, launchRef s l.val with
  | some b, r =>
    if b.slot ≠ L.slot ∨ L.dark = true then s
    else
      let s1 := modProbe s l (fun P => noteBreak P (breakStation s l.val n L.pow))
      let c := vget s1.pce l
      if c.measuring && !L.marked && decide (c.collected < (match r with | none => 0 | some r => r.avgN)) then
        modPce s1 l (fun c => { c with collected := c.collected + 1, sums := addLists c.sums L.cal })
      else s1
  | none, _ => s

/-- R145, R151: a trace joins those that wait for the lanes; the first of its launch instant asks for the passes. -/
def queueTrace (s : State) (l : Fin 2) (offset : Nat) (tr : Trace) : State :=
  match (vget s.pce l).traces.find? (fun x => x.tr.stamp = tr.stamp) with
  | some x => modPce s l (fun c => { c with traces := c.traces ++ [{ tr := tr, due := x.due, diff := none }] })
  | none =>
    let (s1, mask) := requestShot s l tr.stamp offset
    modPce s1 l (fun c => { c with traces := c.traces.filter (fun x => x.due ≠ 0) ++ [{ tr := tr, due := mask, diff := none }] })

/-- R164: a DARK trace of a DAS slot sets DA_NOISE.MEAS to the level of its mean power as it arrives. -/
def noteNoise (s : State) (l : Nat) (tr : Trace) : State :=
  if tr.dark && decide (tr.kind ≠ 3) then
    let p := sumN (tr.stations.map (fun x => x.re.natAbs ^ 2 + x.im.natAbs ^ 2))
    let n := tr.stations.length
    setF s (daNoiseMeas l) (levelRat (max p n) (n * 2 ^ 38))
  else s

/-- R145: the PCE delivers one branch trace of the slot's oldest launch whose trace is due. -/
def traceSt (l : Fin 2) (k : Fin 16) (pol : Fin 2) (xs : List IQ) (s0 : State) : State :=
  match dueLaunch (vget s0.probe l) k.val pol.val with
  | none => s0
  | some L =>
    let s0 := dacFinish s0 l L.stamp
    let L := ((vget s0.probe l).launches.find? (fun x => x.slot = L.slot && x.stamp = L.stamp)).getD L
    let C := vget s0.conv l
    let ci := inputCodes C l.val (polInput pol 0) L (xs.map (·.i))
    let cq := inputCodes C l.val (polInput pol 1) L (xs.map (·.q))
    let si := inputStale C (polInput pol 0) L xs.length
    let sq := inputStale C (polInput pol 1) L xs.length
    let (cx, s1) := cancelled s0 l pol L ci cq si sq
    let grp := channelise cx L.k0 L.g
    let sat0 := sumN (grp.map (fun x => x.2.2))
    let ovr := marksOf ((ci.zip cq).map (fun x => x.1.2 || x.2.2))
    let stale := marksOf ((si.zip sq).map (fun x => x.1 || x.2))
    let own := marksOf (grp.map (fun x => decide (0 < x.2.2)))
    let gs := grp.map (fun x => (x.1, x.2.1))
    let n := rangeRt s0 l.val * L.g
    let (st, sat) := stationsOf s1 l L gs ovr own stale n
    let L1 := noteCal s1 l { L with due := bitsPut L.due pol.val pol.val 0, pow := addLists L.pow (blockPowers st) } gs ovr own
    let s2 := bumpBy { s1 with freeCtr := s1.freeCtr + 1 } (pcSatCount l.val) (sat0 + sat)
    let s3 := if st.any (fun x => x.clipped) then bump s2 (pcClipCount l.val) else s2
    let s4 := modProbe s3 l (fun P => { P with launches := P.launches.filterMap (fun x =>
      if x.slot = L.slot ∧ x.stamp = L.stamp then (if L1.due = 0 then none else some L1) else some x) })
    let s5 := if L1.due = 0 then monitorDone s4 l L1 n else s4
    let offset := ((slotAt s0 l.val k.val).map (fun c => c.d)).getD 0
    let tr : Trace :=
      { slot := L.slot, pol := pol.val, kind := L.kind, point := L.point, stamp := L.stamp, dark := L.dark, gap := L.gap,
        rephased := L.rephased, apr := L.apr, realigned := L.realigned,
        fresh := L.fresh, era := L.era, m := L.m, epochs := L.epochs, stations := st }
    queueTrace (noteNoise s5 l.val tr) l offset tr

/-- R145 TRACE_DELIVER. -/
def execTraceDeliver (line : Fin 2) (slot : Fin 16) (pol : Fin 2) (samples : List IQ) (s : State) :
    Host.Outcome State Fault Refusal := .next (traceSt line slot pol samples s)

/-! ### The launch delay measurement -/

/-- R148: a measurement starts in mode 1, unless one runs. -/
def startMeasure (s : State) (l : Fin 2) : State :=
  match launchRef s l.val with
  | none => s
  | some r =>
    if r.mode = 1 ∧ (vget s.pce l).measuring = false then
      modPce s l (fun c => { c with measuring := true, collected := 0, points := 0, sums := [] })
    else s

/-- R148 RECAL. -/
def execRecal (line : Fin 2) (s : State) : Host.Outcome State Fault Refusal := .next (startMeasure s line)

/-- R149: a failed measurement. -/
def failMeasure (s : State) (l : Fin 2) (why : Nat) : State :=
  logEvent (setF (modPce s l (fun c => { c with measuring := false })) (pcStatusCalFail l.val) 1)
    0x018 (7 + l.val) 1 l.val why

/-- R148: the index of the first largest value of a list. -/
def peakIndex (xs : List Nat) : Nat :=
  (xs.zipIdx.foldl (fun b x => if b.1 < x.1 then x else b) (lget 0 xs 0, 0)).2

/-- R148: the position of the peak in units of 39.0625 ps from the window's start, refined by the parabola through the
peak and its neighbours; at the window's edge, where a neighbour is missing, the refinement is a free value. -/
def peakUnits (s : State) (xs : List Nat) (per : Nat) : Int :=
  let p := peakIndex xs
  if p = 0 ∨ xs.length ≤ p + 1 then
    ((p * per : Nat) : Int) + ((Config.freeNat s.freeCtr % (per + 1) : Nat) : Int) - ((per / 2 : Nat) : Int)
  else
    let a : Int := lget 0 xs (p - 1)
    let b : Int := lget 0 xs p
    let c : Int := lget 0 xs (p + 1)
    let den := 2 * (2 * b - a - c)
    if den = 0 then ((p * per : Nat) : Int)
    else roundAway (((p * per : Nat) : Int) * den + (c - a) * (per : Int)) den.toNat

/-- R148: 2·d_ref / v_g in units of 39.0625 ps, rounded to nearest. -/
def refUnits (s : State) (l : Nat) (dRef : Nat) : Int :=
  roundAway ((2 * dRef * groupIndex s l * 10 ^ 13 : Nat) : Int) (65536 * 299792458 * 390625)

/-- R148, R149: the averages are complete: the result, or a failure. -/
def measureDoneSt (l : Fin 2) (s : State) : State :=
  match launchRef s l.val, breakMonitor s l.val with
  | some r, some b =>
    let c := vget s.pce l
    if c.measuring = false ∨ c.collected < r.avgN then s
    else
      let avg := c.sums
      let top := lget 0 avg (peakIndex avg)
      let t := (r.start : Int) + peakUnits s avg (unitsPer b.g)
      let res := t - refUnits s l.val r.dRef
      let s0 := { s with freeCtr := s.freeCtr + 1 }
      if !(aboveFloor top r.avgN r.floor) then failMeasure s0 l 1
      else if res < 0 ∨ 1048575 < res then failMeasure s0 l 2
      else
        let s1 := setF (modPce s0 l (fun c => { c with measuring := false })) (pcLaunchMeasDelay l.val) res.toNat
        bookFence s1 (2 ^ (7 + l.val)) (.measured l res.toNat)
  | _, _ => s

/-- R148 LAUNCH_MEASURE_DONE. -/
def execLaunchMeasureDone (line : Fin 2) (s : State) : Host.Outcome State Fault Refusal :=
  .next (measureDoneSt line s)

/-- R149: AVG_N usable launches were not collected within 4 × AVG_N schedule points of the monitor slot. -/
def measureTimeoutSt (l : Fin 2) (s : State) : State :=
  match launchRef s l.val with
  | none => s
  | some r =>
    let c := vget s.pce l
    if c.measuring && decide (4 * r.avgN ≤ c.points) && decide (c.collected < r.avgN) then failMeasure s l 3 else s

/-- R149 LAUNCH_MEASURE_TIMEOUT. -/
def execLaunchMeasureTimeout (line : Fin 2) (s : State) : Host.Outcome State Fault Refusal :=
  .next (measureTimeoutSt line s)

/-- R149, R152: a new LAUNCH_DELAY or n_g applies: every slot's next launch carries REALIGNED. -/
def realign (s : State) (l : Fin 2) : State := modProbe s l (fun P => { P with realNext := 65535 })

/-- R149: a measured delay becomes the applied one at the completion of its fence. -/
def applyMeasured (s : State) (l : Fin 2) : State :=
  match (vget s.pce l).pend with
  | none => s
  | some v => realign (modPce s l (fun c => { c with delay := v, pend := none })) l

/-- R152, R155: the pipelines are emptied: traces and DC estimates go, a running measurement stops; `again` says whether it
restarts. -/
def pceEmpty (s : State) (l : Fin 2) (again : Bool) : State :=
  modPce s l (fun c =>
    { c with dc := Pce.zero.dc, dcRun := Pce.zero.dcRun, measuring := false, collected := 0, points := 0, sums := [],
             again := again && (c.measuring || c.again), traces := [] })

/-- R152: a LINE reset. -/
def pceLineReset (s : State) (l : Fin 2) : State := pceEmpty s l true

/-- R155: a WARM reset or standby. -/
def pceStop (s : State) (l : Fin 2) : State := pceEmpty s l false

/-- R152: a measurement that a LINE reset abandoned restarts after it. -/
def remeasure (s : State) (l : Fin 2) : State :=
  if (vget s.pce l).again then startMeasure (modPce s l (fun c => { c with again := false })) l else s

end Sys2Proof.Machine
end

