-- ==== Sys2Proof/Machine/Das.lean ====
section
/-! DEFINITION. Dynamic strain (spec R156 to R176): differentials, clarity, rotated-vector combining, unwrapping,
gauge products, as the shot pass works them out. -/

namespace Sys2Proof.Machine
open Sys2Proof

/-- R178 DAS_CONFIG. -/
structure DasCfg where
  m : Nat
  noise : Nat
  clarMin : Int
  rotHalf : Nat
  closeMin : Nat
  slip : Nat
  tie : Nat
  strainK : Nat
  deriving DecidableEq, Repr

/-- The line's DAS_CONFIG record. -/
def dasCfg (s : State) (l : Nat) : Option DasCfg :=
  (recBy s 0x080 l).map (fun p =>
    { m := wAt p 1 2, noise := wAt p 3 1, clarMin := wAtS p 4 1, rotHalf := wAt p 5 1, closeMin := wAt p 6 1,
      slip := wAt p 7 1, tie := wAt p 8 1, strainK := if wAt p 9 2 = 0 then 661000 else wAt p 9 2 })

/-- Key of a station of a line. -/
def stKey (l st : Nat) : Nat := l * 2 ^ 18 + st

/-- The DAS state of a station. -/
def dasAt (s : State) (l st : Nat) : DasSt := tabGet DasSt.zero s.sense.das (stKey l st)

/-- Puts the DAS state of a station. -/
def putDas (s : State) (l st : Nat) (x : DasSt) : State :=
  { s with sense := { s.sense with das := tabSet DasSt.zero s.sense.das (stKey l st) x } }

/-- The spectral state of a station. -/
def specAt (s : State) (l st : Nat) : SpecSt := tabGet SpecSt.zero s.sense.spec (stKey l st)

/-- Puts the spectral state of a station. -/
def putSpec (s : State) (l st : Nat) (x : SpecSt) : State :=
  { s with sense := { s.sense with spec := tabSet SpecSt.zero s.sense.spec (stKey l st) x } }

/-- R160: wrap to −512 to +511. -/
def wrap10 (v : Int) : Int := signedOf 10 (fieldOf 10 v)

/-- R169: a difference of 20-bit phases, read as signed. -/
def wrap20 (v : Int) : Int := signedOf 20 (fieldOf 20 v)

/-- R159: the stored level of a station of a trace: 0x3FF where it is invalid. -/
def storedLevel (tr : Trace) (x : TraceStation) : Nat :=
  if x.clipped || x.stale || tr.dark then 1023 else levelOf (x.re.natAbs ^ 2 + x.im.natAbs ^ 2) 38

/-- R223, R224: the group's update after a refused shot pass at the station's traverse is without predecessor. -/
def refusedAt (s : State) (l st g : Nat) : Bool :=
  match stationTrav s l (cohStations s l) st with
  | none => false
  | some t => (vget s.trav t).heldNext.contains g

/-- R159 to R162: a station of a branch against its stored previous trace. -/
def diffOf (s : State) (c : DasCfg) (l g : Nat) (tr : Trace) (st : Nat) (x : TraceStation) : Diff :=
  let b := 2 * tr.slot + tr.pol
  let ph := phaseTU 10 x.im x.re
  let lv := storedLevel tr x
  let ph' := dramVal s l 0 st (2 * b) 1
  let lv' := dramVal s l 0 st (2 * b + 1) 1
  let cl := satS 10 (2 * ((c.noise : Int) - (max lv lv' : Nat)))
  let noPrev := tr.dark || !(bitOf (dasAt s l st).prev b) || decide (lv' = 1023) || tr.gap || tr.rephased
    || tr.realigned || tr.fresh || refusedAt s l st g
  let why := if x.clipped then 1 else if x.stale then 2 else if noPrev then 3 else if cl < c.clarMin then 4 else 0
  { why := why, ph := ph, lv := lv, d := wrap10 ((ph' : Int) - ph), c := cl }

/-- A branch of an update with its differentials at every station. -/
structure Branch where
  b : Nat
  diffs : List Diff
  deriving DecidableEq, Repr

/-- A differential that no rotation or sum may use. -/
def Diff.none_ : Diff := { why := 3, ph := 0, lv := 1023, d := 0, c := -512 }

/-- R165: the reference branch at a station: the highest clarity, the lower b on a tie. -/
def refBranch (bs : List Branch) (st : Nat) : Option Branch :=
  bs.foldl (fun r x =>
    let d := lget Diff.none_ x.diffs st
    if d.why ≠ 0 then r
    else match r with
      | none => some x
      | some y => if (lget Diff.none_ y.diffs st).c < d.c then some x else r) none

/-- R165: the rotation of a branch at a station. -/
def rotationOf (k n : Nat) (r x : Branch) (st : Nat) : Int :=
  if x.b = r.b ∨ k = 0 then 0
  else
    let us := (List.range (2 * k + 1)).filterMap (fun i => if k ≤ st + i ∧ st + i - k < n then some (st + i - k) else none)
    let q := us.foldl (fun (a : Int × Int) u =>
      let dx := lget Diff.none_ x.diffs u
      let dr := lget Diff.none_ r.diffs u
      if dx.why = 0 ∧ dr.why = 0 then
        let (p, i) := unitPhasor ((dx.d - dr.d) % 1024).toNat
        (a.1 + p, a.2 + i)
      else a) ((0, 0) : Int × Int)
    if q = (0, 0) then 0 else wrap10 (phaseTU 10 q.2 q.1)

/-- R166: the combined differential, the closure, the combined clarity and the number of usable branches. -/
def combine (k n : Nat) (bs : List Branch) (st : Nat) : Int × Nat × Int × Nat :=
  match refBranch bs st with
  | none => (0, 0, -512, 0)
  | some r =>
    let us := bs.filter (fun x => (lget Diff.none_ x.diffs st).why = 0)
    let (zi, zq, sw) := us.foldl (fun (a : Int × Int × Nat) x =>
      let d := lget Diff.none_ x.diffs st
      let w := weightOf d.c
      let (p, i) := unitPhasor ((d.d - rotationOf k n r x st) % 1024).toNat
      (a.1 + w * p, a.2.1 + w * i, a.2.2 + w)) ((0, 0, 0) : Int × Int × Nat)
    let q := if sw = 0 then 0
      else if us.length = 1 then 1023
      else (min 1023 (roundSqrt 1023 (zi.natAbs ^ 2 + zq.natAbs ^ 2) (511 * sw))).toNat
    let cc := if sw = 0 then -512 else clarityOf sw
    (wrap10 (phaseTU 10 zq zi), q, cc, us.length)

/-- R175: the flag word's bits that the branches' tests and the station's marks set. -/
def branchFlags (bs : List Branch) (st : Nat) (beyond : Bool) : Nat :=
  let any (w : Nat) : Bool := bs.any (fun x => (lget Diff.none_ x.diffs st).why = w)
  2 * b2n (any 1) + 4 * b2n (any 2) + 8 * b2n (any 4) + 256 * b2n (any 3) + 128 * b2n beyond

/-- R169: a station after an update that is not HELD: the state, the output and the innovation. -/
def unwrapStep (c : DasCfg) (groups j : Nat) (x : DasSt) (dphi : Int) : DasSt × Int :=
  let p : Int := (x.phi : Int) + roundEven x.v 16
  let e := wrap10 (dphi - (p - (tabGet 0 x.phig j : Nat)))
  let cc := if 2 ≤ groups then roundEven (e * 16 - x.ebar) (2 ^ (c.tie + 4)) else 0
  let out := fieldOf 20 (p + e - cc)
  let v := satS 20 (x.v + (wrap20 ((out : Int) - x.phi) * 16 - x.v) / 4)
  let ebar := if 2 ≤ groups then clampI (-511) 511 (x.ebar + (e * 16 - x.ebar) / 16) else x.ebar
  ({ x with phi := out, v := v, ebar := ebar, phig := tabSet 0 x.phig j (out % 1024) }, e)

/-- R169 to R171, R175: one update of group j at a station: the new state, the flag word, |out − Phi_last| where the
update is not HELD, and the innovation beyond SLIP_TU. -/
def dasStep (c : DasCfg) (groups j : Nat) (x : DasSt) (dphi : Int) (q usable flags stamp : Nat) : DasSt × Nat × Nat :=
  if usable = 0 then
    ({ x with phig := tabSet 0 x.phig j (x.phi % 1024), held := x.held ||| 2 ^ j, flag := flags + 1, at_ := some stamp },
     flags + 1, 0)
  else
    let (y, e) := unwrapStep c groups j x dphi
    let f := flags + 16 * b2n (decide (2 ≤ usable ∧ q < c.closeMin)) + 32 * b2n (decide (c.slip < e.natAbs))
      + 64 * b2n (bitOf x.held j)
    ({ y with held := bitsPut x.held j j 0, flag := f, at_ := some stamp },
     f, (wrap20 ((y.phi : Int) - x.phi)).natAbs)

/-! ### The pass -/

/-- The lane of a traverse that owns a station, for a product of `n` stations. -/
def ownerLane (s : State) (l n st : Nat) : Nat := let b := laneBlock s l n; if b = 0 then 0 else st / b % 64

/-- R36: the product is shed on the line. -/
def isShed (s : State) (l code : Nat) : Bool := s.book.shed.contains (l, code)

/-- R174, R195, R214: a product sample; INVALID where its lane met a parity error (R241). -/
def emitProduct (s : State) (t : Fin 8) (l n code st stamp epoch w v flag : Nat) : State :=
  if isShed s l code then s
  else
    putSample s l code st
      { stamp := stamp, words := wordsOf w v, flag := flag,
        invalid := ((vget s.trav t).lanes.toList.getD (ownerLane s l n st) Lane.zero).parErr, epoch := epoch }

/-- The traces of a line and launch instant. -/
def tracesAt (s : State) (l : Fin 2) (stamp : Nat) : List TraceDue :=
  (vget s.pce l).traces.filter (fun x => x.tr.stamp = stamp)

/-- The differentials of every DAS trace of a launch instant, formed by the first pass that works on it (R159 to R162). -/
def formDiffs (s : State) (l : Fin 2) (stamp : Nat) (c : DasCfg) (g : Nat) : State :=
  modPce s l (fun p => { p with traces := p.traces.map (fun x =>
    if x.tr.stamp = stamp ∧ x.tr.kind ≠ 3 ∧ x.diff.isNone = true then
      { x with diff := some (x.tr.stations.zipIdx.map (fun y => diffOf s c l.val g x.tr y.2 y.1)) }
    else x) })

/-- R159: the traces of the update become the stored previous traces of a station. -/
def storeTraces (s : State) (l st : Nat) (bs : List Branch) : State :=
  let s1 := forEach bs s (fun s x =>
    let d := lget Diff.none_ x.diffs st
    dramPut (dramPut s l 0 st (2 * x.b) 1 d.ph) l 0 st (2 * x.b + 1) 1 d.lv)
  let y := dasAt s1 l st
  putDas s1 l st { y with prev := bs.foldl (fun m x => m ||| 2 ^ x.b) y.prev }

/-- Word of ACT within a station record (R184). -/
def actWord : Nat := 11

/-- R184, R186: ACT in the lane's copy of the record takes the largest step of the output phase. -/
def noteAct (s : State) (l st step : Nat) : State :=
  let x := specAt s l st
  if x.act < min step 1023 then putSpec s l st { x with act := min step 1023 } else s

/-- R169, R174: the group update at one station of a traverse. -/
def dasStation (c : DasCfg) (groups j n stamp epoch : Nat) (bs : List Branch) (beyond : Nat → Bool) (l : Nat)
    (t : Fin 8) (s : State) (st : Nat) : State :=
  let x := dasAt s l st
  let (dphi, q, cc, us) := combine c.rotHalf n bs st
  let (y, f, step) := dasStep c groups j x dphi q us (branchFlags bs st (beyond st)) stamp
  let s1 := putDas s l st y
  let s2 := if us = 0 then bump s1 (daHeldCount l) else noteAct s1 l st step
  let s3 := if bitOf f 5 then bump s2 (daSlipCount l) else s2
  let s4 := if bitOf f 4 then bump s3 (daDiscordCount l) else s3
  let s5 := storeTraces s4 l st bs
  let s6 := emitProduct s5 t l n 0x010 st stamp epoch 2 y.phi f
  let s7 := emitProduct s6 t l n 0x014 st stamp epoch 1 (fieldOf 10 cc) f
  emitProduct s7 t l n 0x015 st stamp epoch 1 q f

/-- R173: STRAIN_F, by the coherent pitch at the applied n_g. -/
def strainF (s : State) (l : Nat) (c : DasCfg) : Nat :=
  let g := (slotsOf s l).foldl (fun a x => max a x.g) 1
  (roundAway ((256 * c.strainK * groupIndex s l * 200000000 * g : Nat) : Int) (65536 * 299792458 * max c.m 1)).toNat

/-- R172: the ends of the gauge of a station that lie on the line. -/
def gaugeEnds (c : DasCfg) (n st : Nat) : Option Nat × Option Nat :=
  let h := c.m / 2
  (if st + h < n then some (st + h) else none, if c.m ≤ st + h then some (st + h - c.m) else none)

/-- R172 to R174: the gauge products of a station, once it and the ends of its gauge have this update. -/
def gaugeStation (c : DasCfg) (n stamp epoch l : Nat) (t : Fin 8) (s : State) (st : Nat) : State :=
  let x := dasAt s l st
  let (a, b) := gaugeEnds c n st
  let fresh (e : Option Nat) : Bool := match e with | none => true | some i => (dasAt s l i).at_ = some stamp
  if x.at_ ≠ some stamp ∨ x.gaugeAt = some stamp ∨ fresh a = false ∨ fresh b = false then s
  else
    let fl (e : Option Nat) : Nat := match e with | none => 512 | some i => (dasAt s l i).flag
    let f := fl a ||| fl b
    let psi : Nat := match a, b with
      | some i, some j => fieldOf 20 (((dasAt s l i).phi : Int) - (dasAt s l j).phi)
      | _, _ => 0
    let rate := if x.gaugeAt.isNone || bitOf f 0 || x.gaugeHeld || bitOf f 9 then 0
      else satS 10 (wrap20 ((psi : Int) - x.psi))
    let strain := roundEven (signedOf 20 psi * (strainF s l c : Nat)) 256
    let s1 := putDas s l st { x with psi := psi, gaugeAt := some stamp, gaugeHeld := bitOf f 0 }
    let s2 := emitProduct s1 t l n 0x011 st stamp epoch 2 psi f
    let s3 := emitProduct s2 t l n 0x012 st stamp epoch 1 (fieldOf 10 rate) f
    emitProduct s3 t l n 0x013 st stamp epoch 4 (fieldOf 40 strain) f

/-- R247, R177: busy cycles of a traverse, counted for TR_LOAD. -/
def addBusy (s : State) (t : Fin 8) (n : Nat) : State :=
  modTrav s t (fun T => { T with busy := T.busy + n, busy10 := T.busy10 + n })

/-- R169: the DAS part of a shot pass on a traverse; none while a freeze refuses class C0 (R432). -/
def dasPass (s : State) (l : Fin 2) (t : Fin 8) (stamp epoch : Nat) : State :=
  if c0Refused s then s else
  match dasCfg s l.val, (tracesAt s l stamp).find? (fun x => x.tr.kind ≠ 3) with
  | some c, some tr0 =>
    let offs := dasOffsets s l.val
    let j := (((slotAt s l.val tr0.tr.slot).bind (fun k => offs.idxOf? k.d))).getD 0
    let s1 := formDiffs s l stamp c j
    let traces := (tracesAt s1 l stamp).filter (fun x => x.tr.kind ≠ 3)
    let bs := (traces.map (fun x => ({ b := 2 * x.tr.slot + x.tr.pol, diffs := x.diff.getD [] } : Branch))).mergeSort
      (fun x y => decide (x.b ≤ y.b))
    let n := cohStations s l.val
    let beyond (st : Nat) : Bool := traces.any (fun x => (x.tr.stations[st]?.map (fun y => y.beyond)).getD false)
    let (f, k) := travStations s l.val n t
    let own := (List.range k).map (fun i => f + i)
    let s2 := own.foldl (dasStation c offs.length j n stamp epoch bs beyond l.val t) s1
    let s3 := (List.range n).foldl (gaugeStation c n stamp epoch l.val t) s2
    let s4 := modTrav s3 t (fun T => { T with heldNext := T.heldNext.filter (fun g => g ≠ j), grp := j })
    addBusy s4 t (min k (laneBlock s l.val n) * (8 + 7 * bs.length))
  | _, _ => s

/-- R243: SEQ of a hook starts at 0 again at stations of a line, whose product has restarted. -/
def seqRestart (s : State) (l h : Nat) (p : Nat → Bool) : State :=
  { s with trav := Vector.ofFn (fun t : Fin 8 =>
    let T := vget s.trav t
    if planLine s t.val = some l then
      { T with hookSeq := tabKeep (fun k => !(decide (k / 2 ^ 18 = h) && p (k % 2 ^ 18))) T.hookSeq } else T) }

/-- R176: DAS restarts at stations of a line: their state is zero and every stored previous trace is invalid. -/
def dasRestart (s : State) (l : Nat) (p : Nat → Bool) : State :=
  seqRestart { s with sense := { s.sense with
    das := tabKeep (fun k => !(decide (k / 2 ^ 18 = l) && p (k % 2 ^ 18))) s.sense.das } } l 0 p

end Sys2Proof.Machine
end

