-- ==== Sys2Proof/Machine/Spectral.lean ====
section
/-! DEFINITION. Rayleigh spectral shift and the datum store (spec R180 to R196): accumulation, datum capture,
correlation and peak search, tracking, re-datum, conversion, and what restarts them. -/

namespace Sys2Proof.Machine
open Sys2Proof

/-- R198 SS_CONFIG, with the line's point set of R180. -/
structure SpecCfg where
  outSweeps : Nat
  capSweeps : Nat
  quiet : Nat
  w : Nat
  redatumK : Nat
  qMin : Nat
  auto : Bool
  /-- C, P_LO and C_LINE. -/
  c : Nat
  pLo : Nat
  cLine : Nat
  deriving DecidableEq, Repr

/-- The sweep slots of a line. -/
def sweepSlots (s : State) (l : Nat) : List SlotCfg := (slotsOf s l).filter (fun c => decide (c.kind = 3))

/-- R199: sweeps of the line since its schedule origin. -/
def sweepsTotal (s : State) (l : Fin 2) : Nat :=
  (sweepSlots s l.val).head?.elim 0 (fun c =>
    lget 0 (vget s.probe l).nextM.toList c.slot / max 1 (sweepTable s l.val c.slot).length)

/-- R199, R13: what DS_SWEEPS counts: the sweeps since the origin, and since a reset that returned it to 0. -/
def sweepsDone (s : State) (l : Fin 2) : Nat := sweepsTotal s l - (vget s.probe l).sweepBase

/-- R13: DS_SWEEPS returns to 0. -/
def sweepRestart (s : State) (l : Fin 2) : State := modProbe s l (fun P => { P with sweepBase := sweepsTotal s l })

/-- R180: every point of the line's sweep tables. -/
def linePoints (s : State) (l : Nat) : List Nat := (sweepSlots s l).flatMap (fun c => sweepTable s l c.slot)

/-- The line's SS_CONFIG record and point set. -/
def specCfg (s : State) (l : Nat) : Option SpecCfg :=
  (recBy s 0x0A0 l).map (fun p =>
    let pts := linePoints s l
    { outSweeps := wAt p 1 1, capSweeps := if wAt p 2 1 = 0 then 64 else wAt p 2 1,
      quiet := if wAt p 3 1 = 0 then 16 else wAt p 3 1, w := wAt p 4 1, redatumK := wAt p 5 1, qMin := wAt p 6 1,
      auto := bitOf (wAt p 7 1) 0,
      c := (((sweepSlots s l).head?.map (fun c => (sweepTable s l c.slot).length))).getD 0,
      pLo := pts.foldl min 63, cLine := pts.length })

/-! ### Station records and cells -/

/-- R184: a field of `n` words of a station's record from word `lo`. -/
def recField (s : State) (l st lo n : Nat) : Nat :=
  wordsVal ((List.range n).map (fun i => tabGet 0 s.dram (dramKey l 3 st 0 (lo + i))))

/-- Sets a field of a station's record. -/
def recSet (s : State) (l st lo n : Nat) (v : Int) : State :=
  { s with dram := (((List.range n).zip (wordsOf n (fieldOf (10 * n) v))).foldl
      (fun d x => tabSet 0 d (dramKey l 3 st 0 (lo + x.1)) x.2) s.dram) }

/-- R184 STATE: 0 NONE, 1 CAPTURING, 2 VALID. -/
def specState (s : State) (l st : Nat) : Nat := recField s l st 7 1 % 4

/-- R190: the hard-bound count. -/
def hardCount (s : State) (l st : Nat) : Nat := bitsOf (recField s l st 7 1) 5 2

/-- Sets STATE and the hard-bound count. -/
def setSpecState (s : State) (l st state hard : Nat) : State := recSet s l st 7 1 ((state + 4 * hard : Nat) : Int)

/-- R184: T_R0 when not recorded, 0x200.000. -/
def tr0None : Int := -524288

/-- R183: SUM and COUNT of a cell of a region (1 datum, 2 accumulation). -/
def cellAt (s : State) (region l st n : Nat) : Nat × Nat :=
  let v := dramVal s l region st n 4
  (v % 2 ^ 30, v / 2 ^ 30)

/-- Writes a cell. -/
def putCell (s : State) (region l st n sum cnt : Nat) : State :=
  dramPut s l region st n 4 (sum % 2 ^ 30 + cnt % 1024 * 2 ^ 30)

/-- R183: cell address: line [24], station [23:6], point [5:0]. -/
def cellAddr (l st n : Nat) : Nat := l * 2 ^ 24 + (st % 2 ^ 18) * 64 + n % 64

/-- R183, R199: the base byte address of the datum region, one for both lines; the accumulation region follows at +160 MB and the
station records at +320 MB. -/
def datumBase (s : State) : Nat := Config.regionBase (getF s mgPlanIdId) (getF s mgPlanRevRev) 0

/-- R183: the DRAM byte address of a cell: in region 1 the datum's, in 2 the accumulation's, in 3 a station record's 15 bytes. -/
def cellByte (s : State) (region l st n : Nat) : Nat :=
  match region with
  | 1 => datumBase s + 5 * cellAddr l st n
  | 2 => datumBase s + 160 * 2 ^ 20 + 5 * cellAddr l st n
  | _ => datumBase s + 320 * 2 ^ 20 + 15 * (l * 2 ^ 18 + st % 2 ^ 18)

/-- The accumulation cell of a period or block: what the cell holds where it has this tag, what the last overwrite took from it
where that had this tag (log entry 40), else empty. -/
def accCell (s : State) (l st n tag : Nat) : Nat × Nat :=
  let a := cellAddr l st n
  if tabGet 0 s.sense.accTag a = tag then cellAt s 2 l st n
  else
    let o := tabGet OldCell.zero s.sense.accOld a
    if o.tag = tag then (o.sum, o.cnt) else (0, 0)

/-- R185: a cell of a period or block written; what it held for another is kept beside it. -/
def putAcc (s : State) (l st n tag sum cnt : Nat) : State :=
  let a := cellAddr l st n
  let was := tabGet 0 s.sense.accTag a
  let (u, k) := cellAt s 2 l st n
  let s1 := if was = tag then s
    else { s with sense := { s.sense with accTag := tabSet 0 s.sense.accTag a tag,
                                          accOld := tabSet OldCell.zero s.sense.accOld a { tag := was, sum := u, cnt := k } } }
  putCell s1 2 l st n sum cnt

/-! ### Accumulation -/

/-- The tag of a sweep: era and number, from 1. -/
def sweepTag (era sweep : Nat) : Nat := era * 2 ^ 64 + sweep + 1

/-- R185: a station's magnitude over both polarisations. -/
def specMag (x y : TraceStation) : Nat :=
  min (2 ^ 20 - 1) (isqrt (x.re.natAbs ^ 2 + x.im.natAbs ^ 2 + y.re.natAbs ^ 2 + y.im.natAbs ^ 2))

/-- The marks of a tag, with the ones they replace kept (log entry 40). -/
def withMarks (x : SpecSt) (tag : Nat) (f : SpecMarks → SpecMarks) : SpecSt :=
  if x.marks.tag = tag then { x with marks := f x.marks }
  else { x with marks := f { SpecMarks.zero with tag := tag }, marksOld := x.marks }

/-- R185: one contribution of a sweep slot's launch at a station, under the tag of its open period or block. -/
def accumulate (l : Nat) (tag point : Nat) (dark apr : Bool) (st : Nat) (x y : TraceStation) (s : State) : State :=
  let clip := x.clipped || y.clipped
  let stale := x.stale || y.stale
  if dark || clip || stale || x.beyond || y.beyond then
    if !dark && (clip || stale) then
      putSpec s l st (withMarks (specAt s l st) tag (fun m => { m with clip := m.clip || clip, stale := m.stale || stale }))
    else s
  else
    let m := specMag x y
    let (sum, cnt) := accCell s l st point tag
    let s1 := putAcc s l st point tag (sum + m) (cnt + 1)
    putSpec s1 l st (withMarks (specAt s1 l st) tag (fun m => { m with apr := m.apr || apr }))

/-- R181, R186: the start of the output period, and of the capture block, that holds a sweep. -/
def periodStart (c : SpecCfg) (era sweep : Nat) : Nat := sweepTag era (sweep / max c.outSweeps 1 * max c.outSweeps 1)

/-- The tag of the block's first sweep; blocks count from the sweep at which the capture started, from the origin where
that lies in another era. -/
def blockStart (X : SpecLine) (era sweep : Nat) : Nat :=
  let s0 := if X.capStart / 2 ^ 64 = era ∧ X.capStart ≤ sweepTag era sweep then X.capStart - sweepTag era 0 else 0
  sweepTag era (s0 + (sweep - s0) / 16 * 16)

/-- R224: a background request reaches a traverse, or is refused with its accumulation. -/
def requestBg (s : State) (t : Fin 8) (r : BgReq) : State :=
  if 16 ≤ (vget s.trav t).bg.length then refuseReq s t
  else modTrav s t (fun T => { T with bg := T.bg ++ [r] })

/-- The open output period or capture block of a traverse. -/
def openOf (T : Trav) (capture : Bool) : Option OpenSpan := if capture then T.openB else T.openP

/-- The start of the period or block in which nothing opens. -/
def waitOf (T : Trav) (capture : Bool) : Option Nat := if capture then T.waitB else T.waitP

/-- Sets both. -/
def setOpen (s : State) (t : Fin 8) (capture : Bool) (o : Option OpenSpan) (w : Option Nat) : State :=
  modTrav s t (fun T => if capture then { T with openB := o, waitB := w } else { T with openP := o, waitP := w })

/-- R181, R186: the request that ends a period or block. -/
def requestSpan (s : State) (t : Fin 8) (l : Nat) (capture : Bool) (o : OpenSpan) : State :=
  requestBg s t (.output l o.tag o.stamp o.epoch capture)

/-- R181: the sweep in progress at a launch: its tag, and whether the launch is its first. -/
structure SweepAt where
  now : Nat
  first : Bool
  /-- The launch carries REPHASED. -/
  rephased : Bool
  deriving DecidableEq, Repr

/-- R181, R187: a launch in the period or block that starts with `start` finds another one open: that one has been left and is
requested; of another origin's schedule it is dropped. -/
def leaveAt (s : State) (t : Fin 8) (l start : Nat) (capture : Bool) : State :=
  match openOf (vget s.trav t) capture with
  | some x =>
    if x.tag = start then s
    else setOpen (if x.tag / 2 ^ 64 = start / 2 ^ 64 then requestSpan s t l capture x else s) t capture none none
  | none => s

/-- R181, R187, R196: the period or block `o` of a launch opens at its first launch that comes. One in which a discard fell stays
closed, unless this launch is its first point or counting starts anew with it. -/
def openAt (s : State) (t : Fin 8) (o : OpenSpan) (w : SweepAt) (capture : Bool) : State :=
  match openOf (vget s.trav t) capture, waitOf (vget s.trav t) capture with
  | some _, _ => s
  | none, none => setOpen s t capture (some o) none
  | none, some x =>
    let starts := (w.first && decide (w.now = o.tag)) || w.rephased
    if starts || (decide (x ≠ 0) && decide (x ≠ o.tag)) then setOpen s t capture (some o) none
    else setOpen s t capture none (some o.tag)

/-- R181: after the last launch of a period's or block's last sweep, its output is requested; no launch of it opens it
again. -/
def closeAt (s : State) (t : Fin 8) (l : Nat) (sweepNow len : Nat) (capture : Bool) : State :=
  match openOf (vget s.trav t) capture with
  | none => s
  | some o =>
    if o.tag + len = sweepNow + 1 then setOpen (requestSpan s t l capture o) t capture none (some o.tag) else s

/-- R181: the output periods between the last sweep seen and this launch's that no launch of the traverse fell into: each is
requested, with nothing accumulated. `span k` is the period that starts with tag k. -/
def missedPeriods (s : State) (t : Fin 8) (l out last start : Nat) (span : Nat → OpenSpan) : State :=
  if last / 2 ^ 64 = start / 2 ^ 64 ∧ last < start then
    let era := start / 2 ^ 64 * 2 ^ 64 + 1
    let lo := era + (last - era) / out * out
    forEach ((List.range ((start - lo) / out - 1)).map (fun i => lo + (i + 1) * out)) s
      (fun s k => requestSpan s t l false (span k))
  else s

/-- The pairs of X and Y traces of the sweep slots of a launch instant. -/
def sweepPairs (s : State) (l : Fin 2) (stamp : Nat) : List (Trace × Trace) :=
  let ts := (tracesAt s l stamp).filter (fun x => decide (x.tr.kind = 3))
  (ts.filter (fun x => decide (x.tr.pol = 0))).filterMap (fun x =>
    (ts.find? (fun y => y.tr.pol = 1 && y.tr.slot = x.tr.slot)).map (fun y => (x.tr, y.tr)))

/-- The request is a capture block's of a line. -/
def captureReq (l : Nat) (r : BgReq) : Bool := match r with | .output k _ _ _ c => c && decide (k = l) | _ => false

/-- R187: every station of a line is set to CAPTURING with BLOCKS = 0; its datum is rewritten by its first quiet block
and its first valid output carries NEW_DATUM. Blocks of the capture before are no longer committed. -/
def startCapture (s : State) (l : Fin 2) (tag : Nat) : State :=
  let n := cohStations s l.val
  let s1 := forEach (List.range n) s (fun s st =>
    let s := setSpecState s l.val st 1 0
    let s := recSet (recSet (recSet s l.val st 10 1 0) l.val st 11 1 0) l.val st 8 2 tr0None
    putSpec s l.val st { specAt s l.val st with fresh := true, act := 0 })
  let X : SpecLine := { pending := false, capStart := tag, done_ := 0, seen := tag, slow := false }
  { s1 with sense := { s1.sense with specLine := vset s1.sense.specLine l X },
            trav := Vector.ofFn (fun t : Fin 8 =>
              let T := vget s1.trav t
              if (lineTravs s l.val).contains t then
                { T with openB := none, waitB := none, bg := T.bg.filter (fun r => !(captureReq l.val r)),
                         work := T.work.filter (fun w => !(captureReq l.val w.req)) }
              else T) }

/-- R188: the sweeps of a capture are counted as the line's first traverse sees them. -/
def countSweep (s : State) (l : Fin 2) (now : Nat) : State :=
  let X := vget s.sense.specLine l
  if now ≤ X.seen then s
  else
    let n := if now / 2 ^ 64 = X.seen / 2 ^ 64 then now - X.seen else now % 2 ^ 64
    { s with sense := { s.sense with specLine := vset s.sense.specLine l { X with seen := now, done_ := X.done_ + n } } }

/-- R187, R196: a recapture is asked for; it starts at the next sweep boundary. -/
def wantCapture (s : State) (l : Fin 2) : State :=
  { s with sense := { s.sense with specLine := vmod s.sense.specLine l (fun x => { x with pending := true }) } }

/-- R187 CAPTURE_REQUEST. -/
def execCaptureRequest (line : Fin 2) (s : State) : Host.Outcome State Fault Refusal :=
  .next (whenB (specCfg s line.val).isSome s (wantCapture s line))

/-- The tag of the next sweep boundary of a line: after the last sweep its traverses have seen. -/
def nextSweep (s : State) (l : Fin 2) : Nat :=
  (lineTravs s l.val).foldl (fun a t => match (vget s.trav t).lastSw with | none => a | some k => max a (k + 1))
    (sweepTag (vget s.probe l).era 0)

/-- R187 CAPTURE_START: the sweep boundary at which a capture asked for starts. -/
def execCaptureStart (line : Fin 2) (s : State) : Host.Outcome State Fault Refusal :=
  .next (whenB (vget s.sense.specLine line).pending s (startCapture s line (nextSweep s line)))

/-- R184: ACT starts at 0 at the stations of a line that pass a test. -/
def clearAct (s : State) (l : Nat) (p : Nat → Bool) : State :=
  { s with sense := { s.sense with spec := tabMap (fun _ => SpecSt.zero) (fun k x =>
      if k / 2 ^ 18 = l ∧ p (k % 2 ^ 18) = true then { x with act := 0 } else x) s.sense.spec } }

/-- R196: the open output period and capture block of a traverse are discarded: ACT and SEQ of its stations start anew. -/
def dropOpen (s : State) (t : Fin 8) : State :=
  let s1 := modTrav s t (fun T =>
    { T with openP := none, openB := none, waitP := some 0, waitB := some 0, hookSeq := tabKeep (fun k => decide (k / 2 ^ 18 ≠ 1)) T.hookSeq })
  match travLine s t with
  | none => s1
  | some l =>
    let (f, k) := travStations s l (cohStations s l) t
    clearAct s1 l (fun st => decide (f ≤ st ∧ st < f + k))

/-- R185, R186: the sweep part of a shot pass on a traverse; none while a freeze refuses class C0 (R432). -/
def sweepPass (s : State) (l : Fin 2) (t : Fin 8) (stamp : Nat) : State :=
  if c0Refused s then s else
  match specCfg s l.val, (sweepPairs s l stamp).head? with
  | some c, some (tr, _) =>
    let cc := max c.c 1
    let out := max c.outSweeps 1
    let sw := tr.m / cc
    let w : SweepAt := { now := sweepTag tr.era sw, first := decide (tr.m % cc = 0), rephased := tr.rephased }
    let X := vget s.sense.specLine l
    let span (tag : Nat) : OpenSpan :=
      { tag := tag, stamp := stamp - (tr.m - (tag - sweepTag tr.era 0) * cc) * tShot s l.val * gridU,
        epoch := lget 0 tr.epochs (10 + t.val) }
    let ps := periodStart c tr.era sw
    let s0 := if tr.rephased then dropOpen s t else s
    let s1 := countSweep (if tr.realigned then wantCapture s0 l else s0) l w.now
    let bs := blockStart X tr.era sw
    let s2 := leaveAt (leaveAt s1 t l.val ps false) t l.val bs true
    let s2 := match (vget s2.trav t).waitP, (vget s2.trav t).lastSw with
      | some 0, _ | _, none => s2
      | _, some k => missedPeriods s2 t l.val out k ps span
    let s3 := openAt (openAt s2 t (span ps) w false) t (span bs) w true
    let T := vget s3.trav t
    let (f, k) := travStations s l.val (cohStations s l.val) t
    let s4 := forEach (sweepPairs s l stamp) s3 (fun s p =>
      forEach (List.range k) s (fun s i =>
        let st := f + i
        match openOf T (decide (specState s l.val st = 1)), p.1.stations[st]?, p.2.stations[st]? with
        | some o, some x, some y => accumulate l.val o.tag p.1.point (p.1.dark || p.2.dark) p.1.apr st x y s
        | _, _, _ => s))
    let last := decide (tr.m % cc + 1 = cc)
    let s5 := if last then closeAt (closeAt s4 t l.val w.now out false) t l.val w.now 16 true else s4
    addBusy (modTrav s5 t (fun T => { T with lastSw := some w.now })) t
      (min k (laneBlock s l.val (cohStations s l.val)) * 3 * (sweepPairs s l stamp).length)
  | _, _ => s

/-! ### Capture commit -/

/-- The marks of a tag at a station. -/
def marksAt (x : SpecSt) (tag : Nat) : SpecMarks :=
  if x.marks.tag = tag then x.marks else if x.marksOld.tag = tag then x.marksOld else { SpecMarks.zero with tag := tag }

/-- The points of the set. -/
def specPoints (c : SpecCfg) : List Nat := (List.range c.cLine).map (fun i => c.pLo + i)

/-- R192: the segment of a station: mode, C_T and C_E. -/
def segmentOf (s : State) (l st : Nat) : Nat × Int × Int :=
  match (recsOf s 0x0A1).find? (fun p => decide (wAt p 0 1 = l ∧ wAt p 1 2 ≤ st ∧ st ≤ wAt p 3 2)) with
  | none => (0, -1290000, -150000)
  | some p => (wAt p 5 1, if wAt p 6 3 = 0 then -1290000 else wAtS p 6 3, if wAt p 9 3 = 0 then -150000 else wAtS p 9 3)

/-- R211: the Raman station nearest to a coherent station: round_half_even(16·s / (5·g)). -/
def ramanPartner (s : State) (l st : Nat) : Nat :=
  let g := (slotsOf s l).foldl (fun a x => max a x.g) 1
  (roundEven ((16 * st : Nat) : Int) (5 * g)).toNat

/-- R184: ACT starts at 0 in the lane's copy of a record, which is written back. -/
def restartAct (s : State) (l st : Nat) : State :=
  let s1 := recSet s l st actWord 1 0
  putSpec s1 l st { specAt s1 l st with act := 0 }

/-- R186: the block's end at a CAPTURING station. -/
def commitStation (c : SpecCfg) (l tag : Nat) (s : State) (st : Nat) : State :=
  if specState s l st ≠ 1 then s
  else
    let x := specAt s l st
    let m := marksAt x tag
    let quiet := decide (x.act ≤ c.quiet) && !m.apr
      && (specPoints c).all (fun n => decide (0 < (accCell s l st n tag).2))
    let s0 := restartAct s l st
    if quiet then
      let blocks := recField s l st 10 1
      let s1 := forEach (specPoints c) s0 (fun s n =>
        let (a, k) := accCell s l st n tag
        let (d, j) := if blocks = 0 then (0, 0) else cellAt s 1 l st n
        putCell s 1 l st n (d + a) (j + k))
      let s2 := recSet s1 l st 10 1 ((blocks + 1 : Nat) : Int)
      if c.capSweeps ≤ (blocks + 1) * 16 then
        let s3 := setSpecState s2 l st 2 0
        let s4 := recSet (recSet (recSet s3 l st 3 3 0) l st 6 1 0) l st 0 3 0
        let s5 := match (segmentOf s l st).1, x.tR with
          | 2, some v => recSet s4 l st 8 2 v
          | _, _ => recSet s4 l st 8 2 tr0None
        putSpec s5 l st { specAt s5 l st with from_ := tag + 16 }
      else s2
    else s0

/-! ### Correlation -/

/-- R189: a value shifted right by `k`, rounded half to even. -/
def shiftEven (v k : Nat) : Nat := (roundEven (v : Int) (2 ^ k)).toNat

/-- R189: the smallest common shift that brings every value below 2^13. -/
def specShift (vs : List Nat) : Nat :=
  (List.range 12).foldl (fun k i => if k = i ∧ vs.any (fun v => decide (2 ^ 13 ≤ shiftEven v i)) = true then i + 1 else k) 0

/-- R189: r[k] of two spectra over the overlap of lag k, truncated towards zero; 0 where a side has no variance. -/
def pearson (a d : List Nat) (k : Int) : Int :=
  let c : Int := a.length
  let ps := (List.range a.length).filterMap (fun (n : Nat) =>
    let j : Int := (n : Int) + k
    if 0 ≤ j ∧ j < c then some (((lget 0 a n : Nat) : Int), ((lget 0 d j.toNat : Nat) : Int)) else none)
  let n : Int := ps.length
  let sx := sumI (ps.map (·.1))
  let sy := sumI (ps.map (·.2))
  let sxy := sumI (ps.map (fun p => p.1 * p.2))
  let vx := n * sumI (ps.map (fun p => p.1 * p.1)) - sx * sx
  let vy := n * sumI (ps.map (fun p => p.2 * p.2)) - sy * sy
  let num := n * sxy - sx * sy
  if vx ≤ 0 ∨ vy ≤ 0 then 0
  else
    let m := isqrt (num.natAbs ^ 2 * 2 ^ 28 / (vx.toNat * vy.toNat))
    if 0 ≤ num then m else -(m : Int)

/-- R189: the peak search: kpk, rpk, and the interpolated fraction. -/
def peakSearch (a d : List Nat) (kmin kmax : Int) : Int × Int × Int :=
  let ks := (List.range ((kmax - kmin).toNat + 1)).map (fun i => kmin + i)
  let (kpk, rpk) := ks.foldl (fun b k => let r := pearson a d k; if b.2 < r then (k, r) else b) (kmin, pearson a d kmin)
  let r1 := pearson a d (kpk - 1)
  let r2 := pearson a d (kpk + 1)
  let den := 2 * (r1 - 2 * rpk + r2)
  let frac := if 0 ≤ den then 0 else clampI (-512) 511 (roundEven (-(1024 * (r1 - r2))) den.natAbs)
  (kpk, rpk, frac)

/-- R189: the spectrum of a station: SUM / COUNT of each point, rounded half to even. -/
def spectrumOf (cells : List (Nat × Nat)) : List Nat :=
  cells.map (fun x => (roundEven (x.1 : Int) (max x.2 1)).toNat)

/-- R189, R190: what an output decides: value, quality, flags, kpk where tracking moves, and whether every test passed. -/
structure SpecResult where
  value : Int
  q : Nat
  flag : Nat
  kpk : Option Int
  pass : Bool
  hard : Bool
  deriving DecidableEq, Repr

/-- R189, R190: the tests in their order. -/
def specDecide (c : SpecCfg) (sLast base kPrev : Int) (beyond : Bool) (acc dat : List (Nat × Nat)) : SpecResult :=
  let stay (f q : Nat) : SpecResult := { value := sLast, q := q, flag := f, kpk := none, pass := false, hard := false }
  if beyond then stay 256 0
  else if acc.any (fun x => decide (x.2 = 0)) then stay 8 0
  else
    let a0 := spectrumOf acc
    let d0 := spectrumOf dat
    let sh := specShift (a0 ++ d0)
    let a := a0.map (fun v => shiftEven v sh)
    let d := d0.map (fun v => shiftEven v sh)
    let lim : Int := (c.cLine : Int) - 8
    let kmin := max (kPrev - c.w) (-lim)
    let kmax := min (kPrev + c.w) lim
    let (kpk, rpk, frac) := peakSearch a d kmin kmax
    let q := (max 0 (roundEven (1023 * rpk) 16384)).toNat
    if rpk ≤ 0 then stay 2 q
    else if kpk = kmin ∨ kpk = kmax then
      { value := sLast, q := q, flag := 4, kpk := some kpk, pass := false, hard := decide (kpk = lim ∨ kpk = -lim) }
    else if q < c.qMin then stay 2 q
    else { value := satS 30 (base + 1024 * kpk + frac), q := q, flag := 0, kpk := some kpk, pass := true, hard := false }

/-! ### Conversion -/

/-- R193: round(num / den) of signed integers, halves away from zero. -/
def roundDiv (num den : Int) : Int := if den < 0 then roundAway (-num) den.natAbs else roundAway num den.natAbs

/-- R193: temperature, strain and their 40-bit forms of a shift, in modes 0 and 1. -/
def specConvert (mode : Nat) (ct ce v : Int) : Int × Int × Int × Int :=
  let tempF := roundDiv (-(2 ^ 20 * 78125)) (2 * ct)
  let strainF := roundDiv (-(2 ^ 20 * 78125)) (2 * ce)
  let temp40F := roundDiv (-(2 ^ 16 * 39062500)) ct
  let strain40F := roundDiv (-(2 ^ 16 * 39062500)) ce
  if mode = 0 then
    (satS 20 (roundEven (v * tempF) (2 ^ 20)), 0, roundEven (v * temp40F) (2 ^ 16), 0)
  else
    (0, satS 20 (roundEven (v * strainF) (2 ^ 20)), 0, roundEven (v * strain40F) (2 ^ 16))

/-- R193: mode 2, with the Raman temperature change. -/
def specConvert2 (ct ce v dT : Int) : Int × Int × Int × Int :=
  let teq := roundDiv (-(2 ^ 10 * 2 * ct)) 78125
  let u := roundEven (dT * teq) 1024
  let (_, e, _, e40) := specConvert 1 ct ce (v - u)
  (satS 20 dT, e, dT * 1000, e40)

/-- The four converted values of a station's output, and whether they hold for want of a Raman reference (R194). -/
def convertAt (s : State) (l st : Nat) (v : Int) : (Int × Int × Int × Int) × Bool :=
  let (mode, ct, ce) := segmentOf s l st
  if mode ≤ 1 then (specConvert mode ct ce v, false)
  else
    let t0 := signedOf 20 (recField s l st 8 2)
    match (specAt s l st).tR with
    | some t =>
      if t0 = tr0None then (held, true) else (specConvert2 ct ce v (t - t0), false)
    | none => (held, true)
where
  /-- The last values of the four products. -/
  held : Int × Int × Int × Int :=
    (signedOf 20 (sampleVal s l 0x021 st), signedOf 20 (sampleVal s l 0x022 st), signedOf 40 (sampleVal s l 0x024 st),
     signedOf 40 (sampleVal s l 0x025 st))

/-- The oldest stamp of the Raman blocks of a line that are still to be fused. -/
def ramanOldest (s : State) (l : Nat) : Option Nat :=
  let X := s.sense.ramanLine.toList.getD l RamanLine.zero
  let bs := ((s.sense.blocks.filter (fun b => decide (b.line = l))) ++ X.ready).map (fun b => b.stamp)
  match bs ++ (if X.open_.isSome then [X.stamp] else []) with
  | [] => none
  | a :: t => some (t.foldl min a)

/-- R212: the outputs that fusion can still need: the newest of those stamped no later than every Raman block to be fused, and
all after it; without such a block the newest. -/
def histKeep (lim : Option Nat) : List SpecOut → List SpecOut
  | [] => []
  | x :: t => x :: (match lim with | none => [] | some m => if x.stamp ≤ m then [] else histKeep lim t)

/-- R195: the products of an output. NO_TEMP (R194) goes with those of temperature and strain. -/
def emitSpectral (s : State) (t : Fin 8) (l n st stamp epoch : Nat) (v : Int) (conv : Int × Int × Int × Int) (q f : Nat)
    (noTemp : Bool) : State :=
  let (a, e, a40, e40) := conv
  let g := f + 512 * b2n noTemp
  let s1 := emitProduct s t l n 0x020 st stamp epoch 3 (fieldOf 30 v) f
  let s2 := emitProduct s1 t l n 0x021 st stamp epoch 2 (fieldOf 20 a) g
  let s3 := emitProduct s2 t l n 0x022 st stamp epoch 2 (fieldOf 20 e) g
  let s4 := emitProduct s3 t l n 0x023 st stamp epoch 1 q f
  let s5 := emitProduct s4 t l n 0x024 st stamp epoch 4 (fieldOf 40 a40) g
  let s6 := emitProduct s5 t l n 0x025 st stamp epoch 4 (fieldOf 40 e40) g
  let x := specAt s6 l st
  putSpec s6 l st { x with hist := histKeep (ramanOldest s6 l) ({ stamp := stamp, t40 := a40, flag := f } :: x.hist) }

/-- R190: tracking after an output: K_PREV, the hard-bound count, and the return to CAPTURING after four. -/
def trackStation (s : State) (l st : Nat) (r : SpecResult) : State :=
  let s1 := match r.kpk with | none => s | some k => recSet s l st 6 1 k
  if r.hard then
    let h := hardCount s l st + 1
    if 4 ≤ h then
      let s2 := setSpecState s1 l st 1 0
      let s3 := recSet (recSet (recSet s2 l st 3 3 0) l st 10 1 0) l st 8 2 tr0None
      bump (putSpec s3 l st { specAt s3 l st with fresh := true }) (dsRecaptureCount l)
    else setSpecState s1 l st 2 h
  else setSpecState s1 l st 2 0

/-- R191: re-datum: every accumulation cell of the set becomes the datum, B = S and K_PREV = 0. -/
def redatum (s : State) (c : SpecCfg) (l st tag : Nat) (v : Int) : State :=
  let s1 := forEach (specPoints c) s (fun s n => let (a, k) := accCell s l st n tag; putCell s 1 l st n a k)
  bump (recSet (recSet s1 l st 3 3 v) l st 6 1 0) (dsRedatumCount l)

/-- R189 to R195: the output of one station at the end of a period. A station that is not VALID, or was not at the period's
start, gives DATUM_PENDING; in the latter case its ACT starts anew for the next period. -/
def outputStation (c : SpecCfg) (l n tag stamp epoch : Nat) (t : Fin 8) (beyond : Nat → Bool) (s : State) (st : Nat) :
    State :=
  let x := specAt s l st
  let m := marksAt x tag
  let mf := 64 * b2n m.clip + 128 * b2n m.stale
  if specState s l st ≠ 2 ∨ tag < x.from_ then
    emitSpectral (if specState s l st = 2 then restartAct s l st else s) t l n st stamp epoch 0 (0, 0, 0, 0) 0
      (1 + mf + 256 * b2n (beyond st)) false
  else
    let acc := (specPoints c).map (fun n => accCell s l st n tag)
    let dat := (specPoints c).map (fun n => cellAt s 1 l st n)
    let base := signedOf 30 (recField s l st 3 3)
    let r := specDecide c (signedOf 30 (recField s l st 0 3)) base (signedOf 10 (recField s l st 6 1)) (beyond st) acc dat
    let s1 := trackStation (restartAct s l st) l st r
    let s2 := if r.pass then recSet s1 l st 0 3 r.value else s1
    let kp := (r.kpk.getD 0).natAbs
    let redo := c.auto && r.pass && decide (c.redatumK ≤ kp) && !m.clip && !m.stale && decide (x.act ≤ c.quiet)
    let s3 := if redo then redatum s2 c l st tag r.value else s2
    let isNew := r.pass && x.fresh
    let s4 := if isNew then putSpec s3 l st { specAt s3 l st with fresh := false } else s3
    let (conv, noTemp) := convertAt s4 l st r.value
    let f := r.flag + mf + 16 * b2n redo + 32 * b2n isNew
    let s5 := if r.flag = 4 then bump s4 (dsRangeCount l) else if r.flag = 2 then bump s4 (dsWeakCount l) else s4
    emitSpectral s5 t l n st stamp epoch r.value conv r.q f noTemp

/-- R223: the stations that one slice works on: at most 2,048 cycles a lane, and one station at least. -/
def sliceLen (cost : Nat) : Nat := max 1 (2048 / max cost 1)

/-- The stations of a traverse whose index within the lane block lies in a slice. -/
def sliceStations (s : State) (l n : Nat) (t : Fin 8) (next len : Nat) : List Nat :=
  let b := max 1 (laneBlock s l n)
  let (f, k) := travStations s l n t
  ((List.range k).filter (fun i => decide (next ≤ i % b ∧ i % b < next + len))).map (fun i => f + i)

/-- R197: cycles of an output or a capture block a station. -/
def outputCost (c : SpecCfg) (capture : Bool) : Nat :=
  if capture then 4 + 2 * c.cLine else 1110 + (2 * c.w + 1) * (c.cLine + 54)

/-- R186, R189, R223: one slice of an output request's work, from an index within the lane block on; none while a freeze refuses
class C0 (R432). The answer says where the next slice starts, if one is left. -/
def outputSlice (s : State) (l : Nat) (t : Fin 8) (tag stamp epoch : Nat) (capture : Bool) (next : Nat) : State × Option Nat :=
  match specCfg s l with
  | none => (s, none)
  | some c =>
    let n := cohStations s l
    let b := laneBlock s l n
    let cost := outputCost c capture
    let len := sliceLen cost
    let own := sliceStations s l n t next len
    let g := (slotsOf s l).foldl (fun a x => max a x.g) 1
    let s1 := if c0Refused s then s
      else if capture then own.foldl (commitStation c l tag) s
      else own.foldl (outputStation c l n tag stamp epoch t (fun st => beyondBreak s l g st)) s
    let two := !capture && own.any (fun st => decide ((segmentOf s l st).1 = 2))
    (addBusy s1 t ((min len (b - next)) * (if own.isEmpty then 0 else cost + 12 * b2n two)),
     if next + len < b then some (next + len) else none)

/-- R188: stations of a line that are not VALID. -/
def pendingStations (s : State) (l : Nat) : Nat :=
  ((List.range (cohStations s l)).filter (fun st => specState s l st ≠ 2)).length

/-- R188: the capture has run for 16 × CAP_SWEEPS sweeps and stations are still pending. -/
def datumSlowSt (l : Fin 2) (s : State) : State :=
  match specCfg s l.val with
  | none => s
  | some c =>
    let X := vget s.sense.specLine l
    let p := pendingStations s l.val
    if 0 < p ∧ X.slow = false ∧ X.capStart ≠ 0 ∧ 16 * c.capSweeps ≤ X.done_ then
      logEvent { s with sense := { s.sense with specLine := vset s.sense.specLine l { X with slow := true } } }
        0x019 6 1 l.val p
    else s

/-- R188 DATUM_SLOW. -/
def execDatumSlow (line : Fin 2) (s : State) : Host.Outcome State Fault Refusal := .next (datumSlowSt line s)

/-- R194: a Raman output reaches the lane of a coherent station in mode 2; one that has no T_R0 records it from the first valid
value. -/
def deliverTR (s : State) (l st : Nat) (v : Option Int) : State :=
  if (segmentOf s l st).1 = 2 then
    let s1 := putSpec s l st { specAt s l st with tR := v }
    match v with
    | some v => if specState s l st = 2 ∧ signedOf 20 (recField s l st 8 2) = tr0None then recSet s1 l st 8 2 v else s1
    | none => s1
  else s

end Sys2Proof.Machine
end

