-- ==== Sys2Proof/Machine/Zones.lean ====
section
/-! DEFINITION. Zones, the zone query port, the ALARM pins and the loop outputs (spec R301 to R317). -/

namespace Sys2Proof.Machine
open Sys2Proof

/-- The state with zones, port, pins and loops changed. -/
def modZn (s : State) (f : ZnSt → ZnSt) : State := { s with zn := f s.zn }

/-- A zone's state. -/
def zoneAt (s : State) (z : Nat) : ZoneSt := tabGet ZoneSt.zero s.zn.zones z

/-- Puts a zone's state. -/
def putZone (s : State) (z : Nat) (x : ZoneSt) : State := modZn s (fun n => { n with zones := tabPut n.zones z x })

/-- R306: the 4-bit state of a zone: level, STALE, FAULT. -/
def zoneNib (x : ZoneSt) : Nat := x.level + 4 * b2n (decide (x.stale ≠ 0)) + 8 * b2n (decide (x.fault ≠ 0))

/-- R304: the lowest code of the active causes, 0 for none. -/
def lowCause (m : Nat) : Nat := ((List.range 5).find? (fun i => bitOf m i)).elim 0 (fun i => i + 1)

/-- R306: what the port's table shows at an address. -/
def portState (s : State) (addr : Nat) : Nat :=
  if noPlan s then 12 else if (zoneCfg s addr).isSome then tabGet 4 s.zn.port addr else 8

/-- R306: ZQ_DP, odd parity over ZQ_D and itself. -/
def portParity (nib : Nat) : Nat := (1 + (bitsOf nib 0 0 + bitsOf nib 1 1 + bitsOf nib 2 2 + bitsOf nib 3 3)) % 2

/-- R306: what ZQ_D and ZQ_DP drive; none while ZQ_CS_N is high. -/
def portPins (s : State) : Option (Nat × Nat) :=
  if s.zn.selected then let v := portState s s.zn.addr; some (v, portParity v) else none

/-! ### ALARM pins -/

/-- R309: some zone asks for a pin. -/
def pinWanted (s : State) (n : Nat) : Bool :=
  noPlan s ||
    (match recBy s 0x162 n with
     | none => false
     | some p =>
       (zonesOf s).any (fun c => bitOf c.pins n &&
         (let v := tabGet 4 s.zn.port c.z
          decide (wAt p 1 1 ≤ v % 4) || (bitOf (wAt p 2 1) 0 && decide (4 ≤ v)))))

/-- R309: STRETCH of a pin in ms. -/
def pinStretch (s : State) (n : Nat) : Nat := match recBy s 0x162 n with | none => 0 | some p => wAt p 3 1

/-- R309: a pin follows the port; it stays asserted until STRETCH has passed since it became asserted. -/
def evalPin (s : State) (n : Fin 4) : State :=
  let on := vget s.zn.pins n
  if pinWanted s n.val then
    if on then s
    else modZn s (fun z => { z with pins := vset z.pins n true, pinAt := vset z.pinAt n (elapsed s) })
  else if on && decide (vget s.zn.pinAt n + pinStretch s n.val * msU ≤ elapsed s) then
    modZn s (fun z => { z with pins := vset z.pins n false })
  else s

/-- R309: every pin. -/
def evalPins (s : State) : State := (List.finRange 4).foldl evalPin s

/-! ### The port -/

/-- R308: a zone update reaches the port: applied while ZQ_CS_N is high, else held, or forced once 1 µs has passed. -/
def portUpdate (s : State) (z nib : Nat) : State :=
  if s.zn.selected && !s.zn.forcing then
    modZn s (fun n => { n with held := n.held.filter (fun h => h.1 ≠ z) ++ [(z, nib)] })
  else
    let s1 := modZn s (fun n => { n with port := tabPut n.port z nib })
    evalPins (if s.zn.selected then bump s1 znForcedCount else s1)

/-- The held updates are applied. -/
def applyHeld (s : State) : State :=
  evalPins (modZn s (fun n => { n with port := n.held.foldl (fun t h => tabPut t h.1 h.2) n.port, held := [] }))

/-- R308 ZONE_PORT_UPDATE: the zone's present state reaches the always-on island. -/
def execZonePortUpdate (z : Fin 4096) (s : State) : Host.Outcome State Fault Refusal :=
  .next (whenB (zoneCfg s z.val).isSome s (portUpdate s z.val (zoneNib (zoneAt s z.val))))

/-- R307 ZQ_SELECT: ZQ_CS_N falls and the port drives the addressed zone. -/
def execZqSelect (addr : Fin 4096) (s : State) : Host.Outcome State Fault Refusal :=
  .next (modZn s (fun n => { n with selected := true, forcing := n.forcing && n.selected, addr := addr.val }))

/-- R307 ZQ_ADDRESS_CHANGE. -/
def execZqAddressChange (addr : Fin 4096) (s : State) : Host.Outcome State Fault Refusal :=
  .next (modZn s (fun n => { n with addr := addr.val }))

/-- R308 ZQ_DESELECT: ZQ_CS_N rises; the held updates apply. -/
def execZqDeselect (s : State) : Host.Outcome State Fault Refusal :=
  .next (applyHeld (modZn s (fun n => { n with selected := false, forcing := false })))

/-- R308 ZQ_FORCE_TIMEOUT: ZQ_CS_N has been low for 1 µs. -/
def execZqForceTimeout (s : State) : Host.Outcome State Fault Refusal :=
  .next (whenB (s.zn.selected && !s.zn.forcing) s
    (applyHeld (bumpBy (modZn s (fun n => { n with forcing := true })) znForcedCount s.zn.held.length)))

/-- R309 ALARM_STRETCH_EXPIRY. -/
def execAlarmStretchExpiry (pin : Fin 4) (s : State) : Host.Outcome State Fault Refusal := .next (evalPin s pin)

/-! ### Loops -/

/-- The state with one loop changed. -/
def modLoop (s : State) (n : Fin 8) (f : LoopSt → LoopSt) : State :=
  modZn s (fun z => { z with loops := vmod z.loops n f })

/-- R311: the causes that hold at a loop now, cause c at bit c. -/
def loopCauses (s : State) (n : Fin 8) : Nat :=
  let c := loopCfg s n.val
  let x := vget s.zn.loops n
  let zone := decide (c.src = 1 ∨ c.src = 2)
  let z := zoneAt s c.idx
  let bit (i : Nat) (b : Bool) : Nat := if b then 2 ^ i else 0
  bit 1 (zone && (zoneCfg s c.idx).isSome && (decide (z.fault ≠ 0) || decide (bitsPut z.stale 2 2 0 ≠ 0)))
    + bit 2 (zone && !s.keeper.scsLock)
    + bit 3 (decide (c.src = 3) && (match (List.finRange 4).find? (fun r => r.val = c.idx) with
        | none => false | some r => (vget s.hk.rtd r).open_))
    + bit 4 (inStandby s && c.stby1)
    + bit 5 (noPlan s || !x.updated)

/-- R310: the code a loop's source asks for in normal state; none before the source has a value. -/
def loopTarget (s : State) (n : Fin 8) : Option Nat :=
  let c := loopCfg s n.val
  let scaled (v : Int) : Nat :=
    (clampI 152000 820000 (160000 + (let d := c.vHi - c.vLo
      roundEven (if 0 < d then (v - c.vLo) * 640000 else 0) (max d 1).toNat))).toNat
  match c.src with
  | 0 => some 0
  | 1 => (zoneCfg s c.idx).map (fun _ => scaled (zoneAt s c.idx).a)
  | 2 => (zoneCfg s c.idx).map (fun _ => lget 0 c.codes (zoneAt s c.idx).level)
  | 3 => match (List.finRange 32).find? (fun r => r.val = c.idx) with
    | none => none
    | some r => if (vget s.hk.vals r).valid then some (scaled (vget s.hk.vals r).value) else none
  | _ => some (clampN 144000 840000 (getF s (hkLoopHostCode n.val)))

/-- A loop in normal state follows its source. -/
def retarget (s : State) (n : Fin 8) : State :=
  if (vget s.zn.loops n).st = .normal then
    match loopTarget s n with
    | none => s
    | some v => modLoop s n (fun x => { x with code := v })
  else s

/-- R311: the loop goes to its fault current for a cause. -/
def loopFault (s : State) (n : Fin 8) (cause : Nat) : State :=
  let low := decide (cause = 3 ∨ cause = 5) || bitOf (loopCauses s n) 3 || !(loopCfg s n.val).dirHigh
  modLoop s n (fun x =>
    { x with cause := if x.st = .fault then x.cause else cause, st := .fault, code := if low then 144000 else 840000,
             clearAt := none })

/-- R311: the loop's causes are looked at again: immediate ones drive the fault current, a zone cause starts or stops
its timer, and a fault current without a cause starts its release time. -/
def loopCheck (s : State) (n : Fin 8) : State :=
  let m := loopCauses s n
  let x := vget s.zn.loops n
  let c := loopCfg s n.val
  let newly (i : Nat) : Bool := bitOf m i && !(bitOf x.active i)
  let now := elapsed s
  let s1 := modLoop s n (fun x =>
    { x with active := m, since := if bitOf m 1 then some (x.since.getD now) else none,
             clearAt := if x.st = .fault ∧ m = 0 then some (x.clearAt.getD now) else none })
  let s2 := if !(bitOf m 1) && (match x.since with | none => false | some t => decide (t + c.faultMs * msU ≤ now))
    then (let y := loopFault s1 n 1
          modLoop y n (fun x => { x with clearAt := if m = 0 then some now else none })) else s1
  let s3 := if newly 5 then loopFault s2 n 5 else s2
  let s4 := if newly 4 then loopFault s3 n 4 else s3
  let s5 := if newly 2 then loopFault s4 n 2 else s4
  if newly 3 then loopFault s5 n 3 else s5

/-- Every loop is looked at and follows its source. -/
def loopsRefresh (s : State) : State := (List.finRange 8).foldl (fun s n => retarget (loopCheck s n) n) s

/-- R311, R314: a source has updated. -/
def loopSourceUpdated (s : State) (p : LoopCfg → Bool) : State :=
  (List.finRange 8).foldl (fun s n =>
    if p (loopCfg s n.val) then retarget (loopCheck (modLoop s n (fun x => { x with updated := true })) n) n else s) s

/-- R311: Benchmark releases a loop in fault current whose causes have all cleared; none where a cause holds. -/
def loopRelease (s : State) (n : Fin 8) : Option State :=
  if loopCauses s n ≠ 0 then none
  else
    let x := vget s.zn.loops n
    if x.st ≠ .fault then some s
    else
      let c := loopCfg s n.val
      let st : LoopState := if c.src = 0 then .off else if inStandby s then .hold else .normal
      some (retarget (modLoop s n (fun x =>
        { x with st := st, cause := 0, ask := false, clearAt := none, code := if c.src = 0 then 0 else x.code })) n)

/-- R43: the answer to a mailbox request: its code, the status and the detail word. -/
def mbxAnswer (s : State) (code status detail : Nat) : State :=
  let s1 := setF (setF s bmMbxLastCode code) bmMbxLastStatus status
  { s1 with keeper := { s1.keeper with detail := detail } }

/-- R43: status values of the mailbox. -/
def mbxGranted : Nat := 0
def mbxRefusedState : Nat := 1
def mbxRefusedCondition : Nat := 2

/-- R43: REFUSED_CONDITION; the spec states no codes for the detail word, so it is a free value. -/
def mbxRefuse (s : State) (code : Nat) : State :=
  let (v, s1) := draw s
  mbxAnswer s1 code mbxRefusedCondition (v % 1024)

/-- R43 code 0x009: Fieldbook asks Benchmark to release a loop. -/
def mbxLoopReleaseSt (n : Fin 8) (s : State) : State :=
  match loopRelease s n with
  | some t => mbxAnswer t 9 mbxGranted 0
  | none => mbxRefuse s 9

/-- R311 LOOP_FAULT_TIMER: a zone cause has persisted for FAULT_MS. -/
def execLoopFaultTimer (n : Fin 8) (s : State) : Host.Outcome State Fault Refusal :=
  .next (whenB (match (vget s.zn.loops n).since with
    | none => false | some t => decide (t + (loopCfg s n.val).faultMs * msU ≤ elapsed s)) s (loopFault s n 1))

/-- R311 LOOP_RELEASE_TIMER: RELEASE_MS after every cause has cleared Fieldbook requests the release. -/
def execLoopReleaseTimer (n : Fin 8) (s : State) : Host.Outcome State Fault Refusal :=
  .next (whenB (!(loopCfg s n.val).manual && (match (vget s.zn.loops n).clearAt with
    | none => false | some t => decide (t + (loopCfg s n.val).releaseMs * msU ≤ elapsed s))) s (mbxLoopReleaseSt n s))

/-- R311, R317: a write of 1 to HK_LOOPn_CMD.RELEASE. -/
def loopReleaseCmdSt (n : Fin 8) (s : State) : State := whenB (loopCfg s n.val).manual s (mbxLoopReleaseSt n s)

/-- R311 LOOP_RELEASE_CMD. -/
def execLoopReleaseCmd (n : Fin 8) (s : State) : Host.Outcome State Fault Refusal := .next (loopReleaseCmdSt n s)

/-- R312 LOOP_OPEN: the drive at its limit and the current 0.5 mA low for 50 ms. -/
def execLoopOpen (n : Fin 8) (s : State) : Host.Outcome State Fault Refusal :=
  .next (logEvent (setF s (hkLoopStatusOpen n.val) 1) 0x020 3 2 n.val 0)

/-- R312 LOOP_DEVIATION: the current off its code by 0.2 mA for 1 s, without OPEN. -/
def execLoopDeviation (n : Fin 8) (s : State) : Host.Outcome State Fault Refusal :=
  .next (whenB (!(isSet s (hkLoopStatusOpen n.val))) s
    (logEvent (setF s (hkLoopStatusDeviating n.val) 1) 0x021 3 1 n.val (vget s.zn.loops n).sense))

/-- R312 LOOP_CONDITION_CLEAR: the condition has been absent for 1 s. -/
def execLoopConditionClear (n : Fin 8) (openCond : Bool) (s : State) : Host.Outcome State Fault Refusal :=
  .next (setF s (if openCond then hkLoopStatusOpen n.val else hkLoopStatusDeviating n.val) 0)

/-! ### Zone event frames -/

/-- R315: a record of a zone's change. -/
def zoneRecord (z old : Nat) (x : ZoneSt) : List Word :=
  wordsOf 2 z ++ [BitVec.ofNat 10 (old + 16 * zoneNib x), BitVec.ofNat 10 (lowCause x.fault + 8 * lowCause x.stale)]
    ++ timeWords x.stamp ++ wordsOf 4 (fieldOf 40 x.a) ++ [0]

/-- R315: records of at most 12 go in one frame, which takes the next sequence number whether it is sent or not. -/
def sendZoneRecords (epoch : Nat) : Nat → List (List Word) → State → State
  | 0, _, s => s
  | _ + 1, [], s => s
  | fuel + 1, r :: rs, s =>
    let now := (r :: rs).take 12
    let seq := s.zn.seq
    let pay := [BitVec.ofNat 10 now.length] ++ wordsOf 2 seq ++ [BitVec.ofNat 10 epoch] ++ now.flatten
    let s1 := modZn s (fun n => { n with seq := (seq + 1) % 2 ^ 20 })
    let (s2, ok) := if linkHas s1 0 13 then sendOn s1 0 (ownFrame s1 (ftypeOf 0 7) hostAddr 0 pay) else (s1, false)
    sendZoneRecords epoch fuel ((r :: rs).drop 12) (bumpBy s2 (if ok then znEventsCount else znEvdropCount) now.length)

/-- R315: the zones whose port state has changed are reported; loops and pins see the changes. -/
def publish (s : State) (zs : List Nat) (epoch : Nat) : State :=
  let recs := zs.filterMap (fun z =>
    let x := zoneAt s z
    if x.shown = zoneNib x then none
    else match zoneCfg s z with
      | none => none
      | some c => if c.events then some (zoneRecord z x.shown x) else none)
  let s1 := sendZoneRecords epoch (recs.length + 1) recs s
  zs.foldl (fun s z => let x := zoneAt s z; putZone s z { x with shown := zoneNib x }) s1

/-! ### Evaluation -/

/-- One output of a row: output station, value, stream flag word, OR of the product flag words behind it. -/
structure RowOut where
  k : Nat
  o : Int
  flag : Nat
  pflags : Nat
  deriving DecidableEq, Repr

/-- R302: the aggregate over the accepted values, none where there are none. -/
def aggregate (c : ZoneCfg) (vs : List Int) : Option Int :=
  match vs with
  | [] => none
  | v :: t =>
    some (match c.agg with
      | 0 => t.foldl max v
      | 1 => t.foldl min v
      | 2 => min ((t.foldl (fun a x => max a x.natAbs) v.natAbs : Nat) : Int) (2 ^ 39 - 1)
      | 3 => roundEven (sumI vs) vs.length
      | _ => ((vs.filter (fun x => decide (c.cntTh < x))).length : Int))

/-- R303: the levels after an evaluation that neither FAULT nor STALE stops: new timers and level. -/
def zoneLevel (c : ZoneCfg) (x : ZoneSt) (stamp : Nat) : ZoneSt :=
  let step (i : Fin 3) : Option Nat × Option Nat × Bool × Bool :=
    let th := lget 0 c.th i.val
    let en := bitOf c.en i.val
    let up := en && (if c.below then decide (x.a < th) else decide (th < x.a))
    let dn := if c.below then decide (th + c.hyst ≤ x.a) else decide (x.a ≤ th - c.hyst)
    let su := if up then some ((vget x.up i).getD stamp) else none
    let sd := if dn then some ((vget x.dn i).getD stamp) else none
    let on := up && decide ((su.getD stamp) + c.onMs * msU ≤ stamp)
    let off := dn && decide ((sd.getD stamp) + c.offMs * msU ≤ stamp)
    (su, sd, on, en && decide (i.val + 1 ≤ x.level) && !off)
  let rs := (List.finRange 3).map step
  let lvl := (rs.zipIdx).foldl (fun a r => if r.1.2.2.1 || r.1.2.2.2 then r.2 + 1 else a) 0
  { x with up := Vector.ofFn (fun i : Fin 3 => (step i).1), dn := Vector.ofFn (fun i : Fin 3 => (step i).2.1),
           level := if c.latch && !x.unlatch then max lvl x.level else lvl, unlatch := false }

/-- R304: the debounce timers stop while FAULT or STALE is set, and run on from where they stood. -/
def thaw (x : ZoneSt) (stamp : Nat) : ZoneSt :=
  match x.frz with
  | none => x
  | some t =>
    let d := stamp - t
    { x with up := x.up.map (fun o => o.map (· + d)), dn := x.dn.map (fun o => o.map (· + d)), frz := none }

/-- R302 to R304: a zone after one output row. -/
def zoneAfterRow (s : State) (c : ZoneCfg) (row : List RowOut) (stamp : Nat) (x : ZoneSt) : ZoneSt :=
  let ks := (List.range (c.last + 1 - c.first)).map (fun i => c.first + i)
  let took := ks.filterMap (fun k => (row.find? (fun r => r.k = k)).bind (fun r =>
    if r.flag &&& c.zexcl ≠ 0 ∨ r.pflags &&& c.zpexcl ≠ 0 then none else some r.o))
  let excl := ks.length - took.length
  let shed := match streamAt s c.stream with | none => false | some y => streamShed s y
  let oos := (zoneSlice s c).isNone
  let f := b2n (decide (c.faultPct * ks.length < 100 * excl)) + 2 * b2n shed + 4 * b2n (zoneBeyond s c) + 8 * b2n oos
  let st := bitsPut (bitsPut x.stale 0 0 0) 4 4 0
  let y := { x with a := (aggregate c took).getD x.a, fault := f, stale := st, lastEval := elapsed s, stamp := stamp }
  if f ≠ 0 ∨ st ≠ 0 then { y with frz := some (x.frz.getD stamp) } else zoneLevel c (thaw y stamp) stamp

/-- R302: the zones of a stream evaluate on a row of its outputs. -/
def zonesRow (s : State) (n : Nat) (row : List RowOut) (stamp epoch : Nat) : State :=
  let cs := (zonesOf s).filter (fun c => decide (c.stream = n))
  if cs.isEmpty || noPlan s then s
  else
    let s1 := cs.foldl (fun s c => putZone s c.z (zoneAfterRow s c row stamp (zoneAt s c.z))) s
    let s2 := cs.foldl (fun s c => match (List.finRange 2).find? (fun l => zoneLine s c = some l.val), zoneSlice s c with
      | some l, some t =>
        (match vget s.zn.shotSince l with
         | none => s
         | some t0 => if t0 ≤ stamp ∧ lineSensing s l.val = true then
             modZn s (fun z => { z with evalSince := vmod z.evalSince l (fun e => if e.contains t.val then e else e ++ [t.val]) })
           else s)
      | _, _ => s) s1
    let zs := cs.map (fun c => c.z)
    loopSourceUpdated (publish s2 zs epoch) (fun c => decide (c.src = 1 ∨ c.src = 2) && zs.contains c.idx)

/-- Zones get a cause or lose it, and the always-on island shows it at once: code at bit code − 1. -/
def markZones (s : State) (p : ZoneCfg → Bool) (f : ZoneSt → ZoneSt) : State :=
  let cs := (zonesOf s).filter p
  let s1 := cs.foldl (fun s c =>
    let x := zoneAt s c.z
    let y := f x
    putZone s c.z { y with stamp := stampNow s,
                           frz := if y.fault ≠ 0 ∨ y.stale ≠ 0 then some (x.frz.getD (stampNow s)) else x.frz }) s
  let zs := cs.map (fun c => c.z)
  let s2 := zs.foldl (fun s z => portUpdate s z (zoneNib (zoneAt s z))) s1
  loopsRefresh (publish s2 zs (vget s.fu.epoch 0))

/-- R304, R305: STALE of a code on the zones of a line. -/
def staleLine (s : State) (l : Fin 2) (code : Nat) : State :=
  let s1 := modZn s (fun n => { n with evalSince := vset n.evalSince l [], shotSince := vset n.shotSince l none })
  markZones s1 (fun c => decide (zoneLine s c = some l.val)) (fun x => { x with stale := x.stale ||| 2 ^ (code - 1) })

/-- R304 code 4: STALE on the zones whose source product is a DAS or spectral shift product. -/
def staleFreeze (s : State) : State :=
  let s1 := modZn s (fun n => { n with evalSince := Vector.replicate 2 [], shotSince := Vector.replicate 2 none })
  markZones s1 (fun c => match streamAt s c.stream with
    | none => false | some x => decide (0x010 ≤ x.product ∧ x.product ≤ 0x02F)) (fun x => { x with stale := x.stale ||| 8 })

/-- R314: a reset clears the debounce timers of a line's zones. -/
def clearTimers (s : State) (l : Fin 2) : State :=
  ((zonesOf s).filter (fun c => decide (zoneLine s c = some l.val))).foldl (fun s c =>
    let x := zoneAt s c.z
    putZone s c.z { x with up := Vector.replicate 3 none, dn := Vector.replicate 3 none,
                           frz := x.frz.map (fun _ => stampNow s) }) s

/-- R304 ZONE_STALE_TIMEOUT: no evaluation for STALE_MS. -/
def zoneStaleSt (z : Fin 4096) (s : State) : State :=
  match zoneCfg s z.val with
  | none => s
  | some c =>
    if (zoneAt s z.val).lastEval + c.staleMs * msU ≤ elapsed s then
      markZones s (fun d => decide (d.z = z.val)) (fun x => { x with stale := x.stale ||| 1 })
    else s

/-- R304 ZONE_STALE_TIMEOUT. -/
def execZoneStaleTimeout (z : Fin 4096) (s : State) : Host.Outcome State Fault Refusal := .next (zoneStaleSt z s)

/-- R303, R317: a write of 1 to ZN_ACK removes the latch of the selected zone once. -/
def znAckSt (s : State) : State :=
  let z := getF s znSelZone
  match zoneCfg s z with
  | none => s
  | some c => if c.latch then putZone s z { zoneAt s z with unlatch := true } else s

/-- R303 ZN_ACK. -/
def execZnAck (s : State) : Host.Outcome State Fault Refusal := .next (znAckSt s)

/-- R314: a ZONE record takes effect: L 0, no timers, no latch, STALE code 5 until the first evaluation. -/
def defineZone (s : State) (z : Nat) : State :=
  let x := { ZoneSt.zero with lastEval := elapsed s, frz := some (stampNow s), stamp := stampNow s, shown := (zoneAt s z).shown }
  publish (portUpdate (putZone s z x) z (zoneNib x)) [z] (vget s.fu.epoch 0)

/-- R43 code 0x00A: the slices that hold a zone of the line. -/
def zoneSlices (s : State) (l : Nat) : List Nat :=
  (((zonesOf s).filter (fun c => decide (zoneLine s c = some l))).filterMap (fun c => (zoneSlice s c).map (fun t => t.val))).eraseDups

/-- R43, R304: STALE_CLEAR for a line. -/
def mbxStaleClearSt (l : Fin 2) (s : State) : State :=
  let ok := lineSensing s l.val && (vget s.zn.shotSince l).isSome
    && (zoneSlices s l.val).all (fun t => (vget s.zn.evalSince l).contains t)
  if ok then
    mbxAnswer (markZones s (fun c => decide (zoneLine s c = some l.val))
      (fun x => { x with stale := x.stale &&& 17 })) 10 mbxGranted 0
  else mbxRefuse s 10

end Sys2Proof.Machine
end

