-- ==== Sys2Proof/Machine/Line.lean ====
section
/-! DEFINITION. Arming and disarming a line, its interlock, fibre break, and the APD bias pin (spec R99, R100, R104,
R105, R490). -/

namespace Sys2Proof.Machine
open Sys2Proof

/-! ### The APD bias pin -/

/-- R490: the code that Ln_APDB is to show. -/
def apdWanted (s : State) (l : Fin 2) : Nat :=
  if isSet s (hkApdbFollowArm l.val) && !(isSet s (psStatusArmed l.val)) then 0 else getF s (hkApdbCode l.val)

/-- R490: Ln_APDB follows its code; a change within a capture window waits for the window's end. -/
def apdUpdate (s : State) (l : Fin 2) : State :=
  let w := apdWanted s l
  modConv s l (fun C =>
    if C.inWindow then { C with apdPend := if w = C.apdCode then none else some w }
    else { C with apdCode := w, apdPend := none })

/-! ### Disarming -/

/-- R99: a line is disarmed: Ln_LASER_EN low, the DACs at zero code. -/
def disarmLine (s : State) (l : Fin 2) : State :=
  let s1 := modProbe (setF (cutLine s l) (psStatusArmed l.val) 0) l (fun P => { P with laserEn := false })
  apdUpdate s1 l

/-- R444: the bit of a line among those to be armed again. -/
def setRearm (s : State) (l : Fin 2) (on : Bool) : State :=
  { s with keeper := { s.keeper with rearm :=
      if on then s.keeper.rearm ||| BitVec.ofNat 2 (2 ^ l.val) else s.keeper.rearm &&& ~~~(BitVec.ofNat 2 (2 ^ l.val)) } }

/-- R444: an event disarms a line; an active line that was armed is to be armed again. -/
def disarmForEvent (s : State) (l : Fin 2) : State :=
  let was := isSet s (psStatusArmed l.val) && lineActive s l.val
  disarmLine (if was then setRearm s l true else s) l

/-- R43, R99: LASER_DISARM. -/
def laserDisarmSt (l : Fin 2) (s : State) : State :=
  mbxAnswer (staleLine (disarmLine (setRearm s l false) l) l 2) 4 mbxGranted 0

/-! ### Arming -/

/-- R48: the highest lifecycle state of which two of three bits are 1: 0 MANUFACTURE, 1 PROVISIONED, 2 FIELD, 3
RETURN. -/
def lifecycleOf (b : BitVec 9) : Nat :=
  let three (i : Nat) : Nat := bitsOf (b.toNat) i i + bitsOf (b.toNat) (i + 1) (i + 1) + bitsOf (b.toNat) (i + 2) (i + 2)
  if 2 ≤ three 6 then 3 else if 2 ≤ three 3 then 2 else if 2 ≤ three 0 then 1 else 0

/-- The lifecycle state. -/
def lifecycle (s : State) : Nat := lifecycleOf s.keeper.otp.life

/-- R43: the conditions of LASER_ARM. The envelope record of R101 can only come from the verified plan (R68). -/
def armConditions (s : State) (l : Fin 2) : Bool :=
  lineActive s l.val && (envelopeOf s l.val).isSome && !(vget s.probe l).ilkLow && s.keeper.scsLock
    && !(isSet s (psBreakActive l.val))

/-- R97: the first grid point at or after a time. -/
def gridUp (t : Nat) : Nat := ceilDiv t gridU * gridU

/-- R99, R97, R105: a line is armed at full power with its PS_MUTE clear; the settle time runs from the rise of Ln_LASER_EN; a
schedule that waits for the grant takes its origin. A grant within
a microsecond of the fall of Ln_ILK_N does not arm (R100). -/
def armLine (s : State) (l : Fin 2) : State :=
  let near := match (vget s.probe l).ilkAt with | none => false | some t => decide (elapsed s < t + usU)
  if near then s
  else
    let P0 := vget s.probe l
    let settle := if P0.laserEn then P0.settleTo else stampNow s + settleTenths s l.val * 100 * usU
    let s0 := setF (setF (setF (dacNow s l) (psStatusArmed l.val) 1) (psMuteMuted l.val) 0) (psMuteCause l.val) 0
    let s1 := setF s0 (psStatusApr l.val) 0
    let s2 := modProbe s1 l (fun P =>
      let P1 := if P.needOrigin then startOrigin P (gridUp (max settle (stampNow s))) else P
      { P1 with laserEn := !P1.ilkLow, settleTo := settle })
    apdUpdate s2 l

/-- R43, R47: LASER_ARM. DESIGN CHOICE (log entry 132): in standby outside an exit, which R43's conditions do not name, it is
answered REFUSED_STATE. -/
def laserArmSt (l : Fin 2) (s0 : State) : State :=
  let s := setRearm s0 l false
  if lifecycle s = 3 ∨ inStandby s = true ∧ s.keeper.transit ≠ 2 then mbxAnswer s 3 mbxRefusedState 0
  else if armConditions s l then mbxAnswer (armLine s l) 3 mbxGranted 0
  else mbxRefuse s 3

/-- R444: Fieldbook requests LASER_ARM for the lines to be armed again; a line still in its LINE reset waits for its
end (R32). -/
def rearmLines (s : State) : State :=
  (List.finRange 2).foldl (fun s l =>
    if s.keeper.rearm.getLsbD l.val && !(s.keeper.lineReset.getLsbD l.val) then laserArmSt l s else s) s

/-! ### The interlock -/

/-- R100: Ln_ILK_N falls. -/
def ilkTripSt (l : Fin 2) (s : State) : State :=
  if (vget s.probe l).ilkLow then s
  else
    let s1 := modProbe s l (fun P => { P with ilkLow := true, ilkAt := some (elapsed s), laserEn := false })
    let s2 := disarmLine (setRearm s1 l false) l
    staleLine (logEvent s2 0x014 0 2 l.val 0) l 2

/-- R100 INTERLOCK_TRIP. -/
def execInterlockTrip (line : Fin 2) (s : State) : Host.Outcome State Fault Refusal := .next (ilkTripSt line s)

/-- R100 INTERLOCK_RELEASE: ILK clears and the line stays disarmed. -/
def execInterlockRelease (line : Fin 2) (s : State) : Host.Outcome State Fault Refusal :=
  .next (modProbe s line (fun P => { P with ilkLow := false }))

/-! ### Fibre break -/

/-- R104: a break station on 8 consecutive launches of the monitor, each within one block of the first. -/
def breakFound (P : Probe) : Option Nat :=
  match P.breakRun with
  | [] => none
  | b :: _ => if 8 ≤ P.breakRun.length ∧ P.breakRun.all (fun x => decide (x ≤ b + 64 ∧ b ≤ x + 64)) = true then some b else none

/-- R104: FIBRE_BREAK is raised and the line drops to APR level; zones beyond the break get FAULT code 3. -/
def breakRaiseSt (l : Fin 2) (s : State) : State :=
  if isSet s (psBreakActive l.val) then s
  else match breakFound (vget s.probe l) with
    | none => s
    | some b =>
      let s1 := setF (setF (setF s (psBreakActive l.val) 1) (psBreakStation l.val) b) (psStatusApr l.val) 1
      let s2 := logEvent s1 0x015 (7 + l.val) 2 l.val b
      markZones s2 (fun c => decide (zoneLine s2 c = some l.val) && zoneBeyond s2 c) (fun x => { x with fault := x.fault ||| 4 })

/-- R104 FIBRE_BREAK_RAISE. -/
def execFibreBreakRaise (line : Fin 2) (s : State) : Host.Outcome State Fault Refusal := .next (breakRaiseSt line s)

/-- R105 FIBRE_BREAK_CLEAR: no break station on 8 consecutive monitor launches; the APR level stays. -/
def execFibreBreakClear (line : Fin 2) (s : State) : Host.Outcome State Fault Refusal :=
  .next (whenB (isSet s (psBreakActive line.val) && decide (8 ≤ (vget s.probe line).noBreakRun)) s
    (setF s (psBreakActive line.val) 0))

end Sys2Proof.Machine
end

