-- ==== Sys2Proof/Machine/Raman.lean ====
section
/-! DEFINITION. Raman temperature and fusion (spec R200 to R217): captures, blocks, the ratio to temperature, the coil
calibration, and the fused products. -/

namespace Sys2Proof.Machine
open Sys2Proof

/-! ### Configuration -/

/-- R219 RAMAN_COIL. -/
structure CoilCfg where
  first : Nat
  last : Nat
  a : Nat
  b : Nat
  period : Nat
  age : Nat
  deriving DecidableEq, Repr

/-- The line's RAMAN_COIL record. -/
def coilCfg (s : State) (l : Nat) : Option CoilCfg :=
  (recBy s 0x0C1 l).map (fun p =>
    { first := wAt p 1 2, last := wAt p 3 2, a := wAt p 5 1, b := wAt p 6 1,
      period := if wAt p 7 2 = 0 then 3600 else wAt p 7 2, age := if wAt p 9 2 = 0 then 86400 else wAt p 9 2 })

/-- R219 FUSION: FUSE_K and FUSE_GATE in mK. -/
def fusionCfg (s : State) (l : Nat) : Option (Nat × Nat) :=
  (recBy s 0x0C2 l).map (fun p => (wAt p 1 1, if wAt p 2 2 = 0 then 2000 else wAt p 2 2))

/-- The Raman state of a line changed. -/
def modRaman (s : State) (l : Fin 2) (f : RamanLine → RamanLine) : State :=
  { s with sense := { s.sense with ramanLine := vmod s.sense.ramanLine l f } }

/-- R209: C as last accepted, else C0. -/
def ramanC (s : State) (l : Fin 2) : Int :=
  match (vget s.sense.ramanLine l).c with
  | some c => c
  | none => match ramanCfg s l.val with | none => 0 | some c => c.c0

/-- R209: CAL_AGE in seconds. -/
def calAgeLimit (s : State) (l : Nat) : Nat := match coilCfg s l with | none => 86400 | some c => c.age

/-- R209: RM_CAL_AGE exceeds CAL_AGE. -/
def calOld (s : State) (l : Nat) : Bool := decide (calAgeLimit s l < getF s (rmCalAgeAge l))

/-! ### Restarts -/

/-- The cells of a line cleared, which gives every cell its empty value. -/
def clearCells (s : State) (l : Fin 2) : State :=
  { s with sense := { s.sense with rcell := tabKeep (fun k => decide (k / 2 ^ 18 ≠ l.val)) s.sense.rcell } }

/-- R204: the line's averaging restarts: cells and dark registers are empty, RESTART_BLOCKS is 0. -/
def restartAveraging (s : State) (l : Fin 2) : State :=
  setF (modRaman (clearCells s l) l (fun X => { X with dsum := Vector.replicate 2 0, dcnt := Vector.replicate 2 0, since := 0 }))
    (rmStatusRestartBlocks l.val) 0

/-- The request is for a Raman block of a line. -/
def ramanReq (l : Nat) (r : BgReq) : Bool := match r with | .raman k _ _ => decide (k = l) | _ => false

/-- R217: LINE reset, WARM reset, standby exit and the relock of the SCS: averaging restarts, T_LAST is 0, fusion is
unseeded, and SEQ of hooks 2 and 3 starts anew (R243); C, RM_CAL_AGE and UNCAL stay. -/
def ramanRestart (s : State) (l : Fin 2) : State :=
  let other (k : Nat) : Bool := decide (k / 2 ^ 18 ≠ l.val)
  let s1 := restartAveraging s l
  let s2 := modRaman s1 l (fun X => { X with open_ := none, rangeChanged := false, ready := [] })
  let s3 := { s2 with
    sense := { s2.sense with
      raman := tabKeep other s2.sense.raman, fuse := tabKeep other s2.sense.fuse,
      xmark := tabKeep (fun k => decide (k / 2 ^ 19 ≠ l.val)) s2.sense.xmark,
      spec := tabMap (fun _ => SpecSt.zero) (fun k x => if k / 2 ^ 18 = l.val then { x with tR := none } else x) s2.sense.spec,
      blocks := s2.sense.blocks.filter (fun b => decide (b.line ≠ l.val)) },
    xbuf := tabKeep (fun k => decide (k / 2 ^ 19 ≠ l.val)) s2.xbuf,
    trav := s2.trav.map (fun T =>
      { T with bg := T.bg.filter (fun r => !(ramanReq l.val r)), work := T.work.filter (fun w => !(ramanReq l.val w.req)) }) }
  seqRestart (seqRestart s3 l.val 2 (fun _ => true)) l.val 3 (fun _ => true)

/-! ### Coil RTDs -/

/-- R208: the readings of an RTD in the 60 s before an elapsed time, newest first; none where it carried OPEN or had no reading
for more than 1 s. -/
def rtdWindow (s : State) (n endAt : Nat) : Option (List RtdRead) :=
  match (List.finRange 4).find? (fun i => i.val = n) with
  | none => none
  | some i =>
    let R := vget s.hk.rtd i
    let lo : Int := (endAt : Int) - (60 * secU : Nat)
    let h := R.hist.filter (fun x => decide (lo ≤ x.at_ ∧ x.at_ ≤ endAt))
    let openIn := R.open_ || (match R.openAt with | none => false | some t => decide (lo ≤ (t : Int)))
    let ts : List Int := lo :: (h.map (fun x => ((x.at_ : Nat) : Int))).reverse ++ [(endAt : Int)]
    let gap := (ts.zip (ts.drop 1)).any (fun x => decide (x.1 + (secU : Nat) < x.2))
    if openIn || gap then none else some h

/-- Largest minus smallest of a list. -/
def spread (vs : List Int) : Int :=
  match vs with | [] => 0 | v :: t => t.foldl max v - t.foldl min v

/-- R208 codes 1 to 3 (0: none fails) at a block end, by elapsed time; and R209's sum and number of the readings stamped within
the block. -/
def coilTest (s : State) (c : CoilCfg) (first end_ endAt : Nat) : Nat × Int × Nat :=
  match rtdWindow s c.a endAt, rtdWindow s c.b endAt with
  | some a, some b =>
    let inBlock (n : Nat) : List Int := match (List.finRange 4).find? (fun i => i.val = n) with
      | none => []
      | some i => ((vget s.hk.rtd i).hist.filter (fun x => decide (first ≤ x.stamp ∧ x.stamp < end_))).map (·.temp)
    let vs := inBlock c.a ++ inBlock c.b
    if (a.zip b).any (fun x => decide (100 < (x.1.temp - x.2.temp).natAbs)) then (2, 0, 0)
    else if 50 < spread (a.map (·.temp)) ∨ 50 < spread (b.map (·.temp)) then (3, 0, 0)
    else if vs.isEmpty then (1, 0, 0)
    else (0, sumI vs, vs.length)
  | _, _ => (1, 0, 0)

/-- R210: RTD A or B reports OPEN: calibration of the line is suspended. -/
def coilSuspend (s : State) (rtd : Nat) : State :=
  (List.finRange 2).foldl (fun s l =>
    match coilCfg s l.val with
    | none => s
    | some c => if c.a = rtd ∨ c.b = rtd then modRaman s l (fun X => { X with suspended := true }) else s) s

/-- R210: no coil RTD of the line is open or has been for 60 s. -/
def coilClear (s : State) (c : CoilCfg) : Bool :=
  (List.finRange 4).all (fun i =>
    let R := vget s.hk.rtd i
    decide (i.val ≠ c.a ∧ i.val ≠ c.b) || (!R.open_ && (match R.openAt with | none => true | some t => decide (t + 60 * secU ≤ elapsed s))))

/-- R210 COIL_CAL_RESUME: both RTDs have given OPEN-free readings for 60 s. -/
def execCoilCalResume (line : Fin 2) (s : State) : Host.Outcome State Fault Refusal :=
  .next (match coilCfg s line.val with
    | none => s
    | some c => whenB (coilClear s c) s (modRaman s line (fun X => { X with suspended := false })))

/-- R207 COILCAL: an attempt is due at the next block end. -/
def coilcalSt (l : Fin 2) (s : State) : State := modRaman s l (fun X => { X with coilReq := true })

/-- R207, R220 COILCAL. -/
def execCoilcal (line : Fin 2) (s : State) : Host.Outcome State Fault Refusal := .next (coilcalSt line s)

/-- R209 CAL_AGE_EXPIRY: RM_CAL_AGE exceeds CAL_AGE. -/
def execCalAgeExpiry (line : Fin 2) (s : State) : Host.Outcome State Fault Refusal :=
  .next (setF s (rmCalAgeAge line.val) (max (getF s (rmCalAgeAge line.val)) (min 1048575 (calAgeLimit s line.val + 1))))

/-! ### Blocks -/

/-- R203: the leak of one value. -/
def leak (k : Nat) (v : Int) : Int := v - shrI v k

/-- R203: the leak of a cell, with FL cleared. -/
def leakCell (k : Nat) (x : RCell) : RCell :=
  { asum := leak k x.asum, ssum := leak k x.ssum, cnt := x.cnt - x.cnt / 2 ^ k, fl := 0 }

/-- R200, R203: the length of a block: OUT_CAP trigger points, D schedule points apart. -/
def blockSpan (s : State) (l outCap : Nat) : Nat :=
  outCap * (match ramanTrigger s l with | none => 1 | some (d, _) => d) * tShot s l * gridU

/-- R207, R210: the coil attempt of a block that ends, if one is due. -/
def attemptDue (s : State) (l : Fin 2) (X : RamanLine) (span : Nat) : Option (Nat × Int × Nat) :=
  match coilCfg s l.val with
  | none => none
  | some c =>
    if !X.suspended && (X.coilReq || isSet s (rmStatusUncal l.val) || decide (c.period ≤ X.sinceCal + 1)) then
      some (coilTest s c X.stamp (X.stamp + span) (X.at_ + span))
    else none

/-- The traverses of a line that can take a background request. -/
def bgRoom (s : State) (l : Nat) : List (Fin 8) := (lineTravs s l).filter (fun t => decide ((vget s.trav t).bg.length < 16))

/-- R203, R242: the end of the open block: delivery, leak and the clearing of FL. The entries of its bank of the exchange buffer
count as not valid until they are written. -/
def endBlock (s : State) (l : Fin 2) : State :=
  let X := vget s.sense.ramanLine l
  match X.open_, X.use with
  | some _, some (outCap, k, _) =>
    let att := attemptDue s l X (blockSpan s l.val outCap)
    let room := (bgRoom s l.val).foldl (fun m t => m ||| 2 ^ t.val) 0
    let b : RBlock :=
      { line := l.val, blk := X.count, stamp := X.stamp,
        cells := s.sense.rcell.filterMap (fun e => if e.1 / 2 ^ 18 = l.val then some (e.1 % 2 ^ 18, e.2) else none),
        dsum := X.dsum, dcnt := X.dcnt,
        gain := Vector.ofFn (fun i : Fin 2 => getF s (cvPgaGainGain l.val (4 * i.val + vget X.rng i))),
        rangeChanged := X.rangeChanged, restarted := decide (X.since < 2 ^ k), attempt := att,
        taken := room, due := room, epochs := X.epochs }
    let s1 := forEach (lineTravs s l.val) s (fun s t => requestBg s t (.raman l.val X.count X.stamp))
    let s2 := { s1 with sense := { s1.sense with
      blocks := if room = 0 then s1.sense.blocks else s1.sense.blocks ++ [b],
      xmark := tabKeep (fun a => decide (a / 2 ^ 18 ≠ l.val * 2 + X.count % 2)) s1.sense.xmark,
      rcell := tabMap (fun _ => RCell.zero) (fun a x => if a / 2 ^ 18 = l.val then leakCell k x else x) s1.sense.rcell } }
    setF (modRaman s2 l (fun X =>
      { X with dsum := Vector.ofFn (fun i => leak k (vget X.dsum i)),
               dcnt := Vector.ofFn (fun i => vget X.dcnt i - vget X.dcnt i / 2 ^ k),
               open_ := none, rangeChanged := false, count := X.count + 1, since := X.since + 1,
               sinceCal := if att.isSome then 0 else X.sinceCal + 1, coilReq := false }))
      (rmStatusRestartBlocks l.val) (min 1023 (X.since + 1))
  | _, _ => s

/-- R203: the block of a trigger point. -/
def blockOf (use : Option (Nat × Nat × Bool)) (tr : RamanTrig) : Nat × Nat :=
  (tr.era, tr.point / (match use with | none => 1 | some u => max u.1 1))

/-- R203: the open block and the first capture of another one. -/
def blockOver (s : State) (l : Fin 2) : Bool :=
  let X := vget s.sense.ramanLine l
  match X.open_, (vget s.probe l).ramanTrigs.head? with
  | some b, some tr => decide (blockOf X.use tr ≠ b)
  | _, _ => false

/-- R203 RAMAN_BLOCK_END: the first capture of the next block reaches the cells. -/
def execRamanBlockEnd (line : Fin 2) (s : State) : Host.Outcome State Fault Refusal :=
  .next (whenB (blockOver s line) s (endBlock s line))

/-- R203: the next block's first trigger point has passed without a capture, and no capture of the open block is
still to come. -/
def selfPassDue (s : State) (l : Fin 2) : Bool :=
  let X := vget s.sense.ramanLine l
  match X.open_, X.use with
  | some b, some (outCap, _, _) =>
    (decide (X.stamp + blockSpan s l.val outCap ≤ stampNow s) || decide ((vget s.probe l).era ≠ b.1))
      && (vget s.probe l).ramanTrigs.all (fun tr => decide (blockOf X.use tr ≠ b))
  | _, _ => false

/-- R203 RAMAN_BLOCK_SELF_PASS. -/
def execRamanBlockSelfPass (line : Fin 2) (s : State) : Host.Outcome State Fault Refusal :=
  .next (whenB (selfPassDue s line) s (endBlock s line))

/-! ### Captures -/

/-- R217: OUT_CAP, SMOOTH and GAIN_NORM of the record in effect are applied at a block boundary; a change restarts the
averaging. -/
def applyUse (s : State) (l : Fin 2) (c : RamanCfg) : State :=
  let want := some (c.outCap, c.smooth, c.gainNorm)
  let X := vget s.sense.ramanLine l
  if X.use = want then s
  else
    let s1 := modRaman s l (fun X => { X with use := want })
    if X.use.isNone then s1 else restartAveraging s1 l

/-- R203: a block opens at its first capture; its stamp is the launch time of its first trigger point. -/
def openBlock (s : State) (l : Fin 2) (c : RamanCfg) (tr : RamanTrig) : State :=
  let s1 := if (vget s.sense.ramanLine l).open_.isSome then s else applyUse s l c
  let X := vget s1.sense.ramanLine l
  if X.open_.isSome then s1
  else
    let b := blockOf X.use tr
    let before := blockSpan s1 l.val (tr.point - b.2 * max c.outCap 1)
    modRaman s1 l (fun X =>
      { X with open_ := some b, stamp := tr.launch - before, at_ := tr.at_ - (tr.edge - tr.launch) - before, epochs := tr.epochs })

/-- R204: the first capture after a range change: a restart, or the rescaling of the changed inputs' sums. -/
def rangeEffect (s : State) (l : Fin 2) (gainNorm : Bool) : State :=
  let C := vget s.conv l
  let X := vget s.sense.ramanLine l
  let ch := vget C.changed 0 || vget C.changed 1
  let s1 :=
    if !ch then s
    else if !gainNorm then restartAveraging s l
    else
      let num (i : Fin 2) : Int := (getF s (cvPgaGainGain l.val (4 * i.val + vget C.range i)) : Nat)
      let den (i : Fin 2) : Nat := max 1 (getF s (cvPgaGainGain l.val (4 * i.val + vget X.rng i)))
      let f (i : Fin 2) (v : Int) : Int := roundEven (v * num i) (den i)
      let s1 := { s with sense := { s.sense with rcell := tabMap (fun _ => RCell.zero) (fun a x =>
        if a / 2 ^ 18 = l.val then { x with asum := f 0 x.asum, ssum := f 1 x.ssum } else x) s.sense.rcell } }
      modRaman s1 l (fun X => { X with dsum := Vector.ofFn (fun i => f i (vget X.dsum i)) })
  modConv (modRaman s1 l (fun X => { X with rng := C.range, rangeChanged := X.rangeChanged || ch })) l
    (fun C => { C with changed := Vector.replicate 2 false })

/-- R202: one capture at every station. -/
def addCapture (s : State) (l : Fin 2) (as_ st_ : List (Int × Bool)) : State :=
  { s with sense := { s.sense with rcell := ((as_.zip st_).zipIdx).foldl (fun t x =>
      let k := stKey l.val x.2
      let cell := tabGet RCell.zero t k
      if x.1.1.2 || x.1.2.2 then tabSet RCell.zero t k { cell with fl := cell.fl ||| 1 }
      else tabSet RCell.zero t k { cell with asum := cell.asum + x.1.1.1, ssum := cell.ssum + x.1.2.1, cnt := cell.cnt + 1 }) s.sense.rcell } }

/-- R202: a capture that carries STALE sets FL[1] of every station. -/
def markStale (s : State) (l : Fin 2) (n : Nat) : State :=
  { s with sense := { s.sense with rcell := (List.range n).foldl (fun t r =>
      let cell := tabGet RCell.zero t (stKey l.val r)
      tabSet RCell.zero t (stKey l.val r) { cell with fl := cell.fl ||| 2 }) s.sense.rcell } }

/-- R117, R133, R200: the corrected codes of a capture's stations with their OVR marks: sample `first` + r after the trigger's edge is
station r, by slice (RAMAN_LAUNCH + r) mod 4. -/
def captureCodes (C : Conv) (input first n at_ : Nat) (xs : List Int) : List (Int × Bool) :=
  correctInput C input (((xs.take n).zipIdx).map (fun x =>
    (x.1, (first + x.2) % 4, sampleOvr C input (at_ + (first + x.2) * raSample))))

/-- R117, R128: the 256 corrected codes before a trigger. -/
def darkCodes (C : Conv) (input : Nat) (xs : List Int) : List Int :=
  (correctInput C input (((xs.take 256).zipIdx).map (fun x => (x.1, x.2 % 4, false)))).map (·.1)

/-- R129, R202: a capture overlaps an interval in which its inputs are isolated. -/
def captureStale (C : Conv) (first last : Nat) : Bool :=
  C.spans.any (fun x => decide (x.why = .isolated) && (bitOf x.mask 4 || bitOf x.mask 5) && decide (x.from_ < last)
    && (match x.to_ with | none => true | some e => decide (first < e)))

/-- R202: the capture of the oldest trigger. -/
def ramanCaptureSt (l : Fin 2) (as_ st_ asDark stDark : List Int) (s0 : State) : State :=
  match (vget s0.probe l).ramanTrigs, ramanCfg s0 l.val with
  | tr :: rest, some c =>
    let s1 := if blockOver s0 l then endBlock s0 l else s0
    let s2 := openBlock (modProbe s1 l (fun P => { P with ramanTrigs := rest })) l c tr
    let C := vget s2.conv l
    let stale := captureStale C tr.at_ (tr.at_ + (c.launch + c.n) * raSample)
    let gn := match (vget s2.sense.ramanLine l).use with | none => c.gainNorm | some u => u.2.2
    let a := captureCodes C 4 c.launch c.n tr.at_ as_
    let b := captureCodes C 5 c.launch c.n tr.at_ st_
    let dark (i : Fin 2) : List Int := darkCodes C (4 + i.val) (if i = 0 then asDark else stDark)
    let s3 := rangeEffect s2 l gn
    let s4 := if stale then markStale s3 l c.n
      else
        let s4 := modRaman s3 l (fun X =>
          { X with dsum := Vector.ofFn (fun i : Fin 2 => vget X.dsum i + sumI (dark i)),
                   dcnt := Vector.ofFn (fun i => vget X.dcnt i + 1) })
        addCapture s4 l a b
    let peak (xs : List (Int × Bool)) : Nat := xs.foldl (fun m x => max m x.1.natAbs) 0
    let s5 := autoRange s4 l 0 (a.any (·.2)) (peak a)
    let s6 := autoRange s5 l 1 (b.any (·.2)) (peak b)
    modConv s6 l (fun C => { ramanOffsets (ramanOffsets C 4 (dark 0)) 5 (dark 1) with inWindow := true })
  | _, _ => s0

/-- R202 RAMAN_CAPTURE. -/
def execRamanCapture (line : Fin 2) (asSamples stSamples asDark stDark : List Int) (s : State) :
    Host.Outcome State Fault Refusal := .next (ramanCaptureSt line asSamples stSamples asDark stDark s)

/-- R131, R129, R490: a capture window ends, and a forced Raman foreground calibration starts. -/
def windowEndSt (l : Fin 2) (s : State) : State :=
  if (vget s.conv l).inWindow then
    let s1 := closeWindow s l
    if (vget s1.conv l).ramanForce then startRamanFg s1 l else s1
  else s

/-- R131 CAPTURE_WINDOW_END. -/
def execCaptureWindowEnd (line : Fin 2) (s : State) : Host.Outcome State Fault Refusal := .next (windowEndSt line s)

/-! ### Ratio to temperature -/

/-- R205: what a station's block gives: T, T40 and L where they were formed, a0 and s0, and the flags of a hold. -/
structure RamanOut where
  t : Option (Int × Int)
  l : Option Int
  a0 : Option Int
  s0 : Option Int
  flag : Nat
  deriving DecidableEq, Repr

/-- R205: the dark level of an input. -/
def darkLevel (b : RBlock) (i : Fin 2) : Int := roundEven (vget b.dsum i * 1024) (256 * max 1 (vget b.dcnt i))

/-- R205: one station; `e` is the CORDIC's error, 0 to 3. -/
def ramanStation (c : RamanCfg) (C : Int) (b : RBlock) (r e : Nat) : RamanOut :=
  let x := tabGet RCell.zero b.cells r
  if x.cnt = 0 then { t := none, l := none, a0 := none, s0 := none, flag := 256 }
  else
    let level (sum : Int) (i : Fin 2) : Int :=
      roundEven ((roundEven (sum * 1024) x.cnt - darkLevel b i) * 65536) (max 1 (vget b.gain i))
    let a0 := level x.asum 0
    let s0 := level x.ssum 1
    if s0 < c.stFloor * 1024 ∨ a0 ≤ 0 then { t := none, l := none, a0 := some a0, s0 := some s0, flag := 256 + 64 }
    else
      let L := lnRatioFloor a0.toNat s0.toNat - 1 + (e : Nat)
      let D := C - roundEven (c.dalpha * (r : Nat)) 1024 - L
      let T := roundEven (c.gamma * 2 ^ 20) D.toNat - 273150
      if D ≤ 0 ∨ 524287 < T then { t := none, l := some L, a0 := some a0, s0 := some s0, flag := 256 + 512 }
      else
        { t := some (T, roundEven (c.gamma * 1000 * 2 ^ 20) D.toNat - 273150000), l := some L, a0 := some a0,
          s0 := some s0, flag := 0 }

/-- R106, R215: a Raman station lies at or beyond the active break station. -/
def ramanBeyond (s : State) (l r : Nat) : Bool :=
  isSet s (psBreakActive l) &&
    (match breakMonitor s l with | none => false | some b => decide (16 * getF s (psBreakStation l) ≤ 5 * b.g * r))

/-- A value, or a free one where none was formed. -/
def orFree (s : State) (o : Option Int) : Int × State :=
  match o with | some v => (v, s) | none => let (n, s1) := draw s; ((n : Int), s1)

/-- R205, R206, R214: one station of a delivered block. -/
def ramanStationSt (c : RamanCfg) (C : Int) (b : RBlock) (base : Nat) (t : Fin 8) (epoch : Nat) (s : State) (r : Nat) : State :=
  let (e, s0) := draw s
  let o := ramanStation c C b r (e % 4)
  let x := tabGet RamanSt.zero s0.sense.raman (stKey b.line r)
  let f := base ||| o.flag ||| ((tabGet RCell.zero b.cells r).fl % 4) ||| (128 * b2n (ramanBeyond s0 b.line r))
  let (L, s1) := orFree s0 o.l
  let (s0v, s2) := orFree s1 o.s0
  let (a0v, s3) := orFree s2 o.a0
  let y : RamanSt := match o.t with
    | some (T, T40) => { t := T, t40 := T40, valid := true, l := L, flag := f }
    | none => { x with valid := false, l := L, flag := f }
  let s4 := { s3 with
    sense := { s3.sense with raman := tabSet RamanSt.zero s3.sense.raman (stKey b.line r) y },
    xbuf := tabSet 0 s3.xbuf (xbufKey b.line b.blk r) (fieldOf 20 y.t) }
  let s4 := { s4 with sense := { s4.sense with
    xmark := tabSet RamanMark.zero s4.sense.xmark (xbufKey b.line b.blk r) { valid := y.valid, flag := f } } }
  let s5 := emitProduct s4 t b.line c.n 0x030 r b.stamp epoch 2 (fieldOf 20 y.t) f
  let s6 := emitProduct s5 t b.line c.n 0x031 r b.stamp epoch 4 (fieldOf 40 y.t40) f
  let s7 := emitProduct s6 t b.line c.n 0x032 r b.stamp epoch 3 (fieldOf 30 L) f
  let s8 := emitProduct s7 t b.line c.n 0x033 r b.stamp epoch 2 (fieldOf 20 (satS 20 s0v)) f
  emitProduct s8 t b.line c.n 0x034 r b.stamp epoch 2 (fieldOf 20 (satS 20 a0v)) f

/-! ### The coil attempt -/

/-- R208, R209: the attempt of a block whose stations are all computed. -/
def coilAttempt (s : State) (l : Fin 2) (c : RamanCfg) (b : RBlock) : State :=
  match b.attempt, coilCfg s l.val with
  | some (code0, sum, n), some k =>
    let span := (List.range (k.last + 1 - k.first)).map (fun i => k.first + i)
    let bad := span.any (fun r =>
      let f := (tabGet RamanSt.zero s.sense.raman (stKey l.val r)).flag
      decide (f &&& 0x10F ≠ 0))
    let code := if (vget s.sense.ramanLine l).suspended then 1 else if code0 ≠ 0 then code0 else if bad then 4 else 0
    if code ≠ 0 then bump (setF s (rmCoilReject l.val) code) (rmRejectCount l.val)
    else
      -- T_c + 273150 as the fraction (sum + 273150·n) / n
      let kel := sum + 273150 * (n : Nat)
      let head := roundEven (c.gamma * 2 ^ 20 * (n : Nat)) (max 1 kel.toNat)
      let us := span.map (fun r => head + roundEven (c.dalpha * (r : Nat)) 1024
        + (tabGet RamanSt.zero s.sense.raman (stKey l.val r)).l)
      let s1 := modRaman s l (fun X => { X with c := some (roundEven (sumI us) (max 1 us.length)) })
      let s2 := setF (setFS s1 (rmCoilTempTc l.val) (roundEven sum (max 1 n))) (rmCoilReject l.val) 0
      setF (setF (bump s2 (rmCoilAccepted l.val)) (rmStatusUncal l.val) 0) (rmCalAgeAge l.val) 0
  | _, _ => s

/-- R201, R203: the 12 words of a delivered cell. -/
def cellWords (x : RCell) : List Word :=
  wordsOf 4 (fieldOf 40 x.asum) ++ wordsOf 4 (fieldOf 40 x.ssum) ++ wordsOf 3 (x.cnt % 2 ^ 30) ++ [BitVec.ofNat 10 x.fl]

/-- R203, R242: the cells of a slice's stations reach the input ports of their lanes. -/
def deliverCells (s : State) (t : Fin 8) (l n : Nat) (b : RBlock) (next len : Nat) : State :=
  modTrav s t (fun T => mapLanes T (fun i L =>
    let (f, k) := laneStations s l n t i
    { L with inFifo := ((List.range (min len (k - next))).flatMap (fun j => cellWords (tabGet RCell.zero b.cells (f + next + j)))) }))

/-- The blocks of a line but one. -/
def otherBlocks (s : State) (l blk : Nat) : List RBlock := s.sense.blocks.filter (fun x => !(decide (x.line = l ∧ x.blk = blk)))

/-- R205, R242: a traverse has done its part of a block; the last one runs the coil attempt and makes the block ready for
fusion. -/
def leaveBlock (s : State) (l : Fin 2) (t : Fin 8) (b : RBlock) : State :=
  let left := bitsPut b.due t.val t.val 0
  if left = 0 then
    let s1 := { s with sense := { s.sense with blocks := otherBlocks s l.val b.blk } }
    let s2 := match ramanCfg s l.val with | none => s1 | some c => coilAttempt s1 l c b
    modRaman s2 l (fun X => { X with ready := X.ready ++ [{ b with due := 0 }] })
  else
    { s with sense := { s.sense with blocks := s.sense.blocks.map (fun x =>
        if x.line = l.val ∧ x.blk = b.blk then { x with due := left } else x) } }

/-- R205, R223, R242: one slice of the work on a delivered block, from an index within the lane block on. The answer says where
the next slice starts, if one is left. -/
def ramanSlice (s : State) (l : Fin 2) (t : Fin 8) (blk next : Nat) : State × Option Nat :=
  match s.sense.blocks.find? (fun b => decide (b.line = l.val ∧ b.blk = blk)), ramanCfg s l.val with
  | some b, some c =>
    let block := laneBlock s l.val c.n
    let len := sliceLen 40
    let own := sliceStations s l.val c.n t next len
    let base := 4 * b2n b.rangeChanged + 8 * b2n b.restarted + 16 * getF s (rmStatusUncal l.val) + 32 * b2n (calOld s l.val)
    let s1 := setFS (setFS (deliverCells s t l.val c.n b next len) (rmDarkAsDark l.val) (darkLevel b 0)) (rmDarkStDark l.val) (darkLevel b 1)
    let s2 := own.foldl (ramanStationSt c (ramanC s l) b base t (lget 0 b.epochs (10 + t.val))) s1
    let s3 := addBusy s2 t (if own.isEmpty then 0 else 40 * min len (block - next))
    if next + len < block then (s3, some (next + len))
    else
      let coil := match coilCfg s l.val with | none => 0 | some k => k.last + 1 - k.first
      let final := decide (bitsPut b.due t.val t.val 0 = 0) && b.attempt.isSome
      (leaveBlock (addBusy s3 t (if final then 400 + 20 * coil else 0)) l t b, none)
  | _, _ => (s, none)

/-! ### Fusion -/

/-- R212: a station's fused state after a block with its flags (DIVERGED, and whether a re-seed after divergence came). -/
def fuseStep (k gate : Nat) (x : FuseSt) (tR t40 : Int) (ok newDatum : Bool) : FuseSt × Bool × Bool :=
  if !ok then (x, false, false)
  else
    let v := tR * 1024 - roundEven (t40 * 1024) 1000
    if !x.seeded || newDatum then ({ x with o := v, n := 1, seeded := true }, false, false)
    else
      let e := v - x.o
      if gate * 1024 < e.natAbs then
        if x.div + 1 = 8 then ({ x with o := v, n := 1, div := 0 }, true, true)
        else ({ x with div := x.div + 1 }, true, false)
      else if x.n < 2 ^ k then ({ x with div := 0, n := x.n + 1, o := x.o + e / ((x.n : Int) + 1) }, false, false)
      else ({ x with div := 0, o := x.o + shrI e k }, false, false)

/-- R212: the latest spectral output stamped no later than a block. -/
def spectralFor (s : State) (l st stamp : Nat) : SpecOut :=
  ((specAt s l st).hist.find? (fun x => decide (x.stamp ≤ stamp))).getD { stamp := 0, t40 := 0, flag := 1 }

/-- R206, R242: what the exchange buffer holds for a Raman station in the bank of a block: T_LAST, whether it is valid, and the
station's flag word. -/
def exchangeAt (s : State) (l blk r : Nat) : Int × RamanMark :=
  (signedOf 20 (tabGet 0 s.xbuf (xbufKey l blk r)), tabGet RamanMark.zero s.sense.xmark (xbufKey l blk r))

/-- R211 to R216: the fused products of one coherent station. -/
def fuseStation (k gate n : Nat) (b : RBlock) (epoch g : Nat) (l : Nat) (t : Fin 8) (s : State) (st : Nat) : State :=
  let r := ramanPartner s l st
  let only := (segmentOf s l st).1 ≠ 0
  let bey := 256 * b2n (beyondBreak s l g st) + 8 * b2n (decide only)
  let emit (s : State) (v v40 o : Int) (f : Nat) : State :=
    emitProduct (emitProduct (emitProduct s t l n 0x038 st b.stamp epoch 2 (fieldOf 20 v) f)
      t l n 0x039 st b.stamp epoch 4 (fieldOf 40 v40) f) t l n 0x03A st b.stamp epoch 3 (fieldOf 30 o) f
  if ramanStations s l ≤ r then emit s 0 0 0 (2 + bey)
  else
    let (tR, R) := exchangeAt s l b.blk r
    let cal := 64 * b2n (bitOf R.flag 4) + 128 * b2n (bitOf R.flag 5) + 16 * b2n (!R.valid) + bey
    if only then
      let (v40, s1) := draw s
      let (o, s2) := draw s1
      emit s2 tR (v40 : Int) (o : Int) cal
    else
      let q := spectralFor s l st b.stamp
      let ray := decide (q.flag &&& 463 = 0) && !(c0Refused s)
      let x := tabGet FuseSt.zero s.sense.fuse (stKey l st)
      let (y, div, re) := fuseStep k gate x tR q.t40 (ray && R.valid) (bitOf q.flag 5)
      let s1 := { s with sense := { s.sense with fuse := tabSet FuseSt.zero s.sense.fuse (stKey l st) y } }
      let s2 := if div then bump s1 (rmDivergeCount l) else s1
      let s3 := if re then bump s2 (rmReseedCount l) else s2
      let f := cal + 4 * b2n div + 32 * b2n (!ray)
      if y.seeded then
        let v40 := q.t40 + roundEven (y.o * 1000) 1024
        emit s3 (satS 20 (roundEven v40 1000)) v40 y.o (f + b2n (decide (y.n < 2 ^ k)))
      else emit s3 0 0 0 (f + 2)

/-- Coherent stations of a range that lie in segments of a mode other than 0, or in mode 2 only. -/
def segStations (s : State) (l first k : Nat) (two : Bool) : Nat :=
  (recsOf s 0x0A1).foldl (fun a p =>
    if wAt p 0 1 = l ∧ wAt p 5 1 ≠ 0 ∧ (two = false ∨ wAt p 5 1 = 2) then
      a + (min (first + k) (wAt p 3 2 + 1) - max first (wAt p 1 2)) else a) 0

/-- R218: fused stations (those of mode 0) of the lane of a traverse that holds the most. -/
def fusedFullest (s : State) (l : Nat) (t : Fin 8) : Nat :=
  (List.range 64).foldl (fun a i =>
    let (f, k) := laneStations s l (cohStations s l) t i
    max a (k - segStations s l f k false)) 0

/-- R197: mode 2 stations of the lane of a traverse that holds the most. -/
def twoFullest (s : State) (l : Nat) (t : Fin 8) : Nat :=
  (List.range 64).foldl (fun a i =>
    let (f, k) := laneStations s l (cohStations s l) t i
    max a (segStations s l f k true)) 0

/-- R194, R211, R242: what a ready block brings to the coherent stations of a traverse: T_R to those in mode 2, and the fused
products. A traverse that refused the block's request has none (R224). -/
def fuseTrav (l : Fin 2) (b : RBlock) (s : State) (t : Fin 8) : State :=
  if bitOf b.taken t.val = false then s
  else
    let n := cohStations s l.val
    let (f, m) := travStations s l.val n t
    let own := (List.range m).map (fun i => f + i)
    let s0 := modTrav s t (fun T => if T.run = .raman then { T with stIdx := 0 } else T)
    let s1 := forEach own s0 (fun s st =>
      let r := ramanPartner s l.val st
      let (v, R) := exchangeAt s l.val b.blk r
      deliverTR s l.val st (if R.valid && decide (r < ramanStations s l.val) then some v else none))
    let s2 := addBusy s1 t (4 * twoFullest s l.val t)
    match fusionCfg s2 l.val with
    | none => s2
    | some (k, gate) =>
      let g := (slotsOf s2 l.val).foldl (fun a x => max a x.g) 1
      addBusy (own.foldl (fuseStation k gate n b (lget 0 b.epochs (10 + t.val)) g l.val t) s2) t (14 * fusedFullest s l.val t)

/-- R242, R213: fusion and the spectral mode 2 work of the oldest ready block of a line. -/
def fusionSt (l : Fin 2) (s : State) : State :=
  match (vget s.sense.ramanLine l).ready with
  | [] => s
  | b :: rest => (lineTravs s l.val).foldl (fuseTrav l b) (modRaman s l (fun X => { X with ready := rest }))

/-- R242 FUSION_START. -/
def execFusionStart (line : Fin 2) (s : State) : Host.Outcome State Fault Refusal := .next (fusionSt line s)

end Sys2Proof.Machine
end

