-- ==== Sys2Proof/Machine/Passes.lean ====
section
/-! DEFINITION. Passes and slices of the traverses (spec R222 to R225, R151, R241). -/

namespace Sys2Proof.Machine
open Sys2Proof

/-- R222, R223: a pass may start on a traverse: none runs and no repeat, it is in service, its clock does not change, no
recovery pass is due and the engine is not in standby. -/
def passReady (s : State) (t : Fin 8) : Bool :=
  let T := vget s.trav t
  decide (T.run = .idle) && !T.oos && T.kern.isNone && T.rep.isNone && !T.clockChange && !T.recovery && !(inStandby s)

/-- R151: the header words of a trace. -/
def traceHeader (l : Nat) (tr : Trace) : List Word :=
  [BitVec.ofNat 10 (l * 512 + tr.slot * 32 + tr.pol * 16 + tr.kind * 4),
   BitVec.ofNat 10 (if tr.kind = 3 then tr.point else 1023),
   BitVec.ofNat 10 (b2n tr.dark + 2 * b2n tr.gap + 4 * b2n tr.rephased + 8 * b2n tr.apr + 16 * b2n tr.realigned)]
    ++ timeWords tr.stamp ++ wordsOf 2 tr.stations.length

/-- R151: the five words of a station. -/
def stationWords (x : TraceStation) : List Word :=
  wordsOf 2 (fieldOf 20 x.re) ++ wordsOf 2 (fieldOf 20 x.im)
    ++ [BitVec.ofNat 10 (b2n x.clipped + 2 * b2n x.stale + 4 * b2n x.beyond)]

/-- R145: the words of a launch's traces of one slot at the stations of a lane: the headers, then the two traces' stations in
turns of blocks of 64. -/
def slotWords (l f k : Nat) (trs : List Trace) : List Word :=
  let mine (tr : Trace) (i : Nat) : List TraceStation :=
    (((tr.stations.zipIdx).drop f).take k).filterMap (fun x => if x.2 / 64 = i then some x.1 else none)
  trs.flatMap (traceHeader l)
    ++ (List.range (ceilDiv (f + k) 64)).flatMap (fun i => trs.flatMap (fun tr => (mine tr i).flatMap stationWords))

/-- R151, R242: what the input port of a lane delivers for the traces of a shot. -/
def shotWords (s : State) (l : Nat) (t : Fin 8) (lane : Nat) (trs : List Trace) : List Word :=
  let (f, k) := laneStations s l (cohStations s l) t lane
  ((trs.map (fun tr => tr.slot)).eraseDups).flatMap (fun c => slotWords l f k (trs.filter (fun tr => decide (tr.slot = c))))

/-- R157: the traces of a launch instant are all there and it is their turn: no launch up to it is still due, and every earlier
shot of the line has been worked on by every traverse that took it (their neighbour exchange keeps the traverses in step,
R242). -/
def shotComplete (s : State) (l : Fin 2) (stamp : Nat) : Bool :=
  (vget s.probe l).launches.all (fun x => decide (stamp < x.stamp))
    && (vget s.pce l).traces.all (fun x => decide (stamp ≤ x.tr.stamp) || (maskBits 8 x.due).all (fun i =>
      (List.finRange 8).any (fun t => decide (t.val = i) && (vget s.trav t).oos)))

/-- R222, R242: a shot pass: the words reach the lanes' input ports, and the group update or the sweep accumulation is
done for every station of the traverse. It waits while DRAM is in a blackout (R34). -/
def shotPassSt (t : Fin 8) (s : State) : State :=
  match (vget s.trav t).fg with
  | [] => s
  | r :: rest =>
    match (List.finRange 2).find? (fun l => decide (l.val = r.line)) with
    | none => s
    | some l =>
      if passReady s t && !(c0Waits s) && shotComplete s l r.stamp then
        let trs := (tracesAt s l r.stamp).map (fun x => x.tr)
        let epoch := match trs.head? with | none => 0 | some x => lget 0 x.epochs (10 + t.val)
        let s1 := enterPass (modTrav s t (fun T => { T with fg := rest })) t .shot r.stamp epoch (vget s.trav t).grp
        let s2 := modTrav s1 t (fun T => mapLanes T (fun i L => { L with inFifo := shotWords s1 l.val t i trs }))
        let s3 := sweepPass (dasPass s2 l t r.stamp epoch) l t r.stamp
        modPce s3 l (fun p => { p with traces := (p.traces.map (fun x =>
          if x.tr.stamp = r.stamp then { x with due := bitsPut x.due t.val t.val 0 } else x)).filter (fun x => decide (x.due ≠ 0)) })
      else s

/-- R222 SHOT_PASS. -/
def execShotPass (t : Fin 8) (s : State) : Host.Outcome State Fault Refusal := .next (shotPassSt t s)

/-- R223: background work may start a slice: no foreground request waits. -/
def bgReady (s : State) (t : Fin 8) : Bool := passReady s t && (vget s.trav t).fg.isEmpty

/-- R222, R223: a slice of background work begins: the entry of R228, with the stamp and epoch of the work's event. -/
def enterSlice (s : State) (t : Fin 8) (w : BgWork) : State :=
  let s1 := match w.req with
    | .output _ _ stamp epoch _ => enterPass s t .output stamp epoch 0
    | .raman l blk stamp =>
      let epoch := match s.sense.blocks.find? (fun b => decide (b.line = l ∧ b.blk = blk)) with
        | none => 0 | some b => lget 0 b.epochs (10 + t.val)
      modTrav (enterPass s t .raman stamp epoch 0) t (fun T => { T with blk := blk })
  modTrav s1 t (fun T => { T with stIdx := w.next })

/-- R223: one slice of background work, and what is left of it. -/
def runSlice (s : State) (t : Fin 8) (w : BgWork) : State :=
  let s0 := enterSlice s t w
  let (s1, left) := match w.req with
    | .output l tag stamp epoch capture => outputSlice s0 l t tag stamp epoch capture w.next
    | .raman l blk _ => match (List.finRange 2).find? (fun (x : Fin 2) => decide (x.val = l)) with
      | none => (s0, none)
      | some l => ramanSlice s0 l t blk w.next
  modTrav s1 t (fun T => { T with work := left.map (fun n => { w with next := n }) })

/-- R222, R223: the oldest background request starts with its first slice, where it is of the kind asked for and no other work is
under way. Work on the datum store waits in a blackout of DRAM (R34). -/
def startWork (s : State) (t : Fin 8) (output : Bool) : State :=
  let T := vget s.trav t
  match T.bg, T.work with
  | r :: rest, none =>
    let is := match r with | .output .. => output && !(c0Waits s) | .raman .. => !output
    if is && bgReady s t then runSlice (modTrav s t (fun T => { T with bg := rest })) t { req := r, next := 0 } else s
  | _, _ => s

/-- R222 OUTPUT_PASS. -/
def execOutputPass (t : Fin 8) (s : State) : Host.Outcome State Fault Refusal := .next (startWork s t true)

/-- R205 RAMAN_PASS. -/
def execRamanPass (t : Fin 8) (s : State) : Host.Outcome State Fault Refusal := .next (startWork s t false)

/-- R222, R223: a service pass starts once both queues are empty and nothing runs. -/
def servicePassSt (t : Fin 8) (s : State) : State :=
  let T := vget s.trav t
  if passReady s t && T.fg.isEmpty && T.bg.isEmpty && T.work.isNone then enterPass s t .service (stampNow s) 0 0 else s

/-- R222 SERVICE_PASS. -/
def execServicePass (t : Fin 8) (s : State) : Host.Outcome State Fault Refusal := .next (servicePassSt t s)

/-- R223, R228: the next slice of the background work under way; one on the datum store waits in a blackout of DRAM. -/
def sliceSt (t : Fin 8) (s : State) : State :=
  match (vget s.trav t).work with
  | none => s
  | some w =>
    let wait := match w.req with | .output .. => c0Waits s | .raman .. => false
    if bgReady s t && !wait then runSlice s t w else s

/-- R223 BACKGROUND_SLICE. -/
def execBackgroundSlice (t : Fin 8) (s : State) : Host.Outcome State Fault Refusal := .next (sliceSt t s)

/-- R224: the entry of a second in which a traverse refused requests, stamped with the second's end. -/
def passDropSt (t : Fin 8) (s : State) : State :=
  let n := (vget s.trav t).refused
  if n = 0 then s
  else logAt (modTrav s t (fun T => { T with refused := 0 })) (ceilDiv (stampNow s) secU * secU) 0x01A (10 + t.val) 1 t.val n

/-- R224 PASS_DROP. -/
def execPassDrop (t : Fin 8) (s : State) : Host.Outcome State Fault Refusal := .next (passDropSt t s)

/-- R229: the kernel window of a traverse zeroed. -/
def zeroWindow (s : State) (t : Fin 8) : State :=
  modTrav s t (fun T => mapLanes T (fun _ L =>
    { L with mem := tabKeep (fun a => decide (a < 15360)) L.mem, badPar := L.badPar.filter (fun a => decide (a < 15360)) }))

/-- R241: the background work under way on a traverse comes to nothing; its Raman block goes on without it. -/
def dropWork (s : State) (t : Fin 8) : State :=
  let s1 := modTrav s t (fun T => { T with work := none })
  match (vget s.trav t).work with
  | some { req := .raman l blk _, .. } =>
    match (List.finRange 2).find? (fun (x : Fin 2) => decide (x.val = l)), s.sense.blocks.find? (fun b => decide (b.line = l ∧ b.blk = blk)) with
    | some l, some b => leaveBlock s1 l t { b with taken := bitsPut b.taken t.val t.val 0 }
    | _, _ => s1
  | _ => s1

/-- R241, R176, R196, R217, R229: what a recovery pass restarts: the traverse's stations; its memory has been overwritten, and the
kernel windows of the line are zeroed. -/
def recoverTrav (s : State) (t : Fin 8) : State :=
  let s1 := modTrav (dropWork s t) t (fun T =>
    { mapLanes T (fun _ L => { L with mem := [], badPar := [], parErr := false, inFifo := [] }) with
      recovery := false, run := .idle, hookSeq := [], rep := none, gang := false })
  match travLine s t with
  | none => s1
  | some l =>
    let s1 := (lineTravs s l).foldl zeroWindow s1
    let (f, k) := travStations s l (cohStations s l) t
    let (rf, rk) := travStations s l (ramanStations s l) t
    let coh (key : Nat) : Bool := decide (key / 2 ^ 18 = l ∧ f ≤ key % 2 ^ 18 ∧ key % 2 ^ 18 < f + k)
    let ram (key : Nat) : Bool := decide (key / 2 ^ 18 = l ∧ rf ≤ key % 2 ^ 18 ∧ key % 2 ^ 18 < rf + rk)
    let s2 := dropOpen (dasRestart s1 l (fun st => decide (f ≤ st ∧ st < f + k))) t
    { s2 with sense := { s2.sense with
        spec := tabMap (fun _ => SpecSt.zero) (fun k x => if coh k then { x with tR := none } else x) s2.sense.spec,
        fuse := tabKeep (fun key => !(coh key)) s2.sense.fuse, raman := tabKeep (fun key => !(ram key)) s2.sense.raman,
        rcell := tabKeep (fun key => !(ram key)) s2.sense.rcell } }

/-- R181, R224: refused requests leave the queue's work undone; a traverse that goes out of service loses its queues. -/
def stopTrav (s : State) (t : Fin 8) : State :=
  modTrav s t (fun T => { T with oos := true, fg := [], bg := [], work := none, run := .idle, kern := none, rep := none, recovery := false,
                                 openP := none, openB := none })

end Sys2Proof.Machine
end

