-- ==== Sys2Proof/Machine/Codec.lean ====
section
/-! DEFINITION. The block coder's format v1 and its decoder (spec R278 to R285). -/

namespace Sys2Proof.Machine
open Sys2Proof

/-! ### Predictors and residuals -/

/-- R281: the prediction of a field of `w` bits from its two previous values. -/
def predict (p w x1 x2 : Nat) : Nat :=
  match p with
  | 0 => 0
  | 1 => x1
  | 2 => fieldOf w (2 * (x1 : Int) - x2)
  | _ => fieldOf w ((signedOf w x1 + signedOf w x2) / 2)

/-- R281: the mapped residual u of a value against its prediction. -/
def residual (w x pr : Nat) : Nat :=
  let r := signedOf w (fieldOf w ((x : Int) - pr))
  if 0 ≤ r then (2 * r).toNat else (-2 * r - 1).toNat

/-- R281: the value whose mapped residual is u. -/
def unresidual (w u pr : Nat) : Nat :=
  let r : Int := if u % 2 = 0 then (u / 2 : Nat) else -(((u + 1) / 2 : Nat) : Int)
  fieldOf w ((pr : Int) + r)

/-- The mapped residuals of a list of values under one predictor. -/
def residuals (p w : Nat) : Nat → Nat → List Nat → List Nat
  | _, _, [] => []
  | x1, x2, x :: t => residual w x (predict p w x1 x2) :: residuals p w x x1 t

/-! ### Coding -/

/-- The `n` low bits of a number, most significant first. -/
def bitsMsb : Nat → Nat → List Bool
  | 0, _ => []
  | n + 1, v => bitOf v n :: bitsMsb n v

/-- R282: the Rice code of u with parameter k for a field of w bits. -/
def riceCode (w k u : Nat) : List Bool :=
  let q := u / 2 ^ k
  if q < 24 then List.replicate q true ++ [false] ++ bitsMsb k u else List.replicate 24 true ++ bitsMsb w u

/-- R282: the length of that code. -/
def riceLen (w k u : Nat) : Nat := let q := u / 2 ^ k; if q < 24 then q + 1 + k else 24 + w

/-- R284: the predictor with the smallest sum of u, the lowest on a tie. -/
def bestPred (w x1 x2 : Nat) (xs : List Nat) : Nat :=
  let sum (p : Nat) : Nat := sumN (residuals p w x1 x2 xs)
  [1, 2, 3].foldl (fun b p => if sum p < sum b then p else b) 0

/-- R284: the parameter: 62, the k with the fewest bits, or 63. -/
def bestParam (w : Nat) (us : List Nat) : Nat :=
  if us.all (fun u => decide (u = 0)) then 62
  else
    let len (k : Nat) : Nat := sumN (us.map (riceLen w k))
    let k := (List.range w).foldl (fun b k => if len k < len b then k else b) 0
    if w * us.length ≤ len k then 63 else k

/-- R280, R282: one segment of one field. -/
def codeSegment (w x1 x2 : Nat) (xs : List Nat) : List Bool :=
  let p := bestPred w x1 x2 xs
  let us := residuals p w x1 x2 xs
  let k := bestParam w us
  if k = 63 then bitsMsb 2 0 ++ bitsMsb 6 63 ++ xs.flatMap (bitsMsb w)
  else bitsMsb 2 p ++ bitsMsb 6 k ++ (if k = 62 then [] else us.flatMap (riceCode w k))

/-- R280: bits into words, from bit 9 down, the last word filled with zeros. -/
def packBits : Nat → List Bool → List Word
  | 0, _ => []
  | n + 1, bs =>
    if bs.isEmpty then []
    else
      let w := (List.range 10).foldl (fun a i => 2 * a + b2n (bs.getD i false)) 0
      BitVec.ofNat 10 w :: packBits n (bs.drop 10)

/-- R278: the widths of the fields of an element. -/
def fieldWidths (e outWords : Nat) : List Nat := (10 * outWords) :: List.replicate (e - 1) 10

/-- R278: field j of an element's words. -/
def elementField (outWords j : Nat) (ws : List Word) : Nat :=
  if j = 0 then wAt ws 0 outWords else wAt ws (outWords + j - 1) 1

/-- The words cut into elements of s words. -/
def elementsOf (s : Nat) : Nat → List Word → List (List Word)
  | 0, _ => []
  | m + 1, ws => ws.take s :: elementsOf s m (ws.drop s)

/-- R280: the bitstream of a list of columns (width, values), segment by segment. -/
def codeSegments (cols : List (Nat × List Nat)) (m : Nat) : List Bool :=
  (List.range (ceilDiv m 64)).flatMap (fun i =>
    cols.flatMap (fun c =>
      let x1 := if 64 * i = 0 then 0 else lget 0 c.2 (64 * i - 1)
      let x2 := if 64 * i < 2 then 0 else lget 0 c.2 (64 * i - 2)
      codeSegment c.1 x1 x2 ((c.2.drop (64 * i)).take 64)))

/-- R279, R283: the coded block of a source of H prefix words and m elements, and whether RAW is set. -/
def codeBlock (src : List Word) (h m e outWords : Nat) : List Word × Bool :=
  let s := outWords + e - 1
  let body := src.drop h
  let els := elementsOf s m body
  let cols := (fieldWidths e outWords).zipIdx.map (fun x => (x.1, els.map (elementField outWords x.2)))
  let stream := codeSegments cols m
  let lc := ceilDiv stream.length 10
  let raw := decide (m * s ≤ lc) || decide (m = 0)
  let out := if raw then body else packBits lc stream
  let hdr := [BitVec.ofNat 10 (128 + 64 * b2n raw + 16 * (e - 1) + 4 * (outWords - 1))] ++ wordsOf 2 h ++ wordsOf 2 m
    ++ wordsOf 2 out.length ++ wordsOf 4 (crcWords src)
  (hdr ++ src.take h ++ out, raw)

/-! ### Decoding -/

/-- R285: the failure codes. -/
inductive DecErr where
  | badHeader | badParam | overrun | trailing | crc
  deriving DecidableEq, Repr

/-- R285: their numbers. -/
def DecErr.code : DecErr → Nat
  | .badHeader => 1 | .badParam => 2 | .overrun => 3 | .trailing => 4 | .crc => 5

/-- `n` bits read, most significant first; none past the end. -/
def readBits : Nat → Nat → List Bool → Option (Nat × List Bool)
  | 0, a, bs => some (a, bs)
  | _ + 1, _, [] => none
  | n + 1, a, b :: t => readBits n (2 * a + b2n b) t

/-- R282: 1-bits counted up to 24, with the 0-bit that ends them. -/
def readUnary : Nat → Nat → List Bool → Option (Nat × List Bool)
  | 0, q, bs => some (q, bs)
  | _ + 1, _, [] => none
  | n + 1, q, b :: t => if b then readUnary n (q + 1) t else some (q, t)

/-- R282: one Rice code. -/
def readRice (w k : Nat) (bs : List Bool) : Option (Nat × List Bool) :=
  match readUnary 24 0 bs with
  | none => none
  | some (q, t) =>
    if q < 24 then (readBits k 0 t).map (fun r => (q * 2 ^ k + r.1, r.2)) else readBits w 0 t

/-- R285: the values of one segment of a field, newest first onto `acc`. -/
def decodeField (w p k : Nat) : Nat → List Nat → List Bool → Option (List Nat × List Bool)
  | 0, acc, bs => some (acc, bs)
  | n + 1, acc, bs =>
    if k = 63 then
      match readBits w 0 bs with
      | none => none
      | some (x, t) => decodeField w p k n (x :: acc) t
    else
      match (if k = 62 then some (0, bs) else readRice w k bs) with
      | none => none
      | some (u, t) => decodeField w p k n (unresidual w u (predict p w (lget 0 acc 0) (lget 0 acc 1)) :: acc) t

/-- R285: one segment: every field's header and values. -/
def decodeCols (n : Nat) : List (Nat × List Nat) → List Bool → Except DecErr (List (Nat × List Nat) × List Bool)
  | [], bs => .ok ([], bs)
  | (w, acc) :: cs, bs =>
    match readBits 2 0 bs with
    | none => .error .overrun
    | some (p, b1) =>
      match readBits 6 0 b1 with
      | none => .error .overrun
      | some (k, b2) =>
        if w ≤ k ∧ k ≠ 62 ∧ k ≠ 63 then .error .badParam
        else
          match decodeField w p k n acc b2 with
          | none => .error .overrun
          | some (acc', b3) =>
            match decodeCols n cs b3 with
            | .error e => .error e
            | .ok (r, b4) => .ok ((w, acc') :: r, b4)

/-- R285: every segment of a block of m elements, by fuel (the number of segments). -/
def decodeSegs : Nat → Nat → List (Nat × List Nat) → List Bool → Except DecErr (List (Nat × List Nat) × List Bool)
  | 0, _, cs, bs => .ok (cs, bs)
  | f + 1, m, cs, bs =>
    match decodeCols (min 64 m) cs bs with
    | .error e => .error e
    | .ok (cs', bs') => decodeSegs f (m - 64) cs' bs'

/-- R278: the element words of decoded columns. -/
def joinCols (cols : List (Nat × List Nat)) (m : Nat) : List Word :=
  (List.range m).flatMap (fun i => cols.flatMap (fun c => wordsOf (c.1 / 10) (lget 0 c.2 i)))

/-- R279: a coded block's header: RAW, E, OUT_WORDS, H, m, L_c and the CRC. -/
structure BlockHdr where
  raw : Bool
  e : Nat
  outWords : Nat
  h : Nat
  m : Nat
  lc : Nat
  crc : Nat
  deriving DecidableEq, Repr

/-- R279, R285: the header of the words available, if they hold one that is valid. -/
def blockHdr (ws : List Word) : Except DecErr BlockHdr :=
  let w0 := wAt ws 0 1
  let x : BlockHdr := { raw := bitOf w0 6, e := bitsOf w0 5 4 + 1, outWords := bitsOf w0 3 2 + 1, h := wAt ws 1 2,
                        m := wAt ws 3 2, lc := wAt ws 5 2, crc := wAt ws 7 4 }
  let s := x.outWords + x.e - 1
  if ws.length < 11 then .error .overrun
  else if w0 / 128 ≠ 1 ∨ 3 < x.e ∨ 8192 < x.h + x.m * s ∨ (x.raw = true ∧ x.lc ≠ x.m * s) then .error .badHeader
  else .ok x

/-- R285: the source of a coded block, from the words available. -/
def decodeBlock (ws : List Word) : Except DecErr (List Word) :=
  match blockHdr ws with
  | .error e => .error e
  | .ok x =>
    if ws.length < 11 + x.h + x.lc then .error .overrun
    else
      let pre := (ws.drop 11).take x.h
      let body := (ws.drop (11 + x.h)).take x.lc
      let check (src : List Word) : Except DecErr (List Word) := if crcWords src = x.crc then .ok src else .error .crc
      if x.raw then check (pre ++ body)
      else
        let bits := body.flatMap (fun w => bitsMsb 10 w.toNat)
        match decodeSegs (ceilDiv x.m 64) x.m ((fieldWidths x.e x.outWords).map (fun w => (w, []))) bits with
        | .error e => .error e
        | .ok (cols, rest) =>
          if 10 ≤ rest.length ∨ rest.any id = true then .error .trailing
          else check (pre ++ joinCols (cols.map (fun c => (c.1, c.2.reverse))) x.m)

end Sys2Proof.Machine
end

