-- ==== Sys2Proof/Machine/Streams.lean ====
section
/-! DEFINITION. Survey streams (spec R251 to R273): grid points, the filter chain, banks and fades, syncs, detectors,
frames and restarts. -/

namespace Sys2Proof.Machine
open Sys2Proof

/-- The state of a stream. -/
def strm (s : State) (n : Nat) : StreamSt := tabGet StreamSt.zero s.streams n

/-- One stream changed. -/
def modStrm (s : State) (n : Nat) (f : StreamSt → StreamSt) : State :=
  { s with streams := tabPut s.streams n (f (strm s n)) }

/-- R264: N_SETTLE. -/
def nSettle (c : StreamCfg) : Nat := ceilDiv c.t c.df + c.order

/-- The streams of the plan. -/
def allStreams (s : State) : List StreamCfg := (recsOf s 0x100).map streamOfPayload

/-! ### Frames to their destinations -/

/-- R270: the stream word. -/
def streamWord (c : StreamCfg) : Word := BitVec.ofNat 10 (c.n + 256 * c.line)

/-- R272, R399, R59: a link carries the frames of a stream. -/
def linkTakes (s : State) (c : StreamCfg) (fr : Bool) (l : Fin 3) : Bool :=
  linkUp s l && (vget s.net.links l).accepted.isSome && (needBits s c fr).all (fun b => linkHas s l b)

/-- R289: a ring is configured and not shed. -/
def ringOn (s : State) : Bool := hasRec s 0x140 && !(s.book.shed.contains (2, 0))

/-- R387: the frame type of an uncoded frame. -/
def plainType (event prio : Bool) : Nat := if event then ftypeOf 0 6 else if prio then ftypeOf 0 4 else ftypeOf 2 1

/-- A local frame offered to some links; whether any took it. -/
def sendLinks (s : State) (ls : List (Fin 3)) (ftype : Nat) (ws : List Word) : State × Bool :=
  ls.foldl (fun a l => let (s1, ok) := sendOn a.1 l (ownFrame a.1 ftype hostAddr 0 ws); (s1, a.2 || ok)) (s, false)

/-- R292: a frame lost for the ring: BC_GAP, and the stream's loss record. -/
def ringDrop (s : State) (j : CodeJob) : State :=
  let g : GapSt := match tabFind s.code.gaps j.stream with
    | some g => { g with n := g.n + 1 }
    | none => { n := 1, seq := j.seq, sw := (lget 0 j.words 0).toNat, stamp := j.stamp, at_ := elapsed s }
  bump { s with code := { s.code with gaps := tabPut s.code.gaps j.stream g } } bcGapCount

/-- R287: bytes in the coder's input queue. -/
def coderFill (s : State) : Nat := sumN (s.code.jobs.map (fun j => 5 * ceilDiv j.words.length 4))

/-- R272, R277, R287, R288: a frame leaves the filter unit for its destinations; one that none takes counts in
ST_DROP. -/
def sendFrame (s : State) (c : StreamCfg) (event prio coded : Bool) (dest : Nat) (ws : List Word) (m e seq stamp epoch : Nat) :
    State :=
  let ls := (List.finRange 3).filter (fun l => bitOf dest l.val && linkTakes s c (!event) l)
  let cl := if coded && !event then ls.filter (fun l => linkHas s l 0) else []
  let pl := ls.filter (fun l => !(cl.contains l))
  let ring := bitOf dest 3 && ringOn s
  let s0 := if coded && !event then bumpBy s bcUncodedCount pl.length else s
  let (s1, ok1) := sendLinks s0 pl (plainType event prio) ws
  if cl.isEmpty && !ring then (if ok1 then s1 else bump s1 (stDropCount c.n))
  else
    let j : CodeJob := { stream := c.n, event := event, prio := prio, words := ws, m := m, e := e, outWords := if event then 1 else c.outWords,
                         links := cl.foldl (fun a l => a ||| 2 ^ l.val) 0, ring := ring, sent := ok1, seq := seq, stamp := stamp,
                         epoch := epoch }
    if coderFill s1 + 5 * ceilDiv ws.length 4 ≤ 262144 then
      { s1 with code := { s1.code with jobs := s1.code.jobs ++ [j] } }
    else
      let (s2, ok2) := sendLinks s1 cl (plainType event prio) ws
      let s3 := bump (if ring then ringDrop s2 j else s2) bcDropCount
      if ok1 || ok2 then s3 else bump s3 (stDropCount c.n)

/-! ### Detectors -/

/-- R265: a detector's settings. -/
structure DetCfg where
  kind : Nat
  nOn : Nat
  nOff : Nat
  hi : Int
  lo : Int
  hyst : Int
  deriving DecidableEq, Repr

/-- A detector's registers, where it is enabled. -/
def detCfg (s : State) (n d : Nat) : Option DetCfg :=
  if isSet s (stDetCtrlEn n d) then
    some { kind := getF s (stDetCtrlKind n d), nOn := getF s (stDetCtrlNOn n d) + 1, nOff := getF s (stDetCtrlNOff n d) + 1,
           hi := signedOf 40 (getF s (stDetHiLoV n d) + 2 ^ 20 * getF s (stDetHiHiV n d)),
           lo := signedOf 40 (getF s (stDetLoLoV n d) + 2 ^ 20 * getF s (stDetLoHiV n d)),
           hyst := (getF s (stDetHystHyst n d) : Nat) }
  else none

/-- R265: the enter condition. -/
def detEnter (c : DetCfg) (o : Int) : Bool :=
  match c.kind with
  | 0 => decide (c.hi < o)
  | 1 => decide (o < c.lo)
  | 2 => decide (c.hi < o ∨ o < c.lo)
  | 3 => decide (c.lo ≤ o ∧ o ≤ c.hi)
  | _ => decide (c.hi < (o.natAbs : Int))

/-- R265: the leave condition. -/
def detLeave (c : DetCfg) (o : Int) : Bool :=
  match c.kind with
  | 0 => decide (o ≤ c.hi - c.hyst)
  | 1 => decide (c.lo + c.hyst ≤ o)
  | 2 => decide (c.lo + c.hyst ≤ o ∧ o ≤ c.hi - c.hyst)
  | 3 => decide (c.hi + c.hyst < o ∨ o < c.lo - c.hyst)
  | _ => decide ((o.natAbs : Int) ≤ c.hi - c.hyst)

/-- R266: a detector at one station after a counted output: its state, and ENTER (0) or LEAVE (1). -/
def detStep (c : DetCfg) (x : DetSt) (o : Int) (flag : Nat) : DetSt × Option Nat :=
  let y := { x with o := o, flag := flag }
  if x.active then
    if detLeave c o then
      if c.nOff ≤ x.cnt + 1 then ({ y with active := false, cnt := 0 }, some 1) else ({ y with cnt := x.cnt + 1 }, none)
    else ({ y with cnt := 0 }, none)
  else if detEnter c o then
    if c.nOn ≤ x.cnt + 1 then ({ y with active := true, cnt := 0 }, some 0) else ({ y with cnt := x.cnt + 1 }, none)
  else ({ y with cnt := 0 }, none)

/-- A detector event before it becomes a record. -/
structure DetEvent where
  d : Fin 4
  kind : Nat
  restart : Bool
  k : Nat
  stamp : Nat
  o : Int
  flag : Nat
  deriving DecidableEq, Repr

/-- R268: the record of an event. -/
def detRecord (c : StreamCfg) (e : DetEvent) : List Word :=
  [BitVec.ofNat 10 (e.d.val + 4 * e.kind + 16 * b2n e.restart), streamWord c] ++ wordsOf 2 e.k ++ timeWords e.stamp
    ++ wordsOf 4 (fieldOf 40 e.o) ++ [BitVec.ofNat 10 e.flag]

/-- R267: the SUMMARY of a second with suppressed events, if one is due before second `now`. -/
def detSummary (s : State) (c : StreamCfg) (d : Fin 4) (now : Nat) : State × List (List Word) :=
  let x := vget (strm s c.n).det d
  if x.sec ≠ now then
    (modStrm s c.n (fun y => { y with det := vset y.det d { x with sec := now, sent := 0, supp := 0 } }),
     if 0 < x.supp then
       [detRecord c { d := d, kind := 2, restart := false, k := x.k, stamp := (x.sec + 1) * secU, o := (x.supp : Nat), flag := x.flag }]
     else [])
  else (s, [])

/-- R267: an event against EV_LIMIT: its record, or its suppression. -/
def detAdmit (s : State) (c : StreamCfg) (e : DetEvent) : State × List (List Word) :=
  let (s1, sum) := detSummary s c e.d (stampNow s / secU)
  let x := vget (strm s1 c.n).det e.d
  if x.sent < getF s1 (stDetLimitEvLimit c.n e.d.val) then
    (bump (modStrm s1 c.n (fun y => { y with det := vset y.det e.d { x with sent := x.sent + 1 } })) (stDetEventsCount c.n e.d.val),
     sum ++ [detRecord c e])
  else (modStrm s1 c.n (fun y => { y with det := vset y.det e.d { x with supp := x.supp + 1, k := e.k, flag := e.flag } }), sum)

/-- R268: event frames of at most 64 records, each with the next number; to the stream's destinations whether or not
ENABLE is set. -/
def sendEvents (c : StreamCfg) (stamp : Nat) : Nat → List (List Word) → State → State
  | 0, _, s => s
  | _ + 1, [], s => s
  | fuel + 1, r :: rs, s =>
    let now := (r :: rs).take 64
    let seq := (strm s c.n).evSeq
    let ws := [streamWord c, BitVec.ofNat 10 now.length] ++ wordsOf 2 seq ++ now.flatten
    let s1 := modStrm s c.n (fun y => { y with evSeq := (seq + 1) % 2 ^ 20 })
    let first := match now with | [] => stamp | x :: _ => ofTime110 (wAt x 4 11)
    sendEvents c stamp fuel ((r :: rs).drop 64)
      (sendFrame s1 c true true false (getF s1 (stCtrlDest c.n)) ws 0 1 seq first (vget s1.fu.epoch 5))

/-- R266 to R268: events become records and frames. -/
def emitEvents (s : State) (c : StreamCfg) (stamp : Nat) (es : List DetEvent) : State :=
  let (s1, rs) := es.foldl (fun a e => let (t, r) := detAdmit a.1 c e; (t, a.2 ++ r)) ((s, []) : State × List (List Word))
  sendEvents c stamp (rs.length + 1) rs s1

/-- R267 DETECTOR_SUMMARY. -/
def summarySt (n : Nat) (d : Fin 4) (s : State) : State :=
  match streamAt s n with
  | none => s
  | some c =>
    let (s1, rs) := detSummary s c d (stampNow s / secU)
    sendEvents c (stampNow s) (rs.length + 1) rs s1

/-- R267 DETECTOR_SUMMARY. -/
def execDetectorSummary (n : Fin 256) (d : Fin 4) (s : State) : Host.Outcome State Fault Refusal := .next (summarySt n.val d s)

/-! ### Restarts -/

/-- R267: the LEAVE events of a restart, for the chosen output stations. -/
def restartEvents (s : State) (n stamp : Nat) (p : Nat → Bool) : List DetEvent :=
  (List.finRange 4).flatMap (fun d => (strm s n).chain.filterMap (fun e =>
    let x := vget e.2.dets d
    if p e.1 && x.active then some { d := d, kind := 1, restart := true, k := e.1, stamp := stamp, o := x.o, flag := x.flag }
    else none))

/-- R273, R262, R264: chains restart: no history, the held value 0, SETTLING for N_SETTLE outputs. -/
def restartChains (s : State) (c : StreamCfg) (stamp : Nat) (late : Bool) (p : Nat → Bool) : State :=
  let es := restartEvents s c.n stamp p
  let fresh : ChainSt := { ChainSt.zero with settle := nSettle c, late := late }
  let s1 := modStrm s c.n (fun x =>
    { x with chain := (List.range c.nOut).foldl (fun t k => if p k then tabPut t k fresh else t) x.chain })
  emitEvents s1 c stamp es

/-- R273: a running fade completes at once to its target, then a queued swap. -/
def finishFades (x : StreamSt) : StreamSt :=
  let b1 := match x.fade with | none => x.bank | some f => f.target
  { x with bank := match x.queued with | none => b1 | some q => q.1, fade := none, queued := none }

/-- R273: a restart of a stream with its fades completed; `drop` discards its pending syncs. -/
def restartStream (s : State) (c : StreamCfg) (drop : Bool) : State :=
  let s1 := restartChains s c (stampNow s) false (fun _ => true)
  modStrm s1 c.n (fun x => { finishFades x with syncs := if drop then [] else x.syncs })

/-- R273: the streams of a line restart. -/
def restartLineStreams (s : State) (l : Nat) (drop : Bool) : State :=
  forEach ((allStreams s).filter (fun c => decide (c.line = l))) s (fun s c => restartStream s c drop)

/-- R273, R241: the output stations of a recovered traverse restart. -/
def restartTravStreams (s : State) (t : Fin 8) : State :=
  forEach (allStreams s) s (fun s c => restartChains s c (stampNow s) false (fun k => decide (outTrav s c k = some t)))

/-- R276: the registers and counters that a STREAM reset returns to their reset values. -/
def clearStreamCounters (s : State) (n : Nat) : State :=
  let fs : List Fld := [stStatusAov n, stDropCount n, stFilledCount n, stSatCount n, stSwapSupersededCount n, stBankBusyCount n,
    stSyncsApplied n, stSyncsLate n] ++ (List.range 4).map (fun d => stDetEventsCount n d)
  fs.foldl (fun s f => setF s f 0) s

/-- R273, R276: a STREAM reset. -/
def streamResetSt (n : Nat) (s : State) : State :=
  match streamAt s n with
  | none => s
  | some c => modStrm (clearStreamCounters (restartStream s c false) n) n (fun x => { x with seq := 0, evSeq := 0 })

/-- R273 STREAM_RESET. -/
def execStreamReset (n : Fin 256) (s : State) : Host.Outcome State Fault Refusal := .next (streamResetSt n.val s)

/-- R275: a stream as the plan defines it: its registers, both banks, bank A active. -/
def startStream (s : State) (p : List Word) : State :=
  let c := streamOfPayload p
  let sub := wAt p 28 1
  let n := c.n
  let s1 := [(stCtrlEnable n, bitsOf sub 0 0), (stCtrlDest n, bitsOf sub 4 1), (stCtrlPrio n, bitsOf sub 5 5),
    (stCtrlCoded n, bitsOf sub 6 6), (stCtrlFlags n, bitsOf sub 8 7), (stScaleScale n, wAt p 17 2), (stShiftSsh n, wAt p 19 1),
    (stOffsetLoOffset n, wAt p 20 2), (stOffsetHiOffset n, wAt p 22 2), (stShiftExcl n, wAt p 24 1)].foldl
      (fun s x => setF s x.1 x.2) s
  let coef := ((recsOf s 0x101).filter (fun q => decide (wAt q 0 1 = n))).foldl (fun t q =>
    (List.range c.t).foldl (fun t i => tabSet 0 t (wAt q 1 1 * 256 + i) (wAt q (2 + 2 * i) 2)) t) []
  let s2 := { s1 with streams := tabPut s1.streams n { StreamSt.zero with coef := coef } }
  restartChains (clearStreamCounters s2 n) c (stampNow s) false (fun _ => true)

/-- R275 STREAM_DETECTOR: the registers of a detector. -/
def putDetector (s : State) (p : List Word) : State :=
  let n := wAt p 0 1
  let d := wAt p 1 1
  [(stDetCtrlEn n d, bitsOf (wAt p 2 1) 9 9), (stDetCtrlKind n d, bitsOf (wAt p 2 1) 2 0), (stDetCtrlNOn n d, wAt p 3 1 - 1),
    (stDetCtrlNOff n d, wAt p 4 1 - 1), (stDetHiLoV n d, wAt p 5 2), (stDetHiHiV n d, wAt p 7 2), (stDetLoLoV n d, wAt p 9 2),
    (stDetLoHiV n d, wAt p 11 2), (stDetHystHyst n d, wAt p 13 2), (stDetLimitEvLimit n d, wAt p 15 1)].foldl
    (fun s x => setF s x.1 x.2) s

/-! ### Banks and fades -/

/-- R259, R260: a swap takes effect. -/
def takeSwap (s : State) (n target len : Nat) : State :=
  let x := strm s n
  match x.fade with
  | none =>
    if target = x.bank then s
    else modStrm s n (fun x => { x with fade := some { target := target, len := clampN 16 4096 len, k := 0 } })
  | some _ =>
    let s1 := if x.queued.isSome then bump s (stSwapSupersededCount n) else s
    modStrm s1 n (fun x => { x with queued := some (target, clampN 16 4096 len) })

/-- R259 SWAP_REQUEST: REQ reads 1 until the fence that takes it completes. -/
def swapRequestSt (n : Nat) (s : State) : State :=
  match streamAt s n with
  | none => s
  | some c =>
    if c.t = 0 then s
    else { setF s (stSwapReq n) 1 with fu := { s.fu with
      held := s.fu.held ++ [{ addr := (stSwapReq n).addr, mask := 2 ^ 19, value := 2 ^ 19, serial := s.fu.issued }],
      autoMask := (List.finRange 8).foldl (fun m t => if (streamTravs s c).contains t then m ||| 2 ^ (10 + t.val) else m) s.fu.autoMask } }

/-- R259 SWAP_REQUEST. -/
def execSwapRequest (n : Fin 256) (s : State) : Host.Outcome State Fault Refusal := .next (swapRequestSt n.val s)

/-- R258: a bank that is neither active nor in a fade. -/
def bankIdle (x : StreamSt) (b : Nat) : Bool := decide (b ≠ x.bank) && x.fade.isNone

/-- R258: what a coefficient write does. -/
inductive CoefWrite where
  | stored | busy | none_
  deriving DecidableEq, Repr

/-- R258: a write to ST_COEF_DATA. -/
def coefWrite (s : State) (n : Nat) (v : Nat) : State × CoefWrite :=
  match streamAt s n with
  | none => (s, .none_)
  | some c =>
    let b := getF s (stCoefSelBank n)
    let i := getF s (stCoefSelIndex n)
    if c.t ≤ i then (s, .none_)
    else if bankIdle (strm s n) b then
      (modStrm s n (fun x => { x with coef := tabSet 0 x.coef (b * 256 + i) (v % 2 ^ 20) }), .stored)
    else (bump s (stBankBusyCount n), .busy)

/-- R258 COEF_WRITE. -/
def execCoefWrite (n : Fin 256) (value : BitVec 20) (s : State) : Host.Outcome State Fault Refusal :=
  .next (coefWrite s n.val value.toNat).1

/-! ### Syncs -/

/-- R262, R263: a sync arrives at a stream, late where an input stamped at or after its time has been processed. -/
def addSync (s : State) (n ts : Nat) : State :=
  match streamAt s n with
  | none => s
  | some c =>
    let x := strm s n
    let late := match x.lastIn with | none => false | some t => decide (ts ≤ t)
    if 4 ≤ x.syncs.length then
      logEvent s 0x01E (10 + ((streamTravs s c).head?.map (fun t => t.val)).getD 0) 1 0 n
    else
      let s1 := if late then bump s (stSyncsLate n) else s
      modStrm s1 n (fun x => { x with syncs := (x.syncs ++ [(ts, late)]).mergeSort (fun a b => decide (a.1 ≤ b.1)) })

/-- R261: a sync of a set of streams. -/
def syncMask (s : State) (mask ts : Nat) : State := (maskBits 256 mask).foldl (fun s n => addSync s n ts) s

/-- R261, R493: a falling edge of SYNC_N. -/
def syncEdgeSt (s : State) : State :=
  forEach ((allStreams s).filter (fun c => c.syncPin)) s (fun s c => addSync s c.n (stampNow s))

/-- R261 SYNC_N_EDGE. -/
def execSyncNEdge (s : State) : Host.Outcome State Fault Refusal := .next (syncEdgeSt s)

/-- R261 ST_CMD_SYNC: 50 µs after the write. -/
def execStCmdSync (n : Fin 256) (s : State) : Host.Outcome State Fault Refusal := .next (addSync s n.val (stampNow s + 50 * usU))

/-! ### Grid points -/

/-- R253: the group whose launches a stamp belongs to: the DAS offset nearest to its phase. -/
def groupOfStamp (s : State) (l : Fin 2) (stamp : Nat) : Nat :=
  let P := vget s.probe l
  let per := max 1 (tShot s l.val * gridU)
  let o : Int := ((P.origin.getD 0 : Nat) : Int) + P.shift
  let ph := (((stamp : Int) - o) % (per : Int)).toNat
  let dist (d : Nat) : Nat := let x := ((d * gridU : Nat) : Int) - (ph : Int); min x.natAbs (per - x.natAbs)
  let offs := dasOffsets s l.val
  (offs.zipIdx.foldl (fun b x => match b with
    | none => some x
    | some y => if dist x.1 < dist y.1 then some x else some y) (none : Option (Nat × Nat))).elim 0 (·.2)

/-- R253: the spacing from a grid point of a stream to the next one. -/
def gridGap (s : State) (c : StreamCfg) (l : Fin 2) (stamp : Nat) : Nat :=
  let per := tShot s l.val * gridU
  let das : Nat :=
    let offs := dasOffsets s l.val
    let j := groupOfStamp s l stamp
    let a := lget 0 offs j
    if j + 1 < offs.length then (lget 0 offs (j + 1) - a) * gridU else per - (a - lget 0 offs 0) * gridU
  let spec : Nat := match specCfg s l.val with | none => per | some k => k.outSweeps * k.c * per
  let ram : Nat := match ramanCfg s l.val with | none => per | some k => blockSpan s l.val k.outCap
  let p := c.product
  max 1 (if p < 0x020 then das else if p < 0x030 then spec else if p < 0x040 then ram
    else match customHook s p with | 0 => das | 1 => spec | _ => ram)

/-- R253: the grid points skipped before a stamp, in order, by fuel. -/
def skipped (gap : Nat → Nat) (stamp : Nat) : Nat → Nat → List Nat
  | 0, _ => []
  | f + 1, e => if gap e < 2 * (stamp - e) ∧ e < stamp then e :: skipped gap stamp f (e + gap e) else []

/-! ### The chain -/

/-- R254: what the A stations of an output station give at a grid point: the value unless filled, the OR of the flag
words, and whether an accepted one was flagged. -/
structure Reduced where
  v : Option Int
  pf : Nat
  flagged : Bool
  epoch : Option Nat
  deriving DecidableEq, Repr

/-- R255: a product value: Q products are unsigned, all others are read as signed. -/
def productValue (code : Nat) (ws : List Word) : Int :=
  if code = 0x015 ∨ code = 0x023 then (wordsVal ws : Nat) else signedOf (10 * ws.length) (wordsVal ws)

/-- R254: the reduction. -/
def reduceAt (s : State) (c : StreamCfg) (stamp : Nat) (have_ : Bool) (k : Nat) : Reduced :=
  let first := c.s0 + k * c.a
  let sts := if c.mean then (List.range c.a).map (fun i => first + i) else [first]
  let smp := if have_ then sts.filterMap (fun st => (sampleAt s c.line c.product st).bind (fun x =>
    if x.stamp = stamp then some x else none)) else []
  let excl := getF s (stShiftExcl c.n)
  let ok := smp.filter (fun x => !x.invalid && decide (x.flag &&& excl = 0))
  { v := if ok.isEmpty then none
      else some (satS 40 (roundEven (sumI (ok.map (fun x => productValue c.product x.words))) ok.length)),
    pf := smp.foldl (fun a x => a ||| x.flag) 0, flagged := ok.any (fun x => decide (x.flag ≠ 0)),
    epoch := smp.head?.map (fun x => x.epoch) }

/-- R255: the FIR sum over a bank, and whether it saturated (R238). -/
def firSum (hs dl : List Int) : Int × Bool :=
  (hs.zip dl).foldl (fun a p =>
    if a.2 then a
    else
      let v := a.1 + p.1 * p.2
      if v < -(2 ^ 39 : Int) then (-(2 ^ 39 : Int), true) else if (2 ^ 39 : Int) ≤ v then ((2 ^ 39 : Int) - 1, true) else (v, false))
    (0, false)

/-- What an output is formed with: the banks' coefficients, the fade weight of the new one (none: no fade), the
scaling, and the row's FADING and BANK flags. -/
structure OutCfg where
  old : List Int
  new : List Int
  wt : Option Nat
  scale : Int
  ssh : Nat
  offset : Int
  flags : Nat
  deriving DecidableEq, Repr

/-- R255: the integrators after one input. -/
def integrate : List Nat → Int → List Nat
  | [], _ => []
  | i :: t, m => let v := fieldOf 50 ((i : Int) + m); v :: integrate t v

/-- R255: the combs after one value, and what comes out. -/
def combAll : List Nat → Nat → List Nat × Nat
  | [], t => ([], t)
  | c :: r, t => let (cs, out) := combAll r (fieldOf 50 ((t : Int) - c)); (t :: cs, out)

/-- R255: one input through the rank filter, CIC and FIR stages: the chain after it, and the value c where an FIR input
or output is due: whether the output instant is reached. -/
def chainIn (c : StreamCfg) (x : ChainSt) (v : Int) : ChainSt × Option Int × Bool :=
  let med := if x.med.isEmpty then List.replicate c.wm v else (v :: x.med).take c.wm
  let m := lget v (med.mergeSort (fun a b => decide (a ≤ b))) c.rank
  let ints := integrate (if x.ints.length = c.order then x.ints else List.replicate c.order 0) m
  let r := x.rPhase + 1
  if r < c.r then ({ x with med := med, ints := ints, rPhase := r }, none, false)
  else
    let (combs, t) := combAll (if x.combs.length = c.order then x.combs else List.replicate c.order 0) (ints.getLast?.getD 0)
    let cv := if c.order = 0 then m
      else satS 40 (roundEven (signedOf 50 t) (2 ^ ceilLog2 (c.r ^ c.order)))
    let d := x.dPhase + 1
    let y := { x with med := med, ints := ints, combs := combs, rPhase := 0, dPhase := if d < c.df then d else 0 }
    (y, some cv, decide (c.df ≤ d))

/-- R255, R256: the FIR delay line takes a value. -/
def chainFir (c : StreamCfg) (x : ChainSt) (cv : Int) : ChainSt :=
  if c.t = 0 then x
  else
    let w := roundEven cv (2 ^ c.preSh)
    let v := satS 20 w
    { x with dl := (v :: x.dl).take c.t, clamped := x.clamped || decide (v ≠ w) }

/-- R255, R256, R259, R271: an output: value, stream flag word, and whether a FIR sum saturated. -/
def chainOut (c : StreamCfg) (k : OutCfg) (x : ChainSt) (cv : Int) : Int × Nat × Bool :=
  let (y, bad) : Int × Bool :=
    if c.t = 0 then (cv, false)
    else
      let one (hs : List Int) : Int × Bool := let (f, b) := firSum hs x.dl; (roundEven f (2 ^ 18), b)
      match k.wt with
      | none => one k.new
      | some w =>
        let (a, p) := one k.old
        let (b, q) := one k.new
        (roundEven (a * (1024 - (w : Int)) + b * (w : Int)) 1024, p || q)
  let z := roundEven (y * k.scale) (2 ^ k.ssh) + k.offset
  let o := satS (10 * c.outWords) z
  let f := b2n (decide (0 < x.settle)) + 2 * b2n bad + 4 * b2n (x.clamped || decide (o ≠ z)) + 8 * b2n x.filled + k.flags
    + 64 * b2n (decide (0 < x.settle) && x.late) + 128 * b2n x.flagged + 256 * b2n (!x.taken)
  (o, f, bad)

/-- A row's output with its epoch. -/
structure RowCell where
  r : RowOut
  epoch : Nat
  deriving DecidableEq, Repr

/-- R255: one grid point at one output station: the chain, and its output if one is due. -/
def stationInput (s : State) (c : StreamCfg) (kf : OutCfg) (stamp : Nat) (have_ : Bool) (k : Nat) (x : ChainSt) :
    ChainSt × Option (RowCell × Bool) × Bool :=
  let red := reduceAt s c stamp have_ k
  let v := red.v.getD x.held
  let x1 := { x with held := v, pflags := x.pflags ||| red.pf, filled := x.filled || red.v.isNone,
                     taken := x.taken || red.v.isSome, flagged := x.flagged || red.flagged }
  match chainIn c x1 v with
  | (x2, none, _) => (x2, none, red.v.isNone)
  | (x2, some cv, due) =>
    let x3 := chainFir c x2 cv
    if due then
      let (o, f, bad) := chainOut c kf x3 cv
      let ep := match red.epoch, outTrav s c k with
        | some e, _ => e
        | none, some t => vget s.fu.epoch ⟨10 + t.val, by omega⟩
        | none, none => 0
      ({ x3 with settle := x3.settle - 1, late := x3.late && decide (1 < x3.settle), pflags := 0, filled := false, taken := false,
                 flagged := false, clamped := false },
       some ({ r := { k := k, o := o, flag := f, pflags := x3.pflags }, epoch := ep }, bad), red.v.isNone)
    else (x3, none, red.v.isNone)

/-- An output instant is reached at some output station by the next input. -/
def outputNext (c : StreamCfg) (x : StreamSt) : Bool :=
  (List.range c.nOut).any (fun k =>
    let y := tabGet ChainSt.zero x.chain k
    decide (c.r ≤ y.rPhase + 1 ∧ c.df ≤ y.dPhase + 1))

/-- The coefficients of a bank. -/
def bankCoef (c : StreamCfg) (x : StreamSt) (b : Nat) : List Int :=
  (List.range c.t).map (fun i => signedOf 20 (tabGet 0 x.coef (b * 256 + i)))

/-- R259: what the outputs of the next input are formed with. -/
def outCfg (s : State) (c : StreamCfg) : OutCfg :=
  let x := strm s c.n
  let n := c.n
  let base := fun (b : Nat) (fading : Bool) => 16 * b2n fading + 32 * b
  let offset := signedOf 40 (getF s (stOffsetLoOffset n) + 2 ^ 20 * getF s (stOffsetHiOffset n))
  match x.fade with
  | none =>
    { old := [], new := bankCoef c x x.bank, wt := none, scale := getFS s (stScaleScale n), ssh := getF s (stShiftSsh n),
      offset := offset, flags := base x.bank false }
  | some f =>
    { old := bankCoef c x x.bank, new := bankCoef c x f.target,
      wt := if f.k + 1 < f.len then some (1024 * (f.k + 1) / f.len) else none, scale := getFS s (stScaleScale n),
      ssh := getF s (stShiftSsh n), offset := offset, flags := base f.target true }

/-- R259, R260: the fade after an output instant. -/
def fadeStep (x : StreamSt) : StreamSt :=
  match x.fade with
  | none => x
  | some f =>
    if f.k + 1 < f.len then { x with fade := some { f with k := f.k + 1 } }
    else
      let y := { x with bank := f.target, fade := none, queued := none }
      match x.queued with
      | none => y
      | some (t, len) => if t = f.target then y else { y with fade := some { target := t, len := len, k := 0 } }

/-! ### Rows and frames -/

/-- R269: the samples of a row cut into frames: at most n of them, and only of one epoch. -/
def cutRow (n : Nat) : List RowCell → List (List RowCell)
  | [] => []
  | x :: t =>
    match cutRow n t with
    | [] => [[x]]
    | g :: gs =>
      match g with
      | [] => [x] :: gs
      | y :: _ => if y.epoch = x.epoch then (x :: g) :: gs else [x] :: g :: gs

/-- R269: every group cut into pieces of n from its front. -/
def chunk (n : Nat) : Nat → List RowCell → List (List RowCell)
  | 0, _ => []
  | _ + 1, [] => []
  | f + 1, x :: t => ((x :: t).take n) :: chunk n f ((x :: t).drop n)

/-- R270: a sample's words. -/
def sampleWords (c : StreamCfg) (flags : Nat) (x : RowCell) : List Word :=
  wordsOf c.outWords (fieldOf (10 * c.outWords) x.r.o)
    ++ (if 1 ≤ flags then [BitVec.ofNat 10 x.r.flag] else []) ++ (if 2 ≤ flags then [BitVec.ofNat 10 x.r.pflags] else [])

/-- R270: a frame of a row. -/
def rowFrame (c : StreamCfg) (flags seq stamp : Nat) (first last : Bool) (xs : List RowCell) : List Word :=
  let ep := match xs with | [] => 0 | x :: _ => x.epoch
  let k0 := match xs with | [] => 0 | x :: _ => x.r.k
  [streamWord c, BitVec.ofNat 10 c.product] ++ wordsOf 2 seq ++ [BitVec.ofNat 10 ep,
    BitVec.ofNat 10 (flags + 4 * (c.outWords - 1) + 16 * b2n first + 32 * b2n last)] ++ timeWords stamp ++ wordsOf 2 k0
    ++ wordsOf 2 xs.length ++ [BitVec.ofNat 10 (xs.foldl (fun a x => a ||| x.r.flag) 0),
    BitVec.ofNat 10 (xs.foldl (fun a x => a ||| x.r.pflags) 0), 0] ++ xs.flatMap (sampleWords c flags)

/-- R269, R272: the frames of a row go out; each takes the next sequence number. -/
def sendRow (s : State) (c : StreamCfg) (stamp : Nat) (row : List RowCell) : State :=
  if !(isSet s (stCtrlEnable c.n)) || row.isEmpty then s
  else
    let flags := min 2 (getF s (stCtrlFlags c.n))
    let per := max 1 (c.frameWords / (c.outWords + flags))
    let gs := (cutRow per row).flatMap (fun g => chunk per (g.length + 1) g)
    gs.zipIdx.foldl (fun s g =>
      let seq := (strm s c.n).seq
      let ws := rowFrame c flags seq stamp (decide (g.2 = 0)) (decide (g.2 + 1 = gs.length)) g.1
      let s1 := modStrm s c.n (fun x => { x with seq := (seq + 1) % 2 ^ 20 })
      let ep := match g.1 with | [] => 0 | x :: _ => x.epoch
      sendFrame s1 c false (isSet s1 (stCtrlPrio c.n)) (isSet s1 (stCtrlCoded c.n)) (getF s1 (stCtrlDest c.n)) ws g.1.length
        (1 + flags) seq stamp ep) s

/-- R266: the detectors of a stream on its outputs. -/
def runDetectors (s : State) (c : StreamCfg) (stamp : Nat) (row : List RowCell) : State :=
  let dets := (List.finRange 4).filterMap (fun d => (detCfg s c.n d.val).map (fun k => (d, k)))
  if dets.isEmpty then s
  else
    let (s1, es) := row.foldl (fun a x =>
      if x.r.flag &&& 0x103 ≠ 0 then a
      else dets.foldl (fun a dk =>
        let ch := tabGet ChainSt.zero (strm a.1 c.n).chain x.r.k
        let (y, ev) := detStep dk.2 (vget ch.dets dk.1) x.r.o x.r.flag
        let s1 := modStrm a.1 c.n (fun z => { z with chain := tabPut z.chain x.r.k { ch with dets := vset ch.dets dk.1 y } })
        match ev with
        | none => (s1, a.2)
        | some kind => (s1, a.2 ++ [{ d := dk.1, kind := kind, restart := false, k := x.r.k, stamp := stamp, o := x.r.o, flag := x.r.flag }]))
        a) ((s, []) : State × List DetEvent)
    emitEvents s1 c stamp es

/-- R262, R263: the syncs due at an input. -/
def dueSyncs (s : State) (c : StreamCfg) (stamp : Nat) : State :=
  let x := strm s c.n
  let due := x.syncs.filter (fun y => y.2 || decide (y.1 ≤ stamp))
  if due.isEmpty then s
  else
    let s1 := modStrm s c.n (fun x => { x with syncs := x.syncs.filter (fun y => !(y.2 || decide (y.1 ≤ stamp))) })
    restartChains (bumpBy s1 (stSyncsApplied c.n) due.length) c stamp (due.any (fun y => y.2)) (fun _ => true)

/-- R254 to R262: one grid point of a stream. -/
def gridInput (c : StreamCfg) (have_ : Bool) (s0 : State) (stamp : Nat) : State :=
  let s := dueSyncs s0 c stamp
  let x := strm s c.n
  let kf := outCfg s c
  let outNow := outputNext c x
  let rs := (List.range c.nOut).map (fun k => (k, stationInput s c kf stamp have_ k (tabGet ChainSt.zero x.chain k)))
  let row := rs.filterMap (fun r => r.2.2.1)
  let filled := (rs.filter (fun r => r.2.2.2)).length
  let s1 := modStrm s c.n (fun x =>
    let y := { x with chain := rs.foldl (fun t r => tabPut t r.1 r.2.1) x.chain, lastIn := some stamp }
    if outNow then fadeStep y else y)
  let s2 := bumpBy (bumpBy s1 (stFilledCount c.n) filled) (stSatCount c.n) ((row.filter (fun r => bitOf r.1.r.flag 2)).length)
  let s3 := if row.any (fun r => r.2) then setF s2 (stStatusAov c.n) 1 else s2
  let cells := row.map (fun r => r.1)
  if cells.isEmpty then s3
  else
    let s4 := runDetectors s3 c stamp cells
    let s5 := zonesRow s4 c.n (cells.map (fun x => x.r)) stamp (match cells with | [] => 0 | x :: _ => x.epoch)
    sendRow s5 c stamp cells

/-- R253, R273: the grid point of a stamp, with the points skipped before it. -/
def streamInputSt (n : Fin 256) (stamp : Nat) (s : State) : State :=
  match streamAt s n.val with
  | none => s
  | some c =>
    match (List.finRange 2).find? (fun l => decide (l.val = c.line)) with
    | none => s
    | some l =>
      if streamShed s c || inStandby s then s
      else
        let x := strm s n.val
        let P := vget s.probe l
        let same := decide (x.gridEra = P.era ∧ x.gridShift = P.shift)
        let gap := gridGap s c l
        if same && (match x.lastIn with | none => false | some t => decide (stamp ≤ t)) then s
        else
          let miss := match x.expect with
            | none => []
            | some e => if same then skipped gap stamp (stamp - e + 1) e else []
          let s1 := gridInput c true (miss.foldl (gridInput c false) s) stamp
          modStrm s1 n.val (fun x => { x with expect := some (stamp + gap stamp), gridEra := P.era, gridShift := P.shift })

/-- R255 STREAM_INPUT. -/
def execStreamInput (n : Fin 256) (stamp : Nat) (s : State) : Host.Outcome State Fault Refusal := .next (streamInputSt n stamp s)

end Sys2Proof.Machine
end

