-- ==== Sys2Proof/Machine/Ring.lean ====
section
/-! DEFINITION. The block coder at work, the replay ring and its cursors (spec R277 to R298). -/

namespace Sys2Proof.Machine
open Sys2Proof

/-- The state of coder and ring changed. -/
def modCode (s : State) (f : CodeSt → CodeSt) : State := { s with code := f s.code }

/-- R431, R446: DRAM takes no C2 or C3 requests: frozen or in self-refresh. -/
def dramStopped (s : State) : Bool := s.mem.freeze.isSome || inStandby s

/-! ### Admission to C2 -/

/-- R289: granules of an entry of a body. -/
def granules (body : List Word) : Nat := ceilDiv (20 + body.length) 32

/-- R421: bytes queued in C2. -/
def c2Fill (s : State) : Nat := sumN (s.code.c2.map (fun e => 40 * e.len))

/-- R421: an entry of n granules has room in the 2 MB queue, and DRAM takes ring writes. -/
def c2Room (s : State) (n : Nat) : Bool := !(dramStopped s) && decide (c2Fill s + 40 * n ≤ 2097152)

/-- An entry joins the C2 queue; its serial is given when it is written. -/
def c2Push (s : State) (e : RingEntry) : State := modCode s (fun c => { c with c2 := c.c2 ++ [e] })

/-- R292: the GAP entry of a stream, if it has lost frames and there is room for it. -/
def pushGap (s : State) (n : Nat) : State :=
  match tabFind s.code.gaps n with
  | none => s
  | some g =>
    if c2Room s 1 then
      let s1 := c2Push s { ty := 2, serial := 0, sw := g.sw, seq := g.seq, len := 1, stamp := g.stamp, epoch := min g.n 1023,
                           body := [], at_ := 0 }
      modCode s1 (fun c => { c with gaps := tabErase c.gaps n })
    else s

/-- R292: the GAP entries that are overdue, which go before any block. -/
def pushDueGaps (s : State) : State :=
  forEach (s.code.gaps.filter (fun g => decide (g.2.at_ + secU ≤ elapsed s))) s (fun s g => pushGap s g.1)

/-- R291, R292: a coded frame is admitted to the ring whole, after the stream's GAP entry, or dropped. -/
def ringAdmit (s : State) (j : CodeJob) (body : List Word) : State :=
  let s1 := pushGap (pushDueGaps s) j.stream
  let n := granules body
  if (tabFind s1.code.gaps j.stream).isNone && c2Room s1 n then
    c2Push s1 { ty := b2n j.event, serial := 0, sw := (lget 0 j.words 0).toNat, seq := j.seq, len := n, stamp := j.stamp,
                epoch := j.epoch, body := body, at_ := 0 }
  else ringDrop s1 j

/-! ### The coder -/

/-- R277: the coder codes the frame at the head of its queue, once for every destination. -/
def codeFrameSt (s : State) : State :=
  match s.code.jobs with
  | [] => s
  | j :: rest =>
    let h := if j.event then j.words.length else 24
    let (blk, raw) := codeBlock j.words h j.m j.e j.outWords
    let s0 := modCode s (fun c =>
      { c with jobs := rest, srcWords := c.srcWords + j.words.length, codWords := c.codWords + blk.length })
    let s1 := if raw then bump s0 bcRawCount else s0
    let ls := (List.finRange 3).filter (fun l => bitOf j.links l.val)
    let (s2, ok) := sendLinks s1 ls (if j.prio then ftypeOf 0 5 else ftypeOf 2 2) blk
    let s3 := if j.ring then ringAdmit s2 j blk else s2
    if !ok && !j.sent && !j.ring then bump s3 (stDropCount j.stream) else s3

/-- R277 CODE_FRAME. -/
def execCodeFrame (s : State) : Host.Outcome State Fault Refusal := .next (codeFrameSt s)

/-! ### The writer -/

/-- R291: a serial is before another, modulo 2^30. -/
def serialBefore (a b : Nat) : Bool := let d := (b + 2 ^ 30 - a % 2 ^ 30) % 2 ^ 30; decide (1 ≤ d ∧ d < 2 ^ 29)

/-- One cursor changed. -/
def modCur (s : State) (c : Fin 16) (f : CursorSt → CursorSt) : State := modCode s (fun x => { x with cur := vmod x.cur c f })

/-- R295: a cursor is moved to a serial with CURSOR_MOVED. -/
def moveCur (s : State) (c : Fin 16) (pos : Nat) (count : Bool) : State :=
  let s1 := setF (modCur s c (fun x => { x with pos := pos, moved := true })) (bcCurStatusCursorMoved c.val) 1
  if count then bump s1 (bcCurMovesCount c.val) else s1

/-- R295: BC_OLDEST advances, and takes with it each cursor that it passes. -/
def setOldest (s : State) (n : Nat) : State :=
  (List.finRange 16).foldl (fun s c =>
    if serialBefore (vget s.code.cur c).pos n then moveCur s c n true else s) (modCode s (fun c => { c with oldest := n }))

/-- R291: entries that hold any of the granules from `a` to `b`. -/
def holdsAny (a b : Nat) (e : RingEntry) : Bool := decide (e.at_ < b ∧ a < e.at_ + e.len)

/-- The entries left once every one up to the last that holds such a granule is gone. -/
def dropOver (a b : Nat) : List RingEntry → List RingEntry
  | [] => []
  | e :: t => if (e :: t).any (holdsAny a b) then dropOver a b t else e :: t

/-- R291: BC_OLDEST goes past every entry that the granules to be written hold. -/
def freeGranules (s : State) (a b : Nat) : State :=
  let left := dropOver a b s.code.ring
  if left.length = s.code.ring.length then s
  else
    let n := match left with | [] => s.code.write | e :: _ => e.serial
    setOldest (modCode s (fun c => { c with ring := left })) n

/-- R291: the index record of the chunk an entry is the first to start in. -/
def noteIndex (s : State) (e : RingEntry) : State :=
  let ch := e.at_ / 32768
  let firstIn := match s.code.ring.getLast? with | none => true | some p => decide (p.at_ / 32768 ≠ ch)
  if firstIn then modCode s (fun c => { c with index := tabPut c.index ch (e.serial, e.at_ % 32768, e.stamp) }) else s

/-- R291: an entry is written at the writer's position and becomes readable. -/
def putEntry (s : State) (e0 : RingEntry) : State :=
  let e := { e0 with serial := s.code.write, at_ := s.code.pos }
  let s1 := noteIndex (freeGranules s e.at_ (e.at_ + e.len)) e
  let was := s1.code.ring.isEmpty
  modCode s1 (fun c => { c with ring := c.ring ++ [e], write := (c.write + 1) % 2 ^ 30, pos := e.at_ + e.len,
                                oldest := if was then e.serial else c.oldest })

/-- R291, R296: the writer before an entry that does not fit before the end of U: a pending growth takes effect, or a
WRAP entry fills the rest and the writer continues at the start. -/
def wrapWriter (s : State) (len : Nat) : State :=
  let top := s.code.u * 32768
  if s.code.pos + len ≤ top then s
  else match s.code.grow with
    | some n => modCode s (fun c => { c with u := n, grow := none })
    | none =>
      let s1 := if s.code.pos < top then
          putEntry s { ty := 3, serial := 0, sw := 0, seq := 0, len := top - s.code.pos, stamp := 0, epoch := 0, body := [], at_ := 0 }
        else s
      modCode s1 (fun c => { c with pos := 0 })

/-- R291: the oldest entry queued in C2 is written. -/
def ringWriteSt (s : State) : State :=
  match s.code.c2 with
  | [] => s
  | e :: rest =>
    if dramStopped s || !(ringOn s) then s
    else putEntry (wrapWriter (modCode s (fun c => { c with c2 := rest })) e.len) e

/-- R291 RING_WRITE. -/
def execRingWrite (s : State) : Host.Outcome State Fault Refusal := .next (ringWriteSt s)

/-- R292 RING_GAP_TIMEOUT: a second after the first loss without an entry of the stream. -/
def execRingGapTimeout (n : Fin 256) (s : State) : Host.Outcome State Fault Refusal :=
  .next (match tabFind s.code.gaps n.val with
    | none => s
    | some g => if g.at_ + secU ≤ elapsed s then pushGap s n.val else s)

/-! ### Length changes and restarts -/

/-- R297: a shrink: entries that end beyond LEN are lost. -/
def shrinkRing (s : State) (n : Nat) : State :=
  let top := n * 32768
  let keep := s.code.ring.filter (fun e => decide (e.at_ + e.len ≤ top))
  let lost := s.code.ring.length - keep.length
  let old := match keep with | [] => s.code.write | e :: _ => e.serial
  let named := (List.finRange 16).filter (fun c =>
    s.code.ring.any (fun e => decide (e.serial = (vget s.code.cur c).pos) && !(keep.contains e)))
  let s1 := bumpBy (modCode s (fun c =>
    { c with ring := keep, pos := if top < c.pos then 0 else c.pos, u := n, grow := none, oldest := old,
             index := tabKeep (fun k => decide (k < n)) c.index })) bcLostCount lost
  (List.finRange 16).foldl (fun s c => if named.contains c || serialBefore (vget s.code.cur c).pos old then moveCur s c old true else s) s1

/-- R296, R297: a new LEN takes effect. -/
def setRingLen (s : State) (n : Nat) : State :=
  if s.code.u < n then modCode s (fun c => { c with grow := some n })
  else if n = s.code.u then modCode s (fun c => { c with grow := none })
  else shrinkRing s n

/-- R298: the ring restarts empty: its entries are lost and every cursor moves to BC_WRITE. -/
def emptyRing (s : State) : State :=
  let s1 := bumpBy (modCode s (fun c => { c with ring := [], c2 := [], index := [], pos := 0, oldest := c.write })) bcLostCount s.code.ring.length
  (List.finRange 16).foldl (fun s c => moveCur s c s.code.write true) s1

/-- R298: cursors stop. -/
def stopCursors (s : State) : State :=
  (List.finRange 16).foldl (fun s c => modCur s c (fun x => { x with st := .stopped, seek := none, run := false })) s

/-- R298: a WARM reset: the coder's queue is emptied, each frame counted, and entries not written are abandoned. -/
def ringWarm (s : State) : State :=
  modCode (forEach s.code.jobs s (fun s j => bump s (stDropCount j.stream))) (fun c => { c with jobs := [], c2 := [] })

/-- R299: the ring as the plan sets it: MAX = allocation, LEN = U. -/
def startRing (s : State) : State :=
  match recOf s 0x140 with
  | none => s
  | some p => setF (modCode s (fun c => { c with u := wAt p 2 2, grow := none })) bcRingLenChunks (wAt p 2 2)

/-! ### Cursors -/

/-- The link of a cursor: DEST 0 host, 1 west, 2 east. -/
def curLink (s : State) (c : Fin 16) : Fin 3 :=
  match getF s (bcCurCtrlDest c.val) with | 1 => 1 | 2 => 2 | _ => 0

/-- R293, R399: the cursor's link takes replay frames. -/
def curLinkOk (s : State) (c : Fin 16) : Bool := carriesBulk s (curLink s c) && linkHas s (curLink s c) 7

/-- R293, R399: the cursor admits an entry: not WRAP, its stream by the filter, its product accepted on the link. -/
def curAdmits (s : State) (c : Fin 16) (e : RingEntry) : Bool :=
  let n := e.sw % 256
  decide (e.ty ≠ 3) && (isSet s (bcCurCtrlAll c.val) || decide (getF s (bcCurCtrlStream c.val) = n))
    && (match streamAt s n with
        | none => true
        | some k => (needBits s { k with outWords := 1 } false).all (fun b => linkHas s (curLink s c) b))

/-- R293: the state of a cursor that runs. -/
def runState (s : State) (c : Fin 16) (pos : Nat) : CurState :=
  if !(curLinkOk s c) then .waiting else if pos = s.code.write then .tail else .running

/-- R293: a start: a ONESHOT run ends after the entry that is newest now. -/
def cursorStartSt (c : Fin 16) (s : State) : State :=
  if ringOn s then
    let s1 := setF s (bcCurStatusEnd c.val) 0
    modCur s1 c (fun x => { x with run := true, last := (s.code.write + 2 ^ 30 - 1) % 2 ^ 30,
                                   st := if x.seek.isSome then .seeking else runState s c x.pos })
  else s

/-- R293 CURSOR_START. -/
def execCursorStart (c : Fin 16) (s : State) : Host.Outcome State Fault Refusal := .next (cursorStartSt c s)

/-- R293: a stop. -/
def cursorStopSt (c : Fin 16) (s : State) : State :=
  modCur s c (fun x => { x with run := false, st := if x.seek.isSome then .seeking else .stopped })

/-- R293 CURSOR_STOP. -/
def execCursorStop (c : Fin 16) (s : State) : Host.Outcome State Fault Refusal := .next (cursorStopSt c s)

/-- R295: a seek begins: kind and operand. -/
def beginSeek (c : Fin 16) (kind v : Nat) (s : State) : State :=
  if ringOn s then modCur s c (fun x => { x with seek := some (kind, v), st := .seeking }) else s

/-- R295 SEEK_OLDEST. -/
def execSeekOldest (c : Fin 16) (s : State) : Host.Outcome State Fault Refusal := .next (beginSeek c 1 0 s)

/-- R295 SEEK_NEWEST. -/
def execSeekNewest (c : Fin 16) (s : State) : Host.Outcome State Fault Refusal := .next (beginSeek c 2 0 s)

/-- R295: the serial of BC_CURc_SEEK. -/
def seekOperand (s : State) (c : Fin 16) : Nat :=
  getF s (bcCurSeekLoSerial c.val) + 2 ^ 20 * getF s (bcCurSeekHiSerial c.val)

/-- R295 SEEK_SERIAL. -/
def execSeekSerial (c : Fin 16) (s : State) : Host.Outcome State Fault Refusal := .next (beginSeek c 3 (seekOperand s c) s)

/-- R295: where a TIME seek lands: from the last chunk whose index stamp is below T, or the oldest chunk. -/
def seekTime (s : State) (c : Fin 16) (t : Nat) : Nat :=
  let starts := s.code.ring.filter (fun e => s.code.index.any (fun i => decide (i.2.1 = e.serial)))
  let from_ := match (starts.filter (fun e => decide (e.stamp < t))).getLast? with
    | some e => e.serial
    | none => s.code.oldest
  match s.code.ring.find? (fun e => !(serialBefore e.serial from_) && curAdmits s c e && decide (t ≤ e.stamp)) with
  | some e => e.serial
  | none => s.code.write

/-- R295: a seek is done. -/
def seekDoneSt (c : Fin 16) (s : State) : State :=
  let x := vget s.code.cur c
  match x.seek with
  | none => s
  | some (kind, v) =>
    if dramStopped s then s
    else
      let old := s.code.oldest
      let new := s.code.write
      let fin (s : State) : State :=
        modCur s c (fun y => { y with seek := none, st := if y.run then runState s c y.pos else .stopped })
      match kind with
      | 1 => fin (modCur s c (fun y => { y with pos := old }))
      | 2 => fin (modCur s c (fun y => { y with pos := new }))
      | 3 =>
        if serialBefore v old then fin (moveCur s c old false)
        else if serialBefore new v then fin (modCur s c (fun y => { y with pos := new }))
        else fin (modCur s c (fun y => { y with pos := v }))
      | _ => fin (modCur s c (fun y => { y with pos := seekTime s c v }))

/-- R295 SEEK_DONE. -/
def execSeekDone (c : Fin 16) (s : State) : Host.Outcome State Fault Refusal := .next (seekDoneSt c s)

/-- R290: an entry's header words. -/
def entryHeader (e : RingEntry) : List Word :=
  [BitVec.ofNat 10 e.ty] ++ wordsOf 3 e.serial ++ [BitVec.ofNat 10 e.sw] ++ wordsOf 2 e.seq ++ [BitVec.ofNat 10 e.len]
    ++ timeWords e.stamp ++ [BitVec.ofNat 10 e.epoch]

/-- R293: the elapsed time that a frame of some words takes under a cursor's rate cap, in units of 10 Mbit/s; 0 is no cap. DEDUCED:
the cap counts the bits of the frames' words (log entry 145). -/
def capTime (s : State) (c : Fin 16) (words : Nat) : Nat :=
  let r := getF s (bcCurCtrlRate c.val)
  if r = 0 then 0 else ceilDiv (words * 1000 * nsU) r

/-- R293: the run of a ONESHOT cursor is over. -/
def endRun (s : State) (c : Fin 16) : State :=
  setF (modCur s c (fun x => { x with run := false, st := .stopped })) (bcCurStatusEnd c.val) 1

/-- R293, R294: a running cursor reads the next admitted entry and sends it, within its rate cap. -/
def cursorReadSt (c : Fin 16) (s : State) : State :=
  let x := vget s.code.cur c
  if !x.run || x.seek.isSome || dramStopped s || !(ringOn s) || decide (elapsed s < x.next) then s
  else if !(curLinkOk s c) then modCur s c (fun x => { x with st := .waiting })
  else
    let follow := isSet s (bcCurCtrlMode c.val)
    let todo := s.code.ring.filter (fun e => !(serialBefore e.serial x.pos) && curAdmits s c e
      && (follow || !(serialBefore x.last e.serial)))
    match todo with
    | [] =>
      if follow then modCur s c (fun x => { x with pos := s.code.write, st := .tail }) else endRun s c
    | e :: rest =>
      let next := (e.serial + 1) % 2 ^ 30
      let last := !follow && rest.isEmpty
      let asIs := decide (e.ty = 2) || linkHas s (curLink s c) 0
      let body : Except DecErr (List Word) := if asIs then .ok e.body else decodeBlock e.body
      match body with
      | .error er =>
        let s1 := setF (bump (setF s bcDecErrCode er.code) bcDecErrCount) (bcCurStatusDecFail c.val) 1
        let s2 := modCur s1 c (fun x => { x with pos := next, st := .running })
        if last then endRun s2 c else s2
      | .ok b =>
        let w0 := c.val + 16 * b2n x.moved + 32 * b2n last + 64 * b2n (!asIs)
        let ws := [BitVec.ofNat 10 w0, 0, 0, 0] ++ entryHeader e ++ b
        let (s1, ok) := sendOn s (curLink s c) (ownFrame s (ftypeOf 2 3) hostAddr 0 ws)
        if ok then
          let s2 := modCur s1 c (fun x =>
            { x with pos := next, moved := false, st := .running, next := elapsed s + capTime s c ws.length })
          if last then endRun s2 c else s2
        else modCur s c (fun x => { x with st := .waiting })

/-- R294 CURSOR_READ. -/
def execCursorRead (c : Fin 16) (s : State) : Host.Outcome State Fault Refusal := .next (cursorReadSt c s)

/-- R299 REPLAY_CURSOR: settings, seek and run of a cursor. -/
def applyCursor (s : State) (p : List Word) : State :=
  match (List.finRange 16).find? (fun c => decide (c.val = wAt p 0 1)) with
  | none => s
  | some c =>
    let f := wAt p 2 1
    let s1 := [(bcCurCtrlDest c.val, wAt p 1 1), (bcCurCtrlAll c.val, bitsOf f 8 8), (bcCurCtrlStream c.val, bitsOf f 7 0),
      (bcCurCtrlMode c.val, wAt p 3 1), (bcCurCtrlRate c.val, wAt p 4 1)].foldl (fun s x => setF s x.1 x.2) s
    let kind := wAt p 5 1
    let s2 := if kind = 0 then s1 else beginSeek c kind (if kind = 4 then ofTime110 (wAt p 9 11) else wAt p 6 3) s1
    if wAt p 20 1 = 1 then cursorStartSt c s2 else cursorStopSt c s2

end Sys2Proof.Machine
end

