-- ==== Sys2Proof/Machine/Budget.lean ====
section
/-! DEFINITION. The budgets (spec R35, R177, R197, R218, R247, R248, R287, R313, R413) and shedding (R36, R422). -/

namespace Sys2Proof.Machine
open Sys2Proof

/-! ### Rates -/

/-- Events per second, one every `n` × T_shot of a line; zero without a schedule. -/
def perShots (s : State) (l : Nat) (events n : Nat) : Rat :=
  if tShot s l * n = 0 then 0 else mkRat ((events * 100000000 : Nat) : Int) (tShot s l * n)

/-- Some product of a family is produced on the line and not shed. -/
def famOn (s : State) (l ty : Nat) (codes : List Nat) : Bool :=
  lineActive s l && (recBy s ty l).isSome && codes.any (fun c => !(isShed s l c))

/-- The product codes of the families of R174, R195, R215. -/
def dasCodes : List Nat := [0x010, 0x011, 0x012, 0x013, 0x014, 0x015]
def specCodes : List Nat := [0x020, 0x021, 0x022, 0x023, 0x024, 0x025]
def ramanCodes : List Nat := [0x030, 0x031, 0x032, 0x033, 0x034]
def fusionCodes : List Nat := [0x038, 0x039, 0x03A]

/-- Which families run on a line. -/
def dasOn (s : State) (l : Nat) : Bool := famOn s l 0x080 dasCodes
def specOn (s : State) (l : Nat) : Bool := famOn s l 0x0A0 specCodes
def ramanOn (s : State) (l : Nat) : Bool := famOn s l 0x0C0 ramanCodes
def fusionOn (s : State) (l : Nat) : Bool := famOn s l 0x0C2 fusionCodes

/-- DAS slots of a line. -/
def dasSlots (s : State) (l : Nat) : Nat := ((slotsOf s l).filter isDas).length

/-- Updates per second of a station by DAS (R35). -/
def dasRate (s : State) (l : Nat) : Rat := perShots s l (dasOffsets s l).length 1

/-- Spectral outputs per second. -/
def specRate (s : State) (l : Nat) : Rat :=
  match specCfg s l with | none => 0 | some c => perShots s l 1 (c.outSweeps * max c.c 1)

/-- R186: capture blocks of 16 sweeps per second. -/
def captureRate (s : State) (l : Nat) : Rat :=
  match specCfg s l with | none => 0 | some c => perShots s l 1 (16 * max c.c 1)

/-- Raman blocks per second. -/
def blockRate (s : State) (l : Nat) : Rat :=
  match ramanCfg s l with
  | none => 0
  | some c => let u := blockSpan s l c.outCap; if u = 0 then 0 else mkRat ((secU : Nat) : Int) u

/-- Samples per second and station of a product. -/
def productRate (s : State) (l code : Nat) : Rat :=
  let hook := if 0x040 ≤ code then customHook s code
              else if code < 0x020 then 0 else if code < 0x030 then 1 else if code < 0x038 then 2 else 3
  match hook with
  | 0 => dasRate s l
  | 1 => specRate s l
  | _ => blockRate s l

/-- Outputs per second of a stream. -/
def streamRate (s : State) (c : StreamCfg) : Rat :=
  if c.r * c.df = 0 then 0 else productRate s c.line c.product / ((c.r * c.df : Nat) : Rat)

/-! ### Lane cycles and lane memory -/

/-- Stations of a term in the fullest lane of a traverse. -/
def fullest (s : State) (l n : Nat) (t : Fin 8) : Nat := min (laneBlock s l n) (travStations s l n t).2

/-- Stations of a range in the fullest lane. -/
def inFullest (s : State) (l n first last : Nat) (t : Fin 8) : Nat :=
  (List.range 64).foldl (fun a i =>
    let (f, k) := laneStations s l n t i
    max a (min (f + k) (last + 1) - max f first)) 0

/-- R177: cycles of all DAS groups of a line at one shot instant: 8 + 7·B for each group, B two branches per slot. -/
def dasCycles (s : State) (l : Nat) : Nat := 8 * (dasOffsets s l).length + 14 * dasSlots s l

/-- R247: the cycles per second that the fullest lane of a traverse needs; capture and measurement, which exclude each other, must
each fit (R197). -/
def laneDemand (s : State) (l : Nat) (t : Fin 8) : Rat :=
  let nc := fullest s l (cohStations s l) t
  let nr := fullest s l (ramanStations s l) t
  let br := blockRate s l
  let das : Rat := if dasOn s l then ((nc * dasCycles s l : Nat) : Rat) * perShots s l 1 1 else 0
  let spec : Rat := match specCfg s l with
    | none => 0
    | some c =>
      if specOn s l then
        ((nc * 3 * (sweepSlots s l).length : Nat) : Rat) * perShots s l 1 1
          + max (((nc * (4 + 2 * c.cLine) : Nat) : Rat) * captureRate s l)
              (((nc * (1110 + (2 * c.w + 1) * (c.cLine + 54)) : Nat) : Rat) * specRate s l
                + ((twoFullest s l t : Nat) : Rat) * (12 * specRate s l + 4 * br))
      else 0
  let raman : Rat :=
    if ramanOn s l then
      ((nr * 40 : Nat) : Rat) * br + (match coilCfg s l with
        | none => 0
        | some k => ((400 + 20 * inFullest s l (ramanStations s l) k.first k.last t : Nat) : Rat) * br)
    else 0
  let fuse : Rat := if fusionOn s l then ((fusedFullest s l t * 14 : Nat) : Rat) * br else 0
  let kern : Rat := (List.range 16).foldl (fun a k => match kernAt s k with
    | none => a
    | some c => if bitOf c.mask t.val then
        a + (((if c.hook = 2 then nr else nc) * (c.maxCycles + 6) : Nat) : Rat) *
          (match c.hook with | 0 => dasRate s l | 1 => specRate s l | _ => br)
      else a) 0
  das + spec + raman + fuse + kern

/-- R248: the lane memory a traverse needs. -/
def laneWords (s : State) (l : Nat) (t : Fin 8) : Nat :=
  let nc := fullest s l (cohStations s l) t
  (if dasOn s l then nc * (7 + (dasOffsets s l).length) else 0) + (if specOn s l then nc * 12 else 0)
    + (if ramanOn s l then 2 * fullest s l (ramanStations s l) t else 0) + (if fusionOn s l then 4 * fusedFullest s l t else 0)

/-! ### Memory -/

/-- A value of DM_CONFIG of `n` words from word `i`, `d` where it is zero or the record is absent. -/
def dmWord (s : State) (i n d : Nat) : Nat :=
  match planRec s 0x200 with
  | none => d
  | some p => if wAt p i n = 0 then d else wAt p i n

/-- R412: channel `c` is fitted. -/
def dmFitted (s : State) (c : Nat) : Bool := bitOf (dmWord s 3 1 0) (c / 2)

/-- R413: the data rate of a set point in MT/s for the fitted grade. -/
def setRate (s : State) (sp : Nat) : Nat :=
  match sp with
  | 0 => (match planRec s 0x200 with | none => 8533 | some p => (match wAt p 2 1 with | 0 => 6400 | 1 => 7500 | _ => 8533))
  | 1 => 6400
  | _ => 3200

/-- Channel pairs in service. -/
def pairsIn (s : State) : Nat :=
  b2n ((vget s.mem.ch 0).inService && (vget s.mem.ch 1).inService)
    + b2n ((vget s.mem.ch 2).inService && (vget s.mem.ch 3).inService)

/-- R197: C0 bytes per second of a line's spectral output, a re-datum at every output, and of its capture, of which one must fit at
a time. -/
def c0Spectral (s : State) (l n : Nat) : Rat :=
  match specCfg s l with
  | none => 0
  | some c => max (((n * (640 + 30 + 5 * c.cLine) : Nat) : Rat) * specRate s l) (((n * 15 * c.cLine : Nat) : Rat) * captureRate s l)

/-- C0 bytes per second of a line. -/
def c0Line (s : State) (l : Nat) : Rat :=
  let n := cohStations s l
  (if dasOn s l then ((n * dasSlots s l * 10 : Nat) : Rat) * perShots s l 1 1 else 0)
    + (if specOn s l then ((n * (sweepSlots s l).length * 10 : Nat) : Rat) * perShots s l 1 1 + c0Spectral s l n else 0)

/-- Words of one row of a stream, its samples and the 24 header words of each frame (R269, R270), and its frames. -/
def rowWords (s : State) (c : StreamCfg) : Nat × Nat :=
  let w := c.outWords + min 2 (getF s (stCtrlFlags c.n))
  let frames := ceilDiv c.nOut (max 1 (c.frameWords / max w 1))
  (c.nOut * w + 24 * frames, frames)

/-- The streams that run. -/
def liveStreams (s : State) : List StreamCfg :=
  (allStreams s).filter (fun c => !(streamShed s c) && isSet s (stCtrlEnable c.n))

/-- A sum of rates over the streams that run and pass a test. -/
def streamSum (s : State) (p : StreamCfg → Bool) (f : StreamCfg → Nat) : Rat :=
  ((liveStreams s).filter p).foldl (fun a c => a + ((f c : Nat) : Rat) * streamRate s c) 0

/-- The replay ring records a stream. -/
def recorded (s : State) (c : StreamCfg) : Bool := bitOf (getF s (stCtrlDest c.n)) 3 && ringOn s

/-- R412: usable bytes with both pairs. -/
def usable (s : State) : Nat :=
  match planRec s 0x200 with
  | none => 14 * 2 ^ 30
  | some p => (match wAt p 0 1 with | 0 => 1 | 1 => 2 | 2 => 3 | _ => 4) * max 1 (wAt p 1 1) * 7 * 2 ^ 29

/-- R183, R289, R416: the bytes the plan allocates. -/
def allocated (s : State) : Nat :=
  2 ^ 27 + (if specOn s 0 || specOn s 1 then 2 * 2 ^ 25 * 5 + 2 * 262144 * 15 else 0)
    + [0, 1].foldl (fun a l => if dasOn s l then a + cohStations s l * dasSlots s l * 5 else a) 0
    + (if ringOn s then match recOf s 0x140 with
        | none => 0
        | some p => ceilDiv (20 * wAt p 0 2) 32 * 40 + wAt p 0 2 * 1310720
       else 0)

/-! ### The host link -/

/-- R362: rate codes in kBaud. -/
def baudK (code : Nat) : Nat := match code with | 0 => 2500000 | 1 => 5000000 | 2 => 6250000 | _ => 8000000

/-- R35: payload bits per second of the host quad: at its rate and width when ACTIVE, else at those of the plan. -/
def hostRate (s : State) : Nat :=
  let q := vget s.net.quads 0
  if q.st = .active then baudK q.rate * 800 * q.width
  else match recBy s 0x1C0 0 with
    | none => 25600000000
    | some p => baudK (getF s (slQCtrlRateMax 0)) * 800 * wAt p 2 1

/-- R35: bits per second the host link needs: frames with their 16 header and CRC words and the ordered sets; what coded
frames shrink to depends on the data, so their part is free below the uncoded size. -/
def hostBits (s : State) : Rat :=
  let bits (p : StreamCfg → Bool) := streamSum s p (fun c => let (w, f) := rowWords s c; 10 * (w + 16 * f))
  let host (c : StreamCfg) : Bool := bitOf (getF s (stCtrlDest c.n)) 0
  let plain := bits (fun c => host c && !(isSet s (stCtrlCoded c.n)))
  let coded := bits (fun c => host c && isSet s (stCtrlCoded c.n))
  let part : Rat := mkRat ((Config.hostDemand s.freeCtr % 1001 : Nat) : Int) 1000
  (if coded = 0 then plain else plain + coded * part) * mkRat 1028 1024

/-! ### The budgets in the order of R71 -/

/-- The active lines with their traverses. -/
def travsOf (s : State) : List (Nat × Fin 8) := [0, 1].flatMap (fun l => if lineActive s l then (lineTravs s l).map (fun t => (l, t)) else [])

/-- Budget `code` of R71 holds. -/
def budgetOk (s : State) (code : Nat) : Bool :=
  let lines : List Nat := [0, 1].filter (fun l => lineActive s l)
  let pr : Rat := ((setRate s s.mem.setPoint * pairsIn s : Nat) : Rat) / 17066
  let c0 : Rat := lines.foldl (fun a l => a + c0Line s l) 0
  let bytes (n : Nat) : Nat := 5 * n / 4
  match code with
  | 1 => lines.all (fun l => decide (sumN ((slotsOf s l).map (fun c => c.g)) ≤ 32))
  | 2 => lines.all (fun l => decide ((slotsOf s l).length ≤ 16))
  | 3 => lines.all (fun l => (slotsOf s l).all (fun c => decide (c.len ≤ 1024))
           && decide (sumN ((slotsOf s l).map (fun c => c.g * c.len)) ≤ 16384))
  | 4 => lines.all (fun l => (slotsOf s l).all (fun c => decide (rangeRt s l * c.g + c.len ≤ tShot s l * c.g)))
  | 5 => lines.all (fun l => decide (dasRate s l ≤ 250000))
  | 6 => (travsOf s).all (fun x => decide (laneDemand s x.1 x.2 ≤ ((getF s (trClockSteps x.2.val) * 46875000 * 85 : Nat) : Rat) / 100))
  | 7 => (travsOf s).all (fun x => decide (laneWords s x.1 x.2 ≤ 15360))
  | 8 => decide (c0 ≤ 66000000000 * pr)
  | 9 => decide (c0 + streamSum s (fun _ => true) (fun c => 2 * bytes (rowWords s c).1)
           + streamSum s (recorded s) (fun c => let (w, f) := rowWords s c; bytes (w + 20 * f)) ≤ 99000000000 * pr)
  | 10 => decide (allocated s ≤ usable s * pairsIn s / 2)
  | 11 => decide (hostBits s ≤ ((hostRate s : Nat) : Rat))
  | 12 => decide (streamSum s (fun c => isSet s (stCtrlCoded c.n) || recorded s c) (fun c => (rowWords s c).1) ≤ 5760000000)
  | _ => (List.finRange 8).all (fun t =>
      decide (((zonesOf s).filter (fun z => decide (zoneSlice s z = some t))).foldl (fun a z =>
        match streamAt s z.stream with
        | none => a
        | some c => if streamShed s c then a else a + ((z.last + 1 - z.first : Nat) : Rat) * streamRate s c) (0 : Rat) ≤ 150000000))

/-- R71: the code of the first budget exceeded. -/
def overBudget (s : State) : Option Nat := ((List.range 13).map (· + 1)).find? (fun c => !(budgetOk s c))

/-! ### Shedding -/

/-- R36, R65: what is shed, step by step, as (line, product code), the ring as (2, 0). SHED_ORDER names codes: line 1
goes before line 0. The default begins with line 1 DAS and line 1 spectral shift; the rest of its order is the model's
(log entry 36). -/
def shedOrder (s : State) : List (List (Nat × Nat)) :=
  match recOf s 3 with
  | some p => p.flatMap (fun w => [[(1, w.toNat)], [(0, w.toNat)]])
  | none =>
    [dasCodes.map (fun c => (1, c)), specCodes.map (fun c => (1, c)), fusionCodes.map (fun c => (1, c)),
     ramanCodes.map (fun c => (1, c)), [(2, 0)], dasCodes.map (fun c => (0, c)), specCodes.map (fun c => (0, c)),
     fusionCodes.map (fun c => (0, c)), ramanCodes.map (fun c => (0, c))]

/-- What the plan produces of a shed step. -/
def produced (s : State) (x : Nat × Nat) : Bool :=
  if x.1 = 2 then hasRec s 0x140 else lineActive s x.1 && (lineProducts s x.1).contains x.2

/-- R240: the lane products of lines without a traverse in service. -/
def unserved (s : State) : List (Nat × Nat) :=
  [0, 1].flatMap (fun l => if lineActive s l && (lineTravs s l).isEmpty then (lineProducts s l).map (fun c => (l, c)) else [])

/-- The state with a shed list. -/
def withShed (s : State) (x : List (Nat × Nat)) : State := { s with book := { s.book with shed := x } }

/-- R36, R422: the products to shed: those no traverse serves, and the shortest start of the shed order with which every
budget holds. -/
def shedWanted (s : State) : List (Nat × Nat) :=
  let base := unserved s
  let steps := shedOrder s
  let at_ (n : Nat) : List (Nat × Nat) := (base ++ ((steps.take n).flatten.filter (produced s))).eraseDups
  match (List.range (steps.length + 1)).find? (fun n => (overBudget (withShed s (at_ n))).isNone) with
  | some n => at_ n
  | none => at_ steps.length

/-- R304: zones of streams that have stopped get FAULT code 2, or code 4 where no traverse produces them. -/
def markStopped (s : State) : State :=
  let shedZone (c : ZoneCfg) : Bool := match streamAt s c.stream with | none => false | some x => streamShed s x
  let s1 := markZones s (fun c => shedZone c && !(bitOf (zoneAt s c.z).fault 1)) (fun x => { x with fault := x.fault ||| 2 })
  markZones s1 (fun c => (zoneSlice s1 c).isNone && !(bitOf (zoneAt s1 c.z).fault 3)) (fun x => { x with fault := x.fault ||| 8 })

/-- R422, R176, R196, R217: a restored product restarts as after a LINE reset, with what DAS brings with it (R229). -/
def restoreProduct (s : State) (x : Nat × Nat) : State :=
  match (List.finRange 2).find? (fun l => decide (l.val = x.1)) with
  | none => s
  | some l =>
    let s1 := if x.2 < 0x020 then dasRestart ((lineTravs s x.1).foldl zeroWindow s) x.1 (fun _ => true)
      else if x.2 < 0x030 then (lineTravs s x.1).foldl dropOpen s
      else if x.2 < 0x038 then ramanRestart s l
      else if x.2 < 0x040 then seqRestart { s with sense := { s.sense with
        fuse := tabKeep (fun k => decide (k / 2 ^ 18 ≠ x.1)) s.sense.fuse } } x.1 3 (fun _ => true)
      else s
    forEach ((allStreams s1).filter (fun c => decide (c.line = x.1 ∧ c.product = x.2))) s1 (fun s c => restartStream s c false)

/-- R36, R422: the budgets are evaluated; products are shed or restored, each logged, and the offer follows (R79). -/
def evalBudgets (s : State) : State :=
  let old := s.book.shed
  let new := shedWanted s
  let s1 := withShed s new
  let s2 := forEach (new.filter (fun x => !(old.contains x))) s1 (fun s x =>
    if x.1 = 2 then stopCursors s else logEvent s 0x02D 1 1 x.1 x.2)
  let s3 := forEach (old.filter (fun x => !(new.contains x))) s2 (fun s x =>
    if x.1 = 2 then s else restoreProduct (logEvent s 0x02E 1 0 x.1 x.2) x)
  if old = new then s3 else featureChanged (markStopped s3)

/-- R240: a traverse fails its self-test or its march test: it is put out of service, its line's stations are mapped
over the rest, whose products restart, the budgets are evaluated, and the fence unit acknowledges for it (R28). -/
def laneFail (s : State) (t : Fin 8) (lane : Nat) : State :=
  let l := travLine s t
  let s1 := logEvent (stopTrav s t) 0x01B (10 + t.val) 2 t.val lane
  let s2 := { s1 with sense := { s1.sense with blocks := (s1.sense.blocks.map (fun b =>
    { b with due := bitsPut b.due t.val t.val 0 })) } }
  let s3 := (List.finRange 2).foldl (fun s l => modPce s l (fun p =>
    { p with traces := (p.traces.map (fun x => { x with due := bitsPut x.due t.val t.val 0 })).filter (fun x => decide (x.due ≠ 0)) })) s2
  let s4 := match (List.finRange 2).find? (fun k => decide (some k.val = l)) with
    | none => s3
    | some k => (lineTravs s3 k.val).foldl recoverTrav (ramanRestart (dasRestart s3 k.val (fun _ => true)) k)
  proxyAck (evalBudgets s4)

/-- R241 RECOVERY_PASS: the march test of a traverse with a parity error, as soon as the running pass or slice has ended. -/
def recoveryPassSt (t : Fin 8) (failLane : Option (Fin 64)) (s : State) : State :=
  let T := vget s.trav t
  if T.recovery && decide (T.run = .idle) && T.kern.isNone && !T.oos then
    match failLane with
    | some i => laneFail s t i.val
    | none => restartTravStreams (recoverTrav s t) t
  else s

/-- R241 RECOVERY_PASS. -/
def execRecoveryPass (t : Fin 8) (failLane : Option (Fin 64)) (s : State) : Host.Outcome State Fault Refusal :=
  .next (recoveryPassSt t failLane s)

end Sys2Proof.Machine
end

