-- ==== Sys2Proof/Machine/Crypto.lean ====
section
/-! DEFINITION. SHA-384 and the verification of ECDSA P-384, the published standards that the spec names for image, plan
and token signatures (spec R46, R49, R54, R66; log entry 123). -/

namespace Sys2Proof.Machine
open Sys2Proof

/-! ### SHA-384 -/

/-- The eighty round constants. -/
def shaK : List Nat :=
  [0x428A2F98D728AE22, 0x7137449123EF65CD, 0xB5C0FBCFEC4D3B2F, 0xE9B5DBA58189DBBC, 0x3956C25BF348B538,
   0x59F111F1B605D019, 0x923F82A4AF194F9B, 0xAB1C5ED5DA6D8118, 0xD807AA98A3030242, 0x12835B0145706FBE,
   0x243185BE4EE4B28C, 0x550C7DC3D5FFB4E2, 0x72BE5D74F27B896F, 0x80DEB1FE3B1696B1, 0x9BDC06A725C71235,
   0xC19BF174CF692694, 0xE49B69C19EF14AD2, 0xEFBE4786384F25E3, 0x0FC19DC68B8CD5B5, 0x240CA1CC77AC9C65,
   0x2DE92C6F592B0275, 0x4A7484AA6EA6E483, 0x5CB0A9DCBD41FBD4, 0x76F988DA831153B5, 0x983E5152EE66DFAB,
   0xA831C66D2DB43210, 0xB00327C898FB213F, 0xBF597FC7BEEF0EE4, 0xC6E00BF33DA88FC2, 0xD5A79147930AA725,
   0x06CA6351E003826F, 0x142929670A0E6E70, 0x27B70A8546D22FFC, 0x2E1B21385C26C926, 0x4D2C6DFC5AC42AED,
   0x53380D139D95B3DF, 0x650A73548BAF63DE, 0x766A0ABB3C77B2A8, 0x81C2C92E47EDAEE6, 0x92722C851482353B,
   0xA2BFE8A14CF10364, 0xA81A664BBC423001, 0xC24B8B70D0F89791, 0xC76C51A30654BE30, 0xD192E819D6EF5218,
   0xD69906245565A910, 0xF40E35855771202A, 0x106AA07032BBD1B8, 0x19A4C116B8D2D0C8, 0x1E376C085141AB53,
   0x2748774CDF8EEB99, 0x34B0BCB5E19B48A8, 0x391C0CB3C5C95A63, 0x4ED8AA4AE3418ACB, 0x5B9CCA4F7763E373,
   0x682E6FF3D6B2B8A3, 0x748F82EE5DEFB2FC, 0x78A5636F43172F60, 0x84C87814A1F0AB72, 0x8CC702081A6439EC,
   0x90BEFFFA23631E28, 0xA4506CEBDE82BDE9, 0xBEF9A3F7B2C67915, 0xC67178F2E372532B, 0xCA273ECEEA26619C,
   0xD186B8C721C0C207, 0xEADA7DD6CDE0EB1E, 0xF57D4F7FEE6ED178, 0x06F067AA72176FBA, 0x0A637DC5A2C898A6,
   0x113F9804BEF90DAE, 0x1B710B35131C471B, 0x28DB77F523047D84, 0x32CAAB7B40C72493, 0x3C9EBE0A15C9BEBC,
   0x431D67C49C100D4C, 0x4CC5D4BECB3E42B6, 0x597F299CFC657E2A, 0x5FCB6FAB3AD6FAEC, 0x6C44198C4A475817]

/-- The initial hash value of SHA-384. -/
def shaInit : List Nat :=
  [0xCBBB9D5DC1059ED8, 0x629A292A367CD507, 0x9159015A3070DD17, 0x152FECD8F70E5939, 0x67332667FFC00B31,
   0x8EB44A8768581511, 0xDB0C2E0D64F98FA7, 0x47B5481DBEFA4FA4]
/-- A 64-bit word. -/
def m64 (x : Nat) : Nat := x % 2 ^ 64

/-- Rotation of a 64-bit word to the right. -/
def rotr64 (x n : Nat) : Nat := (x >>> n) ||| m64 (x <<< (64 - n))

/-- The message schedule, newest word first: each step adds one word. -/
def shaExpand : Nat → List Nat → List Nat
  | 0, w => w
  | n + 1, w =>
    let a := w.getD 1 0
    let b := w.getD 14 0
    let s1 := rotr64 a 19 ^^^ rotr64 a 61 ^^^ (a >>> 6)
    let s0 := rotr64 b 1 ^^^ rotr64 b 8 ^^^ (b >>> 7)
    force (m64 (s1 + w.getD 6 0 + s0 + w.getD 15 0)) (fun v => shaExpand n (v :: w))

/-- The eight working variables. -/
structure ShaState where
  a : Nat
  b : Nat
  c : Nat
  d : Nat
  e : Nat
  f : Nat
  g : Nat
  h : Nat
  deriving DecidableEq, Repr

/-- One round with the sum of its constant and its schedule word. -/
def shaRound (v : ShaState) (kw : Nat) : ShaState :=
  let s1 := rotr64 v.e 14 ^^^ rotr64 v.e 18 ^^^ rotr64 v.e 41
  let ch := (v.e &&& v.f) ^^^ ((2 ^ 64 - 1 - v.e) &&& v.g)
  let t1 := v.h + s1 + ch + kw
  let s0 := rotr64 v.a 28 ^^^ rotr64 v.a 34 ^^^ rotr64 v.a 39
  let maj := (v.a &&& v.b) ^^^ (v.a &&& v.c) ^^^ (v.b &&& v.c)
  force (m64 (t1 + s0 + maj)) (fun a => force (m64 (v.d + t1)) (fun e =>
    { a := a, b := v.a, c := v.b, d := v.c, e := e, f := v.e, g := v.f, h := v.g }))

/-- One block of sixteen words. -/
def shaBlock (v : ShaState) (ws : List Nat) : ShaState :=
  let kw := List.zipWith (· + ·) shaK (shaExpand 64 ws.reverse).reverse
  let x := kw.foldl shaRound v
  { a := m64 (v.a + x.a), b := m64 (v.b + x.b), c := m64 (v.c + x.c), d := m64 (v.d + x.d), e := m64 (v.e + x.e),
    f := m64 (v.f + x.f), g := m64 (v.g + x.g), h := m64 (v.h + x.h) }

/-- The value of bytes, the first the most significant. -/
def beVal (bs : List Byte) : Nat := bs.foldl (fun v b => v * 256 + b.toNat) 0

/-- The low `n` bytes of a value, the most significant first. -/
def beBytes (n v : Nat) : List Byte := (List.range n).map (fun i => BitVec.ofNat 8 (v >>> (8 * (n - 1 - i))))

/-- The padding of a message of `n` bytes to blocks of 128. -/
def shaPad (n : Nat) : List Byte := 0x80#8 :: List.replicate ((239 - n % 128) % 128) 0#8 ++ beBytes 16 (8 * n)

/-- The blocks of a padded message, one by one. -/
def shaBlocks : Nat → ShaState → List Byte → ShaState
  | 0, v, _ => v
  | n + 1, v, bs =>
    shaBlocks n (shaBlock v ((List.range 16).map (fun i => beVal ((bs.drop (8 * i)).take 8)))) (bs.drop 128)

/-- SHA-384 of bytes, as a number, its first byte the most significant. -/
def sha384 (bs : List Byte) : Nat :=
  let p := bs ++ shaPad bs.length
  let i (n : Nat) : Nat := shaInit.getD n 0
  let v := shaBlocks (p.length / 128) { a := i 0, b := i 1, c := i 2, d := i 3, e := i 4, f := i 5, g := i 6, h := i 7 } p
  [v.a, v.b, v.c, v.d, v.e, v.f].foldl (fun x w => x * 2 ^ 64 + w) 0

/-- R46, R54, R66: SHA-384 of words in their packed byte image. -/
def shaWords (ws : List Word) : Nat := sha384 (packWords ws)

/-! ### P-384 -/

/-- The field prime, the coefficient b, the base point and its order. -/
def p384 : Nat := 2 ^ 384 - 2 ^ 128 - 2 ^ 96 + 2 ^ 32 - 1
def p384b : Nat :=
  0xB3312FA7E23EE7E4988E056BE3F82D19181D9C6EFE8141120314088F5013875AC656398D8A2ED19D2A85C8EDD3EC2AEF
def p384x : Nat :=
  0xAA87CA22BE8B05378EB1C71EF320AD746E1D3B628BA79B9859F741E082542A385502F25DBF55296C3A545E3872760AB7
def p384y : Nat :=
  0x3617DE4A96262C6F5D9E98BF9292DC29F8F41DBD289A147CE9DA3113B5F0B8C00A60B1CE1D7E819D7A431D7C90EA0E5F
def p384n : Nat :=
  0xFFFFFFFFFFFFFFFFFFFFFFFFFFFFFFFFFFFFFFFFFFFFFFFFC7634D81F4372DDF581A0DB248B0A77AECEC196ACCC52973

/-- A point in Jacobian coordinates; z = 0 is the point at infinity. -/
structure JPoint where
  x : Nat
  y : Nat
  z : Nat
  deriving DecidableEq, Repr

/-- Difference modulo the field prime. -/
def subP (a b : Nat) : Nat := (a + p384 - b) % p384

/-- A point doubled (curve coefficient a = −3). -/
def dblP (q : JPoint) : JPoint :=
  let d := q.z * q.z % p384
  let g := q.y * q.y % p384
  let b := q.x * g % p384
  let a := 3 * (subP q.x d * (q.x + d)) % p384
  let x := subP (a * a % p384) (8 * b % p384)
  { x := x, y := subP (a * subP (4 * b % p384) x % p384) (8 * (g * g) % p384),
    z := subP (subP ((q.y + q.z) * (q.y + q.z) % p384) g) d }

/-- The sum of two points. -/
def addP (q r : JPoint) : JPoint :=
  if q.z = 0 then r
  else if r.z = 0 then q
  else
    let zz := q.z * q.z % p384
    let ww := r.z * r.z % p384
    let u1 := q.x * ww % p384
    let u2 := r.x * zz % p384
    let s1 := q.y * (r.z * ww % p384) % p384
    let s2 := r.y * (q.z * zz % p384) % p384
    if u1 = u2 then if s1 = s2 then dblP q else { x := 1, y := 1, z := 0 }
    else
      let h := subP u2 u1
      let t := subP s2 s1
      let hh := h * h % p384
      let hhh := h * hh % p384
      let v := u1 * hh % p384
      let x := subP (subP (t * t % p384) hhh) (2 * v % p384)
      { x := x, y := subP (t * subP v x % p384) (s1 * hhh % p384), z := h * (q.z * r.z % p384) % p384 }

/-- a·G + b·Q over the low `n` bits of a and b, most significant first; `gq` is G + Q. -/
def twoMul (g q gq : JPoint) (a b : Nat) : Nat → JPoint → JPoint
  | 0, r => r
  | n + 1, r =>
    let d := dblP r
    let r1 := match a.testBit n, b.testBit n with
      | true, true => addP d gq
      | true, false => addP d g
      | false, true => addP d q
      | false, false => d
    force r1.x (fun x => force r1.y (fun y => force r1.z (fun z => twoMul g q gq a b n { x := x, y := y, z := z })))

/-- A power modulo `m`, over the low `n` bits of the exponent, most significant first. -/
def powMod (m b e : Nat) : Nat → Nat → Nat
  | 0, r => r
  | n + 1, r =>
    let r2 := r * r % m
    force (if e.testBit n then r2 * b % m else r2) (fun v => powMod m b e n v)

/-- A point of the curve other than infinity. -/
def onCurve (k : PubKey) : Bool :=
  decide (k.x < p384 ∧ k.y < p384) && decide (k.y * k.y % p384 = (k.x * k.x * k.x + (p384 - 3) * k.x + p384b) % p384)

/-- ECDSA: the signature (r, s) of a SHA-384 value verifies under a key. -/
def ecdsaOk (k : PubKey) (hash r s : Nat) : Bool :=
  if onCurve k && decide (1 ≤ r ∧ r < p384n ∧ 1 ≤ s ∧ s < p384n) then
    let w := powMod p384n s (p384n - 2) 384 1
    let g : JPoint := { x := p384x, y := p384y, z := 1 }
    let q : JPoint := { x := k.x, y := k.y, z := 1 }
    let t := twoMul g q (addP g q) (hash * w % p384n) (r * w % p384n) 384 { x := 1, y := 1, z := 0 }
    let zz := t.z * t.z % p384
    decide (t.z ≠ 0) && (decide (r * zz % p384 = t.x) || (decide (r + p384n < p384) && decide ((r + p384n) * zz % p384 = t.x)))
  else false

/-- R48, R49: SHA-384 of a public key, over its two coordinates of 48 bytes each, x first and the most significant byte
first (log entry 123). -/
def keyHash (k : PubKey) : Nat := sha384 (beBytes 48 k.x ++ beBytes 48 k.y)

/-- R65: a signature of 78 words: r in 39 words, then s. -/
def sigOf (ws : List Word) : Nat × Nat := (wAt ws 0 39, wAt ws 39 39)

/-- R65: each half of a signature is right-aligned with the bits above 383 zero. -/
def sigFits (ws : List Word) : Bool := decide (ws.length = 78 ∧ wAt ws 0 39 < 2 ^ 384 ∧ wAt ws 39 39 < 2 ^ 384)

/-- R46, R54, R66: 78 words sign other words under a key. -/
def signedBy (k : PubKey) (ws sig : List Word) : Bool :=
  sigFits sig && ecdsaOk k (shaWords ws) (sigOf sig).1 (sigOf sig).2

end Sys2Proof.Machine
end

