-- ==== Sys2Proof/Machine/Records.lean ====
section
/-! DEFINITION. Plan records: framing (spec R62, R69), the record types with their classes, Repeat columns and field
ranges (R63 to R69 and the payload tables of every chapter), and the amended plan (R73). -/

namespace Sys2Proof.Machine
open Sys2Proof

/-- A field of a payload: its words, its range, whether 0 stands for a default, what it is a multiple of, and whether an
amendment may change it (†). -/
structure RecField where
  n : Nat
  signed : Bool
  lo : Int
  hi : Int
  zero : Bool
  mult : Nat
  dag : Bool
  deriving DecidableEq, Repr

/-- A record type: its class (none: no class reaches it), whether plans and amendments may hold it, the words of its
Repeat key as (word, words), how many per key (0: no limit), and its fixed fields. -/
structure RecSpec where
  type : Nat
  cls : Option Nat
  plan : Bool
  amend : Bool
  key : List (Nat × Nat)
  max : Nat
  fields : List RecField
  deriving DecidableEq, Repr

/-- An unsigned field with a range. -/
def fU (n lo hi : Nat) : RecField := { n := n, signed := false, lo := lo, hi := hi, zero := false, mult := 1, dag := false }

/-- An unsigned field with a range, 0 standing for its default. -/
def fZ (n lo hi : Nat) : RecField := { fU n lo hi with zero := true }

/-- An unsigned field of any value. -/
def fA (n : Nat) : RecField := fU n 0 (2 ^ (10 * n) - 1)

/-- A signed field of any value. -/
def fS (n : Nat) : RecField :=
  { n := n, signed := true, lo := -(2 ^ (10 * n - 1)), hi := 2 ^ (10 * n - 1) - 1, zero := false, mult := 1, dag := false }

/-- A field that an amendment may change. -/
def dagF (f : RecField) : RecField := { f with dag := true }

/-- A field that is a multiple. -/
def multF (m : Nat) (f : RecField) : RecField := { f with mult := m }

/-- The line field. -/
def fLine : RecField := fU 1 0 1

/-- Seconds (6) and nanoseconds (3) of a device time. -/
def fTime : List RecField := [fA 6, fU 3 0 999999999]

/-- A type of plans only. -/
def planRecS (type : Nat) (key : List (Nat × Nat)) (max : Nat) (fields : List RecField) : RecSpec :=
  { type := type, cls := none, plan := true, amend := false, key := key, max := max, fields := fields }

/-- A type of plans and amendments. -/
def bothRecS (type cls : Nat) (key : List (Nat × Nat)) (max : Nat) (fields : List RecField) : RecSpec :=
  { type := type, cls := some cls, plan := true, amend := true, key := key, max := max, fields := fields }

/-- A type of amendments only. -/
def amendRecS (type cls : Nat) (key : List (Nat × Nat)) (max : Nat) (fields : List RecField) : RecSpec :=
  { type := type, cls := some cls, plan := false, amend := true, key := key, max := max, fields := fields }

/-- R65, R107, R135, R154, R178, R198, R219, R249: the record types of the first chapters. -/
def recSpecsA : List RecSpec :=
  [ planRecS 0x001 [] 1 [fU 1 1 1, fA 2, fA 2, fU 1 0 3],
    planRecS 0x002 [] 1 [fU 2 0 (2 ^ 19 - 1), fU 1 0 1],
    planRecS 0x003 [] 1 [],
    { type := 0x004, cls := none, plan := false, amend := true, key := [], max := 0, fields := [fA 2, fA 2, fA 2] },
    { type := 0x005, cls := none, plan := false, amend := true, key := [], max := 1, fields := [fA 2, fU 1 1 1023] },
    planRecS 0x020 [(0, 1)] 1 [fLine, fU 2 400 1048575, fA 2, fU 1 0 1, multF 10 (fU 3 0 999999999), fU 1 1 1000],
    bothRecS 0x021 11 [(0, 1), (1, 1)] 1
      [fLine, fU 1 0 15, fU 1 0 3, fU 1 1 8, fU 1 0 31, dagF (fU 1 0 1023), fA 2, fU 2 1 1024, dagF (fS 2), dagF (fS 2),
       dagF (fS 2), dagF (fA 1), fU 1 0 3],
    bothRecS 0x022 11 [(0, 1), (1, 1)] 1 [fLine, fU 1 0 15, fU 2 1 1024],
    bothRecS 0x023 11 [(0, 1), (1, 1)] 1 [fLine, fU 1 0 15, fU 1 1 64],
    planRecS 0x024 [(0, 1)] 1 [fLine, fU 1 1 511, fA 4, fA 4, fZ 1 1 100],
    planRecS 0x025 [(0, 1)] 1 [fLine, fA 2, fS 1],
    bothRecS 0x026 12 [(0, 1)] 1 [fLine, fU 1 0 1023, fA 2, fU 1 1 1023],
    amendRecS 0x027 4 [] 2 (fU 1 1 3 :: fTime),
    planRecS 0x040 [(0, 1)] 1 [fLine, fU 1 0 1, fZ 1 1 64, fZ 1 5 100],
    bothRecS 0x041 12 [(0, 1), (1, 1)] 1 [fLine, fU 1 0 1, dagF (fU 1 0 1), dagF (fU 1 0 3)],
    planRecS 0x060 [(0, 1)] 1 [fLine, fU 1 0 7, fZ 2 94372 98304],
    planRecS 0x061 [(0, 1)] 1 [fLine, fU 1 0 1, fA 2, fA 2, fA 2, fU 2 16 1024, fS 1, fZ 2 16 1024],
    planRecS 0x080 [(0, 1)] 1
      [fLine, fU 2 1 1024, fU 1 0 1022, fS 1, fU 1 0 16, fU 1 0 1023, fU 1 128 511, fU 1 4 12, fA 2],
    planRecS 0x0A0 [(0, 1)] 1
      [fLine, fU 1 1 1023, multF 16 (fZ 1 64 1008), fZ 1 1 511, fU 1 1 56, fU 1 1 55, fU 1 0 1023, fU 1 0 1],
    planRecS 0x0A1 [(0, 1)] 256 [fLine, fA 2, fA 2, fU 1 0 2, fS 3, fS 3],
    bothRecS 0x0C0 12 [(0, 1)] 1
      [fLine, fU 2 1 262144, fU 2 0 65535, dagF (fU 2 1 1048575), dagF (fU 1 0 10), dagF (fU 1 0 1), dagF (fU 1 1 511),
       fA 3, fS 2, fS 3],
    planRecS 0x0C1 [(0, 1)] 1 [fLine, fA 2, fA 2, fU 1 0 3, fU 1 0 3, fA 2, fZ 2 60 1048575],
    planRecS 0x0C2 [(0, 1)] 1 [fLine, fU 1 0 10, fZ 2 1 65535],
    planRecS 0x0E0 [] 1 ((List.range 8).flatMap (fun _ => [fA 1, fU 1 16 32])),
    planRecS 0x0E1 [] 16
      [fU 1 0 15, fU 1 0 255, fU 1 0 3, fU 2 3072 4095, fU 2 1 1024, fU 2 1 65535, fU 1 0x040 0x05F, fU 1 0x040 0x05F,
       fU 1 0 64],
    planRecS 0x0E2 [(0, 1)] 4 [fU 1 0 15, fU 1 0 3, fA 2, fA 2, fU 1 0 1],
    bothRecS 0x0E3 14 [(0, 1)] 1 [fU 1 0 15] ]

/-- R275, R299, R316, R335, R359, R385, R410, R435, R454: the record types of the other chapters. -/
def recSpecsB : List RecSpec :=
  [ planRecS 0x100 [(0, 1)] 1
      [fU 1 0 255, fA 1, fLine, fU 2 0 262143, fU 2 1 262144, fU 1 1 64, fU 1 0 1, fU 1 1 9, fU 1 0 8, fU 1 0 5,
       fU 2 1 1024, fU 1 0 256, fU 1 1 16, fU 1 0 20, fS 2, fU 1 0 40, fS 4, fA 1, fU 1 1 4, multF 4 (fU 2 64 4096), fA 1],
    bothRecS 0x101 1 [(0, 1), (1, 1)] 1 [fU 1 0 255, fU 1 0 1],
    bothRecS 0x102 6 [(0, 1), (1, 1)] 1
      [fU 1 0 255, fU 1 0 3, fA 1, fU 1 1 256, fU 1 1 256, fS 4, fS 4, fA 2, fU 1 1 1023],
    amendRecS 0x103 0 [(0, 1)] 1 [fU 1 0 255, fA 1],
    amendRecS 0x104 1 [(0, 1)] 1 [fU 1 0 255, fS 2, fU 1 0 40, fS 4, fA 1],
    amendRecS 0x105 1 [(0, 1)] 1 [fU 1 0 255, fU 1 0 1, fU 2 16 4096],
    amendRecS 0x106 4 [] 0 (fTime ++ [fU 26 0 (2 ^ 256 - 1)]),
    planRecS 0x140 [] 1 [fU 2 16 11468, fU 2 16 11468],
    amendRecS 0x141 5 [] 1 [fU 2 16 11468],
    bothRecS 0x142 5 [] 16
      [fU 1 0 15, fU 1 0 2, fU 1 0 511, fU 1 0 1, fA 1, fU 1 0 4, fA 3, fA 11, fU 1 0 1],
    bothRecS 0x160 3 [] 4096
      [fU 2 0 4095, fU 1 0 255, fA 2, fA 2, fU 1 0 4, fS 4, fU 1 0 1, fS 4, fS 4, fS 4, fU 1 0 7, fA 2, fU 2 0 65535,
       fU 2 0 65535, fA 1, fA 1, fZ 1 1 100, fU 2 1 65535, fU 1 0 63],
    amendRecS 0x161 2 [(0, 2)] 1 [fU 2 0 4095, fS 4, fS 4, fS 4, fU 1 0 7, fA 2, fU 2 0 65535, fU 2 0 65535],
    bothRecS 0x162 3 [(0, 1)] 1 [fU 1 0 3, fU 1 1 3, fU 1 0 1, fA 1],
    bothRecS 0x163 7 [(0, 1)] 1
      [fU 1 0 7, fU 1 0 4, fA 2, fS 4, fS 4, fU 2 144000 840000, fU 2 144000 840000, fU 2 144000 840000,
       fU 2 144000 840000, fU 1 0 1, fU 1 0 1, fU 2 0 60000, fU 2 0 60000, fU 1 0 1, fA 2],
    bothRecS 0x180 18 [] 1 [fA 3, fU 1 0 1, dagF (fZ 1 1 6), dagF (fZ 2 1 3600)],
    bothRecS 0x181 18 [(0, 1)] 1
      [fU 1 0 3, fU 1 0 1, fU 1 0 2, fA 3, fU 1 0 4, dagF (fU 1 0 3), dagF (fZ 1 1 1000)],
    bothRecS 0x1A0 9 [] 1
      [fU 1 0 3, dagF (fU 2 1 1000000), dagF (fU 1 1 200), dagF (fU 2 4 4096), fS 2, fA 2, dagF (fZ 1 1 1023),
       fU 3 0 999999999, fU 2 1 500000],
    bothRecS 0x1A1 8 [(0, 1)] 1
      [fU 1 0 7, fU 1 0 2, dagF (fU 1 0 2), fU 1 0 1, dagF (fU 1 0 3), dagF (fU 2 10 1048575), dagF (fU 2 1 1000000),
       dagF (fS 2), dagF (fU 1 0 3), dagF (fU 2 1 65535)],
    bothRecS 0x1A2 8 [] 1 [fZ 1 5 100, fA 2, fU 1 0 511, fZ 1 1 1023],
    bothRecS 0x1A3 8 [(0, 1)] 1 [fLine, fU 1 0 7, fU 2 10 100000],
    amendRecS 0x1A4 9 [] 0 (fTime ++ [fS 2, fU 3 0 999999999]),
    bothRecS 0x1C0 10 [(0, 1)] 1
      [fU 1 0 2, dagF (fU 1 0 3), fU 1 1 4, fU 1 0 15, fU 1 0 7, dagF (fZ 2 100 60000), dagF (fZ 1 1 1023), fA 1,
       fZ 2 64 1024],
    bothRecS 0x1E0 10 [] 1 [fU 2 0 4094, fU 1 0 2, fU 1 0 2],
    bothRecS 0x1E1 10 [] 1 [fU 1 1 2, dagF (fZ 2 100 10000), dagF (fS 2), dagF (fS 2), dagF (fU 1 0 1)],
    amendRecS 0x1E2 4 [] 0 (fTime ++ fTime ++ [fU 26 0 (2 ^ 256 - 1)]),
    planRecS 0x200 [] 1
      [fU 1 0 3, fU 1 1 2, fU 1 0 2, fU 1 1 3, fU 1 0 2, fU 1 10 1000, fZ 2 60 86400, fZ 1 5 100, fZ 1 70 105,
       fZ 1 1 64, fU 1 0 1, fZ 1 1 168],
    planRecS 0x220 [] 1 [fZ 1 1 15, fU 1 0 1],
    amendRecS 0x221 17 [] 0 [fU 1 0 2, fU 1 0 1],
    amendRecS 0x222 16 [] 0 [fU 1 0 1],
    { type := 0x3FF, cls := none, plan := true, amend := true, key := [], max := 1, fields := [] } ]

/-- R63: the specification of a type; none for 0x000, a reserved or an undefined one. Types 0x300 to 0x3FE are the
integrator's own and carry anything. -/
def recSpec (type : Nat) : Option RecSpec :=
  if 0x300 ≤ type ∧ type ≤ 0x3FE then
    some { type := type, cls := none, plan := true, amend := true, key := [], max := 0, fields := [] }
  else (recSpecsA ++ recSpecsB).find? (fun r => r.type = type)

/-- A type of the integrator's own. -/
def privateType (type : Nat) : Bool := decide (0x300 ≤ type ∧ type ≤ 0x3FE)

/-! ### Framing -/

/-- R62: the next record of a sequence with its CRC-32C correct and its type not 0x000, and the words after it. -/
def parseRec (ws : List Word) : Option (PlanRec × List Word) :=
  let n := wAt ws 1 2
  let body := ws.take (3 + n)
  let rest := ws.drop (3 + n)
  if decide (wAt ws 0 1 ≠ 0) && decide (4 ≤ rest.length) && decide (body.length = 3 + n)
      && decide (wAt rest 0 4 = crcWords body) then
    some ({ type := wAt ws 0 1, payload := body.drop 3 }, rest.drop 4)
  else none

/-- R62: the records of a sequence up to the first that is wrong, and whether all were right. -/
def parseRecs : Nat → List Word → List PlanRec × Bool
  | 0, ws => ([], ws.isEmpty)
  | fuel + 1, ws =>
    if ws.isEmpty then ([], true)
    else match parseRec ws with
      | none => ([], false)
      | some (r, rest) => let (rs, ok) := parseRecs fuel rest; (r :: rs, ok)

/-- The records of a word sequence. -/
def recordsOf (ws : List Word) : List PlanRec × Bool := parseRecs (ws.length / 7 + 1) ws

/-- R62: a record's type, length and payload. -/
def recBody (r : PlanRec) : List Word := BitVec.ofNat 10 r.type :: wordsOf 2 r.payload.length ++ r.payload

/-- R62: the words of a record. -/
def recWords (r : PlanRec) : List Word := recBody r ++ wordsOf 4 (crcWords (recBody r))

/-- R62: the words of a sequence of records. -/
def planWords (rs : List PlanRec) : List Word := rs.flatMap recWords

/-- R66: the words a plan's or an amendment's signature covers: every record before PLAN_END and PLAN_END's own type and
length. -/
def signedWords (rs : List PlanRec) : List Word :=
  planWords rs.dropLast ++ (match rs.getLast? with | none => [] | some r => BitVec.ofNat 10 r.type :: wordsOf 2 r.payload.length)

/-- R66: a plan carries a signature. -/
def sigThere (rs : List PlanRec) : Bool := match rs.getLast? with | none => false | some r => decide (r.payload.length = 78)

/-- R66, R69: the signature of a plan or an amendment verifies under a key. -/
def recsSigned (k : PubKey) (rs : List PlanRec) : Bool :=
  match rs.getLast? with | none => false | some r => signedBy k (signedWords rs) r.payload

/-- The values of a payload's Repeat key. -/
def keyOf (k : List (Nat × Nat)) (p : List Word) : List Nat := k.map (fun x => wAt p x.1 x.2)

/-- R64: how often a type may appear: in an amendment REPLAY_CURSOR is repeatable. -/
def repeatMax (sp : RecSpec) (amend : Bool) : Nat := if amend && decide (sp.type = 0x142) then 0 else sp.max

/-- R64: record `i` is of a defined type and within its Repeat column. SCHEDULE_ORIGIN may name a line once. -/
def repeatOk (rs : List PlanRec) (amend : Bool) (i : Nat) : Bool :=
  match rs[i]? with
  | none => false
  | some r =>
    match recSpec r.type with
    | none => false
    | some sp =>
      let same := (rs.take i).filter (fun q => decide (q.type = r.type) && decide (keyOf sp.key q.payload = keyOf sp.key r.payload))
      let m := repeatMax sp amend
      (decide (m = 0) || decide (same.length < m))
        && (decide (r.type ≠ 0x027) || same.all (fun q => decide (wAt q.payload 0 1 &&& wAt r.payload 0 1 = 0)))

/-! ### Payloads -/

/-- The words that follow a payload's fixed fields: how many items, and what each is. -/
def recTail (type : Nat) (p : List Word) : Option (Nat × RecField) :=
  match type with
  | 0x022 => some (2 * wAt p 2 2, fS 1)
  | 0x023 => some (wAt p 2 1, fU 1 0 63)
  | 0x0E1 => some (wAt p 5 2, fA 4)
  | _ => none

/-- A field's value is within its range. -/
def fieldIn (f : RecField) (p : List Word) (i : Nat) : Bool :=
  let v : Int := if f.signed then wAtS p i f.n else (wAt p i f.n : Int)
  (f.zero && decide (v = 0)) || (decide (f.lo ≤ v ∧ v ≤ f.hi) && decide (v % (f.mult : Int) = 0))

/-- Every field of a payload from a word on is within its range. -/
def fieldsIn : List RecField → List Word → Nat → Bool
  | [], _, _ => true
  | f :: t, p, i => fieldIn f p i && fieldsIn t p (i + f.n)

/-- Words of the fixed fields. -/
def fixedWords (sp : RecSpec) : Nat := sumN (sp.fields.map (fun f => f.n))

/-- The payload has its length and every field is within its range. Lists whose length other records give (SHED_ORDER,
STREAM_COEF, KERNEL_PARAMS, PLAN_END) are checked for that length elsewhere. -/
def rangesOk (sp : RecSpec) (p : List Word) : Bool :=
  if privateType sp.type then true
  else
    let fixed := fixedWords sp
    let lenOk := match recTail sp.type p with
      | some (k, f) => decide (p.length = fixed + k * f.n) && (List.range k).all (fun j => fieldIn f p (fixed + j * f.n))
      | none => match sp.type with
        | 0x003 => decide (p.length ≤ 32)
        | 0x0E3 | 0x101 => decide (fixed ≤ p.length)
        | 0x3FF => p.isEmpty || sigFits p
        | _ => decide (p.length = fixed)
    lenOk && fieldsIn sp.fields p 0

/-- The fields not marked † of two payloads are equal, from a word on. -/
def fixedSame : List RecField → List Word → List Word → Nat → Bool
  | [], _, _, _ => true
  | f :: t, p, q, i => (f.dag || decide ((p.drop i).take f.n = (q.drop i).take f.n)) && fixedSame t p q (i + f.n)

/-! ### The amended plan (R73) -/

/-- How a type's records are told apart in a plan: by its Repeat key, a kernel, window, zone or cursor by its number, a
register by its address. -/
def mergeKey (r : PlanRec) : Nat × List Nat :=
  let p := r.payload
  match r.type with
  | 0x004 => (4, [wAt p 0 2])
  | 0x0E1 => (r.type, [wAt p 0 1])
  | 0x0E2 => (r.type, [wAt p 0 1, wAt p 1 1])
  | 0x0A1 => (r.type, [wAt p 0 1, wAt p 1 2])
  | 0x142 => (r.type, [wAt p 0 1])
  | 0x160 | 0x161 => (r.type, [wAt p 0 2])
  | t => (t, match recSpec t with | none => [] | some sp => keyOf sp.key p)

/-- A record put into a plan, in place of the one with its key. -/
def putRec (cfg : List PlanRec) (r : PlanRec) : List PlanRec :=
  if cfg.any (fun q => decide (mergeKey q = mergeKey r)) then cfg.map (fun q => if mergeKey q = mergeKey r then r else q)
  else cfg ++ [r]

/-- A payload with words replaced from a position. -/
def patch (p : List Word) (i : Nat) (ws : List Word) : List Word := p.take i ++ ws ++ p.drop (i + ws.length)

/-- The plan with the record of a type and first words changed. -/
def patchRec (cfg : List PlanRec) (type n k : Nat) (f : List Word → List Word) : List PlanRec :=
  cfg.map (fun q => if q.type = type ∧ wAt q.payload 0 n = k then { q with payload := f q.payload } else q)

/-- R73: an accepted record merged into a plan. ZONE_LIMITS, STREAM_SUB, STREAM_SCALE and REPLAY_LENGTH change the record
they refer to. A record that names one act at one time (an origin, a swap, a sync, a step of time, a command, the
integrator's own) leaves nothing in the plan (log entry 71). -/
def mergeRec (cfg : List PlanRec) (r : PlanRec) : List PlanRec :=
  let p := r.payload
  match r.type with
  | 0x161 => patchRec cfg 0x160 2 (wAt p 0 2) (fun q => patch q 13 ((p.drop 2).take 19))
  | 0x103 => patchRec cfg 0x100 1 (wAt p 0 1) (fun q =>
      patch q 28 [BitVec.ofNat 10 (wAt p 1 1 % 512 + wAt q 28 1 / 512 * 512)])
  | 0x104 => patchRec cfg 0x100 1 (wAt p 0 1) (fun q => patch q 17 ((p.drop 1).take 8))
  | 0x141 => patchRec cfg 0x140 0 0 (fun q => patch q 2 (p.take 2))
  | 0x005 | 0x027 | 0x105 | 0x106 | 0x1A4 | 0x1E2 | 0x221 | 0x222 | 0x3FF => cfg
  | t => if privateType t then cfg else putRec cfg r

/-- Records merged in order. -/
def mergeRecs (cfg rs : List PlanRec) : List PlanRec := rs.foldl mergeRec cfg

end Sys2Proof.Machine
end

