-- ==== Sys2Proof/Machine/LineCode.lean ====
section
/-! DEFINITION. The line code of the serial lanes: 8b/10b code groups and running disparity (spec R364, R365), the ordered sets
(R366), the symbols of a training set (R369) and the PRBS polynomials (R382). A data symbol Dx.y is the number 32·y + x, a
control symbol Kx.y that number plus 256; a code group abcdeifghj is a number with bit a, the first sent, in bit 9. -/

namespace Sys2Proof.Machine
open Sys2Proof

/-! ### Code groups -/

/-- R364: the 6-bit groups abcdei of D0.y to D31.y for negative running disparity. PRESUMED (log entry 149): the spec names the
standard 8b/10b table and does not print it. -/
def sixBits : List Nat :=
  [0b100111, 0b011101, 0b101101, 0b110001, 0b110101, 0b101001, 0b011001, 0b111000,
   0b111001, 0b100101, 0b010101, 0b110100, 0b001101, 0b101100, 0b011100, 0b010111]
  ++ [0b011011, 0b100011, 0b010011, 0b110010, 0b001011, 0b101010, 0b011010, 0b111010,
   0b110011, 0b100110, 0b010110, 0b110110, 0b001110, 0b101110, 0b011110, 0b101011]

/-- R364: the 4-bit groups fghj of Dx.0 to Dx.7 and of Kx.0 to Kx.7 for negative running disparity (log entry 149). -/
def fourBits : List Nat := [0b1011, 0b1001, 0b0101, 0b1100, 0b1101, 0b1010, 0b0110, 0b1110]
def fourBitsK : List Nat := [0b1011, 0b0110, 0b1010, 0b1100, 0b1101, 0b0101, 0b1001, 0b0111]

/-- The number of ones among the low `n` bits. -/
def onesIn (n v : Nat) : Nat := sumN ((List.range n).map (fun i => b2n (bitOf v i)))

/-- The running disparity (true: positive) after a sub-group of `n` bits; a balanced one leaves it. -/
def rdAfter (n : Nat) (rd : Bool) (v : Nat) : Bool := if onesIn n v * 2 = n then rd else decide (n < onesIn n v * 2)

/-- R364: the code group of a symbol at a running disparity, and the disparity after it. -/
def encodeSym (rd : Bool) (sym : Nat) : Nat × Bool :=
  let k := decide (256 ≤ sym)
  let x := sym % 32
  let y := sym / 32 % 8
  let six0 := if k = true ∧ x = 28 then 0b001111 else lget 0 sixBits x
  let six := if rd = true ∧ (onesIn 6 six0 ≠ 3 ∨ six0 = 0b111000) then 63 - six0 else six0
  let rd1 := rdAfter 6 rd six
  let a7 := y = 7 ∧ (if rd1 then x = 11 ∨ x = 13 ∨ x = 14 else x = 17 ∨ x = 18 ∨ x = 20)
  let four0 := if k then lget 0 fourBitsK y else if a7 then 0b0111 else lget 0 fourBits y
  let four := if rd1 = true ∧ (k = true ∨ onesIn 4 four0 ≠ 2 ∨ four0 = 0b1100) then 15 - four0 else four0
  (six * 16 + four, rdAfter 4 rd1 four)

/-! ### Control symbols and ordered sets -/

/-- R364: K28.5, K28.1, K28.3, K23.7, K27.7, K29.7 and K30.7. -/
def symCom : Nat := 0x1BC
def symSkp : Nat := 0x13C
def symAln : Nat := 0x17C
def symEi : Nat := 0x1F7
def symSof : Nat := 0x1FB
def symEof : Nat := 0x1FD
def symErr : Nat := 0x1FE

/-- R364: the seven control symbols. -/
def controlSyms : List Nat := [symCom, symSkp, symAln, symEi, symSof, symEof, symErr]

/-- R365: the symbol that a code group stands for at a running disparity, if any. -/
def decodeSym (rd : Bool) (g : Nat) : Option Nat :=
  (List.range 256 ++ controlSyms).find? (fun y => decide ((encodeSym rd y).1 = g))

/-- R365: a received code group: the symbol passed up, whether it is a symbol error, and the new running disparity. On an error
K30.7 goes up and the group's own disparity is taken; a balanced group has none and leaves it (log entry 150). -/
def receiveSym (rd : Bool) (g : Nat) : Nat × Bool × Bool :=
  match decodeSym rd g with
  | some y => (y, false, (encodeSym rd y).2)
  | none => (symErr, true, rdAfter 10 rd g)

/-- R365: a comma, bits a to g of K28.5, lies across two code groups: at a position that symbol lock does not set. -/
def strayComma (last g : Nat) : Bool :=
  (List.range 9).any (fun i => let w := (last * 1024 + g) / 2 ^ (4 + i) % 128; decide (w = 0b0011111 ∨ w = 0b1100000))

/-- R366: the ordered sets. -/
inductive OrdSet where
  | idle | skp | align | eios | fx
  deriving DecidableEq, Repr

/-- R366: the four symbols of an ordered set on a logical lane; `seq` is the ALIGN sequence number. -/
def setSyms (o : OrdSet) (seq lane : Nat) : List Nat :=
  match o with
  | .idle => [symCom, 0xC5, 0x50, 0x50]
  | .skp => [symCom, symSkp, symSkp, symSkp]
  | .align => [symCom, symAln, seq % 256, lane % 256]
  | .eios => [symCom, symEi, symEi, symEi]
  | .fx => [symCom, 0xB5, 0xB5, 0xB5]

/-! ### Training sets -/

/-- R369: what a training set sent on a lane says. -/
structure TrainOut where
  ts2 : Bool
  lane : Nat
  rates : Nat
  widthMax : Nat
  locked : Nat
  feReq : Bool
  ack : Bool
  eqReq : Bool
  request : Nat
  preset : Nat
  addr : Nat
  role : Nat
  seq : Nat
  deriving DecidableEq, Repr

/-- R369: its 16 symbols. -/
def trainSyms (t : TrainOut) : List Nat :=
  [symCom, t.lane % 4, t.rates % 16, (match t.widthMax with | 1 => 1 | 2 => 3 | _ => 7) + 16 * (t.locked % 16),
   b2n t.feReq + 2 * b2n t.ack + 4 * b2n t.eqReq, t.request % 8, t.preset % 8, t.addr % 256, t.addr / 256 % 16 + 16 * (t.role % 4),
   t.seq % 256] ++ List.replicate 5 0x4A ++ [if t.ts2 then 0x45 else 0x4A]

/-! ### PRBS -/

/-- R382: the exponents of a pattern's polynomial. -/
def prbsTaps (pattern : Nat) : Nat × Nat :=
  match pattern with | 0 => (7, 6) | 1 => (15, 14) | 2 => (23, 18) | _ => (31, 28)

/-- R382: the bit that follows a history of line bits, the latest in bit 0. -/
def prbsBit (pattern hist : Nat) : Nat :=
  let (a, b) := prbsTaps pattern
  (b2n (bitOf hist (a - 1)) + b2n (bitOf hist (b - 1))) % 2

/-- The history with one bit more. -/
def pushBit (hist b : Nat) : Nat := (hist * 2 + b) % 2 ^ 31

/-- R382: the next `n` bits of the generator, first sent first, and its history after them. -/
def prbsRun (pattern : Nat) : Nat → Nat → List Nat × Nat
  | 0, h => ([], h)
  | n + 1, h =>
    let b := prbsBit pattern h
    let r := prbsRun pattern n (pushBit h b)
    (b :: r.1, r.2)

/-- Line bits as code groups of ten, bit a first. -/
def bitGroups (bs : List Nat) : List Nat :=
  (List.range (bs.length / 10)).map (fun k => ((bs.drop (10 * k)).take 10).foldl (fun a b => 2 * a + b) 0)

end Sys2Proof.Machine
end

