-- ==== Sys2Proof/Machine/Quads.lean ====
section
/-! DEFINITION. The serial lanes (spec R361 to R386, R398, R402): the state machine of each quad. -/

namespace Sys2Proof.Machine
open Sys2Proof

/-- R385 SL_QUAD. -/
structure QuadCfg where
  rateMax : Nat
  widthMax : Nat
  blind : Bool
  rateFallback : Bool
  stbyIdle : Bool
  allowFe : Bool
  preset : Nat
  fxCount : Nat
  deriving DecidableEq, Repr

/-- A quad's record; none: the quad stays in electrical idle. -/
def quadCfg (s : State) (q : Fin 3) : Option QuadCfg :=
  (recBy s 0x1C0 q.val).map (fun p =>
    { rateMax := getF s (slQCtrlRateMax q.val), widthMax := wAt p 2 1, blind := bitOf (wAt p 3 1) 0,
      rateFallback := bitOf (wAt p 3 1) 1, stbyIdle := bitOf (wAt p 3 1) 2, allowFe := bitOf (wAt p 3 1) 3, preset := wAt p 4 1,
      fxCount := if wAt p 9 2 = 0 then 256 else wAt p 9 2 })

/-- The quad. -/
def quadAt (s : State) (q : Fin 3) : Quad := vget s.net.quads q

/-- One lane of a quad changed. -/
def modLane (Q : Quad) (p : Fin 4) (f : SlLane → SlLane) : Quad := { Q with lanes := vmod Q.lanes p f }

/-- The lanes that found a receiver (R372). -/
def presentMask (Q : Quad) : Nat := (List.finRange 4).foldl (fun m p => if (vget Q.lanes p).present then m + 2 ^ p.val else m) 0

/-- The lanes of a width from lane 0 on. -/
def widthMask (w : Nat) : Nat := 2 ^ w - 1

/-- What training leaves on a lane goes when an attempt starts. -/
def freshLane (x : SlLane) : SlLane :=
  { x with symLock := false, prbsLock := false, idleRx := false, runAny := 0, runAck := 0, runTs2 := 0, partnerLane := 0, runSent := 0 }

/-- Rate codes up to one. -/
def ratesTo (c : Nat) : Nat := 2 ^ (c + 1) - 1

/-- R374, R375, R399: the rate codes of the next T0. -/
def offeredRates (Q : Quad) : Nat :=
  let top := if Q.capRate then min Q.topRate 2 else Q.topRate
  match Q.below with
  | none => ratesTo top
  | some b => if b = 0 then 1 else ratesTo (min top (b - 1))

/-- R374: the rate code in use: 2.5 Gbaud in T0, the agreed rate in training after it, else that of the settings. -/
def rateNow (Q : Quad) : Nat := if Q.st = .train then (if Q.step = 0 then 0 else Q.agreed) else Q.rate

/-- R374: the logical lane of a physical lane in use. -/
def logicalLane (Q : Quad) (p : Nat) : Nat :=
  let rank := ((List.range p).filter (fun i => bitOf Q.inUse i)).length
  if Q.reversed then Q.width - 1 - rank else rank

/-! ### What a lane sends -/

/-- R364: a lane sends symbols: their code groups, by its running disparity. -/
def laneSend (x : SlLane) (syms : List Nat) : SlLane :=
  let r := syms.foldl (fun (a : Bool × List Nat) y => let e := encodeSym a.1 y; (e.2, a.2 ++ [e.1])) (x.rd, [])
  { x with rd := r.1, out := r.2 }

/-- R364, R379: a lane in electrical idle; its next start is with negative running disparity. -/
def laneQuiet (x : SlLane) : SlLane := { x with rd := false, out := [] }

/-- A lane whose transmission ends at once. -/
def laneStop (x : SlLane) : SlLane := { laneQuiet x with eios := 0, fx := 0 }

/-- R366: an ordered set at the same four symbol times on every lane in use. -/
def sendSet (Q : Quad) (o : OrdSet) : Quad :=
  { Q with lanes := Vector.ofFn (fun p : Fin 4 => let x := vget Q.lanes p
      if bitOf Q.inUse p.val then laneSend x (setSyms o Q.alignSeq (logicalLane Q p.val)) else x) }

/-- R379: the lanes of a mask enter electrical idle, after 4 EIOS sets. -/
def sleepLanes (Q : Quad) (mask : Nat) : Quad :=
  { Q with lanes := Vector.ofFn (fun p : Fin 4 => let x := vget Q.lanes p
      if bitOf mask p.val then { x with eios := 4 } else x) }

/-! ### The state machine -/

/-- R390: a quad that leaves ACTIVE loses the frames in flight; R394: its credits restart at the next ACTIVE, and
until then nothing is sent. -/
def leaveActive (s : State) (q : Fin 3) : State :=
  if (quadAt s q).st = .active then
    modLink s q (fun L =>
      { L with grant := Vector.replicate 3 0, used := Vector.replicate 3 0, given := Vector.replicate 3 0, creditOk := false,
               low := none, high := none })
  else s

/-- R372: DETECT. -/
def toDetect (s : State) (q : Fin 3) : State :=
  modQuad (leaveActive s q) q (fun Q =>
    { Q with st := .detect, lanes := Q.lanes.map (fun x => { laneStop (freshLane x) with present := false, los := false }),
             attempt := 0, step := 0, partnerFe := false })

/-- R374: a step of training begins. -/
def beginStep (now step : Nat) (Q : Quad) : Quad :=
  { Q with step := step, passed := 0, setPos := 0, stepAt := now, lanes := Q.lanes.map (fun x => { x with runSent := 0 }) }

/-- R374: TRAIN from T0, with the lanes present, in the running attempt. -/
def toTrain (s : State) (q : Fin 3) : State :=
  if (quadCfg s q).isNone then s
  else modQuad (leaveActive s q) q (fun Q =>
    beginStep (elapsed s) 0 { Q with
      st := .train, attempt := presentMask Q, offer := offeredRates Q, partnerRates := 0,
      partnerLocked := 0, working := 0, lanes := Q.lanes.map (fun x => laneStop (freshLane x)) })

/-- R378: a new attempt, with the RATE_MAX that the register holds. -/
def startAttempt (s : State) (q : Fin 3) : State :=
  modQuad s q (fun Q => { Q with topRate := getF s (slQCtrlRateMax q.val), rateWait := false })

/-- R374, R378: a new attempt at T0. -/
def newTrain (s : State) (q : Fin 3) : State := toTrain (startAttempt s q) q

/-- R373: BLIND on the stored settings; T0 where BLIND is not enabled, or where the stored settings belong to an old RATE_MAX
(R378). -/
def toBlind (s : State) (q : Fin 3) : State :=
  match quadCfg s q with
  | none => s
  | some c =>
    if c.blind && !(quadAt s q).rateWait then
      modQuad (startAttempt (leaveActive s q) q) q (fun Q =>
        { Q with st := .blind, step := 0, attempt := presentMask Q, rate := Q.kept.rate, width := Q.kept.width, inUse := Q.kept.inUse,
                 reversed := Q.kept.reversed,
                 lanes := Q.lanes.map (fun x => { laneStop (freshLane x) with preset := x.storedPreset, polInv := x.storedPol }) })
    else newTrain s q

/-- R376, R378: a failed attempt. A DOWN quad's attempt returns to DOWN; the thirty-second in a row enters it; a waiting
change of RATE_MAX starts at T0. -/
def failAttempt (s : State) (q : Fin 3) : State :=
  let Q := quadAt s q
  let n := min 32 (Q.fails + 1)
  let s1 := modQuad s q (fun Q => { Q with fails := n, rateWait := false })
  if Q.fromDown then modQuad s1 q (fun Q => { Q with st := .down, fromDown := false })
  else if n = 32 then logEvent (modQuad s1 q (fun Q => { Q with st := .down })) 0x029 5 2 q.val 0
  else if Q.rateWait then newTrain s1 q
  else toDetect s1 q

/-! ### Entering ACTIVE -/

/-- R398: the offer at an entry to ACTIVE, and what becomes of the accepted set. -/
def offerOnActive (s : State) (q : Fin 3) : State :=
  let Q := quadAt s q
  let L := vget s.net.links q
  let me := some (Q.partner, Q.role)
  let same := decide (L.lastPartner = me)
  let s1 := modLink s q (fun L => { L with lastPartner := me })
  match L.accepted with
  | some a =>
    if same then
      let w := offerWord s1 q
      if a &&& w = a then sendOffer s1 q false false
      else dropWithdrawn (sendOffer (putWord60 (modLink s1 q (fun L => { L with accepted := some (a &&& w) })) (mgAccWord q.val) (a &&& w)) q true true) q
    else sendOffer (putWord60 (modLink s1 q (fun L => { L with accepted := none, changed := false })) (mgAccWord q.val) 0) q false true
  | none => sendOffer s1 q false true

/-- R373, R376, R394: ACTIVE. -/
def toActive (s : State) (q : Fin 3) : State :=
  let wait := (quadAt s q).rateWait
  let s1 := modQuad s q (fun Q =>
    { Q with st := .active, fails := 0, fromDown := false, below := none, sets := 0, alignSeq := 0, rateWait := false,
             kept := { rate := Q.rate, width := Q.width, inUse := Q.inUse, reversed := Q.reversed },
             lanes := Vector.ofFn (fun p : Fin 4 => let x := vget Q.lanes p
               { x with storedPreset := x.preset, storedPol := x.polInv, symLock := bitOf Q.inUse p.val }) })
  let s2 := modLink s1 q (fun L =>
    { L with grant := Vector.replicate 3 0, used := Vector.replicate 3 0, given := Vector.replicate 3 0, creditOk := false,
             low := none, high := none })
  let s3 := if partnerOk s2 q then s2 else setF s2 (lkStatusMiswired q.val) 1
  let s4 := offerOnActive s3 q
  let s5 := if q = 0 ∧ bootPhase s4 = 9 then setF s4 bmStateBootPhase 10 else s4
  if wait then newTrain s5 q else s5

/-! ### DETECT, ABSENT, BLIND -/

/-- R372: receiver detection ends. -/
def detectDoneSt (q : Fin 3) (present : BitVec 4) (s : State) : State :=
  if (quadAt s q).st = .detect ∧ (quadCfg s q).isSome then
    let s1 := modQuad s q (fun Q => { Q with lanes := Vector.ofFn (fun p : Fin 4 =>
      { vget Q.lanes p with present := present.getLsbD p.val }) })
    if present = 0 then modQuad s1 q (fun Q => { Q with st := .absent }) else toBlind s1 q
  else s

/-- R372 LANE_DETECT_DONE. -/
def execLaneDetectDone (q : Fin 3) (present : BitVec 4) (s : State) : Host.Outcome State Fault Refusal :=
  .next (detectDoneSt q present s)

/-- R372 ABSENT_RETRY: detection is repeated every 100 ms. -/
def execAbsentRetry (q : Fin 3) (s : State) : Host.Outcome State Fault Refusal :=
  .next (whenB (decide ((quadAt s q).st = .absent)) s (modQuad s q (fun Q => { Q with st := .detect })))

/-- R373, R374: every lane in use has lock, deskew and 16 IDLE sets. -/
def linkActiveSt (q : Fin 3) (s : State) : State :=
  let Q := quadAt s q
  if (Q.st = .blind ∧ Q.inUse &&& presentMask Q = Q.inUse ∧ Q.inUse ≠ 0) ∨ (Q.st = .train ∧ Q.step = 3) then toActive s q else s

/-- R373 LINK_ACTIVE. -/
def execLinkActive (q : Fin 3) (s : State) : Host.Outcome State Fault Refusal := .next (linkActiveSt q s)

/-- R373, R58: 2 ms in BLIND without ACTIVE. -/
def blindTimeoutSt (q : Fin 3) (s : State) : State :=
  if (quadAt s q).st = .blind then
    let s1 := toTrain s q
    if q = 0 ∧ bootPhase s1 = 9 then setF s1 bmStateBootPhase 10 else s1
  else s

/-- R373 BLIND_TIMEOUT. -/
def execBlindTimeout (q : Fin 3) (s : State) : Host.Outcome State Fault Refusal := .next (blindTimeoutSt q s)

/-! ### Training sets -/

/-- R369: what a training set says. -/
structure TrainSet where
  inverted : Bool
  ts2 : Bool
  lane : Nat
  rates : Nat
  locked : Nat
  feReq : Bool
  ack : Bool
  eqReq : Bool
  preset : Nat
  addr : Nat
  role : Nat
  deriving DecidableEq, Repr

/-- R369: 16 symbols read as a training set: K28.5 as 0x1BC, a data symbol Dx.y as its byte. -/
def trainSetOf (xs : List Nat) : Option TrainSet :=
  let b (i : Nat) : Nat := lget 0 xs i
  let ids := (xs.drop 10).take 5
  if xs.length ≠ 16 ∨ b 0 ≠ 0x1BC then none
  else if ids.all (fun x => decide (x = 0x4A)) ∨ ids.all (fun x => decide (x = 0xB5)) then
    let inv := decide (b 10 = 0xB5)
    if inv ∨ b 15 = 0x4A ∨ b 15 = 0x45 then
      some { inverted := inv, ts2 := decide (b 15 = 0x45), lane := b 1, rates := b 2 % 16, locked := b 3 / 16 % 16,
             feReq := bitOf (b 4) 0, ack := bitOf (b 4) 1, eqReq := bitOf (b 4) 2, preset := b 5 % 8,
             addr := b 7 + b 8 % 16 * 256, role := b 8 / 16 % 4 }
    else none
  else none

/-- R369, R374: a lane counts the training sets it receives in a row. -/
def noteSet (x : SlLane) (t : TrainSet) : SlLane :=
  let x1 := { x with partnerLane := t.lane, symLock := true, los := false, runAny := min 8 (x.runAny + 1),
                     runAck := if t.ts2 then 0 else if t.ack then min 8 (x.runAck + 1) else 0,
                     runTs2 := if t.ts2 then min 8 (x.runTs2 + 1) else 0 }
  if t.eqReq then { x1 with preset := t.preset } else x1

/-- R369, R370, R373, R383: a training set arrives on a physical lane. -/
def trainSetSt (q : Fin 3) (p : Fin 4) (symbols : List Nat) (s0 : State) : State :=
  let broken (s : State) : State := modQuad s q (fun Q => modLane Q p (fun x => { x with runAny := 0, runAck := 0, runTs2 := 0 }))
  match trainSetOf symbols, quadCfg s0 q with
  | some t, some c =>
    let st := (quadAt s0 q).st
    if t.inverted then
      if st = .blind ∨ st = .train then broken (modQuad s0 q (fun Q => modLane Q p (fun x => { x with polInv := !x.polInv }))) else s0
    else
      let s := if st = .blind ∧ t.ts2 = false then toTrain s0 q else s0
      let Q := quadAt s q
      if Q.st ≠ .train ∨ bitOf Q.attempt p.val = false then s
      else if t.feReq ∧ c.allowFe = true ∧ Q.step = 0 ∧ getF s (slQTestMode q.val) = 0 then
        modQuad s q (fun Q => { Q with st := .test, partnerFe := true, stepAt := elapsed s })
      else
        modQuad s q (fun Q => { modLane Q p (fun x => noteSet x t) with
          partnerRates := t.rates, partnerLocked := t.locked, partner := t.addr, role := t.role })
  | none, _ => if (quadAt s0 q).st = .train then broken s0 else s0
  | _, none => s0

/-- R369 TRAINING_SET_RECEIVED. -/
def execTrainingSetReceived (q : Fin 3) (p : Fin 4) (symbols : List Nat) (s : State) : Host.Outcome State Fault Refusal :=
  .next (trainSetSt q p symbols s)

/-! ### Training steps -/

/-- R375: width and lanes in use from the working lanes. -/
def formWidth (working widthMax : Nat) : Option (Nat × Nat) :=
  if working % 16 = 15 ∧ 4 ≤ widthMax then some (4, 15)
  else if working % 4 = 3 ∧ 2 ≤ widthMax then some (2, 3)
  else if working / 4 % 4 = 3 ∧ 2 ≤ widthMax then some (2, 12)
  else ((List.range 4).find? (fun i => bitOf working i)).map (fun i => (1, 2 ^ i))

/-- R374: the highest rate code in both bitmaps, not above RATE_MAX. -/
def agreedRate (Q : Quad) : Option Nat :=
  ([3, 2, 1, 0].find? (fun r => bitOf Q.offer r && bitOf Q.partnerRates r && decide (r ≤ Q.topRate)))

/-- R375: an attempt without any width fails; with RATE_FALLBACK the next offers only lower rates. -/
def failWidth (s : State) (q : Fin 3) (c : QuadCfg) : State :=
  failAttempt (if c.rateFallback then modQuad s q (fun Q => { Q with below := some Q.agreed }) else s) q

/-- R375: a link of a width on some lanes: the rest enter electrical idle, and a width below WIDTH_MAX is logged and counted. -/
def narrowTo (s : State) (q : Fin 3) (c : QuadCfg) (width use : Nat) : State :=
  let s1 := modQuad s q (fun Q => sleepLanes { Q with attempt := use, width := width, inUse := use } (15 - use))
  if width < c.widthMax then bump (logEvent s1 0x028 5 1 q.val width) (slQCountNarrowings q.val) else s1

/-- R374, R375: the end of T2. -/
def formLink (s : State) (q : Fin 3) (c : QuadCfg) (lanes : Nat) : State :=
  let Q := quadAt s q
  let w := lanes &&& Q.partnerLocked
  match formWidth w c.widthMax with
  | none => failWidth s q c
  | some (width, use) =>
    let rev := decide ((vget Q.lanes 3).partnerLane = 0) && bitOf lanes 3
    narrowTo (modQuad s q (fun Q => beginStep (elapsed s) 3 { Q with working := w, rate := Q.agreed, reversed := rev })) q c width use

/-- R374, R375: the end of T3: ACTIVE; where lanes in use have left, the width follows from those that remain (log entry 151). -/
def alignEnd (s : State) (q : Fin 3) (c : QuadCfg) (lanes : Nat) : State :=
  if lanes = (quadAt s q).inUse then toActive s q
  else match formWidth lanes c.widthMax with
    | none => failWidth s q c
    | some (width, use) => toActive (narrowTo s q c width use) q

/-- R374: a step has ended; `lanes` passed it. -/
def endStep (s : State) (q : Fin 3) (lanes : Nat) : State :=
  let Q := quadAt s q
  match quadCfg s q with
  | none => s
  | some c =>
    if lanes = 0 then failAttempt s q
    else match Q.step with
      | 0 =>
        (match agreedRate Q with
         | none => failAttempt s q
         | some r => modQuad s q (fun Q => beginStep (elapsed s) 1
             { Q with attempt := lanes, agreed := r, lanes := Q.lanes.map (fun x => { x with runTs2 := 0 }) }))
      | 1 => modQuad s q (fun Q => beginStep (elapsed s) 2 { Q with attempt := lanes })
      | 2 => formLink s q c lanes
      | _ => alignEnd s q c lanes

/-- R374: the step ends once every lane of the attempt has passed. -/
def stepIfDone (s : State) (q : Fin 3) : State :=
  let Q := quadAt s q
  if Q.attempt &&& Q.passed = Q.attempt then endStep s q Q.attempt else s

/-- R374: the lanes of a set that have met a step's own counts: 8 TS1 with ACK in T0, 8 TS2 in T2, and 16 sets sent since. -/
def metStep (Q : Quad) (lanes : Nat) : Nat :=
  (List.finRange 4).foldl (fun m p =>
    let x := vget Q.lanes p
    let ok := match Q.step with | 0 => decide (8 ≤ x.runAck ∧ 16 ≤ x.runSent) | 2 => decide (8 ≤ x.runTs2 ∧ 16 ≤ x.runSent) | _ => true
    if bitOf lanes p.val && bitOf Q.attempt p.val && ok then m + 2 ^ p.val else m) 0

/-- R374 TRAIN_STEP_PASS: the lanes named have passed the running step, which ends once every lane of the attempt has. -/
def execTrainStepPass (q : Fin 3) (lanes : BitVec 4) (s : State) : Host.Outcome State Fault Refusal :=
  let Q := quadAt s q
  let m := metStep Q lanes.toNat
  .next (whenB (decide (Q.st = .train ∧ m ≠ 0)) s (stepIfDone (modQuad s q (fun Q => { Q with passed := Q.passed ||| m })) q))

/-- R374 TRAIN_STEP_TIMEOUT: the lanes that have not passed in time leave, those named among them; the step ends for the rest. -/
def execTrainStepTimeout (q : Fin 3) (lanes : BitVec 4) (s : State) : Host.Outcome State Fault Refusal :=
  let Q := quadAt s q
  .next (whenB (decide (Q.st = .train)) s (endStep s q (Q.attempt &&& Q.passed &&& (15 - lanes.toNat))))

/-- R376 DOWN_RETRY: one attempt of a DOWN quad. -/
def execDownRetry (q : Fin 3) (s : State) : Host.Outcome State Fault Refusal :=
  .next (whenB (decide ((quadAt s q).st = .down)) s (modQuad (toDetect s q) q (fun Q => { Q with fromDown := true })))

/-! ### Losses -/

/-- R376, R379: loss of signal on a lane; after EIOS it is idle and no fault. -/
def laneLosSt (q : Fin 3) (p : Fin 4) (s : State) : State :=
  let Q := quadAt s q
  if (vget Q.lanes p).idleRx then s
  else
    let s1 := modQuad s q (fun Q => modLane Q p (fun x => { x with los := true, symLock := false, runAny := 0, runAck := 0, runTs2 := 0 }))
    if Q.st = .train ∧ bitOf Q.attempt p.val then
      let left := bitsPut Q.attempt p.val p.val 0
      if left = 0 then failAttempt s1 q else stepIfDone (modQuad s1 q (fun Q => { Q with attempt := left })) q
    else s1

/-- R376 LANE_LOS. -/
def execLaneLos (q : Fin 3) (p : Fin 4) (s : State) : Host.Outcome State Fault Refusal := .next (laneLosSt q p s)

/-- R376 LOS_DETECT_RETURN: a lane without signal for 1 ms returns to DETECT and joins the next attempt. -/
def execLosDetectReturn (q : Fin 3) (p : Fin 4) (s : State) : Host.Outcome State Fault Refusal :=
  .next (whenB (vget (quadAt s q).lanes p).los s
    (modQuad s q (fun Q => modLane Q p (fun x => { freshLane x with los := false }))))

/-- R377: a detector trips in ACTIVE: 0 LOS, 1 CDR lock, 2 symbol lock, 3 alignment, 4 symbol errors. The link starts a
new attempt at BLIND. -/
def linkFaultSt (q : Fin 3) (cause : Fin 8) (s : State) : State :=
  let Q := quadAt s q
  let idle := decide (cause = 0) && (List.finRange 4).any (fun p => bitOf Q.inUse p.val && (vget Q.lanes p).idleRx)
  if Q.st = .active ∧ cause.val < 5 ∧ idle = false then toBlind (bump s (slQCountRetrains q.val)) q else s

/-- R377 LINK_FAULT_DETECT. -/
def execLinkFaultDetect (q : Fin 3) (cause : Fin 8) (s : State) : Host.Outcome State Fault Refusal :=
  .next (linkFaultSt q cause s)

/-- R366, R367 ORDERED_SET_INSERT: a SKP set on every lane, and every 16th time an ALIGN set; also in BLIND (R373). -/
def execOrderedSetInsert (q : Fin 3) (s : State) : Host.Outcome State Fault Refusal :=
  let Q := quadAt s q
  .next (whenB (decide (Q.st = .active ∨ Q.st = .blind)) s (modQuad s q (fun Q =>
    { sendSet Q (if Q.sets = 15 then .align else .skp) with
      sets := (Q.sets + 1) % 16, alignSeq := if Q.sets = 15 then (Q.alignSeq + 1) % 256 else Q.alignSeq })))

/-- R379: IDLE, after 4 EIOS sets on the lanes that carried the link. -/
def toIdle (s : State) (q : Fin 3) : State :=
  modQuad (leaveActive s q) q (fun Q =>
    let run := decide (Q.st = .active ∨ Q.st = .blind ∨ Q.st = .train)
    sleepLanes { Q with st := .idle, attempt := 0, step := 0, lanes := Q.lanes.map (fun x => { freshLane x with fx := 0 }), rateWait := false }
      (if run then Q.inUse else 0))

/-- R379, R380: a quad in IDLE for standby wakes to BLIND, each lane with FX_COUNT FX sets first. -/
def wakeQuad (s : State) (q : Fin 3) : State :=
  match quadCfg s q with
  | none => s
  | some c =>
    if (quadAt s q).st = .idle then
      modQuad (toBlind s q) q (fun Q => { Q with lanes := Vector.ofFn (fun p : Fin 4 => let x := vget Q.lanes p
        if bitOf (if Q.st = .blind then Q.inUse else Q.attempt) p.val then { x with fx := c.fxCount } else x) })
    else s

/-- R380 IDLE_WAKE: the partner's FX burst wakes a quad that standby sent to IDLE. -/
def execIdleWake (q : Fin 3) (s : State) : Host.Outcome State Fault Refusal :=
  .next (whenB (inStandby s) s (wakeQuad s q))

/-- R379 EIOS_RECEIVED: the loss of signal that follows is idle; it ends a loopback for the partner (R383). -/
def execEiosReceived (q : Fin 3) (p : Fin 4) (s : State) : Host.Outcome State Fault Refusal :=
  let s1 := modQuad s q (fun Q => modLane Q p (fun x => { x with idleRx := true }))
  .next (if (quadAt s q).st = .test ∧ (quadAt s q).partnerFe = true then toDetect s1 q else s1)

/-- R383 FE_LOOPBACK_EXIT. -/
def execFeLoopbackExit (q : Fin 3) (s : State) : Host.Outcome State Fault Refusal :=
  .next (whenB (decide ((quadAt s q).st = .test) && (quadAt s q).partnerFe) s (toDetect s q))

/-! ### Resets and changes of setting -/

/-- R384, R386, R399, R411: a LINK reset. -/
def linkResetSt (q : Fin 3) (s : State) : State :=
  match quadCfg s q with
  | none => s
  | some _ =>
    let s1 := modQuad (toDetect s q) q (fun Q => { Q with fails := 0, fromDown := false, capRate := false, below := none, rateWait := false })
    let s2 := setF (setF s1 (slQCountRetrains q.val) 0) (slQCountNarrowings q.val) 0
    let s3 := (List.range 4).foldl (fun s p => setF (setF s (slLnErrCount (4 * q.val + p)) 0) (slLnPrbsCount (4 * q.val + p)) 0) s2
    [lkRxBadCount, lkNorouteCount, lkTtlDropCount, lkDupCount, lkRefusedCount, lkFeatStaleCount].foldl (fun s f => setF s (f q.val) 0) s3

/-- R384 LINK_RESET. -/
def execLinkReset (q : Fin 3) (s : State) : Host.Outcome State Fault Refusal := .next (linkResetSt q s)

/-- R373, R385: the settings of the plan; the quad goes to DETECT. -/
def startQuad (s : State) (q : Fin 3) : State :=
  match quadCfg s q with
  | none => s
  | some c =>
    toDetect (modQuad s q (fun Q =>
      { Q with rate := c.rateMax, width := c.widthMax, inUse := widthMask c.widthMax, reversed := false, fails := 0, fromDown := false,
               kept := { rate := c.rateMax, width := c.widthMax, inUse := widthMask c.widthMax, reversed := false },
               below := none, capRate := false, rateWait := false,
               lanes := Q.lanes.map (fun x => { x with preset := c.preset, storedPreset := c.preset, polInv := false, storedPol := false }) })) q

/-- R384: a WARM reset: training state cleared, every quad at DETECT on its stored settings. -/
def warmQuads (s : State) : State :=
  (List.finRange 3).foldl (fun s q => match quadCfg s q with
    | none => s
    | some _ => modQuad (toDetect s q) q (fun Q => { Q with fails := 0, fromDown := false, below := none, rateWait := false })) s

/-- R384: the core PLL has changed reference: every quad that runs starts a new attempt at BLIND. -/
def rebBlind (s : State) : State :=
  (List.finRange 3).foldl (fun s q =>
    if (quadAt s q).st = .active ∨ (quadAt s q).st = .blind ∨ (quadAt s q).st = .train then toBlind s q else s) s

/-- R379, R384, R386: standby entry: the quads of STBY_IDLE go to IDLE; SL_Qq_STATUS.FAILS of each returns to 0. -/
def idleQuads (s : State) : State :=
  (List.finRange 3).foldl (fun s q =>
    let s1 := modQuad s q (fun Q => { Q with fails := 0 })
    match quadCfg s q with
    | none => s1
    | some c => if c.stbyIdle then toIdle s1 q else s1) s

/-- R378, R384: a change of RATE_MAX takes effect: a new attempt at T0, after a running attempt has ended; a quad between attempts
starts its next one there. -/
def rateChanged (s : State) (q : Fin 3) : State :=
  match (quadAt s q).st with
  | .active => newTrain s q
  | .test => s
  | _ => modQuad s q (fun Q => { Q with rateWait := true })

/-- R381, R384: a change of test mode takes effect. The generators start from a history that the spec does not give. -/
def testChanged (s : State) (q : Fin 3) : State :=
  if (quadCfg s q).isNone then s
  else if getF s (slQTestMode q.val) ≠ 0 then
    let (v, s1) := draw s
    modQuad (leaveActive s1 q) q (fun Q =>
      { Q with st := .test, partnerFe := false, attempt := 0, rateWait := false, setPos := 0, stepAt := elapsed s,
               lanes := Q.lanes.map (fun x => { laneStop x with gen := 1 + v % (2 ^ 31 - 1), chk := 0, errs := 2 ^ 64 - 1, prbsLock := false }) })
  else if (quadAt s q).st = .test ∧ (quadAt s q).partnerFe = false then toBlind s q
  else s

end Sys2Proof.Machine
end

