-- ==== Sys2Proof/Machine/Time.lean ====
section
/-! DEFINITION. The timebase (spec R337 to R347): references, discipline, steps, PPS, host time messages, snapshots. -/

namespace Sys2Proof.Machine
open Sys2Proof

/-- R359 TIME_CONFIG. -/
structure TimeCfg where
  source : Nat
  stepNs : Nat
  slewPpm : Nat
  tau : Nat
  ppsDelay : Int
  hostDelay : Nat
  hostHold : Nat
  outOffset : Nat
  /-- Microseconds. -/
  outWidth : Nat
  deriving DecidableEq, Repr

/-- The TIME_CONFIG record; FREE with defaults when absent. -/
def timeCfg (s : State) : TimeCfg :=
  match recOf s 0x1A0 with
  | none => { source := 0, stepNs := 1000, slewPpm := 50, tau := 16, ppsDelay := 0, hostDelay := 0, hostHold := 60,
              outOffset := 0, outWidth := Config.ppsWidth 0 }
  | some p => { source := wAt p 0 1, stepNs := wAt p 1 2, slewPpm := wAt p 3 1, tau := wAt p 4 2, ppsDelay := wAtS p 6 2,
                hostDelay := wAt p 8 2, hostHold := if wAt p 10 1 = 0 then 60 else wAt p 10 1, outOffset := wAt p 11 3,
                outWidth := wAt p 14 2 }

/-- The state with the time island changed. -/
def modTime (s : State) (f : TimeSt → TimeSt) : State := { s with time := f s.time }

/-- R337: INC, in 2^-30 ns. -/
def incOf (s : State) : Nat := getF s tmIncLoInc + getF s tmIncHiInc * 2 ^ 20

/-- Writes INC. -/
def setInc (s : State) (v : Nat) : State := setF (setF s tmIncLoInc v) tmIncHiInc (v / 2 ^ 20)

/-- A rational rounded half to even. -/
def ratRound (q : Rat) : Int := roundEven q.num q.den

/-- A rational limited to ±m. -/
def ratClamp (m q : Rat) : Rat := if q < -m then -m else if m < q then m else q

/-- R341: the rate correction y applies: INC = round(2.5·(1 + y)·2^30). -/
def applyRate (s : State) (y : Rat) : State :=
  setInc (modTime s (fun t => { t with y := y })) (ratRound ((5 : Rat) / 2 * (1 + y) * (2 ^ 30 : Nat))).toNat

/-- R345: device time has crossed a whole second plus the offset not pulsed yet: PPS_OUT rises. -/
def ppsOut (s : State) : State :=
  let c := timeCfg s
  let k := (stampNow s - c.outOffset * nsU) / secU
  if s.time.ppsDone < k then modTime s (fun t =>
    { t with ppsDone := k, ppsPulses := t.ppsPulses + 1, ppsHighTo := elapsed s + c.outWidth * usU })
  else s

/-- R342, R358, R345, R8: device time moves by a signed amount in 2^-20 ns, never below zero nor past its range; schedules move with it. `late` for a
TIME_ADJUST whose time has passed. -/
def stepTime (s : State) (amount : Int) (late : Bool) : State :=
  let now' := min (timeTop : Int) (max 0 ((s.now : Int) + amount * 1024))
  let d := (now' - (s.now : Int)) / 1024
  let mv (t : Nat) : Nat := ((t : Int) + d).toNat
  let s1 := { s with now := now'.toNat }
  let s2 := (List.finRange 2).foldl (fun s l => modProbe s l (fun P =>
    { P with origin := P.origin.map mv,
             slotOrigin := P.slotOrigin.map (fun o => if o = P.origin then o.map mv else o), slewAt := mv P.slewAt, shift := P.shift + d, cmds := P.cmds.map (fun c => { c with time := mv c.time }),
             settleTo := mv P.settleTo })) s1
  let s3 := (List.finRange 9).foldl (fun s c =>
    let ch := vget s.time.ch c
    let s1 := if ch.pending.isSome then bump s (tdOrphanStartCount c.val) else s
    let ch1 := { ch with pending := none, stepped := some (elapsed s), lastEdge := ch.lastEdge.map mv, from_ := mv ch.from_,
                         until_ := mv ch.until_ }
    modTime s1 (fun t => { t with ch := vset t.ch c ch1 })) s2
  let s4 := modTime s3 (fun t =>
    { t with lastStep := stampNow s1, ppsPrev := t.ppsPrev.map mv, lastTrack := t.lastTrack.map mv,
             ppsDone := min t.ppsDone ((stampNow s1 - (timeCfg s).outOffset * nsU) / secU),
             gateAt := t.gateAt.map mv, shots := t.shots.map (fun x => x.map (fun y => (mv y.1, y.2))) })
  let s5 := bump (setF (ppsOut s4) tmStatusStepped 1) tmCountsSteps
  let us := clampI (-524288) 524287 (d / ((usU : Nat) : Int))
  logEvent s5 0x025 2 1 (b2n late) (fieldOf 20 us)

/-- R341: a measurement: e in 2^-20 ns, t_m in s. -/
def measure (s : State) (e : Int) (tm : Rat) : State :=
  let c := timeCfg s
  let ph := fieldOf 40 (satS 40 e)
  let good := decide (e.natAbs ≤ 100 * nsU)
  let s1 := modTime (setF (setF s tmPhaseLoE ph) tmPhaseHiE (ph / 2 ^ 20)) (fun t =>
    { t with holdover := false, good := if good then min 8 (t.good + 1) else 0 })
  if c.stepNs * nsU < e.natAbs then stepTime s1 (-e) false
  else
    let es : Rat := mkRat e (secU)
    let tau : Rat := (max c.tau 1 : Nat)
    let yi := s.time.yInt - es * tm / (tau * tau)
    let lim : Rat := mkRat c.slewPpm 1000000
    applyRate (modTime s1 (fun t => { t with yInt := yi })) (ratClamp lim (yi - 2 * es / tau))

/-- R341 DISCIPLINE_MEASUREMENT: a measurement from the time source, t_m in ms; under FREE none occurs. -/
def execDisciplineMeasurement (e : Int) (tm : Nat) (s : State) : Host.Outcome State Fault Refusal :=
  .next (whenB (decide ((timeCfg s).source ≠ 0)) s (measure s e (mkRat tm 1000)))

/-- R343: holdover: y = y_int and no further correction. -/
def enterHoldover (s : State) : State :=
  if s.time.holdover then s
  else applyRate (modTime s (fun t => { t with holdover := true, good := 0 })) s.time.yInt

/-- R340, R343: the time source as a plan starts: under PPS without PPS_IN device time is in holdover; under HOST the wait for TRACK
messages begins. -/
def startSource (s : State) : State :=
  let s1 := modTime s (fun t => { t with trackAt := elapsed s })
  if (timeCfg s).source = 2 ∧ s.time.ppsPresent = false then enterHoldover s1 else s1

/-! ### References -/

/-- R338: the reference of highest preference that is usable; 3 where none is. -/
def refBest (s : State) : Nat :=
  if s.time.trefPresent then 0 else if s.keeper.refPresent then 1 else if s.keeper.altPresent then 2 else 3

/-- R338: the time PLL switches to the best reference: the measured frequency difference, which no operand gives, is a
free value added to y_int; the change is recorded. -/
def switchRef (s : State) : State :=
  let r := refBest s
  if r = s.time.freqRef then s
  else
    let (v, s1) := draw s
    let d : Rat := mkRat (signedOf 40 v) (2 ^ 40)
    let s2 := modTime s1 (fun t => { t with freqRef := r, yInt := t.yInt + d })
    let s3 := if (timeCfg s).source = 0 then s2 else applyRate s2 (s2.time.y + d)
    logEvent s3 0x024 2 0 0 r

/-! ### Output pulses and snapshots -/

/-- R345 PPS_OUT_PULSE: device time has crossed a whole second plus the offset. -/
def execPpsOutPulse (s : State) : Host.Outcome State Fault Refusal :=
  .next (ppsOut s)

/-- R346 TIME_SNAPSHOT: a 110-bit value into TM_SNAP; the spec names no value for SRC 3. -/
def snapSt (src : Fin 4) (s : State) : State :=
  let (v, s1) := draw s
  let x := match src.val with
    | 0 => time110 (stampNow s)
    | 1 => time110 s.time.ppsLast
    | 2 => time110 s.time.lastStep
    | _ => v % 2 ^ 110
  (List.range 6).foldl (fun s k => setF s (tmSnapTime k) (x / 2 ^ (20 * k))) s1

/-- R346 TIME_SNAPSHOT. -/
def execTimeSnapshot (src : Fin 4) (s : State) : Host.Outcome State Fault Refusal := .next (snapSt src s)

/-- R347 TIME_ADJUST: a step whose time has come. -/
def adjustSt (s : State) : State :=
  match s.time.adjusts.find? (fun a => decide (a.1 ≤ stampNow s)) with
  | none => s
  | some a => stepTime (modTime s (fun t => { t with adjusts := t.adjusts.erase a })) a.2 false

/-- R347 TIME_ADJUST. -/
def execTimeAdjust (s : State) : Host.Outcome State Fault Refusal := .next (adjustSt s)

/-- R347, R359: a TIME_ADJUST record at its fence: held for T_a, or at once when T_a has passed. -/
def adjustRecord (s : State) (p : List Word) : State :=
  let ta := wAt p 0 6 * secU + wAt p 6 3 * nsU
  let amount := wAtS p 9 2 * ((secU : Nat) : Int) + ((wAt p 11 3 * nsU : Nat) : Int)
  if ta < stampNow s then stepTime (setF s tmStatusAdjLate 1) amount true
  else modTime s (fun t => { t with adjusts := t.adjusts ++ [(ta, amount)] })

/-! ### Host messages -/

/-- R344: t_a lies within ±1 µs of the arrival. -/
def arrival (s : State) : Nat × State :=
  let (v, s1) := draw s
  (stampNow s + v % (2 * usU + 1) - usU, s1)

/-- R344: TIME_ECHO: sequence, t_a, status. -/
def timeEcho (s : State) (src tag seq ta status : Nat) : State :=
  (sendRouted s (ownFrame s (ftypeOf 1 9) src tag
    ([BitVec.ofNat 10 seq] ++ timeWords ta ++ [BitVec.ofNat 10 status]))).1

/-- R67: class c is permitted. -/
def permits (s : State) (c : Nat) : Bool := match recOf s 2 with | none => false | some p => bitOf (wAt p 0 2) c

/-- R344: a message is answered; an accepted one is counted and acts with its arrival stamp. -/
def hostMsg (s : State) (src tag seq : Nat) (ok : Bool) (act : Nat → State → State) : State :=
  let (ta, s1) := arrival s
  if s.keeper.warm then timeEcho s1 src tag seq ta 2
  else if ok && permits s 9 then timeEcho (act ta (bump s1 tmCountsHostMsgs)) src tag seq ta 0
  else timeEcho s1 src tag seq ta 1

/-- R344 TIME_SET. -/
def timeSetSt (src tag seq t : Nat) (s : State) : State :=
  let c := timeCfg s
  hostMsg s src tag seq (decide (c.source = 0 ∨ c.source = 1)) (fun ta s =>
    stepTime s (((t + c.hostDelay * nsU : Nat) : Int) - ta) false)

/-- R344 TIME_SET. -/
def execTimeSet (src tag seq t : Nat) (s : State) : Host.Outcome State Fault Refusal := .next (timeSetSt src tag seq t s)

/-- R344 TIME_TRACK. -/
def timeTrackSt (src tag seq t : Nat) (s : State) : State :=
  let c := timeCfg s
  hostMsg s src tag seq (decide (c.source = 1)) (fun ta s =>
    let tm : Rat := match s.time.lastTrack with | none => 0 | some p => mkRat ((ta : Int) - p) secU
    measure (modTime s (fun t => { t with lastTrack := some ta, trackAt := elapsed s })) ((ta : Int) - ((t + c.hostDelay * nsU : Nat) : Int)) tm)

/-- R344 TIME_TRACK. -/
def execTimeTrack (src tag seq t : Nat) (s : State) : Host.Outcome State Fault Refusal :=
  .next (timeTrackSt src tag seq t s)

/-- R344 TIME_PPS_LABEL. -/
def timeLabelSt (src tag seq seconds : Nat) (s : State) : State :=
  hostMsg s src tag seq (decide ((timeCfg s).source = 2)) (fun _ s => modTime s (fun t => { t with label := some seconds }))

/-- R344 TIME_PPS_LABEL. -/
def execTimePpsLabel (src tag seq seconds : Nat) (s : State) : Host.Outcome State Fault Refusal :=
  .next (timeLabelSt src tag seq seconds s)

/-- R343 HOST_HOLDOVER: no TRACK message for HOST_HOLD seconds. -/
def execHostHoldover (s : State) : Host.Outcome State Fault Refusal :=
  let c := timeCfg s
  .next (whenB (decide (c.source = 1) && decide (s.time.trackAt + c.hostHold * secU ≤ elapsed s)) s
    (enterHoldover s))

/-- R343 PPS_LOSS: no edge within 1.1 s of the last accepted one, whose instant (ppsPrev while PPS_IN is present) moves with a time
step, so that the 1.1 s are time elapsed. -/
def execPpsLoss (s : State) : Host.Outcome State Fault Refusal :=
  let s1 := modTime s (fun t => { t with ppsPresent := false, ppsRun := 0, ppsPrev := none })
  .next (whenB (s.time.ppsPresent && s.time.ppsPrev.all (fun p => decide (p + 11 * secU / 10 ≤ stampNow s))) s
    (if (timeCfg s).source = 2 then enterHoldover s1 else s1))

end Sys2Proof.Machine
end

