-- ==== Sys2Proof/Machine/Tdc.lean ====
section
/-! DEFINITION. The interval measurement channels (spec R348 to R358): stamping, gates, queues, pairing, code-density
calibration, launch monitoring, and the PPS edges channel 8 stamps. -/

namespace Sys2Proof.Machine
open Sys2Proof

/-- R359 TDC_CHANNEL. -/
structure TdcCfg where
  source : Nat
  edge : Nat
  interval : Bool
  gateMode : Nat
  armNs : Nat
  pairWin : Nat
  dest : Nat
  flushUs : Nat
  deriving DecidableEq, Repr

/-- A channel's record; channel 8 always takes PPS_IN, raw, rising, always armed. -/
def tdcCfg (s : State) (c : Fin 9) : Option TdcCfg :=
  if c.val = 8 then
    some { source := 3, edge := 0, interval := false, gateMode := 0, armNs := 0, pairWin := 0, dest := 0, flushUs := 1 }
  else (recBy s 0x1A1 c.val).map (fun p =>
    { source := wAt p 1 1, edge := wAt p 2 1, interval := decide (wAt p 3 1 = 1), gateMode := wAt p 4 1, armNs := wAt p 5 2,
      pairWin := wAt p 7 2, dest := wAt p 11 1, flushUs := wAt p 12 2 })

/-- R357 LAUNCH_MONITOR: the line and window of a channel in monitor mode. -/
def monitorOf (s : State) (c : Fin 9) : Option (Fin 2 × Nat) :=
  (List.finRange 2).findSome? (fun l => (recBy s 0x1A3 l.val).bind (fun p =>
    if wAt p 1 1 = c.val then some (l, wAt p 2 2) else none))

/-- R359 TDC_CAL: TRIG_K in mK, CAL_PERIOD in s, EXTERNAL mask, CHI_MAX. -/
def tdcCalCfg (s : State) : Int × Nat × Nat × Nat :=
  match recOf s 0x1A2 with
  | none => (2000, 3600, 0, 64)
  | some p => (((if wAt p 0 1 = 0 then 20 else wAt p 0 1 : Nat) : Int) * 100, wAt p 1 2, wAt p 3 1,
               if wAt p 4 1 = 0 then 64 else wAt p 4 1)

/-- The state with one channel changed. -/
def modTdc (s : State) (c : Fin 9) (f : TdcCh → TdcCh) : State := modTime s (fun t => { t with ch := vmod t.ch c f })

/-- R349: w[j] of a channel. -/
def binWidth (s : State) (c : Fin 9) (j : Nat) : Nat :=
  match (vget s.time.ch c).table with | some w => lget 0 w j | none => Config.tdcTrim c.val j

/-- R349: F(f). -/
def binCentre (s : State) (c : Fin 9) (f : Nat) : Nat :=
  sumN ((List.range f).map (binWidth s c)) + binWidth s c f / 2

/-- R349: the stamp of an edge: coarse phase q and vernier code f against the present tick. -/
def edgeStamp (s : State) (c : Fin 9) (q f : Nat) : Nat :=
  ((stampNow s : Int) + roundEven ((q * incOf s : Nat) : Int) (4 * 1024) + (binCentre s c f : Nat)
    + getFS s (tdChOffsetOffset c.val) * 1024).toNat

/-- The gate of a channel: TDC_GATE[g] serves channels 2g and 2g + 1. -/
def gateOf (c : Fin 9) : Fin 4 := ⟨c.val / 2 % 4, Nat.mod_lt _ (by decide)⟩

/-- R350: an edge of this stamp finds the channel armed; none where the edge may be accepted or ignored. -/
def armedFor (s : State) (c : Fin 9) (k : TdcCfg) (t : Nat) : Option Bool :=
  let g := gateOf c
  let at_ := vget s.time.gateAt g
  let lvl := s.time.gates.getLsbD g.val
  let ch := vget s.time.ch c
  let slack := 5 * nsU / 2
  match k.gateMode with
  | 0 => some true
  | 1 => if t < at_ then some (!lvl) else if t < at_ + slack then none else some lvl
  | 2 => if t < ch.from_ then some false
         else if t < ch.from_ + slack then none
         else if t < ch.until_ then some true
         else if t < ch.until_ + slack then none else some false
  | _ => some ch.soft

/-- R349 STALE: no accepted calibration yet, or one runs. -/
def tdcStale (ch : TdcCh) : Bool := ch.uncal || ch.cal.isSome

/-- R351 STEP: an edge that came at this elapsed time is the first after a step. -/
def stepMark (ch : TdcCh) (came : Nat) : Bool := match ch.stepped with | none => false | some t => decide (t ≤ came)

/-- R351: an entry, of an edge that came at an elapsed time, into a channel's queue of 512, in stamp order; a full queue discards
it. -/
def enqueue (s : State) (c : Fin 9) (stamp : Nat) (value : Int) (flags came : Nat) : State :=
  let ch := vget s.time.ch c
  if 512 ≤ ch.q.length then
    setF (bump (modTdc s c (fun x => { x with lost := true })) (tdQdropCount c.val)) (tdChStatusLost c.val) 1
  else
    let f := flags + 2 * b2n (tdcStale ch) + 4 * b2n ch.lost + 16 * b2n (stepMark ch came) + 32 * b2n s.time.holdover
      + 128 * b2n ch.dead
    let e : TdcEntry := { stamp := stamp, value := value, flags := f, at_ := elapsed s }
    modTdc s c (fun x => { x with lost := false, stepped := if stepMark ch came then none else x.stepped, dead := false,
                                  q := x.q.takeWhile (fun y => decide (y.stamp ≤ stamp)) ++ [e]
                                    ++ x.q.dropWhile (fun y => decide (y.stamp ≤ stamp)) })

/-- R351: the 16 words of an entry. -/
def entryWords (e : TdcEntry) : List Word := timeWords e.stamp ++ wordsOf 4 (fieldOf 40 e.value) ++ [BitVec.ofNat 10 e.flags]

/-- R351: the link of STREAM_DEST. -/
def tdcLink (k : TdcCfg) : Option (Fin 3) := match k.dest with | 1 => some 0 | 2 => some 1 | 3 => some 2 | _ => none

/-- R351: a TDC frame of the oldest entries, at most 32, where the link can carry it. -/
def sendTdc (s : State) (c : Fin 9) : State :=
  match (tdcCfg s c).bind tdcLink with
  | none => s
  | some l =>
    let ch := vget s.time.ch c
    let es := ch.q.take 32
    if es.isEmpty || !(linkHas s l 12) then s
    else
      let pay := [BitVec.ofNat 10 c.val, BitVec.ofNat 10 es.length] ++ wordsOf 2 ch.seq ++ (es.map entryWords).flatten
      let (s1, ok) := sendOn s l (ownFrame s (ftypeOf 2 4) hostAddr 0 pay)
      if ok then modTdc s1 c (fun x => { x with q := x.q.drop 32, seq := (x.seq + 1) % 2 ^ 20 }) else s1

/-- R351: a frame is sent once 32 entries wait. -/
def sendIfFull (s : State) (c : Fin 9) : State := if 32 ≤ (vget s.time.ch c).q.length then sendTdc s c else s

/-- R357: an accepted edge of a channel in monitor mode pairs with the latest lit schedule point in its window. -/
def monitorEdge (s : State) (c : Fin 9) (l : Fin 2) (win t edge : Nat) : State :=
  match (vget s.time.shots l).find? (fun x => decide (x.1 ≤ t)) with
  | none => bump s (tdOrphanStopCount c.val)
  | some x =>
    if t ≤ x.1 + win * nsU then
      let v : Int := (t : Int) - x.1
      let s1 := enqueue s c t v (edge + 64) (elapsed s)
      let s2 := modTdc s1 c (fun ch => { ch with mon := (v :: ch.mon).take 64, misses := 0, monLogged := false })
      sendIfFull (modTime s2 (fun z => { z with shots := vmod z.shots l (fun ys =>
        ys.map (fun y => if y.1 = x.1 then (y.1, true) else y)) })) c
    else bump s (tdOrphanStopCount c.val)

/-- The even channel of a pair. -/
def evenOf (c : Fin 9) : Fin 9 := ⟨c.val / 2 * 2, by have := c.isLt; omega⟩

/-- R352: the channel gives starts or stops of an interval pair. -/
def inInterval (s : State) (c : Fin 9) : Bool :=
  decide (c.val < 8) && (match tdcCfg s (evenOf c) with | none => false | some k => k.interval)

/-- R348, R353: an edge is lost: in the dead time of an accepted edge, or of a hit that an INTERNAL calibration injects. -/
def edgeLost (s : State) (c : Fin 9) (t : Nat) : Bool × State :=
  let ch := vget s.time.ch c
  let (_, _, ext, _) := tdcCalCfg s
  let lose (s : State) (f : Fld) : Bool × State := (true, bump (modTdc s c (fun x => { x with dead := true })) f)
  if (match ch.lastEdge with | none => false | some p => decide (p ≤ t ∧ t < p + 8 * nsU)) then lose s (tdDeadCount c.val)
  else
    let (v, s1) := if ch.cal.isSome && !(bitOf ext c.val) then draw s else (0, s)
    if v % 2 = 1 then lose s1 (tdCalLossCount c.val) else (false, s1)

/-- R353: the hits of an EXTERNAL calibration, and their number N. -/
def calHits : Nat := 262144

/-- R353: an accepted edge of a channel that calibrates from its own edges is one hit more, up to N. -/
def noteHit (ext : Nat) (c : Fin 9) (f : Nat) (ch : TdcCh) : TdcCh :=
  match ch.cal with
  | none => ch
  | some k => if bitOf ext c.val ∧ sumN k.hist < calHits then
      { ch with cal := some { k with hist := (List.range 256).map (fun i => lget 0 k.hist i + b2n (decide (i = f % 256))) } } else ch

/-- R349 to R353, R357: an accepted edge: queue, pairing or monitoring. -/
def takeEdge (s : State) (c : Fin 9) (falling : Bool) (f t : Nat) : State :=
  let (_, _, ext, _) := tdcCalCfg s
  let s2 := modTdc s c (fun x => noteHit ext c f { x with lastEdge := some t })
  match monitorOf s c with
  | some (l, win) => monitorEdge s2 c l win t (b2n falling)
  | none =>
    if inInterval s c then
      modTdc s2 (evenOf c) (fun x => { x with hold := x.hold ++
        [{ stamp := t, stop := decide (c.val % 2 = 1), f := f, flags := b2n falling, at_ := elapsed s }] })
    else sendIfFull (enqueue s2 c t 0 (b2n falling) (elapsed s)) c

/-- R348 to R353: an edge of an armed channel. -/
def acceptEdge (s : State) (c : Fin 9) (falling : Bool) (f t : Nat) : State :=
  let (lost, s1) := edgeLost s c t
  if lost then s1 else takeEdge s1 c falling f t

/-- R343: what an edge of PPS_IN does for presence and discipline. -/
def ppsStamp (s : State) (t : Nat) : State :=
  let c := timeCfg s
  let T := s.time
  match T.ppsPrev with
  | none => modTime s (fun x => { x with ppsPrev := some t, ppsRun := 0 })
  | some p =>
    let off := ((t : Int) - p - ((secU : Nat) : Int)).natAbs
    if off ≤ 10 * usU then
      let s1 := modTime s (fun x =>
        { x with ppsPrev := some t, ppsRun := min 4 (x.ppsRun + 1), ppsLast := t, label := none,
                 ppsPresent := x.ppsPresent || decide (4 ≤ x.ppsRun + 1) })
      if s1.time.ppsPresent ∧ c.source = 2 then
        let edge : Int := (t : Int) - c.ppsDelay * ((nsU : Nat) : Int)
        let sec : Int := match T.label with
          | some n => (n : Int)
          | none => (2 * edge + ((secU : Nat) : Int)) / (2 * ((secU : Nat) : Int))
        measure s1 (edge - sec * ((secU : Nat) : Int)) 1
      else s1
    else
      bump (modTime s (fun x => if x.ppsPresent then x else { x with ppsPrev := some t, ppsRun := 0 })) tmPpsBadCount

/-- R343, R348: a rising edge of PPS_IN on channel 8. -/
def ppsEdgeSt (q f : Nat) (s : State) : State :=
  if s.time.freqRef = 3 then s
  else
    let t := edgeStamp s 8 q f
    let (lost, s1) := edgeLost s 8 t
    if lost then s1 else ppsStamp (takeEdge s1 8 false f t) t

/-- R343 PPS_EDGE. -/
def execPpsEdge (q f : Nat) (s : State) : Host.Outcome State Fault Refusal := .next (ppsEdgeSt q f s)

/-- R348, R349: an edge at a channel's input; one on an unarmed or undefined channel is ignored. -/
def tdcEdgeSt (c : Fin 9) (falling : Bool) (q f : Nat) (s : State) : State :=
  if s.time.freqRef = 3 then s
  else if c.val = 8 then (if falling then s else ppsEdgeSt q f s)
  else
    match tdcCfg s c with
    | none => s
    | some k =>
      if (k.edge = 0 ∧ falling = true) ∨ (k.edge = 1 ∧ falling = false) then s
      else
        let t := edgeStamp s c q f
        match armedFor s c k t with
        | some true => acceptEdge s c falling f t
        | some false => s
        | none =>
          let (v, s1) := draw s
          if v % 2 = 1 then acceptEdge s1 c falling f t else s1

/-- R349 TDC_EDGE. -/
def execTdcEdge (ch : Fin 9) (falling : Bool) (q f : Nat) (s : State) : Host.Outcome State Fault Refusal :=
  .next (tdcEdgeSt ch falling q f s)

/-! ### Gates -/

/-- R350: TDC_GATE[g] changes; a rise starts or restarts the window of a WINDOW channel. -/
def gateSt (g : Fin 4) (level : Bool) (s : State) : State :=
  if s.time.gates.getLsbD g.val = level then s
  else
    let now := stampNow s
    let s1 := modTime s (fun t => { t with gates := if level then t.gates ||| (1#4 <<< g.val) else t.gates &&& ~~~(1#4 <<< g.val),
                                           gateAt := vset t.gateAt g now })
    if !level then s1
    else (List.finRange 9).foldl (fun s c =>
      if c.val < 8 ∧ gateOf c = g then
        match tdcCfg s c with
        | none => s
        | some k => if k.gateMode = 2 then modTdc s c (fun x =>
            { x with win := true, from_ := if x.win && decide (now < x.until_) then x.from_ else now, until_ := now + k.armNs * nsU })
          else s
      else s) s1

/-- R350 TDC_GATE_CHANGE. -/
def execTdcGateChange (g : Fin 4) (level : Bool) (s : State) : Host.Outcome State Fault Refusal := .next (gateSt g level s)

/-- R350 TDC_WINDOW_END: ARM_NS after the rise the window's channels disarm. -/
def execTdcWindowEnd (g : Fin 4) (s : State) : Host.Outcome State Fault Refusal :=
  .next ((List.finRange 9).foldl (fun s c =>
    if c.val < 8 ∧ gateOf c = g ∧ (vget s.time.ch c).until_ ≤ stampNow s then modTdc s c (fun x => { x with win := false })
    else s) s)

/-- R350: software arming of a GATE_MODE 3 channel. -/
def softArm (c : Fin 9) (on : Bool) (s : State) : State :=
  match tdcCfg s c with
  | none => s
  | some k => if k.gateMode = 3 then modTdc s c (fun x => { x with soft := on }) else s

/-- R350 TDC_ARM. -/
def execTdcArm (ch : Fin 9) (s : State) : Host.Outcome State Fault Refusal := .next (softArm ch true s)

/-- R350 TDC_DISARM. -/
def execTdcDisarm (ch : Fin 9) (s : State) : Host.Outcome State Fault Refusal := .next (softArm ch false s)

/-! ### Queues -/

/-- R351: the oldest entry into TD_CHn_ENTRY, or zeros. -/
def tdcPopSt (c : Fin 9) (s : State) : State :=
  let ch := vget s.time.ch c
  let streaming := ((tdcCfg s c).bind tdcLink).isSome
  let e := if streaming then none else ch.q.head?
  let v := match e with | none => 0 | some e => wordsVal (entryWords e)
  let s1 := (List.range 8).foldl (fun s k => setF s (tdChEntryWords c.val k) (v / 2 ^ (20 * k))) s
  if e.isSome then modTdc s1 c (fun x => { x with q := x.q.drop 1 }) else s1

/-- R351 TDC_POP. -/
def execTdcPop (ch : Fin 9) (s : State) : Host.Outcome State Fault Refusal := .next (tdcPopSt ch s)

/-- R351 TDC_FLUSH_TIMER: FLUSH_US after the oldest waiting entry arrived. -/
def execTdcFlushTimer (ch : Fin 9) (s : State) : Host.Outcome State Fault Refusal :=
  .next (whenB (match tdcCfg s ch, (vget s.time.ch ch).q.map (fun e => e.at_) with
    | some k, a :: as => decide (as.foldl min a + k.flushUs * usU ≤ elapsed s)
    | _, _ => false) s (sendTdc s ch))

/-! ### Pairing -/

/-- A pair's channels, even and odd. -/
def pairEven (g : Fin 4) : Fin 9 := ⟨2 * g.val, by have := g.isLt; omega⟩
def pairOdd (g : Fin 4) : Fin 9 := ⟨2 * g.val + 1, by have := g.isLt; omega⟩

/-- R352: an interval entry; the flags of both channels' losses go with it. -/
def pairEntry (s : State) (g : Fin 4) (ts : Nat) (v : Int) (flags came : Nat) : State :=
  let odd := vget s.time.ch (pairOdd g)
  let s1 := modTdc (modTdc s (pairOdd g) (fun x => { x with dead := false })) (pairEven g) (fun x =>
    { x with dead := x.dead || odd.dead })
  let s2 := enqueue s1 (pairEven g) ts v (flags + 2 * b2n (tdcStale odd && !(tdcStale (vget s1.time.ch (pairEven g))))) came
  sendIfFull s2 (pairEven g)

/-- R352: one held edge, the earliest, with the edges still held after it. -/
def pairOne (g : Fin 4) (win : Nat) (e : TdcHeld) (rest : List TdcHeld) (s : State) : State × List TdcHeld :=
  let c := pairEven g
  let expire (s : State) : State := match (vget s.time.ch c).pending with
    | none => s
    | some p => if p.stamp + win * nsU < e.stamp then
        bump (modTdc s c (fun x => { x with pending := none })) (tdOrphanStartCount c.val) else s
  let s := expire s
  let w := binWidth s (pairOdd g) e.f
  match (vget s.time.ch c).pending with
  | some p =>
    if e.stop = false then
      (bump (modTdc s c (fun x => { x with pending := some e })) (tdOrphanStartCount c.val), rest)
    else if p.stamp + w ≤ e.stamp then
      (pairEntry (modTdc s c (fun x => { x with pending := none })) g p.stamp ((e.stamp : Int) - p.stamp) p.flags p.at_, rest)
    else if p.stamp < e.stamp + w then
      (bump (pairEntry (modTdc s c (fun x => { x with pending := none })) g p.stamp 0 (p.flags + 8) p.at_) (tdCoincCount c.val), rest)
    else (bump s (tdOrphanStopCount c.val), rest)
  | none =>
    if e.stop = false then (modTdc s c (fun x => { x with pending := some e }), rest)
    else
      match rest.find? (fun h => !h.stop && decide (h.stamp < e.stamp + w)) with
      | some h => (bump (pairEntry s g h.stamp 0 (h.flags + 8) h.at_) (tdCoincCount c.val), rest.erase h)
      | none => (bump s (tdOrphanStopCount c.val), rest)

/-- R352: the held edges whose 20 ns hold has ended at an elapsed time, in stamp order. -/
def pairRun (g : Fin 4) (win limit : Nat) : Nat → List TdcHeld → State → State
  | 0, es, s => modTdc s (pairEven g) (fun x => { x with hold := es })
  | _ + 1, [], s => modTdc s (pairEven g) (fun x => { x with hold := [] })
  | n + 1, e :: es, s =>
    if limit < e.at_ + 20 * nsU then modTdc s (pairEven g) (fun x => { x with hold := e :: es })
    else
      let (s1, rest) := pairOne g win e es s
      pairRun g win limit n rest s1

/-- R352: the order of stamps; a start before a stop of the same stamp. -/
def heldLe (a b : TdcHeld) : Bool := decide (a.stamp < b.stamp) || (decide (a.stamp = b.stamp) && (!a.stop || b.stop))

/-- R352 TDC_PAIR_HOLD_END. -/
def pairHoldSt (g : Fin 4) (s : State) : State :=
  match tdcCfg s (pairEven g) with
  | none => s
  | some k =>
    let es := (vget s.time.ch (pairEven g)).hold.mergeSort heldLe
    pairRun g k.pairWin (elapsed s) es.length es s

/-- R352 TDC_PAIR_HOLD_END. -/
def execTdcPairHoldEnd (pair : Fin 4) (s : State) : Host.Outcome State Fault Refusal := .next (pairHoldSt pair s)

/-- R352 TDC_PAIR_WINDOW_EXPIRY: a start has been pending for PAIR_WIN. -/
def execTdcPairWindowExpiry (pair : Fin 4) (s : State) : Host.Outcome State Fault Refusal :=
  .next (match tdcCfg s (pairEven pair), (vget s.time.ch (pairEven pair)).pending with
    | some k, some p => whenB (decide (p.at_ + k.pairWin * nsU ≤ elapsed s)) s
        (bump (modTdc s (pairEven pair) (fun x => { x with pending := none })) (tdOrphanStartCount (pairEven pair).val))
    | _, _ => s)

/-! ### Code-density calibration -/

/-- R356: a calibration of a channel starts, unless one runs. -/
def startTdcCal (s : State) (c : Fin 9) : State :=
  if (vget s.time.ch c).cal.isSome || decide (s.time.freqRef = 3) then s
  else modTdc s c (fun x => { x with cal := some { die := s.time.die.getD 0, at_ := elapsed s, hist := [] }, retryAt := none })

/-- R355: a calibration fails with a code. -/
def failTdcCal (s : State) (c : Fin 9) (code : Nat) : State :=
  if (vget s.time.ch c).cal.isSome then
    let s1 := modTdc s c (fun x => { x with cal := none, retryAt := some (elapsed s + 10 * secU) })
    let s2 := setF (setF s1 tdCalfailFail (getF s1 tdCalfailFail ||| 2 ^ c.val)) tdCalfailCode code
    logEvent (bump s2 (tdCalRejectCount c.val)) 0x026 2 1 0 (c.val + 16 * code)
  else s

/-- R356: the die has moved beyond TRIG_K from the last accepted calibration. -/
def tdcDieMoved (s : State) (c : Fin 9) : Bool :=
  match s.time.die with
  | none => false
  | some v => decide ((tdcCalCfg s).1 < ((v - (vget s.time.ch c).calTemp).natAbs : Int))

/-- R356: CAL_PERIOD has passed since the last accepted calibration. -/
def tdcPeriodOver (s : State) (c : Fin 9) : Bool :=
  let p := (tdcCalCfg s).2.1
  decide (p ≠ 0) && decide ((vget s.time.ch c).calAt + p * secU ≤ elapsed s)

/-- R354: the test of a histogram against trim, and the share of hits in narrow bins. -/
def histOk (s : State) (c : Fin 9) (h : List Nat) : Bool :=
  let chi := (tdcCalCfg s).2.2.2
  let fs := List.range 256
  let x : Rat := fs.foldl (fun (a : Rat) f =>
    let w := Config.tdcTrim c.val f
    if 40 ≤ w then a + mkRat ((((5 * lget 0 h f : Nat) : Int) - ((2 * w : Nat) : Int)) ^ 2) (10 * w) else a) 0
  let narrow := sumN (fs.map (fun f => if 40 ≤ Config.tdcTrim c.val f then 0 else lget 0 h f))
  decide (x ≤ ((chi * 256 : Nat) : Rat)) && decide (narrow ≤ 4096)

/-- R354: the table of a histogram: widths, the difference from 655,360 in the widest entry. -/
def tableOf (h : List Nat) : List Nat :=
  let ws := (List.range 256).map (fun f => (roundEven ((5 * lget 0 h f : Nat) : Int) 2).toNat)
  let top := (ws.zipIdx.foldl (fun b x => if b.1 < x.1 then x else b) (lget 0 ws 0, 0)).2
  let d : Int := 655360 - ((sumN ws : Nat) : Int)
  ws.zipIdx.map (fun x => if x.2 = top then ((x.1 : Int) + d).toNat else x.1)

/-- R353: the histogram of a channel's calibration: its own edges under EXTERNAL, else the injected hits given. -/
def calHist (s : State) (c : Fin 9) (k : TdcCal) (h : List Nat) : List Nat :=
  if bitOf (tdcCalCfg s).2.2.1 c.val then k.hist else h

/-- R354: N hits are collected; with fewer nothing is judged yet. -/
def tdcCalDoneSt (c : Fin 9) (given : List Nat) (s : State) : State :=
  match (vget s.time.ch c).cal with
  | none => s
  | some k =>
    let h := calHist s c k given
    if sumN (h.take 256) ≠ calHits then s
    else if histOk s c h then
      modTdc s c (fun x => { x with table := some (tableOf h), uncal := false, cal := none, retryAt := none,
                                    calAt := elapsed s, calTemp := k.die })
    else failTdcCal s c 1

/-- R354 TDC_CAL_COMPLETE. -/
def execTdcCalComplete (ch : Fin 9) (hist : List Nat) (s : State) : Host.Outcome State Fault Refusal :=
  .next (tdcCalDoneSt ch hist s)

/-- R355 TDC_CAL_TIMEOUT: an EXTERNAL source has not given N hits in 60 s. -/
def execTdcCalTimeout (ch : Fin 9) (s : State) : Host.Outcome State Fault Refusal :=
  .next (whenB (bitOf (tdcCalCfg s).2.2.1 ch.val && (match (vget s.time.ch ch).cal with
    | none => false | some k => decide (k.at_ + 60 * secU ≤ elapsed s))) s (failTdcCal s ch 2))

/-- R355 TDC_CAL_RETRY: 10 s after a failure, while the trigger still holds. -/
def execTdcCalRetry (ch : Fin 9) (s : State) : Host.Outcome State Fault Refusal :=
  .next (whenB (match (vget s.time.ch ch).retryAt with | none => false | some t => decide (t ≤ elapsed s)) s
    (if (vget s.time.ch ch).uncal || tdcDieMoved s ch || tdcPeriodOver s ch then startTdcCal s ch
     else modTdc s ch (fun x => { x with retryAt := none })))

/-- R356 TDC_CAL_PERIOD. -/
def execTdcCalPeriod (ch : Fin 9) (s : State) : Host.Outcome State Fault Refusal :=
  .next (whenB (tdcPeriodOver s ch && !(vget s.time.ch ch).uncal && (vget s.time.ch ch).retryAt.isNone) s (startTdcCal s ch))

/-- R356 TDC_CAL. -/
def execTdcCal (ch : Fin 9) (s : State) : Host.Outcome State Fault Refusal := .next (startTdcCal s ch)

/-- R356: at POR and COLD reset every channel calibrates. -/
def startAllCals (s : State) : State := (List.finRange 9).foldl startTdcCal s

/-- R356, R332: a die reading of the time island. While a failed calibration waits for its retry the reading starts none (R355; log
entry 148). -/
def tdcDie (s : State) (mk : Int) : State :=
  let s1 := modTime s (fun t => { t with die := some mk })
  (List.finRange 9).foldl (fun s c => if tdcDieMoved s c && (vget s.time.ch c).retryAt.isNone then startTdcCal s c else s) s1

/-- R357 MON_WINDOW_EXPIRY: the oldest launch of a line whose window has ended. -/
def monExpirySt (l : Fin 2) (s : State) : State :=
  match (List.finRange 9).findSome? (fun c => (monitorOf s c).bind (fun m => if m.1 = l then some (c, m.2) else none)),
        (vget s.time.shots l).getLast? with
  | some (c, win), some x =>
    if x.1 + win * nsU ≤ stampNow s then
      let s1 := modTime s (fun t => { t with shots := vmod t.shots l List.dropLast })
      if x.2 then s1
      else
        let ch := vget s1.time.ch c
        let s2 := bump (modTdc s1 c (fun x => { x with misses := x.misses + 1 })) (tdMonMissCount c.val)
        if 8 ≤ ch.misses + 1 ∧ ch.monLogged = false then
          logEvent (modTdc s2 c (fun x => { x with monLogged := true })) 0x027 2 1 l.val c.val
        else s2
    else s
  | _, _ => s

/-- R357 MON_WINDOW_EXPIRY. -/
def execMonWindowExpiry (line : Fin 2) (s : State) : Host.Outcome State Fault Refusal := .next (monExpirySt line s)

/-! ### References -/

/-- R358: a change of frequency reference aborts the calibrations, which restart at once. -/
def restartCals (s : State) : State :=
  (List.finRange 9).foldl (fun s c => if (vget s.time.ch c).cal.isSome then startTdcCal (failTdcCal s c 3) c else s) s

/-- R338, R339: the time island takes the best reference; with none it runs from the always-on oscillator, and the TDC
stops. -/
def timeRefs (s : State) : State :=
  let s1 := switchRef s
  if s1.time.freqRef = s.time.freqRef then s1
  else if s1.time.freqRef = 3 then
    { ((List.finRange 9).foldl (fun s c => failTdcCal s c 3) s1) with hk := { s1.hk with notchFree := true } }
  else restartCals s1

/-- R338 TREF_PRESENT: 1,000 edges of TREF_IN within ±100 ppm. -/
def execTrefPresent (is100 : Bool) (s : State) : Host.Outcome State Fault Refusal :=
  .next (timeRefs (modTime s (fun t => { t with trefPresent := true, tref100 := is100 })))

/-- R338 TREF_LOSS. -/
def execTrefLoss (s : State) : Host.Outcome State Fault Refusal :=
  .next (timeRefs (modTime s (fun t => { t with trefPresent := false })))

/-- R339 TIME_NO_CLOCK: no reference is usable. -/
def execTimeNoClock (s : State) : Host.Outcome State Fault Refusal := .next (whenB (decide (refBest s = 3)) s (timeRefs s))

/-- R339 TIME_RELOCK: a reference has returned and is locked. -/
def execTimeRelock (s : State) : Host.Outcome State Fault Refusal := .next (whenB (decide (refBest s ≠ 3)) s (timeRefs s))

/-- R358: a WARM reset clears queues, pending starts, the pairing hold and frames; running calibrations restart. -/
def tdcWarm (s : State) : State :=
  restartCals ((List.finRange 9).foldl (fun s c => modTdc s c (fun x => { x with q := [], hold := [], pending := none })) s)

end Sys2Proof.Machine
end

