-- ==== Sys2Proof/Machine/Resets.lean ====
section
/-! DEFINITION. Resets, standby, and the sample clock and its references (spec R437 to R452). -/

namespace Sys2Proof.Machine
open Sys2Proof

/-! ### Registers over a reset -/

/-- The line a register belongs to: CV, PS and PC by block, DA, DS and RM by half, TR by traverse, ST by stream. -/
def regLine (s : State) (a : Nat) : Option Nat :=
  let b := a / 1024
  if 0x004 ≤ b ∧ b ≤ 0x009 then some (b % 2)
  else if 0x00A ≤ b ∧ b ≤ 0x00C then some (a % 1024 / 16)
  else if 0x010 ≤ b ∧ b ≤ 0x017 then planLine s (b - 0x010)
  else if 0x020 ≤ b ∧ b ≤ 0x02F then (streamAt s ((a - 0x8000) / 64)).map (fun c => c.line)
  else none

/-- The Kept over columns: the fields a reset keeps stay, the others take their reset value. -/
def keepRegs (kept : RegRow → Bool) (sel : Nat → Bool) (s : State) : State :=
  { s with regs := tabMap (fun a => BitVec.ofNat 20 (regReset a)) (fun a v =>
      if sel a then
        let m := BitVec.ofNat 20 (regMask kept a)
        (v &&& m) ||| (BitVec.ofNat 20 (regReset a) &&& ~~~m)
      else v) s.regs }

/-! ### What several events do to a line and its traverses -/

/-- R222, R243: the traverses of a line lose their passes and requests, and their event counts start anew. -/
def stopLineTravs (s : State) (l : Nat) : State :=
  (lineTravs s l).foldl (fun s t =>
    dropOpen (modTrav s t (fun T =>
      { T with fg := [], bg := [], work := none, run := .idle, kern := none, rep := none, hookSeq := [], heldNext := [], gang := false })) t) s

/-- R229: the kernel windows of a line's traverses are zeroed. -/
def zeroLine (s : State) (l : Nat) : State := (lineTravs s l).foldl zeroWindow s

/-- R13, R250: TR_STATUS.AOV and KSUSP of a line's traverses take their Reset value. -/
def clearSticky (s : State) (l : Nat) : State :=
  (lineTravs s l).foldl (fun s t => modTrav s t (fun T => { mapLanes T (fun _ L => { L with aov := false }) with susp := [] })) s

/-- R13, R360: TD_CHn_STATUS.LOST takes its Reset value. -/
def clearLost (s : State) : State := (List.finRange 9).foldl (fun s c => modTdc s c (fun x => { x with lost := false })) s

/-- R441: the line's sequencer, pipelines, channeliser and PCE are emptied; DAS, streams, Raman averaging and spectral
accumulation restart. -/
def emptyLine (s : State) (l : Fin 2) : State :=
  let s1 := modProbe s l (fun P => 
    { P with cmds := [], launches := [], emits := [], ramanTrigs := [], newOrigins := [], rephPend := false, breakRun := [], noBreakRun := 0 })
  let s2 := sweepRestart (pceLineReset s1 l) l
  let s3 := dasRestart (zeroLine (stopLineTravs s2 l.val) l.val) l.val (fun _ => true)
  ramanRestart s3 l

/-- R441: the steps of a LINE reset, which the relock of the SCS shares. -/
def lineResetWork (s : State) (l : Fin 2) : State :=
  let s1 := disarmForEvent s l
  let s2 := raiseSettling (closeWindow (emptyLine s1 l) l) l
  clearTimers (staleLine (restartLineStreams s2 l.val false) l 2) l

/-- R441, R442: a LINE reset. The fields it returns to their Reset value are those of the line's own registers, and of the
interval measurement's, whose Kept over column lacks L; what R445 keeps over it stays. The urgent queue is emptied (R334). -/
def lineResetSt (l : Fin 2) (s : State) : State :=
  let s1 := clearLost (clearSticky (convStop (lineResetWork s l) l true) l.val)
  let s2 := bump s1 (if l = 0 then bmPowerLine0Resets else bmPowerLine1Resets)
  let s3 := keepRegs (fun r => r.keptL) (fun a => decide (regLine s a = some l.val ∨ a / 1024 = 0x003)) s2
  let s4 := modHk s3 (fun h => { h with urgent := [] })
  proxyAck { s4 with keeper := { s4.keeper with lineReset := s4.keeper.lineReset ||| BitVec.ofNat 2 (2 ^ l.val) } }

/-- R441: the LINE reset ends: queued inputs are calibrated, the schedule takes a new origin, the line is armed again. -/
def lineResetDoneSt (l : Fin 2) (s : State) : State :=
  if s.keeper.lineReset.getLsbD l.val then
    let s1 := { s with keeper := { s.keeper with lineReset := s.keeper.lineReset &&& ~~~(BitVec.ofNat 2 (2 ^ l.val)) } }
    rearmLines (restartSchedule (remeasure (resumeCal s1 l) l) l)
  else s

/-- R441 LINE_RESET_DONE. -/
def execLineResetDone (line : Fin 2) (s : State) : Host.Outcome State Fault Refusal := .next (lineResetDoneSt line s)

/-! ### COLD reset and POR -/

/-- R503: a flash operation that a POR stops leaves its 64 KB sector undefined. -/
def stopFlash (m : MgmtSt) (draw : Nat) : Tab Byte :=
  match m.flashOp with
  | none => m.flash
  | some op =>
    let a := match op with | .program a _ => a | .erase a => a
    let base := a / 65536 * 65536
    (List.range 65536).foldl (fun t i => tabSet 0xFF#8 t (base + i) (BitVec.ofNat 8 (Config.freeNat (draw + i)))) m.flash

/-- R437, R438: a COLD reset or POR: the whole device but OTP, flash, and the levels of its input pins. -/
def coldState (s : State) (kind cause : Nat) : State :=
  let r := State.reset
  let por := decide (kind = 0)
  let mg := { MgmtSt.zero with
    flash := if por then stopFlash s.mgmt s.freeCtr else s.mgmt.flash, flashOp := if por then none else s.mgmt.flashOp }
  { r with
    keeper := { Keeper.zero with
      pwrgood := s.keeper.pwrgood, resetN := s.keeper.resetN, otp := s.keeper.otp, vendorHash := s.keeper.vendorHash, resetKind := kind, resetCause := cause,
      refPresent := s.keeper.refPresent, altPresent := s.keeper.altPresent },
    probe := Vector.ofFn (fun l : Fin 2 => { Probe.zero with ilkLow := (vget s.probe l).ilkLow }),
    time := { TimeSt.zero with
      gates := s.time.gates, trefPresent := s.time.trefPresent, tref100 := s.time.tref100, freqRef := refBest s },
    zn := { ZnSt.zero with selected := s.zn.selected, addr := s.zn.addr },
    mgmt := mg, freeCtr := s.freeCtr + (if por then 65536 else 0), pending := s.pending }

/-- R437: a COLD reset. -/
def coldReset (s : State) (cause : Nat) : State := coldState s 1 cause

/-- R484: a POR. -/
def porReset (s : State) : State := coldState s 0 0

/-- R484 POWER_ON_RESET. -/
def execPowerOnReset (s : State) : Host.Outcome State Fault Refusal := .next (porReset s)

/-- R483 PWRGOOD_FALL: a POR, which holds while PWRGOOD is low. -/
def execPwrgoodFall (s : State) : Host.Outcome State Fault Refusal :=
  .next (porReset { s with keeper := { s.keeper with pwrgood := false } })

/-- R482 PWRGOOD_RISE: the POR is released. -/
def execPwrgoodRise (s : State) : Host.Outcome State Fault Refusal :=
  .next { s with keeper := { s.keeper with pwrgood := true } }

/-- R438 RESET_N_LOW: a COLD reset; while PWRGOOD is low the POR governs (R503). -/
def execResetNLow (s : State) : Host.Outcome State Fault Refusal :=
  let s1 := { s with keeper := { s.keeper with resetN := false } }
  .next (if s.keeper.pwrgood then coldReset s1 1 else s1)

/-- R58 RESET_N_RISE: the keeper core starts in ROM at BOOT_PHASE 0. -/
def execResetNRise (s : State) : Host.Outcome State Fault Refusal :=
  .next { s with keeper := { s.keeper with resetN := true, riseAt := elapsed s } }

/-- R438 KEEPER_SRAM_ERROR. -/
def execKeeperSramError (s : State) : Host.Outcome State Fault Refusal := .next (coldReset s 10)

/-! ### WARM reset -/

/-- R454: ESCALATE and NO_ALT. -/
def resetPolicy (s : State) : Nat × Bool :=
  match planRec s 0x220 with
  | none => (3, false)
  | some p => (if wAt p 0 1 = 0 then 3 else wAt p 0 1, bitOf (wAt p 1 1) 0)

/-- R445: what a WARM reset does to the traverses. DESIGN CHOICE (log entry 130): a clock change under way (R23) is dropped:
TR_CLOCK.APPLIED keeps the old value and STEPS the new one. -/
def warmTrav (T : Trav) : Trav :=
  { Trav.zero with oos := T.oos, params := T.params, lastSw := T.lastSw, waitP := some 0, waitB := some 0 }

/-- R409: the link queues are emptied, held timed frames counted; level runs end. -/
def warmLinks (s : State) : State :=
  let s1 := bumpBy s lkTimedLostCount s.net.timed.length
  { s1 with net := { s1.net with
      links := s1.net.links.map (fun L => { L with prio := [], mgmt := [], bulk := [], fwd := [], low := none, high := none }), timed := [], level := none } }

/-- R440: what a WARM reset leaves of the state once the work under way has stopped. -/
def warmKeep (now cause : Nat) (s7 : State) : State :=
  keepRegs (fun r => r.keptW) (fun _ => true) { s7 with
    trav := s7.trav.map warmTrav, hk := { s7.hk with urgent := [] },
    mem := { s7.mem with ch := s7.mem.ch.map (fun c => { c with training := false, step := 0, colls := 0, again := false }),
                         blackout := none, waiting := none, freeze := none, uePend := none, selfRefresh := true },
    fu := { s7.fu with retry := [] },
    book := { s7.book with resetReq := none, standbyReq := none },
    mgmt := { s7.mgmt with snap := none },
    keeper := { s7.keeper with
      resetKind := 2, resetCause := cause, warm := true, mbx := [], lineReset := 0, transit := 0, exitStep := 0,
      warmTimes := s7.keeper.warmTimes ++ [now],
      boot := { s7.keeper.boot with planFence := false, tested := 0 } } }

/-- R440, R445: a WARM reset: the field cores halt, both lines are disarmed, and the management island, the traverses,
the stream filter units and the link protocol restart. -/
def warmReset (s : State) (cause : Nat) : State :=
  let s1 := (List.finRange 2).foldl (fun s l => modProbe (disarmForEvent s l) l (fun P => { P with rephPend := false })) s
  let s2 := (List.finRange 2).foldl (fun s l => closeWindow (convStop s l true) l) s1
  let s3 := (List.finRange 2).foldl (fun s l => ramanRestart (dasRestart (clearAct s l.val (fun _ => true)) l.val (fun _ => true)) l) s2
  let s4 := (List.finRange 2).foldl (fun s l => sweepRestart (pceStop s l) l) s3
  let s5 := forEach (allStreams s4) s4 (fun s c => restartStream s c true)
  let s6 := (List.finRange 2).foldl (fun s l => clearTimers (staleLine s l 2) l) s5
  let s7 := ringWarm (warmQuads (warmLinks (clearLost (tdcWarm s6))))
  proxyAck (warmKeep (stampNow s) cause s7)

/-- R439: the WARM resets of the last 600 s of device time. -/
def recentWarm (s : State) : List Nat := s.keeper.warmTimes.filter (fun t => decide (stampNow s < t + 600 * secU))

/-- R439: a WARM cause: a WARM reset, or a COLD reset with cause 9 where the count already equals ESCALATE. -/
def warmCause (s : State) (cause : Nat) : State :=
  let s1 := { s with keeper := { s.keeper with warmTimes := recentWarm s } }
  if (resetPolicy s).1 ≤ s1.keeper.warmTimes.length then coldReset s1 9 else warmReset s1 cause

/-- The keeper changed. -/
def modKeeper (s : State) (f : Keeper → Keeper) : State := { s with keeper := f s.keeper }

/-- R61: the SHA-384 of the Fieldbook copy and of the amended plan's copy in DRAM. -/
def fieldDigest (s : State) : Nat := shaWords s.book.fieldCopy
def planDigest (s : State) : Nat := shaWords (planWords s.book.amended)

/-- R43, R61: RECORD_HASH: Benchmark computes the SHA-384 of the region itself: of the amended plan's records, or of
Fieldbook's copy in DRAM, which is refused after BOOT_COMPLETE. -/
def recordHashSt (amendedPlan : Bool) (s : State) : State :=
  if amendedPlan then mbxAnswer (modKeeper s (fun k => { k with hashPlan := some (planDigest s) })) 8 mbxGranted 0
  else if s.keeper.boot.complete then mbxAnswer s 8 mbxRefusedState 0
  else mbxAnswer (modKeeper s (fun k => { k with hashField := some (fieldDigest s) })) 8 mbxGranted 0

/-- R61: the two digests equal the recorded ones. DESIGN CHOICE (log entry 131): a hash that has not been recorded yet counts
as a mismatch. -/
def hashesMatch (s : State) : Bool :=
  decide (s.keeper.hashField = some (fieldDigest s) ∧ s.keeper.hashPlan = some (planDigest s))

/-- R61: WARM_HASH_FAIL with the region that differs, and a COLD reset; the entry stands in the emptied log (log entry
31). DESIGN CHOICE (log entry 131): where both differ it names region 0, Fieldbook. -/
def hashFail (s : State) : State :=
  let which := if s.keeper.hashField = some (fieldDigest s) then 1 else 0
  logEvent (coldReset s 8) 0x011 islBenchmark 2 0 which

/-- R440, R61, R448: Benchmark recomputes and compares the hashes: the field cores are released into stage 1 at BOOT_PHASE 4
with DRAM out of self-refresh; in standby the engine stays there. -/
def warmHashSt (s : State) : State :=
  if s.keeper.warm && decide (bootPhase s < 4) then
    if hashesMatch s then
      if inStandby s then setF { s with keeper := { s.keeper with warm := false } } bmStateBootPhase 11
      else setF { s with mem := { s.mem with selfRefresh := false } } bmStateBootPhase 4
    else hashFail s
  else s

/-- R61 WARM_HASH_CHECK. -/
def execWarmHashCheck (s : State) : Host.Outcome State Fault Refusal := .next (warmHashSt s)

/-! ### The watchdog -/

/-- R44: the field cores run. -/
def coresRun (s : State) : Bool :=
  let p := bootPhase s
  decide (3 ≤ p ∧ p ≠ 15) && (!s.keeper.warm || decide (4 ≤ p))

/-- R44: a heartbeat period ends without a heartbeat; the third in a row issues a WARM reset. -/
def watchdogSt (s : State) : State :=
  if coresRun s then
    let m := getF s bmWdogMissed
    if m < 2 then setF s bmWdogMissed (m + 1)
    else
      let s1 := bump s bmWdogWdogResets
      warmCause (logEvent s1 0x012 islBenchmark 2 0 (getF s1 bmWdogWdogResets)) 4
  else s

/-- R44 WATCHDOG_PERIOD_EXPIRY. -/
def execWatchdogPeriodExpiry (s : State) : Host.Outcome State Fault Refusal := .next (watchdogSt s)

/-! ### RESET requests -/

/-- R43: REFUSED_SEQUENCE. -/
def mbxRefusedSequence : Nat := 4

/-- R455: the cause of a reset that Fieldbook requests: 2 for a host's RESET_CMD, else 3. -/
def askCause (host : Bool) : Nat := if host then 2 else 3

/-- R442: RESET WARM. -/
def mbxWarmSt (host : Bool) (s : State) : State :=
  if bootPhase s = 15 then mbxAnswer s 5 mbxRefusedState 0 else warmCause (mbxAnswer s 5 mbxGranted 0) (askCause host)

/-- R442: RESET COLD. -/
def mbxColdSt (host : Bool) (s : State) : State := coldReset s (askCause host)

/-- R442: RESET LINE. -/
def mbxLineSt (l : Fin 2) (s : State) : State :=
  if s.keeper.warm then mbxAnswer s 5 mbxRefusedSequence 0
  else if lineActive s l.val && !(inStandby s) then lineResetSt l (mbxAnswer s 5 mbxGranted 0)
  else mbxAnswer s 5 mbxRefusedState 0

/-! ### Standby -/

/-- R311: loops in normal state hold through standby under STBY_ACTION 0. -/
def holdLoops (s : State) : State :=
  (List.finRange 8).foldl (fun s n =>
    if (vget s.zn.loops n).st = .normal ∧ (loopCfg s n.val).stby1 = false then modLoop s n (fun x => { x with st := .hold }) else s) s

/-- R311: loops that held follow their sources again. -/
def unholdLoops (s : State) : State :=
  loopsRefresh ((List.finRange 8).foldl (fun s n =>
    if (vget s.zn.loops n).st = .hold then modLoop s n (fun x => { x with st := .normal }) else s) s)

/-- R446: what standby entry leaves of the state once the work under way has stopped. -/
def standbyKeep (s6 : State) : State :=
  keepRegs (fun r => r.keptS) (fun _ => true) (idleQuads { s6 with
    mem := { s6.mem with ch := s6.mem.ch.map (fun c => { c with training := false, colls := 0, again := c.training || c.again }),
                         blackout := none, waiting := none, setPoint := 2, selfRefresh := true },
    hk := { s6.hk with urgent := [] },
    keeper := { s6.keeper with transit := 0, exitStep := 0, coolSince := none } })

/-- R446: standby entry with its cause, 1 command or 2 THERMAL. -/
def enterStandby (s : State) (cause : Nat) : State :=
  let s1 := (List.finRange 2).foldl disarmForEvent s
  let s2 := (List.finRange 2).foldl (fun s l => modProbe s l (fun P =>
    { P with cmds := [], launches := [], emits := [], ramanTrigs := [], origin := none, slotOrigin := Vector.replicate 16 none, newOrigins := [],
             rephPend := false, needOrigin := false, rephNext := 65535 })) s1
  let s3 := forEach (allStreams s2) s2 (fun s c => restartStream s c true)
  let s4 := setF (setF s3 bmPowerStandby 1) bmPowerStbyCause cause
  let s5 := holdLoops ((List.finRange 2).foldl (fun s l => staleLine s l 3) s4)
  let s6 := (List.finRange 2).foldl (fun s l =>
    clearSticky (stopLineTravs (pceStop (sweepRestart (modConv (closeWindow (convStop s l true) l) l resetSpare) l) l) l.val) l.val) s5
  proxyAck (standbyKeep (clearLost s6))

/-- R442: STANDBY enter. -/
def mbxEnterSt (s : State) : State :=
  if bootPhase s = 11 ∧ s.mem.freeze = none ∧ inStandby s = false then enterStandby (mbxAnswer s 6 mbxGranted 0) 1
  else mbxAnswer s 6 mbxRefusedState 0

/-- R435: the plan's operating set point. -/
def planSetPoint (s : State) : Nat := match planRec s 0x200 with | none => 0 | some p => wAt p 4 1

/-- R124: some input of the line has moved more than 8.0 K from its calibration temperature. -/
def movedFar (s : State) (l : Fin 2) : Bool :=
  let C := vget s.conv l
  let far (mk : Option Int) (i : Nat) : Bool := match mk with
    | none => false | some v => decide (8000 < (v - getFS s (cvCalTempTemp l.val i)).natAbs)
  (List.range 4).any (far (C.die.head?.map (·.2))) || [4, 5].any (far C.dieRaman)

/-- R124: calibration at a standby exit: the full one after a loss of lock or a large move, else priority passes. -/
def exitCal (s : State) (l : Fin 2) : State :=
  if s.keeper.calOwed || movedFar s l then startFullCal s l
  else (List.finRange 4).foldl (fun s i =>
    if (vget s.conv l).fgQueue.contains i.val then s
    else startPass s l i (((vget s.conv l).die.head?.map (·.2)).getD (getFS s (cvCalTempTemp l.val i.val)))) s

/-- R447: a granted exit, at time 0: DRAM out of self-refresh at F2, quads wake, the converters are powered. -/
def startExit (s : State) : State :=
  if s.keeper.transit = 2 then s
  else
    let s1 := { s with keeper := { s.keeper with transit := 2, exitStep := 0 }, mem := { s.mem with selfRefresh := false } }
    let s2 := (List.finRange 3).foldl wakeQuad s1
    let s3 := (List.finRange 2).foldl (fun s l => exitCal (raiseSettling (modConv s l resetSpare) l) l) s2
    { s3 with keeper := { s3.keeper with calOwed := false } }

/-- R442: STANDBY exit. -/
def mbxExitSt (s : State) : State :=
  if inStandby s = false then mbxAnswer s 6 mbxRefusedState 0
  else if getF s bmPowerStbyCause = 2 then mbxRefuse s 6
  else startExit (mbxAnswer s 6 mbxGranted 0)

/-- R449 STANDBY_THERMAL_EXIT: every die reading 10 K below the limit for 60 s. -/
def execStandbyThermalExit (s : State) : Host.Outcome State Fault Refusal :=
  .next (whenB (inStandby s && decide (getF s bmPowerStbyCause = 2) &&
      (match s.keeper.coolSince with | none => false | some t => decide (t + 60 * secU ≤ elapsed s))) s
    (startExit s))

/-- R447: the exit ends: the traverses, DAS, Raman and the schedules start anew and the lines are armed again. -/
def endExit (s : State) : State :=
  let s1 := setF (setF s bmPowerStandby 0) bmPowerStbyCause 0
  let s2 := (List.finRange 2).foldl (fun s l => ramanRestart (dasRestart (zeroLine (stopLineTravs s l.val) l.val) l.val (fun _ => true)) l) s1
  let s3 := (List.finRange 2).foldl (fun s l => if lineActive s l.val then restartSchedule s l else s) s2
  let s4 := (List.finRange 2).foldl resumeCal s3
  rearmLines (unholdLoops { s4 with keeper := { s4.keeper with transit := 0, exitStep := 0, coolSince := none } })

/-- R447: the steps of an exit: the operating set point; the hashes; converters calibrated and sensing. -/
def exitStepSt (s : State) : State :=
  if s.keeper.transit = 2 then
    let s1 := { s with keeper := { s.keeper with exitStep := s.keeper.exitStep + 1 } }
    match s.keeper.exitStep with
    | 0 => evalBudgets { s1 with mem := { s1.mem with
        setPoint := if s1.mem.forced then max s1.mem.setPoint (planSetPoint s1) else planSetPoint s1 } }
    | 1 => if hashesMatch s then s1 else hashFail s
    | _ =>
      if (List.finRange 2).any (fun l => (vget s.conv l).fullCal) then s
      else endExit s1
  else s

/-- R447 STANDBY_EXIT_STEP. -/
def execStandbyExitStep (s : State) : Host.Outcome State Fault Refusal := .next (exitStepSt s)

/-- R443: Fieldbook sends the RESET request of a RESET_CMD whose fence has completed. -/
def resetCmdSt (s : State) : State :=
  match s.book.resetReq with
  | none => s
  | some (kind, line) =>
    let s1 := { s with book := { s.book with resetReq := none } }
    match kind with
    | 0 => mbxWarmSt true s1
    | 1 => mbxColdSt true s1
    | _ => mbxLineSt (if line = 0 then 0 else 1) s1

/-- R443 RESET_CMD. -/
def execResetCmd (s : State) : Host.Outcome State Fault Refusal := .next (resetCmdSt s)

/-- R443: Fieldbook sends the STANDBY request of a STANDBY_CMD whose fence has completed. -/
def standbyCmdSt (s : State) : State :=
  match s.book.standbyReq with
  | none => s
  | some x =>
    let s1 := { s with book := { s.book with standbyReq := none } }
    if x = 0 then mbxEnterSt s1 else mbxExitSt s1

/-- R443 STANDBY_CMD. -/
def execStandbyCmd (s : State) : Host.Outcome State Fault Refusal := .next (standbyCmdSt s)

/-! ### Recovery -/

/-- R57: Benchmark enters recovery: BOOT_PHASE 15, the lasers disarmed, the loops at 3.6 mA. -/
def enterRecovery (s : State) : State :=
  proxyAck (loopsRefresh (setF ((List.finRange 2).foldl disarmForEvent s) bmStateBootPhase 15))

/-! ### Temperature -/

/-- R1: the upper Tj limit of the grade in mK above 0 °C: 100 °C for the TH2512-CB, 105 °C for the TH2512-IB. -/
def tjLimit (s : State) : Int := if Config.trimGrade s.keeper.otp.trim then 105000 else 100000

/-- R449: die readings: above the limit by 5 K standby is forced; the 60 s of the exit run while every reading is 10 K
below it. -/
def thermalCheck (s : State) (readings : List Int) : State :=
  let hot := readings.any (fun v => decide (tjLimit s + 5000 < v))
  let cool := readings.all (fun v => decide (v ≤ tjLimit s - 10000))
  let s1 := { s with keeper := { s.keeper with coolSince := if cool then some (s.keeper.coolSince.getD (elapsed s)) else none } }
  if hot then
    if inStandby s1 && decide (s1.keeper.transit = 0) then setF s1 bmPowerStbyCause 2
    else enterStandby s1 2
  else s1

/-! ### Sample clock and references -/

/-- R452: the SCS loses lock. -/
def lockLoss (s : State) : State :=
  if s.keeper.scsLock then
    let s1 := (List.finRange 2).foldl disarmForEvent s
    let s2 := bump (modKeeper s1 (fun k => { k with scsLock := false, calOwed := k.calOwed || inStandby s1 })) bmClockUnlocks
    let s3 := (List.finRange 2).foldl (fun s l => staleLine (convStop s l false) l 2) s2
    proxyAck s3
  else s

/-- R452 SCS_LOCK_LOSS. -/
def execScsLockLoss (s : State) : Host.Outcome State Fault Refusal := .next (lockLoss s)

/-- R452: the SCS relocks to its reference: each line acts as after a LINE reset, with the full calibration of R124; in
standby that runs at exit. -/
def relockSt (s : State) : State :=
  if s.keeper.scsLock ∨ s.keeper.scsRef = .none_ then s
  else
    let s1 := modKeeper s (fun k => { k with scsLock := true, freqStale := false, scsStopped := false })
    if inStandby s1 then s1
    else (List.finRange 2).foldl (fun s l =>
      let s1 := remeasure (startFullCal (lineResetWork s l) l) l
      if lineActive s1 l.val then restartSchedule s1 l else s1) s1

/-- R452 SCS_RELOCK. -/
def execScsRelock (s : State) : Host.Outcome State Fault Refusal := .next (relockSt s)

/-- R454: REFCLK_ALT is present and may be used. -/
def altUsable (s : State) : Bool := s.keeper.altPresent && !(resetPolicy s).2

/-- R450, R451: REFCLK becomes absent. -/
def refLossSt (s : State) : State :=
  if s.keeper.refPresent then
    let s1 := modKeeper s (fun k => { k with refPresent := false })
    let s2 := if s1.keeper.scsRef = .refclk ∧ s1.keeper.scsLock = true then
        logEvent (modKeeper s1 (fun k => { k with freqStale := true })) 0x02C islBenchmark 2 0 0
      else s1
    let s3 := if s2.keeper.coreRef = .refclk then
        (if altUsable s2 then rebBlind (modKeeper s2 (fun k => { k with coreRef := .alt }))
         else modKeeper s2 (fun k => { k with coreRef := .none_ }))
      else s2
    timeRefs s3
  else s

/-- R450 REFCLK_LOSS. -/
def execRefclkLoss (s : State) : Host.Outcome State Fault Refusal := .next (refLossSt s)

/-- R450: REFCLK still absent after 10 ms: REFCLK_ALT, or the SCS stops; either is a loss of lock. -/
def freerunSt (s : State) : State :=
  if s.keeper.freqStale && !s.keeper.refPresent then
    let alt := altUsable s
    modKeeper (lockLoss s) (fun k => { k with scsRef := if alt then .alt else .none_, scsStopped := !alt })
  else s

/-- R450 SCS_FREERUN_TIMEOUT. -/
def execScsFreerunTimeout (s : State) : Host.Outcome State Fault Refusal := .next (freerunSt s)

/-- R450, R451: REFCLK becomes present: a free-running SCS tracks it, a stopped SCS takes it, and a core PLL in holdover
relocks to it. -/
def refReturnSt (s : State) : State :=
  let s1 := modKeeper s (fun k =>
    { k with refPresent := true, freqStale := k.freqStale && !(k.scsLock && decide (k.scsRef = .refclk)),
             scsRef := if k.scsStopped then .refclk else k.scsRef, scsStopped := false })
  let s2 := if s1.keeper.coreRef = .none_ ∧ s1.keeper.boot.otpRead = true then rebBlind (modKeeper s1 (fun k => { k with coreRef := .refclk })) else s1
  timeRefs s2

/-- R451 REFCLK_RETURN. -/
def execRefclkReturn (s : State) : Host.Outcome State Fault Refusal := .next (refReturnSt s)

/-- R450: REFCLK_ALT becomes present; a stopped SCS takes it while REFCLK is absent. -/
def altPresentSt (s : State) : State :=
  let s1 := modKeeper s (fun k => { k with altPresent := true })
  let s2 := if s1.keeper.scsStopped ∧ altUsable s1 = true then modKeeper s1 (fun k => { k with scsRef := .alt, scsStopped := false }) else s1
  timeRefs s2

/-- R450 REFCLK_ALT_PRESENT. -/
def execRefclkAltPresent (s : State) : Host.Outcome State Fault Refusal := .next (altPresentSt s)

/-- R451: REFCLK_ALT is lost: PLLs that run on it return to REFCLK, or lose lock and hold. -/
def altLossSt (s : State) : State :=
  let s1 := modKeeper s (fun k => { k with altPresent := false })
  let ref := s1.keeper.refPresent
  let s2 := if s1.keeper.scsRef = .alt then
      modKeeper (lockLoss s1) (fun k => { k with scsRef := if ref then .refclk else .none_, scsStopped := !ref })
    else s1
  let s3 := if s2.keeper.coreRef = .alt then
      (if ref then rebBlind (modKeeper s2 (fun k => { k with coreRef := .refclk })) else modKeeper s2 (fun k => { k with coreRef := .none_ }))
    else s2
  timeRefs s3

/-- R451 REFCLK_ALT_LOSS. -/
def execRefclkAltLoss (s : State) : Host.Outcome State Fault Refusal := .next (altLossSt s)

/-- R124, R58, R452: a full foreground calibration ends: BOOT_PHASE 6 at boot, and the lines are armed again after a
relock. -/
def fullFgDoneSt (l : Fin 2) (values : List CalVal) (gains : List Nat) (s : State) : State :=
  if (vget s.conv l).fullCal then
    let s1 := fullCalSt l values gains s
    if (List.finRange 2).any (fun k => (vget s1.conv k).fullCal) then s1
    else if bootPhase s1 = 5 then setF s1 bmStateBootPhase 6
    else if 8 ≤ bootPhase s1 ∧ bootPhase s1 ≤ 11 ∧ inStandby s1 = false then rearmLines s1
    else s1
  else s

/-- R124 FULL_FG_CAL_DONE. -/
def execFullFgCalDone (line : Fin 2) (values : List CalVal) (gains : List Nat) (s : State) :
    Host.Outcome State Fault Refusal := .next (fullFgDoneSt line values gains s)

end Sys2Proof.Machine
end

