-- ==== Sys2Proof/Machine/PlanCheck.lean ====
section
/-! DEFINITION. What each chapter asks of its records (spec R20, R83 to R92, R108, R131, R135, R154, R178, R180, R198,
R200, R203, R219, R244, R249, R257, R258, R274, R275, R299, R301, R316, R327, R335, R359, R385, R410, R435, R454): the
BAD_PAYLOAD checks of plans and amendments, and what a plan requires (R64). -/

namespace Sys2Proof.Machine
open Sys2Proof

/-! ### Probe -/

/-- R85: a waveform's duration in units of 10 ns, rounded up. -/
def waveUnits (c : SlotCfg) : Nat := ceilDiv c.len c.g

/-- R83: the bin groups of two slots share no bin. -/
def binsApart (a b : SlotCfg) : Bool := decide (a.k0 + a.g ≤ b.k0 ∨ b.k0 + b.g ≤ a.k0)

/-- R92: two offsets are equal or at least 400 units apart, cyclically. -/
def offsetsApart (per a b : Nat) : Bool :=
  decide (a = b) || (decide (400 ≤ (a + per - b) % per) && decide (400 ≤ (b + per - a) % per))

/-- R83, R85, R90, R91, R92, R108: a slot and the other slots of its line. -/
def slotOk (s : State) (c : SlotCfg) : Bool :=
  let all := slotsOf s c.line
  let others := all.filter (fun x => decide (x.slot ≠ c.slot))
  let per := tShot s c.line
  [1, 2, 4, 8].contains c.g && decide (c.k0 % c.g = 0) && decide (c.k0 + c.g ≤ 32) && others.all (binsApart c)
    && decide (sumN (all.map (fun x => x.g)) ≤ 32)
    && (decide (c.kind ≠ 1) || (decide (c.fStart.natAbs ≤ 38000 * c.g) && decide (c.fStop.natAbs ≤ 38000 * c.g)))
    && (decide (c.kind = 1 ∨ c.kind = 2) || decide (c.g ≤ c.len))
    && decide (rangeRt s c.line + waveUnits c ≤ per) && decide (rangeRt s c.line * c.g ≤ 262144)
    && decide (c.d < per) && others.all (fun x => offsetsApart per c.d x.d)
    && decide ((all.filter (fun x => x.breakMon)).length ≤ 1) && decide ((all.filter (fun x => x.ramanRef)).length ≤ 1)
    && (match c.kind with
        | 2 => (recBy2 s 0x022 c.line c.slot).isSome
        | 3 => (recBy2 s 0x023 c.line c.slot).isSome
        | _ => true)

/-- R180: the sweep slots of a line and their tables. -/
def sweepOk (s : State) (l : Nat) : Bool :=
  match sweepSlots s l with
  | [] => true
  | c :: t =>
    let das := (slotsOf s l).filter isDas
    let pts := linePoints s l
    let lo := pts.foldl min 63
    t.all (fun x => decide (x.g = c.g ∧ x.d = c.d) && decide ((sweepTable s l x.slot).length = (sweepTable s l c.slot).length))
      && das.all (fun x => decide (x.g = c.g))
      && decide (12 ≤ pts.length ∧ pts.length ≤ 64)
      && (List.range pts.length).all (fun i => pts.contains (lo + i))

/-- R90: a slot's table holds points of its bin group. -/
def tableOk (s : State) (p : List Word) : Bool :=
  match slotAt s (wAt p 0 1) (wAt p 1 1) with
  | none => false
  | some c => decide (c.kind = 3)
      && (sweepTable s c.line c.slot).all (fun n => decide (2 * c.k0 ≤ n ∧ n ≤ 2 * c.k0 + 2 * c.g - 1))
      && sweepOk s c.line

/-- R102: an amendment raises a slot's computed peak or shot energy above the envelope; `b` is the plan before it. -/
def overEnvelope (b s : State) (l k : Nat) : Bool :=
  match (List.finRange 2).find? (fun i => decide (i.val = l)), slotAt s l k with
  | some i, some c =>
    let new := slotLevels s i c
    let old := match slotAt b l k with | none => (0, 0) | some d => slotLevels b i d
    let (pk, en, _) := envLimits s l
    decide (pk < new.1 ∧ old.1 < new.1) || decide (en < new.2 ∧ old.2 < new.2)
  | _, _ => false

/-- R131, R200: 2 µs are left between a capture window's end and the next trigger. -/
def ramanGapOk (s : State) (l : Nat) : Bool :=
  match ramanCfg s l, ramanTrigger s l with
  | some c, some (d, _) => decide ((c.launch + c.n + 640) * 5 ≤ d * tShot s l * 16)
  | _, _ => true

/-- The checks of R108, R135, R154. -/
def probeRecOk (b s : State) (am : Bool) (r : PlanRec) : Bool :=
  let p := r.payload
  let l := wAt p 0 1
  match r.type with
  | 0x020 => (slotsOf s l).all (slotOk s) && decide (rangeRt s l ≤ tShot s l)
  | 0x021 =>
    slotOk s (slotOfPayload p) && (!am || !(overEnvelope b s l (wAt p 1 1)))
  | 0x022 => (match slotAt s l (wAt p 1 1) with | none => false | some c => decide (c.kind = 2 ∧ c.len = wAt p 2 2))
      && (!am || (decide ((recBy2 b 0x022 l (wAt p 1 1)).map (fun q => wAt q 2 2) = some (wAt p 2 2))
                  && !(overEnvelope b s l (wAt p 1 1))))
  | 0x023 => tableOk s p && (!am || decide ((recBy2 b 0x023 l (wAt p 1 1)).map (fun q => wAt q 2 1) = some (wAt p 2 1)))
  | 0x026 => (ramanRefSlot s l).isSome && ramanGapOk s l
  | 0x040 => (recsOf s 0x040).all (fun q => decide (wAt q 1 1 = wAt p 1 1))
  | 0x041 => ramanGapOk s l
  | 0x061 => decide (wAt p 1 1 = 0) || (match breakMonitor s l with
      | none => false
      | some c => decide (wAt p 6 2 * c.g + (wAt p 8 2 + c.len) * 256 ≤ tShot s l * 256 * c.g))
  | _ => true

/-! ### Products -/

/-- R191: the bounds of REDATUM_K and W. -/
def specRecOk (s : State) (p : List Word) : Bool :=
  let l := wAt p 0 1
  match specCfg s l with
  | none => false
  | some c => !(sweepSlots s l).isEmpty && sweepOk s l && decide (c.w + 8 ≤ c.cLine) && decide (1 ≤ c.redatumK)
      && decide (c.redatumK ≤ min c.w (c.cLine - 9))

/-- R198: a segment within the stations, apart from every other one, with Raman where its mode is 2. -/
def segmentOk (s : State) (p : List Word) : Bool :=
  let l := wAt p 0 1
  let a := wAt p 1 2
  let b := wAt p 3 2
  decide (a ≤ b) && decide (b < cohStations s l) && (decide (wAt p 5 1 ≠ 2) || (recBy s 0x0C0 l).isSome)
    && decide (((recsOf s 0x0A1).filter (fun q => decide (wAt q 0 1 = l ∧ wAt q 1 2 ≤ b ∧ a ≤ wAt q 3 2))).length = 1)

/-- R203, R219, R200. -/
def ramanRecOk (s : State) (p : List Word) : Bool :=
  let l := wAt p 0 1
  match ramanCfg s l with
  | none => false
  | some c => decide (c.outCap * 2 ^ c.smooth ≤ (if c.gainNorm then 2 ^ 26 else 2 ^ 30)) && (ramanRefSlot s l).isSome
      && ramanGapOk s l

/-- R219: a coil. -/
def coilRecOk (s : State) (p : List Word) : Bool :=
  let l := wAt p 0 1
  match coilCfg s l with
  | none => false
  | some c =>
    let other := match coilCfg s (1 - l) with | none => [] | some x => [x.a, x.b]
    decide (c.first ≤ c.last) && decide (c.last < ramanStations s l) && decide (c.last - c.first < 1024) && decide (c.a ≠ c.b)
      && !(other.contains c.a) && !(other.contains c.b)
      && (recBy s 0x181 c.a).isSome && (recBy s 0x181 c.b).isSome

/-- The checks of R178, R198, R219. -/
def productRecOk (s : State) (r : PlanRec) : Bool :=
  let p := r.payload
  let l := wAt p 0 1
  match r.type with
  | 0x080 =>
    let das := (slotsOf s l).filter isDas
    das.all (fun x => das.all (fun y => decide (x.g = y.g))) && decide (wAt p 1 2 ≤ laneBlock s l (cohStations s l))
  | 0x0A0 => specRecOk s p
  | 0x0A1 => segmentOk s p
  | 0x0C0 => ramanRecOk s p
  | 0x0C1 => coilRecOk s p
  | 0x0C2 => (recBy s 0x0C0 l).isSome && (recBy s 0x0A0 l).isSome
  | _ => true

/-! ### Kernels -/

/-- R244: instruction `i` of a kernel is legal: it spells an instruction, not a vendor's; a branch goes on within the kernel, and
OUT names the record's product codes (log entry 142). -/
def kernInstrOk (c : KernCfg) (i : Nat) (w : BitVec 40) : Bool :=
  match decodeLane 0 w with
  | none => false
  | some (.br _ _ _ t) => decide (c.start + i < t.val ∧ t.val < c.start + c.len)
  | some (.out _ _ o) => decide (c.codeLo ≤ o.code.val ∧ o.code.val ≤ c.codeHi)
  | some x => !(vendorOnly x)

/-- R243: the lines whose traverses a kernel runs on. -/
def kernLines (s : State) (c : KernCfg) : List Nat := (maskBits 8 c.mask).filterMap (planLine s)

/-- R244, R245, R249: a kernel; its worst-case cycle count is that of its code. -/
def kernelOk (s : State) (p : List Word) : Bool :=
  let c := kernOfPayload p
  let code := kernCode p
  let others := ((recsOf s 0x0E1).map kernOfPayload).filter (fun x => decide (x.k ≠ c.k))
  decide (c.start + c.len ≤ 4096) && decide (c.codeLo ≤ c.codeHi) && decide (c.mask < 256)
    && code.zipIdx.all (fun x => kernInstrOk c x.2 x.1)
    && decide (kernWorst c.start code ≤ c.maxCycles)
    && others.all (fun x => decide (c.mask &&& x.mask = 0 ∨ c.start + c.len ≤ x.start ∨ x.start + x.len ≤ c.start))
    && others.all (fun x => decide (c.codeHi < x.codeLo ∨ x.codeHi < c.codeLo)
        || (kernLines s c).all (fun l => !((kernLines s x).contains l)))

/-- The checks of R249. -/
def travRecOk (s : State) (r : PlanRec) : Bool :=
  let p := r.payload
  match r.type with
  | 0x0E0 => (List.range 8).all (fun t => [0, 1, 1023].contains (wAt p (2 * t) 1))
      && [0, 1].all (fun l => !(lineActive s l) || (List.range 8).any (fun t => decide (wAt p (2 * t) 1 = l)))
  | 0x0E1 => kernelOk s p
  | 0x0E2 => (kernAt s (wAt p 0 1)).isSome && decide (wAt p 2 2 % 16 = 0 ∧ wAt p 4 2 % 16 = 0)
      && (decide (wAt p 6 1 = 0) || decide (15360 ≤ wAt p 2 2 ∧ wAt p 2 2 + wAt p 4 2 ≤ 16384))
  | 0x0E3 => (match kernAt s (wAt p 0 1) with
      | none => false
      | some c => decide (0 < c.nParams ∧ p.length = 1 + c.nParams))
  | _ => true

/-! ### Streams -/

/-- R174, R195, R214, R245: the product is one of the line's, or a custom code. -/
def productKnown (s : State) (l code : Nat) : Bool := (lineProducts s l).contains code || decide (0x040 ≤ code ∧ code ≤ 0x05F)

/-- R174, R195, R214: the bits of a product's value; a custom sample has up to four words. -/
def productWidth (code : Nat) : Nat :=
  if [0x012, 0x014, 0x015, 0x023].contains code then 10
  else if [0x020, 0x032, 0x03A].contains code then 30
  else if [0x013, 0x024, 0x025, 0x031, 0x039].contains code || decide (0x040 ≤ code) then 40
  else 20

/-- R274: a traverse and a stream: the output stations it processes. -/
def outCount (s : State) (c : StreamCfg) (t : Fin 8) : Nat :=
  let (first, k) := travStations s c.line (productStations s c.line c.product) t
  let lo := max c.s0 first
  let hi := min (c.s0 + c.nOut * c.a) (first + k)
  -- output station j starts at S0 + jA; it belongs to the traverse that holds its first station
  if c.a = 0 ∨ hi ≤ lo then 0 else ceilDiv (hi - c.s0) c.a - ceilDiv (lo - c.s0) c.a

/-- R274: detectors defined on a stream. -/
def detCount (s : State) (n : Nat) : Nat := ((recsOf s 0x102).filter (fun q => decide (wAt q 0 1 = n))).length

/-- R274: the filter unit of a traverse carries its streams. -/
def filterUnitOk (s : State) (t : Fin 8) : Bool :=
  let xs := (allStreams s).filterMap (fun c => let n := outCount s c t; if n = 0 then none else some (c, n))
  let state := sumN (xs.map (fun x =>
    64 + x.2 * (4 + 4 * (x.1.wm - 1) + 10 * x.1.order + 2 * (x.1.t - 1) + detCount s x.1.n)))
  let coef := sumN (xs.map (fun x => 2 * x.1.t))
  let cycles : Rat := xs.foldl (fun a x =>
    a + ((x.2 : Nat) : Rat) * productRate s x.1.line x.1.product
      * (((x.1.a + 1 : Nat) : Rat) + ((2 * ceilDiv x.1.t 16 + 1 + detCount s x.1.n : Nat) : Rat) / ((x.1.r * x.1.df : Nat) : Rat))) (0 : Rat)
  decide (state ≤ 2097152) && decide (coef ≤ 16384)
    && decide (cycles * 10 ≤ ((getF s (trClockSteps t.val) * 46875000 * 9 : Nat) : Rat))

/-- R270, R275: the words of the largest frame of a stream: header, samples of its words and at most two flag words. -/
def frameMax (c : StreamCfg) (flags : Nat) : Nat :=
  let w := c.outWords + min 2 flags
  24 + (min c.nOut (c.frameWords / w)) * w

/-- R251, R257, R274, R275: a stream. -/
def streamOk (s : State) (p : List Word) : Bool :=
  let c := streamOfPayload p
  let sub := wAt p 28 1
  productKnown s c.line c.product && decide (c.s0 + c.nOut * c.a ≤ productStations s c.line c.product)
    && [1, 3, 5, 7, 9].contains c.wm && decide (c.rank < c.wm)
    && (decide (c.product ≠ 0x010) || (decide (c.wm = 1 ∧ c.order = 0 ∧ c.t = 0) && !c.mean))
    && decide (productWidth c.product + c.order * ceilLog2 c.r ≤ 50)
    && (!(bitOf sub 5) || decide (frameMax c (bitsOf sub 8 7) ≤ 256))
    && (!(bitOf sub 4) || hasRec s 0x140) && decide (bitsOf sub 8 7 ≤ 2)
    && (streamTravs s c).all (filterUnitOk s)

/-- R258: an amendment's coefficients go to an idle bank that no accepted swap will fade to. -/
def coefBankFree (s : State) (n bank : Nat) : Bool :=
  let x := strm s n
  bankIdle x bank
    && !(s.fu.out.any (fun f => f.recs.any (fun q => decide (q.type = 0x105 ∧ wAt q.payload 0 1 = n ∧ wAt q.payload 1 1 = bank))))
    && !(s.fu.heldRecs.any (fun h => decide (h.body.type = 0x105 ∧ wAt h.body.payload 0 1 = n ∧ wAt h.body.payload 1 1 = bank)))
    && !(isSet s (stSwapReq n) && decide (getF s (stSwapTarget n) = bank))

/-- The checks of R275. -/
def streamRecOk (s : State) (am : Bool) (r : PlanRec) : Bool :=
  let p := r.payload
  let n := wAt p 0 1
  match r.type with
  | 0x100 => streamOk s p
  | 0x101 => (match streamAt s n with
      | none => false
      | some c => decide (0 < c.t ∧ p.length = 2 + 2 * c.t)) && (!am || coefBankFree s n (wAt p 1 1))
  | 0x102 => (streamAt s n).isSome && decide (wAt p 2 1 % 8 ≤ 4 ∧ bitsOf (wAt p 2 1) 8 3 = 0)
      && (match streamAt s n with | none => false | some c => (streamTravs s c).all (filterUnitOk s))
  | 0x103 => (match recBy s 0x100 n with
      | none => false
      | some q => let c := streamOfPayload q; let sub := wAt p 1 1
        decide (sub < 1024 ∧ bitsOf sub 8 7 ≤ 2) && (!(bitOf sub 5) || decide (frameMax c (bitsOf sub 8 7) ≤ 256))
          && (!(bitOf sub 4) || hasRec s 0x140))
  | 0x104 => (streamAt s n).isSome
  | 0x105 => (match streamAt s n with | none => false | some c => decide (0 < c.t))
  | 0x140 => decide (wAt p 2 2 ≤ wAt p 0 2)
  | 0x141 => (match recOf s 0x140 with | none => false | some q => decide (wAt p 0 2 ≤ wAt q 0 2))
  | 0x142 => hasRec s 0x140
  | _ => true

/-! ### Zones, loops, housekeeping -/

/-- R301, R316: a zone. -/
def zoneOk (s : State) (p : List Word) : Bool :=
  let z := zoneOfPayload p
  match streamAt s z.stream with
  | none => false
  | some c => decide (z.first ≤ z.last) && decide (z.last < c.nOut) && decide (z.last - z.first < 4096)
      && (match outTrav s c z.first with
          | none => false
          | some t => decide (outTrav s c z.last = some t)
              && decide (((zonesOf s).filter (fun x => decide (zoneSlice s x = some t))).length ≤ 512))

/-- R327: k × IEX × R_REF from 0.5 to 1.6 V, in µA × mΩ (nanovolts). -/
def rtdExciteOk (s : State) (p : List Word) : Bool :=
  let rref := match recOf s 0x180 with | none => 2000000 | some q => if wAt q 0 3 = 0 then 2000000 else wAt q 0 3
  let iex := lget 50 [50, 100, 250, 500, 1000] (wAt p 6 1)
  let v := (1 + wAt p 1 1) * iex * rref
  decide (500000000 ≤ v ∧ v ≤ 1600000000)

/-- The checks of R316 and R335. -/
def siteRecOk (s : State) (r : PlanRec) : Bool :=
  let p := r.payload
  match r.type with
  | 0x160 => zoneOk s p
  | 0x161 => (zoneCfg s (wAt p 0 2)).isSome
  | 0x163 => (!([1, 3].contains (wAt p 1 1)) || decide (wAtS p 4 4 < wAtS p 8 4))
      && (decide (wAt p 1 1 ≠ 3) || (decide (wAt p 2 2 ≤ 3) && (recBy s 0x181 (wAt p 2 2)).isSome))
  | 0x180 => (recsOf s 0x181).all (rtdExciteOk s)
  | 0x181 => rtdExciteOk s p
  | _ => true

/-! ### Time, links, memory, resets -/

/-- R357: a channel is in monitor mode. -/
def monitors (s : State) (ch : Nat) : Bool := (recsOf s 0x1A3).any (fun q => decide (wAt q 1 1 = ch))

/-- R359: a TDC channel. -/
def tdcOk (s : State) (p : List Word) : Bool :=
  let ch := wAt p 0 1
  (decide (wAt p 3 1 = 0) || (decide (ch % 2 = 0) && (recBy s 0x1A1 (ch + 1)).isSome && !(monitors s (ch + 1))))
    && (decide (wAt p 1 1 = 0) || decide (((recsOf s 0x1A1).filter (fun q => decide (wAt q 1 1 = wAt p 1 1))).length ≤ 1))

/-- The checks of R359, R385, R410, R435, R454. -/
def engineRecOk (s : State) (r : PlanRec) : Bool :=
  let p := r.payload
  match r.type with
  | 0x1A0 => decide (wAt p 0 1 ≠ 3) || hasRec s 0x1E1
  | 0x1A1 => tdcOk s p
  | 0x1A3 => (match recBy s 0x1A1 (wAt p 1 1) with | none => false | some q => decide (wAt q 1 1 = 1 + wAt p 0 1))
  | 0x1C0 => [1, 2, 4].contains (wAt p 2 1)
  | 0x1E1 => (recBy s 0x1C0 (wAt p 0 1)).isSome
  | 0x1E2 => decide (wAt p 0 6 * 1000000000 + wAt p 6 3 < wAt p 9 6 * 1000000000 + wAt p 15 3)
  | 0x200 => [(0, 1), (0, 2), (1, 1), (2, 1), (1, 2), (3, 1)].contains (wAt p 0 1, wAt p 1 1)
      && (decide (wAt p 9 1 = 0) || decide (((wAt p 9 1 : Nat) : Int) * 1000 ≤ tjLimit s))
  | 0x221 => decide (wAt p 0 1 ≠ 2) || lineActive s (wAt p 1 1)
  | _ => true

/-! ### Every check -/

/-- R64, R70: the lines a record names. -/
def linesNamed (r : PlanRec) : List Nat :=
  let p := r.payload
  if [0x020, 0x021, 0x022, 0x023, 0x024, 0x025, 0x026, 0x040, 0x041, 0x060, 0x061, 0x080, 0x0A0, 0x0A1, 0x0C0, 0x0C1,
      0x0C2, 0x1A3].contains r.type then [wAt p 0 1]
  else match r.type with
    | 0x027 => maskBits 2 (wAt p 0 1)
    | 0x0E0 => ((List.range 8).map (fun t => wAt p (2 * t) 1)).filter (fun l => decide (l ≠ 1023))
    | 0x100 => [wAt p 2 1]
    | _ => []

/-- R108, R135, R219, R335, R359, R385, R410: the fields an amendment may not change keep their current values; a record
type that the plan has none of is compared with its defaults where it is optional. -/
def fixedKept (b : State) (sp : RecSpec) (r : PlanRec) : Bool :=
  let dflt : Option (List Word) := match r.type with
    | 0x180 | 0x1A0 | 0x1E0 => some (List.replicate r.payload.length 0)
    | _ => none
  if sp.fields.any (fun f => f.dag) || decide (r.type = 0x1E0) then
    match (b.cfg.find? (fun q => decide (mergeKey q = mergeKey r))).map (fun q => q.payload) with
    | some q => fixedSame sp.fields r.payload q 0
    | none => match dflt with
      | none => false
      | some q => fixedSame sp.fields r.payload q 0
  else true

/-- R64, R70: a record's payload passes its chapter's checks: `b` is the plan before an amendment, `s` the one with the
record in it. -/
def payloadOk (b s : State) (am : Bool) (r : PlanRec) : Bool :=
  match recSpec r.type with
  | none => false
  | some sp =>
    rangesOk sp r.payload && (linesNamed r).all (lineActive s) && (!am || fixedKept b sp r)
      && probeRecOk b s am r && productRecOk s r && travRecOk s r && streamRecOk s am r && siteRecOk s r && engineRecOk s r

/-- R64: the records a chapter declares required are there. -/
def requiredOk (s : State) (fibre : Bool) : Bool :=
  let lines : List Nat := [0, 1].filter (lineActive s)
  lines.all (fun l =>
    (recBy s 0x020 l).isSome && (recBy s 0x024 l).isSome && (recBy s 0x061 l).isSome
      && (!fibre || (recBy s 0x025 l).isSome)
      && ((recBy s 0x0C0 l).isNone || ((recBy2 s 0x041 l 0).isSome && (recBy2 s 0x041 l 1).isSome))
      && (!((slotsOf s l).any isDas) || (recBy s 0x080 l).isSome)
      && ((sweepSlots s l).isEmpty || (recBy s 0x0A0 l).isSome))
    && (allStreams s).all (fun c => decide (c.t = 0) || ((recBy2 s 0x101 c.n 0).isSome && (recBy2 s 0x101 c.n 1).isSome))
    && (recsOf s 0x0E1).all (fun p => decide (wAt p 11 1 = 0) || (recBy s 0x0E3 (wAt p 0 1)).isSome)
    && hasRec s 0x200

/-- R249: the traverse clocks as TRAVERSE_MAP sets them. -/
def planSteps (s : State) : State :=
  match recOf s 0x0E0 with
  | none => (List.range 8).foldl (fun s t => setF s (trClockSteps t) 32) s
  | some p => (List.range 8).foldl (fun s t => setF s (trClockSteps t) (wAt p (2 * t + 1) 1)) s

/-- R64: the records of a plan, its signature record last: framing order, types, repeats, payloads and requirements.
`fibre`: the lifecycle requires FIBRE_BREAK. -/
def planOk (s0 : State) (fibre : Bool) (rs : List PlanRec) : Bool :=
  let s1 := { s0 with cfg := rs, trav := s0.trav.map (fun t => { t with oos := false }) }
  let s := planSteps s1
  decide ((rs.map (fun r => r.type)).take 2 = [0x001, 0x002])
    && decide ((rs.getLast?.map (fun r => r.type)) = some 0x3FF)
    && (List.range rs.length).all (repeatOk rs false)
    && rs.all (fun r => (match recSpec r.type with | none => false | some sp => sp.plan) && payloadOk s s false r)
    && requiredOk s fibre

end Sys2Proof.Machine
end

