-- ==== Sys2Proof/Machine/Memory.lean ====
section
/-! DEFINITION. The memory subsystem (spec R412 to R434) and the DRAM_FREQ request (R43). -/

namespace Sys2Proof.Machine
open Sys2Proof

/-! ### The plan's DM_CONFIG (R435) -/

/-- R435: ranks, TRIG_K in mK, RETRAIN_S, UE_MAX and SCRUB_H. -/
def dmRanks (s : State) : Nat := dmWord s 1 1 1
def dmTrigK (s : State) : Nat := dmWord s 8 1 20 * 100
def dmRetrainS (s : State) : Nat := dmWord s 6 2 600
def dmUeMax (s : State) : Nat := dmWord s 10 1 4

/-- R429: HOT_C in mK, by grade where the plan gives 0. -/
def dmHot (s : State) : Int := (dmWord s 9 1 (if Config.trimGrade s.keeper.otp.trim then 100 else 95) : Nat) * 1000

/-- R431: FREEZE_ACTION is WARM. -/
def freezeWarm (s : State) : Bool := decide (dmWord s 11 1 0 = 1)

/-! ### Addresses -/

/-- R415, R416: data addresses lie below this; the system region above it. -/
def dataBytes (s : State) : Nat := usable s * pairsIn s / 2 - 2 ^ 27

/-- R417: the channels in service, ascending. -/
def dataChannels (s : State) : List Nat :=
  ((List.finRange 4).filter (fun c => (vget s.mem.ch c).inService)).map (fun c => c.val)

/-- R417: where a data address lies: channel, subchannel, unit, bank group, bank, row, rank, and the offset. -/
structure DataPlace where
  channel : Nat
  sub : Nat
  unit_ : Nat
  group : Nat
  bank : Nat
  row : Nat
  rank : Nat
  off : Nat
  deriving DecidableEq, Repr

/-- R417: the map of data addresses over the channels `ch`, with `rows` data rows per bank. -/
def placeOf (ch : List Nat) (rows a : Nat) : DataPlace :=
  let k := a / 256
  let u := k / ch.length
  let v := u / 2
  let w := v / 7
  { channel := lget 0 ch (k % ch.length), sub := u % 2, unit_ := v % 7, group := w % 4, bank := w / 4 % 4,
    row := w / 16 % rows, rank := w / (16 * rows), off := a % 256 }

/-- R412, R417: ROWS_D, the rows of 2,048 bytes in a bank of a rank: 16 banks share a rank of a subchannel. -/
def rowsPerBank (s : State) : Nat := (match dmWord s 0 1 0 with | 0 => 1 | 1 => 2 | 2 => 3 | _ => 4) * 2 ^ 29 / 2048 / 16

/-- R417: where a data address lies in the channels in service. -/
def dataPlace (s : State) (a : Nat) : DataPlace := placeOf (dataChannels s) (rowsPerBank s) a

/-- A channel changed. -/
def modCh (s : State) (c : Fin 4) (f : MemCh → MemCh) : State := { s with mem := { s.mem with ch := vmod s.mem.ch c f } }

/-- The memory changed. -/
def modMem (s : State) (f : MemSt → MemSt) : State := { s with mem := f s.mem }

/-- R425: every channel in service is TRAINED at a set point. -/
def spUsable (s : State) (sp : Nat) : Bool :=
  (List.finRange 4).all (fun c => !(vget s.mem.ch c).inService || bitOf (vget s.mem.ch c).trained sp)
    && decide (pairsIn s ≠ 0)

/-- Some channel trains. -/
def anyTraining (s : State) : Bool := (List.finRange 4).any (fun c => (vget s.mem.ch c).training)

/-! ### Freezes -/

/-- R431: a freeze starts: class C0 is refused, and the zones of DAS and spectral shift carry STALE code 4. -/
def startFreeze (s : State) (f : Freeze) : State :=
  staleFreeze (modMem s (fun m => { m with freeze := some { f with at_ := elapsed s } }))

/-- R431: the engine retrains a channel in the freeze, from D1 at the new set point. -/
def startRetrainFreeze (s : State) (c : Fin 4) : State :=
  modCh (startFreeze s { retrain := true, chan := c.val, sub := 0, addr := 0, at_ := 0, loss := none }) c
    (fun x => { x with training := true, step := 1, colls := 0, rank := 0, okStep := false })

/-- R431, R436: DM_FREEZE and DRAM_FREEZE of a freeze that ends with a result: 1 intact, 2 not intact, 3 WARM reset,
4 channel lost. -/
def freezeReport (s : State) (f : Freeze) (result : Nat) : State :=
  let ms := (elapsed s - f.at_) / msU
  let s1 := setF (setF (setF s dmFreezeResult result) dmFreezeChannel f.chan) dmFreezeSubch f.sub
  let s2 := setF (setF s1 dmFreezeDuration (min ms 255)) dmFreezeNew 1
  logEvent s2 0x02B 4 2 f.chan (b2n f.retrain + 2 * result + 16 * f.sub)

/-- R434: data-region contents that are not intact: what DRAM holds is free. -/
def scrambleDram (s : State) : State :=
  let top := s.dram.foldl (fun a e => max a (e.1 + 1)) 0
  { s with dram := tabMap (fun _ => 0#10) (fun k _ => BitVec.ofNat 10 (Config.freeNat (s.freeCtr + k))) s.dram,
           freeCtr := s.freeCtr + top }

/-- R432, R176, R196, R229, R298: the consumers after a freeze: DAS restarts, spectral shift goes on as after a LINE reset or
captures anew, the ring goes on or restarts empty. -/
def afterFreeze (s : State) (intact : Bool) : State :=
  let s1 := (List.finRange 2).foldl (fun s l => dasRestart ((lineTravs s l.val).foldl zeroWindow s) l.val (fun _ => true)) s
  let s2 := (List.finRange 8).foldl dropOpen s1
  if intact then s2
  else
    let s3 := (List.finRange 2).foldl (fun s l => if (specCfg s l.val).isSome then wantCapture s l else s) s2
    if hasRec s3 0x140 then emptyRing s3 else s3

/-- R430: a UE found during a blackout starts its freeze once nothing stands in its way. -/
def startPendUe (s : State) : State :=
  match s.mem.uePend with
  | none => s
  | some f => if s.mem.freeze.isNone && s.mem.blackout.isNone then startFreeze (modMem s (fun m => { m with uePend := none })) f else s

/-- R425: a channel in service that is UNTRAINED at the set point. -/
def untrained (s : State) : Option (Fin 4) :=
  (List.finRange 4).find? (fun c => (vget s.mem.ch c).inService && !(bitOf (vget s.mem.ch c).trained s.mem.setPoint))

/-- R430, R431: the freeze that is due when a blackout or a freeze has ended. -/
def nextFreeze (s : State) : State :=
  if s.mem.freeze.isSome || s.mem.blackout.isSome then s
  else match untrained s with
    | some c => startRetrainFreeze s c
    | none => startPendUe s

/-- R431: a freeze ends and traffic resumes. -/
def finishFreeze (s : State) (f : Freeze) (result : Nat) : State :=
  let s1 := modMem (freezeReport s f result) (fun m => { m with freeze := none })
  nextFreeze (afterFreeze s1 (decide (result = 1)))

/-- R434: a channel is lost: the engine freezes, or goes on in its freeze, and runs on one copy of the system region; a
loss of the last pair is a WARM reset. -/
def loseChannel (s : State) (c : Fin 4) (why : Nat) : State :=
  if pairsIn s ≤ 1 then warmCause s 7
  else
    let s1 := modMem s (fun m => { m with oneCopy := true, ch := m.ch.map (fun x => { x with training := false, again := false }) })
    match s1.mem.freeze with
    | some f => modMem s1 (fun m => { m with freeze := some { f with chan := c.val, loss := some why } })
    | none => startFreeze s1 { retrain := decide (why = 1), chan := c.val, sub := 0, addr := 0, at_ := 0, loss := some why }

/-- A channel of a number. -/
def chanFin (n : Nat) : Fin 4 := ⟨n % 4, by omega⟩

/-- R433: HARD outcomes of a channel in the last hour of device time. -/
def recentHard (s : State) (c : Fin 4) : List Nat :=
  (vget s.mem.ch c).hard.filter (fun t => decide (stampNow s < t + 3600 * secU))

/-- R431: what the rewriting of a block of 64 bytes as zero leaves of a word of 10 bits, whose first bit has this bit address. -/
def keepOutside (block bit : Nat) (w : BitVec 10) : BitVec 10 :=
  let lo := 512 * block
  BitVec.ofNat 10 (sumN ((List.range 10).map (fun i => if lo ≤ bit + i ∧ bit + i < lo + 512 then 0 else b2n (w.getLsbD i) * 2 ^ i)))

/-- R183, R431: a HARD outcome: the block at a data address is rewritten as zero. Where Fieldbook put the previous traces the spec does
not say, so what they hold is free (log entry 155). -/
def zeroBlock (s : State) (a : Nat) : State :=
  let top := s.dram.foldl (fun a e => max a (e.1 + 1)) 0
  let word (k : Nat) (w : BitVec 10) : BitVec 10 :=
    let i := k % 2 ^ 12
    let st := k / 2 ^ 12 % 2 ^ 18
    let region := k / 2 ^ 30 % 4
    let cell := dramCell region
    if region = 0 then BitVec.ofNat 10 (Config.freeNat (s.freeCtr + k))
    else keepOutside (a / 64) (8 * cellByte s region (k / 2 ^ 32) st (if region = 3 then 0 else i / cell) + 10 * (if region = 3 then i else i % cell)) w
  { s with dram := tabMap (fun _ => 0#10) word s.dram, freeCtr := s.freeCtr + top }

/-- R431: Benchmark's or Fieldbook's action in a freeze is complete. -/
def freezeEndSt (intact : Bool) (s : State) : State :=
  match s.mem.freeze with
  | none => s
  | some f =>
    let c := chanFin f.chan
    if f.loss.isSome then s
    else if f.retrain then
      if bitOf (vget s.mem.ch c).trained s.mem.setPoint && !(vget s.mem.ch c).training && s.mem.blackout.isNone
      then finishFreeze s f 1 else s
    else if intact then finishFreeze s f 1
    else
      let times := recentHard s c ++ [stampNow s]
      let s1 := modCh (zeroBlock s f.addr) c (fun x => { x with hard := times })
      if dmUeMax s ≤ times.length then loseChannel s1 c 2
      else if freezeWarm s then warmCause (freezeReport s1 f 3) 5
      else finishFreeze s1 f 2

/-- R431 FREEZE_END. -/
def execFreezeEnd (intact : Bool) (s : State) : Host.Outcome State Fault Refusal := .next (freezeEndSt intact s)

/-- R431 FREEZE_TIMEOUT: a freeze that has not ended 50 ms after it started; the limit does not bound R434's steps. -/
def freezeTimeoutSt (s : State) : State :=
  match s.mem.freeze with
  | none => s
  | some f =>
    if f.loss.isNone ∧ f.at_ + 50 * msU ≤ elapsed s then warmCause (freezeReport s f 3) 5 else s

/-- R431 FREEZE_TIMEOUT. -/
def execFreezeTimeout (s : State) : Host.Outcome State Fault Refusal := .next (freezeTimeoutSt s)

/-- R434 CHANNEL_LOSS_DONE: the pair leaves service, the system region has its two copies again, the budgets are
evaluated, and the freeze ends. -/
def channelLossSt (s : State) : State :=
  match s.mem.freeze with
  | none => s
  | some f =>
    match f.loss with
    | none => s
    | some why =>
      let s1 := modMem s (fun m => { m with oneCopy := false, ch := Vector.ofFn (fun c : Fin 4 =>
        if c.val / 2 = f.chan / 2 then { vget m.ch c with inService := false, training := false } else vget m.ch c) })
      let s2 := featureChanged (evalBudgets (scrambleDram s1))
      finishFreeze (logEvent s2 0x02A 4 2 f.chan why) f 4

/-- R434 CHANNEL_LOSS_DONE. -/
def execChannelLossDone (s : State) : Host.Outcome State Fault Refusal := .next (channelLossSt s)

/-! ### Reads and the patrol scrub (R418, R419) -/

/-- R418, R431: an uncorrectable error at a data address; in a blackout its freeze waits (R430). -/
def ueAt (s : State) (a : Nat) : State :=
  let p := dataPlace s a
  let s1 := setF (setF (bump s dmUeCount) dmUeAddrLoAddr (a % 2 ^ 20)) dmUeAddrHiAddr (a / 2 ^ 20)
  let f : Freeze := { retrain := false, chan := p.channel, sub := p.sub, addr := a, at_ := 0, loss := none }
  if s1.mem.blackout.isSome then modMem s1 (fun m => { m with uePend := some (m.uePend.getD f) })
  else startFreeze s1 f

/-- R418: what the check of a read finds: `other` says that the other copy of a system-region block is uncorrectable
too. A freeze admits no data-region read (R431). -/
def readCheck (addr : Nat) (single double other : Bool) (s : State) : State :=
  if decide (pairsIn s = 0) || s.mem.selfRefresh then s
  else if addr < dataBytes s then
    if s.mem.freeze.isSome then s
    else if double then ueAt s addr
    else if single then bump s dmCeCount
    else s
  else if double && (other || s.mem.oneCopy) then warmCause s 6
  else if single || double then bump s dmCeCount
  else s

/-- R418 DRAM_READ. -/
def execDramRead (addr : Nat) (single double other : Bool) (s : State) : Host.Outcome State Fault Refusal :=
  .next (readCheck addr single double other s)

/-- Blocks of 64 bytes of both regions. -/
def scrubBlocks (s : State) : Nat := usable s * pairsIn s / 2 / 64

/-- R419, R432, R436: the patrol pass reads its next block; a freeze makes class C3 wait. -/
def scrubSt (single double other : Bool) (s : State) : State :=
  if s.mem.freeze.isSome || s.mem.selfRefresh || decide (pairsIn s = 0) then s
  else
    let last := decide (scrubBlocks s ≤ s.mem.scrub + 1)
    let s1 := modMem s (fun m => { m with scrub := if last then 0 else m.scrub + 1 })
    readCheck (64 * s.mem.scrub) single double other (if last then bump s1 dmScrubPasses else s1)

/-- R419 SCRUB_READ. -/
def execScrubRead (single double other : Bool) (s : State) : Host.Outcome State Fault Refusal :=
  .next (scrubSt single double other s)

/-- R421 C3_AGE_PROMOTE. -/
def execC3AgePromote (s : State) : Host.Outcome State Fault Refusal := .next (bump s dmC3AgedCount)

/-! ### Changes of set point -/

/-- R428: a change starts: its blackout. -/
def startChange (s : State) (f : FreqChange) : State := modMem s (fun m => { m with blackout := some f, waiting := none })

/-- R427, R430: a change that is not forced waits for a collection's or a blackout's end. -/
def askChange (s : State) (f : FreqChange) : State :=
  if s.mem.blackout.isSome || anyTraining s then modMem s (fun m => { m with waiting := some f }) else startChange s f

/-- R430: a forced change aborts any training, whose channel is then UNTRAINED at the target. -/
def abortTraining (s : State) (target : Nat) : State :=
  modMem s (fun m => { m with ch := m.ch.map (fun c =>
    if c.training then { c with training := false, colls := 0, trained := bitsPut c.trained target target 0 } else c) })

/-- R428: a forced change of set point. -/
def forceChange (s : State) (f : FreqChange) : State :=
  if s.mem.blackout.isSome then modMem s (fun m => { m with waiting := some f })
  else startChange (abortTraining s f.target) f

/-- R429: the set point that a change now under way leads to. -/
def comingSp (s : State) : Nat :=
  match s.mem.waiting, s.mem.blackout with
  | some w, some b => if w.forced then w.target else b.target
  | _, some b => b.target
  | _, none => s.mem.setPoint

/-- R429: Benchmark forces one step down, if the set point is not already F2. -/
def forceStep (s : State) : State :=
  let sp := comingSp s
  if s.mem.selfRefresh || decide (pairsIn s = 0) || decide (2 ≤ sp) then s
  else
    let target := if sp = 0 ∧ setRate s 0 = 6400 then 2 else sp + 1
    forceChange (modMem s (fun m => { m with forced := true })) { target := target, forced := true }

/-- R429: since when the die and every MR4 have been cool. -/
def coolCheck (s : State) : State :=
  let cool := !s.mem.mr4Hot && (match s.mem.die with | none => false | some v => decide (v ≤ dmHot s - 10000))
  modMem s (fun m => { m with coolSince := if cool then some (m.coolSince.getD (elapsed s)) else none })

/-- R429: a reading of island 4's die sensor in mK: HOT_C and HOT_C + 5 K each force a step once between returns (log
entry 52). -/
def memDie (s : State) (mk : Int) : State :=
  let s1 := coolCheck (modMem s (fun m => { m with die := some mk }))
  let s2 := if decide (dmHot s1 ≤ mk) && !s1.mem.stepHot then forceStep (modMem s1 (fun m => { m with stepHot := true })) else s1
  if decide (dmHot s2 + 5000 ≤ mk) && !s2.mem.stepHot5 then forceStep (modMem s2 (fun m => { m with stepHot5 := true })) else s2

/-- R429: an MR4 readout: some device above 85 °C, or every device at or below it. -/
def mr4St (hot cool : Bool) (s : State) : State :=
  let s1 := coolCheck (modMem s (fun m => { m with mr4Hot := hot || (m.mr4Hot && !cool) }))
  if hot && !s1.mem.stepMr4 then forceStep (modMem s1 (fun m => { m with stepMr4 := true })) else s1

/-- R429 MR4_READOUT. -/
def execMr4Readout (hot cool : Bool) (s : State) : Host.Outcome State Fault Refusal := .next (mr4St hot cool s)

/-- R429: one step back up, not above the plan's operating set point, and only to a usable one. -/
def thermalReturnSt (s : State) : State :=
  let plan := planSetPoint s
  let sp := s.mem.setPoint
  let cool := match s.mem.coolSince with | none => false | some t => decide (t + 10 * secU ≤ elapsed s)
  if s.mem.forced && cool && s.mem.blackout.isNone && s.mem.waiting.isNone && s.mem.freeze.isNone && !s.mem.selfRefresh then
    let s1 := modMem s (fun m => { m with stepHot := false, stepHot5 := false, stepMr4 := false, coolSince := some (elapsed s) })
    if sp ≤ plan then modMem s1 (fun m => { m with forced := false })
    else
      let target := if sp = 2 ∧ plan = 0 ∧ setRate s 0 = 6400 then 0 else sp - 1
      if spUsable s1 target then
        askChange (modMem s1 (fun m => { m with forced := decide (target ≠ plan) })) { target := target, forced := false }
      else s
  else s

/-- R429 THERMAL_RETURN. -/
def execThermalReturn (s : State) : Host.Outcome State Fault Refusal := .next (thermalReturnSt s)

/-- R428, R430: the blackout ends at the new set point: the freeze of a channel UNTRAINED there, or one that a UE found
meanwhile asks for, the budgets, and a change that waited. -/
def freqDoneSt (s : State) : State :=
  match s.mem.blackout with
  | none => s
  | some f =>
    let s1 := modMem s (fun m => { m with blackout := none, setPoint := f.target })
    let s2 := match s1.mem.waiting with
      | some w => if w.forced then forceChange s1 w else s1
      | none => s1
    let s3 := match s2.mem.blackout, s2.mem.freeze, untrained s2 with
      | none, some z, some c => if z.retrain && z.loss.isNone then
          modCh s2 c (fun x => { x with training := true, step := 1, colls := 0, rank := 0, okStep := false }) else s2
      | _, _, _ => nextFreeze s2
    let s4 := evalBudgets s3
    match s4.mem.waiting with
    | some w => if s4.mem.blackout.isSome then s4 else askChange (modMem s4 (fun m => { m with waiting := none })) w
    | none => s4

/-- R428 FREQ_CHANGE_DONE. -/
def execFreqChangeDone (s : State) : Host.Outcome State Fault Refusal := .next (freqDoneSt s)

/-- R43, R425, R429: DRAM_FREQ: refused while a thermal set point applies or the target is not usable; in self-refresh
not allowed in the phase. -/
def mbxDramFreqSt (sp : Fin 3) (s : State) : State :=
  if s.mem.selfRefresh then mbxAnswer s 7 mbxRefusedState 0
  else if s.mem.forced || !(spUsable s sp.val) then mbxRefuse s 7
  else
    let s1 := mbxAnswer s 7 mbxGranted 0
    if comingSp s1 = sp.val then s1 else askChange s1 { target := sp.val, forced := false }

/-! ### Training -/

/-- R423, R424, R434: boot training ends: the pairs without a failing subchannel, named here or found by a collection, are in service, TRAINED at every set
point, and the engine runs at F0; without one Benchmark enters recovery. -/
def trainingDoneSt (failed : BitVec 8) (s : State) : State :=
  if bootPhase s = 3 then
    let bad (c : Nat) : Bool := dmFitted s c && (failed.getLsbD (2 * c) || failed.getLsbD (2 * c + 1) || (vget s.mem.ch (chanFin c)).failed)
    let pairOk (p : Nat) : Bool := dmFitted s (2 * p) && !(bad (2 * p)) && !(bad (2 * p + 1))
    let s1 := modMem s (fun m => { m with setPoint := 0, ch := Vector.ofFn (fun c : Fin 4 =>
      { vget m.ch c with trained := if dmFitted s c.val && !(bad c.val) then 7 else 0, inService := pairOk (c.val / 2), training := false, step := 0,
                         at_ := elapsed s, die := m.die.getD 0 }) })
    let s2 := forEach ((List.range 4).filter bad) s1 (fun s c => logEvent s 0x02A 4 2 c 0)
    if pairOk 0 || pairOk 1 then setF (evalBudgets s2) bmStateBootPhase 4 else enterRecovery s2
  else s

/-- R423 DRAM_TRAINING_DONE. -/
def execDramTrainingDone (failed : BitVec 8) (s : State) : Host.Outcome State Fault Refusal :=
  .next (trainingDoneSt failed s)

/-- R426: the interval oscillators are read; the delay taps follow, which no register shows. -/
def execDqsOscRead (drift : List Int) (s : State) : Host.Outcome State Fault Refusal :=
  .next (if s.mem.selfRefresh || s.mem.blackout.isSome then s else
    modMem s (fun m => { m with ch := Vector.ofFn (fun c : Fin 4 =>
      match drift[c.val]? with
      | some d => if (vget m.ch c).inService then { vget m.ch c with drift := d } else vget m.ch c
      | none => vget m.ch c) }))

/-- R426, R430: a short retrain of a channel is due. -/
def retrainDue (s : State) (c : Fin 4) : Bool :=
  let x := vget s.mem.ch c
  x.again || decide (8 < x.drift.natAbs) || decide (x.at_ + dmRetrainS s * secU ≤ elapsed s)
    || (match s.mem.die with | none => false | some v => decide (dmTrigK s < (v - x.die).natAbs))

/-- R426: steps D3 and D4 of one channel start; one channel trains at a time, and a blackout or freeze comes first. -/
def shortRetrainSt (c : Fin 4) (s : State) : State :=
  if (vget s.mem.ch c).inService && retrainDue s c && !(anyTraining s) && s.mem.blackout.isNone && s.mem.freeze.isNone
      && !s.mem.selfRefresh then
    bump (modCh s c (fun x => { x with training := true, step := 3, colls := 0, rank := 0, okStep := false, again := false })) dmRetrainCount
  else s

/-- R426 SHORT_RETRAIN_START. -/
def execShortRetrainStart (ch : Fin 4) (s : State) : Host.Outcome State Fault Refusal := .next (shortRetrainSt ch s)

/-- R423: collections per rank of a step. -/
def stepColls (step : Nat) : Nat :=
  match step with | 1 => 32 | 2 => 16 | 3 => 64 | 4 => 64 | 5 => 48 | _ => 1

/-- R423, R426, R431: the first and the last training step of a training: D1 to D6 at boot and in a freeze, D3 and D4 in service. -/
def firstStep (s : State) : Nat := if s.mem.freeze.isSome ∨ bootPhase s = 3 then 1 else 3
def lastStep (s : State) : Nat := if s.mem.freeze.isSome ∨ bootPhase s = 3 then 6 else 4

/-- R423: a channel's training at a set point is complete; at boot the next set point follows, F2, F1, F0. -/
def endTraining (s : State) (c : Fin 4) : State :=
  if bootPhase s = 3 then
    modCh s c (fun x => { x with
      trained := bitsPut x.trained x.sp x.sp 1, colls := 0, rank := 0, okStep := false,
      training := decide (x.sp ≠ 0), step := if x.sp = 0 then 0 else 1, sp := x.sp - 1 })
  else
    modCh s c (fun x =>
      { x with training := false, step := 0, colls := 0, rank := 0, okStep := false, drift := 0, at_ := elapsed s,
               die := s.mem.die.getD x.die, trained := bitsPut x.trained s.mem.setPoint s.mem.setPoint 1 })

/-- R423, R426: what ends with a collection: the step, a rank's last step, and the training; `none` where the step found
no passing setting. -/
def collectStep (s : State) (c : Fin 4) (pass : Bool) : Option State :=
  let x := vget s.mem.ch c
  let ok := x.okStep || pass
  if x.colls + 1 < stepColls x.step then some (modCh s c (fun x => { x with colls := x.colls + 1, okStep := ok }))
  else if !ok then none
  else if x.step < lastStep s then
    some (modCh s c (fun x => { x with step := x.step + 1, colls := 0, okStep := false }))
  else if x.rank + 1 < dmRanks s then
    some (modCh s c (fun x => { x with step := firstStep s, colls := 0, rank := x.rank + 1, okStep := false }))
  else some (endTraining s c)

/-- R423: a collection of a channel ends; a failing step fails the channel at boot (R424) and loses it in service (R426, R431), and a
DRAM_FREQ that waits abandons the rest of a short retrain (R430). -/
def collectionSt (c : Fin 4) (pass : Bool) (s : State) : State :=
  if (vget s.mem.ch c).training && s.mem.blackout.isNone then
    match collectStep s c pass with
    | none => if bootPhase s = 3 then modCh s c (fun x => { x with training := false, step := 0, failed := true }) else loseChannel s c 1
    | some t =>
      match t.mem.waiting with
      | some w => if t.mem.freeze.isSome then t
        else startChange (modCh t c (fun x => { x with training := false, step := 0, colls := 0, again := true })) w
      | none => t
  else s

/-- R423 TRAINING_COLLECTION_DONE. -/
def execTrainingCollectionDone (ch : Fin 4) (pass : Bool) (s : State) : Host.Outcome State Fault Refusal :=
  .next (collectionSt ch pass s)

end Sys2Proof.Machine
end

