-- ==== Sys2Proof/Machine/Housekeeping.lean ====
section
/-! DEFINITION. The housekeeping converter and sensor front end (spec R318 to R336). -/

namespace Sys2Proof.Machine
open Sys2Proof

/-! ### Plan records (R335) -/

/-- R335 HK_CONFIG: R_REF in mΩ. -/
def hkRref (s : State) : Nat :=
  match recOf s 0x180 with | none => 2000000 | some p => if wAt p 0 3 = 0 then 2000000 else wAt p 0 3

/-- R335: the M1 reference is EXT. -/
def hkExt (s : State) : Bool := match recOf s 0x180 with | none => false | some p => decide (wAt p 3 1 = 1)

/-- R335: DIE_PER_FRAME and REF_CHECK in s. -/
def diePerFrame (s : State) : Nat := match recOf s 0x180 with | none => 3 | some p => if wAt p 4 1 = 0 then 3 else wAt p 4 1
def refCheckS (s : State) : Nat := match recOf s 0x180 with | none => 10 | some p => if wAt p 5 2 = 0 then 10 else wAt p 5 2

/-- R336 ENABLED: the RTD has an RTD_INPUT record. -/
def rtdOn (s : State) (n : Nat) : Bool := (recBy s 0x181 n).isSome

/-- R327: the RTD is 3-wire. -/
def rtdThree (s : State) (n : Nat) : Bool := match recBy s 0x181 n with | none => false | some p => decide (wAt p 1 1 = 1)

/-- R328, R335: R0 of an input in mΩ. -/
def rtdR0 (s : State) (n : Nat) : Nat :=
  match recBy s 0x181 n with
  | none => 100000
  | some p => (match wAt p 2 1 with | 0 => 100000 | 1 => 1000000 | _ => wAt p 3 3)

/-! ### From a conversion to a temperature (R328) -/

/-- R328: R of a conversion in mΩ; k is 2 for 3-wire. -/
def rtdOhms (s : State) (n : Nat) (gain : Nat) (d : Int) : Int :=
  roundEven ((if rtdThree s n then 2 else 1) * (hkRref s : Nat) * d) (2 ^ gain * 2 ^ 23)

/-- R328: 10^27 times R/R0 at a temperature in mK, by the Callendar–Van Dusen equation. -/
def cvd (t : Int) : Int :=
  10 ^ 27 + 39083 * t * 10 ^ 17 - 5775 * t * t * 10 ^ 11 - (if t < 0 then 4183 * (t - 100000) * (t * t * t) else 0)

/-- R328: the largest temperature in mK, from `lo` up, whose resistance is not above r2/2, by bisection. -/
def cvdSearch (r2 : Int) (r0 : Nat) : Nat → Int → Int
  | 0, lo => lo
  | n + 1, lo =>
    let mid := lo + 2 ^ n
    cvdSearch r2 r0 n (if 2 * (r0 : Int) * cvd mid ≤ r2 * 10 ^ 27 then mid else lo)

/-- R328: the temperature of twice a resistance in mK, rounded down, from −240 °C up. -/
def cvdInverse (r2 : Int) (r0 : Nat) : Int := cvdSearch r2 r0 20 (-240000)

/-- R328: a result within ±1 mK of the exact inverse: which one is free. -/
def rtdTemp (s : State) (r2 : Int) (r0 : Nat) : Int × State :=
  let f := cvdInverse r2 r0
  let (v, s1) := draw s
  let exact := decide (2 * (r0 : Int) * cvd f = r2 * 10 ^ 27)
  (f + (if exact then ((v % 3 : Nat) : Int) - 1 else ((v % 2 : Nat) : Int)), s1)

/-- R323: the largest gain whose prediction is within 0.75 of full scale: `num / den` is D at gain 1 as a fraction of full
scale. -/
def gainFor (num den : Nat) : Nat := (List.range 8).foldl (fun a g => if 4 * num * 2 ^ g ≤ 3 * den then g else a) 0

/-! ### M0 -/

/-- An RTD input changed. -/
def modRtd (s : State) (n : Fin 4) (f : RtdSt → RtdSt) : State := modHk s (fun h => { h with rtd := vmod h.rtd n f })

/-- A channel's last reading changed. -/
def modVal (s : State) (ch : Fin 32) (f : HkVal → HkVal) : State := modHk s (fun h => { h with vals := vmod h.vals ch f })

/-- R324, R330: the RTD that M0 visits after channel `n`: the next enabled one that is not OPEN; 4 where there is none. -/
def nextRtd (s : State) (n : Nat) : Nat :=
  let ok (i : Nat) : Bool := rtdOn s i && (match (List.finRange 4).find? (fun r => decide (r.val = i)) with
    | none => false | some r => !(vget s.hk.rtd r).open_)
  (((List.range 5).map (fun i => (n + 1 + i) % 5)).find? ok).getD 4

/-- R324: the visit of M0's channel ends. -/
def m0Next (s : State) : State :=
  let due := decide (s.hk.m0 < 4) && decide (s.hk.refAt + refCheckS s * secU ≤ elapsed s)
  let last := if s.hk.m0 < 4 then s.hk.m0 else s.hk.lastRtd
  modHk s (fun h => { h with m0 := if due then 4 else nextRtd s last, lastRtd := last, orientB := false })

/-- R208, R209: a reading that RAMAN_COIL can still use: of the last 60 s before a block end to come, or of an open block. -/
def readingLive (s : State) (x : RtdRead) : Bool :=
  decide (elapsed s ≤ x.at_ + 61 * secU) || (List.finRange 2).any (fun l =>
    let X := vget s.sense.ramanLine l
    X.open_.isSome && (decide (X.stamp ≤ x.stamp) || decide (X.at_ ≤ x.at_ + 60 * secU)))

/-- R329: a valid reading reaches RAMAN_COIL, the loops with SRC 3 and HK_VALn. -/
def deliverRtd (s : State) (n : Fin 4) (mk : Int) : State :=
  let s1 := modRtd s n (fun r =>
    { r with hist := { stamp := stampNow s, at_ := elapsed s, temp := mk } :: r.hist.filter (readingLive s) })
  let s2 := modVal s1 ⟨n.val, by omega⟩ (fun _ => { value := mk, at_ := elapsed s, valid := true, over_ := false, fault := false })
  loopSourceUpdated s2 (fun c => decide (c.src = 3 ∧ c.idx = n.val))

/-- R328: a complete reading, from twice its resistance. -/
def finishRtd (s : State) (n : Fin 4) (r2 : Int) : State :=
  let k : Nat := if rtdThree s n.val then 2 else 1
  let (mk, s1) := rtdTemp s r2 (rtdR0 s n.val)
  let s2 := modRtd s1 n (fun r => { r with gain := gainFor r2.natAbs (2 * k * hkRref s) })
  let s3 := if -200000 ≤ mk ∧ mk ≤ 500000 then deliverRtd s2 n mk
    else modVal s2 ⟨n.val, by omega⟩ (fun v => { v with over_ := false, fault := true })
  m0Next s3

/-- R318: a result clamped to 24 bits, and whether it carries OVER. -/
def clampD (d : Int) : Int × Bool := (clampI (-8388607) 8388607 d, decide (8388607 ≤ d.natAbs))

/-- R324: an RTD conversion ends. -/
def m0RtdSt (n : Fin 4) (d : Int) (s : State) : State :=
  let (x, isOver) := clampD d
  if !(rtdOn s n.val) || (vget s.hk.rtd n).open_ then m0Next s
  else if isOver then
    m0Next (bump (modVal (modRtd s n (fun r => { r with gain := 0 })) ⟨n.val, by omega⟩ (fun v => { v with over_ := true })) hkDiscardCount)
  else
    let r := rtdOhms s n.val (vget s.hk.rtd n).gain x
    if rtdThree s n.val && !s.hk.orientB then modHk s (fun h => { h with orientB := true, rA := r })
    else finishRtd s n (if rtdThree s n.val then s.hk.rA + r else 2 * r)

/-- R322, R324: the check of HK_REF against the bandgap on channel 4. -/
def m0RefSt (d : Int) (s : State) : State :=
  let (x, isOver) := clampD d
  let s0 := modHk s (fun h => { h with refAt := elapsed s })
  let s1 :=
    if isOver then bump (modVal (modHk s0 (fun h => { h with refGain := 0 })) 4 (fun v => { v with over_ := true })) hkDiscardCount
    else
      let v := Config.hkRefValue x s.hk.refGain
      let s2 := modVal (modHk s0 (fun h => { h with refGain := gainFor x.natAbs (2 ^ s.hk.refGain * 2 ^ 23) })) 4
        (fun _ => { value := v, at_ := elapsed s, valid := true, over_ := false, fault := false })
      if 500 < (v - 250000).natAbs then setF s2 hkStatusRefDrift 1 else s2
  m0Next s1

/-- R324: a conversion of M0 ends. -/
def m0EndSt (d : Int) (s : State) : State :=
  match (List.finRange 4).find? (fun n => decide (n.val = s.hk.m0)) with
  | some n => m0RtdSt n d s
  | none => m0RefSt d s

/-- R324 M0_CONVERSION_END. -/
def execM0ConversionEnd (d : Int) (s : State) : Host.Outcome State Fault Refusal := .next (m0EndSt d s)

/-! ### Burn-out (R330, R331) -/

/-- R330: an RTD is found OPEN. -/
def rtdOpenSt (n : Fin 4) (balls : BitVec 4) (s : State) : State :=
  let s1 := modRtd s n (fun r => { r with open_ := true, leads := balls, clean := 0, openAt := some (elapsed s) })
  let s2 := setF s1 (hkRtdStatusOpenSeen n.val) 1
  let s3 := logEvent s2 0x01F 3 2 n.val balls.toNat
  let s4 := if s3.hk.m0 = n.val then m0Next (bump s3 hkDiscardCount) else s3
  loopsRefresh (coilSuspend s4 n.val)

/-- R330: a burn-out pulse ends. -/
def burnoutSt (n : Fin 4) (balls : BitVec 4) (s : State) : State :=
  if rtdOn s n.val then
    let R := vget s.hk.rtd n
    if balls = 0 then modRtd s n (fun r => { r with clean := min 64 (r.clean + 1) })
    else if R.open_ then modRtd s n (fun r => { r with clean := 0, openAt := some (elapsed s) })
    else rtdOpenSt n balls s
  else s

/-- R330 BURNOUT_PULSE. -/
def execBurnoutPulse (n : Fin 4) (openBalls : BitVec 4) (s : State) : Host.Outcome State Fault Refusal :=
  .next (burnoutSt n openBalls s)

/-- R331: OPEN clears after 64 clean pulses in a row; an idle M0 visits the RTD. -/
def rtdClearSt (n : Fin 4) (s : State) : State :=
  let R := vget s.hk.rtd n
  if R.open_ ∧ 64 ≤ R.clean then
    loopsRefresh (modRtd s n (fun r => { r with open_ := false, leads := 0, openAt := some (elapsed s) }))
  else s

/-- R331 RTD_OPEN_CLEAR. -/
def execRtdOpenClear (n : Fin 4) (s : State) : Host.Outcome State Fault Refusal := .next (rtdClearSt n s)

/-! ### M1 -/

/-- R325: the conversions of a frame. -/
def frameList (s : State) : List Nat :=
  ((List.range 8).filter (fun n => decide ((loopCfg s n).src ≠ 0))).map (fun n => 5 + n)
    ++ (List.range (diePerFrame s)).map (fun i => 13 + (s.hk.nextDie + i) % 18) ++ [31, 31]

/-- R325: a frame starts; a conversion in progress completes first. -/
def m1FrameSt (s : State) : State :=
  let s1 := modHk s (fun h => { h with frame := frameList s, nextDie := (h.nextDie + diePerFrame s) % 18 })
  if s.hk.m1Busy then s1 else m1Take s1

/-- R325 M1_FRAME_START. -/
def execM1FrameStart (s : State) : Host.Outcome State Fault Refusal := .next (m1FrameSt s)

/-- R312: the code of a sense voltage in 10 µV through the sense resistance, 25 nA per code, rounded to nearest even. -/
def senseCode (s : State) (n : Nat) (v : Int) : Nat :=
  let r := (loopCfg s n).sense
  if r = 0 then 0 else satU 20 (roundEven (v * 400000) r).toNat

/-- R333: nominal of a rail in 10 µV. -/
def railNominal (r : Nat) : Nat :=
  lget 0 [75000, 80000, 90000, 180000, 90000, 105000, 50000, 180000, 330000, 330000] r

/-- R333: a rail's flags with a new reading. -/
def railNext (R : RailSt) (nom : Nat) (v : Int) : RailSt :=
  let lo := decide (1000 * v < 970 * (nom : Int))
  let hi := decide (1030 * (nom : Int) < 1000 * v)
  let inW := decide (975 * (nom : Int) ≤ 1000 * v ∧ 1000 * v ≤ 1025 * (nom : Int))
  let rl := if lo then min 2 (R.runLow + 1) else 0
  let rh := if hi then min 2 (R.runHigh + 1) else 0
  let ri := if inW then min 2 (R.runIn + 1) else 0
  { value := v, low := (R.low || decide (rl = 2)) && decide (ri < 2), high := (R.high || decide (rh = 2)) && decide (ri < 2),
    runLow := rl, runHigh := rh, runIn := ri }

/-- R333: a reading of the next rail. -/
def railSt (v : Int) (s : State) : State :=
  match (List.finRange 10).find? (fun r => decide (r.val = s.hk.nextRail)) with
  | none => s
  | some r =>
    let old := vget s.hk.rails r
    let new := railNext old (railNominal r.val) v
    let s1 := modHk s (fun h => { h with rails := vset h.rails r new, nextRail := (r.val + 1) % 10 })
    let s2 := if new.low && !old.low then logEvent s1 0x022 3 1 0 r.val else s1
    if new.high && !old.high then logEvent s2 0x022 3 1 0 (r.val + 16) else s2

/-- R332: the valid die readings. -/
def dieReadings (s : State) : List Int :=
  ((List.finRange 32).filter (fun c => decide (13 ≤ c.val ∧ c.val ≤ 30) && (vget s.hk.vals c).valid)).map (fun c => (vget s.hk.vals c).value)

/-- R332: a die reading reaches the calibration logic of its island and Benchmark. -/
def deliverDie (s : State) (island : Nat) (mk : Int) : State :=
  let s1 := match island with
    | 2 => tdcDie s mk
    | 4 => memDie s mk
    | 7 => convDie s 0 mk
    | 8 => convDie s 1 mk
    | 9 => convDieRaman (convDieRaman s 0 mk) 1 mk
    | _ => s
  thermalCheck s1 (dieReadings s1)

/-- R332: a die reading; one outside −55 to +150 °C carries FAULT and is not delivered. -/
def dieSt (ch : Fin 32) (mk : Int) (s : State) : State :=
  let island := ch.val - 13
  if -55000 ≤ mk ∧ mk ≤ 150000 then
    deliverDie (modVal s ch (fun _ => { value := mk, at_ := elapsed s, valid := true, over_ := false, fault := false })) island mk
  else
    let s1 := modVal s ch (fun v => { v with over_ := false, fault := true })
    if s1.hk.dieLogged.getLsbD island then s1
    else logEvent (modHk s1 (fun h => { h with dieLogged := h.dieLogged ||| BitVec.ofNat 18 (2 ^ island) })) 0x023 1 1 0 island

/-- R325, R318: a conversion of M1's channel ends with its value in the unit of R319; one that reached full scale is clamped and
carries OVER. -/
def m1EndSt (ch : Fin 32) (value : Int) (isOver : Bool) (s : State) : State :=
  if s.hk.m1Busy ∧ s.hk.m1Ch = ch.val then
    let put (s : State) : State :=
      modVal s ch (fun _ => { value := value, at_ := elapsed s, valid := true, over_ := false, fault := false })
    let s1 :=
      if ch.val < 13 then
        match (List.finRange 8).find? (fun n => decide (n.val + 5 = ch.val)) with
        | none => s
        | some n => modLoop (put s) n (fun x => { x with sense := senseCode s n.val value })
      else if ch.val < 31 then dieSt ch value s
      else railSt value (put s)
    m1Take (modVal s1 ch (fun v => { v with over_ := isOver }))
  else s

/-- R325 M1_CONVERSION_END. -/
def execM1ConversionEnd (ch : Fin 32) (value : Int) (isOver : Bool) (s : State) : Host.Outcome State Fault Refusal :=
  .next (m1EndSt ch value isOver s)

/-- R326 URGENT_REQUEST. -/
def execUrgentRequest (ch : Fin 32) (s : State) : Host.Outcome State Fault Refusal := .next (urgentSt ch.val s)

/-! ### References and conversion lengths -/

/-- R321: the modulator cycles of the last 10 ms set the lengths; without a time clock they follow the oscillator. -/
def notchSt (count : Nat) (s : State) : State :=
  if s.time.freqRef = 3 then modHk s (fun h => { h with notchFree := true })
  else modHk s (fun h => { h with notch := count, notchFree := false })

/-- R321 NOTCH_LENGTH_UPDATE. -/
def execNotchLengthUpdate (count : Nat) (s : State) : Host.Outcome State Fault Refusal := .next (notchSt count s)

/-- R322: HK_REF leaves its window: an EXT conversion is discarded and made again with INT. -/
def refExitSt (s : State) : State :=
  let s1 := modHk s (fun h => { h with extIn := false })
  if s.hk.m1Ext then
    let s2 := if s.hk.m1Busy then bump s1 hkDiscardCount else s1
    logEvent (setF (modHk s2 (fun h => { h with m1Ext := false })) hkStatusRefFallback 1) 0x017 3 1 0 1
  else s1

/-- R322 HK_REF_WINDOW_EXIT. -/
def execHkRefWindowExit (s : State) : Host.Outcome State Fault Refusal := .next (refExitSt s)

/-- R322: M1 uses EXT where HK_CONFIG selects it and HK_REF is inside its window. -/
def hkChooseRef (s : State) : State := modHk s (fun h => { h with m1Ext := h.extIn && hkExt s })

/-- R322 HK_REF_RESTORE: HK_REF has stayed inside its window for 1 s. -/
def execHkRefRestore (s : State) : Host.Outcome State Fault Refusal :=
  .next (hkChooseRef (modHk s (fun h => { h with extIn := true })))

end Sys2Proof.Machine
end

