-- ==== Sys2Proof/Machine/RegRead.lean ====
section
/-! DEFINITION. What a register reads as (spec R457, R458, R465 and the register tables): the stored bits, the fields
computed from the state that has their value, and the fields whose value the spec leaves open. -/

namespace Sys2Proof.Machine
open Sys2Proof

/-- A value in bits [hi:lo], its low bits kept. -/
def fv (hi lo v : Nat) : Nat := (v % 2 ^ (hi + 1 - lo)) * 2 ^ lo

/-- One bit. -/
def fb (i : Nat) (b : Bool) : Nat := if b then 2 ^ i else 0

/-- A signed value saturated to a field. -/
def fs (hi lo : Nat) (v : Int) : Nat := fv hi lo (fieldOf (hi + 1 - lo) (satS (hi + 1 - lo) v))

/-- An unsigned value saturated to a field. -/
def fm (hi lo v : Nat) : Nat := fv hi lo (satU (hi + 1 - lo) v)

/-- The LO or HI half of a wide value. -/
def half (hiPart : Bool) (v : Nat) : Nat := if hiPart then v / 2 ^ 20 % 2 ^ 20 else v % 2 ^ 20

/-- An index below `n`, zero where `k` is not. -/
def finOf (n k : Nat) (h : 0 < n) : Fin n := ⟨k % n, Nat.mod_lt _ h⟩

/-- A line number. -/
def lineFin (k : Nat) : Fin 2 := finOf 2 k (by decide)

/-- R48: the anti-rollback counter: the number of the highest set thermometer bit plus 1. -/
def secCounter (s : State) : Nat :=
  (List.range 64).foldl (fun a i => if s.keeper.otp.therm.getLsbD i then i + 1 else a) 0

/-- R48: integrator key slot n is programmed. -/
def keyProgrammed (s : State) (n : Fin 4) : Bool := decide (vget s.keeper.otp.keys n ≠ 0)

/-- R46, R47: key slot n is revoked; in RETURN every slot is. -/
def keyRevoked (s : State) (n : Fin 4) : Bool := s.keeper.otp.revoke.getLsbD n.val || decide (lifecycle s = 3)

/-! ### Blocks 0x000 to 0x003 -/

/-- R466: the live fields of MG. -/
def liveMg (s : State) (o : Nat) : Nat :=
  if o = 1 then fb 10 (Config.trimGrade s.keeper.otp.trim)
  else if 2 ≤ o ∧ o ≤ 8 then s.keeper.otp.uid / 2 ^ (20 * (o - 2)) % 2 ^ 20
  else if o = 0x10 then (List.finRange 3).foldl (fun a l => a + fb (14 + l.val) (vget s.net.links l).changed) 0
  else if o = 0x21 then fv 16 10 s.fu.out.length
  else if o = 0x3A then fb 19 s.mgmt.snap.isSome
  else 0

/-- R455: the code of BM_CLOCK.SCS_REF. -/
def refCode (r : ClkRef) : Nat := match r with | .refclk => 0 | .alt => 1 | .none_ => 2

/-- R81, R455: the live fields of BM. -/
def liveBm (s : State) (o : Nat) : Nat :=
  let k := s.keeper
  if o = 0 then fv 19 18 (lifecycle s) + fv 15 9 (secCounter s)
  else if o = 2 then fv 9 8 k.boot.certSlot
    + (List.finRange 4).foldl (fun a n => a + fb (4 + n.val) (keyRevoked s n) + fb n.val (keyProgrammed s n)) 0
  else if o = 6 then fv 19 18 k.resetKind + fv 17 13 k.resetCause + fm 12 9 (recentWarm s).length
  else if o = 7 then fb 16 (decide (k.transit ≠ 0))
  else if o = 8 then fb 19 k.scsLock + fb 18 k.freqStale + fv 17 16 (refCode k.scsRef) + fb 15 (decide (k.coreRef = .alt))
    + fb 14 k.refPresent + fb 13 k.altPresent
  else 0

/-- R360: the live fields of TM. -/
def liveTm (s : State) (o : Nat) : Nat :=
  let t := s.time
  if o = 0 then fv 19 18 (timeCfg s).source + fv 17 16 t.freqRef + fb 15 t.trefPresent + fb 14 t.tref100 + fb 13 t.ppsPresent
    + fb 12 t.holdover + fb 11 (decide (8 ≤ t.good)) + fb 10 (decide (t.freqRef = 3))
  else if o = 0xC then fs 19 0 (ratRound (t.y * 1000000000))
  else 0

/-- R357: the mean deviation of the last monitor entries, in 2^-10 ns. -/
def monMean (c : TdcCh) : Int := if c.mon.isEmpty then 0 else roundEven (sumI c.mon) (1024 * c.mon.length)

/-- R360: the live fields of TD. -/
def liveTd (s : State) (o : Nat) : Nat :=
  if o = 0 then (List.finRange 9).foldl (fun a c => let h := vget s.time.ch c
    a + fb (11 + c.val) h.cal.isSome + fb (2 + c.val) (tdcStale h)) 0
  else if 0x20 ≤ o ∧ o < 0xB0 then
    let c : Fin 9 := finOf 9 ((o - 0x20) / 16) (by decide)
    let h := vget s.time.ch c
    match (o - 0x20) % 16 with
    | 0 => (match tdcCfg s c with
        | none => 0
        | some k => fb 19 true + fb 18 (armedFor s c k (stampNow s) = some true)
            + fv 17 16 (if (monitorOf s c).isSome then 2 else if k.interval then 1 else 0)) + fv 15 6 h.q.length
    | 0xA => fs 19 0 h.calTemp
    | 0xC => fm 19 0 (binWidth s c (getF s (tdChTabSelCode c.val)))
    | 0xE => fs 19 0 (monMean h)
    | _ => 0
  else 0

/-! ### Blocks 0x004 to 0x00C -/

/-- R136: a selection of CV_TAP_SEL names a value. -/
def tapValid (input slice kind comp : Nat) : Bool :=
  decide (input ≤ 5 ∧ kind ≤ 5) && (if isFast input then decide (slice ≤ 8) else decide (slice ≤ 3 ∧ kind ≠ 3))
    && (decide (kind ≠ 4) || decide (comp ≤ 9))

/-- R136: the live fields of CV. -/
def liveCv (s : State) (l : Fin 2) (o : Nat) : Nat :=
  let C := vget s.conv l
  if o = 0 then fb 19 C.shared + fb 18 C.settling
    + (List.finRange 6).foldl (fun a i => a + fb (4 + i.val) (decide (elapsed s < vget C.ovrUntil i))) 0
  else if o = 0xF then fb 19 (ramanInputCfg s l.val 0).1 + fb 18 (ramanInputCfg s l.val 1).1 + fv 17 16 (vget C.range 0)
    + fv 15 14 (vget C.range 1) + fb 13 (vget C.deferred 0).isSome + fb 12 (vget C.deferred 1).isSome
  else if o = 0x10 then (List.finRange 4).foldl (fun a i => a + fv (4 * i.val + 3) (4 * i.val) (vget C.spare i)) 0
  else if o = 0x12 then
    let i := getF s (cvTapSelInput l.val)
    let sl := getF s (cvTapSelSlice l.val)
    let k := getF s (cvTapSelKind l.val)
    let c := getF s (cvTapSelComp l.val)
    if tapValid i sl k c then
      fv 9 0 (fieldOf 10 (if k = 5 then calTarget C (calKey i sl 0 0) else calApplied C (calKey i sl k (if k = 4 then c else 0))))
    else 0
  else 0

/-- R109: the live fields of PS. -/
def livePs (s : State) (l : Fin 2) (o : Nat) : Nat :=
  let P := vget s.probe l
  if o = 0 then fb 18 P.ilkLow + fb 16 (rephasePending s P) + fv 15 0 (activeMask s l.val)
  else if o = 1 then fm 19 0 (tShot s l.val)
  else if o = 6 then half false (envAvg P)
  else if o = 7 then half true (envAvg P)
  else 0

/-- R155: the live fields of PC. -/
def livePc (s : State) (l : Fin 2) (o : Nat) : Nat :=
  let p := vget s.pce l
  let f := chanFlags s l.val
  if o = 0 then fb 19 p.measuring + fb 17 (bitOf f 0) + fb 16 (bitOf f 1) + fb 15 (!(bitOf f 2))
    + fm 14 0 (sumN ((slotsOf s l.val).map (fun c => c.g * c.len)))
  else if o = 2 then fm 19 0 p.delay
  else if o = 4 then fm 19 0 (groupIndex s l.val)
  else if 8 ≤ o ∧ o ≤ 11 then fs 19 0 (shrI (vget p.dc (finOf 4 (o - 8) (by decide))) 6)
  else 0

/-- R179: the largest number of branches of a group. -/
def maxBranches (s : State) (l : Nat) : Nat :=
  (dasOffsets s l).foldl (fun a d => max a (2 * ((slotsOf s l).filter (fun c => isDas c && decide (c.d = d))).length)) 0

/-- R179: the live fields of DA. -/
def liveDa (s : State) (o : Nat) : Nat :=
  let l := o / 16
  match dasCfg s l with
  | none => 0
  | some c =>
    match o % 16 with
    | 0 => fb 19 (dasOn s l) + fv 17 14 ((dasOffsets s l).length - 1) + fm 13 8 (maxBranches s l)
    | 1 => fv 10 0 c.m
    | 2 => fv 9 0 c.noise
    | 6 => half false (strainF s l c)
    | 7 => half true (strainF s l c)
    | _ => 0

/-- R289, R300: the byte address of the replay ring's index. -/
def ringBase (s : State) : Nat := Config.regionBase (getF s mgPlanIdId) (getF s mgPlanRevRev) 1

/-- R199: the live fields of DS. -/
def liveDs (s : State) (o : Nat) : Nat :=
  let l := lineFin (o / 16)
  match specCfg s l.val with
  | none => 0
  | some c =>
    match o % 16 with
    | 0 =>
      let n := cohStations s l.val
      fb 19 (specOn s l.val) + fb 18 ((List.range n).any (fun st => decide (specState s l.val st = 1)))
        + fm 17 0 (pendingStations s l.val)
    | 2 => fv 19 14 c.pLo + fv 13 7 c.cLine
    | 3 => fv 19 14 c.w + fv 13 8 c.redatumK
    | 4 => fv 19 10 c.outSweeps + fv 9 0 c.capSweeps
    | 9 => sweepsDone s l % 2 ^ 20
    | 0xA => half false (cellByte s 1 0 0 0)
    | 0xB => half true (cellByte s 1 0 0 0)
    | 0xC => fv 9 0 c.qMin
    | _ => 0

/-- R220: the live fields of RM. -/
def liveRm (s : State) (o : Nat) : Nat :=
  let l := lineFin (o / 16)
  let X := vget s.sense.ramanLine l
  let use : Nat × Bool := match X.use with
    | some (_, k, g) => (k, g)
    | none => match ramanCfg s l.val with | none => (0, false) | some c => (c.smooth, c.gainNorm)
  match o % 16 with
  | 0 => fb 19 (ramanOn s l.val) + fb 18 (fusionOn s l.val) + fb 16 (calOld s l.val) + fb 15 X.suspended + fb 14 use.2 + fv 13 10 use.1
  | 3 => half false (fieldOf 40 (ramanC s l))
  | 4 => half true (fieldOf 40 (ramanC s l))
  | _ => 0

/-! ### Traverses and streams -/

/-- R250: the lanes of a traverse that hold stations. -/
def lanesHolding (s : State) (t : Fin 8) : Nat :=
  match travLine s t with
  | none => 0
  | some l => ((List.range 64).filter (fun i =>
      decide (0 < (laneStations s l (cohStations s l) t i).2 ∨ 0 < (laneStations s l (ramanStations s l) t i).2))).length

/-- R250: TR_STATUS.STATE. -/
def travState (T : Trav) : Nat :=
  if T.oos then 5 else if T.clockChange then 4
  else match T.run with | .idle => 0 | .output | .raman => 2 | .service => 3 | .shot => 1

/-- R250: the live fields of TR. -/
def liveTr (s : State) (t : Fin 8) (o : Nat) : Nat :=
  let T := vget s.trav t
  match o with
  | 0 => fb 19 (travLine s t).isSome + fb 18 (decide (travLine s t = some 1)) + fv 17 15 (travState T) + fb 14 T.gang
      + fb 13 (T.lanes.any (fun x => x.aov)) + fb 12 (!T.susp.isEmpty) + fv 11 5 (lanesHolding s t)
  | 2 => fm 19 10 T.loadAvg + fm 9 0 T.loadPeak
  | 3 => fm 19 13 T.fg.length + fm 5 1 T.bg.length
  | _ => 0

/-- R276: the live fields of ST for stream n. -/
def liveSt (s : State) (n o : Nat) : Nat :=
  match streamAt s n with
  | none => 0
  | some c =>
    let x := strm s n
    match o with
    | 0 => fb 10 c.syncPin
    | 1 => fb 19 true + fb 18 (x.shed || streamShed s c) + fb 17 (x.chain.any (fun e => decide (0 < e.2.settle))) + fb 16 x.fade.isSome
        + fv 15 15 (match x.fade with | some f => f.target | none => x.bank) + fb 14 x.queued.isSome + fm 12 10 x.syncs.length
        + (streamTravs s c).foldl (fun a t => a + fb (2 + t.val) true) 0
    | 2 => fv 19 10 c.product + fv 9 9 c.line + fv 8 3 (c.a - 1) + fb 2 c.mean
    | 3 => fv 17 0 c.s0
    | 4 => fv 17 0 (c.nOut - 1)
    | 5 => fv 19 16 c.wm + fv 15 12 c.rank + fv 11 6 c.preSh
    | 6 => fv 19 17 c.order + fv 16 7 (c.r - 1)
    | 7 => fv 19 11 c.t + fv 10 7 (c.df - 1)
    | 8 => fv 19 18 (c.outWords - 1) + fv 17 5 c.frameWords
    | 9 => fm 19 10 (nSettle c) + fm 9 0 (x.chain.foldl (fun a e => max a e.2.settle) 0)
    | 0xF => fv 19 7 (match x.fade with | some f => f.k | none => 0)
    | 0x11 => if getF s (stCoefSelIndex n) < c.t then tabGet 0 x.coef (getF s (stCoefSelBank n) * 256 + getF s (stCoefSelIndex n)) else 0
    | 0x13 => x.seq % 2 ^ 20
    | _ => 0

/-! ### Ring, zones, housekeeping -/

/-- The code of a cursor's state. -/
def curCode (c : CurState) : Nat := match c with | .stopped => 0 | .running => 1 | .waiting => 2 | .seeking => 3 | .tail => 4

/-- R300: the live fields of BC. -/
def liveBc (s : State) (o : Nat) : Nat :=
  let c := s.code
  if 0x40 ≤ o then
    let x := vget c.cur (finOf 16 ((o - 0x40) / 8) (by decide))
    match o % 8 with
    | 4 => fv 19 17 (curCode x.st)
    | 5 => half false x.pos
    | 6 => half true x.pos
    | _ => 0
  else match o with
    | 0 => fb 19 (ringOn s) + fb 18 c.grow.isSome
    | 2 => fv 13 0 c.u
    | 3 => (match recOf s 0x140 with | none => 0 | some p => fv 13 0 (wAt p 0 2))
    | 4 => half false c.write
    | 5 => half true c.write
    | 6 => half false c.oldest
    | 7 => half true c.oldest
    | 0xE => fm 19 10 c.loadCoder + fm 9 0 c.loadRatio
    | 0xF => half false (ringBase s)
    | 0x10 => half true (ringBase s)
    | _ => 0

/-- R317: the live fields of ZN. -/
def liveZn (s : State) (o : Nat) : Nat :=
  let zs := (zonesOf s).map (fun c => zoneAt s c.z)
  let z := getF s znSelZone
  let x := zoneAt s z
  match o with
  | 0 => fv 19 18 (zs.foldl (fun a x => max a x.level) 0) + fb 17 (zs.any (fun x => decide (x.stale ≠ 0)))
      + fb 16 (zs.any (fun x => decide (x.fault ≠ 0))) + fv 12 0 zs.length
  | 1 => fv 12 0 (zs.filter (fun x => decide (x.level = 3))).length
  | 2 => fv 12 0 (zs.filter (fun x => decide (x.level = 2))).length
  | 4 => (match zoneCfg s z with
      | none => 0
      | some c => fv 19 18 x.level + fb 17 (decide (x.stale ≠ 0)) + fb 16 (decide (x.fault ≠ 0))
          + fb 15 (c.latch && decide ((zoneLevel { c with latch := false } x x.stamp).level < x.level))
          + fv 14 12 (lowCause x.fault) + fv 11 9 (lowCause x.stale) + fv 8 6 ((zoneSlice s c).elim 0 (fun t => t.val)) + fb 5 true)
  | 5 => if (zoneCfg s z).isSome then half false (fieldOf 40 x.a) else 0
  | 6 => if (zoneCfg s z).isSome then half true (fieldOf 40 x.a) else 0
  | 0xB => (List.finRange 4).foldl (fun a n => a + fb (16 + n.val) (vget s.zn.pins n)) 0
  | _ => 0

/-- The code of a loop's state. -/
def loopCode (x : LoopState) : Nat := match x with | .off => 0 | .normal => 1 | .fault => 2 | .hold => 3

/-- R317, R336: the live fields of HK. -/
def liveHk (s : State) (o : Nat) : Nat :=
  let h := s.hk
  if 0x100 ≤ o then
    let x := vget s.zn.loops (finOf 8 ((o - 0x100) / 8) (by decide))
    match o % 8 with
    | 0 => fv 19 17 (loopCode x.st) + fv 14 12 x.cause
    | 1 => fm 19 0 x.code
    | 2 => fm 19 0 x.sense
    | _ => 0
  else if 0x80 ≤ o ∧ o < 0x8A then fs 19 0 (vget h.rails (finOf 10 (o - 0x80) (by decide))).value
  else if 0x40 ≤ o ∧ o < 0x80 then
    let n : Fin 32 := finOf 32 ((o - 0x40) / 2) (by decide)
    let v := vget h.vals n
    if o % 2 = 0 then fs 19 0 v.value
    else fm 19 10 ((elapsed s - v.at_) / msU) + fb 9 v.valid
      + fb 8 (decide (n.val < 4) && (vget h.rtd (finOf 4 n.val (by decide))).open_) + fb 7 v.over_ + fb 6 v.fault
  else if 8 ≤ o ∧ o < 12 then
    let r := vget h.rtd (finOf 4 (o - 8) (by decide))
    fb 19 (rtdOn s (o - 8)) + fb 18 (rtdThree s (o - 8)) + fb 17 r.open_ + fv 15 12 r.leads.toNat + fv 11 9 r.gain
  else match o with
    | 0 => fb 19 h.extIn + fb 16 h.notchFree + fv 15 11 h.m1Ch + fv 10 8 h.m0 + fm 7 5 h.urgent.length
    | 4 => (List.finRange 10).foldl (fun a r => a + fb (10 + r.val) (vget h.rails r).low + fb r.val (vget h.rails r).high) 0
    | _ => 0

/-! ### Lanes, links and memory -/

/-- The code of a quad's state. -/
def quadCode (q : QuadState) : Nat :=
  match q with | .down => 0 | .detect => 1 | .absent => 2 | .blind => 3 | .train => 4 | .active => 5 | .idle => 6 | .test => 7

/-- A quad runs on formed settings. -/
def quadFormed (Q : Quad) : Bool := decide (Q.st = .active ∨ Q.st = .blind)

/-- R386: the live fields of SL; `d` is the draw its open fields take. -/
def liveSl (s : State) (d o : Nat) : Nat :=
  if o < 0x60 then
    let q : Fin 3 := finOf 3 (o / 32) (by decide)
    let Q := vget s.net.quads q
    match o % 32 with
    | 0 => fv 19 17 (quadCode Q.st)
        + fv 16 15 (rateNow Q)
        + (if quadFormed Q then fv 14 13 (match Q.width with | 0 => 0 | 1 => 1 | 2 => 2 | _ => 3) + fv 12 9 Q.inUse
            + fb 8 Q.reversed else 0)
        + (if Q.st = .train then fv 7 6 Q.step else 0) + fm 5 0 Q.fails
    | 1 => (match quadCfg s q with | none => 0 | some c => fv 17 16 (match c.widthMax with | 1 => 1 | 2 => 2 | _ => 3))
    | 2 => fb 14 Q.partnerFe
    | _ => 0
  else if 0x80 ≤ o then
    let n := (o - 0x80) / 8
    let Q := vget s.net.quads (finOf 3 (n / 4) (by decide))
    let p : Fin 4 := finOf 4 (n % 4) (by decide)
    let x := vget Q.lanes p
    let used := quadFormed Q && bitOf Q.inUse p.val
    match o % 8 with
    | 0 => fb 19 x.present + fb 18 x.los + fb 17 (x.symLock || (x.present && !x.los && bitOf (Config.freeNat d) 0)) + fb 16 x.symLock
        + fb 15 x.polInv + (if used then fv 14 13 (logicalLane Q p.val) else 0) + fb 12 used + fb 11 x.prbsLock
    | 3 => fv 19 17 x.preset + fv 16 12 (Config.freeNat d) + fv 11 2 (Config.freeNat (d + 1))
    | _ => 0
  else 0

/-- R411: the live fields of LK. -/
def liveLk (s : State) (o : Nat) : Nat :=
  if o < 0x60 then
    let l : Fin 3 := finOf 3 (o / 32) (by decide)
    let L := vget s.net.links l
    let Q := vget s.net.quads l
    match o % 32 with
    | 0 => fb 17 L.creditOk + (if Q.partner < 4096 then fv 15 4 Q.partner + fv 3 2 Q.role else 0)
    | 1 => fm 19 10 (outFill L * 1000 / 4194304) + fm 9 0 (fwdFill L * 1000 / 327680)
    | _ => 0
  else match o with
    | 0x80 => let (a, t, h) := chainCfg s; fv 19 8 a + fv 7 6 t + fv 5 4 h
    | 0x81 => fb 7 s.net.levelValid + fb 6 s.net.failover
    | 0x84 => fv 19 15 s.net.timed.length
    | _ => 0

/-- R436: the live fields of DM; `d` is the draw its open fields take. -/
def liveDm (s : State) (d o : Nat) : Nat :=
  let m := s.mem
  if 0x10 ≤ o then
    let c : Fin 4 := finOf 4 (o - 0x10) (by decide)
    let x := vget m.ch c
    fv 19 18 (if !(dmFitted s c.val) then 0 else if x.training then 2 else if x.inService then 3 else 1) + fv 17 15 x.trained
      + (if x.training then fv 14 12 x.step else 0) + fm 11 6 (recentHard s c).length + fm 5 0 x.drift.natAbs
  else if 2 ≤ o ∧ o ≤ 5 then fv 9 0 (Config.freeNat d)
  else match o with
    | 0 => fv 19 18 m.setPoint + fb 17 m.freeze.isSome + fb 16 (match m.freeze with | none => false | some f => f.retrain)
        + fb 15 m.forced + fb 14 m.blackout.isSome
        + (List.finRange 4).foldl (fun a c => a + fb (10 + c.val) (vget m.ch c).inService + fb (6 + c.val) (vget m.ch c).training) 0
    | 1 => let load := Config.freeNat d % 1001; fv 19 10 load + fv 9 0 (max load (Config.freeNat (d + 1) % 1001))
    | 0xD => fm 19 10 (m.scrub * 1000 / max 1 (scrubBlocks s))
    | _ => 0

/-! ### One read -/

/-- The live fields of the register at an address; `d` is the draw its open fields take. -/
def liveBits (s : State) (d a : Nat) : Nat :=
  let o := a % 1024
  match a / 1024 with
  | 0x000 => liveMg s o
  | 0x001 => liveBm s o
  | 0x002 => liveTm s o
  | 0x003 => liveTd s o
  | 0x004 | 0x005 => liveCv s (lineFin (a / 1024 - 4)) o
  | 0x006 | 0x007 => livePs s (lineFin (a / 1024 - 6)) o
  | 0x008 | 0x009 => livePc s (lineFin (a / 1024 - 8)) o
  | 0x00A => liveDa s o
  | 0x00B => liveDs s o
  | 0x00C => liveRm s o
  | 0x030 => liveBc s o
  | 0x031 => liveZn s o
  | 0x032 => liveHk s o
  | 0x034 => liveSl s d o
  | 0x035 => liveLk s o
  | 0x038 => liveDm s d o
  | 0x03C => if o = 0 then fv 19 10 s.log.next else if o = 1 then fv 10 0 s.log.entries.length else 0
  | b => if 0x010 ≤ b ∧ b ≤ 0x017 then liveTr s (finOf 8 (b - 0x010) (by decide)) o
         else if 0x020 ≤ b ∧ b ≤ 0x02F then liveSt s ((a - 0x8000) / 64) (a % 64)
         else 0

/-- A register with fields whose value the spec leaves open: the memory loads, a lane's clock lock, CTLE and
eye margin. -/
def readsFree (a : Nat) : Bool :=
  let o := a % 1024
  match a / 1024 with
  | 0x034 => decide (0x80 ≤ o) && (decide (o % 8 = 0) || decide (o % 8 = 3))
  | 0x038 => decide (1 ≤ o ∧ o ≤ 5)
  | _ => false

/-- The bits of a register a WRITE reaches or the engine keeps, as the register holds them; a WO field reads 0. -/
def storedBits (s : State) (a : Nat) : Nat :=
  regGet s a &&& regMask (fun r => !r.live && decide (r.acc ≠ .wo)) a

/-- R457, R458: what a read returns, and the state with the free values it drew. -/
def regRead (s : State) (a : Nat) : Nat × State :=
  let v := (storedBits s a ||| (liveBits s s.freeCtr a &&& regMask (fun r => r.live) a)) % 2 ^ 20
  (v, if readsFree a then { s with freeCtr := s.freeCtr + 2 } else s)

/-- R465: a read clears the register's RC fields. -/
def clearRc (s : State) (a : Nat) : State :=
  regPut s a (regGet s a &&& (2 ^ 20 - 1 - regMask (fun r => decide (r.acc = .rc)) a))

/-- R465: a READ: the value, and the state with the RC fields cleared. -/
def regReadRc (s : State) (a : Nat) : Nat × State :=
  let (v, s1) := regRead s a
  (v, clearRc s1 a)

/-- R21, R456: the island that owns a register; an ST register belongs to its lowest producing traverse, and without
one to island 1. -/
def regIsland (s : State) (a : Nat) : Nat :=
  if 0x8000 ≤ a ∧ a < 0xC000 then
    match (streamAt s ((a - 0x8000) / 64)).bind (fun c => (streamTravs s c).head?) with
    | none => 1
    | some t => 10 + t.val
  else blockIsland a

/-- R457: the register's island is held in reset, stopped by standby or failed. -/
def regBusy (s : State) (a : Nat) : Bool :=
  !([0x000, 0x001, 0x031, 0x03C].contains (a / 1024)) && bitOf (heldMask s) (regIsland s a)

end Sys2Proof.Machine
end

