-- ==== Sys2Proof/Machine/RegWrite.lean ====
section
/-! DEFINITION. Writing registers (spec R29, R40, R67, R458 to R467, R471, R395, R396): permission classes, the checks of a
write, what a write does at once and what it holds for a fence, and what a held write brings about when it lands. -/

namespace Sys2Proof.Machine
open Sys2Proof

/-! ### Classes -/

/-- R67: the class of a writable field, by the register's chapter; none where the field needs no class. -/
def fieldClass (a : Nat) (r : RegRow) : Option Nat :=
  let o := a % 1024
  if r.acc = .w1c then none
  else match a / 1024 with
  | 0x000 => if o = 0x20 ∨ o = 0x21 then some 15 else none
  | 0x002 => if o = 8 ∨ o = 9 then some 9 else none
  | 0x003 => if 0x20 ≤ o ∧ o < 0xB0 then
      (match (o - 0x20) % 16 with
        | 1 => if r.lo = 16 then none else some 8
        | 0xD => some 8
        | _ => none)
    else none
  | 0x008 | 0x009 | 0x00B => some 11
  | 0x00C => some 12
  | 0x030 => some 5
  | 0x031 => if o = 7 then some 2 else none
  | 0x032 => if 0x100 ≤ o then some 7 else if o = 1 then some 18 else some 12
  | 0x034 => if o % 32 = 1 ∧ r.lo = 15 then some 17 else some 10
  | b =>
    if 0x010 ≤ b ∧ b ≤ 0x017 then some 13
    else if 0x020 ≤ b ∧ b ≤ 0x02F then
      (let x := a % 64
       if x = 0 then some 0 else if x = 0x12 then (if r.lo = 19 then some 17 else some 4) else if x < 0x20 then some 1 else some 6)
    else none

/-- A field that a write can change or act on. -/
def writable (r : RegRow) : Bool := decide (r.acc = .rw ∨ r.acc = .rwf ∨ r.acc = .wo ∨ r.acc = .w1c)

/-- The fields of a register that a mask touches. -/
def touched (a m : Nat) : List RegRow := (regRows a).filter (fun r => decide (m &&& rowMask r ≠ 0))

/-- R67: every class that a write of a register under a mask needs is permitted. The classes are those of the fields the
mask touches. -/
def classOk (s : State) (a m : Nat) : Bool :=
  ((touched a m).filter writable).all (fun r => match fieldClass a r with | none => true | some c => permits s c)

/-- R40, R67: a Benchmark register, or a mask that touches an RWB field. -/
def benchOwned (a m : Nat) : Bool := decide (a / 1024 = 0x001) || (touched a m).any (fun r => decide (r.acc = .rwb))

/-! ### Ranges -/

/-- R458: fields whose stated range is narrower than their bits: high bit, low bit, least and greatest value. -/
def ranges (s : State) (a : Nat) : List (Nat × Nat × Nat × Nat) :=
  let o := a % 1024
  match a / 1024 with
  | 0x004 | 0x005 => if o = 0x11 then
      [(15, 13, 0, 5), (12, 9, 0, if getF s (cvTapSelInput (a / 1024 - 4)) < 4 then 8 else 3), (8, 6, 0, 5), (5, 2, 0, 9)] else []
  | 0x030 =>
    if o = 1 then [(13, 0, 16, match recOf s 0x140 with | none => 0 | some p => wAt p 0 2)]
    else if 0x40 ≤ o ∧ o < 0xC0 then
      (match o % 8 with | 0 => [(19, 18, 0, 2)] | 1 => [(17, 15, 0, 3)] | _ => [])
    else []
  | 0x034 => if o < 0x60 ∧ o % 32 = 2 then [(19, 17, 0, 4)] else []
  | b =>
    if 0x010 ≤ b ∧ b ≤ 0x017 then (if o = 1 then [(19, 14, 16, 32)] else [])
    else if 0x020 ≤ b ∧ b ≤ 0x02F then
      (let x := a % 64
       if x = 0 then [(12, 11, 0, 2)]
       else if x = 0xB then [(19, 14, 0, 40)]
       else if x = 0xE then [(17, 5, 16, 4096)]
       else if 0x20 ≤ x ∧ x % 8 = 0 then [(18, 16, 0, 4)]
       else if 0x20 ≤ x ∧ x % 8 = 6 then [(19, 10, 1, 1023)]
       else [])
    else []

/-- R458: the value a write would leave in some field it touches lies outside that field's range. The slice of
CV_TAP_SEL is judged by the input the same write selects. -/
def rangeBad (s : State) (a v m : Nat) : Bool :=
  let new := (storedBits s a &&& (2 ^ 20 - 1 - m % 2 ^ 20)) ||| (v &&& m)
  (ranges (if a / 1024 = 4 ∨ a / 1024 = 5 then setF s (cvTapSelInput (a / 1024 - 4)) (bitsOf new 15 13) else s) a).any (fun x =>
    let f := bitsOf new x.1 x.2.1
    decide (m &&& (2 ^ (x.1 + 1) - 2 ^ x.2.1) ≠ 0) && decide (f < x.2.2.1 ∨ x.2.2.2 < f))

/-! ### Snapshots and the log window -/

/-- R464: the registers of a snapshot copied, and with CLEAR their RC fields cleared, in one instant; none where it
crosses a block, names an unmapped register or finds its island in reset. -/
def snapshotSt (s : State) (clear : Bool) (count : Nat) : State :=
  let a0 := getF s mgSnapAddrAddr
  let as_ := (List.range count).map (fun i => a0 + i)
  if as_.all (fun a => decide (a / 1024 = a0 / 1024) && regDefined a && !(regBusy s a)) then
    let (vs, s1) := as_.foldl (fun (x : List Nat × State) a => let (v, s1) := regRead x.2 a; (x.1 ++ [v], s1)) ([], s)
    let s2 := if clear then as_.foldl clearRc s1 else s1
    { s2 with mgmt := { s2.mgmt with snap := some (some vs) } }
  else { s with mgmt := { s.mgmt with snap := some none } }

/-- R464: the snapshot is complete. -/
def snapDoneSt (s : State) : State :=
  match s.mgmt.snap with
  | none => s
  | some r =>
    let s1 := { s with mgmt := { s.mgmt with snap := none } }
    match r with
    | none => setF s1 mgSnapStatusErr 1
    | some vs => setF ((List.range 8).foldl (fun s i => setF s (mgSnapDataData i) (lget 0 vs i)) s1) mgSnapStatusErr 0

/-- R464 SNAPSHOT_COMPLETE. -/
def execSnapshotComplete (s : State) : Host.Outcome State Fault Refusal := .next (snapDoneSt s)

/-- R468: the entry at an index of the circular buffer; none where it holds none. -/
def logIndex (s : State) (i : Nat) : Option (List Word) :=
  let n := s.log.entries.length
  let back := (s.log.next + 1024 - 1 - i % 1024) % 1024
  if back < n then s.log.entries[n - 1 - back]? else none

/-- R471: EV_ENTRY shows the entry that EV_SEL selects; zeros where there is none. -/
def evShow (s : State) : State :=
  let v := match logIndex s (getF s evSelIndex) with | none => 0 | some e => wordsVal e
  (List.range 4).foldl (fun s k => setF s (evEntryWords k) (v / 2 ^ (20 * k))) s

/-- R471 EVENT_LOG_SELECT: a write to EV_SEL. -/
def execEventLogSelect (index : Fin 1024) (s : State) : Host.Outcome State Fault Refusal :=
  .next (evShow (setF s evSelIndex index.val))

/-! ### What a write does at once -/

/-- R467: a fence that the host issues; none where R27 refuses it. -/
def hostFence (s : State) : State × Nat :=
  if fenceRoom s then
    let id := s.fu.nextId
    (setF (setF (issueFence s (getF s mgFenceScopeMask) .host []) mgFenceStatus 1) mgFenceHostId id, 0)
  else (setF s mgFenceStatus 2, 7)

/-- The actions of the WO fields of a register that act at once; `v` holds the bits written as 1. -/
def woActions (s : State) (a v : Nat) : State :=
  let o := a % 1024
  let on (i : Nat) : Bool := bitOf v i
  let iff (b : Bool) (f : State → State) (s : State) : State := if b then f s else s
  match a / 1024 with
  | 0x000 => if o = 0x30 then iff (on 19) (fun s => snapshotSt s (on 18) (bitsOf v 17 15 + 1)) s else s
  | 0x002 => if o = 1 then iff (on 19) (snapSt (finOf 4 (bitsOf v 18 17) (by decide))) s else s
  | 0x003 =>
    if 0x20 ≤ o ∧ o < 0xB0 ∧ o % 16 = 1 then
      let c : Fin 9 := finOf 9 ((o - 0x20) / 16) (by decide)
      iff (on 16) (tdcPopSt c) (iff (on 17) (fun s => startTdcCal s c) (iff (on 18) (softArm c false) (iff (on 19) (softArm c true) s)))
    else s
  | 0x008 | 0x009 =>
    let l := lineFin (a / 1024 - 8)
    iff (on 19) (fun s => match launchRef s l.val with
      | none => s
      | some r => if r.mode = 1 then startMeasure s l else s) s
  | 0x00B => let l := lineFin (o / 16); iff (on 19 && (specCfg s l.val).isSome) (fun s => wantCapture s l) s
  | 0x00C => iff (on 19) (coilcalSt (lineFin (o / 16))) s
  | 0x031 => iff (on 19) znAckSt s
  | 0x032 =>
    if o = 1 then iff (on 19) (urgentSt (bitsOf v 18 14)) s
    else iff (on 19) (loopReleaseCmdSt (finOf 8 ((o - 0x100) / 8) (by decide))) s
  | 0x034 => iff (on 15) (linkResetSt (finOf 3 (o / 32) (by decide))) s
  | b =>
    if 0x020 ≤ b ∧ b ≤ 0x02F then
      let n := (a - 0x8000) / 64
      iff (on 18) (fun s => addSync s n (stampNow s + 50 * usU)) (iff (on 19) (streamResetSt n) s)
    else s

/-- R300, R259: a register whose WO or RWF bits are commands that a fence takes: BC_CURc_CMD. -/
def fenceCmd (a : Nat) : Bool := decide (a / 1024 = 0x030 ∧ 0x40 ≤ a % 1024 ∧ a % 1024 < 0xC0 ∧ a % 8 = 1)

/-- R341: TM_INC is written only under FREE. -/
def incClosed (s : State) (a : Nat) : Bool := decide (a = 0x808 ∨ a = 0x809) && decide ((timeCfg s).source ≠ 0)

/-- The bits of a write that a fence takes: RWF bits and cursor commands; a 0 written to a command bit does nothing. -/
def heldMaskOf (s : State) (a v m : Nat) : Nat :=
  if incClosed s a then 0
  else if fenceCmd a then v &&& m &&& regMask (fun r => decide (r.acc = .wo)) a
  else
    let w := m &&& regMask (fun r => decide (r.acc = .rwf) && !r.live) a
    if 0x8000 ≤ a ∧ a < 0xC000 ∧ a % 64 = 0xE ∧ bitOf v 19 = false then w &&& (2 ^ 19 - 1) else w

/-- R29, R76: bits held for the next fence of their island; a write from a link or the service port asks for one. -/
def holdWrite (s : State) (ext : Bool) (a v mh : Nat) : State :=
  if mh = 0 then s
  else
    let s1 := if 0x8000 ≤ a ∧ a < 0xC000 ∧ a % 64 = 0xE ∧ bitOf mh 19 = true then setF s (stSwapReq ((a - 0x8000) / 64)) 1 else s
    { s1 with fu := { s1.fu with
      held := s1.fu.held ++ [{ addr := a, mask := mh, value := v &&& mh, serial := s1.fu.issued }],
      autoMask := if ext then s1.fu.autoMask ||| 2 ^ regIsland s1 a else s1.fu.autoMask } }

/-- R459: RW bits under the mask, and W1C bits written as 1. -/
def storeWrite (s : State) (a v m : Nat) : State :=
  let rw := m &&& regMask (fun r => decide (r.acc = .rw) && !r.live) a
  let clr := v &&& m &&& regMask (fun r => decide (r.acc = .w1c) && !r.live) a
  let old := regGet s a
  let new := ((old &&& (2 ^ 20 - 1 - rw)) ||| (v &&& rw)) &&& (2 ^ 20 - 1 - clr)
  let s1 := regPut s a new
  if 0x4000 ≤ a ∧ a < 0x6000 ∧ a % 1024 = 0 ∧ bitOf (v &&& m) 13 = true then
    modTrav s1 (finOf 8 (a / 1024 - 16) (by decide)) (fun T => { T with lanes := T.lanes.map (fun x => { x with aov := false }) })
  else s1

/-- R258: a write to ST_COEF_DATA, which replaces the selected coefficient under the mask. -/
def coefDataWrite (s : State) (n v m : Nat) : State × Nat :=
  let a := 0x8011 + 64 * n
  let new := (liveBits s 0 a &&& (2 ^ 20 - 1 - m)) ||| (v &&& m)
  match coefWrite s n new with
  | (t, .stored) => (t, 0)
  | (t, .busy) => (t, 2)
  | (t, .none_) => (t, 3)

/-- R458, R459, R395: one register written under a mask, its class, owner and address already checked: the state, and 0
or the detail of a refusal at the moment of writing. -/
def regWrite (s : State) (ext : Bool) (a v m : Nat) : State × Nat :=
  let st := decide (0x8000 ≤ a ∧ a < 0xC000)
  let n := (a - 0x8000) / 64
  if rangeBad s a v m then (s, 1)
  else if st && decide (a % 64 = 0x11) then (if m = 0 then (s, 0) else coefDataWrite s n v m)
  else if st && decide (a % 64 = 0xE) && bitOf (v &&& m) 19 && (match streamAt s n with | none => true | some c => decide (c.t = 0)) then (s, 3)
  else if a = 0x21 ∧ bitOf (v &&& m) 19 = true then hostFence s
  else
    let s1 := storeWrite s a v m
    let s2 := holdWrite s1 ext a v (heldMaskOf s1 a v m)
    let s3 := if fenceCmd a then s2 else woActions s2 a (v &&& m &&& regMask (fun r => decide (r.acc = .wo)) a)
    (if a = 0xF002 ∧ m ≠ 0 then evShow s3 else s3, 0)

/-! ### What a held write brings about -/

/-- R29: the bits of several held writes of one register: the last value written to each bit. -/
def mergeHeld (ws : List HeldWrite) : Nat × Nat :=
  ws.foldl (fun x w => (x.1 ||| w.mask, (x.2 &&& (2 ^ 20 - 1 - w.mask)) ||| w.value)) (0, 0)

/-- The stored bits of a register take a held value. -/
def landBits (s : State) (a m v : Nat) : State :=
  if fenceCmd a then s else regPut s a ((regGet s a &&& (2 ^ 20 - 1 - m)) ||| (v &&& m))

/-- What the landing of a register's bits brings about; `b` is the state before the registers of this fence landed. -/
def landEffect (b s : State) (a m v : Nat) : State :=
  let o := a % 1024
  match a / 1024 with
  | 0x030 =>
    if o = 1 then setRingLen s (getF s bcRingLenChunks)
    else if fenceCmd a then
      let c : Fin 16 := finOf 16 ((o - 0x40) / 8) (by decide)
      let k := bitsOf v 17 15
      let s1 := if k = 0 then s else beginSeek c k (if k = 3 then seekOperand s c else 0) s
      let s2 := if bitOf v 19 then cursorStartSt c s1 else s1
      if bitOf v 18 then cursorStopSt c s2 else s2
    else s
  | 0x032 =>
    if 0x100 ≤ o then loopSourceUpdated s (fun c => decide (c.src = 4))
    else (List.finRange 2).foldl apdUpdate s
  | 0x034 =>
    let q : Fin 3 := finOf 3 (o / 32) (by decide)
    if o % 32 = 1 then (if getF b (slQCtrlRateMax q.val) = getF s (slQCtrlRateMax q.val) then s else rateChanged s q)
    else testChanged s q
  | k =>
    if 0x010 ≤ k ∧ k ≤ 0x017 then
      let t : Fin 8 := finOf 8 (k - 0x010) (by decide)
      modTrav s t (fun T => { T with clockChange := decide (getF s (trClockSteps t.val) ≠ getF s (trClockApplied t.val)) })
    else if 0x020 ≤ k ∧ k ≤ 0x02F ∧ a % 64 = 0xE ∧ bitOf m 19 = true then
      let n := (a - 0x8000) / 64
      takeSwap (setF s (stSwapReq n) 0) n (getF s (stSwapTarget n)) (getF s (stSwapF n))
    else s

/-- R29: the held writes land: every register's bits, then what each brings about. -/
def landWrites (s : State) (ws : List HeldWrite) : State :=
  let as_ := (ws.map (fun w => w.addr)).eraseDups
  let each := as_.map (fun a => (a, mergeHeld (ws.filter (fun w => decide (w.addr = a)))))
  let s1 := each.foldl (fun s x => landBits s x.1 x.2.1 x.2.2) s
  each.foldl (fun t x => landEffect s t x.1 x.2.1 x.2.2) s1

/-! ### Paths -/

/-- R462: a LO register of a pair; its HI follows it. -/
def isLo (a : Nat) : Bool :=
  let o := a % 1024
  match a / 1024 with
  | 0x002 => decide (o = 8 ∨ o = 0xA)
  | 0x006 | 0x007 => decide (o = 6)
  | 0x00A => decide (o % 16 = 6)
  | 0x00B => decide (o % 16 = 0xA)
  | 0x00C => decide (o % 16 = 3)
  | 0x030 => decide (o = 4 ∨ o = 6 ∨ o = 0xF) || (decide (0x40 ≤ o ∧ o < 0xC0) && decide (o % 8 = 2 ∨ o % 8 = 5))
  | 0x031 => decide (o = 5)
  | 0x035 => decide (o = 0x82)
  | 0x038 => decide (o = 0xA)
  | b => decide (0x020 ≤ b ∧ b ≤ 0x02F) && (let x := a % 64; decide (x = 0xC) || (decide (0x20 ≤ x) && decide (x % 8 = 1 ∨ x % 8 = 3)))

/-- A LO register of an RW or RWF pair (R463). -/
def isLoWritable (a : Nat) : Bool := isLo a && (regRows a).any (fun r => decide (r.acc = .rw ∨ r.acc = .rwf))

/-- The HI register of a pair. -/
def isHi (a : Nat) : Bool := decide (0 < a) && isLo (a - 1)

/-- One path's state. -/
def pathOf (s : State) (p : Path) : PathSt := vget s.mgmt.paths p

/-- The state with one path changed. -/
def modPath (s : State) (p : Path) (f : PathSt → PathSt) : State :=
  { s with mgmt := { s.mgmt with paths := vmod s.mgmt.paths p f } }

/-- R462: a READ of one register on a path. -/
def pathRead (s : State) (p : Path) (a : Nat) : Nat × State :=
  match (pathOf s p).shadow with
  | some (h, v) =>
    if h = a then (v, modPath s p (fun x => { x with shadow := none }))
    else if isLo a then let hi := (regRead s (a + 1)).1; let (w, s1) := regReadRc s a
      (w, modPath s1 p (fun x => { x with shadow := some (a + 1, hi) }))
    else regReadRc s a
  | none =>
    if isLo a then let hi := (regRead s (a + 1)).1; let (w, s1) := regReadRc s a
      (w, modPath s1 p (fun x => { x with shadow := some (a + 1, hi) }))
    else regReadRc s a

/-- R396 status codes. -/
def stOk : Nat := 0
def stNotPermitted : Nat := 1
def stBenchOwned : Nat := 2
def stUnmapped : Nat := 3
def stRefused : Nat := 4
def stBusy : Nat := 5
def stBadRequest : Nat := 6

/-- The addresses of a transaction. -/
def addrsOf (a c : Nat) : List Nat := (List.range c).map (fun i => a + i)

/-- The registers of a READ whose checks have passed; an unmapped one reads 0. -/
def readAll (s : State) (p : Path) (as_ : List Nat) : List Nat × State :=
  as_.foldl (fun (x : List Nat × State) a =>
    if regDefined a then let (v, s1) := pathRead x.2 p a; (x.1 ++ [v], s1) else (x.1 ++ [0], x.2)) ([], s)

/-- R395, R457: a READ transaction: status and values. Where some address is unmapped the status is UNMAPPED. -/
def readRegs (s : State) (p : Path) (a c : Nat) : Nat × List Nat × State :=
  let as_ := addrsOf a c
  if c = 0 ∨ 256 < c ∨ as_.any (fun b => decide (b / 1024 ≠ a / 1024)) = true then (stBadRequest, [], s)
  else if as_.any (fun b => regDefined b && regBusy s b) then (stBusy, List.replicate c 0, s)
  else
    let (vs, s1) := readAll s p as_
    (if as_.all regDefined then stOk else stUnmapped, vs, s1)

/-- R463: one register written on a path: a LO of a writable pair is staged, a HI takes with it the LO staged less than
1 s before. -/
def pathWrite (s : State) (p : Path) (a v m : Nat) : State × Nat :=
  let ext := decide (p.val ≤ 3)
  let x := pathOf s p
  let s0 := if isLo a then modPath s p (fun x => { x with staged := none }) else s
  if isLoWritable a then
    (modPath s0 p (fun x => { x with staged := some (a, v, m, elapsed s) }), 0)
  else
    match x.staged with
    | some (b, w, k, t) =>
      if isHi a ∧ b + 1 = a ∧ elapsed s < t + secU then
        let (s1, _) := regWrite (modPath s0 p (fun x => { x with staged := none })) ext b w k
        regWrite s1 ext a v m
      else regWrite s0 ext a v m
    | none => regWrite s0 ext a v m

/-- The registers of a WRITE in order, up to the first that refuses: the state, how many were written, the detail. -/
def writeAll (p : Path) (m : Nat) : List (Nat × Nat) → State → Nat → State × Nat × Nat
  | [], s, i => (s, i, 0)
  | (a, v) :: t, s, i =>
    match pathWrite s p a v m with
    | (s1, 0) => writeAll p m t s1 (i + 1)
    | (s1, d) => (s1, i, d)

/-- R395: a WRITE transaction: status, detail, index of the first register not written (1,023 when all were). Address,
owner and class are checked for every register before any is written. -/
def writeRegs (s : State) (p : Path) (a m : Nat) (vs : List Nat) : Nat × Nat × Nat × State :=
  let as_ := addrsOf a vs.length
  let ext := decide (p.val ≤ 3)
  if vs.isEmpty ∨ 256 < vs.length ∨ as_.any (fun b => decide (b / 1024 ≠ a / 1024)) = true then (stBadRequest, 0, 0, s)
  else if !(as_.all regDefined) then (stUnmapped, 0, 0, s)
  else if as_.any (fun b => benchOwned b m) then
    (stBenchOwned, 0, 0, if !ext && as_.any (fun b => (touched b m).any (fun r => decide (r.acc = .rwb))) then bump s bmViolationCount else s)
  else if ext && !(as_.all (fun b => classOk s b m)) then (stNotPermitted, 0, 0, s)
  else if as_.any (regBusy s) then (stBusy, 0, 0, s)
  else match writeAll p m (as_.zip vs) s 0 with
    | (s1, _, 0) => (stOk, 0, 1023, s1)
    | (s1, i, d) => (stRefused, d, i, s1)

/-- The answer to a path's transaction. -/
def pathAnswer (s : State) (p : Path) (status detail : Nat) (vs : List Nat) : State :=
  modPath s p (fun x => { x with status := status, detail := detail, values := vs })

/-- A READ transaction on a path, with its answer. -/
def readSt (p : Path) (a c : Nat) (s : State) : State :=
  let (st, vs, s1) := readRegs s p a c
  pathAnswer s1 p st 0 vs

/-- A WRITE transaction on a path, with its answer. -/
def writeSt (p : Path) (a m : Nat) (vs : List Nat) (s : State) : State :=
  let (st, d, i, s1) := writeRegs s p a m vs
  pathAnswer s1 p st d [i]

/-- R465 RC_READ: a READ of one register. -/
def execRcRead (path : Path) (addr : BitVec 20) (s : State) : Host.Outcome State Fault Refusal := .next (readSt path addr.toNat 1 s)

/-- R462 LO_READ_CAPTURE: a READ of one register, which for a LO captures its HI. -/
def execLoReadCapture (path : Path) (addr : BitVec 20) (s : State) : Host.Outcome State Fault Refusal :=
  .next (readSt path addr.toNat 1 s)

/-- R462 HI_READ_SHADOW: a READ of one register, which for a captured HI returns the shadow. -/
def execHiReadShadow (path : Path) (addr : BitVec 20) (s : State) : Host.Outcome State Fault Refusal :=
  .next (readSt path addr.toNat 1 s)

/-- R459 REGISTER_WRITE. -/
def execRegisterWrite (path : Path) (addr value mask : BitVec 20) (s : State) : Host.Outcome State Fault Refusal :=
  .next (writeSt path addr.toNat mask.toNat [value.toNat] s)

/-- R463 LO_WRITE_STAGE: a WRITE of one register, which for a LO of a writable pair is staged. -/
def execLoWriteStage (path : Path) (addr value mask : BitVec 20) (s : State) : Host.Outcome State Fault Refusal :=
  .next (writeSt path addr.toNat mask.toNat [value.toNat] s)

/-- R463 HI_WRITE_COMMIT: a WRITE of one register, which for a HI writes both halves. -/
def execHiWriteCommit (path : Path) (addr value mask : BitVec 20) (s : State) : Host.Outcome State Fault Refusal :=
  .next (writeSt path addr.toNat mask.toNat [value.toNat] s)

/-- R463 LO_STAGE_EXPIRY: 1 s after it was staged. -/
def execLoStageExpiry (path : Path) (s : State) : Host.Outcome State Fault Refusal :=
  .next (whenB (match (pathOf s path).staged with | none => false | some (_, _, _, t) => decide (t + secU ≤ elapsed s)) s
    (modPath s path (fun x => { x with staged := none })))

/-- R467 HOST_FENCE_ISSUE: a WRITE of 1 to MG_FENCE.ISSUE. -/
def execHostFenceIssue (path : Path) (s : State) : Host.Outcome State Fault Refusal :=
  .next (writeSt path 0x21 (2 ^ 19) [2 ^ 19] s)

/-- R464 REGISTER_SNAPSHOT: a WRITE to MG_SNAP_CMD. -/
def execRegisterSnapshot (path : Path) (clear : Bool) (count : Fin 8) (s : State) : Host.Outcome State Fault Refusal :=
  .next (writeSt path 0x30 (2 ^ 20 - 1) [2 ^ 19 + fb 18 clear + count.val * 2 ^ 15] s)

end Sys2Proof.Machine
end

