-- ==== Sys2Proof/Machine/Fences.lean ====
section
/-! DEFINITION. What a fence brings about (spec R23, R25 to R30, R72, R76, R225): the islands a plan record belongs to,
what a record does when it takes effect, acknowledgement, completion and time-out. -/

namespace Sys2Proof.Machine
open Sys2Proof

/-! ### Records and islands -/

/-- The traverses of a list as islands, 1 where there are none. -/
def travIslands (ts : List (Fin 8)) : List Nat := if ts.isEmpty then [1] else ts.map (fun t => 10 + t.val)

/-- The producing traverses of a stream, as islands. -/
def streamIslands (s : State) (n : Nat) : List Nat :=
  match streamAt s n with | none => [1] | some c => travIslands (streamTravs s c)

/-- R72: the islands that own what a record changes (log entry 20). -/
def recIslands (s : State) (r : PlanRec) : List Nat :=
  let p := r.payload
  let k := wAt p 0 1
  match r.type with
  | 0x004 => [regIsland s (wAt p 0 2)]
  | 0x021 | 0x022 | 0x023 | 0x026 | 0x041 => [7 + k]
  | 0x027 => (maskBits 2 k).map (fun l => 7 + l)
  | 0x0C0 => [9]
  | 0x0E3 => travIslands ((List.finRange 8).filter (fun t => match kernAt s k with | none => false | some c => bitOf c.mask t.val))
  | 0x101 | 0x102 | 0x103 | 0x104 | 0x105 => streamIslands s k
  | 0x106 => (maskBits 256 (wAt p 9 26)).flatMap (streamIslands s)
  | 0x141 | 0x142 | 0x1C0 | 0x1E0 | 0x1E1 | 0x1E2 => [5]
  | 0x160 | 0x161 => [match (zoneCfg s (wAt p 0 2)).bind (zoneSlice s) with | none => 1 | some t => 10 + t.val]
  | 0x163 | 0x180 | 0x181 => [3]
  | 0x1A0 | 0x1A1 | 0x1A2 | 0x1A3 | 0x1A4 => [2]
  | _ => []

/-- The island at whose acknowledgement a record waits: the lowest one it belongs to, else island 0. -/
def recOwner (s : State) (r : PlanRec) : Nat := (recIslands s r).foldl (fun a b => if a = 0 then b else min a b) 0

/-- R72: the scope of an amendment's fence. -/
def recsScope (s : State) (rs : List PlanRec) : Nat :=
  (rs.flatMap (recIslands s)).foldl (fun m i => m ||| 2 ^ i) 1

/-- A device time in a payload: seconds (6), ns (3). -/
def recTime (p : List Word) (i : Nat) : Nat := wAt p i 6 * secU + wAt p (i + 6) 3 * nsU

/-! ### What a record does when it takes effect -/

/-- R459: a REG_WRITE record: what a fence takes of it, taken at once. -/
def recRegWrite (s : State) (p : List Word) : State :=
  let n := s.fu.held.length
  let s1 := (regWrite s false (wAt p 0 2) (wAt p 2 2) (wAt p 4 2)).1
  landWrites { s1 with fu := { s1.fu with held := s1.fu.held.take n } } (s1.fu.held.drop n)

/-- R176: a slot's waveform, fine offset or phase word changes with a PROBE_SLOT or STORED_WAVEFORM. -/
def slotFresh (b : State) (r : PlanRec) : Bool :=
  let p := r.payload
  match recBy2 b r.type (wAt p 0 1) (wAt p 1 1) with
  | none => true
  | some q => if r.type = 0x021 then decide ((p.drop 6).take 11 ≠ (q.drop 6).take 11) else decide (p ≠ q)

/-- R101: coefficients of a bank. -/
def putCoef (s : State) (p : List Word) : State :=
  let n := wAt p 0 1
  match streamAt s n with
  | none => s
  | some c => modStrm s n (fun x => { x with coef := (List.range c.t).foldl (fun t i =>
      tabSet 0 t (wAt p 1 1 * 256 + i) (wAt p (2 + 2 * i) 2)) x.coef })

/-- STREAM_SUB and STREAM_SCALE: the fields of a stream that registers hold. -/
def putSub (s : State) (n sub : Nat) : State :=
  [(stCtrlEnable n, bitsOf sub 0 0), (stCtrlDest n, bitsOf sub 4 1), (stCtrlPrio n, bitsOf sub 5 5),
    (stCtrlCoded n, bitsOf sub 6 6), (stCtrlFlags n, bitsOf sub 8 7)].foldl (fun s x => setF s x.1 x.2) s

/-- As `putSub`, for the scaling. -/
def putScale (s : State) (p : List Word) : State :=
  let n := wAt p 0 1
  [(stScaleScale n, wAt p 1 2), (stShiftSsh n, wAt p 3 1), (stOffsetLoOffset n, wAt p 4 2), (stOffsetHiOffset n, wAt p 6 2),
    (stShiftExcl n, wAt p 8 1)].foldl (fun s x => setF s x.1 x.2) s

/-- R408: a CHAIN_SYNC record: the frame is held for T_L, and this engine's own streams get the sync. -/
def chainSyncRec (s : State) (p : List Word) : State :=
  let f : Frame := { ownFrame s (ftypeOf 0 10) 0 0 (timeWords (recTime p 9) ++ (p.drop 18).take 26) with flags := flagAll }
  syncMask { s with net := { s.net with timed := s.net.timed ++ [(recTime p 0, f)] } } (wAt p 18 26) (recTime p 9)

/-- R72: what a record does at the moment it takes effect, the plan in effect already holding it; `b` is the state
before. -/
def recEffect (b s : State) (r : PlanRec) : State :=
  let p := r.payload
  let k := wAt p 0 1
  let l : Fin 2 := lineFin k
  match r.type with
  | 0x004 => recRegWrite s p
  | 0x021 | 0x022 => if slotFresh b r then modProbe s l (fun P => { P with freshNext := P.freshNext ||| 2 ^ (wAt p 1 1) }) else s
  | 0x023 => wantCapture s l
  | 0x027 => forEach ((List.finRange 2).filter (fun l => bitOf k l.val)) s (fun s l => acceptOrigin s l (recTime p 1))
  | 0x041 => requestRange s l (lineFin (wAt p 1 1)) (wAt p 3 1 % 4) false
  | 0x101 => putCoef s p
  | 0x102 => putDetector s p
  | 0x103 => putSub s k (wAt p 1 1)
  | 0x104 => putScale s p
  | 0x105 => takeSwap s k (wAt p 1 1) (wAt p 2 2)
  | 0x106 => syncMask s (wAt p 9 26) (recTime p 0)
  | 0x141 => setRingLen (setF s bcRingLenChunks (wAt p 0 2)) (wAt p 0 2)
  | 0x142 => applyCursor s p
  | 0x160 => defineZone s (wAt p 0 2)
  | 0x162 => evalPins s
  | 0x163 =>
    let n : Fin 8 := finOf 8 k (by decide)
    loopsRefresh (modLoop s n (fun x => { x with updated := x.updated || decide (wAt p 1 1 = 0 ∨ wAt p 1 1 = 4) }))
  | 0x1A1 => setF s (tdChOffsetOffset k) (wAt p 9 2)
  | 0x1A4 => adjustRecord s p
  | 0x1C0 =>
    if getF s (slQCtrlRateMax k) = wAt p 1 1 then s
    else rateChanged (setF s (slQCtrlRateMax k) (wAt p 1 1)) (finOf 3 k (by decide))
  | 0x1E2 => chainSyncRec s p
  | 0x221 => { s with book := { s.book with resetReq := some (k, wAt p 1 1) } }
  | 0x222 => { s with book := { s.book with standbyReq := some k } }
  | _ => s

/-- A record takes effect. -/
def applyRec (s : State) (r : PlanRec) : State := recEffect s { s with cfg := mergeRec s.cfg r } r

/-- R225: kernel parameters take effect in each traverse on its own; every other record as a whole. -/
def perTrav (r : PlanRec) : Bool := decide (r.type = 0x0E3)

/-- A record takes effect at islands; kernel parameters only in those. -/
def applyAt (isls : List Nat) (s : State) (r : PlanRec) : State :=
  if perTrav r then
    let own := isls.filter (fun i => (recIslands s r).contains i)
    let ts := (List.finRange 8).filter (fun t => own.contains (10 + t.val))
    if own.isEmpty then s else ts.foldl (fun s t => takeParams s t r.payload) { s with cfg := mergeRec s.cfg r }
  else applyRec s r

/-! ### Landing -/

/-- R29: held writes and held records taken in the order they were accepted: a record was accepted as its fence was issued, so it
follows the writes accepted under earlier serials. -/
def mixFold {α : Type} (serial : α → Nat) (fw : State → List HeldWrite → State) (fr : State → α → State) :
    State → List HeldWrite → List α → State
  | s, ws, [] => fw s ws
  | s, ws, h :: t =>
    let before (w : HeldWrite) : Bool := decide (w.serial < serial h)
    mixFold serial fw fr (fr (fw s (ws.filter before)) h) (ws.filter (fun w => !(before w))) t

/-- R26, R29: what was held for a fence of this serial in the islands of `isl` takes effect, in the order it was accepted. -/
def landHeld (s : State) (isl : Nat → Bool) (serial : Nat) : State :=
  let ready (w : HeldWrite) : Bool := isl (regIsland s w.addr) && decide (w.serial < serial)
  let readyRec (h : HeldRec) : Bool := isl h.island && decide (h.serial < serial)
  let ws := s.fu.held.filter ready
  let hs := s.fu.heldRecs.filter readyRec
  let s1 := { s with fu := { s.fu with held := s.fu.held.filter (fun w => !(ready w)),
                                       heldRecs := s.fu.heldRecs.filter (fun h => !(readyRec h)) } }
  mixFold (fun h => h.serial) landWrites (fun s h => applyAt [h.island] s h.body) s1 ws hs

/-! ### Acknowledgement -/

/-- R25: an island may acknowledge a fence: it is named, has not answered, has answered every earlier fence that names
it, and is not inside a pass or a slice (R225). -/
def mayAck (s : State) (isl id : Nat) : Bool :=
  let open_ (f : Fence) : Bool := bitOf f.scope isl && !(bitOf f.acked isl) && !(bitOf f.missed isl)
  (match s.fu.out.find? open_ with | none => false | some f => decide (f.id = id)) && !(travBusy s isl)

/-- The outstanding fence with an identifier changed. -/
def modFence (s : State) (id : Nat) (f : Fence → Fence) : State :=
  { s with fu := { s.fu with out := s.fu.out.map (fun x => if x.id = id then f x else x) } }

/-- R25, R225: an island acknowledges a fence; a traverse takes what waits for it at that point. -/
def fenceAckSt (isl id : Nat) (s : State) : State :=
  match s.fu.out.find? (fun f => decide (f.id = id)) with
  | none => s
  | some f =>
    if mayAck s isl id then
      let s1 := modFence s id (fun f => { f with acked := f.acked ||| 2 ^ isl })
      if 10 ≤ isl then
        let mine (r : PlanRec) : Bool := !(perTrav r) && decide (recOwner s r = isl)
        let s2 := modFence s1 id (fun f => { f with took := f.took ||| 2 ^ isl, recs := f.recs.filter (fun r => !(mine r)) })
        forEach (f.recs.filter (fun r => mine r || perTrav r)) (landHeld s2 (fun i => decide (i = isl)) f.serial) (applyAt [isl])
      else s1
    else s

/-- R225 FENCE_ACK. -/
def execFenceAck (island : Fin 18) (id : Fin 1024) (s : State) : Host.Outcome State Fault Refusal :=
  .next (fenceAckSt island.val id.val s)

/-! ### Completion -/

/-- R71, R72: a frame of Fieldbook to the host on a link. -/
def tellHost (s : State) (l : Fin 3) (ty : Nat) (ws : List Word) : State :=
  (sendOn s l (ownFrame s (ftypeOf 1 ty) hostAddr 0 ws)).1

/-- R58: the first fence of a plan application completes: BOOT_PHASE 8; after a WARM reset the lines are armed again and
the later phases that need nothing more follow (log entry 60). -/
def planFenceDone (s : State) : State :=
  let s1 := setF { s with keeper := { s.keeper with boot := { s.keeper.boot with planFence := true } } } bmStateBootPhase 8
  if s.keeper.warm then
    let s2 := { s1 with keeper := { s1.keeper with warm := false } }
    let host := (quadCfg s2 0).isSome
    let s3 := if s2.keeper.scsLock then
        setF s2 bmStateBootPhase (if !host || decide ((vget s2.net.quads 0).st = .active) then 10 else 9) else s2
    rearmLines s3
  else s1

/-- What its issuer does when a fence has completed. -/
def fenceReport (s : State) (f : Fence) : State :=
  match f.why with
  | .plan => planFenceDone s
  | .amend seq l =>
    tellHost s l 7 (wordsOf 2 seq ++ [BitVec.ofNat 10 f.id, BitVec.ofNat 10 (b2n (decide (f.missed ≠ 0)))] ++ wordsOf 2 f.missed)
  | .measured l v =>
    if bitOf f.missed (7 + l.val) then modPce s l (fun c => { c with pend := some v }) else applyMeasured (modPce s l (fun c => { c with pend := some v })) l
  | _ => s

/-- R28, R467: a fence that completed as failed is recorded and logged. -/
def fenceFailed (s : State) (f : Fence) : State :=
  if f.missed = 0 then s
  else logEvent (setF (setF s mgFenceFailId f.id) mgFenceMissMask f.missed) 0x010 0 1 0 f.missed

/-- R75: Fieldbook retries a fence that was refused. -/
def fenceRetry (s : State) : State :=
  match s.fu.retry with
  | [] => s
  | (scope, why) :: t => if fenceRoom s then issueFence { s with fu := { s.fu with retry := t } } scope why [] else s

/-- R23, R246: what a fence's completion does to the traverses it names, beside what waited for it. -/
def fenceTravs (s : State) (done_ : Nat) : State :=
  { s with trav := Vector.ofFn (fun t : Fin 8 => if bitOf done_ (10 + t.val) then { vget s.trav t with susp := [] } else vget s.trav t) }

/-- R26 to R30: the oldest outstanding fence completes. -/
def completeFence (s : State) (f : Fence) (rest : List Fence) : State :=
  let ok := f.scope - (f.scope &&& f.missed)
  let late (r : PlanRec) : List Nat :=
    if perTrav r then (recIslands s r).filter (bitOf f.missed) else [recOwner s r].filter (bitOf f.missed)
  let s1 := setF { s with fu := { s.fu with
      out := rest, epoch := Vector.ofFn (fun i : Fin 18 => if bitOf ok i.val then f.id else vget s.fu.epoch i) } } mgEpochEpoch f.id
  let s2 := forEach (f.recs.filter (fun r => perTrav r || (late r).isEmpty)) (landHeld s1 (bitOf ok) f.serial)
    (applyAt (maskBits 18 (ok - (ok &&& f.took))))
  let kept : List HeldRec := f.recs.flatMap (fun r => (late r).map (fun i => { body := r, island := i, serial := f.serial }))
  let s3 := { s2 with fu := { s2.fu with heldRecs := s2.fu.heldRecs ++ kept } }
  let s4 := fenceTravs s3 ok
  let s5 := (List.finRange 2).foldl (fun s l => if bitOf ok (7 + l.val) then applyMeasured s l else s) s4
  fenceRetry (fenceReport (featureChanged (evalPins (loopsRefresh (fenceFailed s5 f)))) f)

/-- R27: the oldest outstanding fence completes once every island it names has acknowledged, or counts as if (R28). -/
def fenceCompleteSt (s : State) : State :=
  match s.fu.out with
  | [] => s
  | f :: rest => if f.scope &&& (f.acked ||| f.missed) = f.scope then completeFence s f rest else s

/-- R26 FENCE_COMPLETE. -/
def execFenceComplete (s : State) : Host.Outcome State Fault Refusal := .next (fenceCompleteSt s)

/-- R28: 100 ms after a fence's issue the islands that have not acknowledged, and for which the fence unit does not, count as
if they had. -/
def fenceTimeoutSt (id : Nat) (s : State) : State :=
  modFence s id (fun f =>
    if f.at_ + 100 * msU ≤ elapsed s then
      let got := f.acked ||| (f.scope &&& heldMask s)
      { f with acked := got, missed := f.scope - (f.scope &&& got) }
    else f)

/-- R28 FENCE_TIMEOUT. -/
def execFenceTimeout (id : Fin 1024) (s : State) : Host.Outcome State Fault Refusal := .next (fenceTimeoutSt id.val s)

/-! ### Issue -/

/-- R74, R75 FENCE_ISSUE: Fieldbook fences a change of its own. -/
def execFenceIssue (scope : BitVec 18) (s : State) : Host.Outcome State Fault Refusal :=
  .next (whenB (coresRun s) s (bookFence s scope.toNat .fieldbook))

/-- R76: islands that own a write from outside and that no fence issued since names. -/
def autoOwed (s : State) : Nat :=
  (s.fu.held.filter (fun w => bitOf s.fu.autoMask (regIsland s w.addr) && !(s.fu.out.any (fun f =>
    decide (w.serial < f.serial) && bitOf f.scope (regIsland s w.addr))))).foldl (fun m w => m ||| 2 ^ regIsland s w.addr) 0

/-- R76: Fieldbook fences the writes from outside, once it runs the plan or in standby. -/
def autoFenceSt (s : State) : State :=
  if (8 ≤ bootPhase s ∧ bootPhase s ≠ 15 ∧ s.keeper.warm = false) ∨ inStandby s = true then
    let m := autoOwed s
    let s1 := { s with fu := { s.fu with autoMask := 0 } }
    if m = 0 then s1 else bookFence s1 (m ||| 1) .auto
  else s

/-- R76 RWF_AUTO_FENCE. -/
def execRwfAutoFence (s : State) : Host.Outcome State Fault Refusal := .next (autoFenceSt s)

/-- R23: a traverse runs at its new clock. -/
def clockDoneSt (t : Fin 8) (s : State) : State :=
  if (vget s.trav t).clockChange then
    modTrav (setF s (trClockApplied t.val) (getF s (trClockSteps t.val))) t (fun T => { T with clockChange := false })
  else s

/-- R23 TRAVERSE_CLOCK_CHANGE_DONE. -/
def execTraverseClockChangeDone (t : Fin 8) (s : State) : Host.Outcome State Fault Refusal := .next (clockDoneSt t s)

end Sys2Proof.Machine
end

