-- ==== Sys2Proof/Machine/Receive.lean ====
section
/-! DEFINITION. Frames as symbols, sent and received (spec R387 to R390, R392), and what every received frame does at a link before
its type is looked at (R393). -/

namespace Sys2Proof.Machine
open Sys2Proof

/-- R389: the largest payload of a type; none for a type or class not listed. -/
def frameLimit (ftype : Nat) : Option Nat :=
  match ftype / 256, ftype % 256 with
  | 0, 0x01 => some 6
  | 0, 0x02 => some 8
  | 0, 0x03 => some 8
  | 0, 0x04 => some 256
  | 0, 0x05 => some 267
  | 0, 0x06 => some 1284
  | 0, 0x07 => some 244
  | 0, 0x08 => some 16
  | 0, 0x09 => some 28
  | 0, 0x0A => some 37
  | 1, 0x01 => some 3
  | 1, 0x02 => some 517
  | 1, 0x03 => some 514
  | 1, 0x04 => some 3
  | 1, 0x05 => some 65536
  | 1, 0x06 => some 8
  | 1, 0x07 => some 8
  | 1, 0x08 => some 11
  | 1, 0x09 => some 14
  | 1, 0x0A => some 1311
  | 2, 0x01 => some 4120
  | 2, 0x02 => some 4131
  | 2, 0x03 => some 4164
  | 2, 0x04 => some 516
  | _, _ => none

/-- R390: types that the engine only sends. -/
def sentOnly (ftype : Nat) : Bool :=
  [0x004, 0x005, 0x006, 0x007, 0x103, 0x104, 0x106, 0x107, 0x109, 0x201, 0x202, 0x203, 0x204].contains ftype

/-- R393: a frame has been received: its credit is used up. -/
def noteRx (s : State) (l : Fin 3) (f : Frame) : State :=
  let c := frameClass f
  modLink s l (fun L => { L with given := L.given.setIfInBounds c ((lget 0 L.given.toList c + frameCost f) % 2 ^ 20) })

/-- R390: a frame is discarded. -/
def rxBad (s : State) (l : Fin 3) : State := bump s (lkRxBadCount l.val)

/-- R390: a frame's own form is right: a listed type, within its limit. -/
def frameOk (f : Frame) : Bool := match frameLimit f.ftype with | none => false | some n => decide (f.payload.length ≤ n)

/-- A frame of a type and payload that arrived for this engine. -/
def rxFrame (s : State) (ftype src tag : Nat) (payload : List Word) : Frame :=
  { ftype := ftype, dest := ownAddr s, src := src, tag := tag, flags := 0, hops := 0, payload := payload }

/-- A frame of this engine's own types arrives on an ACTIVE link: its credit is used up; one beyond its type's limit is
discarded, another does `k`. -/
def receive (s : State) (l : Fin 3) (f : Frame) (k : State → State) : State :=
  if linkUp s l then
    let s1 := noteRx s l f
    if frameOk f then k s1 else rxBad s1 l
  else s

/-! ### Frames as symbols -/

/-- R388: a frame from its header words and payload. -/
def frameOf (h payload : List Word) : Frame :=
  let d := wAt h 1 2
  { ftype := wAt h 0 1, dest := bitsOf d 11 0, src := bitsOf (wAt h 3 2) 11 0, tag := wAt h 9 1, flags := bitsOf d 15 12,
    hops := bitsOf (wAt h 7 2) 11 0, payload := payload }

/-- R387, R388: a frame's words before its CRC: the header, and the payload padded to a multiple of four. -/
def frameBody (f : Frame) : List Word :=
  let n := f.payload.length
  [BitVec.ofNat 10 f.ftype] ++ wordsOf 2 (f.dest % 4096 + f.flags % 16 * 4096) ++ wordsOf 2 (f.src % 4096) ++ wordsOf 2 n
    ++ wordsOf 2 (f.hops % 4096) ++ [BitVec.ofNat 10 f.tag, 0, 0] ++ f.payload ++ List.replicate (4 * ceilDiv n 4 - n) 0

/-- R405: a copy sent cut-through whose CRC has failed, held as a flag above the four of R388, which no header carries. -/
def flagCut : Nat := 16

/-- R387, R405: a frame in the byte stream: SOF, the packed image with the CRC-32C, EOF; a failed copy ends with K30.7. -/
def frameSyms (f : Frame) : List Nat :=
  let body := frameBody f
  [symSof] ++ (packWords (body ++ wordsOf 4 (crcWords body))).map (fun b => b.toNat) ++ [if bitOf f.flags 4 then symErr else symEof]

/-- What a receiver makes of a frame: right, wrong in its CRC only, or wrong otherwise. -/
inductive RxItem where
  | good (f : Frame)
  | badCrc (f : Frame)
  | bad
  deriving DecidableEq, Repr

/-- R387, R390: the bytes between SOF and EOF: their length agrees with n, and the CRC-32C is theirs. -/
def closeFrame (bytes : List Nat) : RxItem :=
  let ws := unpackWords (bytes.length / 5 * 4) (bytes.map (fun b => BitVec.ofNat 8 b))
  let n := bitsOf (wAt ws 5 2) 16 0
  let k := 12 + 4 * ceilDiv n 4
  if bytes.length % 5 ≠ 0 ∨ ws.length ≠ k + 4 then .bad
  else
    let f := frameOf ws ((ws.drop 12).take n)
    if wAt ws k 4 = crcWords (ws.take k) then .good f else .badCrc f

/-- R388: the class of the frame whose bytes have begun. -/
def openClass (bytes : List Nat) : Nat := (lget 0 bytes 0 + 256 * lget 0 bytes 1) / 256 % 4

/-- R392: the frames that a receiver has open, outer and nested, and those it has closed. -/
structure Deframer where
  outer : Option (List Nat)
  inner : Option (List Nat)
  done_ : List RxItem
  deriving DecidableEq, Repr

/-- R390: every open frame is discarded, and `more` that were about to open. -/
def dropFrames (d : Deframer) (more : Nat) : Deframer :=
  let n := b2n d.outer.isSome + b2n d.inner.isSome + more
  { outer := none, inner := none, done_ := d.done_ ++ List.replicate n .bad }

/-- R387, R390, R392: one symbol of the stream a link receives. A SOF inside a priority frame, away from a 5-byte group boundary or
inside a header discards the frames open and the one it starts (log entry 153). -/
def deframeSym (d : Deframer) (y : Nat) : Deframer :=
  if y = symSof then
    match d.outer, d.inner with
    | none, _ => { d with outer := some [] }
    | some o, none => if openClass o = 0 ∨ o.length < 15 ∨ o.length % 5 ≠ 0 then dropFrames d 1 else { d with inner := some [] }
    | some _, some _ => dropFrames d 1
  else if y = symEof then
    match d.outer, d.inner with
    | some _, some i => if openClass i ≠ 0 then dropFrames d 0 else { d with inner := none, done_ := d.done_ ++ [closeFrame i] }
    | some o, none => { d with outer := none, done_ := d.done_ ++ [closeFrame o] }
    | none, _ => d
  else if y < 256 then
    match d.outer, d.inner with
    | some _, some i => { d with inner := some (i ++ [y]) }
    | some o, none => { d with outer := some (o ++ [y]) }
    | none, _ => d
  else
    match d.outer, d.inner with
    | some _, some _ => { d with inner := none, done_ := d.done_ ++ [.bad] }
    | some _, none => { d with outer := none, done_ := d.done_ ++ [.bad] }
    | none, _ => d

/-- R390, R392: the frames in a piece of the stream, in the order in which they end; one that is cut off at its end is wrong. -/
def deframe (syms : List Nat) : List RxItem :=
  (dropFrames (syms.foldl deframeSym { outer := none, inner := none, done_ := [] }) 0).done_

end Sys2Proof.Machine
end

