-- ==== Sys2Proof/Machine/Amend.lean ====
section
/-! DEFINITION. Amendments (spec R69 to R73, R443): the tests in their order, acceptance, and the answer. -/

namespace Sys2Proof.Machine
open Sys2Proof

/-- R71: the status of an amendment. -/
inductive AmendStatus where
  | accepted | badFraming | badSequence | badSignature | notPermitted | badPayload | overBudget | fenceFull | busy
  deriving DecidableEq, Repr

/-- R71: status values. -/
def amendCode : AmendStatus → Nat
  | .accepted => 0
  | .badFraming => 1
  | .badSequence => 2
  | .badSignature => 3
  | .notPermitted => 4
  | .badPayload => 5
  | .overBudget => 6
  | .fenceFull => 7
  | .busy => 8

/-- R71: an answer: status, index of the record at fault, fence identifier, detail. -/
structure AmendAnswer where
  status : AmendStatus
  index : Nat
  fence : Nat
  detail : Nat
  deriving DecidableEq, Repr

/-- An answer that names a record. -/
def badAt (st : AmendStatus) (i : Nat) : AmendAnswer := { status := st, index := i, fence := 0, detail := 0 }

/-- The first index of a range at which a test fails. -/
def firstBad (n : Nat) (ok : Nat → Bool) : Option Nat := (List.range n).find? (fun i => !(ok i))

/-- R62, R69, R70: the framing: the index of the first record at fault. -/
def framingFault (rs : List PlanRec) (parsed : Bool) : Option Nat :=
  let n := rs.length
  let ty (i : Nat) : Nat := (rs[i]?.map (fun r => r.type)).getD 0
  if rs.isEmpty then some 0
  else if ty 0 ≠ 5 ∨ ((rs[0]?.map (fun r => r.payload.length)).getD 0) ≠ 3 then some 0
  else if parsed ∧ (n < 3 ∨ 1025 < n) then some 0
  else match firstBad n (fun i => repeatOk rs true i && (decide (i = 0) || decide (ty (i - 1) ≠ 0x3FF))) with
    | some i => some i
    | none => if !parsed then some n else if ty (n - 1) ≠ 0x3FF then some (n - 1) else none

/-- R70, R67: a register's write is permitted in an amendment: it exists, Benchmark does not own it, some writable field is
touched, and PERMISSIONS allows the class of every such field that needs one. -/
def regClassOk (s : State) (a m : Nat) : Bool :=
  regDefined a && !(benchOwned a m) && (touched a m).any writable && classOk s a m

/-- R70: a record may appear in an amendment and its class is permitted. -/
def recClassOk (s : State) (r : PlanRec) : Bool :=
  match r.type with
  | 0x005 | 0x3FF => true
  | 0x004 => regClassOk s (wAt r.payload 0 2) (wAt r.payload 4 2)
  | t => if privateType t then true else
    match recSpec t with
    | none => false
    | some sp => sp.amend && (match sp.cls with | none => false | some c => permits s c)

/-- R443: a RESET_CMD or STANDBY_CMD stands alone. -/
def standsAlone (inner : List PlanRec) (r : PlanRec) : Bool :=
  !(decide (r.type = 0x221) || decide (r.type = 0x222)) || decide (inner.length = 1)

/-- R70: a record's payload passes its checks; `b` holds the amended plan before, `t` the plan with the amendment. -/
def amendPayloadOk (b t : State) (inner : List PlanRec) (r : PlanRec) : Bool :=
  let p := r.payload
  payloadOk b t true r && standsAlone inner r
    && (decide (r.type ≠ 0x004) || !(rangeBad t (wAt p 0 2) (wAt p 2 2) (wAt p 4 2)))
    && (decide (r.type ≠ 0x027) || decide (wAt p 7 3 % 10 = 0))

/-- R36: the registers that the budgets read, as a record would leave them. -/
def budgetEffect (s : State) (r : PlanRec) : State :=
  let p := r.payload
  match r.type with
  | 0x004 =>
    let a := wAt p 0 2
    let m := wAt p 4 2 &&& regMask (fun r => decide (r.acc = .rw ∨ r.acc = .rwf)) a
    regPut s a ((regGet s a &&& (2 ^ 20 - 1 - m)) ||| (wAt p 2 2 &&& m))
  | 0x103 => putSub s (wAt p 0 1) (wAt p 1 1)
  | 0x1C0 => setF s (slQCtrlRateMax (wAt p 0 1)) (wAt p 1 1)
  | _ => s

/-- R70, R443: Fieldbook is in boot, WARM restart or standby; in standby a lone RESET_CMD or STANDBY_CMD exit is
taken. -/
def amendBusy (s : State) (rs : List PlanRec) : Bool :=
  let lone := match rs with
    | [_, r, _] => decide (r.type = 0x221) || (decide (r.type = 0x222) && decide (wAt r.payload 0 1 = 1))
    | _ => false
  if inStandby s then !lone || s.keeper.warm else decide (bootPhase s < 8) || s.keeper.warm

/-- R36: the registers that the budgets read, as held writes and the records of outstanding fences will leave them. -/
def heldEffects (s : State) : State :=
  let land (t : State) (ws : List HeldWrite) : State := ws.foldl (fun t w => landBits t w.addr w.mask w.value) t
  mixFold (fun x => x.1) land (fun s x => budgetEffect s x.2) s s.fu.held
    (s.fu.heldRecs.map (fun h => (h.serial, h.body)) ++ s.fu.out.flatMap (fun f => f.recs.map (fun r => (f.serial, r))))

/-- R70: the tests, in their order. -/
def judgeAmend (s : State) (rs : List PlanRec) (parsed : Bool) : AmendAnswer :=
  let inner := (rs.drop 1).dropLast
  let hdr := (rs[0]?.map (fun r => r.payload)).getD []
  let before := { s with cfg := s.book.amended }
  let after := { s with cfg := mergeRecs s.book.amended inner }
  let signed := match recOf before 2 with | none => false | some p => bitOf (wAt p 2 1) 0
  let at_ (ok : PlanRec → Bool) : Option Nat := firstBad rs.length (fun i => match rs[i]? with | none => true | some r => ok r)
  if amendBusy s rs then badAt .busy 1023
  else match framingFault rs parsed with
  | some i => badAt .badFraming i
  | none =>
    if wAt hdr 0 2 ≠ (getF s mgAmendSeqSeq + 1) % 2 ^ 20 then badAt .badSequence 0
    else if wAt hdr 2 1 ≠ inner.length then badAt .badFraming 0
    else if signed && !(recsSigned s.keeper.boot.certKey rs) then badAt .badSignature (rs.length - 1)
    else match at_ (recClassOk before) with
    | some i => badAt .notPermitted i
    | none => match at_ (amendPayloadOk before after inner) with
      | some i => badAt .badPayload i
      | none => match overBudget (forEach inner (heldEffects after) budgetEffect) with
        | some b => { status := .overBudget, index := 1023, fence := 0, detail := b }
        | none =>
          if fenceRoom s then { status := .accepted, index := 1023, fence := s.fu.nextId, detail := 0 }
          else badAt .fenceFull 1023

/-- R72, R73: an accepted amendment: its changes are held for one fence, the amended plan has it, whose new hash Benchmark
records on Fieldbook's request, and the sequence number advances. -/
def acceptAmend (s : State) (link : Fin 3) (rs : List PlanRec) : State :=
  let inner := (rs.drop 1).dropLast
  let seq := wAt ((rs[0]?.map (fun r => r.payload)).getD []) 0 2
  let after := { s with cfg := mergeRecs s.book.amended inner }
  let s1 := recordHashSt true { s with book := { s.book with amended := after.cfg } }
  issueFence (setF s1 mgAmendSeqSeq seq) (recsScope after inner) (.amend seq link) inner

/-- R71: the words of AMEND_STATUS. -/
def statusWords (seq : Nat) (a : AmendAnswer) : List Word :=
  wordsOf 2 seq ++ [BitVec.ofNat 10 (amendCode a.status), BitVec.ofNat 10 a.index, BitVec.ofNat 10 a.fence, BitVec.ofNat 10 a.detail]

/-- R70, R71: an amendment: judged, accepted or refused whole, answered. In recovery no Fieldbook answers (R57). DESIGN CHOICE
(log entry 134): where the first record cannot be parsed, the answer's sequence number is 0. -/
def amendSt (link : Fin 3) (words : List Word) (s : State) : State :=
  if bootPhase s = 15 then s
  else
    let (rs, parsed) := recordsOf words
    let a := judgeAmend s rs parsed
    let s1 := if a.status = .accepted then acceptAmend s link rs else s
    tellHost s1 link 6 (statusWords (wAt ((rs[0]?.map (fun r => r.payload)).getD []) 0 2) a)

/-- R70 AMEND. -/
def execAmend (link : Fin 3) (words : List Word) (s : State) : Host.Outcome State Fault Refusal :=
  .next (receive s link (rxFrame s 0x105 hostAddr 0 words) (amendSt link words))

end Sys2Proof.Machine
end

