-- ==== Sys2Proof/Machine/Boot.lean ====
section
/-! DEFINITION. The boot (spec R51 to R59, R240, R36): flash image and its checks, the steps to BOOT_PHASE 11, and plan
application. -/

namespace Sys2Proof.Machine
open Sys2Proof

/-- The keeper's record of the boot changed. -/
def modBoot (s : State) (f : Boot → Boot) : State := modKeeper s (fun k => { k with boot := f k.boot })

/-- R438, R482: the keeper core runs: PWRGOOD and RESET_N are high. -/
def keeperRuns (s : State) : Bool := s.keeper.pwrgood && s.keeper.resetN

/-! ### The first phases -/

/-- R58: OTP is read and the SCS and the core PLL take a reference: REFCLK, else REFCLK_ALT (R450, R451). Acquisition is
no event of its own (log entry 61). -/
def otpReadSt (s : State) : State :=
  if keeperRuns s && !s.keeper.warm && decide (bootPhase s = 0) && !s.keeper.boot.otpRead then
    let ref : ClkRef := if s.keeper.refPresent then .refclk else if s.keeper.altPresent then .alt else .none_
    let s1 := modKeeper (modBoot s (fun b => { b with otpRead := true })) (fun k =>
      { k with scsRef := ref, coreRef := ref, scsLock := decide (ref ≠ .none_), scsStopped := decide (ref = .none_) })
    startAllCals (timeRefs s1)
  else s

/-- R58 OTP_READ_DONE. -/
def execOtpReadDone (s : State) : Host.Outcome State Fault Refusal := .next (otpReadSt s)

/-- R51: the opcodes Benchmark issues at POR: Reset Enable, Reset, the SFDP read. -/
def xspiReset : List Nat := [0x66, 0x99, 0x5A]

/-- R51: the reads that follow: the read command that the xSPI parameter table gives for 8D-8D-8D mode, else Fast Read. -/
def readOpcode (s : State) : Nat := match s.keeper.boot.octal with | some x => x.1 | none => 0x0B

/-- R51 XSPI_INIT_DONE: the flash is reset and its SFDP tables are read; `sfdp` holds the read command and dummy-cycle
count of 8D-8D-8D operation where the xSPI parameter table advertises it. BOOT_PHASE 1. -/
def xspiInitSt (sfdp : Option (Nat × Nat)) (s : State) : State :=
  if s.keeper.boot.otpRead && !s.keeper.warm && decide (bootPhase s = 0) then
    setF (modBoot { s with mgmt := { s.mgmt with flashBus := xspiReset } } (fun b => { b with octal := sfdp })) bmStateBootPhase 1
  else s

/-- R51 XSPI_INIT_DONE. -/
def execXspiInitDone (sfdp : Option (Nat × Nat)) (s : State) : Host.Outcome State Fault Refusal := .next (xspiInitSt sfdp s)

/-! ### The flash image -/

/-- One flash byte; an unlisted one is erased. -/
def flashByte (s : State) (a : Nat) : Byte := tabGet 0xFF#8 s.mgmt.flash a

/-- R7: words of a packed byte image in flash. -/
def flashWords (s : State) (a n : Nat) : List Word :=
  unpackWords n ((List.range (packedBytes n)).map (fun i => flashByte s (a + i)))

/-- R52: a directory copy whose CRC-32C is correct: the addresses of slots A and B. The CRC is in its last four words (log
entry 62). -/
def directoryAt (s : State) (a : Nat) : Option (Nat × Nat) :=
  let ws := flashWords s a 16
  if crcWords (ws.take 12) = wAt ws 12 4 then some (wAt ws 0 3, wAt ws 3 3) else none

/-- R52: the directory: the first copy that is correct. -/
def directory (s : State) : Option (Nat × Nat) := (directoryAt s 0).or (directoryAt s 0x10000)

/-- R53: a slot's header. -/
structure SlotHeader where
  ok : Bool
  seq : Nat
  /-- Offset and length in words of the manifest, Fieldbook, the microcode, the plan and the certificate. -/
  sections : List (Nat × Nat)
  deriving DecidableEq, Repr

/-- R53: the header at a slot's address. -/
def headerAt (s : State) (a : Nat) : SlotHeader :=
  let ws := flashWords s a 40
  { ok := decide (wAt ws 0 2 = 0x2B5 * 1024 + 0x0D1) && decide (wAt ws 2 1 = 1) && decide (wAt ws 36 4 = crcWords (ws.take 36)),
    seq := wAt ws 4 2, sections := (List.range 5).map (fun i => (wAt ws (6 + 6 * i) 3, wAt ws (9 + 6 * i) 3)) }

/-- R55: bytes of sections of so many words in their packed image. -/
def lensBytes (lens : List Nat) : Nat := sumN (lens.map packedBytes)

/-- R55: bytes of a slot's sections. -/
def sectionBytes (h : SlotHeader) : Nat := lensBytes (h.sections.map (fun x => x.2))

/-- R53: the words of section `i` of a slot: 0 manifest, 1 Fieldbook, 2 microcode library, 3 plan, 4 certificate. -/
def sectionAt (s : State) (a : Nat) (h : SlotHeader) (i : Nat) : List Word :=
  let x := lget (0, 0) h.sections i
  flashWords s (a + x.1 * 5 / 4) x.2

/-- R54: a slot's plan. -/
def planAt (s : State) (a : Nat) (h : SlotHeader) : List PlanRec × Bool := recordsOf (sectionAt s a h 3)

/-- R54: a manifest (its word layout: log entry 125). -/
structure Manifest where
  part : Nat
  revMask : Nat
  secVersion : Nat
  commit : Bool
  returnOnly : Bool
  stage1Len : Nat
  fieldLen : Nat
  fieldHash : Nat
  microHash : Nat
  vendor : PubKey
  deriving DecidableEq, Repr

/-- R54: the manifest's fields, in the order the rule names them, then the vendor's public key (log entry 125). -/
def manifestOf (ws : List Word) : Manifest :=
  { part := wAt ws 0 2, revMask := wAt ws 2 1, secVersion := wAt ws 3 1, commit := bitOf (wAt ws 4 1) 0,
    returnOnly := bitOf (wAt ws 4 1) 1, stage1Len := wAt ws 5 3, fieldLen := wAt ws 8 3, fieldHash := wAt ws 11 39,
    microHash := wAt ws 50 39, vendor := { x := wAt ws 89 39, y := wAt ws 128 39 } }

/-- R54, R49: the manifest ends with a signature by the vendor key over all preceding words; the vendor key is the one
whose SHA-384 the mask ROM holds. -/
def manifestSigned (s : State) (ws : List Word) : Bool :=
  let k := (manifestOf ws).vendor
  let n := ws.length - 78
  decide (245 ≤ ws.length) && decide (keyHash k = s.keeper.vendorHash) && signedBy k (ws.take n) (ws.drop n)

/-- R1, R54: the manifest's silicon revision mask names revision B1, at bit 0 (log entry 125). -/
def revOk (m : Manifest) : Bool := bitOf m.revMask 0

/-- R54: the certificate: an integrator public key and the slot it claims (log entry 125). -/
def certOf (ws : List Word) : PubKey × Nat := ({ x := wAt ws 0 39, y := wAt ws 39 39 }, wAt ws 78 1)

/-- R49: the certificate's key is that of the programmed, unrevoked slot it claims. -/
def certOk (s : State) (c : PubKey × Nat) : Bool :=
  match (List.finRange 4).find? (fun n => decide (n.val = c.2)) with
  | none => false
  | some n => keyProgrammed s n && !(keyRevoked s n) && decide (vget s.keeper.otp.keys n = keyHash c.1)

/-- R45, R56: the plan's signature passes where the lifecycle asks for it: PROVISIONED and FIELD require it,
MANUFACTURE checks one that is there. -/
def planSigned (s : State) (rs : List PlanRec) (k : PubKey) : Bool :=
  match lifecycle s with
  | 0 => !(sigThere rs) || recsSigned k rs
  | 3 => true
  | _ => recsSigned k rs

/-- R54, R56, R285: `n` words decompressed from the block-coded words of a section, and the words left of the section;
none where a block fails its header or its end check, or passes the length. By fuel, the number of blocks. -/
def decompress : Nat → Nat → List Word → Option (List Word × List Word)
  | 0, n, ws => if n = 0 then some ([], ws) else none
  | f + 1, n, ws =>
    if n = 0 then some ([], ws)
    else
      match blockHdr ws, decodeBlock ws with
      | .ok h, .ok src =>
        if src.isEmpty || decide (n < src.length) then none
        else (decompress f (n - src.length) (ws.drop (11 + h.h + h.lc))).map (fun r => (src ++ r.1, r.2))
      | _, _ => none

/-- R38: the largest stage 1, 512 KB, and the largest Fieldbook, 4 MB, in bytes of their packed image. -/
def stage1Max : Nat := 524288
def fieldMax : Nat := 4194304

/-- R56: Fieldbook stage 1 decompresses with a correct end check, within R38's lengths. -/
def stage1Of (m : Manifest) (ws : List Word) : Option (List Word × List Word) :=
  if packedBytes m.stage1Len ≤ stage1Max ∧ packedBytes m.fieldLen ≤ fieldMax ∧ m.stage1Len ≤ m.fieldLen then
    decompress ws.length m.stage1Len ws
  else none

/-- R56, R81: the result of a slot's checks in their order, 0 where every one passes; `read`: the flash delivered the
slot. -/
def slotCode (s : State) (a : Nat) (read : Bool) : Nat :=
  let h := headerAt s a
  let life := lifecycle s
  let field := decide (life = 1 ∨ life = 2)
  let m := manifestOf (sectionAt s a h 0)
  let cert := sectionAt s a h 4
  let plan := planAt s a h
  if !read then 0x00B
  else if !h.ok then 0x001
  else if 1536 * 1024 < sectionBytes h then 0x00A
  else if m.part ≠ 2512 ∨ revOk m = false then 0x002
  else if !(manifestSigned s (sectionAt s a h 0)) then 0x003
  else if m.fieldHash ≠ shaWords (sectionAt s a h 1) ∨ m.microHash ≠ shaWords (sectionAt s a h 2) then 0x004
  else if life = 3 ∧ m.returnOnly = false then 0x006
  else if field && decide (m.secVersion < secCounter s) then 0x005
  else if field && (cert.isEmpty || !(certOk s (certOf cert))) then 0x007
  else if !plan.2 || !(planOk s field plan.1) then 0x009
  else if !(planSigned s plan.1 (certOf cert).1) then 0x008
  else if (stage1Of m (sectionAt s a h 1)).isNone then 0x00C
  else 0

/-- R56: slot B is tried first: its sequence number is the higher one. -/
def bFirst (seqA seqB : Nat) : Bool := let d := (seqB + 2 ^ 20 - seqA) % 2 ^ 20; decide (1 ≤ d ∧ d < 2 ^ 19)

/-! ### The management SRAM -/

/-- R55: the staging region, at the bottom of management SRAM, and stage 1's 512 KB above it (log entry 126). -/
def stagingBase : Nat := 0
def stage1Base : Nat := 1536 * 1024

/-- Bytes put into management SRAM. -/
def putSram (s : State) (a : Nat) (bs : List Byte) : State :=
  { s with mgmt := { s.mgmt with sram := bs.zipIdx.foldl (fun t x => if a + x.2 < 2097152 then tabSet 0#8 t (a + x.2) x.1 else t) s.mgmt.sram } }

/-- R7: words of a packed byte image in management SRAM. -/
def sramWords (s : State) (a n : Nat) : List Word :=
  unpackWords n ((List.range (packedBytes n)).map (fun i => tabGet 0#8 s.mgmt.sram (a + i)))

/-- R55: a slot's sections are read into the staging region, one after another in the order of the section table. -/
def stageSlot (s : State) (a : Nat) (h : SlotHeader) : State :=
  putSram (modBoot s (fun b => { b with lens := h.sections.map (fun x => x.2) })) stagingBase
    ((List.range 5).flatMap (fun i => packWords (sectionAt s a h i)))

/-- R55: the words of section `i` in the staging region. -/
def stagedSection (s : State) (i : Nat) : List Word :=
  sramWords s (stagingBase + lensBytes (s.keeper.boot.lens.take i)) (lget 0 s.keeper.boot.lens i)

/-- R56: the slots in the order Benchmark tries them, by the directory: number 1 or 2 and address. -/
def slotOrder (s : State) : List (Nat × Nat) :=
  match directory s with
  | none => []
  | some (a, b) => if bFirst (headerAt s a).seq (headerAt s b).seq then [(2, b), (1, a)] else [(1, a), (2, b)]

/-- R55: the slot to be tried first is in the staging region, where it fits. -/
def stagingSt (s : State) : State :=
  if bootPhase s = 1 then
    let s1 := modBoot { s with mgmt := { s.mgmt with flashBus := [readOpcode s] } } (fun b => { b with staged := true })
    match slotOrder s with
    | [] => s1
    | (_, a) :: _ => let h := headerAt s a; if h.ok && decide (sectionBytes h ≤ 1536 * 1024) then stageSlot s1 a h else s1
  else s

/-- R55 STAGING_FILLED. -/
def execStagingFilled (s : State) : Host.Outcome State Fault Refusal := .next (stagingSt s)

/-! ### Verification -/

/-- A slot is booted: its number 1 or 2 and its address. -/
def bootSlot (s : State) (n a : Nat) (alt : Bool) : State :=
  let h := headerAt s a
  let rs := (planAt s a h).1
  let m := manifestOf (sectionAt s a h 0)
  let c := certOf (sectionAt s a h 4)
  let s1 := setF (setF (setF (setF s bmStateBootSlot n) bmStateAltBoot (b2n alt)) mgImageSeq h.seq) bmStateBootPhase 2
  modBoot (stageSlot { s1 with book := { s1.book with plan := rs, amended := rs, micro := sectionAt s a h 2 } } a h) (fun b =>
    { b with verified := true, secVersion := m.secVersion, commit := m.commit, certSlot := c.2, certKey := c.1,
             stage1Len := m.stage1Len, fieldLen := m.fieldLen })

/-- R56, R57: verification: the slots in their order; the first accepted one is booted, else recovery. DESIGN CHOICE (log
entry 62): where neither directory copy has a correct CRC, no slot has an address, and both slots get the header code 0x001,
or 0x00B where the flash delivered nothing. -/
def verifySt (readA readB : Bool) (s : State) : State :=
  if bootPhase s = 1 ∧ s.keeper.boot.staged = true then
    let (addrA, addrB) := (directory s).getD (0, 0)
    let known := (directory s).isSome
    let codeA := if known then slotCode s addrA readA else if readA then 0x001 else 0x00B
    let codeB := if known then slotCode s addrB readB else if readB then 0x001 else 0x00B
    if bFirst (headerAt s addrA).seq (headerAt s addrB).seq then
      let s1 := setF s bmBootErrErrB codeB
      if codeB = 0 then bootSlot s1 2 addrB false
      else
        let s2 := setF s1 bmBootErrErrA codeA
        if codeA = 0 then bootSlot s2 1 addrA true else enterRecovery s2
    else
      let s1 := setF s bmBootErrErrA codeA
      if codeA = 0 then bootSlot s1 1 addrA false
      else
        let s2 := setF s1 bmBootErrErrB codeB
        if codeB = 0 then bootSlot s2 2 addrB true else enterRecovery s2
  else s

/-- R56 IMAGE_VERIFICATION_DONE. -/
def execImageVerificationDone (readA readB : Bool) (s : State) : Host.Outcome State Fault Refusal :=
  .next (verifySt readA readB s)

/-! ### Fieldbook's stages -/

/-- R423: boot training begins on every fitted channel, at F2 and with D1; D0 needs no collection. -/
def startBootTraining (s : State) : State :=
  { s with mem := { s.mem with ch := Vector.ofFn (fun c : Fin 4 =>
      if dmFitted s c.val then { vget s.mem.ch c with training := true, step := 1, sp := 2, colls := 0, rank := 0, okStep := false, failed := false }
      else vget s.mem.ch c) } }

/-- R58, R44: stage 1 is decompressed from the staging region into SRAM and runs, and the heartbeat period starts:
BOOT_PHASE 3, once the engine has a reference (R503). A failing end check is recorded for the slot booted (log entry
63). -/
def stage1St (s : State) : State :=
  if bootPhase s = 2 ∧ s.keeper.coreRef ≠ .none_ then
    let ws := stagedSection s 1
    match decompress ws.length s.keeper.boot.stage1Len ws with
    | some (src, _) => startBootTraining (setF (setF (putSram s stage1Base (packWords src)) bmStateBootPhase 3) bmWdogMissed 0)
    | none => if getF s bmStateBootSlot = 2 then setF s bmBootErrErrB 0x00C else setF s bmBootErrErrA 0x00C
  else s

/-- R58 STAGE1_RELEASE. -/
def execStage1Release (s : State) : Host.Outcome State Fault Refusal := .next (stage1St s)

/-- R58, R124: stage 2 runs from its copy in DRAM: BOOT_PHASE 5; both lines' full foreground calibration starts. -/
def stage2Boot (s : State) (src : List Word) : State :=
  let s1 := { s with book := { s.book with fieldCopy := src } }
  let plan := { s1 with cfg := s1.book.amended }
  (List.finRange 2).foldl (fun s l => startFullCal (modConv s l (fun C => { C with shared := refShared plan l.val })) l)
    (setF s1 bmStateBootPhase 5)

/-- R58, R440, R125: STAGE2_LOADED. At boot Fieldbook is decompressed whole into DRAM with its end checks; a WARM reset
finds its copy there, passes to phase 6 at once, and the inputs queued again are calibrated. -/
def stage2St (s : State) : State :=
  if bootPhase s = 4 then
    if s.keeper.warm then (List.finRange 2).foldl resumeCal (setF s bmStateBootPhase 6)
    else
      let ws := stagedSection s 1
      match decompress ws.length s.keeper.boot.fieldLen ws with
      | some (src, _) => stage2Boot s src
      | none => s
  else s

/-- R58 STAGE2_LOADED. -/
def execStage2Loaded (s : State) : Host.Outcome State Fault Refusal := .next (stage2St s)

/-! ### Traverses -/

/-- R54, R41: the vendor microcode library in a store: four words an instruction, from instruction 0 (log entry 127). -/
def vendorStore (ws : List Word) : Tab (BitVec 40) :=
  (List.range (min 3072 (ws.length / 4))).foldl (fun t i => tabSet 0 t i (BitVec.ofNat 40 (wAt ws (4 * i) 4))) []

/-- R41, R58, R243: the vendor's kernels and the plan's custom kernels are placed in the traverse stores. -/
def placeKernels (s : State) : State :=
  let vendor := vendorStore s.book.micro
  { s with trav := Vector.ofFn (fun t : Fin 8 =>
    let ks := (s.book.amended.filter (fun r => decide (r.type = 0x0E1) && bitOf (wAt r.payload 1 1) t.val)).map (fun r => r.payload)
    let T := vget s.trav t
    { T with store := ks.foldl (fun st p => (kernCode p).zipIdx.foldl (fun st x => tabSet 0 st (wAt p 3 2 + x.2) x.1) st) vendor }) }

/-- R240: a traverse's self-test ends; with the last one the microcode is loaded: BOOT_PHASE 7. -/
def selfTestSt (t : Fin 8) (bad : Option (Fin 64)) (s : State) : State :=
  if bootPhase s = 6 ∧ bitOf s.keeper.boot.tested t.val = false then
    let s1 := modBoot s (fun b => { b with tested := b.tested ||| 2 ^ t.val })
    let s2 := match bad with | none => s1 | some i => laneFail s1 t i.val
    if s2.keeper.boot.tested = 255 then setF (placeKernels s2) bmStateBootPhase 7 else s2
  else s

/-- R240 SELF_TEST_DONE. -/
def execSelfTestDone (t : Fin 8) (failLane : Option (Fin 64)) (s : State) : Host.Outcome State Fault Refusal :=
  .next (selfTestSt t failLane s)

/-! ### Plan application -/

/-- The records of a type, each with an effect of its own. -/
def eachRec (s : State) (ty : Nat) (f : State → List Word → State) : State := forEach (recsOf s ty) s f

/-- R304, R306, R314: every zone starts with FAULT and STALE, and the port shows 0xC. -/
def startZones (s : State) : State :=
  let s1 := eachRec s 0x160 (fun s p =>
    putZone s (wAt p 0 2) { ZoneSt.zero with fault := 16, lastEval := elapsed s, frz := some (stampNow s), shown := 12 })
  { s1 with zn := { s1.zn with port := (recsOf s1 0x160).foldl (fun t p => tabPut t (wAt p 0 2) 12) [], held := [], seq := 0 } }

/-- R314: loops whose source needs no reading count as updated at plan application; a loop without a record is off (log entry
146). -/
def startLoops (s : State) : State :=
  evalPins (loopsRefresh ((List.finRange 8).foldl (fun s n => modLoop s n (fun x =>
    { x with updated := decide ((loopCfg s n.val).src = 0 ∨ (loopCfg s n.val).src = 4) })) s))

/-- What the plan sets on an active line at a COLD boot: PGA ranges (R135), LAUNCH_DELAY and its measurement (R154), the
first datum capture (R187), the schedule (R97), zeroed kernel windows (R229). -/
def startLine (s : State) (l : Fin 2) : State :=
  let s1 := modConv s l (fun C => { C with range := Vector.ofFn (fun n : Fin 2 => (ramanInputCfg s l.val n.val).2) })
  let s2 := match launchRef s l.val with
    | none => s1
    | some r => startMeasure (modPce s1 l (fun c => { c with delay := r.delay })) l
  let s3 := if (sweepSlots s l.val).isEmpty then s2 else wantCapture s2 l
  restartSchedule ((lineTravs s3 l.val).foldl zeroWindow s3) l

/-- What the plan sets at a COLD boot. -/
def loadPlan (s : State) : State :=
  let id := match recOf s 1 with | none => s | some p => setF (setF s mgPlanIdId (wAt p 1 2)) mgPlanRevRev (wAt p 3 2)
  let s1 := planSteps id
  let s2 := (List.range 8).foldl (fun s t => setF s (trClockApplied t) (getF s (trClockSteps t))) s1
  let s3 := eachRec (eachRec s2 0x100 startStream) 0x102 putDetector
  let s4 := eachRec s3 0x1A1 (fun s p => setF s (tdChOffsetOffset (wAt p 0 1)) (wAt p 9 2))
  let s5 := eachRec s4 0x1C0 (fun s p => setF s (slQCtrlRateMax (wAt p 0 1)) (wAt p 1 1))
  let s6 := eachRec (startRing s5) 0x142 applyCursor
  let s7 := (List.finRange 2).foldl (fun s l => if lineActive s l.val then startLine s l else s) s6
  startSource (startLoops (startZones (timeRefs (hkChooseRef s7))))

/-- The first fence of this plan application is not issued yet. -/
def planDue (s : State) : Bool :=
  decide (bootPhase s = 7) && !s.keeper.boot.planFence && !(s.fu.out.any (fun f => decide (f.why = .plan)))
    && !(s.fu.retry.any (fun x => decide (x.2 = .plan)))

/-- R58, R36, R74: the plan, or after a WARM reset the amended plan, is applied: budgets evaluated, the first fence issued
with every island in its scope. A WARM reset keeps what the registers hold (R445). -/
def planAppliedSt (s : State) : State :=
  if planDue s then
    let s1 := loadParams { s with cfg := s.book.amended }
    let s2 := if s.keeper.warm then s1 else loadPlan s1
    bookFence (evalBudgets s2) allIslands .plan
  else s

/-- R36 PLAN_APPLIED. -/
def execPlanApplied (s : State) : Host.Outcome State Fault Refusal := .next (planAppliedSt s)

/-- R58: BOOT_PHASE 9; the quads start, and without a host quad phase 10 is passed at once (log entry 64). -/
def finalLockSt (s : State) : State :=
  if bootPhase s = 8 ∧ s.keeper.scsLock = true then
    let s1 := (List.finRange 3).foldl (fun s q => if (quadAt s q).st = .idle then startQuad s q else s) (setF s bmStateBootPhase 9)
    if (quadCfg s1 0).isNone ∨ (quadAt s1 0).st = .active then setF s1 bmStateBootPhase 10 else s1
  else s

/-- R58 SCS_FINAL_LOCK. -/
def execScsFinalLock (s : State) : Host.Outcome State Fault Refusal := .next (finalLockSt s)

end Sys2Proof.Machine
end

