-- ==== Sys2Proof/Machine/Features.lean ====
section
/-! DEFINITION. Feature negotiation (spec R77 to R80, R397 to R399). -/

namespace Sys2Proof.Machine
open Sys2Proof

/-- R397 FEATURE_OFFER_REPEAT: an unanswered first offer is sent again. -/
def execFeatureOfferRepeat (l : Fin 3) (s : State) : Host.Outcome State Fault Refusal :=
  .next (whenB ((vget s.net.links l).unanswered && linkUp s l) s (repeatOffer s l))

/-- R79 FEATURE_CHANGED_REPEAT: until the driver accepts again. -/
def execFeatureChangedRepeat (l : Fin 3) (s : State) : Host.Outcome State Fault Refusal :=
  .next (whenB ((vget s.net.links l).changed && linkUp s l) s (repeatOffer s l))

/-- R399: an accept that omits bit 14 at 8.0 Gbaud starts a new attempt at T0 with rate codes 0 to 2. -/
def capIfSlow (s : State) (l : Fin 3) (accepted : Nat) : State :=
  let Q := quadAt s l
  if bitOf accepted 14 = false ∧ Q.rate = 3 ∧ Q.st = .active then newTrain (modQuad s l (fun Q => { Q with capRate := true })) l else s

/-- R78, R397: an accept: a serial that is not the last offer's is counted and ignored; else the accepted set is the word
AND the offer, and bits not offered set MG_FEAT.REJECT. -/
def acceptSt (l : Fin 3) (word serial : Nat) (s : State) : State :=
  let L := vget s.net.links l
  if serial ≠ L.serial then bump s (lkFeatStaleCount l.val)
  else
    let a := word &&& L.offer
    let s1 := modLink s l (fun L => { L with accepted := some a, unanswered := false, changed := false })
    let s2 := setF (putWord60 s1 (mgAccWord l.val) a) (lkStatusFeat l.val) 2
    let s3 := if a = word then s2 else setF s2 mgFeatReject (getF s2 mgFeatReject ||| 2 ^ l.val)
    capIfSlow (dropWithdrawn s3 l) l a

/-- R78 FEATURE_ACCEPT. -/
def execFeatureAccept (l : Fin 3) (word : BitVec 60) (serial : Fin 1024) (s : State) : Host.Outcome State Fault Refusal :=
  .next (receive s l (rxFrame s 0x003 hostAddr 0 (featWords word.toNat ++ [BitVec.ofNat 10 serial.val, 0])) (acceptSt l word.toNat serial.val))

/-- R397: a neighbour's offer is answered with its AND with this engine's own latest offer to that link. -/
def answerOffer (l : Fin 3) (word serial : Nat) (s : State) : State :=
  let L := vget s.net.links l
  if l = 0 then s
  else (sendOn s l (ownFrame s (ftypeOf 0 3) ((quadAt s l).partner % 4096) 0
    (featWords (word &&& L.offer) ++ [BitVec.ofNat 10 serial]))).1

/-- R397 FEATURE_OFFER_RECEIVED. -/
def execFeatureOfferReceived (l : Fin 3) (word : BitVec 60) (serial : Fin 1024) (changed : Bool) (s : State) :
    Host.Outcome State Fault Refusal :=
  .next (receive s l (rxFrame s 0x002 ((quadAt s l).partner % 4096) 0
    (featWords word.toNat ++ [BitVec.ofNat 10 serial.val, BitVec.ofNat 10 (b2n changed)])) (answerOffer l word.toNat serial.val))

end Sys2Proof.Machine
end

