-- ==== Sys2Proof/Machine/Links.lean ====
section
/-! DEFINITION. Credits, register transactions, timed frames, forwarding, level runs and chain-wide syncs (spec R393 to
R408). -/

namespace Sys2Proof.Machine
open Sys2Proof

/-! ### Credits -/

/-- R393 CREDIT: the latest grants. -/
def creditSt (l : Fin 3) (grants : List Nat) (s : State) : State :=
  modLink s l (fun L =>
    { L with grant := Vector.ofFn (fun c : Fin 3 => lget (vget L.grant c) grants c.val % 2 ^ 20), creditOk := true })

/-- R393 CREDIT. -/
def execCredit (l : Fin 3) (grants : List Nat) (s : State) : Host.Outcome State Fault Refusal :=
  .next (whenB (linkUp s l) s (creditSt l grants s))

/-- R394, R400: bulk units that arrived on a link and wait in forwarding buffers. -/
def heldFrom (s : State) (l : Fin 3) : Nat :=
  sumN ((s.net.links.toList.flatMap (fun L => L.fwd)).map (fun x => if x.1 = l.val then frameCost x.2 else 0))

/-- R393, R394: the grants of this engine: what it has received, what it still holds taken off, and its receive space. -/
def grantsOf (s : State) (l : Fin 3) : List Nat :=
  let g := (vget s.net.links l).given.toList
  [(lget 0 g 0 + 64) % 2 ^ 20, (lget 0 g 1 + 1040) % 2 ^ 20, (lget 0 g 2 + 4096 + 2 ^ 20 - heldFrom s l) % 2 ^ 20]

/-- R393 CREDIT_SEND. -/
def execCreditSend (l : Fin 3) (s : State) : Host.Outcome State Fault Refusal :=
  .next (whenB (linkUp s l) s
    (sendOn s l (ownFrame s 0x001 ((quadAt s l).partner % 4096) 0 ((grantsOf s l).flatMap (wordsOf 2)))).1)

/-! ### Register transactions -/

/-- The path of a link's management unit (R461). -/
def linkPath (l : Fin 3) : Path := ⟨l.val + 1, by have := l.isLt; omega⟩

/-- R395: a response on the link its request came on (log entry 65). -/
def respond (s : State) (l : Fin 3) (ftype src tag : Nat) (ws : List Word) : State :=
  (sendOn s l (ownFrame s ftype src tag ws)).1

/-- R395: a READ transaction and its READ_RESP. -/
def linkReadSt (l : Fin 3) (tag src a c : Nat) (s : State) : State :=
  let (st, vs, s1) := readRegs s (linkPath l) a c
  respond (pathAnswer s1 (linkPath l) st 0 vs) l 0x103 src tag ([BitVec.ofNat 10 st, 0] ++ vs.flatMap (wordsOf 2))

/-- R395 READ. -/
def execRead (l : Fin 3) (tag src : Nat) (addr : BitVec 20) (count : Nat) (s : State) : Host.Outcome State Fault Refusal :=
  .next (receive s l (rxFrame s 0x101 src tag (wordsOf 2 addr.toNat ++ wordsOf 1 count)) (linkReadSt l tag src addr.toNat (count % 1024)))

/-- R395: a WRITE_RESP. -/
def writeResp (s : State) (l : Fin 3) (src tag st d i : Nat) : State :=
  respond s l 0x104 src tag [BitVec.ofNat 10 st, BitVec.ofNat 10 d, BitVec.ofNat 10 i]

/-- R395: a WRITE transaction and its WRITE_RESP. -/
def linkWriteSt (l : Fin 3) (tag src a m : Nat) (vs : List Nat) (s : State) : State :=
  let (st, d, i, s1) := writeRegs s (linkPath l) a m vs
  writeResp (pathAnswer s1 (linkPath l) st d [i]) l src tag st d i

/-- R395 WRITE. -/
def execWrite (l : Fin 3) (tag src : Nat) (addr mask : BitVec 20) (values : List (BitVec 20)) (s : State) :
    Host.Outcome State Fault Refusal :=
  let vs := values.map (fun v => v.toNat)
  .next (receive s l (rxFrame s 0x102 src tag
      (wordsOf 2 addr.toNat ++ wordsOf 1 vs.length ++ wordsOf 2 mask.toNat ++ vs.flatMap (wordsOf 2)))
    (linkWriteSt l tag src addr.toNat mask.toNat vs))

/-! ### Timed frames -/

/-- R404: an ALL frame of this engine goes out on both neighbour links with the next broadcast serial. -/
def broadcast (s : State) (f : Frame) : State :=
  let g := { f with tag := s.net.bserial % 1024, src := ownAddr s }
  let kept := (s.net.dups ++ [(g.src, g.tag, elapsed s)]).drop (s.net.dups.length + 1 - 16)
  let s1 := { s with net := { s.net with bserial := (s.net.bserial + 1) % 1024, dups := kept } }
  [(1 : Fin 3), 2].foldl (fun s l => if usableFor s true false g l then (sendOn s l g).1 else s) s1

/-- R401: a held frame leaves, LATE where a whole tick has passed since its time. -/
def launchFrame (s : State) (t : Nat) (f : Frame) : State :=
  let late := decide (t + incOf s / 1024 ≤ stampNow s)
  let g := if late then { f with flags := f.flags ||| flagLate } else f
  let s1 := if late then bump s lkTimedLate else s
  if bitOf g.flags 0 then broadcast s1 g else (sendRouted s1 g).1

/-- R401: a TIMED_SEND: without feature bit 11, or with an inner frame that is not one priority frame, BAD_REQUEST; with
16 held, REFUSED; a frame whose time has passed leaves at once. -/
def timedSendSt (l : Fin 3) (tag src : Nat) (ws : List Word) (s : State) : State :=
  let h := (ws.drop 11).take 12
  let f := frameOf h (ws.drop 23)
  let good := decide (23 ≤ ws.length) && decide (frameClass f = 0) && frameOk f && decide (bitsOf (wAt h 5 2) 16 0 = f.payload.length)
  let t := ofTime110 (wAt ws 0 11)
  if !(linkHas s l 11) || !good then writeResp s l src tag stBadRequest 0 0
  else if 16 ≤ s.net.timed.length then writeResp s l src tag stRefused 4 0
  else
    let s1 := writeResp s l src tag stOk 0 1023
    if t + incOf s / 1024 ≤ stampNow s then launchFrame s1 t f
    else { s1 with net := { s1.net with timed := s1.net.timed ++ [(t, f)] } }

/-- R401 TIMED_SEND. -/
def execTimedSend (l : Fin 3) (tag src : Nat) (words : List Word) (s : State) : Host.Outcome State Fault Refusal :=
  .next (receive s l (rxFrame s 0x10A src tag words) (timedSendSt l tag src words))

/-- The first held frame of the least launch time. -/
def firstTimed (xs : List (Nat × Frame)) : Option (Nat × Frame) :=
  xs.foldl (fun b x => match b with | none => some x | some y => if x.1 < y.1 then some x else some y) none

/-- R401: at its launch time a held frame leaves. -/
def timedLaunchSt (s : State) : State :=
  match firstTimed s.net.timed with
  | none => s
  | some x =>
    if x.1 ≤ stampNow s then launchFrame { s with net := { s.net with timed := s.net.timed.erase x } } x.1 x.2 else s

/-- R401 TIMED_LAUNCH. -/
def execTimedLaunch (s : State) : Host.Outcome State Fault Refusal := .next (timedLaunchSt s)

/-! ### Forwarding -/

/-- R404: the ALL frames seen in the last 100 ms. -/
def freshDups (s : State) : List (Nat × Nat × Nat) := s.net.dups.filter (fun d => decide (elapsed s < d.2.2 + 100 * msU))

/-- R403: a frame is passed on along a link, its hop count raised; at 4,095 it is discarded. -/
def passOn (s : State) (l : Fin 3) (out : Fin 3) (f : Frame) : State :=
  if 4095 ≤ f.hops then bump s (lkTtlDropCount l.val) else forwardOn s l.val out { f with hops := f.hops + 1 }

/-- R404: an ALL frame that arrived on a link: none where it is a copy of one already kept; else it is kept and passed on
away from its arrival link. -/
def passAll (s : State) (l : Fin 3) (f : Frame) : Option State :=
  let ds := freshDups s
  if ds.any (fun d => decide (d.1 = f.src ∧ d.2.1 = f.tag)) then none
  else
    let kept := (ds ++ [(f.src, f.tag, elapsed s)]).drop (ds.length + 1 - 16)
    let s1 := { s with net := { s.net with dups := kept } }
    some ([(1 : Fin 3), 2].foldl (fun s out =>
      if out ≠ l ∧ usableFor s false false f out = true then passOn s l out f else s) s1)

/-- R408: a CHAIN_SYNC frame delivered here: applied where class 4 is permitted, else counted. -/
def chainApply (l : Fin 3) (f : Frame) (s : State) : State :=
  let p := f.payload
  if p.length ≠ 37 then rxBad s l
  else if permits s 4 then syncMask s (wAt p 11 26) (ofTime110 (wAt p 0 11))
  else bump s (lkRefusedCount l.val)

/-- R404, R408: a CHAIN_SYNC frame: passed on, unless it is a copy, and applied. -/
def chainSyncSt (l : Fin 3) (f : Frame) (s : State) : State :=
  if f.payload.length ≠ 37 then rxBad s l
  else if bitOf f.flags 0 then
    match passAll s l f with
    | none => bump s (lkDupCount l.val)
    | some t => chainApply l f t
  else chainApply l f s

/-- R408 CHAIN_SYNC. -/
def execChainSync (l : Fin 3) (frame : Frame) (s : State) : Host.Outcome State Fault Refusal :=
  .next (receive s l { frame with ftype := 0x00A } (chainSyncSt l { frame with ftype := 0x00A }))

/-! ### Level runs -/

/-- R410 LEVEL. -/
structure LevelCfg where
  up : Fin 3
  /-- Milliseconds. -/
  period : Nat
  asymW : Int
  asymE : Int
  failover : Bool
  deriving DecidableEq, Repr

/-- The LEVEL record. -/
def levelCfg (s : State) : Option LevelCfg :=
  (recOf s 0x1E1).map (fun p =>
    { up := if wAt p 0 1 = 2 then 2 else 1, period := if wAt p 1 2 = 0 then 1000 else wAt p 1 2, asymW := wAtS p 3 2,
      asymE := wAtS p 5 2, failover := bitOf (wAt p 7 1) 0 })

/-- R406: stamps are taken to 2^-10 ns. -/
def levelStamp (t : Nat) : Nat := t / 1024 * 1024

/-- R407: the link of the next run: UP_DIR; in a ring with LEVEL_FAILOVER, while in holdover or on the other link, the
two links are tried in turn (log entry 66). -/
def levelLink (s : State) (c : LevelCfg) : Fin 3 :=
  if (chainCfg s).2.1 = 2 ∧ c.failover = true ∧ (s.time.holdover = true ∨ s.net.failover = true) then
    if linkUp s c.up = true ∧ s.net.levelMiss % 2 = 0 then c.up else otherWay c.up
  else c.up

/-- The engine has no upstream responder: no run delivered. -/
def levelLost (s : State) (hold : Bool) : State :=
  let s1 := { s with net := { s.net with levelValid := false, levelMiss := s.net.levelMiss + 1 } }
  if hold ∨ 3 ≤ s1.net.levelMiss then setF (enterHoldover s1) lkLevelDepth 4095 else s1

/-- R406: the next exchange of a run begins: its request waits on the run's link, and takes t1 as its SOF leaves. -/
def levelAsk (s : State) (r : LevelRun) : State :=
  let l : Fin 3 := finOf 3 r.link (by decide)
  (sendOn { s with net := { s.net with level := some { r with begun := r.begun + 1 } } } l
    (ownFrame s 0x008 ((quadAt s l).partner % 4096) 0 (timeWords (levelStamp (stampNow s)) ++ [BitVec.ofNat 10 r.begun]))).1

/-- R406: a run starts with its first exchange; with the link not ACTIVE the engine is in holdover (R407). -/
def levelStartSt (s : State) : State :=
  match levelCfg s with
  | none => s
  | some c =>
    if (timeCfg s).source ≠ 3 ∨ s.net.level.isSome = true then s
    else
      let l := levelLink s c
      if !(linkUp s l) then levelLost s true
      else levelAsk s { link := l.val, start := elapsed s, begun := 0, t1 := [], sumE := 0, sumD := 0, done_ := 0, depth := 4095, holdover := false }

/-- R406 LEVEL_RUN_START. -/
def execLevelRunStart (s : State) : Host.Outcome State Fault Refusal := .next (levelStartSt s)

/-- R406: own depth: 0 unless under CHAIN. -/
def ownDepth (s : State) : Nat := if (timeCfg s).source = 3 then getF s lkLevelDepth else 0

/-- R406: a request is stamped and answered; the response takes t3 as its SOF leaves. -/
def levelReqSt (l : Fin 3) (f : Frame) (stamp : Nat) (s : State) : State :=
  if f.payload.length < 12 then rxBad s l
  else (sendOn s l (ownFrame s 0x009 f.src 0 (timeWords (levelStamp stamp) ++ timeWords (levelStamp (stampNow s))
    ++ [BitVec.ofNat 10 (wAt f.payload 11 1)] ++ wordsOf 2 (ownDepth s) ++ [BitVec.ofNat 10 (b2n s.time.holdover)]))).1

/-- R406 LEVEL_REQ. -/
def execLevelReq (l : Fin 3) (frame : Frame) (stamp : Nat) (s : State) : Host.Outcome State Fault Refusal :=
  .next (receive s l { frame with ftype := 0x008 } (levelReqSt l frame stamp))

/-- R406: a response completes an exchange of the run, within 1 ms of its start. -/
def levelRespSt (l : Fin 3) (f : Frame) (stamp : Nat) (s : State) : State :=
  let p := f.payload
  if p.length < 26 then rxBad s l
  else match s.net.level with
    | none => s
    | some r =>
      match tabFind r.t1 (wAt p 22 1) with
      | none => s
      | some t1 =>
        let t2 : Int := (ofTime110 (wAt p 0 11) : Nat)
        let t3 : Int := (ofTime110 (wAt p 11 11) : Nat)
        let t4 := levelStamp stamp
        if r.link = l.val ∧ elapsed s ≤ r.start + msU then
          let a : Int := (t4 : Int) - t3
          let b : Int := t2 - (t1 : Int)
          let run : LevelRun := { r with
            t1 := tabErase r.t1 (wAt p 22 1), sumE := r.sumE + (a - b), sumD := r.sumD + (a + b), done_ := r.done_ + 1,
            depth := wAt p 23 2 % 4096, holdover := bitOf (wAt p 25 1) 0 }
          { s with net := { s.net with level := some run } }
        else s

/-- R406 LEVEL_RESP. -/
def execLevelResp (l : Fin 3) (frame : Frame) (stamp : Nat) (s : State) : Host.Outcome State Fault Refusal :=
  .next (receive s l { frame with ftype := 0x009 } (levelRespSt l frame stamp))

/-- R406: ASYM of a link, in 2^-20 ns: one way toward upstream less the way back. -/
def asymOf (c : LevelCfg) (l : Nat) : Rat := ((if l = 2 then c.asymE else c.asymW : Int) : Rat) * (1048576 : Nat) / (1000 : Nat)

/-- R406: e of a run: the mean over its exchanges, in 2^-20 ns. -/
def levelE (c : LevelCfg) (r : LevelRun) : Int :=
  ratRound ((((r.sumE : Int) : Rat) / ((r.done_ : Nat) : Rat) + asymOf c r.link) / (2 : Nat))

/-- R406: LK_LEVEL_DELAY of a run, in 2^-10 ns; where the mean is no whole number the spec does not say which neighbour is
written. -/
def levelDelay (s : State) (r : LevelRun) : Int × State :=
  let d : Int := (2048 * max r.done_ 1 : Nat)
  if r.sumD % d = 0 then (r.sumD / d, s) else let (v, s1) := draw s; (r.sumD / d + ((v % 2 : Nat) : Int), s1)

/-- R406, R407: a run with at least 6 exchanges delivers: the delay, the own depth, and e to R341. -/
def levelDeliver (s : State) (c : LevelCfg) (r : LevelRun) : State :=
  let (d, s1) := levelDelay s r
  let w := fieldOf 40 d
  let s2 := setF (setF (setF s1 lkLevelDelayLoDelay (w % 2 ^ 20)) lkLevelDelayHiDelay (w / 2 ^ 20)) lkLevelDepth (r.depth + 1)
  let s3 := { s2 with net := { s2.net with levelValid := true, levelMiss := 0, failover := decide (r.link ≠ c.up.val) } }
  measure s3 (levelE c r) (mkRat c.period 1000)

/-- R406, R407: a run ends. -/
def levelEndSt (s : State) : State :=
  match s.net.level, levelCfg s with
  | some r, some c =>
    if r.done_ = 8 ∨ r.start + msU ≤ elapsed s then
      let s1 := { s with net := { s.net with level := none } }
      if 6 ≤ r.done_ ∧ r.depth < 4095 then levelDeliver s1 c r else levelLost s1 (decide (6 ≤ r.done_))
    else s
  | _, _ => s

/-- R406 LEVEL_RUN_END. -/
def execLevelRunEnd (s : State) : Host.Outcome State Fault Refusal := .next (levelEndSt s)

end Sys2Proof.Machine
end

