-- ==== Sys2Proof/Machine/Deliver.lean ====
section
/-! DEFINITION. Frames that arrive in a link's byte stream: delivered here, passed on, or both (spec R387 to R392, R403 to R405). -/

namespace Sys2Proof.Machine
open Sys2Proof

/-! ### Delivery -/

/-- R395: the payload of a READ. -/
def deliverRead (l : Fin 3) (f : Frame) (s : State) : State :=
  linkReadSt l f.tag f.src (wAt f.payload 0 2) (wAt f.payload 2 1) s

/-- R395: the payload of a WRITE; a length that does not fit its count is a bad request. -/
def deliverWrite (l : Fin 3) (f : Frame) (s : State) : State :=
  let p := f.payload
  let c := wAt p 2 1
  if p.length ≠ 5 + 2 * c then writeResp s l f.src f.tag stBadRequest 0 0
  else linkWriteSt l f.tag f.src (wAt p 0 2) (wAt p 3 2) ((List.range c).map (fun k => wAt p (5 + 2 * k) 2)) s

/-- R344: the payload of a TIME frame, by its kind; a kind that the rule does not list is of a wrong source. -/
def deliverTime (l : Fin 3) (f : Frame) (s : State) : State :=
  let p := f.payload
  let seq := wAt p 1 1
  let sec := wAt p 2 6
  let t := sec % 2 ^ 60 * secU + wAt p 8 3 * nsU
  if p.length ≠ 11 then rxBad s l
  else match wAt p 0 1 with
    | 0 => timeSetSt f.src f.tag seq t s
    | 1 => timeTrackSt f.src f.tag seq t s
    | 2 => timeLabelSt f.src f.tag seq sec s
    | _ => hostMsg s f.src f.tag seq false (fun _ s => s)

/-- R389, R390: a frame is delivered at this engine, by its type; one that the engine only sends is discarded, unless ALL is set. -/
def deliver (l : Fin 3) (f : Frame) (s : State) : State :=
  let p := f.payload
  match f.ftype with
  | 0x001 => creditSt l ((List.range 3).map (fun c => wAt p (2 * c) 2)) s
  | 0x002 => answerOffer l (wAt p 0 6) (wAt p 6 1) s
  | 0x003 => acceptSt l (wAt p 0 6) (wAt p 6 1) s
  | 0x008 => levelReqSt l f (stampNow s) s
  | 0x009 => levelRespSt l f (stampNow s) s
  | 0x00A => chainApply l f s
  | 0x101 => deliverRead l f s
  | 0x102 => deliverWrite l f s
  | 0x105 => amendSt l p s
  | 0x108 => deliverTime l f s
  | 0x10A => timedSendSt l f.tag f.src p s
  | _ => if bitOf f.flags 0 then s else rxBad s l

/-! ### Forwarding -/

/-- R403, R404: a frame that arrives whole: delivered, passed on, or, with ALL set, both. -/
def forwardSt (l : Fin 3) (f : Frame) (s : State) : State :=
  if bitOf f.flags 0 then
    match passAll s l f with
    | none => bump s (lkDupCount l.val)
    | some t => deliver l f t
  else if f.dest = ownAddr s then deliver l f s
  else if 4095 ≤ f.hops then bump s (lkTtlDropCount l.val)
  else match routeOf s false f with
    | some (out, g) => passOn s l out g
    | none => bump s (lkNorouteCount l.val)

/-- R362, R405: the byte rate of a link, in units of 1/40 byte per ns. -/
def byteRate (s : State) (l : Fin 3) : Nat :=
  let Q := quadAt s l
  Q.width * (match Q.rate with | 0 => 10 | 1 => 20 | 2 => 25 | _ => 32)

/-- R391, R405: a frame could leave on a link at once: its credit is there, and no frame of equal or higher class waits or is being
sent. -/
def leavesNow (s : State) (out : Fin 3) (f : Frame) : Bool :=
  let L := vget s.net.links out
  creditFor L f && L.high.isNone && L.prio.isEmpty
    && (decide (frameClass f = 0) || (L.low.isNone && L.mgmt.isEmpty && (decide (frameClass f = 1) || (L.bulk.isEmpty && L.fwd.isEmpty))))

/-- R405: a frame for another engine whose CRC-32C fails at its end has been sent cut-through where its way lay open, and its copy ends
with K30.7. A frame with ALL set waits for its EOF, since its delivery here does (log entry 154). -/
def cutThrough (l : Fin 3) (f : Frame) (s : State) : State :=
  if bitOf f.flags 0 ∨ f.dest = ownAddr s ∨ 4095 ≤ f.hops then s
  else match routeOf s false f with
    | some (out, g) =>
      if byteRate s l ≤ byteRate s out ∧ leavesNow s out g = true then passOn s l out { g with flags := g.flags + flagCut } else s
    | none => s

/-- R389, R390, R393: one frame of the stream: its credit is used up; a wrong one is discarded and counted. -/
def takeItem (l : Fin 3) (s : State) (x : RxItem) : State :=
  match x with
  | .good f => receive s l f (forwardSt l f)
  | .badCrc f => let s1 := noteRx s l f; rxBad (if frameOk f then cutThrough l f s1 else s1) l
  | .bad => rxBad s l

/-- R387, R392, R403 FRAME_FORWARD: a piece of the byte stream arrives on an ACTIVE link, ordered sets removed. -/
def execFrameForward (l : Fin 3) (symbols : List Nat) (s : State) : Host.Outcome State Fault Refusal :=
  .next (whenB (linkUp s l) s ((deframe symbols).foldl (takeItem l) s))

end Sys2Proof.Machine
end

