-- ==== Sys2Proof/Machine/LaneAlu.lean ====
section
/-! DEFINITION. Word and pair arithmetic of the lanes (spec R232, R233, R238): ALU, ALUD, ALUI, CMP, CMPI, SEL, MOVI,
PRM. -/

namespace Sys2Proof.Machine
open Sys2Proof

/-- R233: the FN codes of the ALU that are not reserved. -/
def aluLegal (fn : Nat) : Bool := decide (fn ≤ 11) || decide (fn = 13)

/-- R232, R233: the ALU on signed operands of width `w`; `sh` the shift count. -/
def aluFn (w fn : Nat) (x y : Int) (sh rnd : Nat) (sat : Bool) : Int :=
  let ux := fieldOf w x
  let uy := fieldOf w y
  let narrow (v : Int) : Int := if sat then satS w v else v
  match fn with
  | 0 => narrow (x + y)
  | 1 => narrow (x - y)
  | 2 => ((ux &&& uy : Nat) : Int)
  | 3 => ((ux ||| uy : Nat) : Int)
  | 4 => ((ux ^^^ uy : Nat) : Int)
  | 5 => narrow (x * 2 ^ sh)
  | 6 => narrow (roundRnd rnd x (2 ^ sh))
  | 7 => roundRnd rnd (ux : Int) (2 ^ sh)
  | 8 => min x y
  | 9 => max x y
  | 10 => narrow (if x < 0 then -x else x)
  | 11 => narrow (-x)
  | _ => x

/-- R233: the comparisons of CMP and CMPI on operands of width `w`. -/
def cmpFn (w fn : Nat) (x y : Int) : Bool :=
  match fn % 8 with
  | 0 => decide (x = y)
  | 1 => decide (x ≠ y)
  | 2 => decide (x < y)
  | 3 => decide (y ≤ x)
  | 4 => decide (fieldOf w x < fieldOf w y)
  | _ => decide (fieldOf w y ≤ fieldOf w x)

/-- A register operand of a width, signed. -/
def regVal (L : Lane) (wide : Bool) (i : Nat) : Int := if wide then laneDS L i else laneWS L i

/-- The tag of a register operand of a width. -/
def regTag (L : Lane) (wide : Bool) (i : Nat) : Bool := if wide then laneInvD L i else laneInv L i

/-- The width of words or pairs. -/
def widthOf (wide : Bool) : Nat := if wide then 20 else 10

/-- ALU and ALUD: one meaning by width. -/
def aluOp (wide : Bool) (cost : LaneCost) (t : Fin 8) (p : Pred) (r : FmtR) (s : State) : Host.Outcome State Fault Refusal :=
  let two := aluTwo r.fn.val
  laneOp s t p (aluLegal r.fn.val && (!wide || (evenReg r.rd && evenReg r.ra && (!two || evenReg r.rb))))
    cost
    (fun L => putR L wide r.rd.val
      (aluFn (widthOf wide) r.fn.val (regVal L wide r.ra.val) (regVal L wide r.rb.val) r.sh.val r.rnd.val r.sat)
      (regTag L wide r.ra.val || (two && regTag L wide r.rb.val)))

/-- R233 ALU, on words. -/
def execAlu (t : Fin 8) (p : Pred) (r : FmtR) (s : State) : Host.Outcome State Fault Refusal := aluOp false (laneCost (.alu t p r)) t p r s

/-- R233 ALUD, on pairs. -/
def execAlud (t : Fin 8) (p : Pred) (r : FmtR) (s : State) : Host.Outcome State Fault Refusal := aluOp true (laneCost (.alud t p r)) t p r s

/-- The immediate operand at the operation's width. -/
def immVal (w : Nat) (imm : BitVec 16) : Int := signedOf w (fieldOf w imm.toInt)

/-- R233 ALUI: rd ← ra FN IMM16; a shift counts IMM16 mod 32; no rounding and no saturation field. -/
def execAlui (t : Fin 8) (p : Pred) (i : FmtI) (s : State) : Host.Outcome State Fault Refusal :=
  laneOp s t p (aluLegal i.fn.val && (!i.w || (evenReg i.rd && evenReg i.ra)))
    (laneCost (.alui t p i))
    (fun L => putR L i.w i.rd.val
      (aluFn (widthOf i.w) i.fn.val (regVal L i.w i.ra.val) (immVal (widthOf i.w) i.imm) (i.imm.toNat % 32) 0 false)
      (regTag L i.w i.ra.val))

/-- R233 CMP: p[rd mod 4] ← ra FN rb; FN[3] selects pairs. -/
def execCmp (t : Fin 8) (p : Pred) (r : FmtR) (s : State) : Host.Outcome State Fault Refusal :=
  let wide := decide (8 ≤ r.fn.val)
  laneOp s t p (decide (r.fn.val % 8 ≤ 5) && (!wide || (evenReg r.ra && evenReg r.rb)))
    (laneCost (.cmp t p r))
    (fun L => putP L r.rd.val (cmpFn (widthOf wide) r.fn.val (regVal L wide r.ra.val) (regVal L wide r.rb.val)))

/-- R233 CMPI: p[rd mod 4] ← ra FN IMM16, width by W. -/
def execCmpi (t : Fin 8) (p : Pred) (i : FmtI) (s : State) : Host.Outcome State Fault Refusal :=
  laneOp s t p (decide (i.fn.val % 8 ≤ 5) && (!i.w || evenReg i.ra))
    (laneCost (.cmpi t p i))
    (fun L => putP L i.rd.val (cmpFn (widthOf i.w) i.fn.val (regVal L i.w i.ra.val) (immVal (widthOf i.w) i.imm)))

/-- R233 SEL: rd ← p[FN mod 4] ? ra : rb; CJ selects pairs. -/
def execSel (t : Fin 8) (p : Pred) (r : FmtR) (s : State) : Host.Outcome State Fault Refusal :=
  let wide := r.cj
  laneOp s t p (!wide || (evenReg r.rd && evenReg r.ra && evenReg r.rb))
    (laneCost (.sel t p r))
    (fun L =>
      let src := if laneP L r.fn.val then r.ra.val else r.rb.val
      putR L wide r.rd.val (regVal L wide src) (regTag L wide src))

/-- R233 MOVI: w[rd] ← IMM20[9:0], or d ← IMM20; untagged. -/
def execMovi (t : Fin 8) (p : Pred) (rd : Fin 32) (imm : BitVec 20) (w : Bool) (s : State) :
    Host.Outcome State Fault Refusal :=
  laneOp s t p (!w || evenReg rd) (laneCost (.movi t p rd imm w))
    (fun L => putR L w rd.val (imm.toNat : Int) false)

/-- R233 PRM: w[rd] ← parameter word IMM16 of the running custom kernel. A word beyond its parameters is open. -/
def execPrm (t : Fin 8) (p : Pred) (i : FmtI) (s : State) : Host.Outcome State Fault Refusal :=
  match (vget s.trav t).kern with
  | none => laneOp s t p false (laneCost (.prm t p i)) id
  | some kr =>
    let n := match kernAt s kr.k with | none => 0 | some k => k.nParams
    let v : Nat := if i.imm.toNat < n then (kernParam s t kr.k i.imm.toNat).toNat else (draw s).1
    laneOp (if i.imm.toNat < n then s else (draw s).2) t p true (laneCost (.prm t p i))
      (fun L => putW L i.rd.val (v : Int) false)

end Sys2Proof.Machine
end

