-- ==== Sys2Proof/Machine/LaneCordic.lean ====
section
/-! DEFINITION. The CORDIC and phase unit of the lanes (spec R236): ATAN, MAG, MAG2, UNIT, ROT, LNR, DBL, EXPW, DIV,
MAXI, MINI. Where the table gives a tolerance the result is a free value inside it. -/

namespace Sys2Proof.Machine
open Sys2Proof

/-- R236 ATAN: the phase of (d[ra], d[rb]) in TU, or with ten further fraction bits (FN 1). -/
def execAtan (t : Fin 8) (p : Pred) (r : FmtR) (s : State) : Host.Outcome State Fault Refusal :=
  let wide := decide (r.fn.val = 1)
  laneOp s t p (decide (r.fn.val ≤ 1) && evenReg r.ra && evenReg r.rb && (!wide || evenReg r.rd))
    (laneCost (.atan t p r))
    (fun L => putR L wide r.rd.val ((phaseTU (if wide then 20 else 10) (laneDS L r.rb.val) (laneDS L r.ra.val) : Nat) : Int)
      (laneInvD L r.ra.val || laneInvD L r.rb.val))

/-- R236 MAG: min(2^20 − 1, ⌊√(d[ra]² + d[rb]²)⌋). -/
def execMag (t : Fin 8) (p : Pred) (r : FmtR) (s : State) : Host.Outcome State Fault Refusal :=
  laneOp s t p (evenReg r.rd && evenReg r.ra && evenReg r.rb)
    (laneCost (.mag t p r))
    (fun L => putD L r.rd.val
      ((min (2 ^ 20 - 1) (isqrt ((laneDS L r.ra.val).natAbs ^ 2 + (laneDS L r.rb.val).natAbs ^ 2)) : Nat) : Int)
      (laneInvD L r.ra.val || laneInvD L r.rb.val))

/-- R236 MAG2: acc[A] ← d[ra]² + d[rb]², exact; SAT is not among R238's fresh loads. -/
def execMag2 (t : Fin 8) (p : Pred) (r : FmtR) (s : State) : Host.Outcome State Fault Refusal :=
  laneOp s t p (evenReg r.ra && evenReg r.rb)
    (laneCost (.mag2 t p r))
    (fun L => accWrite L r.a (laneDS L r.ra.val ^ 2 + laneDS L r.rb.val ^ 2) (laneSat L r.a)
      (laneInvD L r.ra.val || laneInvD L r.rb.val))

/-- R236 UNIT: d[rd] ← the unit phasor of w[ra] at amplitude 511. -/
def execUnit (t : Fin 8) (p : Pred) (r : FmtR) (s : State) : Host.Outcome State Fault Refusal :=
  laneOp s t p (evenReg r.rd)
    (laneCost (.unit t p r))
    (fun L =>
      let u := unitPhasor (laneW L r.ra.val)
      let tag := laneInv L r.ra.val
      putW (putW L r.rd.val u.1 tag) (r.rd.val + 1) u.2 tag)

/-- A free integer within one unit of an exact fixed-point value: either neighbour, or of an integer itself or the
next on either side. -/
def within1 (draw : Nat) (e : Int) : Int :=
  let f := e / (fxOne : Int)
  if e % (fxOne : Int) = 0 then f - 1 + (draw % 3 : Nat) else f + (draw % 2 : Nat)

/-- R236 ROT: (d[ra], d[rb]) rotated in place by w[rd] TU, each component within 1 LSB of exact, saturated. -/
def execRot (t : Fin 8) (p : Pred) (r : FmtR) (s : State) : Host.Outcome State Fault Refusal :=
  let d := s.freeCtr
  issue { s with freeCtr := d + 1 } t (evenReg r.ra && evenReg r.rb) false
    (laneCost (.rot t p r))
    (fun s1 => settle s1 t (modTrav s1 t (fun T => mapLanes T (fun i L =>
      if laneExecs s1 t p i L then
        let e := rotateFx (laneDS L r.ra.val) (laneDS L r.rb.val) (laneW L r.rd.val * (fxOne / 1024))
        let tag := laneInvD L r.ra.val || laneInvD L r.rb.val || laneInv L r.rd.val
        putD (putD L r.ra.val (satS 20 (within1 (Config.freeLane d i 50).toNat e.1)) tag)
          r.rb.val (satS 20 (within1 (Config.freeLane d i 51).toNat e.2)) tag
      else L))))

/-- R236 LNR: acc[A] ← 2^20·ln(acc0 / acc1) within 2 LSB; with an operand that is not positive the result is 0 and
acc[A] is pinned. -/
def execLnr (t : Fin 8) (p : Pred) (r : FmtR) (s : State) : Host.Outcome State Fault Refusal :=
  let d := s.freeCtr
  issue { s with freeCtr := d + 1 } t true false
    (laneCost (.lnr t p r))
    (fun s1 => settle s1 t (modTrav s1 t (fun T => mapLanes T (fun i L =>
      if laneExecs s1 t p i L then
        let a := laneAcc L false
        let b := laneAcc L true
        let tag := laneAccInv L false || laneAccInv L true
        if a ≤ 0 ∨ b ≤ 0 then pinAcc L r.a 0 tag
        else
          let k := (Config.freeLane d i 52).toNat
          accWrite L r.a (if a = b then -2 + (k % 5 : Nat) else lnRatioFloor a.toNat b.toNat - 1 + (k % 4 : Nat))
            (laneSat L r.a) tag
      else L))))

/-- R236 DBL: w[rd] ← the level of acc[A] / 2^SH in −1/8 dB, limited to 0 to 1,022. -/
def execDbl (t : Fin 8) (p : Pred) (r : FmtR) (s : State) : Host.Outcome State Fault Refusal :=
  laneOp s t p true
    (laneCost (.dbl t p r))
    (fun L => putW L r.rd.val ((levelOf (laneAcc L r.a).toNat r.sh.val : Nat) : Int) (laneAccInv L r.a))

/-- R236 EXPW: w[rd] ← min(1023, round(32·10^(w[ra]/320))), w[ra] signed. -/
def execExpw (t : Fin 8) (p : Pred) (r : FmtR) (s : State) : Host.Outcome State Fault Refusal :=
  laneOp s t p true
    (laneCost (.expw t p r))
    (fun L => putW L r.rd.val ((weightOf (laneWS L r.ra.val) : Nat) : Int) (laneInv L r.ra.val))

/-- R236 DIV: the quotient acc0 / acc1 under RND, to d[rd] under SAT (FN 0) or to acc[A] (FN 1). -/
def execDiv (t : Fin 8) (p : Pred) (r : FmtR) (s : State) : Host.Outcome State Fault Refusal :=
  let wide := decide (r.fn.val = 0)
  laneOp s t p (decide (r.fn.val ≤ 1) && (!wide || evenReg r.rd))
    (laneCost (.div t p r))
    (fun L =>
      let n := laneAcc L false
      let d := laneAcc L true
      let tag := laneSat L false || laneSat L true || laneAccInv L false || laneAccInv L true
      if d = 0 then
        if wide then putD L r.rd.val (if n < 0 then -(2 ^ 19 : Int) else 2 ^ 19 - 1) tag
        else pinAcc L r.a (if n < 0 then -(2 ^ 39 : Int) else 2 ^ 39 - 1) tag
      else
        let q := roundRnd r.rnd.val (if d < 0 then -n else n) d.natAbs
        if wide then putD L r.rd.val (satTo 20 r.sat q) tag else accWrite L r.a q (laneSat L r.a) tag)

/-- R236: the index MAXI and MINI record: rc (FN 0), or the low word of x[FN − 1]. -/
def searchIndex (fn rc : Nat) (L : Lane) : Nat := if fn = 0 then rc else laneX L (fn - 1) % 1024

/-- MAXI and MINI: the candidate d[ra] replaces d[rd] where it is strictly better. -/
def searchOp (better : Int → Int → Bool) (cost : LaneCost) (t : Fin 8) (p : Pred) (r : FmtR) (s : State) :
    Host.Outcome State Fault Refusal :=
  let rc := rcOf s t
  laneOp s t p (decide (r.fn.val ≤ 4) && evenReg r.rd && evenReg r.ra)
    cost
    (fun L =>
      if better (laneDS L r.ra.val) (laneDS L r.rd.val) then
        let tag := laneInvD L r.ra.val || laneInvD L r.rd.val
        putW (putD L r.rd.val (laneDS L r.ra.val) tag) r.rb.val ((searchIndex r.fn.val rc L : Nat) : Int) tag
      else L)

/-- R236 MAXI. -/
def execMaxi (t : Fin 8) (p : Pred) (r : FmtR) (s : State) : Host.Outcome State Fault Refusal :=
  searchOp (fun c b => decide (b < c)) (laneCost (.maxi t p r)) t p r s

/-- R236 MINI. -/
def execMini (t : Fin 8) (p : Pred) (r : FmtR) (s : State) : Host.Outcome State Fault Refusal :=
  searchOp (fun c b => decide (c < b)) (laneCost (.mini t p r)) t p r s

end Sys2Proof.Machine
end

