-- ==== Sys2Proof/Machine/LaneMem.lean ====
section
/-! DEFINITION. Local memory and index instructions of the lanes (spec R231, R233, R241, R244): LD, LDP, ST, STP,
ALD, AST, XLD, XADD. -/

namespace Sys2Proof.Machine
open Sys2Proof

/-- R233 LD: w[r] ← mem, untagged (R238). -/
def execLd (t : Fin 8) (p : Pred) (m : FmtM) (s : State) : Host.Outcome State Fault Refusal :=
  memOp s t p m true false 1 (laneCost (.ld t p m))
    (fun a L => putW L m.r.val (memReadN L a 1 : Nat) false)

/-- R233 LDP: d ← mem[a], mem[a+1], low word first. -/
def execLdp (t : Fin 8) (p : Pred) (m : FmtM) (s : State) : Host.Outcome State Fault Refusal :=
  memOp s t p m (evenReg m.r) false 2
    (laneCost (.ldp t p m))
    (fun a L => putD L m.r.val (memReadN L a 2 : Nat) false)

/-- R233 ST: mem ← w[r], without its tag. -/
def execSt (t : Fin 8) (p : Pred) (m : FmtM) (s : State) : Host.Outcome State Fault Refusal :=
  memOp s t p m true true 1 (laneCost (.st t p m))
    (fun a L => memWriteN L a 1 (laneW L m.r.val))

/-- R233 STP: mem[a], mem[a+1] ← d. -/
def execStp (t : Fin 8) (p : Pred) (m : FmtM) (s : State) : Host.Outcome State Fault Refusal :=
  memOp s t p m (evenReg m.r) true 2
    (laneCost (.stp t p m))
    (fun a L => memWriteN L a 2 (laneD L m.r.val))

/-- R233 ALD: acc ← mem[a] to mem[a+3], SAT cleared, untagged. -/
def execAld (t : Fin 8) (p : Pred) (m : FmtM) (s : State) : Host.Outcome State Fault Refusal :=
  memOp s t p m true false 4
    (laneCost (.ald t p m))
    (fun a L => accFresh L m.acc (signedOf 40 (memReadN L a 4)) false)

/-- R233 AST: mem[a] to mem[a+3] ← acc. -/
def execAst (t : Fin 8) (p : Pred) (m : FmtM) (s : State) : Host.Outcome State Fault Refusal :=
  memOp s t p m true true 4
    (laneCost (.ast t p m))
    (fun a L => memWriteN L a 4 (fieldOf 40 (laneAcc L m.acc)))

/-- R233 XLD: x[rd mod 4] ← IMM16 (FN 0), or the pair d[ra] (FN 1), modulo 16,384. -/
def execXld (t : Fin 8) (p : Pred) (i : FmtI) (s : State) : Host.Outcome State Fault Refusal :=
  laneOp s t p (decide (i.fn.val = 0) || (decide (i.fn.val = 1) && evenReg i.ra))
    (laneCost (.xld t p i))
    (fun L => putX L i.rd.val (if i.fn.val = 0 then i.imm.toInt else (laneD L i.ra.val : Int)))

/-- R233 XADD: x[rd mod 4] += IMM16, modulo 16,384. -/
def execXadd (t : Fin 8) (p : Pred) (i : FmtI) (s : State) : Host.Outcome State Fault Refusal :=
  laneOp s t p true (laneCost (.xadd t p i))
    (fun L => putX L i.rd.val ((laneX L i.rd.val : Int) + i.imm.toInt))

end Sys2Proof.Machine
end

