-- ==== Sys2Proof/Machine/LaneMul.lean ====
section
/-! DEFINITION. Multipliers and accumulators of the lanes (spec R234, R235, R238, R239): MAC, CMAC, DMAC, AOP, ASH,
ATST, GMAC. -/

namespace Sys2Proof.Machine
open Sys2Proof

/-- FN 0 loads an accumulator afresh, FN 1 adds, FN 2 subtracts (R234, R238). -/
def accByFn (fn : Nat) (L : Lane) (a : Bool) (v : Int) (tag : Bool) : Lane :=
  match fn with
  | 0 => accFresh L a v tag
  | 1 => accUpdate L a (laneAcc L a + v) tag
  | _ => accUpdate L a (laneAcc L a - v) tag

/-- R234 MAC; illegal in gang mode (R239). -/
def execMac (t : Fin 8) (p : Pred) (r : FmtR) (s : State) : Host.Outcome State Fault Refusal :=
  laneOp s t p (decide (r.fn.val ≤ 2) && !(vget s.trav t).gang)
    (laneCost (.mac t p r))
    (fun L => accByFn r.fn.val L r.a (laneWS L r.ra.val * laneWS L r.rb.val)
      (laneInv L r.ra.val || laneInv L r.rb.val))

/-- R234 CMAC: the complex product of d[ra] and d[rb], or its conjugate with CJ, into both accumulators. -/
def execCmac (t : Fin 8) (p : Pred) (r : FmtR) (s : State) : Host.Outcome State Fault Refusal :=
  laneOp s t p (decide (r.fn.val ≤ 1) && !(vget s.trav t).gang && evenReg r.ra && evenReg r.rb)
    (laneCost (.cmac t p r))
    (fun L =>
      let a := laneC L r.ra.val
      let b0 := laneC L r.rb.val
      let b : Cx := if r.cj then { re := b0.re, im := -b0.im } else b0
      let tag := laneInvD L r.ra.val || laneInvD L r.rb.val
      accByFn r.fn.val (accByFn r.fn.val L false (a.re * b.re - a.im * b.im) tag) true (a.re * b.im + a.im * b.re) tag)

/-- R234 DMAC: the dot product of two pairs. -/
def execDmac (t : Fin 8) (p : Pred) (r : FmtR) (s : State) : Host.Outcome State Fault Refusal :=
  laneOp s t p (decide (r.fn.val ≤ 1) && !(vget s.trav t).gang && evenReg r.ra && evenReg r.rb)
    (laneCost (.dmac t p r))
    (fun L =>
      let a := laneC L r.ra.val
      let b := laneC L r.rb.val
      accByFn r.fn.val L r.a (a.re * b.re + a.im * b.im) (laneInvD L r.ra.val || laneInvD L r.rb.val))

/-- R235 AOP. -/
def execAop (t : Fin 8) (p : Pred) (r : FmtR) (s : State) : Host.Outcome State Fault Refusal :=
  laneOp s t p (decide (r.fn.val ≤ 5) && (decide (r.fn.val ≠ 4) || evenReg r.ra))
    (laneCost (.aop t p r))
    (fun L =>
      let o := laneAcc L (!r.a)
      let ot := laneAccInv L (!r.a)
      match r.fn.val with
      | 0 => setAcc L r.a 0 false false
      | 1 => accUpdate L r.a (laneAcc L r.a + o) ot
      | 2 => accUpdate L r.a (laneAcc L r.a - o) ot
      | 3 => accUpdate L r.a (-(laneAcc L r.a)) false
      | 4 => accFresh L r.a (laneDS L r.ra.val * 2 ^ r.sh.val) (laneInvD L r.ra.val)
      | _ => accUpdate L r.a (roundRnd r.rnd.val (laneAcc L r.a) (2 ^ r.sh.val)) false)

/-- R235 ASH: a register ← the rounded shift of an accumulator, INV where its SAT is set (R238). -/
def execAsh (t : Fin 8) (p : Pred) (r : FmtR) (s : State) : Host.Outcome State Fault Refusal :=
  let wide := decide (r.fn.val = 1)
  laneOp s t p (decide (r.fn.val ≤ 1) && (!wide || evenReg r.rd))
    (laneCost (.ash t p r))
    (fun L => putR L wide r.rd.val
      (satTo (if wide then 20 else 10) r.sat (roundRnd r.rnd.val (laneAcc L r.a) (2 ^ r.sh.val)))
      (laneSat L r.a || laneAccInv L r.a))

/-- R235 ATST: p[rd mod 4] ← SAT[A], acc[A] = 0, acc[A] < 0 or AOV. -/
def execAtst (t : Fin 8) (p : Pred) (r : FmtR) (s : State) : Host.Outcome State Fault Refusal :=
  laneOp s t p (decide (r.fn.val ≤ 3))
    (laneCost (.atst t p r))
    (fun L => putP L r.rd.val (match r.fn.val with
      | 0 => laneSat L r.a
      | 1 => decide (laneAcc L r.a = 0)
      | 2 => decide (laneAcc L r.a < 0)
      | _ => L.aov))

/-- R239 GMAC: the 16 × 16 product of gang mode, set (FN 0) or added (FN 1). FN 0 is not among R238's fresh loads, so
it leaves SAT as it stands. -/
def execGmac (t : Fin 8) (p : Pred) (r : FmtR) (s : State) : Host.Outcome State Fault Refusal :=
  laneOp s t p (decide (r.fn.val ≤ 1) && (vget s.trav t).gang && evenReg r.ra && evenReg r.rb)
    (laneCost (.gmac t p r))
    (fun L =>
      let v := signedOf 16 (laneD L r.ra.val) * signedOf 16 (laneD L r.rb.val)
      let tag := laneInvD L r.ra.val || laneInvD L r.rb.val
      if r.fn.val = 0 then accWrite L r.a v (laneSat L r.a) tag else accUpdate L r.a (laneAcc L r.a + v) tag)

end Sys2Proof.Machine
end

