-- ==== Sys2Proof/Machine/Mailbox.lean ====
section
/-! DEFINITION. The mailbox requests about the image, its hashes and the lifecycle (spec R42 to R50). The other requests
stand with what they act on. -/

namespace Sys2Proof.Machine
open Sys2Proof

/-- R50: the thermometer advances until the counter equals a security version. -/
def advanceCounter (s : State) (v : Nat) : State :=
  let n := (List.range v).foldl (fun (m : BitVec 64) i => if secCounter s ≤ i then m ||| BitVec.ofNat 64 (2 ^ i) else m) s.keeper.otp.therm
  modKeeper s (fun k => { k with otp := { k.otp with therm := n } })

/-- R43, R50: BOOT_COMPLETE: once per COLD boot, after both RECORD_HASH requests; a COMMIT image advances the
anti-rollback counter where the lifecycle keeps it (R45). -/
def bootCompleteSt (s : State) : State :=
  if s.keeper.boot.complete ∨ s.keeper.hashField = none ∨ s.keeper.hashPlan = none then mbxAnswer s 2 mbxRefusedSequence 0
  else
    let s1 := mbxAnswer (modBoot s (fun b => { b with complete := true })) 2 mbxGranted 0
    if s.keeper.boot.commit && decide (lifecycle s = 1 ∨ lifecycle s = 2) then advanceCounter s1 s.keeper.boot.secVersion else s1

/-- R43: REFUSED_SIGNATURE and BAD_CODE. -/
def mbxRefusedSignature : Nat := 3
def mbxBadCode : Nat := 1023

/-- R46: an integrator key of a programmed, unrevoked slot. -/
def integratorKey (s : State) (n : Fin 4) : Bool := keyProgrammed s n && !(keyRevoked s n)

/-- The OTP array changed. -/
def modOtp (s : State) (f : Otp → Otp) : State := modKeeper s (fun k => { k with otp := f k.otp })

/-- R46, R48: the three bits of a lifecycle state are programmed. -/
def programLife (s : State) (target : Nat) : State :=
  modOtp s (fun o => { o with life := o.life ||| BitVec.ofNat 9 (7 * 2 ^ (3 * (target - 1))) })

/-- R47: entry to RETURN: both lasers disarmed, every DRAM word zero: the lanes' words, the ring, the amended plan and the
copy of Fieldbook. -/
def enterReturn (s : State) : State :=
  let s1 := (List.finRange 2).foldl (fun s l => disarmLine (setRearm s l false) l) (programLife s 3)
  modCode { s1 with dram := [], book := { s1.book with amended := [], fieldCopy := [] } } (fun c => { c with ring := [], index := [] })

/-- R46: what a LIFECYCLE token asks for. -/
inductive TokenAsk where
  /-- Advance to a state: 1 PROVISIONED, 2 FIELD, 3 RETURN. -/
  | toState (target : Nat)
  /-- Program integrator key slot n with a SHA-384. -/
  | program (n : Fin 4) (hash : Nat)
  /-- Revoke integrator key slot n. -/
  | revoke (n : Fin 4)
  deriving DecidableEq, Repr

/-- R46: a LIFECYCLE token: what it asks, the device unique identifier it names, and the SHA-384 of the key it is signed
with. -/
structure Token where
  ask : TokenAsk
  uid : Nat
  signer : Nat
  deriving DecidableEq, Repr

/-- R46: words of a token's payload before its signature (log entry 128). -/
def tokenWords : Nat := 132

/-- R46: the token in a record: its change, key slot, unique identifier, SHA-384 to program and signing key (log entry
128). -/
def tokenOf (p : List Word) : Token :=
  let n : Fin 4 := finOf 4 (wAt p 1 1) (by decide)
  { ask := match wAt p 0 1 with | 4 => .program n (wAt p 15 39 % 2 ^ 384) | 5 => .revoke n | t => .toState t,
    uid := wAt p 2 13, signer := keyHash { x := wAt p 54 39, y := wAt p 93 39 } }

/-- R46: a token's framing and its ECDSA P-384 signature over the SHA-384 of the preceding words: the token, if both are
correct. -/
def readToken (ws : List Word) : Option Token :=
  match parseRec ws with
  | some (r, []) =>
    let p := r.payload
    if decide (p.length = tokenWords + 78)
        && signedBy { x := wAt p 54 39, y := wAt p 93 39 } (ws.take (3 + tokenWords)) (p.drop tokenWords) then some (tokenOf p)
    else none
  | _ => none

/-- R46, R49: the token is signed by the vendor key. -/
def byVendor (s : State) (t : Token) : Bool := decide (t.signer = s.keeper.vendorHash)

/-- R46, R49: the token is signed by the integrator key of a programmed, unrevoked slot that passes a test. -/
def bySlot (s : State) (t : Token) (ok : Fin 4 → Bool) : Bool :=
  (List.finRange 4).any (fun n => ok n && integratorKey s n && decide (vget s.keeper.otp.keys n = t.signer))

/-- R46: the verdict on a token: whether the change is in order, its signer is the right one, and its condition holds; and
the change. -/
def tokenJudge (s : State) (t : Token) : Bool × Bool × Bool × State :=
  let life := lifecycle s
  match t.ask with
  | .toState target =>
    if target = 1 then
      (decide (life = 0), byVendor s t, (List.finRange 4).any (keyProgrammed s), programLife s 1)
    else if target = 2 then (decide (life = 1), bySlot s t (fun _ => true), true, programLife s 2)
    else if target = 3 then (decide (life < 3), byVendor s t, true, enterReturn s)
    else (false, true, true, s)
  | .program n h =>
    (true, if life = 0 then byVendor s t else bySlot s t (fun _ => true), !(keyProgrammed s n),
      modOtp s (fun o => { o with keys := vset o.keys n h }))
  | .revoke n =>
    (true, bySlot s t (fun k => decide (k ≠ n)), (List.finRange 4).any (fun k => decide (k ≠ n) && integratorKey s k),
      modOtp s (fun o => { o with revoke := o.revoke ||| BitVec.ofNat 4 (2 ^ n.val) }))

/-- R43, R46: LIFECYCLE on the token in management SRAM. -/
def mbxLifecycleSt (token : Option Token) (s : State) : State :=
  match token with
  | none => mbxAnswer s 11 mbxRefusedSignature 0
  | some t =>
    let (order, signer, cond, next) := tokenJudge s t
    if t.uid ≠ s.keeper.otp.uid then mbxRefuse s 11
    else if !order then mbxAnswer s 11 mbxRefusedState 0
    else if !signer then mbxAnswer s 11 mbxRefusedSignature 0
    else if !cond then mbxRefuse s 11
    else mbxAnswer next 11 mbxGranted 0

/-! ### The queue -/

/-- R42, R43: Benchmark answers a request. A line, set point, loop or kind that does not exist fails a condition. -/
def mbxServe (s : State) (r : MbxReq) : State :=
  let a := r.a1.toNat
  let line : Fin 2 := finOf 2 a (by decide)
  match r.code.toNat with
  | 1 => mbxAnswer (setF s bmWdogMissed 0) 1 mbxGranted 0
  | 2 => bootCompleteSt s
  | 3 => if a < 2 then laserArmSt line s else mbxRefuse s 3
  | 4 => if a < 2 then laserDisarmSt line s else mbxRefuse s 4
  | 5 => match a with
    | 0 => mbxWarmSt false s
    | 1 => mbxColdSt false s
    | 2 => if r.a2.toNat < 2 then mbxLineSt (finOf 2 r.a2.toNat (by decide)) s else mbxRefuse s 5
    | _ => mbxRefuse s 5
  | 6 => match a with
    | 0 => mbxEnterSt s
    | 1 => mbxExitSt s
    | _ => mbxRefuse s 6
  | 7 => if a < 3 then mbxDramFreqSt (finOf 3 a (by decide)) s else mbxRefuse s 7
  | 8 => if a < 2 then recordHashSt (decide (a = 1)) s else mbxRefuse s 8
  | 9 => if a < 8 then mbxLoopReleaseSt (finOf 8 a (by decide)) s else mbxRefuse s 9
  | 10 => if a < 2 then mbxStaleClearSt line s else mbxRefuse s 10
  | 11 => mbxLifecycleSt (readToken (sramWords s (5 * (a + 1024 * r.a2.toNat)) r.a3.toNat)) s
  | c => mbxAnswer s c mbxBadCode 0

/-- R42: Benchmark answers the requests that wait, in the order received, while the keeper core runs. -/
def mbxRun : Nat → State → State
  | 0, s => s
  | n + 1, s =>
    match s.keeper.mbx with
    | [] => s
    | r :: t => if keeperRuns s then mbxRun n (mbxServe (modKeeper s (fun k => { k with mbx := t })) r) else s

/-- R42: Fieldbook sends a request: it is queued and answered; one sent while four await an answer is not accepted (log
entry 129). -/
def mbxSend (s : State) (code a1 a2 a3 : Nat) : State :=
  let r : MbxReq := { code := BitVec.ofNat 10 code, a1 := BitVec.ofNat 10 a1, a2 := BitVec.ofNat 10 a2, a3 := BitVec.ofNat 10 a3 }
  if s.keeper.mbx.length < 4 then mbxRun 4 (modKeeper s (fun k => { k with mbx := k.mbx ++ [r] })) else s

/-- R43, R44 MBX_HEARTBEAT. -/
def execMbxHeartbeat (s : State) : Host.Outcome State Fault Refusal := .next (mbxSend s 1 0 0 0)

/-- R50 MBX_BOOT_COMPLETE. -/
def execMbxBootComplete (s : State) : Host.Outcome State Fault Refusal := .next (mbxSend s 2 0 0 0)

/-- R99 MBX_LASER_ARM. -/
def execMbxLaserArm (line : Fin 2) (s : State) : Host.Outcome State Fault Refusal := .next (mbxSend s 3 line.val 0 0)

/-- R99 MBX_LASER_DISARM. -/
def execMbxLaserDisarm (line : Fin 2) (s : State) : Host.Outcome State Fault Refusal := .next (mbxSend s 4 line.val 0 0)

/-- R442 MBX_RESET_WARM. -/
def execMbxResetWarm (s : State) : Host.Outcome State Fault Refusal := .next (mbxSend s 5 0 0 0)

/-- R442 MBX_RESET_COLD. -/
def execMbxResetCold (s : State) : Host.Outcome State Fault Refusal := .next (mbxSend s 5 1 0 0)

/-- R442 MBX_RESET_LINE. -/
def execMbxResetLine (line : Fin 2) (s : State) : Host.Outcome State Fault Refusal := .next (mbxSend s 5 2 line.val 0)

/-- R446 MBX_STANDBY_ENTER. -/
def execMbxStandbyEnter (s : State) : Host.Outcome State Fault Refusal := .next (mbxSend s 6 0 0 0)

/-- R447 MBX_STANDBY_EXIT. -/
def execMbxStandbyExit (s : State) : Host.Outcome State Fault Refusal := .next (mbxSend s 6 1 0 0)

/-- R428 MBX_DRAM_FREQ. -/
def execMbxDramFreq (sp : Fin 3) (s : State) : Host.Outcome State Fault Refusal := .next (mbxSend s 7 sp.val 0 0)

/-- R61 MBX_RECORD_HASH. -/
def execMbxRecordHash (amendedPlan : Bool) (s : State) : Host.Outcome State Fault Refusal :=
  .next (mbxSend s 8 (b2n amendedPlan) 0 0)

/-- R311 MBX_LOOP_RELEASE. -/
def execMbxLoopRelease (n : Fin 8) (s : State) : Host.Outcome State Fault Refusal := .next (mbxSend s 9 n.val 0 0)

/-- R43 MBX_STALE_CLEAR. -/
def execMbxStaleClear (line : Fin 2) (s : State) : Host.Outcome State Fault Refusal := .next (mbxSend s 10 line.val 0 0)

/-- R43, R46: a LIFECYCLE request: the token stands in management SRAM from a group of four words on, where Fieldbook has
put it, and the request names that group and the token's length (log entry 128). -/
def lifecycleAsk (addr : Nat) (token : List Word) (s : State) : State :=
  mbxSend (putSram s (5 * (addr % 2 ^ 20)) (packWords token)) 11 (addr % 1024) (addr / 1024) token.length

/-- R46 MBX_LIFECYCLE. -/
def execMbxLifecycle (addr : Nat) (token : List Word) (s : State) : Host.Outcome State Fault Refusal :=
  .next (lifecycleAsk addr token s)

/-- R43 MBX_BAD_CODE: a request whose code is none of 0x001 to 0x00B. -/
def execMbxBadCode (code : Fin 1024) (s : State) : Host.Outcome State Fault Refusal :=
  .next (whenB (!(decide (1 ≤ code.val ∧ code.val ≤ 11))) s (mbxSend s code.val 0 0 0))

end Sys2Proof.Machine
end

