-- ==== Sys2Proof/Machine/Service.lean ====
section
/-! DEFINITION. The service port, the boot flash behind it, and the JTAG TAP (spec R472, R473, R496, R45). -/

namespace Sys2Proof.Machine
open Sys2Proof

/-- Management changed. -/
def modMgmt (s : State) (f : MgmtSt → MgmtSt) : State := { s with mgmt := f s.mgmt }

/-- R472: three bytes of a register, the most significant first (PRESUMED; log entry 67). -/
def regBytes (v : Nat) : List Byte := [BitVec.ofNat 8 (v / 65536), BitVec.ofNat 8 (v / 256), BitVec.ofNat 8 v]

/-- R472: the service port is path 0 (R461). -/
def svcPath : Path := 0

/-- R472: REG_READ: registers up to the block's end, zeros beyond it with UNMAPPED. -/
def svcReadSt (a c : Nat) (s : State) : State :=
  let inside := if a < 2 ^ 20 then min c (1024 - a % 1024) else 0
  let as_ := addrsOf a inside
  let busy := as_.any (fun b => regDefined b && regBusy s b)
  let (vs, s1) := if busy then (List.replicate inside 0, s) else readAll s svcPath as_
  let st := if busy then stBusy else if inside < c ∨ as_.all regDefined = false then stUnmapped else stOk
  modMgmt s1 (fun m => { m with svcStatus := st, svcOut := 0xA5#8 :: (vs ++ List.replicate (c - inside) 0).flatMap regBytes })

/-- R472 SVC_REG_READ. -/
def execSvcRegRead (addr : BitVec 24) (count : Nat) (s : State) : Host.Outcome State Fault Refusal :=
  .next (svcReadSt addr.toNat count s)

/-- R472, R473: REG_WRITE, executed as a link's WRITE. -/
def svcWriteSt (a m : Nat) (vs : List Nat) (s : State) : State :=
  if 2 ^ 20 ≤ a then modMgmt s (fun x => { x with svcStatus := stUnmapped, svcOut := [] })
  else
    let (st, d, i, s1) := writeRegs s svcPath a (m % 2 ^ 20) (vs.map (fun v => v % 2 ^ 20))
    modMgmt (pathAnswer s1 svcPath st d [i]) (fun x => { x with svcStatus := st, svcOut := [] })

/-- R472 SVC_REG_WRITE. -/
def execSvcRegWrite (addr mask : BitVec 24) (values : List (BitVec 24)) (s : State) : Host.Outcome State Fault Refusal :=
  .next (svcWriteSt addr.toNat mask.toNat (values.map (fun v => v.toNat)) s)

/-- R472: the status byte. -/
def svcByte (s : State) : Nat :=
  128 * b2n s.mgmt.flashOp.isSome + 64 * b2n s.mgmt.flashRefused + 32 * b2n s.mgmt.flashFail + s.mgmt.svcStatus % 8

/-- R472, R473 SVC_STATUS: the status byte, which clears FLASH_REFUSED and FLASH_FAIL. -/
def execSvcStatus (s : State) : Host.Outcome State Fault Refusal :=
  .next (modMgmt s (fun m => { m with svcOut := [BitVec.ofNat 8 (svcByte s)], flashRefused := false, flashFail := false }))

/-! ### Flash commands -/

/-- R473: the slot not booted, from its directory address to the next slot's start or the flash's end; with no slot booted
neither is in use. -/
def inactiveSlot (s : State) (a : Nat) : Bool :=
  match directory s with
  | none => false
  | some (da, db) =>
    let inside (own other : Nat) : Bool := decide (own ≤ a) && (decide (other ≤ own) || decide (a < other))
    match getF s bmStateBootSlot with
    | 1 => inside db da
    | 2 => inside da db
    | _ => inside da db || inside db da

/-- R473: a flash command is refused: BUSY, in boot before BOOT_PHASE 3, or in FIELD an address outside the inactive
slot. -/
def flashRefuses (s : State) (as_ : List Nat) : Bool :=
  s.mgmt.flashOp.isSome || (decide (bootPhase s < 3) && !s.keeper.warm)
    || (decide (lifecycle s = 2) && as_.any (fun a => !(inactiveSlot s a)))

/-- R473, R51: a flash command, refused or carried out with the opcodes it puts on the flash bus. -/
def flashCmd (s : State) (as_ bus : List Nat) (f : MgmtSt → MgmtSt) : State :=
  if flashRefuses s as_ then modMgmt s (fun m => { m with flashRefused := true, svcOut := [] })
  else modMgmt s (fun m => { f m with flashBus := bus })

/-- R51: the opcodes of a read, of a program and of an erase for the service port: Fast Read; Write Enable, Page Program
or Sector Erase, and Read Status. -/
def busRead : List Nat := [0x0B]
def busProgram : List Nat := [0x06, 0x12, 0x05]
def busErase : List Nat := [0x06, 0xDC, 0x05]

/-- R472 FLASH_READ: data from an address on. -/
def execFlashRead (addr : BitVec 32) (count : Nat) (s : State) : Host.Outcome State Fault Refusal :=
  let as_ := (List.range count).map (fun i => (addr.toNat + i) % 2 ^ 32)
  .next (flashCmd s as_ busRead (fun m => { m with svcOut := as_.map (flashByte s) }))

/-- R473 FLASH_PROGRAM: 1 to 256 bytes within one page; any other number is no such command and nothing is done. -/
def execFlashProgram (addr : BitVec 32) (bytes : List Byte) (s : State) : Host.Outcome State Fault Refusal :=
  let a := addr.toNat
  let as_ := (List.range bytes.length).map (fun i => a + i)
  .next (whenB (!bytes.isEmpty && decide (a % 256 + bytes.length ≤ 256)) s
    (flashCmd s as_ busProgram (fun m => { m with flashOp := some (.program a bytes), svcOut := [] })))

/-- R473 FLASH_ERASE: the 64 KB sector of an address. -/
def execFlashErase (addr : BitVec 32) (s : State) : Host.Outcome State Fault Refusal :=
  let a := addr.toNat / 65536 * 65536
  .next (flashCmd s [a, a + 65535] busErase (fun m => { m with flashOp := some (.erase a), svcOut := [] }))

/-- The flash with its bytes from an address replaced. -/
def flashPut (t : Tab Byte) (a : Nat) (bs : List Byte) : Tab Byte :=
  bs.zipIdx.foldl (fun t x => tabSet 0xFF#8 t (a + x.2) x.1) t

/-- R472, R51: what an operation leaves: a program clears bits (PRESUMED: NOR flash), an erase sets them. -/
def flashDone (t : Tab Byte) : FlashOp → Tab Byte
  | .program a bs => flashPut t a (bs.zipIdx.map (fun x => x.1 &&& tabGet 0xFF#8 t (a + x.2)))
  | .erase a => t.filter (fun e => !(decide (a ≤ e.1 ∧ e.1 < a + 65536)))

/-- Where and how many bytes an operation changes. -/
def flashSpan : FlashOp → Nat × Nat
  | .program a bs => (a, bs.length)
  | .erase a => (a, 65536)

/-- R472 FLASH_OP_DONE: BUSY clears; a reported error sets FLASH_FAIL and leaves the bytes open. -/
def flashOpDoneSt (ok : Bool) (s : State) : State :=
  match s.mgmt.flashOp with
  | none => s
  | some op =>
    if ok then modMgmt s (fun m => { m with flash := flashDone m.flash op, flashOp := none })
    else
      let (a, n) := flashSpan op
      let bs := (List.range n).map (fun i => BitVec.ofNat 8 (Config.freeNat (s.freeCtr + i)))
      modMgmt { s with freeCtr := s.freeCtr + n } (fun m => { m with flash := flashPut m.flash a bs, flashOp := none, flashFail := true })

/-- R472 FLASH_OP_DONE. -/
def execFlashOpDone (ok : Bool) (s : State) : Host.Outcome State Fault Refusal := .next (flashOpDoneSt ok s)

/-! ### JTAG -/

/-- R496: bits [31:12] of IDCODE; bit 0 is 1 by IEEE 1149.1 and bits [11:1], the manufacturer, are not stated. -/
def idcode (free : Nat) : Nat := 2 ^ 28 + 0x09D0 * 2 ^ 12 + free % 2048 * 2 + 1

/-- R45: a lifecycle state permits a class of instruction: boundary scan, and with it IDCODE and BYPASS, in every state;
field-core debug in all but FIELD; full access in MANUFACTURE and RETURN; the keeper core in none. -/
def jtagPermits (life cls : Nat) : Bool :=
  decide (cls ≤ 2) || (decide (cls = 3) && decide (life ≠ 2)) || (decide (cls = 4) && decide (life = 0 ∨ life = 3))

/-- R496: an instruction the lifecycle permits is loaded; IDCODE reads the device's code, BYPASS one bit, and what the
others shift out the spec does not say. One that is not permitted is not run. -/
def jtagSt (ir : Nat) (s : State) : State :=
  let cls := Config.jtagClass ir
  let (v, s1) := draw s
  if jtagPermits (lifecycle s) cls then
    modMgmt s1 (fun m => { m with jtagIr := some ir, jtagOk := true, jtagData := if cls = 0 then idcode v else if cls = 1 then 0 else v })
  else modMgmt s1 (fun m => { m with jtagOk := false })

/-- R496 JTAG_ACCESS. -/
def execJtagAccess (ir : BitVec 8) (s : State) : Host.Outcome State Fault Refusal := .next (jtagSt ir.toNat s)

end Sys2Proof.Machine
end

