-- ==== Sys2Proof/Machine/Dispatch.lean ====
section
/-! DEFINITION. Every command to its meaning. -/

namespace Sys2Proof.Machine
open Sys2Proof

/-- A command's effect on everything but the queue. -/
def exec (i : Instr) (s : State) : Host.Outcome State Fault Refusal :=
  match i with
  | .powerOnReset => Sys2Proof.Machine.execPowerOnReset s
  | .pwrgoodRise => Sys2Proof.Machine.execPwrgoodRise s
  | .pwrgoodFall => Sys2Proof.Machine.execPwrgoodFall s
  | .resetNLow => Sys2Proof.Machine.execResetNLow s
  | .resetNRise => Sys2Proof.Machine.execResetNRise s
  | .otpReadDone => Sys2Proof.Machine.execOtpReadDone s
  | .xspiInitDone sfdp => Sys2Proof.Machine.execXspiInitDone sfdp s
  | .stagingFilled => Sys2Proof.Machine.execStagingFilled s
  | .imageVerificationDone readA readB => Sys2Proof.Machine.execImageVerificationDone readA readB s
  | .stage1Release => Sys2Proof.Machine.execStage1Release s
  | .stage2Loaded => Sys2Proof.Machine.execStage2Loaded s
  | .selfTestDone t failLane => Sys2Proof.Machine.execSelfTestDone t failLane s
  | .planApplied => Sys2Proof.Machine.execPlanApplied s
  | .scsFinalLock => Sys2Proof.Machine.execScsFinalLock s
  | .mbxHeartbeat => Sys2Proof.Machine.execMbxHeartbeat s
  | .mbxBootComplete => Sys2Proof.Machine.execMbxBootComplete s
  | .mbxLaserArm line => Sys2Proof.Machine.execMbxLaserArm line s
  | .mbxLaserDisarm line => Sys2Proof.Machine.execMbxLaserDisarm line s
  | .mbxResetWarm => Sys2Proof.Machine.execMbxResetWarm s
  | .mbxResetCold => Sys2Proof.Machine.execMbxResetCold s
  | .mbxResetLine line => Sys2Proof.Machine.execMbxResetLine line s
  | .mbxStandbyEnter => Sys2Proof.Machine.execMbxStandbyEnter s
  | .mbxStandbyExit => Sys2Proof.Machine.execMbxStandbyExit s
  | .mbxDramFreq sp => Sys2Proof.Machine.execMbxDramFreq sp s
  | .mbxRecordHash amendedPlan => Sys2Proof.Machine.execMbxRecordHash amendedPlan s
  | .mbxLoopRelease n => Sys2Proof.Machine.execMbxLoopRelease n s
  | .mbxStaleClear line => Sys2Proof.Machine.execMbxStaleClear line s
  | .mbxLifecycle addr token => Sys2Proof.Machine.execMbxLifecycle addr token s
  | .mbxBadCode code => Sys2Proof.Machine.execMbxBadCode code s
  | .watchdogPeriodExpiry => Sys2Proof.Machine.execWatchdogPeriodExpiry s
  | .warmHashCheck => Sys2Proof.Machine.execWarmHashCheck s
  | .lineResetDone line => Sys2Proof.Machine.execLineResetDone line s
  | .standbyThermalExit => Sys2Proof.Machine.execStandbyThermalExit s
  | .resetCmd => Sys2Proof.Machine.execResetCmd s
  | .standbyCmd => Sys2Proof.Machine.execStandbyCmd s
  | .fenceIssue scope => Sys2Proof.Machine.execFenceIssue scope s
  | .fenceAck island id => Sys2Proof.Machine.execFenceAck island id s
  | .fenceComplete => Sys2Proof.Machine.execFenceComplete s
  | .fenceTimeout id => Sys2Proof.Machine.execFenceTimeout id s
  | .rwfAutoFence => Sys2Proof.Machine.execRwfAutoFence s
  | .traverseClockChangeDone t => Sys2Proof.Machine.execTraverseClockChangeDone t s
  | .amend link words => Sys2Proof.Machine.execAmend link words s
  | .featureOfferRepeat l => Sys2Proof.Machine.execFeatureOfferRepeat l s
  | .featureAccept l word serial => Sys2Proof.Machine.execFeatureAccept l word serial s
  | .featureOfferReceived l word serial changed => Sys2Proof.Machine.execFeatureOfferReceived l word serial changed s
  | .featureChangedRepeat l => Sys2Proof.Machine.execFeatureChangedRepeat l s
  | .launchCmdArrive line slot => Sys2Proof.Machine.execLaunchCmdArrive line slot s
  | .probeLaunch line => Sys2Proof.Machine.execProbeLaunch line s
  | .envelopeSubwindowEnd line => Sys2Proof.Machine.execEnvelopeSubwindowEnd line s
  | .interlockTrip line => Sys2Proof.Machine.execInterlockTrip line s
  | .interlockRelease line => Sys2Proof.Machine.execInterlockRelease line s
  | .fibreBreakRaise line => Sys2Proof.Machine.execFibreBreakRaise line s
  | .fibreBreakClear line => Sys2Proof.Machine.execFibreBreakClear line s
  | .rotationStep line input window => Sys2Proof.Machine.execRotationStep line input window s
  | .spareMeasureDone line input offset gain thresholds => Sys2Proof.Machine.execSpareMeasureDone line input offset gain thresholds s
  | .correctionStep line => Sys2Proof.Machine.execCorrectionStep line s
  | .refFallback line => Sys2Proof.Machine.execRefFallback line s
  | .refSettled line => Sys2Proof.Machine.execRefSettled line s
  | .priorityPassEnd line input => Sys2Proof.Machine.execPriorityPassEnd line input s
  | .fgCalInputDone line input values => Sys2Proof.Machine.execFgCalInputDone line input values s
  | .fullFgCalDone line values gains => Sys2Proof.Machine.execFullFgCalDone line values gains s
  | .overRange line input length gap => Sys2Proof.Machine.execOverRange line input length gap s
  | .ramanFgCalStart line => Sys2Proof.Machine.execRamanFgCalStart line s
  | .ramanFgCalForce line => Sys2Proof.Machine.execRamanFgCalForce line s
  | .ramanFgCalDone line values gains => Sys2Proof.Machine.execRamanFgCalDone line values gains s
  | .captureWindowEnd line => Sys2Proof.Machine.execCaptureWindowEnd line s
  | .recal line => Sys2Proof.Machine.execRecal line s
  | .launchMeasureDone line => Sys2Proof.Machine.execLaunchMeasureDone line s
  | .launchMeasureTimeout line => Sys2Proof.Machine.execLaunchMeasureTimeout line s
  | .traceDeliver line slot pol samples => Sys2Proof.Machine.execTraceDeliver line slot pol samples s
  | .shotPass t => Sys2Proof.Machine.execShotPass t s
  | .outputPass t => Sys2Proof.Machine.execOutputPass t s
  | .ramanPass t => Sys2Proof.Machine.execRamanPass t s
  | .servicePass t => Sys2Proof.Machine.execServicePass t s
  | .backgroundSlice t => Sys2Proof.Machine.execBackgroundSlice t s
  | .passDrop t => Sys2Proof.Machine.execPassDrop t s
  | .recoveryPass t failLane => Sys2Proof.Machine.execRecoveryPass t failLane s
  | .nop t => Sys2Proof.Machine.execNop t s
  | .rep t src count reg len => Sys2Proof.Machine.execRep t src count reg len s
  | .br t p mode target => Sys2Proof.Machine.execBr t p mode target s
  | .end_ t => Sys2Proof.Machine.execEnd t s
  | .hook t h => Sys2Proof.Machine.execHook t h s
  | .mode t g => Sys2Proof.Machine.execMode t g s
  | .aovclr t p => Sys2Proof.Machine.execAovclr t p s
  | .wait t n => Sys2Proof.Machine.execWait t n s
  | .ld t p m => Sys2Proof.Machine.execLd t p m s
  | .ldp t p m => Sys2Proof.Machine.execLdp t p m s
  | .st t p m => Sys2Proof.Machine.execSt t p m s
  | .stp t p m => Sys2Proof.Machine.execStp t p m s
  | .ald t p m => Sys2Proof.Machine.execAld t p m s
  | .ast t p m => Sys2Proof.Machine.execAst t p m s
  | .xld t p f => Sys2Proof.Machine.execXld t p f s
  | .xadd t p f => Sys2Proof.Machine.execXadd t p f s
  | .alu t p r => Sys2Proof.Machine.execAlu t p r s
  | .alud t p r => Sys2Proof.Machine.execAlud t p r s
  | .alui t p f => Sys2Proof.Machine.execAlui t p f s
  | .cmp t p r => Sys2Proof.Machine.execCmp t p r s
  | .cmpi t p f => Sys2Proof.Machine.execCmpi t p f s
  | .sel t p r => Sys2Proof.Machine.execSel t p r s
  | .movi t p rd imm w => Sys2Proof.Machine.execMovi t p rd imm w s
  | .mac t p r => Sys2Proof.Machine.execMac t p r s
  | .cmac t p r => Sys2Proof.Machine.execCmac t p r s
  | .dmac t p r => Sys2Proof.Machine.execDmac t p r s
  | .aop t p r => Sys2Proof.Machine.execAop t p r s
  | .ash t p r => Sys2Proof.Machine.execAsh t p r s
  | .atst t p r => Sys2Proof.Machine.execAtst t p r s
  | .gmac t p r => Sys2Proof.Machine.execGmac t p r s
  | .atan t p r => Sys2Proof.Machine.execAtan t p r s
  | .mag t p r => Sys2Proof.Machine.execMag t p r s
  | .mag2 t p r => Sys2Proof.Machine.execMag2 t p r s
  | .unit t p r => Sys2Proof.Machine.execUnit t p r s
  | .rot t p r => Sys2Proof.Machine.execRot t p r s
  | .lnr t p r => Sys2Proof.Machine.execLnr t p r s
  | .dbl t p r => Sys2Proof.Machine.execDbl t p r s
  | .expw t p r => Sys2Proof.Machine.execExpw t p r s
  | .div t p r => Sys2Proof.Machine.execDiv t p r s
  | .maxi t p r => Sys2Proof.Machine.execMaxi t p r s
  | .mini t p r => Sys2Proof.Machine.execMini t p r s
  | .portInput t p pair r => Sys2Proof.Machine.execPortInput t p pair r s
  | .portDramRead t p f => Sys2Proof.Machine.execPortDramRead t p f s
  | .portDramWrite t p f => Sys2Proof.Machine.execPortDramWrite t p f s
  | .portXbufRead t p r ra => Sys2Proof.Machine.execPortXbufRead t p r ra s
  | .portXbufWrite t p r ra => Sys2Proof.Machine.execPortXbufWrite t p r ra s
  | .out t p o => Sys2Proof.Machine.execOut t p o s
  | .xch t p r => Sys2Proof.Machine.execXch t p r s
  | .prm t p f => Sys2Proof.Machine.execPrm t p f s
  | .captureRequest line => Sys2Proof.Machine.execCaptureRequest line s
  | .captureStart line => Sys2Proof.Machine.execCaptureStart line s
  | .datumSlow line => Sys2Proof.Machine.execDatumSlow line s
  | .ramanCapture line asSamples stSamples asDark stDark => Sys2Proof.Machine.execRamanCapture line asSamples stSamples asDark stDark s
  | .ramanBlockEnd line => Sys2Proof.Machine.execRamanBlockEnd line s
  | .ramanBlockSelfPass line => Sys2Proof.Machine.execRamanBlockSelfPass line s
  | .coilcal line => Sys2Proof.Machine.execCoilcal line s
  | .coilCalResume line => Sys2Proof.Machine.execCoilCalResume line s
  | .calAgeExpiry line => Sys2Proof.Machine.execCalAgeExpiry line s
  | .fusionStart line => Sys2Proof.Machine.execFusionStart line s
  | .streamInput n stamp => Sys2Proof.Machine.execStreamInput n stamp s
  | .detectorSummary n d => Sys2Proof.Machine.execDetectorSummary n d s
  | .syncNEdge => Sys2Proof.Machine.execSyncNEdge s
  | .stCmdSync n => Sys2Proof.Machine.execStCmdSync n s
  | .streamReset n => Sys2Proof.Machine.execStreamReset n s
  | .swapRequest n => Sys2Proof.Machine.execSwapRequest n s
  | .coefWrite n value => Sys2Proof.Machine.execCoefWrite n value s
  | .codeFrame => Sys2Proof.Machine.execCodeFrame s
  | .ringWrite => Sys2Proof.Machine.execRingWrite s
  | .ringGapTimeout n => Sys2Proof.Machine.execRingGapTimeout n s
  | .cursorStart c => Sys2Proof.Machine.execCursorStart c s
  | .cursorStop c => Sys2Proof.Machine.execCursorStop c s
  | .seekOldest c => Sys2Proof.Machine.execSeekOldest c s
  | .seekNewest c => Sys2Proof.Machine.execSeekNewest c s
  | .seekSerial c => Sys2Proof.Machine.execSeekSerial c s
  | .seekDone c => Sys2Proof.Machine.execSeekDone c s
  | .cursorRead c => Sys2Proof.Machine.execCursorRead c s
  | .zoneStaleTimeout z => Sys2Proof.Machine.execZoneStaleTimeout z s
  | .zonePortUpdate z => Sys2Proof.Machine.execZonePortUpdate z s
  | .zqSelect addr => Sys2Proof.Machine.execZqSelect addr s
  | .zqAddressChange addr => Sys2Proof.Machine.execZqAddressChange addr s
  | .zqDeselect => Sys2Proof.Machine.execZqDeselect s
  | .zqForceTimeout => Sys2Proof.Machine.execZqForceTimeout s
  | .alarmStretchExpiry pin => Sys2Proof.Machine.execAlarmStretchExpiry pin s
  | .znAck => Sys2Proof.Machine.execZnAck s
  | .loopFaultTimer n => Sys2Proof.Machine.execLoopFaultTimer n s
  | .loopReleaseTimer n => Sys2Proof.Machine.execLoopReleaseTimer n s
  | .loopReleaseCmd n => Sys2Proof.Machine.execLoopReleaseCmd n s
  | .loopOpen n => Sys2Proof.Machine.execLoopOpen n s
  | .loopDeviation n => Sys2Proof.Machine.execLoopDeviation n s
  | .loopConditionClear n openCond => Sys2Proof.Machine.execLoopConditionClear n openCond s
  | .m0ConversionEnd d => Sys2Proof.Machine.execM0ConversionEnd d s
  | .m1FrameStart => Sys2Proof.Machine.execM1FrameStart s
  | .m1ConversionEnd ch value isOver => Sys2Proof.Machine.execM1ConversionEnd ch value isOver s
  | .notchLengthUpdate count => Sys2Proof.Machine.execNotchLengthUpdate count s
  | .hkRefWindowExit => Sys2Proof.Machine.execHkRefWindowExit s
  | .hkRefRestore => Sys2Proof.Machine.execHkRefRestore s
  | .urgentRequest ch => Sys2Proof.Machine.execUrgentRequest ch s
  | .burnoutPulse n openBalls => Sys2Proof.Machine.execBurnoutPulse n openBalls s
  | .rtdOpenClear n => Sys2Proof.Machine.execRtdOpenClear n s
  | .trefPresent is100 => Sys2Proof.Machine.execTrefPresent is100 s
  | .trefLoss => Sys2Proof.Machine.execTrefLoss s
  | .timeNoClock => Sys2Proof.Machine.execTimeNoClock s
  | .timeRelock => Sys2Proof.Machine.execTimeRelock s
  | .disciplineMeasurement e tm => Sys2Proof.Machine.execDisciplineMeasurement e tm s
  | .ppsEdge q f => Sys2Proof.Machine.execPpsEdge q f s
  | .ppsLoss => Sys2Proof.Machine.execPpsLoss s
  | .hostHoldover => Sys2Proof.Machine.execHostHoldover s
  | .timeSet src tag seq t => Sys2Proof.Machine.execTimeSet src tag seq t s
  | .timeTrack src tag seq t => Sys2Proof.Machine.execTimeTrack src tag seq t s
  | .timePpsLabel src tag seq seconds => Sys2Proof.Machine.execTimePpsLabel src tag seq seconds s
  | .ppsOutPulse => Sys2Proof.Machine.execPpsOutPulse s
  | .timeSnapshot src => Sys2Proof.Machine.execTimeSnapshot src s
  | .timeAdjust => Sys2Proof.Machine.execTimeAdjust s
  | .tdcEdge ch falling q f => Sys2Proof.Machine.execTdcEdge ch falling q f s
  | .tdcGateChange g level => Sys2Proof.Machine.execTdcGateChange g level s
  | .tdcWindowEnd g => Sys2Proof.Machine.execTdcWindowEnd g s
  | .tdcArm ch => Sys2Proof.Machine.execTdcArm ch s
  | .tdcDisarm ch => Sys2Proof.Machine.execTdcDisarm ch s
  | .tdcPop ch => Sys2Proof.Machine.execTdcPop ch s
  | .tdcFlushTimer ch => Sys2Proof.Machine.execTdcFlushTimer ch s
  | .tdcPairHoldEnd pair => Sys2Proof.Machine.execTdcPairHoldEnd pair s
  | .tdcPairWindowExpiry pair => Sys2Proof.Machine.execTdcPairWindowExpiry pair s
  | .tdcCal ch => Sys2Proof.Machine.execTdcCal ch s
  | .tdcCalComplete ch hist => Sys2Proof.Machine.execTdcCalComplete ch hist s
  | .tdcCalTimeout ch => Sys2Proof.Machine.execTdcCalTimeout ch s
  | .tdcCalRetry ch => Sys2Proof.Machine.execTdcCalRetry ch s
  | .tdcCalPeriod ch => Sys2Proof.Machine.execTdcCalPeriod ch s
  | .monWindowExpiry line => Sys2Proof.Machine.execMonWindowExpiry line s
  | .laneDetectDone q present => Sys2Proof.Machine.execLaneDetectDone q present s
  | .absentRetry q => Sys2Proof.Machine.execAbsentRetry q s
  | .linkActive q => Sys2Proof.Machine.execLinkActive q s
  | .blindTimeout q => Sys2Proof.Machine.execBlindTimeout q s
  | .trainingSetReceived q p symbols => Sys2Proof.Machine.execTrainingSetReceived q p symbols s
  | .trainStepPass q lanes => Sys2Proof.Machine.execTrainStepPass q lanes s
  | .trainStepTimeout q lanes => Sys2Proof.Machine.execTrainStepTimeout q lanes s
  | .downRetry q => Sys2Proof.Machine.execDownRetry q s
  | .laneLos q p => Sys2Proof.Machine.execLaneLos q p s
  | .losDetectReturn q p => Sys2Proof.Machine.execLosDetectReturn q p s
  | .linkFaultDetect q cause => Sys2Proof.Machine.execLinkFaultDetect q cause s
  | .orderedSetInsert q => Sys2Proof.Machine.execOrderedSetInsert q s
  | .idleWake q => Sys2Proof.Machine.execIdleWake q s
  | .linkReset q => Sys2Proof.Machine.execLinkReset q s
  | .feLoopbackExit q => Sys2Proof.Machine.execFeLoopbackExit q s
  | .credit l grants => Sys2Proof.Machine.execCredit l grants s
  | .creditSend l => Sys2Proof.Machine.execCreditSend l s
  | .read l tag src addr count => Sys2Proof.Machine.execRead l tag src addr count s
  | .write l tag src addr mask values => Sys2Proof.Machine.execWrite l tag src addr mask values s
  | .timedSend l tag src words => Sys2Proof.Machine.execTimedSend l tag src words s
  | .timedLaunch => Sys2Proof.Machine.execTimedLaunch s
  | .frameForward l symbols => Sys2Proof.Machine.execFrameForward l symbols s
  | .levelRunStart => Sys2Proof.Machine.execLevelRunStart s
  | .levelReq l frame stamp => Sys2Proof.Machine.execLevelReq l frame stamp s
  | .levelResp l frame stamp => Sys2Proof.Machine.execLevelResp l frame stamp s
  | .levelRunEnd => Sys2Proof.Machine.execLevelRunEnd s
  | .chainSync l frame => Sys2Proof.Machine.execChainSync l frame s
  | .dramTrainingDone failed => Sys2Proof.Machine.execDramTrainingDone failed s
  | .dqsOscRead drift => Sys2Proof.Machine.execDqsOscRead drift s
  | .shortRetrainStart ch => Sys2Proof.Machine.execShortRetrainStart ch s
  | .trainingCollectionDone ch pass => Sys2Proof.Machine.execTrainingCollectionDone ch pass s
  | .freqChangeDone => Sys2Proof.Machine.execFreqChangeDone s
  | .thermalReturn => Sys2Proof.Machine.execThermalReturn s
  | .dramRead addr single double other => Sys2Proof.Machine.execDramRead addr single double other s
  | .freezeEnd intact => Sys2Proof.Machine.execFreezeEnd intact s
  | .freezeTimeout => Sys2Proof.Machine.execFreezeTimeout s
  | .channelLossDone => Sys2Proof.Machine.execChannelLossDone s
  | .scrubRead single double other => Sys2Proof.Machine.execScrubRead single double other s
  | .c3AgePromote => Sys2Proof.Machine.execC3AgePromote s
  | .standbyExitStep => Sys2Proof.Machine.execStandbyExitStep s
  | .scsLockLoss => Sys2Proof.Machine.execScsLockLoss s
  | .scsRelock => Sys2Proof.Machine.execScsRelock s
  | .refclkLoss => Sys2Proof.Machine.execRefclkLoss s
  | .scsFreerunTimeout => Sys2Proof.Machine.execScsFreerunTimeout s
  | .refclkReturn => Sys2Proof.Machine.execRefclkReturn s
  | .refclkAltLoss => Sys2Proof.Machine.execRefclkAltLoss s
  | .hostFenceIssue path => Sys2Proof.Machine.execHostFenceIssue path s
  | .registerSnapshot path clear count => Sys2Proof.Machine.execRegisterSnapshot path clear count s
  | .loReadCapture path addr => Sys2Proof.Machine.execLoReadCapture path addr s
  | .hiReadShadow path addr => Sys2Proof.Machine.execHiReadShadow path addr s
  | .loWriteStage path addr value mask => Sys2Proof.Machine.execLoWriteStage path addr value mask s
  | .hiWriteCommit path addr value mask => Sys2Proof.Machine.execHiWriteCommit path addr value mask s
  | .loStageExpiry path => Sys2Proof.Machine.execLoStageExpiry path s
  | .rcRead path addr => Sys2Proof.Machine.execRcRead path addr s
  | .registerWrite path addr value mask => Sys2Proof.Machine.execRegisterWrite path addr value mask s
  | .eventLogSelect index => Sys2Proof.Machine.execEventLogSelect index s
  | .svcRegRead addr count => Sys2Proof.Machine.execSvcRegRead addr count s
  | .svcRegWrite addr mask values => Sys2Proof.Machine.execSvcRegWrite addr mask values s
  | .svcStatus => Sys2Proof.Machine.execSvcStatus s
  | .flashRead addr count => Sys2Proof.Machine.execFlashRead addr count s
  | .flashProgram addr bytes => Sys2Proof.Machine.execFlashProgram addr bytes s
  | .flashErase addr => Sys2Proof.Machine.execFlashErase addr s
  | .flashOpDone ok => Sys2Proof.Machine.execFlashOpDone ok s
  | .refclkAltPresent => Sys2Proof.Machine.execRefclkAltPresent s
  | .eiosReceived q p => Sys2Proof.Machine.execEiosReceived q p s
  | .mr4Readout hot cool => Sys2Proof.Machine.execMr4Readout hot cool s
  | .keeperSramError => Sys2Proof.Machine.execKeeperSramError s
  | .snapshotComplete => Sys2Proof.Machine.execSnapshotComplete s
  | .jtagAccess ir => Sys2Proof.Machine.execJtagAccess ir s

end Sys2Proof.Machine
end

