-- ==== Sys2Proof/Machine/Wire.lean ====
section
/-! DEFINITION. What the lanes send and receive as time passes (spec R362 to R369, R379, R381 to R383, R387, R391, R392): one group of
four symbol times after another. -/

namespace Sys2Proof.Machine
open Sys2Proof

/-! ### Time on the lanes -/

/-- R362: symbols per ns of a rate code, as a fraction: 2.5, 5.0, 6.25 and 8.0 Gbaud of ten bits. -/
def symRate (rate : Nat) : Nat × Nat := match rate with | 0 => (1, 4) | 1 => (1, 2) | 2 => (5, 8) | _ => (4, 5)

/-- Groups of four symbol times that have begun at an elapsed time in 2^-30 ns. -/
def groupsAt (rate t : Nat) : Nat := t * (symRate rate).1 / (4 * (symRate rate).2 * 2 ^ 30)

/-- The elapsed time in 2^-30 ns at which a symbol time begins. -/
def symTime (rate n : Nat) : Nat := ceilDiv (n * (symRate rate).2 * 2 ^ 30) (symRate rate).1

/-! ### The byte stream -/

/-- R393: the first waiting priority frame, where its credit allows it to start. -/
def startPrio (L : Link) : Option (Sending × Link) :=
  match L.prio with
  | [] => none
  | f :: t => if creditFor L f then some ({ frame := f, left := [], sent := 0 }, useCredit { L with prio := t } f) else none

/-- R391: the next management frame, else bulk frame, that may start; forwarded and local bulk frames in turn. -/
def startLow (L : Link) (bulkOk : Bool) : Option (Sending × Link) :=
  let new (f : Frame) : Sending := { frame := f, left := [], sent := 0 }
  let local_ : Option (Sending × Link) := match L.bulk with
    | [] => none
    | f :: t => if creditFor L f then some (new f, useCredit { L with bulk := t, fwdLast := false } f) else none
  let passed : Option (Sending × Link) := match L.fwd with
    | [] => none
    | (_, f) :: t => if creditFor L f then some (new f, useCredit { L with fwd := t, fwdLast := true } f) else none
  let bulk := if bulkOk then (if L.fwdLast then local_.or passed else passed.or local_) else none
  match L.mgmt with
  | f :: t => if creditFor L f then some (new f, useCredit { L with mgmt := t } f) else bulk
  | [] => bulk

/-- R406: the stamp of a LEVEL frame's SOF goes into the frame: t1 of a request, t3 of a response. -/
def stampLevel (t : Nat) (f : Frame) : Frame :=
  if f.ftype = 0x008 then { f with payload := timeWords (levelStamp t) ++ f.payload.drop 11 }
  else if f.ftype = 0x009 then { f with payload := f.payload.take 11 ++ timeWords (levelStamp t) ++ f.payload.drop 22 }
  else f

/-- R406: a request of the engine's run leaves: its t1 is kept. -/
def noteT1 (t : Nat) (f : Frame) (r : Option LevelRun) : Option LevelRun :=
  if f.ftype = 0x008 then r.map (fun r => { r with t1 := tabPut r.t1 (wAt f.payload 11 1) (levelStamp t) }) else r

/-- The symbols of a frame that starts at a time, its SOF stamped. -/
def begin_ (t : Nat) (x : Sending) : Sending :=
  let f := stampLevel t x.frame
  { x with frame := f, left := frameSyms f }

/-- R392: a priority frame may start here: nothing is being sent, or a management or bulk frame is at a 5-byte group boundary after its
header of 15 bytes. -/
def mayInterrupt (L : Link) : Bool :=
  match L.low with | none => true | some x => decide (16 ≤ x.sent ∧ (x.sent - 1) % 5 = 0)

/-- One symbol of a frame is sent; `hi` for a priority frame. -/
def sendSym (hi : Bool) (x : Sending) (L : Link) : Nat × Link :=
  let rest := x.left.drop 1
  let left := if rest.isEmpty then none else some { x with left := rest, sent := x.sent + 1 }
  let L1 := if hi then { L with high := left } else { L with low := left }
  (lget symErr x.left 0, if rest.isEmpty then { L1 with tx := L1.tx ++ [x.frame] } else L1)

/-- R391, R392: the next symbol of the stream at a time: of the priority frame being sent, of one that may start or interrupt, of the
management or bulk frame being sent, or of the next one; none between frames. The engine's level run takes the stamps. -/
def nextSym (bulkOk : Bool) (t : Nat) (a : Link × Option LevelRun) : Option (Nat × Link × Option LevelRun) :=
  let (L, r) := a
  let go (hi : Bool) (x : Sending) (L : Link) (r : Option LevelRun) : Nat × Link × Option LevelRun :=
    let p := sendSym hi x L
    (p.1, p.2, r)
  match L.high with
  | some x => some (go true x L r)
  | none =>
    match (if mayInterrupt L then startPrio L else none) with
    | some (x, L1) => some (go true (begin_ t x) L1 (noteT1 t x.frame r))
    | none =>
      match L.low with
      | some x => some (go false x L r)
      | none => (startLow L bulkOk).map (fun p => go false (begin_ t p.1) p.2 r)

/-- R387: `n` symbols of the stream, with fill between frames; `at_ i` is the time of the i-th of them, `fill i` its fill. -/
def takeSyms (bulkOk : Bool) (at_ fill : Nat → Nat) : Nat → Nat → Link × Option LevelRun → List Nat × Link × Option LevelRun
  | 0, _, a => ([], a)
  | n + 1, i, a =>
    match nextSym bulkOk (at_ i) a with
    | none => let r := takeSyms bulkOk at_ fill n (i + 1) a; (fill i :: r.1, r.2)
    | some (y, a1) => let r := takeSyms bulkOk at_ fill n (i + 1) a1; (y :: r.1, r.2)

/-! ### What the lanes send -/

/-- R363: every lane in use sends its share of the symbols of a group. -/
def stripe (Q : Quad) (syms : List Nat) : Quad :=
  { Q with lanes := Vector.ofFn (fun p : Fin 4 => let x := vget Q.lanes p
      if bitOf Q.inUse p.val then
        laneSend x ((List.range 4).map (fun k => lget 0 syms (logicalLane Q p.val + k * Q.width)))
      else x) }

/-- R379: a lane out of use: its EIOS sets, then electrical idle. -/
def laneSleep (x : SlLane) : SlLane :=
  if x.eios = 0 then laneQuiet x else { laneSend x (setSyms .eios 0 0) with eios := x.eios - 1 }

/-- R379: the lanes out of use in this group. -/
def restSleep (Q : Quad) (used : Nat) : Quad :=
  { Q with lanes := Vector.ofFn (fun p : Fin 4 => let x := vget Q.lanes p; if bitOf used p.val then x else laneSleep x) }

/-- R373, R379: BLIND: FX sets after electrical idle, then IDLE sets. -/
def txBlind (Q : Quad) : Quad :=
  restSleep { Q with lanes := Vector.ofFn (fun p : Fin 4 => let x := vget Q.lanes p
      if bitOf Q.inUse p.val then
        (if x.fx = 0 then laneSend x (setSyms .idle 0 0) else { laneSend x (setSyms .fx 0 0) with fx := x.fx - 1 })
      else x) } Q.inUse

/-- R369: the training set that a lane sends. Requests of T1 name the presets in turn, one each 500 µs (log entry 152). -/
def trainOut (s : State) (q : Fin 3) (Q : Quad) (p : Fin 4) : TrainOut :=
  let x := vget Q.lanes p
  { ts2 := decide (Q.step = 2), lane := p.val, rates := Q.offer, widthMax := ((quadCfg s q).map (fun c => c.widthMax)).getD 1,
    locked := (List.finRange 4).foldl (fun m k => if (vget Q.lanes k).symLock then m + 2 ^ k.val else m) 0,
    feReq := decide (getF s (slQTestMode q.val) = 3), ack := decide (8 ≤ x.runAny), eqReq := decide (Q.st = .train ∧ Q.step = 1),
    request := min 7 ((elapsed s - Q.stepAt) / (500 * usU)), preset := x.preset, addr := ownAddr s, role := q.val, seq := Q.setSeq }

/-- R374: a lane has sent one training set more: counted once its step's 8 have been received. -/
def countSent (step : Nat) (x : SlLane) : SlLane :=
  let met := match step with | 0 => decide (8 ≤ x.runAny) | 2 => decide (8 ≤ x.runTs2) | _ => false
  if met = true ∨ 0 < x.runSent then { x with runSent := min 16 (x.runSent + 1) } else x

/-- R369, R374: a quarter of a training set on the lanes of a mask. -/
def txSet (s : State) (q : Fin 3) (mask : Nat) (Q : Quad) : Quad :=
  let lanes := Vector.ofFn (fun p : Fin 4 => let x := vget Q.lanes p
    if bitOf mask p.val then
      let y := if 0 < x.fx then { laneSend x (setSyms .fx 0 0) with fx := x.fx - 1 }
               else laneSend x (((trainSyms (trainOut s q Q p)).drop (4 * Q.setPos)).take 4)
      if Q.setPos = 3 then countSent Q.step y else y
    else laneSleep x)
  { Q with lanes := lanes, setPos := (Q.setPos + 1) % 4, setSeq := if Q.setPos = 3 then (Q.setSeq + 1) % 256 else Q.setSeq }

/-- R374: TRAIN: training sets in T0 to T2; ALIGN, then IDLE sets in T3. -/
def txTrain (s : State) (q : Fin 3) (Q : Quad) : Quad :=
  if Q.step ≤ 2 then txSet s q Q.attempt Q
  else restSleep { sendSet Q (if Q.setPos = 0 then .align else .idle) with setPos := 1 } Q.inUse

/-- R381 to R383: TEST. The generators run in modes 1 to 4 and drive the balls in modes 3 and 4; before that mode 3 asks the partner
for its loopback in TS1 for the 4 ms of T0 (log entry 152). A loop for the partner sends on the code groups received, which are
free. -/
def txTest (s : State) (q : Fin 3) (v : Nat) (Q : Quad) : Quad :=
  let mode := getF s (slQTestMode q.val)
  if Q.partnerFe then
    { Q with lanes := Vector.ofFn (fun p : Fin 4 =>
        { vget Q.lanes p with out := (List.range 4).map (fun k => v / 1024 ^ (4 * p.val + k) % 1024) }) }
  else if mode = 3 ∧ elapsed s < Q.stepAt + 4 * msU then txSet s q 15 Q
  else
    let run (x : SlLane) : SlLane :=
      let r := prbsRun (getF s (slQTestPattern q.val)) 40 x.gen
      if 3 ≤ mode then { x with gen := r.2, out := bitGroups r.1 } else { laneQuiet x with gen := r.2 }
    { Q with lanes := Q.lanes.map run }

/-- R387, R391: ACTIVE: the stream, or IDLE sets where no frame is sent or may start. `g` is the group's number. -/
def txActive (g : Nat) (s : State) (q : Fin 3) : State :=
  let Q := quadAt s q
  let a := (vget s.net.links q, s.net.level)
  let at_ (i : Nat) : Nat := (s.now + (symTime Q.rate (4 * g + i / max Q.width 1) - s.up)) / 1024
  if (nextSym (carriesBulk s q) (at_ 0) a).isNone then modQuad s q (fun Q => restSleep (sendSet Q .idle) Q.inUse)
  else
    let (v, s1) := draw s
    let r := takeSyms (carriesBulk s q) at_ (fun i => v / 256 ^ i % 256) (4 * Q.width) 0 a
    let s2 := modLink { s1 with net := { s1.net with level := r.2.2 } } q (fun _ => r.2.1)
    modQuad s2 q (fun Q => restSleep (stripe Q r.1) Q.inUse)

/-- One group of four symbol times on a quad's transmitters. -/
def txGroup (g : Nat) (s : State) (q : Fin 3) : State :=
  match (quadAt s q).st with
  | .active => txActive g s q
  | .blind => modQuad s q txBlind
  | .train => modQuad s q (txTrain s q)
  | .test => let (v, s1) := draw s; modQuad s1 q (txTest s q v)
  | .down => s
  | .detect => s
  | .absent => s
  | .idle => modQuad s q (fun Q => restSleep Q 0)

/-! ### What the lanes receive -/

/-- R365: the receiver of a lane takes code groups: the symbol errors among them, and the receiver after them. -/
def takeGroups (x : SlLane) (gs : List Nat) : Nat × SlLane :=
  gs.foldl (fun (a : Nat × SlLane) g =>
    let (_, bad, rd) := receiveSym a.2.rxRd g
    (a.1 + b2n (bad || strayComma a.2.rxLast g), { a.2 with rxRd := rd, rxLast := g })) (0, x)

/-- R365, R386: a lane with symbol lock receives a group of four code groups. What comes from the partner is free (log entry 122). -/
def rxSymbols (q : Fin 3) (p : Fin 4) (s : State) : State :=
  let (v, s1) := draw s
  let r := takeGroups (vget (quadAt s q).lanes p) ((List.range 4).map (fun k => v / 1024 ^ k % 1024))
  bumpBy (modQuad s1 q (fun Q => modLane Q p (fun _ => r.2))) (slLnErrCount (4 * q.val + p.val)) r.1

/-- R382: the checker takes a line bit: the bit errors counted while it is locked, and the checker after it. -/
def checkBit (pattern : Nat) (a : Nat × SlLane) (b : Nat) : Nat × SlLane :=
  let x := a.2
  let e := if b = prbsBit pattern x.chk then 0 else 1
  let errs := (x.errs * 2 + e) % 2 ^ 64
  (a.1 + (if x.prbsLock then e else 0),
   { x with chk := pushBit x.chk b, errs := errs,
            prbsLock := if errs = 0 then true else if 32 < onesIn 64 errs then false else x.prbsLock })

/-- R381, R382: the checker of a lane in a test mode: it hears the lane's own generator in modes 1 and 2, and in modes 3 and 4 what comes
from the balls, which is free (log entry 122). -/
def rxPrbs (mode : Nat) (q : Fin 3) (p : Fin 4) (s : State) : State :=
  let x := vget (quadAt s q).lanes p
  let pat := getF s (slQTestPattern q.val)
  let (v, s1) := if mode ≤ 2 then (0, s) else draw s
  let bits := if mode ≤ 2 then (prbsRun pat 40 x.gen).1 else (List.range 40).map (fun k => v / 2 ^ k % 2)
  let r := bits.foldl (checkBit pat) (0, x)
  bumpBy (modQuad s1 q (fun Q => modLane Q p (fun _ => r.2))) (slLnPrbsCount (4 * q.val + p.val)) r.1

/-- One group of four symbol times on a lane's receiver. -/
def rxGroup (q : Fin 3) (s : State) (p : Fin 4) : State :=
  let Q := quadAt s q
  let mode := getF s (slQTestMode q.val)
  if Q.st = .test then (if Q.partnerFe = false ∧ 1 ≤ mode ∧ mode ≤ 4 then rxPrbs mode q p s else s)
  else if (vget Q.lanes p).symLock then rxSymbols q p s
  else s

/-- Groups from number `g` on, `n` of them. -/
def runGroups (q : Fin 3) : Nat → Nat → State → State
  | 0, _, s => s
  | n + 1, g, s => runGroups q n (g + 1) (txGroup g ((List.finRange 4).foldl (rxGroup q) s) q)

/-- What `inc` of elapsed time, in 2^-30 ns, brings to the lanes of a quad. -/
def quadTick (inc : Nat) (s : State) (q : Fin 3) : State :=
  let r := rateNow (quadAt s q)
  let g := groupsAt r s.up
  runGroups q (groupsAt r (s.up + inc) - g) (g + 1) s

/-- R406: the next exchange of a level run is due, 10 µs after the one before. -/
def levelTick (s : State) : State :=
  match s.net.level with
  | none => s
  | some r => if r.begun < 8 ∧ r.start + r.begun * 10 * usU ≤ elapsed s then levelAsk s r else s

end Sys2Proof.Machine
end

