-- ==== Sys2Proof/Machine/Tick.lean ====
section
/-! DEFINITION. What a tick of the time island does while no command waits (spec R337, R339; log entry 1): device time
moves on, and with it what happens at every whole second and every 10 ms of device time. -/

namespace Sys2Proof.Machine
open Sys2Proof

/-- One second and 10 ms in units of 2^-30 ns. -/
def secT : Nat := secU * 1024
def ms10T : Nat := secT / 100

/-- R337, R339: what a tick adds to device time: INC, or 5 ns of the always-on oscillator. -/
def tickInc (s : State) : Nat := if s.time.freqRef = 3 then 5368709120 else incOf s

/-- A share of a number of cycles in 1/1,000, at most 1,000. -/
def perMille (n cap : Nat) : Nat := if cap = 0 then 0 else min 1000 (1000 * n / cap)

/-- R250 TR_LOAD: every 10 ms the highest busy count is kept. -/
def load10 (T : Trav) : Trav := { T with busyMax := max T.busyMax T.busy10, busy10 := 0 }

/-- R250 TR_LOAD: every second the load of the last one is shown; `cap` is the clock in Hz. -/
def loadSec (cap : Nat) (T : Trav) : Trav :=
  { T with loadAvg := perMille T.busy cap, loadPeak := perMille (max T.busyMax T.busy10) (cap / 100), busy := 0, busyMax := 0 }

/-- R287, R300 BC_LOAD: the coder's share of its capacity of 6.4 × 10^9 source words in the last second, and its ratio; without
source words the ratio is 0 (log entry 145). -/
def loadCode (c : CodeSt) : CodeSt :=
  { c with loadCoder := 1000 * c.srcWords / 6400000000, loadRatio := perMille c.codWords c.srcWords, srcWords := 0, codWords := 0 }

/-- R224, R209, R250, R300: the end of a whole second: PASS_DROP of each traverse, RM_CAL_AGE, TR_LOAD, BC_LOAD. -/
def secondEnd (s : State) : State :=
  let s1 := (List.finRange 8).foldl (fun s t => passDropSt t s) s
  let s2 := (List.finRange 2).foldl (fun s l => if (ramanCfg s l.val).isSome then bump s (rmCalAgeAge l.val) else s) s1
  let s3 := { s2 with code := loadCode s2.code }
  (List.finRange 8).foldl (fun s t => modTrav s t (loadSec (getF s (trClockApplied t.val) * 46875000))) s3

/-- One tick. -/
def tick (s : State) : State :=
  let next := min timeTop (s.now + tickInc s)
  let s0 := (List.finRange 3).foldl (quadTick (tickInc s)) (levelTick s)
  let s1 := if s0.now / secT < next / secT then secondEnd s0 else s0
  let s2 := if s1.now / ms10T < next / ms10T then { s1 with trav := s1.trav.map load10 } else s1
  (List.finRange 2).foldl dacNow { s2 with now := next, up := s.up + tickInc s }

end Sys2Proof.Machine
end

