-- ==== Sys2Proof/Machine/Idle.lean ====
section
/-! DEFINITION. What the block does of its own while no command waits: time passes, an upset may strike a word of local memory
(spec R241), and each running custom kernel executes the instruction that its traverse's store holds (R18, R243; log entries
1, 143 and 144). -/

namespace Sys2Proof.Machine
open Sys2Proof

/-- R241: an upset gives a word of a lane's local memory the wrong parity. -/
def strike (s : State) (u : Nat × Nat × Nat) : State :=
  modTrav s (finOf 8 u.1 (by decide)) (fun T => mapLanes T (fun i L =>
    if i = u.2.1 then { L with badPar := if L.badPar.contains (u.2.2 % 16384) then L.badPar else L.badPar ++ [u.2.2 % 16384] } else L))

/-- R18, R230, R243: the next instruction of the custom kernel that runs on a traverse; a word that spells none is an illegal
instruction (R246). -/
def kernelInstr (s : State) (t : Fin 8) : State :=
  match (vget s.trav t).kern with
  | none => s
  | some kr =>
    match decodeLane t (tabGet 0 (vget s.trav t).store kr.pc) with
    | none => kernelFault s t kr 3 (firstLane s t)
    | some i => match exec i s with
      | .next s1 => s1
      | _ => s

/-- A tick with nothing commanded. -/
def idle (s : State) : State :=
  let s1 := tick s
  let s2 := match Config.upset s.up with | none => s1 | some u => strike s1 u
  (List.finRange 8).foldl kernelInstr s2

end Sys2Proof.Machine
end

