-- ==== Sys2Proof/Machine/Pins.lean ====
section
/-! DEFINITION. What the block drives on its output pins (spec R88, R306, R309, R310, R345, R484, R488 to R490): each pin is a
reading of the state. -/

namespace Sys2Proof.Machine
open Sys2Proof

/-- The output pins. -/
structure Pins where
  /-- R488: the differential currents of Ln_DAC_I and Ln_DAC_Q, as codes of 20 mA / 1,022 (R88). -/
  dac : Vector (Int × Int) 2
  laserEn : Vector Bool 2
  ramanTrig : Vector Bool 2
  /-- R489: Ln_APDB as a code of 2.5 V / 1,023. -/
  apdb : Vector Nat 2
  /-- R306: ZQ_D and ZQ_DP; none while they are high-impedance. -/
  zq : Option (Nat × Nat)
  /-- R309: ALARM[n] is asserted, that is driven low. -/
  alarm : Vector Bool 4
  /-- R310: the current LOOPn_DRV calls for, in 25 nA; 0 is a drive of 0 V. -/
  loop : Vector Nat 8
  /-- The lanes of a quad are in electrical idle. -/
  txIdle : Vector Bool 3
  xspiReset : Bool
  ppsOut : Bool
  deriving DecidableEq, Repr

/-- R484: XSPI_RESET_N is low until 10 µs after RESET_N rises. -/
def xspiResetLow (s : State) : Bool := !s.keeper.resetN || !s.keeper.pwrgood || decide (elapsed s < s.keeper.riseAt + 10 * usU)

/-- R333, R480: a rail is flagged outside its limits. -/
def railOut (s : State) (r : Fin 10) : Bool := (vget s.hk.rails r).low || (vget s.hk.rails r).high

/-- R306, R484: ZQ_D and ZQ_DP while ZQ_CS_N is low. DESIGN CHOICE (log entry 156): before the plan is applied they are
high-impedance while VDDIO_ZQ is flagged outside its limits. -/
def zqPins (s : State) : Option (Nat × Nat) := if noPlan s && railOut s 8 then none else portPins s

/-- R310, R484: the code a loop's drive serves; before the plan is applied 3.6 mA, or 0 mA while VDD_HK is flagged outside its
limits (log entry 156). -/
def loopDrive (s : State) (n : Fin 8) : Nat :=
  if noPlan s && railOut s 9 then 0
  else match (vget s.zn.loops n).st with
    | .off => if noPlan s then 144000 else 0
    | _ => (vget s.zn.loops n).code

/-- R372, R379, R484: a quad that has not reached BLIND sends nothing. -/
def quadSilent (s : State) (q : Fin 3) : Bool :=
  noPlan s || (match (vget s.net.quads q).st with | .down | .detect | .absent | .idle => true | _ => false)

/-- The output pins. -/
def pinsOf (s : State) : Pins :=
  { dac := Vector.ofFn (fun l : Fin 2 => ((vget s.probe l).dac.getLast?).getD (0, 0)),
    laserEn := Vector.ofFn (fun l : Fin 2 => (vget s.probe l).laserEn),
    ramanTrig := Vector.ofFn (fun l : Fin 2 => ramanLevel s l),
    apdb := Vector.ofFn (fun l : Fin 2 => (vget s.conv l).apdCode),
    zq := zqPins s, alarm := Vector.ofFn (fun n : Fin 4 => noPlan s || vget s.zn.pins n),
    loop := Vector.ofFn (loopDrive s), txIdle := Vector.ofFn (quadSilent s),
    xspiReset := xspiResetLow s, ppsOut := decide (elapsed s < s.time.ppsHighTo) }

end Sys2Proof.Machine
end

