-- ==== Sys2Proof/Safety.lean ====
section
/-! DEFINITION. The terms statements use: what a command does, which parts of the state a change leaves alone, and the
invariants of the block. -/

namespace Sys2Proof.Machine
open Sys2Proof

/-- The canonical form of the addressed stores that the block's units share: the registers (R12), the DRAM words the lanes reach
(R229), the exchange buffers (R229), the flash bytes (R52) and the management SRAM (R55): rising addresses and no entry equal to
what an unlisted address reads as. -/
def Memory.wf (s : State) : Bool :=
  tabWf (fun a => BitVec.ofNat 20 (regReset a)) s.regs && tabWf (fun _ => (0 : Word)) s.dram
    && tabWf (fun _ => (0 : Nat)) s.xbuf && tabWf (fun _ => 0xFF#8) s.mgmt.flash && tabWf (fun _ => 0#8) s.mgmt.sram

end Sys2Proof.Machine

namespace Sys2Proof.Safety
open Sys2Proof Sys2Proof.Machine

/-- The outcome is a next state. -/
def goesOn (o : Host.Outcome State Fault Refusal) : Prop := ∃ t, o = .next t

/-- The outcome is a next state with the property. -/
def goesOnWith (o : Host.Outcome State Fault Refusal) (P : State → Prop) : Prop := ∃ t, o = .next t ∧ P t

/-- The parts of the state, one for each field but the queue; OTP (in the keeper) and the flash array (in the management
state) are parts of their own beside the field that holds them. -/
inductive Part where
  | regs | cfg | keeper | otp | book | log | fu | trav | probe | conv | pce | sense | net | time | mem | hk | zn | streams
  | code | mgmt | flash | samples | dram | xbuf | now | up | freeCtr
  deriving DecidableEq, Repr

/-- The part is the same in both states. -/
def Part.same : Part → State → State → Prop
  | .regs, s, t => t.regs = s.regs
  | .cfg, s, t => t.cfg = s.cfg
  | .keeper, s, t => t.keeper = s.keeper
  | .otp, s, t => t.keeper.otp = s.keeper.otp
  | .book, s, t => t.book = s.book
  | .log, s, t => t.log = s.log
  | .fu, s, t => t.fu = s.fu
  | .trav, s, t => t.trav = s.trav
  | .probe, s, t => t.probe = s.probe
  | .conv, s, t => t.conv = s.conv
  | .pce, s, t => t.pce = s.pce
  | .sense, s, t => t.sense = s.sense
  | .net, s, t => t.net = s.net
  | .time, s, t => t.time = s.time
  | .mem, s, t => t.mem = s.mem
  | .hk, s, t => t.hk = s.hk
  | .zn, s, t => t.zn = s.zn
  | .streams, s, t => t.streams = s.streams
  | .code, s, t => t.code = s.code
  | .mgmt, s, t => t.mgmt = s.mgmt
  | .flash, s, t => t.mgmt.flash = s.mgmt.flash
  | .samples, s, t => t.samples = s.samples
  | .dram, s, t => t.dram = s.dram
  | .xbuf, s, t => t.xbuf = s.xbuf
  | .now, s, t => t.now = s.now
  | .up, s, t => t.up = s.up
  | .freeCtr, s, t => t.freeCtr = s.freeCtr

/-- From `s` to `t` nothing changes but the parts named; the queue of waiting commands does not. -/
def changesOnly (ps : List Part) (s t : State) : Prop := (∀ p, p ∉ ps → p.same s t) ∧ t.pending = s.pending

/-- The frame of a command: wherever it answers a next state, nothing changes but the parts named. -/
def keepsAllBut (ps : List Part) (c : Instr) : Prop := ∀ s t, exec c s = .next t → changesOnly ps s t

/-- A lane of a traverse. -/
def lane (s : State) (t : Fin 8) (i : Fin 64) : Lane := vget (vget s.trav t).lanes i

/-- R244: the traverse runs no kernel, or the running kernel has no result outstanding and `n` more cycles left. -/
def issues (s : State) (t : Fin 8) (n : Nat) : Prop :=
  match (vget s.trav t).kern with
  | none => True
  | some kr => kr.ready = [] ∧ ∃ k, kernAt s kr.k = some k ∧ kr.cyc + n ≤ k.maxCycles

/-- Every lane that executes under the predicate changes by `f`, no other lane and no other traverse changes; outside
repeats and kernels the next instruction is the one that follows. -/
def lanesBecome (ps : List Part) (s u : State) (t : Fin 8) (p : Pred) (f : Lane → Lane) : Prop :=
  (∀ i : Fin 64, lane u t i = if laneExecs s t p i.val (lane s t i) then f (lane s t i) else lane s t i)
    ∧ (∀ k : Fin 8, k ≠ t → vget u.trav k = vget s.trav k)
    ∧ ((vget s.trav t).kern = none → (vget s.trav t).rep = none →
        (vget u.trav t).pc = ((vget s.trav t).pc + 1) % 4096 ∧ (vget u.trav t).kern = none)
    ∧ changesOnly ps s u

/-- Memory is in canonical form, at most 64 fences are outstanding (R27), and the event log holds at most 1,024 entries
(R468). -/
def Inv (s : State) : Prop := Memory.wf s = true ∧ s.fu.out.length ≤ 64 ∧ s.log.entries.length ≤ 1024

/-- R100: a line whose interlock input is low has its laser off. -/
def interlocked (s : State) : Prop := ∀ l : Fin 2, (vget s.probe l).ilkLow = true → (vget s.probe l).laserEn = false

/-- R48: what is programmed in OTP stays: the lifecycle bits, the thermometer and the revocation bits only ever go from
0 to 1, a programmed key slot keeps its hash, and the identity does not change. -/
def otpKept (s t : State) : Prop :=
  s.keeper.otp.life &&& t.keeper.otp.life = s.keeper.otp.life
    ∧ s.keeper.otp.therm &&& t.keeper.otp.therm = s.keeper.otp.therm
    ∧ s.keeper.otp.revoke &&& t.keeper.otp.revoke = s.keeper.otp.revoke
    ∧ (∀ n : Fin 4, vget s.keeper.otp.keys n ≠ 0 → vget t.keeper.otp.keys n = vget s.keeper.otp.keys n)
    ∧ t.keeper.otp.uid = s.keeper.otp.uid ∧ t.keeper.otp.trim = s.keeper.otp.trim

/-- The command writes no register but those at the addresses named, wherever it answers a next state. -/
def writesRegs (as_ : List Nat) (c : Instr) : Prop := ∀ s t, exec c s = .next t → ∀ a, a ∉ as_ → regGet t a = regGet s a

/-- R46: the token that stands in management SRAM for a LIFECYCLE request, where its framing and its signature are correct. -/
def tokenSeen (s : State) (addr : Nat) (ws : List Word) : Option Token :=
  readToken (sramWords (putSram s (5 * (addr % 2 ^ 20)) (packWords ws)) (5 * (addr % 2 ^ 20)) (ws.length % 1024))

/-- R294: the REPLAY frame of an entry that a cursor sends as it stands in the ring, not the last of a run. -/
def replayFrame (s : State) (c : Fin 16) (e : RingEntry) : Frame :=
  ownFrame s (ftypeOf 2 3) hostAddr 0
    ([BitVec.ofNat 10 (c.val + 16 * b2n (vget s.code.cur c).moved), 0, 0, 0] ++ entryHeader e ++ e.body)

/-- R42: the frame of a mailbox request where no other request waits. -/
def answersBut (ps : List Part) (c : Instr) : Prop := ∀ s t, s.keeper.mbx = [] → exec c s = .next t → changesOnly ps s t

/-- R42: a mailbox request, where no other waits, writes no register but those at the addresses named. -/
def answersRegs (as_ : List Nat) (c : Instr) : Prop :=
  ∀ s t, s.keeper.mbx = [] → exec c s = .next t → ∀ a, a ∉ as_ → regGet t a = regGet s a

end Sys2Proof.Safety
end

