-- ==== Sys2Proof/Certificates/Slice0/Obligations.lean ====
section
/-! DEFINITION. The statements for the provers: what each family of commands does, its frame, and the invariants of the
block. A statement about one command is a conjunct of its family's statement; a free value (log entry 2) is never named. -/

open Sys2Proof Sys2Proof.Machine Sys2Proof.Safety

/-- R51, R55, R58: the first boot phases: with PWRGOOD and RESET_N high and BOOT_PHASE 0, the OTP read gives the SCS and
the core PLL REFCLK where it is present (the other clock choices are the model's reading of R450 and R451; log entry 61);
XSPI_INIT_DONE then gives BOOT_PHASE 1; in phase 1 the staged sections are there. -/
def Obligations.BootFirstPhases : Prop :=
  (∀ s : State, s.keeper.pwrgood = true → s.keeper.resetN = true → s.keeper.warm = false → bootPhase s = 0 →
    s.keeper.boot.otpRead = false →
    goesOnWith (exec .otpReadDone s) (fun t => t.keeper.boot.otpRead = true
      ∧ (s.keeper.refPresent = true → t.keeper.scsRef = .refclk ∧ t.keeper.coreRef = .refclk ∧ t.keeper.scsLock = true)
      ∧ t.keeper.otp = s.keeper.otp))
  ∧ (∀ (s : State) (sfdp : Option (Nat × Nat)), s.keeper.boot.otpRead = true → s.keeper.warm = false → bootPhase s = 0 →
    goesOnWith (exec (.xspiInitDone sfdp) s) (fun t => bootPhase t = 1 ∧ t.keeper.boot.octal = sfdp
      ∧ t.mgmt.flashBus = [0x66, 0x99, 0x5A] ∧ (∀ a, a ≠ bmStateBootPhase.addr → regGet t a = regGet s a)))
  ∧ (∀ s : State, bootPhase s = 1 →
    goesOnWith (exec .stagingFilled s) (fun t => t.keeper.boot.staged = true ∧ t.mgmt.flashBus = [readOpcode s]
      ∧ changesOnly [.keeper, .mgmt] s t))

/-- R55, R56, R57: verification in BOOT_PHASE 1 with the sections staged and a directory: where slot A is to be tried first
and passes every check it is booted, with BOOT_PHASE 2 and its plan; where A fails and B passes, B is booted with ALT_BOOT
set and A's code recorded. B is tried first when its sequence number is the higher one, which is the third clause. A slot the
flash does not deliver has code 0x00B, one without a correct header 0x001. -/
def Obligations.ImageVerification : Prop :=
  (∀ (s : State) (a b : Bool) (x y : Nat), bootPhase s = 1 → s.keeper.boot.staged = true → directory s = some (x, y) →
    bFirst (headerAt s x).seq (headerAt s y).seq = false → slotCode s x a = 0 →
    goesOnWith (exec (.imageVerificationDone a b) s) (fun t => bootPhase t = 2 ∧ getF t bmStateBootSlot = 1
      ∧ getF t bmStateAltBoot = 0 ∧ getF t bmBootErrErrA = 0 ∧ t.keeper.boot.verified = true
      ∧ t.keeper.boot.secVersion = (manifestOf (sectionAt s x (headerAt s x) 0)).secVersion
      ∧ t.book.plan = (planAt s x (headerAt s x)).1))
  ∧ (∀ (s : State) (a b : Bool) (x y : Nat), bootPhase s = 1 → s.keeper.boot.staged = true → directory s = some (x, y) →
    bFirst (headerAt s x).seq (headerAt s y).seq = false → slotCode s x a ≠ 0 →
    slotCode s y b = 0 →
    goesOnWith (exec (.imageVerificationDone a b) s) (fun t => bootPhase t = 2 ∧ getF t bmStateBootSlot = 2
      ∧ getF t bmStateAltBoot = 1 ∧ getF t bmBootErrErrA = slotCode s x a
      ∧ t.keeper.boot.secVersion = (manifestOf (sectionAt s y (headerAt s y) 0)).secVersion
      ∧ t.book.plan = (planAt s y (headerAt s y)).1))
  ∧ (∀ (s : State) (a b : Bool) (x y : Nat), bootPhase s = 1 → s.keeper.boot.staged = true → directory s = some (x, y) →
    bFirst (headerAt s x).seq (headerAt s y).seq = true → slotCode s y b = 0 →
    goesOnWith (exec (.imageVerificationDone a b) s) (fun t => bootPhase t = 2 ∧ getF t bmStateBootSlot = 2
      ∧ getF t bmStateAltBoot = 0 ∧ getF t bmBootErrErrB = 0 ∧ t.book.plan = (planAt s y (headerAt s y)).1))
  ∧ (∀ (s : State) (x : Nat), slotCode s x false = 0x00B)
  ∧ (∀ (s : State) (x : Nat), (headerAt s x).ok = false → slotCode s x true = 0x001)

/-- R57, R58, R240: the later boot phases. Stage 1 whose blocks decompress from the staging region stands in SRAM and runs
in BOOT_PHASE 3 with the heartbeat count at 0; stage 2, decompressed into DRAM, gives phase 5 with both lines' full
calibration under way, or phase 6 at once in a WARM reset; the last of the
eight traverse self-tests gives phase 7; in phase 7 the plan of Fieldbook takes effect; in phase 8 a locked SCS gives
phase 9, or 10 where no host quad is to start (the model's reading; log entry 64). A verification that accepts neither
slot ends in recovery, BOOT_PHASE 15. -/
def Obligations.BootLaterPhases : Prop :=
  (∀ (s : State) (src rest : List Word), bootPhase s = 2 → s.keeper.coreRef ≠ .none_ →
    decompress (stagedSection s 1).length s.keeper.boot.stage1Len (stagedSection s 1) = some (src, rest) →
    goesOnWith (exec .stage1Release s) (fun t => bootPhase t = 3 ∧ getF t bmWdogMissed = 0
      ∧ t.mgmt.sram = (putSram s stage1Base (packWords src)).mgmt.sram ∧ changesOnly [.regs, .mgmt, .mem] s t))
  ∧ (∀ s : State, bootPhase s = 4 → s.keeper.warm = true →
    goesOnWith (exec .stage2Loaded s) (fun t => bootPhase t = 6 ∧ changesOnly [.regs, .conv, .hk] s t))
  ∧ (∀ (s : State) (src rest : List Word), bootPhase s = 4 → s.keeper.warm = false →
    decompress (stagedSection s 1).length s.keeper.boot.fieldLen (stagedSection s 1) = some (src, rest) →
    goesOnWith (exec .stage2Loaded s) (fun t => bootPhase t = 5 ∧ t.book.fieldCopy = src ∧ (vget t.conv 0).fullCal = true
      ∧ (vget t.conv 1).fullCal = true ∧ getF t (cvStatusFgBusy 0) = 63 ∧ getF t (cvStatusFgBusy 1) = 63))
  ∧ (∀ (s : State) (t : Fin 8), bootPhase s = 6 → bitOf s.keeper.boot.tested t.val = false →
    s.keeper.boot.tested ||| 2 ^ t.val ≠ 255 →
    goesOnWith (exec (.selfTestDone t none) s) (fun u => u.keeper.boot.tested = s.keeper.boot.tested ||| 2 ^ t.val
      ∧ bootPhase u = 6))
  ∧ (∀ (s : State) (t : Fin 8), bootPhase s = 6 → bitOf s.keeper.boot.tested t.val = false →
    s.keeper.boot.tested ||| 2 ^ t.val = 255 →
    goesOnWith (exec (.selfTestDone t none) s) (fun u => u.keeper.boot.tested = 255 ∧ bootPhase u = 7))
  ∧ (∀ s : State, planDue s = true →
    goesOnWith (exec .planApplied s) (fun t => t.cfg = s.book.amended ∧ t.keeper = s.keeper
      ∧ (s.fu.out.length < 64 → t.fu.out.length = s.fu.out.length + 1)))
  ∧ (∀ s : State, bootPhase s = 8 → s.keeper.scsLock = true →
    goesOnWith (exec .scsFinalLock s) (fun t => (bootPhase t = 9 ∨ bootPhase t = 10) ∧ changesOnly [.regs, .net] s t))
  ∧ (∀ (s : State) (a b : Bool) (x y : Nat), bootPhase s = 1 → s.keeper.boot.staged = true → directory s = some (x, y) →
    slotCode s x a ≠ 0 → slotCode s y b ≠ 0 →
    goesOnWith (exec (.imageVerificationDone a b) s) (fun t => bootPhase t = 15))

/-- R42, R43, R44, R50, R61: the mailbox. At most four requests wait: a fifth is not accepted, and one that the keeper core
does not serve waits. On an empty queue Benchmark answers at once, and BM_MBX shows the code and the status: a heartbeat
sets the missed count to 0; BOOT_COMPLETE is REFUSED_SEQUENCE before both hashes are recorded or once it was granted, and a
grant for an image that is not COMMIT changes no OTP; RECORD_HASH records the digest Benchmark computes of the region, and
Fieldbook's own region is not recorded again after BOOT_COMPLETE; a code that no request has is BAD_CODE. -/
def Obligations.MailboxAnswers : Prop :=
  (∀ s : State, 4 ≤ s.keeper.mbx.length → goesOnWith (exec .mbxHeartbeat s) (fun t => t = s))
  ∧ (∀ s : State, s.keeper.mbx.length < 4 → keeperRuns s = false →
    goesOnWith (exec .mbxHeartbeat s) (fun t => t.keeper.mbx = s.keeper.mbx ++ [{ code := 1, a1 := 0, a2 := 0, a3 := 0 }]
      ∧ changesOnly [.keeper] s t))
  ∧ (∀ s : State, s.keeper.mbx = [] → keeperRuns s = true →
    goesOnWith (exec .mbxHeartbeat s) (fun t => getF t bmWdogMissed = 0 ∧ getF t bmMbxLastCode = 1
      ∧ getF t bmMbxLastStatus = 0 ∧ t.keeper.mbx = [] ∧ changesOnly [.regs, .keeper] s t))
  ∧ (∀ s : State, s.keeper.mbx = [] → keeperRuns s = true →
    (s.keeper.boot.complete = true ∨ s.keeper.hashField = none ∨ s.keeper.hashPlan = none) →
    goesOnWith (exec .mbxBootComplete s) (fun t => getF t bmMbxLastCode = 2 ∧ getF t bmMbxLastStatus = 4
      ∧ t.keeper.boot = s.keeper.boot ∧ t.keeper.otp = s.keeper.otp))
  ∧ (∀ (s : State) (f p : Nat), s.keeper.mbx = [] → keeperRuns s = true → s.keeper.boot.complete = false →
    s.keeper.hashField = some f → s.keeper.hashPlan = some p → s.keeper.boot.commit = false →
    goesOnWith (exec .mbxBootComplete s) (fun t => getF t bmMbxLastCode = 2 ∧ getF t bmMbxLastStatus = 0
      ∧ t.keeper.boot.complete = true ∧ t.keeper.otp = s.keeper.otp))
  ∧ (∀ s : State, s.keeper.mbx = [] → keeperRuns s = true →
    goesOnWith (exec (.mbxRecordHash true) s) (fun t => t.keeper.hashPlan = some (planDigest s)
      ∧ getF t bmMbxLastCode = 8 ∧ getF t bmMbxLastStatus = 0))
  ∧ (∀ s : State, s.keeper.mbx = [] → keeperRuns s = true → s.keeper.boot.complete = false →
    goesOnWith (exec (.mbxRecordHash false) s) (fun t => t.keeper.hashField = some (fieldDigest s) ∧ getF t bmMbxLastStatus = 0))
  ∧ (∀ s : State, s.keeper.mbx = [] → keeperRuns s = true → s.keeper.boot.complete = true →
    goesOnWith (exec (.mbxRecordHash false) s) (fun t => t.keeper.hashField = s.keeper.hashField ∧ getF t bmMbxLastStatus = 1))
  ∧ (∀ (s : State) (code : Fin 1024), s.keeper.mbx = [] → keeperRuns s = true → (code.val = 0 ∨ 12 ≤ code.val) →
    goesOnWith (exec (.mbxBadCode code) s) (fun t => getF t bmMbxLastCode = code.val ∧ getF t bmMbxLastStatus = 1023
      ∧ changesOnly [.regs, .keeper] s t))

/-- R46, R47, R48, R49: LIFECYCLE on the token that stands in management SRAM. One whose framing or signature fails is
REFUSED_SIGNATURE and changes nothing in OTP; one for another chip fails its condition. The vendor's token with a programmed key slot takes MANUFACTURE to PROVISIONED, that is
it programs the lifecycle bits of PROVISIONED; an integrator's takes PROVISIONED to FIELD; the vendor's to RETURN also
zeroes DRAM. A key slot is programmed once, and a revocation by another integrator key stands. -/
def Obligations.LifecycleTokens : Prop :=
  (∀ (s : State) (x : Nat) (ws : List Word), s.keeper.mbx = [] → keeperRuns s = true → tokenSeen s x ws = none →
    goesOnWith (exec (.mbxLifecycle x ws) s) (fun t => getF t bmMbxLastCode = 11 ∧ getF t bmMbxLastStatus = 3
      ∧ t.keeper.otp = s.keeper.otp))
  ∧ (∀ (s : State) (x : Nat) (ws : List Word) (tk : Token), s.keeper.mbx = [] → keeperRuns s = true → tokenSeen s x ws = some tk →
    tk.uid ≠ s.keeper.otp.uid →
    goesOnWith (exec (.mbxLifecycle x ws) s) (fun t => getF t bmMbxLastStatus = 2 ∧ t.keeper.otp = s.keeper.otp))
  ∧ (∀ (s : State) (x : Nat) (ws : List Word) (tk : Token), s.keeper.mbx = [] → keeperRuns s = true → tokenSeen s x ws = some tk → tk.uid = s.keeper.otp.uid →
    tk.ask = .toState 1 → lifecycle s = 0 → byVendor s tk = true → (List.finRange 4).any (keyProgrammed s) = true →
    goesOnWith (exec (.mbxLifecycle x ws) s) (fun t => getF t bmMbxLastStatus = 0
      ∧ t.keeper.otp.life = s.keeper.otp.life ||| 7#9 ∧ t.keeper.otp.keys = s.keeper.otp.keys))
  ∧ (∀ (s : State) (x : Nat) (ws : List Word) (tk : Token), s.keeper.mbx = [] → keeperRuns s = true → tokenSeen s x ws = some tk → tk.uid = s.keeper.otp.uid →
    tk.ask = .toState 2 → lifecycle s = 1 → bySlot s tk (fun _ => true) = true →
    goesOnWith (exec (.mbxLifecycle x ws) s) (fun t => getF t bmMbxLastStatus = 0
      ∧ t.keeper.otp.life = s.keeper.otp.life ||| 0x38#9))
  ∧ (∀ (s : State) (x : Nat) (ws : List Word) (tk : Token), s.keeper.mbx = [] → keeperRuns s = true → tokenSeen s x ws = some tk → tk.uid = s.keeper.otp.uid →
    tk.ask = .toState 3 → lifecycle s < 3 → byVendor s tk = true →
    goesOnWith (exec (.mbxLifecycle x ws) s) (fun t => getF t bmMbxLastStatus = 0
      ∧ t.keeper.otp.life = s.keeper.otp.life ||| 0x1C0#9 ∧ t.dram = []))
  ∧ (∀ (s : State) (x : Nat) (ws : List Word) (tk : Token) (n : Fin 4) (h : Nat), s.keeper.mbx = [] → keeperRuns s = true → tokenSeen s x ws = some tk → tk.uid = s.keeper.otp.uid →
    tk.ask = .program n h → lifecycle s = 0 → byVendor s tk = true → keyProgrammed s n = false →
    goesOnWith (exec (.mbxLifecycle x ws) s) (fun t => getF t bmMbxLastStatus = 0 ∧ vget t.keeper.otp.keys n = h
      ∧ (∀ m, m ≠ n → vget t.keeper.otp.keys m = vget s.keeper.otp.keys m)))
  ∧ (∀ (s : State) (x : Nat) (ws : List Word) (tk : Token) (n : Fin 4) (h : Nat), s.keeper.mbx = [] → keeperRuns s = true → tokenSeen s x ws = some tk → tk.uid = s.keeper.otp.uid →
    tk.ask = .program n h → keyProgrammed s n = true →
    goesOnWith (exec (.mbxLifecycle x ws) s) (fun t => t.keeper.otp = s.keeper.otp))
  ∧ (∀ (s : State) (x : Nat) (ws : List Word) (tk : Token) (n k : Fin 4), s.keeper.mbx = [] → keeperRuns s = true → tokenSeen s x ws = some tk → tk.uid = s.keeper.otp.uid →
    tk.ask = .revoke n → bySlot s tk (fun k => decide (k ≠ n)) = true →
    k ≠ n → integratorKey s k = true →
    goesOnWith (exec (.mbxLifecycle x ws) s) (fun t => getF t bmMbxLastStatus = 0 ∧ t.keeper.otp.revoke.getLsbD n.val = true))
  ∧ (∀ (s : State) (x : Nat) (ws : List Word) (tk : Token), s.keeper.mbx = [] → keeperRuns s = true → tokenSeen s x ws = some tk → tk.uid = s.keeper.otp.uid →
    tk.ask = .toState 2 → lifecycle s = 1 → bySlot s tk (fun _ => true) = false →
    goesOnWith (exec (.mbxLifecycle x ws) s) (fun t => getF t bmMbxLastStatus = 3 ∧ t.keeper.otp = s.keeper.otp))

/-- R437, R438, R455: the resets of the whole device. After a POR, a COLD reset by RESET_N (cause 1), an SRAM error of the
keeper core (cause 10) or Fieldbook's RESET COLD (cause 3), every register holds its reset value, DRAM and the log are
empty, OTP is kept, and a COLD reset keeps the flash contents and clears the count of WARM resets. While PWRGOOD is low
POR holds; the rising edges of PWRGOOD and RESET_N change nothing else. -/
def Obligations.DeviceResets : Prop :=
  (∀ s : State, goesOnWith (exec .powerOnReset s) (fun t => t.keeper.resetKind = 0 ∧ t.regs = [] ∧ t.dram = []
      ∧ t.log.entries = [] ∧ t.keeper.otp = s.keeper.otp))
  ∧ (∀ s : State, goesOnWith (exec .pwrgoodFall s) (fun t => t.keeper.pwrgood = false ∧ t.keeper.resetKind = 0 ∧ t.regs = []
      ∧ t.keeper.otp = s.keeper.otp))
  ∧ (∀ s : State, goesOnWith (exec .pwrgoodRise s) (fun t => t.keeper.pwrgood = true ∧ t.keeper.boot = s.keeper.boot
      ∧ changesOnly [.keeper] s t))
  ∧ (∀ s : State, s.keeper.pwrgood = true →
    goesOnWith (exec .resetNLow s) (fun t => t.keeper.resetN = false ∧ t.keeper.resetKind = 1 ∧ t.keeper.resetCause = 1
      ∧ t.regs = [] ∧ t.dram = [] ∧ t.keeper.otp = s.keeper.otp ∧ t.mgmt.flash = s.mgmt.flash))
  ∧ (∀ s : State, goesOnWith (exec .resetNRise s) (fun t => t.keeper.resetN = true ∧ t.keeper.boot = s.keeper.boot
      ∧ changesOnly [.keeper] s t))
  ∧ (∀ s : State, goesOnWith (exec .keeperSramError s) (fun t => t.keeper.resetKind = 1 ∧ t.keeper.resetCause = 10
      ∧ t.regs = [] ∧ t.dram = [] ∧ t.keeper.warmTimes = [] ∧ t.keeper.otp = s.keeper.otp ∧ t.mgmt.flash = s.mgmt.flash))
  ∧ (∀ s : State, s.keeper.mbx = [] → keeperRuns s = true →
    goesOnWith (exec .mbxResetCold s) (fun t => t.keeper.resetKind = 1 ∧ t.keeper.resetCause = 3
      ∧ t.regs = [] ∧ t.keeper.otp = s.keeper.otp ∧ t.mgmt.flash = s.mgmt.flash))

/-- R44, R61, R439, R442, R455: WARM resets. Fieldbook's RESET WARM (cause 3) and the third heartbeat period in a row
without a heartbeat (cause 4) start one, which is counted; where the count of the last 600 s already equals ESCALATE a COLD
reset with cause 9 is made in its place; in recovery the request is REFUSED_STATE. A period without heartbeat before the
third counts. With matching hashes a WARM reset goes on at BOOT_PHASE 4; with others it becomes a COLD reset with cause
8, whose log holds a TIME_MARK and the entry WARM_HASH_FAIL. A RESET_CMD becomes the matching request with the host's cause 2. -/
def Obligations.WarmResets : Prop :=
  (∀ s : State, s.keeper.mbx = [] → keeperRuns s = true → bootPhase s ≠ 15 → (recentWarm s).length < (resetPolicy s).1 →
    goesOnWith (exec .mbxResetWarm s) (fun t => t.keeper.resetKind = 2 ∧ t.keeper.resetCause = 3 ∧ t.keeper.warm = true
      ∧ t.keeper.warmTimes.length = (recentWarm s).length + 1 ∧ t.keeper.otp = s.keeper.otp))
  ∧ (∀ s : State, s.keeper.mbx = [] → keeperRuns s = true → bootPhase s ≠ 15 → (resetPolicy s).1 ≤ (recentWarm s).length →
    goesOnWith (exec .mbxResetWarm s) (fun t => t.keeper.resetKind = 1 ∧ t.keeper.resetCause = 9 ∧ t.keeper.warmTimes = []
      ∧ t.regs = []))
  ∧ (∀ s : State, s.keeper.mbx = [] → keeperRuns s = true → bootPhase s = 15 →
    goesOnWith (exec .mbxResetWarm s) (fun t => getF t bmMbxLastCode = 5 ∧ getF t bmMbxLastStatus = 1
      ∧ changesOnly [.regs, .keeper] s t))
  ∧ (∀ s : State, coresRun s = true → getF s bmWdogMissed < 2 →
    goesOnWith (exec .watchdogPeriodExpiry s) (fun t => getF t bmWdogMissed = getF s bmWdogMissed + 1
      ∧ (∀ a, a ≠ bmWdogMissed.addr → regGet t a = regGet s a) ∧ changesOnly [.regs] s t))
  ∧ (∀ s : State, coresRun s = true → 2 ≤ getF s bmWdogMissed → (recentWarm s).length < (resetPolicy s).1 →
    goesOnWith (exec .watchdogPeriodExpiry s) (fun t => t.keeper.resetKind = 2 ∧ t.keeper.resetCause = 4 ∧ t.keeper.warm = true))
  ∧ (∀ s : State, s.keeper.warm = true → bootPhase s < 4 → hashesMatch s = true → inStandby s = false →
    goesOnWith (exec .warmHashCheck s) (fun t => bootPhase t = 4 ∧ t.mem.selfRefresh = false ∧ t.keeper = s.keeper))
  ∧ (∀ s : State, s.keeper.warm = true → bootPhase s < 4 → s.keeper.hashField ≠ some (fieldDigest s) →
    goesOnWith (exec .warmHashCheck s) (fun t => t.keeper.resetKind = 1 ∧ t.keeper.resetCause = 8 ∧ t.dram = []
      ∧ t.log.entries.length = 2))
  ∧ (∀ (s : State) (l : Nat), s.book.resetReq = some (1, l) →
    goesOnWith (exec .resetCmd s) (fun t => t.keeper.resetKind = 1 ∧ t.keeper.resetCause = 2 ∧ t.regs = []))
  ∧ (∀ (s : State) (l : Nat), s.book.resetReq = some (0, l) → bootPhase s ≠ 15 → (recentWarm s).length < (resetPolicy s).1 →
    goesOnWith (exec .resetCmd s) (fun t => t.keeper.resetKind = 2 ∧ t.keeper.resetCause = 2 ∧ t.book.resetReq = none))

/-- R441, R442: LINE resets. Granted for an active line outside standby and outside a WARM reset: the line's laser is off,
the line is under reset, and the other line's sequencer and converters are as they were; REFUSED_SEQUENCE during a WARM reset,
REFUSED_STATE for a line that is not active. At its end the line is no longer under reset. -/
def Obligations.LineResets : Prop :=
  (∀ (s : State) (l : Fin 2), s.keeper.mbx = [] → keeperRuns s = true → s.keeper.warm = false → lineActive s l.val = true → inStandby s = false →
    goesOnWith (exec (.mbxResetLine l) s) (fun t => t.keeper.lineReset.getLsbD l.val = true ∧ (vget t.probe l).laserEn = false
      ∧ (∀ k, k ≠ l → vget t.probe k = vget s.probe k ∧ vget t.conv k = vget s.conv k)))
  ∧ (∀ (s : State) (l : Fin 2), s.keeper.mbx = [] → keeperRuns s = true → s.keeper.warm = true →
    goesOnWith (exec (.mbxResetLine l) s) (fun t => getF t bmMbxLastCode = 5 ∧ getF t bmMbxLastStatus = 4
      ∧ changesOnly [.regs, .keeper] s t))
  ∧ (∀ (s : State) (l : Fin 2), s.keeper.mbx = [] → keeperRuns s = true → s.keeper.warm = false → lineActive s l.val = false →
    goesOnWith (exec (.mbxResetLine l) s) (fun t => getF t bmMbxLastCode = 5 ∧ getF t bmMbxLastStatus = 1
      ∧ changesOnly [.regs, .keeper] s t))
  ∧ (∀ (s : State) (l : Fin 2), s.keeper.lineReset.getLsbD l.val = true →
    goesOnWith (exec (.lineResetDone l) s) (fun t => t.keeper.lineReset.getLsbD l.val = false ∧ t.keeper.otp = s.keeper.otp))

/-- R442, R446, R447, R449: standby. Enter is granted in BOOT_PHASE 11 with no freeze: DRAM is in self-refresh at set point
F2 and both lines' lasers are off; elsewhere REFUSED_STATE. Exit is granted in command standby: DRAM leaves self-refresh and
the exit is under way; under the thermal hold it is REFUSED_CONDITION; that hold ends 60 s after the die has cooled. The
first exit step counts; at its second a hash that differs makes a COLD reset with cause 8; the last ends the exit. A
STANDBY_CMD becomes the matching request. -/
def Obligations.Standby : Prop :=
  (∀ s : State, s.keeper.mbx = [] → keeperRuns s = true → bootPhase s = 11 → s.mem.freeze = none → inStandby s = false →
    goesOnWith (exec .mbxStandbyEnter s) (fun t => t.mem.selfRefresh = true ∧ t.mem.setPoint = 2
      ∧ (vget t.probe 0).laserEn = false ∧ (vget t.probe 1).laserEn = false ∧ t.mem.blackout = none))
  ∧ (∀ s : State, s.keeper.mbx = [] → keeperRuns s = true → (bootPhase s ≠ 11 ∨ s.mem.freeze ≠ none ∨ inStandby s = true) →
    goesOnWith (exec .mbxStandbyEnter s) (fun t => getF t bmMbxLastCode = 6 ∧ getF t bmMbxLastStatus = 1
      ∧ changesOnly [.regs, .keeper] s t))
  ∧ (∀ s : State, s.keeper.mbx = [] → keeperRuns s = true → inStandby s = true → getF s bmPowerStbyCause ≠ 2 → s.keeper.transit ≠ 2 →
    goesOnWith (exec .mbxStandbyExit s) (fun t => t.keeper.transit = 2 ∧ t.keeper.exitStep = 0 ∧ t.mem.selfRefresh = false))
  ∧ (∀ s : State, s.keeper.mbx = [] → keeperRuns s = true → inStandby s = true → getF s bmPowerStbyCause = 2 →
    goesOnWith (exec .mbxStandbyExit s) (fun t => getF t bmMbxLastCode = 6 ∧ getF t bmMbxLastStatus = 2
      ∧ changesOnly [.regs, .keeper, .freeCtr] s t))
  ∧ (∀ s : State, s.keeper.mbx = [] → keeperRuns s = true → inStandby s = false →
    goesOnWith (exec .mbxStandbyExit s) (fun t => getF t bmMbxLastCode = 6 ∧ getF t bmMbxLastStatus = 1
      ∧ changesOnly [.regs, .keeper] s t))
  ∧ (∀ (s : State) (t0 : Nat), inStandby s = true → getF s bmPowerStbyCause = 2 → s.keeper.coolSince = some t0 →
    t0 + 60 * secU ≤ elapsed s → s.keeper.transit ≠ 2 →
    goesOnWith (exec .standbyThermalExit s) (fun t => t.keeper.transit = 2 ∧ t.mem.selfRefresh = false))
  ∧ (∀ s : State, s.keeper.transit = 2 → s.keeper.exitStep = 0 →
    goesOnWith (exec .standbyExitStep s) (fun t => t.keeper.exitStep = 1 ∧ t.keeper.transit = 2))
  ∧ (∀ s : State, s.keeper.transit = 2 → s.keeper.exitStep = 1 → hashesMatch s = true →
    goesOnWith (exec .standbyExitStep s) (fun t => t.keeper.exitStep = 2 ∧ changesOnly [.keeper] s t))
  ∧ (∀ s : State, s.keeper.transit = 2 → s.keeper.exitStep = 1 → s.keeper.hashPlan ≠ some (planDigest s) →
    goesOnWith (exec .standbyExitStep s) (fun t => t.keeper.resetKind = 1 ∧ t.keeper.resetCause = 8))
  ∧ (∀ s : State, s.keeper.transit = 2 → s.keeper.exitStep = 2 → (vget s.conv 0).fullCal = false →
    (vget s.conv 1).fullCal = false →
    goesOnWith (exec .standbyExitStep s) (fun t => t.keeper.transit = 0 ∧ t.keeper.exitStep = 0))
  ∧ (∀ s : State, s.book.standbyReq = some 0 → bootPhase s = 11 → s.mem.freeze = none → inStandby s = false →
    goesOnWith (exec .standbyCmd s) (fun t => t.mem.selfRefresh = true ∧ t.mem.setPoint = 2 ∧ t.book.standbyReq = none))

/-- R450, R451, R452: the clocks. Loss of lock disarms both lines and counts in BM_CLOCK.UNLOCKS; a relock outside standby
starts the full calibration of both lines; loss of REFCLK, its return, and the presence and loss of REFCLK_ALT are seen
by the monitors. A loss of REFCLK marks the SCS as free-running while it holds lock on it; a time-out of that state
ends lock. Which reference is then taken is the model's reading (log entry 61). -/
def Obligations.Clocks : Prop :=
  (∀ s : State, s.keeper.scsLock = true →
    goesOnWith (exec .scsLockLoss s) (fun t => t.keeper.scsLock = false ∧ (vget t.probe 0).laserEn = false
      ∧ (vget t.probe 1).laserEn = false))
  ∧ (∀ s : State, s.keeper.scsLock = false → s.keeper.scsRef ≠ .none_ → inStandby s = false →
    goesOnWith (exec .scsRelock s) (fun t => t.keeper.scsLock = true ∧ t.keeper.freqStale = false
      ∧ (vget t.conv 0).fullCal = true ∧ (vget t.conv 1).fullCal = true))
  ∧ (∀ s : State, s.keeper.refPresent = true → s.keeper.scsRef = .refclk → s.keeper.scsLock = true →
    goesOnWith (exec .refclkLoss s) (fun t => t.keeper.refPresent = false ∧ t.keeper.freqStale = true ∧ t.keeper.scsLock = true))
  ∧ (∀ s : State, s.keeper.freqStale = true → s.keeper.refPresent = false →
    goesOnWith (exec .scsFreerunTimeout s) (fun t => t.keeper.scsLock = false))
  ∧ (∀ s : State, goesOnWith (exec .refclkReturn s) (fun t => t.keeper.refPresent = true
      ∧ (s.keeper.scsLock = true → s.keeper.scsRef = .refclk → t.keeper.freqStale = false)))
  ∧ (∀ s : State, goesOnWith (exec .refclkAltPresent s) (fun t => t.keeper.altPresent = true ∧ t.keeper.refPresent = s.keeper.refPresent))
  ∧ (∀ s : State, goesOnWith (exec .refclkAltLoss s) (fun t => t.keeper.altPresent = false
      ∧ t.keeper.refPresent = s.keeper.refPresent))

/-- R25, R27, R28, R75: fences. While the field cores run and fewer than 64 are outstanding, a fence is issued with the next
identifier, its scope, and nothing acknowledged but for the islands the fence unit acknowledges for; with 64 outstanding none
is issued. An island whose fence it is to acknowledge and which is not in a pass sets its bit in every outstanding
fence of that identifier. 100 ms after the issue the islands that have not acknowledged, and
for which the fence unit does not, count as missed. The oldest fence
whose scope is complete leaves the list, and its identifier becomes the epoch of every island it names; one that is not
complete stays. -/
def Obligations.Fences : Prop :=
  (∀ (s : State) (scope : BitVec 18), coresRun s = true → s.fu.out.length < 64 →
    goesOnWith (exec (.fenceIssue scope) s) (fun t => t.fu.out.length = s.fu.out.length + 1
      ∧ t.fu.nextId = (s.fu.nextId + 1) % 1024 ∧ getF t mgEpochIssued = s.fu.nextId % 1024
      ∧ (t.fu.out.getLast?.map (fun f => (f.id, f.scope, f.missed))) = some (s.fu.nextId, scope.toNat, 0)
      ∧ changesOnly [.regs, .fu] s t))
  ∧ (∀ (s : State) (scope : BitVec 18), coresRun s = true → s.fu.out.length = 64 →
    goesOnWith (exec (.fenceIssue scope) s) (fun t => t.fu.out = s.fu.out ∧ t.fu.nextId = s.fu.nextId ∧ changesOnly [.fu] s t))
  ∧ (∀ (s : State) (isl : Fin 18) (id : Fin 1024), isl.val < 10 → mayAck s isl.val id.val = true →
    goesOnWith (exec (.fenceAck isl id) s) (fun t => t.fu.out.length = s.fu.out.length
      ∧ (∀ f, f ∈ t.fu.out → f.id = id.val → bitOf f.acked isl.val = true) ∧ changesOnly [.fu] s t))
  ∧ (∀ (s : State) (isl : Fin 18) (id : Fin 1024), 10 ≤ isl.val → mayAck s isl.val id.val = true →
    goesOnWith (exec (.fenceAck isl id) s) (fun t => t.keeper.otp = s.keeper.otp ∧ t.mem = s.mem ∧ t.dram = s.dram
      ∧ t.mgmt.flash = s.mgmt.flash))
  ∧ (∀ (s : State) (id : Fin 1024),
    goesOnWith (exec (.fenceTimeout id) s) (fun t => t.fu.out.length = s.fu.out.length
      ∧ (∀ f, f ∈ s.fu.out → f.id = id.val → f.at_ + 100 * msU ≤ elapsed s →
          { f with acked := f.acked ||| (f.scope &&& heldMask s),
                   missed := f.scope - (f.scope &&& (f.acked ||| (f.scope &&& heldMask s))) } ∈ t.fu.out)
      ∧ (∀ f, f ∈ s.fu.out → (f.id ≠ id.val ∨ elapsed s < f.at_ + 100 * msU) → f ∈ t.fu.out) ∧ changesOnly [.fu] s t))
  ∧ (∀ (s : State) (f : Fence) (rest : List Fence), s.fu.out = f :: rest → f.scope &&& (f.acked ||| f.missed) = f.scope →
    f.missed = 0 → f.recs = [] → s.fu.held = [] → s.fu.heldRecs = [] → s.fu.retry = [] → f.why = .fieldbook →
    goesOnWith (exec .fenceComplete s) (fun t => t.fu.out = rest
      ∧ (∀ i : Fin 18, bitOf f.scope i.val = true → vget t.fu.epoch i = f.id)
      ∧ (∀ i : Fin 18, bitOf f.scope i.val = false → vget t.fu.epoch i = vget s.fu.epoch i)))
  ∧ (∀ (s : State) (f : Fence) (rest : List Fence), s.fu.out = f :: rest → f.scope &&& (f.acked ||| f.missed) ≠ f.scope →
    exec .fenceComplete s = .next s)
  ∧ (∀ s : State, 8 ≤ bootPhase s → bootPhase s ≠ 15 → s.keeper.warm = false → autoOwed s ≠ 0 → s.fu.out.length < 64 →
    goesOnWith (exec .rwfAutoFence s) (fun t => t.fu.autoMask = 0 ∧ t.fu.out.length = s.fu.out.length + 1
      ∧ changesOnly [.regs, .fu] s t))
  ∧ (∀ s : State, inStandby s = true → autoOwed s = 0 →
    goesOnWith (exec .rwfAutoFence s) (fun t => t.fu.autoMask = 0 ∧ t.fu.out = s.fu.out ∧ changesOnly [.fu] s t))
  ∧ (∀ (s : State) (t : Fin 8), (vget s.trav t).clockChange = true →
    goesOnWith (exec (.traverseClockChangeDone t) s) (fun u => (vget u.trav t).clockChange = false
      ∧ getF u (trClockApplied t.val) = getF s (trClockSteps t.val) % 2 ^ ((trClockApplied t.val).hi + 1 - (trClockApplied t.val).lo)
      ∧ changesOnly [.regs, .trav] s u))

/-- R70 to R73: an amendment that arrives on an ACTIVE link. An accepted one advances MG_AMEND_SEQ to its sequence number,
enters the amended plan, whose new hash is recorded, and is held for one more fence; a refused one changes neither. In recovery none is answered. -/
def Obligations.Amendments : Prop :=
  (∀ (s : State) (l : Fin 3) (ws : List Word), linkUp s l = true →
    frameOk (rxFrame s 0x105 hostAddr 0 ws) = true → bootPhase s ≠ 15 →
    (judgeAmend (noteRx s l (rxFrame s 0x105 hostAddr 0 ws)) (recordsOf ws).1 (recordsOf ws).2).status ≠ .accepted →
    goesOnWith (exec (.amend l ws) s) (fun t => t.book = s.book ∧ t.fu = s.fu ∧ t.regs = s.regs ∧ changesOnly [.net] s t))
  ∧ (∀ (s : State) (l : Fin 3) (ws : List Word), linkUp s l = true →
    frameOk (rxFrame s 0x105 hostAddr 0 ws) = true → bootPhase s ≠ 15 → s.fu.out.length < 64 →
    (judgeAmend (noteRx s l (rxFrame s 0x105 hostAddr 0 ws)) (recordsOf ws).1 (recordsOf ws).2).status = .accepted →
    goesOnWith (exec (.amend l ws) s) (fun t => t.fu.out.length = s.fu.out.length + 1 ∧ t.cfg = s.cfg
      ∧ t.book.amended = mergeRecs s.book.amended (((recordsOf ws).1.drop 1).dropLast) ∧ t.book.plan = s.book.plan
      ∧ getF t mgAmendSeqSeq = wAt (((recordsOf ws).1[0]?.map (fun r => r.payload)).getD []) 0 2
      ∧ t.keeper.hashPlan = some (planDigest t)
      ∧ changesOnly [.regs, .book, .keeper, .fu, .net] s t))
  ∧ (∀ (s : State) (l : Fin 3) (ws : List Word), linkUp s l = true →
    frameOk (rxFrame s 0x105 hostAddr 0 ws) = true → bootPhase s = 15 →
    goesOnWith (exec (.amend l ws) s) (fun t => t = noteRx s l (rxFrame s 0x105 hostAddr 0 ws)))

/-- R78, R79, R397: feature negotiation. The accepted set is the word AND the last offer, FEAT becomes 2 and the repeats end;
bits that were not offered set MG_FEAT.REJECT for the link; an accept with another serial is counted as stale and
ignored. Repeats of an unanswered offer or of FEATURE_CHANGED send the offer last sent again and change no register; a neighbour's
offer is answered with its AND with the offer last sent to it, and changes neither the accepted set nor a register. -/
def Obligations.FeatureNegotiation : Prop :=
  (∀ (s : State) (l : Fin 3) (w : BitVec 60) (n : Fin 1024), linkUp s l = true → (vget s.net.links l).serial ≠ n.val →
    goesOnWith (exec (.featureAccept l w n) s) (fun t => getF t (lkFeatStaleCount l.val) = min (getF s (lkFeatStaleCount l.val) + 1) 1048575
      ∧ (vget t.net.links l).accepted = (vget s.net.links l).accepted ∧ changesOnly [.regs, .net] s t))
  ∧ (∀ (s : State) (l : Fin 3) (w : BitVec 60) (n : Fin 1024), linkUp s l = true → (vget s.net.links l).serial = n.val →
    w.toNat &&& (vget s.net.links l).offer ≠ w.toNat →
    goesOnWith (exec (.featureAccept l w n) s) (fun t => getF t (lkStatusFeat l.val) = 2 ∧ bitOf (getF t mgFeatReject) l.val = true
      ∧ changesOnly [.regs, .net] s t))
  ∧ (∀ (s : State) (l : Fin 3) (w : BitVec 60) (n : Fin 1024), linkUp s l = true → (vget s.net.links l).serial = n.val →
    w.toNat &&& (vget s.net.links l).offer = w.toNat →
    goesOnWith (exec (.featureAccept l w n) s) (fun t => getF t (lkStatusFeat l.val) = 2 ∧ getF t mgFeatReject = getF s mgFeatReject
      ∧ changesOnly [.regs, .net] s t))
  ∧ (∀ (s : State) (l : Fin 3), (vget s.net.links l).unanswered = true → linkUp s l = true →
    goesOnWith (exec (.featureOfferRepeat l) s) (fun t => (vget t.net.links l).serial = (vget s.net.links l).serial
      ∧ (vget t.net.links l).prio.length = (vget s.net.links l).prio.length + 1
      ∧ ((vget t.net.links l).prio.getLast?.map (fun f => (f.ftype, f.payload))) = some (0x002,
          featWords (vget s.net.links l).offer ++ [BitVec.ofNat 10 (vget s.net.links l).serial, BitVec.ofNat 10 (b2n (vget s.net.links l).changed)])
      ∧ changesOnly [.net] s t))
  ∧ (∀ (s : State) (l : Fin 3), (vget s.net.links l).changed = true → linkUp s l = true →
    goesOnWith (exec (.featureChangedRepeat l) s) (fun t => (vget t.net.links l).serial = (vget s.net.links l).serial
      ∧ (vget t.net.links l).prio.length = (vget s.net.links l).prio.length + 1
      ∧ ((vget t.net.links l).prio.getLast?.map (fun f => (f.ftype, f.payload))) = some (0x002,
          featWords (vget s.net.links l).offer ++ [BitVec.ofNat 10 (vget s.net.links l).serial, 1])
      ∧ changesOnly [.net] s t))
  ∧ (∀ (s : State) (l : Fin 3) (w : BitVec 60) (n : Fin 1024) (c : Bool), linkUp s l = true →
    goesOnWith (exec (.featureOfferReceived l w n c) s) (fun t =>
      (vget t.net.links l).accepted = (vget s.net.links l).accepted
      ∧ (l ≠ 0 → (vget t.net.links l).prio.length = (vget s.net.links l).prio.length + 1
        ∧ ((vget t.net.links l).prio.getLast?.map (fun f => (f.ftype, f.payload))) = some (0x003,
            featWords (w.toNat &&& (vget s.net.links l).offer) ++ [BitVec.ofNat 10 n.val]))
      ∧ changesOnly [.net] s t))

/-- R99, R100, R43: arming, disarming and the interlock. LASER_ARM outside RETURN and standby with every condition met and no
fall of the interlock in the last microsecond sets ARMED and LASER_EN and clears the mutes; with a condition unmet it is
REFUSED_CONDITION. LASER_DISARM, and a fall of Ln_ILK_N, clear ARMED and LASER_EN; a rise of Ln_ILK_N leaves the line
disarmed. -/
def Obligations.LaserArming : Prop :=
  (∀ (s : State) (l : Fin 2), s.keeper.mbx = [] → keeperRuns s = true → lifecycle s ≠ 3 → inStandby s = false → armConditions s l = true →
    (vget s.probe l).ilkAt = none →
    goesOnWith (exec (.mbxLaserArm l) s) (fun t => (vget t.probe l).laserEn = true ∧ getF t (psStatusArmed l.val) = 1
      ∧ getF t (psMuteMuted l.val) = 0 ∧ getF t bmMbxLastCode = 3 ∧ getF t bmMbxLastStatus = 0))
  ∧ (∀ (s : State) (l : Fin 2), s.keeper.mbx = [] → keeperRuns s = true → lifecycle s ≠ 3 → inStandby s = false → armConditions s l = false →
    goesOnWith (exec (.mbxLaserArm l) s) (fun t => t.probe = s.probe ∧ getF t bmMbxLastCode = 3 ∧ getF t bmMbxLastStatus = 2))
  ∧ (∀ (s : State) (l : Fin 2), s.keeper.mbx = [] → keeperRuns s = true → lifecycle s = 3 →
    goesOnWith (exec (.mbxLaserArm l) s) (fun t => t.probe = s.probe ∧ getF t bmMbxLastStatus = 1))
  ∧ (∀ (s : State) (l : Fin 2), s.keeper.mbx = [] → keeperRuns s = true →
    goesOnWith (exec (.mbxLaserDisarm l) s) (fun t => (vget t.probe l).laserEn = false ∧ getF t bmMbxLastCode = 4
      ∧ getF t bmMbxLastStatus = 0 ∧ (∀ k, k ≠ l → vget t.probe k = vget s.probe k)))
  ∧ (∀ (s : State) (l : Fin 2), (vget s.probe l).ilkLow = false →
    goesOnWith (exec (.interlockTrip l) s) (fun t => (vget t.probe l).ilkLow = true ∧ (vget t.probe l).laserEn = false
      ∧ (vget t.probe l).ilkAt = some (elapsed s) ∧ (∀ k, k ≠ l → vget t.probe k = vget s.probe k)))
  ∧ (∀ (s : State) (l : Fin 2),
    goesOnWith (exec (.interlockRelease l) s) (fun t => (vget t.probe l).ilkLow = false
      ∧ (vget t.probe l).laserEn = (vget s.probe l).laserEn ∧ changesOnly [.probe] s t))
  ∧ (∀ (s : State) (l : Fin 2) (b : Nat), isSet s (psBreakActive l.val) = false → breakFound (vget s.probe l) = some b →
    goesOnWith (exec (.fibreBreakRaise l) s) (fun t => t.probe = s.probe ∧ t.keeper = s.keeper
      ∧ getF t (psBreakActive l.val) = 1 ∧ getF t (psBreakStation l.val) = b % 2 ^ 18 ∧ getF t (psStatusApr l.val) = 1
      ∧ s.log.entries.length ≤ t.log.entries.length + 1))
  ∧ (∀ (s : State) (l : Fin 2), isSet s (psBreakActive l.val) = true → 8 ≤ (vget s.probe l).noBreakRun →
    goesOnWith (exec (.fibreBreakClear l) s) (fun t => getF t (psBreakActive l.val) = 0
      ∧ getF t (psBreakStation l.val) = getF s (psBreakStation l.val) ∧ changesOnly [.regs] s t))

/-- R95, R97, R101: launches. A command that arrives at least 200 ns before its slot's next schedule point is held for it;
one too late is discarded and counted in PS_LATE. At a launch instant the commands due at it leave the queue and the other
line is not affected. A sub-window's end starts a new one and keeps the last sixteen; above AVG_MAX over the last sixteen every
active slot of the line is muted with cause 3. -/
def Obligations.Launches : Prop :=
  (∀ (s : State) (l : Fin 2) (k : Fin 16) (c : SlotCfg) (x : Nat), slotAt s l.val k.val = some c →
    (vget s.probe l).newOrigins = [] → nextPoint s (vget s.probe l) c = some x → stampNow s + 200 * nsU ≤ x →
    goesOnWith (exec (.launchCmdArrive l k) s) (fun t => (vget t.probe l).cmds
        = (vget s.probe l).cmds ++ [{ slot := c.slot, m := lget 0 (vget s.probe l).nextM.toList c.slot, time := x }]
      ∧ changesOnly [.probe] s t))
  ∧ (∀ (s : State) (l : Fin 2) (k : Fin 16) (c : SlotCfg) (x : Nat), slotAt s l.val k.val = some c →
    (vget s.probe l).newOrigins = [] → nextPoint s (vget s.probe l) c = some x → x < stampNow s + 200 * nsU →
    goesOnWith (exec (.launchCmdArrive l k) s) (fun t => getF t (psLateCount l.val) = min (getF s (psLateCount l.val) + 1) (2 ^ ((psLateCount l.val).hi + 1 - (psLateCount l.val).lo) - 1)
      ∧ (vget t.probe l).cmds = (vget s.probe l).cmds ∧ changesOnly [.regs, .probe] s t))
  ∧ (∀ (s : State) (l : Fin 2), (vget s.probe l).cmds ≠ [] →
    goesOnWith (exec (.probeLaunch l) s) (fun t => (vget t.probe l).cmds.length < (vget s.probe l).cmds.length
      ∧ (∀ k, k ≠ l → vget t.probe k = vget s.probe k)))
  ∧ (∀ (s : State) (l : Fin 2),
    goesOnWith (exec (.envelopeSubwindowEnd l) s) (fun t => (vget t.probe l).subNow = 0
      ∧ (vget t.probe l).subs.drop 1 = (vget s.probe l).subs.take 15 ∧ changesOnly [.regs, .probe, .log] s t))
  ∧ (∀ (s : State) (l : Fin 2), (vget s.probe l).emits = [] → (envelopeOf s l.val).isSome = true → activeMask s l.val ≠ 0 →
    (envLimits s l.val).2.2 * 2 ^ 20 < sumN (((vget s.probe l).subNow :: (vget s.probe l).subs).take 16) →
    goesOnWith (exec (.envelopeSubwindowEnd l) s) (fun t =>
      getF t (psMuteMuted l.val) = (getF s (psMuteMuted l.val) ||| activeMask s l.val) % 2 ^ 16
      ∧ getF t (psMuteCause l.val) = 3))

/-- R112, R113, R116, R120, R121, R126: the converters' rotation, corrections and references. A rotation step makes the slice
after the present spare the spare and counts the step; without a complete window nothing else changes. A measured spare
changes targets only, not applied values. A correction step changes no target and moves every applied value one step
towards its target. A line on SHARED falls back to INT, sets CV_STATUS.REF_FALLBACK and settles anew; REF_SETTLED ends the
settling. An over-range of an input that is not isolated extends its marks to two samples past its end and, 8 samples or more
after the last OVR sample, counts in CV_OVR_COUNT. -/
def Obligations.ConverterRotation : Prop :=
  (∀ (s : State) (l : Fin 2) (i : Fin 4),
    goesOnWith (exec (.rotationStep l i none) s) (fun t =>
      vget (vget t.conv l).spare i = (vget (vget s.conv l).spare i + 1) % 9
      ∧ vget (vget t.conv l).passSteps i = vget (vget s.conv l).passSteps i + 1
      ∧ (vget t.conv l).applied = (vget s.conv l).applied ∧ changesOnly [.conv] s t))
  ∧ (∀ (s : State) (l : Fin 2) (i : Fin 4) (w : SkewWindow), windowAccepted w = true →
    goesOnWith (exec (.rotationStep l i (some w)) s) (fun t =>
      vget (vget t.conv l).spare i = (vget (vget s.conv l).spare i + 1) % 9
      ∧ bitOf (getF t (cvCalStatusNotConv l.val)) i.val = false ∧ (vget t.conv l).applied = (vget s.conv l).applied
      ∧ changesOnly [.regs, .conv] s t))
  ∧ (∀ (s : State) (l : Fin 2) (i : Fin 4) (w : SkewWindow), windowAccepted w = false →
    goesOnWith (exec (.rotationStep l i (some w)) s) (fun t =>
      bitOf (getF t (cvCalStatusNotConv l.val)) i.val = true
      ∧ getF t (cvNotconvCountCount l.val) = min (getF s (cvNotconvCountCount l.val) + 1) 1048575
      ∧ (vget t.conv l).target = (vget s.conv l).target ∧ changesOnly [.regs, .log, .conv] s t))
  ∧ (∀ (s : State) (l : Fin 2) (i : Fin 4) (offset gain : Int) (th : List Int),
    goesOnWith (exec (.spareMeasureDone l i offset gain th) s) (fun t =>
      (vget t.conv l).applied = (vget s.conv l).applied ∧ (vget t.conv l).spare = (vget s.conv l).spare
      ∧ calTarget (vget t.conv l) (calKey i.val (vget (vget s.conv l).spare i) 1 0) = clampI (-512) 511 offset
      ∧ calTarget (vget t.conv l) (calKey i.val (vget (vget s.conv l).spare i) 2 0) = clampI 0 1023 gain
      ∧ changesOnly [.conv] s t))
  ∧ (∀ (s : State) (l : Fin 2), goesOnWith (exec (.correctionStep l) s) (fun t =>
      (vget t.conv l).target = (vget s.conv l).target
      ∧ (∀ k, calApplied (vget t.conv l) k = stepTo (calApplied (vget s.conv l) k) (calTarget (vget s.conv l) k))
      ∧ changesOnly [.conv] s t))
  ∧ (∀ (s : State) (l : Fin 2), (vget s.conv l).shared = true →
    goesOnWith (exec (.refFallback l) s) (fun t => (vget t.conv l).shared = false ∧ (vget t.conv l).settling = true
      ∧ getF t (cvStatusRefFallback l.val) = 1 ∧ changesOnly [.regs, .log, .conv] s t))
  ∧ (∀ (s : State) (l : Fin 2), goesOnWith (exec (.refSettled l) s) (fun t => (vget t.conv l).settling = false
      ∧ (vget t.conv l).applied = (vget s.conv l).applied ∧ changesOnly [.conv] s t))
  ∧ (∀ (s : State) (l : Fin 2) (i : Fin 6) (n gap : Nat), bitOf (getF s (cvStatusFgBusy l.val)) i.val = false →
    goesOnWith (exec (.overRange l i n gap) s) (fun t =>
      getF t (cvOvrCountCount l.val i.val) = (if 8 ≤ gap then min (getF s (cvOvrCountCount l.val i.val) + 1) 1048575
        else getF s (cvOvrCountCount l.val i.val))
      ∧ vget (vget t.conv l).ovrUntil i = max (vget (vget s.conv l).ovrUntil i)
          (elapsed s + (n + 2) * (if i.val < 4 then 409600 else 3276800))
      ∧ changesOnly [.regs, .conv] s t))

/-- R122, R123, R124, R129, R131: calibration in the foreground. A priority pass of nine steps ends; an isolated fast input is done
when its values are written: it converges, is no longer busy and keeps the die reading of the start; a full calibration's
end clears every busy and NOT_CONV bit and, at BOOT_PHASE 5, gives phase 6; a pending Raman calibration starts outside a
capture window, or is forced to the next window's end, and its end leaves AS and ST not busy. A window's end with nothing
deferred leaves the ranges as they are. -/
def Obligations.ForegroundCalibration : Prop :=
  (∀ (s : State) (l : Fin 2) (i : Fin 4), bitOf (getF s (cvStatusPass l.val)) i.val = true →
    9 ≤ vget (vget s.conv l).passSteps i →
    goesOnWith (exec (.priorityPassEnd l i) s) (fun t => bitOf (getF t (cvStatusPass l.val)) i.val = false
      ∧ (∀ j : Fin 4, j ≠ i → bitOf (getF t (cvStatusPass l.val)) j.val = bitOf (getF s (cvStatusPass l.val)) j.val)
      ∧ changesOnly [.regs] s t))
  ∧ (∀ (s : State) (l : Fin 2) (i : Fin 4) (vs : List CalVal), bitOf (getF s (cvStatusFgBusy l.val)) i.val = true →
    (vget s.conv l).fullCal = false → (vget s.conv l).fgQueue = [] →
    goesOnWith (exec (.fgCalInputDone l i vs) s) (fun t => bitOf (getF t (cvStatusFgBusy l.val)) i.val = false
      ∧ bitOf (getF t (cvCalStatusNotConv l.val)) i.val = false ∧ (vget t.conv l).fgQueue = []
      ∧ changesOnly [.regs, .conv] s t))
  ∧ (∀ (s : State) (l : Fin 2) (vs : List CalVal) (gs : List Nat), (vget s.conv l).fullCal = true →
    goesOnWith (exec (.fullFgCalDone l vs gs) s) (fun t => (vget t.conv l).fullCal = false
      ∧ getF t (cvStatusFgBusy l.val) = 0 ∧ getF t (cvCalStatusNotConv l.val) = 0
      ∧ getF t (cvPgaGainGain l.val 0) = 65536 ∧ getF t (cvPgaGainGain l.val 4) = 65536))
  ∧ (∀ (s : State) (vs : List CalVal) (gs : List Nat), (vget s.conv 0).fullCal = true → (vget s.conv 1).fullCal = false →
    bootPhase s = 5 → goesOnWith (exec (.fullFgCalDone 0 vs gs) s) (fun t => bootPhase t = 6))
  ∧ (∀ (s : State) (l : Fin 2), getF s (cvCalStatusRamanFgPending l.val) = 1 → (vget s.conv l).inWindow = false →
    (vget s.conv l).fullCal = false →
    goesOnWith (exec (.ramanFgCalStart l) s) (fun t => (vget t.conv l).ramanFg = true
      ∧ getF t (cvCalStatusRamanFgPending l.val) = 0 ∧ bitOf (getF t (cvStatusFgBusy l.val)) 4 = true
      ∧ bitOf (getF t (cvStatusFgBusy l.val)) 5 = true ∧ changesOnly [.regs, .conv, .hk] s t))
  ∧ (∀ (s : State) (l : Fin 2), getF s (cvCalStatusRamanFgPending l.val) = 1 →
    goesOnWith (exec (.ramanFgCalForce l) s) (fun t => (vget t.conv l).ramanForce = true ∧ changesOnly [.conv] s t))
  ∧ (∀ (s : State) (l : Fin 2) (vs : List CalVal) (gs : List Nat), (vget s.conv l).ramanFg = true →
    goesOnWith (exec (.ramanFgCalDone l vs gs) s) (fun t => (vget t.conv l).ramanFg = false
      ∧ bitOf (getF t (cvStatusFgBusy l.val)) 4 = false ∧ bitOf (getF t (cvStatusFgBusy l.val)) 5 = false
      ∧ changesOnly [.regs, .conv] s t))
  ∧ (∀ (s : State) (l : Fin 2), (vget s.conv l).inWindow = true → (vget s.conv l).ramanForce = false →
    vget (vget s.conv l).deferred 0 = none → vget (vget s.conv l).deferred 1 = none → (vget s.conv l).apdPend = none →
    goesOnWith (exec (.captureWindowEnd l) s) (fun t => (vget t.conv l).inWindow = false
      ∧ (vget t.conv l).range = (vget s.conv l).range ∧ changesOnly [.conv] s t))
  ∧ (∀ (s : State) (l : Fin 2) (r : Nat) (a : Bool), (vget s.conv l).inWindow = true → (vget s.conv l).ramanForce = false →
    vget (vget s.conv l).deferred 0 = some (r, a) → vget (vget s.conv l).deferred 1 = none →
    (vget s.conv l).apdPend = none → r ≠ vget (vget s.conv l).range 0 →
    goesOnWith (exec (.captureWindowEnd l) s) (fun t => (vget t.conv l).inWindow = false
      ∧ vget (vget t.conv l).range 0 = r ∧ vget (vget t.conv l).changed 0 = true
      ∧ getF t (cvPgaChanges l.val) = min (getF s (cvPgaChanges l.val) + 1) 4095 ∧ changesOnly [.regs, .conv] s t))

/-- R146, R148, R149: the launch delay is measured. RECAL on a line whose LAUNCH_REF selects measuring starts one from nothing. A
measurement whose peak lies above the floor, within the range, is written to PC_LAUNCH_MEAS and waits for a fence; one that has
seen four times AVG_N schedule points and collected fewer than AVG_N launches fails: PC_STATUS.CAL_FAIL is set. A trace is
delivered for a launch that waits for that polarisation: it waits for that polarisation no more. -/
def Obligations.LaunchMeasurement : Prop :=
  (∀ (s : State) (l : Fin 2) (r : LaunchRef), launchRef s l.val = some r → r.mode = 1 → (vget s.pce l).measuring = false →
    goesOnWith (exec (.recal l) s) (fun t => (vget t.pce l).measuring = true ∧ (vget t.pce l).collected = 0
      ∧ (vget t.pce l).points = 0 ∧ (vget t.pce l).delay = (vget s.pce l).delay ∧ changesOnly [.pce] s t))
  ∧ (∀ (s : State) (l : Fin 2) (r : LaunchRef), launchRef s l.val = some r → (vget s.pce l).measuring = true →
    4 * r.avgN ≤ (vget s.pce l).points → (vget s.pce l).collected < r.avgN →
    goesOnWith (exec (.launchMeasureTimeout l) s) (fun t => (vget t.pce l).measuring = false
      ∧ getF t (pcStatusCalFail l.val) = 1 ∧ (vget t.pce l).delay = (vget s.pce l).delay
      ∧ changesOnly [.regs, .log, .pce] s t))
  ∧ (∀ (s : State) (l : Fin 2) (r : LaunchRef) (b : SlotCfg), launchRef s l.val = some r →
    breakMonitor s l.val = some b → (vget s.pce l).measuring = true → r.avgN ≤ (vget s.pce l).collected →
    aboveFloor (lget 0 (vget s.pce l).sums (peakIndex (vget s.pce l).sums)) r.avgN r.floor = true →
    0 ≤ (r.start : Int) + peakUnits s (vget s.pce l).sums (unitsPer b.g) - refUnits s l.val r.dRef →
    (r.start : Int) + peakUnits s (vget s.pce l).sums (unitsPer b.g) - refUnits s l.val r.dRef ≤ 1048575 →
    s.fu.out.length < 64 →
    goesOnWith (exec (.launchMeasureDone l) s) (fun t => (vget t.pce l).measuring = false
      ∧ (getF t (pcLaunchMeasDelay l.val) : Int) = (r.start : Int) + peakUnits s (vget s.pce l).sums (unitsPer b.g) - refUnits s l.val r.dRef
      ∧ t.fu.out.length = s.fu.out.length + 1 ∧ (vget t.pce l).delay = (vget s.pce l).delay
      ∧ changesOnly [.regs, .pce, .fu, .freeCtr] s t))
  ∧ (∀ (s : State) (l : Fin 2) (r : LaunchRef) (b : SlotCfg), launchRef s l.val = some r →
    breakMonitor s l.val = some b → (vget s.pce l).measuring = true → r.avgN ≤ (vget s.pce l).collected →
    aboveFloor (lget 0 (vget s.pce l).sums (peakIndex (vget s.pce l).sums)) r.avgN r.floor = false →
    goesOnWith (exec (.launchMeasureDone l) s) (fun t => (vget t.pce l).measuring = false
      ∧ getF t (pcStatusCalFail l.val) = 1 ∧ (vget t.pce l).pend = (vget s.pce l).pend
      ∧ changesOnly [.regs, .log, .pce, .freeCtr] s t))
  ∧ (∀ (s : State) (l : Fin 2) (k : Fin 16) (pol : Fin 2) (xs : List IQ), dueLaunch (vget s.probe l) k.val pol.val = none →
    exec (.traceDeliver l k pol xs) s = .next s)
  ∧ (∀ (s : State) (l : Fin 2) (k : Fin 16) (pol : Fin 2) (xs : List IQ) (L : Launch),
    dueLaunch (vget s.probe l) k.val pol.val = some L → L.due = 2 ^ pol.val → (vget s.probe l).launches = [L] →
    goesOnWith (exec (.traceDeliver l k pol xs) s) (fun t => (vget t.probe l).launches = []
      ∧ s.freeCtr < t.freeCtr ∧ changesOnly [.regs, .log, .trav, .probe, .pce, .freeCtr] s t))

/-- R221 to R224, R239, R240, R241: passes. While none runs, a traverse serves its oldest foreground request when the shot's
traces are complete and it is their turn, and a background request only when no foreground request waits, slice by slice; a
service pass starts when nothing waits.
PASS_DROP reports the refused requests of the second and starts a new count. A recovery pass whose self-test passes clears the
parity condition and one that fails takes the traverse out of service. -/
def Obligations.Passes : Prop :=
  (∀ (s : State) (t : Fin 8) (r : ShotReq) (rest : List ShotReq) (l : Fin 2), (vget s.trav t).fg = r :: rest → r.line = l.val →
    passReady s t = true → c0Waits s = false → shotComplete s l r.stamp = true →
    goesOnWith (exec (.shotPass t) s) (fun u => (vget u.trav t).fg = rest ∧ (vget u.trav t).run = .shot
      ∧ (vget u.trav t).stamp = r.stamp ∧ (vget u.trav t).kern = none))
  ∧ (∀ (s : State) (t : Fin 8) (l tag stamp epoch : Nat) (c : Bool) (rest : List BgReq),
    (vget s.trav t).bg = .output l tag stamp epoch c :: rest → (vget s.trav t).work = none → bgReady s t = true → c0Waits s = false →
    goesOnWith (exec (.outputPass t) s) (fun u => (vget u.trav t).bg = rest ∧ (vget u.trav t).run = .output
      ∧ (vget u.trav t).stamp = stamp ∧ (vget u.trav t).epoch = epoch))
  ∧ (∀ (s : State) (t : Fin 8) (l : Fin 2) (blk stamp : Nat) (rest : List BgReq), (vget s.trav t).bg = .raman l.val blk stamp :: rest →
    (vget s.trav t).work = none → bgReady s t = true →
    goesOnWith (exec (.ramanPass t) s) (fun u => (vget u.trav t).bg = rest ∧ (vget u.trav t).run = .raman
      ∧ (vget u.trav t).stamp = stamp ∧ (vget u.trav t).blk = blk))
  ∧ (∀ (s : State) (t : Fin 8), passReady s t = true → (vget s.trav t).fg = [] → (vget s.trav t).bg = [] →
    (vget s.trav t).work = none →
    goesOnWith (exec (.servicePass t) s) (fun u => (vget u.trav t).run = .service ∧ (vget u.trav t).pc = 0
      ∧ (∀ k, k ≠ t → vget u.trav k = vget s.trav k)))
  ∧ (∀ (s : State) (t : Fin 8) (l tag stamp epoch next : Nat) (c : Bool),
    (vget s.trav t).work = some { req := .output l tag stamp epoch c, next := next } → bgReady s t = true → c0Waits s = false →
    goesOnWith (exec (.backgroundSlice t) s) (fun u => (vget u.trav t).run = .output ∧ (vget u.trav t).stamp = stamp
      ∧ (vget u.trav t).bg = (vget s.trav t).bg ∧ (vget u.trav t).fg = (vget s.trav t).fg))
  ∧ (∀ (s : State) (t : Fin 8), (vget s.trav t).run ≠ .idle →
    exec (.shotPass t) s = .next s ∧ exec (.outputPass t) s = .next s ∧ exec (.ramanPass t) s = .next s
      ∧ exec (.servicePass t) s = .next s ∧ exec (.backgroundSlice t) s = .next s)
  ∧ (∀ (s : State) (t : Fin 8), (vget s.trav t).refused ≠ 0 →
    goesOnWith (exec (.passDrop t) s) (fun u => (vget u.trav t).refused = 0 ∧ (vget u.trav t).fg = (vget s.trav t).fg
      ∧ changesOnly [.regs, .log, .trav] s u))
  ∧ (∀ (s : State) (t : Fin 8), (vget s.trav t).recovery = true → (vget s.trav t).run = .idle →
    (vget s.trav t).kern = none → (vget s.trav t).oos = false →
    goesOnWith (exec (.recoveryPass t none) s) (fun u => (vget u.trav t).recovery = false ∧ (vget u.trav t).oos = false))
  ∧ (∀ (s : State) (t : Fin 8) (i : Fin 64), (vget s.trav t).recovery = true → (vget s.trav t).run = .idle →
    (vget s.trav t).kern = none → (vget s.trav t).oos = false →
    goesOnWith (exec (.recoveryPass t (some i)) s) (fun u => (vget u.trav t).oos = true))

/-- R187, R201, R203, R207, R208, R210, R212: spectral captures and Raman blocks. A capture request on a line with a spectral
record waits for the next sweep, where the capture starts; a block ends once, at the first trigger of the next or by
itself, counts in RM_STATUS up to 1,023 and is then closed; COILCAL asks for an attempt at the next block; calibration resumes when the coil
pairs have been sound; a calibration that is too old shows so; a fusion takes the oldest block that is ready; a Raman capture
takes the oldest trigger and opens a capture window. -/
def Obligations.SpectralAndRaman : Prop :=
  (∀ (s : State) (l : Fin 2), (specCfg s l.val).isSome = true →
    goesOnWith (exec (.captureRequest l) s) (fun t => (vget t.sense.specLine l).pending = true
      ∧ t.sense.spec = s.sense.spec ∧ changesOnly [.sense] s t))
  ∧ (∀ (s : State) (l : Fin 2), (vget s.sense.specLine l).pending = true →
    goesOnWith (exec (.captureStart l) s) (fun t => (vget t.sense.specLine l).pending = false
      ∧ (vget t.sense.specLine l).capStart = nextSweep s l ∧ (vget t.sense.specLine l).slow = false
      ∧ changesOnly [.trav, .sense, .dram] s t))
  ∧ (∀ (s : State) (l : Fin 2) (c : SpecCfg), specCfg s l.val = some c → 0 < pendingStations s l.val →
    (vget s.sense.specLine l).slow = false → (vget s.sense.specLine l).capStart ≠ 0 →
    16 * c.capSweeps ≤ (vget s.sense.specLine l).done_ →
    goesOnWith (exec (.datumSlow l) s) (fun t => (vget t.sense.specLine l).slow = true ∧ changesOnly [.regs, .log, .sense] s t))
  ∧ (∀ (s : State) (l : Fin 2) (b : Nat × Nat) (u : Nat × Nat × Bool), blockOver s l = true →
    (vget s.sense.ramanLine l).open_ = some b → (vget s.sense.ramanLine l).use = some u →
    goesOnWith (exec (.ramanBlockEnd l) s) (fun t => (vget t.sense.ramanLine l).open_ = none
      ∧ (vget t.sense.ramanLine l).count = (vget s.sense.ramanLine l).count + 1
      ∧ getF t (rmStatusRestartBlocks l.val) = min 1023 ((vget s.sense.ramanLine l).since + 1)
      ∧ changesOnly [.regs, .trav, .sense] s t))
  ∧ (∀ (s : State) (l : Fin 2) (b : Nat × Nat) (u : Nat × Nat × Bool), selfPassDue s l = true →
    (vget s.sense.ramanLine l).open_ = some b → (vget s.sense.ramanLine l).use = some u →
    goesOnWith (exec (.ramanBlockSelfPass l) s) (fun t => (vget t.sense.ramanLine l).open_ = none
      ∧ (vget t.sense.ramanLine l).count = (vget s.sense.ramanLine l).count + 1 ∧ changesOnly [.regs, .trav, .sense] s t))
  ∧ (∀ (s : State) (l : Fin 2), goesOnWith (exec (.coilcal l) s) (fun t => (vget t.sense.ramanLine l).coilReq = true
      ∧ t.sense.raman = s.sense.raman ∧ changesOnly [.sense] s t))
  ∧ (∀ (s : State) (l : Fin 2) (c : CoilCfg), coilCfg s l.val = some c → coilClear s c = true →
    goesOnWith (exec (.coilCalResume l) s) (fun t => (vget t.sense.ramanLine l).suspended = false ∧ changesOnly [.sense] s t))
  ∧ (∀ (s : State) (l : Fin 2), goesOnWith (exec (.calAgeExpiry l) s) (fun t =>
      min 1048575 (calAgeLimit s l.val + 1) ≤ getF t (rmCalAgeAge l.val) ∧ getF s (rmCalAgeAge l.val) ≤ getF t (rmCalAgeAge l.val)
      ∧ changesOnly [.regs] s t))
  ∧ (∀ (s : State) (l : Fin 2) (b : RBlock) (rest : List RBlock), (vget s.sense.ramanLine l).ready = b :: rest →
    goesOnWith (exec (.fusionStart l) s) (fun t => (vget t.sense.ramanLine l).ready = rest))
  ∧ (∀ (s : State) (l : Fin 2) (a b x y : List Int) (tr : RamanTrig) (rest : List RamanTrig) (c : RamanCfg),
    (vget s.probe l).ramanTrigs = tr :: rest → ramanCfg s l.val = some c →
    goesOnWith (exec (.ramanCapture l a b x y) s) (fun t => (vget t.probe l).ramanTrigs = rest
      ∧ (vget t.conv l).inWindow = true ∧ changesOnly [.regs, .trav, .probe, .conv, .sense] s t))

/-- R230, R232, R233: the lanes' arithmetic on words and pairs. In every executing lane ALU and ALUD write the result of FN, rounded
under RND and clamped under SAT, to the destination with the operands' INV tags; ALUI takes the immediate at the operation's
width and its low five bits as shift count. -/
def Obligations.LaneArithmetic : Prop :=
  (∀ (s : State) (t : Fin 8) (p : Pred) (r : FmtR), issues s t 1 → (r.fn.val ≤ 4 ∨ r.fn.val = 8 ∨ r.fn.val = 9) →
    goesOnWith (exec (.alu t p r) s) (fun u => ∃ v : Lane → Int,
      lanesBecome [.regs, .trav] s u t p (fun L => putW L r.rd.val (v L) (laneInv L r.ra.val || laneInv L r.rb.val))
      ∧ (r.fn.val = 0 → ∀ L, v L = satTo 10 r.sat (laneWS L r.ra.val + laneWS L r.rb.val))
      ∧ (r.fn.val = 1 → ∀ L, v L = satTo 10 r.sat (laneWS L r.ra.val - laneWS L r.rb.val))
      ∧ (r.fn.val = 2 → ∀ L, v L = ((laneW L r.ra.val &&& laneW L r.rb.val : Nat) : Int))
      ∧ (r.fn.val = 3 → ∀ L, v L = ((laneW L r.ra.val ||| laneW L r.rb.val : Nat) : Int))
      ∧ (r.fn.val = 4 → ∀ L, v L = ((laneW L r.ra.val ^^^ laneW L r.rb.val : Nat) : Int))
      ∧ (r.fn.val = 8 → ∀ L, v L = min (laneWS L r.ra.val) (laneWS L r.rb.val))
      ∧ (r.fn.val = 9 → ∀ L, v L = max (laneWS L r.ra.val) (laneWS L r.rb.val))))
  ∧ (∀ (s : State) (t : Fin 8) (p : Pred) (r : FmtR), issues s t 1 →
    (r.fn.val = 5 ∨ r.fn.val = 6 ∨ r.fn.val = 7 ∨ r.fn.val = 10 ∨ r.fn.val = 11 ∨ r.fn.val = 13) →
    goesOnWith (exec (.alu t p r) s) (fun u => ∃ v : Lane → Int,
      lanesBecome [.regs, .trav] s u t p (fun L => putW L r.rd.val (v L) (laneInv L r.ra.val))
      ∧ (r.fn.val = 5 → ∀ L, v L = satTo 10 r.sat (laneWS L r.ra.val * 2 ^ r.sh.val))
      ∧ (r.fn.val = 6 → ∀ L, v L = satTo 10 r.sat (roundRnd r.rnd.val (laneWS L r.ra.val) (2 ^ r.sh.val)))
      ∧ (r.fn.val = 7 → ∀ L, v L = roundRnd r.rnd.val (laneW L r.ra.val) (2 ^ r.sh.val))
      ∧ (r.fn.val = 10 → ∀ L, v L = satTo 10 r.sat ((laneWS L r.ra.val).natAbs : Int))
      ∧ (r.fn.val = 11 → ∀ L, v L = satTo 10 r.sat (-(laneWS L r.ra.val)))
      ∧ (r.fn.val = 13 → ∀ L, v L = laneWS L r.ra.val)))
  ∧ (∀ (s : State) (t : Fin 8) (p : Pred) (r : FmtR), issues s t 1 → evenReg r.rd = true → evenReg r.ra = true → evenReg r.rb = true →
    (r.fn.val ≤ 4 ∨ r.fn.val = 8 ∨ r.fn.val = 9) →
    goesOnWith (exec (.alud t p r) s) (fun u => ∃ v : Lane → Int,
      lanesBecome [.regs, .trav] s u t p (fun L => putD L r.rd.val (v L) (laneInvD L r.ra.val || laneInvD L r.rb.val))
      ∧ (r.fn.val = 0 → ∀ L, v L = satTo 20 r.sat (laneDS L r.ra.val + laneDS L r.rb.val))
      ∧ (r.fn.val = 1 → ∀ L, v L = satTo 20 r.sat (laneDS L r.ra.val - laneDS L r.rb.val))
      ∧ (r.fn.val = 8 → ∀ L, v L = min (laneDS L r.ra.val) (laneDS L r.rb.val))
      ∧ (r.fn.val = 9 → ∀ L, v L = max (laneDS L r.ra.val) (laneDS L r.rb.val))))
  ∧ (∀ (s : State) (t : Fin 8) (p : Pred) (r : FmtR), issues s t 1 → evenReg r.rd = true → evenReg r.ra = true →
    (r.fn.val = 5 ∨ r.fn.val = 6 ∨ r.fn.val = 7 ∨ r.fn.val = 10 ∨ r.fn.val = 11 ∨ r.fn.val = 13) →
    goesOnWith (exec (.alud t p r) s) (fun u => ∃ v : Lane → Int,
      lanesBecome [.regs, .trav] s u t p (fun L => putD L r.rd.val (v L) (laneInvD L r.ra.val))
      ∧ (r.fn.val = 5 → ∀ L, v L = satTo 20 r.sat (laneDS L r.ra.val * 2 ^ r.sh.val))
      ∧ (r.fn.val = 6 → ∀ L, v L = satTo 20 r.sat (roundRnd r.rnd.val (laneDS L r.ra.val) (2 ^ r.sh.val)))
      ∧ (r.fn.val = 11 → ∀ L, v L = satTo 20 r.sat (-(laneDS L r.ra.val)))))
  ∧ (∀ (s : State) (t : Fin 8) (p : Pred) (i : FmtI), issues s t 1 → i.w = false → (i.fn.val ≤ 11 ∨ i.fn.val = 13) →
    goesOnWith (exec (.alui t p i) s) (fun u => ∃ v : Lane → Int,
      lanesBecome [.regs, .trav] s u t p (fun L => putW L i.rd.val (v L) (laneInv L i.ra.val))
      ∧ (i.fn.val = 0 → ∀ L, v L = laneWS L i.ra.val + signedOf 10 (i.imm.toNat % 1024))
      ∧ (i.fn.val = 1 → ∀ L, v L = laneWS L i.ra.val - signedOf 10 (i.imm.toNat % 1024))
      ∧ (i.fn.val = 5 → ∀ L, v L = laneWS L i.ra.val * 2 ^ (i.imm.toNat % 32))
      ∧ (i.fn.val = 6 → ∀ L, v L = laneWS L i.ra.val / ((2 ^ (i.imm.toNat % 32) : Nat) : Int))))
  ∧ (∀ (s : State) (t : Fin 8) (p : Pred) (i : FmtI), issues s t 1 → i.w = true → evenReg i.rd = true → evenReg i.ra = true →
    (i.fn.val ≤ 11 ∨ i.fn.val = 13) →
    goesOnWith (exec (.alui t p i) s) (fun u => ∃ v : Lane → Int,
      lanesBecome [.regs, .trav] s u t p (fun L => putD L i.rd.val (v L) (laneInvD L i.ra.val))
      ∧ (i.fn.val = 0 → ∀ L, v L = laneDS L i.ra.val + i.imm.toInt)
      ∧ (i.fn.val = 1 → ∀ L, v L = laneDS L i.ra.val - i.imm.toInt)))

/-- R230, R233: comparisons, selection, immediates and parameters. CMP and CMPI set a predicate (p0 ignores it), SEL takes one of
two registers with its tag, MOVI writes an untagged immediate, PRM a parameter word of the running kernel; a word beyond the
kernel's parameters is free (the model's reading; log entry 2). -/
def Obligations.LaneSelection : Prop :=
  (∀ (s : State) (t : Fin 8) (p : Pred) (r : FmtR), issues s t 1 → r.fn.val ≤ 5 →
    goesOnWith (exec (.cmp t p r) s) (fun u => ∃ b : Lane → Bool,
      lanesBecome [.regs, .trav] s u t p (fun L => putP L r.rd.val (b L))
      ∧ (r.fn.val = 0 → ∀ L, b L = decide (laneWS L r.ra.val = laneWS L r.rb.val))
      ∧ (r.fn.val = 1 → ∀ L, b L = decide (laneWS L r.ra.val ≠ laneWS L r.rb.val))
      ∧ (r.fn.val = 2 → ∀ L, b L = decide (laneWS L r.ra.val < laneWS L r.rb.val))
      ∧ (r.fn.val = 3 → ∀ L, b L = decide (laneWS L r.rb.val ≤ laneWS L r.ra.val))
      ∧ (r.fn.val = 4 → ∀ L, b L = decide (laneW L r.ra.val < laneW L r.rb.val))
      ∧ (r.fn.val = 5 → ∀ L, b L = decide (laneW L r.rb.val ≤ laneW L r.ra.val))))
  ∧ (∀ (s : State) (t : Fin 8) (p : Pred) (r : FmtR), issues s t 1 → evenReg r.ra = true → evenReg r.rb = true →
    8 ≤ r.fn.val → r.fn.val ≤ 13 →
    goesOnWith (exec (.cmp t p r) s) (fun u => ∃ b : Lane → Bool,
      lanesBecome [.regs, .trav] s u t p (fun L => putP L r.rd.val (b L))
      ∧ (r.fn.val = 8 → ∀ L, b L = decide (laneDS L r.ra.val = laneDS L r.rb.val))
      ∧ (r.fn.val = 10 → ∀ L, b L = decide (laneDS L r.ra.val < laneDS L r.rb.val))
      ∧ (r.fn.val = 11 → ∀ L, b L = decide (laneDS L r.rb.val ≤ laneDS L r.ra.val))))
  ∧ (∀ (s : State) (t : Fin 8) (p : Pred) (i : FmtI), issues s t 1 → i.fn.val % 8 ≤ 5 → (i.w = false ∨ evenReg i.ra = true) →
    goesOnWith (exec (.cmpi t p i) s) (fun u => ∃ b : Lane → Bool,
      lanesBecome [.regs, .trav] s u t p (fun L => putP L i.rd.val (b L))
      ∧ (i.fn.val = 0 → i.w = false → ∀ L, b L = decide (laneWS L i.ra.val = signedOf 10 (i.imm.toNat % 1024)))
      ∧ (i.fn.val = 2 → i.w = false → ∀ L, b L = decide (laneWS L i.ra.val < signedOf 10 (i.imm.toNat % 1024)))
      ∧ (i.fn.val = 2 → i.w = true → ∀ L, b L = decide (laneDS L i.ra.val < i.imm.toInt))))
  ∧ (∀ (s : State) (t : Fin 8) (p : Pred) (r : FmtR), issues s t 1 → r.cj = false →
    goesOnWith (exec (.sel t p r) s) (fun u => lanesBecome [.regs, .trav] s u t p (fun L =>
      if laneP L r.fn.val then putW L r.rd.val (laneWS L r.ra.val) (laneInv L r.ra.val)
      else putW L r.rd.val (laneWS L r.rb.val) (laneInv L r.rb.val))))
  ∧ (∀ (s : State) (t : Fin 8) (p : Pred) (r : FmtR), issues s t 1 → r.cj = true → evenReg r.rd = true → evenReg r.ra = true →
    evenReg r.rb = true →
    goesOnWith (exec (.sel t p r) s) (fun u => lanesBecome [.regs, .trav] s u t p (fun L =>
      if laneP L r.fn.val then putD L r.rd.val (laneDS L r.ra.val) (laneInvD L r.ra.val)
      else putD L r.rd.val (laneDS L r.rb.val) (laneInvD L r.rb.val))))
  ∧ (∀ (s : State) (t : Fin 8) (p : Pred) (rd : Fin 32) (imm : BitVec 20), issues s t 1 →
    goesOnWith (exec (.movi t p rd imm false) s) (fun u =>
      lanesBecome [.regs, .trav] s u t p (fun L => putW L rd.val (imm.toNat : Int) false)))
  ∧ (∀ (s : State) (t : Fin 8) (p : Pred) (rd : Fin 32) (imm : BitVec 20), issues s t 1 → evenReg rd = true →
    goesOnWith (exec (.movi t p rd imm true) s) (fun u =>
      lanesBecome [.regs, .trav] s u t p (fun L => putD L rd.val (imm.toNat : Int) false)))
  ∧ (∀ (s : State) (t : Fin 8) (p : Pred) (i : FmtI) (kr : KernRun) (k : KernCfg), issues s t 1 → (vget s.trav t).kern = some kr →
    kernAt s kr.k = some k → i.imm.toNat < k.nParams →
    goesOnWith (exec (.prm t p i) s) (fun u => lanesBecome [.regs, .trav] s u t p (fun L =>
      putW L i.rd.val ((kernParam s t kr.k i.imm.toNat).toNat : Int) false)))
  ∧ (∀ (s : State) (t : Fin 8) (p : Pred) (i : FmtI) (kr : KernRun) (k : KernCfg), issues s t 1 → (vget s.trav t).kern = some kr →
    kernAt s kr.k = some k → k.nParams ≤ i.imm.toNat →
    goesOnWith (exec (.prm t p i) s) (fun u => ∃ v : Int, lanesBecome [.regs, .trav, .freeCtr] s u t p (fun L =>
      putW L i.rd.val v false)))

/-- R233, R237, R238, R239, R243: the lanes' control instructions, outside kernels and repeats. NOP goes on; REP repeats the next
instructions and skips them for a count of 0; BR goes to its target where it is taken; END ends the pass and leaves gang
mode; HOOK without kernels goes on to the next station; MODE sets or leaves gang mode; AOVCLR clears AOV in executing
lanes; WAIT goes on when every lane has its words and changes nothing until then. -/
def Obligations.LaneControl : Prop :=
  (∀ (s : State) (t : Fin 8), issues s t 1 →
    goesOnWith (exec (.nop t) s) (fun u => lanesBecome [.trav] s u t { neg := false, psel := 0 } id))
  ∧ (∀ (s : State) (t : Fin 8) (c : Fin 1024) (r : Fin 32) (n : Fin 64), (vget s.trav t).kern = none → (vget s.trav t).rep = none →
    goesOnWith (exec (.rep t false c r n) s) (fun u =>
      (vget u.trav t).rep = some { len := n.val + 1, count := c.val + 1, pos := 0, rc := 0 }
      ∧ (vget u.trav t).pc = ((vget s.trav t).pc + 1) % 4096 ∧ (vget u.trav t).lanes = (vget s.trav t).lanes
      ∧ changesOnly [.trav] s u))
  ∧ (∀ (s : State) (t : Fin 8) (c : Fin 1024) (r : Fin 32) (n : Fin 64), (vget s.trav t).kern = none → (vget s.trav t).rep = none →
    laneW ((vget s.trav t).lanes.toList.getD (firstLane s t) Lane.zero) r.val = 0 →
    goesOnWith (exec (.rep t true c r n) s) (fun u => (vget u.trav t).rep = none
      ∧ (vget u.trav t).pc = ((vget s.trav t).pc + 1) % 4096 + n.val + 1 ∧ (vget u.trav t).lanes = (vget s.trav t).lanes
      ∧ changesOnly [.trav] s u))
  ∧ (∀ (s : State) (t : Fin 8) (p : Pred) (m : Fin 4) (a : Fin 4096), (vget s.trav t).kern = none → (vget s.trav t).rep = none →
    goesOnWith (exec (.br t p m a) s) (fun u => (brTaken s t p m.val = true → (vget u.trav t).pc = a.val)
      ∧ (brTaken s t p m.val = false → (vget u.trav t).pc = ((vget s.trav t).pc + 1) % 4096)
      ∧ (vget u.trav t).lanes = (vget s.trav t).lanes ∧ changesOnly [.trav] s u))
  ∧ (∀ (s : State) (t : Fin 8), (vget s.trav t).kern = none → (vget s.trav t).rep = none →
    goesOnWith (exec (.end_ t) s) (fun u => (vget u.trav t).run = .idle ∧ (vget u.trav t).gang = false
      ∧ (vget u.trav t).lanes = (vget s.trav t).lanes ∧ changesOnly [.trav] s u))
  ∧ (∀ (s : State) (t : Fin 8) (h : Fin 4), (vget s.trav t).kern = none → (vget s.trav t).rep = none →
    (kernsAt s t.val h.val).filter (fun k => !((vget s.trav t).susp.contains k)) = [] →
    goesOnWith (exec (.hook t h) s) (fun u => (vget u.trav t).stIdx = (vget s.trav t).stIdx + 1 ∧ (vget u.trav t).kern = none
      ∧ (vget u.trav t).pc = ((vget s.trav t).pc + 1) % 4096 ∧ changesOnly [.trav] s u))
  ∧ (∀ (s : State) (t : Fin 8) (h : Fin 4) (k : Nat) (rest : List Nat), (vget s.trav t).kern = none → (vget s.trav t).rep = none →
    (kernsAt s t.val h.val).filter (fun k => !((vget s.trav t).susp.contains k)) = k :: rest →
    goesOnWith (exec (.hook t h) s) (fun u => ((vget u.trav t).kern.map (fun x => (x.k, x.rest, x.h, x.cyc))) = some (k, rest, h.val, 0)
      ∧ (vget u.trav t).stIdx = (vget s.trav t).stIdx ∧ u.freeCtr = s.freeCtr + 1 ∧ changesOnly [.trav, .freeCtr] s u))
  ∧ (∀ (s : State) (t : Fin 8) (g : Bool), (vget s.trav t).kern = none → (vget s.trav t).rep = none →
    (g = false ∨ (vget s.trav t).run = .service) →
    goesOnWith (exec (.mode t g) s) (fun u => (vget u.trav t).gang = g ∧ (vget u.trav t).lanes = (vget s.trav t).lanes
      ∧ (vget u.trav t).pc = ((vget s.trav t).pc + 1) % 4096 ∧ changesOnly [.trav] s u))
  ∧ (∀ (s : State) (t : Fin 8) (p : Pred), issues s t 1 →
    goesOnWith (exec (.aovclr t p) s) (fun u => lanesBecome [.regs, .trav] s u t p (fun L => { L with aov := false })))
  ∧ (∀ (s : State) (t : Fin 8) (n : Fin 64), (vget s.trav t).kern = none → (vget s.trav t).rep = none →
    fifoReady s t { neg := false, psel := 0 } (n.val + 1) = true →
    goesOnWith (exec (.wait t n) s) (fun u => (vget u.trav t).pc = ((vget s.trav t).pc + 1) % 4096
      ∧ (vget u.trav t).lanes = (vget s.trav t).lanes ∧ changesOnly [.trav] s u))
  ∧ (∀ (s : State) (t : Fin 8) (n : Fin 64), (vget s.trav t).kern = none →
    fifoReady s t { neg := false, psel := 0 } (n.val + 1) = false → exec (.wait t n) s = .next s)

/-- R231, R233, R241, R244: the lanes' local memory, outside kernels, where no word read has wrong parity. A load writes untagged
registers with the words from OFF + x·2^SCL on, low word first; a store writes those words and no others; the index
register then moves by INC; XLD and XADD write an index register modulo 16,384. In a kernel an access outside its windows
is a kernel fault of cause 1. -/
def Obligations.LaneMemory : Prop :=
  (∀ (s : State) (t : Fin 8) (p : Pred) (m : FmtM), (vget s.trav t).kern = none → m.inc.val ≠ 7 → parityHits s t p m 1 = [] →
    goesOnWith (exec (.ld t p m) s) (fun u => lanesBecome [.regs, .trav] s u t p (fun L =>
      memInc (putW L m.r.val (memReadN L (memAddr L m) 1 : Nat) false) m)))
  ∧ (∀ (s : State) (t : Fin 8) (p : Pred) (m : FmtM), (vget s.trav t).kern = none → m.inc.val ≠ 7 → evenReg m.r = true →
    parityHits s t p m 2 = [] →
    goesOnWith (exec (.ldp t p m) s) (fun u => lanesBecome [.regs, .trav] s u t p (fun L =>
      memInc (putD L m.r.val ((memRead L (memAddr L m) + 1024 * memRead L ((memAddr L m + 1) % 16384) : Nat) : Int) false) m)))
  ∧ (∀ (s : State) (t : Fin 8) (p : Pred) (m : FmtM), (vget s.trav t).kern = none → m.inc.val ≠ 7 → parityHits s t p m 4 = [] →
    goesOnWith (exec (.ald t p m) s) (fun u => ∃ f : Lane → Lane, lanesBecome [.regs, .trav] s u t p f
      ∧ ∀ L, laneAcc (f L) m.acc = signedOf 40 (memReadN L (memAddr L m) 4) ∧ laneSat (f L) m.acc = false
        ∧ laneAccInv (f L) m.acc = false ∧ (f L).w = L.w ∧ (f L).mem = L.mem))
  ∧ (∀ (s : State) (t : Fin 8) (p : Pred) (m : FmtM), (vget s.trav t).kern = none → m.inc.val ≠ 7 →
    goesOnWith (exec (.st t p m) s) (fun u => ∃ f : Lane → Lane, lanesBecome [.regs, .trav] s u t p f
      ∧ ∀ L, memRead (f L) (memAddr L m) = laneW L m.r.val
        ∧ (∀ a, a ≠ memAddr L m → memRead (f L) a = memRead L a) ∧ (f L).w = L.w ∧ (f L).acc0 = L.acc0 ∧ (f L).acc1 = L.acc1))
  ∧ (∀ (s : State) (t : Fin 8) (p : Pred) (m : FmtM), (vget s.trav t).kern = none → m.inc.val ≠ 7 → evenReg m.r = true →
    goesOnWith (exec (.stp t p m) s) (fun u => ∃ f : Lane → Lane, lanesBecome [.regs, .trav] s u t p f
      ∧ ∀ L, memRead (f L) (memAddr L m) = laneW L m.r.val
        ∧ memRead (f L) ((memAddr L m + 1) % 16384) = laneW L (m.r.val + 1)
        ∧ (∀ a, a ∉ memSpan (memAddr L m) 2 → memRead (f L) a = memRead L a) ∧ (f L).w = L.w))
  ∧ (∀ (s : State) (t : Fin 8) (p : Pred) (m : FmtM), (vget s.trav t).kern = none → m.inc.val ≠ 7 →
    goesOnWith (exec (.ast t p m) s) (fun u => ∃ f : Lane → Lane, lanesBecome [.regs, .trav] s u t p f
      ∧ ∀ L, memReadN (f L) (memAddr L m) 4 = fieldOf 40 (laneAcc L m.acc)
        ∧ (∀ a, a ∉ memSpan (memAddr L m) 4 → memRead (f L) a = memRead L a) ∧ (f L).acc0 = L.acc0 ∧ (f L).acc1 = L.acc1))
  ∧ (∀ (s : State) (t : Fin 8) (p : Pred) (i : FmtI), issues s t 1 → i.fn.val = 0 →
    goesOnWith (exec (.xld t p i) s) (fun u => lanesBecome [.regs, .trav] s u t p (fun L => putX L i.rd.val i.imm.toInt)))
  ∧ (∀ (s : State) (t : Fin 8) (p : Pred) (i : FmtI), issues s t 1 → i.fn.val = 1 → evenReg i.ra = true →
    goesOnWith (exec (.xld t p i) s) (fun u => lanesBecome [.regs, .trav] s u t p (fun L => putX L i.rd.val (laneD L i.ra.val : Int))))
  ∧ (∀ (s : State) (t : Fin 8) (p : Pred) (i : FmtI), issues s t 1 →
    goesOnWith (exec (.xadd t p i) s) (fun u => lanesBecome [.regs, .trav] s u t p (fun L =>
      putX L i.rd.val ((laneX L i.rd.val : Int) + i.imm.toInt))))
  ∧ (∀ (s : State) (t : Fin 8) (p : Pred) (m : FmtM) (kr : KernRun) (i : Fin 64), (vget s.trav t).kern = some kr → issues s t 1 →
    m.inc.val ≠ 7 → laneExecs s t p i.val (lane s t i) = true →
    windowOk (kernWindows s kr.k) true (memSpan (memAddr (lane s t i) m) 1) = false →
    goesOnWith (exec (.st t p m) s) (fun u => getF u (trKfaultCause t.val) = 1 ∧ getF u (trKfaultKernel t.val) = kr.k % 16
      ∧ kr.k ∈ (vget u.trav t).susp))

/-- R234, R235, R238, R239: multipliers and accumulators, outside kernels or within their cycles: MAC, CMAC, DMAC, AOP, ASH,
ATST and GMAC give exact products and sums in 40 bits; a sum beyond them is pinned with SAT and AOV set, and a pinned
accumulator stays as it is; the other accumulator, the registers and memory do not change. -/
def Obligations.LaneAccumulators : Prop :=
  (∀ (s : State) (t : Fin 8) (p : Pred) (r : FmtR), issues s t 1 → (vget s.trav t).gang = false → r.fn.val ≤ 2 →
    goesOnWith (exec (.mac t p r) s) (fun u => ∃ f : Lane → Lane, lanesBecome [.regs, .trav] s u t p f
      ∧ (∀ L, r.fn.val = 0 → laneAcc (f L) r.a = laneWS L r.ra.val * laneWS L r.rb.val ∧ laneSat (f L) r.a = false)
      ∧ (∀ L, 1 ≤ r.fn.val → laneSat L r.a = true → f L = L)
      ∧ (∀ L, r.fn.val = 1 → laneSat L r.a = false → laneAcc L r.a + laneWS L r.ra.val * laneWS L r.rb.val < 2 ^ 39 →
          -(2 ^ 39) ≤ laneAcc L r.a + laneWS L r.ra.val * laneWS L r.rb.val →
          laneAcc (f L) r.a = laneAcc L r.a + laneWS L r.ra.val * laneWS L r.rb.val ∧ laneSat (f L) r.a = false ∧ (f L).aov = L.aov)
      ∧ (∀ L, r.fn.val = 1 → laneSat L r.a = false → 2 ^ 39 ≤ laneAcc L r.a + laneWS L r.ra.val * laneWS L r.rb.val →
          laneAcc (f L) r.a = 2 ^ 39 - 1 ∧ laneSat (f L) r.a = true ∧ (f L).aov = true)
      ∧ (∀ L, r.fn.val = 2 → laneSat L r.a = false → laneAcc L r.a - laneWS L r.ra.val * laneWS L r.rb.val < -(2 ^ 39) →
          laneAcc (f L) r.a = -(2 ^ 39) ∧ laneSat (f L) r.a = true ∧ (f L).aov = true)
      ∧ (∀ L, (f L).w = L.w ∧ (f L).x = L.x ∧ (f L).mem = L.mem ∧ laneAcc (f L) (!r.a) = laneAcc L (!r.a))))
  ∧ (∀ (s : State) (t : Fin 8) (p : Pred) (r : FmtR), issues s t 1 → (vget s.trav t).gang = false → r.fn.val = 0 →
    evenReg r.ra = true → evenReg r.rb = true →
    goesOnWith (exec (.cmac t p r) s) (fun u => ∃ f : Lane → Lane, lanesBecome [.regs, .trav] s u t p f
      ∧ (∀ L, r.cj = false → (f L).acc0.toInt = (laneC L r.ra.val).re * (laneC L r.rb.val).re - (laneC L r.ra.val).im * (laneC L r.rb.val).im
          ∧ (f L).acc1.toInt = (laneC L r.ra.val).re * (laneC L r.rb.val).im + (laneC L r.ra.val).im * (laneC L r.rb.val).re)
      ∧ (∀ L, r.cj = true → (f L).acc0.toInt = (laneC L r.ra.val).re * (laneC L r.rb.val).re + (laneC L r.ra.val).im * (laneC L r.rb.val).im
          ∧ (f L).acc1.toInt = (laneC L r.ra.val).im * (laneC L r.rb.val).re - (laneC L r.ra.val).re * (laneC L r.rb.val).im)
      ∧ (∀ L, (f L).sat0 = false ∧ (f L).sat1 = false ∧ (f L).w = L.w)))
  ∧ (∀ (s : State) (t : Fin 8) (p : Pred) (r : FmtR), issues s t 1 → (vget s.trav t).gang = false → r.fn.val = 0 →
    evenReg r.ra = true → evenReg r.rb = true →
    goesOnWith (exec (.dmac t p r) s) (fun u => ∃ f : Lane → Lane, lanesBecome [.regs, .trav] s u t p f
      ∧ (∀ L, laneAcc (f L) r.a = (laneC L r.ra.val).re * (laneC L r.rb.val).re + (laneC L r.ra.val).im * (laneC L r.rb.val).im
        ∧ laneSat (f L) r.a = false ∧ (f L).w = L.w)))
  ∧ (∀ (s : State) (t : Fin 8) (p : Pred) (r : FmtR), issues s t 1 → r.fn.val ≤ 5 → (r.fn.val = 4 → evenReg r.ra = true) →
    goesOnWith (exec (.aop t p r) s) (fun u => ∃ f : Lane → Lane, lanesBecome [.regs, .trav] s u t p f
      ∧ (∀ L, r.fn.val = 0 → laneAcc (f L) r.a = 0 ∧ laneSat (f L) r.a = false)
      ∧ (∀ L, (r.fn.val = 1 ∨ r.fn.val = 2 ∨ r.fn.val = 3 ∨ r.fn.val = 5) → laneSat L r.a = true → f L = L)
      ∧ (∀ L, r.fn.val = 3 → laneSat L r.a = false → laneAcc L r.a ≠ -(2 ^ 39) → laneAcc (f L) r.a = -(laneAcc L r.a))
      ∧ (∀ L, r.fn.val = 4 → r.sh.val ≤ 19 → laneAcc (f L) r.a = laneDS L r.ra.val * 2 ^ r.sh.val ∧ laneSat (f L) r.a = false)
      ∧ (∀ L, (f L).w = L.w ∧ laneAcc (f L) (!r.a) = laneAcc L (!r.a))))
  ∧ (∀ (s : State) (t : Fin 8) (p : Pred) (r : FmtR), issues s t 1 → r.fn.val = 0 →
    goesOnWith (exec (.ash t p r) s) (fun u => lanesBecome [.regs, .trav] s u t p (fun L =>
      putW L r.rd.val (satTo 10 r.sat (roundRnd r.rnd.val (laneAcc L r.a) (2 ^ r.sh.val))) (laneSat L r.a || laneAccInv L r.a))))
  ∧ (∀ (s : State) (t : Fin 8) (p : Pred) (r : FmtR), issues s t 1 → r.fn.val = 1 → evenReg r.rd = true →
    goesOnWith (exec (.ash t p r) s) (fun u => lanesBecome [.regs, .trav] s u t p (fun L =>
      putD L r.rd.val (satTo 20 r.sat (roundRnd r.rnd.val (laneAcc L r.a) (2 ^ r.sh.val))) (laneSat L r.a || laneAccInv L r.a))))
  ∧ (∀ (s : State) (t : Fin 8) (p : Pred) (r : FmtR), issues s t 1 → r.fn.val ≤ 3 →
    goesOnWith (exec (.atst t p r) s) (fun u => ∃ b : Lane → Bool, lanesBecome [.regs, .trav] s u t p (fun L => putP L r.rd.val (b L))
      ∧ (r.fn.val = 0 → ∀ L, b L = laneSat L r.a) ∧ (r.fn.val = 1 → ∀ L, b L = decide (laneAcc L r.a = 0))
      ∧ (r.fn.val = 2 → ∀ L, b L = decide (laneAcc L r.a < 0)) ∧ (r.fn.val = 3 → ∀ L, b L = L.aov)))
  ∧ (∀ (s : State) (t : Fin 8) (p : Pred) (r : FmtR), issues s t 1 → (vget s.trav t).gang = true → r.fn.val ≤ 1 →
    evenReg r.ra = true → evenReg r.rb = true →
    goesOnWith (exec (.gmac t p r) s) (fun u => ∃ f : Lane → Lane, lanesBecome [.regs, .trav] s u t p f
      ∧ (∀ L, r.fn.val = 0 → laneAcc (f L) r.a = signedOf 16 (laneD L r.ra.val) * signedOf 16 (laneD L r.rb.val))
      ∧ (∀ L, r.fn.val = 1 → laneSat L r.a = true → f L = L)
      ∧ (∀ L, (f L).w = L.w)))

/-- R236: the CORDIC and phase unit: magnitudes, phasors, levels, weights, quotients and searches. ROT is within one LSB of
the exact rotation and LNR within two of the exact logarithm, whatever the free values are; a logarithm with an operand
that is not positive pins the accumulator at 0. -/
def Obligations.LaneCordicUnit : Prop :=
  (∀ (s : State) (t : Fin 8) (p : Pred) (r : FmtR), issues s t 1 → r.fn.val = 0 → evenReg r.ra = true → evenReg r.rb = true →
    goesOnWith (exec (.atan t p r) s) (fun u => lanesBecome [.regs, .trav] s u t p (fun L =>
      putW L r.rd.val ((phaseTU 10 (laneDS L r.rb.val) (laneDS L r.ra.val) : Nat) : Int) (laneInvD L r.ra.val || laneInvD L r.rb.val))))
  ∧ (∀ (s : State) (t : Fin 8) (p : Pred) (r : FmtR), issues s t 1 → evenReg r.rd = true → evenReg r.ra = true → evenReg r.rb = true →
    goesOnWith (exec (.mag t p r) s) (fun u => ∃ v : Lane → Nat, lanesBecome [.regs, .trav] s u t p (fun L =>
        putD L r.rd.val (v L : Int) (laneInvD L r.ra.val || laneInvD L r.rb.val))
      ∧ ∀ L, v L < 2 ^ 20 ∧ ((v L : Int)) ^ 2 ≤ laneDS L r.ra.val ^ 2 + laneDS L r.rb.val ^ 2
        ∧ (v L < 2 ^ 20 - 1 → laneDS L r.ra.val ^ 2 + laneDS L r.rb.val ^ 2 < ((v L : Int) + 1) ^ 2)))
  ∧ (∀ (s : State) (t : Fin 8) (p : Pred) (r : FmtR), issues s t 1 → evenReg r.ra = true → evenReg r.rb = true →
    goesOnWith (exec (.mag2 t p r) s) (fun u => ∃ f : Lane → Lane, lanesBecome [.regs, .trav] s u t p f
      ∧ ∀ L, (laneDS L r.ra.val ^ 2 + laneDS L r.rb.val ^ 2 < 2 ^ 39 →
          laneAcc (f L) r.a = laneDS L r.ra.val ^ 2 + laneDS L r.rb.val ^ 2) ∧ (f L).w = L.w))
  ∧ (∀ (s : State) (t : Fin 8) (p : Pred) (r : FmtR), issues s t 1 → evenReg r.rd = true →
    goesOnWith (exec (.unit t p r) s) (fun u => lanesBecome [.regs, .trav] s u t p (fun L =>
      putW (putW L r.rd.val (unitPhasor (laneW L r.ra.val)).1 (laneInv L r.ra.val)) (r.rd.val + 1)
        (unitPhasor (laneW L r.ra.val)).2 (laneInv L r.ra.val))))
  ∧ (∀ (s : State) (t : Fin 8) (p : Pred) (r : FmtR), issues s t 1 → evenReg r.ra = true → evenReg r.rb = true →
    goesOnWith (exec (.rot t p r) s) (fun u => ∀ i : Fin 64, laneExecs s t p i.val (lane s t i) = true →
      ∃ a b : Int, ∃ tag : Bool, lane u t i = putD (putD (lane s t i) r.ra.val (satS 20 a) tag) r.rb.val (satS 20 b) tag
        ∧ (a * fxOne - (rotateFx (laneDS (lane s t i) r.ra.val) (laneDS (lane s t i) r.rb.val)
            (laneW (lane s t i) r.rd.val * (fxOne / 1024))).1).natAbs ≤ fxOne
        ∧ (b * fxOne - (rotateFx (laneDS (lane s t i) r.ra.val) (laneDS (lane s t i) r.rb.val)
            (laneW (lane s t i) r.rd.val * (fxOne / 1024))).2).natAbs ≤ fxOne))
  ∧ (∀ (s : State) (t : Fin 8) (p : Pred) (r : FmtR), issues s t 1 →
    goesOnWith (exec (.lnr t p r) s) (fun u => u.freeCtr = s.freeCtr + 1 ∧ ∀ i : Fin 64,
      (laneExecs s t p i.val (lane s t i) = false → lane u t i = lane s t i)
      ∧ (laneExecs s t p i.val (lane s t i) = true → ((lane s t i).acc0.toInt ≤ 0 ∨ (lane s t i).acc1.toInt ≤ 0) →
          laneAcc (lane u t i) r.a = 0 ∧ laneSat (lane u t i) r.a = true ∧ (lane u t i).aov = true)
      ∧ (laneExecs s t p i.val (lane s t i) = true → 0 < (lane s t i).acc0.toInt → (lane s t i).acc0 = (lane s t i).acc1 →
          (laneAcc (lane u t i) r.a).natAbs ≤ 2)))
  ∧ (∀ (s : State) (t : Fin 8) (p : Pred) (r : FmtR), issues s t 1 →
    goesOnWith (exec (.dbl t p r) s) (fun u => lanesBecome [.regs, .trav] s u t p (fun L =>
      putW L r.rd.val ((levelOf (laneAcc L r.a).toNat r.sh.val : Nat) : Int) (laneAccInv L r.a))))
  ∧ (∀ (s : State) (t : Fin 8) (p : Pred) (r : FmtR), issues s t 1 →
    goesOnWith (exec (.expw t p r) s) (fun u => lanesBecome [.regs, .trav] s u t p (fun L =>
      putW L r.rd.val ((weightOf (laneWS L r.ra.val) : Nat) : Int) (laneInv L r.ra.val))))
  ∧ (∀ (s : State) (t : Fin 8) (p : Pred) (r : FmtR), issues s t 21 → r.fn.val = 0 → evenReg r.rd = true →
    goesOnWith (exec (.div t p r) s) (fun u => ∃ v : Lane → Int, ∃ g : Lane → Bool,
      lanesBecome [.regs, .trav] s u t p (fun L => putD L r.rd.val (v L) (g L))
      ∧ (∀ L, L.acc1 = 0#40 → v L = if L.acc0.toInt < 0 then -(2 ^ 19) else 2 ^ 19 - 1)
      ∧ (∀ L, L.acc1.toInt ≠ 0 → r.rnd.val = 1 → v L = satTo 20 r.sat (Int.tdiv L.acc0.toInt L.acc1.toInt))))
  ∧ (∀ (s : State) (t : Fin 8) (p : Pred) (r : FmtR), issues s t 1 → r.fn.val ≤ 4 → evenReg r.rd = true → evenReg r.ra = true →
    goesOnWith (exec (.maxi t p r) s) (fun u => ∃ f : Lane → Lane, lanesBecome [.regs, .trav] s u t p f
      ∧ (∀ L, laneDS L r.ra.val ≤ laneDS L r.rd.val → f L = L)
      ∧ (∀ L, laneDS L r.rd.val < laneDS L r.ra.val → r.rb ≠ r.rd → r.rb.val ≠ r.rd.val + 1 →
          laneDS (f L) r.rd.val = laneDS L r.ra.val
          ∧ (r.fn.val = 0 → laneW (f L) r.rb.val = rcOf s t % 1024))))
  ∧ (∀ (s : State) (t : Fin 8) (p : Pred) (r : FmtR), issues s t 1 → r.fn.val ≤ 4 → evenReg r.rd = true → evenReg r.ra = true →
    goesOnWith (exec (.mini t p r) s) (fun u => ∃ f : Lane → Lane, lanesBecome [.regs, .trav] s u t p f
      ∧ (∀ L, laneDS L r.rd.val ≤ laneDS L r.ra.val → f L = L)
      ∧ (∀ L, laneDS L r.ra.val < laneDS L r.rd.val → r.rb ≠ r.rd → r.rb.val ≠ r.rd.val + 1 →
          laneDS (f L) r.rd.val = laneDS L r.ra.val)))

/-- R242, R245: the lanes' ports, outside kernels. The input port gives the next word or pair of every executing lane, which leave it;
with too few words nothing changes; DRAM words of a region go to the input port, or come from the registers; the
exchange buffer holds pairs; OUT emits samples in a kernel's order; XCH brings the neighbour's pair and sets p3, or zero
with p3 clear at the line's end. -/
def Obligations.LanePorts : Prop :=
  (∀ (s : State) (t : Fin 8) (p : Pred) (r : Fin 32), (vget s.trav t).kern = none → fifoReady s t p 1 = true →
    goesOnWith (exec (.portInput t p false r) s) (fun u => lanesBecome [.regs, .trav] s u t p (fun L =>
      { (putW L r.val ((wordsVal (L.inFifo.take 1) : Nat) : Int) false) with inFifo := L.inFifo.drop 1 })))
  ∧ (∀ (s : State) (t : Fin 8) (p : Pred) (r : Fin 32), (vget s.trav t).kern = none → evenReg r = true → fifoReady s t p 2 = true →
    goesOnWith (exec (.portInput t p true r) s) (fun u => lanesBecome [.regs, .trav] s u t p (fun L =>
      { (putD L r.val ((wordsVal (L.inFifo.take 2) : Nat) : Int) false) with inFifo := L.inFifo.drop 2 })))
  ∧ (∀ (s : State) (t : Fin 8) (p : Pred) (r : Fin 32), (vget s.trav t).kern = none → fifoReady s t p 1 = false →
    exec (.portInput t p false r) s = .next s)
  ∧ (∀ (s : State) (t : Fin 8) (p : Pred) (f : FmtP), (vget s.trav t).kern = none → evenReg f.ra = true →
    goesOnWith (exec (.portDramRead t p f) s) (fun u => lanesBecome [.regs, .trav] s u t p (fun L =>
      { L with inFifo := L.inFifo ++ (wordsOf (f.n.val + 1)
          (dramVal s ((travLine s t).getD 0) f.region.val (laneD L f.ra.val) (laneX L 0) (f.n.val + 1))) })))
  ∧ (∀ (s : State) (t : Fin 8) (p : Pred) (f : FmtP), (vget s.trav t).kern = none → evenReg f.ra = true →
    f.n.val + 1 + f.r.val ≤ 32 →
    goesOnWith (exec (.portDramWrite t p f) s) (fun u => lanesBecome [.regs, .trav, .dram] s u t p id
      ∧ (∀ k, (∀ (i : Fin 64) (j : Nat), laneExecs s t p i.val (lane s t i) = true → j ≤ f.n.val →
          k ≠ dramKey ((travLine s t).getD 0) f.region.val (laneD (lane s t i) f.ra.val) (laneX (lane s t i) 0) j) →
        tabGet 0 u.dram k = tabGet 0 s.dram k)))
  ∧ (∀ (s : State) (t : Fin 8) (p : Pred) (r ra : Fin 32), (vget s.trav t).kern = none → evenReg r = true → evenReg ra = true →
    goesOnWith (exec (.portXbufRead t p r ra) s) (fun u => lanesBecome [.regs, .trav] s u t p (fun L =>
      putD L r.val ((tabGet 0 s.xbuf (xbufKey ((travLine s t).getD 0) (vget s.trav t).blk (laneD L ra.val)) : Nat) : Int) false)))
  ∧ (∀ (s : State) (t : Fin 8) (p : Pred) (r ra : Fin 32), (vget s.trav t).kern = none → evenReg r = true → evenReg ra = true →
    goesOnWith (exec (.portXbufWrite t p r ra) s) (fun u => lanesBecome [.regs, .trav, .xbuf] s u t p id
      ∧ (∀ k, (∀ i : Fin 64, laneExecs s t p i.val (lane s t i) = true →
          k ≠ xbufKey ((travLine s t).getD 0) (vget s.trav t).blk (laneD (lane s t i) ra.val)) →
        tabGet 0 u.xbuf k = tabGet 0 s.xbuf k)))
  ∧ (∀ (s : State) (t : Fin 8) (p : Pred) (o : FmtO) (kr : KernRun), (vget s.trav t).kern = some kr → issues s t 1 →
    (vget s.trav t).rep = none → outLegal s t o = true →
    goesOnWith (exec (.out t p o) s) (fun u => ((vget u.trav t).kern.map (fun x => x.outs.length)) = some (kr.outs.length
        + ((List.finRange 64).filter (fun i => laneExecs s t p i.val (lane s t i))).length)
      ∧ (∀ i, lane u t i = lane s t i) ∧ changesOnly [.regs, .trav] s u))
  ∧ (∀ (s : State) (t : Fin 8) (p : Pred) (r : FmtR), (vget s.trav t).kern = none → r.fn.val ≤ 1 → evenReg r.rd = true →
    evenReg r.ra = true →
    goesOnWith (exec (.xch t p r) s) (fun u => ∀ i : Fin 64, laneExecs s t p i.val (lane s t i) = true →
      (neighbour s t i.val (r.fn.val = 1) = none → lane u t i = putP (putD (lane s t i) r.rd.val 0 false) 3 false)
      ∧ (0 < i.val → r.fn.val = 0 → ∀ j : Fin 64, j.val + 1 = i.val →
        lane u t i = putP (putD (lane s t i) r.rd.val (laneDS (lane s t j) r.ra.val) (laneInvD (lane s t j) r.ra.val)) 3 true)))

/-- R231, R233, R239, R244, R246: an instruction that the spec calls illegal. Outside kernels the spec gives it no effect and the
lane stops with the fault laneIllegal; in a kernel it is a kernel fault of cause 3, and one past the kernel's cycles one
of cause 2: TR_KFAULT shows cause and kernel, the kernel is suspended on the traverse and the next kernel of the hook, or the vendor
microcode, goes on. -/
def Obligations.LaneIllegal : Prop :=
  (∀ (s : State) (t : Fin 8) (p : Pred) (r : FmtR), (vget s.trav t).kern = none → (r.fn.val = 12 ∨ 14 ≤ r.fn.val) →
    exec (.alu t p r) s = .fault .laneIllegal)
  ∧ (∀ (s : State) (t : Fin 8) (p : Pred) (r : FmtR), (vget s.trav t).kern = none → (vget s.trav t).gang = true →
    exec (.mac t p r) s = .fault .laneIllegal)
  ∧ (∀ (s : State) (t : Fin 8) (p : Pred) (m : FmtM), (vget s.trav t).kern = none → m.inc.val = 7 →
    exec (.ld t p m) s = .fault .laneIllegal)
  ∧ (∀ (s : State) (t : Fin 8) (p : Pred) (i : FmtI), (vget s.trav t).kern = none → exec (.prm t p i) s = .fault .laneIllegal)
  ∧ (∀ (s : State) (t : Fin 8) (p : Pred) (r : FmtR) (kr : KernRun), (vget s.trav t).kern = some kr →
    (r.fn.val = 12 ∨ 14 ≤ r.fn.val) →
    goesOnWith (exec (.alu t p r) s) (fun u => getF u (trKfaultCause t.val) = 3 ∧ getF u (trKfaultKernel t.val) = kr.k % 16
      ∧ kr.k ∈ (vget u.trav t).susp))
  ∧ (∀ (s : State) (t : Fin 8) (kr : KernRun) (k : KernCfg), (vget s.trav t).kern = some kr → kernAt s kr.k = some k →
    kr.rest = [] → k.maxCycles ≤ kr.cyc →
    goesOnWith (exec (.nop t) s) (fun u => getF u (trKfaultCause t.val) = 2 ∧ (vget u.trav t).kern = none
      ∧ (vget u.trav t).stIdx = (vget s.trav t).stIdx + 1 ∧ kr.k ∈ (vget u.trav t).susp))
  ∧ (∀ (s : State) (t : Fin 8) (n : Fin 64) (kr : KernRun), (vget s.trav t).kern = some kr →
    goesOnWith (exec (.wait t n) s) (fun u => getF u (trKfaultCause t.val) = 3 ∧ kr.k ∈ (vget u.trav t).susp))

/-- R247, R249, R258, R267, R272, R273, R276: streams. An input of a stream that is not shed and newer than the last moves the grid on;
a synchronisation pulse or ST_CMD.SYNC waits with the others, up to four, and a fifth is only logged; a STREAM reset
gives sequence numbers and counters of 0; a swap asked for waits for its fence; a coefficient goes to an idle bank, else
counts as ST_BANK_BUSY; a detector's new second starts new counts. -/
def Obligations.Streams : Prop :=
  (∀ (s : State) (n : Fin 256) (c : StreamCfg) (l : Fin 2) (stamp : Nat), streamAt s n.val = some c → l.val = c.line →
    streamShed s c = false → inStandby s = false → (strm s n.val).lastIn = none →
    goesOnWith (exec (.streamInput n stamp) s) (fun t => (strm t n.val).expect = some (stamp + gridGap s c l stamp)
      ∧ (strm t n.val).gridEra = (vget s.probe l).era ∧ changesOnly [.regs, .net, .zn, .streams, .code] s t))
  ∧ (∀ (s : State) (n : Fin 256) (c : StreamCfg), streamAt s n.val = some c → streamShed s c = true →
    ∀ stamp, exec (.streamInput n stamp) s = .next s)
  ∧ (∀ (s : State) (n : Fin 256) (d : Fin 4) (c : StreamCfg), streamAt s n.val = some c →
    (vget (strm s c.n).det d).sec < stampNow s / secU →
    goesOnWith (exec (.detectorSummary n d) s) (fun t => (vget (strm t c.n).det d).sec = stampNow s / secU
      ∧ (vget (strm t c.n).det d).sent = 0 ∧ (vget (strm t c.n).det d).supp = 0
      ∧ changesOnly [.regs, .net, .streams, .code] s t))
  ∧ (∀ (s : State) (n : Fin 256) (c : StreamCfg), streamAt s n.val = some c → (strm s n.val).syncs.length < 4 →
    (strm s n.val).lastIn = none →
    goesOnWith (exec (.stCmdSync n) s) (fun t => (strm t n.val).syncs.length = (strm s n.val).syncs.length + 1
      ∧ (stampNow s + 50 * usU, false) ∈ (strm t n.val).syncs ∧ changesOnly [.streams] s t))
  ∧ (∀ (s : State) (n : Fin 256) (c : StreamCfg), streamAt s n.val = some c → 4 ≤ (strm s n.val).syncs.length →
    goesOnWith (exec (.stCmdSync n) s) (fun t => t.streams = s.streams ∧ changesOnly [.regs, .log] s t))
  ∧ (∀ (s : State) (c : StreamCfg), (allStreams s).filter (fun x => x.syncPin) = [c] → streamAt s c.n = some c →
    (strm s c.n).syncs.length < 4 → (strm s c.n).lastIn = none →
    goesOnWith (exec .syncNEdge s) (fun t => (strm t c.n).syncs.length = (strm s c.n).syncs.length + 1
      ∧ (stampNow s, false) ∈ (strm t c.n).syncs ∧ changesOnly [.streams] s t))
  ∧ (∀ (s : State) (n : Fin 256) (c : StreamCfg), streamAt s n.val = some c →
    goesOnWith (exec (.streamReset n) s) (fun t => (strm t n.val).seq = 0 ∧ (strm t n.val).evSeq = 0
      ∧ getF t (stDropCount n.val) = 0 ∧ getF t (stFilledCount n.val) = 0 ∧ getF t (stSatCount n.val) = 0
      ∧ getF t (stBankBusyCount n.val) = 0 ∧ getF t (stSyncsLate n.val) = 0))
  ∧ (∀ (s : State) (n : Fin 256) (c : StreamCfg), streamAt s n.val = some c → c.t ≠ 0 →
    goesOnWith (exec (.swapRequest n) s) (fun t => getF t (stSwapReq n.val) = 1
      ∧ t.fu.held.length = s.fu.held.length + 1 ∧ (strm t n.val).bank = (strm s n.val).bank ∧ changesOnly [.regs, .fu] s t))
  ∧ (∀ (s : State) (n : Fin 256) (v : BitVec 20) (c : StreamCfg), streamAt s n.val = some c →
    getF s (stCoefSelIndex n.val) < c.t → bankIdle (strm s n.val) (getF s (stCoefSelBank n.val)) = true →
    goesOnWith (exec (.coefWrite n v) s) (fun t =>
      tabGet 0 (strm t n.val).coef (getF s (stCoefSelBank n.val) * 256 + getF s (stCoefSelIndex n.val)) = v.toNat
      ∧ (strm t n.val).bank = (strm s n.val).bank ∧ changesOnly [.streams] s t))
  ∧ (∀ (s : State) (n : Fin 256) (v : BitVec 20) (c : StreamCfg), streamAt s n.val = some c →
    getF s (stCoefSelIndex n.val) < c.t → bankIdle (strm s n.val) (getF s (stCoefSelBank n.val)) = false →
    goesOnWith (exec (.coefWrite n v) s) (fun t =>
      getF t (stBankBusyCount n.val) = min (getF s (stBankBusyCount n.val) + 1) 1048575 ∧ changesOnly [.regs] s t))

/-- R277, R289 to R295: coding and replay. The coder takes its oldest frame; a frame without ring admission leaves C2 as it is. An
entry that fits is written at the writer's position with the next serial and leaves C2; a stream that lost frames gets
its GAP entry after one second. A cursor starts, stops and seeks: a seek in progress shows SEEKING, and ends at BC_OLDEST,
at BC_WRITE or at a serial between them; a reading cursor whose link does not carry its frames waits, one that follows
sends the next admitted entry on its link, and one that has read all shows TAIL. -/
def Obligations.CodingAndReplay : Prop :=
  (∀ (s : State) (j : CodeJob) (rest : List CodeJob), s.code.jobs = j :: rest → j.ring = false →
    goesOnWith (exec .codeFrame s) (fun t => t.code.jobs = rest ∧ t.code.c2 = s.code.c2 ∧ t.code.ring = s.code.ring
      ∧ changesOnly [.regs, .net, .code] s t))
  ∧ (∀ (s : State) (j : CodeJob) (rest : List CodeJob), s.code.jobs = j :: rest → j.ring = true →
    goesOnWith (exec .codeFrame s) (fun t => t.code.jobs = rest ∧ t.code.ring = s.code.ring ∧ t.code.write = s.code.write
      ∧ changesOnly [.regs, .net, .code] s t))
  ∧ (∀ (s : State) (e : RingEntry) (rest : List RingEntry), s.code.c2 = e :: rest → dramStopped s = false → ringOn s = true →
    s.code.pos + e.len ≤ s.code.u * 32768 →
    goesOnWith (exec .ringWrite s) (fun t => t.code.c2 = rest ∧ t.code.write = (s.code.write + 1) % 2 ^ 30
      ∧ t.code.pos = s.code.pos + e.len ∧ t.code.ring.getLast? = some { e with serial := s.code.write, at_ := s.code.pos }
      ∧ changesOnly [.regs, .code] s t))
  ∧ (∀ (s : State) (n : Fin 256) (g : GapSt), tabFind s.code.gaps n.val = some g → g.at_ + secU ≤ elapsed s → c2Room s 1 = true →
    goesOnWith (exec (.ringGapTimeout n) s) (fun t => t.code.c2.length = s.code.c2.length + 1
      ∧ (t.code.c2.getLast?.map (fun e => (e.ty, e.len, e.stamp))) = some (2, 1, g.stamp)
      ∧ tabFind t.code.gaps n.val = none ∧ changesOnly [.code] s t))
  ∧ (∀ (s : State) (c : Fin 16), ringOn s = true → (vget s.code.cur c).seek = none →
    goesOnWith (exec (.cursorStart c) s) (fun t => (vget t.code.cur c).run = true ∧ getF t (bcCurStatusEnd c.val) = 0
      ∧ (vget t.code.cur c).pos = (vget s.code.cur c).pos
      ∧ (vget t.code.cur c).last = (s.code.write + 2 ^ 30 - 1) % 2 ^ 30 ∧ changesOnly [.regs, .code] s t))
  ∧ (∀ (s : State) (c : Fin 16), (vget s.code.cur c).seek = none →
    goesOnWith (exec (.cursorStop c) s) (fun t => (vget t.code.cur c).run = false ∧ (vget t.code.cur c).st = .stopped
      ∧ (vget t.code.cur c).pos = (vget s.code.cur c).pos ∧ changesOnly [.code] s t))
  ∧ (∀ (s : State) (c : Fin 16), ringOn s = true →
    goesOnWith (exec (.seekOldest c) s) (fun t => (vget t.code.cur c).seek = some (1, 0) ∧ (vget t.code.cur c).st = .seeking
      ∧ changesOnly [.code] s t))
  ∧ (∀ (s : State) (c : Fin 16), ringOn s = true →
    goesOnWith (exec (.seekNewest c) s) (fun t => (vget t.code.cur c).seek = some (2, 0) ∧ (vget t.code.cur c).st = .seeking
      ∧ changesOnly [.code] s t))
  ∧ (∀ (s : State) (c : Fin 16), ringOn s = true →
    goesOnWith (exec (.seekSerial c) s) (fun t => (vget t.code.cur c).st = .seeking
      ∧ (vget t.code.cur c).seek = some (3, getF s (bcCurSeekLoSerial c.val) + 2 ^ 20 * getF s (bcCurSeekHiSerial c.val))
      ∧ changesOnly [.code] s t))
  ∧ (∀ (s : State) (c : Fin 16) (k v : Nat), (vget s.code.cur c).seek = some (k, v) → dramStopped s = false →
    goesOnWith (exec (.seekDone c) s) (fun t => (vget t.code.cur c).seek = none
      ∧ (k = 1 → (vget t.code.cur c).pos = s.code.oldest) ∧ (k = 2 → (vget t.code.cur c).pos = s.code.write)
      ∧ (k = 3 → serialBefore v s.code.oldest = true → (vget t.code.cur c).pos = s.code.oldest ∧ (vget t.code.cur c).moved = true)
      ∧ (k = 3 → serialBefore v s.code.oldest = false → serialBefore s.code.write v = false → (vget t.code.cur c).pos = v)
      ∧ changesOnly [.regs, .code] s t))
  ∧ (∀ (s : State) (c : Fin 16), (vget s.code.cur c).run = true → (vget s.code.cur c).seek = none → dramStopped s = false →
    ringOn s = true → (vget s.code.cur c).next ≤ elapsed s → curLinkOk s c = false →
    goesOnWith (exec (.cursorRead c) s) (fun t => (vget t.code.cur c).st = .waiting
      ∧ (vget t.code.cur c).pos = (vget s.code.cur c).pos ∧ changesOnly [.code] s t))
  ∧ (∀ (s : State) (c : Fin 16), (vget s.code.cur c).run = true → (vget s.code.cur c).seek = none → dramStopped s = false →
    ringOn s = true → (vget s.code.cur c).next ≤ elapsed s → curLinkOk s c = true →
    getF s (bcCurCtrlMode c.val) = 1 → s.code.ring = [] →
    goesOnWith (exec (.cursorRead c) s) (fun t => (vget t.code.cur c).st = .tail ∧ (vget t.code.cur c).pos = s.code.write
      ∧ changesOnly [.code] s t))
  ∧ (∀ (s : State) (c : Fin 16) (e : RingEntry) (rest : List RingEntry), (vget s.code.cur c).run = true → (vget s.code.cur c).seek = none → dramStopped s = false →
    ringOn s = true → (vget s.code.cur c).next ≤ elapsed s → curLinkOk s c = true →
    getF s (bcCurCtrlMode c.val) = 1 →
    s.code.ring.filter (fun e => !(serialBefore e.serial (vget s.code.cur c).pos) && curAdmits s c e) = e :: rest →
    (e.ty = 2 ∨ linkHas s (curLink s c) 0 = true) →
    outFill (vget s.net.links (curLink s c)) + frameBytes (replayFrame s c e) ≤ 4194304 - 65536 →
    goesOnWith (exec (.cursorRead c) s) (fun t => (vget t.code.cur c).pos = (e.serial + 1) % 2 ^ 30
      ∧ (vget t.code.cur c).st = .running ∧ (vget t.code.cur c).moved = false
      ∧ (vget t.net.links (curLink s c)).bulk = (vget s.net.links (curLink s c)).bulk ++ [replayFrame s c e]
      ∧ t.code.ring = s.code.ring ∧ changesOnly [.net, .code] s t))

/-- R303 to R308: zones and the zone query port. A zone's update reaches the port's table at once while ZQ_CS_N is high; while it
is low and no update has been forced the table holds and the update waits; the rising edge, or 1 µs of low level, lets the waiting updates in,
the latter counted in ZN_FORCED. A stale time-out sets the STALE cause, ZN_ACK asks a latching zone to unlatch, an
ALARM pin that is no longer wanted is released when its stretch is over. -/
def Obligations.Zones : Prop :=
  (∀ (s : State) (z : Fin 4096), (zoneCfg s z.val).isSome = true → s.zn.selected = false →
    goesOnWith (exec (.zonePortUpdate z) s) (fun t => tabGet 4 t.zn.port z.val = zoneNib (zoneAt s z.val)
      ∧ t.zn.zones = s.zn.zones ∧ t.zn.held = s.zn.held ∧ changesOnly [.zn] s t))
  ∧ (∀ (s : State) (z : Fin 4096), (zoneCfg s z.val).isSome = true → s.zn.selected = true → s.zn.forcing = false →
    goesOnWith (exec (.zonePortUpdate z) s) (fun t => t.zn.port = s.zn.port
      ∧ (z.val, zoneNib (zoneAt s z.val)) ∈ t.zn.held ∧ changesOnly [.zn] s t))
  ∧ (∀ (s : State) (z : Fin 4096), (zoneCfg s z.val).isSome = true → s.zn.selected = true → s.zn.forcing = true →
    goesOnWith (exec (.zonePortUpdate z) s) (fun t => tabGet 4 t.zn.port z.val = zoneNib (zoneAt s z.val)
      ∧ getF t znForcedCount = min (getF s znForcedCount + 1) 1048575 ∧ changesOnly [.regs, .zn] s t))
  ∧ (∀ (s : State) (a : Fin 4096), goesOnWith (exec (.zqSelect a) s) (fun t => t.zn.selected = true ∧ t.zn.addr = a.val
      ∧ t.zn.port = s.zn.port ∧ changesOnly [.zn] s t))
  ∧ (∀ (s : State) (a : Fin 4096), goesOnWith (exec (.zqAddressChange a) s) (fun t => t.zn.addr = a.val
      ∧ t.zn.port = s.zn.port ∧ t.zn.selected = s.zn.selected ∧ changesOnly [.zn] s t))
  ∧ (∀ s : State, goesOnWith (exec .zqDeselect s) (fun t => t.zn.selected = false ∧ t.zn.held = []
      ∧ t.zn.zones = s.zn.zones ∧ (s.zn.held = [] → t.zn.port = s.zn.port) ∧ changesOnly [.zn] s t))
  ∧ (∀ s : State, s.zn.selected = true → s.zn.forcing = false →
    goesOnWith (exec .zqForceTimeout s) (fun t => t.zn.forcing = true ∧ t.zn.held = []
      ∧ getF t znForcedCount = min (getF s znForcedCount + s.zn.held.length) 1048575 ∧ changesOnly [.regs, .zn] s t))
  ∧ (∀ (s : State) (n : Fin 4), vget s.zn.pins n = true → pinWanted s n.val = false →
    vget s.zn.pinAt n + pinStretch s n.val * msU ≤ elapsed s →
    goesOnWith (exec (.alarmStretchExpiry n) s) (fun t => vget t.zn.pins n = false
      ∧ (∀ m, m ≠ n → vget t.zn.pins m = vget s.zn.pins m) ∧ changesOnly [.zn] s t))
  ∧ (∀ (s : State) (z : Fin 4096) (c : ZoneCfg), zoneCfg s z.val = some c →
    (zoneAt s z.val).lastEval + c.staleMs * msU ≤ elapsed s →
    goesOnWith (exec (.zoneStaleTimeout z) s) (fun t => bitOf (zoneAt t z.val).stale 0 = true
      ∧ changesOnly [.regs, .net, .zn] s t))
  ∧ (∀ (s : State) (c : ZoneCfg), zoneCfg s (getF s znSelZone) = some c → c.latch = true →
    goesOnWith (exec .znAck s) (fun t => (zoneAt t (getF s znSelZone)).unlatch = true
      ∧ (zoneAt t (getF s znSelZone)).level = (zoneAt s (getF s znSelZone)).level ∧ changesOnly [.zn] s t))
  ∧ (∀ (s : State) (l : Fin 2), s.keeper.mbx = [] → keeperRuns s = true → lineSensing s l.val = false →
    goesOnWith (exec (.mbxStaleClear l) s) (fun t => getF t bmMbxLastCode = 10 ∧ getF t bmMbxLastStatus = 2
      ∧ t.zn = s.zn ∧ changesOnly [.regs, .keeper, .freeCtr] s t))
  ∧ (∀ (s : State) (l : Fin 2), s.keeper.mbx = [] → keeperRuns s = true → lineSensing s l.val = true → (vget s.zn.shotSince l).isSome = true →
    ((zoneSlices s l.val).all (fun t => (vget s.zn.evalSince l).contains t)) = true →
    goesOnWith (exec (.mbxStaleClear l) s) (fun t => getF t bmMbxLastCode = 10 ∧ getF t bmMbxLastStatus = 0))

/-- R43, R310, R311, R312: the loop outputs. A zone cause that has persisted drives the loop to its fault current with cause 1; Benchmark
releases a loop in fault whose causes have all cleared, by LOOP_RELEASE, by the loop's own release time or by a host's command
for a manual loop, and refuses it while a cause holds; an open or deviating loop is flagged and logged until the
condition has cleared. -/
def Obligations.Loops : Prop :=
  (∀ (s : State) (n : Fin 8) (at_ : Nat), (vget s.zn.loops n).since = some at_ →
    at_ + (loopCfg s n.val).faultMs * msU ≤ elapsed s → (vget s.zn.loops n).st ≠ .fault →
    goesOnWith (exec (.loopFaultTimer n) s) (fun t => (vget t.zn.loops n).st = .fault ∧ (vget t.zn.loops n).cause = 1
      ∧ ((vget t.zn.loops n).code = 144000 ∨ (vget t.zn.loops n).code = 840000)
      ∧ (∀ k, k ≠ n → vget t.zn.loops k = vget s.zn.loops k) ∧ changesOnly [.zn] s t))
  ∧ (∀ (s : State) (n : Fin 8), s.keeper.mbx = [] → keeperRuns s = true → loopCauses s n ≠ 0 →
    goesOnWith (exec (.mbxLoopRelease n) s) (fun t => getF t bmMbxLastCode = 9 ∧ getF t bmMbxLastStatus = 2 ∧ t.zn = s.zn
      ∧ changesOnly [.regs, .keeper, .freeCtr] s t))
  ∧ (∀ (s : State) (n : Fin 8), s.keeper.mbx = [] → keeperRuns s = true → loopCauses s n = 0 → (vget s.zn.loops n).st = .fault →
    goesOnWith (exec (.mbxLoopRelease n) s) (fun t => getF t bmMbxLastCode = 9 ∧ getF t bmMbxLastStatus = 0
      ∧ (vget t.zn.loops n).st ≠ .fault ∧ (vget t.zn.loops n).cause = 0
      ∧ (∀ k, k ≠ n → vget t.zn.loops k = vget s.zn.loops k) ∧ changesOnly [.regs, .keeper, .zn] s t))
  ∧ (∀ (s : State) (n : Fin 8) (at_ : Nat), (loopCfg s n.val).manual = false → (vget s.zn.loops n).clearAt = some at_ →
    at_ + (loopCfg s n.val).releaseMs * msU ≤ elapsed s → loopCauses s n = 0 → (vget s.zn.loops n).st = .fault →
    goesOnWith (exec (.loopReleaseTimer n) s) (fun t => (vget t.zn.loops n).st ≠ .fault ∧ (vget t.zn.loops n).cause = 0
      ∧ getF t bmMbxLastStatus = 0))
  ∧ (∀ (s : State) (n : Fin 8), (loopCfg s n.val).manual = true → loopCauses s n = 0 → (vget s.zn.loops n).st = .fault →
    goesOnWith (exec (.loopReleaseCmd n) s) (fun t => (vget t.zn.loops n).st ≠ .fault ∧ (vget t.zn.loops n).cause = 0
      ∧ getF t bmMbxLastStatus = 0))
  ∧ (∀ (s : State) (n : Fin 8), (loopCfg s n.val).manual = false → exec (.loopReleaseCmd n) s = .next s)
  ∧ (∀ (s : State) (n : Fin 8), goesOnWith (exec (.loopOpen n) s) (fun t => getF t (hkLoopStatusOpen n.val) = 1
      ∧ t.log.entries ≠ [] ∧ changesOnly [.regs, .log] s t))
  ∧ (∀ (s : State) (n : Fin 8), getF s (hkLoopStatusOpen n.val) = 0 →
    goesOnWith (exec (.loopDeviation n) s) (fun t => getF t (hkLoopStatusDeviating n.val) = 1 ∧ t.log.entries ≠ []
      ∧ changesOnly [.regs, .log] s t))
  ∧ (∀ (s : State) (n : Fin 8) (b : Bool), goesOnWith (exec (.loopConditionClear n b) s) (fun t =>
      getF t (if b then hkLoopStatusOpen n.val else hkLoopStatusDeviating n.val) = 0
      ∧ (∀ a, a ≠ (hkLoopStatusOpen n.val).addr → regGet t a = regGet s a) ∧ changesOnly [.regs] s t))

/-- R319, R321, R322, R324, R325, R329, R330: housekeeping. An over-range on M0's RTD discards the conversion and lowers the gain to 1; an orientation A of a
three-wire RTD is kept for orientation B; channel 4's reading is delivered. M1 takes the frame's conversions in order,
then urgent ones; at most four wait and one more is counted as dropped; a conversion that ends is delivered and the next is taken. M1
leaves the external reference outside its window. A burn-out pulse that finds a ball open sets OPEN with its LEADS;
64 clean pulses end it. -/
def Obligations.Housekeeping : Prop :=
  (∀ (s : State) (n : Fin 4) (d : Int), s.hk.m0 = n.val → rtdOn s n.val = true → (vget s.hk.rtd n).open_ = false →
    8388607 ≤ d.natAbs →
    goesOnWith (exec (.m0ConversionEnd d) s) (fun t => (vget t.hk.rtd n).gain = 0
      ∧ (vget t.hk.vals ⟨n.val, by omega⟩).over_ = true ∧ getF t hkDiscardCount = min (getF s hkDiscardCount + 1) 1048575
      ∧ changesOnly [.regs, .hk] s t))
  ∧ (∀ (s : State) (n : Fin 4) (d : Int), s.hk.m0 = n.val → rtdOn s n.val = true → (vget s.hk.rtd n).open_ = false →
    d.natAbs < 8388607 → rtdThree s n.val = true → s.hk.orientB = false →
    goesOnWith (exec (.m0ConversionEnd d) s) (fun t => t.hk.orientB = true ∧ t.hk.rA = rtdOhms s n.val (vget s.hk.rtd n).gain d
      ∧ t.hk.m0 = n.val ∧ t.hk.vals = s.hk.vals ∧ changesOnly [.hk] s t))
  ∧ (∀ (s : State) (d : Int), s.hk.m0 = 4 → d.natAbs < 8388607 →
    goesOnWith (exec (.m0ConversionEnd d) s) (fun t => (vget t.hk.vals 4).value = Config.hkRefValue d s.hk.refGain
      ∧ (vget t.hk.vals 4).valid = true ∧ (vget t.hk.vals 4).at_ = elapsed s ∧ t.hk.refAt = elapsed s
      ∧ changesOnly [.regs, .hk] s t))
  ∧ (∀ s : State, s.hk.m1Busy = false → goesOnWith (exec .m1FrameStart s) (fun t => t.hk.m1Busy = true
      ∧ t.hk.nextDie = (s.hk.nextDie + diePerFrame s) % 18 ∧ t.hk.m1Ch :: t.hk.frame = frameList s ∧ changesOnly [.hk] s t))
  ∧ (∀ s : State, s.hk.m1Busy = true → goesOnWith (exec .m1FrameStart s) (fun t => t.hk.m1Ch = s.hk.m1Ch
      ∧ t.hk.frame = frameList s ∧ changesOnly [.hk] s t))
  ∧ (∀ (s : State) (ch : Fin 32) (v : Int) (o : Bool), s.hk.m1Busy = true → s.hk.m1Ch = ch.val → 5 ≤ ch.val → ch.val < 13 →
    goesOnWith (exec (.m1ConversionEnd ch v o) s) (fun t => (vget t.hk.vals ch).value = v ∧ (vget t.hk.vals ch).valid = true
      ∧ (vget t.hk.vals ch).at_ = elapsed s ∧ (vget t.hk.vals ch).over_ = o ∧ (s.hk.frame = [] → s.hk.urgent = [] → t.hk.m1Busy = false)
      ∧ changesOnly [.hk, .zn] s t))
  ∧ (∀ (s : State) (ch : Fin 32), 5 ≤ ch.val → s.hk.m1Busy = true → s.hk.urgent.length < 4 → ch.val ∉ s.hk.urgent →
    goesOnWith (exec (.urgentRequest ch) s) (fun t => t.hk.urgent = s.hk.urgent ++ [ch.val] ∧ changesOnly [.hk] s t))
  ∧ (∀ (s : State) (ch : Fin 32), 5 ≤ ch.val → (4 ≤ s.hk.urgent.length ∨ ch.val ∈ s.hk.urgent) →
    goesOnWith (exec (.urgentRequest ch) s) (fun t => getF t hkUrgentDropCount = min (getF s hkUrgentDropCount + 1) 1048575
      ∧ changesOnly [.regs] s t))
  ∧ (∀ (s : State) (c : Nat), s.time.freqRef ≠ 3 → goesOnWith (exec (.notchLengthUpdate c) s) (fun t => t.hk.notch = c
      ∧ t.hk.notchFree = false ∧ changesOnly [.hk] s t))
  ∧ (∀ (s : State) (c : Nat), s.time.freqRef = 3 → goesOnWith (exec (.notchLengthUpdate c) s) (fun t => t.hk.notch = s.hk.notch
      ∧ t.hk.notchFree = true ∧ changesOnly [.hk] s t))
  ∧ (∀ s : State, s.hk.m1Ext = true → goesOnWith (exec .hkRefWindowExit s) (fun t => t.hk.m1Ext = false ∧ t.hk.extIn = false
      ∧ getF t hkStatusRefFallback = 1 ∧ changesOnly [.regs, .log, .hk] s t))
  ∧ (∀ s : State, goesOnWith (exec .hkRefRestore s) (fun t => t.hk.extIn = true ∧ t.hk.m1Ext = hkExt s ∧ changesOnly [.hk] s t))
  ∧ (∀ (s : State) (n : Fin 4), rtdOn s n.val = true → goesOnWith (exec (.burnoutPulse n 0) s) (fun t =>
      (vget t.hk.rtd n).clean = min 64 ((vget s.hk.rtd n).clean + 1) ∧ (vget t.hk.rtd n).open_ = (vget s.hk.rtd n).open_
      ∧ changesOnly [.hk] s t))
  ∧ (∀ (s : State) (n : Fin 4) (b : BitVec 4), rtdOn s n.val = true → b ≠ 0 → (vget s.hk.rtd n).open_ = false →
    goesOnWith (exec (.burnoutPulse n b) s) (fun t => (vget t.hk.rtd n).open_ = true ∧ (vget t.hk.rtd n).leads = b
      ∧ (vget t.hk.rtd n).clean = 0 ∧ getF t (hkRtdStatusOpenSeen n.val) = 1
      ∧ changesOnly [.regs, .log, .sense, .hk, .zn] s t))
  ∧ (∀ (s : State) (n : Fin 4), (vget s.hk.rtd n).open_ = true → 64 ≤ (vget s.hk.rtd n).clean →
    goesOnWith (exec (.rtdOpenClear n) s) (fun t => (vget t.hk.rtd n).open_ = false ∧ (vget t.hk.rtd n).leads = 0
      ∧ changesOnly [.hk, .zn] s t))

/-- R338, R339, R341, R342, R343, R344, R345, R346, R347: time. A measurement within STEP_NS ends holdover and moves the integral term, and a larger one
steps device time by its negative; a host's TIME_SET steps device time to its time plus HOST_DELAY, as stamped within
1 µs of the arrival, when the source and the permissions allow it, and changes no time otherwise; TIME_TRACK is a measurement; a PPS label
waits for the next edge; without messages for HOST_HOLD the rate falls back to the integral term; a TIME_ADJUST whose time
has come steps by its amount; a snapshot holds the 110 bits of device time; PPS_OUT pulses once for each second; the reference is always the best one that
is usable. -/
def Obligations.DeviceTime : Prop :=
  (∀ (s : State) (e : Int) (tm : Nat), (timeCfg s).source ≠ 0 → e.natAbs ≤ (timeCfg s).stepNs * nsU →
    goesOnWith (exec (.disciplineMeasurement e tm) s) (fun t => t.time.holdover = false ∧ t.now = s.now
      ∧ t.time.good = (if e.natAbs ≤ 100 * nsU then min 8 (s.time.good + 1) else 0)
      ∧ t.time.yInt = s.time.yInt - mkRat e secU * mkRat tm 1000 / (((max (timeCfg s).tau 1 : Nat) : Rat) * ((max (timeCfg s).tau 1 : Nat) : Rat))
      ∧ changesOnly [.regs, .time] s t))
  ∧ (∀ (s : State) (e : Int) (tm : Nat), (timeCfg s).source ≠ 0 → (timeCfg s).stepNs * nsU < e.natAbs →
    goesOnWith (exec (.disciplineMeasurement e tm) s) (fun t => t.now = (min (timeTop : Int) (max 0 ((s.now : Int) - e * 1024))).toNat
      ∧ t.time.yInt = s.time.yInt ∧ t.time.holdover = false ∧ getF t tmStatusStepped = 1
      ∧ changesOnly [.regs, .log, .probe, .time, .now] s t))
  ∧ (∀ (s : State) (e : Int) (tm : Nat), (timeCfg s).source = 0 → exec (.disciplineMeasurement e tm) s = .next s)
  ∧ (∀ (s : State) (src tag seq x : Nat), s.keeper.warm = false → permits s 9 = true →
    ((timeCfg s).source = 0 ∨ (timeCfg s).source = 1) →
    goesOnWith (exec (.timeSet src tag seq x) s) (fun t => ∃ ta : Nat, stampNow s ≤ ta + usU ∧ ta ≤ stampNow s + usU
      ∧ t.now = (min (timeTop : Int) (max 0 ((s.now : Int) + ((x + (timeCfg s).hostDelay * nsU : Nat) - (ta : Int)) * 1024))).toNat
      ∧ getF t tmStatusStepped = 1))
  ∧ (∀ (s : State) (src tag seq x : Nat), (timeCfg s).source = 2 →
    goesOnWith (exec (.timeSet src tag seq x) s) (fun t => t.now = s.now ∧ t.time = s.time
      ∧ changesOnly [.regs, .net, .freeCtr] s t))
  ∧ (∀ (s : State) (src tag seq x : Nat), s.keeper.warm = false → permits s 9 = true → (timeCfg s).source = 1 →
    goesOnWith (exec (.timeTrack src tag seq x) s) (fun t => t.time.holdover = false ∧ t.time.lastTrack.isSome = true
      ∧ t.freeCtr = s.freeCtr + 1))
  ∧ (∀ (s : State) (src tag seq x : Nat), (timeCfg s).source ≠ 1 →
    goesOnWith (exec (.timeTrack src tag seq x) s) (fun t => t.now = s.now ∧ t.time = s.time
      ∧ changesOnly [.regs, .net, .freeCtr] s t))
  ∧ (∀ (s : State) (src tag seq x : Nat), s.keeper.warm = false → permits s 9 = true → (timeCfg s).source = 2 →
    goesOnWith (exec (.timePpsLabel src tag seq x) s) (fun t => t.time.label = some x ∧ t.now = s.now
      ∧ changesOnly [.regs, .net, .time, .freeCtr] s t))
  ∧ (∀ s : State, (timeCfg s).source = 1 → s.time.trackAt + (timeCfg s).hostHold * secU ≤ elapsed s →
    s.time.holdover = false →
    goesOnWith (exec .hostHoldover s) (fun t => t.time.holdover = true ∧ t.time.y = s.time.yInt ∧ t.time.good = 0
      ∧ changesOnly [.regs, .time] s t))
  ∧ (∀ s : State, s.time.ppsPresent = true → (∀ p, s.time.ppsPrev = some p → p + 11 * secU / 10 ≤ stampNow s) →
    goesOnWith (exec .ppsLoss s) (fun t => t.time.ppsPresent = false ∧ t.time.ppsRun = 0 ∧ t.time.ppsPrev = none
      ∧ ((timeCfg s).source = 2 → t.time.holdover = true) ∧ changesOnly [.regs, .time] s t))
  ∧ (∀ (s : State) (q f : Nat), s.time.freqRef ≠ 3 → s.time.ppsPrev = none →
    goesOnWith (exec (.ppsEdge q f) s) (fun t => t.time.ppsPrev = some (edgeStamp s 8 q f) ∧ t.time.ppsRun = 0
      ∧ t.now = s.now))
  ∧ (∀ (s : State) (ta : Nat) (d : Int), s.time.adjusts = [(ta, d)] → ta ≤ stampNow s →
    goesOnWith (exec .timeAdjust s) (fun t => t.time.adjusts = [] ∧ t.now = (min (timeTop : Int) (max 0 ((s.now : Int) + d * 1024))).toNat
      ∧ getF t tmStatusStepped = 1 ∧ changesOnly [.regs, .log, .probe, .time, .now] s t))
  ∧ (∀ s : State, goesOnWith (exec (.timeSnapshot 0) s) (fun t =>
      (∀ k, k < 5 → getF t (tmSnapTime k) = time110 (stampNow s) / 2 ^ (20 * k) % 2 ^ 20)
      ∧ t.time = s.time ∧ changesOnly [.regs, .freeCtr] s t))
  ∧ (∀ (s : State) (src : Fin 4), goesOnWith (exec (.timeSnapshot src) s) (fun t => t.now = s.now
      ∧ changesOnly [.regs, .freeCtr] s t))
  ∧ (∀ s : State, s.time.ppsDone < (stampNow s - (timeCfg s).outOffset * nsU) / secU →
    goesOnWith (exec .ppsOutPulse s) (fun t => t.time.ppsPulses = s.time.ppsPulses + 1
      ∧ t.time.ppsDone = (stampNow s - (timeCfg s).outOffset * nsU) / secU ∧ changesOnly [.time] s t))

/-- R338, R339: the frequency reference of the time island is TREF_IN where it is present, else REFCLK, else REFCLK_ALT, else the
always-on oscillator, on which every running TDC calibration has failed. -/
def Obligations.TimeReferences : Prop :=
  (∀ (s : State) (b : Bool), goesOnWith (exec (.trefPresent b) s) (fun t => t.time.trefPresent = true ∧ t.time.freqRef = 0
      ∧ t.now = s.now ∧ changesOnly [.regs, .log, .time, .hk, .freeCtr] s t))
  ∧ (∀ s : State, goesOnWith (exec .trefLoss s) (fun t => t.time.trefPresent = false
      ∧ t.time.freqRef = (if s.keeper.refPresent then 1 else if s.keeper.altPresent then 2 else 3)
      ∧ t.now = s.now ∧ changesOnly [.regs, .log, .time, .hk, .freeCtr] s t))
  ∧ (∀ s : State, refBest s = 3 → s.time.freqRef ≠ 3 →
    goesOnWith (exec .timeNoClock s) (fun t => t.time.freqRef = 3 ∧ (∀ c, (vget t.time.ch c).cal = none)
      ∧ t.hk.notchFree = true ∧ changesOnly [.regs, .log, .time, .hk, .freeCtr] s t))
  ∧ (∀ s : State, refBest s ≠ 3 → goesOnWith (exec .timeRelock s) (fun t => t.time.freqRef = refBest s
      ∧ changesOnly [.regs, .log, .time, .hk, .freeCtr] s t))

/-- R348 to R357: the TDC. An edge of the selected sense on an armed channel is stamped, and one within 8 ns of the last is only counted; the TDC stops while
the time island has no reference; gates and software arm the channels; a pop takes the oldest queued entry, a flush
sends at most 32; a start without a stop within the window is an orphan; an accepted calibration gives the channel its
table, a rejected or late one is counted, recorded with its code and tried again after 10 s; a launch without a matched edge is a miss. -/
def Obligations.TdcCommandEffects : Prop :=
  (∀ (s : State) (c : Fin 9) (b : Bool) (q f : Nat), s.time.freqRef = 3 → exec (.tdcEdge c b q f) s = .next s)
  ∧ (∀ (s : State) (c : Fin 9) (q f : Nat) (k : TdcCfg), s.time.freqRef ≠ 3 → c.val < 8 → tdcCfg s c = some k → k.edge = 0 →
    k.gateMode = 0 → (vget s.time.ch c).lastEdge = none → (vget s.time.ch c).cal = none →
    goesOnWith (exec (.tdcEdge c false q f) s) (fun t => (vget t.time.ch c).lastEdge = some (edgeStamp s c q f) ∧ t.now = s.now))
  ∧ (∀ (s : State) (c : Fin 9) (q f : Nat) (k : TdcCfg) (p : Nat), s.time.freqRef ≠ 3 → c.val < 8 → tdcCfg s c = some k → k.edge = 0 →
    k.gateMode = 0 → (vget s.time.ch c).lastEdge = some p → p ≤ edgeStamp s c q f → edgeStamp s c q f < p + 8 * nsU →
    goesOnWith (exec (.tdcEdge c false q f) s) (fun t => (vget t.time.ch c).lastEdge = some p ∧ (vget t.time.ch c).dead = true
      ∧ (vget t.time.ch c).q = (vget s.time.ch c).q
      ∧ getF t (tdDeadCount c.val) = min (getF s (tdDeadCount c.val) + 1) 1048575 ∧ changesOnly [.regs, .time] s t))
  ∧ (∀ (s : State) (g : Fin 4) (b : Bool), goesOnWith (exec (.tdcGateChange g b) s) (fun t => t.time.gates.getLsbD g.val = b
      ∧ (∀ h : Fin 4, h ≠ g → t.time.gates.getLsbD h.val = s.time.gates.getLsbD h.val) ∧ changesOnly [.time] s t))
  ∧ (∀ (s : State) (g : Fin 4), goesOnWith (exec (.tdcWindowEnd g) s) (fun t =>
      (∀ c : Fin 9, c.val < 8 → gateOf c = g → (vget s.time.ch c).until_ ≤ stampNow s → (vget t.time.ch c).win = false)
      ∧ (∀ c : Fin 9, gateOf c ≠ g → vget t.time.ch c = vget s.time.ch c) ∧ changesOnly [.time] s t))
  ∧ (∀ (s : State) (c : Fin 9) (k : TdcCfg), tdcCfg s c = some k → k.gateMode = 3 →
    goesOnWith (exec (.tdcArm c) s) (fun t => (vget t.time.ch c).soft = true ∧ changesOnly [.time] s t)
    ∧ goesOnWith (exec (.tdcDisarm c) s) (fun t => (vget t.time.ch c).soft = false ∧ changesOnly [.time] s t))
  ∧ (∀ (s : State) (c : Fin 9) (e : TdcEntry) (rest : List TdcEntry), ((tdcCfg s c).bind tdcLink) = none →
    (vget s.time.ch c).q = e :: rest →
    goesOnWith (exec (.tdcPop c) s) (fun t => (vget t.time.ch c).q = rest
      ∧ (∀ k, k < 7 → getF t (tdChEntryWords c.val k) = wordsVal (entryWords e) / 2 ^ (20 * k) % 2 ^ 20)
      ∧ changesOnly [.regs, .time] s t))
  ∧ (∀ (s : State) (c : Fin 9), (vget s.time.ch c).q = [] →
    goesOnWith (exec (.tdcPop c) s) (fun t => (∀ k, k < 8 → getF t (tdChEntryWords c.val k) = 0) ∧ t.time = s.time
      ∧ changesOnly [.regs] s t))
  ∧ (∀ (s : State) (c : Fin 9), goesOnWith (exec (.tdcFlushTimer c) s) (fun t =>
      ((vget t.time.ch c).q = (vget s.time.ch c).q ∨ ((vget t.time.ch c).q = (vget s.time.ch c).q.drop 32
        ∧ (vget t.time.ch c).seq = ((vget s.time.ch c).seq + 1) % 2 ^ 20)) ∧ changesOnly [.net, .time] s t))
  ∧ (∀ (s : State) (c : Fin 9) (k : TdcCfg) (l : Fin 3) (e : TdcEntry) (rest : List TdcEntry), tdcCfg s c = some k → tdcLink k = some l →
    (vget s.time.ch c).q = e :: rest → e.at_ + k.flushUs * usU ≤ elapsed s → linkHas s l 12 = true → carriesBulk s l = true →
    outFill (vget s.net.links l) ≤ 4000000 →
    goesOnWith (exec (.tdcFlushTimer c) s) (fun t => (vget t.time.ch c).q = (e :: rest).drop 32
      ∧ (vget t.time.ch c).seq = ((vget s.time.ch c).seq + 1) % 2 ^ 20
      ∧ (vget t.net.links l).bulk.length = (vget s.net.links l).bulk.length + 1 ∧ changesOnly [.net, .time] s t))
  ∧ (∀ (s : State) (g : Fin 4) (k : TdcCfg), tdcCfg s (pairEven g) = some k →
    (∀ e, e ∈ (vget s.time.ch (pairEven g)).hold → e.at_ + 20 * nsU ≤ elapsed s) →
    goesOnWith (exec (.tdcPairHoldEnd g) s) (fun t => (vget t.time.ch (pairEven g)).hold = [] ∧ t.now = s.now
      ∧ changesOnly [.regs, .net, .time] s t))
  ∧ (∀ (s : State) (g : Fin 4) (k : TdcCfg) (p : TdcHeld), tdcCfg s (pairEven g) = some k →
    (vget s.time.ch (pairEven g)).pending = some p → p.at_ + k.pairWin * nsU ≤ elapsed s →
    goesOnWith (exec (.tdcPairWindowExpiry g) s) (fun t => (vget t.time.ch (pairEven g)).pending = none
      ∧ getF t (tdOrphanStartCount (pairEven g).val) = min (getF s (tdOrphanStartCount (pairEven g).val) + 1) 1048575
      ∧ changesOnly [.regs, .time] s t))

/-- R349, R353, R355, R357: calibration of a TDC channel and its monitor. A calibration starts at the present time and keeps
the table; an accepted histogram gives the channel its table, another is counted with code 1 and tried again after 10 s,
one that is late fails with code 2; a retry and a period start one where none runs; a launch whose window has ended
without a matched edge is a miss. -/
def Obligations.TdcCalibration : Prop :=
  (∀ (s : State) (c : Fin 9), (vget s.time.ch c).cal = none → s.time.freqRef ≠ 3 →
    goesOnWith (exec (.tdcCal c) s) (fun t => ((vget t.time.ch c).cal.map (fun x => x.at_)) = some (elapsed s)
      ∧ (vget t.time.ch c).retryAt = none ∧ (vget t.time.ch c).table = (vget s.time.ch c).table ∧ changesOnly [.time] s t))
  ∧ (∀ (s : State) (c : Fin 9) (h : List Nat) (k : TdcCal), (vget s.time.ch c).cal = some k →
    sumN ((calHist s c k h).take 256) = calHits →
    goesOnWith (exec (.tdcCalComplete c h) s) (fun t => (vget t.time.ch c).cal = none
      ∧ (histOk s c (calHist s c k h) = true → (vget t.time.ch c).table = some (tableOf (calHist s c k h))
          ∧ (vget t.time.ch c).uncal = false
          ∧ (vget t.time.ch c).calAt = elapsed s ∧ (vget t.time.ch c).calTemp = k.die ∧ changesOnly [.time] s t)
      ∧ (histOk s c (calHist s c k h) = false → (vget t.time.ch c).table = (vget s.time.ch c).table
          ∧ (vget t.time.ch c).retryAt = some (elapsed s + 10 * secU) ∧ getF t tdCalfailCode = 1
          ∧ bitOf (getF t tdCalfailFail) c.val = true
          ∧ getF t (tdCalRejectCount c.val) = min (getF s (tdCalRejectCount c.val) + 1) 1048575)))
  ∧ (∀ (s : State) (c : Fin 9) (h : List Nat) (k : TdcCal), (vget s.time.ch c).cal = some k →
    sumN ((calHist s c k h).take 256) ≠ calHits → exec (.tdcCalComplete c h) s = .next s)
  ∧ (∀ (s : State) (c : Fin 9) (k : TdcCal), bitOf (tdcCalCfg s).2.2.1 c.val = true → (vget s.time.ch c).cal = some k →
    k.at_ + 60 * secU ≤ elapsed s →
    goesOnWith (exec (.tdcCalTimeout c) s) (fun t => (vget t.time.ch c).cal = none
      ∧ (vget t.time.ch c).retryAt = some (elapsed s + 10 * secU) ∧ getF t tdCalfailCode = 2
      ∧ changesOnly [.regs, .log, .time] s t))
  ∧ (∀ (s : State) (c : Fin 9) (at_ : Nat), (vget s.time.ch c).retryAt = some at_ → at_ ≤ elapsed s → (vget s.time.ch c).uncal = true →
    (vget s.time.ch c).cal = none → s.time.freqRef ≠ 3 →
    goesOnWith (exec (.tdcCalRetry c) s) (fun t => (vget t.time.ch c).cal.isSome = true ∧ (vget t.time.ch c).retryAt = none
      ∧ changesOnly [.time] s t))
  ∧ (∀ (s : State) (c : Fin 9), tdcPeriodOver s c = true → (vget s.time.ch c).uncal = false →
    (vget s.time.ch c).retryAt = none → (vget s.time.ch c).cal = none → s.time.freqRef ≠ 3 →
    goesOnWith (exec (.tdcCalPeriod c) s) (fun t => (vget t.time.ch c).cal.isSome = true ∧ changesOnly [.time] s t))
  ∧ (∀ (s : State) (l : Fin 2) (c : Fin 9) (win at_ : Nat) (rest : List (Nat × Bool)),
    ((List.finRange 9).findSome? (fun c => (monitorOf s c).bind (fun m => if m.1 = l then some (c, m.2) else none))) = some (c, win) →
    vget s.time.shots l = rest ++ [(at_, false)] → at_ + win * nsU ≤ stampNow s →
    goesOnWith (exec (.monWindowExpiry l) s) (fun t => vget t.time.shots l = rest
      ∧ (vget t.time.ch c).misses = (vget s.time.ch c).misses + 1
      ∧ getF t (tdMonMissCount c.val) = min (getF s (tdMonMissCount c.val) + 1) 1048575 ∧ changesOnly [.regs, .log, .time] s t))
  ∧ (∀ (s : State) (l : Fin 2) (c : Fin 9) (win at_ : Nat) (rest : List (Nat × Bool)),
    ((List.finRange 9).findSome? (fun c => (monitorOf s c).bind (fun m => if m.1 = l then some (c, m.2) else none))) = some (c, win) →
    vget s.time.shots l = rest ++ [(at_, true)] → at_ + win * nsU ≤ stampNow s →
    goesOnWith (exec (.monWindowExpiry l) s) (fun t => vget t.time.shots l = rest ∧ t.time.ch = s.time.ch
      ∧ changesOnly [.time] s t))

/-- R372 to R377, R384: attaching a quad. Detection with a receiver goes to BLIND or TRAIN, without one to ABSENT, from
which detection is repeated; a link whose lanes are aligned becomes ACTIVE with no failed attempts and fresh credits;
2 ms of BLIND without ACTIVE start training at T0; a fault in ACTIVE counts a retrain and leaves ACTIVE; a
DOWN quad makes one attempt; a LINK reset returns the quad to DETECT with its counters at 0. -/
def Obligations.QuadStates : Prop :=
  (∀ (s : State) (q : Fin 3), (quadAt s q).st = .detect → (quadCfg s q).isSome = true →
    goesOnWith (exec (.laneDetectDone q 0) s) (fun t => (quadAt t q).st = .absent
      ∧ (∀ k, k ≠ q → quadAt t k = quadAt s k) ∧ changesOnly [.net] s t))
  ∧ (∀ (s : State) (q : Fin 3) (c : QuadCfg) (m : BitVec 4), (quadAt s q).st = .detect → quadCfg s q = some c → m ≠ 0 →
    goesOnWith (exec (.laneDetectDone q m) s) (fun t => (quadAt t q).st = (if c.blind = true ∧ (quadAt s q).rateWait = false then .blind else .train)
      ∧ presentMask (quadAt t q) = m.toNat ∧ changesOnly [.net] s t))
  ∧ (∀ (s : State) (q : Fin 3), (quadAt s q).st = .absent →
    goesOnWith (exec (.absentRetry q) s) (fun t => (quadAt t q).st = .detect ∧ changesOnly [.net] s t))
  ∧ (∀ (s : State) (q : Fin 3), (quadAt s q).st = .train → (quadAt s q).step = 3 → (quadAt s q).rateWait = false →
    goesOnWith (exec (.linkActive q) s) (fun t => (quadAt t q).st = .active ∧ (quadAt t q).fails = 0
      ∧ (vget t.net.links q).creditOk = false ∧ (vget t.net.links q).grant = Vector.replicate 3 0
      ∧ changesOnly [.regs, .net] s t))
  ∧ (∀ (s : State) (q : Fin 3), (quadAt s q).st = .blind → (quadCfg s q).isSome = true →
    goesOnWith (exec (.blindTimeout q) s) (fun t => (quadAt t q).st = .train ∧ (quadAt t q).step = 0
      ∧ (q = 0 → bootPhase s = 9 → bootPhase t = 10) ∧ (q ≠ 0 → bootPhase t = bootPhase s) ∧ changesOnly [.regs, .net] s t))
  ∧ (∀ (s : State) (q : Fin 3) (cause : Fin 8), (quadAt s q).st = .active → 1 ≤ cause.val → cause.val < 5 →
    (quadCfg s q).isSome = true →
    goesOnWith (exec (.linkFaultDetect q cause) s) (fun t => ((quadAt t q).st = .blind ∨ (quadAt t q).st = .train)
      ∧ getF t (slQCountRetrains q.val) = min (getF s (slQCountRetrains q.val) + 1) 1023
      ∧ (vget t.net.links q).creditOk = false ∧ changesOnly [.regs, .net] s t))
  ∧ (∀ (s : State) (q : Fin 3), (quadAt s q).st = .down →
    goesOnWith (exec (.downRetry q) s) (fun t => (quadAt t q).st = .detect ∧ (quadAt t q).fromDown = true
      ∧ changesOnly [.net] s t))
  ∧ (∀ (s : State) (q : Fin 3), (quadCfg s q).isSome = true →
    goesOnWith (exec (.linkReset q) s) (fun t => (quadAt t q).st = .detect ∧ (quadAt t q).fails = 0
      ∧ getF t (slQCountRetrains q.val) = 0 ∧ getF t (slQCountNarrowings q.val) = 0 ∧ getF t (slLnErrCount (4 * q.val)) = 0 ∧ getF t (lkRxBadCount q.val) = 0
      ∧ changesOnly [.regs, .net] s t))
  ∧ (∀ (s : State) (q : Fin 3), (quadAt s q).st = .test → (quadAt s q).partnerFe = true →
    goesOnWith (exec (.feLoopbackExit q) s) (fun t => (quadAt t q).st = .detect ∧ (quadAt t q).partnerFe = false
      ∧ changesOnly [.net] s t))
  ∧ (∀ (s : State) (q : Fin 3), inStandby s = true → (quadAt s q).st = .idle → (quadCfg s q).isSome = true →
    goesOnWith (exec (.idleWake q) s) (fun t => ((quadAt t q).st = .blind ∨ (quadAt t q).st = .train) ∧ changesOnly [.net] s t))

/-- R367, R369, R374, R375, R376, R379: training. A training set of an inverted lane turns its polarity; one that is received in training is
noted; a step ends once every lane of the attempt has passed it: T0 at the highest common rate, T2 forms the width; an attempt without lanes fails, and the thirty-second in a row
ends in DOWN; loss of signal breaks a lane's counts unless EIOS announced it; an ordered set in ACTIVE advances the
count of sets. -/
def Obligations.QuadTraining : Prop :=
  (∀ (s : State) (q : Fin 3) (p : Fin 4) (xs : List Nat) (t : TrainSet) (c : QuadCfg), trainSetOf xs = some t → quadCfg s q = some c →
    t.inverted = true → (quadAt s q).st = .train →
    goesOnWith (exec (.trainingSetReceived q p xs) s) (fun u =>
      (vget (quadAt u q).lanes p).polInv = !(vget (quadAt s q).lanes p).polInv ∧ (vget (quadAt u q).lanes p).runAny = 0
      ∧ (quadAt u q).st = .train ∧ changesOnly [.net] s u))
  ∧ (∀ (s : State) (q : Fin 3) (p : Fin 4) (xs : List Nat) (t : TrainSet) (c : QuadCfg), trainSetOf xs = some t → quadCfg s q = some c →
    t.inverted = false → t.feReq = false → (quadAt s q).st = .train → bitOf (quadAt s q).attempt p.val = true →
    goesOnWith (exec (.trainingSetReceived q p xs) s) (fun u => (quadAt u q).partnerRates = t.rates
      ∧ (quadAt u q).partner = t.addr ∧ (vget (quadAt u q).lanes p).runAny = min 8 ((vget (quadAt s q).lanes p).runAny + 1)
      ∧ changesOnly [.net] s u))
  ∧ (∀ (s : State) (q : Fin 3) (c : QuadCfg) (m : BitVec 4) (r : Nat), quadCfg s q = some c → (quadAt s q).st = .train →
    (quadAt s q).step = 0 → metStep (quadAt s q) m.toNat ≠ 0 →
    (quadAt s q).attempt &&& ((quadAt s q).passed ||| metStep (quadAt s q) m.toNat) = (quadAt s q).attempt → (quadAt s q).attempt ≠ 0 →
    agreedRate (quadAt s q) = some r →
    goesOnWith (exec (.trainStepPass q m) s) (fun t => (quadAt t q).step = 1 ∧ (quadAt t q).agreed = r
      ∧ (quadAt t q).attempt = (quadAt s q).attempt ∧ (quadAt t q).st = .train ∧ changesOnly [.net] s t))
  ∧ (∀ (s : State) (q : Fin 3) (m : BitVec 4), (quadAt s q).st = .train → metStep (quadAt s q) m.toNat ≠ 0 →
    (quadAt s q).attempt &&& ((quadAt s q).passed ||| metStep (quadAt s q) m.toNat) ≠ (quadAt s q).attempt →
    goesOnWith (exec (.trainStepPass q m) s) (fun t => (quadAt t q).step = (quadAt s q).step
      ∧ (quadAt t q).passed = (quadAt s q).passed ||| metStep (quadAt s q) m.toNat ∧ changesOnly [.net] s t))
  ∧ (∀ (s : State) (q : Fin 3) (c : QuadCfg) (m : BitVec 4) (w use : Nat), quadCfg s q = some c → (quadAt s q).st = .train →
    (quadAt s q).step = 2 → metStep (quadAt s q) m.toNat ≠ 0 →
    (quadAt s q).attempt &&& ((quadAt s q).passed ||| metStep (quadAt s q) m.toNat) = (quadAt s q).attempt → (quadAt s q).attempt ≠ 0 →
    formWidth ((quadAt s q).attempt &&& (quadAt s q).partnerLocked) c.widthMax = some (w, use) →
    goesOnWith (exec (.trainStepPass q m) s) (fun t => (quadAt t q).step = 3 ∧ (quadAt t q).width = w ∧ (quadAt t q).inUse = use
      ∧ (quadAt t q).rate = (quadAt s q).agreed ∧ changesOnly [.regs, .log, .net] s t))
  ∧ (∀ (s : State) (q : Fin 3) (c : QuadCfg), quadCfg s q = some c → (quadAt s q).st = .train → (quadAt s q).fails = 31 →
    (quadAt s q).fromDown = false →
    goesOnWith (exec (.trainStepTimeout q 15) s) (fun t => (quadAt t q).st = .down ∧ (quadAt t q).fails = 32
      ∧ changesOnly [.regs, .log, .net] s t))
  ∧ (∀ (s : State) (q : Fin 3) (c : QuadCfg), quadCfg s q = some c → (quadAt s q).st = .train → (quadAt s q).fails < 31 →
    (quadAt s q).fromDown = false → (quadAt s q).rateWait = false →
    goesOnWith (exec (.trainStepTimeout q 15) s) (fun t => (quadAt t q).st = .detect
      ∧ (quadAt t q).fails = (quadAt s q).fails + 1 ∧ changesOnly [.net] s t))
  ∧ (∀ (s : State) (q : Fin 3) (p : Fin 4), (vget (quadAt s q).lanes p).idleRx = true → exec (.laneLos q p) s = .next s)
  ∧ (∀ (s : State) (q : Fin 3) (p : Fin 4), (vget (quadAt s q).lanes p).idleRx = false → (quadAt s q).st = .active →
    goesOnWith (exec (.laneLos q p) s) (fun t => (vget (quadAt t q).lanes p).los = true
      ∧ (vget (quadAt t q).lanes p).symLock = false ∧ (quadAt t q).st = .active ∧ changesOnly [.net] s t))
  ∧ (∀ (s : State) (q : Fin 3) (p : Fin 4), (vget (quadAt s q).lanes p).los = true →
    goesOnWith (exec (.losDetectReturn q p) s) (fun t => (vget (quadAt t q).lanes p).los = false
      ∧ (vget (quadAt t q).lanes p).symLock = false ∧ changesOnly [.net] s t))
  ∧ (∀ (s : State) (q : Fin 3) (p : Fin 4), (quadAt s q).st ≠ .test →
    goesOnWith (exec (.eiosReceived q p) s) (fun t => (vget (quadAt t q).lanes p).idleRx = true
      ∧ (quadAt t q).st = (quadAt s q).st ∧ changesOnly [.net] s t))
  ∧ (∀ (s : State) (q : Fin 3), (quadAt s q).st = .active →
    goesOnWith (exec (.orderedSetInsert q) s) (fun t => (quadAt t q).sets = ((quadAt s q).sets + 1) % 16
      ∧ (quadAt t q).alignSeq = (if (quadAt s q).sets = 15 then ((quadAt s q).alignSeq + 1) % 256 else (quadAt s q).alignSeq)
      ∧ changesOnly [.net] s t))

/-- R387 to R393, R401 to R405: frames. On a link that is ACTIVE a CREDIT replaces the grants. A whole frame of the byte stream that is
addressed here is delivered; one for another engine is passed on with its hop count raised, counted where it has no usable
output, and counted in LK_TTL_DROP at the hop limit; a copy of an ALL frame counts in LK_DUP, a wrong frame in LK_RX_BAD. A TIMED_SEND
without its feature holds nothing, with it it is held; a held frame leaves at its time. -/
def Obligations.LinkFrames : Prop :=
  (∀ (s : State) (l : Fin 3) (g : List Nat), linkUp s l = true →
    goesOnWith (exec (.credit l g) s) (fun t => (vget t.net.links l).creditOk = true
      ∧ (∀ c : Fin 3, vget (vget t.net.links l).grant c = lget (vget (vget s.net.links l).grant c) g c.val % 2 ^ 20)
      ∧ changesOnly [.net] s t))
  ∧ (∀ (s : State) (l : Fin 3), linkUp s l = true →
    goesOnWith (exec (.creditSend l) s) (fun t => (vget t.net.links l).grant = (vget s.net.links l).grant
      ∧ (vget t.net.links l).given = (vget s.net.links l).given
      ∧ (vget t.net.links l).prio.length = (vget s.net.links l).prio.length + 1 ∧ changesOnly [.net] s t))
  ∧ (∀ (s : State) (l : Fin 3), linkUp s l = false → exec (.creditSend l) s = .next s
      ∧ (∀ g, exec (.credit l g) s = .next s) ∧ ∀ xs, exec (.frameForward l xs) s = .next s)
  ∧ (∀ (s : State) (l : Fin 3) (xs : List Nat) (f : Frame), linkUp s l = true → deframe xs = [.good f] →
    frameOk f = true → bitOf f.flags 0 = false → f.dest ≠ ownAddr s →
    4095 ≤ f.hops →
    goesOnWith (exec (.frameForward l xs) s) (fun t =>
      getF t (lkTtlDropCount l.val) = min (getF s (lkTtlDropCount l.val) + 1) 1048575 ∧ changesOnly [.regs, .net] s t))
  ∧ (∀ (s : State) (l : Fin 3) (xs : List Nat) (f : Frame), linkUp s l = true → deframe xs = [.good f] →
    frameOk f = true → bitOf f.flags 0 = false → f.dest ≠ ownAddr s →
    f.hops < 4095 → routeOf (noteRx s l f) false f = none →
    goesOnWith (exec (.frameForward l xs) s) (fun t =>
      getF t (lkNorouteCount l.val) = min (getF s (lkNorouteCount l.val) + 1) 1048575 ∧ changesOnly [.regs, .net] s t))
  ∧ (∀ (s : State) (l : Fin 3) (xs : List Nat) (f : Frame) (out : Fin 3) (g : Frame), linkUp s l = true → deframe xs = [.good f] →
    frameOk f = true → bitOf f.flags 0 = false → f.dest ≠ ownAddr s →
    f.hops < 4095 → routeOf (noteRx s l f) false f = some (out, g) → frameClass g = 2 →
    goesOnWith (exec (.frameForward l xs) s) (fun t =>
      (vget t.net.links out).fwd = (vget s.net.links out).fwd ++ [(l.val, { g with hops := f.hops + 1 })]
      ∧ changesOnly [.net] s t))
  ∧ (∀ (s : State) (l : Fin 3) (xs : List Nat) (f : Frame) (out : Fin 3) (g : Frame), linkUp s l = true → deframe xs = [.good f] →
    frameOk f = true → bitOf f.flags 0 = false → f.dest ≠ ownAddr s →
    f.hops < 4095 → routeOf (noteRx s l f) false f = some (out, g) → frameClass g = 1 →
    goesOnWith (exec (.frameForward l xs) s) (fun t =>
      (vget t.net.links out).mgmt = (vget s.net.links out).mgmt ++ [{ g with hops := f.hops + 1 }]
      ∧ changesOnly [.net] s t))
  ∧ (∀ (s : State) (l : Fin 3) (xs : List Nat) (f : Frame), linkUp s l = true → deframe xs = [.good f] →
    frameOk f = true → bitOf f.flags 0 = false → f.dest = ownAddr s →
    exec (.frameForward l xs) s = .next (deliver l f (noteRx s l f)))
  ∧ (∀ (s : State) (l : Fin 3) (xs : List Nat) (f : Frame) (t0 : Nat), linkUp s l = true → deframe xs = [.good f] →
    frameOk f = true → bitOf f.flags 0 = true →
    (f.src, f.tag, t0) ∈ s.net.dups → elapsed s < t0 + 100 * msU →
    goesOnWith (exec (.frameForward l xs) s) (fun t =>
      getF t (lkDupCount l.val) = min (getF s (lkDupCount l.val) + 1) 1048575 ∧ changesOnly [.regs, .net] s t))
  ∧ (∀ (s : State) (l : Fin 3) (xs : List Nat), linkUp s l = true → deframe xs = [.bad] →
    goesOnWith (exec (.frameForward l xs) s) (fun t =>
      getF t (lkRxBadCount l.val) = min (getF s (lkRxBadCount l.val) + 1) 1048575 ∧ changesOnly [.regs] s t))
  ∧ (∀ (s : State) (l : Fin 3) (tag src : Nat) (ws : List Word), linkUp s l = true → frameOk (rxFrame s 0x10A src tag ws) = true →
    linkHas s l 11 = false →
    goesOnWith (exec (.timedSend l tag src ws) s) (fun t => t.net.timed = s.net.timed ∧ changesOnly [.net] s t))
  ∧ (∀ (s : State) (l : Fin 3) (tag src : Nat) (ws : List Word) (f : Frame), linkUp s l = true →
    frameOk (rxFrame s 0x10A src tag ws) = true → linkHas s l 11 = true → 23 ≤ ws.length →
    f = frameOf ((ws.drop 11).take 12) (ws.drop 23) → frameClass f = 0 → frameOk f = true →
    bitsOf (wAt ((ws.drop 11).take 12) 5 2) 16 0 = f.payload.length → s.net.timed.length < 16 →
    stampNow s < ofTime110 (wAt ws 0 11) →
    goesOnWith (exec (.timedSend l tag src ws) s) (fun t => t.net.timed = s.net.timed ++ [(ofTime110 (wAt ws 0 11), f)]
      ∧ (vget t.net.links l).mgmt.length = (vget s.net.links l).mgmt.length + 1 ∧ changesOnly [.net] s t))
  ∧ (∀ (s : State) (at_ : Nat) (f : Frame), s.net.timed = [(at_, f)] → at_ ≤ stampNow s →
    goesOnWith (exec .timedLaunch s) (fun t => t.net.timed = [] ∧ t.now = s.now ∧ changesOnly [.regs, .net] s t))
  ∧ (∀ (s : State) (at_ : Nat) (f : Frame), s.net.timed = [(at_, f)] → stampNow s < at_ → exec .timedLaunch s = .next s)

/-- R404, R406, R407, R408: chain levelling and CHAIN_SYNC. A run starts with its first request on a link that is ACTIVE and takes the responses of its
link within 1 ms; it ends when all eight have come or its time is over, and one with fewer than six delivers none;
while the link is not ACTIVE the engine is in holdover. A CHAIN_SYNC needs class 4, else it is counted as refused; where
it is permitted, each stream of its mask has a sync at its time. -/
def Obligations.ChainLevelling : Prop :=
  (∀ (s : State) (c : LevelCfg), levelCfg s = some c → (timeCfg s).source = 3 → s.net.level = none → linkUp s (levelLink s c) = true →
    goesOnWith (exec .levelRunStart s) (fun t => (t.net.level.map (fun r => (r.link, r.start, r.begun, r.done_)))
        = some ((levelLink s c).val, elapsed s, 1, 0)
      ∧ (vget t.net.links (levelLink s c)).prio.length = (vget s.net.links (levelLink s c)).prio.length + 1
      ∧ t.time = s.time ∧ changesOnly [.net] s t))
  ∧ (∀ (s : State) (c : LevelCfg), levelCfg s = some c → (timeCfg s).source = 3 → s.net.level = none → linkUp s (levelLink s c) = false →
    goesOnWith (exec .levelRunStart s) (fun t => t.time.holdover = true ∧ t.net.level = none ∧ t.net.levelValid = false
      ∧ getF t lkLevelDepth = 4095 ∧ changesOnly [.regs, .net, .time] s t))
  ∧ (∀ (s : State) (l : Fin 3) (f : Frame) (stamp : Nat), linkUp s l = true → f.payload.length = 12 →
    goesOnWith (exec (.levelReq l f stamp) s) (fun t => t.time = s.time ∧ t.net.level = s.net.level ∧ t.regs = s.regs
      ∧ (vget t.net.links l).prio.length = (vget s.net.links l).prio.length + 1
      ∧ ((vget t.net.links l).prio.getLast?.map (fun g => (g.ftype, g.dest, g.payload.take 11, g.payload.drop 22 |>.take 1)))
        = some (0x009, f.src, timeWords (stamp / 1024 * 1024), [BitVec.ofNat 10 (wAt f.payload 11 1)])
      ∧ changesOnly [.net] s t))
  ∧ (∀ (s : State) (l : Fin 3) (f : Frame) (stamp : Nat) (r : LevelRun) (t1 : Nat), linkUp s l = true → f.payload.length = 26 →
    s.net.level = some r → r.link = l.val → elapsed s ≤ r.start + msU → tabFind r.t1 (wAt f.payload 22 1) = some t1 →
    goesOnWith (exec (.levelResp l f stamp) s) (fun t => (t.net.level.map (fun x => x.done_)) = some (r.done_ + 1)
      ∧ (t.net.level.map (fun x => x.sumD)) = some (r.sumD + (((stamp / 1024 * 1024 : Nat) : Int) - (ofTime110 (wAt f.payload 11 11) : Nat))
          + ((ofTime110 (wAt f.payload 0 11) : Nat) - (t1 : Int)))
      ∧ changesOnly [.net] s t))
  ∧ (∀ (s : State) (r : LevelRun) (c : LevelCfg), s.net.level = some r → levelCfg s = some c → r.start + msU ≤ elapsed s → r.done_ < 6 →
    goesOnWith (exec .levelRunEnd s) (fun t => t.net.level = none ∧ t.net.levelValid = false
      ∧ t.net.levelMiss = s.net.levelMiss + 1 ∧ t.now = s.now))
  ∧ (∀ (s : State) (r : LevelRun) (c : LevelCfg), s.net.level = some r → levelCfg s = some c → elapsed s < r.start + msU → r.done_ ≠ 8 →
    exec .levelRunEnd s = .next s)
  ∧ (∀ (s : State) (l : Fin 3) (f : Frame), linkUp s l = true → f.payload.length = 37 → bitOf f.flags 0 = false → permits s 4 = false →
    goesOnWith (exec (.chainSync l f) s) (fun t =>
      getF t (lkRefusedCount l.val) = min (getF s (lkRefusedCount l.val) + 1) 1048575 ∧ t.streams = s.streams
      ∧ changesOnly [.regs, .net] s t))
  ∧ (∀ (s : State) (l : Fin 3) (f : Frame), linkUp s l = true → f.payload.length = 37 → bitOf f.flags 0 = false → permits s 4 = true →
    goesOnWith (exec (.chainSync l f) s) (fun t => getF t (lkRefusedCount l.val) = getF s (lkRefusedCount l.val)
      ∧ changesOnly [.regs, .log, .net, .streams] s t))
  ∧ (∀ (s : State) (l : Fin 3) (f : Frame) (n : Fin 256) (c : StreamCfg), linkUp s l = true → f.payload.length = 37 → bitOf f.flags 0 = false →
    permits s 4 = true → maskBits 256 (wAt f.payload 11 26) = [n.val] → streamAt s n.val = some c → (strm s n.val).syncs.length < 4 →
    (strm s n.val).lastIn = none →
    goesOnWith (exec (.chainSync l f) s) (fun t => (strm t n.val).syncs.length = (strm s n.val).syncs.length + 1
      ∧ (ofTime110 (wAt f.payload 0 11), false) ∈ (strm t n.val).syncs ∧ changesOnly [.net, .streams] s t))

/-- R57, R423, R425, R426, R427, R430: DRAM training and set points. Boot training leaves BOOT_PHASE 4 with a pair in service, and recovery without one; the
training of a channel goes on collection by collection, and its last marks the channel TRAINED at the set point, which at boot the
next one follows; a
change of set point waits for a collection or a blackout, is otherwise under way at once, and takes effect at its end. -/
def Obligations.DramTraining : Prop :=
  (∀ s : State, bootPhase s = 3 → dmFitted s 0 = true → (∀ c, (vget s.mem.ch c).failed = false) →
    goesOnWith (exec (.dramTrainingDone 0) s) (fun t => bootPhase t = 4 ∧ t.mem.setPoint = 0 ∧ (vget t.mem.ch 0).inService = true
      ∧ (vget t.mem.ch 1).inService = true ∧ (vget t.mem.ch 0).trained = 7))
  ∧ (∀ s : State, bootPhase s = 3 →
    goesOnWith (exec (.dramTrainingDone 255) s) (fun t => bootPhase t = 15 ∧ (∀ c, (vget t.mem.ch c).trained = 0)))
  ∧ (∀ (s : State) (ds : List Int), s.mem.selfRefresh = false → s.mem.blackout = none →
    goesOnWith (exec (.dqsOscRead ds) s) (fun t => (∀ c : Fin 4, ∀ d, (vget s.mem.ch c).inService = true → ds[c.val]? = some d →
        (vget t.mem.ch c).drift = d) ∧ (∀ c : Fin 4, (vget t.mem.ch c).trained = (vget s.mem.ch c).trained)
      ∧ changesOnly [.mem] s t))
  ∧ (∀ (s : State) (c : Fin 4), (vget s.mem.ch c).inService = true → retrainDue s c = true → anyTraining s = false →
    s.mem.blackout = none → s.mem.freeze = none → s.mem.selfRefresh = false →
    goesOnWith (exec (.shortRetrainStart c) s) (fun t => (vget t.mem.ch c).training = true ∧ (vget t.mem.ch c).step = 3
      ∧ (vget t.mem.ch c).colls = 0 ∧ getF t dmRetrainCount = min (getF s dmRetrainCount + 1) 1048575
      ∧ (∀ k, k ≠ c → vget t.mem.ch k = vget s.mem.ch k) ∧ changesOnly [.regs, .mem] s t))
  ∧ (∀ (s : State) (c : Fin 4) (b : Bool), (vget s.mem.ch c).training = true → s.mem.blackout = none → s.mem.waiting = none →
    (vget s.mem.ch c).colls + 1 < stepColls (vget s.mem.ch c).step →
    goesOnWith (exec (.trainingCollectionDone c b) s) (fun t => (vget t.mem.ch c).colls = (vget s.mem.ch c).colls + 1
      ∧ (vget t.mem.ch c).training = true ∧ changesOnly [.mem] s t))
  ∧ (∀ (s : State) (c : Fin 4), (vget s.mem.ch c).training = true → bootPhase s ≠ 3 → s.mem.blackout = none → s.mem.waiting = none →
    s.mem.freeze = none → stepColls (vget s.mem.ch c).step ≤ (vget s.mem.ch c).colls + 1 → (vget s.mem.ch c).step = 4 →
    dmRanks s ≤ (vget s.mem.ch c).rank + 1 →
    goesOnWith (exec (.trainingCollectionDone c true) s) (fun t => (vget t.mem.ch c).training = false
      ∧ bitOf (vget t.mem.ch c).trained s.mem.setPoint = true ∧ (vget t.mem.ch c).drift = 0 ∧ (vget t.mem.ch c).at_ = elapsed s
      ∧ changesOnly [.mem] s t))
  ∧ (∀ (s : State) (c : Fin 4), (vget s.mem.ch c).training = true → bootPhase s = 3 → s.mem.blackout = none → s.mem.waiting = none →
    stepColls (vget s.mem.ch c).step ≤ (vget s.mem.ch c).colls + 1 → (vget s.mem.ch c).step = 6 →
    dmRanks s ≤ (vget s.mem.ch c).rank + 1 →
    goesOnWith (exec (.trainingCollectionDone c true) s) (fun t =>
      (vget t.mem.ch c).training = decide ((vget s.mem.ch c).sp ≠ 0) ∧ (vget t.mem.ch c).sp = (vget s.mem.ch c).sp - 1
      ∧ (vget t.mem.ch c).trained = bitsPut (vget s.mem.ch c).trained (vget s.mem.ch c).sp (vget s.mem.ch c).sp 1
      ∧ changesOnly [.mem] s t))
  ∧ (∀ (s : State) (f : FreqChange), s.mem.blackout = some f → s.mem.waiting = none →
    goesOnWith (exec .freqChangeDone s) (fun t => t.mem.setPoint = f.target ∧ t.mem.blackout = none))
  ∧ (∀ (s : State) (sp : Fin 3), s.keeper.mbx = [] → keeperRuns s = true → s.mem.selfRefresh = true →
    goesOnWith (exec (.mbxDramFreq sp) s) (fun t => getF t bmMbxLastCode = 7 ∧ getF t bmMbxLastStatus = 1 ∧ t.mem = s.mem))
  ∧ (∀ (s : State) (sp : Fin 3), s.keeper.mbx = [] → keeperRuns s = true → s.mem.selfRefresh = false → (s.mem.forced = true ∨ spUsable s sp.val = false) →
    goesOnWith (exec (.mbxDramFreq sp) s) (fun t => getF t bmMbxLastCode = 7 ∧ getF t bmMbxLastStatus = 2 ∧ t.mem = s.mem))
  ∧ (∀ (s : State) (sp : Fin 3), s.keeper.mbx = [] → keeperRuns s = true → s.mem.selfRefresh = false → s.mem.forced = false → spUsable s sp.val = true →
    s.mem.blackout = none → s.mem.waiting = none → anyTraining s = false → s.mem.setPoint ≠ sp.val →
    goesOnWith (exec (.mbxDramFreq sp) s) (fun t => getF t bmMbxLastStatus = 0
      ∧ t.mem.blackout = some { target := sp.val, forced := false } ∧ t.mem.setPoint = s.mem.setPoint
      ∧ changesOnly [.regs, .keeper, .mem] s t))

/-- R418, R419, R421, R429, R431 to R434: DRAM errors and heat. A corrected error counts; an uncorrectable one in the data region sets DM_UE and freezes data
traffic; a freeze ends with its report, or after 50 ms in a WARM reset of cause 5; a lost channel leaves service with
its pair; a device above 85 °C forces one step down; the engine returns one step after 10 s of cool. -/
def Obligations.DramFaults : Prop :=
  (∀ (s : State) (a : Nat) (o : Bool), pairsIn s ≠ 0 → s.mem.selfRefresh = false → a < dataBytes s → s.mem.freeze = none →
    goesOnWith (exec (.dramRead a true false o) s) (fun t => getF t dmCeCount = min (getF s dmCeCount + 1) 1048575
      ∧ t.mem = s.mem ∧ changesOnly [.regs] s t))
  ∧ (∀ (s : State) (a : Nat) (b o : Bool), pairsIn s ≠ 0 → s.mem.selfRefresh = false → a < dataBytes s → s.mem.freeze = none →
    s.mem.blackout = none →
    goesOnWith (exec (.dramRead a b true o) s) (fun t => getF t dmUeCount = min (getF s dmUeCount + 1) 1048575
      ∧ getF t dmUeAddrLoAddr = a % 2 ^ 20 ∧ (t.mem.freeze.map (fun f => (f.retrain, f.addr, f.at_))) = some (false, a, elapsed s)))
  ∧ (∀ (s : State) (a : Nat), exec (.dramRead a false false false) s = .next s)
  ∧ (∀ s : State, s.mem.freeze = none → s.mem.selfRefresh = false → pairsIn s ≠ 0 → s.mem.scrub + 1 < scrubBlocks s →
    goesOnWith (exec (.scrubRead false false false) s) (fun t => t.mem.scrub = s.mem.scrub + 1 ∧ changesOnly [.mem] s t))
  ∧ (∀ s : State, s.mem.freeze = none → s.mem.selfRefresh = false → pairsIn s ≠ 0 → scrubBlocks s ≤ s.mem.scrub + 1 →
    goesOnWith (exec (.scrubRead false false false) s) (fun t => t.mem.scrub = 0
      ∧ getF t dmScrubPasses = min (getF s dmScrubPasses + 1) 1023 ∧ changesOnly [.regs, .mem] s t))
  ∧ (∀ s : State, goesOnWith (exec .c3AgePromote s) (fun t => getF t dmC3AgedCount = min (getF s dmC3AgedCount + 1) 1048575
      ∧ changesOnly [.regs] s t))
  ∧ (∀ (s : State) (f : Freeze), s.mem.freeze = some f → f.loss = none → f.retrain = false → s.mem.blackout = none →
    s.mem.uePend = none → untrained s = none →
    goesOnWith (exec (.freezeEnd true) s) (fun t => t.mem.freeze = none ∧ getF t dmFreezeResult = 1 ∧ getF t dmFreezeNew = 1
      ∧ getF t dmFreezeChannel = f.chan % 4))
  ∧ (∀ (s : State) (f : Freeze), s.mem.freeze = some f → f.loss = none → f.at_ + 50 * msU ≤ elapsed s →
    (recentWarm s).length < (resetPolicy s).1 →
    goesOnWith (exec .freezeTimeout s) (fun t => t.keeper.resetKind = 2 ∧ t.keeper.resetCause = 5))
  ∧ (∀ (s : State) (f : Freeze) (why : Nat), s.mem.freeze = some f → f.loss = some why → f.chan < 4 →
    goesOnWith (exec .channelLossDone s) (fun t => (∀ c : Fin 4, c.val / 2 = f.chan / 2 → (vget t.mem.ch c).inService = false)
      ∧ (∀ c : Fin 4, c.val / 2 ≠ f.chan / 2 → (vget t.mem.ch c).inService = (vget s.mem.ch c).inService)
      ∧ getF t dmFreezeResult = 4))
  ∧ (∀ s : State, s.mem.selfRefresh = false → pairsIn s ≠ 0 → s.mem.stepMr4 = false → s.mem.blackout = none → s.mem.setPoint = 0 →
    setRate s 0 ≠ 6400 →
    goesOnWith (exec (.mr4Readout true false) s) (fun t => t.mem.mr4Hot = true ∧ t.mem.forced = true
      ∧ t.mem.blackout = some { target := 1, forced := true } ∧ t.mem.coolSince = none ∧ changesOnly [.mem] s t))
  ∧ (∀ s : State, goesOnWith (exec (.mr4Readout false true) s) (fun t => t.mem.mr4Hot = false ∧ t.mem.setPoint = s.mem.setPoint
      ∧ t.mem.forced = s.mem.forced ∧ changesOnly [.mem] s t))
  ∧ (∀ (s : State) (at_ : Nat), s.mem.forced = true → s.mem.coolSince = some at_ → at_ + 10 * secU ≤ elapsed s → s.mem.blackout = none →
    s.mem.waiting = none → s.mem.freeze = none → s.mem.selfRefresh = false → s.mem.setPoint ≤ planSetPoint s →
    goesOnWith (exec .thermalReturn s) (fun t => t.mem.forced = false ∧ t.mem.setPoint = s.mem.setPoint
      ∧ t.mem.coolSince = some (elapsed s) ∧ changesOnly [.mem] s t))

/-- R457, R462, R465: READ of one register on a path. A mapped register that is not busy answers OK with its value; its RC
fields are then 0 and no other register changes; a LO register captures its HI, a captured HI returns what was
captured and changes no register; an unmapped address answers UNMAPPED, and a register whose island is in reset BUSY. -/
def Obligations.RegisterReads : Prop :=
  (∀ (s : State) (p : Path) (a : BitVec 20), regDefined a.toNat = true → regBusy s a.toNat = false → isLo a.toNat = false →
    (pathOf s p).shadow = none →
    goesOnWith (exec (.rcRead p a) s) (fun t => (pathOf t p).status = 0 ∧ (pathOf t p).values = [(regRead s a.toNat).1]
      ∧ regGet t a.toNat &&& regMask (fun r => decide (r.acc = .rc)) a.toNat = 0
      ∧ (∀ b, b ≠ a.toNat → regGet t b = regGet s b) ∧ changesOnly [.regs, .mgmt, .freeCtr] s t))
  ∧ (∀ (s : State) (p : Path) (a : BitVec 20), regDefined a.toNat = true → regBusy s a.toNat = false → isLo a.toNat = true →
    (pathOf s p).shadow = none →
    goesOnWith (exec (.loReadCapture p a) s) (fun t => (pathOf t p).status = 0
      ∧ (pathOf t p).values = [(regRead s a.toNat).1] ∧ (pathOf t p).shadow = some (a.toNat + 1, (regRead s (a.toNat + 1)).1)
      ∧ changesOnly [.regs, .mgmt, .freeCtr] s t))
  ∧ (∀ (s : State) (p : Path) (a : BitVec 20) (v : Nat), regDefined a.toNat = true → regBusy s a.toNat = false →
    (pathOf s p).shadow = some (a.toNat, v) →
    goesOnWith (exec (.hiReadShadow p a) s) (fun t => (pathOf t p).status = 0 ∧ (pathOf t p).values = [v]
      ∧ (pathOf t p).shadow = none ∧ changesOnly [.mgmt] s t))
  ∧ (∀ (s : State) (p : Path) (a : BitVec 20), regDefined a.toNat = false →
    goesOnWith (exec (.rcRead p a) s) (fun t => (pathOf t p).status = 3 ∧ (pathOf t p).values = [0] ∧ changesOnly [.mgmt] s t))
  ∧ (∀ (s : State) (p : Path) (a : BitVec 20), regDefined a.toNat = true → regBusy s a.toNat = true →
    goesOnWith (exec (.rcRead p a) s) (fun t => (pathOf t p).status = 5 ∧ changesOnly [.mgmt] s t))
  ∧ (∀ (s : State) (l : Fin 3) (tag src : Nat) (a : BitVec 20) (n : Nat), linkUp s l = true → n % 1024 = 0 →
    goesOnWith (exec (.read l tag src a n) s) (fun t => (pathOf t (linkPath l)).status = 6 ∧ (pathOf t (linkPath l)).values = []
      ∧ changesOnly [.net, .mgmt] s t))
  ∧ (∀ (s : State) (l : Fin 3) (tag src : Nat) (a : BitVec 20), linkUp s l = true → regDefined a.toNat = true →
    regBusy s a.toNat = false → isLo a.toNat = false → (pathOf s (linkPath l)).shadow = none →
    goesOnWith (exec (.read l tag src a 1) s) (fun t => (pathOf t (linkPath l)).status = 0
      ∧ (∀ b, b ≠ a.toNat → regGet t b = regGet s b) ∧ changesOnly [.regs, .net, .mgmt, .freeCtr] s t))

/-- R40, R67, R458, R459, R463, R467: WRITE of one register on a path. MG_SNAP_ADDR takes the bits under the mask and no others; an
unmapped address answers UNMAPPED, a register that belongs to Benchmark BENCHMARK_OWNED, one whose class is not
permitted NOT_PERMITTED, and none of these changes a register; a LO of a writable pair is staged and changes none; its stage ends
after 1 s, or with its HI; TR_CLOCK.STEPS waits for a fence; MG_FENCE.ISSUE issues a fence or, with 64 outstanding, is
refused with detail 7. -/
def Obligations.RegisterWrites : Prop :=
  (∀ (s : State) (p : Path) (v m : BitVec 20),
    goesOnWith (exec (.registerWrite p 0x31 v m) s) (fun t => (pathOf t p).status = 0
      ∧ getF t mgSnapAddrAddr = (getF s mgSnapAddrAddr &&& (2 ^ 20 - 1 - m.toNat)) ||| (v.toNat &&& m.toNat)
      ∧ (∀ a, a ≠ 0x31 → regGet t a = regGet s a) ∧ changesOnly [.regs, .mgmt] s t))
  ∧ (∀ (s : State) (p : Path) (a v m : BitVec 20), regDefined a.toNat = false →
    goesOnWith (exec (.registerWrite p a v m) s) (fun t => (pathOf t p).status = 3 ∧ changesOnly [.mgmt] s t))
  ∧ (∀ (s : State) (p : Path) (a v m : BitVec 20), regDefined a.toNat = true → benchOwned a.toNat m.toNat = true → p.val ≤ 3 →
    goesOnWith (exec (.registerWrite p a v m) s) (fun t => (pathOf t p).status = 2 ∧ changesOnly [.mgmt] s t))
  ∧ (∀ (s : State) (p : Path) (a v m : BitVec 20), regDefined a.toNat = true → benchOwned a.toNat m.toNat = false → p.val ≤ 3 →
    classOk s a.toNat m.toNat = false →
    goesOnWith (exec (.registerWrite p a v m) s) (fun t => (pathOf t p).status = 1 ∧ changesOnly [.mgmt] s t))
  ∧ (∀ (s : State) (p : Path) (t : Fin 8) (v : BitVec 20), permits s 13 = true → regBusy s (0x4001 + 1024 * t.val) = false →
    (pathOf s p).staged = none → 16 ≤ v.toNat / 2 ^ 14 → v.toNat / 2 ^ 14 ≤ 32 →
    goesOnWith (exec (.registerWrite p (BitVec.ofNat 20 (0x4001 + 1024 * t.val)) v (BitVec.ofNat 20 (63 * 2 ^ 14))) s) (fun u =>
      (pathOf u p).status = 0 ∧ getF u (trClockSteps t.val) = getF s (trClockSteps t.val)
      ∧ u.fu.held.length = s.fu.held.length + 1 ∧ (u.fu.held.getLast?.map (fun h => (h.addr, h.mask)))
          = some (0x4001 + 1024 * t.val, 63 * 2 ^ 14) ∧ changesOnly [.regs, .fu, .mgmt] s u))
  ∧ (∀ (s : State) (p : Path) (a v m : BitVec 20), regDefined a.toNat = true → benchOwned a.toNat m.toNat = false →
    (p.val ≤ 3 → classOk s a.toNat m.toNat = true) → regBusy s a.toNat = false → isLoWritable a.toNat = true →
    goesOnWith (exec (.loWriteStage p a v m) s) (fun t => (pathOf t p).status = 0
      ∧ (pathOf t p).staged = some (a.toNat, v.toNat, m.toNat, elapsed s) ∧ changesOnly [.mgmt] s t))
  ∧ (∀ (s : State) (p : Path) (v w : BitVec 20) (at_ : Nat), (timeCfg s).source = 0 → (p.val ≤ 3 → permits s 9 = true) →
    regBusy s 0x809 = false → (pathOf s p).staged = some (0x808, w.toNat, 2 ^ 20 - 1, at_) → elapsed s < at_ + secU →
    goesOnWith (exec (.hiWriteCommit p 0x809 v 0xFFFFF) s) (fun t => (pathOf t p).status = 0 ∧ (pathOf t p).staged = none
      ∧ (t.fu.held.drop s.fu.held.length).map (fun h => (h.addr, h.value)) = [(0x808, w.toNat), (0x809, v.toNat)]
      ∧ getF t tmIncLoInc = getF s tmIncLoInc))
  ∧ (∀ (s : State) (p : Path) (x : Nat × Nat × Nat × Nat), (pathOf s p).staged = some x → x.2.2.2 + secU ≤ elapsed s →
    goesOnWith (exec (.loStageExpiry p) s) (fun t => (pathOf t p).staged = none ∧ (pathOf t p).shadow = (pathOf s p).shadow
      ∧ changesOnly [.mgmt] s t))
  ∧ (∀ (s : State) (p : Path), (p.val ≤ 3 → permits s 15 = true) → s.fu.out.length < 64 →
    goesOnWith (exec (.hostFenceIssue p) s) (fun t => (pathOf t p).status = 0 ∧ t.fu.out.length = s.fu.out.length + 1
      ∧ (t.fu.out.getLast?.map (fun f => (f.id, f.scope))) = some (s.fu.nextId, getF s mgFenceScopeMask)
      ∧ getF t mgFenceStatus = 1 ∧ getF t mgFenceHostId = s.fu.nextId % 1024 ∧ changesOnly [.regs, .fu, .mgmt] s t))
  ∧ (∀ (s : State) (p : Path), (p.val ≤ 3 → permits s 15 = true) → 64 ≤ s.fu.out.length →
    goesOnWith (exec (.hostFenceIssue p) s) (fun t => (pathOf t p).status = 4 ∧ (pathOf t p).detail = 7 ∧ t.fu.out = s.fu.out
      ∧ getF t mgFenceStatus = 2 ∧ changesOnly [.regs, .mgmt] s t))
  ∧ (∀ (s : State) (l : Fin 3) (tag src : Nat) (v : BitVec 20), linkUp s l = true →
    goesOnWith (exec (.write l tag src 0x31 0xFFFFF [v]) s) (fun t => (pathOf t (linkPath l)).status = 0
      ∧ getF t mgSnapAddrAddr = v.toNat ∧ changesOnly [.regs, .net, .mgmt] s t))
  ∧ (∀ (s : State) (l : Fin 3) (tag src : Nat) (a m v : BitVec 20), linkUp s l = true → regDefined a.toNat = false →
    goesOnWith (exec (.write l tag src a m [v]) s) (fun t => (pathOf t (linkPath l)).status = 3 ∧ changesOnly [.net, .mgmt] s t))

/-- R464, R468, R471, R472, R473, R496: snapshots, the event log's window, the service port and JTAG. A snapshot command is in progress until it
completes, and then shows the values copied and no error, or the error alone; EV_SEL selects an entry; a service
status returns BUSY, REFUSED, FLASH_FAIL and the last transaction's status and clears the two flags; a flash command is refused while one
runs or before BOOT_PHASE 3 outside a WARM reset; a program clears bits of one page (PRESUMED NOR flash), an erase leaves 0xFF; an
instruction that the lifecycle does not permit is not run. -/
def Obligations.ServiceAndLog : Prop :=
  (∀ (s : State) (p : Path) (c : Bool) (n : Fin 8),
    goesOnWith (exec (.registerSnapshot p c n) s) (fun t => t.mgmt.snap.isSome = true ∧ (pathOf t p).status = 0))
  ∧ (∀ (s : State) (vs : List Nat), s.mgmt.snap = some (some vs) →
    goesOnWith (exec .snapshotComplete s) (fun t => t.mgmt.snap = none ∧ getF t mgSnapStatusErr = 0
      ∧ (∀ i, i < 8 → getF t (mgSnapDataData i) = lget 0 vs i % 2 ^ 20) ∧ changesOnly [.regs, .mgmt] s t))
  ∧ (∀ s : State, s.mgmt.snap = some none →
    goesOnWith (exec .snapshotComplete s) (fun t => t.mgmt.snap = none ∧ getF t mgSnapStatusErr = 1
      ∧ (∀ i, i < 8 → getF t (mgSnapDataData i) = getF s (mgSnapDataData i)) ∧ changesOnly [.regs, .mgmt] s t))
  ∧ (∀ (s : State) (i : Fin 1024), goesOnWith (exec (.eventLogSelect i) s) (fun t => getF t evSelIndex = i.val
      ∧ (∀ k, k < 4 → getF t (evEntryWords k)
          = (match logIndex s i.val with | none => 0 | some e => wordsVal e / 2 ^ (20 * k)) % 2 ^ 20)
      ∧ t.log = s.log ∧ changesOnly [.regs] s t))
  ∧ (∀ (s : State) (a : BitVec 24), a.toNat < 2 ^ 20 → regDefined a.toNat = true → regBusy s a.toNat = false →
    isLo a.toNat = false → (pathOf s 0).shadow = none →
    goesOnWith (exec (.svcRegRead a 1) s) (fun t => t.mgmt.svcStatus = 0
      ∧ t.mgmt.svcOut = 0xA5#8 :: regBytes (regRead s a.toNat).1 ∧ changesOnly [.regs, .mgmt, .freeCtr] s t))
  ∧ (∀ (s : State) (a : BitVec 24), 2 ^ 20 ≤ a.toNat →
    goesOnWith (exec (.svcRegRead a 1) s) (fun t => t.mgmt.svcStatus = 3 ∧ t.mgmt.svcOut = [0xA5#8, 0, 0, 0] ∧ changesOnly [.mgmt] s t))
  ∧ (∀ (s : State) (v : BitVec 24), goesOnWith (exec (.svcRegWrite 0x31 0xFFFFF [v]) s) (fun t => t.mgmt.svcStatus = 0
      ∧ getF t mgSnapAddrAddr = v.toNat % 2 ^ 20 ∧ changesOnly [.regs, .mgmt] s t))
  ∧ (∀ (s : State) (a m v : BitVec 24), 2 ^ 20 ≤ a.toNat →
    goesOnWith (exec (.svcRegWrite a m [v]) s) (fun t => t.mgmt.svcStatus = 3 ∧ changesOnly [.mgmt] s t))
  ∧ (∀ s : State, goesOnWith (exec .svcStatus s) (fun t => t.mgmt.svcOut = [BitVec.ofNat 8
        (128 * b2n s.mgmt.flashOp.isSome + 64 * b2n s.mgmt.flashRefused + 32 * b2n s.mgmt.flashFail + s.mgmt.svcStatus % 8)]
      ∧ t.mgmt.flashRefused = false ∧ t.mgmt.flashFail = false ∧ t.mgmt.flash = s.mgmt.flash ∧ changesOnly [.mgmt] s t))
  ∧ (∀ (s : State) (a : BitVec 32) (n : Nat), s.mgmt.flashOp = none → 3 ≤ bootPhase s → lifecycle s ≠ 2 →
    goesOnWith (exec (.flashRead a n) s) (fun t => t.mgmt.svcOut.length = n
      ∧ (∀ i, i < n → t.mgmt.svcOut[i]? = some (flashByte s ((a.toNat + i) % 2 ^ 32))) ∧ t.mgmt.flash = s.mgmt.flash
      ∧ changesOnly [.mgmt] s t))
  ∧ (∀ (s : State) (a : BitVec 32) (n : Nat), (s.mgmt.flashOp ≠ none ∨ (bootPhase s < 3 ∧ s.keeper.warm = false)) →
    goesOnWith (exec (.flashRead a n) s) (fun t => t.mgmt.flashRefused = true ∧ t.mgmt.svcOut = [] ∧ changesOnly [.mgmt] s t)
    ∧ goesOnWith (exec (.flashErase a) s) (fun t => t.mgmt.flashRefused = true ∧ t.mgmt.flashOp = s.mgmt.flashOp
      ∧ t.mgmt.flash = s.mgmt.flash ∧ changesOnly [.mgmt] s t))
  ∧ (∀ (s : State) (a : BitVec 32) (bs : List Byte), s.mgmt.flashOp = none → 3 ≤ bootPhase s → lifecycle s ≠ 2 → bs ≠ [] →
    a.toNat % 256 + bs.length ≤ 256 →
    goesOnWith (exec (.flashProgram a bs) s) (fun t => t.mgmt.flashOp = some (.program a.toNat bs) ∧ t.mgmt.flash = s.mgmt.flash
      ∧ changesOnly [.mgmt] s t))
  ∧ (∀ (s : State) (a : BitVec 32), s.mgmt.flashOp = none → 3 ≤ bootPhase s → lifecycle s ≠ 2 →
    goesOnWith (exec (.flashErase a) s) (fun t => t.mgmt.flashOp = some (.erase (a.toNat / 65536 * 65536))
      ∧ t.mgmt.flash = s.mgmt.flash ∧ changesOnly [.mgmt] s t))
  ∧ (∀ (s : State) (a : Nat), s.mgmt.flashOp = some (.erase a) →
    goesOnWith (exec (.flashOpDone true) s) (fun t => t.mgmt.flashOp = none
      ∧ (∀ i, tabGet 0xFF#8 t.mgmt.flash i = if a ≤ i ∧ i < a + 65536 then 0xFF#8 else tabGet 0xFF#8 s.mgmt.flash i)
      ∧ changesOnly [.mgmt, .flash] s t))
  ∧ (∀ (s : State) (a : Nat) (b : Byte), s.mgmt.flashOp = some (.program a [b]) →
    goesOnWith (exec (.flashOpDone true) s) (fun t => t.mgmt.flashOp = none
      ∧ (∀ i, tabGet 0xFF#8 t.mgmt.flash i = if i = a then b &&& tabGet 0xFF#8 s.mgmt.flash a else tabGet 0xFF#8 s.mgmt.flash i)
      ∧ changesOnly [.mgmt, .flash] s t))
  ∧ (∀ (s : State) (a : Nat) (bs : List Byte), s.mgmt.flashOp = some (.program a bs) →
    goesOnWith (exec (.flashOpDone false) s) (fun t => t.mgmt.flashOp = none ∧ t.mgmt.flashFail = true
      ∧ (∀ i, (i < a ∨ a + bs.length ≤ i) → tabGet 0xFF#8 t.mgmt.flash i = tabGet 0xFF#8 s.mgmt.flash i)
      ∧ changesOnly [.mgmt, .flash, .freeCtr] s t))
  ∧ (∀ (s : State) (ir : BitVec 8),
    goesOnWith (exec (.jtagAccess ir) s) (fun t => t.mgmt.jtagOk = jtagPermits (lifecycle s) (Config.jtagClass ir.toNat)
      ∧ (t.mgmt.jtagOk = false → t.mgmt.jtagIr = s.mgmt.jtagIr ∧ t.mgmt.jtagData = s.mgmt.jtagData)
      ∧ (t.mgmt.jtagOk = true → t.mgmt.jtagIr = some ir.toNat
          ∧ (Config.jtagClass ir.toNat = 0 → t.mgmt.jtagData % 2 = 1 ∧ t.mgmt.jtagData / 2 ^ 12 = 2 ^ 16 + 0x09D0)
          ∧ (Config.jtagClass ir.toNat = 1 → t.mgmt.jtagData = 0))
      ∧ changesOnly [.mgmt, .freeCtr] s t))

/-- The order of commands, the model's form of "commands arrive": one step runs the command at the front of the queue on
the state with the queue's rest; with nothing waiting one tick of the time island passes, with what the block does in it of
its own (log entry 1): device time rises by the increment, up to its greatest value (R8). -/
def Obligations.StepTakesTheFront : Prop :=
  (∀ (s : State) (c : Instr) (rest : List Instr), s.pending = c :: rest → step s = exec c { s with pending := rest })
  ∧ (∀ s : State, s.pending = [] → goesOnWith (step s) (fun t => t = idle s ∧ t.now = min timeTop (s.now + tickInc s)
      ∧ t.up = s.up + tickInc s ∧ t.pending = []))

/-- R27, R48, R58, R99, R446, R468: what the machine is right after reset: BOOT_PHASE 0, nothing waiting, no fence
outstanding, the log empty, both lines disarmed and their interlock not low, no traverse with a pass or a kernel, nothing
programmed in the lifecycle bits (the model's choice of part; log entry 6), device time 0, and the invariants hold. -/
def Obligations.ResetState : Prop :=
  bootPhase State.reset = 0 ∧ State.reset.pending = [] ∧ State.reset.fu.out = [] ∧ State.reset.log.entries = []
  ∧ (∀ l : Fin 2, (vget State.reset.probe l).laserEn = false ∧ (vget State.reset.probe l).ilkLow = false
      ∧ isSet State.reset (psStatusArmed l.val) = false ∧ lineActive State.reset l.val = false)
  ∧ (∀ t : Fin 8, (vget State.reset.trav t).fg = [] ∧ (vget State.reset.trav t).bg = [] ∧ (vget State.reset.trav t).kern = none)
  ∧ (∀ a : Nat, regGet State.reset a = regReset a % 2 ^ 20)
  ∧ State.reset.keeper.mbx = [] ∧ lifecycle State.reset = 0 ∧ State.reset.now = 0 ∧ inStandby State.reset = false
  ∧ Safety.Inv State.reset ∧ interlocked State.reset

/-- R12, R27, R37, R38, R52, R229, R468: every step from a state with the invariants answers, if it answers a next state, one with
the invariants: the registers, the DRAM words, the exchange buffers, the management SRAM and the flash array stay in canonical form, at most 64
fences are outstanding, and the event log holds at most 1,024 entries. -/
def Obligations.StepKeepsInvariants : Prop :=
  ∀ s t : State, Safety.Inv s → step s = .next t → Safety.Inv t

/-- R48: no step unprograms OTP: lifecycle bits, thermometer and revocation bits only go from 0 to 1, a programmed key
slot keeps its hash, and the identity and the trim do not change; and, with no mailbox request waiting, every command but LIFECYCLE
and BOOT_COMPLETE leaves all of OTP as it is (R46, R50). -/
def Obligations.OtpOneWay : Prop :=
  (∀ s t : State, step s = .next t → otpKept s t)
  ∧ (∀ (s t : State) (c : Instr), s.keeper.mbx = [] → (∀ a k, c ≠ .mbxLifecycle a k) → c ≠ .mbxBootComplete → exec c s = .next t →
      t.keeper.otp = s.keeper.otp)

/-- R43, R99, R100: in every state that a step reaches from one where it held, a line whose interlock input is low has its
laser off: no command arms a line past its interlock, and the fall of the input disarms it. -/
def Obligations.LaserInterlock : Prop :=
  ∀ s t : State, interlocked s → step s = .next t → interlocked t

/-- The frame of the commands of the sensing path: launches, converters, traces, traverses and their lane instructions,
products, streams, the coder and the replay ring (R79 to R296). Wherever such a command answers a next state, nothing changes but
the parts of the state named beside it, and the queue of waiting commands does not. -/
def Obligations.FrameField : Prop :=
  (∀ (line : Fin 2) (slot : Fin 16), keepsAllBut [.regs, .probe] (.launchCmdArrive line slot))
  ∧ (∀ (line : Fin 2), keepsAllBut [.regs, .log, .probe, .pce, .time, .zn, .freeCtr] (.probeLaunch line) ∧ keepsAllBut [.regs,
    .log, .probe] (.envelopeSubwindowEnd line) ∧ keepsAllBut [.regs, .keeper, .log, .probe, .conv, .net, .zn] (.interlockTrip
    line) ∧ keepsAllBut [.probe] (.interlockRelease line) ∧ keepsAllBut [.regs, .log, .net, .zn] (.fibreBreakRaise line) ∧
    keepsAllBut [.regs] (.fibreBreakClear line) ∧ keepsAllBut [.conv] (.correctionStep line) ∧ keepsAllBut [.regs, .log,
    .conv] (.refFallback line) ∧ keepsAllBut [.conv] (.refSettled line) ∧ keepsAllBut [.regs, .conv, .hk] (.ramanFgCalStart
    line) ∧ keepsAllBut [.conv] (.ramanFgCalForce line) ∧ keepsAllBut [.regs, .conv, .hk] (.captureWindowEnd line) ∧
    keepsAllBut [.pce] (.recal line) ∧ keepsAllBut [.regs, .log, .fu, .pce, .freeCtr] (.launchMeasureDone line) ∧ keepsAllBut
    [.regs, .log, .pce] (.launchMeasureTimeout line) ∧ keepsAllBut [.sense] (.captureRequest line) ∧ keepsAllBut [.trav,
    .sense, .dram] (.captureStart line) ∧ keepsAllBut [.regs, .log, .sense] (.datumSlow line) ∧ keepsAllBut [.regs, .trav,
    .sense] (.ramanBlockEnd line) ∧ keepsAllBut [.regs, .trav, .sense] (.ramanBlockSelfPass line) ∧ keepsAllBut [.sense]
    (.coilcal line) ∧ keepsAllBut [.sense] (.coilCalResume line) ∧ keepsAllBut [.regs] (.calAgeExpiry line) ∧ keepsAllBut
    [.regs, .trav, .sense, .samples, .dram, .freeCtr] (.fusionStart line))
  ∧ (∀ (line : Fin 2) (input : Fin 4) (window : Option SkewWindow), keepsAllBut [.regs, .log, .conv] (.rotationStep line input
    window))
  ∧ (∀ (line : Fin 2) (input : Fin 4) (offset gain : Int) (thresholds : List Int), keepsAllBut [.conv] (.spareMeasureDone line
    input offset gain thresholds))
  ∧ (∀ (line : Fin 2) (input : Fin 4), keepsAllBut [.regs] (.priorityPassEnd line input))
  ∧ (∀ (line : Fin 2) (input : Fin 4) (values : List CalVal), keepsAllBut [.regs, .conv, .hk] (.fgCalInputDone line input values))
  ∧ (∀ (line : Fin 2) (values : List CalVal) (gains : List Nat), keepsAllBut [.regs, .keeper, .log, .probe, .conv, .freeCtr]
    (.fullFgCalDone line values gains) ∧ keepsAllBut [.regs, .conv] (.ramanFgCalDone line values gains))
  ∧ (∀ (line : Fin 2) (input : Fin 6) (length gap : Nat), keepsAllBut [.regs, .conv] (.overRange line input length gap))
  ∧ (∀ (line : Fin 2) (slot : Fin 16) (pol : Fin 2) (samples : List IQ), keepsAllBut [.regs, .log, .trav, .probe, .pce, .freeCtr]
    (.traceDeliver line slot pol samples))
  ∧ (∀ (t : Fin 8), keepsAllBut [.regs, .log, .trav, .pce, .sense, .samples, .dram, .freeCtr] (.shotPass t) ∧ keepsAllBut [.regs,
    .log, .trav, .sense, .samples, .dram, .xbuf, .freeCtr] (.outputPass t) ∧ keepsAllBut [.regs, .log, .trav, .sense,
    .samples, .dram, .xbuf, .freeCtr] (.ramanPass t) ∧ keepsAllBut [.regs, .log, .trav, .freeCtr] (.servicePass t) ∧
    keepsAllBut [.regs, .log, .trav, .sense, .samples, .dram, .xbuf, .freeCtr] (.backgroundSlice t) ∧ keepsAllBut [.regs,
    .log, .trav] (.passDrop t) ∧ keepsAllBut [.regs, .log, .trav, .freeCtr] (.nop t) ∧ keepsAllBut [.regs, .log, .trav,
    .samples, .freeCtr] (.end_ t))
  ∧ (∀ (t : Fin 8) (failLane : Option (Fin 64)), keepsAllBut [.regs, .book, .log, .fu, .trav, .pce, .sense, .net, .zn, .streams,
    .code, .xbuf] (.recoveryPass t failLane))
  ∧ (∀ (t : Fin 8) (src : Bool) (count : Fin 1024) (reg : Fin 32) (len : Fin 64), keepsAllBut [.regs, .log, .trav, .freeCtr] (.rep
    t src count reg len))
  ∧ (∀ (t : Fin 8) (p : Pred) (mode : Fin 4) (target : Fin 4096), keepsAllBut [.regs, .log, .trav, .freeCtr] (.br t p mode
    target))
  ∧ (∀ (t : Fin 8) (h : Fin 4), keepsAllBut [.regs, .log, .trav, .freeCtr] (.hook t h))
  ∧ (∀ (t : Fin 8) (g : Bool), keepsAllBut [.regs, .log, .trav, .freeCtr] (.mode t g))
  ∧ (∀ (t : Fin 8) (p : Pred), keepsAllBut [.regs, .log, .trav, .freeCtr] (.aovclr t p))
  ∧ (∀ (t : Fin 8) (n : Fin 64), keepsAllBut [.regs, .log, .trav, .freeCtr] (.wait t n))
  ∧ (∀ (t : Fin 8) (p : Pred) (m : FmtM), keepsAllBut [.regs, .log, .trav, .freeCtr] (.ld t p m) ∧ keepsAllBut [.regs, .log,
    .trav, .freeCtr] (.ldp t p m) ∧ keepsAllBut [.regs, .log, .trav, .freeCtr] (.st t p m) ∧ keepsAllBut [.regs, .log, .trav,
    .freeCtr] (.stp t p m) ∧ keepsAllBut [.regs, .log, .trav, .freeCtr] (.ald t p m) ∧ keepsAllBut [.regs, .log, .trav,
    .freeCtr] (.ast t p m))
  ∧ (∀ (t : Fin 8) (p : Pred) (f : FmtI), keepsAllBut [.regs, .log, .trav, .freeCtr] (.xld t p f) ∧ keepsAllBut [.regs, .log,
    .trav, .freeCtr] (.xadd t p f) ∧ keepsAllBut [.regs, .log, .trav, .freeCtr] (.alui t p f) ∧ keepsAllBut [.regs, .log,
    .trav, .freeCtr] (.cmpi t p f) ∧ keepsAllBut [.regs, .log, .trav, .freeCtr] (.prm t p f))
  ∧ (∀ (t : Fin 8) (p : Pred) (r : FmtR), keepsAllBut [.regs, .log, .trav, .freeCtr] (.alu t p r) ∧ keepsAllBut [.regs, .log,
    .trav, .freeCtr] (.alud t p r) ∧ keepsAllBut [.regs, .log, .trav, .freeCtr] (.cmp t p r) ∧ keepsAllBut [.regs, .log,
    .trav, .freeCtr] (.sel t p r) ∧ keepsAllBut [.regs, .log, .trav, .freeCtr] (.mac t p r) ∧ keepsAllBut [.regs, .log, .trav,
    .freeCtr] (.cmac t p r) ∧ keepsAllBut [.regs, .log, .trav, .freeCtr] (.dmac t p r) ∧ keepsAllBut [.regs, .log, .trav,
    .freeCtr] (.aop t p r) ∧ keepsAllBut [.regs, .log, .trav, .freeCtr] (.ash t p r) ∧ keepsAllBut [.regs, .log, .trav,
    .freeCtr] (.atst t p r) ∧ keepsAllBut [.regs, .log, .trav, .freeCtr] (.gmac t p r) ∧ keepsAllBut [.regs, .log, .trav,
    .freeCtr] (.atan t p r) ∧ keepsAllBut [.regs, .log, .trav, .freeCtr] (.mag t p r) ∧ keepsAllBut [.regs, .log, .trav,
    .freeCtr] (.mag2 t p r) ∧ keepsAllBut [.regs, .log, .trav, .freeCtr] (.unit t p r) ∧ keepsAllBut [.regs, .log, .trav,
    .freeCtr] (.rot t p r) ∧ keepsAllBut [.regs, .log, .trav, .freeCtr] (.lnr t p r) ∧ keepsAllBut [.regs, .log, .trav,
    .freeCtr] (.dbl t p r) ∧ keepsAllBut [.regs, .log, .trav, .freeCtr] (.expw t p r) ∧ keepsAllBut [.regs, .log, .trav,
    .freeCtr] (.div t p r) ∧ keepsAllBut [.regs, .log, .trav, .freeCtr] (.maxi t p r) ∧ keepsAllBut [.regs, .log, .trav,
    .freeCtr] (.mini t p r) ∧ keepsAllBut [.regs, .log, .trav, .freeCtr] (.xch t p r))
  ∧ (∀ (t : Fin 8) (p : Pred) (rd : Fin 32) (imm : BitVec 20) (w : Bool), keepsAllBut [.regs, .log, .trav, .freeCtr] (.movi t p rd
    imm w))
  ∧ (∀ (t : Fin 8) (p : Pred) (pair : Bool) (r : Fin 32), keepsAllBut [.regs, .log, .trav, .freeCtr] (.portInput t p pair r))
  ∧ (∀ (t : Fin 8) (p : Pred) (f : FmtP), keepsAllBut [.regs, .log, .trav, .freeCtr] (.portDramRead t p f) ∧ keepsAllBut [.regs,
    .log, .trav, .dram, .freeCtr] (.portDramWrite t p f))
  ∧ (∀ (t : Fin 8) (p : Pred) (r ra : Fin 32), keepsAllBut [.regs, .log, .trav, .freeCtr] (.portXbufRead t p r ra) ∧ keepsAllBut
    [.regs, .log, .trav, .xbuf, .freeCtr] (.portXbufWrite t p r ra))
  ∧ (∀ (t : Fin 8) (p : Pred) (o : FmtO), keepsAllBut [.regs, .log, .trav, .samples, .freeCtr] (.out t p o))
  ∧ (∀ (line : Fin 2) (asSamples stSamples asDark stDark : List Int), keepsAllBut [.regs, .trav, .probe, .conv, .sense]
    (.ramanCapture line asSamples stSamples asDark stDark))
  ∧ (∀ (n : Fin 256) (stamp : Nat), keepsAllBut [.regs, .net, .zn, .streams, .code] (.streamInput n stamp))
  ∧ (∀ (n : Fin 256) (d : Fin 4), keepsAllBut [.regs, .net, .streams, .code] (.detectorSummary n d))
  ∧ (keepsAllBut [.regs, .log, .streams] .syncNEdge ∧ keepsAllBut [.regs, .net, .code] .codeFrame ∧ keepsAllBut [.regs, .code]
    .ringWrite)
  ∧ (∀ (n : Fin 256), keepsAllBut [.regs, .log, .streams] (.stCmdSync n) ∧ keepsAllBut [.regs, .net, .streams, .code]
    (.streamReset n) ∧ keepsAllBut [.regs, .fu] (.swapRequest n) ∧ keepsAllBut [.code] (.ringGapTimeout n))
  ∧ (∀ (n : Fin 256) (value : BitVec 20), keepsAllBut [.regs, .streams] (.coefWrite n value))
  ∧ (∀ (c : Fin 16), keepsAllBut [.regs, .code] (.cursorStart c) ∧ keepsAllBut [.code] (.cursorStop c) ∧ keepsAllBut [.code]
    (.seekOldest c) ∧ keepsAllBut [.code] (.seekNewest c) ∧ keepsAllBut [.code] (.seekSerial c) ∧ keepsAllBut [.regs, .code]
    (.seekDone c) ∧ keepsAllBut [.regs, .net, .code] (.cursorRead c))

/-- The frame of the commands of housekeeping, time, the TDC, the serial lanes, the links and the chain (R297 to R409):
nothing changes but the parts of the state named beside each. -/
def Obligations.FrameLinks : Prop :=
  (∀ (z : Fin 4096), keepsAllBut [.regs, .net, .zn] (.zoneStaleTimeout z) ∧ keepsAllBut [.regs, .zn] (.zonePortUpdate z))
  ∧ (∀ (addr : Fin 4096), keepsAllBut [.zn] (.zqSelect addr) ∧ keepsAllBut [.zn] (.zqAddressChange addr))
  ∧ (keepsAllBut [.zn] .zqDeselect ∧ keepsAllBut [.regs, .zn] .zqForceTimeout ∧ keepsAllBut [.zn] .znAck ∧ keepsAllBut [.hk]
    .m1FrameStart ∧ keepsAllBut [.regs, .log, .hk] .hkRefWindowExit ∧ keepsAllBut [.hk] .hkRefRestore ∧ keepsAllBut [.regs,
    .log, .time, .hk, .freeCtr] .trefLoss ∧ keepsAllBut [.regs, .log, .time, .hk, .freeCtr] .timeNoClock ∧ keepsAllBut [.regs,
    .log, .time, .hk, .freeCtr] .timeRelock ∧ keepsAllBut [.regs, .time] .ppsLoss ∧ keepsAllBut [.regs, .time] .hostHoldover ∧
    keepsAllBut [.time] .ppsOutPulse ∧ keepsAllBut [.regs, .log, .probe, .time, .now] .timeAdjust ∧ keepsAllBut [.regs, .net]
    .timedLaunch ∧ keepsAllBut [.regs, .net, .time] .levelRunStart ∧ keepsAllBut [.regs, .log, .probe, .net, .time, .now,
    .freeCtr] .levelRunEnd)
  ∧ (∀ (pin : Fin 4), keepsAllBut [.zn] (.alarmStretchExpiry pin))
  ∧ (∀ (n : Fin 8), keepsAllBut [.zn] (.loopFaultTimer n) ∧ keepsAllBut [.regs, .keeper, .zn, .freeCtr] (.loopReleaseTimer n) ∧
    keepsAllBut [.regs, .keeper, .zn, .freeCtr] (.loopReleaseCmd n) ∧ keepsAllBut [.regs, .log] (.loopOpen n) ∧ keepsAllBut
    [.regs, .log] (.loopDeviation n))
  ∧ (∀ (n : Fin 8) (openCond : Bool), keepsAllBut [.regs] (.loopConditionClear n openCond))
  ∧ (∀ (d : Int), keepsAllBut [.regs, .hk, .zn, .freeCtr] (.m0ConversionEnd d))
  ∧ (∀ (ch : Fin 32) (value : Int) (isOver : Bool), keepsAllBut [.regs, .keeper, .log, .fu, .trav, .probe, .conv, .pce, .sense,
    .net, .time, .mem, .hk, .zn, .streams, .code] (.m1ConversionEnd ch value isOver))
  ∧ (∀ (count : Nat), keepsAllBut [.hk] (.notchLengthUpdate count))
  ∧ (∀ (ch : Fin 32), keepsAllBut [.regs, .hk] (.urgentRequest ch))
  ∧ (∀ (n : Fin 4) (openBalls : BitVec 4), keepsAllBut [.regs, .log, .sense, .hk, .zn] (.burnoutPulse n openBalls))
  ∧ (∀ (n : Fin 4), keepsAllBut [.hk, .zn] (.rtdOpenClear n))
  ∧ (∀ (is100 : Bool), keepsAllBut [.regs, .log, .time, .hk, .freeCtr] (.trefPresent is100))
  ∧ (∀ (e : Int) (tm : Nat), keepsAllBut [.regs, .log, .probe, .time, .now] (.disciplineMeasurement e tm))
  ∧ (∀ (q f : Nat), keepsAllBut [.regs, .log, .probe, .net, .time, .now, .freeCtr] (.ppsEdge q f))
  ∧ (∀ (src tag seq t : Nat), keepsAllBut [.regs, .log, .probe, .net, .time, .now, .freeCtr] (.timeSet src tag seq t) ∧
    keepsAllBut [.regs, .log, .probe, .net, .time, .now, .freeCtr] (.timeTrack src tag seq t))
  ∧ (∀ (src tag seq seconds : Nat), keepsAllBut [.regs, .net, .time, .freeCtr] (.timePpsLabel src tag seq seconds))
  ∧ (∀ (src : Fin 4), keepsAllBut [.regs, .freeCtr] (.timeSnapshot src))
  ∧ (∀ (ch : Fin 9) (falling : Bool) (q f : Nat), keepsAllBut [.regs, .log, .probe, .net, .time, .now, .freeCtr] (.tdcEdge ch
    falling q f))
  ∧ (∀ (g : Fin 4) (level : Bool), keepsAllBut [.time] (.tdcGateChange g level))
  ∧ (∀ (g : Fin 4), keepsAllBut [.time] (.tdcWindowEnd g))
  ∧ (∀ (ch : Fin 9), keepsAllBut [.time] (.tdcArm ch) ∧ keepsAllBut [.time] (.tdcDisarm ch) ∧ keepsAllBut [.regs, .time] (.tdcPop
    ch) ∧ keepsAllBut [.net, .time] (.tdcFlushTimer ch) ∧ keepsAllBut [.time] (.tdcCal ch) ∧ keepsAllBut [.regs, .log, .time]
    (.tdcCalTimeout ch) ∧ keepsAllBut [.time] (.tdcCalRetry ch) ∧ keepsAllBut [.time] (.tdcCalPeriod ch))
  ∧ (∀ (pair : Fin 4), keepsAllBut [.regs, .net, .time] (.tdcPairHoldEnd pair) ∧ keepsAllBut [.regs, .time] (.tdcPairWindowExpiry
    pair))
  ∧ (∀ (ch : Fin 9) (hist : List Nat), keepsAllBut [.regs, .log, .time] (.tdcCalComplete ch hist))
  ∧ (∀ (line : Fin 2), keepsAllBut [.regs, .log, .time] (.monWindowExpiry line))
  ∧ (∀ (q : Fin 3) (present : BitVec 4), keepsAllBut [.net] (.laneDetectDone q present))
  ∧ (∀ (q : Fin 3), keepsAllBut [.net] (.absentRetry q) ∧ keepsAllBut [.regs, .net] (.linkActive q) ∧ keepsAllBut [.regs, .net]
    (.blindTimeout q) ∧ keepsAllBut [.net] (.downRetry q) ∧ keepsAllBut [.net] (.orderedSetInsert q) ∧ keepsAllBut [.net]
    (.idleWake q) ∧ keepsAllBut [.regs, .net] (.linkReset q) ∧ keepsAllBut [.net] (.feLoopbackExit q))
  ∧ (∀ (q : Fin 3) (p : Fin 4) (symbols : List Nat), keepsAllBut [.net] (.trainingSetReceived q p symbols))
  ∧ (∀ (q : Fin 3) (lanes : BitVec 4), keepsAllBut [.regs, .log, .net] (.trainStepPass q lanes) ∧ keepsAllBut [.regs, .log, .net]
    (.trainStepTimeout q lanes))
  ∧ (∀ (q : Fin 3) (p : Fin 4), keepsAllBut [.regs, .log, .net] (.laneLos q p) ∧ keepsAllBut [.net] (.losDetectReturn q p))
  ∧ (∀ (q : Fin 3) (cause : Fin 8), keepsAllBut [.regs, .net] (.linkFaultDetect q cause))
  ∧ (∀ (l : Fin 3) (grants : List Nat), keepsAllBut [.net] (.credit l grants))
  ∧ (∀ (l : Fin 3), keepsAllBut [.net] (.creditSend l))
  ∧ (∀ (l : Fin 3) (tag src : Nat) (addr : BitVec 20) (count : Nat), keepsAllBut [.regs, .net, .mgmt, .freeCtr] (.read l tag src
    addr count))
  ∧ (∀ (l : Fin 3) (tag src : Nat) (addr mask : BitVec 20) (values : List (BitVec 20)), keepsAllBut [.regs, .keeper, .log, .fu,
    .trav, .pce, .sense, .net, .time, .hk, .zn, .streams, .code, .mgmt, .freeCtr] (.write l tag src addr mask values))
  ∧ (∀ (l : Fin 3) (tag src : Nat) (words : List Word), keepsAllBut [.regs, .net] (.timedSend l tag src words))
  ∧ (∀ (l : Fin 3) (symbols : List Nat), keepsAllBut [.regs, .cfg, .keeper, .book, .log, .fu, .trav, .probe, .pce, .sense, .net,
    .time, .hk, .zn, .streams, .code, .mgmt, .now, .freeCtr] (.frameForward l symbols))
  ∧ (∀ (l : Fin 3) (frame : Frame) (stamp : Nat), keepsAllBut [.regs, .net] (.levelReq l frame stamp) ∧ keepsAllBut [.regs, .net]
    (.levelResp l frame stamp))
  ∧ (∀ (l : Fin 3) (frame : Frame), keepsAllBut [.regs, .log, .net, .streams] (.chainSync l frame))

/-- The frame of the commands of reset, boot, the mailbox, fences and amendments, memory, clocks and the management plane
(R21 to R78, R410 to R474): nothing changes but the parts of the state named beside each; for a mailbox request, where no other request waits (R42). OTP is
a part of its own. -/
def Obligations.FrameSystem : Prop :=
  (keepsAllBut [.regs, .cfg, .keeper, .book, .log, .fu, .trav, .probe, .conv, .pce, .sense, .net, .time, .mem, .hk, .zn,
    .streams, .code, .mgmt, .flash, .samples, .dram, .xbuf, .now, .up, .freeCtr] .powerOnReset ∧ keepsAllBut [.keeper]
    .pwrgoodRise ∧ keepsAllBut [.regs, .cfg, .keeper, .book, .log, .fu, .trav, .probe, .conv, .pce, .sense, .net, .time, .mem,
    .hk, .zn, .streams, .code, .mgmt, .flash, .samples, .dram, .xbuf, .now, .up, .freeCtr] .pwrgoodFall ∧ keepsAllBut [.regs,
    .cfg, .keeper, .book, .log, .fu, .trav, .probe, .conv, .pce, .sense, .net, .time, .mem, .hk, .zn, .streams, .code, .mgmt,
    .flash, .samples, .dram, .xbuf, .now, .up, .freeCtr] .resetNLow ∧ keepsAllBut [.keeper] .resetNRise ∧ keepsAllBut [.regs,
    .keeper, .log, .time, .hk, .freeCtr] .otpReadDone ∧ keepsAllBut [.keeper, .mgmt] .stagingFilled ∧ keepsAllBut [.regs,
    .mem, .mgmt] .stage1Release ∧ keepsAllBut [.regs, .cfg, .book, .conv, .hk] .stage2Loaded ∧ keepsAllBut [.regs, .cfg,
    .book, .log, .fu, .trav, .probe, .conv, .pce, .sense, .net, .time, .hk, .zn, .streams, .code, .xbuf, .freeCtr]
    .planApplied ∧ keepsAllBut [.regs, .net] .scsFinalLock ∧ answersBut [.regs, .keeper] .mbxHeartbeat ∧ answersBut [.regs,
    .keeper, .otp] .mbxBootComplete ∧ answersBut [.regs, .cfg, .keeper, .book, .log, .fu, .trav, .probe, .conv, .pce, .sense,
    .net, .time, .mem, .hk, .zn, .streams, .code, .mgmt, .flash, .samples, .dram, .xbuf, .now, .up, .freeCtr] .mbxResetWarm ∧
    answersBut [.regs, .cfg, .keeper, .book, .log, .fu, .trav, .probe, .conv, .pce, .sense, .net, .time, .mem, .hk, .zn,
    .streams, .code, .mgmt, .flash, .samples, .dram, .xbuf, .now, .up, .freeCtr] .mbxResetCold ∧ answersBut [.regs, .keeper,
    .log, .fu, .trav, .probe, .conv, .pce, .sense, .net, .time, .mem, .hk, .zn, .streams, .code] .mbxStandbyEnter ∧ answersBut
    [.regs, .keeper, .conv, .net, .mem, .hk, .freeCtr] .mbxStandbyExit ∧ keepsAllBut [.regs, .cfg, .keeper, .book, .log, .fu,
    .trav, .probe, .conv, .pce, .sense, .net, .time, .mem, .hk, .zn, .streams, .code, .mgmt, .flash, .samples, .dram, .xbuf,
    .now, .up, .freeCtr] .watchdogPeriodExpiry ∧ keepsAllBut [.regs, .cfg, .keeper, .book, .log, .fu, .trav, .probe, .conv,
    .pce, .sense, .net, .time, .mem, .hk, .zn, .streams, .code, .mgmt, .flash, .samples, .dram, .xbuf, .now, .up, .freeCtr]
    .warmHashCheck ∧ keepsAllBut [.regs, .keeper, .conv, .net, .mem, .hk] .standbyThermalExit ∧ keepsAllBut [.regs, .cfg,
    .keeper, .book, .log, .fu, .trav, .probe, .conv, .pce, .sense, .net, .time, .mem, .hk, .zn, .streams, .code, .mgmt,
    .flash, .samples, .dram, .xbuf, .now, .up, .freeCtr] .resetCmd ∧ keepsAllBut [.regs, .keeper, .book, .log, .fu, .trav,
    .probe, .conv, .pce, .sense, .net, .time, .mem, .hk, .zn, .streams, .code, .freeCtr] .standbyCmd ∧ keepsAllBut [.regs,
    .cfg, .keeper, .book, .log, .fu, .trav, .probe, .conv, .pce, .sense, .net, .time, .hk, .zn, .streams, .code, .mgmt, .now,
    .freeCtr] .fenceComplete ∧ keepsAllBut [.regs, .fu] .rwfAutoFence ∧ keepsAllBut [.regs, .book, .log, .trav, .sense, .net,
    .mem, .zn, .streams, .code, .xbuf] .freqChangeDone ∧ keepsAllBut [.mem] .thermalReturn ∧ keepsAllBut [.regs, .cfg,
    .keeper, .book, .log, .fu, .trav, .probe, .conv, .pce, .sense, .net, .time, .mem, .hk, .zn, .streams, .code, .mgmt,
    .flash, .samples, .dram, .xbuf, .now, .up, .freeCtr] .freezeTimeout ∧ keepsAllBut [.regs, .book, .log, .trav, .sense,
    .net, .mem, .zn, .streams, .code, .dram, .xbuf, .freeCtr] .channelLossDone ∧ keepsAllBut [.regs] .c3AgePromote ∧
    keepsAllBut [.regs, .cfg, .keeper, .book, .log, .fu, .trav, .probe, .conv, .pce, .sense, .net, .time, .mem, .hk, .zn,
    .streams, .code, .mgmt, .flash, .samples, .dram, .xbuf, .now, .up, .freeCtr] .standbyExitStep ∧ keepsAllBut [.regs,
    .keeper, .log, .fu, .probe, .conv, .net, .zn] .scsLockLoss ∧ keepsAllBut [.regs, .keeper, .log, .trav, .probe, .conv,
    .pce, .sense, .net, .hk, .zn, .streams, .code, .xbuf] .scsRelock ∧ keepsAllBut [.regs, .keeper, .log, .net, .time, .hk,
    .freeCtr] .refclkLoss ∧ keepsAllBut [.regs, .keeper, .log, .fu, .probe, .conv, .net, .zn] .scsFreerunTimeout ∧ keepsAllBut
    [.regs, .keeper, .log, .net, .time, .hk, .freeCtr] .refclkReturn ∧ keepsAllBut [.regs, .keeper, .log, .fu, .probe, .conv,
    .net, .time, .hk, .zn, .freeCtr] .refclkAltLoss ∧ keepsAllBut [.mgmt] .svcStatus ∧ keepsAllBut [.regs, .keeper, .log,
    .time, .hk, .freeCtr] .refclkAltPresent ∧ keepsAllBut [.regs, .cfg, .keeper, .book, .log, .fu, .trav, .probe, .conv, .pce,
    .sense, .net, .time, .mem, .hk, .zn, .streams, .code, .mgmt, .flash, .samples, .dram, .xbuf, .now, .up, .freeCtr]
    .keeperSramError ∧ keepsAllBut [.regs, .mgmt] .snapshotComplete)
  ∧ (∀ (sfdp : Option (Nat × Nat)), keepsAllBut [.regs, .keeper, .mgmt] (.xspiInitDone sfdp))
  ∧ (∀ (readA readB : Bool), keepsAllBut [.regs, .cfg, .keeper, .book, .log, .fu, .trav, .probe, .conv, .zn, .mgmt]
    (.imageVerificationDone readA readB))
  ∧ (∀ (t : Fin 8) (failLane : Option (Fin 64)), keepsAllBut [.regs, .keeper, .book, .log, .fu, .trav, .pce, .sense, .net, .zn,
    .streams, .code, .xbuf] (.selfTestDone t failLane))
  ∧ (∀ (line : Fin 2), answersBut [.regs, .keeper, .log, .probe, .conv, .freeCtr] (.mbxLaserArm line) ∧ answersBut [.regs,
    .keeper, .log, .probe, .conv, .net, .zn] (.mbxLaserDisarm line) ∧ answersBut [.regs, .keeper, .log, .fu, .trav, .probe,
    .conv, .pce, .sense, .net, .time, .hk, .zn, .streams, .code, .xbuf] (.mbxResetLine line) ∧ answersBut [.regs, .keeper,
    .net, .zn, .freeCtr] (.mbxStaleClear line) ∧ keepsAllBut [.regs, .keeper, .log, .probe, .conv, .pce, .hk, .freeCtr]
    (.lineResetDone line))
  ∧ (∀ (sp : Fin 3), answersBut [.regs, .keeper, .mem, .freeCtr] (.mbxDramFreq sp))
  ∧ (∀ (amendedPlan : Bool), answersBut [.regs, .keeper] (.mbxRecordHash amendedPlan))
  ∧ (∀ (n : Fin 8), answersBut [.regs, .keeper, .zn, .freeCtr] (.mbxLoopRelease n))
  ∧ (∀ (addr : Nat) (token : List Word), answersBut [.regs, .keeper, .otp, .book, .log, .probe, .conv, .code, .mgmt, .dram,
    .freeCtr] (.mbxLifecycle addr token))
  ∧ (∀ (code : Fin 1024), answersBut [.regs, .keeper] (.mbxBadCode code))
  ∧ (∀ (scope : BitVec 18), keepsAllBut [.regs, .fu] (.fenceIssue scope))
  ∧ (∀ (island : Fin 18) (id : Fin 1024), keepsAllBut [.regs, .cfg, .keeper, .book, .log, .fu, .trav, .probe, .conv, .pce, .sense,
    .net, .time, .hk, .zn, .streams, .code, .mgmt, .now, .freeCtr] (.fenceAck island id))
  ∧ (∀ (id : Fin 1024), keepsAllBut [.fu] (.fenceTimeout id))
  ∧ (∀ (t : Fin 8), keepsAllBut [.regs, .trav] (.traverseClockChangeDone t))
  ∧ (∀ (link : Fin 3) (words : List Word), keepsAllBut [.regs, .cfg, .keeper, .book, .fu, .probe, .net] (.amend link words))
  ∧ (∀ (l : Fin 3), keepsAllBut [.net] (.featureOfferRepeat l) ∧ keepsAllBut [.net] (.featureChangedRepeat l))
  ∧ (∀ (l : Fin 3) (word : BitVec 60) (serial : Fin 1024), keepsAllBut [.regs, .net] (.featureAccept l word serial))
  ∧ (∀ (l : Fin 3) (word : BitVec 60) (serial : Fin 1024) (changed : Bool), keepsAllBut [.regs, .net] (.featureOfferReceived l
    word serial changed))
  ∧ (∀ (failed : BitVec 8), keepsAllBut [.regs, .keeper, .book, .log, .fu, .trav, .probe, .conv, .sense, .net, .mem, .zn,
    .streams, .code, .xbuf] (.dramTrainingDone failed))
  ∧ (∀ (drift : List Int), keepsAllBut [.mem] (.dqsOscRead drift))
  ∧ (∀ (ch : Fin 4), keepsAllBut [.regs, .mem] (.shortRetrainStart ch))
  ∧ (∀ (ch : Fin 4) (pass : Bool), keepsAllBut [.regs, .cfg, .keeper, .book, .log, .fu, .trav, .probe, .conv, .pce, .sense, .net,
    .time, .mem, .hk, .zn, .streams, .code, .mgmt, .flash, .samples, .dram, .xbuf, .now, .up, .freeCtr]
    (.trainingCollectionDone ch pass))
  ∧ (∀ (addr : Nat) (single double other : Bool), keepsAllBut [.regs, .cfg, .keeper, .book, .log, .fu, .trav, .probe, .conv, .pce,
    .sense, .net, .time, .mem, .hk, .zn, .streams, .code, .mgmt, .flash, .samples, .dram, .xbuf, .now, .up, .freeCtr]
    (.dramRead addr single double other))
  ∧ (∀ (intact : Bool), keepsAllBut [.regs, .cfg, .keeper, .book, .log, .fu, .trav, .probe, .conv, .pce, .sense, .net, .time,
    .mem, .hk, .zn, .streams, .code, .mgmt, .flash, .samples, .dram, .xbuf, .now, .up, .freeCtr] (.freezeEnd intact))
  ∧ (∀ (single double other : Bool), keepsAllBut [.regs, .cfg, .keeper, .book, .log, .fu, .trav, .probe, .conv, .pce, .sense,
    .net, .time, .mem, .hk, .zn, .streams, .code, .mgmt, .flash, .samples, .dram, .xbuf, .now, .up, .freeCtr] (.scrubRead
    single double other))
  ∧ (∀ (path : Path), keepsAllBut [.regs, .keeper, .log, .fu, .trav, .pce, .sense, .net, .time, .hk, .zn, .streams, .code, .mgmt,
    .freeCtr] (.hostFenceIssue path) ∧ keepsAllBut [.mgmt] (.loStageExpiry path))
  ∧ (∀ (path : Path) (clear : Bool) (count : Fin 8), keepsAllBut [.regs, .keeper, .log, .fu, .trav, .pce, .sense, .net, .time,
    .hk, .zn, .streams, .code, .mgmt, .freeCtr] (.registerSnapshot path clear count))
  ∧ (∀ (path : Path) (addr : BitVec 20), keepsAllBut [.regs, .mgmt, .freeCtr] (.loReadCapture path addr) ∧ keepsAllBut [.regs,
    .mgmt, .freeCtr] (.hiReadShadow path addr) ∧ keepsAllBut [.regs, .mgmt, .freeCtr] (.rcRead path addr))
  ∧ (∀ (path : Path) (addr value mask : BitVec 20), keepsAllBut [.regs, .keeper, .log, .fu, .trav, .pce, .sense, .net, .time, .hk,
    .zn, .streams, .code, .mgmt, .freeCtr] (.loWriteStage path addr value mask) ∧ keepsAllBut [.regs, .keeper, .log, .fu,
    .trav, .pce, .sense, .net, .time, .hk, .zn, .streams, .code, .mgmt, .freeCtr] (.hiWriteCommit path addr value mask) ∧
    keepsAllBut [.regs, .keeper, .log, .fu, .trav, .pce, .sense, .net, .time, .hk, .zn, .streams, .code, .mgmt, .freeCtr]
    (.registerWrite path addr value mask))
  ∧ (∀ (index : Fin 1024), keepsAllBut [.regs] (.eventLogSelect index))
  ∧ (∀ (addr : BitVec 24) (count : Nat), keepsAllBut [.regs, .mgmt, .freeCtr] (.svcRegRead addr count))
  ∧ (∀ (addr mask : BitVec 24) (values : List (BitVec 24)), keepsAllBut [.regs, .keeper, .log, .fu, .trav, .pce, .sense, .net,
    .time, .hk, .zn, .streams, .code, .mgmt, .freeCtr] (.svcRegWrite addr mask values))
  ∧ (∀ (addr : BitVec 32) (count : Nat), keepsAllBut [.mgmt] (.flashRead addr count))
  ∧ (∀ (addr : BitVec 32) (bytes : List Byte), keepsAllBut [.mgmt] (.flashProgram addr bytes))
  ∧ (∀ (addr : BitVec 32), keepsAllBut [.mgmt] (.flashErase addr))
  ∧ (∀ (ok : Bool), keepsAllBut [.mgmt, .flash, .freeCtr] (.flashOpDone ok))
  ∧ (∀ (q : Fin 3) (p : Fin 4), keepsAllBut [.net] (.eiosReceived q p))
  ∧ (∀ (hot cool : Bool), keepsAllBut [.mem] (.mr4Readout hot cool))
  ∧ (∀ (ir : BitVec 8), keepsAllBut [.mgmt, .freeCtr] (.jtagAccess ir))

/-- Registers that a command does not own stay as they are (R12): of each command named, the addresses of the only
registers it writes, 0x403 BM_MBX, 0x404 BM_WDOG, 0x400 BM_STATE, 0xF008 EV_LOST and those of the command's own block (of a mailbox request, where no other waits; R42). Every
other register of the management space reads from its stored bits what it read before. -/
def Obligations.RegistersWritten : Prop :=
  (answersRegs [0x403] .mbxBootComplete)
  ∧ (∀ (c : Fin 1024), answersRegs [0x403] (.mbxBadCode c))
  ∧ (∀ (sp : Fin 3), answersRegs [0x403] (.mbxDramFreq sp))
  ∧ (∀ (b : Bool), answersRegs [0x403] (.mbxRecordHash b))
  ∧ (∀ (n : Fin 8), answersRegs [0x403] (.mbxLoopRelease n) ∧ writesRegs [0x403] (.loopReleaseTimer n) ∧ writesRegs [0x403]
    (.loopReleaseCmd n))
  ∧ (answersRegs [0x403, 0x404] .mbxHeartbeat)
  ∧ (∀ (a : Nat) (k : List Word), answersRegs [0x403, 0xF008, 0x1800, 0x1802, 0x1804, 0x1C00, 0x1C02, 0x1C04] (.mbxLifecycle a k))
  ∧ (answersRegs [0x403, 0x1000, 0x1400, 0xC802] .mbxStandbyExit)
  ∧ (∀ (l : Fin 2), answersRegs [0x403, 0xF008, 0x1800 + 1024 * l.val, 0x1802 + 1024 * l.val, 0x1804 + 1024 * l.val] (.mbxLaserArm
    l))
  ∧ (∀ (l : Fin 2), answersRegs [0x403, 0xF008, 0x1800 + 1024 * l.val, 0x1802 + 1024 * l.val, 0x1804 + 1024 * l.val, 0xC408,
    0xC409, 0xC40A] (.mbxLaserDisarm l))
  ∧ (∀ (l : Fin 2), writesRegs [0xF008, 0x1800 + 1024 * l.val, 0x1802 + 1024 * l.val, 0x1804 + 1024 * l.val, 0xC408, 0xC409,
    0xC40A] (.interlockTrip l))
  ∧ (∀ (l : Fin 2), writesRegs [0xF008, 0x1800 + 1024 * l.val, 0x1805 + 1024 * l.val, 0xC408, 0xC409, 0xC40A] (.fibreBreakRaise
    l))
  ∧ (∀ (l : Fin 2), writesRegs [0x1805 + 1024 * l.val] (.fibreBreakClear l))
  ∧ (∀ (l : Fin 2) (k : Fin 16), writesRegs [0x1803 + 1024 * l.val] (.launchCmdArrive l k))
  ∧ (∀ (l : Fin 2), writesRegs [0xF008, 0x400, 0x1802 + 1024 * l.val, 0x1804 + 1024 * l.val] (.probeLaunch l))
  ∧ (∀ (l : Fin 2), writesRegs [0xF008, 0x1802 + 1024 * l.val, 0x1804 + 1024 * l.val] (.envelopeSubwindowEnd l))
  ∧ (∀ (l : Fin 2) (i : Fin 4), writesRegs [0x1000 + 1024 * l.val] (.priorityPassEnd l i))
  ∧ (∀ (l : Fin 2), writesRegs [0xF008, 0x1000 + 1024 * l.val] (.refFallback l))
  ∧ (∀ (l : Fin 2), writesRegs [0xC802, 0x1000 + 1024 * l.val, 0x1001 + 1024 * l.val] (.ramanFgCalStart l))
  ∧ (∀ (l : Fin 2) (i : Fin 6) (n g : Nat), writesRegs [0x1008 + 1024 * l.val + i.val] (.overRange l i n g))
  ∧ (∀ (l : Fin 2), writesRegs [0xF008, 0x22, 0x2000 + 1024 * l.val, 0x2003 + 1024 * l.val] (.launchMeasureDone l))
  ∧ (∀ (l : Fin 2), writesRegs [0xF008, 0x2000 + 1024 * l.val] (.launchMeasureTimeout l))
  ∧ (∀ (t : Fin 8), writesRegs [0xF008] (.passDrop t))
  ∧ (∀ (l : Fin 2), writesRegs [0xF008] (.datumSlow l))
  ∧ (∀ (t : Fin 8), writesRegs [0x4001 + 1024 * t.val] (.traverseClockChangeDone t))
  ∧ (∀ (l : Fin 2), writesRegs [0x3006 + 16 * l.val] (.calAgeExpiry l))
  ∧ (∀ (l : Fin 2), writesRegs [0x300A + 16 * l.val, 0x300B + 16 * l.val] (.fusionStart l))
  ∧ (∀ (n : Fin 256), writesRegs [0x800E + 64 * n.val] (.swapRequest n))
  ∧ (∀ (n : Fin 256) (v : BitVec 20), writesRegs [0x8018 + 64 * n.val] (.coefWrite n v))
  ∧ (∀ (n : Fin 256), writesRegs [0xF008, 0x8019 + 64 * n.val] (.stCmdSync n))
  ∧ (∀ (c : Fin 16), writesRegs [0xC044 + 8 * c.val] (.cursorStart c))
  ∧ (∀ (c : Fin 16), writesRegs [0xC044 + 8 * c.val, 0xC047 + 8 * c.val] (.seekDone c))
  ∧ (∀ (c : Fin 16), writesRegs [0xC00D, 0xC044 + 8 * c.val] (.cursorRead c))
  ∧ (∀ (z : Fin 4096), writesRegs [0xC408] (.zonePortUpdate z))
  ∧ (∀ (z : Fin 4096), writesRegs [0xC408, 0xC409, 0xC40A] (.zoneStaleTimeout z))
  ∧ (writesRegs [0xC408] .zqForceTimeout)
  ∧ (∀ (n : Fin 8), writesRegs [0xF008, 0xC900 + 8 * n.val] (.loopOpen n) ∧ writesRegs [0xF008, 0xC900 + 8 * n.val]
    (.loopDeviation n))
  ∧ (∀ (n : Fin 8) (b : Bool), writesRegs [0xC900 + 8 * n.val] (.loopConditionClear n b))
  ∧ (∀ (d : Int), writesRegs [0xC800, 0xC803] (.m0ConversionEnd d))
  ∧ (writesRegs [0xF008, 0xC800, 0xC803] .hkRefWindowExit)
  ∧ (∀ (c : Fin 32), writesRegs [0xC802] (.urgentRequest c))
  ∧ (∀ (n : Fin 4) (b : BitVec 4), writesRegs [0xF008, 0xC803, 0xC808 + n.val] (.burnoutPulse n b))
  ∧ (∀ (p : Fin 4), writesRegs [0x802, 0x803, 0x804, 0x805, 0x806, 0x807] (.timeSnapshot p))
  ∧ (writesRegs [0x808, 0x809] .hostHoldover ∧ writesRegs [0x808, 0x809] .ppsLoss)
  ∧ (∀ (c : Fin 9), writesRegs ((List.range 8).map (fun k => 0xC22 + 16 * c.val + k)) (.tdcPop c))
  ∧ (∀ (k : Fin 4), writesRegs [0xD03 + 16 * k.val] (.tdcPairWindowExpiry k))
  ∧ (∀ (l : Fin 2), writesRegs (0xF008 :: (List.range 9).map (fun c => 0xD05 + 8 * c)) (.monWindowExpiry l))
  ∧ (∀ (c : Fin 9), writesRegs [0xF008, 0xC01, 0xD06 + 8 * c.val] (.tdcCalTimeout c))
  ∧ (∀ (q : Fin 3), writesRegs [0x400] (.blindTimeout q))
  ∧ (∀ (q : Fin 3) (k : Fin 4), writesRegs ([0xF008, 0x400, 0xC40A] ++ (List.range 12).map (fun n => 0x11 + n) ++ (List.range
    3).map (fun n => 0xD003 + 32 * n) ++ (List.range 3).map (fun n => 0xD400 + 32 * n) ++ (List.range 256).map (fun n =>
    0x8014 + 64 * n)) (.laneLos q k))
  ∧ (∀ (q : Fin 3) (c : Fin 8), writesRegs [0xD003 + 32 * q.val] (.linkFaultDetect q c))
  ∧ (writesRegs [0xD481, 0x808, 0x809] .levelRunStart)
  ∧ (∀ (l : Fin 3) (f : Frame) (t : Nat), writesRegs [0xD402 + 32 * l.val] (.levelReq l f t) ∧ writesRegs [0xD402 + 32 * l.val]
    (.levelResp l f t))
  ∧ (∀ (l : Fin 3) (w : BitVec 60) (n : Fin 1024) (b : Bool), writesRegs [0xD402 + 32 * l.val] (.featureOfferReceived l w n b))
  ∧ (∀ (x : BitVec 18), writesRegs [0x22] (.fenceIssue x))
  ∧ (writesRegs [0x22] .rwfAutoFence)
  ∧ (∀ (x : Option (Nat × Nat)), writesRegs [0x400] (.xspiInitDone x))
  ∧ (writesRegs [0x400, 0x401, 0x404] .stage1Release)
  ∧ (writesRegs [0x400, 0x1000, 0x1001, 0x1400, 0x1401, 0xC802] .stage2Loaded)
  ∧ (writesRegs [0x400] .scsFinalLock)
  ∧ (∀ (c : Fin 4), writesRegs [0xE009] (.shortRetrainStart c))
  ∧ (writesRegs [0xE008] .c3AgePromote)
  ∧ (writesRegs [0x32, 0x33, 0x34, 0x35, 0x36, 0x37, 0x38, 0x39, 0x3A] .snapshotComplete)
  ∧ (∀ (i : Fin 1024), writesRegs [0xF002, 0xF004, 0xF005, 0xF006, 0xF007] (.eventLogSelect i))

/-- R457: a read on a path of an address that holds no defined register gives 0 with UNMAPPED, and changes no register; a
write to it gives UNMAPPED and changes no register; a read of a register whose island is held gives BUSY, and so does a write
that passes the checks of ownership and class, which come first (the model's order; log entry 94); blocks 0x000, 0x001,
0x031 and 0x03C are never busy. -/
def Obligations.UnmappedAndBusy : Prop :=
  (∀ (s : State) (p : Path) (a : BitVec 20), regDefined a.toNat = false →
    goesOnWith (exec (.rcRead p a) s) (fun t => (pathOf t p).status = 3 ∧ (pathOf t p).values = [0] ∧ t.regs = s.regs))
  ∧ (∀ (s : State) (p : Path) (a v m : BitVec 20), regDefined a.toNat = false →
    goesOnWith (exec (.registerWrite p a v m) s) (fun t => (pathOf t p).status = 3 ∧ t.regs = s.regs ∧ t.fu = s.fu))
  ∧ (∀ (s : State) (p : Path) (a : BitVec 20), regDefined a.toNat = true → regBusy s a.toNat = true →
    goesOnWith (exec (.rcRead p a) s) (fun t => (pathOf t p).status = 5 ∧ t.regs = s.regs))
  ∧ (∀ (s : State) (p : Path) (a v m : BitVec 20), regDefined a.toNat = true → benchOwned a.toNat m.toNat = false →
    classOk s a.toNat m.toNat = true → regBusy s a.toNat = true →
    goesOnWith (exec (.registerWrite p a v m) s) (fun t => (pathOf t p).status = 5 ∧ t.regs = s.regs ∧ t.fu = s.fu))
  ∧ (∀ (s : State) (a : Nat), (a / 1024 = 0 ∨ a / 1024 = 1 ∨ a / 1024 = 0x31 ∨ a / 1024 = 0x3C) → regBusy s a = false)

/-- R425: each channel is TRAINED or UNTRAINED at each set point (a bit of its training state), and DRAM_FREQ to a set point
at which an in-service channel is UNTRAINED starts no change and is refused, in every state; a set point that is usable has
every in-service channel TRAINED. -/
def Obligations.UsableSetPoint : Prop :=
  (∀ (s : State) (ch : Fin 4) (sp : Fin 3), bitOf (vget s.mem.ch ch).trained sp.val = true
    ∨ bitOf (vget s.mem.ch ch).trained sp.val = false)
  ∧ (∀ (s : State) (sp : Fin 3), spUsable s sp.val = true →
      ∀ ch : Fin 4, (vget s.mem.ch ch).inService = true → bitOf (vget s.mem.ch ch).trained sp.val = true)
  ∧ (∀ (s : State) (sp : Fin 3) (ch : Fin 4), keeperRuns s = true → s.keeper.mbx = [] → (vget s.mem.ch ch).inService = true →
      bitOf (vget s.mem.ch ch).trained sp.val = false →
      goesOnWith (exec (.mbxDramFreq sp) s) (fun t => t.mem = s.mem ∧ getF t bmMbxLastCode = 7 ∧ getF t bmMbxLastStatus ≠ 0))

/-- R47: entry to RETURN disarms both lasers, revokes every integrator key slot and leaves every DRAM word zero, the ring's
entries, the amended plan and the copy of Fieldbook with them; in RETURN LASER_ARM is refused with REFUSED_STATE and arms nothing. -/
def Obligations.ReturnEntry : Prop :=
  (∀ (s : State) (x : Nat) (ws : List Word) (k : Token), keeperRuns s = true → s.keeper.mbx = [] → tokenSeen s x ws = some k →
    k.ask = .toState 3 → byVendor s k = true → k.uid = s.keeper.otp.uid → lifecycle s < 3 →
    goesOnWith (exec (.mbxLifecycle x ws) s) (fun t => lifecycle t = 3
      ∧ (∀ l : Fin 2, (vget t.probe l).laserEn = false ∧ isSet t (psStatusArmed l.val) = false)
      ∧ (∀ n : Fin 4, keyRevoked t n = true) ∧ (∀ a, tabGet (0 : Word) t.dram a = 0)
      ∧ t.code.ring = [] ∧ t.book.amended = [] ∧ t.book.fieldCopy = []
      ∧ getF t bmMbxLastCode = 11 ∧ getF t bmMbxLastStatus = 0))
  ∧ (∀ (s : State) (l : Fin 2), keeperRuns s = true → s.keeper.mbx = [] → lifecycle s = 3 →
    goesOnWith (exec (.mbxLaserArm l) s) (fun t => getF t bmMbxLastCode = 3 ∧ getF t bmMbxLastStatus = 1 ∧ t.probe = s.probe
      ∧ changesOnly [.regs, .keeper] s t))

/-- R278 to R282, R285: the coder loses nothing: for a source of `h` prefix words and `m` elements of `e` fields, the first of
`o` words, the decoder rebuilds exactly the source from the coded block, whatever words follow the block. -/
def Obligations.CoderRoundTrip : Prop :=
  ∀ (src rest : List Word) (h m e o : Nat), 1 ≤ e → e ≤ 3 → 1 ≤ o → o ≤ 4 → src.length = h + m * (o + e - 1) →
    src.length ≤ 8192 → decodeBlock ((codeBlock src h m e o).1 ++ rest) = .ok src

/-- R283: the coder sets RAW where the bitstream would need at least as many words as the elements have, or there are no
elements (R280), and only there; a coded block is never longer than its source plus 11 words. -/
def Obligations.CodedBlockLength : Prop :=
  ∀ (src : List Word) (h m e o : Nat), 1 ≤ e → e ≤ 3 → 1 ≤ o → o ≤ 4 → src.length = h + m * (o + e - 1) →
    src.length ≤ 8192 →
    let cols := (fieldWidths e o).zipIdx.map (fun x => (x.1, (elementsOf (o + e - 1) m (src.drop h)).map (elementField o x.2)))
    ((codeBlock src h m e o).2 = true ↔ m * (o + e - 1) ≤ ceilDiv (codeSegments cols m).length 10 ∨ m = 0)
      ∧ bitOf (wAt (codeBlock src h m e o).1 0 1) 6 = (codeBlock src h m e o).2
      ∧ (codeBlock src h m e o).1.length ≤ src.length + 11
end

