-- ==== Sys2Proof/Laws/Lasers.lean ====
section
/-! SUPPORT. What the changes of a line's sequencer do to its laser: none of them turns it on or moves its interlock
input. -/

namespace Sys2Proof.Laws
open Sys2Proof Sys2Proof.Machine

/-- The laser's enable and the interlock input are the same in both. -/
def sameLaser (p q : Probe) : Prop := q.ilkLow = p.ilkLow ∧ q.laserEn = p.laserEn

theorem sameLaser.safe {p q : Probe} (h : sameLaser p q) (k : p.ilkLow = true → p.laserEn = false) :
    q.ilkLow = true → q.laserEn = false := by
  intro i
  rw [h.2]
  exact k (h.1 ▸ i)

theorem sameLaser.refl (p : Probe) : sameLaser p p := ⟨rfl, rfl⟩

theorem sameLaser.trans {p q r : Probe} (h : sameLaser p q) (k : sameLaser q r) : sameLaser p r :=
  ⟨k.1.trans h.1, k.2.trans h.2⟩

theorem sameLaser.ite {p a b : Probe} {c : Prop} [Decidable c] (ha : sameLaser p a) (hb : sameLaser p b) :
    sameLaser p (if c then a else b) := by split <;> assumption

theorem sameLaser.foldl {α : Type} {g : Probe → α → Probe} (hg : ∀ p x, sameLaser p (g p x)) (l : List α) (p : Probe) :
    sameLaser p (l.foldl g p) := by
  induction l generalizing p with
  | nil => exact sameLaser.refl p
  | cons x l ih => exact (hg p x).trans (ih (g p x))

theorem setNextM_laser (p : Probe) (k m : Nat) : sameLaser p (setNextM p k m) := ⟨rfl, rfl⟩

theorem moveSlot_laser (n : Nat) (p : Probe) (k : Nat) : sameLaser p (moveSlot n p k) := ⟨rfl, rfl⟩

theorem foldMoveSlot_laser (n : Nat) (l : List Nat) (p : Probe) : sameLaser p (l.foldl (moveSlot n) p) :=
  sameLaser.foldl (moveSlot_laser n) l p

theorem reachOrigin_laser (p : Probe) (n : Nat) : sameLaser p (reachOrigin p n) :=
  ⟨(foldMoveSlot_laser _ _ _).1, (foldMoveSlot_laser _ _ _).2⟩

theorem originDue_laser (n : Nat) (p : Probe) : sameLaser p (originDue n p) :=
  sameLaser.foldl (fun p _ => sameLaser.ite (reachOrigin_laser p _) (sameLaser.refl p)) _ _

theorem moveToNew_laser (s : State) (p : Probe) (c : SlotCfg) : sameLaser p (moveToNew s p c) := by
  refine sameLaser.foldl (fun p n => ?_) _ _
  split
  · exact moveSlot_laser _ p _
  · exact sameLaser.ite (moveSlot_laser _ p _) (sameLaser.refl p)

theorem startOrigin_laser (p : Probe) (n : Nat) : sameLaser p (startOrigin p n) := ⟨rfl, rfl⟩

theorem darkLaunches_laser (n : Nat) (es : List Emit) (p : Probe) : sameLaser p (darkLaunches n es p) := ⟨rfl, rfl⟩

theorem passPoints_laser (t : Nat) (set : List (SlotCfg × Nat)) (p : Probe) : sameLaser p (passPoints t set p) :=
  sameLaser.foldl (fun p _ => sameLaser.ite (sameLaser.refl p) (setNextM_laser p _ _)) _ _

theorem noteBreak_laser (p : Probe) (b : Option Nat) : sameLaser p (noteBreak p b) := by
  unfold noteBreak
  split <;> exact ⟨rfl, rfl⟩

/-- A change that sets the laser's enable from the interlock input, low where that is low, is safe. -/
theorem gated_laser {p q : Probe} (h : q.laserEn = !q.ilkLow) : q.ilkLow = true → q.laserEn = false := by
  intro i
  rw [h, i]
  rfl

end Sys2Proof.Laws
end

