-- ==== Sys2Proof/Laws/Moves.lean ====
section
/-! SUPPORT. What one change of the state can do: `Moves ps s t` says that from `s` to `t` only the parts `ps` change and
that the invariants of Safety.lean (`Inv`, `interlocked`) are kept. One lemma per record update and per shared operation; the lemmas are in a
form that chains: from `Moves P z s` to `Moves P z (f s)`. -/

namespace Sys2Proof.Laws
open Sys2Proof Sys2Proof.Machine Sys2Proof.Safety

/-- Only the parts named change, and the invariants are kept. -/
structure Moves (ps : List Part) (s t : State) : Prop where
  only : changesOnly ps s t
  inv : Inv s → Inv t
  ilk : interlocked s → interlocked t

/-- Every part of the first list is in the second. -/
def within (gs ps : List Part) : Bool := gs.all (fun p => decide (p ∈ ps))

theorem mem_of_within {gs ps : List Part} (h : within gs ps = true) {p : Part} (hp : p ∈ gs) : p ∈ ps := by
  have := List.all_eq_true.mp h p hp
  simpa using this

theorem within_trans {fs gs ps : List Part} (h : within fs gs = true) (k : within gs ps = true) : within fs ps = true := by
  refine List.all_eq_true.mpr (fun p hp => ?_)
  simpa using mem_of_within k (mem_of_within h hp)

theorem within_self (ps : List Part) : within ps ps = true := List.all_eq_true.mpr (fun p hp => by simpa using hp)

theorem Part.same_refl (p : Part) (s : State) : p.same s s := by cases p <;> rfl

theorem Part.same_trans {p : Part} {s t u : State} (h : p.same s t) (k : p.same t u) : p.same s u := by
  cases p <;> exact k.trans h

theorem Moves.refl (ps : List Part) (s : State) : Moves ps s s :=
  ⟨⟨fun p _ => Part.same_refl p s, rfl⟩, id, id⟩

/-- One more change after those so far. -/
theorem Moves.step {P : List Part} {z u t : State} (h : Moves P z u) (hs : ∀ p, p ∉ P → p.same u t)
    (hp : t.pending = u.pending) (hi : Inv u → Inv t)
    (hk : interlocked u → interlocked t) : Moves P z t :=
  ⟨⟨fun p hn => Part.same_trans (h.only.1 p hn) (hs p hn), hp.trans h.only.2⟩, fun k => hi (h.inv k), fun k => hk (h.ilk k)⟩

theorem Moves.trans {P : List Part} {z u t : State} (h : Moves P z u) (k : Moves P u t) : Moves P z t :=
  h.step k.only.1 k.only.2 k.inv k.ilk

/-- What an operation does within its own parts, it does within more. -/
theorem Moves.mono {gs P : List Part} {s t : State} (hP : within gs P = true) (h : Moves gs s t) : Moves P s t :=
  ⟨⟨fun p hn => h.only.1 p (fun hg => hn (mem_of_within hP hg)), h.only.2⟩, h.inv, h.ilk⟩

/-- A state on the way: what has led to it, and what follows from there. -/
theorem Moves.cut {P : List Part} {z u t : State} (h : Moves P z u) (k : Moves P z u → Moves P z t) : Moves P z t := k h

theorem Moves.iteFst {P : List Part} {z : State} {α : Type} {a b : State × α} {c : Prop} [Decidable c]
    (ha : Moves P z a.1) (hb : Moves P z b.1) : Moves P z (if c then a else b).1 := by split <;> assumption

theorem Moves.iteSnd {P : List Part} {z : State} {α : Type} {a b : α × State} {c : Prop} [Decidable c]
    (ha : Moves P z a.2) (hb : Moves P z b.2) : Moves P z (if c then a else b).2 := by split <;> assumption

theorem Moves.snd {P : List Part} {z t : State} {α : Type} {a : α} (h : Moves P z t) : Moves P z (a, t).2 := h

theorem Moves.fst {P : List Part} {z t : State} {α : Type} {a : α} (h : Moves P z t) : Moves P z (t, a).1 := h

theorem Moves.ofEqFst {P : List Part} {z t : State} {α : Type} {a : State × α} {b : α} (e : a = (t, b)) (h : Moves P z a.1) :
    Moves P z t := by rw [e] at h; exact h

theorem Moves.ofEqSnd {P : List Part} {z t : State} {α : Type} {a : α × State} {b : α} (e : a = (b, t)) (h : Moves P z a.2) :
    Moves P z t := by rw [e] at h; exact h

theorem Moves.foldFst {P : List Part} {z : State} {α β : Type} {g : State × β → α → State × β} {a : State × β} {l : List α}
    (hg : ∀ a x, Moves P z a.1 → Moves P z (g a x).1) (h : Moves P z a.1) : Moves P z (l.foldl g a).1 := by
  induction l generalizing a with
  | nil => exact h
  | cons x l ih => exact ih (hg a x h)

theorem Moves.foldSnd {P : List Part} {z : State} {α β : Type} {g : β × State → α → β × State} {a : β × State} {l : List α}
    (hg : ∀ a x, Moves P z a.2 → Moves P z (g a x).2) (h : Moves P z a.2) : Moves P z (l.foldl g a).2 := by
  induction l generalizing a with
  | nil => exact h
  | cons x l ih => exact ih (hg a x h)

theorem Moves.ite {P : List Part} {z a b : State} {c : Prop} [Decidable c] (ha : Moves P z a) (hb : Moves P z b) :
    Moves P z (if c then a else b) := by split <;> assumption

theorem Moves.whenB {P : List Part} {z a b : State} {c : Bool} (ha : Moves P z a) (hb : Moves P z b) :
    Moves P z (Machine.whenB c a b) := by unfold Machine.whenB; split <;> assumption

theorem Moves.foldl {P : List Part} {z : State} {α : Type} {g : State → α → State} {s : State}
    (hg : ∀ s x, Moves P z s → Moves P z (g s x)) (h : Moves P z s) (l : List α) : Moves P z (l.foldl g s) := by
  induction l generalizing s with
  | nil => exact h
  | cons x l ih => exact ih (hg s x h)

theorem Moves.forEach {P : List Part} {z : State} {α : Type} {g : State → α → State} {s : State} {l : List α}
    (hg : ∀ s x, Moves P z s → Moves P z (g s x)) (h : Moves P z s) : Moves P z (Machine.forEach l s g) :=
  Moves.foldl hg h l

theorem Moves.folded {P : List Part} {z : State} {α : Type} {g : State → α → State} {s : State} {l : List α}
    (hg : ∀ s x, Moves P z s → Moves P z (g s x)) (h : Moves P z s) : Moves P z (l.foldl g s) := Moves.foldl hg h l

/-! ### Tables keep their canonical form -/

/-- A key is above the bound. -/
def above (lo : Option Nat) (k : Nat) : Bool := match lo with | none => true | some l => decide (l < k)

theorem tabSorted_cons {α : Type} (lo : Option Nat) (k : Nat) (v : α) (t : Tab α) :
    tabSorted lo ((k, v) :: t) = (above lo k && tabSorted (some k) t) := by cases lo <;> rfl

/-- Sorted above a bound stays sorted above a lower one. -/
theorem tabSorted_lower {α : Type} {lo lo' : Option Nat} (t : Tab α) (hl : ∀ l', lo' = some l' → ∃ l, lo = some l ∧ l' ≤ l)
    (h : tabSorted lo t = true) : tabSorted lo' t = true := by
  cases t with
  | nil => rfl
  | cons e t =>
    obtain ⟨k, v⟩ := e
    rw [tabSorted_cons, Bool.and_eq_true] at h ⊢
    refine ⟨?_, h.2⟩
    cases lo' with
    | none => rfl
    | some l' =>
      obtain ⟨l, rfl, hle⟩ := hl l' rfl
      exact decide_eq_true (Nat.lt_of_le_of_lt hle (of_decide_eq_true h.1))

/-- Dropping entries and changing values keeps rising keys. -/
theorem tabSorted_filterMap {α : Type} (f : Nat × α → Option (Nat × α)) (hf : ∀ e e', f e = some e' → e'.1 = e.1)
    (lo : Option Nat) (t : Tab α) (h : tabSorted lo t = true) : tabSorted lo (t.filterMap f) = true := by
  induction t generalizing lo with
  | nil => rfl
  | cons e t ih =>
    obtain ⟨k, v⟩ := e
    rw [tabSorted_cons, Bool.and_eq_true] at h
    rw [List.filterMap_cons]
    split
    · refine ih lo (tabSorted_lower t (fun l' hl' => ?_) h.2)
      subst hl'
      exact ⟨k, rfl, Nat.le_of_lt (of_decide_eq_true h.1)⟩
    · next e' he' =>
      have hk := hf _ _ he'
      obtain ⟨k', v'⟩ := e'
      cases hk
      rw [tabSorted_cons, Bool.and_eq_true]
      exact ⟨h.1, ih _ h.2⟩

theorem tabErase_sorted {α : Type} (lo : Option Nat) (t : Tab α) (a : Nat) (h : tabSorted lo t = true) :
    tabSorted lo (tabErase t a) = true := by
  unfold tabErase
  rw [← List.filterMap_eq_filter]
  refine tabSorted_filterMap _ (fun e e' he => ?_) _ _ h
  simp only [Option.guard] at he
  split at he
  · cases he; rfl
  · cases he

theorem tabErase_all {α : Type} (p : Nat × α → Bool) (t : Tab α) (a : Nat) (h : t.all p = true) :
    (tabErase t a).all p = true :=
  List.all_eq_true.mpr (fun e he => List.all_eq_true.mp h e (List.mem_filter.mp he).1)

theorem tabPut_sorted {α : Type} (lo : Option Nat) (t : Tab α) (a : Nat) (x : α)
    (hlo : ∀ l, lo = some l → l < a) (h : tabSorted lo t = true) : tabSorted lo (tabPut t a x) = true := by
  induction t generalizing lo with
  | nil =>
    rw [tabPut, tabSorted_cons, Bool.and_eq_true]
    refine ⟨?_, rfl⟩
    cases lo with
    | none => rfl
    | some l => exact decide_eq_true (hlo l rfl)
  | cons e t ih =>
    obtain ⟨k, v⟩ := e
    rw [tabSorted_cons, Bool.and_eq_true] at h
    unfold tabPut
    split
    · next hk =>
      rw [tabSorted_cons, Bool.and_eq_true, tabSorted_cons, Bool.and_eq_true]
      refine ⟨?_, decide_eq_true hk, h.2⟩
      cases lo with
      | none => rfl
      | some l => exact decide_eq_true (hlo l rfl)
    · split
      · next hk hk2 =>
        subst hk2
        rw [tabSorted_cons, Bool.and_eq_true]; exact h
      · next hk hk2 =>
        rw [tabSorted_cons, Bool.and_eq_true]
        refine ⟨h.1, ih (some k) (fun l hl => ?_) h.2⟩
        cases hl
        omega

theorem tabPut_all {α : Type} (p : Nat × α → Bool) (t : Tab α) (a : Nat) (x : α) (hx : p (a, x) = true) (h : t.all p = true) :
    (tabPut t a x).all p = true := by
  induction t with
  | nil => simpa [tabPut] using hx
  | cons e t ih =>
    obtain ⟨k, v⟩ := e
    rw [List.all_cons, Bool.and_eq_true] at h
    unfold tabPut
    split
    · rw [List.all_cons, List.all_cons, Bool.and_eq_true, Bool.and_eq_true]; exact ⟨hx, h⟩
    · split
      · rw [List.all_cons, Bool.and_eq_true]; exact ⟨hx, h.2⟩
      · rw [List.all_cons, Bool.and_eq_true]; exact ⟨h.1, ih h.2⟩

/-- A write keeps the canonical form. -/
theorem tabSet_wf {α : Type} [DecidableEq α] (d : Nat → α) (t : Tab α) (a : Nat) (x : α) (h : tabWf d t = true) :
    tabWf d (tabSet (d a) t a x) = true := by
  rw [tabWf, Bool.and_eq_true] at h ⊢
  unfold tabSet
  split
  · exact ⟨tabErase_sorted _ _ _ h.1, tabErase_all _ _ _ h.2⟩
  · next hx => exact ⟨tabPut_sorted _ _ _ _ (fun l hl => by cases hl) h.1, tabPut_all _ _ _ _ (by simpa using hx) h.2⟩

/-- A run of writes keeps the canonical form. -/
theorem tabSet_fold_wf {α β : Type} [DecidableEq α] (d : α) (key : β → Nat) (val : β → α) (l : List β) (t : Tab α)
    (h : tabWf (fun _ => d) t = true) :
    tabWf (fun _ => d) (l.foldl (fun t x => tabSet d t (key x) (val x)) t) = true := by
  induction l generalizing t with
  | nil => exact h
  | cons x l ih => exact ih _ (tabSet_wf (fun _ => d) t (key x) (val x) h)

/-- A run of writes of which some are left out keeps the canonical form. -/
theorem tabSet_foldIf_wf {α β : Type} [DecidableEq α] (d : α) (c : β → Prop) [DecidablePred c] (key : β → Nat) (val : β → α)
    (l : List β) (t : Tab α) (h : tabWf (fun _ => d) t = true) :
    tabWf (fun _ => d) (l.foldl (fun t x => if c x then tabSet d t (key x) (val x) else t) t) = true := by
  induction l generalizing t with
  | nil => exact h
  | cons x l ih =>
    refine ih _ ?_
    show tabWf (fun _ => d) (if c x then tabSet d t (key x) (val x) else t) = true
    split
    · exact tabSet_wf (fun _ => d) t (key x) (val x) h
    · exact h

/-- A map of the values keeps the canonical form. -/
theorem tabMap_wf {α : Type} [DecidableEq α] (d : Nat → α) (f : Nat → α → α) (t : Tab α) (h : tabWf d t = true) :
    tabWf d (tabMap d f t) = true := by
  rw [tabWf, Bool.and_eq_true] at h ⊢
  unfold tabMap
  refine ⟨tabSorted_filterMap _ (fun e e' he => ?_) _ _ h.1, ?_⟩
  · dsimp only at he
    split at he
    · cases he
    · cases he; rfl
  · refine List.all_eq_true.mpr (fun e' he' => ?_)
    obtain ⟨e, -, he⟩ := List.mem_filterMap.mp he'
    dsimp only at he
    split at he
    · cases he
    · next hx => cases he; simpa using hx

/-- Dropping entries keeps the canonical form. -/
theorem tabFilter_wf {α : Type} [DecidableEq α] (d : Nat → α) (p : Nat × α → Bool) (t : Tab α) (h : tabWf d t = true) :
    tabWf d (t.filter p) = true := by
  rw [tabWf, Bool.and_eq_true] at h ⊢
  refine ⟨?_, ?_⟩
  · rw [← List.filterMap_eq_filter]
    refine tabSorted_filterMap _ (fun e e' he => ?_) _ _ h.1
    simp only [Option.guard] at he
    split at he
    · cases he; rfl
    · cases he
  · refine List.all_eq_true.mpr (fun e he => ?_)
    exact List.all_eq_true.mp h.2 e (List.mem_filter.mp he).1

/-! ### Record updates -/

theorem keeper_mk_otp {x0 x1 x2 x3 x4 x5 x6 x7 x8 x9 x10 x11 x12 x13 x14 x15 x16 x17 x18 x19 x20 x21 x22 x23 x24 x25 x26 x27} : (Keeper.mk x0 x1 x2 x3 x4 x5 x6 x7 x8 x9 x10 x11 x12 x13 x14 x15 x16 x17 x18 x19 x20 x21 x22 x23 x24 x25 x26 x27).otp = x3 := rfl

theorem mgmtst_mk_flash {x0 x1 x2 x3 x4 x5 x6 x7 x8 x9 x10 x11 x12} : (MgmtSt.mk x0 x1 x2 x3 x4 x5 x6 x7 x8 x9 x10 x11 x12).flash = x2 := rfl

theorem mgmtst_mk_sram {x0 x1 x2 x3 x4 x5 x6 x7 x8 x9 x10 x11 x12} : (MgmtSt.mk x0 x1 x2 x3 x4 x5 x6 x7 x8 x9 x10 x11 x12).sram = x5 := rfl

theorem fenceunit_mk_out {x0 x1 x2 x3 x4 x5 x6 x7} : (FenceUnit.mk x0 x1 x2 x3 x4 x5 x6 x7).out = x2 := rfl

theorem Moves.setCfg {P : List Part} {z u : State} {x} (hP : within [.cfg] P = true) (h : Moves P z u) :
    Moves P z { u with cfg := x } :=
  h.step (fun p hp => by cases p <;> first | rfl | exact absurd (mem_of_within hP (by decide)) hp) rfl id id

theorem Moves.setBook {P : List Part} {z u : State} {x} (hP : within [.book] P = true) (h : Moves P z u) :
    Moves P z { u with book := x } :=
  h.step (fun p hp => by cases p <;> first | rfl | exact absurd (mem_of_within hP (by decide)) hp) rfl id id

theorem Moves.setTrav {P : List Part} {z u : State} {x} (hP : within [.trav] P = true) (h : Moves P z u) :
    Moves P z { u with trav := x } :=
  h.step (fun p hp => by cases p <;> first | rfl | exact absurd (mem_of_within hP (by decide)) hp) rfl id id

theorem Moves.setConv {P : List Part} {z u : State} {x} (hP : within [.conv] P = true) (h : Moves P z u) :
    Moves P z { u with conv := x } :=
  h.step (fun p hp => by cases p <;> first | rfl | exact absurd (mem_of_within hP (by decide)) hp) rfl id id

theorem Moves.setPce {P : List Part} {z u : State} {x} (hP : within [.pce] P = true) (h : Moves P z u) :
    Moves P z { u with pce := x } :=
  h.step (fun p hp => by cases p <;> first | rfl | exact absurd (mem_of_within hP (by decide)) hp) rfl id id

theorem Moves.setSense {P : List Part} {z u : State} {x} (hP : within [.sense] P = true) (h : Moves P z u) :
    Moves P z { u with sense := x } :=
  h.step (fun p hp => by cases p <;> first | rfl | exact absurd (mem_of_within hP (by decide)) hp) rfl id id

theorem Moves.setNet {P : List Part} {z u : State} {x} (hP : within [.net] P = true) (h : Moves P z u) :
    Moves P z { u with net := x } :=
  h.step (fun p hp => by cases p <;> first | rfl | exact absurd (mem_of_within hP (by decide)) hp) rfl id id

theorem Moves.setTime {P : List Part} {z u : State} {x} (hP : within [.time] P = true) (h : Moves P z u) :
    Moves P z { u with time := x } :=
  h.step (fun p hp => by cases p <;> first | rfl | exact absurd (mem_of_within hP (by decide)) hp) rfl id id

theorem Moves.setMem {P : List Part} {z u : State} {x} (hP : within [.mem] P = true) (h : Moves P z u) :
    Moves P z { u with mem := x } :=
  h.step (fun p hp => by cases p <;> first | rfl | exact absurd (mem_of_within hP (by decide)) hp) rfl id id

theorem Moves.setHk {P : List Part} {z u : State} {x} (hP : within [.hk] P = true) (h : Moves P z u) :
    Moves P z { u with hk := x } :=
  h.step (fun p hp => by cases p <;> first | rfl | exact absurd (mem_of_within hP (by decide)) hp) rfl id id

theorem Moves.setZn {P : List Part} {z u : State} {x} (hP : within [.zn] P = true) (h : Moves P z u) :
    Moves P z { u with zn := x } :=
  h.step (fun p hp => by cases p <;> first | rfl | exact absurd (mem_of_within hP (by decide)) hp) rfl id id

theorem Moves.setStreams {P : List Part} {z u : State} {x} (hP : within [.streams] P = true) (h : Moves P z u) :
    Moves P z { u with streams := x } :=
  h.step (fun p hp => by cases p <;> first | rfl | exact absurd (mem_of_within hP (by decide)) hp) rfl id id

theorem Moves.setCode {P : List Part} {z u : State} {x} (hP : within [.code] P = true) (h : Moves P z u) :
    Moves P z { u with code := x } :=
  h.step (fun p hp => by cases p <;> first | rfl | exact absurd (mem_of_within hP (by decide)) hp) rfl id id

theorem Moves.setSamples {P : List Part} {z u : State} {x} (hP : within [.samples] P = true) (h : Moves P z u) :
    Moves P z { u with samples := x } :=
  h.step (fun p hp => by cases p <;> first | rfl | exact absurd (mem_of_within hP (by decide)) hp) rfl id id

theorem Moves.setNow {P : List Part} {z u : State} {x} (hP : within [.now] P = true) (h : Moves P z u) :
    Moves P z { u with now := x } :=
  h.step (fun p hp => by cases p <;> first | rfl | exact absurd (mem_of_within hP (by decide)) hp) rfl id id

theorem Moves.setUp {P : List Part} {z u : State} {x} (hP : within [.up] P = true) (h : Moves P z u) :
    Moves P z { u with up := x } :=
  h.step (fun p hp => by cases p <;> first | rfl | exact absurd (mem_of_within hP (by decide)) hp) rfl id id

theorem Moves.setFreeCtr {P : List Part} {z u : State} {x} (hP : within [.freeCtr] P = true) (h : Moves P z u) :
    Moves P z { u with freeCtr := x } :=
  h.step (fun p hp => by cases p <;> first | rfl | exact absurd (mem_of_within hP (by decide)) hp) rfl id id

/-- The probe changes; a line's laser is on only where its interlock input is high. -/
theorem Moves.setProbe {P : List Part} {z u : State} {x : Vector Probe 2} (hP : within [.probe] P = true)
    (hk : interlocked u → ∀ l : Fin 2, (vget x l).ilkLow = true → (vget x l).laserEn = false) (h : Moves P z u) :
    Moves P z { u with probe := x } :=
  h.step (fun p hp => by cases p <;> first | rfl | exact absurd (mem_of_within hP (by decide)) hp) rfl id hk

/-- The keeper changes, its OTP does not. -/
theorem Moves.setKeeper {P : List Part} {z u : State} {x : Keeper} (hP : within [.keeper] P = true)
    (ho : x.otp = u.keeper.otp) (h : Moves P z u) : Moves P z { u with keeper := x } :=
  h.step (fun p hp => by cases p <;> first | rfl | exact ho | exact absurd (mem_of_within hP (by decide)) hp) rfl id id

/-- The keeper and its OTP change. -/
theorem Moves.setOtp {P : List Part} {z u : State} {x : Keeper} (hP : within [.keeper, .otp] P = true)
    (h : Moves P z u) : Moves P z { u with keeper := x } :=
  h.step (fun p hp => by cases p <;> first | rfl | exact absurd (mem_of_within hP (by decide)) hp) rfl id id

/-- The management state changes, its flash and SRAM do not. -/
theorem Moves.setMgmt {P : List Part} {z u : State} {x : MgmtSt} (hP : within [.mgmt] P = true)
    (hf : x.flash = u.mgmt.flash) (hs : x.sram = u.mgmt.sram) (h : Moves P z u) : Moves P z { u with mgmt := x } :=
  h.step (fun p hp => by cases p <;> first | rfl | exact hf | exact absurd (mem_of_within hP (by decide)) hp) rfl
    (fun k => by
      refine ⟨?_, k.2⟩
      have := k.1
      unfold Memory.wf at this ⊢
      rw [hf, hs]
      exact this) id

/-- The management SRAM changes and stays in canonical form. -/
theorem Moves.setSram {P : List Part} {z u : State} {x : MgmtSt} (hP : within [.mgmt] P = true)
    (hf : x.flash = u.mgmt.flash)
    (hs : tabWf (fun _ => 0#8) u.mgmt.sram = true → tabWf (fun _ => 0#8) x.sram = true)
    (h : Moves P z u) : Moves P z { u with mgmt := x } :=
  h.step (fun p hp => by cases p <;> first | rfl | exact hf | exact absurd (mem_of_within hP (by decide)) hp) rfl
    (fun k => by
      refine ⟨?_, k.2⟩
      have := k.1
      simp only [Memory.wf, Bool.and_eq_true] at this ⊢
      rw [hf]
      exact ⟨this.1, hs this.2⟩) id

/-- The fence unit changes and holds no more fences than before. -/
theorem Moves.setFu {P : List Part} {z u : State} {x : FenceUnit} (hP : within [.fu] P = true)
    (hl : x.out.length ≤ u.fu.out.length) (h : Moves P z u) : Moves P z { u with fu := x } :=
  h.step (fun p hp => by cases p <;> first | rfl | exact absurd (mem_of_within hP (by decide)) hp) rfl
    (fun k => ⟨k.1, Nat.le_trans hl k.2.1, k.2.2⟩) id

/-- The event log changes and holds at most 1,024 entries if it did. -/
theorem Moves.setLog {P : List Part} {z u : State} {x : EventLog} (hP : within [.log] P = true)
    (hl : u.log.entries.length ≤ 1024 → x.entries.length ≤ 1024) (h : Moves P z u) : Moves P z { u with log := x } :=
  h.step (fun p hp => by cases p <;> first | rfl | exact absurd (mem_of_within hP (by decide)) hp) rfl
    (fun k => ⟨k.1, k.2.1, hl k.2.2⟩) id

/-- The registers change and stay in canonical form. -/
theorem Moves.setRegs {P : List Part} {z u : State} {x : Tab Reg} (hP : within [.regs] P = true)
    (hw : tabWf (fun a => BitVec.ofNat 20 (regReset a)) u.regs = true → tabWf (fun a => BitVec.ofNat 20 (regReset a)) x = true)
    (h : Moves P z u) : Moves P z { u with regs := x } :=
  h.step (fun p hp => by cases p <;> first | rfl | exact absurd (mem_of_within hP (by decide)) hp) rfl
    (fun k => by
      refine ⟨?_, k.2⟩
      have := k.1
      simp only [Memory.wf, Bool.and_eq_true] at this ⊢
      exact ⟨⟨⟨⟨hw this.1.1.1.1, this.1.1.1.2⟩, this.1.1.2⟩, this.1.2⟩, this.2⟩) id

/-- DRAM changes and stays in canonical form. -/
theorem Moves.setDram {P : List Part} {z u : State} {x : Tab Word} (hP : within [.dram] P = true)
    (hw : tabWf (fun _ => (0 : Word)) u.dram = true → tabWf (fun _ => (0 : Word)) x = true)
    (h : Moves P z u) : Moves P z { u with dram := x } :=
  h.step (fun p hp => by cases p <;> first | rfl | exact absurd (mem_of_within hP (by decide)) hp) rfl
    (fun k => by
      refine ⟨?_, k.2⟩
      have := k.1
      simp only [Memory.wf, Bool.and_eq_true] at this ⊢
      exact ⟨⟨⟨⟨this.1.1.1.1, hw this.1.1.1.2⟩, this.1.1.2⟩, this.1.2⟩, this.2⟩) id

/-- The exchange buffers change and stay in canonical form. -/
theorem Moves.setXbuf {P : List Part} {z u : State} {x : Tab Nat} (hP : within [.xbuf] P = true)
    (hw : tabWf (fun _ => (0 : Nat)) u.xbuf = true → tabWf (fun _ => (0 : Nat)) x = true)
    (h : Moves P z u) : Moves P z { u with xbuf := x } :=
  h.step (fun p hp => by cases p <;> first | rfl | exact absurd (mem_of_within hP (by decide)) hp) rfl
    (fun k => by
      refine ⟨?_, k.2⟩
      have := k.1
      simp only [Memory.wf, Bool.and_eq_true] at this ⊢
      exact ⟨⟨⟨⟨this.1.1.1.1, this.1.1.1.2⟩, hw this.1.1.2⟩, this.1.2⟩, this.2⟩) id

/-- The flash array changes and stays in canonical form. -/
theorem Moves.setFlash {P : List Part} {z u : State} {x : MgmtSt} (hP : within [.mgmt, .flash] P = true)
    (hw : tabWf (fun _ => 0xFF#8) u.mgmt.flash = true → tabWf (fun _ => 0xFF#8) x.flash = true) (hs : x.sram = u.mgmt.sram)
    (h : Moves P z u) : Moves P z { u with mgmt := x } :=
  h.step (fun p hp => by cases p <;> first | rfl | exact absurd (mem_of_within hP (by decide)) hp) rfl
    (fun k => by
      refine ⟨?_, k.2⟩
      have := k.1
      simp only [Memory.wf, Bool.and_eq_true] at this ⊢
      rw [hs]
      exact ⟨⟨this.1.1, hw this.1.2⟩, this.2⟩) id

theorem Moves.setCfgBook {P : List Part} {z u : State} {xcfg} {xbook}
    (hP : within [.cfg, .book] P = true)  (h : Moves P z u) :
    Moves P z { u with cfg := xcfg, book := xbook } :=
  Moves.setBook (u := { u with cfg := xcfg }) (x := xbook) (within_trans rfl hP) (Moves.setCfg (u := u) (x := xcfg) (within_trans rfl hP) h)

theorem Moves.setDramFreeCtr {P : List Part} {z u : State} {xdram : Tab Word} {xfreeCtr}
    (hP : within [.dram, .freeCtr] P = true) (hd : tabWf (fun _ => (0 : Word)) u.dram = true → tabWf (fun _ => (0 : Word)) xdram = true) (h : Moves P z u) :
    Moves P z { u with dram := xdram, freeCtr := xfreeCtr } :=
  Moves.setFreeCtr (u := { u with dram := xdram }) (x := xfreeCtr) (within_trans rfl hP) (Moves.setDram (u := u) (x := xdram) (within_trans rfl hP) hd h)

theorem Moves.setKeeperMem {P : List Part} {z u : State} {xkeeper : Keeper} {xmem}
    (hP : within [.keeper, .mem] P = true) (ho : xkeeper.otp = u.keeper.otp) (h : Moves P z u) :
    Moves P z { u with keeper := xkeeper, mem := xmem } :=
  Moves.setMem (u := { u with keeper := xkeeper }) (x := xmem) (within_trans rfl hP) (Moves.setKeeper (u := u) (x := xkeeper) (within_trans rfl hP) ho h)

theorem Moves.setKeeperMemHk {P : List Part} {z u : State} {xkeeper : Keeper} {xmem} {xhk}
    (hP : within [.keeper, .mem, .hk] P = true) (ho : xkeeper.otp = u.keeper.otp) (h : Moves P z u) :
    Moves P z { u with keeper := xkeeper, mem := xmem, hk := xhk } :=
  Moves.setHk (u := { u with keeper := xkeeper, mem := xmem }) (x := xhk) (within_trans rfl hP) (Moves.setMem (u := { u with keeper := xkeeper }) (x := xmem) (within_trans rfl hP) (Moves.setKeeper (u := u) (x := xkeeper) (within_trans rfl hP) ho h))

theorem Moves.setSenseXbuf {P : List Part} {z u : State} {xsense} {xxbuf : Tab Nat}
    (hP : within [.sense, .xbuf] P = true) (hw : tabWf (fun _ => (0 : Nat)) u.xbuf = true → tabWf (fun _ => (0 : Nat)) xxbuf = true) (h : Moves P z u) :
    Moves P z { u with sense := xsense, xbuf := xxbuf } :=
  Moves.setXbuf (u := { u with sense := xsense }) (x := xxbuf) (within_trans rfl hP) hw (Moves.setSense (u := u) (x := xsense) (within_trans rfl hP) h)

theorem Moves.setTimeZn {P : List Part} {z u : State} {xtime} {xzn}
    (hP : within [.time, .zn] P = true)  (h : Moves P z u) :
    Moves P z { u with time := xtime, zn := xzn } :=
  Moves.setZn (u := { u with time := xtime }) (x := xzn) (within_trans rfl hP) (Moves.setTime (u := u) (x := xtime) (within_trans rfl hP) h)

theorem Moves.setTravSense {P : List Part} {z u : State} {xtrav} {xsense}
    (hP : within [.trav, .sense] P = true)  (h : Moves P z u) :
    Moves P z { u with trav := xtrav, sense := xsense } :=
  Moves.setSense (u := { u with trav := xtrav }) (x := xsense) (within_trans rfl hP) (Moves.setTrav (u := u) (x := xtrav) (within_trans rfl hP) h)

theorem Moves.setTravSenseXbuf {P : List Part} {z u : State} {xtrav} {xsense} {xxbuf : Tab Nat}
    (hP : within [.trav, .sense, .xbuf] P = true) (hw : tabWf (fun _ => (0 : Nat)) u.xbuf = true → tabWf (fun _ => (0 : Nat)) xxbuf = true) (h : Moves P z u) :
    Moves P z { u with trav := xtrav, sense := xsense, xbuf := xxbuf } :=
  Moves.setXbuf (u := { u with trav := xtrav, sense := xsense }) (x := xxbuf) (within_trans rfl hP) hw (Moves.setSense (u := { u with trav := xtrav }) (x := xsense) (within_trans rfl hP) (Moves.setTrav (u := u) (x := xtrav) (within_trans rfl hP) h))

theorem Moves.setKeeperBookFuTravMemHkMgmt {P : List Part} {z u : State} {xkeeper : Keeper} {xbook} {xfu : FenceUnit} {xtrav} {xmem} {xhk} {xmgmt : MgmtSt}
    (hP : within [.keeper, .book, .fu, .trav, .mem, .hk, .mgmt] P = true) (ho : xkeeper.otp = u.keeper.otp) (hl : xfu.out.length ≤ u.fu.out.length) (hf : xmgmt.flash = u.mgmt.flash) (hs : xmgmt.sram = u.mgmt.sram) (h : Moves P z u) :
    Moves P z { u with keeper := xkeeper, book := xbook, fu := xfu, trav := xtrav, mem := xmem, hk := xhk, mgmt := xmgmt } :=
  Moves.setMgmt (u := { u with keeper := xkeeper, book := xbook, fu := xfu, trav := xtrav, mem := xmem, hk := xhk }) (x := xmgmt) (within_trans rfl hP) hf hs (Moves.setHk (u := { u with keeper := xkeeper, book := xbook, fu := xfu, trav := xtrav, mem := xmem }) (x := xhk) (within_trans rfl hP) (Moves.setMem (u := { u with keeper := xkeeper, book := xbook, fu := xfu, trav := xtrav }) (x := xmem) (within_trans rfl hP) (Moves.setTrav (u := { u with keeper := xkeeper, book := xbook, fu := xfu }) (x := xtrav) (within_trans rfl hP) (Moves.setFu (u := { u with keeper := xkeeper, book := xbook }) (x := xfu) (within_trans rfl hP) hl (Moves.setBook (u := { u with keeper := xkeeper }) (x := xbook) (within_trans rfl hP) (Moves.setKeeper (u := u) (x := xkeeper) (within_trans rfl hP) ho h))))))

theorem Moves.setNowUp {P : List Part} {z u : State} {xnow} {xup}
    (hP : within [.now, .up] P = true)  (h : Moves P z u) :
    Moves P z { u with now := xnow, up := xup } :=
  Moves.setUp (u := { u with now := xnow }) (x := xup) (within_trans rfl hP) (Moves.setNow (u := u) (x := xnow) (within_trans rfl hP) h)

theorem Moves.setBookDram {P : List Part} {z u : State} {xbook} {xdram : Tab Word}
    (hP : within [.book, .dram] P = true) (hd : tabWf (fun _ => (0 : Word)) u.dram = true → tabWf (fun _ => (0 : Word)) xdram = true) (h : Moves P z u) :
    Moves P z { u with book := xbook, dram := xdram } :=
  Moves.setDram (u := { u with book := xbook }) (x := xdram) (within_trans rfl hP) hd (Moves.setBook (u := u) (x := xbook) (within_trans rfl hP) h)

end Sys2Proof.Laws
end

