-- ==== Sys2Proof/Laws/Regs.lean ====
section
/-! SUPPORT. Tables and register fields: what is read back after a write, and that a write leaves every other entry, register
and field alone. -/

namespace Sys2Proof.Laws
open Sys2Proof Sys2Proof.Machine

/-! ### Tables -/

theorem tabGet_put {α : Type} (d : α) (t : Tab α) (a : Nat) (x : α) : tabGet d (tabPut t a x) a = x := by
  induction t with
  | nil => simp [tabPut, tabGet]
  | cons e t ih =>
    obtain ⟨k, v⟩ := e
    unfold tabPut
    split
    · simp [tabGet]
    · split
      · simp [tabGet]
      · next h => simp [tabGet, h, ih]

theorem tabGet_put_ne {α : Type} (d : α) (t : Tab α) {a b : Nat} (x : α) (h : b ≠ a) :
    tabGet d (tabPut t a x) b = tabGet d t b := by
  induction t with
  | nil => simp [tabPut, tabGet, h]
  | cons e t ih =>
    obtain ⟨k, v⟩ := e
    unfold tabPut
    split
    · simp [tabGet, h]
    · split
      · next hk => subst hk; simp [tabGet, h]
      · simp [tabGet, ih]

theorem tabGet_erase {α : Type} (d : α) (t : Tab α) (a : Nat) : tabGet d (tabErase t a) a = d := by
  unfold tabErase
  induction t with
  | nil => rfl
  | cons e t ih =>
    obtain ⟨k, v⟩ := e
    rw [List.filter_cons]
    split
    · next h =>
      have hk : a ≠ k := fun hh => (of_decide_eq_true h) hh.symm
      rw [tabGet, if_neg hk]; exact ih
    · exact ih

theorem tabGet_erase_ne {α : Type} (d : α) (t : Tab α) {a b : Nat} (h : b ≠ a) :
    tabGet d (tabErase t a) b = tabGet d t b := by
  unfold tabErase
  induction t with
  | nil => rfl
  | cons e t ih =>
    obtain ⟨k, v⟩ := e
    rw [List.filter_cons]
    split
    · rw [tabGet, tabGet, ih]
    · next hk =>
      have hk : k = a := by simpa using hk
      subst hk
      rw [tabGet, if_neg h]; exact ih

/-- What is written is read back. -/
theorem tabGet_set {α : Type} [DecidableEq α] (d : α) (t : Tab α) (a : Nat) (x : α) : tabGet d (tabSet d t a x) a = x := by
  unfold tabSet
  split
  · next h => rw [tabGet_erase, h]
  · exact tabGet_put d t a x

/-- A write leaves every other key alone. -/
theorem tabGet_set_ne {α : Type} [DecidableEq α] (d e : α) (t : Tab α) {a b : Nat} (x : α) (h : b ≠ a) :
    tabGet e (tabSet d t a x) b = tabGet e t b := by
  unfold tabSet
  split
  · exact tabGet_erase_ne e t h
  · exact tabGet_put_ne e t x h

/-! ### Registers -/

theorem regGet_lt (s : State) (a : Nat) : regGet s a < 2 ^ 20 := BitVec.isLt _

theorem regGet_put (s : State) (a v : Nat) : regGet (regPut s a v) a = v % 2 ^ 20 := by
  unfold regGet regPut
  rw [tabGet_set]
  rfl

theorem regGet_put_ne (s : State) {a b : Nat} (v : Nat) (h : b ≠ a) : regGet (regPut s a v) b = regGet s b := by
  unfold regGet regPut
  rw [tabGet_set_ne _ _ _ _ h]

/-! ### Fields -/

theorem bits_split (v hi lo : Nat) (h : lo ≤ hi) :
    v = v / 2 ^ (hi + 1) * 2 ^ (hi + 1) + bitsOf v hi lo * 2 ^ lo + v % 2 ^ lo := by
  unfold bitsOf
  have e1 : 2 ^ (hi + 1) = 2 ^ lo * 2 ^ (hi + 1 - lo) := by rw [← Nat.pow_add]; congr 1; omega
  rw [e1, ← Nat.div_div_eq_div_mul]
  have h1 := Nat.div_add_mod (v / 2 ^ lo) (2 ^ (hi + 1 - lo))
  have h2 := Nat.div_add_mod v (2 ^ lo)
  calc v = 2 ^ lo * (v / 2 ^ lo) + v % 2 ^ lo := h2.symm
    _ = 2 ^ lo * (2 ^ (hi + 1 - lo) * (v / 2 ^ lo / 2 ^ (hi + 1 - lo)) + v / 2 ^ lo % 2 ^ (hi + 1 - lo)) + v % 2 ^ lo := by rw [h1]
    _ = _ := by ring

theorem bitsPut_split (v hi lo x : Nat) (h : lo ≤ hi) :
    bitsPut v hi lo x = v / 2 ^ (hi + 1) * 2 ^ (hi + 1) + x % 2 ^ (hi + 1 - lo) * 2 ^ lo + v % 2 ^ lo := by
  unfold bitsPut
  have hs := bits_split v hi lo h
  omega

theorem bitsPut_low (v hi lo x : Nat) (h : lo ≤ hi) : bitsPut v hi lo x % 2 ^ lo = v % 2 ^ lo := by
  rw [bitsPut_split v hi lo x h]
  have e1 : 2 ^ (hi + 1) = 2 ^ (hi + 1 - lo) * 2 ^ lo := by rw [← Nat.pow_add]; congr 1; omega
  rw [e1, ← Nat.mul_assoc, ← Nat.add_mul, Nat.mul_add_mod_self_right, Nat.mod_mod]

theorem bitsPut_div (v hi lo x : Nat) (h : lo ≤ hi) :
    bitsPut v hi lo x / 2 ^ lo = v / 2 ^ (hi + 1) * 2 ^ (hi + 1 - lo) + x % 2 ^ (hi + 1 - lo) := by
  rw [bitsPut_split v hi lo x h]
  have e1 : 2 ^ (hi + 1) = 2 ^ (hi + 1 - lo) * 2 ^ lo := by rw [← Nat.pow_add]; congr 1; omega
  rw [e1, ← Nat.mul_assoc, ← Nat.add_mul, Nat.mul_comm (_ + _) (2 ^ lo), Nat.mul_add_div (by positivity),
    Nat.div_eq_of_lt (Nat.mod_lt _ (by positivity)), Nat.add_zero, ← e1]

theorem bitsPut_high (v hi lo x : Nat) (h : lo ≤ hi) : bitsPut v hi lo x / 2 ^ (hi + 1) = v / 2 ^ (hi + 1) := by
  have e1 : 2 ^ (hi + 1) = 2 ^ lo * 2 ^ (hi + 1 - lo) := by rw [← Nat.pow_add]; congr 1; omega
  rw [e1, ← Nat.div_div_eq_div_mul, bitsPut_div v hi lo x h, Nat.mul_comm, Nat.mul_add_div (by positivity),
    Nat.div_eq_of_lt (Nat.mod_lt _ (by positivity)), Nat.add_zero, ← e1]

/-- The field written reads back. -/
theorem bitsOf_put (v hi lo x : Nat) (h : lo ≤ hi) : bitsOf (bitsPut v hi lo x) hi lo = x % 2 ^ (hi + 1 - lo) := by
  unfold bitsOf
  rw [bitsPut_div v hi lo x h, Nat.mul_comm, Nat.mul_add_mod, Nat.mod_mod]

/-- A field above the one written is left alone. -/
theorem bitsOf_put_above (v hi lo x hi' lo' : Nat) (h : lo ≤ hi) (k : hi < lo') : bitsOf (bitsPut v hi lo x) hi' lo' = bitsOf v hi' lo' := by
  unfold bitsOf
  have e : 2 ^ lo' = 2 ^ (hi + 1) * 2 ^ (lo' - (hi + 1)) := by rw [← Nat.pow_add]; congr 1; omega
  rw [e, ← Nat.div_div_eq_div_mul, ← Nat.div_div_eq_div_mul, bitsPut_high v hi lo x h]

/-- A field below the one written is left alone. -/
theorem bitsOf_put_below (v hi lo x hi' lo' : Nat) (h : lo ≤ hi) (k : hi' < lo) (k' : lo' ≤ hi') :
    bitsOf (bitsPut v hi lo x) hi' lo' = bitsOf v hi' lo' := by
  unfold bitsOf
  have key : ∀ w : Nat, w / 2 ^ lo' % 2 ^ (hi' + 1 - lo') = (w % 2 ^ lo) / 2 ^ lo' % 2 ^ (hi' + 1 - lo') := by
    intro w
    have e : 2 ^ lo = 2 ^ lo' * (2 ^ (hi' + 1 - lo') * 2 ^ (lo - (hi' + 1))) := by
      rw [← Nat.pow_add, ← Nat.pow_add]; congr 1; omega
    rw [e, Nat.mod_mul_right_div_self, Nat.mod_mul_right_mod]
  rw [key, bitsPut_low v hi lo x h, ← key]

theorem bitsPut_lt (v hi lo x : Nat) (h : lo ≤ hi) (hh : hi < 20) (hv : v < 2 ^ 20) : bitsPut v hi lo x < 2 ^ 20 := by
  have h1 := bitsPut_high v hi lo x h
  have h2 : v / 2 ^ (hi + 1) < 2 ^ (19 - hi) := by
    rw [Nat.div_lt_iff_lt_mul (by positivity), ← Nat.pow_add]
    have : 19 - hi + (hi + 1) = 20 := by omega
    rwa [this]
  rw [← h1, Nat.div_lt_iff_lt_mul (by positivity), ← Nat.pow_add] at h2
  have : 19 - hi + (hi + 1) = 20 := by omega
  rwa [this] at h2

/-- A field of a register: its bits lie in the register. -/
def Fld.fits (f : Fld) : Bool := decide (f.lo ≤ f.hi) && decide (f.hi < 20)

/-- R12: a field that is written reads back, cut to its width. -/
theorem getF_setF (s : State) (f : Fld) (v : Nat) (hf : Fld.fits f = true) : getF (setF s f v) f = v % 2 ^ (f.hi + 1 - f.lo) := by
  simp only [Fld.fits, Bool.and_eq_true, decide_eq_true_eq] at hf
  unfold getF setF
  rw [regGet_put, Nat.mod_eq_of_lt (bitsPut_lt _ _ _ _ hf.1 hf.2 (regGet_lt s _)), bitsOf_put _ _ _ _ hf.1]

/-- A write of one field leaves a field of another register alone. -/
theorem getF_setF_ne (s : State) (f g : Fld) (v : Nat) (h : g.addr ≠ f.addr) : getF (setF s f v) g = getF s g := by
  unfold getF setF
  rw [regGet_put_ne s _ h]

/-- A write of one field leaves a field of the same register that it does not overlap alone. -/
theorem getF_setF_apart (s : State) (f g : Fld) (v : Nat) (hf : Fld.fits f = true) (hg : Fld.fits g = true)
    (ha : g.addr = f.addr) (h : f.hi < g.lo ∨ g.hi < f.lo) : getF (setF s f v) g = getF s g := by
  simp only [Fld.fits, Bool.and_eq_true, decide_eq_true_eq] at hf hg
  unfold getF setF
  rw [ha, regGet_put, Nat.mod_eq_of_lt (bitsPut_lt _ _ _ _ hf.1 hf.2 (regGet_lt s _))]
  rcases h with h | h
  · rw [bitsOf_put_above _ _ _ _ _ _ hf.1 h]
  · rw [bitsOf_put_below _ _ _ _ _ _ hf.1 h hg.1]

/-- A stored field is below its width. -/
theorem getF_lt (s : State) (f : Fld) : getF s f < 2 ^ (f.hi + 1 - f.lo) := Nat.mod_lt _ (by positivity)

/-- R465: a counter goes up by n and saturates. -/
theorem getF_bumpBy (s : State) (f : Fld) (n : Nat) (hf : Fld.fits f = true) :
    getF (bumpBy s f n) f = min (getF s f + n) (2 ^ (f.hi + 1 - f.lo) - 1) := by
  unfold bumpBy
  rw [getF_setF s f _ hf, Nat.mod_eq_of_lt]
  have : 0 < 2 ^ (f.hi + 1 - f.lo) := by positivity
  omega

theorem getF_bumpBy_ne (s : State) (f g : Fld) (n : Nat) (h : g.addr ≠ f.addr) : getF (bumpBy s f n) g = getF s g :=
  getF_setF_ne s f g _ h

theorem getF_bumpBy_apart (s : State) (f g : Fld) (n : Nat) (hf : Fld.fits f = true) (hg : Fld.fits g = true)
    (ha : g.addr = f.addr) (h : f.hi < g.lo ∨ g.hi < f.lo) : getF (bumpBy s f n) g = getF s g :=
  getF_setF_apart s f g _ hf hg ha h

theorem getF_bump (s : State) (f : Fld) (hf : Fld.fits f = true) :
    getF (bump s f) f = min (getF s f + 1) (2 ^ (f.hi + 1 - f.lo) - 1) := getF_bumpBy s f 1 hf

theorem getF_bump_ne (s : State) (f g : Fld) (h : g.addr ≠ f.addr) : getF (bump s f) g = getF s g := getF_setF_ne s f g _ h

theorem getF_bump_apart (s : State) (f g : Fld) (hf : Fld.fits f = true) (hg : Fld.fits g = true)
    (ha : g.addr = f.addr) (h : f.hi < g.lo ∨ g.hi < f.lo) : getF (bump s f) g = getF s g :=
  getF_setF_apart s f g _ hf hg ha h

/-! ### Elements of a vector -/

theorem vget_vset {α : Type} {n : Nat} (v : Vector α n) (i : Fin n) (x : α) : vget (vset v i x) i = x := by
  simp [vget, vset]

theorem vget_vset_ne {α : Type} {n : Nat} (v : Vector α n) {i j : Fin n} (x : α) (h : i ≠ j) : vget (vset v i x) j = vget v j := by
  simp only [vget, vset]
  exact Vector.getElem_set_ne _ _ (fun e => h (Fin.ext e))

theorem vget_vmod {α : Type} {n : Nat} (v : Vector α n) (i : Fin n) (f : α → α) : vget (vmod v i f) i = f (vget v i) := by
  simp [vget, vmod]

theorem vget_vmod_ne {α : Type} {n : Nat} (v : Vector α n) {i j : Fin n} (f : α → α) (h : i ≠ j) : vget (vmod v i f) j = vget v j := by
  simp only [vget, vmod]
  exact Vector.getElem_set_ne _ _ (fun e => h (Fin.ext e))

end Sys2Proof.Laws
end

