-- ==== Sys2Proof/Laws/OpsMoves.lean ====
section
/-! SUPPORT. What each operation of Machine/Ops.lean can do: the parts of the state it changes, and that it keeps the
invariants. -/

namespace Sys2Proof.Laws
open Sys2Proof Sys2Proof.Machine Sys2Proof.Safety

theorem regPut_moves {P : List Part} {z : State} {s : State} {a : ℕ} {v : ℕ} (hP : within [.regs] P = true) (h : Moves P z s) :
    Moves P z (Machine.regPut s a v) := by
  unfold regPut
  exact Moves.setRegs hP (tabSet_wf (fun a => BitVec.ofNat 20 (regReset a)) _ _ _) h

theorem setF_moves {P : List Part} {z : State} {s : State} {f : Fld} {v : ℕ} (hP : within [.regs] P = true) (h : Moves P z s) :
    Moves P z (Machine.setF s f v) := by
  unfold Machine.setF
  with_reducible apply regPut_moves (within_trans rfl hP)
  with_reducible assumption

theorem setFS_moves {P : List Part} {z : State} {s : State} {f : Fld} {v : ℤ} (hP : within [.regs] P = true) (h : Moves P z s) :
    Moves P z (Machine.setFS s f v) := by
  unfold Machine.setFS
  with_reducible apply setF_moves (within_trans rfl hP)
  with_reducible assumption

theorem bumpBy_moves {P : List Part} {z : State} {s : State} {f : Fld} {n : ℕ} (hP : within [.regs] P = true) (h : Moves P z s) :
    Moves P z (Machine.bumpBy s f n) := by
  unfold Machine.bumpBy
  with_reducible apply setF_moves (within_trans rfl hP)
  with_reducible assumption

theorem bump_moves {P : List Part} {z : State} {s : State} {f : Fld} (hP : within [.regs] P = true) (h : Moves P z s) :
    Moves P z (Machine.bump s f) := by
  unfold Machine.bump
  with_reducible apply bumpBy_moves (within_trans rfl hP)
  with_reducible assumption

theorem draw_moves {P : List Part} {z : State} {s : State} (hP : within [.freeCtr] P = true) (h : Moves P z s) :
    Moves P z (Machine.draw s).2 := by
  unfold Machine.draw
  refine Moves.snd ?_
  with_reducible apply Moves.setFreeCtr (within_trans rfl hP)
  with_reducible assumption

theorem draw_moves_eq {P : List Part} {z : State} {s : State} {tt : State} {x0}
    (e0 : Machine.draw s = (x0, tt)) (hP : within [.freeCtr] P = true) (h : Moves P z s) : Moves P z tt := by
  have k := draw_moves (P := P) (z := z) (hP := hP) (h := h)
  rw [e0] at k
  exact k

theorem logPush_moves {P : List Part} {z : State} {s : State} {e : List Word} (hP : within [.regs, .log] P = true) (h : Moves P z s) :
    Moves P z (Machine.logPush s e) := by
  unfold logPush
  extract_lets full kept l1 s1
  have h1 : Moves P z s1 := by
    refine Moves.setLog (within_trans rfl hP) (fun k => ?_) h
    have hk : kept.length ≤ 1023 := by
      simp only [kept]
      split
      · rw [List.length_drop]; omega
      · next hf => simp only [full, decide_eq_true_eq] at hf; omega
    show (kept ++ [e]).length ≤ 1024
    rw [List.length_append]
    exact Nat.add_le_add_right hk 1
  split
  · exact bump_moves (within_trans rfl hP) h1
  · exact h1

theorem logAt_moves {P : List Part} {z : State} {s : State} {stamp : ℕ} {code : ℕ} {island : ℕ} {sev : ℕ} {unit_ : ℕ} {arg : ℕ} (hP : within [.regs, .log] P = true) (h : Moves P z s) :
    Moves P z (Machine.logAt s stamp code island sev unit_ arg) := by
  unfold Machine.logAt
  extract_lets +onlyGivenNames q0
  clear_value q0
  extract_lets +onlyGivenNames q1
  have h1 : Moves P z q1 := by
    unfold q1
    refine Moves.ite ?_ ?_
    · with_reducible assumption
    · with_reducible apply logPush_moves (within_trans rfl hP)
      with_reducible assumption
  clear_value q1
  extract_lets +onlyGivenNames q2
  have h2 : Moves P z q2 := by
    unfold q2
    with_reducible apply logPush_moves (within_trans rfl hP)
    with_reducible assumption
  clear_value q2
  with_reducible apply Moves.setLog (within_trans rfl hP)
  · exact fun k => k
  · with_reducible assumption

theorem logEvent_moves {P : List Part} {z : State} {s : State} {code : ℕ} {island : ℕ} {sev : ℕ} {unit_ : ℕ} {arg : ℕ} (hP : within [.regs, .log] P = true) (h : Moves P z s) :
    Moves P z (Machine.logEvent s code island sev unit_ arg) := by
  unfold Machine.logEvent
  with_reducible apply logAt_moves (within_trans rfl hP)
  with_reducible assumption

theorem modTrav_moves {P : List Part} {z : State} {s : State} {t : Fin 8} {f : Trav → Trav} (hP : within [.trav] P = true) (h : Moves P z s) :
    Moves P z (Machine.modTrav s t f) := by
  unfold Machine.modTrav
  with_reducible apply Moves.setTrav (within_trans rfl hP)
  with_reducible assumption

theorem modProbe_ilk {P : List Part} {z : State} {s : State} {l : Fin 2} {f : Probe → Probe} (hP : within [.probe] P = true)
    (hf : interlocked s → (f (vget s.probe l)).ilkLow = true → (f (vget s.probe l)).laserEn = false) (h : Moves P z s) :
    Moves P z (Machine.modProbe s l f) := by
  unfold Machine.modProbe
  refine Moves.setProbe (within_trans rfl hP) (fun k i hi => ?_) h
  by_cases e : l = i
  · subst e
    rw [vget_vmod] at hi ⊢
    exact hf k hi
  · rw [vget_vmod_ne _ _ e] at hi ⊢
    exact k i hi

/-- A change of one line's probe: the laser is on after it only where it was, or with the interlock input high. -/
theorem modProbe_moves {P : List Part} {z : State} {s : State} {l : Fin 2} {f : Probe → Probe} (hP : within [.probe] P = true)
    (hf : ∀ p : Probe, (p.ilkLow = true → p.laserEn = false) → (f p).ilkLow = true → (f p).laserEn = false) (h : Moves P z s) :
    Moves P z (Machine.modProbe s l f) := by
  exact modProbe_ilk hP (fun k => hf _ (k l)) h

theorem modConv_moves {P : List Part} {z : State} {s : State} {l : Fin 2} {f : Conv → Conv} (hP : within [.conv] P = true) (h : Moves P z s) :
    Moves P z (Machine.modConv s l f) := by
  unfold Machine.modConv
  with_reducible apply Moves.setConv (within_trans rfl hP)
  with_reducible assumption

theorem modPce_moves {P : List Part} {z : State} {s : State} {l : Fin 2} {f : Pce → Pce} (hP : within [.pce] P = true) (h : Moves P z s) :
    Moves P z (Machine.modPce s l f) := by
  unfold Machine.modPce
  with_reducible apply Moves.setPce (within_trans rfl hP)
  with_reducible assumption




end Sys2Proof.Laws
end

