-- ==== Sys2Proof/Laws/OperandsMoves.lean ====
section
/-! SUPPORT. What each operation of Machine/Operands.lean can do: the parts of the state it changes, and that it keeps the
invariants. -/

namespace Sys2Proof.Laws
open Sys2Proof Sys2Proof.Machine Sys2Proof.Safety

theorem takeParams_moves {P : List Part} {z : State} {s : State} {t : Fin 8} {p : List Word} (hP : within [.trav] P = true) (h : Moves P z s) :
    Moves P z (Machine.takeParams s t p) := by
  unfold Machine.takeParams
  with_reducible apply modTrav_moves (within_trans rfl hP)
  with_reducible assumption

theorem loadParams_moves {P : List Part} {z : State} {s : State} (hP : within [.trav] P = true) (h : Moves P z s) :
    Moves P z (Machine.loadParams s) := by
  unfold Machine.loadParams
  with_reducible apply Moves.setTrav (within_trans rfl hP)
  with_reducible assumption

theorem putSample_moves {P : List Part} {z : State} {s : State} {line : ℕ} {code : ℕ} {st : ℕ} {x : Sample} (hP : within [.samples] P = true) (h : Moves P z s) :
    Moves P z (Machine.putSample s line code st x) := by
  unfold Machine.putSample
  with_reducible apply Moves.setSamples (within_trans rfl hP)
  with_reducible assumption

end Sys2Proof.Laws
end

