-- ==== Sys2Proof/Laws/FenceMoves.lean ====
section
/-! SUPPORT. What each operation of Machine/Fence.lean can do: the parts of the state it changes, and that it keeps the
invariants. -/

namespace Sys2Proof.Laws
open Sys2Proof Sys2Proof.Machine Sys2Proof.Safety

theorem proxyAck_moves {P : List Part} {z : State} {s : State} (hP : within [.fu] P = true) (h : Moves P z s) :
    Moves P z (Machine.proxyAck s) := by
  unfold Machine.proxyAck
  extract_lets +onlyGivenNames q0
  clear_value q0
  with_reducible apply Moves.setFu (within_trans rfl hP)
  · (rw [List.length_map])
  · with_reducible assumption

theorem issueFence_moves {P : List Part} {z : State} {s : State} {scope : ℕ} {why : FenceFor} {recs : List PlanRec} (hP : within [.regs, .fu] P = true) (h : Moves P z s) :
    Moves P z (Machine.issueFence s scope why recs) := by
  unfold issueFence
  extract_lets f
  split
  · next hr =>
    refine setF_moves (within_trans rfl hP) (h.step (fun p hp => ?_) rfl (fun k => ⟨k.1, ?_, k.2.2⟩) id)
    · cases p <;> first | rfl | exact absurd (mem_of_within hP (by decide)) hp
    · show (s.fu.out ++ [f]).length ≤ 64
      rw [List.length_append]
      exact of_decide_eq_true hr
  · exact h

theorem bookFence_moves {P : List Part} {z : State} {s : State} {scope : ℕ} {why : FenceFor} (hP : within [.regs, .fu] P = true) (h : Moves P z s) :
    Moves P z (Machine.bookFence s scope why) := by
  unfold Machine.bookFence
  refine Moves.ite ?_ ?_
  · with_reducible apply issueFence_moves (within_trans rfl hP)
    with_reducible assumption
  · with_reducible apply Moves.setFu (within_trans rfl hP)
    · with_reducible exact Nat.le_of_eq (congrArg List.length fenceunit_mk_out)
    · with_reducible assumption

end Sys2Proof.Laws
end

