-- ==== Sys2Proof/Laws/NetMoves.lean ====
section
/-! SUPPORT. What each operation of Machine/Net.lean can do: the parts of the state it changes, and that it keeps the
invariants. -/

namespace Sys2Proof.Laws
open Sys2Proof Sys2Proof.Machine Sys2Proof.Safety

theorem modLink_moves {P : List Part} {z : State} {s : State} {l : Fin 3} {f : Link → Link} (hP : within [.net] P = true) (h : Moves P z s) :
    Moves P z (Machine.modLink s l f) := by
  unfold Machine.modLink
  with_reducible apply Moves.setNet (within_trans rfl hP)
  with_reducible assumption

theorem modQuad_moves {P : List Part} {z : State} {s : State} {q : Fin 3} {f : Quad → Quad} (hP : within [.net] P = true) (h : Moves P z s) :
    Moves P z (Machine.modQuad s q f) := by
  unfold Machine.modQuad
  with_reducible apply Moves.setNet (within_trans rfl hP)
  with_reducible assumption

theorem sendOn_moves {P : List Part} {z : State} {s : State} {l : Fin 3} {f : Frame} (hP : within [.net] P = true) (h : Moves P z s) :
    Moves P z (Machine.sendOn s l f).1 := by
  unfold Machine.sendOn
  extract_lets +onlyGivenNames q0
  clear_value q0
  refine Moves.iteFst ?_ ?_
  · refine Moves.fst ?_
    with_reducible assumption
  · split
    · refine Moves.fst ?_
      with_reducible apply modLink_moves (within_trans rfl hP)
      with_reducible assumption
    · refine Moves.fst ?_
      with_reducible apply modLink_moves (within_trans rfl hP)
      with_reducible assumption
    · refine Moves.iteFst ?_ ?_
      · refine Moves.fst ?_
        with_reducible assumption
      · refine Moves.fst ?_
        with_reducible apply modLink_moves (within_trans rfl hP)
        with_reducible assumption

theorem sendOn_moves_eq {P : List Part} {z : State} {s : State} {l : Fin 3} {f : Frame} {tt : State} {x1}
    (e0 : Machine.sendOn s l f = (tt, x1)) (hP : within [.net] P = true) (h : Moves P z s) : Moves P z tt := by
  have k := sendOn_moves (P := P) (z := z) (hP := hP) (h := h) (l := l) (f := f)
  rw [e0] at k
  exact k

theorem forwardOn_moves {P : List Part} {z : State} {s : State} {src : ℕ} {l : Fin 3} {f : Frame} (hP : within [.net] P = true) (h : Moves P z s) :
    Moves P z (Machine.forwardOn s src l f) := by
  unfold Machine.forwardOn
  split
  · with_reducible apply modLink_moves (within_trans rfl hP)
    with_reducible assumption
  · with_reducible apply modLink_moves (within_trans rfl hP)
    with_reducible assumption
  · with_reducible apply modLink_moves (within_trans rfl hP)
    with_reducible assumption

theorem sendRouted_moves {P : List Part} {z : State} {s : State} {f : Frame} (hP : within [.regs, .net] P = true) (h : Moves P z s) :
    Moves P z (Machine.sendRouted s f).1 := by
  unfold Machine.sendRouted
  split
  · with_reducible apply sendOn_moves (within_trans rfl hP)
    with_reducible assumption
  · refine Moves.fst ?_
    with_reducible apply bump_moves (within_trans rfl hP)
    with_reducible assumption

theorem sendRouted_moves_eq {P : List Part} {z : State} {s : State} {f : Frame} {tt : State} {x1}
    (e0 : Machine.sendRouted s f = (tt, x1)) (hP : within [.regs, .net] P = true) (h : Moves P z s) : Moves P z tt := by
  have k := sendRouted_moves (P := P) (z := z) (hP := hP) (h := h) (f := f)
  rw [e0] at k
  exact k

theorem putWord60_moves {P : List Part} {z : State} {s : State} {f : ℕ → Fld} {w : ℕ} (hP : within [.regs] P = true) (h : Moves P z s) :
    Moves P z (Machine.putWord60 s f w) := by
  unfold Machine.putWord60
  refine Moves.folded (fun _ _ _ => ?_) ?_
  · with_reducible apply setF_moves (within_trans rfl hP)
    with_reducible assumption
  · with_reducible assumption

theorem sendOffer_moves {P : List Part} {z : State} {s : State} {l : Fin 3} {changed : Bool} {wait : Bool} (hP : within [.regs, .net] P = true) (h : Moves P z s) :
    Moves P z (Machine.sendOffer s l changed wait) := by
  unfold Machine.sendOffer
  extract_lets +onlyGivenNames q0
  clear_value q0
  extract_lets +onlyGivenNames q1
  clear_value q1
  extract_lets +onlyGivenNames q2
  have h2 : Moves P z q2 := by
    unfold q2
    with_reducible apply modLink_moves (within_trans rfl hP)
    with_reducible assumption
  clear_value q2
  extract_lets +onlyGivenNames q3
  have h3 : Moves P z q3 := by
    unfold q3
    refine Moves.ite ?_ ?_
    · with_reducible apply putWord60_moves (within_trans rfl hP)
      with_reducible assumption
    · with_reducible assumption
  clear_value q3
  extract_lets +onlyGivenNames q4
  have h4 : Moves P z q4 := by
    unfold q4
    refine Moves.ite ?_ ?_
    · with_reducible apply setF_moves (within_trans rfl hP)
      with_reducible assumption
    · refine Moves.ite ?_ ?_
      · with_reducible apply setF_moves (within_trans rfl hP)
        with_reducible assumption
      · with_reducible assumption
  clear_value q4
  with_reducible apply sendOn_moves (within_trans rfl hP)
  with_reducible assumption

theorem repeatOffer_moves {P : List Part} {z : State} {s : State} {l : Fin 3} (hP : within [.net] P = true) (h : Moves P z s) :
    Moves P z (Machine.repeatOffer s l) := by
  unfold Machine.repeatOffer
  extract_lets +onlyGivenNames q0
  clear_value q0
  with_reducible apply sendOn_moves (within_trans rfl hP)
  with_reducible assumption

end Sys2Proof.Laws
end

