-- ==== Sys2Proof/Laws/GatesMoves.lean ====
section
/-! SUPPORT. What each operation of Machine/Gates.lean can do: the parts of the state it changes, and that it keeps the
invariants. -/

namespace Sys2Proof.Laws
open Sys2Proof Sys2Proof.Machine Sys2Proof.Safety

theorem dropWithdrawn_moves {P : List Part} {z : State} {s : State} {l : Fin 3} (hP : within [.regs, .net] P = true) (h : Moves P z s) :
    Moves P z (Machine.dropWithdrawn s l) := by
  unfold Machine.dropWithdrawn
  extract_lets +onlyGivenNames q0
  clear_value q0
  extract_lets +onlyGivenNames q1
  clear_value q1
  extract_lets +onlyGivenNames q2
  clear_value q2
  extract_lets +onlyGivenNames q3
  clear_value q3
  refine Moves.ite ?_ ?_
  · with_reducible assumption
  · extract_lets +onlyGivenNames q4
    have h4 : Moves P z q4 := by
      unfold q4
      with_reducible apply modLink_moves (within_trans rfl hP)
      with_reducible assumption
    clear_value q4
    refine Moves.folded (fun _ _ _ => ?_) ?_
    · refine Moves.ite ?_ ?_
      · with_reducible apply bumpBy_moves (within_trans rfl hP)
        with_reducible assumption
      · split
        · refine Moves.ite ?_ ?_
          · with_reducible apply bump_moves (within_trans rfl hP)
            with_reducible assumption
          · with_reducible assumption
        · with_reducible assumption
    · with_reducible assumption

theorem featureChanged_moves {P : List Part} {z : State} {s : State} (hP : within [.regs, .net] P = true) (h : Moves P z s) :
    Moves P z (Machine.featureChanged s) := by
  unfold Machine.featureChanged
  refine Moves.folded (fun _ _ _ => ?_) ?_
  · extract_lets +onlyGivenNames q0
    clear_value q0
    extract_lets +onlyGivenNames q1
    clear_value q1
    refine Moves.ite ?_ ?_
    · with_reducible assumption
    · split
      · refine Moves.ite ?_ ?_
        · with_reducible apply sendOffer_moves (within_trans rfl hP)
          with_reducible assumption
        · with_reducible assumption
      · extract_lets +onlyGivenNames q2
        have h2 : Moves P z q2 := by
          unfold q2
          with_reducible apply modLink_moves (within_trans rfl hP)
          with_reducible assumption
        clear_value q2
        with_reducible apply dropWithdrawn_moves (within_trans rfl hP)
        with_reducible apply sendOffer_moves (within_trans rfl hP)
        with_reducible apply putWord60_moves (within_trans rfl hP)
        with_reducible assumption
  · with_reducible assumption

end Sys2Proof.Laws
end

