-- ==== Sys2Proof/Laws/LaneOpsMoves.lean ====
section
/-! SUPPORT. What each operation of Machine/LaneOps.lean can do: the parts of the state it changes, and that it keeps the
invariants. -/

namespace Sys2Proof.Laws
open Sys2Proof Sys2Proof.Machine Sys2Proof.Safety

theorem notePar_moves {P : List Part} {z : State} {s : State} {t : Fin 8} {hits : List (ℕ × ℕ)} (hP : within [.regs, .log, .trav] P = true) (h : Moves P z s) :
    Moves P z (Machine.notePar s t hits) := by
  unfold Machine.notePar
  extract_lets +onlyGivenNames q0
  have h0 : Moves P z q0 := by
    unfold q0
    refine Moves.forEach (fun _ _ _ => ?_) ?_
    · with_reducible apply logEvent_moves (within_trans rfl hP)
      with_reducible apply bump_moves (within_trans rfl hP)
      with_reducible assumption
    · with_reducible assumption
  clear_value q0
  refine Moves.ite ?_ ?_
  · with_reducible assumption
  · with_reducible apply modTrav_moves (within_trans rfl hP)
    with_reducible assumption

theorem passParity_moves {P : List Part} {z : State} {s : State} {t : Fin 8} {d : ℕ} (hP : within [.regs, .log, .trav] P = true) (h : Moves P z s) :
    Moves P z (Machine.passParity s t d) := by
  unfold Machine.passParity
  with_reducible apply notePar_moves (within_trans rfl hP)
  with_reducible assumption

theorem enterPass_moves {P : List Part} {z : State} {s : State} {t : Fin 8} {k : PassKind} {stamp : ℕ} {epoch : ℕ} {grp : ℕ} (hP : within [.regs, .log, .trav, .freeCtr] P = true) (h : Moves P z s) :
    Moves P z (Machine.enterPass s t k stamp epoch grp) := by
  unfold Machine.enterPass
  extract_lets +onlyGivenNames q0
  clear_value q0
  extract_lets +onlyGivenNames q1
  have h1 : Moves P z q1 := by
    unfold q1
    with_reducible apply modTrav_moves (within_trans rfl hP)
    with_reducible assumption
  clear_value q1
  with_reducible apply passParity_moves (within_trans rfl hP)
  with_reducible apply Moves.setFreeCtr (within_trans rfl hP)
  with_reducible assumption

theorem nextKernel_moves {P : List Part} {z : State} {s : State} {t : Fin 8} {a2 : ℕ} {ks : List ℕ} (hP : within [.trav, .freeCtr] P = true) (h : Moves P z s) :
    Moves P z (Machine.nextKernel s t a2 ks) := by
  unfold Machine.nextKernel
  extract_lets +onlyGivenNames q0
  clear_value q0
  split
  · with_reducible apply modTrav_moves (within_trans rfl hP)
    with_reducible assumption
  · extract_lets +onlyGivenNames q1
    clear_value q1
    extract_lets +onlyGivenNames q2
    clear_value q2
    extract_lets +onlyGivenNames q3
    clear_value q3
    extract_lets +onlyGivenNames q4
    clear_value q4
    extract_lets +onlyGivenNames q5
    have h5 : Moves P z q5 := by
      unfold q5
      with_reducible apply modTrav_moves (within_trans rfl hP)
      with_reducible assumption
    clear_value q5
    with_reducible apply Moves.setFreeCtr (within_trans rfl hP)
    with_reducible assumption

theorem emitOut_moves {P : List Part} {z : State} {s : State} {t : Fin 8} {o : OutSample} (hP : within [.samples] P = true) (h : Moves P z s) :
    Moves P z (Machine.emitOut s t o) := by
  unfold Machine.emitOut
  split
  · extract_lets +onlyGivenNames q0
    clear_value q0
    extract_lets +onlyGivenNames q1
    clear_value q1
    with_reducible apply putSample_moves (within_trans rfl hP)
    with_reducible assumption
  · with_reducible assumption

theorem kernelFault_moves {P : List Part} {z : State} {s : State} {t : Fin 8} {kr : KernRun} {cause : ℕ} {lane : ℕ} (hP : within [.regs, .log, .trav, .freeCtr] P = true) (h : Moves P z s) :
    Moves P z (Machine.kernelFault s t kr cause lane) := by
  unfold Machine.kernelFault
  extract_lets +onlyGivenNames q0
  have h0 : Moves P z q0 := by
    unfold q0
    with_reducible apply setF_moves (within_trans rfl hP)
    with_reducible apply setF_moves (within_trans rfl hP)
    with_reducible apply setF_moves (within_trans rfl hP)
    with_reducible assumption
  clear_value q0
  extract_lets +onlyGivenNames q1
  have h1 : Moves P z q1 := by
    unfold q1
    with_reducible apply setF_moves (within_trans rfl hP)
    with_reducible assumption
  clear_value q1
  extract_lets +onlyGivenNames q2
  have h2 : Moves P z q2 := by
    unfold q2
    with_reducible apply logEvent_moves (within_trans rfl hP)
    with_reducible assumption
  clear_value q2
  extract_lets +onlyGivenNames q3
  have h3 : Moves P z q3 := by
    unfold q3
    with_reducible apply modTrav_moves (within_trans rfl hP)
    with_reducible assumption
  clear_value q3
  with_reducible apply nextKernel_moves (within_trans rfl hP)
  with_reducible assumption

/-- What one lane instruction can do: it faults, its kernel faults, or it runs. -/
theorem issue_moves {P : List Part} {z : State} {s u : State} {t : Fin 8} {legal vOnly : Bool} {c : LaneCost} {run : State → State}
    (e : issue s t legal vOnly c run = .next u) (hP : within [.regs, .log, .trav, .freeCtr] P = true) (h : Moves P z s)
    (hr : ∀ s1, Moves P z s1 → Moves P z (run s1)) : Moves P z u := by
  unfold issue at e
  split at e
  · split at e
    · cases e; exact hr _ h
    · cases e
  · split at e
    · cases e; exact kernelFault_moves (within_trans rfl hP) h
    · extract_lets start fin limit ready at e
      split at e
      · cases e; exact kernelFault_moves (within_trans rfl hP) h
      · cases e; exact hr _ (modTrav_moves (within_trans rfl hP) h)

theorem settle_moves {P : List Part} {z : State} {s0 : State} {t : Fin 8} {s : State}
    (hP : within [.regs, .trav] P = true) (h : Moves P z s) : Moves P z (settle s0 t s) := by
  unfold settle
  extract_lets T0 T n
  exact modTrav_moves (within_trans rfl hP) (bumpBy_moves (within_trans rfl hP) h)

theorem laneOp_moves {P : List Part} {z : State} {s u : State} {t : Fin 8} {p : Pred} {legal : Bool} {c : LaneCost}
    {f : Lane → Lane} (e : laneOp s t p legal c f = .next u) (hP : within [.regs, .log, .trav, .freeCtr] P = true)
    (h : Moves P z s) : Moves P z u :=
  issue_moves e hP h (fun _ k => settle_moves (within_trans rfl hP) (modTrav_moves (within_trans rfl hP) k))

end Sys2Proof.Laws
end

