-- ==== Sys2Proof/Laws/LanePortMoves.lean ====
section
/-! SUPPORT. What each operation of Machine/LanePort.lean can do: the parts of the state it changes, and that it keeps the
invariants. -/

namespace Sys2Proof.Laws
open Sys2Proof Sys2Proof.Machine Sys2Proof.Safety

theorem dramPut_moves {P : List Part} {z : State} {s : State} {line : ℕ} {region : ℕ} {st : ℕ} {sub : ℕ} {n : ℕ} {v : ℕ} (hP : within [.dram] P = true) (h : Moves P z s) :
    Moves P z (Machine.dramPut s line region st sub n v) := by
  unfold Machine.dramPut
  with_reducible apply Moves.setDram (within_trans rfl hP)
  · exact tabSet_fold_wf _ _ _ _ _
  · with_reducible assumption

end Sys2Proof.Laws
end

