-- ==== Sys2Proof/Laws/ConvMoves.lean ====
section
/-! SUPPORT. What each operation of Machine/Conv.lean can do: the parts of the state it changes, and that it keeps the
invariants. -/

namespace Sys2Proof.Laws
open Sys2Proof Sys2Proof.Machine Sys2Proof.Safety

theorem addSpan_moves {P : List Part} {z : State} {s : State} {l : Fin 2} {x : MarkSpan} (hP : within [.conv] P = true) (h : Moves P z s) :
    Moves P z (Machine.addSpan s l x) := by
  unfold Machine.addSpan
  extract_lets +onlyGivenNames q0
  clear_value q0
  extract_lets +onlyGivenNames q1
  clear_value q1
  with_reducible apply modConv_moves (within_trans rfl hP)
  with_reducible assumption

theorem openSpan_moves {P : List Part} {z : State} {s : State} {l : Fin 2} {why : MarkWhy} {mask : ℕ} (hP : within [.conv] P = true) (h : Moves P z s) :
    Moves P z (Machine.openSpan s l why mask) := by
  unfold Machine.openSpan
  refine Moves.ite ?_ ?_
  · with_reducible assumption
  · with_reducible apply addSpan_moves (within_trans rfl hP)
    with_reducible assumption

theorem closeSpan_moves {P : List Part} {z : State} {s : State} {l : Fin 2} {why : MarkWhy} {mask : ℕ} (hP : within [.conv] P = true) (h : Moves P z s) :
    Moves P z (Machine.closeSpan s l why mask) := by
  unfold Machine.closeSpan
  with_reducible apply modConv_moves (within_trans rfl hP)
  with_reducible assumption

theorem setBusy_moves {P : List Part} {z : State} {s : State} {l : Fin 2} {mask : ℕ} (hP : within [.regs, .conv] P = true) (h : Moves P z s) :
    Moves P z (Machine.setBusy s l mask) := by
  unfold Machine.setBusy
  extract_lets +onlyGivenNames q0
  clear_value q0
  with_reducible apply setF_moves (within_trans rfl hP)
  with_reducible apply closeSpan_moves (within_trans rfl hP)
  with_reducible apply openSpan_moves (within_trans rfl hP)
  with_reducible assumption

theorem raiseSettling_moves {P : List Part} {z : State} {s : State} {l : Fin 2} (hP : within [.conv] P = true) (h : Moves P z s) :
    Moves P z (Machine.raiseSettling s l) := by
  unfold Machine.raiseSettling
  refine Moves.ite ?_ ?_
  · with_reducible assumption
  · with_reducible apply openSpan_moves (within_trans rfl hP)
    with_reducible apply modConv_moves (within_trans rfl hP)
    with_reducible assumption

theorem setMaskBit_moves {P : List Part} {z : State} {s : State} {f : Fld} {i : ℕ} {b : Bool} (hP : within [.regs] P = true) (h : Moves P z s) :
    Moves P z (Machine.setMaskBit s f i b) := by
  unfold Machine.setMaskBit
  with_reducible apply setF_moves (within_trans rfl hP)
  with_reducible assumption

theorem evalWindow_moves {P : List Part} {z : State} {s : State} {l : Fin 2} {i : Fin 4} {oldSpare : ℕ} {w : SkewWindow} (hP : within [.regs, .log, .conv] P = true) (h : Moves P z s) :
    Moves P z (Machine.evalWindow s l i oldSpare w) := by
  unfold Machine.evalWindow
  refine Moves.ite ?_ ?_
  · extract_lets +onlyGivenNames q0
    have h0 : Moves P z q0 := by
      unfold q0
      with_reducible apply modConv_moves (within_trans rfl hP)
      with_reducible assumption
    clear_value q0
    extract_lets +onlyGivenNames q1
    clear_value q1
    extract_lets +onlyGivenNames q2
    clear_value q2
    extract_lets +onlyGivenNames q3
    clear_value q3
    extract_lets +onlyGivenNames q4
    have h4 : Moves P z q4 := by
      unfold q4
      split
      · with_reducible assumption
      · with_reducible apply setFS_moves (within_trans rfl hP)
        with_reducible assumption
    clear_value q4
    with_reducible apply setMaskBit_moves (within_trans rfl hP)
    with_reducible assumption
  · extract_lets +onlyGivenNames q5
    have h5 : Moves P z q5 := by
      unfold q5
      with_reducible apply bump_moves (within_trans rfl hP)
      with_reducible assumption
    clear_value q5
    refine Moves.ite ?_ ?_
    · with_reducible assumption
    · with_reducible apply logEvent_moves (within_trans rfl hP)
      with_reducible apply setMaskBit_moves (within_trans rfl hP)
      with_reducible assumption

theorem rotationSt_moves {P : List Part} {z : State} {l : Fin 2} {i : Fin 4} {w : Option SkewWindow} {s : State} (hP : within [.regs, .log, .conv] P = true) (h : Moves P z s) :
    Moves P z (Machine.rotationSt l i w s) := by
  unfold Machine.rotationSt
  extract_lets +onlyGivenNames q0
  clear_value q0
  extract_lets +onlyGivenNames q1
  have h1 : Moves P z q1 := by
    unfold q1
    with_reducible apply modConv_moves (within_trans rfl hP)
    with_reducible assumption
  clear_value q1
  split
  · with_reducible assumption
  · with_reducible apply evalWindow_moves (within_trans rfl hP)
    with_reducible assumption

theorem spareSt_moves {P : List Part} {z : State} {l : Fin 2} {i : Fin 4} {offset : ℤ} {gain : ℤ} {th : List ℤ} {s : State} (hP : within [.conv] P = true) (h : Moves P z s) :
    Moves P z (Machine.spareSt l i offset gain th s) := by
  unfold Machine.spareSt
  with_reducible apply modConv_moves (within_trans rfl hP)
  with_reducible assumption

theorem refFallbackSt_moves {P : List Part} {z : State} {l : Fin 2} {s : State} (hP : within [.regs, .log, .conv] P = true) (h : Moves P z s) :
    Moves P z (Machine.refFallbackSt l s) := by
  unfold Machine.refFallbackSt
  refine Moves.ite ?_ ?_
  · extract_lets +onlyGivenNames q0
    have h0 : Moves P z q0 := by
      unfold q0
      with_reducible apply raiseSettling_moves (within_trans rfl hP)
      with_reducible apply modConv_moves (within_trans rfl hP)
      with_reducible assumption
    clear_value q0
    with_reducible apply logEvent_moves (within_trans rfl hP)
    with_reducible apply setF_moves (within_trans rfl hP)
    with_reducible assumption
  · with_reducible assumption

theorem modHk_moves {P : List Part} {z : State} {s : State} {f : HkSt → HkSt} (hP : within [.hk] P = true) (h : Moves P z s) :
    Moves P z (Machine.modHk s f) := by
  unfold Machine.modHk
  with_reducible apply Moves.setHk (within_trans rfl hP)
  with_reducible assumption

theorem m1Take_moves {P : List Part} {z : State} {s : State} (hP : within [.hk] P = true) (h : Moves P z s) :
    Moves P z (Machine.m1Take s) := by
  unfold Machine.m1Take
  split
  · with_reducible apply modHk_moves (within_trans rfl hP)
    with_reducible assumption
  · with_reducible apply modHk_moves (within_trans rfl hP)
    with_reducible assumption
  · with_reducible apply modHk_moves (within_trans rfl hP)
    with_reducible assumption

theorem urgentSt_moves {P : List Part} {z : State} {ch : ℕ} {s : State} (hP : within [.regs, .hk] P = true) (h : Moves P z s) :
    Moves P z (Machine.urgentSt ch s) := by
  unfold Machine.urgentSt
  refine Moves.ite ?_ ?_
  · refine Moves.ite ?_ ?_
    · with_reducible apply bump_moves (within_trans rfl hP)
      with_reducible assumption
    · extract_lets +onlyGivenNames q0
      have h0 : Moves P z q0 := by
        unfold q0
        with_reducible apply modHk_moves (within_trans rfl hP)
        with_reducible assumption
      clear_value q0
      refine Moves.ite ?_ ?_
      · with_reducible assumption
      · with_reducible apply m1Take_moves (within_trans rfl hP)
        with_reducible assumption
  · with_reducible assumption

theorem askFast_moves {P : List Part} {z : State} {s : State} {l : Fin 2} (hP : within [.regs, .conv, .hk] P = true) (h : Moves P z s) :
    Moves P z (Machine.askFast s l) := by
  unfold Machine.askFast
  with_reducible apply urgentSt_moves (within_trans rfl hP)
  with_reducible apply modConv_moves (within_trans rfl hP)
  with_reducible assumption

theorem askRaman_moves {P : List Part} {z : State} {s : State} {l : Fin 2} (hP : within [.regs, .conv, .hk] P = true) (h : Moves P z s) :
    Moves P z (Machine.askRaman s l) := by
  unfold Machine.askRaman
  with_reducible apply urgentSt_moves (within_trans rfl hP)
  with_reducible apply modConv_moves (within_trans rfl hP)
  with_reducible assumption

theorem startFg_moves {P : List Part} {z : State} {s : State} {l : Fin 2} (hP : within [.regs, .conv, .hk] P = true) (h : Moves P z s) :
    Moves P z (Machine.startFg s l) := by
  unfold Machine.startFg
  extract_lets +onlyGivenNames q0
  clear_value q0
  refine Moves.ite ?_ ?_
  · with_reducible assumption
  · split
    · with_reducible assumption
    · extract_lets +onlyGivenNames q1
      have h1 : Moves P z q1 := by
        unfold q1
        with_reducible apply modConv_moves (within_trans rfl hP)
        with_reducible assumption
      clear_value q1
      with_reducible apply askFast_moves (within_trans rfl hP)
      with_reducible apply setBusy_moves (within_trans rfl hP)
      with_reducible assumption

theorem resumeCal_moves {P : List Part} {z : State} {s : State} {l : Fin 2} (hP : within [.regs, .conv, .hk] P = true) (h : Moves P z s) :
    Moves P z (Machine.resumeCal s l) := by
  unfold Machine.resumeCal
  extract_lets +onlyGivenNames q0
  have h0 : Moves P z q0 := by
    unfold q0
    with_reducible apply startFg_moves (within_trans rfl hP)
    with_reducible assumption
  clear_value q0
  refine Moves.ite ?_ ?_
  · with_reducible apply setF_moves (within_trans rfl hP)
    with_reducible apply modConv_moves (within_trans rfl hP)
    with_reducible assumption
  · with_reducible assumption

theorem queueFg_moves {P : List Part} {z : State} {s : State} {l : Fin 2} {i : ℕ} (hP : within [.regs, .conv, .hk] P = true) (h : Moves P z s) :
    Moves P z (Machine.queueFg s l i) := by
  unfold Machine.queueFg
  extract_lets +onlyGivenNames q0
  have h0 : Moves P z q0 := by
    unfold q0
    with_reducible apply setMaskBit_moves (within_trans rfl hP)
    with_reducible assumption
  clear_value q0
  refine Moves.ite ?_ ?_
  · with_reducible assumption
  · with_reducible apply startFg_moves (within_trans rfl hP)
    with_reducible apply modConv_moves (within_trans rfl hP)
    with_reducible assumption

theorem startPass_moves {P : List Part} {z : State} {s : State} {l : Fin 2} {i : Fin 4} {reading : ℤ} (hP : within [.regs, .conv] P = true) (h : Moves P z s) :
    Moves P z (Machine.startPass s l i reading) := by
  unfold Machine.startPass
  with_reducible apply setMaskBit_moves (within_trans rfl hP)
  with_reducible apply modConv_moves (within_trans rfl hP)
  with_reducible assumption

theorem convDie_moves {P : List Part} {z : State} {s : State} {l : Fin 2} {mk : ℤ} (hP : within [.regs, .conv, .hk] P = true) (h : Moves P z s) :
    Moves P z (Machine.convDie s l mk) := by
  unfold Machine.convDie
  extract_lets +onlyGivenNames q0
  have h0 : Moves P z q0 := by
    unfold q0
    with_reducible apply modConv_moves (within_trans rfl hP)
    with_reducible assumption
  clear_value q0
  refine Moves.folded (fun _ _ _ => ?_) ?_
  · extract_lets +onlyGivenNames q1
    clear_value q1
    refine Moves.ite ?_ ?_
    · with_reducible apply queueFg_moves (within_trans rfl hP)
      with_reducible assumption
    · refine Moves.ite ?_ ?_
      · with_reducible apply startPass_moves (within_trans rfl hP)
        with_reducible assumption
      · with_reducible assumption
  · with_reducible assumption

theorem convDieRaman_moves {P : List Part} {z : State} {s : State} {l : Fin 2} {mk : ℤ} (hP : within [.regs, .conv] P = true) (h : Moves P z s) :
    Moves P z (Machine.convDieRaman s l mk) := by
  unfold Machine.convDieRaman
  extract_lets +onlyGivenNames q0
  have h0 : Moves P z q0 := by
    unfold q0
    with_reducible apply modConv_moves (within_trans rfl hP)
    with_reducible assumption
  clear_value q0
  refine Moves.ite ?_ ?_
  · with_reducible apply setF_moves (within_trans rfl hP)
    with_reducible assumption
  · with_reducible assumption

theorem writeCals_moves {P : List Part} {z : State} {s : State} {l : Fin 2} {p : ℕ → Bool} {values : List CalVal} (hP : within [.conv] P = true) (h : Moves P z s) :
    Moves P z (Machine.writeCals s l p values) := by
  unfold Machine.writeCals
  with_reducible apply modConv_moves (within_trans rfl hP)
  with_reducible assumption

theorem fgInputSt_moves {P : List Part} {z : State} {l : Fin 2} {i : Fin 4} {values : List CalVal} {s : State} (hP : within [.regs, .conv, .hk] P = true) (h : Moves P z s) :
    Moves P z (Machine.fgInputSt l i values s) := by
  unfold Machine.fgInputSt
  refine Moves.ite ?_ ?_
  · extract_lets +onlyGivenNames q0
    have h0 : Moves P z q0 := by
      unfold q0
      with_reducible apply writeCals_moves (within_trans rfl hP)
      with_reducible assumption
    clear_value q0
    extract_lets +onlyGivenNames q1
    have h1 : Moves P z q1 := by
      unfold q1
      with_reducible apply setFS_moves (within_trans rfl hP)
      with_reducible assumption
    clear_value q1
    extract_lets +onlyGivenNames q2
    have h2 : Moves P z q2 := by
      unfold q2
      with_reducible apply setMaskBit_moves (within_trans rfl hP)
      with_reducible assumption
    clear_value q2
    with_reducible apply startFg_moves (within_trans rfl hP)
    with_reducible apply setBusy_moves (within_trans rfl hP)
    with_reducible assumption
  · with_reducible assumption

theorem startFullCal_moves {P : List Part} {z : State} {s : State} {l : Fin 2} (hP : within [.regs, .conv, .hk] P = true) (h : Moves P z s) :
    Moves P z (Machine.startFullCal s l) := by
  unfold Machine.startFullCal
  extract_lets +onlyGivenNames q0
  have h0 : Moves P z q0 := by
    unfold q0
    with_reducible apply modConv_moves (within_trans rfl hP)
    with_reducible assumption
  clear_value q0
  with_reducible apply askRaman_moves (within_trans rfl hP)
  with_reducible apply askFast_moves (within_trans rfl hP)
  with_reducible apply setF_moves (within_trans rfl hP)
  with_reducible apply setBusy_moves (within_trans rfl hP)
  with_reducible assumption

theorem setPgaGain_moves {P : List Part} {z : State} {s : State} {l : ℕ} {n : ℕ} {r : ℕ} {g : ℕ} (hP : within [.regs] P = true) (h : Moves P z s) :
    Moves P z (Machine.setPgaGain s l n r g) := by
  unfold Machine.setPgaGain
  with_reducible apply setF_moves (within_trans rfl hP)
  with_reducible assumption

theorem fullCalSt_moves {P : List Part} {z : State} {l : Fin 2} {values : List CalVal} {gains : List ℕ} {s : State} (hP : within [.regs, .conv] P = true) (h : Moves P z s) :
    Moves P z (Machine.fullCalSt l values gains s) := by
  unfold Machine.fullCalSt
  extract_lets +onlyGivenNames q0
  clear_value q0
  extract_lets +onlyGivenNames q1
  have h1 : Moves P z q1 := by
    unfold q1
    with_reducible apply writeCals_moves (within_trans rfl hP)
    with_reducible assumption
  clear_value q1
  extract_lets +onlyGivenNames q2
  have h2 : Moves P z q2 := by
    unfold q2
    refine Moves.folded (fun _ _ _ => ?_) ?_
    · with_reducible apply setFS_moves (within_trans rfl hP)
      with_reducible assumption
    · with_reducible assumption
  clear_value q2
  extract_lets +onlyGivenNames q3
  have h3 : Moves P z q3 := by
    unfold q3
    refine Moves.folded (fun _ _ _ => ?_) ?_
    · with_reducible apply setPgaGain_moves (within_trans rfl hP)
      with_reducible assumption
    · with_reducible assumption
  clear_value q3
  extract_lets +onlyGivenNames q4
  have h4 : Moves P z q4 := by
    unfold q4
    with_reducible apply setF_moves (within_trans rfl hP)
    with_reducible apply setBusy_moves (within_trans rfl hP)
    with_reducible apply setF_moves (within_trans rfl hP)
    with_reducible assumption
  clear_value q4
  with_reducible apply modConv_moves (within_trans rfl hP)
  with_reducible assumption

theorem startRamanFg_moves {P : List Part} {z : State} {s : State} {l : Fin 2} (hP : within [.regs, .conv, .hk] P = true) (h : Moves P z s) :
    Moves P z (Machine.startRamanFg s l) := by
  unfold Machine.startRamanFg
  extract_lets +onlyGivenNames q0
  clear_value q0
  extract_lets +onlyGivenNames q1
  have h1 : Moves P z q1 := by
    unfold q1
    with_reducible apply modConv_moves (within_trans rfl hP)
    with_reducible assumption
  clear_value q1
  with_reducible apply askRaman_moves (within_trans rfl hP)
  with_reducible apply setBusy_moves (within_trans rfl hP)
  with_reducible apply setF_moves (within_trans rfl hP)
  with_reducible assumption

theorem ramanFgDoneSt_moves {P : List Part} {z : State} {l : Fin 2} {values : List CalVal} {gains : List ℕ} {s : State} (hP : within [.regs, .conv] P = true) (h : Moves P z s) :
    Moves P z (Machine.ramanFgDoneSt l values gains s) := by
  unfold Machine.ramanFgDoneSt
  extract_lets +onlyGivenNames q0
  clear_value q0
  refine Moves.ite ?_ ?_
  · extract_lets +onlyGivenNames q1
    have h1 : Moves P z q1 := by
      unfold q1
      with_reducible apply writeCals_moves (within_trans rfl hP)
      with_reducible assumption
    clear_value q1
    extract_lets +onlyGivenNames q2
    have h2 : Moves P z q2 := by
      unfold q2
      refine Moves.folded (fun _ _ _ => ?_) ?_
      · with_reducible apply setFS_moves (within_trans rfl hP)
        with_reducible assumption
      · with_reducible assumption
    clear_value q2
    extract_lets +onlyGivenNames q3
    have h3 : Moves P z q3 := by
      unfold q3
      refine Moves.folded (fun _ _ _ => ?_) ?_
      · with_reducible apply setPgaGain_moves (within_trans rfl hP)
        with_reducible assumption
      · with_reducible assumption
    clear_value q3
    extract_lets +onlyGivenNames q4
    have h4 : Moves P z q4 := by
      unfold q4
      with_reducible apply setBusy_moves (within_trans rfl hP)
      with_reducible assumption
    clear_value q4
    with_reducible apply modConv_moves (within_trans rfl hP)
    with_reducible assumption
  · with_reducible assumption

theorem overRangeSt_moves {P : List Part} {z : State} {l : Fin 2} {i : Fin 6} {length : ℕ} {gap : ℕ} {s : State} (hP : within [.regs, .conv] P = true) (h : Moves P z s) :
    Moves P z (Machine.overRangeSt l i length gap s) := by
  unfold Machine.overRangeSt
  refine Moves.ite ?_ ?_
  · with_reducible assumption
  · extract_lets +onlyGivenNames q0
    clear_value q0
    extract_lets +onlyGivenNames q1
    clear_value q1
    extract_lets +onlyGivenNames q2
    have h2 : Moves P z q2 := by
      unfold q2
      with_reducible apply modConv_moves (within_trans rfl hP)
      with_reducible assumption
    clear_value q2
    extract_lets +onlyGivenNames q3
    have h3 : Moves P z q3 := by
      unfold q3
      with_reducible apply addSpan_moves (within_trans rfl hP)
      with_reducible assumption
    clear_value q3
    extract_lets +onlyGivenNames q4
    have h4 : Moves P z q4 := by
      unfold q4
      refine Moves.ite ?_ ?_
      · with_reducible apply addSpan_moves (within_trans rfl hP)
        with_reducible assumption
      · with_reducible assumption
    clear_value q4
    refine Moves.ite ?_ ?_
    · with_reducible apply bump_moves (within_trans rfl hP)
      with_reducible assumption
    · with_reducible assumption

theorem requestRange_moves {P : List Part} {z : State} {s : State} {l : Fin 2} {n : Fin 2} {r : ℕ} {auto : Bool} (hP : within [.conv] P = true) (h : Moves P z s) :
    Moves P z (Machine.requestRange s l n r auto) := by
  unfold Machine.requestRange
  with_reducible apply modConv_moves (within_trans rfl hP)
  with_reducible assumption

theorem applyRange_moves {P : List Part} {z : State} {s : State} {l : Fin 2} {n : Fin 2} (hP : within [.regs, .conv] P = true) (h : Moves P z s) :
    Moves P z (Machine.applyRange s l n) := by
  unfold Machine.applyRange
  extract_lets +onlyGivenNames q0
  clear_value q0
  split
  · with_reducible assumption
  · extract_lets +onlyGivenNames q1
    have h1 : Moves P z q1 := by
      unfold q1
      with_reducible apply modConv_moves (within_trans rfl hP)
      with_reducible assumption
    clear_value q1
    refine Moves.ite ?_ ?_
    · with_reducible assumption
    · with_reducible apply bump_moves (within_trans rfl hP)
      with_reducible assumption

theorem closeWindow_moves {P : List Part} {z : State} {s : State} {l : Fin 2} (hP : within [.regs, .conv] P = true) (h : Moves P z s) :
    Moves P z (Machine.closeWindow s l) := by
  unfold Machine.closeWindow
  with_reducible apply modConv_moves (within_trans rfl hP)
  with_reducible apply applyRange_moves (within_trans rfl hP)
  with_reducible apply applyRange_moves (within_trans rfl hP)
  with_reducible assumption

theorem autoRange_moves {P : List Part} {z : State} {s : State} {l : Fin 2} {n : Fin 2} {ovr : Bool} {peak : ℕ} (hP : within [.conv] P = true) (h : Moves P z s) :
    Moves P z (Machine.autoRange s l n ovr peak) := by
  unfold Machine.autoRange
  extract_lets +onlyGivenNames q0
  have h0 : Moves P z q0 := by
    unfold q0
    with_reducible apply modConv_moves (within_trans rfl hP)
    with_reducible assumption
  clear_value q0
  extract_lets +onlyGivenNames q1
  clear_value q1
  extract_lets +onlyGivenNames q2
  clear_value q2
  extract_lets +onlyGivenNames q3
  clear_value q3
  refine Moves.ite ?_ ?_
  · with_reducible assumption
  · refine Moves.ite ?_ ?_
    · refine Moves.ite ?_ ?_
      · with_reducible apply requestRange_moves (within_trans rfl hP)
        with_reducible assumption
      · with_reducible assumption
    · refine Moves.ite ?_ ?_
      · with_reducible apply requestRange_moves (within_trans rfl hP)
        with_reducible assumption
      · with_reducible assumption

theorem convStop_moves {P : List Part} {z : State} {s : State} {l : Fin 2} {requeue : Bool} (hP : within [.regs, .conv] P = true) (h : Moves P z s) :
    Moves P z (Machine.convStop s l requeue) := by
  unfold Machine.convStop
  extract_lets +onlyGivenNames q0
  clear_value q0
  extract_lets +onlyGivenNames q1
  clear_value q1
  extract_lets +onlyGivenNames q2
  have h2 : Moves P z q2 := by
    unfold q2
    with_reducible apply modConv_moves (within_trans rfl hP)
    with_reducible assumption
  clear_value q2
  with_reducible apply setF_moves (within_trans rfl hP)
  with_reducible apply setF_moves (within_trans rfl hP)
  with_reducible apply setBusy_moves (within_trans rfl hP)
  with_reducible assumption

end Sys2Proof.Laws
end

