-- ==== Sys2Proof/Laws/ProbeMoves.lean ====
section
/-! SUPPORT. What each operation of Machine/Probe.lean can do: the parts of the state it changes, and that it keeps the
invariants. -/

namespace Sys2Proof.Laws
open Sys2Proof Sys2Proof.Machine Sys2Proof.Safety

theorem acceptOrigin_moves {P : List Part} {z : State} {s : State} {l : Fin 2} {n : ℕ} (hP : within [.probe] P = true) (h : Moves P z s) :
    Moves P z (Machine.acceptOrigin s l n) := by
  unfold Machine.acceptOrigin
  with_reducible apply modProbe_moves (within_trans rfl hP)
  · (refine fun p k => sameLaser.safe ?_ k; exact ⟨(foldMoveSlot_laser _ _ _).1, (foldMoveSlot_laser _ _ _).2⟩)
  · with_reducible assumption

theorem restartSchedule_moves {P : List Part} {z : State} {s : State} {l : Fin 2} (hP : within [.probe] P = true) (h : Moves P z s) :
    Moves P z (Machine.restartSchedule s l) := by
  unfold Machine.restartSchedule
  with_reducible apply modProbe_moves (within_trans rfl hP)
  · (refine fun p k => sameLaser.safe ?_ k; split <;> exact ⟨rfl, rfl⟩)
  · with_reducible assumption

theorem discardLaunch_moves {P : List Part} {z : State} {s : State} {l : Fin 2} {c : SlotCfg} {t : ℕ} (hP : within [.regs, .probe] P = true) (h : Moves P z s) :
    Moves P z (Machine.discardLaunch s l c t) := by
  unfold Machine.discardLaunch
  extract_lets +onlyGivenNames q0
  clear_value q0
  extract_lets +onlyGivenNames q1
  clear_value q1
  with_reducible apply modProbe_moves (within_trans rfl hP)
  · (intro _ k; exact k)
  · with_reducible apply bump_moves (within_trans rfl hP)
    with_reducible assumption

theorem launchCmdSt_moves {P : List Part} {z : State} {l : Fin 2} {k : Fin 16} {s : State} (hP : within [.regs, .probe] P = true) (h : Moves P z s) :
    Moves P z (Machine.launchCmdSt l k s) := by
  unfold Machine.launchCmdSt
  split
  · with_reducible assumption
  · extract_lets +onlyGivenNames q0
    have h0 : Moves P z q0 := by
      unfold q0
      with_reducible apply modProbe_moves (within_trans rfl hP)
      · exact fun p k => sameLaser.safe ((originDue_laser _ p).trans (moveToNew_laser _ _ _)) k
      · with_reducible assumption
    clear_value q0
    extract_lets +onlyGivenNames q1
    clear_value q1
    split
    · with_reducible assumption
    · refine Moves.ite ?_ ?_
      · with_reducible apply discardLaunch_moves (within_trans rfl hP)
        with_reducible assumption
      · with_reducible apply modProbe_moves (within_trans rfl hP)
        · (intro _ k; exact k)
        · with_reducible assumption

theorem muteSlots_moves {P : List Part} {z : State} {s : State} {l : Fin 2} {cause : ℕ} {mask : ℕ} (hP : within [.regs, .log] P = true) (h : Moves P z s) :
    Moves P z (Machine.muteSlots s l cause mask) := by
  unfold Machine.muteSlots
  refine Moves.ite ?_ ?_
  · with_reducible assumption
  · extract_lets +onlyGivenNames q0
    clear_value q0
    extract_lets +onlyGivenNames q1
    clear_value q1
    extract_lets +onlyGivenNames q2
    have h2 : Moves P z q2 := by
      unfold q2
      with_reducible apply setF_moves (within_trans rfl hP)
      with_reducible apply setF_moves (within_trans rfl hP)
      with_reducible assumption
    clear_value q2
    refine Moves.ite ?_ ?_
    · with_reducible assumption
    · with_reducible apply logEvent_moves (within_trans rfl hP)
      with_reducible assumption

theorem dacTo_moves {P : List Part} {z : State} {s : State} {l : Fin 2} {limit : ℕ} (hP : within [.regs, .log, .probe] P = true) (h : Moves P z s) :
    Moves P z (Machine.dacTo s l limit) := by
  unfold Machine.dacTo
  extract_lets +onlyGivenNames q0
  clear_value q0
  refine Moves.ite ?_ ?_
  · with_reducible assumption
  · split
    extract_lets +onlyGivenNames q1
    clear_value q1
    extract_lets +onlyGivenNames q2
    clear_value q2
    extract_lets +onlyGivenNames q3
    have h3 : Moves P z q3 := by
      unfold q3
      with_reducible apply modProbe_moves (within_trans rfl hP)
      · (intro _ k; exact k)
      · with_reducible assumption
    clear_value q3
    extract_lets +onlyGivenNames q4
    have h4 : Moves P z q4 := by
      unfold q4
      with_reducible apply bumpBy_moves (within_trans rfl hP)
      with_reducible assumption
    clear_value q4
    with_reducible apply muteSlots_moves (within_trans rfl hP)
    with_reducible apply muteSlots_moves (within_trans rfl hP)
    with_reducible assumption

theorem dacNow_moves {P : List Part} {z : State} {s : State} {l : Fin 2} (hP : within [.regs, .log, .probe] P = true) (h : Moves P z s) :
    Moves P z (Machine.dacNow s l) := by
  unfold Machine.dacNow
  with_reducible apply dacTo_moves (within_trans rfl hP)
  with_reducible assumption

theorem dacFinish_moves {P : List Part} {z : State} {s : State} {l : Fin 2} {stamp : ℕ} (hP : within [.regs, .log, .probe] P = true) (h : Moves P z s) :
    Moves P z (Machine.dacFinish s l stamp) := by
  unfold Machine.dacFinish
  with_reducible apply dacTo_moves (within_trans rfl hP)
  with_reducible assumption

theorem cutLine_moves {P : List Part} {z : State} {s : State} {l : Fin 2} (hP : within [.regs, .log, .probe] P = true) (h : Moves P z s) :
    Moves P z (Machine.cutLine s l) := by
  unfold Machine.cutLine
  extract_lets +onlyGivenNames q0
  have h0 : Moves P z q0 := by
    unfold q0
    with_reducible apply dacNow_moves (within_trans rfl hP)
    with_reducible assumption
  clear_value q0
  extract_lets +onlyGivenNames q1
  clear_value q1
  with_reducible apply modProbe_moves (within_trans rfl hP)
  · (intro _ k; exact k)
  · with_reducible assumption

theorem cutSlots_moves {P : List Part} {z : State} {s : State} {l : Fin 2} {mask : ℕ} (hP : within [.regs, .log, .probe] P = true) (h : Moves P z s) :
    Moves P z (Machine.cutSlots s l mask) := by
  unfold Machine.cutSlots
  with_reducible apply modProbe_moves (within_trans rfl hP)
  · (intro _ k; exact k)
  · with_reducible apply dacNow_moves (within_trans rfl hP)
    with_reducible assumption

theorem slewLaunch_moves {P : List Part} {z : State} {s : State} {l : Fin 2} {time : ℕ} (hP : within [.probe, .freeCtr] P = true) (h : Moves P z s) :
    Moves P z (Machine.slewLaunch s l time) := by
  unfold Machine.slewLaunch
  split
  refine Moves.ite ?_ ?_
  · with_reducible apply modProbe_moves (within_trans rfl hP)
    · (intro _ k; exact k)
    · with_reducible assumption
  · refine Moves.ite ?_ ?_
    · with_reducible apply modProbe_moves (within_trans rfl hP)
      · (intro _ k; exact k)
      · refine draw_moves_eq (by assumption) (within_trans rfl hP) ?_
        with_reducible assumption
    · with_reducible assumption

theorem countPoint_moves {P : List Part} {z : State} {s : State} {l : Fin 2} {set : List (SlotCfg × ℕ)} (hP : within [.pce] P = true) (h : Moves P z s) :
    Moves P z (Machine.countPoint s l set) := by
  unfold Machine.countPoint
  split
  · with_reducible assumption
  · refine Moves.ite ?_ ?_
    · with_reducible apply modPce_moves (within_trans rfl hP)
      with_reducible assumption
    · with_reducible assumption

theorem fireRaman_moves {P : List Part} {z : State} {s : State} {l : Fin 2} {time : ℕ} {set : List (SlotCfg × ℕ)} {dark : SlotCfg → Bool} (hP : within [.probe] P = true) (h : Moves P z s) :
    Moves P z (Machine.fireRaman s l time set dark) := by
  unfold Machine.fireRaman
  split
  · split
    · refine Moves.ite ?_ ?_
      · extract_lets +onlyGivenNames q0
        clear_value q0
        with_reducible apply modProbe_moves (within_trans rfl hP)
        · (intro _ k; exact k)
        · with_reducible assumption
      · with_reducible assumption
    · with_reducible assumption
  · with_reducible assumption

theorem probeLaunchSt_moves {P : List Part} {z : State} {l : Fin 2} {s0 : State} (hP : within [.regs, .log, .probe, .pce, .time, .zn, .freeCtr] P = true) (h : Moves P z s0) :
    Moves P z (Machine.probeLaunchSt l s0) := by
  unfold Machine.probeLaunchSt
  split
  · with_reducible assumption
  · extract_lets +onlyGivenNames q0
    clear_value q0
    extract_lets +onlyGivenNames q1
    have h1 : Moves P z q1 := by
      unfold q1
      with_reducible apply slewLaunch_moves (within_trans rfl hP)
      with_reducible apply modProbe_moves (within_trans rfl hP)
      · exact fun p k => sameLaser.safe (originDue_laser _ p) k
      · with_reducible assumption
    clear_value q1
    extract_lets +onlyGivenNames q2
    clear_value q2
    extract_lets +onlyGivenNames q3
    clear_value q3
    extract_lets +onlyGivenNames q4
    clear_value q4
    extract_lets +onlyGivenNames q5
    clear_value q5
    extract_lets +onlyGivenNames q6
    have h6 : Moves P z q6 := by
      unfold q6
      with_reducible apply dacTo_moves (within_trans rfl hP)
      with_reducible assumption
    clear_value q6
    extract_lets +onlyGivenNames q7
    have h7 : Moves P z q7 := by
      unfold q7
      with_reducible apply modProbe_moves (within_trans rfl hP)
      · (refine fun p k => sameLaser.safe ?_ k; exact ⟨(passPoints_laser _ _ p).1, (passPoints_laser _ _ p).2⟩)
      · with_reducible assumption
    clear_value q7
    extract_lets +onlyGivenNames q8
    have h8 : Moves P z q8 := by
      unfold q8
      with_reducible apply Moves.setFreeCtr (within_trans rfl hP)
      with_reducible assumption
    clear_value q8
    extract_lets +onlyGivenNames q9
    have h9 : Moves P z q9 := by
      unfold q9
      with_reducible apply countPoint_moves (within_trans rfl hP)
      with_reducible apply fireRaman_moves (within_trans rfl hP)
      with_reducible assumption
    clear_value q9
    refine Moves.ite ?_ ?_
    · extract_lets +onlyGivenNames q10
      clear_value q10
      extract_lets +onlyGivenNames q11
      clear_value q11
      extract_lets +onlyGivenNames q12
      have h12 : Moves P z q12 := by
        unfold q12
        with_reducible apply Moves.setTimeZn (within_trans rfl hP)
        with_reducible assumption
      clear_value q12
      refine Moves.ite ?_ ?_
      · with_reducible apply setF_moves (within_trans rfl hP)
        with_reducible assumption
      · with_reducible assumption
    · with_reducible assumption

theorem subwindowSt_moves {P : List Part} {z : State} {l : Fin 2} {s : State} (hP : within [.regs, .log, .probe] P = true) (h : Moves P z s) :
    Moves P z (Machine.subwindowSt l s) := by
  unfold Machine.subwindowSt
  extract_lets +onlyGivenNames q0
  have h0 : Moves P z q0 := by
    unfold q0
    with_reducible apply modProbe_moves (within_trans rfl hP)
    · (intro _ k; exact k)
    · with_reducible apply dacNow_moves (within_trans rfl hP)
      with_reducible assumption
  clear_value q0
  split
  refine Moves.ite ?_ ?_
  · with_reducible apply muteSlots_moves (within_trans rfl hP)
    with_reducible apply cutSlots_moves (within_trans rfl hP)
    with_reducible assumption
  · with_reducible assumption

end Sys2Proof.Laws
end

