-- ==== Sys2Proof/Laws/PceMoves.lean ====
section
/-! SUPPORT. What each operation of Machine/Pce.lean can do: the parts of the state it changes, and that it keeps the
invariants. -/

namespace Sys2Proof.Laws
open Sys2Proof Sys2Proof.Machine Sys2Proof.Safety

theorem refuseReq_moves {P : List Part} {z : State} {s : State} {t : Fin 8} (hP : within [.regs, .trav] P = true) (h : Moves P z s) :
    Moves P z (Machine.refuseReq s t) := by
  unfold Machine.refuseReq
  with_reducible apply bump_moves (within_trans rfl hP)
  with_reducible apply modTrav_moves (within_trans rfl hP)
  with_reducible assumption

theorem requestFg_moves {P : List Part} {z : State} {s : State} {t : Fin 8} {r : ShotReq} {group : Option ℕ} (hP : within [.regs, .trav] P = true) (h : Moves P z s) :
    Moves P z (Machine.requestFg s t r group).1 := by
  unfold Machine.requestFg
  refine Moves.iteFst ?_ ?_
  · refine Moves.fst ?_
    with_reducible apply modTrav_moves (within_trans rfl hP)
    with_reducible apply refuseReq_moves (within_trans rfl hP)
    with_reducible assumption
  · extract_lets +onlyGivenNames q0
    have h0 : Moves P z q0 := by
      unfold q0
      with_reducible apply modTrav_moves (within_trans rfl hP)
      with_reducible assumption
    clear_value q0
    refine Moves.fst ?_
    with_reducible apply setF_moves (within_trans rfl hP)
    with_reducible assumption

theorem requestFg_moves_eq {P : List Part} {z : State} {s : State} {t : Fin 8} {r : ShotReq} {group : Option ℕ} {tt : State} {x1}
    (e0 : Machine.requestFg s t r group = (tt, x1)) (hP : within [.regs, .trav] P = true) (h : Moves P z s) : Moves P z tt := by
  have k := requestFg_moves (P := P) (z := z) (hP := hP) (h := h) (t := t) (r := r) (group := group)
  rw [e0] at k
  exact k

theorem requestShot_moves {P : List Part} {z : State} {s : State} {l : Fin 2} {stamp : ℕ} {offset : ℕ} (hP : within [.regs, .trav] P = true) (h : Moves P z s) :
    Moves P z (Machine.requestShot s l stamp offset).1 := by
  unfold Machine.requestShot
  extract_lets +onlyGivenNames q0
  clear_value q0
  refine Moves.foldFst (fun _ _ _ => ?_) ?_
  · split
    refine Moves.fst ?_
    refine requestFg_moves_eq (by assumption) (within_trans rfl hP) ?_
    with_reducible assumption
  · refine Moves.fst ?_
    with_reducible assumption

theorem requestShot_moves_eq {P : List Part} {z : State} {s : State} {l : Fin 2} {stamp : ℕ} {offset : ℕ} {tt : State} {x1}
    (e0 : Machine.requestShot s l stamp offset = (tt, x1)) (hP : within [.regs, .trav] P = true) (h : Moves P z s) : Moves P z tt := by
  have k := requestShot_moves (P := P) (z := z) (hP := hP) (h := h) (l := l) (stamp := stamp) (offset := offset)
  rw [e0] at k
  exact k

theorem cancelInput_moves {P : List Part} {z : State} {s : State} {l : Fin 2} {i : Fin 4} {L : Launch} {codes : List (ℤ × Bool)} {stale : List Bool} (hP : within [.pce, .freeCtr] P = true) (h : Moves P z s) :
    Moves P z (Machine.cancelInput s l i L codes stale).2 := by
  unfold Machine.cancelInput
  extract_lets +onlyGivenNames q0
  clear_value q0
  split
  extract_lets +onlyGivenNames q1
  clear_value q1
  extract_lets +onlyGivenNames q2
  clear_value q2
  extract_lets +onlyGivenNames q3
  clear_value q3
  extract_lets +onlyGivenNames q4
  clear_value q4
  refine Moves.snd ?_
  refine Moves.ite ?_ ?_
  · refine draw_moves_eq (by assumption) (within_trans rfl hP) ?_
    with_reducible assumption
  · with_reducible apply modPce_moves (within_trans rfl hP)
    refine draw_moves_eq (by assumption) (within_trans rfl hP) ?_
    with_reducible assumption

theorem cancelInput_moves_eq {P : List Part} {z : State} {s : State} {l : Fin 2} {i : Fin 4} {L : Launch} {codes : List (ℤ × Bool)} {stale : List Bool} {tt : State} {x0}
    (e0 : Machine.cancelInput s l i L codes stale = (x0, tt)) (hP : within [.pce, .freeCtr] P = true) (h : Moves P z s) : Moves P z tt := by
  have k := cancelInput_moves (P := P) (z := z) (hP := hP) (h := h) (l := l) (i := i) (L := L) (codes := codes) (stale := stale)
  rw [e0] at k
  exact k

theorem cancelled_moves {P : List Part} {z : State} {s : State} {l : Fin 2} {pol : Fin 2} {L : Launch} {ci : List (ℤ × Bool)} {cq : List (ℤ × Bool)} {si : List Bool} {sq : List Bool} (hP : within [.pce, .freeCtr] P = true) (h : Moves P z s) :
    Moves P z (Machine.cancelled s l pol L ci cq si sq).2 := by
  unfold Machine.cancelled
  split
  split
  refine Moves.snd ?_
  refine cancelInput_moves_eq (by assumption) (within_trans rfl hP) ?_
  refine cancelInput_moves_eq (by assumption) (within_trans rfl hP) ?_
  with_reducible assumption

theorem cancelled_moves_eq {P : List Part} {z : State} {s : State} {l : Fin 2} {pol : Fin 2} {L : Launch} {ci : List (ℤ × Bool)} {cq : List (ℤ × Bool)} {si : List Bool} {sq : List Bool} {tt : State} {x0}
    (e0 : Machine.cancelled s l pol L ci cq si sq = (x0, tt)) (hP : within [.pce, .freeCtr] P = true) (h : Moves P z s) : Moves P z tt := by
  have k := cancelled_moves (P := P) (z := z) (hP := hP) (h := h) (l := l) (pol := pol) (L := L) (ci := ci) (cq := cq) (si := si) (sq := sq)
  rw [e0] at k
  exact k

theorem monitorDone_moves {P : List Part} {z : State} {s : State} {l : Fin 2} {L : Launch} {n : ℕ} (hP : within [.probe, .pce] P = true) (h : Moves P z s) :
    Moves P z (Machine.monitorDone s l L n) := by
  unfold Machine.monitorDone
  split
  · refine Moves.ite ?_ ?_
    · with_reducible assumption
    · extract_lets +onlyGivenNames q0
      have h0 : Moves P z q0 := by
        unfold q0
        with_reducible apply modProbe_moves (within_trans rfl hP)
        · exact fun p k => sameLaser.safe (noteBreak_laser _ _) k
        · with_reducible assumption
      clear_value q0
      extract_lets +onlyGivenNames q1
      clear_value q1
      refine Moves.ite ?_ ?_
      · with_reducible apply modPce_moves (within_trans rfl hP)
        with_reducible assumption
      · with_reducible assumption
  · with_reducible assumption

theorem queueTrace_moves {P : List Part} {z : State} {s : State} {l : Fin 2} {offset : ℕ} {tr : Trace} (hP : within [.regs, .trav, .pce] P = true) (h : Moves P z s) :
    Moves P z (Machine.queueTrace s l offset tr) := by
  unfold Machine.queueTrace
  split
  · with_reducible apply modPce_moves (within_trans rfl hP)
    with_reducible assumption
  · split
    with_reducible apply modPce_moves (within_trans rfl hP)
    refine requestShot_moves_eq (by assumption) (within_trans rfl hP) ?_
    with_reducible assumption

theorem noteNoise_moves {P : List Part} {z : State} {s : State} {l : ℕ} {tr : Trace} (hP : within [.regs] P = true) (h : Moves P z s) :
    Moves P z (Machine.noteNoise s l tr) := by
  unfold Machine.noteNoise
  refine Moves.ite ?_ ?_
  · extract_lets +onlyGivenNames q0
    clear_value q0
    extract_lets +onlyGivenNames q1
    clear_value q1
    with_reducible apply setF_moves (within_trans rfl hP)
    with_reducible assumption
  · with_reducible assumption

theorem traceSt_moves {P : List Part} {z : State} {l : Fin 2} {k : Fin 16} {pol : Fin 2} {xs : List IQ} {s0 : State} (hP : within [.regs, .log, .trav, .probe, .pce, .freeCtr] P = true) (h : Moves P z s0) :
    Moves P z (Machine.traceSt l k pol xs s0) := by
  unfold Machine.traceSt
  split
  · with_reducible assumption
  · extract_lets +onlyGivenNames q0
    have h0 : Moves P z q0 := by
      unfold q0
      with_reducible apply dacFinish_moves (within_trans rfl hP)
      with_reducible assumption
    clear_value q0
    extract_lets +onlyGivenNames q1
    clear_value q1
    extract_lets +onlyGivenNames q2
    clear_value q2
    extract_lets +onlyGivenNames q3
    clear_value q3
    extract_lets +onlyGivenNames q4
    clear_value q4
    extract_lets +onlyGivenNames q5
    clear_value q5
    extract_lets +onlyGivenNames q6
    clear_value q6
    split
    extract_lets +onlyGivenNames q7
    clear_value q7
    extract_lets +onlyGivenNames q8
    clear_value q8
    extract_lets +onlyGivenNames q9
    clear_value q9
    extract_lets +onlyGivenNames q10
    clear_value q10
    extract_lets +onlyGivenNames q11
    clear_value q11
    extract_lets +onlyGivenNames q12
    clear_value q12
    extract_lets +onlyGivenNames q13
    clear_value q13
    split
    extract_lets +onlyGivenNames q14
    clear_value q14
    extract_lets +onlyGivenNames q15
    have h15 : Moves P z q15 := by
      unfold q15
      with_reducible apply bumpBy_moves (within_trans rfl hP)
      with_reducible apply Moves.setFreeCtr (within_trans rfl hP)
      refine cancelled_moves_eq (by assumption) (within_trans rfl hP) ?_
      with_reducible assumption
    clear_value q15
    extract_lets +onlyGivenNames q16
    have h16 : Moves P z q16 := by
      unfold q16
      refine Moves.ite ?_ ?_
      · with_reducible apply bump_moves (within_trans rfl hP)
        with_reducible assumption
      · with_reducible assumption
    clear_value q16
    extract_lets +onlyGivenNames q17
    have h17 : Moves P z q17 := by
      unfold q17
      with_reducible apply modProbe_moves (within_trans rfl hP)
      · (intro _ k; exact k)
      · with_reducible assumption
    clear_value q17
    extract_lets +onlyGivenNames q18
    have h18 : Moves P z q18 := by
      unfold q18
      refine Moves.ite ?_ ?_
      · with_reducible apply monitorDone_moves (within_trans rfl hP)
        with_reducible assumption
      · with_reducible assumption
    clear_value q18
    extract_lets +onlyGivenNames q19
    clear_value q19
    extract_lets +onlyGivenNames q20
    clear_value q20
    with_reducible apply queueTrace_moves (within_trans rfl hP)
    with_reducible apply noteNoise_moves (within_trans rfl hP)
    with_reducible assumption

theorem startMeasure_moves {P : List Part} {z : State} {s : State} {l : Fin 2} (hP : within [.pce] P = true) (h : Moves P z s) :
    Moves P z (Machine.startMeasure s l) := by
  unfold Machine.startMeasure
  split
  · with_reducible assumption
  · refine Moves.ite ?_ ?_
    · with_reducible apply modPce_moves (within_trans rfl hP)
      with_reducible assumption
    · with_reducible assumption

theorem failMeasure_moves {P : List Part} {z : State} {s : State} {l : Fin 2} {why : ℕ} (hP : within [.regs, .log, .pce] P = true) (h : Moves P z s) :
    Moves P z (Machine.failMeasure s l why) := by
  unfold Machine.failMeasure
  with_reducible apply logEvent_moves (within_trans rfl hP)
  with_reducible apply setF_moves (within_trans rfl hP)
  with_reducible apply modPce_moves (within_trans rfl hP)
  with_reducible assumption

theorem measureDoneSt_moves {P : List Part} {z : State} {l : Fin 2} {s : State} (hP : within [.regs, .log, .fu, .pce, .freeCtr] P = true) (h : Moves P z s) :
    Moves P z (Machine.measureDoneSt l s) := by
  unfold Machine.measureDoneSt
  split
  · extract_lets +onlyGivenNames q0
    clear_value q0
    refine Moves.ite ?_ ?_
    · with_reducible assumption
    · extract_lets +onlyGivenNames q1
      clear_value q1
      extract_lets +onlyGivenNames q2
      clear_value q2
      extract_lets +onlyGivenNames q3
      clear_value q3
      extract_lets +onlyGivenNames q4
      clear_value q4
      extract_lets +onlyGivenNames q5
      have h5 : Moves P z q5 := by
        unfold q5
        with_reducible apply Moves.setFreeCtr (within_trans rfl hP)
        with_reducible assumption
      clear_value q5
      refine Moves.ite ?_ ?_
      · with_reducible apply failMeasure_moves (within_trans rfl hP)
        with_reducible assumption
      · refine Moves.ite ?_ ?_
        · with_reducible apply failMeasure_moves (within_trans rfl hP)
          with_reducible assumption
        · extract_lets +onlyGivenNames q6
          have h6 : Moves P z q6 := by
            unfold q6
            with_reducible apply setF_moves (within_trans rfl hP)
            with_reducible apply modPce_moves (within_trans rfl hP)
            with_reducible assumption
          clear_value q6
          with_reducible apply bookFence_moves (within_trans rfl hP)
          with_reducible assumption
  · with_reducible assumption

theorem measureTimeoutSt_moves {P : List Part} {z : State} {l : Fin 2} {s : State} (hP : within [.regs, .log, .pce] P = true) (h : Moves P z s) :
    Moves P z (Machine.measureTimeoutSt l s) := by
  unfold Machine.measureTimeoutSt
  split
  · with_reducible assumption
  · extract_lets +onlyGivenNames q0
    clear_value q0
    refine Moves.ite ?_ ?_
    · with_reducible apply failMeasure_moves (within_trans rfl hP)
      with_reducible assumption
    · with_reducible assumption

theorem realign_moves {P : List Part} {z : State} {s : State} {l : Fin 2} (hP : within [.probe] P = true) (h : Moves P z s) :
    Moves P z (Machine.realign s l) := by
  unfold Machine.realign
  with_reducible apply modProbe_moves (within_trans rfl hP)
  · (intro _ k; exact k)
  · with_reducible assumption

theorem applyMeasured_moves {P : List Part} {z : State} {s : State} {l : Fin 2} (hP : within [.probe, .pce] P = true) (h : Moves P z s) :
    Moves P z (Machine.applyMeasured s l) := by
  unfold Machine.applyMeasured
  split
  · with_reducible assumption
  · with_reducible apply realign_moves (within_trans rfl hP)
    with_reducible apply modPce_moves (within_trans rfl hP)
    with_reducible assumption

theorem pceEmpty_moves {P : List Part} {z : State} {s : State} {l : Fin 2} {again : Bool} (hP : within [.pce] P = true) (h : Moves P z s) :
    Moves P z (Machine.pceEmpty s l again) := by
  unfold Machine.pceEmpty
  with_reducible apply modPce_moves (within_trans rfl hP)
  with_reducible assumption

theorem pceLineReset_moves {P : List Part} {z : State} {s : State} {l : Fin 2} (hP : within [.pce] P = true) (h : Moves P z s) :
    Moves P z (Machine.pceLineReset s l) := by
  unfold Machine.pceLineReset
  with_reducible apply pceEmpty_moves (within_trans rfl hP)
  with_reducible assumption

theorem pceStop_moves {P : List Part} {z : State} {s : State} {l : Fin 2} (hP : within [.pce] P = true) (h : Moves P z s) :
    Moves P z (Machine.pceStop s l) := by
  unfold Machine.pceStop
  with_reducible apply pceEmpty_moves (within_trans rfl hP)
  with_reducible assumption

theorem remeasure_moves {P : List Part} {z : State} {s : State} {l : Fin 2} (hP : within [.pce] P = true) (h : Moves P z s) :
    Moves P z (Machine.remeasure s l) := by
  unfold Machine.remeasure
  refine Moves.ite ?_ ?_
  · with_reducible apply startMeasure_moves (within_trans rfl hP)
    with_reducible apply modPce_moves (within_trans rfl hP)
    with_reducible assumption
  · with_reducible assumption

end Sys2Proof.Laws
end

