-- ==== Sys2Proof/Laws/DasMoves.lean ====
section
/-! SUPPORT. What each operation of Machine/Das.lean can do: the parts of the state it changes, and that it keeps the
invariants. -/

namespace Sys2Proof.Laws
open Sys2Proof Sys2Proof.Machine Sys2Proof.Safety

theorem putDas_moves {P : List Part} {z : State} {s : State} {l : ℕ} {st : ℕ} {x : DasSt} (hP : within [.sense] P = true) (h : Moves P z s) :
    Moves P z (Machine.putDas s l st x) := by
  unfold Machine.putDas
  with_reducible apply Moves.setSense (within_trans rfl hP)
  with_reducible assumption

theorem putSpec_moves {P : List Part} {z : State} {s : State} {l : ℕ} {st : ℕ} {x : SpecSt} (hP : within [.sense] P = true) (h : Moves P z s) :
    Moves P z (Machine.putSpec s l st x) := by
  unfold Machine.putSpec
  with_reducible apply Moves.setSense (within_trans rfl hP)
  with_reducible assumption

theorem emitProduct_moves {P : List Part} {z : State} {s : State} {t : Fin 8} {l : ℕ} {n : ℕ} {code : ℕ} {st : ℕ} {stamp : ℕ} {epoch : ℕ} {w : ℕ} {v : ℕ} {flag : ℕ} (hP : within [.samples] P = true) (h : Moves P z s) :
    Moves P z (Machine.emitProduct s t l n code st stamp epoch w v flag) := by
  unfold Machine.emitProduct
  refine Moves.ite ?_ ?_
  · with_reducible assumption
  · with_reducible apply putSample_moves (within_trans rfl hP)
    with_reducible assumption

theorem formDiffs_moves {P : List Part} {z : State} {s : State} {l : Fin 2} {stamp : ℕ} {c : DasCfg} {g : ℕ} (hP : within [.pce] P = true) (h : Moves P z s) :
    Moves P z (Machine.formDiffs s l stamp c g) := by
  unfold Machine.formDiffs
  with_reducible apply modPce_moves (within_trans rfl hP)
  with_reducible assumption

theorem storeTraces_moves {P : List Part} {z : State} {s : State} {l : ℕ} {st : ℕ} {bs : List Branch} (hP : within [.sense, .dram] P = true) (h : Moves P z s) :
    Moves P z (Machine.storeTraces s l st bs) := by
  unfold Machine.storeTraces
  extract_lets +onlyGivenNames q0
  have h0 : Moves P z q0 := by
    unfold q0
    refine Moves.forEach (fun _ _ _ => ?_) ?_
    · extract_lets +onlyGivenNames q1
      clear_value q1
      with_reducible apply dramPut_moves (within_trans rfl hP)
      with_reducible apply dramPut_moves (within_trans rfl hP)
      with_reducible assumption
    · with_reducible assumption
  clear_value q0
  extract_lets +onlyGivenNames q2
  clear_value q2
  with_reducible apply putDas_moves (within_trans rfl hP)
  with_reducible assumption

theorem noteAct_moves {P : List Part} {z : State} {s : State} {l : ℕ} {st : ℕ} {step : ℕ} (hP : within [.sense] P = true) (h : Moves P z s) :
    Moves P z (Machine.noteAct s l st step) := by
  unfold Machine.noteAct
  extract_lets +onlyGivenNames q0
  clear_value q0
  refine Moves.ite ?_ ?_
  · with_reducible apply putSpec_moves (within_trans rfl hP)
    with_reducible assumption
  · with_reducible assumption

theorem dasStation_moves {P : List Part} {z : State} {c : DasCfg} {groups : ℕ} {j : ℕ} {n : ℕ} {stamp : ℕ} {epoch : ℕ} {bs : List Branch} {beyond : ℕ → Bool} {l : ℕ} {t : Fin 8} {s : State} {st : ℕ} (hP : within [.regs, .sense, .samples, .dram] P = true) (h : Moves P z s) :
    Moves P z (Machine.dasStation c groups j n stamp epoch bs beyond l t s st) := by
  unfold Machine.dasStation
  extract_lets +onlyGivenNames q0
  clear_value q0
  split
  split
  extract_lets +onlyGivenNames q1
  have h1 : Moves P z q1 := by
    unfold q1
    with_reducible apply putDas_moves (within_trans rfl hP)
    with_reducible assumption
  clear_value q1
  extract_lets +onlyGivenNames q2
  have h2 : Moves P z q2 := by
    unfold q2
    refine Moves.ite ?_ ?_
    · with_reducible apply bump_moves (within_trans rfl hP)
      with_reducible assumption
    · with_reducible apply noteAct_moves (within_trans rfl hP)
      with_reducible assumption
  clear_value q2
  extract_lets +onlyGivenNames q3
  have h3 : Moves P z q3 := by
    unfold q3
    refine Moves.ite ?_ ?_
    · with_reducible apply bump_moves (within_trans rfl hP)
      with_reducible assumption
    · with_reducible assumption
  clear_value q3
  extract_lets +onlyGivenNames q4
  have h4 : Moves P z q4 := by
    unfold q4
    refine Moves.ite ?_ ?_
    · with_reducible apply bump_moves (within_trans rfl hP)
      with_reducible assumption
    · with_reducible assumption
  clear_value q4
  extract_lets +onlyGivenNames q5
  have h5 : Moves P z q5 := by
    unfold q5
    with_reducible apply storeTraces_moves (within_trans rfl hP)
    with_reducible assumption
  clear_value q5
  extract_lets +onlyGivenNames q6
  have h6 : Moves P z q6 := by
    unfold q6
    with_reducible apply emitProduct_moves (within_trans rfl hP)
    with_reducible assumption
  clear_value q6
  extract_lets +onlyGivenNames q7
  have h7 : Moves P z q7 := by
    unfold q7
    with_reducible apply emitProduct_moves (within_trans rfl hP)
    with_reducible assumption
  clear_value q7
  with_reducible apply emitProduct_moves (within_trans rfl hP)
  with_reducible assumption

theorem gaugeStation_moves {P : List Part} {z : State} {c : DasCfg} {n : ℕ} {stamp : ℕ} {epoch : ℕ} {l : ℕ} {t : Fin 8} {s : State} {st : ℕ} (hP : within [.sense, .samples] P = true) (h : Moves P z s) :
    Moves P z (Machine.gaugeStation c n stamp epoch l t s st) := by
  unfold Machine.gaugeStation
  extract_lets +onlyGivenNames q0
  clear_value q0
  split
  extract_lets +onlyGivenNames q1
  clear_value q1
  refine Moves.ite ?_ ?_
  · with_reducible assumption
  · extract_lets +onlyGivenNames q2
    clear_value q2
    extract_lets +onlyGivenNames q3
    clear_value q3
    extract_lets +onlyGivenNames q4
    clear_value q4
    extract_lets +onlyGivenNames q5
    clear_value q5
    extract_lets +onlyGivenNames q6
    clear_value q6
    extract_lets +onlyGivenNames q7
    have h7 : Moves P z q7 := by
      unfold q7
      with_reducible apply putDas_moves (within_trans rfl hP)
      with_reducible assumption
    clear_value q7
    extract_lets +onlyGivenNames q8
    have h8 : Moves P z q8 := by
      unfold q8
      with_reducible apply emitProduct_moves (within_trans rfl hP)
      with_reducible assumption
    clear_value q8
    extract_lets +onlyGivenNames q9
    have h9 : Moves P z q9 := by
      unfold q9
      with_reducible apply emitProduct_moves (within_trans rfl hP)
      with_reducible assumption
    clear_value q9
    with_reducible apply emitProduct_moves (within_trans rfl hP)
    with_reducible assumption

theorem addBusy_moves {P : List Part} {z : State} {s : State} {t : Fin 8} {n : ℕ} (hP : within [.trav] P = true) (h : Moves P z s) :
    Moves P z (Machine.addBusy s t n) := by
  unfold Machine.addBusy
  with_reducible apply modTrav_moves (within_trans rfl hP)
  with_reducible assumption

theorem dasPass_moves {P : List Part} {z : State} {s : State} {l : Fin 2} {t : Fin 8} {stamp : ℕ} {epoch : ℕ} (hP : within [.regs, .trav, .pce, .sense, .samples, .dram] P = true) (h : Moves P z s) :
    Moves P z (Machine.dasPass s l t stamp epoch) := by
  unfold Machine.dasPass
  refine Moves.ite ?_ ?_
  · with_reducible assumption
  · split
    · extract_lets +onlyGivenNames q0
      clear_value q0
      extract_lets +onlyGivenNames q1
      clear_value q1
      extract_lets +onlyGivenNames q2
      have h2 : Moves P z q2 := by
        unfold q2
        with_reducible apply formDiffs_moves (within_trans rfl hP)
        with_reducible assumption
      clear_value q2
      extract_lets +onlyGivenNames q3
      clear_value q3
      extract_lets +onlyGivenNames q4
      clear_value q4
      extract_lets +onlyGivenNames q5
      clear_value q5
      extract_lets +onlyGivenNames q6
      clear_value q6
      split
      extract_lets +onlyGivenNames q7
      clear_value q7
      extract_lets +onlyGivenNames q8
      have h8 : Moves P z q8 := by
        unfold q8
        refine Moves.folded (fun _ _ _ => ?_) ?_
        · with_reducible apply dasStation_moves (within_trans rfl hP)
          with_reducible assumption
        · with_reducible assumption
      clear_value q8
      extract_lets +onlyGivenNames q9
      have h9 : Moves P z q9 := by
        unfold q9
        refine Moves.folded (fun _ _ _ => ?_) ?_
        · with_reducible apply gaugeStation_moves (within_trans rfl hP)
          with_reducible assumption
        · with_reducible assumption
      clear_value q9
      extract_lets +onlyGivenNames q10
      have h10 : Moves P z q10 := by
        unfold q10
        with_reducible apply modTrav_moves (within_trans rfl hP)
        with_reducible assumption
      clear_value q10
      with_reducible apply addBusy_moves (within_trans rfl hP)
      with_reducible assumption
    · with_reducible assumption

theorem seqRestart_moves {P : List Part} {z : State} {s : State} {l : ℕ} {a2 : ℕ} {p : ℕ → Bool} (hP : within [.trav] P = true) (h : Moves P z s) :
    Moves P z (Machine.seqRestart s l a2 p) := by
  unfold Machine.seqRestart
  with_reducible apply Moves.setTrav (within_trans rfl hP)
  with_reducible assumption

theorem dasRestart_moves {P : List Part} {z : State} {s : State} {l : ℕ} {p : ℕ → Bool} (hP : within [.trav, .sense] P = true) (h : Moves P z s) :
    Moves P z (Machine.dasRestart s l p) := by
  unfold Machine.dasRestart
  with_reducible apply seqRestart_moves (within_trans rfl hP)
  with_reducible apply Moves.setSense (within_trans rfl hP)
  with_reducible assumption

end Sys2Proof.Laws
end

