-- ==== Sys2Proof/Laws/SpectralMoves.lean ====
section
/-! SUPPORT. What each operation of Machine/Spectral.lean can do: the parts of the state it changes, and that it keeps the
invariants. -/

namespace Sys2Proof.Laws
open Sys2Proof Sys2Proof.Machine Sys2Proof.Safety

theorem sweepRestart_moves {P : List Part} {z : State} {s : State} {l : Fin 2} (hP : within [.probe] P = true) (h : Moves P z s) :
    Moves P z (Machine.sweepRestart s l) := by
  unfold Machine.sweepRestart
  with_reducible apply modProbe_moves (within_trans rfl hP)
  · (intro _ k; exact k)
  · with_reducible assumption

theorem recSet_moves {P : List Part} {z : State} {s : State} {l : ℕ} {st : ℕ} {lo : ℕ} {n : ℕ} {v : ℤ} (hP : within [.dram] P = true) (h : Moves P z s) :
    Moves P z (Machine.recSet s l st lo n v) := by
  unfold Machine.recSet
  with_reducible apply Moves.setDram (within_trans rfl hP)
  · exact tabSet_fold_wf _ _ _ _ _
  · with_reducible assumption

theorem setSpecState_moves {P : List Part} {z : State} {s : State} {l : ℕ} {st : ℕ} {state : ℕ} {hard : ℕ} (hP : within [.dram] P = true) (h : Moves P z s) :
    Moves P z (Machine.setSpecState s l st state hard) := by
  unfold Machine.setSpecState
  with_reducible apply recSet_moves (within_trans rfl hP)
  with_reducible assumption

theorem putCell_moves {P : List Part} {z : State} {s : State} {region : ℕ} {l : ℕ} {st : ℕ} {n : ℕ} {sum : ℕ} {cnt : ℕ} (hP : within [.dram] P = true) (h : Moves P z s) :
    Moves P z (Machine.putCell s region l st n sum cnt) := by
  unfold Machine.putCell
  with_reducible apply dramPut_moves (within_trans rfl hP)
  with_reducible assumption

theorem putAcc_moves {P : List Part} {z : State} {s : State} {l : ℕ} {st : ℕ} {n : ℕ} {tag : ℕ} {sum : ℕ} {cnt : ℕ} (hP : within [.sense, .dram] P = true) (h : Moves P z s) :
    Moves P z (Machine.putAcc s l st n tag sum cnt) := by
  unfold Machine.putAcc
  extract_lets +onlyGivenNames q0
  clear_value q0
  extract_lets +onlyGivenNames q1
  clear_value q1
  split
  extract_lets +onlyGivenNames q2
  clear_value q2
  extract_lets +onlyGivenNames q3
  have h3 : Moves P z q3 := by
    unfold q3
    refine Moves.ite ?_ ?_
    · with_reducible assumption
    · with_reducible apply Moves.setSense (within_trans rfl hP)
      with_reducible assumption
  clear_value q3
  with_reducible apply putCell_moves (within_trans rfl hP)
  with_reducible assumption

theorem accumulate_moves {P : List Part} {z : State} {l : ℕ} {tag : ℕ} {point : ℕ} {dark : Bool} {apr : Bool} {st : ℕ} {x : TraceStation} {y : TraceStation} {s : State} (hP : within [.sense, .dram] P = true) (h : Moves P z s) :
    Moves P z (Machine.accumulate l tag point dark apr st x y s) := by
  unfold Machine.accumulate
  extract_lets +onlyGivenNames q0
  clear_value q0
  extract_lets +onlyGivenNames q1
  clear_value q1
  refine Moves.ite ?_ ?_
  · refine Moves.ite ?_ ?_
    · with_reducible apply putSpec_moves (within_trans rfl hP)
      with_reducible assumption
    · with_reducible assumption
  · extract_lets +onlyGivenNames q2
    clear_value q2
    split
    extract_lets +onlyGivenNames q3
    have h3 : Moves P z q3 := by
      unfold q3
      with_reducible apply putAcc_moves (within_trans rfl hP)
      with_reducible assumption
    clear_value q3
    with_reducible apply putSpec_moves (within_trans rfl hP)
    with_reducible assumption

theorem requestBg_moves {P : List Part} {z : State} {s : State} {t : Fin 8} {r : BgReq} (hP : within [.regs, .trav] P = true) (h : Moves P z s) :
    Moves P z (Machine.requestBg s t r) := by
  unfold Machine.requestBg
  refine Moves.ite ?_ ?_
  · with_reducible apply refuseReq_moves (within_trans rfl hP)
    with_reducible assumption
  · with_reducible apply modTrav_moves (within_trans rfl hP)
    with_reducible assumption

theorem setOpen_moves {P : List Part} {z : State} {s : State} {t : Fin 8} {capture : Bool} {o : Option OpenSpan} {w : Option ℕ} (hP : within [.trav] P = true) (h : Moves P z s) :
    Moves P z (Machine.setOpen s t capture o w) := by
  unfold Machine.setOpen
  with_reducible apply modTrav_moves (within_trans rfl hP)
  with_reducible assumption

theorem requestSpan_moves {P : List Part} {z : State} {s : State} {t : Fin 8} {l : ℕ} {capture : Bool} {o : OpenSpan} (hP : within [.regs, .trav] P = true) (h : Moves P z s) :
    Moves P z (Machine.requestSpan s t l capture o) := by
  unfold Machine.requestSpan
  with_reducible apply requestBg_moves (within_trans rfl hP)
  with_reducible assumption

theorem leaveAt_moves {P : List Part} {z : State} {s : State} {t : Fin 8} {l : ℕ} {start : ℕ} {capture : Bool} (hP : within [.regs, .trav] P = true) (h : Moves P z s) :
    Moves P z (Machine.leaveAt s t l start capture) := by
  unfold Machine.leaveAt
  split
  · refine Moves.ite ?_ ?_
    · with_reducible assumption
    · with_reducible apply setOpen_moves (within_trans rfl hP)
      refine Moves.ite ?_ ?_
      · with_reducible apply requestSpan_moves (within_trans rfl hP)
        with_reducible assumption
      · with_reducible assumption
  · with_reducible assumption

theorem openAt_moves {P : List Part} {z : State} {s : State} {t : Fin 8} {o : OpenSpan} {w : SweepAt} {capture : Bool} (hP : within [.trav] P = true) (h : Moves P z s) :
    Moves P z (Machine.openAt s t o w capture) := by
  unfold Machine.openAt
  split
  · with_reducible assumption
  · with_reducible apply setOpen_moves (within_trans rfl hP)
    with_reducible assumption
  · extract_lets +onlyGivenNames q0
    clear_value q0
    refine Moves.ite ?_ ?_
    · with_reducible apply setOpen_moves (within_trans rfl hP)
      with_reducible assumption
    · with_reducible apply setOpen_moves (within_trans rfl hP)
      with_reducible assumption

theorem closeAt_moves {P : List Part} {z : State} {s : State} {t : Fin 8} {l : ℕ} {sweepNow : ℕ} {len : ℕ} {capture : Bool} (hP : within [.regs, .trav] P = true) (h : Moves P z s) :
    Moves P z (Machine.closeAt s t l sweepNow len capture) := by
  unfold Machine.closeAt
  split
  · with_reducible assumption
  · refine Moves.ite ?_ ?_
    · with_reducible apply setOpen_moves (within_trans rfl hP)
      with_reducible apply requestSpan_moves (within_trans rfl hP)
      with_reducible assumption
    · with_reducible assumption

theorem missedPeriods_moves {P : List Part} {z : State} {s : State} {t : Fin 8} {l : ℕ} {out : ℕ} {last : ℕ} {start : ℕ} {span : ℕ → OpenSpan} (hP : within [.regs, .trav] P = true) (h : Moves P z s) :
    Moves P z (Machine.missedPeriods s t l out last start span) := by
  unfold Machine.missedPeriods
  refine Moves.ite ?_ ?_
  · extract_lets +onlyGivenNames q0
    clear_value q0
    extract_lets +onlyGivenNames q1
    clear_value q1
    refine Moves.forEach (fun _ _ _ => ?_) ?_
    · with_reducible apply requestSpan_moves (within_trans rfl hP)
      with_reducible assumption
    · with_reducible assumption
  · with_reducible assumption

theorem startCapture_moves {P : List Part} {z : State} {s : State} {l : Fin 2} {tag : ℕ} (hP : within [.trav, .sense, .dram] P = true) (h : Moves P z s) :
    Moves P z (Machine.startCapture s l tag) := by
  unfold Machine.startCapture
  extract_lets +onlyGivenNames q0
  clear_value q0
  extract_lets +onlyGivenNames q1
  have h1 : Moves P z q1 := by
    unfold q1
    refine Moves.forEach (fun _ _ _ => ?_) ?_
    · extract_lets +onlyGivenNames q2
      have h2 : Moves P z q2 := by
        unfold q2
        with_reducible apply setSpecState_moves (within_trans rfl hP)
        with_reducible assumption
      clear_value q2
      extract_lets +onlyGivenNames q3
      have h3 : Moves P z q3 := by
        unfold q3
        with_reducible apply recSet_moves (within_trans rfl hP)
        with_reducible apply recSet_moves (within_trans rfl hP)
        with_reducible apply recSet_moves (within_trans rfl hP)
        with_reducible assumption
      clear_value q3
      with_reducible apply putSpec_moves (within_trans rfl hP)
      with_reducible assumption
    · with_reducible assumption
  clear_value q1
  extract_lets +onlyGivenNames q4
  clear_value q4
  with_reducible apply Moves.setTravSense (within_trans rfl hP)
  with_reducible assumption

theorem countSweep_moves {P : List Part} {z : State} {s : State} {l : Fin 2} {now : ℕ} (hP : within [.sense] P = true) (h : Moves P z s) :
    Moves P z (Machine.countSweep s l now) := by
  unfold Machine.countSweep
  extract_lets +onlyGivenNames q0
  refine Moves.ite ?_ ?_
  · with_reducible assumption
  · extract_lets +onlyGivenNames q1
    clear_value q1
    with_reducible apply Moves.setSense (within_trans rfl hP)
    with_reducible assumption

theorem wantCapture_moves {P : List Part} {z : State} {s : State} {l : Fin 2} (hP : within [.sense] P = true) (h : Moves P z s) :
    Moves P z (Machine.wantCapture s l) := by
  unfold Machine.wantCapture
  with_reducible apply Moves.setSense (within_trans rfl hP)
  with_reducible assumption

theorem clearAct_moves {P : List Part} {z : State} {s : State} {l : ℕ} {p : ℕ → Bool} (hP : within [.sense] P = true) (h : Moves P z s) :
    Moves P z (Machine.clearAct s l p) := by
  unfold Machine.clearAct
  with_reducible apply Moves.setSense (within_trans rfl hP)
  with_reducible assumption

theorem dropOpen_moves {P : List Part} {z : State} {s : State} {t : Fin 8} (hP : within [.trav, .sense] P = true) (h : Moves P z s) :
    Moves P z (Machine.dropOpen s t) := by
  unfold Machine.dropOpen
  extract_lets +onlyGivenNames q0
  have h0 : Moves P z q0 := by
    unfold q0
    with_reducible apply modTrav_moves (within_trans rfl hP)
    with_reducible assumption
  clear_value q0
  split
  · with_reducible assumption
  · split
    with_reducible apply clearAct_moves (within_trans rfl hP)
    with_reducible assumption

theorem sweepPass_moves {P : List Part} {z : State} {s : State} {l : Fin 2} {t : Fin 8} {stamp : ℕ} (hP : within [.regs, .trav, .sense, .dram] P = true) (h : Moves P z s) :
    Moves P z (Machine.sweepPass s l t stamp) := by
  unfold Machine.sweepPass
  refine Moves.ite ?_ ?_
  · with_reducible assumption
  · split
    · extract_lets +onlyGivenNames q0
      clear_value q0
      extract_lets +onlyGivenNames q1
      clear_value q1
      extract_lets +onlyGivenNames q2
      clear_value q2
      extract_lets +onlyGivenNames q3
      clear_value q3
      extract_lets +onlyGivenNames q4
      clear_value q4
      extract_lets +onlyGivenNames q5
      clear_value q5
      extract_lets +onlyGivenNames q6
      clear_value q6
      extract_lets +onlyGivenNames q7
      have h7 : Moves P z q7 := by
        unfold q7
        refine Moves.ite ?_ ?_
        · with_reducible apply dropOpen_moves (within_trans rfl hP)
          with_reducible assumption
        · with_reducible assumption
      clear_value q7
      extract_lets +onlyGivenNames q8
      have h8 : Moves P z q8 := by
        unfold q8
        with_reducible apply countSweep_moves (within_trans rfl hP)
        refine Moves.ite ?_ ?_
        · with_reducible apply wantCapture_moves (within_trans rfl hP)
          with_reducible assumption
        · with_reducible assumption
      clear_value q8
      extract_lets +onlyGivenNames q9
      clear_value q9
      extract_lets +onlyGivenNames q10
      have h10 : Moves P z q10 := by
        unfold q10
        with_reducible apply leaveAt_moves (within_trans rfl hP)
        with_reducible apply leaveAt_moves (within_trans rfl hP)
        with_reducible assumption
      clear_value q10
      extract_lets +onlyGivenNames q11
      have h11 : Moves P z q11 := by
        unfold q11
        split
        · with_reducible assumption
        · with_reducible assumption
        · with_reducible apply missedPeriods_moves (within_trans rfl hP)
          with_reducible assumption
      clear_value q11
      extract_lets +onlyGivenNames q12
      have h12 : Moves P z q12 := by
        unfold q12
        with_reducible apply openAt_moves (within_trans rfl hP)
        with_reducible apply openAt_moves (within_trans rfl hP)
        with_reducible assumption
      clear_value q12
      extract_lets +onlyGivenNames q13
      clear_value q13
      split
      extract_lets +onlyGivenNames q14
      have h14 : Moves P z q14 := by
        unfold q14
        refine Moves.forEach (fun _ _ _ => ?_) ?_
        · refine Moves.forEach (fun _ _ _ => ?_) ?_
          · extract_lets +onlyGivenNames q15
            clear_value q15
            split
            · with_reducible apply accumulate_moves (within_trans rfl hP)
              with_reducible assumption
            · with_reducible assumption
          · with_reducible assumption
        · with_reducible assumption
      clear_value q14
      extract_lets +onlyGivenNames q16
      clear_value q16
      extract_lets +onlyGivenNames q17
      have h17 : Moves P z q17 := by
        unfold q17
        refine Moves.ite ?_ ?_
        · with_reducible apply closeAt_moves (within_trans rfl hP)
          with_reducible apply closeAt_moves (within_trans rfl hP)
          with_reducible assumption
        · with_reducible assumption
      clear_value q17
      with_reducible apply addBusy_moves (within_trans rfl hP)
      with_reducible apply modTrav_moves (within_trans rfl hP)
      with_reducible assumption
    · with_reducible assumption

theorem restartAct_moves {P : List Part} {z : State} {s : State} {l : ℕ} {st : ℕ} (hP : within [.sense, .dram] P = true) (h : Moves P z s) :
    Moves P z (Machine.restartAct s l st) := by
  unfold Machine.restartAct
  extract_lets +onlyGivenNames q0
  have h0 : Moves P z q0 := by
    unfold q0
    with_reducible apply recSet_moves (within_trans rfl hP)
    with_reducible assumption
  clear_value q0
  with_reducible apply putSpec_moves (within_trans rfl hP)
  with_reducible assumption

theorem commitStation_moves {P : List Part} {z : State} {c : SpecCfg} {l : ℕ} {tag : ℕ} {s : State} {st : ℕ} (hP : within [.sense, .dram] P = true) (h : Moves P z s) :
    Moves P z (Machine.commitStation c l tag s st) := by
  unfold Machine.commitStation
  refine Moves.ite ?_ ?_
  · with_reducible assumption
  · extract_lets +onlyGivenNames q0
    clear_value q0
    extract_lets +onlyGivenNames q1
    clear_value q1
    extract_lets +onlyGivenNames q2
    clear_value q2
    extract_lets +onlyGivenNames q3
    have h3 : Moves P z q3 := by
      unfold q3
      with_reducible apply restartAct_moves (within_trans rfl hP)
      with_reducible assumption
    clear_value q3
    refine Moves.ite ?_ ?_
    · extract_lets +onlyGivenNames q4
      clear_value q4
      extract_lets +onlyGivenNames q5
      have h5 : Moves P z q5 := by
        unfold q5
        refine Moves.forEach (fun _ _ _ => ?_) ?_
        · split
          split
          with_reducible apply putCell_moves (within_trans rfl hP)
          with_reducible assumption
        · with_reducible assumption
      clear_value q5
      extract_lets +onlyGivenNames q6
      have h6 : Moves P z q6 := by
        unfold q6
        with_reducible apply recSet_moves (within_trans rfl hP)
        with_reducible assumption
      clear_value q6
      refine Moves.ite ?_ ?_
      · extract_lets +onlyGivenNames q7
        have h7 : Moves P z q7 := by
          unfold q7
          with_reducible apply setSpecState_moves (within_trans rfl hP)
          with_reducible assumption
        clear_value q7
        extract_lets +onlyGivenNames q8
        have h8 : Moves P z q8 := by
          unfold q8
          with_reducible apply recSet_moves (within_trans rfl hP)
          with_reducible apply recSet_moves (within_trans rfl hP)
          with_reducible apply recSet_moves (within_trans rfl hP)
          with_reducible assumption
        clear_value q8
        extract_lets +onlyGivenNames q9
        have h9 : Moves P z q9 := by
          unfold q9
          split
          · with_reducible apply recSet_moves (within_trans rfl hP)
            with_reducible assumption
          · with_reducible apply recSet_moves (within_trans rfl hP)
            with_reducible assumption
        clear_value q9
        with_reducible apply putSpec_moves (within_trans rfl hP)
        with_reducible assumption
      · with_reducible assumption
    · with_reducible assumption

theorem emitSpectral_moves {P : List Part} {z : State} {s : State} {t : Fin 8} {l : ℕ} {n : ℕ} {st : ℕ} {stamp : ℕ} {epoch : ℕ} {v : ℤ} {conv : ℤ × ℤ × ℤ × ℤ} {q : ℕ} {f : ℕ} {noTemp : Bool} (hP : within [.sense, .samples] P = true) (h : Moves P z s) :
    Moves P z (Machine.emitSpectral s t l n st stamp epoch v conv q f noTemp) := by
  unfold Machine.emitSpectral
  split
  extract_lets +onlyGivenNames q0
  clear_value q0
  extract_lets +onlyGivenNames q1
  have h1 : Moves P z q1 := by
    unfold q1
    with_reducible apply emitProduct_moves (within_trans rfl hP)
    with_reducible assumption
  clear_value q1
  extract_lets +onlyGivenNames q2
  have h2 : Moves P z q2 := by
    unfold q2
    with_reducible apply emitProduct_moves (within_trans rfl hP)
    with_reducible assumption
  clear_value q2
  extract_lets +onlyGivenNames q3
  have h3 : Moves P z q3 := by
    unfold q3
    with_reducible apply emitProduct_moves (within_trans rfl hP)
    with_reducible assumption
  clear_value q3
  extract_lets +onlyGivenNames q4
  have h4 : Moves P z q4 := by
    unfold q4
    with_reducible apply emitProduct_moves (within_trans rfl hP)
    with_reducible assumption
  clear_value q4
  extract_lets +onlyGivenNames q5
  have h5 : Moves P z q5 := by
    unfold q5
    with_reducible apply emitProduct_moves (within_trans rfl hP)
    with_reducible assumption
  clear_value q5
  extract_lets +onlyGivenNames q6
  have h6 : Moves P z q6 := by
    unfold q6
    with_reducible apply emitProduct_moves (within_trans rfl hP)
    with_reducible assumption
  clear_value q6
  extract_lets +onlyGivenNames q7
  clear_value q7
  with_reducible apply putSpec_moves (within_trans rfl hP)
  with_reducible assumption

theorem trackStation_moves {P : List Part} {z : State} {s : State} {l : ℕ} {st : ℕ} {r : SpecResult} (hP : within [.regs, .sense, .dram] P = true) (h : Moves P z s) :
    Moves P z (Machine.trackStation s l st r) := by
  unfold Machine.trackStation
  extract_lets +onlyGivenNames q0
  have h0 : Moves P z q0 := by
    unfold q0
    split
    · with_reducible assumption
    · with_reducible apply recSet_moves (within_trans rfl hP)
      with_reducible assumption
  clear_value q0
  refine Moves.ite ?_ ?_
  · extract_lets +onlyGivenNames q1
    clear_value q1
    refine Moves.ite ?_ ?_
    · extract_lets +onlyGivenNames q2
      have h2 : Moves P z q2 := by
        unfold q2
        with_reducible apply setSpecState_moves (within_trans rfl hP)
        with_reducible assumption
      clear_value q2
      extract_lets +onlyGivenNames q3
      have h3 : Moves P z q3 := by
        unfold q3
        with_reducible apply recSet_moves (within_trans rfl hP)
        with_reducible apply recSet_moves (within_trans rfl hP)
        with_reducible apply recSet_moves (within_trans rfl hP)
        with_reducible assumption
      clear_value q3
      with_reducible apply bump_moves (within_trans rfl hP)
      with_reducible apply putSpec_moves (within_trans rfl hP)
      with_reducible assumption
    · with_reducible apply setSpecState_moves (within_trans rfl hP)
      with_reducible assumption
  · with_reducible apply setSpecState_moves (within_trans rfl hP)
    with_reducible assumption

theorem redatum_moves {P : List Part} {z : State} {s : State} {c : SpecCfg} {l : ℕ} {st : ℕ} {tag : ℕ} {v : ℤ} (hP : within [.regs, .dram] P = true) (h : Moves P z s) :
    Moves P z (Machine.redatum s c l st tag v) := by
  unfold Machine.redatum
  extract_lets +onlyGivenNames q0
  have h0 : Moves P z q0 := by
    unfold q0
    refine Moves.forEach (fun _ _ _ => ?_) ?_
    · split
      with_reducible apply putCell_moves (within_trans rfl hP)
      with_reducible assumption
    · with_reducible assumption
  clear_value q0
  with_reducible apply bump_moves (within_trans rfl hP)
  with_reducible apply recSet_moves (within_trans rfl hP)
  with_reducible apply recSet_moves (within_trans rfl hP)
  with_reducible assumption

theorem outputStation_moves {P : List Part} {z : State} {c : SpecCfg} {l : ℕ} {n : ℕ} {tag : ℕ} {stamp : ℕ} {epoch : ℕ} {t : Fin 8} {beyond : ℕ → Bool} {s : State} {st : ℕ} (hP : within [.regs, .sense, .samples, .dram] P = true) (h : Moves P z s) :
    Moves P z (Machine.outputStation c l n tag stamp epoch t beyond s st) := by
  unfold Machine.outputStation
  extract_lets +onlyGivenNames q0
  clear_value q0
  extract_lets +onlyGivenNames q1
  clear_value q1
  extract_lets +onlyGivenNames q2
  clear_value q2
  refine Moves.ite ?_ ?_
  · with_reducible apply emitSpectral_moves (within_trans rfl hP)
    refine Moves.ite ?_ ?_
    · with_reducible apply restartAct_moves (within_trans rfl hP)
      with_reducible assumption
    · with_reducible assumption
  · extract_lets +onlyGivenNames q3
    clear_value q3
    extract_lets +onlyGivenNames q4
    clear_value q4
    extract_lets +onlyGivenNames q5
    clear_value q5
    extract_lets +onlyGivenNames q6
    clear_value q6
    extract_lets +onlyGivenNames q7
    have h7 : Moves P z q7 := by
      unfold q7
      with_reducible apply trackStation_moves (within_trans rfl hP)
      with_reducible apply restartAct_moves (within_trans rfl hP)
      with_reducible assumption
    clear_value q7
    extract_lets +onlyGivenNames q8
    have h8 : Moves P z q8 := by
      unfold q8
      refine Moves.ite ?_ ?_
      · with_reducible apply recSet_moves (within_trans rfl hP)
        with_reducible assumption
      · with_reducible assumption
    clear_value q8
    extract_lets +onlyGivenNames q9
    clear_value q9
    extract_lets +onlyGivenNames q10
    clear_value q10
    extract_lets +onlyGivenNames q11
    have h11 : Moves P z q11 := by
      unfold q11
      refine Moves.ite ?_ ?_
      · with_reducible apply redatum_moves (within_trans rfl hP)
        with_reducible assumption
      · with_reducible assumption
    clear_value q11
    extract_lets +onlyGivenNames q12
    clear_value q12
    extract_lets +onlyGivenNames q13
    clear_value q13
    extract_lets +onlyGivenNames q14
    have h14 : Moves P z q14 := by
      unfold q14
      refine Moves.ite ?_ ?_
      · with_reducible apply putSpec_moves (within_trans rfl hP)
        with_reducible assumption
      · with_reducible assumption
    clear_value q14
    split
    extract_lets +onlyGivenNames q15
    clear_value q15
    extract_lets +onlyGivenNames q16
    have h16 : Moves P z q16 := by
      unfold q16
      refine Moves.ite ?_ ?_
      · with_reducible apply bump_moves (within_trans rfl hP)
        with_reducible assumption
      · refine Moves.ite ?_ ?_
        · with_reducible apply bump_moves (within_trans rfl hP)
          with_reducible assumption
        · with_reducible assumption
    clear_value q16
    with_reducible apply emitSpectral_moves (within_trans rfl hP)
    with_reducible assumption

theorem outputSlice_moves {P : List Part} {z : State} {s : State} {l : ℕ} {t : Fin 8} {tag : ℕ} {stamp : ℕ} {epoch : ℕ} {capture : Bool} {next : ℕ} (hP : within [.regs, .trav, .sense, .samples, .dram] P = true) (h : Moves P z s) :
    Moves P z (Machine.outputSlice s l t tag stamp epoch capture next).1 := by
  unfold Machine.outputSlice
  split
  · refine Moves.fst ?_
    with_reducible assumption
  · extract_lets +onlyGivenNames q0
    clear_value q0
    extract_lets +onlyGivenNames q1
    clear_value q1
    extract_lets +onlyGivenNames q2
    clear_value q2
    extract_lets +onlyGivenNames q3
    clear_value q3
    extract_lets +onlyGivenNames q4
    clear_value q4
    extract_lets +onlyGivenNames q5
    clear_value q5
    extract_lets +onlyGivenNames q6
    have h6 : Moves P z q6 := by
      unfold q6
      refine Moves.ite ?_ ?_
      · with_reducible assumption
      · refine Moves.ite ?_ ?_
        · refine Moves.folded (fun _ _ _ => ?_) ?_
          · with_reducible apply commitStation_moves (within_trans rfl hP)
            with_reducible assumption
          · with_reducible assumption
        · refine Moves.folded (fun _ _ _ => ?_) ?_
          · with_reducible apply outputStation_moves (within_trans rfl hP)
            with_reducible assumption
          · with_reducible assumption
    clear_value q6
    extract_lets +onlyGivenNames q7
    clear_value q7
    refine Moves.fst ?_
    with_reducible apply addBusy_moves (within_trans rfl hP)
    with_reducible assumption

theorem outputSlice_moves_eq {P : List Part} {z : State} {s : State} {l : ℕ} {t : Fin 8} {tag : ℕ} {stamp : ℕ} {epoch : ℕ} {capture : Bool} {next : ℕ} {tt : State} {x1}
    (e0 : Machine.outputSlice s l t tag stamp epoch capture next = (tt, x1)) (hP : within [.regs, .trav, .sense, .samples, .dram] P = true) (h : Moves P z s) : Moves P z tt := by
  have k := outputSlice_moves (P := P) (z := z) (hP := hP) (h := h) (l := l) (t := t) (tag := tag) (stamp := stamp) (epoch := epoch) (capture := capture) (next := next)
  rw [e0] at k
  exact k

theorem datumSlowSt_moves {P : List Part} {z : State} {l : Fin 2} {s : State} (hP : within [.regs, .log, .sense] P = true) (h : Moves P z s) :
    Moves P z (Machine.datumSlowSt l s) := by
  unfold Machine.datumSlowSt
  split
  · with_reducible assumption
  · extract_lets +onlyGivenNames q0
    clear_value q0
    extract_lets +onlyGivenNames q1
    clear_value q1
    refine Moves.ite ?_ ?_
    · with_reducible apply logEvent_moves (within_trans rfl hP)
      with_reducible apply Moves.setSense (within_trans rfl hP)
      with_reducible assumption
    · with_reducible assumption

theorem deliverTR_moves {P : List Part} {z : State} {s : State} {l : ℕ} {st : ℕ} {v : Option ℤ} (hP : within [.sense, .dram] P = true) (h : Moves P z s) :
    Moves P z (Machine.deliverTR s l st v) := by
  unfold Machine.deliverTR
  refine Moves.ite ?_ ?_
  · extract_lets +onlyGivenNames q0
    clear_value q0
    extract_lets +onlyGivenNames q1
    have h1 : Moves P z q1 := by
      unfold q1
      with_reducible apply putSpec_moves (within_trans rfl hP)
      with_reducible assumption
    clear_value q1
    split
    · refine Moves.ite ?_ ?_
      · with_reducible apply recSet_moves (within_trans rfl hP)
        with_reducible assumption
      · with_reducible assumption
    · with_reducible assumption
  · with_reducible assumption

end Sys2Proof.Laws
end

