-- ==== Sys2Proof/Laws/ZonesMoves.lean ====
section
/-! SUPPORT. What each operation of Machine/Zones.lean can do: the parts of the state it changes, and that it keeps the
invariants. -/

namespace Sys2Proof.Laws
open Sys2Proof Sys2Proof.Machine Sys2Proof.Safety

theorem modZn_moves {P : List Part} {z : State} {s : State} {f : ZnSt → ZnSt} (hP : within [.zn] P = true) (h : Moves P z s) :
    Moves P z (Machine.modZn s f) := by
  unfold Machine.modZn
  with_reducible apply Moves.setZn (within_trans rfl hP)
  with_reducible assumption

theorem putZone_moves {P : List Part} {z : State} {s : State} {a1 : ℕ} {x : ZoneSt} (hP : within [.zn] P = true) (h : Moves P z s) :
    Moves P z (Machine.putZone s a1 x) := by
  unfold Machine.putZone
  with_reducible apply modZn_moves (within_trans rfl hP)
  with_reducible assumption

theorem evalPin_moves {P : List Part} {z : State} {s : State} {n : Fin 4} (hP : within [.zn] P = true) (h : Moves P z s) :
    Moves P z (Machine.evalPin s n) := by
  unfold Machine.evalPin
  extract_lets +onlyGivenNames q0
  clear_value q0
  refine Moves.ite ?_ ?_
  · refine Moves.ite ?_ ?_
    · with_reducible assumption
    · with_reducible apply modZn_moves (within_trans rfl hP)
      with_reducible assumption
  · refine Moves.ite ?_ ?_
    · with_reducible apply modZn_moves (within_trans rfl hP)
      with_reducible assumption
    · with_reducible assumption

theorem evalPins_moves {P : List Part} {z : State} {s : State} (hP : within [.zn] P = true) (h : Moves P z s) :
    Moves P z (Machine.evalPins s) := by
  unfold Machine.evalPins
  refine Moves.folded (fun _ _ _ => ?_) ?_
  · with_reducible apply evalPin_moves (within_trans rfl hP)
    with_reducible assumption
  · with_reducible assumption

theorem portUpdate_moves {P : List Part} {z : State} {s : State} {a1 : ℕ} {nib : ℕ} (hP : within [.regs, .zn] P = true) (h : Moves P z s) :
    Moves P z (Machine.portUpdate s a1 nib) := by
  unfold Machine.portUpdate
  refine Moves.ite ?_ ?_
  · with_reducible apply modZn_moves (within_trans rfl hP)
    with_reducible assumption
  · extract_lets +onlyGivenNames q0
    have h0 : Moves P z q0 := by
      unfold q0
      with_reducible apply modZn_moves (within_trans rfl hP)
      with_reducible assumption
    clear_value q0
    with_reducible apply evalPins_moves (within_trans rfl hP)
    refine Moves.ite ?_ ?_
    · with_reducible apply bump_moves (within_trans rfl hP)
      with_reducible assumption
    · with_reducible assumption

theorem applyHeld_moves {P : List Part} {z : State} {s : State} (hP : within [.zn] P = true) (h : Moves P z s) :
    Moves P z (Machine.applyHeld s) := by
  unfold Machine.applyHeld
  with_reducible apply evalPins_moves (within_trans rfl hP)
  with_reducible apply modZn_moves (within_trans rfl hP)
  with_reducible assumption

theorem modLoop_moves {P : List Part} {z : State} {s : State} {n : Fin 8} {f : LoopSt → LoopSt} (hP : within [.zn] P = true) (h : Moves P z s) :
    Moves P z (Machine.modLoop s n f) := by
  unfold Machine.modLoop
  with_reducible apply modZn_moves (within_trans rfl hP)
  with_reducible assumption

theorem retarget_moves {P : List Part} {z : State} {s : State} {n : Fin 8} (hP : within [.zn] P = true) (h : Moves P z s) :
    Moves P z (Machine.retarget s n) := by
  unfold Machine.retarget
  refine Moves.ite ?_ ?_
  · split
    · with_reducible assumption
    · with_reducible apply modLoop_moves (within_trans rfl hP)
      with_reducible assumption
  · with_reducible assumption

theorem loopFault_moves {P : List Part} {z : State} {s : State} {n : Fin 8} {cause : ℕ} (hP : within [.zn] P = true) (h : Moves P z s) :
    Moves P z (Machine.loopFault s n cause) := by
  unfold Machine.loopFault
  extract_lets +onlyGivenNames q0
  clear_value q0
  with_reducible apply modLoop_moves (within_trans rfl hP)
  with_reducible assumption

theorem loopCheck_moves {P : List Part} {z : State} {s : State} {n : Fin 8} (hP : within [.zn] P = true) (h : Moves P z s) :
    Moves P z (Machine.loopCheck s n) := by
  unfold Machine.loopCheck
  extract_lets +onlyGivenNames q0
  clear_value q0
  extract_lets +onlyGivenNames q1
  clear_value q1
  extract_lets +onlyGivenNames q2
  clear_value q2
  extract_lets +onlyGivenNames q3
  clear_value q3
  extract_lets +onlyGivenNames q4
  clear_value q4
  extract_lets +onlyGivenNames q5
  have h5 : Moves P z q5 := by
    unfold q5
    with_reducible apply modLoop_moves (within_trans rfl hP)
    with_reducible assumption
  clear_value q5
  extract_lets +onlyGivenNames q6
  have h6 : Moves P z q6 := by
    unfold q6
    with_reducible apply loopFault_moves (within_trans rfl hP)
    with_reducible assumption
  clear_value q6
  extract_lets +onlyGivenNames q7
  have h7 : Moves P z q7 := by
    unfold q7
    refine Moves.ite ?_ ?_
    · with_reducible apply modLoop_moves (within_trans rfl hP)
      with_reducible assumption
    · with_reducible assumption
  clear_value q7
  extract_lets +onlyGivenNames q8
  have h8 : Moves P z q8 := by
    unfold q8
    refine Moves.ite ?_ ?_
    · with_reducible apply loopFault_moves (within_trans rfl hP)
      with_reducible assumption
    · with_reducible assumption
  clear_value q8
  extract_lets +onlyGivenNames q9
  have h9 : Moves P z q9 := by
    unfold q9
    refine Moves.ite ?_ ?_
    · with_reducible apply loopFault_moves (within_trans rfl hP)
      with_reducible assumption
    · with_reducible assumption
  clear_value q9
  extract_lets +onlyGivenNames q10
  have h10 : Moves P z q10 := by
    unfold q10
    refine Moves.ite ?_ ?_
    · with_reducible apply loopFault_moves (within_trans rfl hP)
      with_reducible assumption
    · with_reducible assumption
  clear_value q10
  refine Moves.ite ?_ ?_
  · with_reducible apply loopFault_moves (within_trans rfl hP)
    with_reducible assumption
  · with_reducible assumption

theorem loopsRefresh_moves {P : List Part} {z : State} {s : State} (hP : within [.zn] P = true) (h : Moves P z s) :
    Moves P z (Machine.loopsRefresh s) := by
  unfold Machine.loopsRefresh
  refine Moves.folded (fun _ _ _ => ?_) ?_
  · with_reducible apply retarget_moves (within_trans rfl hP)
    with_reducible apply loopCheck_moves (within_trans rfl hP)
    with_reducible assumption
  · with_reducible assumption

theorem loopSourceUpdated_moves {P : List Part} {z : State} {s : State} {p : LoopCfg → Bool} (hP : within [.zn] P = true) (h : Moves P z s) :
    Moves P z (Machine.loopSourceUpdated s p) := by
  unfold Machine.loopSourceUpdated
  refine Moves.folded (fun _ _ _ => ?_) ?_
  · refine Moves.ite ?_ ?_
    · with_reducible apply retarget_moves (within_trans rfl hP)
      with_reducible apply loopCheck_moves (within_trans rfl hP)
      with_reducible apply modLoop_moves (within_trans rfl hP)
      with_reducible assumption
    · with_reducible assumption
  · with_reducible assumption

theorem loopRelease_moves_eq {P : List Part} {z : State} {s t : State} {n : Fin 8} (e : loopRelease s n = some t)
    (hP : within [.regs, .zn, .freeCtr] P = true) (h : Moves P z s) : Moves P z t := by
  unfold loopRelease at e
  split at e
  · cases e
  · extract_lets x c st at e
    split at e
    · cases e; exact h
    · cases e
      exact retarget_moves (within_trans rfl hP) (modLoop_moves (within_trans rfl hP) h)

theorem mbxAnswer_moves {P : List Part} {z : State} {s : State} {code : ℕ} {status : ℕ} {detail : ℕ} (hP : within [.regs, .keeper] P = true) (h : Moves P z s) :
    Moves P z (Machine.mbxAnswer s code status detail) := by
  unfold Machine.mbxAnswer
  extract_lets +onlyGivenNames q0
  have h0 : Moves P z q0 := by
    unfold q0
    with_reducible apply setF_moves (within_trans rfl hP)
    with_reducible apply setF_moves (within_trans rfl hP)
    with_reducible assumption
  clear_value q0
  with_reducible apply Moves.setKeeper (within_trans rfl hP)
  · with_reducible exact keeper_mk_otp
  · with_reducible assumption

theorem mbxRefuse_moves {P : List Part} {z : State} {s : State} {code : ℕ} (hP : within [.regs, .keeper, .freeCtr] P = true) (h : Moves P z s) :
    Moves P z (Machine.mbxRefuse s code) := by
  unfold Machine.mbxRefuse
  split
  with_reducible apply mbxAnswer_moves (within_trans rfl hP)
  refine draw_moves_eq (by assumption) (within_trans rfl hP) ?_
  with_reducible assumption

theorem mbxLoopReleaseSt_moves {P : List Part} {z : State} {n : Fin 8} {s : State} (hP : within [.regs, .keeper, .zn, .freeCtr] P = true) (h : Moves P z s) :
    Moves P z (Machine.mbxLoopReleaseSt n s) := by
  unfold Machine.mbxLoopReleaseSt
  split
  · with_reducible apply mbxAnswer_moves (within_trans rfl hP)
    refine loopRelease_moves_eq (by assumption) (within_trans rfl hP) ?_
    with_reducible assumption
  · with_reducible apply mbxRefuse_moves (within_trans rfl hP)
    with_reducible assumption

theorem loopReleaseCmdSt_moves {P : List Part} {z : State} {n : Fin 8} {s : State} (hP : within [.regs, .keeper, .zn, .freeCtr] P = true) (h : Moves P z s) :
    Moves P z (Machine.loopReleaseCmdSt n s) := by
  unfold Machine.loopReleaseCmdSt
  refine Moves.whenB ?_ ?_
  · with_reducible assumption
  · with_reducible apply mbxLoopReleaseSt_moves (within_trans rfl hP)
    with_reducible assumption

theorem sendZoneRecords_moves {P : List Part} {z : State} {epoch : ℕ} {a1 : ℕ} {a2 : List (List Word)} {a3 : State} (hP : within [.regs, .net, .zn] P = true) (h : Moves P z a3) :
    Moves P z (Machine.sendZoneRecords epoch a1 a2 a3) := by
  induction a1 generalizing a2 a3 with
  | zero => unfold sendZoneRecords; exact h
  | succ n ih =>
    cases a2 with
    | nil => unfold sendZoneRecords; exact h
    | cons r rs =>
      unfold sendZoneRecords
      extract_lets now seq pay s1
      have h1 : Moves P z s1 := modZn_moves (within_trans rfl hP) h
      clear_value s1
      split
      next s2 ok e =>
      refine ih (bumpBy_moves (within_trans rfl hP) ?_)
      split at e
      · exact sendOn_moves_eq e (within_trans rfl hP) h1
      · cases e; exact h1

theorem publish_moves {P : List Part} {z : State} {s : State} {zs : List ℕ} {epoch : ℕ} (hP : within [.regs, .net, .zn] P = true) (h : Moves P z s) :
    Moves P z (Machine.publish s zs epoch) := by
  unfold Machine.publish
  extract_lets +onlyGivenNames q0
  clear_value q0
  extract_lets +onlyGivenNames q1
  have h1 : Moves P z q1 := by
    unfold q1
    with_reducible apply sendZoneRecords_moves (within_trans rfl hP)
    with_reducible assumption
  clear_value q1
  refine Moves.folded (fun _ _ _ => ?_) ?_
  · extract_lets +onlyGivenNames q2
    clear_value q2
    with_reducible apply putZone_moves (within_trans rfl hP)
    with_reducible assumption
  · with_reducible assumption

theorem zonesRow_moves {P : List Part} {z : State} {s : State} {n : ℕ} {row : List RowOut} {stamp : ℕ} {epoch : ℕ} (hP : within [.regs, .net, .zn] P = true) (h : Moves P z s) :
    Moves P z (Machine.zonesRow s n row stamp epoch) := by
  unfold Machine.zonesRow
  extract_lets +onlyGivenNames q0
  clear_value q0
  refine Moves.ite ?_ ?_
  · with_reducible assumption
  · extract_lets +onlyGivenNames q1
    have h1 : Moves P z q1 := by
      unfold q1
      refine Moves.folded (fun _ _ _ => ?_) ?_
      · with_reducible apply putZone_moves (within_trans rfl hP)
        with_reducible assumption
      · with_reducible assumption
    clear_value q1
    extract_lets +onlyGivenNames q2
    have h2 : Moves P z q2 := by
      unfold q2
      refine Moves.folded (fun _ _ _ => ?_) ?_
      · split
        · split
          · with_reducible assumption
          · refine Moves.ite ?_ ?_
            · with_reducible apply modZn_moves (within_trans rfl hP)
              with_reducible assumption
            · with_reducible assumption
        · with_reducible assumption
      · with_reducible assumption
    clear_value q2
    extract_lets +onlyGivenNames q3
    clear_value q3
    with_reducible apply loopSourceUpdated_moves (within_trans rfl hP)
    with_reducible apply publish_moves (within_trans rfl hP)
    with_reducible assumption

theorem markZones_moves {P : List Part} {z : State} {s : State} {p : ZoneCfg → Bool} {f : ZoneSt → ZoneSt} (hP : within [.regs, .net, .zn] P = true) (h : Moves P z s) :
    Moves P z (Machine.markZones s p f) := by
  unfold Machine.markZones
  extract_lets +onlyGivenNames q0
  clear_value q0
  extract_lets +onlyGivenNames q1
  have h1 : Moves P z q1 := by
    unfold q1
    refine Moves.folded (fun _ _ _ => ?_) ?_
    · extract_lets +onlyGivenNames q2
      clear_value q2
      extract_lets +onlyGivenNames q3
      clear_value q3
      with_reducible apply putZone_moves (within_trans rfl hP)
      with_reducible assumption
    · with_reducible assumption
  clear_value q1
  extract_lets +onlyGivenNames q4
  clear_value q4
  extract_lets +onlyGivenNames q5
  have h5 : Moves P z q5 := by
    unfold q5
    refine Moves.folded (fun _ _ _ => ?_) ?_
    · with_reducible apply portUpdate_moves (within_trans rfl hP)
      with_reducible assumption
    · with_reducible assumption
  clear_value q5
  with_reducible apply loopsRefresh_moves (within_trans rfl hP)
  with_reducible apply publish_moves (within_trans rfl hP)
  with_reducible assumption

theorem staleLine_moves {P : List Part} {z : State} {s : State} {l : Fin 2} {code : ℕ} (hP : within [.regs, .net, .zn] P = true) (h : Moves P z s) :
    Moves P z (Machine.staleLine s l code) := by
  unfold Machine.staleLine
  extract_lets +onlyGivenNames q0
  have h0 : Moves P z q0 := by
    unfold q0
    with_reducible apply modZn_moves (within_trans rfl hP)
    with_reducible assumption
  clear_value q0
  with_reducible apply markZones_moves (within_trans rfl hP)
  with_reducible assumption

theorem staleFreeze_moves {P : List Part} {z : State} {s : State} (hP : within [.regs, .net, .zn] P = true) (h : Moves P z s) :
    Moves P z (Machine.staleFreeze s) := by
  unfold Machine.staleFreeze
  extract_lets +onlyGivenNames q0
  have h0 : Moves P z q0 := by
    unfold q0
    with_reducible apply modZn_moves (within_trans rfl hP)
    with_reducible assumption
  clear_value q0
  with_reducible apply markZones_moves (within_trans rfl hP)
  with_reducible assumption

theorem clearTimers_moves {P : List Part} {z : State} {s : State} {l : Fin 2} (hP : within [.zn] P = true) (h : Moves P z s) :
    Moves P z (Machine.clearTimers s l) := by
  unfold Machine.clearTimers
  refine Moves.folded (fun _ _ _ => ?_) ?_
  · extract_lets +onlyGivenNames q0
    clear_value q0
    with_reducible apply putZone_moves (within_trans rfl hP)
    with_reducible assumption
  · with_reducible assumption

theorem zoneStaleSt_moves {P : List Part} {z : State} {a0 : Fin 4096} {s : State} (hP : within [.regs, .net, .zn] P = true) (h : Moves P z s) :
    Moves P z (Machine.zoneStaleSt a0 s) := by
  unfold Machine.zoneStaleSt
  split
  · with_reducible assumption
  · refine Moves.ite ?_ ?_
    · with_reducible apply markZones_moves (within_trans rfl hP)
      with_reducible assumption
    · with_reducible assumption

theorem znAckSt_moves {P : List Part} {z : State} {s : State} (hP : within [.zn] P = true) (h : Moves P z s) :
    Moves P z (Machine.znAckSt s) := by
  unfold Machine.znAckSt
  extract_lets +onlyGivenNames q0
  clear_value q0
  split
  · with_reducible assumption
  · refine Moves.ite ?_ ?_
    · with_reducible apply putZone_moves (within_trans rfl hP)
      with_reducible assumption
    · with_reducible assumption

theorem defineZone_moves {P : List Part} {z : State} {s : State} {a1 : ℕ} (hP : within [.regs, .net, .zn] P = true) (h : Moves P z s) :
    Moves P z (Machine.defineZone s a1) := by
  unfold Machine.defineZone
  extract_lets +onlyGivenNames q0
  clear_value q0
  extract_lets +onlyGivenNames q1
  clear_value q1
  with_reducible apply publish_moves (within_trans rfl hP)
  with_reducible apply portUpdate_moves (within_trans rfl hP)
  with_reducible apply putZone_moves (within_trans rfl hP)
  with_reducible assumption

theorem mbxStaleClearSt_moves {P : List Part} {z : State} {l : Fin 2} {s : State} (hP : within [.regs, .keeper, .net, .zn, .freeCtr] P = true) (h : Moves P z s) :
    Moves P z (Machine.mbxStaleClearSt l s) := by
  unfold Machine.mbxStaleClearSt
  extract_lets +onlyGivenNames q0
  clear_value q0
  refine Moves.ite ?_ ?_
  · with_reducible apply mbxAnswer_moves (within_trans rfl hP)
    with_reducible apply markZones_moves (within_trans rfl hP)
    with_reducible assumption
  · with_reducible apply mbxRefuse_moves (within_trans rfl hP)
    with_reducible assumption

end Sys2Proof.Laws
end

