-- ==== Sys2Proof/Laws/LineMoves.lean ====
section
/-! SUPPORT. What each operation of Machine/Line.lean can do: the parts of the state it changes, and that it keeps the
invariants. -/

namespace Sys2Proof.Laws
open Sys2Proof Sys2Proof.Machine Sys2Proof.Safety

theorem apdUpdate_moves {P : List Part} {z : State} {s : State} {l : Fin 2} (hP : within [.conv] P = true) (h : Moves P z s) :
    Moves P z (Machine.apdUpdate s l) := by
  unfold Machine.apdUpdate
  extract_lets +onlyGivenNames q0
  clear_value q0
  with_reducible apply modConv_moves (within_trans rfl hP)
  with_reducible assumption

theorem disarmLine_moves {P : List Part} {z : State} {s : State} {l : Fin 2} (hP : within [.regs, .log, .probe, .conv] P = true) (h : Moves P z s) :
    Moves P z (Machine.disarmLine s l) := by
  unfold Machine.disarmLine
  extract_lets +onlyGivenNames q0
  have h0 : Moves P z q0 := by
    unfold q0
    with_reducible apply modProbe_moves (within_trans rfl hP)
    · exact fun _ _ _ => rfl
    · with_reducible apply setF_moves (within_trans rfl hP)
      with_reducible apply cutLine_moves (within_trans rfl hP)
      with_reducible assumption
  clear_value q0
  with_reducible apply apdUpdate_moves (within_trans rfl hP)
  with_reducible assumption

theorem setRearm_moves {P : List Part} {z : State} {s : State} {l : Fin 2} {on : Bool} (hP : within [.keeper] P = true) (h : Moves P z s) :
    Moves P z (Machine.setRearm s l on) := by
  unfold Machine.setRearm
  with_reducible apply Moves.setKeeper (within_trans rfl hP)
  · with_reducible exact keeper_mk_otp
  · with_reducible assumption

theorem disarmForEvent_moves {P : List Part} {z : State} {s : State} {l : Fin 2} (hP : within [.regs, .keeper, .log, .probe, .conv] P = true) (h : Moves P z s) :
    Moves P z (Machine.disarmForEvent s l) := by
  unfold Machine.disarmForEvent
  extract_lets +onlyGivenNames q0
  clear_value q0
  with_reducible apply disarmLine_moves (within_trans rfl hP)
  refine Moves.ite ?_ ?_
  · with_reducible apply setRearm_moves (within_trans rfl hP)
    with_reducible assumption
  · with_reducible assumption

theorem laserDisarmSt_moves {P : List Part} {z : State} {l : Fin 2} {s : State} (hP : within [.regs, .keeper, .log, .probe, .conv, .net, .zn] P = true) (h : Moves P z s) :
    Moves P z (Machine.laserDisarmSt l s) := by
  unfold Machine.laserDisarmSt
  with_reducible apply mbxAnswer_moves (within_trans rfl hP)
  with_reducible apply staleLine_moves (within_trans rfl hP)
  with_reducible apply disarmLine_moves (within_trans rfl hP)
  with_reducible apply setRearm_moves (within_trans rfl hP)
  with_reducible assumption

theorem armLine_moves {P : List Part} {z : State} {s : State} {l : Fin 2} (hP : within [.regs, .log, .probe, .conv] P = true) (h : Moves P z s) :
    Moves P z (Machine.armLine s l) := by
  unfold Machine.armLine
  extract_lets +onlyGivenNames q0
  clear_value q0
  refine Moves.ite ?_ ?_
  · with_reducible assumption
  · extract_lets +onlyGivenNames q1
    clear_value q1
    extract_lets +onlyGivenNames q2
    clear_value q2
    extract_lets +onlyGivenNames q3
    have h3 : Moves P z q3 := by
      unfold q3
      with_reducible apply setF_moves (within_trans rfl hP)
      with_reducible apply setF_moves (within_trans rfl hP)
      with_reducible apply setF_moves (within_trans rfl hP)
      with_reducible apply dacNow_moves (within_trans rfl hP)
      with_reducible assumption
    clear_value q3
    extract_lets +onlyGivenNames q4
    have h4 : Moves P z q4 := by
      unfold q4
      with_reducible apply setF_moves (within_trans rfl hP)
      with_reducible assumption
    clear_value q4
    extract_lets +onlyGivenNames q5
    have h5 : Moves P z q5 := by
      unfold q5
      with_reducible apply modProbe_moves (within_trans rfl hP)
      · intro _ _ _
        (simp_all; done)
      · with_reducible assumption
    clear_value q5
    with_reducible apply apdUpdate_moves (within_trans rfl hP)
    with_reducible assumption

theorem laserArmSt_moves {P : List Part} {z : State} {l : Fin 2} {s0 : State} (hP : within [.regs, .keeper, .log, .probe, .conv, .freeCtr] P = true) (h : Moves P z s0) :
    Moves P z (Machine.laserArmSt l s0) := by
  unfold Machine.laserArmSt
  extract_lets +onlyGivenNames q0
  have h0 : Moves P z q0 := by
    unfold q0
    with_reducible apply setRearm_moves (within_trans rfl hP)
    with_reducible assumption
  clear_value q0
  refine Moves.ite ?_ ?_
  · with_reducible apply mbxAnswer_moves (within_trans rfl hP)
    with_reducible assumption
  · refine Moves.ite ?_ ?_
    · with_reducible apply mbxAnswer_moves (within_trans rfl hP)
      with_reducible apply armLine_moves (within_trans rfl hP)
      with_reducible assumption
    · with_reducible apply mbxRefuse_moves (within_trans rfl hP)
      with_reducible assumption

theorem rearmLines_moves {P : List Part} {z : State} {s : State} (hP : within [.regs, .keeper, .log, .probe, .conv, .freeCtr] P = true) (h : Moves P z s) :
    Moves P z (Machine.rearmLines s) := by
  unfold Machine.rearmLines
  refine Moves.folded (fun _ _ _ => ?_) ?_
  · refine Moves.ite ?_ ?_
    · with_reducible apply laserArmSt_moves (within_trans rfl hP)
      with_reducible assumption
    · with_reducible assumption
  · with_reducible assumption

theorem ilkTripSt_moves {P : List Part} {z : State} {l : Fin 2} {s : State} (hP : within [.regs, .keeper, .log, .probe, .conv, .net, .zn] P = true) (h : Moves P z s) :
    Moves P z (Machine.ilkTripSt l s) := by
  unfold Machine.ilkTripSt
  refine Moves.ite ?_ ?_
  · with_reducible assumption
  · extract_lets +onlyGivenNames q0
    have h0 : Moves P z q0 := by
      unfold q0
      with_reducible apply modProbe_moves (within_trans rfl hP)
      · exact fun _ _ _ => rfl
      · with_reducible assumption
    clear_value q0
    extract_lets +onlyGivenNames q1
    have h1 : Moves P z q1 := by
      unfold q1
      with_reducible apply disarmLine_moves (within_trans rfl hP)
      with_reducible apply setRearm_moves (within_trans rfl hP)
      with_reducible assumption
    clear_value q1
    with_reducible apply staleLine_moves (within_trans rfl hP)
    with_reducible apply logEvent_moves (within_trans rfl hP)
    with_reducible assumption

theorem breakRaiseSt_moves {P : List Part} {z : State} {l : Fin 2} {s : State} (hP : within [.regs, .log, .net, .zn] P = true) (h : Moves P z s) :
    Moves P z (Machine.breakRaiseSt l s) := by
  unfold Machine.breakRaiseSt
  refine Moves.ite ?_ ?_
  · with_reducible assumption
  · split
    · with_reducible assumption
    · extract_lets +onlyGivenNames q0
      have h0 : Moves P z q0 := by
        unfold q0
        with_reducible apply setF_moves (within_trans rfl hP)
        with_reducible apply setF_moves (within_trans rfl hP)
        with_reducible apply setF_moves (within_trans rfl hP)
        with_reducible assumption
      clear_value q0
      extract_lets +onlyGivenNames q1
      have h1 : Moves P z q1 := by
        unfold q1
        with_reducible apply logEvent_moves (within_trans rfl hP)
        with_reducible assumption
      clear_value q1
      with_reducible apply markZones_moves (within_trans rfl hP)
      with_reducible assumption

end Sys2Proof.Laws
end

