-- ==== Sys2Proof/Laws/RamanMoves.lean ====
section
/-! SUPPORT. What each operation of Machine/Raman.lean can do: the parts of the state it changes, and that it keeps the
invariants. -/

namespace Sys2Proof.Laws
open Sys2Proof Sys2Proof.Machine Sys2Proof.Safety

theorem modRaman_moves {P : List Part} {z : State} {s : State} {l : Fin 2} {f : RamanLine → RamanLine} (hP : within [.sense] P = true) (h : Moves P z s) :
    Moves P z (Machine.modRaman s l f) := by
  unfold Machine.modRaman
  with_reducible apply Moves.setSense (within_trans rfl hP)
  with_reducible assumption

theorem clearCells_moves {P : List Part} {z : State} {s : State} {l : Fin 2} (hP : within [.sense] P = true) (h : Moves P z s) :
    Moves P z (Machine.clearCells s l) := by
  unfold Machine.clearCells
  with_reducible apply Moves.setSense (within_trans rfl hP)
  with_reducible assumption

theorem restartAveraging_moves {P : List Part} {z : State} {s : State} {l : Fin 2} (hP : within [.regs, .sense] P = true) (h : Moves P z s) :
    Moves P z (Machine.restartAveraging s l) := by
  unfold Machine.restartAveraging
  with_reducible apply setF_moves (within_trans rfl hP)
  with_reducible apply modRaman_moves (within_trans rfl hP)
  with_reducible apply clearCells_moves (within_trans rfl hP)
  with_reducible assumption

theorem ramanRestart_moves {P : List Part} {z : State} {s : State} {l : Fin 2} (hP : within [.regs, .trav, .sense, .xbuf] P = true) (h : Moves P z s) :
    Moves P z (Machine.ramanRestart s l) := by
  unfold Machine.ramanRestart
  extract_lets +onlyGivenNames q0
  clear_value q0
  extract_lets +onlyGivenNames q1
  have h1 : Moves P z q1 := by
    unfold q1
    with_reducible apply restartAveraging_moves (within_trans rfl hP)
    with_reducible assumption
  clear_value q1
  extract_lets +onlyGivenNames q2
  have h2 : Moves P z q2 := by
    unfold q2
    with_reducible apply modRaman_moves (within_trans rfl hP)
    with_reducible assumption
  clear_value q2
  extract_lets +onlyGivenNames q3
  clear_value q3
  extract_lets +onlyGivenNames q4
  have h4 : Moves P z q4 := by
    unfold q4
    with_reducible apply Moves.setTravSenseXbuf (within_trans rfl hP)
    · exact fun k => tabFilter_wf _ _ _ k
    · with_reducible assumption
  clear_value q4
  with_reducible apply seqRestart_moves (within_trans rfl hP)
  with_reducible apply seqRestart_moves (within_trans rfl hP)
  with_reducible assumption

theorem coilSuspend_moves {P : List Part} {z : State} {s : State} {rtd : ℕ} (hP : within [.sense] P = true) (h : Moves P z s) :
    Moves P z (Machine.coilSuspend s rtd) := by
  unfold Machine.coilSuspend
  refine Moves.folded (fun _ _ _ => ?_) ?_
  · split
    · with_reducible assumption
    · refine Moves.ite ?_ ?_
      · with_reducible apply modRaman_moves (within_trans rfl hP)
        with_reducible assumption
      · with_reducible assumption
  · with_reducible assumption

theorem coilcalSt_moves {P : List Part} {z : State} {l : Fin 2} {s : State} (hP : within [.sense] P = true) (h : Moves P z s) :
    Moves P z (Machine.coilcalSt l s) := by
  unfold Machine.coilcalSt
  with_reducible apply modRaman_moves (within_trans rfl hP)
  with_reducible assumption

theorem endBlock_moves {P : List Part} {z : State} {s : State} {l : Fin 2} (hP : within [.regs, .trav, .sense] P = true) (h : Moves P z s) :
    Moves P z (Machine.endBlock s l) := by
  unfold Machine.endBlock
  extract_lets +onlyGivenNames q0
  clear_value q0
  split
  · extract_lets +onlyGivenNames q1
    clear_value q1
    extract_lets +onlyGivenNames q2
    clear_value q2
    extract_lets +onlyGivenNames q3
    clear_value q3
    extract_lets +onlyGivenNames q4
    have h4 : Moves P z q4 := by
      unfold q4
      refine Moves.forEach (fun _ _ _ => ?_) ?_
      · with_reducible apply requestBg_moves (within_trans rfl hP)
        with_reducible assumption
      · with_reducible assumption
    clear_value q4
    extract_lets +onlyGivenNames q5
    clear_value q5
    extract_lets +onlyGivenNames q6
    have h6 : Moves P z q6 := by
      unfold q6
      with_reducible apply Moves.setSense (within_trans rfl hP)
      with_reducible assumption
    clear_value q6
    with_reducible apply setF_moves (within_trans rfl hP)
    with_reducible apply modRaman_moves (within_trans rfl hP)
    with_reducible assumption
  · with_reducible assumption

theorem applyUse_moves {P : List Part} {z : State} {s : State} {l : Fin 2} {c : RamanCfg} (hP : within [.regs, .sense] P = true) (h : Moves P z s) :
    Moves P z (Machine.applyUse s l c) := by
  unfold Machine.applyUse
  extract_lets +onlyGivenNames q0
  clear_value q0
  extract_lets +onlyGivenNames q1
  clear_value q1
  refine Moves.ite ?_ ?_
  · with_reducible assumption
  · extract_lets +onlyGivenNames q2
    have h2 : Moves P z q2 := by
      unfold q2
      with_reducible apply modRaman_moves (within_trans rfl hP)
      with_reducible assumption
    clear_value q2
    refine Moves.ite ?_ ?_
    · with_reducible assumption
    · with_reducible apply restartAveraging_moves (within_trans rfl hP)
      with_reducible assumption

theorem openBlock_moves {P : List Part} {z : State} {s : State} {l : Fin 2} {c : RamanCfg} {tr : RamanTrig} (hP : within [.regs, .sense] P = true) (h : Moves P z s) :
    Moves P z (Machine.openBlock s l c tr) := by
  unfold Machine.openBlock
  extract_lets +onlyGivenNames q0
  have h0 : Moves P z q0 := by
    unfold q0
    refine Moves.ite ?_ ?_
    · with_reducible assumption
    · with_reducible apply applyUse_moves (within_trans rfl hP)
      with_reducible assumption
  clear_value q0
  extract_lets +onlyGivenNames q1
  clear_value q1
  refine Moves.ite ?_ ?_
  · with_reducible assumption
  · extract_lets +onlyGivenNames q2
    clear_value q2
    extract_lets +onlyGivenNames q3
    clear_value q3
    with_reducible apply modRaman_moves (within_trans rfl hP)
    with_reducible assumption

theorem rangeEffect_moves {P : List Part} {z : State} {s : State} {l : Fin 2} {gainNorm : Bool} (hP : within [.regs, .conv, .sense] P = true) (h : Moves P z s) :
    Moves P z (Machine.rangeEffect s l gainNorm) := by
  unfold Machine.rangeEffect
  extract_lets +onlyGivenNames q0
  clear_value q0
  extract_lets +onlyGivenNames q1
  clear_value q1
  extract_lets +onlyGivenNames q2
  clear_value q2
  extract_lets +onlyGivenNames q3
  clear_value q3
  extract_lets +onlyGivenNames q4
  clear_value q4
  extract_lets +onlyGivenNames q5
  clear_value q5
  extract_lets +onlyGivenNames q6
  clear_value q6
  extract_lets +onlyGivenNames q7
  have h7 : Moves P z q7 := by
    unfold q7
    with_reducible apply Moves.setSense (within_trans rfl hP)
    with_reducible assumption
  clear_value q7
  extract_lets +onlyGivenNames q8
  have h8 : Moves P z q8 := by
    unfold q8
    refine Moves.ite ?_ ?_
    · with_reducible assumption
    · refine Moves.ite ?_ ?_
      · with_reducible apply restartAveraging_moves (within_trans rfl hP)
        with_reducible assumption
      · with_reducible apply modRaman_moves (within_trans rfl hP)
        with_reducible assumption
  clear_value q8
  with_reducible apply modConv_moves (within_trans rfl hP)
  with_reducible apply modRaman_moves (within_trans rfl hP)
  with_reducible assumption

theorem addCapture_moves {P : List Part} {z : State} {s : State} {l : Fin 2} {as_ : List (ℤ × Bool)} {st_ : List (ℤ × Bool)} (hP : within [.sense] P = true) (h : Moves P z s) :
    Moves P z (Machine.addCapture s l as_ st_) := by
  unfold Machine.addCapture
  with_reducible apply Moves.setSense (within_trans rfl hP)
  with_reducible assumption

theorem markStale_moves {P : List Part} {z : State} {s : State} {l : Fin 2} {n : ℕ} (hP : within [.sense] P = true) (h : Moves P z s) :
    Moves P z (Machine.markStale s l n) := by
  unfold Machine.markStale
  with_reducible apply Moves.setSense (within_trans rfl hP)
  with_reducible assumption

theorem ramanCaptureSt_moves {P : List Part} {z : State} {l : Fin 2} {as_ : List ℤ} {st_ : List ℤ} {asDark : List ℤ} {stDark : List ℤ} {s0 : State} (hP : within [.regs, .trav, .probe, .conv, .sense] P = true) (h : Moves P z s0) :
    Moves P z (Machine.ramanCaptureSt l as_ st_ asDark stDark s0) := by
  unfold Machine.ramanCaptureSt
  split
  · extract_lets +onlyGivenNames q0
    have h0 : Moves P z q0 := by
      unfold q0
      refine Moves.ite ?_ ?_
      · with_reducible apply endBlock_moves (within_trans rfl hP)
        with_reducible assumption
      · with_reducible assumption
    clear_value q0
    extract_lets +onlyGivenNames q1
    have h1 : Moves P z q1 := by
      unfold q1
      with_reducible apply openBlock_moves (within_trans rfl hP)
      with_reducible apply modProbe_moves (within_trans rfl hP)
      · (intro _ k; exact k)
      · with_reducible assumption
    clear_value q1
    extract_lets +onlyGivenNames q2
    clear_value q2
    extract_lets +onlyGivenNames q3
    clear_value q3
    extract_lets +onlyGivenNames q4
    clear_value q4
    extract_lets +onlyGivenNames q5
    clear_value q5
    extract_lets +onlyGivenNames q6
    clear_value q6
    extract_lets +onlyGivenNames q7
    clear_value q7
    extract_lets +onlyGivenNames q8
    have h8 : Moves P z q8 := by
      unfold q8
      with_reducible apply rangeEffect_moves (within_trans rfl hP)
      with_reducible assumption
    clear_value q8
    extract_lets +onlyGivenNames q9
    have h9 : Moves P z q9 := by
      unfold q9
      with_reducible apply modRaman_moves (within_trans rfl hP)
      with_reducible assumption
    clear_value q9
    extract_lets +onlyGivenNames q10
    have h10 : Moves P z q10 := by
      unfold q10
      refine Moves.ite ?_ ?_
      · with_reducible apply markStale_moves (within_trans rfl hP)
        with_reducible assumption
      · with_reducible apply addCapture_moves (within_trans rfl hP)
        with_reducible assumption
    clear_value q10
    extract_lets +onlyGivenNames q11
    clear_value q11
    extract_lets +onlyGivenNames q12
    have h12 : Moves P z q12 := by
      unfold q12
      with_reducible apply autoRange_moves (within_trans rfl hP)
      with_reducible assumption
    clear_value q12
    extract_lets +onlyGivenNames q13
    have h13 : Moves P z q13 := by
      unfold q13
      with_reducible apply autoRange_moves (within_trans rfl hP)
      with_reducible assumption
    clear_value q13
    with_reducible apply modConv_moves (within_trans rfl hP)
    with_reducible assumption
  · with_reducible assumption

theorem windowEndSt_moves {P : List Part} {z : State} {l : Fin 2} {s : State} (hP : within [.regs, .conv, .hk] P = true) (h : Moves P z s) :
    Moves P z (Machine.windowEndSt l s) := by
  unfold Machine.windowEndSt
  refine Moves.ite ?_ ?_
  · extract_lets +onlyGivenNames q0
    have h0 : Moves P z q0 := by
      unfold q0
      with_reducible apply closeWindow_moves (within_trans rfl hP)
      with_reducible assumption
    clear_value q0
    refine Moves.ite ?_ ?_
    · with_reducible apply startRamanFg_moves (within_trans rfl hP)
      with_reducible assumption
    · with_reducible assumption
  · with_reducible assumption

theorem orFree_moves {P : List Part} {z : State} {s : State} {o : Option ℤ} (hP : within [.freeCtr] P = true) (h : Moves P z s) :
    Moves P z (Machine.orFree s o).2 := by
  unfold Machine.orFree
  split
  · refine Moves.snd ?_
    with_reducible assumption
  · split
    refine Moves.snd ?_
    refine draw_moves_eq (by assumption) (within_trans rfl hP) ?_
    with_reducible assumption

theorem orFree_moves_eq {P : List Part} {z : State} {s : State} {o : Option ℤ} {tt : State} {x0}
    (e0 : Machine.orFree s o = (x0, tt)) (hP : within [.freeCtr] P = true) (h : Moves P z s) : Moves P z tt := by
  have k := orFree_moves (P := P) (z := z) (hP := hP) (h := h) (o := o)
  rw [e0] at k
  exact k

theorem ramanStationSt_moves {P : List Part} {z : State} {c : RamanCfg} {C : ℤ} {b : RBlock} {base : ℕ} {t : Fin 8} {epoch : ℕ} {s : State} {r : ℕ} (hP : within [.sense, .samples, .xbuf, .freeCtr] P = true) (h : Moves P z s) :
    Moves P z (Machine.ramanStationSt c C b base t epoch s r) := by
  unfold Machine.ramanStationSt
  split
  extract_lets +onlyGivenNames q0
  clear_value q0
  extract_lets +onlyGivenNames q1
  clear_value q1
  extract_lets +onlyGivenNames q2
  clear_value q2
  split
  split
  split
  extract_lets +onlyGivenNames q3
  clear_value q3
  extract_lets +onlyGivenNames q4
  clear_value q4
  extract_lets +onlyGivenNames q5
  have h5 : Moves P z q5 := by
    unfold q5
    with_reducible apply Moves.setSenseXbuf (within_trans rfl hP)
    · exact tabSet_wf _ _ _ _
    · refine orFree_moves_eq (by assumption) (within_trans rfl hP) ?_
      refine orFree_moves_eq (by assumption) (within_trans rfl hP) ?_
      refine orFree_moves_eq (by assumption) (within_trans rfl hP) ?_
      refine draw_moves_eq (by assumption) (within_trans rfl hP) ?_
      with_reducible assumption
  clear_value q5
  extract_lets +onlyGivenNames q6
  clear_value q6
  extract_lets +onlyGivenNames q7
  have h7 : Moves P z q7 := by
    unfold q7
    with_reducible apply Moves.setSense (within_trans rfl hP)
    with_reducible assumption
  clear_value q7
  extract_lets +onlyGivenNames q8
  have h8 : Moves P z q8 := by
    unfold q8
    with_reducible apply emitProduct_moves (within_trans rfl hP)
    with_reducible assumption
  clear_value q8
  extract_lets +onlyGivenNames q9
  have h9 : Moves P z q9 := by
    unfold q9
    with_reducible apply emitProduct_moves (within_trans rfl hP)
    with_reducible assumption
  clear_value q9
  extract_lets +onlyGivenNames q10
  have h10 : Moves P z q10 := by
    unfold q10
    with_reducible apply emitProduct_moves (within_trans rfl hP)
    with_reducible assumption
  clear_value q10
  extract_lets +onlyGivenNames q11
  have h11 : Moves P z q11 := by
    unfold q11
    with_reducible apply emitProduct_moves (within_trans rfl hP)
    with_reducible assumption
  clear_value q11
  with_reducible apply emitProduct_moves (within_trans rfl hP)
  with_reducible assumption

theorem coilAttempt_moves {P : List Part} {z : State} {s : State} {l : Fin 2} {c : RamanCfg} {b : RBlock} (hP : within [.regs, .sense] P = true) (h : Moves P z s) :
    Moves P z (Machine.coilAttempt s l c b) := by
  unfold Machine.coilAttempt
  split
  · extract_lets +onlyGivenNames q0
    clear_value q0
    extract_lets +onlyGivenNames q1
    clear_value q1
    extract_lets +onlyGivenNames q2
    clear_value q2
    refine Moves.ite ?_ ?_
    · with_reducible apply bump_moves (within_trans rfl hP)
      with_reducible apply setF_moves (within_trans rfl hP)
      with_reducible assumption
    · extract_lets +onlyGivenNames q3
      clear_value q3
      extract_lets +onlyGivenNames q4
      clear_value q4
      extract_lets +onlyGivenNames q5
      clear_value q5
      extract_lets +onlyGivenNames q6
      have h6 : Moves P z q6 := by
        unfold q6
        with_reducible apply modRaman_moves (within_trans rfl hP)
        with_reducible assumption
      clear_value q6
      extract_lets +onlyGivenNames q7
      have h7 : Moves P z q7 := by
        unfold q7
        with_reducible apply setF_moves (within_trans rfl hP)
        with_reducible apply setFS_moves (within_trans rfl hP)
        with_reducible assumption
      clear_value q7
      with_reducible apply setF_moves (within_trans rfl hP)
      with_reducible apply setF_moves (within_trans rfl hP)
      with_reducible apply bump_moves (within_trans rfl hP)
      with_reducible assumption
  · with_reducible assumption

theorem deliverCells_moves {P : List Part} {z : State} {s : State} {t : Fin 8} {l : ℕ} {n : ℕ} {b : RBlock} {next : ℕ} {len : ℕ} (hP : within [.trav] P = true) (h : Moves P z s) :
    Moves P z (Machine.deliverCells s t l n b next len) := by
  unfold Machine.deliverCells
  with_reducible apply modTrav_moves (within_trans rfl hP)
  with_reducible assumption

theorem leaveBlock_moves {P : List Part} {z : State} {s : State} {l : Fin 2} {t : Fin 8} {b : RBlock} (hP : within [.regs, .sense] P = true) (h : Moves P z s) :
    Moves P z (Machine.leaveBlock s l t b) := by
  unfold Machine.leaveBlock
  extract_lets +onlyGivenNames q0
  clear_value q0
  refine Moves.ite ?_ ?_
  · extract_lets +onlyGivenNames q1
    clear_value q1
    extract_lets +onlyGivenNames q2
    have h2 : Moves P z q2 := by
      unfold q2
      with_reducible apply Moves.setSense (within_trans rfl hP)
      with_reducible assumption
    clear_value q2
    extract_lets +onlyGivenNames q3
    have h3 : Moves P z q3 := by
      unfold q3
      split
      · with_reducible assumption
      · with_reducible apply coilAttempt_moves (within_trans rfl hP)
        with_reducible assumption
    clear_value q3
    with_reducible apply modRaman_moves (within_trans rfl hP)
    with_reducible assumption
  · with_reducible apply Moves.setSense (within_trans rfl hP)
    with_reducible assumption

theorem ramanSlice_moves {P : List Part} {z : State} {s : State} {l : Fin 2} {t : Fin 8} {blk : ℕ} {next : ℕ} (hP : within [.regs, .trav, .sense, .samples, .xbuf, .freeCtr] P = true) (h : Moves P z s) :
    Moves P z (Machine.ramanSlice s l t blk next).1 := by
  unfold Machine.ramanSlice
  split
  · extract_lets +onlyGivenNames q0
    clear_value q0
    extract_lets +onlyGivenNames q1
    clear_value q1
    extract_lets +onlyGivenNames q2
    clear_value q2
    extract_lets +onlyGivenNames q3
    clear_value q3
    extract_lets +onlyGivenNames q4
    have h4 : Moves P z q4 := by
      unfold q4
      with_reducible apply setFS_moves (within_trans rfl hP)
      with_reducible apply setFS_moves (within_trans rfl hP)
      with_reducible apply deliverCells_moves (within_trans rfl hP)
      with_reducible assumption
    clear_value q4
    extract_lets +onlyGivenNames q5
    have h5 : Moves P z q5 := by
      unfold q5
      refine Moves.folded (fun _ _ _ => ?_) ?_
      · with_reducible apply ramanStationSt_moves (within_trans rfl hP)
        with_reducible assumption
      · with_reducible assumption
    clear_value q5
    extract_lets +onlyGivenNames q6
    have h6 : Moves P z q6 := by
      unfold q6
      with_reducible apply addBusy_moves (within_trans rfl hP)
      with_reducible assumption
    clear_value q6
    refine Moves.iteFst ?_ ?_
    · refine Moves.fst ?_
      with_reducible assumption
    · extract_lets +onlyGivenNames q7
      clear_value q7
      extract_lets +onlyGivenNames q8
      clear_value q8
      refine Moves.fst ?_
      with_reducible apply leaveBlock_moves (within_trans rfl hP)
      with_reducible apply addBusy_moves (within_trans rfl hP)
      with_reducible assumption
  · refine Moves.fst ?_
    with_reducible assumption

theorem ramanSlice_moves_eq {P : List Part} {z : State} {s : State} {l : Fin 2} {t : Fin 8} {blk : ℕ} {next : ℕ} {tt : State} {x1}
    (e0 : Machine.ramanSlice s l t blk next = (tt, x1)) (hP : within [.regs, .trav, .sense, .samples, .xbuf, .freeCtr] P = true) (h : Moves P z s) : Moves P z tt := by
  have k := ramanSlice_moves (P := P) (z := z) (hP := hP) (h := h) (l := l) (t := t) (blk := blk) (next := next)
  rw [e0] at k
  exact k

theorem fuseStation_moves {P : List Part} {z : State} {k : ℕ} {gate : ℕ} {n : ℕ} {b : RBlock} {epoch : ℕ} {g : ℕ} {l : ℕ} {t : Fin 8} {s : State} {st : ℕ} (hP : within [.regs, .sense, .samples, .freeCtr] P = true) (h : Moves P z s) :
    Moves P z (Machine.fuseStation k gate n b epoch g l t s st) := by
  unfold Machine.fuseStation
  extract_lets +onlyGivenNames q0
  clear_value q0
  extract_lets +onlyGivenNames q1
  extract_lets +onlyGivenNames q2
  clear_value q2
  extract_lets +onlyGivenNames q3
  refine Moves.ite ?_ ?_
  · unfold q3
    with_reducible apply emitProduct_moves (within_trans rfl hP)
    with_reducible apply emitProduct_moves (within_trans rfl hP)
    with_reducible apply emitProduct_moves (within_trans rfl hP)
    with_reducible assumption
  · split
    extract_lets +onlyGivenNames q4
    clear_value q4
    refine Moves.ite ?_ ?_
    · split
      split
      unfold q3
      with_reducible apply emitProduct_moves (within_trans rfl hP)
      with_reducible apply emitProduct_moves (within_trans rfl hP)
      with_reducible apply emitProduct_moves (within_trans rfl hP)
      refine draw_moves_eq (by assumption) (within_trans rfl hP) ?_
      refine draw_moves_eq (by assumption) (within_trans rfl hP) ?_
      with_reducible assumption
    · extract_lets +onlyGivenNames q5
      clear_value q5
      extract_lets +onlyGivenNames q6
      clear_value q6
      extract_lets +onlyGivenNames q7
      clear_value q7
      split
      extract_lets +onlyGivenNames q8
      clear_value q8
      extract_lets +onlyGivenNames q9
      have h9 : Moves P z q9 := by
        unfold q9
        with_reducible apply Moves.setSense (within_trans rfl hP)
        with_reducible assumption
      clear_value q9
      extract_lets +onlyGivenNames q10
      have h10 : Moves P z q10 := by
        unfold q10
        refine Moves.ite ?_ ?_
        · with_reducible apply bump_moves (within_trans rfl hP)
          with_reducible assumption
        · with_reducible assumption
      clear_value q10
      extract_lets +onlyGivenNames q11
      have h11 : Moves P z q11 := by
        unfold q11
        refine Moves.ite ?_ ?_
        · with_reducible apply bump_moves (within_trans rfl hP)
          with_reducible assumption
        · with_reducible assumption
      clear_value q11
      extract_lets +onlyGivenNames q12
      clear_value q12
      refine Moves.ite ?_ ?_
      · extract_lets +onlyGivenNames q13
        clear_value q13
        unfold q3
        with_reducible apply emitProduct_moves (within_trans rfl hP)
        with_reducible apply emitProduct_moves (within_trans rfl hP)
        with_reducible apply emitProduct_moves (within_trans rfl hP)
        with_reducible assumption
      · unfold q3
        with_reducible apply emitProduct_moves (within_trans rfl hP)
        with_reducible apply emitProduct_moves (within_trans rfl hP)
        with_reducible apply emitProduct_moves (within_trans rfl hP)
        with_reducible assumption

theorem fuseTrav_moves {P : List Part} {z : State} {l : Fin 2} {b : RBlock} {s : State} {t : Fin 8} (hP : within [.regs, .trav, .sense, .samples, .dram, .freeCtr] P = true) (h : Moves P z s) :
    Moves P z (Machine.fuseTrav l b s t) := by
  unfold Machine.fuseTrav
  refine Moves.ite ?_ ?_
  · with_reducible assumption
  · extract_lets +onlyGivenNames q0
    clear_value q0
    split
    extract_lets +onlyGivenNames q1
    clear_value q1
    extract_lets +onlyGivenNames q2
    have h2 : Moves P z q2 := by
      unfold q2
      with_reducible apply modTrav_moves (within_trans rfl hP)
      with_reducible assumption
    clear_value q2
    extract_lets +onlyGivenNames q3
    have h3 : Moves P z q3 := by
      unfold q3
      refine Moves.forEach (fun _ _ _ => ?_) ?_
      · extract_lets +onlyGivenNames q4
        clear_value q4
        split
        with_reducible apply deliverTR_moves (within_trans rfl hP)
        with_reducible assumption
      · with_reducible assumption
    clear_value q3
    extract_lets +onlyGivenNames q5
    have h5 : Moves P z q5 := by
      unfold q5
      with_reducible apply addBusy_moves (within_trans rfl hP)
      with_reducible assumption
    clear_value q5
    split
    · with_reducible assumption
    · extract_lets +onlyGivenNames q6
      clear_value q6
      with_reducible apply addBusy_moves (within_trans rfl hP)
      refine Moves.folded (fun _ _ _ => ?_) ?_
      · with_reducible apply fuseStation_moves (within_trans rfl hP)
        with_reducible assumption
      · with_reducible assumption

theorem fusionSt_moves {P : List Part} {z : State} {l : Fin 2} {s : State} (hP : within [.regs, .trav, .sense, .samples, .dram, .freeCtr] P = true) (h : Moves P z s) :
    Moves P z (Machine.fusionSt l s) := by
  unfold Machine.fusionSt
  split
  · with_reducible assumption
  · refine Moves.folded (fun _ _ _ => ?_) ?_
    · with_reducible apply fuseTrav_moves (within_trans rfl hP)
      with_reducible assumption
    · with_reducible apply modRaman_moves (within_trans rfl hP)
      with_reducible assumption

end Sys2Proof.Laws
end

