-- ==== Sys2Proof/Laws/PassesMoves.lean ====
section
/-! SUPPORT. What each operation of Machine/Passes.lean can do: the parts of the state it changes, and that it keeps the
invariants. -/

namespace Sys2Proof.Laws
open Sys2Proof Sys2Proof.Machine Sys2Proof.Safety

theorem shotPassSt_moves {P : List Part} {z : State} {t : Fin 8} {s : State} (hP : within [.regs, .log, .trav, .pce, .sense, .samples, .dram, .freeCtr] P = true) (h : Moves P z s) :
    Moves P z (Machine.shotPassSt t s) := by
  unfold Machine.shotPassSt
  split
  · with_reducible assumption
  · split
    · with_reducible assumption
    · refine Moves.ite ?_ ?_
      · extract_lets +onlyGivenNames q0
        clear_value q0
        extract_lets +onlyGivenNames q1
        clear_value q1
        extract_lets +onlyGivenNames q2
        have h2 : Moves P z q2 := by
          unfold q2
          with_reducible apply enterPass_moves (within_trans rfl hP)
          with_reducible apply modTrav_moves (within_trans rfl hP)
          with_reducible assumption
        clear_value q2
        extract_lets +onlyGivenNames q3
        have h3 : Moves P z q3 := by
          unfold q3
          with_reducible apply modTrav_moves (within_trans rfl hP)
          with_reducible assumption
        clear_value q3
        extract_lets +onlyGivenNames q4
        have h4 : Moves P z q4 := by
          unfold q4
          with_reducible apply sweepPass_moves (within_trans rfl hP)
          with_reducible apply dasPass_moves (within_trans rfl hP)
          with_reducible assumption
        clear_value q4
        with_reducible apply modPce_moves (within_trans rfl hP)
        with_reducible assumption
      · with_reducible assumption

theorem enterSlice_moves {P : List Part} {z : State} {s : State} {t : Fin 8} {w : BgWork} (hP : within [.regs, .log, .trav, .freeCtr] P = true) (h : Moves P z s) :
    Moves P z (Machine.enterSlice s t w) := by
  unfold Machine.enterSlice
  extract_lets +onlyGivenNames q0
  have h0 : Moves P z q0 := by
    unfold q0
    split
    · with_reducible apply enterPass_moves (within_trans rfl hP)
      with_reducible assumption
    · extract_lets +onlyGivenNames q1
      clear_value q1
      with_reducible apply modTrav_moves (within_trans rfl hP)
      with_reducible apply enterPass_moves (within_trans rfl hP)
      with_reducible assumption
  clear_value q0
  with_reducible apply modTrav_moves (within_trans rfl hP)
  with_reducible assumption

theorem runSlice_moves {P : List Part} {z : State} {s : State} {t : Fin 8} {w : BgWork} (hP : within [.regs, .log, .trav, .sense, .samples, .dram, .xbuf, .freeCtr] P = true) (h : Moves P z s) :
    Moves P z (Machine.runSlice s t w) := by
  unfold Machine.runSlice
  extract_lets +onlyGivenNames q0
  have h0 : Moves P z q0 := by
    unfold q0
    with_reducible apply enterSlice_moves (within_trans rfl hP)
    with_reducible assumption
  clear_value q0
  split
  with_reducible apply modTrav_moves (within_trans rfl hP)
  refine Moves.ofEqFst (by assumption) ?_
  split
  · with_reducible apply outputSlice_moves (within_trans rfl hP)
    with_reducible assumption
  · split
    · refine Moves.fst ?_
      with_reducible assumption
    · with_reducible apply ramanSlice_moves (within_trans rfl hP)
      with_reducible assumption

theorem startWork_moves {P : List Part} {z : State} {s : State} {t : Fin 8} {output : Bool} (hP : within [.regs, .log, .trav, .sense, .samples, .dram, .xbuf, .freeCtr] P = true) (h : Moves P z s) :
    Moves P z (Machine.startWork s t output) := by
  unfold Machine.startWork
  extract_lets +onlyGivenNames q0
  clear_value q0
  split
  · extract_lets +onlyGivenNames q1
    clear_value q1
    refine Moves.ite ?_ ?_
    · with_reducible apply runSlice_moves (within_trans rfl hP)
      with_reducible apply modTrav_moves (within_trans rfl hP)
      with_reducible assumption
    · with_reducible assumption
  · with_reducible assumption

theorem servicePassSt_moves {P : List Part} {z : State} {t : Fin 8} {s : State} (hP : within [.regs, .log, .trav, .freeCtr] P = true) (h : Moves P z s) :
    Moves P z (Machine.servicePassSt t s) := by
  unfold Machine.servicePassSt
  extract_lets +onlyGivenNames q0
  clear_value q0
  refine Moves.ite ?_ ?_
  · with_reducible apply enterPass_moves (within_trans rfl hP)
    with_reducible assumption
  · with_reducible assumption

theorem sliceSt_moves {P : List Part} {z : State} {t : Fin 8} {s : State} (hP : within [.regs, .log, .trav, .sense, .samples, .dram, .xbuf, .freeCtr] P = true) (h : Moves P z s) :
    Moves P z (Machine.sliceSt t s) := by
  unfold Machine.sliceSt
  split
  · with_reducible assumption
  · extract_lets +onlyGivenNames q0
    clear_value q0
    refine Moves.ite ?_ ?_
    · with_reducible apply runSlice_moves (within_trans rfl hP)
      with_reducible assumption
    · with_reducible assumption

theorem passDropSt_moves {P : List Part} {z : State} {t : Fin 8} {s : State} (hP : within [.regs, .log, .trav] P = true) (h : Moves P z s) :
    Moves P z (Machine.passDropSt t s) := by
  unfold Machine.passDropSt
  extract_lets +onlyGivenNames q0
  clear_value q0
  refine Moves.ite ?_ ?_
  · with_reducible assumption
  · with_reducible apply logAt_moves (within_trans rfl hP)
    with_reducible apply modTrav_moves (within_trans rfl hP)
    with_reducible assumption

theorem zeroWindow_moves {P : List Part} {z : State} {s : State} {t : Fin 8} (hP : within [.trav] P = true) (h : Moves P z s) :
    Moves P z (Machine.zeroWindow s t) := by
  unfold Machine.zeroWindow
  with_reducible apply modTrav_moves (within_trans rfl hP)
  with_reducible assumption

theorem dropWork_moves {P : List Part} {z : State} {s : State} {t : Fin 8} (hP : within [.regs, .trav, .sense] P = true) (h : Moves P z s) :
    Moves P z (Machine.dropWork s t) := by
  unfold Machine.dropWork
  extract_lets +onlyGivenNames q0
  have h0 : Moves P z q0 := by
    unfold q0
    with_reducible apply modTrav_moves (within_trans rfl hP)
    with_reducible assumption
  clear_value q0
  split
  · split
    · with_reducible apply leaveBlock_moves (within_trans rfl hP)
      with_reducible assumption
    · with_reducible assumption
  · with_reducible assumption

theorem recoverTrav_moves {P : List Part} {z : State} {s : State} {t : Fin 8} (hP : within [.regs, .trav, .sense] P = true) (h : Moves P z s) :
    Moves P z (Machine.recoverTrav s t) := by
  unfold Machine.recoverTrav
  extract_lets +onlyGivenNames q0
  have h0 : Moves P z q0 := by
    unfold q0
    with_reducible apply modTrav_moves (within_trans rfl hP)
    with_reducible apply dropWork_moves (within_trans rfl hP)
    with_reducible assumption
  clear_value q0
  split
  · with_reducible assumption
  · extract_lets +onlyGivenNames q1
    have h1 : Moves P z q1 := by
      unfold q1
      refine Moves.folded (fun _ _ _ => ?_) ?_
      · with_reducible apply zeroWindow_moves (within_trans rfl hP)
        with_reducible assumption
      · with_reducible assumption
    clear_value q1
    split
    split
    extract_lets +onlyGivenNames q2
    clear_value q2
    extract_lets +onlyGivenNames q3
    clear_value q3
    extract_lets +onlyGivenNames q4
    have h4 : Moves P z q4 := by
      unfold q4
      with_reducible apply dropOpen_moves (within_trans rfl hP)
      with_reducible apply dasRestart_moves (within_trans rfl hP)
      with_reducible assumption
    clear_value q4
    with_reducible apply Moves.setSense (within_trans rfl hP)
    with_reducible assumption

theorem stopTrav_moves {P : List Part} {z : State} {s : State} {t : Fin 8} (hP : within [.trav] P = true) (h : Moves P z s) :
    Moves P z (Machine.stopTrav s t) := by
  unfold Machine.stopTrav
  with_reducible apply modTrav_moves (within_trans rfl hP)
  with_reducible assumption

end Sys2Proof.Laws
end

