-- ==== Sys2Proof/Laws/StreamsMoves.lean ====
section
/-! SUPPORT. What each operation of Machine/Streams.lean can do: the parts of the state it changes, and that it keeps the
invariants. -/

namespace Sys2Proof.Laws
open Sys2Proof Sys2Proof.Machine Sys2Proof.Safety

theorem modStrm_moves {P : List Part} {z : State} {s : State} {n : ℕ} {f : StreamSt → StreamSt} (hP : within [.streams] P = true) (h : Moves P z s) :
    Moves P z (Machine.modStrm s n f) := by
  unfold Machine.modStrm
  with_reducible apply Moves.setStreams (within_trans rfl hP)
  with_reducible assumption

theorem sendLinks_moves {P : List Part} {z : State} {s : State} {ls : List (Fin 3)} {ftype : ℕ} {ws : List Word} (hP : within [.net] P = true) (h : Moves P z s) :
    Moves P z (Machine.sendLinks s ls ftype ws).1 := by
  unfold Machine.sendLinks
  refine Moves.foldFst (fun _ _ _ => ?_) ?_
  · split
    refine Moves.fst ?_
    refine sendOn_moves_eq (by assumption) (within_trans rfl hP) ?_
    with_reducible assumption
  · refine Moves.fst ?_
    with_reducible assumption

theorem sendLinks_moves_eq {P : List Part} {z : State} {s : State} {ls : List (Fin 3)} {ftype : ℕ} {ws : List Word} {tt : State} {x1}
    (e0 : Machine.sendLinks s ls ftype ws = (tt, x1)) (hP : within [.net] P = true) (h : Moves P z s) : Moves P z tt := by
  have k := sendLinks_moves (P := P) (z := z) (hP := hP) (h := h) (ls := ls) (ftype := ftype) (ws := ws)
  rw [e0] at k
  exact k

theorem ringDrop_moves {P : List Part} {z : State} {s : State} {j : CodeJob} (hP : within [.regs, .code] P = true) (h : Moves P z s) :
    Moves P z (Machine.ringDrop s j) := by
  unfold Machine.ringDrop
  extract_lets +onlyGivenNames q0
  clear_value q0
  with_reducible apply bump_moves (within_trans rfl hP)
  with_reducible apply Moves.setCode (within_trans rfl hP)
  with_reducible assumption

theorem sendFrame_moves {P : List Part} {z : State} {s : State} {c : StreamCfg} {event : Bool} {prio : Bool} {coded : Bool} {dest : ℕ} {ws : List Word} {m : ℕ} {e : ℕ} {seq : ℕ} {stamp : ℕ} {epoch : ℕ} (hP : within [.regs, .net, .code] P = true) (h : Moves P z s) :
    Moves P z (Machine.sendFrame s c event prio coded dest ws m e seq stamp epoch) := by
  unfold Machine.sendFrame
  extract_lets +onlyGivenNames q0
  clear_value q0
  extract_lets +onlyGivenNames q1
  clear_value q1
  extract_lets +onlyGivenNames q2
  clear_value q2
  extract_lets +onlyGivenNames q3
  clear_value q3
  extract_lets +onlyGivenNames q4
  have h4 : Moves P z q4 := by
    unfold q4
    refine Moves.ite ?_ ?_
    · with_reducible apply bumpBy_moves (within_trans rfl hP)
      with_reducible assumption
    · with_reducible assumption
  clear_value q4
  split
  refine Moves.ite ?_ ?_
  · refine Moves.ite ?_ ?_
    · refine sendLinks_moves_eq (by assumption) (within_trans rfl hP) ?_
      with_reducible assumption
    · with_reducible apply bump_moves (within_trans rfl hP)
      refine sendLinks_moves_eq (by assumption) (within_trans rfl hP) ?_
      with_reducible assumption
  · extract_lets +onlyGivenNames q5
    clear_value q5
    refine Moves.ite ?_ ?_
    · with_reducible apply Moves.setCode (within_trans rfl hP)
      refine sendLinks_moves_eq (by assumption) (within_trans rfl hP) ?_
      with_reducible assumption
    · split
      extract_lets +onlyGivenNames q6
      have h6 : Moves P z q6 := by
        unfold q6
        with_reducible apply bump_moves (within_trans rfl hP)
        refine Moves.ite ?_ ?_
        · with_reducible apply ringDrop_moves (within_trans rfl hP)
          refine sendLinks_moves_eq (by assumption) (within_trans rfl hP) ?_
          refine sendLinks_moves_eq (by assumption) (within_trans rfl hP) ?_
          with_reducible assumption
        · refine sendLinks_moves_eq (by assumption) (within_trans rfl hP) ?_
          refine sendLinks_moves_eq (by assumption) (within_trans rfl hP) ?_
          with_reducible assumption
      clear_value q6
      refine Moves.ite ?_ ?_
      · with_reducible assumption
      · with_reducible apply bump_moves (within_trans rfl hP)
        with_reducible assumption

theorem detSummary_moves {P : List Part} {z : State} {s : State} {c : StreamCfg} {d : Fin 4} {now : ℕ} (hP : within [.streams] P = true) (h : Moves P z s) :
    Moves P z (Machine.detSummary s c d now).1 := by
  unfold Machine.detSummary
  extract_lets +onlyGivenNames q0
  clear_value q0
  refine Moves.iteFst ?_ ?_
  · refine Moves.fst ?_
    with_reducible apply modStrm_moves (within_trans rfl hP)
    with_reducible assumption
  · refine Moves.fst ?_
    with_reducible assumption

theorem detSummary_moves_eq {P : List Part} {z : State} {s : State} {c : StreamCfg} {d : Fin 4} {now : ℕ} {tt : State} {x1}
    (e0 : Machine.detSummary s c d now = (tt, x1)) (hP : within [.streams] P = true) (h : Moves P z s) : Moves P z tt := by
  have k := detSummary_moves (P := P) (z := z) (hP := hP) (h := h) (c := c) (d := d) (now := now)
  rw [e0] at k
  exact k

theorem detAdmit_moves {P : List Part} {z : State} {s : State} {c : StreamCfg} {e : DetEvent} (hP : within [.regs, .streams] P = true) (h : Moves P z s) :
    Moves P z (Machine.detAdmit s c e).1 := by
  unfold Machine.detAdmit
  split
  extract_lets +onlyGivenNames q0
  clear_value q0
  refine Moves.iteFst ?_ ?_
  · refine Moves.fst ?_
    with_reducible apply bump_moves (within_trans rfl hP)
    with_reducible apply modStrm_moves (within_trans rfl hP)
    refine detSummary_moves_eq (by assumption) (within_trans rfl hP) ?_
    with_reducible assumption
  · refine Moves.fst ?_
    with_reducible apply modStrm_moves (within_trans rfl hP)
    refine detSummary_moves_eq (by assumption) (within_trans rfl hP) ?_
    with_reducible assumption

theorem detAdmit_moves_eq {P : List Part} {z : State} {s : State} {c : StreamCfg} {e : DetEvent} {tt : State} {x1}
    (e0 : Machine.detAdmit s c e = (tt, x1)) (hP : within [.regs, .streams] P = true) (h : Moves P z s) : Moves P z tt := by
  have k := detAdmit_moves (P := P) (z := z) (hP := hP) (h := h) (c := c) (e := e)
  rw [e0] at k
  exact k

theorem sendEvents_moves {P : List Part} {z : State} {c : StreamCfg} {stamp : ℕ} {a2 : ℕ} {a3 : List (List Word)} {a4 : State} (hP : within [.regs, .net, .streams, .code] P = true) (h : Moves P z a4) :
    Moves P z (Machine.sendEvents c stamp a2 a3 a4) := by
  induction a2 generalizing a3 a4 with
  | zero => unfold sendEvents; exact h
  | succ n ih =>
    cases a3 with
    | nil => unfold sendEvents; exact h
    | cons r rs =>
      unfold sendEvents
      extract_lets now seq ws s1 first
      exact ih (sendFrame_moves (within_trans rfl hP) (modStrm_moves (within_trans rfl hP) h))

theorem emitEvents_moves {P : List Part} {z : State} {s : State} {c : StreamCfg} {stamp : ℕ} {es : List DetEvent} (hP : within [.regs, .net, .streams, .code] P = true) (h : Moves P z s) :
    Moves P z (Machine.emitEvents s c stamp es) := by
  unfold Machine.emitEvents
  split
  with_reducible apply sendEvents_moves (within_trans rfl hP)
  refine Moves.ofEqFst (by assumption) ?_
  refine Moves.foldFst (fun _ _ _ => ?_) ?_
  · split
    refine Moves.fst ?_
    refine detAdmit_moves_eq (by assumption) (within_trans rfl hP) ?_
    with_reducible assumption
  · refine Moves.fst ?_
    with_reducible assumption

theorem summarySt_moves {P : List Part} {z : State} {n : ℕ} {d : Fin 4} {s : State} (hP : within [.regs, .net, .streams, .code] P = true) (h : Moves P z s) :
    Moves P z (Machine.summarySt n d s) := by
  unfold Machine.summarySt
  split
  · with_reducible assumption
  · split
    with_reducible apply sendEvents_moves (within_trans rfl hP)
    refine detSummary_moves_eq (by assumption) (within_trans rfl hP) ?_
    with_reducible assumption

theorem restartChains_moves {P : List Part} {z : State} {s : State} {c : StreamCfg} {stamp : ℕ} {late : Bool} {p : ℕ → Bool} (hP : within [.regs, .net, .streams, .code] P = true) (h : Moves P z s) :
    Moves P z (Machine.restartChains s c stamp late p) := by
  unfold Machine.restartChains
  extract_lets +onlyGivenNames q0
  clear_value q0
  extract_lets +onlyGivenNames q1
  clear_value q1
  extract_lets +onlyGivenNames q2
  clear_value q2
  extract_lets +onlyGivenNames q3
  have h3 : Moves P z q3 := by
    unfold q3
    with_reducible apply modStrm_moves (within_trans rfl hP)
    with_reducible assumption
  clear_value q3
  with_reducible apply emitEvents_moves (within_trans rfl hP)
  with_reducible assumption

theorem restartStream_moves {P : List Part} {z : State} {s : State} {c : StreamCfg} {drop : Bool} (hP : within [.regs, .net, .streams, .code] P = true) (h : Moves P z s) :
    Moves P z (Machine.restartStream s c drop) := by
  unfold Machine.restartStream
  extract_lets +onlyGivenNames q0
  have h0 : Moves P z q0 := by
    unfold q0
    with_reducible apply restartChains_moves (within_trans rfl hP)
    with_reducible assumption
  clear_value q0
  with_reducible apply modStrm_moves (within_trans rfl hP)
  with_reducible assumption

theorem restartLineStreams_moves {P : List Part} {z : State} {s : State} {l : ℕ} {drop : Bool} (hP : within [.regs, .net, .streams, .code] P = true) (h : Moves P z s) :
    Moves P z (Machine.restartLineStreams s l drop) := by
  unfold Machine.restartLineStreams
  refine Moves.forEach (fun _ _ _ => ?_) ?_
  · with_reducible apply restartStream_moves (within_trans rfl hP)
    with_reducible assumption
  · with_reducible assumption

theorem restartTravStreams_moves {P : List Part} {z : State} {s : State} {t : Fin 8} (hP : within [.regs, .net, .streams, .code] P = true) (h : Moves P z s) :
    Moves P z (Machine.restartTravStreams s t) := by
  unfold Machine.restartTravStreams
  refine Moves.forEach (fun _ _ _ => ?_) ?_
  · with_reducible apply restartChains_moves (within_trans rfl hP)
    with_reducible assumption
  · with_reducible assumption

theorem clearStreamCounters_moves {P : List Part} {z : State} {s : State} {n : ℕ} (hP : within [.regs] P = true) (h : Moves P z s) :
    Moves P z (Machine.clearStreamCounters s n) := by
  unfold Machine.clearStreamCounters
  extract_lets +onlyGivenNames q0
  clear_value q0
  refine Moves.folded (fun _ _ _ => ?_) ?_
  · with_reducible apply setF_moves (within_trans rfl hP)
    with_reducible assumption
  · with_reducible assumption

theorem streamResetSt_moves {P : List Part} {z : State} {n : ℕ} {s : State} (hP : within [.regs, .net, .streams, .code] P = true) (h : Moves P z s) :
    Moves P z (Machine.streamResetSt n s) := by
  unfold Machine.streamResetSt
  split
  · with_reducible assumption
  · with_reducible apply modStrm_moves (within_trans rfl hP)
    with_reducible apply clearStreamCounters_moves (within_trans rfl hP)
    with_reducible apply restartStream_moves (within_trans rfl hP)
    with_reducible assumption

theorem startStream_moves {P : List Part} {z : State} {s : State} {p : List Word} (hP : within [.regs, .net, .streams, .code] P = true) (h : Moves P z s) :
    Moves P z (Machine.startStream s p) := by
  unfold Machine.startStream
  extract_lets +onlyGivenNames q0
  clear_value q0
  extract_lets +onlyGivenNames q1
  clear_value q1
  extract_lets +onlyGivenNames q2
  clear_value q2
  extract_lets +onlyGivenNames q3
  have h3 : Moves P z q3 := by
    unfold q3
    refine Moves.folded (fun _ _ _ => ?_) ?_
    · with_reducible apply setF_moves (within_trans rfl hP)
      with_reducible assumption
    · with_reducible assumption
  clear_value q3
  extract_lets +onlyGivenNames q4
  clear_value q4
  extract_lets +onlyGivenNames q5
  clear_value q5
  extract_lets +onlyGivenNames q6
  have h6 : Moves P z q6 := by
    unfold q6
    with_reducible apply Moves.setStreams (within_trans rfl hP)
    with_reducible assumption
  clear_value q6
  with_reducible apply restartChains_moves (within_trans rfl hP)
  with_reducible apply clearStreamCounters_moves (within_trans rfl hP)
  with_reducible assumption

theorem putDetector_moves {P : List Part} {z : State} {s : State} {p : List Word} (hP : within [.regs] P = true) (h : Moves P z s) :
    Moves P z (Machine.putDetector s p) := by
  unfold Machine.putDetector
  extract_lets +onlyGivenNames q0
  clear_value q0
  extract_lets +onlyGivenNames q1
  clear_value q1
  refine Moves.folded (fun _ _ _ => ?_) ?_
  · with_reducible apply setF_moves (within_trans rfl hP)
    with_reducible assumption
  · with_reducible assumption

theorem takeSwap_moves {P : List Part} {z : State} {s : State} {n : ℕ} {target : ℕ} {len : ℕ} (hP : within [.regs, .streams] P = true) (h : Moves P z s) :
    Moves P z (Machine.takeSwap s n target len) := by
  unfold Machine.takeSwap
  extract_lets +onlyGivenNames q0
  clear_value q0
  split
  · refine Moves.ite ?_ ?_
    · with_reducible assumption
    · with_reducible apply modStrm_moves (within_trans rfl hP)
      with_reducible assumption
  · extract_lets +onlyGivenNames q1
    have h1 : Moves P z q1 := by
      unfold q1
      refine Moves.ite ?_ ?_
      · with_reducible apply bump_moves (within_trans rfl hP)
        with_reducible assumption
      · with_reducible assumption
    clear_value q1
    with_reducible apply modStrm_moves (within_trans rfl hP)
    with_reducible assumption

theorem swapRequestSt_moves {P : List Part} {z : State} {n : ℕ} {s : State} (hP : within [.regs, .fu] P = true) (h : Moves P z s) :
    Moves P z (Machine.swapRequestSt n s) := by
  unfold swapRequestSt
  split
  · exact h
  · split
    · exact h
    · exact Moves.setFu (within_trans rfl hP) (Nat.le_of_eq rfl) (setF_moves (within_trans rfl hP) h)

theorem coefWrite_moves {P : List Part} {z : State} {s : State} {n : ℕ} {v : ℕ} (hP : within [.regs, .streams] P = true) (h : Moves P z s) :
    Moves P z (Machine.coefWrite s n v).1 := by
  unfold Machine.coefWrite
  split
  · refine Moves.fst ?_
    with_reducible assumption
  · extract_lets +onlyGivenNames q0
    clear_value q0
    extract_lets +onlyGivenNames q1
    clear_value q1
    refine Moves.iteFst ?_ ?_
    · refine Moves.fst ?_
      with_reducible assumption
    · refine Moves.iteFst ?_ ?_
      · refine Moves.fst ?_
        with_reducible apply modStrm_moves (within_trans rfl hP)
        with_reducible assumption
      · refine Moves.fst ?_
        with_reducible apply bump_moves (within_trans rfl hP)
        with_reducible assumption

theorem coefWrite_moves_eq {P : List Part} {z : State} {s : State} {n : ℕ} {v : ℕ} {tt : State} {x1}
    (e0 : Machine.coefWrite s n v = (tt, x1)) (hP : within [.regs, .streams] P = true) (h : Moves P z s) : Moves P z tt := by
  have k := coefWrite_moves (P := P) (z := z) (hP := hP) (h := h) (n := n) (v := v)
  rw [e0] at k
  exact k

theorem addSync_moves {P : List Part} {z : State} {s : State} {n : ℕ} {ts : ℕ} (hP : within [.regs, .log, .streams] P = true) (h : Moves P z s) :
    Moves P z (Machine.addSync s n ts) := by
  unfold Machine.addSync
  split
  · with_reducible assumption
  · extract_lets +onlyGivenNames q0
    clear_value q0
    extract_lets +onlyGivenNames q1
    clear_value q1
    refine Moves.ite ?_ ?_
    · with_reducible apply logEvent_moves (within_trans rfl hP)
      with_reducible assumption
    · extract_lets +onlyGivenNames q2
      have h2 : Moves P z q2 := by
        unfold q2
        refine Moves.ite ?_ ?_
        · with_reducible apply bump_moves (within_trans rfl hP)
          with_reducible assumption
        · with_reducible assumption
      clear_value q2
      with_reducible apply modStrm_moves (within_trans rfl hP)
      with_reducible assumption

theorem syncMask_moves {P : List Part} {z : State} {s : State} {mask : ℕ} {ts : ℕ} (hP : within [.regs, .log, .streams] P = true) (h : Moves P z s) :
    Moves P z (Machine.syncMask s mask ts) := by
  unfold Machine.syncMask
  refine Moves.folded (fun _ _ _ => ?_) ?_
  · with_reducible apply addSync_moves (within_trans rfl hP)
    with_reducible assumption
  · with_reducible assumption

theorem syncEdgeSt_moves {P : List Part} {z : State} {s : State} (hP : within [.regs, .log, .streams] P = true) (h : Moves P z s) :
    Moves P z (Machine.syncEdgeSt s) := by
  unfold Machine.syncEdgeSt
  refine Moves.forEach (fun _ _ _ => ?_) ?_
  · with_reducible apply addSync_moves (within_trans rfl hP)
    with_reducible assumption
  · with_reducible assumption

theorem sendRow_moves {P : List Part} {z : State} {s : State} {c : StreamCfg} {stamp : ℕ} {row : List RowCell} (hP : within [.regs, .net, .streams, .code] P = true) (h : Moves P z s) :
    Moves P z (Machine.sendRow s c stamp row) := by
  unfold Machine.sendRow
  refine Moves.ite ?_ ?_
  · with_reducible assumption
  · extract_lets +onlyGivenNames q0
    clear_value q0
    extract_lets +onlyGivenNames q1
    clear_value q1
    extract_lets +onlyGivenNames q2
    clear_value q2
    refine Moves.folded (fun _ _ _ => ?_) ?_
    · extract_lets +onlyGivenNames q3
      clear_value q3
      extract_lets +onlyGivenNames q4
      clear_value q4
      extract_lets +onlyGivenNames q5
      have h5 : Moves P z q5 := by
        unfold q5
        with_reducible apply modStrm_moves (within_trans rfl hP)
        with_reducible assumption
      clear_value q5
      extract_lets +onlyGivenNames q6
      clear_value q6
      with_reducible apply sendFrame_moves (within_trans rfl hP)
      with_reducible assumption
    · with_reducible assumption

theorem runDetectors_moves {P : List Part} {z : State} {s : State} {c : StreamCfg} {stamp : ℕ} {row : List RowCell} (hP : within [.regs, .net, .streams, .code] P = true) (h : Moves P z s) :
    Moves P z (Machine.runDetectors s c stamp row) := by
  unfold Machine.runDetectors
  extract_lets +onlyGivenNames q0
  clear_value q0
  refine Moves.ite ?_ ?_
  · with_reducible assumption
  · split
    with_reducible apply emitEvents_moves (within_trans rfl hP)
    refine Moves.ofEqFst (by assumption) ?_
    refine Moves.foldFst (fun _ _ _ => ?_) ?_
    · refine Moves.iteFst ?_ ?_
      · with_reducible assumption
      · refine Moves.foldFst (fun _ _ _ => ?_) ?_
        · extract_lets +onlyGivenNames q1
          clear_value q1
          split
          extract_lets +onlyGivenNames q2
          have h2 : Moves P z q2 := by
            unfold q2
            with_reducible apply modStrm_moves (within_trans rfl hP)
            with_reducible assumption
          clear_value q2
          split
          · refine Moves.fst ?_
            with_reducible assumption
          · refine Moves.fst ?_
            with_reducible assumption
        · with_reducible assumption
    · refine Moves.fst ?_
      with_reducible assumption

theorem dueSyncs_moves {P : List Part} {z : State} {s : State} {c : StreamCfg} {stamp : ℕ} (hP : within [.regs, .net, .streams, .code] P = true) (h : Moves P z s) :
    Moves P z (Machine.dueSyncs s c stamp) := by
  unfold Machine.dueSyncs
  extract_lets +onlyGivenNames q0
  clear_value q0
  extract_lets +onlyGivenNames q1
  clear_value q1
  refine Moves.ite ?_ ?_
  · with_reducible assumption
  · extract_lets +onlyGivenNames q2
    have h2 : Moves P z q2 := by
      unfold q2
      with_reducible apply modStrm_moves (within_trans rfl hP)
      with_reducible assumption
    clear_value q2
    with_reducible apply restartChains_moves (within_trans rfl hP)
    with_reducible apply bumpBy_moves (within_trans rfl hP)
    with_reducible assumption

theorem gridInput_moves {P : List Part} {z : State} {c : StreamCfg} {have_ : Bool} {s0 : State} {stamp : ℕ} (hP : within [.regs, .net, .zn, .streams, .code] P = true) (h : Moves P z s0) :
    Moves P z (Machine.gridInput c have_ s0 stamp) := by
  unfold Machine.gridInput
  extract_lets +onlyGivenNames q0
  have h0 : Moves P z q0 := by
    unfold q0
    with_reducible apply dueSyncs_moves (within_trans rfl hP)
    with_reducible assumption
  clear_value q0
  extract_lets +onlyGivenNames q1
  clear_value q1
  extract_lets +onlyGivenNames q2
  clear_value q2
  extract_lets +onlyGivenNames q3
  clear_value q3
  extract_lets +onlyGivenNames q4
  clear_value q4
  extract_lets +onlyGivenNames q5
  clear_value q5
  extract_lets +onlyGivenNames q6
  clear_value q6
  extract_lets +onlyGivenNames q7
  have h7 : Moves P z q7 := by
    unfold q7
    with_reducible apply modStrm_moves (within_trans rfl hP)
    with_reducible assumption
  clear_value q7
  extract_lets +onlyGivenNames q8
  have h8 : Moves P z q8 := by
    unfold q8
    with_reducible apply bumpBy_moves (within_trans rfl hP)
    with_reducible apply bumpBy_moves (within_trans rfl hP)
    with_reducible assumption
  clear_value q8
  extract_lets +onlyGivenNames q9
  have h9 : Moves P z q9 := by
    unfold q9
    refine Moves.ite ?_ ?_
    · with_reducible apply setF_moves (within_trans rfl hP)
      with_reducible assumption
    · with_reducible assumption
  clear_value q9
  extract_lets +onlyGivenNames q10
  clear_value q10
  refine Moves.ite ?_ ?_
  · with_reducible assumption
  · extract_lets +onlyGivenNames q11
    have h11 : Moves P z q11 := by
      unfold q11
      with_reducible apply runDetectors_moves (within_trans rfl hP)
      with_reducible assumption
    clear_value q11
    extract_lets +onlyGivenNames q12
    have h12 : Moves P z q12 := by
      unfold q12
      with_reducible apply zonesRow_moves (within_trans rfl hP)
      with_reducible assumption
    clear_value q12
    with_reducible apply sendRow_moves (within_trans rfl hP)
    with_reducible assumption

theorem streamInputSt_moves {P : List Part} {z : State} {n : Fin 256} {stamp : ℕ} {s : State} (hP : within [.regs, .net, .zn, .streams, .code] P = true) (h : Moves P z s) :
    Moves P z (Machine.streamInputSt n stamp s) := by
  unfold Machine.streamInputSt
  split
  · with_reducible assumption
  · split
    · with_reducible assumption
    · refine Moves.ite ?_ ?_
      · with_reducible assumption
      · extract_lets +onlyGivenNames q0
        clear_value q0
        extract_lets +onlyGivenNames q1
        clear_value q1
        extract_lets +onlyGivenNames q2
        clear_value q2
        extract_lets +onlyGivenNames q3
        clear_value q3
        refine Moves.ite ?_ ?_
        · with_reducible assumption
        · extract_lets +onlyGivenNames q4
          clear_value q4
          extract_lets +onlyGivenNames q5
          have h5 : Moves P z q5 := by
            unfold q5
            with_reducible apply gridInput_moves (within_trans rfl hP)
            refine Moves.folded (fun _ _ _ => ?_) ?_
            · with_reducible apply gridInput_moves (within_trans rfl hP)
              with_reducible assumption
            · with_reducible assumption
          clear_value q5
          with_reducible apply modStrm_moves (within_trans rfl hP)
          with_reducible assumption

end Sys2Proof.Laws
end

