-- ==== Sys2Proof/Laws/RingMoves.lean ====
section
/-! SUPPORT. What each operation of Machine/Ring.lean can do: the parts of the state it changes, and that it keeps the
invariants. -/

namespace Sys2Proof.Laws
open Sys2Proof Sys2Proof.Machine Sys2Proof.Safety

theorem modCode_moves {P : List Part} {z : State} {s : State} {f : CodeSt → CodeSt} (hP : within [.code] P = true) (h : Moves P z s) :
    Moves P z (Machine.modCode s f) := by
  unfold Machine.modCode
  with_reducible apply Moves.setCode (within_trans rfl hP)
  with_reducible assumption

theorem c2Push_moves {P : List Part} {z : State} {s : State} {e : RingEntry} (hP : within [.code] P = true) (h : Moves P z s) :
    Moves P z (Machine.c2Push s e) := by
  unfold Machine.c2Push
  with_reducible apply modCode_moves (within_trans rfl hP)
  with_reducible assumption

theorem pushGap_moves {P : List Part} {z : State} {s : State} {n : ℕ} (hP : within [.code] P = true) (h : Moves P z s) :
    Moves P z (Machine.pushGap s n) := by
  unfold Machine.pushGap
  split
  · with_reducible assumption
  · refine Moves.ite ?_ ?_
    · extract_lets +onlyGivenNames q0
      have h0 : Moves P z q0 := by
        unfold q0
        with_reducible apply c2Push_moves (within_trans rfl hP)
        with_reducible assumption
      clear_value q0
      with_reducible apply modCode_moves (within_trans rfl hP)
      with_reducible assumption
    · with_reducible assumption

theorem pushDueGaps_moves {P : List Part} {z : State} {s : State} (hP : within [.code] P = true) (h : Moves P z s) :
    Moves P z (Machine.pushDueGaps s) := by
  unfold Machine.pushDueGaps
  refine Moves.forEach (fun _ _ _ => ?_) ?_
  · with_reducible apply pushGap_moves (within_trans rfl hP)
    with_reducible assumption
  · with_reducible assumption

theorem ringAdmit_moves {P : List Part} {z : State} {s : State} {j : CodeJob} {body : List Word} (hP : within [.regs, .code] P = true) (h : Moves P z s) :
    Moves P z (Machine.ringAdmit s j body) := by
  unfold Machine.ringAdmit
  extract_lets +onlyGivenNames q0
  have h0 : Moves P z q0 := by
    unfold q0
    with_reducible apply pushGap_moves (within_trans rfl hP)
    with_reducible apply pushDueGaps_moves (within_trans rfl hP)
    with_reducible assumption
  clear_value q0
  extract_lets +onlyGivenNames q1
  clear_value q1
  refine Moves.ite ?_ ?_
  · with_reducible apply c2Push_moves (within_trans rfl hP)
    with_reducible assumption
  · with_reducible apply ringDrop_moves (within_trans rfl hP)
    with_reducible assumption

theorem codeFrameSt_moves {P : List Part} {z : State} {s : State} (hP : within [.regs, .net, .code] P = true) (h : Moves P z s) :
    Moves P z (Machine.codeFrameSt s) := by
  unfold Machine.codeFrameSt
  split
  · with_reducible assumption
  · extract_lets +onlyGivenNames q0
    clear_value q0
    split
    extract_lets +onlyGivenNames q1
    have h1 : Moves P z q1 := by
      unfold q1
      with_reducible apply modCode_moves (within_trans rfl hP)
      with_reducible assumption
    clear_value q1
    extract_lets +onlyGivenNames q2
    have h2 : Moves P z q2 := by
      unfold q2
      refine Moves.ite ?_ ?_
      · with_reducible apply bump_moves (within_trans rfl hP)
        with_reducible assumption
      · with_reducible assumption
    clear_value q2
    extract_lets +onlyGivenNames q3
    clear_value q3
    split
    extract_lets +onlyGivenNames q4
    have h4 : Moves P z q4 := by
      unfold q4
      refine Moves.ite ?_ ?_
      · with_reducible apply ringAdmit_moves (within_trans rfl hP)
        refine sendLinks_moves_eq (by assumption) (within_trans rfl hP) ?_
        with_reducible assumption
      · refine sendLinks_moves_eq (by assumption) (within_trans rfl hP) ?_
        with_reducible assumption
    clear_value q4
    refine Moves.ite ?_ ?_
    · with_reducible apply bump_moves (within_trans rfl hP)
      with_reducible assumption
    · with_reducible assumption

theorem modCur_moves {P : List Part} {z : State} {s : State} {c : Fin 16} {f : CursorSt → CursorSt} (hP : within [.code] P = true) (h : Moves P z s) :
    Moves P z (Machine.modCur s c f) := by
  unfold Machine.modCur
  with_reducible apply modCode_moves (within_trans rfl hP)
  with_reducible assumption

theorem moveCur_moves {P : List Part} {z : State} {s : State} {c : Fin 16} {pos : ℕ} {count : Bool} (hP : within [.regs, .code] P = true) (h : Moves P z s) :
    Moves P z (Machine.moveCur s c pos count) := by
  unfold Machine.moveCur
  extract_lets +onlyGivenNames q0
  have h0 : Moves P z q0 := by
    unfold q0
    with_reducible apply setF_moves (within_trans rfl hP)
    with_reducible apply modCur_moves (within_trans rfl hP)
    with_reducible assumption
  clear_value q0
  refine Moves.ite ?_ ?_
  · with_reducible apply bump_moves (within_trans rfl hP)
    with_reducible assumption
  · with_reducible assumption

theorem setOldest_moves {P : List Part} {z : State} {s : State} {n : ℕ} (hP : within [.regs, .code] P = true) (h : Moves P z s) :
    Moves P z (Machine.setOldest s n) := by
  unfold Machine.setOldest
  refine Moves.folded (fun _ _ _ => ?_) ?_
  · refine Moves.ite ?_ ?_
    · with_reducible apply moveCur_moves (within_trans rfl hP)
      with_reducible assumption
    · with_reducible assumption
  · with_reducible apply modCode_moves (within_trans rfl hP)
    with_reducible assumption

theorem freeGranules_moves {P : List Part} {z : State} {s : State} {a : ℕ} {b : ℕ} (hP : within [.regs, .code] P = true) (h : Moves P z s) :
    Moves P z (Machine.freeGranules s a b) := by
  unfold Machine.freeGranules
  extract_lets +onlyGivenNames q0
  clear_value q0
  refine Moves.ite ?_ ?_
  · with_reducible assumption
  · extract_lets +onlyGivenNames q1
    clear_value q1
    with_reducible apply setOldest_moves (within_trans rfl hP)
    with_reducible apply modCode_moves (within_trans rfl hP)
    with_reducible assumption

theorem noteIndex_moves {P : List Part} {z : State} {s : State} {e : RingEntry} (hP : within [.code] P = true) (h : Moves P z s) :
    Moves P z (Machine.noteIndex s e) := by
  unfold Machine.noteIndex
  extract_lets +onlyGivenNames q0
  clear_value q0
  extract_lets +onlyGivenNames q1
  clear_value q1
  refine Moves.ite ?_ ?_
  · with_reducible apply modCode_moves (within_trans rfl hP)
    with_reducible assumption
  · with_reducible assumption

theorem putEntry_moves {P : List Part} {z : State} {s : State} {e0 : RingEntry} (hP : within [.regs, .code] P = true) (h : Moves P z s) :
    Moves P z (Machine.putEntry s e0) := by
  unfold Machine.putEntry
  extract_lets +onlyGivenNames q0
  clear_value q0
  extract_lets +onlyGivenNames q1
  have h1 : Moves P z q1 := by
    unfold q1
    with_reducible apply noteIndex_moves (within_trans rfl hP)
    with_reducible apply freeGranules_moves (within_trans rfl hP)
    with_reducible assumption
  clear_value q1
  extract_lets +onlyGivenNames q2
  clear_value q2
  with_reducible apply modCode_moves (within_trans rfl hP)
  with_reducible assumption

theorem wrapWriter_moves {P : List Part} {z : State} {s : State} {len : ℕ} (hP : within [.regs, .code] P = true) (h : Moves P z s) :
    Moves P z (Machine.wrapWriter s len) := by
  unfold Machine.wrapWriter
  extract_lets +onlyGivenNames q0
  clear_value q0
  refine Moves.ite ?_ ?_
  · with_reducible assumption
  · split
    · with_reducible apply modCode_moves (within_trans rfl hP)
      with_reducible assumption
    · extract_lets +onlyGivenNames q1
      have h1 : Moves P z q1 := by
        unfold q1
        refine Moves.ite ?_ ?_
        · with_reducible apply putEntry_moves (within_trans rfl hP)
          with_reducible assumption
        · with_reducible assumption
      clear_value q1
      with_reducible apply modCode_moves (within_trans rfl hP)
      with_reducible assumption

theorem ringWriteSt_moves {P : List Part} {z : State} {s : State} (hP : within [.regs, .code] P = true) (h : Moves P z s) :
    Moves P z (Machine.ringWriteSt s) := by
  unfold Machine.ringWriteSt
  split
  · with_reducible assumption
  · refine Moves.ite ?_ ?_
    · with_reducible assumption
    · with_reducible apply putEntry_moves (within_trans rfl hP)
      with_reducible apply wrapWriter_moves (within_trans rfl hP)
      with_reducible apply modCode_moves (within_trans rfl hP)
      with_reducible assumption

theorem shrinkRing_moves {P : List Part} {z : State} {s : State} {n : ℕ} (hP : within [.regs, .code] P = true) (h : Moves P z s) :
    Moves P z (Machine.shrinkRing s n) := by
  unfold Machine.shrinkRing
  extract_lets +onlyGivenNames q0
  clear_value q0
  extract_lets +onlyGivenNames q1
  clear_value q1
  extract_lets +onlyGivenNames q2
  clear_value q2
  extract_lets +onlyGivenNames q3
  clear_value q3
  extract_lets +onlyGivenNames q4
  clear_value q4
  extract_lets +onlyGivenNames q5
  have h5 : Moves P z q5 := by
    unfold q5
    with_reducible apply bumpBy_moves (within_trans rfl hP)
    with_reducible apply modCode_moves (within_trans rfl hP)
    with_reducible assumption
  clear_value q5
  refine Moves.folded (fun _ _ _ => ?_) ?_
  · refine Moves.ite ?_ ?_
    · with_reducible apply moveCur_moves (within_trans rfl hP)
      with_reducible assumption
    · with_reducible assumption
  · with_reducible assumption

theorem setRingLen_moves {P : List Part} {z : State} {s : State} {n : ℕ} (hP : within [.regs, .code] P = true) (h : Moves P z s) :
    Moves P z (Machine.setRingLen s n) := by
  unfold Machine.setRingLen
  refine Moves.ite ?_ ?_
  · with_reducible apply modCode_moves (within_trans rfl hP)
    with_reducible assumption
  · refine Moves.ite ?_ ?_
    · with_reducible apply modCode_moves (within_trans rfl hP)
      with_reducible assumption
    · with_reducible apply shrinkRing_moves (within_trans rfl hP)
      with_reducible assumption

theorem emptyRing_moves {P : List Part} {z : State} {s : State} (hP : within [.regs, .code] P = true) (h : Moves P z s) :
    Moves P z (Machine.emptyRing s) := by
  unfold Machine.emptyRing
  extract_lets +onlyGivenNames q0
  have h0 : Moves P z q0 := by
    unfold q0
    with_reducible apply bumpBy_moves (within_trans rfl hP)
    with_reducible apply modCode_moves (within_trans rfl hP)
    with_reducible assumption
  clear_value q0
  refine Moves.folded (fun _ _ _ => ?_) ?_
  · with_reducible apply moveCur_moves (within_trans rfl hP)
    with_reducible assumption
  · with_reducible assumption

theorem stopCursors_moves {P : List Part} {z : State} {s : State} (hP : within [.code] P = true) (h : Moves P z s) :
    Moves P z (Machine.stopCursors s) := by
  unfold Machine.stopCursors
  refine Moves.folded (fun _ _ _ => ?_) ?_
  · with_reducible apply modCur_moves (within_trans rfl hP)
    with_reducible assumption
  · with_reducible assumption

theorem ringWarm_moves {P : List Part} {z : State} {s : State} (hP : within [.regs, .code] P = true) (h : Moves P z s) :
    Moves P z (Machine.ringWarm s) := by
  unfold Machine.ringWarm
  with_reducible apply modCode_moves (within_trans rfl hP)
  refine Moves.forEach (fun _ _ _ => ?_) ?_
  · with_reducible apply bump_moves (within_trans rfl hP)
    with_reducible assumption
  · with_reducible assumption

theorem startRing_moves {P : List Part} {z : State} {s : State} (hP : within [.regs, .code] P = true) (h : Moves P z s) :
    Moves P z (Machine.startRing s) := by
  unfold Machine.startRing
  split
  · with_reducible assumption
  · with_reducible apply setF_moves (within_trans rfl hP)
    with_reducible apply modCode_moves (within_trans rfl hP)
    with_reducible assumption

theorem cursorStartSt_moves {P : List Part} {z : State} {c : Fin 16} {s : State} (hP : within [.regs, .code] P = true) (h : Moves P z s) :
    Moves P z (Machine.cursorStartSt c s) := by
  unfold Machine.cursorStartSt
  refine Moves.ite ?_ ?_
  · extract_lets +onlyGivenNames q0
    have h0 : Moves P z q0 := by
      unfold q0
      with_reducible apply setF_moves (within_trans rfl hP)
      with_reducible assumption
    clear_value q0
    with_reducible apply modCur_moves (within_trans rfl hP)
    with_reducible assumption
  · with_reducible assumption

theorem cursorStopSt_moves {P : List Part} {z : State} {c : Fin 16} {s : State} (hP : within [.code] P = true) (h : Moves P z s) :
    Moves P z (Machine.cursorStopSt c s) := by
  unfold Machine.cursorStopSt
  with_reducible apply modCur_moves (within_trans rfl hP)
  with_reducible assumption

theorem beginSeek_moves {P : List Part} {z : State} {c : Fin 16} {kind : ℕ} {v : ℕ} {s : State} (hP : within [.code] P = true) (h : Moves P z s) :
    Moves P z (Machine.beginSeek c kind v s) := by
  unfold Machine.beginSeek
  refine Moves.ite ?_ ?_
  · with_reducible apply modCur_moves (within_trans rfl hP)
    with_reducible assumption
  · with_reducible assumption

theorem seekDoneSt_moves {P : List Part} {z : State} {c : Fin 16} {s : State} (hP : within [.regs, .code] P = true) (h : Moves P z s) :
    Moves P z (Machine.seekDoneSt c s) := by
  unfold Machine.seekDoneSt
  extract_lets +onlyGivenNames q0
  clear_value q0
  split
  · with_reducible assumption
  · refine Moves.ite ?_ ?_
    · with_reducible assumption
    · extract_lets +onlyGivenNames q1
      clear_value q1
      extract_lets +onlyGivenNames q2
      clear_value q2
      extract_lets +onlyGivenNames q3
      split
      · unfold q3
        with_reducible apply modCur_moves (within_trans rfl hP)
        with_reducible apply modCur_moves (within_trans rfl hP)
        with_reducible assumption
      · unfold q3
        with_reducible apply modCur_moves (within_trans rfl hP)
        with_reducible apply modCur_moves (within_trans rfl hP)
        with_reducible assumption
      · refine Moves.ite ?_ ?_
        · unfold q3
          with_reducible apply modCur_moves (within_trans rfl hP)
          with_reducible apply moveCur_moves (within_trans rfl hP)
          with_reducible assumption
        · refine Moves.ite ?_ ?_
          · unfold q3
            with_reducible apply modCur_moves (within_trans rfl hP)
            with_reducible apply modCur_moves (within_trans rfl hP)
            with_reducible assumption
          · unfold q3
            with_reducible apply modCur_moves (within_trans rfl hP)
            with_reducible apply modCur_moves (within_trans rfl hP)
            with_reducible assumption
      · unfold q3
        with_reducible apply modCur_moves (within_trans rfl hP)
        with_reducible apply modCur_moves (within_trans rfl hP)
        with_reducible assumption

theorem endRun_moves {P : List Part} {z : State} {s : State} {c : Fin 16} (hP : within [.regs, .code] P = true) (h : Moves P z s) :
    Moves P z (Machine.endRun s c) := by
  unfold Machine.endRun
  with_reducible apply setF_moves (within_trans rfl hP)
  with_reducible apply modCur_moves (within_trans rfl hP)
  with_reducible assumption

theorem cursorReadSt_moves {P : List Part} {z : State} {c : Fin 16} {s : State} (hP : within [.regs, .net, .code] P = true) (h : Moves P z s) :
    Moves P z (Machine.cursorReadSt c s) := by
  unfold Machine.cursorReadSt
  extract_lets +onlyGivenNames q0
  clear_value q0
  refine Moves.ite ?_ ?_
  · with_reducible assumption
  · refine Moves.ite ?_ ?_
    · with_reducible apply modCur_moves (within_trans rfl hP)
      with_reducible assumption
    · extract_lets +onlyGivenNames q1
      clear_value q1
      extract_lets +onlyGivenNames q2
      clear_value q2
      split
      · refine Moves.ite ?_ ?_
        · with_reducible apply modCur_moves (within_trans rfl hP)
          with_reducible assumption
        · with_reducible apply endRun_moves (within_trans rfl hP)
          with_reducible assumption
      · extract_lets +onlyGivenNames q3
        clear_value q3
        extract_lets +onlyGivenNames q4
        clear_value q4
        extract_lets +onlyGivenNames q5
        clear_value q5
        extract_lets +onlyGivenNames q6
        clear_value q6
        split
        · extract_lets +onlyGivenNames q7
          have h7 : Moves P z q7 := by
            unfold q7
            with_reducible apply setF_moves (within_trans rfl hP)
            with_reducible apply bump_moves (within_trans rfl hP)
            with_reducible apply setF_moves (within_trans rfl hP)
            with_reducible assumption
          clear_value q7
          extract_lets +onlyGivenNames q8
          have h8 : Moves P z q8 := by
            unfold q8
            with_reducible apply modCur_moves (within_trans rfl hP)
            with_reducible assumption
          clear_value q8
          refine Moves.ite ?_ ?_
          · with_reducible apply endRun_moves (within_trans rfl hP)
            with_reducible assumption
          · with_reducible assumption
        · extract_lets +onlyGivenNames q9
          clear_value q9
          extract_lets +onlyGivenNames q10
          clear_value q10
          split
          refine Moves.ite ?_ ?_
          · extract_lets +onlyGivenNames q11
            have h11 : Moves P z q11 := by
              unfold q11
              with_reducible apply modCur_moves (within_trans rfl hP)
              refine sendOn_moves_eq (by assumption) (within_trans rfl hP) ?_
              with_reducible assumption
            clear_value q11
            refine Moves.ite ?_ ?_
            · with_reducible apply endRun_moves (within_trans rfl hP)
              with_reducible assumption
            · with_reducible assumption
          · with_reducible apply modCur_moves (within_trans rfl hP)
            with_reducible assumption

theorem applyCursor_moves {P : List Part} {z : State} {s : State} {p : List Word} (hP : within [.regs, .code] P = true) (h : Moves P z s) :
    Moves P z (Machine.applyCursor s p) := by
  unfold Machine.applyCursor
  split
  · with_reducible assumption
  · extract_lets +onlyGivenNames q0
    clear_value q0
    extract_lets +onlyGivenNames q1
    have h1 : Moves P z q1 := by
      unfold q1
      refine Moves.folded (fun _ _ _ => ?_) ?_
      · with_reducible apply setF_moves (within_trans rfl hP)
        with_reducible assumption
      · with_reducible assumption
    clear_value q1
    extract_lets +onlyGivenNames q2
    clear_value q2
    extract_lets +onlyGivenNames q3
    have h3 : Moves P z q3 := by
      unfold q3
      refine Moves.ite ?_ ?_
      · with_reducible assumption
      · with_reducible apply beginSeek_moves (within_trans rfl hP)
        with_reducible assumption
    clear_value q3
    refine Moves.ite ?_ ?_
    · with_reducible apply cursorStartSt_moves (within_trans rfl hP)
      with_reducible assumption
    · with_reducible apply cursorStopSt_moves (within_trans rfl hP)
      with_reducible assumption

end Sys2Proof.Laws
end

