-- ==== Sys2Proof/Laws/BudgetMoves.lean ====
section
/-! SUPPORT. What each operation of Machine/Budget.lean can do: the parts of the state it changes, and that it keeps the
invariants. -/

namespace Sys2Proof.Laws
open Sys2Proof Sys2Proof.Machine Sys2Proof.Safety

theorem withShed_moves {P : List Part} {z : State} {s : State} {x : List (ℕ × ℕ)} (hP : within [.book] P = true) (h : Moves P z s) :
    Moves P z (Machine.withShed s x) := by
  unfold Machine.withShed
  with_reducible apply Moves.setBook (within_trans rfl hP)
  with_reducible assumption

theorem markStopped_moves {P : List Part} {z : State} {s : State} (hP : within [.regs, .net, .zn] P = true) (h : Moves P z s) :
    Moves P z (Machine.markStopped s) := by
  unfold Machine.markStopped
  extract_lets +onlyGivenNames q0
  clear_value q0
  extract_lets +onlyGivenNames q1
  have h1 : Moves P z q1 := by
    unfold q1
    with_reducible apply markZones_moves (within_trans rfl hP)
    with_reducible assumption
  clear_value q1
  with_reducible apply markZones_moves (within_trans rfl hP)
  with_reducible assumption

theorem restoreProduct_moves {P : List Part} {z : State} {s : State} {x : ℕ × ℕ} (hP : within [.regs, .trav, .sense, .net, .streams, .code, .xbuf] P = true) (h : Moves P z s) :
    Moves P z (Machine.restoreProduct s x) := by
  unfold Machine.restoreProduct
  split
  · with_reducible assumption
  · extract_lets +onlyGivenNames q0
    clear_value q0
    extract_lets +onlyGivenNames q1
    have h1 : Moves P z q1 := by
      unfold q1
      refine Moves.ite ?_ ?_
      · with_reducible apply dasRestart_moves (within_trans rfl hP)
        refine Moves.folded (fun _ _ _ => ?_) ?_
        · with_reducible apply zeroWindow_moves (within_trans rfl hP)
          with_reducible assumption
        · with_reducible assumption
      · refine Moves.ite ?_ ?_
        · refine Moves.folded (fun _ _ _ => ?_) ?_
          · with_reducible apply dropOpen_moves (within_trans rfl hP)
            with_reducible assumption
          · with_reducible assumption
        · refine Moves.ite ?_ ?_
          · with_reducible apply ramanRestart_moves (within_trans rfl hP)
            with_reducible assumption
          · refine Moves.ite ?_ ?_
            · with_reducible apply seqRestart_moves (within_trans rfl hP)
              with_reducible apply Moves.setSense (within_trans rfl hP)
              with_reducible assumption
            · with_reducible assumption
    clear_value q1
    refine Moves.forEach (fun _ _ _ => ?_) ?_
    · with_reducible apply restartStream_moves (within_trans rfl hP)
      with_reducible assumption
    · with_reducible assumption

theorem evalBudgets_moves {P : List Part} {z : State} {s : State} (hP : within [.regs, .book, .log, .trav, .sense, .net, .zn, .streams, .code, .xbuf] P = true) (h : Moves P z s) :
    Moves P z (Machine.evalBudgets s) := by
  unfold Machine.evalBudgets
  extract_lets +onlyGivenNames q0
  clear_value q0
  extract_lets +onlyGivenNames q1
  clear_value q1
  extract_lets +onlyGivenNames q2
  have h2 : Moves P z q2 := by
    unfold q2
    with_reducible apply withShed_moves (within_trans rfl hP)
    with_reducible assumption
  clear_value q2
  extract_lets +onlyGivenNames q3
  have h3 : Moves P z q3 := by
    unfold q3
    refine Moves.forEach (fun _ _ _ => ?_) ?_
    · refine Moves.ite ?_ ?_
      · with_reducible apply stopCursors_moves (within_trans rfl hP)
        with_reducible assumption
      · with_reducible apply logEvent_moves (within_trans rfl hP)
        with_reducible assumption
    · with_reducible assumption
  clear_value q3
  extract_lets +onlyGivenNames q4
  have h4 : Moves P z q4 := by
    unfold q4
    refine Moves.forEach (fun _ _ _ => ?_) ?_
    · refine Moves.ite ?_ ?_
      · with_reducible assumption
      · with_reducible apply restoreProduct_moves (within_trans rfl hP)
        with_reducible apply logEvent_moves (within_trans rfl hP)
        with_reducible assumption
    · with_reducible assumption
  clear_value q4
  refine Moves.ite ?_ ?_
  · with_reducible assumption
  · with_reducible apply featureChanged_moves (within_trans rfl hP)
    with_reducible apply markStopped_moves (within_trans rfl hP)
    with_reducible assumption

theorem laneFail_moves {P : List Part} {z : State} {s : State} {t : Fin 8} {lane : ℕ} (hP : within [.regs, .book, .log, .fu, .trav, .pce, .sense, .net, .zn, .streams, .code, .xbuf] P = true) (h : Moves P z s) :
    Moves P z (Machine.laneFail s t lane) := by
  unfold Machine.laneFail
  extract_lets +onlyGivenNames q0
  clear_value q0
  extract_lets +onlyGivenNames q1
  have h1 : Moves P z q1 := by
    unfold q1
    with_reducible apply logEvent_moves (within_trans rfl hP)
    with_reducible apply stopTrav_moves (within_trans rfl hP)
    with_reducible assumption
  clear_value q1
  extract_lets +onlyGivenNames q2
  clear_value q2
  extract_lets +onlyGivenNames q3
  have h3 : Moves P z q3 := by
    unfold q3
    with_reducible apply Moves.setSense (within_trans rfl hP)
    with_reducible assumption
  clear_value q3
  extract_lets +onlyGivenNames q4
  have h4 : Moves P z q4 := by
    unfold q4
    refine Moves.folded (fun _ _ _ => ?_) ?_
    · with_reducible apply modPce_moves (within_trans rfl hP)
      with_reducible assumption
    · with_reducible assumption
  clear_value q4
  extract_lets +onlyGivenNames q5
  have h5 : Moves P z q5 := by
    unfold q5
    split
    · with_reducible assumption
    · refine Moves.folded (fun _ _ _ => ?_) ?_
      · with_reducible apply recoverTrav_moves (within_trans rfl hP)
        with_reducible assumption
      · with_reducible apply ramanRestart_moves (within_trans rfl hP)
        with_reducible apply dasRestart_moves (within_trans rfl hP)
        with_reducible assumption
  clear_value q5
  with_reducible apply proxyAck_moves (within_trans rfl hP)
  with_reducible apply evalBudgets_moves (within_trans rfl hP)
  with_reducible assumption

theorem recoveryPassSt_moves {P : List Part} {z : State} {t : Fin 8} {failLane : Option (Fin 64)} {s : State} (hP : within [.regs, .book, .log, .fu, .trav, .pce, .sense, .net, .zn, .streams, .code, .xbuf] P = true) (h : Moves P z s) :
    Moves P z (Machine.recoveryPassSt t failLane s) := by
  unfold Machine.recoveryPassSt
  extract_lets +onlyGivenNames q0
  clear_value q0
  refine Moves.ite ?_ ?_
  · split
    · with_reducible apply laneFail_moves (within_trans rfl hP)
      with_reducible assumption
    · with_reducible apply restartTravStreams_moves (within_trans rfl hP)
      with_reducible apply recoverTrav_moves (within_trans rfl hP)
      with_reducible assumption
  · with_reducible assumption

end Sys2Proof.Laws
end

