-- ==== Sys2Proof/Laws/QuadsMoves.lean ====
section
/-! SUPPORT. What each operation of Machine/Quads.lean can do: the parts of the state it changes, and that it keeps the
invariants. -/

namespace Sys2Proof.Laws
open Sys2Proof Sys2Proof.Machine Sys2Proof.Safety

theorem leaveActive_moves {P : List Part} {z : State} {s : State} {q : Fin 3} (hP : within [.net] P = true) (h : Moves P z s) :
    Moves P z (Machine.leaveActive s q) := by
  unfold Machine.leaveActive
  refine Moves.ite ?_ ?_
  · with_reducible apply modLink_moves (within_trans rfl hP)
    with_reducible assumption
  · with_reducible assumption

theorem toDetect_moves {P : List Part} {z : State} {s : State} {q : Fin 3} (hP : within [.net] P = true) (h : Moves P z s) :
    Moves P z (Machine.toDetect s q) := by
  unfold Machine.toDetect
  with_reducible apply modQuad_moves (within_trans rfl hP)
  with_reducible apply leaveActive_moves (within_trans rfl hP)
  with_reducible assumption

theorem toTrain_moves {P : List Part} {z : State} {s : State} {q : Fin 3} (hP : within [.net] P = true) (h : Moves P z s) :
    Moves P z (Machine.toTrain s q) := by
  unfold Machine.toTrain
  refine Moves.ite ?_ ?_
  · with_reducible assumption
  · with_reducible apply modQuad_moves (within_trans rfl hP)
    with_reducible apply leaveActive_moves (within_trans rfl hP)
    with_reducible assumption

theorem startAttempt_moves {P : List Part} {z : State} {s : State} {q : Fin 3} (hP : within [.net] P = true) (h : Moves P z s) :
    Moves P z (Machine.startAttempt s q) := by
  unfold Machine.startAttempt
  with_reducible apply modQuad_moves (within_trans rfl hP)
  with_reducible assumption

theorem newTrain_moves {P : List Part} {z : State} {s : State} {q : Fin 3} (hP : within [.net] P = true) (h : Moves P z s) :
    Moves P z (Machine.newTrain s q) := by
  unfold Machine.newTrain
  with_reducible apply toTrain_moves (within_trans rfl hP)
  with_reducible apply startAttempt_moves (within_trans rfl hP)
  with_reducible assumption

theorem toBlind_moves {P : List Part} {z : State} {s : State} {q : Fin 3} (hP : within [.net] P = true) (h : Moves P z s) :
    Moves P z (Machine.toBlind s q) := by
  unfold Machine.toBlind
  split
  · with_reducible assumption
  · refine Moves.ite ?_ ?_
    · with_reducible apply modQuad_moves (within_trans rfl hP)
      with_reducible apply startAttempt_moves (within_trans rfl hP)
      with_reducible apply leaveActive_moves (within_trans rfl hP)
      with_reducible assumption
    · with_reducible apply newTrain_moves (within_trans rfl hP)
      with_reducible assumption

theorem failAttempt_moves {P : List Part} {z : State} {s : State} {q : Fin 3} (hP : within [.regs, .log, .net] P = true) (h : Moves P z s) :
    Moves P z (Machine.failAttempt s q) := by
  unfold Machine.failAttempt
  extract_lets +onlyGivenNames q0
  clear_value q0
  extract_lets +onlyGivenNames q1
  clear_value q1
  extract_lets +onlyGivenNames q2
  have h2 : Moves P z q2 := by
    unfold q2
    with_reducible apply modQuad_moves (within_trans rfl hP)
    with_reducible assumption
  clear_value q2
  refine Moves.ite ?_ ?_
  · with_reducible apply modQuad_moves (within_trans rfl hP)
    with_reducible assumption
  · refine Moves.ite ?_ ?_
    · with_reducible apply logEvent_moves (within_trans rfl hP)
      with_reducible apply modQuad_moves (within_trans rfl hP)
      with_reducible assumption
    · refine Moves.ite ?_ ?_
      · with_reducible apply newTrain_moves (within_trans rfl hP)
        with_reducible assumption
      · with_reducible apply toDetect_moves (within_trans rfl hP)
        with_reducible assumption

theorem offerOnActive_moves {P : List Part} {z : State} {s : State} {q : Fin 3} (hP : within [.regs, .net] P = true) (h : Moves P z s) :
    Moves P z (Machine.offerOnActive s q) := by
  unfold Machine.offerOnActive
  extract_lets +onlyGivenNames q0
  clear_value q0
  extract_lets +onlyGivenNames q1
  clear_value q1
  extract_lets +onlyGivenNames q2
  clear_value q2
  extract_lets +onlyGivenNames q3
  clear_value q3
  extract_lets +onlyGivenNames q4
  have h4 : Moves P z q4 := by
    unfold q4
    with_reducible apply modLink_moves (within_trans rfl hP)
    with_reducible assumption
  clear_value q4
  split
  · refine Moves.ite ?_ ?_
    · extract_lets +onlyGivenNames q5
      clear_value q5
      refine Moves.ite ?_ ?_
      · with_reducible apply sendOffer_moves (within_trans rfl hP)
        with_reducible assumption
      · with_reducible apply dropWithdrawn_moves (within_trans rfl hP)
        with_reducible apply sendOffer_moves (within_trans rfl hP)
        with_reducible apply putWord60_moves (within_trans rfl hP)
        with_reducible apply modLink_moves (within_trans rfl hP)
        with_reducible assumption
    · with_reducible apply sendOffer_moves (within_trans rfl hP)
      with_reducible apply putWord60_moves (within_trans rfl hP)
      with_reducible apply modLink_moves (within_trans rfl hP)
      with_reducible assumption
  · with_reducible apply sendOffer_moves (within_trans rfl hP)
    with_reducible assumption

theorem toActive_moves {P : List Part} {z : State} {s : State} {q : Fin 3} (hP : within [.regs, .net] P = true) (h : Moves P z s) :
    Moves P z (Machine.toActive s q) := by
  unfold Machine.toActive
  extract_lets +onlyGivenNames q0
  clear_value q0
  extract_lets +onlyGivenNames q1
  have h1 : Moves P z q1 := by
    unfold q1
    with_reducible apply modQuad_moves (within_trans rfl hP)
    with_reducible assumption
  clear_value q1
  extract_lets +onlyGivenNames q2
  have h2 : Moves P z q2 := by
    unfold q2
    with_reducible apply modLink_moves (within_trans rfl hP)
    with_reducible assumption
  clear_value q2
  extract_lets +onlyGivenNames q3
  have h3 : Moves P z q3 := by
    unfold q3
    refine Moves.ite ?_ ?_
    · with_reducible assumption
    · with_reducible apply setF_moves (within_trans rfl hP)
      with_reducible assumption
  clear_value q3
  extract_lets +onlyGivenNames q4
  have h4 : Moves P z q4 := by
    unfold q4
    with_reducible apply offerOnActive_moves (within_trans rfl hP)
    with_reducible assumption
  clear_value q4
  extract_lets +onlyGivenNames q5
  have h5 : Moves P z q5 := by
    unfold q5
    refine Moves.ite ?_ ?_
    · with_reducible apply setF_moves (within_trans rfl hP)
      with_reducible assumption
    · with_reducible assumption
  clear_value q5
  refine Moves.ite ?_ ?_
  · with_reducible apply newTrain_moves (within_trans rfl hP)
    with_reducible assumption
  · with_reducible assumption

theorem detectDoneSt_moves {P : List Part} {z : State} {q : Fin 3} {present : BitVec 4} {s : State} (hP : within [.net] P = true) (h : Moves P z s) :
    Moves P z (Machine.detectDoneSt q present s) := by
  unfold Machine.detectDoneSt
  refine Moves.ite ?_ ?_
  · extract_lets +onlyGivenNames q0
    have h0 : Moves P z q0 := by
      unfold q0
      with_reducible apply modQuad_moves (within_trans rfl hP)
      with_reducible assumption
    clear_value q0
    refine Moves.ite ?_ ?_
    · with_reducible apply modQuad_moves (within_trans rfl hP)
      with_reducible assumption
    · with_reducible apply toBlind_moves (within_trans rfl hP)
      with_reducible assumption
  · with_reducible assumption

theorem linkActiveSt_moves {P : List Part} {z : State} {q : Fin 3} {s : State} (hP : within [.regs, .net] P = true) (h : Moves P z s) :
    Moves P z (Machine.linkActiveSt q s) := by
  unfold Machine.linkActiveSt
  extract_lets +onlyGivenNames q0
  clear_value q0
  refine Moves.ite ?_ ?_
  · with_reducible apply toActive_moves (within_trans rfl hP)
    with_reducible assumption
  · with_reducible assumption

theorem blindTimeoutSt_moves {P : List Part} {z : State} {q : Fin 3} {s : State} (hP : within [.regs, .net] P = true) (h : Moves P z s) :
    Moves P z (Machine.blindTimeoutSt q s) := by
  unfold Machine.blindTimeoutSt
  refine Moves.ite ?_ ?_
  · extract_lets +onlyGivenNames q0
    have h0 : Moves P z q0 := by
      unfold q0
      with_reducible apply toTrain_moves (within_trans rfl hP)
      with_reducible assumption
    clear_value q0
    refine Moves.ite ?_ ?_
    · with_reducible apply setF_moves (within_trans rfl hP)
      with_reducible assumption
    · with_reducible assumption
  · with_reducible assumption

theorem trainSetSt_moves {P : List Part} {z : State} {q : Fin 3} {p : Fin 4} {symbols : List ℕ} {s0 : State} (hP : within [.net] P = true) (h : Moves P z s0) :
    Moves P z (Machine.trainSetSt q p symbols s0) := by
  unfold Machine.trainSetSt
  extract_lets +onlyGivenNames q0
  split
  · extract_lets +onlyGivenNames q1
    clear_value q1
    refine Moves.ite ?_ ?_
    · refine Moves.ite ?_ ?_
      · unfold q0
        with_reducible apply modQuad_moves (within_trans rfl hP)
        with_reducible apply modQuad_moves (within_trans rfl hP)
        with_reducible assumption
      · with_reducible assumption
    · extract_lets +onlyGivenNames q2
      have h2 : Moves P z q2 := by
        unfold q2
        refine Moves.ite ?_ ?_
        · with_reducible apply toTrain_moves (within_trans rfl hP)
          with_reducible assumption
        · with_reducible assumption
      clear_value q2
      extract_lets +onlyGivenNames q3
      clear_value q3
      refine Moves.ite ?_ ?_
      · with_reducible assumption
      · refine Moves.ite ?_ ?_
        · with_reducible apply modQuad_moves (within_trans rfl hP)
          with_reducible assumption
        · with_reducible apply modQuad_moves (within_trans rfl hP)
          with_reducible assumption
  · refine Moves.ite ?_ ?_
    · unfold q0
      with_reducible apply modQuad_moves (within_trans rfl hP)
      with_reducible assumption
    · with_reducible assumption
  · with_reducible assumption

theorem failWidth_moves {P : List Part} {z : State} {s : State} {q : Fin 3} {c : QuadCfg} (hP : within [.regs, .log, .net] P = true) (h : Moves P z s) :
    Moves P z (Machine.failWidth s q c) := by
  unfold Machine.failWidth
  with_reducible apply failAttempt_moves (within_trans rfl hP)
  refine Moves.ite ?_ ?_
  · with_reducible apply modQuad_moves (within_trans rfl hP)
    with_reducible assumption
  · with_reducible assumption

theorem narrowTo_moves {P : List Part} {z : State} {s : State} {q : Fin 3} {c : QuadCfg} {width : ℕ} {use : ℕ} (hP : within [.regs, .log, .net] P = true) (h : Moves P z s) :
    Moves P z (Machine.narrowTo s q c width use) := by
  unfold Machine.narrowTo
  extract_lets +onlyGivenNames q0
  have h0 : Moves P z q0 := by
    unfold q0
    with_reducible apply modQuad_moves (within_trans rfl hP)
    with_reducible assumption
  clear_value q0
  refine Moves.ite ?_ ?_
  · with_reducible apply bump_moves (within_trans rfl hP)
    with_reducible apply logEvent_moves (within_trans rfl hP)
    with_reducible assumption
  · with_reducible assumption

theorem formLink_moves {P : List Part} {z : State} {s : State} {q : Fin 3} {c : QuadCfg} {lanes : ℕ} (hP : within [.regs, .log, .net] P = true) (h : Moves P z s) :
    Moves P z (Machine.formLink s q c lanes) := by
  unfold Machine.formLink
  extract_lets +onlyGivenNames q0
  clear_value q0
  extract_lets +onlyGivenNames q1
  clear_value q1
  split
  · with_reducible apply failWidth_moves (within_trans rfl hP)
    with_reducible assumption
  · extract_lets +onlyGivenNames q2
    clear_value q2
    with_reducible apply narrowTo_moves (within_trans rfl hP)
    with_reducible apply modQuad_moves (within_trans rfl hP)
    with_reducible assumption

theorem alignEnd_moves {P : List Part} {z : State} {s : State} {q : Fin 3} {c : QuadCfg} {lanes : ℕ} (hP : within [.regs, .log, .net] P = true) (h : Moves P z s) :
    Moves P z (Machine.alignEnd s q c lanes) := by
  unfold Machine.alignEnd
  refine Moves.ite ?_ ?_
  · with_reducible apply toActive_moves (within_trans rfl hP)
    with_reducible assumption
  · split
    · with_reducible apply failWidth_moves (within_trans rfl hP)
      with_reducible assumption
    · with_reducible apply toActive_moves (within_trans rfl hP)
      with_reducible apply narrowTo_moves (within_trans rfl hP)
      with_reducible assumption

theorem endStep_moves {P : List Part} {z : State} {s : State} {q : Fin 3} {lanes : ℕ} (hP : within [.regs, .log, .net] P = true) (h : Moves P z s) :
    Moves P z (Machine.endStep s q lanes) := by
  unfold Machine.endStep
  extract_lets +onlyGivenNames q0
  clear_value q0
  split
  · with_reducible assumption
  · refine Moves.ite ?_ ?_
    · with_reducible apply failAttempt_moves (within_trans rfl hP)
      with_reducible assumption
    · split
      · split
        · with_reducible apply failAttempt_moves (within_trans rfl hP)
          with_reducible assumption
        · with_reducible apply modQuad_moves (within_trans rfl hP)
          with_reducible assumption
      · with_reducible apply modQuad_moves (within_trans rfl hP)
        with_reducible assumption
      · with_reducible apply formLink_moves (within_trans rfl hP)
        with_reducible assumption
      · with_reducible apply alignEnd_moves (within_trans rfl hP)
        with_reducible assumption

theorem stepIfDone_moves {P : List Part} {z : State} {s : State} {q : Fin 3} (hP : within [.regs, .log, .net] P = true) (h : Moves P z s) :
    Moves P z (Machine.stepIfDone s q) := by
  unfold Machine.stepIfDone
  extract_lets +onlyGivenNames q0
  clear_value q0
  refine Moves.ite ?_ ?_
  · with_reducible apply endStep_moves (within_trans rfl hP)
    with_reducible assumption
  · with_reducible assumption

theorem laneLosSt_moves {P : List Part} {z : State} {q : Fin 3} {p : Fin 4} {s : State} (hP : within [.regs, .log, .net] P = true) (h : Moves P z s) :
    Moves P z (Machine.laneLosSt q p s) := by
  unfold Machine.laneLosSt
  extract_lets +onlyGivenNames q0
  clear_value q0
  refine Moves.ite ?_ ?_
  · with_reducible assumption
  · extract_lets +onlyGivenNames q1
    have h1 : Moves P z q1 := by
      unfold q1
      with_reducible apply modQuad_moves (within_trans rfl hP)
      with_reducible assumption
    clear_value q1
    refine Moves.ite ?_ ?_
    · extract_lets +onlyGivenNames q2
      clear_value q2
      refine Moves.ite ?_ ?_
      · with_reducible apply failAttempt_moves (within_trans rfl hP)
        with_reducible assumption
      · with_reducible apply stepIfDone_moves (within_trans rfl hP)
        with_reducible apply modQuad_moves (within_trans rfl hP)
        with_reducible assumption
    · with_reducible assumption

theorem linkFaultSt_moves {P : List Part} {z : State} {q : Fin 3} {cause : Fin 8} {s : State} (hP : within [.regs, .net] P = true) (h : Moves P z s) :
    Moves P z (Machine.linkFaultSt q cause s) := by
  unfold Machine.linkFaultSt
  extract_lets +onlyGivenNames q0
  clear_value q0
  extract_lets +onlyGivenNames q1
  clear_value q1
  refine Moves.ite ?_ ?_
  · with_reducible apply toBlind_moves (within_trans rfl hP)
    with_reducible apply bump_moves (within_trans rfl hP)
    with_reducible assumption
  · with_reducible assumption

theorem toIdle_moves {P : List Part} {z : State} {s : State} {q : Fin 3} (hP : within [.net] P = true) (h : Moves P z s) :
    Moves P z (Machine.toIdle s q) := by
  unfold Machine.toIdle
  with_reducible apply modQuad_moves (within_trans rfl hP)
  with_reducible apply leaveActive_moves (within_trans rfl hP)
  with_reducible assumption

theorem wakeQuad_moves {P : List Part} {z : State} {s : State} {q : Fin 3} (hP : within [.net] P = true) (h : Moves P z s) :
    Moves P z (Machine.wakeQuad s q) := by
  unfold Machine.wakeQuad
  split
  · with_reducible assumption
  · refine Moves.ite ?_ ?_
    · with_reducible apply modQuad_moves (within_trans rfl hP)
      with_reducible apply toBlind_moves (within_trans rfl hP)
      with_reducible assumption
    · with_reducible assumption

theorem linkResetSt_moves {P : List Part} {z : State} {q : Fin 3} {s : State} (hP : within [.regs, .net] P = true) (h : Moves P z s) :
    Moves P z (Machine.linkResetSt q s) := by
  unfold Machine.linkResetSt
  split
  · with_reducible assumption
  · extract_lets +onlyGivenNames q0
    have h0 : Moves P z q0 := by
      unfold q0
      with_reducible apply modQuad_moves (within_trans rfl hP)
      with_reducible apply toDetect_moves (within_trans rfl hP)
      with_reducible assumption
    clear_value q0
    extract_lets +onlyGivenNames q1
    have h1 : Moves P z q1 := by
      unfold q1
      with_reducible apply setF_moves (within_trans rfl hP)
      with_reducible apply setF_moves (within_trans rfl hP)
      with_reducible assumption
    clear_value q1
    extract_lets +onlyGivenNames q2
    have h2 : Moves P z q2 := by
      unfold q2
      refine Moves.folded (fun _ _ _ => ?_) ?_
      · with_reducible apply setF_moves (within_trans rfl hP)
        with_reducible apply setF_moves (within_trans rfl hP)
        with_reducible assumption
      · with_reducible assumption
    clear_value q2
    refine Moves.folded (fun _ _ _ => ?_) ?_
    · with_reducible apply setF_moves (within_trans rfl hP)
      with_reducible assumption
    · with_reducible assumption

theorem startQuad_moves {P : List Part} {z : State} {s : State} {q : Fin 3} (hP : within [.net] P = true) (h : Moves P z s) :
    Moves P z (Machine.startQuad s q) := by
  unfold Machine.startQuad
  split
  · with_reducible assumption
  · with_reducible apply toDetect_moves (within_trans rfl hP)
    with_reducible apply modQuad_moves (within_trans rfl hP)
    with_reducible assumption

theorem warmQuads_moves {P : List Part} {z : State} {s : State} (hP : within [.net] P = true) (h : Moves P z s) :
    Moves P z (Machine.warmQuads s) := by
  unfold Machine.warmQuads
  refine Moves.folded (fun _ _ _ => ?_) ?_
  · split
    · with_reducible assumption
    · with_reducible apply modQuad_moves (within_trans rfl hP)
      with_reducible apply toDetect_moves (within_trans rfl hP)
      with_reducible assumption
  · with_reducible assumption

theorem rebBlind_moves {P : List Part} {z : State} {s : State} (hP : within [.net] P = true) (h : Moves P z s) :
    Moves P z (Machine.rebBlind s) := by
  unfold Machine.rebBlind
  refine Moves.folded (fun _ _ _ => ?_) ?_
  · refine Moves.ite ?_ ?_
    · with_reducible apply toBlind_moves (within_trans rfl hP)
      with_reducible assumption
    · with_reducible assumption
  · with_reducible assumption

theorem idleQuads_moves {P : List Part} {z : State} {s : State} (hP : within [.net] P = true) (h : Moves P z s) :
    Moves P z (Machine.idleQuads s) := by
  unfold Machine.idleQuads
  refine Moves.folded (fun _ _ _ => ?_) ?_
  · extract_lets +onlyGivenNames q0
    have h0 : Moves P z q0 := by
      unfold q0
      with_reducible apply modQuad_moves (within_trans rfl hP)
      with_reducible assumption
    clear_value q0
    split
    · with_reducible assumption
    · refine Moves.ite ?_ ?_
      · with_reducible apply toIdle_moves (within_trans rfl hP)
        with_reducible assumption
      · with_reducible assumption
  · with_reducible assumption

theorem rateChanged_moves {P : List Part} {z : State} {s : State} {q : Fin 3} (hP : within [.net] P = true) (h : Moves P z s) :
    Moves P z (Machine.rateChanged s q) := by
  unfold Machine.rateChanged
  split
  · with_reducible apply newTrain_moves (within_trans rfl hP)
    with_reducible assumption
  · with_reducible assumption
  · with_reducible apply modQuad_moves (within_trans rfl hP)
    with_reducible assumption

theorem testChanged_moves {P : List Part} {z : State} {s : State} {q : Fin 3} (hP : within [.net, .freeCtr] P = true) (h : Moves P z s) :
    Moves P z (Machine.testChanged s q) := by
  unfold Machine.testChanged
  refine Moves.ite ?_ ?_
  · with_reducible assumption
  · refine Moves.ite ?_ ?_
    · split
      with_reducible apply modQuad_moves (within_trans rfl hP)
      with_reducible apply leaveActive_moves (within_trans rfl hP)
      refine draw_moves_eq (by assumption) (within_trans rfl hP) ?_
      with_reducible assumption
    · refine Moves.ite ?_ ?_
      · with_reducible apply toBlind_moves (within_trans rfl hP)
        with_reducible assumption
      · with_reducible assumption

end Sys2Proof.Laws
end

