-- ==== Sys2Proof/Laws/TimeMoves.lean ====
section
/-! SUPPORT. What each operation of Machine/Time.lean can do: the parts of the state it changes, and that it keeps the
invariants. -/

namespace Sys2Proof.Laws
open Sys2Proof Sys2Proof.Machine Sys2Proof.Safety

theorem modTime_moves {P : List Part} {z : State} {s : State} {f : TimeSt → TimeSt} (hP : within [.time] P = true) (h : Moves P z s) :
    Moves P z (Machine.modTime s f) := by
  unfold Machine.modTime
  with_reducible apply Moves.setTime (within_trans rfl hP)
  with_reducible assumption

theorem setInc_moves {P : List Part} {z : State} {s : State} {v : ℕ} (hP : within [.regs] P = true) (h : Moves P z s) :
    Moves P z (Machine.setInc s v) := by
  unfold Machine.setInc
  with_reducible apply setF_moves (within_trans rfl hP)
  with_reducible apply setF_moves (within_trans rfl hP)
  with_reducible assumption

theorem applyRate_moves {P : List Part} {z : State} {s : State} {y : ℚ} (hP : within [.regs, .time] P = true) (h : Moves P z s) :
    Moves P z (Machine.applyRate s y) := by
  unfold Machine.applyRate
  with_reducible apply setInc_moves (within_trans rfl hP)
  with_reducible apply modTime_moves (within_trans rfl hP)
  with_reducible assumption

theorem ppsOut_moves {P : List Part} {z : State} {s : State} (hP : within [.time] P = true) (h : Moves P z s) :
    Moves P z (Machine.ppsOut s) := by
  unfold Machine.ppsOut
  extract_lets +onlyGivenNames q0
  clear_value q0
  extract_lets +onlyGivenNames q1
  clear_value q1
  refine Moves.ite ?_ ?_
  · with_reducible apply modTime_moves (within_trans rfl hP)
    with_reducible assumption
  · with_reducible assumption

theorem stepTime_moves {P : List Part} {z : State} {s : State} {amount : ℤ} {late : Bool} (hP : within [.regs, .log, .probe, .time, .now] P = true) (h : Moves P z s) :
    Moves P z (Machine.stepTime s amount late) := by
  unfold Machine.stepTime
  extract_lets +onlyGivenNames q0
  clear_value q0
  extract_lets +onlyGivenNames q1
  clear_value q1
  extract_lets +onlyGivenNames q2
  clear_value q2
  extract_lets +onlyGivenNames q3
  have h3 : Moves P z q3 := by
    unfold q3
    with_reducible apply Moves.setNow (within_trans rfl hP)
    with_reducible assumption
  clear_value q3
  extract_lets +onlyGivenNames q4
  have h4 : Moves P z q4 := by
    unfold q4
    refine Moves.folded (fun _ _ _ => ?_) ?_
    · with_reducible apply modProbe_moves (within_trans rfl hP)
      · (intro _ k; exact k)
      · with_reducible assumption
    · with_reducible assumption
  clear_value q4
  extract_lets +onlyGivenNames q5
  have h5 : Moves P z q5 := by
    unfold q5
    refine Moves.folded (fun _ _ _ => ?_) ?_
    · extract_lets +onlyGivenNames q6
      clear_value q6
      extract_lets +onlyGivenNames q7
      have h7 : Moves P z q7 := by
        unfold q7
        refine Moves.ite ?_ ?_
        · with_reducible apply bump_moves (within_trans rfl hP)
          with_reducible assumption
        · with_reducible assumption
      clear_value q7
      extract_lets +onlyGivenNames q8
      clear_value q8
      with_reducible apply modTime_moves (within_trans rfl hP)
      with_reducible assumption
    · with_reducible assumption
  clear_value q5
  extract_lets +onlyGivenNames q9
  have h9 : Moves P z q9 := by
    unfold q9
    with_reducible apply modTime_moves (within_trans rfl hP)
    with_reducible assumption
  clear_value q9
  extract_lets +onlyGivenNames q10
  have h10 : Moves P z q10 := by
    unfold q10
    with_reducible apply bump_moves (within_trans rfl hP)
    with_reducible apply setF_moves (within_trans rfl hP)
    with_reducible apply ppsOut_moves (within_trans rfl hP)
    with_reducible assumption
  clear_value q10
  extract_lets +onlyGivenNames q11
  clear_value q11
  with_reducible apply logEvent_moves (within_trans rfl hP)
  with_reducible assumption

theorem measure_moves {P : List Part} {z : State} {s : State} {e : ℤ} {tm : ℚ} (hP : within [.regs, .log, .probe, .time, .now] P = true) (h : Moves P z s) :
    Moves P z (Machine.measure s e tm) := by
  unfold Machine.measure
  extract_lets +onlyGivenNames q0
  clear_value q0
  extract_lets +onlyGivenNames q1
  clear_value q1
  extract_lets +onlyGivenNames q2
  clear_value q2
  extract_lets +onlyGivenNames q3
  have h3 : Moves P z q3 := by
    unfold q3
    with_reducible apply modTime_moves (within_trans rfl hP)
    with_reducible apply setF_moves (within_trans rfl hP)
    with_reducible apply setF_moves (within_trans rfl hP)
    with_reducible assumption
  clear_value q3
  refine Moves.ite ?_ ?_
  · with_reducible apply stepTime_moves (within_trans rfl hP)
    with_reducible assumption
  · extract_lets +onlyGivenNames q4
    clear_value q4
    extract_lets +onlyGivenNames q5
    clear_value q5
    extract_lets +onlyGivenNames q6
    clear_value q6
    extract_lets +onlyGivenNames q7
    clear_value q7
    with_reducible apply applyRate_moves (within_trans rfl hP)
    with_reducible apply modTime_moves (within_trans rfl hP)
    with_reducible assumption

theorem enterHoldover_moves {P : List Part} {z : State} {s : State} (hP : within [.regs, .time] P = true) (h : Moves P z s) :
    Moves P z (Machine.enterHoldover s) := by
  unfold Machine.enterHoldover
  refine Moves.ite ?_ ?_
  · with_reducible assumption
  · with_reducible apply applyRate_moves (within_trans rfl hP)
    with_reducible apply modTime_moves (within_trans rfl hP)
    with_reducible assumption

theorem startSource_moves {P : List Part} {z : State} {s : State} (hP : within [.regs, .time] P = true) (h : Moves P z s) :
    Moves P z (Machine.startSource s) := by
  unfold Machine.startSource
  extract_lets +onlyGivenNames q0
  have h0 : Moves P z q0 := by
    unfold q0
    with_reducible apply modTime_moves (within_trans rfl hP)
    with_reducible assumption
  clear_value q0
  refine Moves.ite ?_ ?_
  · with_reducible apply enterHoldover_moves (within_trans rfl hP)
    with_reducible assumption
  · with_reducible assumption

theorem switchRef_moves {P : List Part} {z : State} {s : State} (hP : within [.regs, .log, .time, .freeCtr] P = true) (h : Moves P z s) :
    Moves P z (Machine.switchRef s) := by
  unfold Machine.switchRef
  extract_lets +onlyGivenNames q0
  clear_value q0
  refine Moves.ite ?_ ?_
  · with_reducible assumption
  · split
    extract_lets +onlyGivenNames q1
    clear_value q1
    extract_lets +onlyGivenNames q2
    have h2 : Moves P z q2 := by
      unfold q2
      with_reducible apply modTime_moves (within_trans rfl hP)
      refine draw_moves_eq (by assumption) (within_trans rfl hP) ?_
      with_reducible assumption
    clear_value q2
    extract_lets +onlyGivenNames q3
    have h3 : Moves P z q3 := by
      unfold q3
      refine Moves.ite ?_ ?_
      · with_reducible assumption
      · with_reducible apply applyRate_moves (within_trans rfl hP)
        with_reducible assumption
    clear_value q3
    with_reducible apply logEvent_moves (within_trans rfl hP)
    with_reducible assumption

theorem snapSt_moves {P : List Part} {z : State} {src : Fin 4} {s : State} (hP : within [.regs, .freeCtr] P = true) (h : Moves P z s) :
    Moves P z (Machine.snapSt src s) := by
  unfold Machine.snapSt
  split
  extract_lets +onlyGivenNames q0
  clear_value q0
  refine Moves.folded (fun _ _ _ => ?_) ?_
  · with_reducible apply setF_moves (within_trans rfl hP)
    with_reducible assumption
  · refine draw_moves_eq (by assumption) (within_trans rfl hP) ?_
    with_reducible assumption

theorem adjustSt_moves {P : List Part} {z : State} {s : State} (hP : within [.regs, .log, .probe, .time, .now] P = true) (h : Moves P z s) :
    Moves P z (Machine.adjustSt s) := by
  unfold Machine.adjustSt
  split
  · with_reducible assumption
  · with_reducible apply stepTime_moves (within_trans rfl hP)
    with_reducible apply modTime_moves (within_trans rfl hP)
    with_reducible assumption

theorem adjustRecord_moves {P : List Part} {z : State} {s : State} {p : List Word} (hP : within [.regs, .log, .probe, .time, .now] P = true) (h : Moves P z s) :
    Moves P z (Machine.adjustRecord s p) := by
  unfold Machine.adjustRecord
  extract_lets +onlyGivenNames q0
  clear_value q0
  extract_lets +onlyGivenNames q1
  clear_value q1
  refine Moves.ite ?_ ?_
  · with_reducible apply stepTime_moves (within_trans rfl hP)
    with_reducible apply setF_moves (within_trans rfl hP)
    with_reducible assumption
  · with_reducible apply modTime_moves (within_trans rfl hP)
    with_reducible assumption

theorem arrival_moves {P : List Part} {z : State} {s : State} (hP : within [.freeCtr] P = true) (h : Moves P z s) :
    Moves P z (Machine.arrival s).2 := by
  unfold Machine.arrival
  split
  refine Moves.snd ?_
  refine draw_moves_eq (by assumption) (within_trans rfl hP) ?_
  with_reducible assumption

theorem arrival_moves_eq {P : List Part} {z : State} {s : State} {tt : State} {x0}
    (e0 : Machine.arrival s = (x0, tt)) (hP : within [.freeCtr] P = true) (h : Moves P z s) : Moves P z tt := by
  have k := arrival_moves (P := P) (z := z) (hP := hP) (h := h)
  rw [e0] at k
  exact k

theorem timeEcho_moves {P : List Part} {z : State} {s : State} {src : ℕ} {tag : ℕ} {seq : ℕ} {ta : ℕ} {status : ℕ} (hP : within [.regs, .net] P = true) (h : Moves P z s) :
    Moves P z (Machine.timeEcho s src tag seq ta status) := by
  unfold Machine.timeEcho
  with_reducible apply sendRouted_moves (within_trans rfl hP)
  with_reducible assumption

theorem hostMsg_moves {P : List Part} {z : State} {s : State} {src tag seq : ℕ} {ok : Bool} {act : ℕ → State → State}
    (hP : within [.regs, .net, .freeCtr] P = true) (ha : ∀ n u, Moves P z u → Moves P z (act n u)) (h : Moves P z s) :
    Moves P z (hostMsg s src tag seq ok act) := by
  unfold hostMsg
  split
  · next ta s1 e =>
    have h1 : Moves P z s1 := arrival_moves_eq e (within_trans rfl hP) h
    split
    · exact timeEcho_moves (within_trans rfl hP) h1
    · split
      · exact timeEcho_moves (within_trans rfl hP) (ha _ _ (bump_moves (within_trans rfl hP) h1))
      · exact timeEcho_moves (within_trans rfl hP) h1

theorem timeSetSt_moves {P : List Part} {z : State} {src : ℕ} {tag : ℕ} {seq : ℕ} {t : ℕ} {s : State} (hP : within [.regs, .log, .probe, .net, .time, .now, .freeCtr] P = true) (h : Moves P z s) :
    Moves P z (Machine.timeSetSt src tag seq t s) := by
  unfold Machine.timeSetSt
  extract_lets +onlyGivenNames q0
  clear_value q0
  with_reducible apply hostMsg_moves (within_trans rfl hP)
  · intro _ _ _
    with_reducible apply stepTime_moves (within_trans rfl hP)
    with_reducible assumption
  · with_reducible assumption

theorem timeTrackSt_moves {P : List Part} {z : State} {src : ℕ} {tag : ℕ} {seq : ℕ} {t : ℕ} {s : State} (hP : within [.regs, .log, .probe, .net, .time, .now, .freeCtr] P = true) (h : Moves P z s) :
    Moves P z (Machine.timeTrackSt src tag seq t s) := by
  unfold Machine.timeTrackSt
  extract_lets +onlyGivenNames q0
  clear_value q0
  with_reducible apply hostMsg_moves (within_trans rfl hP)
  · intro _ _ _
    extract_lets +onlyGivenNames q900
    clear_value q900
    with_reducible apply measure_moves (within_trans rfl hP)
    with_reducible apply modTime_moves (within_trans rfl hP)
    with_reducible assumption
  · with_reducible assumption

theorem timeLabelSt_moves {P : List Part} {z : State} {src : ℕ} {tag : ℕ} {seq : ℕ} {seconds : ℕ} {s : State} (hP : within [.regs, .net, .time, .freeCtr] P = true) (h : Moves P z s) :
    Moves P z (Machine.timeLabelSt src tag seq seconds s) := by
  unfold Machine.timeLabelSt
  with_reducible apply hostMsg_moves (within_trans rfl hP)
  · intro _ _ _
    with_reducible apply modTime_moves (within_trans rfl hP)
    with_reducible assumption
  · with_reducible assumption

end Sys2Proof.Laws
end

