-- ==== Sys2Proof/Laws/TdcMoves.lean ====
section
/-! SUPPORT. What each operation of Machine/Tdc.lean can do: the parts of the state it changes, and that it keeps the
invariants. -/

namespace Sys2Proof.Laws
open Sys2Proof Sys2Proof.Machine Sys2Proof.Safety

theorem modTdc_moves {P : List Part} {z : State} {s : State} {c : Fin 9} {f : TdcCh → TdcCh} (hP : within [.time] P = true) (h : Moves P z s) :
    Moves P z (Machine.modTdc s c f) := by
  unfold Machine.modTdc
  with_reducible apply modTime_moves (within_trans rfl hP)
  with_reducible assumption

theorem enqueue_moves {P : List Part} {z : State} {s : State} {c : Fin 9} {stamp : ℕ} {value : ℤ} {flags : ℕ} {came : ℕ} (hP : within [.regs, .time] P = true) (h : Moves P z s) :
    Moves P z (Machine.enqueue s c stamp value flags came) := by
  unfold Machine.enqueue
  extract_lets +onlyGivenNames q0
  clear_value q0
  refine Moves.ite ?_ ?_
  · with_reducible apply setF_moves (within_trans rfl hP)
    with_reducible apply bump_moves (within_trans rfl hP)
    with_reducible apply modTdc_moves (within_trans rfl hP)
    with_reducible assumption
  · extract_lets +onlyGivenNames q1
    clear_value q1
    extract_lets +onlyGivenNames q2
    clear_value q2
    with_reducible apply modTdc_moves (within_trans rfl hP)
    with_reducible assumption

theorem sendTdc_moves {P : List Part} {z : State} {s : State} {c : Fin 9} (hP : within [.net, .time] P = true) (h : Moves P z s) :
    Moves P z (Machine.sendTdc s c) := by
  unfold Machine.sendTdc
  split
  · with_reducible assumption
  · extract_lets +onlyGivenNames q0
    clear_value q0
    extract_lets +onlyGivenNames q1
    clear_value q1
    refine Moves.ite ?_ ?_
    · with_reducible assumption
    · extract_lets +onlyGivenNames q2
      clear_value q2
      split
      refine Moves.ite ?_ ?_
      · with_reducible apply modTdc_moves (within_trans rfl hP)
        refine sendOn_moves_eq (by assumption) (within_trans rfl hP) ?_
        with_reducible assumption
      · refine sendOn_moves_eq (by assumption) (within_trans rfl hP) ?_
        with_reducible assumption

theorem sendIfFull_moves {P : List Part} {z : State} {s : State} {c : Fin 9} (hP : within [.net, .time] P = true) (h : Moves P z s) :
    Moves P z (Machine.sendIfFull s c) := by
  unfold Machine.sendIfFull
  refine Moves.ite ?_ ?_
  · with_reducible apply sendTdc_moves (within_trans rfl hP)
    with_reducible assumption
  · with_reducible assumption

theorem monitorEdge_moves {P : List Part} {z : State} {s : State} {c : Fin 9} {l : Fin 2} {win : ℕ} {t : ℕ} {edge : ℕ} (hP : within [.regs, .net, .time] P = true) (h : Moves P z s) :
    Moves P z (Machine.monitorEdge s c l win t edge) := by
  unfold Machine.monitorEdge
  split
  · with_reducible apply bump_moves (within_trans rfl hP)
    with_reducible assumption
  · refine Moves.ite ?_ ?_
    · extract_lets +onlyGivenNames q0
      clear_value q0
      extract_lets +onlyGivenNames q1
      have h1 : Moves P z q1 := by
        unfold q1
        with_reducible apply enqueue_moves (within_trans rfl hP)
        with_reducible assumption
      clear_value q1
      extract_lets +onlyGivenNames q2
      have h2 : Moves P z q2 := by
        unfold q2
        with_reducible apply modTdc_moves (within_trans rfl hP)
        with_reducible assumption
      clear_value q2
      with_reducible apply sendIfFull_moves (within_trans rfl hP)
      with_reducible apply modTime_moves (within_trans rfl hP)
      with_reducible assumption
    · with_reducible apply bump_moves (within_trans rfl hP)
      with_reducible assumption

theorem edgeLost_moves {P : List Part} {z : State} {s : State} {c : Fin 9} {t : ℕ} (hP : within [.regs, .time, .freeCtr] P = true) (h : Moves P z s) :
    Moves P z (Machine.edgeLost s c t).2 := by
  unfold Machine.edgeLost
  extract_lets +onlyGivenNames q0
  clear_value q0
  split
  extract_lets +onlyGivenNames q1
  refine Moves.iteSnd ?_ ?_
  · unfold q1
    refine Moves.snd ?_
    with_reducible apply bump_moves (within_trans rfl hP)
    with_reducible apply modTdc_moves (within_trans rfl hP)
    with_reducible assumption
  · split
    refine Moves.iteSnd ?_ ?_
    · unfold q1
      refine Moves.snd ?_
      with_reducible apply bump_moves (within_trans rfl hP)
      with_reducible apply modTdc_moves (within_trans rfl hP)
      refine Moves.ofEqSnd (by assumption) ?_
      refine Moves.iteSnd ?_ ?_
      · with_reducible apply draw_moves (within_trans rfl hP)
        with_reducible assumption
      · refine Moves.snd ?_
        with_reducible assumption
    · refine Moves.snd ?_
      refine Moves.ofEqSnd (by assumption) ?_
      refine Moves.iteSnd ?_ ?_
      · with_reducible apply draw_moves (within_trans rfl hP)
        with_reducible assumption
      · refine Moves.snd ?_
        with_reducible assumption

theorem edgeLost_moves_eq {P : List Part} {z : State} {s : State} {c : Fin 9} {t : ℕ} {tt : State} {x0}
    (e0 : Machine.edgeLost s c t = (x0, tt)) (hP : within [.regs, .time, .freeCtr] P = true) (h : Moves P z s) : Moves P z tt := by
  have k := edgeLost_moves (P := P) (z := z) (hP := hP) (h := h) (c := c) (t := t)
  rw [e0] at k
  exact k

theorem takeEdge_moves {P : List Part} {z : State} {s : State} {c : Fin 9} {falling : Bool} {f : ℕ} {t : ℕ} (hP : within [.regs, .net, .time] P = true) (h : Moves P z s) :
    Moves P z (Machine.takeEdge s c falling f t) := by
  unfold Machine.takeEdge
  split
  extract_lets +onlyGivenNames q0
  have h0 : Moves P z q0 := by
    unfold q0
    with_reducible apply modTdc_moves (within_trans rfl hP)
    with_reducible assumption
  clear_value q0
  split
  · with_reducible apply monitorEdge_moves (within_trans rfl hP)
    with_reducible assumption
  · refine Moves.ite ?_ ?_
    · with_reducible apply modTdc_moves (within_trans rfl hP)
      with_reducible assumption
    · with_reducible apply sendIfFull_moves (within_trans rfl hP)
      with_reducible apply enqueue_moves (within_trans rfl hP)
      with_reducible assumption

theorem acceptEdge_moves {P : List Part} {z : State} {s : State} {c : Fin 9} {falling : Bool} {f : ℕ} {t : ℕ} (hP : within [.regs, .net, .time, .freeCtr] P = true) (h : Moves P z s) :
    Moves P z (Machine.acceptEdge s c falling f t) := by
  unfold Machine.acceptEdge
  split
  refine Moves.ite ?_ ?_
  · refine edgeLost_moves_eq (by assumption) (within_trans rfl hP) ?_
    with_reducible assumption
  · with_reducible apply takeEdge_moves (within_trans rfl hP)
    refine edgeLost_moves_eq (by assumption) (within_trans rfl hP) ?_
    with_reducible assumption

theorem ppsStamp_moves {P : List Part} {z : State} {s : State} {t : ℕ} (hP : within [.regs, .log, .probe, .time, .now] P = true) (h : Moves P z s) :
    Moves P z (Machine.ppsStamp s t) := by
  unfold Machine.ppsStamp
  extract_lets +onlyGivenNames q0
  clear_value q0
  extract_lets +onlyGivenNames q1
  clear_value q1
  split
  · with_reducible apply modTime_moves (within_trans rfl hP)
    with_reducible assumption
  · extract_lets +onlyGivenNames q2
    clear_value q2
    refine Moves.ite ?_ ?_
    · extract_lets +onlyGivenNames q3
      have h3 : Moves P z q3 := by
        unfold q3
        with_reducible apply modTime_moves (within_trans rfl hP)
        with_reducible assumption
      clear_value q3
      refine Moves.ite ?_ ?_
      · extract_lets +onlyGivenNames q4
        clear_value q4
        extract_lets +onlyGivenNames q5
        clear_value q5
        with_reducible apply measure_moves (within_trans rfl hP)
        with_reducible assumption
      · with_reducible assumption
    · with_reducible apply bump_moves (within_trans rfl hP)
      with_reducible apply modTime_moves (within_trans rfl hP)
      with_reducible assumption

theorem ppsEdgeSt_moves {P : List Part} {z : State} {q : ℕ} {f : ℕ} {s : State} (hP : within [.regs, .log, .probe, .net, .time, .now, .freeCtr] P = true) (h : Moves P z s) :
    Moves P z (Machine.ppsEdgeSt q f s) := by
  unfold Machine.ppsEdgeSt
  refine Moves.ite ?_ ?_
  · with_reducible assumption
  · extract_lets +onlyGivenNames q0
    clear_value q0
    split
    refine Moves.ite ?_ ?_
    · refine edgeLost_moves_eq (by assumption) (within_trans rfl hP) ?_
      with_reducible assumption
    · with_reducible apply ppsStamp_moves (within_trans rfl hP)
      with_reducible apply takeEdge_moves (within_trans rfl hP)
      refine edgeLost_moves_eq (by assumption) (within_trans rfl hP) ?_
      with_reducible assumption

theorem tdcEdgeSt_moves {P : List Part} {z : State} {c : Fin 9} {falling : Bool} {q : ℕ} {f : ℕ} {s : State} (hP : within [.regs, .log, .probe, .net, .time, .now, .freeCtr] P = true) (h : Moves P z s) :
    Moves P z (Machine.tdcEdgeSt c falling q f s) := by
  unfold Machine.tdcEdgeSt
  refine Moves.ite ?_ ?_
  · with_reducible assumption
  · refine Moves.ite ?_ ?_
    · refine Moves.ite ?_ ?_
      · with_reducible assumption
      · with_reducible apply ppsEdgeSt_moves (within_trans rfl hP)
        with_reducible assumption
    · split
      · with_reducible assumption
      · refine Moves.ite ?_ ?_
        · with_reducible assumption
        · extract_lets +onlyGivenNames q0
          clear_value q0
          split
          · with_reducible apply acceptEdge_moves (within_trans rfl hP)
            with_reducible assumption
          · with_reducible assumption
          · split
            refine Moves.ite ?_ ?_
            · with_reducible apply acceptEdge_moves (within_trans rfl hP)
              refine draw_moves_eq (by assumption) (within_trans rfl hP) ?_
              with_reducible assumption
            · refine draw_moves_eq (by assumption) (within_trans rfl hP) ?_
              with_reducible assumption

theorem gateSt_moves {P : List Part} {z : State} {g : Fin 4} {level : Bool} {s : State} (hP : within [.time] P = true) (h : Moves P z s) :
    Moves P z (Machine.gateSt g level s) := by
  unfold Machine.gateSt
  refine Moves.ite ?_ ?_
  · with_reducible assumption
  · extract_lets +onlyGivenNames q0
    clear_value q0
    extract_lets +onlyGivenNames q1
    have h1 : Moves P z q1 := by
      unfold q1
      with_reducible apply modTime_moves (within_trans rfl hP)
      with_reducible assumption
    clear_value q1
    refine Moves.ite ?_ ?_
    · with_reducible assumption
    · refine Moves.folded (fun _ _ _ => ?_) ?_
      · refine Moves.ite ?_ ?_
        · split
          · with_reducible assumption
          · refine Moves.ite ?_ ?_
            · with_reducible apply modTdc_moves (within_trans rfl hP)
              with_reducible assumption
            · with_reducible assumption
        · with_reducible assumption
      · with_reducible assumption

theorem softArm_moves {P : List Part} {z : State} {c : Fin 9} {on : Bool} {s : State} (hP : within [.time] P = true) (h : Moves P z s) :
    Moves P z (Machine.softArm c on s) := by
  unfold Machine.softArm
  split
  · with_reducible assumption
  · refine Moves.ite ?_ ?_
    · with_reducible apply modTdc_moves (within_trans rfl hP)
      with_reducible assumption
    · with_reducible assumption

theorem tdcPopSt_moves {P : List Part} {z : State} {c : Fin 9} {s : State} (hP : within [.regs, .time] P = true) (h : Moves P z s) :
    Moves P z (Machine.tdcPopSt c s) := by
  unfold Machine.tdcPopSt
  extract_lets +onlyGivenNames q0
  clear_value q0
  extract_lets +onlyGivenNames q1
  clear_value q1
  extract_lets +onlyGivenNames q2
  clear_value q2
  extract_lets +onlyGivenNames q3
  clear_value q3
  extract_lets +onlyGivenNames q4
  have h4 : Moves P z q4 := by
    unfold q4
    refine Moves.folded (fun _ _ _ => ?_) ?_
    · with_reducible apply setF_moves (within_trans rfl hP)
      with_reducible assumption
    · with_reducible assumption
  clear_value q4
  refine Moves.ite ?_ ?_
  · with_reducible apply modTdc_moves (within_trans rfl hP)
    with_reducible assumption
  · with_reducible assumption

theorem pairEntry_moves {P : List Part} {z : State} {s : State} {g : Fin 4} {ts : ℕ} {v : ℤ} {flags : ℕ} {came : ℕ} (hP : within [.regs, .net, .time] P = true) (h : Moves P z s) :
    Moves P z (Machine.pairEntry s g ts v flags came) := by
  unfold Machine.pairEntry
  extract_lets +onlyGivenNames q0
  clear_value q0
  extract_lets +onlyGivenNames q1
  have h1 : Moves P z q1 := by
    unfold q1
    with_reducible apply modTdc_moves (within_trans rfl hP)
    with_reducible apply modTdc_moves (within_trans rfl hP)
    with_reducible assumption
  clear_value q1
  extract_lets +onlyGivenNames q2
  have h2 : Moves P z q2 := by
    unfold q2
    with_reducible apply enqueue_moves (within_trans rfl hP)
    with_reducible assumption
  clear_value q2
  with_reducible apply sendIfFull_moves (within_trans rfl hP)
  with_reducible assumption

theorem pairOne_moves {P : List Part} {z : State} {g : Fin 4} {win : ℕ} {e : TdcHeld} {rest : List TdcHeld} {s : State} (hP : within [.regs, .net, .time] P = true) (h : Moves P z s) :
    Moves P z (Machine.pairOne g win e rest s).1 := by
  unfold Machine.pairOne
  extract_lets +onlyGivenNames q0
  clear_value q0
  extract_lets +onlyGivenNames q1
  extract_lets +onlyGivenNames q2
  have h2 : Moves P z q2 := by
    unfold q2
    unfold q1
    split
    · with_reducible assumption
    · refine Moves.ite ?_ ?_
      · with_reducible apply bump_moves (within_trans rfl hP)
        with_reducible apply modTdc_moves (within_trans rfl hP)
        with_reducible assumption
      · with_reducible assumption
  clear_value q2
  extract_lets +onlyGivenNames q3
  clear_value q3
  split
  · refine Moves.iteFst ?_ ?_
    · refine Moves.fst ?_
      with_reducible apply bump_moves (within_trans rfl hP)
      with_reducible apply modTdc_moves (within_trans rfl hP)
      with_reducible assumption
    · refine Moves.iteFst ?_ ?_
      · refine Moves.fst ?_
        with_reducible apply pairEntry_moves (within_trans rfl hP)
        with_reducible apply modTdc_moves (within_trans rfl hP)
        with_reducible assumption
      · refine Moves.iteFst ?_ ?_
        · refine Moves.fst ?_
          with_reducible apply bump_moves (within_trans rfl hP)
          with_reducible apply pairEntry_moves (within_trans rfl hP)
          with_reducible apply modTdc_moves (within_trans rfl hP)
          with_reducible assumption
        · refine Moves.fst ?_
          with_reducible apply bump_moves (within_trans rfl hP)
          with_reducible assumption
  · refine Moves.iteFst ?_ ?_
    · refine Moves.fst ?_
      with_reducible apply modTdc_moves (within_trans rfl hP)
      with_reducible assumption
    · split
      · refine Moves.fst ?_
        with_reducible apply bump_moves (within_trans rfl hP)
        with_reducible apply pairEntry_moves (within_trans rfl hP)
        with_reducible assumption
      · refine Moves.fst ?_
        with_reducible apply bump_moves (within_trans rfl hP)
        with_reducible assumption

theorem pairOne_moves_eq {P : List Part} {z : State} {g : Fin 4} {win : ℕ} {e : TdcHeld} {rest : List TdcHeld} {s : State} {tt : State} {x1}
    (e0 : Machine.pairOne g win e rest s = (tt, x1)) (hP : within [.regs, .net, .time] P = true) (h : Moves P z s) : Moves P z tt := by
  have k := pairOne_moves (P := P) (z := z) (hP := hP) (h := h) (g := g) (win := win) (e := e) (rest := rest)
  rw [e0] at k
  exact k

theorem pairRun_moves {P : List Part} {z : State} {g : Fin 4} {win : ℕ} {limit : ℕ} {a3 : ℕ} {a4 : List TdcHeld} {a5 : State} (hP : within [.regs, .net, .time] P = true) (h : Moves P z a5) :
    Moves P z (Machine.pairRun g win limit a3 a4 a5) := by
  induction a3 generalizing a4 a5 with
  | zero => unfold Machine.pairRun; exact modTdc_moves (within_trans rfl hP) h
  | succ n ih =>
    cases a4 with
    | nil => unfold Machine.pairRun; exact modTdc_moves (within_trans rfl hP) h
    | cons e es =>
      unfold Machine.pairRun
      split
      · exact modTdc_moves (within_trans rfl hP) h
      · split
        next s1 rest e0 => exact ih (pairOne_moves_eq e0 (within_trans rfl hP) h)

theorem pairHoldSt_moves {P : List Part} {z : State} {g : Fin 4} {s : State} (hP : within [.regs, .net, .time] P = true) (h : Moves P z s) :
    Moves P z (Machine.pairHoldSt g s) := by
  unfold Machine.pairHoldSt
  split
  · with_reducible assumption
  · extract_lets +onlyGivenNames q0
    clear_value q0
    with_reducible apply pairRun_moves (within_trans rfl hP)
    with_reducible assumption

theorem startTdcCal_moves {P : List Part} {z : State} {s : State} {c : Fin 9} (hP : within [.time] P = true) (h : Moves P z s) :
    Moves P z (Machine.startTdcCal s c) := by
  unfold Machine.startTdcCal
  refine Moves.ite ?_ ?_
  · with_reducible assumption
  · with_reducible apply modTdc_moves (within_trans rfl hP)
    with_reducible assumption

theorem failTdcCal_moves {P : List Part} {z : State} {s : State} {c : Fin 9} {code : ℕ} (hP : within [.regs, .log, .time] P = true) (h : Moves P z s) :
    Moves P z (Machine.failTdcCal s c code) := by
  unfold Machine.failTdcCal
  refine Moves.ite ?_ ?_
  · extract_lets +onlyGivenNames q0
    have h0 : Moves P z q0 := by
      unfold q0
      with_reducible apply modTdc_moves (within_trans rfl hP)
      with_reducible assumption
    clear_value q0
    extract_lets +onlyGivenNames q1
    have h1 : Moves P z q1 := by
      unfold q1
      with_reducible apply setF_moves (within_trans rfl hP)
      with_reducible apply setF_moves (within_trans rfl hP)
      with_reducible assumption
    clear_value q1
    with_reducible apply logEvent_moves (within_trans rfl hP)
    with_reducible apply bump_moves (within_trans rfl hP)
    with_reducible assumption
  · with_reducible assumption

theorem tdcCalDoneSt_moves {P : List Part} {z : State} {c : Fin 9} {given : List ℕ} {s : State} (hP : within [.regs, .log, .time] P = true) (h : Moves P z s) :
    Moves P z (Machine.tdcCalDoneSt c given s) := by
  unfold Machine.tdcCalDoneSt
  split
  · with_reducible assumption
  · extract_lets +onlyGivenNames q0
    clear_value q0
    refine Moves.ite ?_ ?_
    · with_reducible assumption
    · refine Moves.ite ?_ ?_
      · with_reducible apply modTdc_moves (within_trans rfl hP)
        with_reducible assumption
      · with_reducible apply failTdcCal_moves (within_trans rfl hP)
        with_reducible assumption

theorem startAllCals_moves {P : List Part} {z : State} {s : State} (hP : within [.time] P = true) (h : Moves P z s) :
    Moves P z (Machine.startAllCals s) := by
  unfold Machine.startAllCals
  refine Moves.folded (fun _ _ _ => ?_) ?_
  · with_reducible apply startTdcCal_moves (within_trans rfl hP)
    with_reducible assumption
  · with_reducible assumption

theorem tdcDie_moves {P : List Part} {z : State} {s : State} {mk : ℤ} (hP : within [.time] P = true) (h : Moves P z s) :
    Moves P z (Machine.tdcDie s mk) := by
  unfold Machine.tdcDie
  extract_lets +onlyGivenNames q0
  have h0 : Moves P z q0 := by
    unfold q0
    with_reducible apply modTime_moves (within_trans rfl hP)
    with_reducible assumption
  clear_value q0
  refine Moves.folded (fun _ _ _ => ?_) ?_
  · refine Moves.ite ?_ ?_
    · with_reducible apply startTdcCal_moves (within_trans rfl hP)
      with_reducible assumption
    · with_reducible assumption
  · with_reducible assumption

theorem monExpirySt_moves {P : List Part} {z : State} {l : Fin 2} {s : State} (hP : within [.regs, .log, .time] P = true) (h : Moves P z s) :
    Moves P z (Machine.monExpirySt l s) := by
  unfold Machine.monExpirySt
  split
  · refine Moves.ite ?_ ?_
    · extract_lets +onlyGivenNames q0
      have h0 : Moves P z q0 := by
        unfold q0
        with_reducible apply modTime_moves (within_trans rfl hP)
        with_reducible assumption
      clear_value q0
      refine Moves.ite ?_ ?_
      · with_reducible assumption
      · extract_lets +onlyGivenNames q1
        clear_value q1
        extract_lets +onlyGivenNames q2
        have h2 : Moves P z q2 := by
          unfold q2
          with_reducible apply bump_moves (within_trans rfl hP)
          with_reducible apply modTdc_moves (within_trans rfl hP)
          with_reducible assumption
        clear_value q2
        refine Moves.ite ?_ ?_
        · with_reducible apply logEvent_moves (within_trans rfl hP)
          with_reducible apply modTdc_moves (within_trans rfl hP)
          with_reducible assumption
        · with_reducible assumption
    · with_reducible assumption
  · with_reducible assumption

theorem restartCals_moves {P : List Part} {z : State} {s : State} (hP : within [.regs, .log, .time] P = true) (h : Moves P z s) :
    Moves P z (Machine.restartCals s) := by
  unfold Machine.restartCals
  refine Moves.folded (fun _ _ _ => ?_) ?_
  · refine Moves.ite ?_ ?_
    · with_reducible apply startTdcCal_moves (within_trans rfl hP)
      with_reducible apply failTdcCal_moves (within_trans rfl hP)
      with_reducible assumption
    · with_reducible assumption
  · with_reducible assumption

theorem timeRefs_moves {P : List Part} {z : State} {s : State} (hP : within [.regs, .log, .time, .hk, .freeCtr] P = true) (h : Moves P z s) :
    Moves P z (Machine.timeRefs s) := by
  unfold Machine.timeRefs
  extract_lets +onlyGivenNames q0
  have h0 : Moves P z q0 := by
    unfold q0
    with_reducible apply switchRef_moves (within_trans rfl hP)
    with_reducible assumption
  clear_value q0
  refine Moves.ite ?_ ?_
  · with_reducible assumption
  · refine Moves.ite ?_ ?_
    · extract_lets +onlyGivenNames q1
      have h1 : Moves P z q1 := by
        unfold q1
        refine Moves.folded (fun _ _ _ => ?_) ?_
        · with_reducible apply failTdcCal_moves (within_trans rfl hP)
          with_reducible assumption
        · with_reducible assumption
      clear_value q1
      with_reducible apply Moves.setHk (within_trans rfl hP)
      with_reducible assumption
    · with_reducible apply restartCals_moves (within_trans rfl hP)
      with_reducible assumption

theorem tdcWarm_moves {P : List Part} {z : State} {s : State} (hP : within [.regs, .log, .time] P = true) (h : Moves P z s) :
    Moves P z (Machine.tdcWarm s) := by
  unfold Machine.tdcWarm
  with_reducible apply restartCals_moves (within_trans rfl hP)
  refine Moves.folded (fun _ _ _ => ?_) ?_
  · with_reducible apply modTdc_moves (within_trans rfl hP)
    with_reducible assumption
  · with_reducible assumption

end Sys2Proof.Laws
end

