-- ==== Sys2Proof/Laws/ResetsMoves.lean ====
section
/-! SUPPORT. What each operation of Machine/Resets.lean can do: the parts of the state it changes, and that it keeps the
invariants. -/

namespace Sys2Proof.Laws
open Sys2Proof Sys2Proof.Machine Sys2Proof.Safety

theorem keepRegs_moves {P : List Part} {z : State} {kept : RegRow → Bool} {sel : ℕ → Bool} {s : State} (hP : within [.regs] P = true) (h : Moves P z s) :
    Moves P z (Machine.keepRegs kept sel s) := by
  unfold Machine.keepRegs
  with_reducible apply Moves.setRegs (within_trans rfl hP)
  · exact fun k => tabMap_wf _ _ _ k
  · with_reducible assumption

theorem stopLineTravs_moves {P : List Part} {z : State} {s : State} {l : ℕ} (hP : within [.trav, .sense] P = true) (h : Moves P z s) :
    Moves P z (Machine.stopLineTravs s l) := by
  unfold Machine.stopLineTravs
  refine Moves.folded (fun _ _ _ => ?_) ?_
  · with_reducible apply dropOpen_moves (within_trans rfl hP)
    with_reducible apply modTrav_moves (within_trans rfl hP)
    with_reducible assumption
  · with_reducible assumption

theorem zeroLine_moves {P : List Part} {z : State} {s : State} {l : ℕ} (hP : within [.trav] P = true) (h : Moves P z s) :
    Moves P z (Machine.zeroLine s l) := by
  unfold Machine.zeroLine
  refine Moves.folded (fun _ _ _ => ?_) ?_
  · with_reducible apply zeroWindow_moves (within_trans rfl hP)
    with_reducible assumption
  · with_reducible assumption

theorem clearSticky_moves {P : List Part} {z : State} {s : State} {l : ℕ} (hP : within [.trav] P = true) (h : Moves P z s) :
    Moves P z (Machine.clearSticky s l) := by
  unfold Machine.clearSticky
  refine Moves.folded (fun _ _ _ => ?_) ?_
  · with_reducible apply modTrav_moves (within_trans rfl hP)
    with_reducible assumption
  · with_reducible assumption

theorem clearLost_moves {P : List Part} {z : State} {s : State} (hP : within [.time] P = true) (h : Moves P z s) :
    Moves P z (Machine.clearLost s) := by
  unfold Machine.clearLost
  refine Moves.folded (fun _ _ _ => ?_) ?_
  · with_reducible apply modTdc_moves (within_trans rfl hP)
    with_reducible assumption
  · with_reducible assumption

theorem emptyLine_moves {P : List Part} {z : State} {s : State} {l : Fin 2} (hP : within [.regs, .trav, .probe, .pce, .sense, .xbuf] P = true) (h : Moves P z s) :
    Moves P z (Machine.emptyLine s l) := by
  unfold Machine.emptyLine
  extract_lets +onlyGivenNames q0
  have h0 : Moves P z q0 := by
    unfold q0
    with_reducible apply modProbe_moves (within_trans rfl hP)
    · (intro _ k; exact k)
    · with_reducible assumption
  clear_value q0
  extract_lets +onlyGivenNames q1
  have h1 : Moves P z q1 := by
    unfold q1
    with_reducible apply sweepRestart_moves (within_trans rfl hP)
    with_reducible apply pceLineReset_moves (within_trans rfl hP)
    with_reducible assumption
  clear_value q1
  extract_lets +onlyGivenNames q2
  have h2 : Moves P z q2 := by
    unfold q2
    with_reducible apply dasRestart_moves (within_trans rfl hP)
    with_reducible apply zeroLine_moves (within_trans rfl hP)
    with_reducible apply stopLineTravs_moves (within_trans rfl hP)
    with_reducible assumption
  clear_value q2
  with_reducible apply ramanRestart_moves (within_trans rfl hP)
  with_reducible assumption

theorem lineResetWork_moves {P : List Part} {z : State} {s : State} {l : Fin 2} (hP : within [.regs, .keeper, .log, .trav, .probe, .conv, .pce, .sense, .net, .zn, .streams, .code, .xbuf] P = true) (h : Moves P z s) :
    Moves P z (Machine.lineResetWork s l) := by
  unfold Machine.lineResetWork
  extract_lets +onlyGivenNames q0
  have h0 : Moves P z q0 := by
    unfold q0
    with_reducible apply disarmForEvent_moves (within_trans rfl hP)
    with_reducible assumption
  clear_value q0
  extract_lets +onlyGivenNames q1
  have h1 : Moves P z q1 := by
    unfold q1
    with_reducible apply raiseSettling_moves (within_trans rfl hP)
    with_reducible apply closeWindow_moves (within_trans rfl hP)
    with_reducible apply emptyLine_moves (within_trans rfl hP)
    with_reducible assumption
  clear_value q1
  with_reducible apply clearTimers_moves (within_trans rfl hP)
  with_reducible apply staleLine_moves (within_trans rfl hP)
  with_reducible apply restartLineStreams_moves (within_trans rfl hP)
  with_reducible assumption

theorem lineResetSt_moves {P : List Part} {z : State} {l : Fin 2} {s : State} (hP : within [.regs, .keeper, .log, .fu, .trav, .probe, .conv, .pce, .sense, .net, .time, .hk, .zn, .streams, .code, .xbuf] P = true) (h : Moves P z s) :
    Moves P z (Machine.lineResetSt l s) := by
  unfold Machine.lineResetSt
  extract_lets +onlyGivenNames q0
  have h0 : Moves P z q0 := by
    unfold q0
    with_reducible apply clearLost_moves (within_trans rfl hP)
    with_reducible apply clearSticky_moves (within_trans rfl hP)
    with_reducible apply convStop_moves (within_trans rfl hP)
    with_reducible apply lineResetWork_moves (within_trans rfl hP)
    with_reducible assumption
  clear_value q0
  extract_lets +onlyGivenNames q1
  have h1 : Moves P z q1 := by
    unfold q1
    with_reducible apply bump_moves (within_trans rfl hP)
    with_reducible assumption
  clear_value q1
  extract_lets +onlyGivenNames q2
  have h2 : Moves P z q2 := by
    unfold q2
    with_reducible apply keepRegs_moves (within_trans rfl hP)
    with_reducible assumption
  clear_value q2
  extract_lets +onlyGivenNames q3
  have h3 : Moves P z q3 := by
    unfold q3
    with_reducible apply modHk_moves (within_trans rfl hP)
    with_reducible assumption
  clear_value q3
  with_reducible apply proxyAck_moves (within_trans rfl hP)
  with_reducible apply Moves.setKeeper (within_trans rfl hP)
  · with_reducible exact keeper_mk_otp
  · with_reducible assumption

theorem lineResetDoneSt_moves {P : List Part} {z : State} {l : Fin 2} {s : State} (hP : within [.regs, .keeper, .log, .probe, .conv, .pce, .hk, .freeCtr] P = true) (h : Moves P z s) :
    Moves P z (Machine.lineResetDoneSt l s) := by
  unfold Machine.lineResetDoneSt
  refine Moves.ite ?_ ?_
  · extract_lets +onlyGivenNames q0
    extract_lets +onlyGivenNames q1
    have h1 : Moves P z q1 := by
      unfold q1
      with_reducible apply Moves.setKeeper (within_trans rfl hP)
      · with_reducible exact keeper_mk_otp
      · with_reducible assumption
    clear_value q1
    with_reducible apply rearmLines_moves (within_trans rfl hP)
    with_reducible apply restartSchedule_moves (within_trans rfl hP)
    with_reducible apply remeasure_moves (within_trans rfl hP)
    with_reducible apply resumeCal_moves (within_trans rfl hP)
    with_reducible assumption
  · with_reducible assumption

theorem stopFlash_wf (m : MgmtSt) (n : Nat) (hf : tabWf (fun _ => 0xFF#8) m.flash = true) :
    tabWf (fun _ => 0xFF#8) (stopFlash m n) = true := by
  unfold stopFlash
  split
  · exact hf
  · refine tabSet_fold_wf (0xFF#8) _ _ _ _ hf

theorem coldState_regs (s : State) (kind cause : Nat) : (coldState s kind cause).regs = [] := by rfl

theorem coldState_pending (s : State) (kind cause : Nat) : (coldState s kind cause).pending = s.pending := by rfl

theorem coldState_out (s : State) (kind cause : Nat) : (coldState s kind cause).fu.out = [] := by rfl

theorem coldState_entries (s : State) (kind cause : Nat) : (coldState s kind cause).log.entries = [] := by rfl

theorem coldState_otp (s : State) (kind cause : Nat) : (coldState s kind cause).keeper.otp = s.keeper.otp := by rfl

theorem coldState_dram (s : State) (kind cause : Nat) : (coldState s kind cause).dram = [] := by rfl

theorem coldState_xbuf (s : State) (kind cause : Nat) : (coldState s kind cause).xbuf = [] := by rfl

theorem coldState_ilk (s : State) (kind cause : Nat) (_ : interlocked s) : interlocked (coldState s kind cause) := by
  intro l _
  fin_cases l <;> rfl

theorem coldState_sram (s : State) (kind cause : Nat) : (coldState s kind cause).mgmt.sram = [] := by rfl

theorem coldState_flash (s : State) (kind cause : Nat) : (coldState s kind cause).mgmt.flash =
    if decide (kind = 0) then stopFlash s.mgmt s.freeCtr else s.mgmt.flash := by rfl

theorem coldState_moves {P : List Part} {z : State} {s : State} {kind : ℕ} {cause : ℕ} (hP : within [.regs, .cfg, .keeper, .book, .log, .fu, .trav, .probe, .conv, .pce, .sense, .net, .time, .mem, .hk, .zn, .streams, .code, .mgmt, .flash, .samples, .dram, .xbuf, .now, .up, .freeCtr] P = true) (h : Moves P z s) :
    Moves P z (Machine.coldState s kind cause) := by
  refine h.step (fun p hp => ?_) (coldState_pending s kind cause) (fun k => ⟨?_, ?_, ?_⟩) (coldState_ilk s kind cause)
  · cases p <;> first | exact absurd (mem_of_within hP (by decide)) hp | exact coldState_otp s kind cause
  · have hf : tabWf (fun _ => 0xFF#8) s.mgmt.flash = true := by
      have := k.1
      simp only [Memory.wf, Bool.and_eq_true] at this
      exact this.1.2
    unfold Memory.wf
    rw [coldState_regs, coldState_dram, coldState_xbuf, coldState_flash, coldState_sram]
    simp only [Bool.and_eq_true]
    refine ⟨⟨⟨⟨rfl, rfl⟩, rfl⟩, ?_⟩, rfl⟩
    split
    · exact stopFlash_wf _ _ hf
    · exact hf
  · rw [coldState_out]; exact Nat.zero_le _
  · rw [coldState_entries]; exact Nat.zero_le _

theorem coldReset_moves {P : List Part} {z : State} {s : State} {cause : ℕ} (hP : within [.regs, .cfg, .keeper, .book, .log, .fu, .trav, .probe, .conv, .pce, .sense, .net, .time, .mem, .hk, .zn, .streams, .code, .mgmt, .flash, .samples, .dram, .xbuf, .now, .up, .freeCtr] P = true) (h : Moves P z s) :
    Moves P z (Machine.coldReset s cause) := by
  unfold Machine.coldReset
  with_reducible apply coldState_moves (within_trans rfl hP)
  with_reducible assumption

theorem porReset_moves {P : List Part} {z : State} {s : State} (hP : within [.regs, .cfg, .keeper, .book, .log, .fu, .trav, .probe, .conv, .pce, .sense, .net, .time, .mem, .hk, .zn, .streams, .code, .mgmt, .flash, .samples, .dram, .xbuf, .now, .up, .freeCtr] P = true) (h : Moves P z s) :
    Moves P z (Machine.porReset s) := by
  unfold Machine.porReset
  with_reducible apply coldState_moves (within_trans rfl hP)
  with_reducible assumption

theorem warmLinks_moves {P : List Part} {z : State} {s : State} (hP : within [.regs, .net] P = true) (h : Moves P z s) :
    Moves P z (Machine.warmLinks s) := by
  unfold Machine.warmLinks
  extract_lets +onlyGivenNames q0
  have h0 : Moves P z q0 := by
    unfold q0
    with_reducible apply bumpBy_moves (within_trans rfl hP)
    with_reducible assumption
  clear_value q0
  with_reducible apply Moves.setNet (within_trans rfl hP)
  with_reducible assumption

theorem warmKeep_moves {P : List Part} {z : State} {now : ℕ} {cause : ℕ} {s7 : State} (hP : within [.regs, .keeper, .book, .fu, .trav, .mem, .hk, .mgmt] P = true) (h : Moves P z s7) :
    Moves P z (Machine.warmKeep now cause s7) := by
  unfold Machine.warmKeep
  with_reducible apply keepRegs_moves (within_trans rfl hP)
  with_reducible apply Moves.setKeeperBookFuTravMemHkMgmt (within_trans rfl hP)
  · with_reducible exact keeper_mk_otp
  · with_reducible exact Nat.le_of_eq (congrArg List.length fenceunit_mk_out)
  · with_reducible exact mgmtst_mk_flash
  · with_reducible exact mgmtst_mk_sram
  · with_reducible assumption

theorem warmReset_moves {P : List Part} {z : State} {s : State} {cause : ℕ} (hP : within [.regs, .keeper, .book, .log, .fu, .trav, .probe, .conv, .pce, .sense, .net, .time, .mem, .hk, .zn, .streams, .code, .mgmt, .xbuf] P = true) (h : Moves P z s) :
    Moves P z (Machine.warmReset s cause) := by
  unfold Machine.warmReset
  extract_lets +onlyGivenNames q0
  have h0 : Moves P z q0 := by
    unfold q0
    refine Moves.folded (fun _ _ _ => ?_) ?_
    · with_reducible apply modProbe_moves (within_trans rfl hP)
      · (intro _ k; exact k)
      · with_reducible apply disarmForEvent_moves (within_trans rfl hP)
        with_reducible assumption
    · with_reducible assumption
  clear_value q0
  extract_lets +onlyGivenNames q1
  have h1 : Moves P z q1 := by
    unfold q1
    refine Moves.folded (fun _ _ _ => ?_) ?_
    · with_reducible apply closeWindow_moves (within_trans rfl hP)
      with_reducible apply convStop_moves (within_trans rfl hP)
      with_reducible assumption
    · with_reducible assumption
  clear_value q1
  extract_lets +onlyGivenNames q2
  have h2 : Moves P z q2 := by
    unfold q2
    refine Moves.folded (fun _ _ _ => ?_) ?_
    · with_reducible apply ramanRestart_moves (within_trans rfl hP)
      with_reducible apply dasRestart_moves (within_trans rfl hP)
      with_reducible apply clearAct_moves (within_trans rfl hP)
      with_reducible assumption
    · with_reducible assumption
  clear_value q2
  extract_lets +onlyGivenNames q3
  have h3 : Moves P z q3 := by
    unfold q3
    refine Moves.folded (fun _ _ _ => ?_) ?_
    · with_reducible apply sweepRestart_moves (within_trans rfl hP)
      with_reducible apply pceStop_moves (within_trans rfl hP)
      with_reducible assumption
    · with_reducible assumption
  clear_value q3
  extract_lets +onlyGivenNames q4
  have h4 : Moves P z q4 := by
    unfold q4
    refine Moves.forEach (fun _ _ _ => ?_) ?_
    · with_reducible apply restartStream_moves (within_trans rfl hP)
      with_reducible assumption
    · with_reducible assumption
  clear_value q4
  extract_lets +onlyGivenNames q5
  have h5 : Moves P z q5 := by
    unfold q5
    refine Moves.folded (fun _ _ _ => ?_) ?_
    · with_reducible apply clearTimers_moves (within_trans rfl hP)
      with_reducible apply staleLine_moves (within_trans rfl hP)
      with_reducible assumption
    · with_reducible assumption
  clear_value q5
  extract_lets +onlyGivenNames q6
  have h6 : Moves P z q6 := by
    unfold q6
    with_reducible apply ringWarm_moves (within_trans rfl hP)
    with_reducible apply warmQuads_moves (within_trans rfl hP)
    with_reducible apply warmLinks_moves (within_trans rfl hP)
    with_reducible apply clearLost_moves (within_trans rfl hP)
    with_reducible apply tdcWarm_moves (within_trans rfl hP)
    with_reducible assumption
  clear_value q6
  with_reducible apply proxyAck_moves (within_trans rfl hP)
  with_reducible apply warmKeep_moves (within_trans rfl hP)
  with_reducible assumption

theorem warmCause_moves {P : List Part} {z : State} {s : State} {cause : ℕ} (hP : within [.regs, .cfg, .keeper, .book, .log, .fu, .trav, .probe, .conv, .pce, .sense, .net, .time, .mem, .hk, .zn, .streams, .code, .mgmt, .flash, .samples, .dram, .xbuf, .now, .up, .freeCtr] P = true) (h : Moves P z s) :
    Moves P z (Machine.warmCause s cause) := by
  unfold Machine.warmCause
  extract_lets +onlyGivenNames q0
  extract_lets +onlyGivenNames q1
  have h1 : Moves P z q1 := by
    unfold q1
    with_reducible apply Moves.setKeeper (within_trans rfl hP)
    · with_reducible exact keeper_mk_otp
    · with_reducible assumption
  clear_value q1
  refine Moves.ite ?_ ?_
  · with_reducible apply coldReset_moves (within_trans rfl hP)
    with_reducible assumption
  · with_reducible apply warmReset_moves (within_trans rfl hP)
    with_reducible assumption

theorem modKeeper_moves {P : List Part} {z : State} {s : State} {f : Keeper → Keeper} (hP : within [.keeper] P = true) (ho : (f s.keeper).otp = s.keeper.otp) (h : Moves P z s) :
    Moves P z (Machine.modKeeper s f) := by
  unfold Machine.modKeeper
  with_reducible apply Moves.setKeeper (within_trans rfl hP)
  · assumption
  · with_reducible assumption

theorem recordHashSt_moves {P : List Part} {z : State} {amendedPlan : Bool} {s : State} (hP : within [.regs, .keeper] P = true) (h : Moves P z s) :
    Moves P z (Machine.recordHashSt amendedPlan s) := by
  unfold Machine.recordHashSt
  refine Moves.ite ?_ ?_
  · with_reducible apply mbxAnswer_moves (within_trans rfl hP)
    with_reducible apply modKeeper_moves (within_trans rfl hP)
    · with_reducible exact keeper_mk_otp
    · with_reducible assumption
  · refine Moves.ite ?_ ?_
    · with_reducible apply mbxAnswer_moves (within_trans rfl hP)
      with_reducible assumption
    · with_reducible apply mbxAnswer_moves (within_trans rfl hP)
      with_reducible apply modKeeper_moves (within_trans rfl hP)
      · with_reducible exact keeper_mk_otp
      · with_reducible assumption

theorem hashFail_moves {P : List Part} {z : State} {s : State} (hP : within [.regs, .cfg, .keeper, .book, .log, .fu, .trav, .probe, .conv, .pce, .sense, .net, .time, .mem, .hk, .zn, .streams, .code, .mgmt, .flash, .samples, .dram, .xbuf, .now, .up, .freeCtr] P = true) (h : Moves P z s) :
    Moves P z (Machine.hashFail s) := by
  unfold Machine.hashFail
  extract_lets +onlyGivenNames q0
  clear_value q0
  with_reducible apply logEvent_moves (within_trans rfl hP)
  with_reducible apply coldReset_moves (within_trans rfl hP)
  with_reducible assumption

theorem warmHashSt_moves {P : List Part} {z : State} {s : State} (hP : within [.regs, .cfg, .keeper, .book, .log, .fu, .trav, .probe, .conv, .pce, .sense, .net, .time, .mem, .hk, .zn, .streams, .code, .mgmt, .flash, .samples, .dram, .xbuf, .now, .up, .freeCtr] P = true) (h : Moves P z s) :
    Moves P z (Machine.warmHashSt s) := by
  unfold Machine.warmHashSt
  refine Moves.ite ?_ ?_
  · refine Moves.ite ?_ ?_
    · refine Moves.ite ?_ ?_
      · with_reducible apply setF_moves (within_trans rfl hP)
        with_reducible apply Moves.setKeeper (within_trans rfl hP)
        · with_reducible exact keeper_mk_otp
        · with_reducible assumption
      · with_reducible apply setF_moves (within_trans rfl hP)
        with_reducible apply Moves.setMem (within_trans rfl hP)
        with_reducible assumption
    · with_reducible apply hashFail_moves (within_trans rfl hP)
      with_reducible assumption
  · with_reducible assumption

theorem watchdogSt_moves {P : List Part} {z : State} {s : State} (hP : within [.regs, .cfg, .keeper, .book, .log, .fu, .trav, .probe, .conv, .pce, .sense, .net, .time, .mem, .hk, .zn, .streams, .code, .mgmt, .flash, .samples, .dram, .xbuf, .now, .up, .freeCtr] P = true) (h : Moves P z s) :
    Moves P z (Machine.watchdogSt s) := by
  unfold Machine.watchdogSt
  refine Moves.ite ?_ ?_
  · extract_lets +onlyGivenNames q0
    clear_value q0
    refine Moves.ite ?_ ?_
    · with_reducible apply setF_moves (within_trans rfl hP)
      with_reducible assumption
    · extract_lets +onlyGivenNames q1
      have h1 : Moves P z q1 := by
        unfold q1
        with_reducible apply bump_moves (within_trans rfl hP)
        with_reducible assumption
      clear_value q1
      with_reducible apply warmCause_moves (within_trans rfl hP)
      with_reducible apply logEvent_moves (within_trans rfl hP)
      with_reducible assumption
  · with_reducible assumption

theorem mbxWarmSt_moves {P : List Part} {z : State} {host : Bool} {s : State} (hP : within [.regs, .cfg, .keeper, .book, .log, .fu, .trav, .probe, .conv, .pce, .sense, .net, .time, .mem, .hk, .zn, .streams, .code, .mgmt, .flash, .samples, .dram, .xbuf, .now, .up, .freeCtr] P = true) (h : Moves P z s) :
    Moves P z (Machine.mbxWarmSt host s) := by
  unfold Machine.mbxWarmSt
  refine Moves.ite ?_ ?_
  · with_reducible apply mbxAnswer_moves (within_trans rfl hP)
    with_reducible assumption
  · with_reducible apply warmCause_moves (within_trans rfl hP)
    with_reducible apply mbxAnswer_moves (within_trans rfl hP)
    with_reducible assumption

theorem mbxColdSt_moves {P : List Part} {z : State} {host : Bool} {s : State} (hP : within [.regs, .cfg, .keeper, .book, .log, .fu, .trav, .probe, .conv, .pce, .sense, .net, .time, .mem, .hk, .zn, .streams, .code, .mgmt, .flash, .samples, .dram, .xbuf, .now, .up, .freeCtr] P = true) (h : Moves P z s) :
    Moves P z (Machine.mbxColdSt host s) := by
  unfold Machine.mbxColdSt
  with_reducible apply coldReset_moves (within_trans rfl hP)
  with_reducible assumption

theorem mbxLineSt_moves {P : List Part} {z : State} {l : Fin 2} {s : State} (hP : within [.regs, .keeper, .log, .fu, .trav, .probe, .conv, .pce, .sense, .net, .time, .hk, .zn, .streams, .code, .xbuf] P = true) (h : Moves P z s) :
    Moves P z (Machine.mbxLineSt l s) := by
  unfold Machine.mbxLineSt
  refine Moves.ite ?_ ?_
  · with_reducible apply mbxAnswer_moves (within_trans rfl hP)
    with_reducible assumption
  · refine Moves.ite ?_ ?_
    · with_reducible apply lineResetSt_moves (within_trans rfl hP)
      with_reducible apply mbxAnswer_moves (within_trans rfl hP)
      with_reducible assumption
    · with_reducible apply mbxAnswer_moves (within_trans rfl hP)
      with_reducible assumption

theorem holdLoops_moves {P : List Part} {z : State} {s : State} (hP : within [.zn] P = true) (h : Moves P z s) :
    Moves P z (Machine.holdLoops s) := by
  unfold Machine.holdLoops
  refine Moves.folded (fun _ _ _ => ?_) ?_
  · refine Moves.ite ?_ ?_
    · with_reducible apply modLoop_moves (within_trans rfl hP)
      with_reducible assumption
    · with_reducible assumption
  · with_reducible assumption

theorem unholdLoops_moves {P : List Part} {z : State} {s : State} (hP : within [.zn] P = true) (h : Moves P z s) :
    Moves P z (Machine.unholdLoops s) := by
  unfold Machine.unholdLoops
  with_reducible apply loopsRefresh_moves (within_trans rfl hP)
  refine Moves.folded (fun _ _ _ => ?_) ?_
  · refine Moves.ite ?_ ?_
    · with_reducible apply modLoop_moves (within_trans rfl hP)
      with_reducible assumption
    · with_reducible assumption
  · with_reducible assumption

theorem standbyKeep_moves {P : List Part} {z : State} {s6 : State} (hP : within [.regs, .keeper, .net, .mem, .hk] P = true) (h : Moves P z s6) :
    Moves P z (Machine.standbyKeep s6) := by
  unfold Machine.standbyKeep
  with_reducible apply keepRegs_moves (within_trans rfl hP)
  with_reducible apply idleQuads_moves (within_trans rfl hP)
  with_reducible apply Moves.setKeeperMemHk (within_trans rfl hP)
  · with_reducible exact keeper_mk_otp
  · with_reducible assumption

theorem enterStandby_moves {P : List Part} {z : State} {s : State} {cause : ℕ} (hP : within [.regs, .keeper, .log, .fu, .trav, .probe, .conv, .pce, .sense, .net, .time, .mem, .hk, .zn, .streams, .code] P = true) (h : Moves P z s) :
    Moves P z (Machine.enterStandby s cause) := by
  unfold Machine.enterStandby
  extract_lets +onlyGivenNames q0
  have h0 : Moves P z q0 := by
    unfold q0
    refine Moves.folded (fun _ _ _ => ?_) ?_
    · with_reducible apply disarmForEvent_moves (within_trans rfl hP)
      with_reducible assumption
    · with_reducible assumption
  clear_value q0
  extract_lets +onlyGivenNames q1
  have h1 : Moves P z q1 := by
    unfold q1
    refine Moves.folded (fun _ _ _ => ?_) ?_
    · with_reducible apply modProbe_moves (within_trans rfl hP)
      · (intro _ k; exact k)
      · with_reducible assumption
    · with_reducible assumption
  clear_value q1
  extract_lets +onlyGivenNames q2
  have h2 : Moves P z q2 := by
    unfold q2
    refine Moves.forEach (fun _ _ _ => ?_) ?_
    · with_reducible apply restartStream_moves (within_trans rfl hP)
      with_reducible assumption
    · with_reducible assumption
  clear_value q2
  extract_lets +onlyGivenNames q3
  have h3 : Moves P z q3 := by
    unfold q3
    with_reducible apply setF_moves (within_trans rfl hP)
    with_reducible apply setF_moves (within_trans rfl hP)
    with_reducible assumption
  clear_value q3
  extract_lets +onlyGivenNames q4
  have h4 : Moves P z q4 := by
    unfold q4
    with_reducible apply holdLoops_moves (within_trans rfl hP)
    refine Moves.folded (fun _ _ _ => ?_) ?_
    · with_reducible apply staleLine_moves (within_trans rfl hP)
      with_reducible assumption
    · with_reducible assumption
  clear_value q4
  extract_lets +onlyGivenNames q5
  have h5 : Moves P z q5 := by
    unfold q5
    refine Moves.folded (fun _ _ _ => ?_) ?_
    · with_reducible apply clearSticky_moves (within_trans rfl hP)
      with_reducible apply stopLineTravs_moves (within_trans rfl hP)
      with_reducible apply pceStop_moves (within_trans rfl hP)
      with_reducible apply sweepRestart_moves (within_trans rfl hP)
      with_reducible apply modConv_moves (within_trans rfl hP)
      with_reducible apply closeWindow_moves (within_trans rfl hP)
      with_reducible apply convStop_moves (within_trans rfl hP)
      with_reducible assumption
    · with_reducible assumption
  clear_value q5
  with_reducible apply proxyAck_moves (within_trans rfl hP)
  with_reducible apply standbyKeep_moves (within_trans rfl hP)
  with_reducible apply clearLost_moves (within_trans rfl hP)
  with_reducible assumption

theorem mbxEnterSt_moves {P : List Part} {z : State} {s : State} (hP : within [.regs, .keeper, .log, .fu, .trav, .probe, .conv, .pce, .sense, .net, .time, .mem, .hk, .zn, .streams, .code] P = true) (h : Moves P z s) :
    Moves P z (Machine.mbxEnterSt s) := by
  unfold Machine.mbxEnterSt
  refine Moves.ite ?_ ?_
  · with_reducible apply enterStandby_moves (within_trans rfl hP)
    with_reducible apply mbxAnswer_moves (within_trans rfl hP)
    with_reducible assumption
  · with_reducible apply mbxAnswer_moves (within_trans rfl hP)
    with_reducible assumption

theorem exitCal_moves {P : List Part} {z : State} {s : State} {l : Fin 2} (hP : within [.regs, .conv, .hk] P = true) (h : Moves P z s) :
    Moves P z (Machine.exitCal s l) := by
  unfold Machine.exitCal
  refine Moves.ite ?_ ?_
  · with_reducible apply startFullCal_moves (within_trans rfl hP)
    with_reducible assumption
  · refine Moves.folded (fun _ _ _ => ?_) ?_
    · refine Moves.ite ?_ ?_
      · with_reducible assumption
      · with_reducible apply startPass_moves (within_trans rfl hP)
        with_reducible assumption
    · with_reducible assumption

theorem startExit_moves {P : List Part} {z : State} {s : State} (hP : within [.regs, .keeper, .conv, .net, .mem, .hk] P = true) (h : Moves P z s) :
    Moves P z (Machine.startExit s) := by
  unfold Machine.startExit
  refine Moves.ite ?_ ?_
  · with_reducible assumption
  · extract_lets +onlyGivenNames q0
    extract_lets +onlyGivenNames q1
    clear_value q1
    extract_lets +onlyGivenNames q2
    have h2 : Moves P z q2 := by
      unfold q2
      with_reducible apply Moves.setKeeperMem (within_trans rfl hP)
      · with_reducible exact keeper_mk_otp
      · with_reducible assumption
    clear_value q2
    extract_lets +onlyGivenNames q3
    have h3 : Moves P z q3 := by
      unfold q3
      refine Moves.folded (fun _ _ _ => ?_) ?_
      · with_reducible apply wakeQuad_moves (within_trans rfl hP)
        with_reducible assumption
      · with_reducible assumption
    clear_value q3
    extract_lets +onlyGivenNames q4
    have h4 : Moves P z q4 := by
      unfold q4
      refine Moves.folded (fun _ _ _ => ?_) ?_
      · with_reducible apply exitCal_moves (within_trans rfl hP)
        with_reducible apply raiseSettling_moves (within_trans rfl hP)
        with_reducible apply modConv_moves (within_trans rfl hP)
        with_reducible assumption
      · with_reducible assumption
    clear_value q4
    with_reducible apply Moves.setKeeper (within_trans rfl hP)
    · with_reducible exact keeper_mk_otp
    · with_reducible assumption

theorem mbxExitSt_moves {P : List Part} {z : State} {s : State} (hP : within [.regs, .keeper, .conv, .net, .mem, .hk, .freeCtr] P = true) (h : Moves P z s) :
    Moves P z (Machine.mbxExitSt s) := by
  unfold Machine.mbxExitSt
  refine Moves.ite ?_ ?_
  · with_reducible apply mbxAnswer_moves (within_trans rfl hP)
    with_reducible assumption
  · refine Moves.ite ?_ ?_
    · with_reducible apply mbxRefuse_moves (within_trans rfl hP)
      with_reducible assumption
    · with_reducible apply startExit_moves (within_trans rfl hP)
      with_reducible apply mbxAnswer_moves (within_trans rfl hP)
      with_reducible assumption

theorem endExit_moves {P : List Part} {z : State} {s : State} (hP : within [.regs, .keeper, .log, .trav, .probe, .conv, .sense, .hk, .zn, .xbuf, .freeCtr] P = true) (h : Moves P z s) :
    Moves P z (Machine.endExit s) := by
  unfold Machine.endExit
  extract_lets +onlyGivenNames q0
  have h0 : Moves P z q0 := by
    unfold q0
    with_reducible apply setF_moves (within_trans rfl hP)
    with_reducible apply setF_moves (within_trans rfl hP)
    with_reducible assumption
  clear_value q0
  extract_lets +onlyGivenNames q1
  have h1 : Moves P z q1 := by
    unfold q1
    refine Moves.folded (fun _ _ _ => ?_) ?_
    · with_reducible apply ramanRestart_moves (within_trans rfl hP)
      with_reducible apply dasRestart_moves (within_trans rfl hP)
      with_reducible apply zeroLine_moves (within_trans rfl hP)
      with_reducible apply stopLineTravs_moves (within_trans rfl hP)
      with_reducible assumption
    · with_reducible assumption
  clear_value q1
  extract_lets +onlyGivenNames q2
  have h2 : Moves P z q2 := by
    unfold q2
    refine Moves.folded (fun _ _ _ => ?_) ?_
    · refine Moves.ite ?_ ?_
      · with_reducible apply restartSchedule_moves (within_trans rfl hP)
        with_reducible assumption
      · with_reducible assumption
    · with_reducible assumption
  clear_value q2
  extract_lets +onlyGivenNames q3
  have h3 : Moves P z q3 := by
    unfold q3
    refine Moves.folded (fun _ _ _ => ?_) ?_
    · with_reducible apply resumeCal_moves (within_trans rfl hP)
      with_reducible assumption
    · with_reducible assumption
  clear_value q3
  with_reducible apply rearmLines_moves (within_trans rfl hP)
  with_reducible apply unholdLoops_moves (within_trans rfl hP)
  with_reducible apply Moves.setKeeper (within_trans rfl hP)
  · with_reducible exact keeper_mk_otp
  · with_reducible assumption

theorem exitStepSt_moves {P : List Part} {z : State} {s : State} (hP : within [.regs, .cfg, .keeper, .book, .log, .fu, .trav, .probe, .conv, .pce, .sense, .net, .time, .mem, .hk, .zn, .streams, .code, .mgmt, .flash, .samples, .dram, .xbuf, .now, .up, .freeCtr] P = true) (h : Moves P z s) :
    Moves P z (Machine.exitStepSt s) := by
  unfold Machine.exitStepSt
  refine Moves.ite ?_ ?_
  · extract_lets +onlyGivenNames q0
    extract_lets +onlyGivenNames q1
    have h1 : Moves P z q1 := by
      unfold q1
      with_reducible apply Moves.setKeeper (within_trans rfl hP)
      · with_reducible exact keeper_mk_otp
      · with_reducible assumption
    clear_value q1
    split
    · with_reducible apply evalBudgets_moves (within_trans rfl hP)
      with_reducible apply Moves.setMem (within_trans rfl hP)
      with_reducible assumption
    · refine Moves.ite ?_ ?_
      · with_reducible assumption
      · with_reducible apply hashFail_moves (within_trans rfl hP)
        with_reducible assumption
    · refine Moves.ite ?_ ?_
      · with_reducible assumption
      · with_reducible apply endExit_moves (within_trans rfl hP)
        with_reducible assumption
  · with_reducible assumption

theorem resetCmdSt_moves {P : List Part} {z : State} {s : State} (hP : within [.regs, .cfg, .keeper, .book, .log, .fu, .trav, .probe, .conv, .pce, .sense, .net, .time, .mem, .hk, .zn, .streams, .code, .mgmt, .flash, .samples, .dram, .xbuf, .now, .up, .freeCtr] P = true) (h : Moves P z s) :
    Moves P z (Machine.resetCmdSt s) := by
  unfold Machine.resetCmdSt
  split
  · with_reducible assumption
  · extract_lets +onlyGivenNames q0
    clear_value q0
    extract_lets +onlyGivenNames q1
    have h1 : Moves P z q1 := by
      unfold q1
      with_reducible apply Moves.setBook (within_trans rfl hP)
      with_reducible assumption
    clear_value q1
    split
    · with_reducible apply mbxWarmSt_moves (within_trans rfl hP)
      with_reducible assumption
    · with_reducible apply mbxColdSt_moves (within_trans rfl hP)
      with_reducible assumption
    · with_reducible apply mbxLineSt_moves (within_trans rfl hP)
      with_reducible assumption

theorem standbyCmdSt_moves {P : List Part} {z : State} {s : State} (hP : within [.regs, .keeper, .book, .log, .fu, .trav, .probe, .conv, .pce, .sense, .net, .time, .mem, .hk, .zn, .streams, .code, .freeCtr] P = true) (h : Moves P z s) :
    Moves P z (Machine.standbyCmdSt s) := by
  unfold Machine.standbyCmdSt
  split
  · with_reducible assumption
  · extract_lets +onlyGivenNames q0
    clear_value q0
    extract_lets +onlyGivenNames q1
    have h1 : Moves P z q1 := by
      unfold q1
      with_reducible apply Moves.setBook (within_trans rfl hP)
      with_reducible assumption
    clear_value q1
    refine Moves.ite ?_ ?_
    · with_reducible apply mbxEnterSt_moves (within_trans rfl hP)
      with_reducible assumption
    · with_reducible apply mbxExitSt_moves (within_trans rfl hP)
      with_reducible assumption

theorem enterRecovery_moves {P : List Part} {z : State} {s : State} (hP : within [.regs, .keeper, .log, .fu, .probe, .conv, .zn] P = true) (h : Moves P z s) :
    Moves P z (Machine.enterRecovery s) := by
  unfold Machine.enterRecovery
  with_reducible apply proxyAck_moves (within_trans rfl hP)
  with_reducible apply loopsRefresh_moves (within_trans rfl hP)
  with_reducible apply setF_moves (within_trans rfl hP)
  refine Moves.folded (fun _ _ _ => ?_) ?_
  · with_reducible apply disarmForEvent_moves (within_trans rfl hP)
    with_reducible assumption
  · with_reducible assumption

theorem thermalCheck_moves {P : List Part} {z : State} {s : State} {readings : List ℤ} (hP : within [.regs, .keeper, .log, .fu, .trav, .probe, .conv, .pce, .sense, .net, .time, .mem, .hk, .zn, .streams, .code] P = true) (h : Moves P z s) :
    Moves P z (Machine.thermalCheck s readings) := by
  unfold Machine.thermalCheck
  extract_lets +onlyGivenNames q0
  clear_value q0
  extract_lets +onlyGivenNames q1
  clear_value q1
  extract_lets +onlyGivenNames q2
  extract_lets +onlyGivenNames q3
  have h3 : Moves P z q3 := by
    unfold q3
    with_reducible apply Moves.setKeeper (within_trans rfl hP)
    · with_reducible exact keeper_mk_otp
    · with_reducible assumption
  clear_value q3
  refine Moves.ite ?_ ?_
  · refine Moves.ite ?_ ?_
    · with_reducible apply setF_moves (within_trans rfl hP)
      with_reducible assumption
    · with_reducible apply enterStandby_moves (within_trans rfl hP)
      with_reducible assumption
  · with_reducible assumption

theorem lockLoss_moves {P : List Part} {z : State} {s : State} (hP : within [.regs, .keeper, .log, .fu, .probe, .conv, .net, .zn] P = true) (h : Moves P z s) :
    Moves P z (Machine.lockLoss s) := by
  unfold Machine.lockLoss
  refine Moves.ite ?_ ?_
  · extract_lets +onlyGivenNames q0
    have h0 : Moves P z q0 := by
      unfold q0
      refine Moves.folded (fun _ _ _ => ?_) ?_
      · with_reducible apply disarmForEvent_moves (within_trans rfl hP)
        with_reducible assumption
      · with_reducible assumption
    clear_value q0
    extract_lets +onlyGivenNames q1
    have h1 : Moves P z q1 := by
      unfold q1
      with_reducible apply bump_moves (within_trans rfl hP)
      with_reducible apply modKeeper_moves (within_trans rfl hP)
      · with_reducible exact keeper_mk_otp
      · with_reducible assumption
    clear_value q1
    extract_lets +onlyGivenNames q2
    have h2 : Moves P z q2 := by
      unfold q2
      refine Moves.folded (fun _ _ _ => ?_) ?_
      · with_reducible apply staleLine_moves (within_trans rfl hP)
        with_reducible apply convStop_moves (within_trans rfl hP)
        with_reducible assumption
      · with_reducible assumption
    clear_value q2
    with_reducible apply proxyAck_moves (within_trans rfl hP)
    with_reducible assumption
  · with_reducible assumption

theorem relockSt_moves {P : List Part} {z : State} {s : State} (hP : within [.regs, .keeper, .log, .trav, .probe, .conv, .pce, .sense, .net, .hk, .zn, .streams, .code, .xbuf] P = true) (h : Moves P z s) :
    Moves P z (Machine.relockSt s) := by
  unfold Machine.relockSt
  refine Moves.ite ?_ ?_
  · with_reducible assumption
  · extract_lets +onlyGivenNames q0
    have h0 : Moves P z q0 := by
      unfold q0
      with_reducible apply modKeeper_moves (within_trans rfl hP)
      · with_reducible exact keeper_mk_otp
      · with_reducible assumption
    clear_value q0
    refine Moves.ite ?_ ?_
    · with_reducible assumption
    · refine Moves.folded (fun _ _ _ => ?_) ?_
      · extract_lets +onlyGivenNames q1
        have h1 : Moves P z q1 := by
          unfold q1
          with_reducible apply remeasure_moves (within_trans rfl hP)
          with_reducible apply startFullCal_moves (within_trans rfl hP)
          with_reducible apply lineResetWork_moves (within_trans rfl hP)
          with_reducible assumption
        clear_value q1
        refine Moves.ite ?_ ?_
        · with_reducible apply restartSchedule_moves (within_trans rfl hP)
          with_reducible assumption
        · with_reducible assumption
      · with_reducible assumption

theorem refLossSt_moves {P : List Part} {z : State} {s : State} (hP : within [.regs, .keeper, .log, .net, .time, .hk, .freeCtr] P = true) (h : Moves P z s) :
    Moves P z (Machine.refLossSt s) := by
  unfold Machine.refLossSt
  refine Moves.ite ?_ ?_
  · extract_lets +onlyGivenNames q0
    have h0 : Moves P z q0 := by
      unfold q0
      with_reducible apply modKeeper_moves (within_trans rfl hP)
      · with_reducible exact keeper_mk_otp
      · with_reducible assumption
    clear_value q0
    extract_lets +onlyGivenNames q1
    have h1 : Moves P z q1 := by
      unfold q1
      refine Moves.ite ?_ ?_
      · with_reducible apply logEvent_moves (within_trans rfl hP)
        with_reducible apply modKeeper_moves (within_trans rfl hP)
        · with_reducible exact keeper_mk_otp
        · with_reducible assumption
      · with_reducible assumption
    clear_value q1
    extract_lets +onlyGivenNames q2
    have h2 : Moves P z q2 := by
      unfold q2
      refine Moves.ite ?_ ?_
      · refine Moves.ite ?_ ?_
        · with_reducible apply rebBlind_moves (within_trans rfl hP)
          with_reducible apply modKeeper_moves (within_trans rfl hP)
          · with_reducible exact keeper_mk_otp
          · with_reducible assumption
        · with_reducible apply modKeeper_moves (within_trans rfl hP)
          · with_reducible exact keeper_mk_otp
          · with_reducible assumption
      · with_reducible assumption
    clear_value q2
    with_reducible apply timeRefs_moves (within_trans rfl hP)
    with_reducible assumption
  · with_reducible assumption

theorem freerunSt_moves {P : List Part} {z : State} {s : State} (hP : within [.regs, .keeper, .log, .fu, .probe, .conv, .net, .zn] P = true) (h : Moves P z s) :
    Moves P z (Machine.freerunSt s) := by
  unfold Machine.freerunSt
  refine Moves.ite ?_ ?_
  · extract_lets +onlyGivenNames q0
    clear_value q0
    with_reducible apply modKeeper_moves (within_trans rfl hP)
    · with_reducible exact keeper_mk_otp
    · with_reducible apply lockLoss_moves (within_trans rfl hP)
      with_reducible assumption
  · with_reducible assumption

theorem refReturnSt_moves {P : List Part} {z : State} {s : State} (hP : within [.regs, .keeper, .log, .net, .time, .hk, .freeCtr] P = true) (h : Moves P z s) :
    Moves P z (Machine.refReturnSt s) := by
  unfold Machine.refReturnSt
  extract_lets +onlyGivenNames q0
  have h0 : Moves P z q0 := by
    unfold q0
    with_reducible apply modKeeper_moves (within_trans rfl hP)
    · with_reducible exact keeper_mk_otp
    · with_reducible assumption
  clear_value q0
  extract_lets +onlyGivenNames q1
  have h1 : Moves P z q1 := by
    unfold q1
    refine Moves.ite ?_ ?_
    · with_reducible apply rebBlind_moves (within_trans rfl hP)
      with_reducible apply modKeeper_moves (within_trans rfl hP)
      · with_reducible exact keeper_mk_otp
      · with_reducible assumption
    · with_reducible assumption
  clear_value q1
  with_reducible apply timeRefs_moves (within_trans rfl hP)
  with_reducible assumption

theorem altPresentSt_moves {P : List Part} {z : State} {s : State} (hP : within [.regs, .keeper, .log, .time, .hk, .freeCtr] P = true) (h : Moves P z s) :
    Moves P z (Machine.altPresentSt s) := by
  unfold Machine.altPresentSt
  extract_lets +onlyGivenNames q0
  have h0 : Moves P z q0 := by
    unfold q0
    with_reducible apply modKeeper_moves (within_trans rfl hP)
    · with_reducible exact keeper_mk_otp
    · with_reducible assumption
  clear_value q0
  extract_lets +onlyGivenNames q1
  have h1 : Moves P z q1 := by
    unfold q1
    refine Moves.ite ?_ ?_
    · with_reducible apply modKeeper_moves (within_trans rfl hP)
      · with_reducible exact keeper_mk_otp
      · with_reducible assumption
    · with_reducible assumption
  clear_value q1
  with_reducible apply timeRefs_moves (within_trans rfl hP)
  with_reducible assumption

theorem altLossSt_moves {P : List Part} {z : State} {s : State} (hP : within [.regs, .keeper, .log, .fu, .probe, .conv, .net, .time, .hk, .zn, .freeCtr] P = true) (h : Moves P z s) :
    Moves P z (Machine.altLossSt s) := by
  unfold Machine.altLossSt
  extract_lets +onlyGivenNames q0
  have h0 : Moves P z q0 := by
    unfold q0
    with_reducible apply modKeeper_moves (within_trans rfl hP)
    · with_reducible exact keeper_mk_otp
    · with_reducible assumption
  clear_value q0
  extract_lets +onlyGivenNames q1
  clear_value q1
  extract_lets +onlyGivenNames q2
  have h2 : Moves P z q2 := by
    unfold q2
    refine Moves.ite ?_ ?_
    · with_reducible apply modKeeper_moves (within_trans rfl hP)
      · with_reducible exact keeper_mk_otp
      · with_reducible apply lockLoss_moves (within_trans rfl hP)
        with_reducible assumption
    · with_reducible assumption
  clear_value q2
  extract_lets +onlyGivenNames q3
  have h3 : Moves P z q3 := by
    unfold q3
    refine Moves.ite ?_ ?_
    · refine Moves.ite ?_ ?_
      · with_reducible apply rebBlind_moves (within_trans rfl hP)
        with_reducible apply modKeeper_moves (within_trans rfl hP)
        · with_reducible exact keeper_mk_otp
        · with_reducible assumption
      · with_reducible apply modKeeper_moves (within_trans rfl hP)
        · with_reducible exact keeper_mk_otp
        · with_reducible assumption
    · with_reducible assumption
  clear_value q3
  with_reducible apply timeRefs_moves (within_trans rfl hP)
  with_reducible assumption

theorem fullFgDoneSt_moves {P : List Part} {z : State} {l : Fin 2} {values : List CalVal} {gains : List ℕ} {s : State} (hP : within [.regs, .keeper, .log, .probe, .conv, .freeCtr] P = true) (h : Moves P z s) :
    Moves P z (Machine.fullFgDoneSt l values gains s) := by
  unfold Machine.fullFgDoneSt
  refine Moves.ite ?_ ?_
  · extract_lets +onlyGivenNames q0
    have h0 : Moves P z q0 := by
      unfold q0
      with_reducible apply fullCalSt_moves (within_trans rfl hP)
      with_reducible assumption
    clear_value q0
    refine Moves.ite ?_ ?_
    · with_reducible assumption
    · refine Moves.ite ?_ ?_
      · with_reducible apply setF_moves (within_trans rfl hP)
        with_reducible assumption
      · refine Moves.ite ?_ ?_
        · with_reducible apply rearmLines_moves (within_trans rfl hP)
          with_reducible assumption
        · with_reducible assumption
  · with_reducible assumption

end Sys2Proof.Laws
end

