-- ==== Sys2Proof/Laws/PlanCheckMoves.lean ====
section
/-! SUPPORT. What each operation of Machine/PlanCheck.lean can do: the parts of the state it changes, and that it keeps the
invariants. -/

namespace Sys2Proof.Laws
open Sys2Proof Sys2Proof.Machine Sys2Proof.Safety

theorem planSteps_moves {P : List Part} {z : State} {s : State} (hP : within [.regs] P = true) (h : Moves P z s) :
    Moves P z (Machine.planSteps s) := by
  unfold Machine.planSteps
  split
  · refine Moves.folded (fun _ _ _ => ?_) ?_
    · with_reducible apply setF_moves (within_trans rfl hP)
      with_reducible assumption
    · with_reducible assumption
  · refine Moves.folded (fun _ _ _ => ?_) ?_
    · with_reducible apply setF_moves (within_trans rfl hP)
      with_reducible assumption
    · with_reducible assumption

end Sys2Proof.Laws
end

