-- ==== Sys2Proof/Laws/MemoryMoves.lean ====
section
/-! SUPPORT. What each operation of Machine/Memory.lean can do: the parts of the state it changes, and that it keeps the
invariants. -/

namespace Sys2Proof.Laws
open Sys2Proof Sys2Proof.Machine Sys2Proof.Safety

theorem modCh_moves {P : List Part} {z : State} {s : State} {c : Fin 4} {f : MemCh → MemCh} (hP : within [.mem] P = true) (h : Moves P z s) :
    Moves P z (Machine.modCh s c f) := by
  unfold Machine.modCh
  with_reducible apply Moves.setMem (within_trans rfl hP)
  with_reducible assumption

theorem modMem_moves {P : List Part} {z : State} {s : State} {f : MemSt → MemSt} (hP : within [.mem] P = true) (h : Moves P z s) :
    Moves P z (Machine.modMem s f) := by
  unfold Machine.modMem
  with_reducible apply Moves.setMem (within_trans rfl hP)
  with_reducible assumption

theorem startFreeze_moves {P : List Part} {z : State} {s : State} {f : Freeze} (hP : within [.regs, .net, .mem, .zn] P = true) (h : Moves P z s) :
    Moves P z (Machine.startFreeze s f) := by
  unfold Machine.startFreeze
  with_reducible apply staleFreeze_moves (within_trans rfl hP)
  with_reducible apply modMem_moves (within_trans rfl hP)
  with_reducible assumption

theorem startRetrainFreeze_moves {P : List Part} {z : State} {s : State} {c : Fin 4} (hP : within [.regs, .net, .mem, .zn] P = true) (h : Moves P z s) :
    Moves P z (Machine.startRetrainFreeze s c) := by
  unfold Machine.startRetrainFreeze
  with_reducible apply modCh_moves (within_trans rfl hP)
  with_reducible apply startFreeze_moves (within_trans rfl hP)
  with_reducible assumption

theorem freezeReport_moves {P : List Part} {z : State} {s : State} {f : Freeze} {result : ℕ} (hP : within [.regs, .log] P = true) (h : Moves P z s) :
    Moves P z (Machine.freezeReport s f result) := by
  unfold Machine.freezeReport
  extract_lets +onlyGivenNames q0
  clear_value q0
  extract_lets +onlyGivenNames q1
  have h1 : Moves P z q1 := by
    unfold q1
    with_reducible apply setF_moves (within_trans rfl hP)
    with_reducible apply setF_moves (within_trans rfl hP)
    with_reducible apply setF_moves (within_trans rfl hP)
    with_reducible assumption
  clear_value q1
  extract_lets +onlyGivenNames q2
  have h2 : Moves P z q2 := by
    unfold q2
    with_reducible apply setF_moves (within_trans rfl hP)
    with_reducible apply setF_moves (within_trans rfl hP)
    with_reducible assumption
  clear_value q2
  with_reducible apply logEvent_moves (within_trans rfl hP)
  with_reducible assumption

theorem scrambleDram_moves {P : List Part} {z : State} {s : State} (hP : within [.dram, .freeCtr] P = true) (h : Moves P z s) :
    Moves P z (Machine.scrambleDram s) := by
  unfold Machine.scrambleDram
  extract_lets +onlyGivenNames q0
  clear_value q0
  with_reducible apply Moves.setDramFreeCtr (within_trans rfl hP)
  · exact fun k => tabMap_wf _ _ _ k
  · with_reducible assumption

theorem afterFreeze_moves {P : List Part} {z : State} {s : State} {intact : Bool} (hP : within [.regs, .trav, .sense, .code] P = true) (h : Moves P z s) :
    Moves P z (Machine.afterFreeze s intact) := by
  unfold Machine.afterFreeze
  extract_lets +onlyGivenNames q0
  have h0 : Moves P z q0 := by
    unfold q0
    refine Moves.folded (fun _ _ _ => ?_) ?_
    · with_reducible apply dasRestart_moves (within_trans rfl hP)
      refine Moves.folded (fun _ _ _ => ?_) ?_
      · with_reducible apply zeroWindow_moves (within_trans rfl hP)
        with_reducible assumption
      · with_reducible assumption
    · with_reducible assumption
  clear_value q0
  extract_lets +onlyGivenNames q1
  have h1 : Moves P z q1 := by
    unfold q1
    refine Moves.folded (fun _ _ _ => ?_) ?_
    · with_reducible apply dropOpen_moves (within_trans rfl hP)
      with_reducible assumption
    · with_reducible assumption
  clear_value q1
  refine Moves.ite ?_ ?_
  · with_reducible assumption
  · extract_lets +onlyGivenNames q2
    have h2 : Moves P z q2 := by
      unfold q2
      refine Moves.folded (fun _ _ _ => ?_) ?_
      · refine Moves.ite ?_ ?_
        · with_reducible apply wantCapture_moves (within_trans rfl hP)
          with_reducible assumption
        · with_reducible assumption
      · with_reducible assumption
    clear_value q2
    refine Moves.ite ?_ ?_
    · with_reducible apply emptyRing_moves (within_trans rfl hP)
      with_reducible assumption
    · with_reducible assumption

theorem startPendUe_moves {P : List Part} {z : State} {s : State} (hP : within [.regs, .net, .mem, .zn] P = true) (h : Moves P z s) :
    Moves P z (Machine.startPendUe s) := by
  unfold Machine.startPendUe
  split
  · with_reducible assumption
  · refine Moves.ite ?_ ?_
    · with_reducible apply startFreeze_moves (within_trans rfl hP)
      with_reducible apply modMem_moves (within_trans rfl hP)
      with_reducible assumption
    · with_reducible assumption

theorem nextFreeze_moves {P : List Part} {z : State} {s : State} (hP : within [.regs, .net, .mem, .zn] P = true) (h : Moves P z s) :
    Moves P z (Machine.nextFreeze s) := by
  unfold Machine.nextFreeze
  refine Moves.ite ?_ ?_
  · with_reducible assumption
  · split
    · with_reducible apply startRetrainFreeze_moves (within_trans rfl hP)
      with_reducible assumption
    · with_reducible apply startPendUe_moves (within_trans rfl hP)
      with_reducible assumption

theorem finishFreeze_moves {P : List Part} {z : State} {s : State} {f : Freeze} {result : ℕ} (hP : within [.regs, .log, .trav, .sense, .net, .mem, .zn, .code] P = true) (h : Moves P z s) :
    Moves P z (Machine.finishFreeze s f result) := by
  unfold Machine.finishFreeze
  extract_lets +onlyGivenNames q0
  have h0 : Moves P z q0 := by
    unfold q0
    with_reducible apply modMem_moves (within_trans rfl hP)
    with_reducible apply freezeReport_moves (within_trans rfl hP)
    with_reducible assumption
  clear_value q0
  with_reducible apply nextFreeze_moves (within_trans rfl hP)
  with_reducible apply afterFreeze_moves (within_trans rfl hP)
  with_reducible assumption

theorem loseChannel_moves {P : List Part} {z : State} {s : State} {c : Fin 4} {why : ℕ} (hP : within [.regs, .cfg, .keeper, .book, .log, .fu, .trav, .probe, .conv, .pce, .sense, .net, .time, .mem, .hk, .zn, .streams, .code, .mgmt, .flash, .samples, .dram, .xbuf, .now, .up, .freeCtr] P = true) (h : Moves P z s) :
    Moves P z (Machine.loseChannel s c why) := by
  unfold Machine.loseChannel
  refine Moves.ite ?_ ?_
  · with_reducible apply warmCause_moves (within_trans rfl hP)
    with_reducible assumption
  · extract_lets +onlyGivenNames q0
    have h0 : Moves P z q0 := by
      unfold q0
      with_reducible apply modMem_moves (within_trans rfl hP)
      with_reducible assumption
    clear_value q0
    split
    · with_reducible apply modMem_moves (within_trans rfl hP)
      with_reducible assumption
    · with_reducible apply startFreeze_moves (within_trans rfl hP)
      with_reducible assumption

theorem zeroBlock_moves {P : List Part} {z : State} {s : State} {a : ℕ} (hP : within [.dram, .freeCtr] P = true) (h : Moves P z s) :
    Moves P z (Machine.zeroBlock s a) := by
  unfold Machine.zeroBlock
  extract_lets +onlyGivenNames q0
  clear_value q0
  extract_lets +onlyGivenNames q1
  clear_value q1
  with_reducible apply Moves.setDramFreeCtr (within_trans rfl hP)
  · exact fun k => tabMap_wf _ _ _ k
  · with_reducible assumption

theorem freezeEndSt_moves {P : List Part} {z : State} {intact : Bool} {s : State} (hP : within [.regs, .cfg, .keeper, .book, .log, .fu, .trav, .probe, .conv, .pce, .sense, .net, .time, .mem, .hk, .zn, .streams, .code, .mgmt, .flash, .samples, .dram, .xbuf, .now, .up, .freeCtr] P = true) (h : Moves P z s) :
    Moves P z (Machine.freezeEndSt intact s) := by
  unfold Machine.freezeEndSt
  split
  · with_reducible assumption
  · extract_lets +onlyGivenNames q0
    clear_value q0
    refine Moves.ite ?_ ?_
    · with_reducible assumption
    · refine Moves.ite ?_ ?_
      · refine Moves.ite ?_ ?_
        · with_reducible apply finishFreeze_moves (within_trans rfl hP)
          with_reducible assumption
        · with_reducible assumption
      · refine Moves.ite ?_ ?_
        · with_reducible apply finishFreeze_moves (within_trans rfl hP)
          with_reducible assumption
        · extract_lets +onlyGivenNames q1
          clear_value q1
          extract_lets +onlyGivenNames q2
          have h2 : Moves P z q2 := by
            unfold q2
            with_reducible apply modCh_moves (within_trans rfl hP)
            with_reducible apply zeroBlock_moves (within_trans rfl hP)
            with_reducible assumption
          clear_value q2
          refine Moves.ite ?_ ?_
          · with_reducible apply loseChannel_moves (within_trans rfl hP)
            with_reducible assumption
          · refine Moves.ite ?_ ?_
            · with_reducible apply warmCause_moves (within_trans rfl hP)
              with_reducible apply freezeReport_moves (within_trans rfl hP)
              with_reducible assumption
            · with_reducible apply finishFreeze_moves (within_trans rfl hP)
              with_reducible assumption

theorem freezeTimeoutSt_moves {P : List Part} {z : State} {s : State} (hP : within [.regs, .cfg, .keeper, .book, .log, .fu, .trav, .probe, .conv, .pce, .sense, .net, .time, .mem, .hk, .zn, .streams, .code, .mgmt, .flash, .samples, .dram, .xbuf, .now, .up, .freeCtr] P = true) (h : Moves P z s) :
    Moves P z (Machine.freezeTimeoutSt s) := by
  unfold Machine.freezeTimeoutSt
  split
  · with_reducible assumption
  · refine Moves.ite ?_ ?_
    · with_reducible apply warmCause_moves (within_trans rfl hP)
      with_reducible apply freezeReport_moves (within_trans rfl hP)
      with_reducible assumption
    · with_reducible assumption

theorem channelLossSt_moves {P : List Part} {z : State} {s : State} (hP : within [.regs, .book, .log, .trav, .sense, .net, .mem, .zn, .streams, .code, .dram, .xbuf, .freeCtr] P = true) (h : Moves P z s) :
    Moves P z (Machine.channelLossSt s) := by
  unfold Machine.channelLossSt
  split
  · with_reducible assumption
  · split
    · with_reducible assumption
    · extract_lets +onlyGivenNames q0
      have h0 : Moves P z q0 := by
        unfold q0
        with_reducible apply modMem_moves (within_trans rfl hP)
        with_reducible assumption
      clear_value q0
      extract_lets +onlyGivenNames q1
      have h1 : Moves P z q1 := by
        unfold q1
        with_reducible apply featureChanged_moves (within_trans rfl hP)
        with_reducible apply evalBudgets_moves (within_trans rfl hP)
        with_reducible apply scrambleDram_moves (within_trans rfl hP)
        with_reducible assumption
      clear_value q1
      with_reducible apply finishFreeze_moves (within_trans rfl hP)
      with_reducible apply logEvent_moves (within_trans rfl hP)
      with_reducible assumption

theorem ueAt_moves {P : List Part} {z : State} {s : State} {a : ℕ} (hP : within [.regs, .net, .mem, .zn] P = true) (h : Moves P z s) :
    Moves P z (Machine.ueAt s a) := by
  unfold Machine.ueAt
  extract_lets +onlyGivenNames q0
  clear_value q0
  extract_lets +onlyGivenNames q1
  have h1 : Moves P z q1 := by
    unfold q1
    with_reducible apply setF_moves (within_trans rfl hP)
    with_reducible apply setF_moves (within_trans rfl hP)
    with_reducible apply bump_moves (within_trans rfl hP)
    with_reducible assumption
  clear_value q1
  extract_lets +onlyGivenNames q2
  clear_value q2
  refine Moves.ite ?_ ?_
  · with_reducible apply modMem_moves (within_trans rfl hP)
    with_reducible assumption
  · with_reducible apply startFreeze_moves (within_trans rfl hP)
    with_reducible assumption

theorem readCheck_moves {P : List Part} {z : State} {addr : ℕ} {single : Bool} {double : Bool} {other : Bool} {s : State} (hP : within [.regs, .cfg, .keeper, .book, .log, .fu, .trav, .probe, .conv, .pce, .sense, .net, .time, .mem, .hk, .zn, .streams, .code, .mgmt, .flash, .samples, .dram, .xbuf, .now, .up, .freeCtr] P = true) (h : Moves P z s) :
    Moves P z (Machine.readCheck addr single double other s) := by
  unfold Machine.readCheck
  refine Moves.ite ?_ ?_
  · with_reducible assumption
  · refine Moves.ite ?_ ?_
    · refine Moves.ite ?_ ?_
      · with_reducible assumption
      · refine Moves.ite ?_ ?_
        · with_reducible apply ueAt_moves (within_trans rfl hP)
          with_reducible assumption
        · refine Moves.ite ?_ ?_
          · with_reducible apply bump_moves (within_trans rfl hP)
            with_reducible assumption
          · with_reducible assumption
    · refine Moves.ite ?_ ?_
      · with_reducible apply warmCause_moves (within_trans rfl hP)
        with_reducible assumption
      · refine Moves.ite ?_ ?_
        · with_reducible apply bump_moves (within_trans rfl hP)
          with_reducible assumption
        · with_reducible assumption

theorem scrubSt_moves {P : List Part} {z : State} {single : Bool} {double : Bool} {other : Bool} {s : State} (hP : within [.regs, .cfg, .keeper, .book, .log, .fu, .trav, .probe, .conv, .pce, .sense, .net, .time, .mem, .hk, .zn, .streams, .code, .mgmt, .flash, .samples, .dram, .xbuf, .now, .up, .freeCtr] P = true) (h : Moves P z s) :
    Moves P z (Machine.scrubSt single double other s) := by
  unfold Machine.scrubSt
  refine Moves.ite ?_ ?_
  · with_reducible assumption
  · extract_lets +onlyGivenNames q0
    clear_value q0
    extract_lets +onlyGivenNames q1
    have h1 : Moves P z q1 := by
      unfold q1
      with_reducible apply modMem_moves (within_trans rfl hP)
      with_reducible assumption
    clear_value q1
    with_reducible apply readCheck_moves (within_trans rfl hP)
    refine Moves.ite ?_ ?_
    · with_reducible apply bump_moves (within_trans rfl hP)
      with_reducible assumption
    · with_reducible assumption

theorem startChange_moves {P : List Part} {z : State} {s : State} {f : FreqChange} (hP : within [.mem] P = true) (h : Moves P z s) :
    Moves P z (Machine.startChange s f) := by
  unfold Machine.startChange
  with_reducible apply modMem_moves (within_trans rfl hP)
  with_reducible assumption

theorem askChange_moves {P : List Part} {z : State} {s : State} {f : FreqChange} (hP : within [.mem] P = true) (h : Moves P z s) :
    Moves P z (Machine.askChange s f) := by
  unfold Machine.askChange
  refine Moves.ite ?_ ?_
  · with_reducible apply modMem_moves (within_trans rfl hP)
    with_reducible assumption
  · with_reducible apply startChange_moves (within_trans rfl hP)
    with_reducible assumption

theorem abortTraining_moves {P : List Part} {z : State} {s : State} {target : ℕ} (hP : within [.mem] P = true) (h : Moves P z s) :
    Moves P z (Machine.abortTraining s target) := by
  unfold Machine.abortTraining
  with_reducible apply modMem_moves (within_trans rfl hP)
  with_reducible assumption

theorem forceChange_moves {P : List Part} {z : State} {s : State} {f : FreqChange} (hP : within [.mem] P = true) (h : Moves P z s) :
    Moves P z (Machine.forceChange s f) := by
  unfold Machine.forceChange
  refine Moves.ite ?_ ?_
  · with_reducible apply modMem_moves (within_trans rfl hP)
    with_reducible assumption
  · with_reducible apply startChange_moves (within_trans rfl hP)
    with_reducible apply abortTraining_moves (within_trans rfl hP)
    with_reducible assumption

theorem forceStep_moves {P : List Part} {z : State} {s : State} (hP : within [.mem] P = true) (h : Moves P z s) :
    Moves P z (Machine.forceStep s) := by
  unfold Machine.forceStep
  extract_lets +onlyGivenNames q0
  clear_value q0
  refine Moves.ite ?_ ?_
  · with_reducible assumption
  · extract_lets +onlyGivenNames q1
    clear_value q1
    with_reducible apply forceChange_moves (within_trans rfl hP)
    with_reducible apply modMem_moves (within_trans rfl hP)
    with_reducible assumption

theorem coolCheck_moves {P : List Part} {z : State} {s : State} (hP : within [.mem] P = true) (h : Moves P z s) :
    Moves P z (Machine.coolCheck s) := by
  unfold Machine.coolCheck
  extract_lets +onlyGivenNames q0
  clear_value q0
  with_reducible apply modMem_moves (within_trans rfl hP)
  with_reducible assumption

theorem memDie_moves {P : List Part} {z : State} {s : State} {mk : ℤ} (hP : within [.mem] P = true) (h : Moves P z s) :
    Moves P z (Machine.memDie s mk) := by
  unfold Machine.memDie
  extract_lets +onlyGivenNames q0
  have h0 : Moves P z q0 := by
    unfold q0
    with_reducible apply coolCheck_moves (within_trans rfl hP)
    with_reducible apply modMem_moves (within_trans rfl hP)
    with_reducible assumption
  clear_value q0
  extract_lets +onlyGivenNames q1
  have h1 : Moves P z q1 := by
    unfold q1
    refine Moves.ite ?_ ?_
    · with_reducible apply forceStep_moves (within_trans rfl hP)
      with_reducible apply modMem_moves (within_trans rfl hP)
      with_reducible assumption
    · with_reducible assumption
  clear_value q1
  refine Moves.ite ?_ ?_
  · with_reducible apply forceStep_moves (within_trans rfl hP)
    with_reducible apply modMem_moves (within_trans rfl hP)
    with_reducible assumption
  · with_reducible assumption

theorem mr4St_moves {P : List Part} {z : State} {hot : Bool} {cool : Bool} {s : State} (hP : within [.mem] P = true) (h : Moves P z s) :
    Moves P z (Machine.mr4St hot cool s) := by
  unfold Machine.mr4St
  extract_lets +onlyGivenNames q0
  have h0 : Moves P z q0 := by
    unfold q0
    with_reducible apply coolCheck_moves (within_trans rfl hP)
    with_reducible apply modMem_moves (within_trans rfl hP)
    with_reducible assumption
  clear_value q0
  refine Moves.ite ?_ ?_
  · with_reducible apply forceStep_moves (within_trans rfl hP)
    with_reducible apply modMem_moves (within_trans rfl hP)
    with_reducible assumption
  · with_reducible assumption

theorem thermalReturnSt_moves {P : List Part} {z : State} {s : State} (hP : within [.mem] P = true) (h : Moves P z s) :
    Moves P z (Machine.thermalReturnSt s) := by
  unfold Machine.thermalReturnSt
  extract_lets +onlyGivenNames q0
  clear_value q0
  extract_lets +onlyGivenNames q1
  clear_value q1
  extract_lets +onlyGivenNames q2
  clear_value q2
  refine Moves.ite ?_ ?_
  · extract_lets +onlyGivenNames q3
    have h3 : Moves P z q3 := by
      unfold q3
      with_reducible apply modMem_moves (within_trans rfl hP)
      with_reducible assumption
    clear_value q3
    refine Moves.ite ?_ ?_
    · with_reducible apply modMem_moves (within_trans rfl hP)
      with_reducible assumption
    · extract_lets +onlyGivenNames q4
      clear_value q4
      refine Moves.ite ?_ ?_
      · with_reducible apply askChange_moves (within_trans rfl hP)
        with_reducible apply modMem_moves (within_trans rfl hP)
        with_reducible assumption
      · with_reducible assumption
  · with_reducible assumption

theorem freqDoneSt_moves {P : List Part} {z : State} {s : State} (hP : within [.regs, .book, .log, .trav, .sense, .net, .mem, .zn, .streams, .code, .xbuf] P = true) (h : Moves P z s) :
    Moves P z (Machine.freqDoneSt s) := by
  unfold Machine.freqDoneSt
  split
  · with_reducible assumption
  · extract_lets +onlyGivenNames q0
    have h0 : Moves P z q0 := by
      unfold q0
      with_reducible apply modMem_moves (within_trans rfl hP)
      with_reducible assumption
    clear_value q0
    extract_lets +onlyGivenNames q1
    have h1 : Moves P z q1 := by
      unfold q1
      split
      · refine Moves.ite ?_ ?_
        · with_reducible apply forceChange_moves (within_trans rfl hP)
          with_reducible assumption
        · with_reducible assumption
      · with_reducible assumption
    clear_value q1
    extract_lets +onlyGivenNames q2
    have h2 : Moves P z q2 := by
      unfold q2
      split
      · refine Moves.ite ?_ ?_
        · with_reducible apply modCh_moves (within_trans rfl hP)
          with_reducible assumption
        · with_reducible assumption
      · with_reducible apply nextFreeze_moves (within_trans rfl hP)
        with_reducible assumption
    clear_value q2
    extract_lets +onlyGivenNames q3
    have h3 : Moves P z q3 := by
      unfold q3
      with_reducible apply evalBudgets_moves (within_trans rfl hP)
      with_reducible assumption
    clear_value q3
    split
    · refine Moves.ite ?_ ?_
      · with_reducible assumption
      · with_reducible apply askChange_moves (within_trans rfl hP)
        with_reducible apply modMem_moves (within_trans rfl hP)
        with_reducible assumption
    · with_reducible assumption

theorem mbxDramFreqSt_moves {P : List Part} {z : State} {sp : Fin 3} {s : State} (hP : within [.regs, .keeper, .mem, .freeCtr] P = true) (h : Moves P z s) :
    Moves P z (Machine.mbxDramFreqSt sp s) := by
  unfold Machine.mbxDramFreqSt
  refine Moves.ite ?_ ?_
  · with_reducible apply mbxAnswer_moves (within_trans rfl hP)
    with_reducible assumption
  · refine Moves.ite ?_ ?_
    · with_reducible apply mbxRefuse_moves (within_trans rfl hP)
      with_reducible assumption
    · extract_lets +onlyGivenNames q0
      have h0 : Moves P z q0 := by
        unfold q0
        with_reducible apply mbxAnswer_moves (within_trans rfl hP)
        with_reducible assumption
      clear_value q0
      refine Moves.ite ?_ ?_
      · with_reducible assumption
      · with_reducible apply askChange_moves (within_trans rfl hP)
        with_reducible assumption

theorem trainingDoneSt_moves {P : List Part} {z : State} {failed : BitVec 8} {s : State} (hP : within [.regs, .keeper, .book, .log, .fu, .trav, .probe, .conv, .sense, .net, .mem, .zn, .streams, .code, .xbuf] P = true) (h : Moves P z s) :
    Moves P z (Machine.trainingDoneSt failed s) := by
  unfold Machine.trainingDoneSt
  refine Moves.ite ?_ ?_
  · extract_lets +onlyGivenNames q0
    clear_value q0
    extract_lets +onlyGivenNames q1
    clear_value q1
    extract_lets +onlyGivenNames q2
    have h2 : Moves P z q2 := by
      unfold q2
      with_reducible apply modMem_moves (within_trans rfl hP)
      with_reducible assumption
    clear_value q2
    extract_lets +onlyGivenNames q3
    have h3 : Moves P z q3 := by
      unfold q3
      refine Moves.forEach (fun _ _ _ => ?_) ?_
      · with_reducible apply logEvent_moves (within_trans rfl hP)
        with_reducible assumption
      · with_reducible assumption
    clear_value q3
    refine Moves.ite ?_ ?_
    · with_reducible apply setF_moves (within_trans rfl hP)
      with_reducible apply evalBudgets_moves (within_trans rfl hP)
      with_reducible assumption
    · with_reducible apply enterRecovery_moves (within_trans rfl hP)
      with_reducible assumption
  · with_reducible assumption

theorem shortRetrainSt_moves {P : List Part} {z : State} {c : Fin 4} {s : State} (hP : within [.regs, .mem] P = true) (h : Moves P z s) :
    Moves P z (Machine.shortRetrainSt c s) := by
  unfold Machine.shortRetrainSt
  refine Moves.ite ?_ ?_
  · with_reducible apply bump_moves (within_trans rfl hP)
    with_reducible apply modCh_moves (within_trans rfl hP)
    with_reducible assumption
  · with_reducible assumption

theorem endTraining_moves {P : List Part} {z : State} {s : State} {c : Fin 4} (hP : within [.mem] P = true) (h : Moves P z s) :
    Moves P z (Machine.endTraining s c) := by
  unfold Machine.endTraining
  refine Moves.ite ?_ ?_
  · with_reducible apply modCh_moves (within_trans rfl hP)
    with_reducible assumption
  · with_reducible apply modCh_moves (within_trans rfl hP)
    with_reducible assumption

theorem collectStep_moves_eq {P : List Part} {z : State} {s t : State} {c : Fin 4} {pass : Bool} (e0 : collectStep s c pass = some t)
    (hP : within [.mem] P = true) (h : Moves P z s) : Moves P z t := by
  unfold collectStep at e0
  extract_lets x frozen ok at e0
  repeat' split at e0
  all_goals first | (cases e0; exact modCh_moves (within_trans rfl hP) h) | (cases e0; exact endTraining_moves (within_trans rfl hP) h) | cases e0

theorem collectionSt_moves {P : List Part} {z : State} {c : Fin 4} {pass : Bool} {s : State} (hP : within [.regs, .cfg, .keeper, .book, .log, .fu, .trav, .probe, .conv, .pce, .sense, .net, .time, .mem, .hk, .zn, .streams, .code, .mgmt, .flash, .samples, .dram, .xbuf, .now, .up, .freeCtr] P = true) (h : Moves P z s) :
    Moves P z (Machine.collectionSt c pass s) := by
  unfold Machine.collectionSt
  refine Moves.ite ?_ ?_
  · split
    · refine Moves.ite ?_ ?_
      · with_reducible apply modCh_moves (within_trans rfl hP)
        with_reducible assumption
      · with_reducible apply loseChannel_moves (within_trans rfl hP)
        with_reducible assumption
    · split
      · refine Moves.ite ?_ ?_
        · refine collectStep_moves_eq (by assumption) (within_trans rfl hP) ?_
          with_reducible assumption
        · with_reducible apply startChange_moves (within_trans rfl hP)
          with_reducible apply modCh_moves (within_trans rfl hP)
          refine collectStep_moves_eq (by assumption) (within_trans rfl hP) ?_
          with_reducible assumption
      · refine collectStep_moves_eq (by assumption) (within_trans rfl hP) ?_
        with_reducible assumption
  · with_reducible assumption

end Sys2Proof.Laws
end

