-- ==== Sys2Proof/Laws/HousekeepingMoves.lean ====
section
/-! SUPPORT. What each operation of Machine/Housekeeping.lean can do: the parts of the state it changes, and that it keeps the
invariants. -/

namespace Sys2Proof.Laws
open Sys2Proof Sys2Proof.Machine Sys2Proof.Safety

theorem rtdTemp_moves {P : List Part} {z : State} {s : State} {r2 : ℤ} {r0 : ℕ} (hP : within [.freeCtr] P = true) (h : Moves P z s) :
    Moves P z (Machine.rtdTemp s r2 r0).2 := by
  unfold Machine.rtdTemp
  extract_lets +onlyGivenNames q0
  clear_value q0
  split
  extract_lets +onlyGivenNames q1
  clear_value q1
  refine Moves.snd ?_
  refine draw_moves_eq (by assumption) (within_trans rfl hP) ?_
  with_reducible assumption

theorem rtdTemp_moves_eq {P : List Part} {z : State} {s : State} {r2 : ℤ} {r0 : ℕ} {tt : State} {x0}
    (e0 : Machine.rtdTemp s r2 r0 = (x0, tt)) (hP : within [.freeCtr] P = true) (h : Moves P z s) : Moves P z tt := by
  have k := rtdTemp_moves (P := P) (z := z) (hP := hP) (h := h) (r2 := r2) (r0 := r0)
  rw [e0] at k
  exact k

theorem modRtd_moves {P : List Part} {z : State} {s : State} {n : Fin 4} {f : RtdSt → RtdSt} (hP : within [.hk] P = true) (h : Moves P z s) :
    Moves P z (Machine.modRtd s n f) := by
  unfold Machine.modRtd
  with_reducible apply modHk_moves (within_trans rfl hP)
  with_reducible assumption

theorem modVal_moves {P : List Part} {z : State} {s : State} {ch : Fin 32} {f : HkVal → HkVal} (hP : within [.hk] P = true) (h : Moves P z s) :
    Moves P z (Machine.modVal s ch f) := by
  unfold Machine.modVal
  with_reducible apply modHk_moves (within_trans rfl hP)
  with_reducible assumption

theorem m0Next_moves {P : List Part} {z : State} {s : State} (hP : within [.hk] P = true) (h : Moves P z s) :
    Moves P z (Machine.m0Next s) := by
  unfold Machine.m0Next
  extract_lets +onlyGivenNames q0
  clear_value q0
  extract_lets +onlyGivenNames q1
  clear_value q1
  with_reducible apply modHk_moves (within_trans rfl hP)
  with_reducible assumption

theorem deliverRtd_moves {P : List Part} {z : State} {s : State} {n : Fin 4} {mk : ℤ} (hP : within [.hk, .zn] P = true) (h : Moves P z s) :
    Moves P z (Machine.deliverRtd s n mk) := by
  unfold Machine.deliverRtd
  extract_lets +onlyGivenNames q0
  have h0 : Moves P z q0 := by
    unfold q0
    with_reducible apply modRtd_moves (within_trans rfl hP)
    with_reducible assumption
  clear_value q0
  extract_lets +onlyGivenNames q1
  have h1 : Moves P z q1 := by
    unfold q1
    with_reducible apply modVal_moves (within_trans rfl hP)
    with_reducible assumption
  clear_value q1
  with_reducible apply loopSourceUpdated_moves (within_trans rfl hP)
  with_reducible assumption

theorem finishRtd_moves {P : List Part} {z : State} {s : State} {n : Fin 4} {r2 : ℤ} (hP : within [.hk, .zn, .freeCtr] P = true) (h : Moves P z s) :
    Moves P z (Machine.finishRtd s n r2) := by
  unfold Machine.finishRtd
  extract_lets +onlyGivenNames q0
  clear_value q0
  split
  extract_lets +onlyGivenNames q1
  have h1 : Moves P z q1 := by
    unfold q1
    with_reducible apply modRtd_moves (within_trans rfl hP)
    refine rtdTemp_moves_eq (by assumption) (within_trans rfl hP) ?_
    with_reducible assumption
  clear_value q1
  extract_lets +onlyGivenNames q2
  have h2 : Moves P z q2 := by
    unfold q2
    refine Moves.ite ?_ ?_
    · with_reducible apply deliverRtd_moves (within_trans rfl hP)
      with_reducible assumption
    · with_reducible apply modVal_moves (within_trans rfl hP)
      with_reducible assumption
  clear_value q2
  with_reducible apply m0Next_moves (within_trans rfl hP)
  with_reducible assumption

theorem m0RtdSt_moves {P : List Part} {z : State} {n : Fin 4} {d : ℤ} {s : State} (hP : within [.regs, .hk, .zn, .freeCtr] P = true) (h : Moves P z s) :
    Moves P z (Machine.m0RtdSt n d s) := by
  unfold Machine.m0RtdSt
  split
  refine Moves.ite ?_ ?_
  · with_reducible apply m0Next_moves (within_trans rfl hP)
    with_reducible assumption
  · refine Moves.ite ?_ ?_
    · with_reducible apply m0Next_moves (within_trans rfl hP)
      with_reducible apply bump_moves (within_trans rfl hP)
      with_reducible apply modVal_moves (within_trans rfl hP)
      with_reducible apply modRtd_moves (within_trans rfl hP)
      with_reducible assumption
    · extract_lets +onlyGivenNames q0
      clear_value q0
      refine Moves.ite ?_ ?_
      · with_reducible apply modHk_moves (within_trans rfl hP)
        with_reducible assumption
      · with_reducible apply finishRtd_moves (within_trans rfl hP)
        with_reducible assumption

theorem m0RefSt_moves {P : List Part} {z : State} {d : ℤ} {s : State} (hP : within [.regs, .hk] P = true) (h : Moves P z s) :
    Moves P z (Machine.m0RefSt d s) := by
  unfold Machine.m0RefSt
  split
  extract_lets +onlyGivenNames q0
  have h0 : Moves P z q0 := by
    unfold q0
    with_reducible apply modHk_moves (within_trans rfl hP)
    with_reducible assumption
  clear_value q0
  extract_lets +onlyGivenNames q1
  clear_value q1
  extract_lets +onlyGivenNames q2
  have h2 : Moves P z q2 := by
    unfold q2
    with_reducible apply modVal_moves (within_trans rfl hP)
    with_reducible apply modHk_moves (within_trans rfl hP)
    with_reducible assumption
  clear_value q2
  extract_lets +onlyGivenNames q3
  have h3 : Moves P z q3 := by
    unfold q3
    refine Moves.ite ?_ ?_
    · with_reducible apply bump_moves (within_trans rfl hP)
      with_reducible apply modVal_moves (within_trans rfl hP)
      with_reducible apply modHk_moves (within_trans rfl hP)
      with_reducible assumption
    · refine Moves.ite ?_ ?_
      · with_reducible apply setF_moves (within_trans rfl hP)
        with_reducible assumption
      · with_reducible assumption
  clear_value q3
  with_reducible apply m0Next_moves (within_trans rfl hP)
  with_reducible assumption

theorem m0EndSt_moves {P : List Part} {z : State} {d : ℤ} {s : State} (hP : within [.regs, .hk, .zn, .freeCtr] P = true) (h : Moves P z s) :
    Moves P z (Machine.m0EndSt d s) := by
  unfold Machine.m0EndSt
  split
  · with_reducible apply m0RtdSt_moves (within_trans rfl hP)
    with_reducible assumption
  · with_reducible apply m0RefSt_moves (within_trans rfl hP)
    with_reducible assumption

theorem rtdOpenSt_moves {P : List Part} {z : State} {n : Fin 4} {balls : BitVec 4} {s : State} (hP : within [.regs, .log, .sense, .hk, .zn] P = true) (h : Moves P z s) :
    Moves P z (Machine.rtdOpenSt n balls s) := by
  unfold Machine.rtdOpenSt
  extract_lets +onlyGivenNames q0
  have h0 : Moves P z q0 := by
    unfold q0
    with_reducible apply modRtd_moves (within_trans rfl hP)
    with_reducible assumption
  clear_value q0
  extract_lets +onlyGivenNames q1
  have h1 : Moves P z q1 := by
    unfold q1
    with_reducible apply setF_moves (within_trans rfl hP)
    with_reducible assumption
  clear_value q1
  extract_lets +onlyGivenNames q2
  have h2 : Moves P z q2 := by
    unfold q2
    with_reducible apply logEvent_moves (within_trans rfl hP)
    with_reducible assumption
  clear_value q2
  extract_lets +onlyGivenNames q3
  have h3 : Moves P z q3 := by
    unfold q3
    refine Moves.ite ?_ ?_
    · with_reducible apply m0Next_moves (within_trans rfl hP)
      with_reducible apply bump_moves (within_trans rfl hP)
      with_reducible assumption
    · with_reducible assumption
  clear_value q3
  with_reducible apply loopsRefresh_moves (within_trans rfl hP)
  with_reducible apply coilSuspend_moves (within_trans rfl hP)
  with_reducible assumption

theorem burnoutSt_moves {P : List Part} {z : State} {n : Fin 4} {balls : BitVec 4} {s : State} (hP : within [.regs, .log, .sense, .hk, .zn] P = true) (h : Moves P z s) :
    Moves P z (Machine.burnoutSt n balls s) := by
  unfold Machine.burnoutSt
  refine Moves.ite ?_ ?_
  · extract_lets +onlyGivenNames q0
    clear_value q0
    refine Moves.ite ?_ ?_
    · with_reducible apply modRtd_moves (within_trans rfl hP)
      with_reducible assumption
    · refine Moves.ite ?_ ?_
      · with_reducible apply modRtd_moves (within_trans rfl hP)
        with_reducible assumption
      · with_reducible apply rtdOpenSt_moves (within_trans rfl hP)
        with_reducible assumption
  · with_reducible assumption

theorem rtdClearSt_moves {P : List Part} {z : State} {n : Fin 4} {s : State} (hP : within [.hk, .zn] P = true) (h : Moves P z s) :
    Moves P z (Machine.rtdClearSt n s) := by
  unfold Machine.rtdClearSt
  extract_lets +onlyGivenNames q0
  clear_value q0
  refine Moves.ite ?_ ?_
  · with_reducible apply loopsRefresh_moves (within_trans rfl hP)
    with_reducible apply modRtd_moves (within_trans rfl hP)
    with_reducible assumption
  · with_reducible assumption

theorem m1FrameSt_moves {P : List Part} {z : State} {s : State} (hP : within [.hk] P = true) (h : Moves P z s) :
    Moves P z (Machine.m1FrameSt s) := by
  unfold Machine.m1FrameSt
  extract_lets +onlyGivenNames q0
  have h0 : Moves P z q0 := by
    unfold q0
    with_reducible apply modHk_moves (within_trans rfl hP)
    with_reducible assumption
  clear_value q0
  refine Moves.ite ?_ ?_
  · with_reducible assumption
  · with_reducible apply m1Take_moves (within_trans rfl hP)
    with_reducible assumption

theorem railSt_moves {P : List Part} {z : State} {v : ℤ} {s : State} (hP : within [.regs, .log, .hk] P = true) (h : Moves P z s) :
    Moves P z (Machine.railSt v s) := by
  unfold Machine.railSt
  split
  · with_reducible assumption
  · extract_lets +onlyGivenNames q0
    clear_value q0
    extract_lets +onlyGivenNames q1
    clear_value q1
    extract_lets +onlyGivenNames q2
    have h2 : Moves P z q2 := by
      unfold q2
      with_reducible apply modHk_moves (within_trans rfl hP)
      with_reducible assumption
    clear_value q2
    extract_lets +onlyGivenNames q3
    have h3 : Moves P z q3 := by
      unfold q3
      refine Moves.ite ?_ ?_
      · with_reducible apply logEvent_moves (within_trans rfl hP)
        with_reducible assumption
      · with_reducible assumption
    clear_value q3
    refine Moves.ite ?_ ?_
    · with_reducible apply logEvent_moves (within_trans rfl hP)
      with_reducible assumption
    · with_reducible assumption

theorem deliverDie_moves {P : List Part} {z : State} {s : State} {island : ℕ} {mk : ℤ} (hP : within [.regs, .keeper, .log, .fu, .trav, .probe, .conv, .pce, .sense, .net, .time, .mem, .hk, .zn, .streams, .code] P = true) (h : Moves P z s) :
    Moves P z (Machine.deliverDie s island mk) := by
  unfold Machine.deliverDie
  extract_lets +onlyGivenNames q0
  have h0 : Moves P z q0 := by
    unfold q0
    split
    · with_reducible apply tdcDie_moves (within_trans rfl hP)
      with_reducible assumption
    · with_reducible apply memDie_moves (within_trans rfl hP)
      with_reducible assumption
    · with_reducible apply convDie_moves (within_trans rfl hP)
      with_reducible assumption
    · with_reducible apply convDie_moves (within_trans rfl hP)
      with_reducible assumption
    · with_reducible apply convDieRaman_moves (within_trans rfl hP)
      with_reducible apply convDieRaman_moves (within_trans rfl hP)
      with_reducible assumption
    · with_reducible assumption
  clear_value q0
  with_reducible apply thermalCheck_moves (within_trans rfl hP)
  with_reducible assumption

theorem dieSt_moves {P : List Part} {z : State} {ch : Fin 32} {mk : ℤ} {s : State} (hP : within [.regs, .keeper, .log, .fu, .trav, .probe, .conv, .pce, .sense, .net, .time, .mem, .hk, .zn, .streams, .code] P = true) (h : Moves P z s) :
    Moves P z (Machine.dieSt ch mk s) := by
  unfold Machine.dieSt
  extract_lets +onlyGivenNames q0
  clear_value q0
  refine Moves.ite ?_ ?_
  · with_reducible apply deliverDie_moves (within_trans rfl hP)
    with_reducible apply modVal_moves (within_trans rfl hP)
    with_reducible assumption
  · extract_lets +onlyGivenNames q1
    have h1 : Moves P z q1 := by
      unfold q1
      with_reducible apply modVal_moves (within_trans rfl hP)
      with_reducible assumption
    clear_value q1
    refine Moves.ite ?_ ?_
    · with_reducible assumption
    · with_reducible apply logEvent_moves (within_trans rfl hP)
      with_reducible apply modHk_moves (within_trans rfl hP)
      with_reducible assumption

theorem m1EndSt_moves {P : List Part} {z : State} {ch : Fin 32} {value : ℤ} {isOver : Bool} {s : State} (hP : within [.regs, .keeper, .log, .fu, .trav, .probe, .conv, .pce, .sense, .net, .time, .mem, .hk, .zn, .streams, .code] P = true) (h : Moves P z s) :
    Moves P z (Machine.m1EndSt ch value isOver s) := by
  unfold Machine.m1EndSt
  refine Moves.ite ?_ ?_
  · extract_lets +onlyGivenNames q0
    extract_lets +onlyGivenNames q1
    have h1 : Moves P z q1 := by
      unfold q1
      refine Moves.ite ?_ ?_
      · split
        · with_reducible assumption
        · with_reducible apply modLoop_moves (within_trans rfl hP)
          unfold q0
          with_reducible apply modVal_moves (within_trans rfl hP)
          with_reducible assumption
      · refine Moves.ite ?_ ?_
        · with_reducible apply dieSt_moves (within_trans rfl hP)
          with_reducible assumption
        · with_reducible apply railSt_moves (within_trans rfl hP)
          unfold q0
          with_reducible apply modVal_moves (within_trans rfl hP)
          with_reducible assumption
    clear_value q1
    with_reducible apply m1Take_moves (within_trans rfl hP)
    with_reducible apply modVal_moves (within_trans rfl hP)
    with_reducible assumption
  · with_reducible assumption

theorem notchSt_moves {P : List Part} {z : State} {count : ℕ} {s : State} (hP : within [.hk] P = true) (h : Moves P z s) :
    Moves P z (Machine.notchSt count s) := by
  unfold Machine.notchSt
  refine Moves.ite ?_ ?_
  · with_reducible apply modHk_moves (within_trans rfl hP)
    with_reducible assumption
  · with_reducible apply modHk_moves (within_trans rfl hP)
    with_reducible assumption

theorem refExitSt_moves {P : List Part} {z : State} {s : State} (hP : within [.regs, .log, .hk] P = true) (h : Moves P z s) :
    Moves P z (Machine.refExitSt s) := by
  unfold Machine.refExitSt
  extract_lets +onlyGivenNames q0
  have h0 : Moves P z q0 := by
    unfold q0
    with_reducible apply modHk_moves (within_trans rfl hP)
    with_reducible assumption
  clear_value q0
  refine Moves.ite ?_ ?_
  · extract_lets +onlyGivenNames q1
    have h1 : Moves P z q1 := by
      unfold q1
      refine Moves.ite ?_ ?_
      · with_reducible apply bump_moves (within_trans rfl hP)
        with_reducible assumption
      · with_reducible assumption
    clear_value q1
    with_reducible apply logEvent_moves (within_trans rfl hP)
    with_reducible apply setF_moves (within_trans rfl hP)
    with_reducible apply modHk_moves (within_trans rfl hP)
    with_reducible assumption
  · with_reducible assumption

theorem hkChooseRef_moves {P : List Part} {z : State} {s : State} (hP : within [.hk] P = true) (h : Moves P z s) :
    Moves P z (Machine.hkChooseRef s) := by
  unfold Machine.hkChooseRef
  with_reducible apply modHk_moves (within_trans rfl hP)
  with_reducible assumption

end Sys2Proof.Laws
end

