-- ==== Sys2Proof/Laws/RegReadMoves.lean ====
section
/-! SUPPORT. What each operation of Machine/RegRead.lean can do: the parts of the state it changes, and that it keeps the
invariants. -/

namespace Sys2Proof.Laws
open Sys2Proof Sys2Proof.Machine Sys2Proof.Safety

theorem regRead_moves {P : List Part} {z : State} {s : State} {a : ℕ} (hP : within [.freeCtr] P = true) (h : Moves P z s) :
    Moves P z (Machine.regRead s a).2 := by
  unfold Machine.regRead
  extract_lets +onlyGivenNames q0
  clear_value q0
  refine Moves.snd ?_
  refine Moves.ite ?_ ?_
  · with_reducible apply Moves.setFreeCtr (within_trans rfl hP)
    with_reducible assumption
  · with_reducible assumption

theorem regRead_moves_eq {P : List Part} {z : State} {s : State} {a : ℕ} {tt : State} {x0}
    (e0 : Machine.regRead s a = (x0, tt)) (hP : within [.freeCtr] P = true) (h : Moves P z s) : Moves P z tt := by
  have k := regRead_moves (P := P) (z := z) (hP := hP) (h := h) (a := a)
  rw [e0] at k
  exact k

theorem clearRc_moves {P : List Part} {z : State} {s : State} {a : ℕ} (hP : within [.regs] P = true) (h : Moves P z s) :
    Moves P z (Machine.clearRc s a) := by
  unfold Machine.clearRc
  with_reducible apply regPut_moves (within_trans rfl hP)
  with_reducible assumption

theorem regReadRc_moves {P : List Part} {z : State} {s : State} {a : ℕ} (hP : within [.regs, .freeCtr] P = true) (h : Moves P z s) :
    Moves P z (Machine.regReadRc s a).2 := by
  unfold Machine.regReadRc
  split
  refine Moves.snd ?_
  with_reducible apply clearRc_moves (within_trans rfl hP)
  refine regRead_moves_eq (by assumption) (within_trans rfl hP) ?_
  with_reducible assumption

theorem regReadRc_moves_eq {P : List Part} {z : State} {s : State} {a : ℕ} {tt : State} {x0}
    (e0 : Machine.regReadRc s a = (x0, tt)) (hP : within [.regs, .freeCtr] P = true) (h : Moves P z s) : Moves P z tt := by
  have k := regReadRc_moves (P := P) (z := z) (hP := hP) (h := h) (a := a)
  rw [e0] at k
  exact k

end Sys2Proof.Laws
end

