-- ==== Sys2Proof/Laws/RegWriteMoves.lean ====
section
/-! SUPPORT. What each operation of Machine/RegWrite.lean can do: the parts of the state it changes, and that it keeps the
invariants. -/

namespace Sys2Proof.Laws
open Sys2Proof Sys2Proof.Machine Sys2Proof.Safety

theorem snapshotSt_moves {P : List Part} {z : State} {s : State} {clear : Bool} {count : ℕ} (hP : within [.regs, .mgmt, .freeCtr] P = true) (h : Moves P z s) :
    Moves P z (Machine.snapshotSt s clear count) := by
  unfold Machine.snapshotSt
  extract_lets +onlyGivenNames q0
  clear_value q0
  extract_lets +onlyGivenNames q1
  clear_value q1
  refine Moves.ite ?_ ?_
  · split
    extract_lets +onlyGivenNames q2
    have h2 : Moves P z q2 := by
      unfold q2
      refine Moves.ite ?_ ?_
      · refine Moves.folded (fun _ _ _ => ?_) ?_
        · with_reducible apply clearRc_moves (within_trans rfl hP)
          with_reducible assumption
        · refine Moves.ofEqSnd (by assumption) ?_
          refine Moves.foldSnd (fun _ _ _ => ?_) ?_
          · split
            refine Moves.snd ?_
            refine regRead_moves_eq (by assumption) (within_trans rfl hP) ?_
            with_reducible assumption
          · refine Moves.snd ?_
            with_reducible assumption
      · refine Moves.ofEqSnd (by assumption) ?_
        refine Moves.foldSnd (fun _ _ _ => ?_) ?_
        · split
          refine Moves.snd ?_
          refine regRead_moves_eq (by assumption) (within_trans rfl hP) ?_
          with_reducible assumption
        · refine Moves.snd ?_
          with_reducible assumption
    clear_value q2
    with_reducible apply Moves.setMgmt (within_trans rfl hP)
    · with_reducible exact mgmtst_mk_flash
    · with_reducible exact mgmtst_mk_sram
    · with_reducible assumption
  · with_reducible apply Moves.setMgmt (within_trans rfl hP)
    · with_reducible exact mgmtst_mk_flash
    · with_reducible exact mgmtst_mk_sram
    · with_reducible assumption

theorem snapDoneSt_moves {P : List Part} {z : State} {s : State} (hP : within [.regs, .mgmt] P = true) (h : Moves P z s) :
    Moves P z (Machine.snapDoneSt s) := by
  unfold Machine.snapDoneSt
  split
  · with_reducible assumption
  · extract_lets +onlyGivenNames q0
    extract_lets +onlyGivenNames q1
    have h1 : Moves P z q1 := by
      unfold q1
      with_reducible apply Moves.setMgmt (within_trans rfl hP)
      · with_reducible exact mgmtst_mk_flash
      · with_reducible exact mgmtst_mk_sram
      · with_reducible assumption
    clear_value q1
    split
    · with_reducible apply setF_moves (within_trans rfl hP)
      with_reducible assumption
    · with_reducible apply setF_moves (within_trans rfl hP)
      refine Moves.folded (fun _ _ _ => ?_) ?_
      · with_reducible apply setF_moves (within_trans rfl hP)
        with_reducible assumption
      · with_reducible assumption

theorem evShow_moves {P : List Part} {z : State} {s : State} (hP : within [.regs] P = true) (h : Moves P z s) :
    Moves P z (Machine.evShow s) := by
  unfold Machine.evShow
  extract_lets +onlyGivenNames q0
  clear_value q0
  refine Moves.folded (fun _ _ _ => ?_) ?_
  · with_reducible apply setF_moves (within_trans rfl hP)
    with_reducible assumption
  · with_reducible assumption

theorem hostFence_moves {P : List Part} {z : State} {s : State} (hP : within [.regs, .fu] P = true) (h : Moves P z s) :
    Moves P z (Machine.hostFence s).1 := by
  unfold Machine.hostFence
  refine Moves.iteFst ?_ ?_
  · extract_lets +onlyGivenNames q0
    clear_value q0
    refine Moves.fst ?_
    with_reducible apply setF_moves (within_trans rfl hP)
    with_reducible apply setF_moves (within_trans rfl hP)
    with_reducible apply issueFence_moves (within_trans rfl hP)
    with_reducible assumption
  · refine Moves.fst ?_
    with_reducible apply setF_moves (within_trans rfl hP)
    with_reducible assumption

theorem hostFence_moves_eq {P : List Part} {z : State} {s : State} {tt : State} {x1}
    (e0 : Machine.hostFence s = (tt, x1)) (hP : within [.regs, .fu] P = true) (h : Moves P z s) : Moves P z tt := by
  have k := hostFence_moves (P := P) (z := z) (hP := hP) (h := h)
  rw [e0] at k
  exact k

theorem woActions_moves {P : List Part} {z : State} {s : State} {a : ℕ} {v : ℕ} (hP : within [.regs, .keeper, .log, .pce, .sense, .net, .time, .hk, .zn, .streams, .code, .mgmt, .freeCtr] P = true) (h : Moves P z s) :
    Moves P z (Machine.woActions s a v) := by
  unfold Machine.woActions
  extract_lets +onlyGivenNames q0
  clear_value q0
  extract_lets +onlyGivenNames q1
  clear_value q1
  extract_lets +onlyGivenNames q2
  split
  · refine Moves.ite ?_ ?_
    · unfold q2
      refine Moves.ite ?_ ?_
      · beta_reduce
        with_reducible apply snapshotSt_moves (within_trans rfl hP)
        with_reducible assumption
      · with_reducible assumption
    · with_reducible assumption
  · refine Moves.ite ?_ ?_
    · unfold q2
      refine Moves.ite ?_ ?_
      · with_reducible apply snapSt_moves (within_trans rfl hP)
        with_reducible assumption
      · with_reducible assumption
    · with_reducible assumption
  · refine Moves.ite ?_ ?_
    · extract_lets +onlyGivenNames q3
      clear_value q3
      unfold q2
      refine Moves.ite ?_ ?_
      · with_reducible apply tdcPopSt_moves (within_trans rfl hP)
        refine Moves.ite ?_ ?_
        · beta_reduce
          with_reducible apply startTdcCal_moves (within_trans rfl hP)
          refine Moves.ite ?_ ?_
          · with_reducible apply softArm_moves (within_trans rfl hP)
            refine Moves.ite ?_ ?_
            · with_reducible apply softArm_moves (within_trans rfl hP)
              with_reducible assumption
            · with_reducible assumption
          · refine Moves.ite ?_ ?_
            · with_reducible apply softArm_moves (within_trans rfl hP)
              with_reducible assumption
            · with_reducible assumption
        · refine Moves.ite ?_ ?_
          · with_reducible apply softArm_moves (within_trans rfl hP)
            refine Moves.ite ?_ ?_
            · with_reducible apply softArm_moves (within_trans rfl hP)
              with_reducible assumption
            · with_reducible assumption
          · refine Moves.ite ?_ ?_
            · with_reducible apply softArm_moves (within_trans rfl hP)
              with_reducible assumption
            · with_reducible assumption
      · refine Moves.ite ?_ ?_
        · beta_reduce
          with_reducible apply startTdcCal_moves (within_trans rfl hP)
          refine Moves.ite ?_ ?_
          · with_reducible apply softArm_moves (within_trans rfl hP)
            refine Moves.ite ?_ ?_
            · with_reducible apply softArm_moves (within_trans rfl hP)
              with_reducible assumption
            · with_reducible assumption
          · refine Moves.ite ?_ ?_
            · with_reducible apply softArm_moves (within_trans rfl hP)
              with_reducible assumption
            · with_reducible assumption
        · refine Moves.ite ?_ ?_
          · with_reducible apply softArm_moves (within_trans rfl hP)
            refine Moves.ite ?_ ?_
            · with_reducible apply softArm_moves (within_trans rfl hP)
              with_reducible assumption
            · with_reducible assumption
          · refine Moves.ite ?_ ?_
            · with_reducible apply softArm_moves (within_trans rfl hP)
              with_reducible assumption
            · with_reducible assumption
    · with_reducible assumption
  · extract_lets +onlyGivenNames q4
    clear_value q4
    unfold q2
    refine Moves.ite ?_ ?_
    · beta_reduce
      split
      · with_reducible assumption
      · refine Moves.ite ?_ ?_
        · with_reducible apply startMeasure_moves (within_trans rfl hP)
          with_reducible assumption
        · with_reducible assumption
    · with_reducible assumption
  · extract_lets +onlyGivenNames q5
    clear_value q5
    unfold q2
    refine Moves.ite ?_ ?_
    · beta_reduce
      split
      · with_reducible assumption
      · refine Moves.ite ?_ ?_
        · with_reducible apply startMeasure_moves (within_trans rfl hP)
          with_reducible assumption
        · with_reducible assumption
    · with_reducible assumption
  · extract_lets +onlyGivenNames q6
    clear_value q6
    unfold q2
    refine Moves.ite ?_ ?_
    · beta_reduce
      with_reducible apply wantCapture_moves (within_trans rfl hP)
      with_reducible assumption
    · with_reducible assumption
  · unfold q2
    refine Moves.ite ?_ ?_
    · with_reducible apply coilcalSt_moves (within_trans rfl hP)
      with_reducible assumption
    · with_reducible assumption
  · unfold q2
    refine Moves.ite ?_ ?_
    · with_reducible apply znAckSt_moves (within_trans rfl hP)
      with_reducible assumption
    · with_reducible assumption
  · refine Moves.ite ?_ ?_
    · unfold q2
      refine Moves.ite ?_ ?_
      · with_reducible apply urgentSt_moves (within_trans rfl hP)
        with_reducible assumption
      · with_reducible assumption
    · unfold q2
      refine Moves.ite ?_ ?_
      · with_reducible apply loopReleaseCmdSt_moves (within_trans rfl hP)
        with_reducible assumption
      · with_reducible assumption
  · unfold q2
    refine Moves.ite ?_ ?_
    · with_reducible apply linkResetSt_moves (within_trans rfl hP)
      with_reducible assumption
    · with_reducible assumption
  · refine Moves.ite ?_ ?_
    · extract_lets +onlyGivenNames q7
      clear_value q7
      unfold q2
      refine Moves.ite ?_ ?_
      · beta_reduce
        with_reducible apply addSync_moves (within_trans rfl hP)
        refine Moves.ite ?_ ?_
        · with_reducible apply streamResetSt_moves (within_trans rfl hP)
          with_reducible assumption
        · with_reducible assumption
      · refine Moves.ite ?_ ?_
        · with_reducible apply streamResetSt_moves (within_trans rfl hP)
          with_reducible assumption
        · with_reducible assumption
    · with_reducible assumption

theorem holdWrite_moves {P : List Part} {z : State} {s : State} {ext : Bool} {a : ℕ} {v : ℕ} {mh : ℕ} (hP : within [.regs, .fu] P = true) (h : Moves P z s) :
    Moves P z (Machine.holdWrite s ext a v mh) := by
  unfold Machine.holdWrite
  refine Moves.ite ?_ ?_
  · with_reducible assumption
  · extract_lets +onlyGivenNames q0
    have h0 : Moves P z q0 := by
      unfold q0
      refine Moves.ite ?_ ?_
      · with_reducible apply setF_moves (within_trans rfl hP)
        with_reducible assumption
      · with_reducible assumption
    clear_value q0
    with_reducible apply Moves.setFu (within_trans rfl hP)
    · with_reducible exact Nat.le_of_eq (congrArg List.length fenceunit_mk_out)
    · with_reducible assumption

theorem storeWrite_moves {P : List Part} {z : State} {s : State} {a : ℕ} {v : ℕ} {m : ℕ} (hP : within [.regs, .trav] P = true) (h : Moves P z s) :
    Moves P z (Machine.storeWrite s a v m) := by
  unfold Machine.storeWrite
  extract_lets +onlyGivenNames q0
  clear_value q0
  extract_lets +onlyGivenNames q1
  clear_value q1
  extract_lets +onlyGivenNames q2
  clear_value q2
  extract_lets +onlyGivenNames q3
  clear_value q3
  extract_lets +onlyGivenNames q4
  have h4 : Moves P z q4 := by
    unfold q4
    with_reducible apply regPut_moves (within_trans rfl hP)
    with_reducible assumption
  clear_value q4
  refine Moves.ite ?_ ?_
  · with_reducible apply modTrav_moves (within_trans rfl hP)
    with_reducible assumption
  · with_reducible assumption

theorem coefDataWrite_moves {P : List Part} {z : State} {s : State} {n : ℕ} {v : ℕ} {m : ℕ} (hP : within [.regs, .streams] P = true) (h : Moves P z s) :
    Moves P z (Machine.coefDataWrite s n v m).1 := by
  unfold Machine.coefDataWrite
  extract_lets +onlyGivenNames q0
  clear_value q0
  extract_lets +onlyGivenNames q1
  clear_value q1
  split
  · refine Moves.fst ?_
    refine coefWrite_moves_eq (by assumption) (within_trans rfl hP) ?_
    with_reducible assumption
  · refine Moves.fst ?_
    refine coefWrite_moves_eq (by assumption) (within_trans rfl hP) ?_
    with_reducible assumption
  · refine Moves.fst ?_
    refine coefWrite_moves_eq (by assumption) (within_trans rfl hP) ?_
    with_reducible assumption

theorem coefDataWrite_moves_eq {P : List Part} {z : State} {s : State} {n : ℕ} {v : ℕ} {m : ℕ} {tt : State} {x1}
    (e0 : Machine.coefDataWrite s n v m = (tt, x1)) (hP : within [.regs, .streams] P = true) (h : Moves P z s) : Moves P z tt := by
  have k := coefDataWrite_moves (P := P) (z := z) (hP := hP) (h := h) (n := n) (v := v) (m := m)
  rw [e0] at k
  exact k

theorem regWrite_moves {P : List Part} {z : State} {s : State} {ext : Bool} {a : ℕ} {v : ℕ} {m : ℕ} (hP : within [.regs, .keeper, .log, .fu, .trav, .pce, .sense, .net, .time, .hk, .zn, .streams, .code, .mgmt, .freeCtr] P = true) (h : Moves P z s) :
    Moves P z (Machine.regWrite s ext a v m).1 := by
  unfold Machine.regWrite
  extract_lets +onlyGivenNames q0
  clear_value q0
  extract_lets +onlyGivenNames q1
  clear_value q1
  refine Moves.iteFst ?_ ?_
  · refine Moves.fst ?_
    with_reducible assumption
  · refine Moves.iteFst ?_ ?_
    · refine Moves.iteFst ?_ ?_
      · refine Moves.fst ?_
        with_reducible assumption
      · with_reducible apply coefDataWrite_moves (within_trans rfl hP)
        with_reducible assumption
    · refine Moves.iteFst ?_ ?_
      · refine Moves.fst ?_
        with_reducible assumption
      · refine Moves.iteFst ?_ ?_
        · with_reducible apply hostFence_moves (within_trans rfl hP)
          with_reducible assumption
        · extract_lets +onlyGivenNames q2
          have h2 : Moves P z q2 := by
            unfold q2
            with_reducible apply storeWrite_moves (within_trans rfl hP)
            with_reducible assumption
          clear_value q2
          extract_lets +onlyGivenNames q3
          have h3 : Moves P z q3 := by
            unfold q3
            with_reducible apply holdWrite_moves (within_trans rfl hP)
            with_reducible assumption
          clear_value q3
          extract_lets +onlyGivenNames q4
          have h4 : Moves P z q4 := by
            unfold q4
            refine Moves.ite ?_ ?_
            · with_reducible assumption
            · with_reducible apply woActions_moves (within_trans rfl hP)
              with_reducible assumption
          clear_value q4
          refine Moves.fst ?_
          refine Moves.ite ?_ ?_
          · with_reducible apply evShow_moves (within_trans rfl hP)
            with_reducible assumption
          · with_reducible assumption

theorem regWrite_moves_eq {P : List Part} {z : State} {s : State} {ext : Bool} {a : ℕ} {v : ℕ} {m : ℕ} {tt : State} {x1}
    (e0 : Machine.regWrite s ext a v m = (tt, x1)) (hP : within [.regs, .keeper, .log, .fu, .trav, .pce, .sense, .net, .time, .hk, .zn, .streams, .code, .mgmt, .freeCtr] P = true) (h : Moves P z s) : Moves P z tt := by
  have k := regWrite_moves (P := P) (z := z) (hP := hP) (h := h) (ext := ext) (a := a) (v := v) (m := m)
  rw [e0] at k
  exact k

theorem landBits_moves {P : List Part} {z : State} {s : State} {a : ℕ} {m : ℕ} {v : ℕ} (hP : within [.regs] P = true) (h : Moves P z s) :
    Moves P z (Machine.landBits s a m v) := by
  unfold Machine.landBits
  refine Moves.ite ?_ ?_
  · with_reducible assumption
  · with_reducible apply regPut_moves (within_trans rfl hP)
    with_reducible assumption

theorem landEffect_moves {P : List Part} {z : State} {b : State} {s : State} {a : ℕ} {m : ℕ} {v : ℕ} (hP : within [.regs, .trav, .conv, .net, .zn, .streams, .code, .freeCtr] P = true) (h : Moves P z s) :
    Moves P z (Machine.landEffect b s a m v) := by
  unfold Machine.landEffect
  extract_lets +onlyGivenNames q0
  clear_value q0
  split
  · refine Moves.ite ?_ ?_
    · with_reducible apply setRingLen_moves (within_trans rfl hP)
      with_reducible assumption
    · refine Moves.ite ?_ ?_
      · extract_lets +onlyGivenNames q1
        clear_value q1
        extract_lets +onlyGivenNames q2
        clear_value q2
        extract_lets +onlyGivenNames q3
        have h3 : Moves P z q3 := by
          unfold q3
          refine Moves.ite ?_ ?_
          · with_reducible assumption
          · with_reducible apply beginSeek_moves (within_trans rfl hP)
            with_reducible assumption
        clear_value q3
        extract_lets +onlyGivenNames q4
        have h4 : Moves P z q4 := by
          unfold q4
          refine Moves.ite ?_ ?_
          · with_reducible apply cursorStartSt_moves (within_trans rfl hP)
            with_reducible assumption
          · with_reducible assumption
        clear_value q4
        refine Moves.ite ?_ ?_
        · with_reducible apply cursorStopSt_moves (within_trans rfl hP)
          with_reducible assumption
        · with_reducible assumption
      · with_reducible assumption
  · refine Moves.ite ?_ ?_
    · with_reducible apply loopSourceUpdated_moves (within_trans rfl hP)
      with_reducible assumption
    · refine Moves.folded (fun _ _ _ => ?_) ?_
      · with_reducible apply apdUpdate_moves (within_trans rfl hP)
        with_reducible assumption
      · with_reducible assumption
  · extract_lets +onlyGivenNames q5
    clear_value q5
    refine Moves.ite ?_ ?_
    · refine Moves.ite ?_ ?_
      · with_reducible assumption
      · with_reducible apply rateChanged_moves (within_trans rfl hP)
        with_reducible assumption
    · with_reducible apply testChanged_moves (within_trans rfl hP)
      with_reducible assumption
  · refine Moves.ite ?_ ?_
    · extract_lets +onlyGivenNames q6
      clear_value q6
      with_reducible apply modTrav_moves (within_trans rfl hP)
      with_reducible assumption
    · refine Moves.ite ?_ ?_
      · extract_lets +onlyGivenNames q7
        clear_value q7
        with_reducible apply takeSwap_moves (within_trans rfl hP)
        with_reducible apply setF_moves (within_trans rfl hP)
        with_reducible assumption
      · with_reducible assumption

theorem landWrites_moves {P : List Part} {z : State} {s : State} {ws : List HeldWrite} (hP : within [.regs, .trav, .conv, .net, .zn, .streams, .code, .freeCtr] P = true) (h : Moves P z s) :
    Moves P z (Machine.landWrites s ws) := by
  unfold Machine.landWrites
  extract_lets +onlyGivenNames q0
  clear_value q0
  extract_lets +onlyGivenNames q1
  clear_value q1
  extract_lets +onlyGivenNames q2
  have h2 : Moves P z q2 := by
    unfold q2
    refine Moves.folded (fun _ _ _ => ?_) ?_
    · with_reducible apply landBits_moves (within_trans rfl hP)
      with_reducible assumption
    · with_reducible assumption
  clear_value q2
  refine Moves.folded (fun _ _ _ => ?_) ?_
  · with_reducible apply landEffect_moves (within_trans rfl hP)
    with_reducible assumption
  · with_reducible assumption

theorem modPath_moves {P : List Part} {z : State} {s : State} {p : Path} {f : PathSt → PathSt} (hP : within [.mgmt] P = true) (h : Moves P z s) :
    Moves P z (Machine.modPath s p f) := by
  unfold Machine.modPath
  with_reducible apply Moves.setMgmt (within_trans rfl hP)
  · with_reducible exact mgmtst_mk_flash
  · with_reducible exact mgmtst_mk_sram
  · with_reducible assumption

theorem pathRead_moves {P : List Part} {z : State} {s : State} {p : Path} {a : ℕ} (hP : within [.regs, .mgmt, .freeCtr] P = true) (h : Moves P z s) :
    Moves P z (Machine.pathRead s p a).2 := by
  unfold Machine.pathRead
  split
  · refine Moves.iteSnd ?_ ?_
    · refine Moves.snd ?_
      with_reducible apply modPath_moves (within_trans rfl hP)
      with_reducible assumption
    · refine Moves.iteSnd ?_ ?_
      · extract_lets +onlyGivenNames q0
        clear_value q0
        split
        refine Moves.snd ?_
        with_reducible apply modPath_moves (within_trans rfl hP)
        refine regReadRc_moves_eq (by assumption) (within_trans rfl hP) ?_
        with_reducible assumption
      · with_reducible apply regReadRc_moves (within_trans rfl hP)
        with_reducible assumption
  · refine Moves.iteSnd ?_ ?_
    · extract_lets +onlyGivenNames q1
      clear_value q1
      split
      refine Moves.snd ?_
      with_reducible apply modPath_moves (within_trans rfl hP)
      refine regReadRc_moves_eq (by assumption) (within_trans rfl hP) ?_
      with_reducible assumption
    · with_reducible apply regReadRc_moves (within_trans rfl hP)
      with_reducible assumption

theorem pathRead_moves_eq {P : List Part} {z : State} {s : State} {p : Path} {a : ℕ} {tt : State} {x0}
    (e0 : Machine.pathRead s p a = (x0, tt)) (hP : within [.regs, .mgmt, .freeCtr] P = true) (h : Moves P z s) : Moves P z tt := by
  have k := pathRead_moves (P := P) (z := z) (hP := hP) (h := h) (p := p) (a := a)
  rw [e0] at k
  exact k

theorem readAll_moves {P : List Part} {z : State} {s : State} {p : Path} {as_ : List ℕ} (hP : within [.regs, .mgmt, .freeCtr] P = true) (h : Moves P z s) :
    Moves P z (Machine.readAll s p as_).2 := by
  unfold Machine.readAll
  refine Moves.foldSnd (fun _ _ _ => ?_) ?_
  · refine Moves.iteSnd ?_ ?_
    · split
      refine Moves.snd ?_
      refine pathRead_moves_eq (by assumption) (within_trans rfl hP) ?_
      with_reducible assumption
    · refine Moves.snd ?_
      with_reducible assumption
  · refine Moves.snd ?_
    with_reducible assumption

theorem readAll_moves_eq {P : List Part} {z : State} {s : State} {p : Path} {as_ : List ℕ} {tt : State} {x0}
    (e0 : Machine.readAll s p as_ = (x0, tt)) (hP : within [.regs, .mgmt, .freeCtr] P = true) (h : Moves P z s) : Moves P z tt := by
  have k := readAll_moves (P := P) (z := z) (hP := hP) (h := h) (p := p) (as_ := as_)
  rw [e0] at k
  exact k

theorem readRegs_moves {P : List Part} {z : State} {s : State} {p : Path} {a : ℕ} {c : ℕ} (hP : within [.regs, .mgmt, .freeCtr] P = true) (h : Moves P z s) :
    Moves P z (Machine.readRegs s p a c).2.2 := by
  unfold Machine.readRegs
  extract_lets +onlyGivenNames q0
  clear_value q0
  split
  · dsimp -zeta only
    with_reducible assumption
  · split
    · dsimp -zeta only
      with_reducible assumption
    · split
      dsimp -zeta only
      refine readAll_moves_eq (by assumption) (within_trans rfl hP) ?_
      with_reducible assumption

theorem readRegs_moves_eq {P : List Part} {z : State} {s : State} {p : Path} {a : ℕ} {c : ℕ} {tt : State} {x0} {x1}
    (e0 : Machine.readRegs s p a c = (x0, x1, tt)) (hP : within [.regs, .mgmt, .freeCtr] P = true) (h : Moves P z s) : Moves P z tt := by
  have k := readRegs_moves (P := P) (z := z) (hP := hP) (h := h) (p := p) (a := a) (c := c)
  rw [e0] at k
  exact k

theorem pathWrite_moves {P : List Part} {z : State} {s : State} {p : Path} {a : ℕ} {v : ℕ} {m : ℕ} (hP : within [.regs, .keeper, .log, .fu, .trav, .pce, .sense, .net, .time, .hk, .zn, .streams, .code, .mgmt, .freeCtr] P = true) (h : Moves P z s) :
    Moves P z (Machine.pathWrite s p a v m).1 := by
  unfold Machine.pathWrite
  extract_lets +onlyGivenNames q0
  clear_value q0
  extract_lets +onlyGivenNames q1
  clear_value q1
  extract_lets +onlyGivenNames q2
  have h2 : Moves P z q2 := by
    unfold q2
    refine Moves.ite ?_ ?_
    · with_reducible apply modPath_moves (within_trans rfl hP)
      with_reducible assumption
    · with_reducible assumption
  clear_value q2
  refine Moves.iteFst ?_ ?_
  · refine Moves.fst ?_
    with_reducible apply modPath_moves (within_trans rfl hP)
    with_reducible assumption
  · split
    · refine Moves.iteFst ?_ ?_
      · split
        with_reducible apply regWrite_moves (within_trans rfl hP)
        refine regWrite_moves_eq (by assumption) (within_trans rfl hP) ?_
        with_reducible apply modPath_moves (within_trans rfl hP)
        with_reducible assumption
      · with_reducible apply regWrite_moves (within_trans rfl hP)
        with_reducible assumption
    · with_reducible apply regWrite_moves (within_trans rfl hP)
      with_reducible assumption

theorem pathWrite_moves_eq {P : List Part} {z : State} {s : State} {p : Path} {a : ℕ} {v : ℕ} {m : ℕ} {tt : State} {x1}
    (e0 : Machine.pathWrite s p a v m = (tt, x1)) (hP : within [.regs, .keeper, .log, .fu, .trav, .pce, .sense, .net, .time, .hk, .zn, .streams, .code, .mgmt, .freeCtr] P = true) (h : Moves P z s) : Moves P z tt := by
  have k := pathWrite_moves (P := P) (z := z) (hP := hP) (h := h) (p := p) (a := a) (v := v) (m := m)
  rw [e0] at k
  exact k

theorem writeAll_moves {P : List Part} {z : State} {p : Path} {m : ℕ} {a2 : List (ℕ × ℕ)} {a3 : State} {a4 : ℕ} (hP : within [.regs, .keeper, .log, .fu, .trav, .pce, .sense, .net, .time, .hk, .zn, .streams, .code, .mgmt, .freeCtr] P = true) (h : Moves P z a3) :
    Moves P z (Machine.writeAll p m a2 a3 a4).1 := by
  induction a2 generalizing a3 a4 with
  | nil => exact h
  | cons x t ih =>
    unfold Machine.writeAll
    split
    · next s1 e0 => exact ih (pathWrite_moves_eq e0 (within_trans rfl hP) h)
    · next s1 d _ e0 => exact pathWrite_moves_eq e0 (within_trans rfl hP) h

theorem writeAll_moves_eq {P : List Part} {z : State} {p : Path} {m : ℕ} {a2 : List (ℕ × ℕ)} {a3 : State} {a4 : ℕ} {tt : State} {x1} {x2}
    (e0 : Machine.writeAll p m a2 a3 a4 = (tt, x1, x2)) (hP : within [.regs, .keeper, .log, .fu, .trav, .pce, .sense, .net, .time, .hk, .zn, .streams, .code, .mgmt, .freeCtr] P = true) (h : Moves P z a3) : Moves P z tt := by
  have k := writeAll_moves (P := P) (z := z) (hP := hP) (h := h) (p := p) (m := m) (a2 := a2) (a4 := a4)
  rw [e0] at k
  exact k

theorem writeRegs_moves {P : List Part} {z : State} {s : State} {p : Path} {a : ℕ} {m : ℕ} {vs : List ℕ} (hP : within [.regs, .keeper, .log, .fu, .trav, .pce, .sense, .net, .time, .hk, .zn, .streams, .code, .mgmt, .freeCtr] P = true) (h : Moves P z s) :
    Moves P z (Machine.writeRegs s p a m vs).2.2.2 := by
  unfold Machine.writeRegs
  extract_lets +onlyGivenNames q0
  clear_value q0
  extract_lets +onlyGivenNames q1
  clear_value q1
  split
  · dsimp -zeta only
    with_reducible assumption
  · split
    · dsimp -zeta only
      with_reducible assumption
    · split
      · dsimp -zeta only
        refine Moves.ite ?_ ?_
        · with_reducible apply bump_moves (within_trans rfl hP)
          with_reducible assumption
        · with_reducible assumption
      · split
        · dsimp -zeta only
          with_reducible assumption
        · split
          · dsimp -zeta only
            with_reducible assumption
          · split
            · dsimp -zeta only
              refine writeAll_moves_eq (by assumption) (within_trans rfl hP) ?_
              with_reducible assumption
            · dsimp -zeta only
              refine writeAll_moves_eq (by assumption) (within_trans rfl hP) ?_
              with_reducible assumption

theorem writeRegs_moves_eq {P : List Part} {z : State} {s : State} {p : Path} {a : ℕ} {m : ℕ} {vs : List ℕ} {tt : State} {x0} {x1} {x2}
    (e0 : Machine.writeRegs s p a m vs = (x0, x1, x2, tt)) (hP : within [.regs, .keeper, .log, .fu, .trav, .pce, .sense, .net, .time, .hk, .zn, .streams, .code, .mgmt, .freeCtr] P = true) (h : Moves P z s) : Moves P z tt := by
  have k := writeRegs_moves (P := P) (z := z) (hP := hP) (h := h) (p := p) (a := a) (m := m) (vs := vs)
  rw [e0] at k
  exact k

theorem pathAnswer_moves {P : List Part} {z : State} {s : State} {p : Path} {status : ℕ} {detail : ℕ} {vs : List ℕ} (hP : within [.mgmt] P = true) (h : Moves P z s) :
    Moves P z (Machine.pathAnswer s p status detail vs) := by
  unfold Machine.pathAnswer
  with_reducible apply modPath_moves (within_trans rfl hP)
  with_reducible assumption

theorem readSt_moves {P : List Part} {z : State} {p : Path} {a : ℕ} {c : ℕ} {s : State} (hP : within [.regs, .mgmt, .freeCtr] P = true) (h : Moves P z s) :
    Moves P z (Machine.readSt p a c s) := by
  unfold Machine.readSt
  split
  with_reducible apply pathAnswer_moves (within_trans rfl hP)
  refine readRegs_moves_eq (by assumption) (within_trans rfl hP) ?_
  with_reducible assumption

theorem writeSt_moves {P : List Part} {z : State} {p : Path} {a : ℕ} {m : ℕ} {vs : List ℕ} {s : State} (hP : within [.regs, .keeper, .log, .fu, .trav, .pce, .sense, .net, .time, .hk, .zn, .streams, .code, .mgmt, .freeCtr] P = true) (h : Moves P z s) :
    Moves P z (Machine.writeSt p a m vs s) := by
  unfold Machine.writeSt
  split
  with_reducible apply pathAnswer_moves (within_trans rfl hP)
  refine writeRegs_moves_eq (by assumption) (within_trans rfl hP) ?_
  with_reducible assumption

end Sys2Proof.Laws
end

