-- ==== Sys2Proof/Laws/FencesMoves.lean ====
section
/-! SUPPORT. What each operation of Machine/Fences.lean can do: the parts of the state it changes, and that it keeps the
invariants. -/

namespace Sys2Proof.Laws
open Sys2Proof Sys2Proof.Machine Sys2Proof.Safety

theorem recRegWrite_moves {P : List Part} {z : State} {s : State} {p : List Word} (hP : within [.regs, .keeper, .log, .fu, .trav, .conv, .pce, .sense, .net, .time, .hk, .zn, .streams, .code, .mgmt, .freeCtr] P = true) (h : Moves P z s) :
    Moves P z (Machine.recRegWrite s p) := by
  unfold Machine.recRegWrite
  extract_lets +onlyGivenNames q0
  clear_value q0
  extract_lets +onlyGivenNames q1
  have h1 : Moves P z q1 := by
    unfold q1
    with_reducible apply regWrite_moves (within_trans rfl hP)
    with_reducible assumption
  clear_value q1
  with_reducible apply landWrites_moves (within_trans rfl hP)
  with_reducible apply Moves.setFu (within_trans rfl hP)
  · with_reducible exact Nat.le_of_eq (congrArg List.length fenceunit_mk_out)
  · with_reducible assumption

theorem putCoef_moves {P : List Part} {z : State} {s : State} {p : List Word} (hP : within [.streams] P = true) (h : Moves P z s) :
    Moves P z (Machine.putCoef s p) := by
  unfold Machine.putCoef
  extract_lets +onlyGivenNames q0
  clear_value q0
  split
  · with_reducible assumption
  · with_reducible apply modStrm_moves (within_trans rfl hP)
    with_reducible assumption

theorem putSub_moves {P : List Part} {z : State} {s : State} {n : ℕ} {sub : ℕ} (hP : within [.regs] P = true) (h : Moves P z s) :
    Moves P z (Machine.putSub s n sub) := by
  unfold Machine.putSub
  refine Moves.folded (fun _ _ _ => ?_) ?_
  · with_reducible apply setF_moves (within_trans rfl hP)
    with_reducible assumption
  · with_reducible assumption

theorem putScale_moves {P : List Part} {z : State} {s : State} {p : List Word} (hP : within [.regs] P = true) (h : Moves P z s) :
    Moves P z (Machine.putScale s p) := by
  unfold Machine.putScale
  extract_lets +onlyGivenNames q0
  clear_value q0
  refine Moves.folded (fun _ _ _ => ?_) ?_
  · with_reducible apply setF_moves (within_trans rfl hP)
    with_reducible assumption
  · with_reducible assumption

theorem chainSyncRec_moves {P : List Part} {z : State} {s : State} {p : List Word} (hP : within [.regs, .log, .net, .streams] P = true) (h : Moves P z s) :
    Moves P z (Machine.chainSyncRec s p) := by
  unfold Machine.chainSyncRec
  extract_lets +onlyGivenNames q0
  clear_value q0
  extract_lets +onlyGivenNames q1
  clear_value q1
  with_reducible apply syncMask_moves (within_trans rfl hP)
  with_reducible apply Moves.setNet (within_trans rfl hP)
  with_reducible assumption

theorem recEffect_moves {P : List Part} {z : State} {b : State} {s : State} {r : PlanRec} (hP : within [.regs, .keeper, .book, .log, .fu, .trav, .probe, .conv, .pce, .sense, .net, .time, .hk, .zn, .streams, .code, .mgmt, .now, .freeCtr] P = true) (h : Moves P z s) :
    Moves P z (Machine.recEffect b s r) := by
  unfold Machine.recEffect
  extract_lets +onlyGivenNames q0
  clear_value q0
  extract_lets +onlyGivenNames q1
  clear_value q1
  extract_lets +onlyGivenNames q2
  clear_value q2
  split
  · with_reducible apply recRegWrite_moves (within_trans rfl hP)
    with_reducible assumption
  · refine Moves.ite ?_ ?_
    · with_reducible apply modProbe_moves (within_trans rfl hP)
      · (intro _ k; exact k)
      · with_reducible assumption
    · with_reducible assumption
  · refine Moves.ite ?_ ?_
    · with_reducible apply modProbe_moves (within_trans rfl hP)
      · (intro _ k; exact k)
      · with_reducible assumption
    · with_reducible assumption
  · with_reducible apply wantCapture_moves (within_trans rfl hP)
    with_reducible assumption
  · refine Moves.forEach (fun _ _ _ => ?_) ?_
    · with_reducible apply acceptOrigin_moves (within_trans rfl hP)
      with_reducible assumption
    · with_reducible assumption
  · with_reducible apply requestRange_moves (within_trans rfl hP)
    with_reducible assumption
  · with_reducible apply putCoef_moves (within_trans rfl hP)
    with_reducible assumption
  · with_reducible apply putDetector_moves (within_trans rfl hP)
    with_reducible assumption
  · with_reducible apply putSub_moves (within_trans rfl hP)
    with_reducible assumption
  · with_reducible apply putScale_moves (within_trans rfl hP)
    with_reducible assumption
  · with_reducible apply takeSwap_moves (within_trans rfl hP)
    with_reducible assumption
  · with_reducible apply syncMask_moves (within_trans rfl hP)
    with_reducible assumption
  · with_reducible apply setRingLen_moves (within_trans rfl hP)
    with_reducible apply setF_moves (within_trans rfl hP)
    with_reducible assumption
  · with_reducible apply applyCursor_moves (within_trans rfl hP)
    with_reducible assumption
  · with_reducible apply defineZone_moves (within_trans rfl hP)
    with_reducible assumption
  · with_reducible apply evalPins_moves (within_trans rfl hP)
    with_reducible assumption
  · extract_lets +onlyGivenNames q3
    clear_value q3
    with_reducible apply loopsRefresh_moves (within_trans rfl hP)
    with_reducible apply modLoop_moves (within_trans rfl hP)
    with_reducible assumption
  · with_reducible apply setF_moves (within_trans rfl hP)
    with_reducible assumption
  · with_reducible apply adjustRecord_moves (within_trans rfl hP)
    with_reducible assumption
  · refine Moves.ite ?_ ?_
    · with_reducible assumption
    · with_reducible apply rateChanged_moves (within_trans rfl hP)
      with_reducible apply setF_moves (within_trans rfl hP)
      with_reducible assumption
  · with_reducible apply chainSyncRec_moves (within_trans rfl hP)
    with_reducible assumption
  · with_reducible apply Moves.setBook (within_trans rfl hP)
    with_reducible assumption
  · with_reducible apply Moves.setBook (within_trans rfl hP)
    with_reducible assumption
  · with_reducible assumption

theorem applyRec_moves {P : List Part} {z : State} {s : State} {r : PlanRec} (hP : within [.regs, .cfg, .keeper, .book, .log, .fu, .trav, .probe, .conv, .pce, .sense, .net, .time, .hk, .zn, .streams, .code, .mgmt, .now, .freeCtr] P = true) (h : Moves P z s) :
    Moves P z (Machine.applyRec s r) := by
  unfold Machine.applyRec
  with_reducible apply recEffect_moves (within_trans rfl hP)
  with_reducible apply Moves.setCfg (within_trans rfl hP)
  with_reducible assumption

theorem applyAt_moves {P : List Part} {z : State} {isls : List ℕ} {s : State} {r : PlanRec} (hP : within [.regs, .cfg, .keeper, .book, .log, .fu, .trav, .probe, .conv, .pce, .sense, .net, .time, .hk, .zn, .streams, .code, .mgmt, .now, .freeCtr] P = true) (h : Moves P z s) :
    Moves P z (Machine.applyAt isls s r) := by
  unfold Machine.applyAt
  refine Moves.ite ?_ ?_
  · extract_lets +onlyGivenNames q0
    clear_value q0
    extract_lets +onlyGivenNames q1
    clear_value q1
    refine Moves.ite ?_ ?_
    · with_reducible assumption
    · refine Moves.folded (fun _ _ _ => ?_) ?_
      · with_reducible apply takeParams_moves (within_trans rfl hP)
        with_reducible assumption
      · with_reducible apply Moves.setCfg (within_trans rfl hP)
        with_reducible assumption
  · with_reducible apply applyRec_moves (within_trans rfl hP)
    with_reducible assumption

theorem mixFold_moves {P : List Part} {z : State} {α : Type} {serial : α → Nat} {fw : State → List HeldWrite → State}
    {fr : State → α → State} {s : State} {ws : List HeldWrite} {hs : List α} (hw : ∀ u w, Moves P z u → Moves P z (fw u w))
    (hr : ∀ u x, Moves P z u → Moves P z (fr u x)) (h : Moves P z s) : Moves P z (mixFold serial fw fr s ws hs) := by
  induction hs generalizing s ws with
  | nil => exact hw _ _ h
  | cons x t ih => exact ih (hr _ _ (hw _ _ h))

theorem landHeld_moves {P : List Part} {z : State} {s : State} {isl : ℕ → Bool} {serial : ℕ} (hP : within [.regs, .cfg, .keeper, .book, .log, .fu, .trav, .probe, .conv, .pce, .sense, .net, .time, .hk, .zn, .streams, .code, .mgmt, .now, .freeCtr] P = true) (h : Moves P z s) :
    Moves P z (Machine.landHeld s isl serial) := by
  unfold Machine.landHeld
  extract_lets +onlyGivenNames q0
  clear_value q0
  extract_lets +onlyGivenNames q1
  clear_value q1
  extract_lets +onlyGivenNames q2
  clear_value q2
  extract_lets +onlyGivenNames q3
  clear_value q3
  extract_lets +onlyGivenNames q4
  extract_lets +onlyGivenNames q5
  have h5 : Moves P z q5 := by
    unfold q5
    with_reducible apply Moves.setFu (within_trans rfl hP)
    · with_reducible exact Nat.le_of_eq (congrArg List.length fenceunit_mk_out)
    · with_reducible assumption
  clear_value q5
  refine mixFold_moves (fun _ _ _ => ?_) (fun _ _ _ => ?_) ?_
  · with_reducible apply landWrites_moves (within_trans rfl hP)
    with_reducible assumption
  · with_reducible apply applyAt_moves (within_trans rfl hP)
    with_reducible assumption
  · with_reducible assumption

theorem modFence_moves {P : List Part} {z : State} {s : State} {id : ℕ} {f : Fence → Fence} (hP : within [.fu] P = true) (h : Moves P z s) :
    Moves P z (Machine.modFence s id f) := by
  unfold Machine.modFence
  with_reducible apply Moves.setFu (within_trans rfl hP)
  · (rw [List.length_map])
  · with_reducible assumption

theorem fenceAckSt_moves {P : List Part} {z : State} {isl : ℕ} {id : ℕ} {s : State} (hP : within [.regs, .cfg, .keeper, .book, .log, .fu, .trav, .probe, .conv, .pce, .sense, .net, .time, .hk, .zn, .streams, .code, .mgmt, .now, .freeCtr] P = true) (h : Moves P z s) :
    Moves P z (Machine.fenceAckSt isl id s) := by
  unfold Machine.fenceAckSt
  split
  · with_reducible assumption
  · refine Moves.ite ?_ ?_
    · extract_lets +onlyGivenNames q0
      have h0 : Moves P z q0 := by
        unfold q0
        with_reducible apply modFence_moves (within_trans rfl hP)
        with_reducible assumption
      clear_value q0
      refine Moves.ite ?_ ?_
      · extract_lets +onlyGivenNames q1
        clear_value q1
        extract_lets +onlyGivenNames q2
        have h2 : Moves P z q2 := by
          unfold q2
          with_reducible apply modFence_moves (within_trans rfl hP)
          with_reducible assumption
        clear_value q2
        refine Moves.forEach (fun _ _ _ => ?_) ?_
        · with_reducible apply applyAt_moves (within_trans rfl hP)
          with_reducible assumption
        · with_reducible apply landHeld_moves (within_trans rfl hP)
          with_reducible assumption
      · with_reducible assumption
    · with_reducible assumption

theorem tellHost_moves {P : List Part} {z : State} {s : State} {l : Fin 3} {ty : ℕ} {ws : List Word} (hP : within [.net] P = true) (h : Moves P z s) :
    Moves P z (Machine.tellHost s l ty ws) := by
  unfold Machine.tellHost
  with_reducible apply sendOn_moves (within_trans rfl hP)
  with_reducible assumption

theorem planFenceDone_moves {P : List Part} {z : State} {s : State} (hP : within [.regs, .keeper, .log, .probe, .conv, .freeCtr] P = true) (h : Moves P z s) :
    Moves P z (Machine.planFenceDone s) := by
  unfold Machine.planFenceDone
  extract_lets +onlyGivenNames q0
  extract_lets +onlyGivenNames q1
  clear_value q1
  extract_lets +onlyGivenNames q2
  have h2 : Moves P z q2 := by
    unfold q2
    with_reducible apply setF_moves (within_trans rfl hP)
    with_reducible apply Moves.setKeeper (within_trans rfl hP)
    · with_reducible exact keeper_mk_otp
    · with_reducible assumption
  clear_value q2
  refine Moves.ite ?_ ?_
  · extract_lets +onlyGivenNames q3
    extract_lets +onlyGivenNames q4
    have h4 : Moves P z q4 := by
      unfold q4
      with_reducible apply Moves.setKeeper (within_trans rfl hP)
      · with_reducible exact keeper_mk_otp
      · with_reducible assumption
    clear_value q4
    extract_lets +onlyGivenNames q5
    clear_value q5
    extract_lets +onlyGivenNames q6
    have h6 : Moves P z q6 := by
      unfold q6
      refine Moves.ite ?_ ?_
      · with_reducible apply setF_moves (within_trans rfl hP)
        with_reducible assumption
      · with_reducible assumption
    clear_value q6
    with_reducible apply rearmLines_moves (within_trans rfl hP)
    with_reducible assumption
  · with_reducible assumption

theorem fenceReport_moves {P : List Part} {z : State} {s : State} {f : Fence} (hP : within [.regs, .keeper, .log, .probe, .conv, .pce, .net, .freeCtr] P = true) (h : Moves P z s) :
    Moves P z (Machine.fenceReport s f) := by
  unfold Machine.fenceReport
  split
  · with_reducible apply planFenceDone_moves (within_trans rfl hP)
    with_reducible assumption
  · with_reducible apply tellHost_moves (within_trans rfl hP)
    with_reducible assumption
  · refine Moves.ite ?_ ?_
    · with_reducible apply modPce_moves (within_trans rfl hP)
      with_reducible assumption
    · with_reducible apply applyMeasured_moves (within_trans rfl hP)
      with_reducible apply modPce_moves (within_trans rfl hP)
      with_reducible assumption
  · with_reducible assumption

theorem fenceFailed_moves {P : List Part} {z : State} {s : State} {f : Fence} (hP : within [.regs, .log] P = true) (h : Moves P z s) :
    Moves P z (Machine.fenceFailed s f) := by
  unfold Machine.fenceFailed
  refine Moves.ite ?_ ?_
  · with_reducible assumption
  · with_reducible apply logEvent_moves (within_trans rfl hP)
    with_reducible apply setF_moves (within_trans rfl hP)
    with_reducible apply setF_moves (within_trans rfl hP)
    with_reducible assumption

theorem fenceRetry_moves {P : List Part} {z : State} {s : State} (hP : within [.regs, .fu] P = true) (h : Moves P z s) :
    Moves P z (Machine.fenceRetry s) := by
  unfold Machine.fenceRetry
  split
  · with_reducible assumption
  · refine Moves.ite ?_ ?_
    · with_reducible apply issueFence_moves (within_trans rfl hP)
      with_reducible apply Moves.setFu (within_trans rfl hP)
      · with_reducible exact Nat.le_of_eq (congrArg List.length fenceunit_mk_out)
      · with_reducible assumption
    · with_reducible assumption

theorem fenceTravs_moves {P : List Part} {z : State} {s : State} {done_ : ℕ} (hP : within [.trav] P = true) (h : Moves P z s) :
    Moves P z (Machine.fenceTravs s done_) := by
  unfold Machine.fenceTravs
  with_reducible apply Moves.setTrav (within_trans rfl hP)
  with_reducible assumption

theorem completeFence_moves {P : List Part} {z : State} {s : State} {f : Fence} {rest : List Fence} (hP : within [.regs, .cfg, .keeper, .book, .log, .fu, .trav, .probe, .conv, .pce, .sense, .net, .time, .hk, .zn, .streams, .code, .mgmt, .now, .freeCtr] P = true) (hr : rest.length ≤ s.fu.out.length) (h : Moves P z s) :
    Moves P z (Machine.completeFence s f rest) := by
  unfold Machine.completeFence
  extract_lets +onlyGivenNames q0
  clear_value q0
  extract_lets +onlyGivenNames q1
  clear_value q1
  extract_lets +onlyGivenNames q2
  extract_lets +onlyGivenNames q3
  have h3 : Moves P z q3 := by
    unfold q3
    with_reducible apply setF_moves (within_trans rfl hP)
    with_reducible apply Moves.setFu (within_trans rfl hP)
    · assumption
    · with_reducible assumption
  clear_value q3
  extract_lets +onlyGivenNames q4
  have h4 : Moves P z q4 := by
    unfold q4
    refine Moves.forEach (fun _ _ _ => ?_) ?_
    · with_reducible apply applyAt_moves (within_trans rfl hP)
      with_reducible assumption
    · with_reducible apply landHeld_moves (within_trans rfl hP)
      with_reducible assumption
  clear_value q4
  extract_lets +onlyGivenNames q5
  clear_value q5
  extract_lets +onlyGivenNames q6
  extract_lets +onlyGivenNames q7
  have h7 : Moves P z q7 := by
    unfold q7
    with_reducible apply Moves.setFu (within_trans rfl hP)
    · with_reducible exact Nat.le_of_eq (congrArg List.length fenceunit_mk_out)
    · with_reducible assumption
  clear_value q7
  extract_lets +onlyGivenNames q8
  have h8 : Moves P z q8 := by
    unfold q8
    with_reducible apply fenceTravs_moves (within_trans rfl hP)
    with_reducible assumption
  clear_value q8
  extract_lets +onlyGivenNames q9
  have h9 : Moves P z q9 := by
    unfold q9
    refine Moves.folded (fun _ _ _ => ?_) ?_
    · refine Moves.ite ?_ ?_
      · with_reducible apply applyMeasured_moves (within_trans rfl hP)
        with_reducible assumption
      · with_reducible assumption
    · with_reducible assumption
  clear_value q9
  with_reducible apply fenceRetry_moves (within_trans rfl hP)
  with_reducible apply fenceReport_moves (within_trans rfl hP)
  with_reducible apply featureChanged_moves (within_trans rfl hP)
  with_reducible apply evalPins_moves (within_trans rfl hP)
  with_reducible apply loopsRefresh_moves (within_trans rfl hP)
  with_reducible apply fenceFailed_moves (within_trans rfl hP)
  with_reducible assumption

theorem fenceCompleteSt_moves {P : List Part} {z : State} {s : State} (hP : within [.regs, .cfg, .keeper, .book, .log, .fu, .trav, .probe, .conv, .pce, .sense, .net, .time, .hk, .zn, .streams, .code, .mgmt, .now, .freeCtr] P = true) (h : Moves P z s) :
    Moves P z (Machine.fenceCompleteSt s) := by
  unfold Machine.fenceCompleteSt
  split
  · with_reducible assumption
  · refine Moves.ite ?_ ?_
    · with_reducible apply completeFence_moves (within_trans rfl hP)
      · (simp_all; done)
      · with_reducible assumption
    · with_reducible assumption

theorem fenceTimeoutSt_moves {P : List Part} {z : State} {id : ℕ} {s : State} (hP : within [.fu] P = true) (h : Moves P z s) :
    Moves P z (Machine.fenceTimeoutSt id s) := by
  unfold Machine.fenceTimeoutSt
  with_reducible apply modFence_moves (within_trans rfl hP)
  with_reducible assumption

theorem autoFenceSt_moves {P : List Part} {z : State} {s : State} (hP : within [.regs, .fu] P = true) (h : Moves P z s) :
    Moves P z (Machine.autoFenceSt s) := by
  unfold Machine.autoFenceSt
  refine Moves.ite ?_ ?_
  · extract_lets +onlyGivenNames q0
    clear_value q0
    extract_lets +onlyGivenNames q1
    extract_lets +onlyGivenNames q2
    have h2 : Moves P z q2 := by
      unfold q2
      with_reducible apply Moves.setFu (within_trans rfl hP)
      · with_reducible exact Nat.le_of_eq (congrArg List.length fenceunit_mk_out)
      · with_reducible assumption
    clear_value q2
    refine Moves.ite ?_ ?_
    · with_reducible assumption
    · with_reducible apply bookFence_moves (within_trans rfl hP)
      with_reducible assumption
  · with_reducible assumption

theorem clockDoneSt_moves {P : List Part} {z : State} {t : Fin 8} {s : State} (hP : within [.regs, .trav] P = true) (h : Moves P z s) :
    Moves P z (Machine.clockDoneSt t s) := by
  unfold Machine.clockDoneSt
  refine Moves.ite ?_ ?_
  · with_reducible apply modTrav_moves (within_trans rfl hP)
    with_reducible apply setF_moves (within_trans rfl hP)
    with_reducible assumption
  · with_reducible assumption

end Sys2Proof.Laws
end

