-- ==== Sys2Proof/Laws/ReceiveMoves.lean ====
section
/-! SUPPORT. What each operation of Machine/Receive.lean can do: the parts of the state it changes, and that it keeps the
invariants. -/

namespace Sys2Proof.Laws
open Sys2Proof Sys2Proof.Machine Sys2Proof.Safety

theorem noteRx_moves {P : List Part} {z : State} {s : State} {l : Fin 3} {f : Frame} (hP : within [.net] P = true) (h : Moves P z s) :
    Moves P z (Machine.noteRx s l f) := by
  unfold Machine.noteRx
  extract_lets +onlyGivenNames q0
  clear_value q0
  with_reducible apply modLink_moves (within_trans rfl hP)
  with_reducible assumption

theorem rxBad_moves {P : List Part} {z : State} {s : State} {l : Fin 3} (hP : within [.regs] P = true) (h : Moves P z s) :
    Moves P z (Machine.rxBad s l) := by
  unfold Machine.rxBad
  with_reducible apply bump_moves (within_trans rfl hP)
  with_reducible assumption

theorem receive_moves {P : List Part} {z : State} {s : State} {l : Fin 3} {f : Frame} {k : State → State}
    (hP : within [.regs, .net] P = true) (hk : ∀ u, Moves P z u → Moves P z (k u)) (h : Moves P z s) :
    Moves P z (receive s l f k) := by
  unfold receive
  split
  · extract_lets s1
    have h1 : Moves P z s1 := noteRx_moves (within_trans rfl hP) h
    split
    · exact hk _ h1
    · exact rxBad_moves (within_trans rfl hP) h1
  · exact h

end Sys2Proof.Laws
end

