-- ==== Sys2Proof/Laws/AmendMoves.lean ====
section
/-! SUPPORT. What each operation of Machine/Amend.lean can do: the parts of the state it changes, and that it keeps the
invariants. -/

namespace Sys2Proof.Laws
open Sys2Proof Sys2Proof.Machine Sys2Proof.Safety

theorem budgetEffect_moves {P : List Part} {z : State} {s : State} {r : PlanRec} (hP : within [.regs] P = true) (h : Moves P z s) :
    Moves P z (Machine.budgetEffect s r) := by
  unfold Machine.budgetEffect
  extract_lets +onlyGivenNames q0
  clear_value q0
  split
  · extract_lets +onlyGivenNames q1
    clear_value q1
    extract_lets +onlyGivenNames q2
    clear_value q2
    with_reducible apply regPut_moves (within_trans rfl hP)
    with_reducible assumption
  · with_reducible apply putSub_moves (within_trans rfl hP)
    with_reducible assumption
  · with_reducible apply setF_moves (within_trans rfl hP)
    with_reducible assumption
  · with_reducible assumption

theorem heldEffects_moves {P : List Part} {z : State} {s : State} (hP : within [.regs] P = true) (h : Moves P z s) :
    Moves P z (Machine.heldEffects s) := by
  unfold Machine.heldEffects
  extract_lets +onlyGivenNames q0
  refine mixFold_moves (fun _ _ _ => ?_) (fun _ _ _ => ?_) ?_
  · unfold q0
    refine Moves.folded (fun _ _ _ => ?_) ?_
    · with_reducible apply landBits_moves (within_trans rfl hP)
      with_reducible assumption
    · with_reducible assumption
  · with_reducible apply budgetEffect_moves (within_trans rfl hP)
    with_reducible assumption
  · with_reducible assumption

theorem acceptAmend_moves {P : List Part} {z : State} {s : State} {link : Fin 3} {rs : List PlanRec} (hP : within [.regs, .cfg, .keeper, .book, .fu] P = true) (h : Moves P z s) :
    Moves P z (Machine.acceptAmend s link rs) := by
  unfold Machine.acceptAmend
  extract_lets +onlyGivenNames q0
  clear_value q0
  extract_lets +onlyGivenNames q1
  clear_value q1
  extract_lets +onlyGivenNames q2
  have h2 : Moves P z q2 := by
    unfold q2
    with_reducible apply Moves.setCfg (within_trans rfl hP)
    with_reducible assumption
  clear_value q2
  extract_lets +onlyGivenNames q3
  clear_value q3
  extract_lets +onlyGivenNames q4
  have h4 : Moves P z q4 := by
    unfold q4
    with_reducible apply recordHashSt_moves (within_trans rfl hP)
    with_reducible apply Moves.setBook (within_trans rfl hP)
    with_reducible assumption
  clear_value q4
  with_reducible apply issueFence_moves (within_trans rfl hP)
  with_reducible apply setF_moves (within_trans rfl hP)
  with_reducible assumption

theorem amendSt_moves {P : List Part} {z : State} {link : Fin 3} {words : List Word} {s : State} (hP : within [.regs, .cfg, .keeper, .book, .fu, .probe, .net] P = true) (h : Moves P z s) :
    Moves P z (Machine.amendSt link words s) := by
  unfold Machine.amendSt
  refine Moves.ite ?_ ?_
  · with_reducible assumption
  · split
    extract_lets +onlyGivenNames q0
    clear_value q0
    extract_lets +onlyGivenNames q1
    have h1 : Moves P z q1 := by
      unfold q1
      refine Moves.ite ?_ ?_
      · with_reducible apply acceptAmend_moves (within_trans rfl hP)
        with_reducible assumption
      · with_reducible assumption
    clear_value q1
    with_reducible apply tellHost_moves (within_trans rfl hP)
    with_reducible assumption

end Sys2Proof.Laws
end

