-- ==== Sys2Proof/Laws/BootMoves.lean ====
section
/-! SUPPORT. What each operation of Machine/Boot.lean can do: the parts of the state it changes, and that it keeps the
invariants. -/

namespace Sys2Proof.Laws
open Sys2Proof Sys2Proof.Machine Sys2Proof.Safety

theorem modBoot_moves {P : List Part} {z : State} {s : State} {f : Boot → Boot} (hP : within [.keeper] P = true) (h : Moves P z s) :
    Moves P z (Machine.modBoot s f) := by
  unfold Machine.modBoot
  with_reducible apply modKeeper_moves (within_trans rfl hP)
  · with_reducible exact keeper_mk_otp
  · with_reducible assumption

theorem otpReadSt_moves {P : List Part} {z : State} {s : State} (hP : within [.regs, .keeper, .log, .time, .hk, .freeCtr] P = true) (h : Moves P z s) :
    Moves P z (Machine.otpReadSt s) := by
  unfold Machine.otpReadSt
  refine Moves.ite ?_ ?_
  · extract_lets +onlyGivenNames q0
    clear_value q0
    extract_lets +onlyGivenNames q1
    have h1 : Moves P z q1 := by
      unfold q1
      with_reducible apply modKeeper_moves (within_trans rfl hP)
      · with_reducible exact keeper_mk_otp
      · with_reducible apply modBoot_moves (within_trans rfl hP)
        with_reducible assumption
    clear_value q1
    with_reducible apply startAllCals_moves (within_trans rfl hP)
    with_reducible apply timeRefs_moves (within_trans rfl hP)
    with_reducible assumption
  · with_reducible assumption

theorem xspiInitSt_moves {P : List Part} {z : State} {sfdp : Option (ℕ × ℕ)} {s : State} (hP : within [.regs, .keeper, .mgmt] P = true) (h : Moves P z s) :
    Moves P z (Machine.xspiInitSt sfdp s) := by
  unfold Machine.xspiInitSt
  refine Moves.ite ?_ ?_
  · with_reducible apply setF_moves (within_trans rfl hP)
    with_reducible apply modBoot_moves (within_trans rfl hP)
    with_reducible apply Moves.setMgmt (within_trans rfl hP)
    · with_reducible exact mgmtst_mk_flash
    · with_reducible exact mgmtst_mk_sram
    · with_reducible assumption
  · with_reducible assumption

theorem putSram_moves {P : List Part} {z : State} {s : State} {a : ℕ} {bs : List Byte} (hP : within [.mgmt] P = true) (h : Moves P z s) :
    Moves P z (Machine.putSram s a bs) := by
  exact Moves.setSram (within_trans rfl hP) rfl (fun k => tabSet_foldIf_wf (0#8) _ _ _ _ _ k) h

theorem stageSlot_moves {P : List Part} {z : State} {s : State} {a : ℕ} {a2 : SlotHeader} (hP : within [.keeper, .mgmt] P = true) (h : Moves P z s) :
    Moves P z (Machine.stageSlot s a a2) := by
  unfold Machine.stageSlot
  with_reducible apply putSram_moves (within_trans rfl hP)
  with_reducible apply modBoot_moves (within_trans rfl hP)
  with_reducible assumption

theorem stagingSt_moves {P : List Part} {z : State} {s : State} (hP : within [.keeper, .mgmt] P = true) (h : Moves P z s) :
    Moves P z (Machine.stagingSt s) := by
  unfold Machine.stagingSt
  refine Moves.ite ?_ ?_
  · extract_lets +onlyGivenNames q0
    extract_lets +onlyGivenNames q1
    have h1 : Moves P z q1 := by
      unfold q1
      with_reducible apply modBoot_moves (within_trans rfl hP)
      with_reducible apply Moves.setMgmt (within_trans rfl hP)
      · with_reducible exact mgmtst_mk_flash
      · with_reducible exact mgmtst_mk_sram
      · with_reducible assumption
    clear_value q1
    split
    · with_reducible assumption
    · extract_lets +onlyGivenNames q2
      clear_value q2
      refine Moves.ite ?_ ?_
      · with_reducible apply stageSlot_moves (within_trans rfl hP)
        with_reducible assumption
      · with_reducible assumption
  · with_reducible assumption

theorem bootSlot_moves {P : List Part} {z : State} {s : State} {n : ℕ} {a : ℕ} {alt : Bool} (hP : within [.regs, .keeper, .book, .mgmt] P = true) (h : Moves P z s) :
    Moves P z (Machine.bootSlot s n a alt) := by
  unfold Machine.bootSlot
  extract_lets +onlyGivenNames q0
  clear_value q0
  extract_lets +onlyGivenNames q1
  clear_value q1
  extract_lets +onlyGivenNames q2
  clear_value q2
  extract_lets +onlyGivenNames q3
  clear_value q3
  extract_lets +onlyGivenNames q4
  have h4 : Moves P z q4 := by
    unfold q4
    with_reducible apply setF_moves (within_trans rfl hP)
    with_reducible apply setF_moves (within_trans rfl hP)
    with_reducible apply setF_moves (within_trans rfl hP)
    with_reducible apply setF_moves (within_trans rfl hP)
    with_reducible assumption
  clear_value q4
  with_reducible apply modBoot_moves (within_trans rfl hP)
  with_reducible apply stageSlot_moves (within_trans rfl hP)
  with_reducible apply Moves.setBook (within_trans rfl hP)
  with_reducible assumption

theorem verifySt_moves {P : List Part} {z : State} {readA : Bool} {readB : Bool} {s : State} (hP : within [.regs, .cfg, .keeper, .book, .log, .fu, .trav, .probe, .conv, .zn, .mgmt] P = true) (h : Moves P z s) :
    Moves P z (Machine.verifySt readA readB s) := by
  unfold Machine.verifySt
  refine Moves.ite ?_ ?_
  · split
    extract_lets +onlyGivenNames q0
    clear_value q0
    extract_lets +onlyGivenNames q1
    clear_value q1
    extract_lets +onlyGivenNames q2
    clear_value q2
    refine Moves.ite ?_ ?_
    · extract_lets +onlyGivenNames q3
      have h3 : Moves P z q3 := by
        unfold q3
        with_reducible apply setF_moves (within_trans rfl hP)
        with_reducible assumption
      clear_value q3
      refine Moves.ite ?_ ?_
      · with_reducible apply bootSlot_moves (within_trans rfl hP)
        with_reducible assumption
      · extract_lets +onlyGivenNames q4
        have h4 : Moves P z q4 := by
          unfold q4
          with_reducible apply setF_moves (within_trans rfl hP)
          with_reducible assumption
        clear_value q4
        refine Moves.ite ?_ ?_
        · with_reducible apply bootSlot_moves (within_trans rfl hP)
          with_reducible assumption
        · with_reducible apply enterRecovery_moves (within_trans rfl hP)
          with_reducible assumption
    · extract_lets +onlyGivenNames q5
      have h5 : Moves P z q5 := by
        unfold q5
        with_reducible apply setF_moves (within_trans rfl hP)
        with_reducible assumption
      clear_value q5
      refine Moves.ite ?_ ?_
      · with_reducible apply bootSlot_moves (within_trans rfl hP)
        with_reducible assumption
      · extract_lets +onlyGivenNames q6
        have h6 : Moves P z q6 := by
          unfold q6
          with_reducible apply setF_moves (within_trans rfl hP)
          with_reducible assumption
        clear_value q6
        refine Moves.ite ?_ ?_
        · with_reducible apply bootSlot_moves (within_trans rfl hP)
          with_reducible assumption
        · with_reducible apply enterRecovery_moves (within_trans rfl hP)
          with_reducible assumption
  · with_reducible assumption

theorem startBootTraining_moves {P : List Part} {z : State} {s : State} (hP : within [.mem] P = true) (h : Moves P z s) :
    Moves P z (Machine.startBootTraining s) := by
  unfold Machine.startBootTraining
  with_reducible apply Moves.setMem (within_trans rfl hP)
  with_reducible assumption

theorem stage1St_moves {P : List Part} {z : State} {s : State} (hP : within [.regs, .mem, .mgmt] P = true) (h : Moves P z s) :
    Moves P z (Machine.stage1St s) := by
  unfold Machine.stage1St
  refine Moves.ite ?_ ?_
  · extract_lets +onlyGivenNames q0
    clear_value q0
    split
    · with_reducible apply startBootTraining_moves (within_trans rfl hP)
      with_reducible apply setF_moves (within_trans rfl hP)
      with_reducible apply setF_moves (within_trans rfl hP)
      with_reducible apply putSram_moves (within_trans rfl hP)
      with_reducible assumption
    · refine Moves.ite ?_ ?_
      · with_reducible apply setF_moves (within_trans rfl hP)
        with_reducible assumption
      · with_reducible apply setF_moves (within_trans rfl hP)
        with_reducible assumption
  · with_reducible assumption

theorem stage2Boot_moves {P : List Part} {z : State} {s : State} {src : List Word} (hP : within [.regs, .cfg, .book, .conv, .hk] P = true) (h : Moves P z s) :
    Moves P z (Machine.stage2Boot s src) := by
  unfold Machine.stage2Boot
  extract_lets +onlyGivenNames q0
  clear_value q0
  extract_lets +onlyGivenNames q1
  have h1 : Moves P z q1 := by
    unfold q1
    with_reducible apply Moves.setBook (within_trans rfl hP)
    with_reducible assumption
  clear_value q1
  extract_lets +onlyGivenNames q2
  have h2 : Moves P z q2 := by
    unfold q2
    with_reducible apply Moves.setCfg (within_trans rfl hP)
    with_reducible assumption
  clear_value q2
  refine Moves.folded (fun _ _ _ => ?_) ?_
  · with_reducible apply startFullCal_moves (within_trans rfl hP)
    with_reducible apply modConv_moves (within_trans rfl hP)
    with_reducible assumption
  · with_reducible apply setF_moves (within_trans rfl hP)
    with_reducible assumption

theorem stage2St_moves {P : List Part} {z : State} {s : State} (hP : within [.regs, .cfg, .book, .conv, .hk] P = true) (h : Moves P z s) :
    Moves P z (Machine.stage2St s) := by
  unfold Machine.stage2St
  refine Moves.ite ?_ ?_
  · refine Moves.ite ?_ ?_
    · refine Moves.folded (fun _ _ _ => ?_) ?_
      · with_reducible apply resumeCal_moves (within_trans rfl hP)
        with_reducible assumption
      · with_reducible apply setF_moves (within_trans rfl hP)
        with_reducible assumption
    · extract_lets +onlyGivenNames q0
      clear_value q0
      split
      · with_reducible apply stage2Boot_moves (within_trans rfl hP)
        with_reducible assumption
      · with_reducible assumption
  · with_reducible assumption

theorem placeKernels_moves {P : List Part} {z : State} {s : State} (hP : within [.trav] P = true) (h : Moves P z s) :
    Moves P z (Machine.placeKernels s) := by
  unfold Machine.placeKernels
  extract_lets +onlyGivenNames q0
  clear_value q0
  with_reducible apply Moves.setTrav (within_trans rfl hP)
  with_reducible assumption

theorem selfTestSt_moves {P : List Part} {z : State} {t : Fin 8} {bad : Option (Fin 64)} {s : State} (hP : within [.regs, .keeper, .book, .log, .fu, .trav, .pce, .sense, .net, .zn, .streams, .code, .xbuf] P = true) (h : Moves P z s) :
    Moves P z (Machine.selfTestSt t bad s) := by
  unfold Machine.selfTestSt
  refine Moves.ite ?_ ?_
  · extract_lets +onlyGivenNames q0
    have h0 : Moves P z q0 := by
      unfold q0
      with_reducible apply modBoot_moves (within_trans rfl hP)
      with_reducible assumption
    extract_lets +onlyGivenNames q1
    have h1 : Moves P z q1 := by
      unfold q1
      split
      · with_reducible assumption
      · with_reducible apply laneFail_moves (within_trans rfl hP)
        with_reducible assumption
    refine Moves.ite ?_ ?_
    · with_reducible apply setF_moves (within_trans rfl hP)
      with_reducible apply placeKernels_moves (within_trans rfl hP)
      with_reducible assumption
    · with_reducible assumption
  · with_reducible assumption

theorem eachRec_moves {P : List Part} {z : State} {s : State} {ty : ℕ} {f : State → List Word → State}
    (hf : ∀ s x, Moves P z s → Moves P z (f s x)) (h : Moves P z s) : Moves P z (eachRec s ty f) :=
  Moves.forEach hf h

theorem startZones_moves {P : List Part} {z : State} {s : State} (hP : within [.zn] P = true) (h : Moves P z s) :
    Moves P z (Machine.startZones s) := by
  unfold Machine.startZones
  extract_lets +onlyGivenNames q0
  clear_value q0
  extract_lets +onlyGivenNames q1
  have h1 : Moves P z q1 := by
    unfold q1
    refine eachRec_moves (fun _ _ _ => ?_) ?_
    · with_reducible apply putZone_moves (within_trans rfl hP)
      with_reducible assumption
    · with_reducible assumption
  clear_value q1
  with_reducible apply Moves.setZn (within_trans rfl hP)
  with_reducible assumption

theorem startLoops_moves {P : List Part} {z : State} {s : State} (hP : within [.zn] P = true) (h : Moves P z s) :
    Moves P z (Machine.startLoops s) := by
  unfold Machine.startLoops
  with_reducible apply evalPins_moves (within_trans rfl hP)
  with_reducible apply loopsRefresh_moves (within_trans rfl hP)
  refine Moves.folded (fun _ _ _ => ?_) ?_
  · with_reducible apply modLoop_moves (within_trans rfl hP)
    with_reducible assumption
  · with_reducible assumption

theorem startLine_moves {P : List Part} {z : State} {s : State} {l : Fin 2} (hP : within [.trav, .probe, .conv, .pce, .sense] P = true) (h : Moves P z s) :
    Moves P z (Machine.startLine s l) := by
  unfold Machine.startLine
  extract_lets +onlyGivenNames q0
  have h0 : Moves P z q0 := by
    unfold q0
    with_reducible apply modConv_moves (within_trans rfl hP)
    with_reducible assumption
  clear_value q0
  extract_lets +onlyGivenNames q1
  have h1 : Moves P z q1 := by
    unfold q1
    split
    · with_reducible assumption
    · with_reducible apply startMeasure_moves (within_trans rfl hP)
      with_reducible apply modPce_moves (within_trans rfl hP)
      with_reducible assumption
  clear_value q1
  extract_lets +onlyGivenNames q2
  have h2 : Moves P z q2 := by
    unfold q2
    refine Moves.ite ?_ ?_
    · with_reducible assumption
    · with_reducible apply wantCapture_moves (within_trans rfl hP)
      with_reducible assumption
  clear_value q2
  with_reducible apply restartSchedule_moves (within_trans rfl hP)
  refine Moves.folded (fun _ _ _ => ?_) ?_
  · with_reducible apply zeroWindow_moves (within_trans rfl hP)
    with_reducible assumption
  · with_reducible assumption

theorem loadPlan_moves {P : List Part} {z : State} {s : State} (hP : within [.regs, .log, .trav, .probe, .conv, .pce, .sense, .net, .time, .hk, .zn, .streams, .code, .freeCtr] P = true) (h : Moves P z s) :
    Moves P z (Machine.loadPlan s) := by
  unfold Machine.loadPlan
  extract_lets +onlyGivenNames q0
  have h0 : Moves P z q0 := by
    unfold q0
    split
    · with_reducible assumption
    · with_reducible apply setF_moves (within_trans rfl hP)
      with_reducible apply setF_moves (within_trans rfl hP)
      with_reducible assumption
  clear_value q0
  extract_lets +onlyGivenNames q1
  have h1 : Moves P z q1 := by
    unfold q1
    with_reducible apply planSteps_moves (within_trans rfl hP)
    with_reducible assumption
  clear_value q1
  extract_lets +onlyGivenNames q2
  have h2 : Moves P z q2 := by
    unfold q2
    refine Moves.folded (fun _ _ _ => ?_) ?_
    · with_reducible apply setF_moves (within_trans rfl hP)
      with_reducible assumption
    · with_reducible assumption
  clear_value q2
  extract_lets +onlyGivenNames q3
  have h3 : Moves P z q3 := by
    unfold q3
    refine eachRec_moves (fun _ _ _ => ?_) ?_
    · with_reducible apply putDetector_moves (within_trans rfl hP)
      with_reducible assumption
    · refine eachRec_moves (fun _ _ _ => ?_) ?_
      · with_reducible apply startStream_moves (within_trans rfl hP)
        with_reducible assumption
      · with_reducible assumption
  clear_value q3
  extract_lets +onlyGivenNames q4
  have h4 : Moves P z q4 := by
    unfold q4
    refine eachRec_moves (fun _ _ _ => ?_) ?_
    · with_reducible apply setF_moves (within_trans rfl hP)
      with_reducible assumption
    · with_reducible assumption
  clear_value q4
  extract_lets +onlyGivenNames q5
  have h5 : Moves P z q5 := by
    unfold q5
    refine eachRec_moves (fun _ _ _ => ?_) ?_
    · with_reducible apply setF_moves (within_trans rfl hP)
      with_reducible assumption
    · with_reducible assumption
  clear_value q5
  extract_lets +onlyGivenNames q6
  have h6 : Moves P z q6 := by
    unfold q6
    refine eachRec_moves (fun _ _ _ => ?_) ?_
    · with_reducible apply applyCursor_moves (within_trans rfl hP)
      with_reducible assumption
    · with_reducible apply startRing_moves (within_trans rfl hP)
      with_reducible assumption
  clear_value q6
  extract_lets +onlyGivenNames q7
  have h7 : Moves P z q7 := by
    unfold q7
    refine Moves.folded (fun _ _ _ => ?_) ?_
    · refine Moves.ite ?_ ?_
      · with_reducible apply startLine_moves (within_trans rfl hP)
        with_reducible assumption
      · with_reducible assumption
    · with_reducible assumption
  clear_value q7
  with_reducible apply startSource_moves (within_trans rfl hP)
  with_reducible apply startLoops_moves (within_trans rfl hP)
  with_reducible apply startZones_moves (within_trans rfl hP)
  with_reducible apply timeRefs_moves (within_trans rfl hP)
  with_reducible apply hkChooseRef_moves (within_trans rfl hP)
  with_reducible assumption

theorem planAppliedSt_moves {P : List Part} {z : State} {s : State} (hP : within [.regs, .cfg, .book, .log, .fu, .trav, .probe, .conv, .pce, .sense, .net, .time, .hk, .zn, .streams, .code, .xbuf, .freeCtr] P = true) (h : Moves P z s) :
    Moves P z (Machine.planAppliedSt s) := by
  unfold Machine.planAppliedSt
  refine Moves.ite ?_ ?_
  · extract_lets +onlyGivenNames q0
    have h0 : Moves P z q0 := by
      unfold q0
      with_reducible apply loadParams_moves (within_trans rfl hP)
      with_reducible apply Moves.setCfg (within_trans rfl hP)
      with_reducible assumption
    clear_value q0
    extract_lets +onlyGivenNames q1
    have h1 : Moves P z q1 := by
      unfold q1
      refine Moves.ite ?_ ?_
      · with_reducible assumption
      · with_reducible apply loadPlan_moves (within_trans rfl hP)
        with_reducible assumption
    clear_value q1
    with_reducible apply bookFence_moves (within_trans rfl hP)
    with_reducible apply evalBudgets_moves (within_trans rfl hP)
    with_reducible assumption
  · with_reducible assumption

theorem finalLockSt_moves {P : List Part} {z : State} {s : State} (hP : within [.regs, .net] P = true) (h : Moves P z s) :
    Moves P z (Machine.finalLockSt s) := by
  unfold Machine.finalLockSt
  refine Moves.ite ?_ ?_
  · extract_lets +onlyGivenNames q0
    have h0 : Moves P z q0 := by
      unfold q0
      refine Moves.folded (fun _ _ _ => ?_) ?_
      · refine Moves.ite ?_ ?_
        · with_reducible apply startQuad_moves (within_trans rfl hP)
          with_reducible assumption
        · with_reducible assumption
      · with_reducible apply setF_moves (within_trans rfl hP)
        with_reducible assumption
    clear_value q0
    refine Moves.ite ?_ ?_
    · with_reducible apply setF_moves (within_trans rfl hP)
      with_reducible assumption
    · with_reducible assumption
  · with_reducible assumption

end Sys2Proof.Laws
end

