-- ==== Sys2Proof/Laws/FeaturesMoves.lean ====
section
/-! SUPPORT. What each operation of Machine/Features.lean can do: the parts of the state it changes, and that it keeps the
invariants. -/

namespace Sys2Proof.Laws
open Sys2Proof Sys2Proof.Machine Sys2Proof.Safety

theorem capIfSlow_moves {P : List Part} {z : State} {s : State} {l : Fin 3} {accepted : ℕ} (hP : within [.net] P = true) (h : Moves P z s) :
    Moves P z (Machine.capIfSlow s l accepted) := by
  unfold Machine.capIfSlow
  extract_lets +onlyGivenNames q0
  clear_value q0
  refine Moves.ite ?_ ?_
  · with_reducible apply newTrain_moves (within_trans rfl hP)
    with_reducible apply modQuad_moves (within_trans rfl hP)
    with_reducible assumption
  · with_reducible assumption

theorem acceptSt_moves {P : List Part} {z : State} {l : Fin 3} {word : ℕ} {serial : ℕ} {s : State} (hP : within [.regs, .net] P = true) (h : Moves P z s) :
    Moves P z (Machine.acceptSt l word serial s) := by
  unfold Machine.acceptSt
  extract_lets +onlyGivenNames q0
  clear_value q0
  refine Moves.ite ?_ ?_
  · with_reducible apply bump_moves (within_trans rfl hP)
    with_reducible assumption
  · extract_lets +onlyGivenNames q1
    clear_value q1
    extract_lets +onlyGivenNames q2
    have h2 : Moves P z q2 := by
      unfold q2
      with_reducible apply modLink_moves (within_trans rfl hP)
      with_reducible assumption
    clear_value q2
    extract_lets +onlyGivenNames q3
    have h3 : Moves P z q3 := by
      unfold q3
      with_reducible apply setF_moves (within_trans rfl hP)
      with_reducible apply putWord60_moves (within_trans rfl hP)
      with_reducible assumption
    clear_value q3
    extract_lets +onlyGivenNames q4
    have h4 : Moves P z q4 := by
      unfold q4
      refine Moves.ite ?_ ?_
      · with_reducible assumption
      · with_reducible apply setF_moves (within_trans rfl hP)
        with_reducible assumption
    clear_value q4
    with_reducible apply capIfSlow_moves (within_trans rfl hP)
    with_reducible apply dropWithdrawn_moves (within_trans rfl hP)
    with_reducible assumption

theorem answerOffer_moves {P : List Part} {z : State} {l : Fin 3} {word : ℕ} {serial : ℕ} {s : State} (hP : within [.net] P = true) (h : Moves P z s) :
    Moves P z (Machine.answerOffer l word serial s) := by
  unfold Machine.answerOffer
  extract_lets +onlyGivenNames q0
  clear_value q0
  refine Moves.ite ?_ ?_
  · with_reducible assumption
  · with_reducible apply sendOn_moves (within_trans rfl hP)
    with_reducible assumption

end Sys2Proof.Laws
end

