-- ==== Sys2Proof/Laws/LinksMoves.lean ====
section
/-! SUPPORT. What each operation of Machine/Links.lean can do: the parts of the state it changes, and that it keeps the
invariants. -/

namespace Sys2Proof.Laws
open Sys2Proof Sys2Proof.Machine Sys2Proof.Safety

theorem creditSt_moves {P : List Part} {z : State} {l : Fin 3} {grants : List ℕ} {s : State} (hP : within [.net] P = true) (h : Moves P z s) :
    Moves P z (Machine.creditSt l grants s) := by
  unfold Machine.creditSt
  with_reducible apply modLink_moves (within_trans rfl hP)
  with_reducible assumption

theorem respond_moves {P : List Part} {z : State} {s : State} {l : Fin 3} {ftype : ℕ} {src : ℕ} {tag : ℕ} {ws : List Word} (hP : within [.net] P = true) (h : Moves P z s) :
    Moves P z (Machine.respond s l ftype src tag ws) := by
  unfold Machine.respond
  with_reducible apply sendOn_moves (within_trans rfl hP)
  with_reducible assumption

theorem linkReadSt_moves {P : List Part} {z : State} {l : Fin 3} {tag : ℕ} {src : ℕ} {a : ℕ} {c : ℕ} {s : State} (hP : within [.regs, .net, .mgmt, .freeCtr] P = true) (h : Moves P z s) :
    Moves P z (Machine.linkReadSt l tag src a c s) := by
  unfold Machine.linkReadSt
  split
  with_reducible apply respond_moves (within_trans rfl hP)
  with_reducible apply pathAnswer_moves (within_trans rfl hP)
  refine readRegs_moves_eq (by assumption) (within_trans rfl hP) ?_
  with_reducible assumption

theorem writeResp_moves {P : List Part} {z : State} {s : State} {l : Fin 3} {src : ℕ} {tag : ℕ} {st : ℕ} {d : ℕ} {i : ℕ} (hP : within [.net] P = true) (h : Moves P z s) :
    Moves P z (Machine.writeResp s l src tag st d i) := by
  unfold Machine.writeResp
  with_reducible apply respond_moves (within_trans rfl hP)
  with_reducible assumption

theorem linkWriteSt_moves {P : List Part} {z : State} {l : Fin 3} {tag : ℕ} {src : ℕ} {a : ℕ} {m : ℕ} {vs : List ℕ} {s : State} (hP : within [.regs, .keeper, .log, .fu, .trav, .pce, .sense, .net, .time, .hk, .zn, .streams, .code, .mgmt, .freeCtr] P = true) (h : Moves P z s) :
    Moves P z (Machine.linkWriteSt l tag src a m vs s) := by
  unfold Machine.linkWriteSt
  split
  with_reducible apply writeResp_moves (within_trans rfl hP)
  with_reducible apply pathAnswer_moves (within_trans rfl hP)
  refine writeRegs_moves_eq (by assumption) (within_trans rfl hP) ?_
  with_reducible assumption

theorem broadcast_moves {P : List Part} {z : State} {s : State} {f : Frame} (hP : within [.net] P = true) (h : Moves P z s) :
    Moves P z (Machine.broadcast s f) := by
  unfold Machine.broadcast
  extract_lets +onlyGivenNames q0
  clear_value q0
  extract_lets +onlyGivenNames q1
  clear_value q1
  extract_lets +onlyGivenNames q2
  clear_value q2
  extract_lets +onlyGivenNames q3
  have h3 : Moves P z q3 := by
    unfold q3
    with_reducible apply Moves.setNet (within_trans rfl hP)
    with_reducible assumption
  clear_value q3
  refine Moves.folded (fun _ _ _ => ?_) ?_
  · refine Moves.ite ?_ ?_
    · with_reducible apply sendOn_moves (within_trans rfl hP)
      with_reducible assumption
    · with_reducible assumption
  · with_reducible assumption

theorem launchFrame_moves {P : List Part} {z : State} {s : State} {t : ℕ} {f : Frame} (hP : within [.regs, .net] P = true) (h : Moves P z s) :
    Moves P z (Machine.launchFrame s t f) := by
  unfold Machine.launchFrame
  extract_lets +onlyGivenNames q0
  clear_value q0
  extract_lets +onlyGivenNames q1
  clear_value q1
  extract_lets +onlyGivenNames q2
  have h2 : Moves P z q2 := by
    unfold q2
    refine Moves.ite ?_ ?_
    · with_reducible apply bump_moves (within_trans rfl hP)
      with_reducible assumption
    · with_reducible assumption
  clear_value q2
  refine Moves.ite ?_ ?_
  · with_reducible apply broadcast_moves (within_trans rfl hP)
    with_reducible assumption
  · with_reducible apply sendRouted_moves (within_trans rfl hP)
    with_reducible assumption

theorem timedSendSt_moves {P : List Part} {z : State} {l : Fin 3} {tag : ℕ} {src : ℕ} {ws : List Word} {s : State} (hP : within [.regs, .net] P = true) (h : Moves P z s) :
    Moves P z (Machine.timedSendSt l tag src ws s) := by
  unfold Machine.timedSendSt
  extract_lets +onlyGivenNames q0
  clear_value q0
  extract_lets +onlyGivenNames q1
  clear_value q1
  extract_lets +onlyGivenNames q2
  clear_value q2
  extract_lets +onlyGivenNames q3
  clear_value q3
  refine Moves.ite ?_ ?_
  · with_reducible apply writeResp_moves (within_trans rfl hP)
    with_reducible assumption
  · refine Moves.ite ?_ ?_
    · with_reducible apply writeResp_moves (within_trans rfl hP)
      with_reducible assumption
    · extract_lets +onlyGivenNames q4
      have h4 : Moves P z q4 := by
        unfold q4
        with_reducible apply writeResp_moves (within_trans rfl hP)
        with_reducible assumption
      clear_value q4
      refine Moves.ite ?_ ?_
      · with_reducible apply launchFrame_moves (within_trans rfl hP)
        with_reducible assumption
      · with_reducible apply Moves.setNet (within_trans rfl hP)
        with_reducible assumption

theorem timedLaunchSt_moves {P : List Part} {z : State} {s : State} (hP : within [.regs, .net] P = true) (h : Moves P z s) :
    Moves P z (Machine.timedLaunchSt s) := by
  unfold Machine.timedLaunchSt
  split
  · with_reducible assumption
  · refine Moves.ite ?_ ?_
    · with_reducible apply launchFrame_moves (within_trans rfl hP)
      with_reducible apply Moves.setNet (within_trans rfl hP)
      with_reducible assumption
    · with_reducible assumption

theorem passOn_moves {P : List Part} {z : State} {s : State} {l : Fin 3} {out : Fin 3} {f : Frame} (hP : within [.regs, .net] P = true) (h : Moves P z s) :
    Moves P z (Machine.passOn s l out f) := by
  unfold Machine.passOn
  refine Moves.ite ?_ ?_
  · with_reducible apply bump_moves (within_trans rfl hP)
    with_reducible assumption
  · with_reducible apply forwardOn_moves (within_trans rfl hP)
    with_reducible assumption

theorem passAll_moves_eq {P : List Part} {z : State} {s t : State} {l : Fin 3} {f : Frame} (e0 : passAll s l f = some t)
    (hP : within [.regs, .net] P = true) (h : Moves P z s) : Moves P z t := by
  unfold passAll at e0
  extract_lets ds at e0
  split at e0
  · cases e0
  · cases e0
    have h1 : Moves P z { s with net := { s.net with
        dups := (ds ++ [(f.src, f.tag, elapsed s)]).drop (ds.length + 1 - 16) } } := Moves.setNet (within_trans rfl hP) h
    exact Moves.folded (fun _ _ k => Moves.ite (passOn_moves (within_trans rfl hP) k) k) h1

theorem chainApply_moves {P : List Part} {z : State} {l : Fin 3} {f : Frame} {s : State} (hP : within [.regs, .log, .streams] P = true) (h : Moves P z s) :
    Moves P z (Machine.chainApply l f s) := by
  unfold Machine.chainApply
  extract_lets +onlyGivenNames q0
  clear_value q0
  refine Moves.ite ?_ ?_
  · with_reducible apply rxBad_moves (within_trans rfl hP)
    with_reducible assumption
  · refine Moves.ite ?_ ?_
    · with_reducible apply syncMask_moves (within_trans rfl hP)
      with_reducible assumption
    · with_reducible apply bump_moves (within_trans rfl hP)
      with_reducible assumption

theorem chainSyncSt_moves {P : List Part} {z : State} {l : Fin 3} {f : Frame} {s : State} (hP : within [.regs, .log, .net, .streams] P = true) (h : Moves P z s) :
    Moves P z (Machine.chainSyncSt l f s) := by
  unfold Machine.chainSyncSt
  refine Moves.ite ?_ ?_
  · with_reducible apply rxBad_moves (within_trans rfl hP)
    with_reducible assumption
  · refine Moves.ite ?_ ?_
    · split
      · with_reducible apply bump_moves (within_trans rfl hP)
        with_reducible assumption
      · with_reducible apply chainApply_moves (within_trans rfl hP)
        refine passAll_moves_eq (by assumption) (within_trans rfl hP) ?_
        with_reducible assumption
    · with_reducible apply chainApply_moves (within_trans rfl hP)
      with_reducible assumption

theorem levelLost_moves {P : List Part} {z : State} {s : State} {hold : Bool} (hP : within [.regs, .net, .time] P = true) (h : Moves P z s) :
    Moves P z (Machine.levelLost s hold) := by
  unfold Machine.levelLost
  extract_lets +onlyGivenNames q0
  clear_value q0
  extract_lets +onlyGivenNames q1
  have h1 : Moves P z q1 := by
    unfold q1
    with_reducible apply Moves.setNet (within_trans rfl hP)
    with_reducible assumption
  refine Moves.ite ?_ ?_
  · with_reducible apply setF_moves (within_trans rfl hP)
    with_reducible apply enterHoldover_moves (within_trans rfl hP)
    with_reducible assumption
  · with_reducible assumption

theorem levelAsk_moves {P : List Part} {z : State} {s : State} {r : LevelRun} (hP : within [.net] P = true) (h : Moves P z s) :
    Moves P z (Machine.levelAsk s r) := by
  unfold Machine.levelAsk
  extract_lets +onlyGivenNames q0
  clear_value q0
  with_reducible apply sendOn_moves (within_trans rfl hP)
  with_reducible apply Moves.setNet (within_trans rfl hP)
  with_reducible assumption

theorem levelStartSt_moves {P : List Part} {z : State} {s : State} (hP : within [.regs, .net, .time] P = true) (h : Moves P z s) :
    Moves P z (Machine.levelStartSt s) := by
  unfold Machine.levelStartSt
  split
  · with_reducible assumption
  · refine Moves.ite ?_ ?_
    · with_reducible assumption
    · extract_lets +onlyGivenNames q0
      clear_value q0
      refine Moves.ite ?_ ?_
      · with_reducible apply levelLost_moves (within_trans rfl hP)
        with_reducible assumption
      · with_reducible apply levelAsk_moves (within_trans rfl hP)
        with_reducible assumption

theorem levelReqSt_moves {P : List Part} {z : State} {l : Fin 3} {f : Frame} {stamp : ℕ} {s : State} (hP : within [.regs, .net] P = true) (h : Moves P z s) :
    Moves P z (Machine.levelReqSt l f stamp s) := by
  unfold Machine.levelReqSt
  refine Moves.ite ?_ ?_
  · with_reducible apply rxBad_moves (within_trans rfl hP)
    with_reducible assumption
  · with_reducible apply sendOn_moves (within_trans rfl hP)
    with_reducible assumption

theorem levelRespSt_moves {P : List Part} {z : State} {l : Fin 3} {f : Frame} {stamp : ℕ} {s : State} (hP : within [.regs, .net] P = true) (h : Moves P z s) :
    Moves P z (Machine.levelRespSt l f stamp s) := by
  unfold Machine.levelRespSt
  extract_lets +onlyGivenNames q0
  clear_value q0
  refine Moves.ite ?_ ?_
  · with_reducible apply rxBad_moves (within_trans rfl hP)
    with_reducible assumption
  · split
    · with_reducible assumption
    · split
      · with_reducible assumption
      · extract_lets +onlyGivenNames q1
        clear_value q1
        extract_lets +onlyGivenNames q2
        clear_value q2
        extract_lets +onlyGivenNames q3
        clear_value q3
        refine Moves.ite ?_ ?_
        · extract_lets +onlyGivenNames q4
          clear_value q4
          extract_lets +onlyGivenNames q5
          clear_value q5
          extract_lets +onlyGivenNames q6
          clear_value q6
          with_reducible apply Moves.setNet (within_trans rfl hP)
          with_reducible assumption
        · with_reducible assumption

theorem levelDelay_moves {P : List Part} {z : State} {s : State} {r : LevelRun} (hP : within [.freeCtr] P = true) (h : Moves P z s) :
    Moves P z (Machine.levelDelay s r).2 := by
  unfold Machine.levelDelay
  extract_lets +onlyGivenNames q0
  clear_value q0
  refine Moves.iteSnd ?_ ?_
  · refine Moves.snd ?_
    with_reducible assumption
  · split
    refine Moves.snd ?_
    refine draw_moves_eq (by assumption) (within_trans rfl hP) ?_
    with_reducible assumption

theorem levelDelay_moves_eq {P : List Part} {z : State} {s : State} {r : LevelRun} {tt : State} {x0}
    (e0 : Machine.levelDelay s r = (x0, tt)) (hP : within [.freeCtr] P = true) (h : Moves P z s) : Moves P z tt := by
  have k := levelDelay_moves (P := P) (z := z) (hP := hP) (h := h) (r := r)
  rw [e0] at k
  exact k

theorem levelDeliver_moves {P : List Part} {z : State} {s : State} {c : LevelCfg} {r : LevelRun} (hP : within [.regs, .log, .probe, .net, .time, .now, .freeCtr] P = true) (h : Moves P z s) :
    Moves P z (Machine.levelDeliver s c r) := by
  unfold Machine.levelDeliver
  split
  extract_lets +onlyGivenNames q0
  clear_value q0
  extract_lets +onlyGivenNames q1
  have h1 : Moves P z q1 := by
    unfold q1
    with_reducible apply setF_moves (within_trans rfl hP)
    with_reducible apply setF_moves (within_trans rfl hP)
    with_reducible apply setF_moves (within_trans rfl hP)
    refine levelDelay_moves_eq (by assumption) (within_trans rfl hP) ?_
    with_reducible assumption
  clear_value q1
  extract_lets +onlyGivenNames q2
  clear_value q2
  extract_lets +onlyGivenNames q3
  have h3 : Moves P z q3 := by
    unfold q3
    with_reducible apply Moves.setNet (within_trans rfl hP)
    with_reducible assumption
  clear_value q3
  with_reducible apply measure_moves (within_trans rfl hP)
  with_reducible assumption

theorem levelEndSt_moves {P : List Part} {z : State} {s : State} (hP : within [.regs, .log, .probe, .net, .time, .now, .freeCtr] P = true) (h : Moves P z s) :
    Moves P z (Machine.levelEndSt s) := by
  unfold Machine.levelEndSt
  split
  · refine Moves.ite ?_ ?_
    · extract_lets +onlyGivenNames q0
      clear_value q0
      extract_lets +onlyGivenNames q1
      have h1 : Moves P z q1 := by
        unfold q1
        with_reducible apply Moves.setNet (within_trans rfl hP)
        with_reducible assumption
      clear_value q1
      refine Moves.ite ?_ ?_
      · with_reducible apply levelDeliver_moves (within_trans rfl hP)
        with_reducible assumption
      · with_reducible apply levelLost_moves (within_trans rfl hP)
        with_reducible assumption
    · with_reducible assumption
  · with_reducible assumption

end Sys2Proof.Laws
end

