-- ==== Sys2Proof/Laws/DeliverMoves.lean ====
section
/-! SUPPORT. What each operation of Machine/Deliver.lean can do: the parts of the state it changes, and that it keeps the
invariants. -/

namespace Sys2Proof.Laws
open Sys2Proof Sys2Proof.Machine Sys2Proof.Safety

theorem deliverRead_moves {P : List Part} {z : State} {l : Fin 3} {f : Frame} {s : State} (hP : within [.regs, .net, .mgmt, .freeCtr] P = true) (h : Moves P z s) :
    Moves P z (Machine.deliverRead l f s) := by
  unfold Machine.deliverRead
  with_reducible apply linkReadSt_moves (within_trans rfl hP)
  with_reducible assumption

theorem deliverWrite_moves {P : List Part} {z : State} {l : Fin 3} {f : Frame} {s : State} (hP : within [.regs, .keeper, .log, .fu, .trav, .pce, .sense, .net, .time, .hk, .zn, .streams, .code, .mgmt, .freeCtr] P = true) (h : Moves P z s) :
    Moves P z (Machine.deliverWrite l f s) := by
  unfold Machine.deliverWrite
  extract_lets +onlyGivenNames q0
  clear_value q0
  extract_lets +onlyGivenNames q1
  clear_value q1
  refine Moves.ite ?_ ?_
  · with_reducible apply writeResp_moves (within_trans rfl hP)
    with_reducible assumption
  · with_reducible apply linkWriteSt_moves (within_trans rfl hP)
    with_reducible assumption

theorem deliverTime_moves {P : List Part} {z : State} {l : Fin 3} {f : Frame} {s : State} (hP : within [.regs, .log, .probe, .net, .time, .now, .freeCtr] P = true) (h : Moves P z s) :
    Moves P z (Machine.deliverTime l f s) := by
  unfold Machine.deliverTime
  extract_lets +onlyGivenNames q0
  clear_value q0
  extract_lets +onlyGivenNames q1
  clear_value q1
  extract_lets +onlyGivenNames q2
  clear_value q2
  extract_lets +onlyGivenNames q3
  clear_value q3
  refine Moves.ite ?_ ?_
  · with_reducible apply rxBad_moves (within_trans rfl hP)
    with_reducible assumption
  · split
    · with_reducible apply timeSetSt_moves (within_trans rfl hP)
      with_reducible assumption
    · with_reducible apply timeTrackSt_moves (within_trans rfl hP)
      with_reducible assumption
    · with_reducible apply timeLabelSt_moves (within_trans rfl hP)
      with_reducible assumption
    · with_reducible apply hostMsg_moves (within_trans rfl hP)
      · intro _ _ _
        with_reducible assumption
      · with_reducible assumption

theorem deliver_moves {P : List Part} {z : State} {l : Fin 3} {f : Frame} {s : State} (hP : within [.regs, .cfg, .keeper, .book, .log, .fu, .trav, .probe, .pce, .sense, .net, .time, .hk, .zn, .streams, .code, .mgmt, .now, .freeCtr] P = true) (h : Moves P z s) :
    Moves P z (Machine.deliver l f s) := by
  unfold Machine.deliver
  extract_lets +onlyGivenNames q0
  clear_value q0
  split
  · with_reducible apply creditSt_moves (within_trans rfl hP)
    with_reducible assumption
  · with_reducible apply answerOffer_moves (within_trans rfl hP)
    with_reducible assumption
  · with_reducible apply acceptSt_moves (within_trans rfl hP)
    with_reducible assumption
  · with_reducible apply levelReqSt_moves (within_trans rfl hP)
    with_reducible assumption
  · with_reducible apply levelRespSt_moves (within_trans rfl hP)
    with_reducible assumption
  · with_reducible apply chainApply_moves (within_trans rfl hP)
    with_reducible assumption
  · with_reducible apply deliverRead_moves (within_trans rfl hP)
    with_reducible assumption
  · with_reducible apply deliverWrite_moves (within_trans rfl hP)
    with_reducible assumption
  · with_reducible apply amendSt_moves (within_trans rfl hP)
    with_reducible assumption
  · with_reducible apply deliverTime_moves (within_trans rfl hP)
    with_reducible assumption
  · with_reducible apply timedSendSt_moves (within_trans rfl hP)
    with_reducible assumption
  · refine Moves.ite ?_ ?_
    · with_reducible assumption
    · with_reducible apply rxBad_moves (within_trans rfl hP)
      with_reducible assumption

theorem forwardSt_moves {P : List Part} {z : State} {l : Fin 3} {f : Frame} {s : State} (hP : within [.regs, .cfg, .keeper, .book, .log, .fu, .trav, .probe, .pce, .sense, .net, .time, .hk, .zn, .streams, .code, .mgmt, .now, .freeCtr] P = true) (h : Moves P z s) :
    Moves P z (Machine.forwardSt l f s) := by
  unfold Machine.forwardSt
  refine Moves.ite ?_ ?_
  · split
    · with_reducible apply bump_moves (within_trans rfl hP)
      with_reducible assumption
    · with_reducible apply deliver_moves (within_trans rfl hP)
      refine passAll_moves_eq (by assumption) (within_trans rfl hP) ?_
      with_reducible assumption
  · refine Moves.ite ?_ ?_
    · with_reducible apply deliver_moves (within_trans rfl hP)
      with_reducible assumption
    · refine Moves.ite ?_ ?_
      · with_reducible apply bump_moves (within_trans rfl hP)
        with_reducible assumption
      · split
        · with_reducible apply passOn_moves (within_trans rfl hP)
          with_reducible assumption
        · with_reducible apply bump_moves (within_trans rfl hP)
          with_reducible assumption

theorem cutThrough_moves {P : List Part} {z : State} {l : Fin 3} {f : Frame} {s : State} (hP : within [.regs, .net] P = true) (h : Moves P z s) :
    Moves P z (Machine.cutThrough l f s) := by
  unfold Machine.cutThrough
  refine Moves.ite ?_ ?_
  · with_reducible assumption
  · split
    · refine Moves.ite ?_ ?_
      · with_reducible apply passOn_moves (within_trans rfl hP)
        with_reducible assumption
      · with_reducible assumption
    · with_reducible assumption

theorem takeItem_moves {P : List Part} {z : State} {l : Fin 3} {s : State} {x : RxItem} (hP : within [.regs, .cfg, .keeper, .book, .log, .fu, .trav, .probe, .pce, .sense, .net, .time, .hk, .zn, .streams, .code, .mgmt, .now, .freeCtr] P = true) (h : Moves P z s) :
    Moves P z (Machine.takeItem l s x) := by
  unfold Machine.takeItem
  split
  · with_reducible apply receive_moves (within_trans rfl hP)
    · intro _ _
      with_reducible apply forwardSt_moves (within_trans rfl hP)
      with_reducible assumption
    · with_reducible assumption
  · extract_lets +onlyGivenNames q0
    have h0 : Moves P z q0 := by
      unfold q0
      with_reducible apply noteRx_moves (within_trans rfl hP)
      with_reducible assumption
    clear_value q0
    with_reducible apply rxBad_moves (within_trans rfl hP)
    refine Moves.ite ?_ ?_
    · with_reducible apply cutThrough_moves (within_trans rfl hP)
      with_reducible assumption
    · with_reducible assumption
  · with_reducible apply rxBad_moves (within_trans rfl hP)
    with_reducible assumption

end Sys2Proof.Laws
end

