-- ==== Sys2Proof/Laws/MailboxMoves.lean ====
section
/-! SUPPORT. What each operation of Machine/Mailbox.lean can do: the parts of the state it changes, and that it keeps the
invariants. -/

namespace Sys2Proof.Laws
open Sys2Proof Sys2Proof.Machine Sys2Proof.Safety

theorem advanceCounter_moves {P : List Part} {z : State} {s : State} {v : ℕ} (hP : within [.keeper, .otp] P = true) (h : Moves P z s) :
    Moves P z (Machine.advanceCounter s v) := by
  exact Moves.setOtp (within_trans rfl hP) h

theorem bootCompleteSt_moves {P : List Part} {z : State} {s : State} (hP : within [.regs, .keeper, .otp] P = true) (h : Moves P z s) :
    Moves P z (Machine.bootCompleteSt s) := by
  unfold Machine.bootCompleteSt
  refine Moves.ite ?_ ?_
  · with_reducible apply mbxAnswer_moves (within_trans rfl hP)
    with_reducible assumption
  · extract_lets +onlyGivenNames q0
    have h0 : Moves P z q0 := by
      unfold q0
      with_reducible apply mbxAnswer_moves (within_trans rfl hP)
      with_reducible apply modBoot_moves (within_trans rfl hP)
      with_reducible assumption
    clear_value q0
    refine Moves.ite ?_ ?_
    · with_reducible apply advanceCounter_moves (within_trans rfl hP)
      with_reducible assumption
    · with_reducible assumption

theorem modOtp_moves {P : List Part} {z : State} {s : State} {f : Otp → Otp} (hP : within [.keeper, .otp] P = true) (h : Moves P z s) :
    Moves P z (Machine.modOtp s f) := by
  exact Moves.setOtp (within_trans rfl hP) h

theorem programLife_moves {P : List Part} {z : State} {s : State} {target : ℕ} (hP : within [.keeper, .otp] P = true) (h : Moves P z s) :
    Moves P z (Machine.programLife s target) := by
  unfold Machine.programLife
  with_reducible apply modOtp_moves (within_trans rfl hP)
  with_reducible assumption

theorem enterReturn_moves {P : List Part} {z : State} {s : State} (hP : within [.regs, .keeper, .otp, .book, .log, .probe, .conv, .code, .dram] P = true) (h : Moves P z s) :
    Moves P z (Machine.enterReturn s) := by
  unfold Machine.enterReturn
  extract_lets +onlyGivenNames q0
  have h0 : Moves P z q0 := by
    unfold q0
    refine Moves.folded (fun _ _ _ => ?_) ?_
    · with_reducible apply disarmLine_moves (within_trans rfl hP)
      with_reducible apply setRearm_moves (within_trans rfl hP)
      with_reducible assumption
    · with_reducible apply programLife_moves (within_trans rfl hP)
      with_reducible assumption
  clear_value q0
  with_reducible apply modCode_moves (within_trans rfl hP)
  with_reducible apply Moves.setBookDram (within_trans rfl hP)
  · exact fun _ => rfl
  · with_reducible assumption

theorem tokenJudge_moves {P : List Part} {z : State} {s : State} {t : Token} (hP : within [.regs, .keeper, .otp, .book, .log, .probe, .conv, .code, .dram] P = true) (h : Moves P z s) :
    Moves P z (Machine.tokenJudge s t).2.2.2 := by
  unfold Machine.tokenJudge
  extract_lets +onlyGivenNames q0
  clear_value q0
  split
  · split
    · dsimp -zeta only
      with_reducible apply programLife_moves (within_trans rfl hP)
      with_reducible assumption
    · split
      · dsimp -zeta only
        with_reducible apply programLife_moves (within_trans rfl hP)
        with_reducible assumption
      · split
        · dsimp -zeta only
          with_reducible apply enterReturn_moves (within_trans rfl hP)
          with_reducible assumption
        · dsimp -zeta only
          with_reducible assumption
  · dsimp -zeta only
    with_reducible apply modOtp_moves (within_trans rfl hP)
    with_reducible assumption
  · dsimp -zeta only
    with_reducible apply modOtp_moves (within_trans rfl hP)
    with_reducible assumption

theorem tokenJudge_moves_eq {P : List Part} {z : State} {s : State} {t : Token} {tt : State} {x0} {x1} {x2}
    (e0 : Machine.tokenJudge s t = (x0, x1, x2, tt)) (hP : within [.regs, .keeper, .otp, .book, .log, .probe, .conv, .code, .dram] P = true) (h : Moves P z s) : Moves P z tt := by
  have k := tokenJudge_moves (P := P) (z := z) (hP := hP) (h := h) (t := t)
  rw [e0] at k
  exact k

theorem mbxLifecycleSt_moves {P : List Part} {z : State} {token : Option Token} {s : State} (hP : within [.regs, .keeper, .otp, .book, .log, .probe, .conv, .code, .dram, .freeCtr] P = true) (h : Moves P z s) :
    Moves P z (Machine.mbxLifecycleSt token s) := by
  unfold Machine.mbxLifecycleSt
  split
  · with_reducible apply mbxAnswer_moves (within_trans rfl hP)
    with_reducible assumption
  · split
    refine Moves.ite ?_ ?_
    · with_reducible apply mbxRefuse_moves (within_trans rfl hP)
      with_reducible assumption
    · refine Moves.ite ?_ ?_
      · with_reducible apply mbxAnswer_moves (within_trans rfl hP)
        with_reducible assumption
      · refine Moves.ite ?_ ?_
        · with_reducible apply mbxAnswer_moves (within_trans rfl hP)
          with_reducible assumption
        · refine Moves.ite ?_ ?_
          · with_reducible apply mbxRefuse_moves (within_trans rfl hP)
            with_reducible assumption
          · with_reducible apply mbxAnswer_moves (within_trans rfl hP)
            refine tokenJudge_moves_eq (by assumption) (within_trans rfl hP) ?_
            with_reducible assumption

theorem mbxServe_moves {P : List Part} {z : State} {s : State} {r : MbxReq} (hP : within [.regs, .cfg, .keeper, .otp, .book, .log, .fu, .trav, .probe, .conv, .pce, .sense, .net, .time, .mem, .hk, .zn, .streams, .code, .mgmt, .flash, .samples, .dram, .xbuf, .now, .up, .freeCtr] P = true) (h : Moves P z s) :
    Moves P z (Machine.mbxServe s r) := by
  unfold Machine.mbxServe
  extract_lets +onlyGivenNames q0
  clear_value q0
  extract_lets +onlyGivenNames q1
  clear_value q1
  split
  · with_reducible apply mbxAnswer_moves (within_trans rfl hP)
    with_reducible apply setF_moves (within_trans rfl hP)
    with_reducible assumption
  · with_reducible apply bootCompleteSt_moves (within_trans rfl hP)
    with_reducible assumption
  · refine Moves.ite ?_ ?_
    · with_reducible apply laserArmSt_moves (within_trans rfl hP)
      with_reducible assumption
    · with_reducible apply mbxRefuse_moves (within_trans rfl hP)
      with_reducible assumption
  · refine Moves.ite ?_ ?_
    · with_reducible apply laserDisarmSt_moves (within_trans rfl hP)
      with_reducible assumption
    · with_reducible apply mbxRefuse_moves (within_trans rfl hP)
      with_reducible assumption
  · split
    · with_reducible apply mbxWarmSt_moves (within_trans rfl hP)
      with_reducible assumption
    · with_reducible apply mbxColdSt_moves (within_trans rfl hP)
      with_reducible assumption
    · refine Moves.ite ?_ ?_
      · with_reducible apply mbxLineSt_moves (within_trans rfl hP)
        with_reducible assumption
      · with_reducible apply mbxRefuse_moves (within_trans rfl hP)
        with_reducible assumption
    · with_reducible apply mbxRefuse_moves (within_trans rfl hP)
      with_reducible assumption
  · split
    · with_reducible apply mbxEnterSt_moves (within_trans rfl hP)
      with_reducible assumption
    · with_reducible apply mbxExitSt_moves (within_trans rfl hP)
      with_reducible assumption
    · with_reducible apply mbxRefuse_moves (within_trans rfl hP)
      with_reducible assumption
  · refine Moves.ite ?_ ?_
    · with_reducible apply mbxDramFreqSt_moves (within_trans rfl hP)
      with_reducible assumption
    · with_reducible apply mbxRefuse_moves (within_trans rfl hP)
      with_reducible assumption
  · refine Moves.ite ?_ ?_
    · with_reducible apply recordHashSt_moves (within_trans rfl hP)
      with_reducible assumption
    · with_reducible apply mbxRefuse_moves (within_trans rfl hP)
      with_reducible assumption
  · refine Moves.ite ?_ ?_
    · with_reducible apply mbxLoopReleaseSt_moves (within_trans rfl hP)
      with_reducible assumption
    · with_reducible apply mbxRefuse_moves (within_trans rfl hP)
      with_reducible assumption
  · refine Moves.ite ?_ ?_
    · with_reducible apply mbxStaleClearSt_moves (within_trans rfl hP)
      with_reducible assumption
    · with_reducible apply mbxRefuse_moves (within_trans rfl hP)
      with_reducible assumption
  · with_reducible apply mbxLifecycleSt_moves (within_trans rfl hP)
    with_reducible assumption
  · with_reducible apply mbxAnswer_moves (within_trans rfl hP)
    with_reducible assumption

theorem mbxRun_moves {P : List Part} {z : State} {a0 : ℕ} {a1 : State} (hP : within [.regs, .cfg, .keeper, .otp, .book, .log, .fu, .trav, .probe, .conv, .pce, .sense, .net, .time, .mem, .hk, .zn, .streams, .code, .mgmt, .flash, .samples, .dram, .xbuf, .now, .up, .freeCtr] P = true) (h : Moves P z a1) :
    Moves P z (Machine.mbxRun a0 a1) := by
  induction a0 generalizing a1 with
  | zero => exact h
  | succ n ih =>
    unfold Machine.mbxRun
    split
    · exact h
    · exact Moves.ite (ih (mbxServe_moves (within_trans rfl hP) (modKeeper_moves (within_trans rfl hP) rfl h))) h

theorem mbxSend_moves {P : List Part} {z : State} {s : State} {code : ℕ} {a1 : ℕ} {a2 : ℕ} {a3 : ℕ} (hP : within [.regs, .cfg, .keeper, .otp, .book, .log, .fu, .trav, .probe, .conv, .pce, .sense, .net, .time, .mem, .hk, .zn, .streams, .code, .mgmt, .flash, .samples, .dram, .xbuf, .now, .up, .freeCtr] P = true) (h : Moves P z s) :
    Moves P z (Machine.mbxSend s code a1 a2 a3) := by
  unfold Machine.mbxSend
  extract_lets +onlyGivenNames q0
  clear_value q0
  refine Moves.ite ?_ ?_
  · with_reducible apply mbxRun_moves (within_trans rfl hP)
    with_reducible apply modKeeper_moves (within_trans rfl hP)
    · with_reducible exact keeper_mk_otp
    · with_reducible assumption
  · with_reducible assumption

theorem lifecycleAsk_moves {P : List Part} {z : State} {addr : ℕ} {token : List Word} {s : State} (hP : within [.regs, .cfg, .keeper, .otp, .book, .log, .fu, .trav, .probe, .conv, .pce, .sense, .net, .time, .mem, .hk, .zn, .streams, .code, .mgmt, .flash, .samples, .dram, .xbuf, .now, .up, .freeCtr] P = true) (h : Moves P z s) :
    Moves P z (Machine.lifecycleAsk addr token s) := by
  unfold Machine.lifecycleAsk
  with_reducible apply mbxSend_moves (within_trans rfl hP)
  with_reducible apply putSram_moves (within_trans rfl hP)
  with_reducible assumption

end Sys2Proof.Laws
end

