-- ==== Sys2Proof/Laws/ServiceMoves.lean ====
section
/-! SUPPORT. What each operation of Machine/Service.lean can do: the parts of the state it changes, and that it keeps the
invariants. -/

namespace Sys2Proof.Laws
open Sys2Proof Sys2Proof.Machine Sys2Proof.Safety

theorem modMgmt_moves {P : List Part} {z : State} {s : State} {f : MgmtSt → MgmtSt} (hP : within [.mgmt] P = true) (hf : (f s.mgmt).flash = s.mgmt.flash) (hs : (f s.mgmt).sram = s.mgmt.sram) (h : Moves P z s) :
    Moves P z (Machine.modMgmt s f) := by
  unfold Machine.modMgmt
  with_reducible apply Moves.setMgmt (within_trans rfl hP)
  · assumption
  · assumption
  · with_reducible assumption

theorem svcReadSt_moves {P : List Part} {z : State} {a : ℕ} {c : ℕ} {s : State} (hP : within [.regs, .mgmt, .freeCtr] P = true) (h : Moves P z s) :
    Moves P z (Machine.svcReadSt a c s) := by
  unfold Machine.svcReadSt
  extract_lets +onlyGivenNames q0
  clear_value q0
  extract_lets +onlyGivenNames q1
  clear_value q1
  extract_lets +onlyGivenNames q2
  clear_value q2
  split
  extract_lets +onlyGivenNames q3
  clear_value q3
  with_reducible apply modMgmt_moves (within_trans rfl hP)
  · with_reducible exact mgmtst_mk_flash
  · with_reducible exact mgmtst_mk_sram
  · refine Moves.ofEqSnd (by assumption) ?_
    refine Moves.iteSnd ?_ ?_
    · refine Moves.snd ?_
      with_reducible assumption
    · with_reducible apply readAll_moves (within_trans rfl hP)
      with_reducible assumption

theorem svcWriteSt_moves {P : List Part} {z : State} {a : ℕ} {m : ℕ} {vs : List ℕ} {s : State} (hP : within [.regs, .keeper, .log, .fu, .trav, .pce, .sense, .net, .time, .hk, .zn, .streams, .code, .mgmt, .freeCtr] P = true) (h : Moves P z s) :
    Moves P z (Machine.svcWriteSt a m vs s) := by
  unfold Machine.svcWriteSt
  refine Moves.ite ?_ ?_
  · with_reducible apply modMgmt_moves (within_trans rfl hP)
    · with_reducible exact mgmtst_mk_flash
    · with_reducible exact mgmtst_mk_sram
    · with_reducible assumption
  · split
    with_reducible apply modMgmt_moves (within_trans rfl hP)
    · with_reducible exact mgmtst_mk_flash
    · with_reducible exact mgmtst_mk_sram
    · with_reducible apply pathAnswer_moves (within_trans rfl hP)
      refine writeRegs_moves_eq (by assumption) (within_trans rfl hP) ?_
      with_reducible assumption

theorem flashCmd_moves {P : List Part} {z : State} {s : State} {as_ : List ℕ} {bus : List ℕ} {f : MgmtSt → MgmtSt} (hP : within [.mgmt] P = true) (hf : (f s.mgmt).flash = s.mgmt.flash) (hs : (f s.mgmt).sram = s.mgmt.sram) (h : Moves P z s) :
    Moves P z (Machine.flashCmd s as_ bus f) := by
  unfold Machine.flashCmd
  refine Moves.ite ?_ ?_
  · with_reducible apply modMgmt_moves (within_trans rfl hP)
    · with_reducible exact mgmtst_mk_flash
    · with_reducible exact mgmtst_mk_sram
    · with_reducible assumption
  · with_reducible apply modMgmt_moves (within_trans rfl hP)
    · assumption
    · assumption
    · with_reducible assumption

theorem flashOpDoneSt_moves {P : List Part} {z : State} {ok : Bool} {s : State} (hP : within [.mgmt, .flash, .freeCtr] P = true) (h : Moves P z s) :
    Moves P z (Machine.flashOpDoneSt ok s) := by
  unfold Machine.flashOpDoneSt
  split
  · exact h
  · next op e =>
    split
    · refine Moves.setFlash (within_trans rfl hP) (fun k => ?_) rfl h
      cases op with
      | program a bs => exact tabSet_fold_wf (0xFF#8) _ _ _ _ k
      | erase a => exact tabFilter_wf _ _ _ k
    · split
      next a n e2 =>
      extract_lets bs
      exact Moves.setFlash (within_trans rfl hP) (fun k => tabSet_fold_wf (0xFF#8) _ _ _ _ k) rfl
        (Moves.setFreeCtr (within_trans rfl hP) h)

theorem jtagSt_moves {P : List Part} {z : State} {ir : ℕ} {s : State} (hP : within [.mgmt, .freeCtr] P = true) (h : Moves P z s) :
    Moves P z (Machine.jtagSt ir s) := by
  unfold Machine.jtagSt
  extract_lets +onlyGivenNames q0
  clear_value q0
  split
  refine Moves.ite ?_ ?_
  · with_reducible apply modMgmt_moves (within_trans rfl hP)
    · with_reducible exact mgmtst_mk_flash
    · with_reducible exact mgmtst_mk_sram
    · refine draw_moves_eq (by assumption) (within_trans rfl hP) ?_
      with_reducible assumption
  · with_reducible apply modMgmt_moves (within_trans rfl hP)
    · with_reducible exact mgmtst_mk_flash
    · with_reducible exact mgmtst_mk_sram
    · refine draw_moves_eq (by assumption) (within_trans rfl hP) ?_
      with_reducible assumption

end Sys2Proof.Laws
end

