-- ==== Sys2Proof/Laws/WireMoves.lean ====
section
/-! SUPPORT. What each operation of Machine/Wire.lean can do: the parts of the state it changes, and that it keeps the
invariants. -/

namespace Sys2Proof.Laws
open Sys2Proof Sys2Proof.Machine Sys2Proof.Safety

theorem txActive_moves {P : List Part} {z : State} {g : ℕ} {s : State} {q : Fin 3} (hP : within [.net, .freeCtr] P = true) (h : Moves P z s) :
    Moves P z (Machine.txActive g s q) := by
  unfold Machine.txActive
  extract_lets +onlyGivenNames q0
  clear_value q0
  extract_lets +onlyGivenNames q1
  clear_value q1
  extract_lets +onlyGivenNames q2
  clear_value q2
  refine Moves.ite ?_ ?_
  · with_reducible apply modQuad_moves (within_trans rfl hP)
    with_reducible assumption
  · split
    extract_lets +onlyGivenNames q3
    clear_value q3
    extract_lets +onlyGivenNames q4
    clear_value q4
    extract_lets +onlyGivenNames q5
    have h5 : Moves P z q5 := by
      unfold q5
      with_reducible apply modLink_moves (within_trans rfl hP)
      with_reducible apply Moves.setNet (within_trans rfl hP)
      refine draw_moves_eq (by assumption) (within_trans rfl hP) ?_
      with_reducible assumption
    clear_value q5
    with_reducible apply modQuad_moves (within_trans rfl hP)
    with_reducible assumption

theorem txGroup_moves {P : List Part} {z : State} {g : ℕ} {s : State} {q : Fin 3} (hP : within [.net, .freeCtr] P = true) (h : Moves P z s) :
    Moves P z (Machine.txGroup g s q) := by
  unfold Machine.txGroup
  split
  · with_reducible apply txActive_moves (within_trans rfl hP)
    with_reducible assumption
  · with_reducible apply modQuad_moves (within_trans rfl hP)
    with_reducible assumption
  · with_reducible apply modQuad_moves (within_trans rfl hP)
    with_reducible assumption
  · split
    with_reducible apply modQuad_moves (within_trans rfl hP)
    refine draw_moves_eq (by assumption) (within_trans rfl hP) ?_
    with_reducible assumption
  · with_reducible assumption
  · with_reducible assumption
  · with_reducible assumption
  · with_reducible apply modQuad_moves (within_trans rfl hP)
    with_reducible assumption

theorem rxSymbols_moves {P : List Part} {z : State} {q : Fin 3} {p : Fin 4} {s : State} (hP : within [.regs, .net, .freeCtr] P = true) (h : Moves P z s) :
    Moves P z (Machine.rxSymbols q p s) := by
  unfold Machine.rxSymbols
  split
  extract_lets +onlyGivenNames q0
  clear_value q0
  with_reducible apply bumpBy_moves (within_trans rfl hP)
  with_reducible apply modQuad_moves (within_trans rfl hP)
  refine draw_moves_eq (by assumption) (within_trans rfl hP) ?_
  with_reducible assumption

theorem rxPrbs_moves {P : List Part} {z : State} {mode : ℕ} {q : Fin 3} {p : Fin 4} {s : State} (hP : within [.regs, .net, .freeCtr] P = true) (h : Moves P z s) :
    Moves P z (Machine.rxPrbs mode q p s) := by
  unfold Machine.rxPrbs
  extract_lets +onlyGivenNames q0
  clear_value q0
  extract_lets +onlyGivenNames q1
  clear_value q1
  split
  extract_lets +onlyGivenNames q2
  clear_value q2
  extract_lets +onlyGivenNames q3
  clear_value q3
  with_reducible apply bumpBy_moves (within_trans rfl hP)
  with_reducible apply modQuad_moves (within_trans rfl hP)
  refine Moves.ofEqSnd (by assumption) ?_
  refine Moves.iteSnd ?_ ?_
  · refine Moves.snd ?_
    with_reducible assumption
  · with_reducible apply draw_moves (within_trans rfl hP)
    with_reducible assumption

theorem rxGroup_moves {P : List Part} {z : State} {q : Fin 3} {s : State} {p : Fin 4} (hP : within [.regs, .net, .freeCtr] P = true) (h : Moves P z s) :
    Moves P z (Machine.rxGroup q s p) := by
  unfold Machine.rxGroup
  extract_lets +onlyGivenNames q0
  clear_value q0
  extract_lets +onlyGivenNames q1
  clear_value q1
  refine Moves.ite ?_ ?_
  · refine Moves.ite ?_ ?_
    · with_reducible apply rxPrbs_moves (within_trans rfl hP)
      with_reducible assumption
    · with_reducible assumption
  · refine Moves.ite ?_ ?_
    · with_reducible apply rxSymbols_moves (within_trans rfl hP)
      with_reducible assumption
    · with_reducible assumption

theorem runGroups_moves {P : List Part} {z : State} {q : Fin 3} {a1 : ℕ} {a2 : ℕ} {a3 : State} (hP : within [.regs, .net, .freeCtr] P = true) (h : Moves P z a3) :
    Moves P z (Machine.runGroups q a1 a2 a3) := by
  induction a1 generalizing a2 a3 with
  | zero => exact h
  | succ n ih =>
    unfold Machine.runGroups
    exact ih (txGroup_moves (within_trans rfl hP) (Moves.folded (fun _ _ k => rxGroup_moves (within_trans rfl hP) k) h))

theorem quadTick_moves {P : List Part} {z : State} {inc : ℕ} {s : State} {q : Fin 3} (hP : within [.regs, .net, .freeCtr] P = true) (h : Moves P z s) :
    Moves P z (Machine.quadTick inc s q) := by
  unfold Machine.quadTick
  extract_lets +onlyGivenNames q0
  clear_value q0
  extract_lets +onlyGivenNames q1
  clear_value q1
  with_reducible apply runGroups_moves (within_trans rfl hP)
  with_reducible assumption

theorem levelTick_moves {P : List Part} {z : State} {s : State} (hP : within [.net] P = true) (h : Moves P z s) :
    Moves P z (Machine.levelTick s) := by
  unfold Machine.levelTick
  split
  · with_reducible assumption
  · refine Moves.ite ?_ ?_
    · with_reducible apply levelAsk_moves (within_trans rfl hP)
      with_reducible assumption
    · with_reducible assumption

end Sys2Proof.Laws
end

