-- ==== Sys2Proof/Laws/TickMoves.lean ====
section
/-! SUPPORT. What each operation of Machine/Tick.lean can do: the parts of the state it changes, and that it keeps the
invariants. -/

namespace Sys2Proof.Laws
open Sys2Proof Sys2Proof.Machine Sys2Proof.Safety

theorem secondEnd_moves {P : List Part} {z : State} {s : State} (hP : within [.regs, .log, .trav, .code] P = true) (h : Moves P z s) :
    Moves P z (Machine.secondEnd s) := by
  unfold Machine.secondEnd
  extract_lets +onlyGivenNames q0
  have h0 : Moves P z q0 := by
    unfold q0
    refine Moves.folded (fun _ _ _ => ?_) ?_
    · with_reducible apply passDropSt_moves (within_trans rfl hP)
      with_reducible assumption
    · with_reducible assumption
  clear_value q0
  extract_lets +onlyGivenNames q1
  have h1 : Moves P z q1 := by
    unfold q1
    refine Moves.folded (fun _ _ _ => ?_) ?_
    · refine Moves.ite ?_ ?_
      · with_reducible apply bump_moves (within_trans rfl hP)
        with_reducible assumption
      · with_reducible assumption
    · with_reducible assumption
  clear_value q1
  extract_lets +onlyGivenNames q2
  have h2 : Moves P z q2 := by
    unfold q2
    with_reducible apply Moves.setCode (within_trans rfl hP)
    with_reducible assumption
  clear_value q2
  refine Moves.folded (fun _ _ _ => ?_) ?_
  · with_reducible apply modTrav_moves (within_trans rfl hP)
    with_reducible assumption
  · with_reducible assumption

theorem tick_moves {P : List Part} {z : State} {s : State} (hP : within [.regs, .log, .trav, .probe, .net, .code, .now, .up, .freeCtr] P = true) (h : Moves P z s) :
    Moves P z (Machine.tick s) := by
  unfold Machine.tick
  extract_lets +onlyGivenNames q0
  clear_value q0
  extract_lets +onlyGivenNames q1
  have h1 : Moves P z q1 := by
    unfold q1
    refine Moves.folded (fun _ _ _ => ?_) ?_
    · with_reducible apply quadTick_moves (within_trans rfl hP)
      with_reducible assumption
    · with_reducible apply levelTick_moves (within_trans rfl hP)
      with_reducible assumption
  clear_value q1
  extract_lets +onlyGivenNames q2
  have h2 : Moves P z q2 := by
    unfold q2
    refine Moves.ite ?_ ?_
    · with_reducible apply secondEnd_moves (within_trans rfl hP)
      with_reducible assumption
    · with_reducible assumption
  clear_value q2
  extract_lets +onlyGivenNames q3
  have h3 : Moves P z q3 := by
    unfold q3
    refine Moves.ite ?_ ?_
    · with_reducible apply Moves.setTrav (within_trans rfl hP)
      with_reducible assumption
    · with_reducible assumption
  clear_value q3
  refine Moves.folded (fun _ _ _ => ?_) ?_
  · with_reducible apply dacNow_moves (within_trans rfl hP)
    with_reducible assumption
  · with_reducible apply Moves.setNowUp (within_trans rfl hP)
    with_reducible assumption

end Sys2Proof.Laws
end

