-- ==== Sys2Proof/Laws/IdleMoves.lean ====
section
/-! SUPPORT. What each operation of Machine/Idle.lean can do: the parts of the state it changes, and that it keeps the
invariants. -/

namespace Sys2Proof.Laws
open Sys2Proof Sys2Proof.Machine Sys2Proof.Safety

theorem strike_moves {P : List Part} {z : State} {s : State} {u : ℕ × ℕ × ℕ} (hP : within [.trav] P = true) (h : Moves P z s) :
    Moves P z (Machine.strike s u) := by
  unfold Machine.strike
  with_reducible apply modTrav_moves (within_trans rfl hP)
  with_reducible assumption



end Sys2Proof.Laws
end

