-- ==== Sys2Proof/Laws/Lanes.lean ====
section
/-! SUPPORT. What one lane instruction does: the lanes its predicate picks change by the operation's function, no other
lane, no other traverse and no other part of the state does. -/
open Sys2Proof Sys2Proof.Machine Sys2Proof.Safety
namespace Sys2Proof.Laws

/-- Which lanes hold a station depends on what the traverses run and which are out of service, not on their lanes. -/
theorem laneHolds_congr {s u : State} (hc : u.cfg = s.cfg) (ho : ∀ k, (vget u.trav k).oos = (vget s.trav k).oos) (t : Fin 8)
    (hr : (vget u.trav t).run = (vget s.trav t).run) (hg : onRamanGrid (vget u.trav t) = onRamanGrid (vget s.trav t)) (i : Nat) :
    laneHolds u t i = laneHolds s t i := by
  have hpl : ∀ k, planLine u k = planLine s k := by
    have hro : recOf u = recOf s := by funext k; simp only [recOf, recsOf, hc]
    have hla : lineActive u = lineActive s := by funext k; simp only [lineActive, hro]
    intro k; simp only [planLine, hro, hla]
  have hlt : ∀ l, lineTravs u l = lineTravs s l := by
    intro l; simp only [lineTravs, hpl, ho]
  have htl : travLine u t = travLine s t := by simp only [travLine, ho, hpl]
  have hcs : ∀ l, cohStations u l = cohStations s l := by
    intro l; simp only [cohStations, rangeRt, recBy, recsOf, slotsOf, recBy2, hc]
  have hrs : ∀ l, ramanStations u l = ramanStations s l := by
    intro l; simp only [ramanStations, ramanCfg, recBy, recsOf, hc]
  have hls : ∀ l n, laneStations u l n t i = laneStations s l n t i := by
    intro l n; simp only [laneStations, laneBlock, travPos, hlt]
  have hgs : ∀ l r, gridStations u l r = gridStations s l r := by intro l r; simp only [gridStations, hcs, hrs]
  simp only [laneHolds, hr, htl, hg, hgs, hls]

theorem vget_mapLanes (T : Trav) (f : Nat → Lane → Lane) (i : Fin 64) :
    vget (mapLanes T f).lanes i = f i.val (vget T.lanes i) := by
  simp [vget, mapLanes]

/-- Moving past an instruction touches the kernel's or the traverse's program counter and the repeat alone. -/
theorem advance_lanes (T : Trav) : (advance T).lanes = T.lanes ∧ (advance T).run = T.run ∧ (advance T).oos = T.oos := by
  unfold advance
  cases T.rep <;> cases hk : T.kern <;> simp only [hk] <;> (try split) <;> (try split) <;> simp [hk]

/-- R233: with no result outstanding an instruction issues at once. -/
theorem after_idle (n : Nat) (c : LaneCost) : ({ cyc := n, ready := [] : Timing }.after c).cyc = n + c.issue := by
  have h : ∀ l : List Nat, l.foldl (fun a r => max a (tabGet 0 [] r)) n = n := by
    intro l
    induction l with
    | nil => rfl
    | cons r rs ih => simpa [tabGet] using ih
  simp only [Timing.after, Timing.start, h]

/-- R233, R244: a lane instruction that is legal and may issue answers a next state in which each executing lane has changed
by its function and nothing else has but the traverse and its counter of overflows. -/
theorem laneOp_becomes (s : State) (t : Fin 8) (p : Pred) (c : LaneCost) (f : Lane → Lane) (hi : issues s t c.issue) :
    ∃ u, laneOp s t p true c f = .next u ∧ lanesBecome [.regs, .trav] s u t p f := by
  have key : ∀ s1 : State, s1.cfg = s.cfg → (∀ k, (vget s1.trav k).oos = (vget s.trav k).oos) →
      (vget s1.trav t).run = (vget s.trav t).run → onRamanGrid (vget s1.trav t) = onRamanGrid (vget s.trav t) →
      (vget s1.trav t).lanes = (vget s.trav t).lanes →
      (∀ k, k ≠ t → vget s1.trav k = vget s.trav k) → ((vget s.trav t).kern = none → s1 = s) →
      changesOnly [.regs, .trav] s s1 →
      lanesBecome [.regs, .trav] s
        (settle s1 t (modTrav s1 t (fun T => mapLanes T (fun i L => if laneExecs s1 t p i L then f L else L)))) t p f := by
    intro s1 hc ho hr hg hl hk hn hch
    refine ⟨?_, ?_, ?_, ?_⟩
    · intro i
      have he : ∀ L, laneExecs s1 t p i.val L = laneExecs s t p i.val L := by
        intro L; simp only [laneExecs, laneHolds_congr hc ho t hr hg]
      simp only [lane, settle, modTrav, bumpBy, setF, regPut, vget_vmod, (advance_lanes _).1, vget_mapLanes, hl, he]
      rfl
    · intro k hkt
      have hkt' : t ≠ k := fun e => hkt e.symm
      simp only [settle, modTrav, bumpBy, setF, regPut, vget_vmod_ne _ _ hkt', hk k hkt]
    · intro h1 h2
      have e := hn h1
      subst e
      simp only [settle, modTrav, bumpBy, setF, regPut, vget_vmod, advance, mapLanes, h1, h2]
      exact ⟨trivial, trivial⟩
    · have m := (settle_moves (P := [.regs, .trav]) (z := s1) (s0 := s1) (t := t) rfl
        (modTrav_moves (P := [.regs, .trav]) (z := s1) (t := t)
          (f := fun T => mapLanes T (fun i L => if laneExecs s1 t p i L then f L else L)) rfl (Moves.refl _ s1))).only
      exact ⟨fun q hq => Part.same_trans (hch.1 q hq) (m.1 q hq), m.2.trans hch.2⟩
  unfold laneOp issue
  unfold issues at hi
  cases hk : (vget s.trav t).kern with
  | none =>
    exact ⟨_, rfl, key s rfl (fun _ => rfl) rfl rfl rfl (fun _ _ => rfl) (fun _ => rfl) ⟨fun q _ => Part.same_refl q s, rfl⟩⟩
  | some kr =>
    rw [hk] at hi
    obtain ⟨hr, k, hkk, hle⟩ := hi
    have hlim : ¬ k.maxCycles < ({ cyc := kr.cyc, ready := kr.ready : Timing }.after c).cyc := by
      rw [hr, after_idle]
      omega
    simp only [hkk, Bool.not_true, Bool.or_self, if_neg hlim, Bool.false_eq_true, if_false]
    refine ⟨_, rfl, key _ rfl ?_ ?_ ?_ ?_ ?_ ?_ ?_⟩
    · intro j
      by_cases e : t = j
      · subst e; simp only [modTrav, vget_vmod]
      · simp only [modTrav, vget_vmod_ne _ _ e]
    · simp only [modTrav, vget_vmod]
    · simp only [modTrav, vget_vmod, onRamanGrid, hk]
    · simp only [modTrav, vget_vmod]
    · intro j e; simp only [modTrav, vget_vmod_ne _ _ (fun h => e h.symm)]
    · intro h; rw [hk] at h; cases h
    · exact (modTrav_moves (P := [.regs, .trav]) rfl (Moves.refl _ s)).only

end Sys2Proof.Laws
end

