-- ==== Sys2Proof/Laws/Sram.lean ====
section
/-! SUPPORT. The management SRAM: what is put there is what is read there (R7, R55). -/

namespace Sys2Proof.Laws
open Sys2Proof Sys2Proof.Machine Sys2Proof.Safety

/-- Bytes put one after another from an address on, as a read sees them. -/
theorem sram_fold_get (a i : Nat) (bs : List Byte) : ∀ (k : Nat) (t : Tab Byte), a + k + bs.length ≤ 2097152 →
    tabGet 0#8 ((bs.zipIdx k).foldl (fun t x => if a + x.2 < 2097152 then tabSet 0#8 t (a + x.2) x.1 else t) t) i
      = if a + k ≤ i ∧ i < a + k + bs.length then bs.getD (i - (a + k)) 0#8 else tabGet 0#8 t i := by
  induction bs with
  | nil => intro k t _; simp
  | cons b l ih =>
    intro k t h
    simp only [List.length_cons] at h ⊢
    rw [List.zipIdx_cons, List.foldl_cons, ih (k + 1) _ (by omega), if_pos (show a + k < 2097152 by omega)]
    rcases Nat.lt_trichotomy i (a + k) with hi | hi | hi
    · rw [if_neg (by omega), if_neg (by omega), tabGet_set_ne 0#8 0#8 t b (by omega)]
    · subst hi
      rw [if_neg (by omega), if_pos (by omega), tabGet_set]
      simp
    · by_cases hu : i < a + (k + 1) + l.length
      · rw [if_pos (by omega), if_pos (by omega), show i - (a + k) = (i - (a + (k + 1))) + 1 by omega, List.getD_cons_succ]
      · rw [if_neg (by omega), if_neg (by omega), tabGet_set_ne 0#8 0#8 t b (by omega)]

/-- One byte of management SRAM after bytes are put there. -/
theorem putSram_get (s : State) (a i : Nat) (bs : List Byte) (h : a + bs.length ≤ 2097152) :
    tabGet 0#8 (putSram s a bs).mgmt.sram i
      = if a ≤ i ∧ i < a + bs.length then bs.getD (i - a) 0#8 else tabGet 0#8 s.mgmt.sram i := by
  have := sram_fold_get a i bs 0 s.mgmt.sram (by omega)
  simpa [putSram] using this

/-- The words of a packed image are read where the image was put. -/
theorem sramWords_put (s : State) (a n : Nat) (bs : List Byte) (h : a + bs.length ≤ 2097152) (hn : bs.length = packedBytes n) :
    sramWords (putSram s a bs) a n = unpackWords n bs := by
  unfold sramWords
  congr 1
  apply List.ext_getElem
  · simp [hn]
  · intro i h1 h2
    rw [List.getElem_map, List.getElem_range, putSram_get s a (a + i) bs h, if_pos (by omega)]
    simp [h2]

/-- R46: the token that is read is the one that stands in the words given. -/
theorem tokenSeen_eq (s : State) (x : Nat) (ws : List Word) (h : 5 * (x % 2 ^ 20) + (packWords ws).length ≤ 2097152)
    (hn : (packWords ws).length = packedBytes (ws.length % 1024)) :
    tokenSeen s x ws = readToken (unpackWords (ws.length % 1024) (packWords ws)) := by
  unfold tokenSeen
  rw [sramWords_put s _ _ _ h hn]

end Sys2Proof.Laws
end

