-- ==== Sys2Proof/Laws/State.lean ====
section
/-! SUPPORT. What each named update of the state leaves alone, one lemma for each field, and what it does to the field it
writes; all hold by unfolding. -/

namespace Sys2Proof.Laws
open Sys2Proof Sys2Proof.Machine

/-! ### regPut -/

@[simp] theorem regPut_cfg (s : State) (a v : Nat) : (regPut s a v).cfg = s.cfg := rfl
@[simp] theorem regPut_keeper (s : State) (a v : Nat) : (regPut s a v).keeper = s.keeper := rfl
@[simp] theorem regPut_book (s : State) (a v : Nat) : (regPut s a v).book = s.book := rfl
@[simp] theorem regPut_log (s : State) (a v : Nat) : (regPut s a v).log = s.log := rfl
@[simp] theorem regPut_fu (s : State) (a v : Nat) : (regPut s a v).fu = s.fu := rfl
@[simp] theorem regPut_trav (s : State) (a v : Nat) : (regPut s a v).trav = s.trav := rfl
@[simp] theorem regPut_probe (s : State) (a v : Nat) : (regPut s a v).probe = s.probe := rfl
@[simp] theorem regPut_conv (s : State) (a v : Nat) : (regPut s a v).conv = s.conv := rfl
@[simp] theorem regPut_pce (s : State) (a v : Nat) : (regPut s a v).pce = s.pce := rfl
@[simp] theorem regPut_sense (s : State) (a v : Nat) : (regPut s a v).sense = s.sense := rfl
@[simp] theorem regPut_net (s : State) (a v : Nat) : (regPut s a v).net = s.net := rfl
@[simp] theorem regPut_time (s : State) (a v : Nat) : (regPut s a v).time = s.time := rfl
@[simp] theorem regPut_mem (s : State) (a v : Nat) : (regPut s a v).mem = s.mem := rfl
@[simp] theorem regPut_hk (s : State) (a v : Nat) : (regPut s a v).hk = s.hk := rfl
@[simp] theorem regPut_zn (s : State) (a v : Nat) : (regPut s a v).zn = s.zn := rfl
@[simp] theorem regPut_streams (s : State) (a v : Nat) : (regPut s a v).streams = s.streams := rfl
@[simp] theorem regPut_code (s : State) (a v : Nat) : (regPut s a v).code = s.code := rfl
@[simp] theorem regPut_mgmt (s : State) (a v : Nat) : (regPut s a v).mgmt = s.mgmt := rfl
@[simp] theorem regPut_samples (s : State) (a v : Nat) : (regPut s a v).samples = s.samples := rfl
@[simp] theorem regPut_dram (s : State) (a v : Nat) : (regPut s a v).dram = s.dram := rfl
@[simp] theorem regPut_xbuf (s : State) (a v : Nat) : (regPut s a v).xbuf = s.xbuf := rfl
@[simp] theorem regPut_now (s : State) (a v : Nat) : (regPut s a v).now = s.now := rfl
@[simp] theorem regPut_up (s : State) (a v : Nat) : (regPut s a v).up = s.up := rfl
@[simp] theorem regPut_freeCtr (s : State) (a v : Nat) : (regPut s a v).freeCtr = s.freeCtr := rfl
@[simp] theorem regPut_pending (s : State) (a v : Nat) : (regPut s a v).pending = s.pending := rfl

/-! ### setF -/

@[simp] theorem setF_cfg (s : State) (f : Fld) (v : Nat) : (setF s f v).cfg = s.cfg := rfl
@[simp] theorem setF_keeper (s : State) (f : Fld) (v : Nat) : (setF s f v).keeper = s.keeper := rfl
@[simp] theorem setF_book (s : State) (f : Fld) (v : Nat) : (setF s f v).book = s.book := rfl
@[simp] theorem setF_log (s : State) (f : Fld) (v : Nat) : (setF s f v).log = s.log := rfl
@[simp] theorem setF_fu (s : State) (f : Fld) (v : Nat) : (setF s f v).fu = s.fu := rfl
@[simp] theorem setF_trav (s : State) (f : Fld) (v : Nat) : (setF s f v).trav = s.trav := rfl
@[simp] theorem setF_probe (s : State) (f : Fld) (v : Nat) : (setF s f v).probe = s.probe := rfl
@[simp] theorem setF_conv (s : State) (f : Fld) (v : Nat) : (setF s f v).conv = s.conv := rfl
@[simp] theorem setF_pce (s : State) (f : Fld) (v : Nat) : (setF s f v).pce = s.pce := rfl
@[simp] theorem setF_sense (s : State) (f : Fld) (v : Nat) : (setF s f v).sense = s.sense := rfl
@[simp] theorem setF_net (s : State) (f : Fld) (v : Nat) : (setF s f v).net = s.net := rfl
@[simp] theorem setF_time (s : State) (f : Fld) (v : Nat) : (setF s f v).time = s.time := rfl
@[simp] theorem setF_mem (s : State) (f : Fld) (v : Nat) : (setF s f v).mem = s.mem := rfl
@[simp] theorem setF_hk (s : State) (f : Fld) (v : Nat) : (setF s f v).hk = s.hk := rfl
@[simp] theorem setF_zn (s : State) (f : Fld) (v : Nat) : (setF s f v).zn = s.zn := rfl
@[simp] theorem setF_streams (s : State) (f : Fld) (v : Nat) : (setF s f v).streams = s.streams := rfl
@[simp] theorem setF_code (s : State) (f : Fld) (v : Nat) : (setF s f v).code = s.code := rfl
@[simp] theorem setF_mgmt (s : State) (f : Fld) (v : Nat) : (setF s f v).mgmt = s.mgmt := rfl
@[simp] theorem setF_samples (s : State) (f : Fld) (v : Nat) : (setF s f v).samples = s.samples := rfl
@[simp] theorem setF_dram (s : State) (f : Fld) (v : Nat) : (setF s f v).dram = s.dram := rfl
@[simp] theorem setF_xbuf (s : State) (f : Fld) (v : Nat) : (setF s f v).xbuf = s.xbuf := rfl
@[simp] theorem setF_now (s : State) (f : Fld) (v : Nat) : (setF s f v).now = s.now := rfl
@[simp] theorem setF_up (s : State) (f : Fld) (v : Nat) : (setF s f v).up = s.up := rfl
@[simp] theorem setF_freeCtr (s : State) (f : Fld) (v : Nat) : (setF s f v).freeCtr = s.freeCtr := rfl
@[simp] theorem setF_pending (s : State) (f : Fld) (v : Nat) : (setF s f v).pending = s.pending := rfl

/-! ### setFS -/

@[simp] theorem setFS_cfg (s : State) (f : Fld) (v : Int) : (setFS s f v).cfg = s.cfg := rfl
@[simp] theorem setFS_keeper (s : State) (f : Fld) (v : Int) : (setFS s f v).keeper = s.keeper := rfl
@[simp] theorem setFS_book (s : State) (f : Fld) (v : Int) : (setFS s f v).book = s.book := rfl
@[simp] theorem setFS_log (s : State) (f : Fld) (v : Int) : (setFS s f v).log = s.log := rfl
@[simp] theorem setFS_fu (s : State) (f : Fld) (v : Int) : (setFS s f v).fu = s.fu := rfl
@[simp] theorem setFS_trav (s : State) (f : Fld) (v : Int) : (setFS s f v).trav = s.trav := rfl
@[simp] theorem setFS_probe (s : State) (f : Fld) (v : Int) : (setFS s f v).probe = s.probe := rfl
@[simp] theorem setFS_conv (s : State) (f : Fld) (v : Int) : (setFS s f v).conv = s.conv := rfl
@[simp] theorem setFS_pce (s : State) (f : Fld) (v : Int) : (setFS s f v).pce = s.pce := rfl
@[simp] theorem setFS_sense (s : State) (f : Fld) (v : Int) : (setFS s f v).sense = s.sense := rfl
@[simp] theorem setFS_net (s : State) (f : Fld) (v : Int) : (setFS s f v).net = s.net := rfl
@[simp] theorem setFS_time (s : State) (f : Fld) (v : Int) : (setFS s f v).time = s.time := rfl
@[simp] theorem setFS_mem (s : State) (f : Fld) (v : Int) : (setFS s f v).mem = s.mem := rfl
@[simp] theorem setFS_hk (s : State) (f : Fld) (v : Int) : (setFS s f v).hk = s.hk := rfl
@[simp] theorem setFS_zn (s : State) (f : Fld) (v : Int) : (setFS s f v).zn = s.zn := rfl
@[simp] theorem setFS_streams (s : State) (f : Fld) (v : Int) : (setFS s f v).streams = s.streams := rfl
@[simp] theorem setFS_code (s : State) (f : Fld) (v : Int) : (setFS s f v).code = s.code := rfl
@[simp] theorem setFS_mgmt (s : State) (f : Fld) (v : Int) : (setFS s f v).mgmt = s.mgmt := rfl
@[simp] theorem setFS_samples (s : State) (f : Fld) (v : Int) : (setFS s f v).samples = s.samples := rfl
@[simp] theorem setFS_dram (s : State) (f : Fld) (v : Int) : (setFS s f v).dram = s.dram := rfl
@[simp] theorem setFS_xbuf (s : State) (f : Fld) (v : Int) : (setFS s f v).xbuf = s.xbuf := rfl
@[simp] theorem setFS_now (s : State) (f : Fld) (v : Int) : (setFS s f v).now = s.now := rfl
@[simp] theorem setFS_up (s : State) (f : Fld) (v : Int) : (setFS s f v).up = s.up := rfl
@[simp] theorem setFS_freeCtr (s : State) (f : Fld) (v : Int) : (setFS s f v).freeCtr = s.freeCtr := rfl
@[simp] theorem setFS_pending (s : State) (f : Fld) (v : Int) : (setFS s f v).pending = s.pending := rfl

/-! ### bumpBy -/

@[simp] theorem bumpBy_cfg (s : State) (f : Fld) (n : Nat) : (bumpBy s f n).cfg = s.cfg := rfl
@[simp] theorem bumpBy_keeper (s : State) (f : Fld) (n : Nat) : (bumpBy s f n).keeper = s.keeper := rfl
@[simp] theorem bumpBy_book (s : State) (f : Fld) (n : Nat) : (bumpBy s f n).book = s.book := rfl
@[simp] theorem bumpBy_log (s : State) (f : Fld) (n : Nat) : (bumpBy s f n).log = s.log := rfl
@[simp] theorem bumpBy_fu (s : State) (f : Fld) (n : Nat) : (bumpBy s f n).fu = s.fu := rfl
@[simp] theorem bumpBy_trav (s : State) (f : Fld) (n : Nat) : (bumpBy s f n).trav = s.trav := rfl
@[simp] theorem bumpBy_probe (s : State) (f : Fld) (n : Nat) : (bumpBy s f n).probe = s.probe := rfl
@[simp] theorem bumpBy_conv (s : State) (f : Fld) (n : Nat) : (bumpBy s f n).conv = s.conv := rfl
@[simp] theorem bumpBy_pce (s : State) (f : Fld) (n : Nat) : (bumpBy s f n).pce = s.pce := rfl
@[simp] theorem bumpBy_sense (s : State) (f : Fld) (n : Nat) : (bumpBy s f n).sense = s.sense := rfl
@[simp] theorem bumpBy_net (s : State) (f : Fld) (n : Nat) : (bumpBy s f n).net = s.net := rfl
@[simp] theorem bumpBy_time (s : State) (f : Fld) (n : Nat) : (bumpBy s f n).time = s.time := rfl
@[simp] theorem bumpBy_mem (s : State) (f : Fld) (n : Nat) : (bumpBy s f n).mem = s.mem := rfl
@[simp] theorem bumpBy_hk (s : State) (f : Fld) (n : Nat) : (bumpBy s f n).hk = s.hk := rfl
@[simp] theorem bumpBy_zn (s : State) (f : Fld) (n : Nat) : (bumpBy s f n).zn = s.zn := rfl
@[simp] theorem bumpBy_streams (s : State) (f : Fld) (n : Nat) : (bumpBy s f n).streams = s.streams := rfl
@[simp] theorem bumpBy_code (s : State) (f : Fld) (n : Nat) : (bumpBy s f n).code = s.code := rfl
@[simp] theorem bumpBy_mgmt (s : State) (f : Fld) (n : Nat) : (bumpBy s f n).mgmt = s.mgmt := rfl
@[simp] theorem bumpBy_samples (s : State) (f : Fld) (n : Nat) : (bumpBy s f n).samples = s.samples := rfl
@[simp] theorem bumpBy_dram (s : State) (f : Fld) (n : Nat) : (bumpBy s f n).dram = s.dram := rfl
@[simp] theorem bumpBy_xbuf (s : State) (f : Fld) (n : Nat) : (bumpBy s f n).xbuf = s.xbuf := rfl
@[simp] theorem bumpBy_now (s : State) (f : Fld) (n : Nat) : (bumpBy s f n).now = s.now := rfl
@[simp] theorem bumpBy_up (s : State) (f : Fld) (n : Nat) : (bumpBy s f n).up = s.up := rfl
@[simp] theorem bumpBy_freeCtr (s : State) (f : Fld) (n : Nat) : (bumpBy s f n).freeCtr = s.freeCtr := rfl
@[simp] theorem bumpBy_pending (s : State) (f : Fld) (n : Nat) : (bumpBy s f n).pending = s.pending := rfl

/-! ### bump -/

@[simp] theorem bump_cfg (s : State) (f : Fld) : (bump s f).cfg = s.cfg := rfl
@[simp] theorem bump_keeper (s : State) (f : Fld) : (bump s f).keeper = s.keeper := rfl
@[simp] theorem bump_book (s : State) (f : Fld) : (bump s f).book = s.book := rfl
@[simp] theorem bump_log (s : State) (f : Fld) : (bump s f).log = s.log := rfl
@[simp] theorem bump_fu (s : State) (f : Fld) : (bump s f).fu = s.fu := rfl
@[simp] theorem bump_trav (s : State) (f : Fld) : (bump s f).trav = s.trav := rfl
@[simp] theorem bump_probe (s : State) (f : Fld) : (bump s f).probe = s.probe := rfl
@[simp] theorem bump_conv (s : State) (f : Fld) : (bump s f).conv = s.conv := rfl
@[simp] theorem bump_pce (s : State) (f : Fld) : (bump s f).pce = s.pce := rfl
@[simp] theorem bump_sense (s : State) (f : Fld) : (bump s f).sense = s.sense := rfl
@[simp] theorem bump_net (s : State) (f : Fld) : (bump s f).net = s.net := rfl
@[simp] theorem bump_time (s : State) (f : Fld) : (bump s f).time = s.time := rfl
@[simp] theorem bump_mem (s : State) (f : Fld) : (bump s f).mem = s.mem := rfl
@[simp] theorem bump_hk (s : State) (f : Fld) : (bump s f).hk = s.hk := rfl
@[simp] theorem bump_zn (s : State) (f : Fld) : (bump s f).zn = s.zn := rfl
@[simp] theorem bump_streams (s : State) (f : Fld) : (bump s f).streams = s.streams := rfl
@[simp] theorem bump_code (s : State) (f : Fld) : (bump s f).code = s.code := rfl
@[simp] theorem bump_mgmt (s : State) (f : Fld) : (bump s f).mgmt = s.mgmt := rfl
@[simp] theorem bump_samples (s : State) (f : Fld) : (bump s f).samples = s.samples := rfl
@[simp] theorem bump_dram (s : State) (f : Fld) : (bump s f).dram = s.dram := rfl
@[simp] theorem bump_xbuf (s : State) (f : Fld) : (bump s f).xbuf = s.xbuf := rfl
@[simp] theorem bump_now (s : State) (f : Fld) : (bump s f).now = s.now := rfl
@[simp] theorem bump_up (s : State) (f : Fld) : (bump s f).up = s.up := rfl
@[simp] theorem bump_freeCtr (s : State) (f : Fld) : (bump s f).freeCtr = s.freeCtr := rfl
@[simp] theorem bump_pending (s : State) (f : Fld) : (bump s f).pending = s.pending := rfl

/-! ### modTrav -/

@[simp] theorem modTrav_regs (s : State) (t : Fin 8) (f : Trav → Trav) : (modTrav s t f).regs = s.regs := rfl
@[simp] theorem modTrav_cfg (s : State) (t : Fin 8) (f : Trav → Trav) : (modTrav s t f).cfg = s.cfg := rfl
@[simp] theorem modTrav_keeper (s : State) (t : Fin 8) (f : Trav → Trav) : (modTrav s t f).keeper = s.keeper := rfl
@[simp] theorem modTrav_book (s : State) (t : Fin 8) (f : Trav → Trav) : (modTrav s t f).book = s.book := rfl
@[simp] theorem modTrav_log (s : State) (t : Fin 8) (f : Trav → Trav) : (modTrav s t f).log = s.log := rfl
@[simp] theorem modTrav_fu (s : State) (t : Fin 8) (f : Trav → Trav) : (modTrav s t f).fu = s.fu := rfl
@[simp] theorem modTrav_probe (s : State) (t : Fin 8) (f : Trav → Trav) : (modTrav s t f).probe = s.probe := rfl
@[simp] theorem modTrav_conv (s : State) (t : Fin 8) (f : Trav → Trav) : (modTrav s t f).conv = s.conv := rfl
@[simp] theorem modTrav_pce (s : State) (t : Fin 8) (f : Trav → Trav) : (modTrav s t f).pce = s.pce := rfl
@[simp] theorem modTrav_sense (s : State) (t : Fin 8) (f : Trav → Trav) : (modTrav s t f).sense = s.sense := rfl
@[simp] theorem modTrav_net (s : State) (t : Fin 8) (f : Trav → Trav) : (modTrav s t f).net = s.net := rfl
@[simp] theorem modTrav_time (s : State) (t : Fin 8) (f : Trav → Trav) : (modTrav s t f).time = s.time := rfl
@[simp] theorem modTrav_mem (s : State) (t : Fin 8) (f : Trav → Trav) : (modTrav s t f).mem = s.mem := rfl
@[simp] theorem modTrav_hk (s : State) (t : Fin 8) (f : Trav → Trav) : (modTrav s t f).hk = s.hk := rfl
@[simp] theorem modTrav_zn (s : State) (t : Fin 8) (f : Trav → Trav) : (modTrav s t f).zn = s.zn := rfl
@[simp] theorem modTrav_streams (s : State) (t : Fin 8) (f : Trav → Trav) : (modTrav s t f).streams = s.streams := rfl
@[simp] theorem modTrav_code (s : State) (t : Fin 8) (f : Trav → Trav) : (modTrav s t f).code = s.code := rfl
@[simp] theorem modTrav_mgmt (s : State) (t : Fin 8) (f : Trav → Trav) : (modTrav s t f).mgmt = s.mgmt := rfl
@[simp] theorem modTrav_samples (s : State) (t : Fin 8) (f : Trav → Trav) : (modTrav s t f).samples = s.samples := rfl
@[simp] theorem modTrav_dram (s : State) (t : Fin 8) (f : Trav → Trav) : (modTrav s t f).dram = s.dram := rfl
@[simp] theorem modTrav_xbuf (s : State) (t : Fin 8) (f : Trav → Trav) : (modTrav s t f).xbuf = s.xbuf := rfl
@[simp] theorem modTrav_now (s : State) (t : Fin 8) (f : Trav → Trav) : (modTrav s t f).now = s.now := rfl
@[simp] theorem modTrav_up (s : State) (t : Fin 8) (f : Trav → Trav) : (modTrav s t f).up = s.up := rfl
@[simp] theorem modTrav_freeCtr (s : State) (t : Fin 8) (f : Trav → Trav) : (modTrav s t f).freeCtr = s.freeCtr := rfl
@[simp] theorem modTrav_pending (s : State) (t : Fin 8) (f : Trav → Trav) : (modTrav s t f).pending = s.pending := rfl

/-! ### modProbe -/

@[simp] theorem modProbe_regs (s : State) (l : Fin 2) (f : Probe → Probe) : (modProbe s l f).regs = s.regs := rfl
@[simp] theorem modProbe_cfg (s : State) (l : Fin 2) (f : Probe → Probe) : (modProbe s l f).cfg = s.cfg := rfl
@[simp] theorem modProbe_keeper (s : State) (l : Fin 2) (f : Probe → Probe) : (modProbe s l f).keeper = s.keeper := rfl
@[simp] theorem modProbe_book (s : State) (l : Fin 2) (f : Probe → Probe) : (modProbe s l f).book = s.book := rfl
@[simp] theorem modProbe_log (s : State) (l : Fin 2) (f : Probe → Probe) : (modProbe s l f).log = s.log := rfl
@[simp] theorem modProbe_fu (s : State) (l : Fin 2) (f : Probe → Probe) : (modProbe s l f).fu = s.fu := rfl
@[simp] theorem modProbe_trav (s : State) (l : Fin 2) (f : Probe → Probe) : (modProbe s l f).trav = s.trav := rfl
@[simp] theorem modProbe_conv (s : State) (l : Fin 2) (f : Probe → Probe) : (modProbe s l f).conv = s.conv := rfl
@[simp] theorem modProbe_pce (s : State) (l : Fin 2) (f : Probe → Probe) : (modProbe s l f).pce = s.pce := rfl
@[simp] theorem modProbe_sense (s : State) (l : Fin 2) (f : Probe → Probe) : (modProbe s l f).sense = s.sense := rfl
@[simp] theorem modProbe_net (s : State) (l : Fin 2) (f : Probe → Probe) : (modProbe s l f).net = s.net := rfl
@[simp] theorem modProbe_time (s : State) (l : Fin 2) (f : Probe → Probe) : (modProbe s l f).time = s.time := rfl
@[simp] theorem modProbe_mem (s : State) (l : Fin 2) (f : Probe → Probe) : (modProbe s l f).mem = s.mem := rfl
@[simp] theorem modProbe_hk (s : State) (l : Fin 2) (f : Probe → Probe) : (modProbe s l f).hk = s.hk := rfl
@[simp] theorem modProbe_zn (s : State) (l : Fin 2) (f : Probe → Probe) : (modProbe s l f).zn = s.zn := rfl
@[simp] theorem modProbe_streams (s : State) (l : Fin 2) (f : Probe → Probe) : (modProbe s l f).streams = s.streams := rfl
@[simp] theorem modProbe_code (s : State) (l : Fin 2) (f : Probe → Probe) : (modProbe s l f).code = s.code := rfl
@[simp] theorem modProbe_mgmt (s : State) (l : Fin 2) (f : Probe → Probe) : (modProbe s l f).mgmt = s.mgmt := rfl
@[simp] theorem modProbe_samples (s : State) (l : Fin 2) (f : Probe → Probe) : (modProbe s l f).samples = s.samples := rfl
@[simp] theorem modProbe_dram (s : State) (l : Fin 2) (f : Probe → Probe) : (modProbe s l f).dram = s.dram := rfl
@[simp] theorem modProbe_xbuf (s : State) (l : Fin 2) (f : Probe → Probe) : (modProbe s l f).xbuf = s.xbuf := rfl
@[simp] theorem modProbe_now (s : State) (l : Fin 2) (f : Probe → Probe) : (modProbe s l f).now = s.now := rfl
@[simp] theorem modProbe_up (s : State) (l : Fin 2) (f : Probe → Probe) : (modProbe s l f).up = s.up := rfl
@[simp] theorem modProbe_freeCtr (s : State) (l : Fin 2) (f : Probe → Probe) : (modProbe s l f).freeCtr = s.freeCtr := rfl
@[simp] theorem modProbe_pending (s : State) (l : Fin 2) (f : Probe → Probe) : (modProbe s l f).pending = s.pending := rfl

/-! ### modConv -/

@[simp] theorem modConv_regs (s : State) (l : Fin 2) (f : Conv → Conv) : (modConv s l f).regs = s.regs := rfl
@[simp] theorem modConv_cfg (s : State) (l : Fin 2) (f : Conv → Conv) : (modConv s l f).cfg = s.cfg := rfl
@[simp] theorem modConv_keeper (s : State) (l : Fin 2) (f : Conv → Conv) : (modConv s l f).keeper = s.keeper := rfl
@[simp] theorem modConv_book (s : State) (l : Fin 2) (f : Conv → Conv) : (modConv s l f).book = s.book := rfl
@[simp] theorem modConv_log (s : State) (l : Fin 2) (f : Conv → Conv) : (modConv s l f).log = s.log := rfl
@[simp] theorem modConv_fu (s : State) (l : Fin 2) (f : Conv → Conv) : (modConv s l f).fu = s.fu := rfl
@[simp] theorem modConv_trav (s : State) (l : Fin 2) (f : Conv → Conv) : (modConv s l f).trav = s.trav := rfl
@[simp] theorem modConv_probe (s : State) (l : Fin 2) (f : Conv → Conv) : (modConv s l f).probe = s.probe := rfl
@[simp] theorem modConv_pce (s : State) (l : Fin 2) (f : Conv → Conv) : (modConv s l f).pce = s.pce := rfl
@[simp] theorem modConv_sense (s : State) (l : Fin 2) (f : Conv → Conv) : (modConv s l f).sense = s.sense := rfl
@[simp] theorem modConv_net (s : State) (l : Fin 2) (f : Conv → Conv) : (modConv s l f).net = s.net := rfl
@[simp] theorem modConv_time (s : State) (l : Fin 2) (f : Conv → Conv) : (modConv s l f).time = s.time := rfl
@[simp] theorem modConv_mem (s : State) (l : Fin 2) (f : Conv → Conv) : (modConv s l f).mem = s.mem := rfl
@[simp] theorem modConv_hk (s : State) (l : Fin 2) (f : Conv → Conv) : (modConv s l f).hk = s.hk := rfl
@[simp] theorem modConv_zn (s : State) (l : Fin 2) (f : Conv → Conv) : (modConv s l f).zn = s.zn := rfl
@[simp] theorem modConv_streams (s : State) (l : Fin 2) (f : Conv → Conv) : (modConv s l f).streams = s.streams := rfl
@[simp] theorem modConv_code (s : State) (l : Fin 2) (f : Conv → Conv) : (modConv s l f).code = s.code := rfl
@[simp] theorem modConv_mgmt (s : State) (l : Fin 2) (f : Conv → Conv) : (modConv s l f).mgmt = s.mgmt := rfl
@[simp] theorem modConv_samples (s : State) (l : Fin 2) (f : Conv → Conv) : (modConv s l f).samples = s.samples := rfl
@[simp] theorem modConv_dram (s : State) (l : Fin 2) (f : Conv → Conv) : (modConv s l f).dram = s.dram := rfl
@[simp] theorem modConv_xbuf (s : State) (l : Fin 2) (f : Conv → Conv) : (modConv s l f).xbuf = s.xbuf := rfl
@[simp] theorem modConv_now (s : State) (l : Fin 2) (f : Conv → Conv) : (modConv s l f).now = s.now := rfl
@[simp] theorem modConv_up (s : State) (l : Fin 2) (f : Conv → Conv) : (modConv s l f).up = s.up := rfl
@[simp] theorem modConv_freeCtr (s : State) (l : Fin 2) (f : Conv → Conv) : (modConv s l f).freeCtr = s.freeCtr := rfl
@[simp] theorem modConv_pending (s : State) (l : Fin 2) (f : Conv → Conv) : (modConv s l f).pending = s.pending := rfl

/-! ### modPce -/

@[simp] theorem modPce_regs (s : State) (l : Fin 2) (f : Pce → Pce) : (modPce s l f).regs = s.regs := rfl
@[simp] theorem modPce_cfg (s : State) (l : Fin 2) (f : Pce → Pce) : (modPce s l f).cfg = s.cfg := rfl
@[simp] theorem modPce_keeper (s : State) (l : Fin 2) (f : Pce → Pce) : (modPce s l f).keeper = s.keeper := rfl
@[simp] theorem modPce_book (s : State) (l : Fin 2) (f : Pce → Pce) : (modPce s l f).book = s.book := rfl
@[simp] theorem modPce_log (s : State) (l : Fin 2) (f : Pce → Pce) : (modPce s l f).log = s.log := rfl
@[simp] theorem modPce_fu (s : State) (l : Fin 2) (f : Pce → Pce) : (modPce s l f).fu = s.fu := rfl
@[simp] theorem modPce_trav (s : State) (l : Fin 2) (f : Pce → Pce) : (modPce s l f).trav = s.trav := rfl
@[simp] theorem modPce_probe (s : State) (l : Fin 2) (f : Pce → Pce) : (modPce s l f).probe = s.probe := rfl
@[simp] theorem modPce_conv (s : State) (l : Fin 2) (f : Pce → Pce) : (modPce s l f).conv = s.conv := rfl
@[simp] theorem modPce_sense (s : State) (l : Fin 2) (f : Pce → Pce) : (modPce s l f).sense = s.sense := rfl
@[simp] theorem modPce_net (s : State) (l : Fin 2) (f : Pce → Pce) : (modPce s l f).net = s.net := rfl
@[simp] theorem modPce_time (s : State) (l : Fin 2) (f : Pce → Pce) : (modPce s l f).time = s.time := rfl
@[simp] theorem modPce_mem (s : State) (l : Fin 2) (f : Pce → Pce) : (modPce s l f).mem = s.mem := rfl
@[simp] theorem modPce_hk (s : State) (l : Fin 2) (f : Pce → Pce) : (modPce s l f).hk = s.hk := rfl
@[simp] theorem modPce_zn (s : State) (l : Fin 2) (f : Pce → Pce) : (modPce s l f).zn = s.zn := rfl
@[simp] theorem modPce_streams (s : State) (l : Fin 2) (f : Pce → Pce) : (modPce s l f).streams = s.streams := rfl
@[simp] theorem modPce_code (s : State) (l : Fin 2) (f : Pce → Pce) : (modPce s l f).code = s.code := rfl
@[simp] theorem modPce_mgmt (s : State) (l : Fin 2) (f : Pce → Pce) : (modPce s l f).mgmt = s.mgmt := rfl
@[simp] theorem modPce_samples (s : State) (l : Fin 2) (f : Pce → Pce) : (modPce s l f).samples = s.samples := rfl
@[simp] theorem modPce_dram (s : State) (l : Fin 2) (f : Pce → Pce) : (modPce s l f).dram = s.dram := rfl
@[simp] theorem modPce_xbuf (s : State) (l : Fin 2) (f : Pce → Pce) : (modPce s l f).xbuf = s.xbuf := rfl
@[simp] theorem modPce_now (s : State) (l : Fin 2) (f : Pce → Pce) : (modPce s l f).now = s.now := rfl
@[simp] theorem modPce_up (s : State) (l : Fin 2) (f : Pce → Pce) : (modPce s l f).up = s.up := rfl
@[simp] theorem modPce_freeCtr (s : State) (l : Fin 2) (f : Pce → Pce) : (modPce s l f).freeCtr = s.freeCtr := rfl
@[simp] theorem modPce_pending (s : State) (l : Fin 2) (f : Pce → Pce) : (modPce s l f).pending = s.pending := rfl

/-! ### modTime -/

@[simp] theorem modTime_regs (s : State) (f : TimeSt → TimeSt) : (modTime s f).regs = s.regs := rfl
@[simp] theorem modTime_cfg (s : State) (f : TimeSt → TimeSt) : (modTime s f).cfg = s.cfg := rfl
@[simp] theorem modTime_keeper (s : State) (f : TimeSt → TimeSt) : (modTime s f).keeper = s.keeper := rfl
@[simp] theorem modTime_book (s : State) (f : TimeSt → TimeSt) : (modTime s f).book = s.book := rfl
@[simp] theorem modTime_log (s : State) (f : TimeSt → TimeSt) : (modTime s f).log = s.log := rfl
@[simp] theorem modTime_fu (s : State) (f : TimeSt → TimeSt) : (modTime s f).fu = s.fu := rfl
@[simp] theorem modTime_trav (s : State) (f : TimeSt → TimeSt) : (modTime s f).trav = s.trav := rfl
@[simp] theorem modTime_probe (s : State) (f : TimeSt → TimeSt) : (modTime s f).probe = s.probe := rfl
@[simp] theorem modTime_conv (s : State) (f : TimeSt → TimeSt) : (modTime s f).conv = s.conv := rfl
@[simp] theorem modTime_pce (s : State) (f : TimeSt → TimeSt) : (modTime s f).pce = s.pce := rfl
@[simp] theorem modTime_sense (s : State) (f : TimeSt → TimeSt) : (modTime s f).sense = s.sense := rfl
@[simp] theorem modTime_net (s : State) (f : TimeSt → TimeSt) : (modTime s f).net = s.net := rfl
@[simp] theorem modTime_mem (s : State) (f : TimeSt → TimeSt) : (modTime s f).mem = s.mem := rfl
@[simp] theorem modTime_hk (s : State) (f : TimeSt → TimeSt) : (modTime s f).hk = s.hk := rfl
@[simp] theorem modTime_zn (s : State) (f : TimeSt → TimeSt) : (modTime s f).zn = s.zn := rfl
@[simp] theorem modTime_streams (s : State) (f : TimeSt → TimeSt) : (modTime s f).streams = s.streams := rfl
@[simp] theorem modTime_code (s : State) (f : TimeSt → TimeSt) : (modTime s f).code = s.code := rfl
@[simp] theorem modTime_mgmt (s : State) (f : TimeSt → TimeSt) : (modTime s f).mgmt = s.mgmt := rfl
@[simp] theorem modTime_samples (s : State) (f : TimeSt → TimeSt) : (modTime s f).samples = s.samples := rfl
@[simp] theorem modTime_dram (s : State) (f : TimeSt → TimeSt) : (modTime s f).dram = s.dram := rfl
@[simp] theorem modTime_xbuf (s : State) (f : TimeSt → TimeSt) : (modTime s f).xbuf = s.xbuf := rfl
@[simp] theorem modTime_now (s : State) (f : TimeSt → TimeSt) : (modTime s f).now = s.now := rfl
@[simp] theorem modTime_up (s : State) (f : TimeSt → TimeSt) : (modTime s f).up = s.up := rfl
@[simp] theorem modTime_freeCtr (s : State) (f : TimeSt → TimeSt) : (modTime s f).freeCtr = s.freeCtr := rfl
@[simp] theorem modTime_pending (s : State) (f : TimeSt → TimeSt) : (modTime s f).pending = s.pending := rfl

/-! ### modTdc -/

@[simp] theorem modTdc_regs (s : State) (c : Fin 9) (f : TdcCh → TdcCh) : (modTdc s c f).regs = s.regs := rfl
@[simp] theorem modTdc_cfg (s : State) (c : Fin 9) (f : TdcCh → TdcCh) : (modTdc s c f).cfg = s.cfg := rfl
@[simp] theorem modTdc_keeper (s : State) (c : Fin 9) (f : TdcCh → TdcCh) : (modTdc s c f).keeper = s.keeper := rfl
@[simp] theorem modTdc_book (s : State) (c : Fin 9) (f : TdcCh → TdcCh) : (modTdc s c f).book = s.book := rfl
@[simp] theorem modTdc_log (s : State) (c : Fin 9) (f : TdcCh → TdcCh) : (modTdc s c f).log = s.log := rfl
@[simp] theorem modTdc_fu (s : State) (c : Fin 9) (f : TdcCh → TdcCh) : (modTdc s c f).fu = s.fu := rfl
@[simp] theorem modTdc_trav (s : State) (c : Fin 9) (f : TdcCh → TdcCh) : (modTdc s c f).trav = s.trav := rfl
@[simp] theorem modTdc_probe (s : State) (c : Fin 9) (f : TdcCh → TdcCh) : (modTdc s c f).probe = s.probe := rfl
@[simp] theorem modTdc_conv (s : State) (c : Fin 9) (f : TdcCh → TdcCh) : (modTdc s c f).conv = s.conv := rfl
@[simp] theorem modTdc_pce (s : State) (c : Fin 9) (f : TdcCh → TdcCh) : (modTdc s c f).pce = s.pce := rfl
@[simp] theorem modTdc_sense (s : State) (c : Fin 9) (f : TdcCh → TdcCh) : (modTdc s c f).sense = s.sense := rfl
@[simp] theorem modTdc_net (s : State) (c : Fin 9) (f : TdcCh → TdcCh) : (modTdc s c f).net = s.net := rfl
@[simp] theorem modTdc_mem (s : State) (c : Fin 9) (f : TdcCh → TdcCh) : (modTdc s c f).mem = s.mem := rfl
@[simp] theorem modTdc_hk (s : State) (c : Fin 9) (f : TdcCh → TdcCh) : (modTdc s c f).hk = s.hk := rfl
@[simp] theorem modTdc_zn (s : State) (c : Fin 9) (f : TdcCh → TdcCh) : (modTdc s c f).zn = s.zn := rfl
@[simp] theorem modTdc_streams (s : State) (c : Fin 9) (f : TdcCh → TdcCh) : (modTdc s c f).streams = s.streams := rfl
@[simp] theorem modTdc_code (s : State) (c : Fin 9) (f : TdcCh → TdcCh) : (modTdc s c f).code = s.code := rfl
@[simp] theorem modTdc_mgmt (s : State) (c : Fin 9) (f : TdcCh → TdcCh) : (modTdc s c f).mgmt = s.mgmt := rfl
@[simp] theorem modTdc_samples (s : State) (c : Fin 9) (f : TdcCh → TdcCh) : (modTdc s c f).samples = s.samples := rfl
@[simp] theorem modTdc_dram (s : State) (c : Fin 9) (f : TdcCh → TdcCh) : (modTdc s c f).dram = s.dram := rfl
@[simp] theorem modTdc_xbuf (s : State) (c : Fin 9) (f : TdcCh → TdcCh) : (modTdc s c f).xbuf = s.xbuf := rfl
@[simp] theorem modTdc_now (s : State) (c : Fin 9) (f : TdcCh → TdcCh) : (modTdc s c f).now = s.now := rfl
@[simp] theorem modTdc_up (s : State) (c : Fin 9) (f : TdcCh → TdcCh) : (modTdc s c f).up = s.up := rfl
@[simp] theorem modTdc_freeCtr (s : State) (c : Fin 9) (f : TdcCh → TdcCh) : (modTdc s c f).freeCtr = s.freeCtr := rfl
@[simp] theorem modTdc_pending (s : State) (c : Fin 9) (f : TdcCh → TdcCh) : (modTdc s c f).pending = s.pending := rfl

/-! ### modMem -/

@[simp] theorem modMem_regs (s : State) (f : MemSt → MemSt) : (modMem s f).regs = s.regs := rfl
@[simp] theorem modMem_cfg (s : State) (f : MemSt → MemSt) : (modMem s f).cfg = s.cfg := rfl
@[simp] theorem modMem_keeper (s : State) (f : MemSt → MemSt) : (modMem s f).keeper = s.keeper := rfl
@[simp] theorem modMem_book (s : State) (f : MemSt → MemSt) : (modMem s f).book = s.book := rfl
@[simp] theorem modMem_log (s : State) (f : MemSt → MemSt) : (modMem s f).log = s.log := rfl
@[simp] theorem modMem_fu (s : State) (f : MemSt → MemSt) : (modMem s f).fu = s.fu := rfl
@[simp] theorem modMem_trav (s : State) (f : MemSt → MemSt) : (modMem s f).trav = s.trav := rfl
@[simp] theorem modMem_probe (s : State) (f : MemSt → MemSt) : (modMem s f).probe = s.probe := rfl
@[simp] theorem modMem_conv (s : State) (f : MemSt → MemSt) : (modMem s f).conv = s.conv := rfl
@[simp] theorem modMem_pce (s : State) (f : MemSt → MemSt) : (modMem s f).pce = s.pce := rfl
@[simp] theorem modMem_sense (s : State) (f : MemSt → MemSt) : (modMem s f).sense = s.sense := rfl
@[simp] theorem modMem_net (s : State) (f : MemSt → MemSt) : (modMem s f).net = s.net := rfl
@[simp] theorem modMem_time (s : State) (f : MemSt → MemSt) : (modMem s f).time = s.time := rfl
@[simp] theorem modMem_hk (s : State) (f : MemSt → MemSt) : (modMem s f).hk = s.hk := rfl
@[simp] theorem modMem_zn (s : State) (f : MemSt → MemSt) : (modMem s f).zn = s.zn := rfl
@[simp] theorem modMem_streams (s : State) (f : MemSt → MemSt) : (modMem s f).streams = s.streams := rfl
@[simp] theorem modMem_code (s : State) (f : MemSt → MemSt) : (modMem s f).code = s.code := rfl
@[simp] theorem modMem_mgmt (s : State) (f : MemSt → MemSt) : (modMem s f).mgmt = s.mgmt := rfl
@[simp] theorem modMem_samples (s : State) (f : MemSt → MemSt) : (modMem s f).samples = s.samples := rfl
@[simp] theorem modMem_dram (s : State) (f : MemSt → MemSt) : (modMem s f).dram = s.dram := rfl
@[simp] theorem modMem_xbuf (s : State) (f : MemSt → MemSt) : (modMem s f).xbuf = s.xbuf := rfl
@[simp] theorem modMem_now (s : State) (f : MemSt → MemSt) : (modMem s f).now = s.now := rfl
@[simp] theorem modMem_up (s : State) (f : MemSt → MemSt) : (modMem s f).up = s.up := rfl
@[simp] theorem modMem_freeCtr (s : State) (f : MemSt → MemSt) : (modMem s f).freeCtr = s.freeCtr := rfl
@[simp] theorem modMem_pending (s : State) (f : MemSt → MemSt) : (modMem s f).pending = s.pending := rfl

/-! ### modCh -/

@[simp] theorem modCh_regs (s : State) (c : Fin 4) (f : MemCh → MemCh) : (modCh s c f).regs = s.regs := rfl
@[simp] theorem modCh_cfg (s : State) (c : Fin 4) (f : MemCh → MemCh) : (modCh s c f).cfg = s.cfg := rfl
@[simp] theorem modCh_keeper (s : State) (c : Fin 4) (f : MemCh → MemCh) : (modCh s c f).keeper = s.keeper := rfl
@[simp] theorem modCh_book (s : State) (c : Fin 4) (f : MemCh → MemCh) : (modCh s c f).book = s.book := rfl
@[simp] theorem modCh_log (s : State) (c : Fin 4) (f : MemCh → MemCh) : (modCh s c f).log = s.log := rfl
@[simp] theorem modCh_fu (s : State) (c : Fin 4) (f : MemCh → MemCh) : (modCh s c f).fu = s.fu := rfl
@[simp] theorem modCh_trav (s : State) (c : Fin 4) (f : MemCh → MemCh) : (modCh s c f).trav = s.trav := rfl
@[simp] theorem modCh_probe (s : State) (c : Fin 4) (f : MemCh → MemCh) : (modCh s c f).probe = s.probe := rfl
@[simp] theorem modCh_conv (s : State) (c : Fin 4) (f : MemCh → MemCh) : (modCh s c f).conv = s.conv := rfl
@[simp] theorem modCh_pce (s : State) (c : Fin 4) (f : MemCh → MemCh) : (modCh s c f).pce = s.pce := rfl
@[simp] theorem modCh_sense (s : State) (c : Fin 4) (f : MemCh → MemCh) : (modCh s c f).sense = s.sense := rfl
@[simp] theorem modCh_net (s : State) (c : Fin 4) (f : MemCh → MemCh) : (modCh s c f).net = s.net := rfl
@[simp] theorem modCh_time (s : State) (c : Fin 4) (f : MemCh → MemCh) : (modCh s c f).time = s.time := rfl
@[simp] theorem modCh_hk (s : State) (c : Fin 4) (f : MemCh → MemCh) : (modCh s c f).hk = s.hk := rfl
@[simp] theorem modCh_zn (s : State) (c : Fin 4) (f : MemCh → MemCh) : (modCh s c f).zn = s.zn := rfl
@[simp] theorem modCh_streams (s : State) (c : Fin 4) (f : MemCh → MemCh) : (modCh s c f).streams = s.streams := rfl
@[simp] theorem modCh_code (s : State) (c : Fin 4) (f : MemCh → MemCh) : (modCh s c f).code = s.code := rfl
@[simp] theorem modCh_mgmt (s : State) (c : Fin 4) (f : MemCh → MemCh) : (modCh s c f).mgmt = s.mgmt := rfl
@[simp] theorem modCh_samples (s : State) (c : Fin 4) (f : MemCh → MemCh) : (modCh s c f).samples = s.samples := rfl
@[simp] theorem modCh_dram (s : State) (c : Fin 4) (f : MemCh → MemCh) : (modCh s c f).dram = s.dram := rfl
@[simp] theorem modCh_xbuf (s : State) (c : Fin 4) (f : MemCh → MemCh) : (modCh s c f).xbuf = s.xbuf := rfl
@[simp] theorem modCh_now (s : State) (c : Fin 4) (f : MemCh → MemCh) : (modCh s c f).now = s.now := rfl
@[simp] theorem modCh_up (s : State) (c : Fin 4) (f : MemCh → MemCh) : (modCh s c f).up = s.up := rfl
@[simp] theorem modCh_freeCtr (s : State) (c : Fin 4) (f : MemCh → MemCh) : (modCh s c f).freeCtr = s.freeCtr := rfl
@[simp] theorem modCh_pending (s : State) (c : Fin 4) (f : MemCh → MemCh) : (modCh s c f).pending = s.pending := rfl

/-! ### modHk -/

@[simp] theorem modHk_regs (s : State) (f : HkSt → HkSt) : (modHk s f).regs = s.regs := rfl
@[simp] theorem modHk_cfg (s : State) (f : HkSt → HkSt) : (modHk s f).cfg = s.cfg := rfl
@[simp] theorem modHk_keeper (s : State) (f : HkSt → HkSt) : (modHk s f).keeper = s.keeper := rfl
@[simp] theorem modHk_book (s : State) (f : HkSt → HkSt) : (modHk s f).book = s.book := rfl
@[simp] theorem modHk_log (s : State) (f : HkSt → HkSt) : (modHk s f).log = s.log := rfl
@[simp] theorem modHk_fu (s : State) (f : HkSt → HkSt) : (modHk s f).fu = s.fu := rfl
@[simp] theorem modHk_trav (s : State) (f : HkSt → HkSt) : (modHk s f).trav = s.trav := rfl
@[simp] theorem modHk_probe (s : State) (f : HkSt → HkSt) : (modHk s f).probe = s.probe := rfl
@[simp] theorem modHk_conv (s : State) (f : HkSt → HkSt) : (modHk s f).conv = s.conv := rfl
@[simp] theorem modHk_pce (s : State) (f : HkSt → HkSt) : (modHk s f).pce = s.pce := rfl
@[simp] theorem modHk_sense (s : State) (f : HkSt → HkSt) : (modHk s f).sense = s.sense := rfl
@[simp] theorem modHk_net (s : State) (f : HkSt → HkSt) : (modHk s f).net = s.net := rfl
@[simp] theorem modHk_time (s : State) (f : HkSt → HkSt) : (modHk s f).time = s.time := rfl
@[simp] theorem modHk_mem (s : State) (f : HkSt → HkSt) : (modHk s f).mem = s.mem := rfl
@[simp] theorem modHk_zn (s : State) (f : HkSt → HkSt) : (modHk s f).zn = s.zn := rfl
@[simp] theorem modHk_streams (s : State) (f : HkSt → HkSt) : (modHk s f).streams = s.streams := rfl
@[simp] theorem modHk_code (s : State) (f : HkSt → HkSt) : (modHk s f).code = s.code := rfl
@[simp] theorem modHk_mgmt (s : State) (f : HkSt → HkSt) : (modHk s f).mgmt = s.mgmt := rfl
@[simp] theorem modHk_samples (s : State) (f : HkSt → HkSt) : (modHk s f).samples = s.samples := rfl
@[simp] theorem modHk_dram (s : State) (f : HkSt → HkSt) : (modHk s f).dram = s.dram := rfl
@[simp] theorem modHk_xbuf (s : State) (f : HkSt → HkSt) : (modHk s f).xbuf = s.xbuf := rfl
@[simp] theorem modHk_now (s : State) (f : HkSt → HkSt) : (modHk s f).now = s.now := rfl
@[simp] theorem modHk_up (s : State) (f : HkSt → HkSt) : (modHk s f).up = s.up := rfl
@[simp] theorem modHk_freeCtr (s : State) (f : HkSt → HkSt) : (modHk s f).freeCtr = s.freeCtr := rfl
@[simp] theorem modHk_pending (s : State) (f : HkSt → HkSt) : (modHk s f).pending = s.pending := rfl

/-! ### modZn -/

@[simp] theorem modZn_regs (s : State) (f : ZnSt → ZnSt) : (modZn s f).regs = s.regs := rfl
@[simp] theorem modZn_cfg (s : State) (f : ZnSt → ZnSt) : (modZn s f).cfg = s.cfg := rfl
@[simp] theorem modZn_keeper (s : State) (f : ZnSt → ZnSt) : (modZn s f).keeper = s.keeper := rfl
@[simp] theorem modZn_book (s : State) (f : ZnSt → ZnSt) : (modZn s f).book = s.book := rfl
@[simp] theorem modZn_log (s : State) (f : ZnSt → ZnSt) : (modZn s f).log = s.log := rfl
@[simp] theorem modZn_fu (s : State) (f : ZnSt → ZnSt) : (modZn s f).fu = s.fu := rfl
@[simp] theorem modZn_trav (s : State) (f : ZnSt → ZnSt) : (modZn s f).trav = s.trav := rfl
@[simp] theorem modZn_probe (s : State) (f : ZnSt → ZnSt) : (modZn s f).probe = s.probe := rfl
@[simp] theorem modZn_conv (s : State) (f : ZnSt → ZnSt) : (modZn s f).conv = s.conv := rfl
@[simp] theorem modZn_pce (s : State) (f : ZnSt → ZnSt) : (modZn s f).pce = s.pce := rfl
@[simp] theorem modZn_sense (s : State) (f : ZnSt → ZnSt) : (modZn s f).sense = s.sense := rfl
@[simp] theorem modZn_net (s : State) (f : ZnSt → ZnSt) : (modZn s f).net = s.net := rfl
@[simp] theorem modZn_time (s : State) (f : ZnSt → ZnSt) : (modZn s f).time = s.time := rfl
@[simp] theorem modZn_mem (s : State) (f : ZnSt → ZnSt) : (modZn s f).mem = s.mem := rfl
@[simp] theorem modZn_hk (s : State) (f : ZnSt → ZnSt) : (modZn s f).hk = s.hk := rfl
@[simp] theorem modZn_streams (s : State) (f : ZnSt → ZnSt) : (modZn s f).streams = s.streams := rfl
@[simp] theorem modZn_code (s : State) (f : ZnSt → ZnSt) : (modZn s f).code = s.code := rfl
@[simp] theorem modZn_mgmt (s : State) (f : ZnSt → ZnSt) : (modZn s f).mgmt = s.mgmt := rfl
@[simp] theorem modZn_samples (s : State) (f : ZnSt → ZnSt) : (modZn s f).samples = s.samples := rfl
@[simp] theorem modZn_dram (s : State) (f : ZnSt → ZnSt) : (modZn s f).dram = s.dram := rfl
@[simp] theorem modZn_xbuf (s : State) (f : ZnSt → ZnSt) : (modZn s f).xbuf = s.xbuf := rfl
@[simp] theorem modZn_now (s : State) (f : ZnSt → ZnSt) : (modZn s f).now = s.now := rfl
@[simp] theorem modZn_up (s : State) (f : ZnSt → ZnSt) : (modZn s f).up = s.up := rfl
@[simp] theorem modZn_freeCtr (s : State) (f : ZnSt → ZnSt) : (modZn s f).freeCtr = s.freeCtr := rfl
@[simp] theorem modZn_pending (s : State) (f : ZnSt → ZnSt) : (modZn s f).pending = s.pending := rfl

/-! ### modCode -/

@[simp] theorem modCode_regs (s : State) (f : CodeSt → CodeSt) : (modCode s f).regs = s.regs := rfl
@[simp] theorem modCode_cfg (s : State) (f : CodeSt → CodeSt) : (modCode s f).cfg = s.cfg := rfl
@[simp] theorem modCode_keeper (s : State) (f : CodeSt → CodeSt) : (modCode s f).keeper = s.keeper := rfl
@[simp] theorem modCode_book (s : State) (f : CodeSt → CodeSt) : (modCode s f).book = s.book := rfl
@[simp] theorem modCode_log (s : State) (f : CodeSt → CodeSt) : (modCode s f).log = s.log := rfl
@[simp] theorem modCode_fu (s : State) (f : CodeSt → CodeSt) : (modCode s f).fu = s.fu := rfl
@[simp] theorem modCode_trav (s : State) (f : CodeSt → CodeSt) : (modCode s f).trav = s.trav := rfl
@[simp] theorem modCode_probe (s : State) (f : CodeSt → CodeSt) : (modCode s f).probe = s.probe := rfl
@[simp] theorem modCode_conv (s : State) (f : CodeSt → CodeSt) : (modCode s f).conv = s.conv := rfl
@[simp] theorem modCode_pce (s : State) (f : CodeSt → CodeSt) : (modCode s f).pce = s.pce := rfl
@[simp] theorem modCode_sense (s : State) (f : CodeSt → CodeSt) : (modCode s f).sense = s.sense := rfl
@[simp] theorem modCode_net (s : State) (f : CodeSt → CodeSt) : (modCode s f).net = s.net := rfl
@[simp] theorem modCode_time (s : State) (f : CodeSt → CodeSt) : (modCode s f).time = s.time := rfl
@[simp] theorem modCode_mem (s : State) (f : CodeSt → CodeSt) : (modCode s f).mem = s.mem := rfl
@[simp] theorem modCode_hk (s : State) (f : CodeSt → CodeSt) : (modCode s f).hk = s.hk := rfl
@[simp] theorem modCode_zn (s : State) (f : CodeSt → CodeSt) : (modCode s f).zn = s.zn := rfl
@[simp] theorem modCode_streams (s : State) (f : CodeSt → CodeSt) : (modCode s f).streams = s.streams := rfl
@[simp] theorem modCode_mgmt (s : State) (f : CodeSt → CodeSt) : (modCode s f).mgmt = s.mgmt := rfl
@[simp] theorem modCode_samples (s : State) (f : CodeSt → CodeSt) : (modCode s f).samples = s.samples := rfl
@[simp] theorem modCode_dram (s : State) (f : CodeSt → CodeSt) : (modCode s f).dram = s.dram := rfl
@[simp] theorem modCode_xbuf (s : State) (f : CodeSt → CodeSt) : (modCode s f).xbuf = s.xbuf := rfl
@[simp] theorem modCode_now (s : State) (f : CodeSt → CodeSt) : (modCode s f).now = s.now := rfl
@[simp] theorem modCode_up (s : State) (f : CodeSt → CodeSt) : (modCode s f).up = s.up := rfl
@[simp] theorem modCode_freeCtr (s : State) (f : CodeSt → CodeSt) : (modCode s f).freeCtr = s.freeCtr := rfl
@[simp] theorem modCode_pending (s : State) (f : CodeSt → CodeSt) : (modCode s f).pending = s.pending := rfl

/-! ### modMgmt -/

@[simp] theorem modMgmt_regs (s : State) (f : MgmtSt → MgmtSt) : (modMgmt s f).regs = s.regs := rfl
@[simp] theorem modMgmt_cfg (s : State) (f : MgmtSt → MgmtSt) : (modMgmt s f).cfg = s.cfg := rfl
@[simp] theorem modMgmt_keeper (s : State) (f : MgmtSt → MgmtSt) : (modMgmt s f).keeper = s.keeper := rfl
@[simp] theorem modMgmt_book (s : State) (f : MgmtSt → MgmtSt) : (modMgmt s f).book = s.book := rfl
@[simp] theorem modMgmt_log (s : State) (f : MgmtSt → MgmtSt) : (modMgmt s f).log = s.log := rfl
@[simp] theorem modMgmt_fu (s : State) (f : MgmtSt → MgmtSt) : (modMgmt s f).fu = s.fu := rfl
@[simp] theorem modMgmt_trav (s : State) (f : MgmtSt → MgmtSt) : (modMgmt s f).trav = s.trav := rfl
@[simp] theorem modMgmt_probe (s : State) (f : MgmtSt → MgmtSt) : (modMgmt s f).probe = s.probe := rfl
@[simp] theorem modMgmt_conv (s : State) (f : MgmtSt → MgmtSt) : (modMgmt s f).conv = s.conv := rfl
@[simp] theorem modMgmt_pce (s : State) (f : MgmtSt → MgmtSt) : (modMgmt s f).pce = s.pce := rfl
@[simp] theorem modMgmt_sense (s : State) (f : MgmtSt → MgmtSt) : (modMgmt s f).sense = s.sense := rfl
@[simp] theorem modMgmt_net (s : State) (f : MgmtSt → MgmtSt) : (modMgmt s f).net = s.net := rfl
@[simp] theorem modMgmt_time (s : State) (f : MgmtSt → MgmtSt) : (modMgmt s f).time = s.time := rfl
@[simp] theorem modMgmt_mem (s : State) (f : MgmtSt → MgmtSt) : (modMgmt s f).mem = s.mem := rfl
@[simp] theorem modMgmt_hk (s : State) (f : MgmtSt → MgmtSt) : (modMgmt s f).hk = s.hk := rfl
@[simp] theorem modMgmt_zn (s : State) (f : MgmtSt → MgmtSt) : (modMgmt s f).zn = s.zn := rfl
@[simp] theorem modMgmt_streams (s : State) (f : MgmtSt → MgmtSt) : (modMgmt s f).streams = s.streams := rfl
@[simp] theorem modMgmt_code (s : State) (f : MgmtSt → MgmtSt) : (modMgmt s f).code = s.code := rfl
@[simp] theorem modMgmt_samples (s : State) (f : MgmtSt → MgmtSt) : (modMgmt s f).samples = s.samples := rfl
@[simp] theorem modMgmt_dram (s : State) (f : MgmtSt → MgmtSt) : (modMgmt s f).dram = s.dram := rfl
@[simp] theorem modMgmt_xbuf (s : State) (f : MgmtSt → MgmtSt) : (modMgmt s f).xbuf = s.xbuf := rfl
@[simp] theorem modMgmt_now (s : State) (f : MgmtSt → MgmtSt) : (modMgmt s f).now = s.now := rfl
@[simp] theorem modMgmt_up (s : State) (f : MgmtSt → MgmtSt) : (modMgmt s f).up = s.up := rfl
@[simp] theorem modMgmt_freeCtr (s : State) (f : MgmtSt → MgmtSt) : (modMgmt s f).freeCtr = s.freeCtr := rfl
@[simp] theorem modMgmt_pending (s : State) (f : MgmtSt → MgmtSt) : (modMgmt s f).pending = s.pending := rfl

/-! ### modKeeper -/

@[simp] theorem modKeeper_regs (s : State) (f : Keeper → Keeper) : (modKeeper s f).regs = s.regs := rfl
@[simp] theorem modKeeper_cfg (s : State) (f : Keeper → Keeper) : (modKeeper s f).cfg = s.cfg := rfl
@[simp] theorem modKeeper_book (s : State) (f : Keeper → Keeper) : (modKeeper s f).book = s.book := rfl
@[simp] theorem modKeeper_log (s : State) (f : Keeper → Keeper) : (modKeeper s f).log = s.log := rfl
@[simp] theorem modKeeper_fu (s : State) (f : Keeper → Keeper) : (modKeeper s f).fu = s.fu := rfl
@[simp] theorem modKeeper_trav (s : State) (f : Keeper → Keeper) : (modKeeper s f).trav = s.trav := rfl
@[simp] theorem modKeeper_probe (s : State) (f : Keeper → Keeper) : (modKeeper s f).probe = s.probe := rfl
@[simp] theorem modKeeper_conv (s : State) (f : Keeper → Keeper) : (modKeeper s f).conv = s.conv := rfl
@[simp] theorem modKeeper_pce (s : State) (f : Keeper → Keeper) : (modKeeper s f).pce = s.pce := rfl
@[simp] theorem modKeeper_sense (s : State) (f : Keeper → Keeper) : (modKeeper s f).sense = s.sense := rfl
@[simp] theorem modKeeper_net (s : State) (f : Keeper → Keeper) : (modKeeper s f).net = s.net := rfl
@[simp] theorem modKeeper_time (s : State) (f : Keeper → Keeper) : (modKeeper s f).time = s.time := rfl
@[simp] theorem modKeeper_mem (s : State) (f : Keeper → Keeper) : (modKeeper s f).mem = s.mem := rfl
@[simp] theorem modKeeper_hk (s : State) (f : Keeper → Keeper) : (modKeeper s f).hk = s.hk := rfl
@[simp] theorem modKeeper_zn (s : State) (f : Keeper → Keeper) : (modKeeper s f).zn = s.zn := rfl
@[simp] theorem modKeeper_streams (s : State) (f : Keeper → Keeper) : (modKeeper s f).streams = s.streams := rfl
@[simp] theorem modKeeper_code (s : State) (f : Keeper → Keeper) : (modKeeper s f).code = s.code := rfl
@[simp] theorem modKeeper_mgmt (s : State) (f : Keeper → Keeper) : (modKeeper s f).mgmt = s.mgmt := rfl
@[simp] theorem modKeeper_samples (s : State) (f : Keeper → Keeper) : (modKeeper s f).samples = s.samples := rfl
@[simp] theorem modKeeper_dram (s : State) (f : Keeper → Keeper) : (modKeeper s f).dram = s.dram := rfl
@[simp] theorem modKeeper_xbuf (s : State) (f : Keeper → Keeper) : (modKeeper s f).xbuf = s.xbuf := rfl
@[simp] theorem modKeeper_now (s : State) (f : Keeper → Keeper) : (modKeeper s f).now = s.now := rfl
@[simp] theorem modKeeper_up (s : State) (f : Keeper → Keeper) : (modKeeper s f).up = s.up := rfl
@[simp] theorem modKeeper_freeCtr (s : State) (f : Keeper → Keeper) : (modKeeper s f).freeCtr = s.freeCtr := rfl
@[simp] theorem modKeeper_pending (s : State) (f : Keeper → Keeper) : (modKeeper s f).pending = s.pending := rfl

/-! ### modLink -/

@[simp] theorem modLink_regs (s : State) (l : Fin 3) (f : Link → Link) : (modLink s l f).regs = s.regs := rfl
@[simp] theorem modLink_cfg (s : State) (l : Fin 3) (f : Link → Link) : (modLink s l f).cfg = s.cfg := rfl
@[simp] theorem modLink_keeper (s : State) (l : Fin 3) (f : Link → Link) : (modLink s l f).keeper = s.keeper := rfl
@[simp] theorem modLink_book (s : State) (l : Fin 3) (f : Link → Link) : (modLink s l f).book = s.book := rfl
@[simp] theorem modLink_log (s : State) (l : Fin 3) (f : Link → Link) : (modLink s l f).log = s.log := rfl
@[simp] theorem modLink_fu (s : State) (l : Fin 3) (f : Link → Link) : (modLink s l f).fu = s.fu := rfl
@[simp] theorem modLink_trav (s : State) (l : Fin 3) (f : Link → Link) : (modLink s l f).trav = s.trav := rfl
@[simp] theorem modLink_probe (s : State) (l : Fin 3) (f : Link → Link) : (modLink s l f).probe = s.probe := rfl
@[simp] theorem modLink_conv (s : State) (l : Fin 3) (f : Link → Link) : (modLink s l f).conv = s.conv := rfl
@[simp] theorem modLink_pce (s : State) (l : Fin 3) (f : Link → Link) : (modLink s l f).pce = s.pce := rfl
@[simp] theorem modLink_sense (s : State) (l : Fin 3) (f : Link → Link) : (modLink s l f).sense = s.sense := rfl
@[simp] theorem modLink_time (s : State) (l : Fin 3) (f : Link → Link) : (modLink s l f).time = s.time := rfl
@[simp] theorem modLink_mem (s : State) (l : Fin 3) (f : Link → Link) : (modLink s l f).mem = s.mem := rfl
@[simp] theorem modLink_hk (s : State) (l : Fin 3) (f : Link → Link) : (modLink s l f).hk = s.hk := rfl
@[simp] theorem modLink_zn (s : State) (l : Fin 3) (f : Link → Link) : (modLink s l f).zn = s.zn := rfl
@[simp] theorem modLink_streams (s : State) (l : Fin 3) (f : Link → Link) : (modLink s l f).streams = s.streams := rfl
@[simp] theorem modLink_code (s : State) (l : Fin 3) (f : Link → Link) : (modLink s l f).code = s.code := rfl
@[simp] theorem modLink_mgmt (s : State) (l : Fin 3) (f : Link → Link) : (modLink s l f).mgmt = s.mgmt := rfl
@[simp] theorem modLink_samples (s : State) (l : Fin 3) (f : Link → Link) : (modLink s l f).samples = s.samples := rfl
@[simp] theorem modLink_dram (s : State) (l : Fin 3) (f : Link → Link) : (modLink s l f).dram = s.dram := rfl
@[simp] theorem modLink_xbuf (s : State) (l : Fin 3) (f : Link → Link) : (modLink s l f).xbuf = s.xbuf := rfl
@[simp] theorem modLink_now (s : State) (l : Fin 3) (f : Link → Link) : (modLink s l f).now = s.now := rfl
@[simp] theorem modLink_up (s : State) (l : Fin 3) (f : Link → Link) : (modLink s l f).up = s.up := rfl
@[simp] theorem modLink_freeCtr (s : State) (l : Fin 3) (f : Link → Link) : (modLink s l f).freeCtr = s.freeCtr := rfl
@[simp] theorem modLink_pending (s : State) (l : Fin 3) (f : Link → Link) : (modLink s l f).pending = s.pending := rfl

/-! ### modQuad -/

@[simp] theorem modQuad_regs (s : State) (q : Fin 3) (f : Quad → Quad) : (modQuad s q f).regs = s.regs := rfl
@[simp] theorem modQuad_cfg (s : State) (q : Fin 3) (f : Quad → Quad) : (modQuad s q f).cfg = s.cfg := rfl
@[simp] theorem modQuad_keeper (s : State) (q : Fin 3) (f : Quad → Quad) : (modQuad s q f).keeper = s.keeper := rfl
@[simp] theorem modQuad_book (s : State) (q : Fin 3) (f : Quad → Quad) : (modQuad s q f).book = s.book := rfl
@[simp] theorem modQuad_log (s : State) (q : Fin 3) (f : Quad → Quad) : (modQuad s q f).log = s.log := rfl
@[simp] theorem modQuad_fu (s : State) (q : Fin 3) (f : Quad → Quad) : (modQuad s q f).fu = s.fu := rfl
@[simp] theorem modQuad_trav (s : State) (q : Fin 3) (f : Quad → Quad) : (modQuad s q f).trav = s.trav := rfl
@[simp] theorem modQuad_probe (s : State) (q : Fin 3) (f : Quad → Quad) : (modQuad s q f).probe = s.probe := rfl
@[simp] theorem modQuad_conv (s : State) (q : Fin 3) (f : Quad → Quad) : (modQuad s q f).conv = s.conv := rfl
@[simp] theorem modQuad_pce (s : State) (q : Fin 3) (f : Quad → Quad) : (modQuad s q f).pce = s.pce := rfl
@[simp] theorem modQuad_sense (s : State) (q : Fin 3) (f : Quad → Quad) : (modQuad s q f).sense = s.sense := rfl
@[simp] theorem modQuad_time (s : State) (q : Fin 3) (f : Quad → Quad) : (modQuad s q f).time = s.time := rfl
@[simp] theorem modQuad_mem (s : State) (q : Fin 3) (f : Quad → Quad) : (modQuad s q f).mem = s.mem := rfl
@[simp] theorem modQuad_hk (s : State) (q : Fin 3) (f : Quad → Quad) : (modQuad s q f).hk = s.hk := rfl
@[simp] theorem modQuad_zn (s : State) (q : Fin 3) (f : Quad → Quad) : (modQuad s q f).zn = s.zn := rfl
@[simp] theorem modQuad_streams (s : State) (q : Fin 3) (f : Quad → Quad) : (modQuad s q f).streams = s.streams := rfl
@[simp] theorem modQuad_code (s : State) (q : Fin 3) (f : Quad → Quad) : (modQuad s q f).code = s.code := rfl
@[simp] theorem modQuad_mgmt (s : State) (q : Fin 3) (f : Quad → Quad) : (modQuad s q f).mgmt = s.mgmt := rfl
@[simp] theorem modQuad_samples (s : State) (q : Fin 3) (f : Quad → Quad) : (modQuad s q f).samples = s.samples := rfl
@[simp] theorem modQuad_dram (s : State) (q : Fin 3) (f : Quad → Quad) : (modQuad s q f).dram = s.dram := rfl
@[simp] theorem modQuad_xbuf (s : State) (q : Fin 3) (f : Quad → Quad) : (modQuad s q f).xbuf = s.xbuf := rfl
@[simp] theorem modQuad_now (s : State) (q : Fin 3) (f : Quad → Quad) : (modQuad s q f).now = s.now := rfl
@[simp] theorem modQuad_up (s : State) (q : Fin 3) (f : Quad → Quad) : (modQuad s q f).up = s.up := rfl
@[simp] theorem modQuad_freeCtr (s : State) (q : Fin 3) (f : Quad → Quad) : (modQuad s q f).freeCtr = s.freeCtr := rfl
@[simp] theorem modQuad_pending (s : State) (q : Fin 3) (f : Quad → Quad) : (modQuad s q f).pending = s.pending := rfl

/-! ### modFence -/

@[simp] theorem modFence_regs (s : State) (id : Nat) (f : Fence → Fence) : (modFence s id f).regs = s.regs := rfl
@[simp] theorem modFence_cfg (s : State) (id : Nat) (f : Fence → Fence) : (modFence s id f).cfg = s.cfg := rfl
@[simp] theorem modFence_keeper (s : State) (id : Nat) (f : Fence → Fence) : (modFence s id f).keeper = s.keeper := rfl
@[simp] theorem modFence_book (s : State) (id : Nat) (f : Fence → Fence) : (modFence s id f).book = s.book := rfl
@[simp] theorem modFence_log (s : State) (id : Nat) (f : Fence → Fence) : (modFence s id f).log = s.log := rfl
@[simp] theorem modFence_trav (s : State) (id : Nat) (f : Fence → Fence) : (modFence s id f).trav = s.trav := rfl
@[simp] theorem modFence_probe (s : State) (id : Nat) (f : Fence → Fence) : (modFence s id f).probe = s.probe := rfl
@[simp] theorem modFence_conv (s : State) (id : Nat) (f : Fence → Fence) : (modFence s id f).conv = s.conv := rfl
@[simp] theorem modFence_pce (s : State) (id : Nat) (f : Fence → Fence) : (modFence s id f).pce = s.pce := rfl
@[simp] theorem modFence_sense (s : State) (id : Nat) (f : Fence → Fence) : (modFence s id f).sense = s.sense := rfl
@[simp] theorem modFence_net (s : State) (id : Nat) (f : Fence → Fence) : (modFence s id f).net = s.net := rfl
@[simp] theorem modFence_time (s : State) (id : Nat) (f : Fence → Fence) : (modFence s id f).time = s.time := rfl
@[simp] theorem modFence_mem (s : State) (id : Nat) (f : Fence → Fence) : (modFence s id f).mem = s.mem := rfl
@[simp] theorem modFence_hk (s : State) (id : Nat) (f : Fence → Fence) : (modFence s id f).hk = s.hk := rfl
@[simp] theorem modFence_zn (s : State) (id : Nat) (f : Fence → Fence) : (modFence s id f).zn = s.zn := rfl
@[simp] theorem modFence_streams (s : State) (id : Nat) (f : Fence → Fence) : (modFence s id f).streams = s.streams := rfl
@[simp] theorem modFence_code (s : State) (id : Nat) (f : Fence → Fence) : (modFence s id f).code = s.code := rfl
@[simp] theorem modFence_mgmt (s : State) (id : Nat) (f : Fence → Fence) : (modFence s id f).mgmt = s.mgmt := rfl
@[simp] theorem modFence_samples (s : State) (id : Nat) (f : Fence → Fence) : (modFence s id f).samples = s.samples := rfl
@[simp] theorem modFence_dram (s : State) (id : Nat) (f : Fence → Fence) : (modFence s id f).dram = s.dram := rfl
@[simp] theorem modFence_xbuf (s : State) (id : Nat) (f : Fence → Fence) : (modFence s id f).xbuf = s.xbuf := rfl
@[simp] theorem modFence_now (s : State) (id : Nat) (f : Fence → Fence) : (modFence s id f).now = s.now := rfl
@[simp] theorem modFence_up (s : State) (id : Nat) (f : Fence → Fence) : (modFence s id f).up = s.up := rfl
@[simp] theorem modFence_freeCtr (s : State) (id : Nat) (f : Fence → Fence) : (modFence s id f).freeCtr = s.freeCtr := rfl
@[simp] theorem modFence_pending (s : State) (id : Nat) (f : Fence → Fence) : (modFence s id f).pending = s.pending := rfl

/-! ### modStrm -/

@[simp] theorem modStrm_regs (s : State) (n : Nat) (f : StreamSt → StreamSt) : (modStrm s n f).regs = s.regs := rfl
@[simp] theorem modStrm_cfg (s : State) (n : Nat) (f : StreamSt → StreamSt) : (modStrm s n f).cfg = s.cfg := rfl
@[simp] theorem modStrm_keeper (s : State) (n : Nat) (f : StreamSt → StreamSt) : (modStrm s n f).keeper = s.keeper := rfl
@[simp] theorem modStrm_book (s : State) (n : Nat) (f : StreamSt → StreamSt) : (modStrm s n f).book = s.book := rfl
@[simp] theorem modStrm_log (s : State) (n : Nat) (f : StreamSt → StreamSt) : (modStrm s n f).log = s.log := rfl
@[simp] theorem modStrm_fu (s : State) (n : Nat) (f : StreamSt → StreamSt) : (modStrm s n f).fu = s.fu := rfl
@[simp] theorem modStrm_trav (s : State) (n : Nat) (f : StreamSt → StreamSt) : (modStrm s n f).trav = s.trav := rfl
@[simp] theorem modStrm_probe (s : State) (n : Nat) (f : StreamSt → StreamSt) : (modStrm s n f).probe = s.probe := rfl
@[simp] theorem modStrm_conv (s : State) (n : Nat) (f : StreamSt → StreamSt) : (modStrm s n f).conv = s.conv := rfl
@[simp] theorem modStrm_pce (s : State) (n : Nat) (f : StreamSt → StreamSt) : (modStrm s n f).pce = s.pce := rfl
@[simp] theorem modStrm_sense (s : State) (n : Nat) (f : StreamSt → StreamSt) : (modStrm s n f).sense = s.sense := rfl
@[simp] theorem modStrm_net (s : State) (n : Nat) (f : StreamSt → StreamSt) : (modStrm s n f).net = s.net := rfl
@[simp] theorem modStrm_time (s : State) (n : Nat) (f : StreamSt → StreamSt) : (modStrm s n f).time = s.time := rfl
@[simp] theorem modStrm_mem (s : State) (n : Nat) (f : StreamSt → StreamSt) : (modStrm s n f).mem = s.mem := rfl
@[simp] theorem modStrm_hk (s : State) (n : Nat) (f : StreamSt → StreamSt) : (modStrm s n f).hk = s.hk := rfl
@[simp] theorem modStrm_zn (s : State) (n : Nat) (f : StreamSt → StreamSt) : (modStrm s n f).zn = s.zn := rfl
@[simp] theorem modStrm_code (s : State) (n : Nat) (f : StreamSt → StreamSt) : (modStrm s n f).code = s.code := rfl
@[simp] theorem modStrm_mgmt (s : State) (n : Nat) (f : StreamSt → StreamSt) : (modStrm s n f).mgmt = s.mgmt := rfl
@[simp] theorem modStrm_samples (s : State) (n : Nat) (f : StreamSt → StreamSt) : (modStrm s n f).samples = s.samples := rfl
@[simp] theorem modStrm_dram (s : State) (n : Nat) (f : StreamSt → StreamSt) : (modStrm s n f).dram = s.dram := rfl
@[simp] theorem modStrm_xbuf (s : State) (n : Nat) (f : StreamSt → StreamSt) : (modStrm s n f).xbuf = s.xbuf := rfl
@[simp] theorem modStrm_now (s : State) (n : Nat) (f : StreamSt → StreamSt) : (modStrm s n f).now = s.now := rfl
@[simp] theorem modStrm_up (s : State) (n : Nat) (f : StreamSt → StreamSt) : (modStrm s n f).up = s.up := rfl
@[simp] theorem modStrm_freeCtr (s : State) (n : Nat) (f : StreamSt → StreamSt) : (modStrm s n f).freeCtr = s.freeCtr := rfl
@[simp] theorem modStrm_pending (s : State) (n : Nat) (f : StreamSt → StreamSt) : (modStrm s n f).pending = s.pending := rfl

@[simp] theorem modTrav_trav (s : State) (t : Fin 8) (f : Trav → Trav) : (modTrav s t f).trav = vmod s.trav t f := rfl
@[simp] theorem modProbe_probe (s : State) (l : Fin 2) (f : Probe → Probe) : (modProbe s l f).probe = vmod s.probe l f := rfl
@[simp] theorem modConv_conv (s : State) (l : Fin 2) (f : Conv → Conv) : (modConv s l f).conv = vmod s.conv l f := rfl
@[simp] theorem modPce_pce (s : State) (l : Fin 2) (f : Pce → Pce) : (modPce s l f).pce = vmod s.pce l f := rfl
@[simp] theorem modTime_time (s : State) (f : TimeSt → TimeSt) : (modTime s f).time = f s.time := rfl
@[simp] theorem modMem_mem (s : State) (f : MemSt → MemSt) : (modMem s f).mem = f s.mem := rfl
@[simp] theorem modHk_hk (s : State) (f : HkSt → HkSt) : (modHk s f).hk = f s.hk := rfl
@[simp] theorem modZn_zn (s : State) (f : ZnSt → ZnSt) : (modZn s f).zn = f s.zn := rfl
@[simp] theorem modCode_code (s : State) (f : CodeSt → CodeSt) : (modCode s f).code = f s.code := rfl
@[simp] theorem modMgmt_mgmt (s : State) (f : MgmtSt → MgmtSt) : (modMgmt s f).mgmt = f s.mgmt := rfl
@[simp] theorem modKeeper_keeper (s : State) (f : Keeper → Keeper) : (modKeeper s f).keeper = f s.keeper := rfl

end Sys2Proof.Laws
end

