-- ==== Sys2Proof/WellFormed.lean ====
section
/-! DEFINITION. Which commands the outside world can send: the operand checks that a type does not make, each by the
width or range the spec gives the field. -/

namespace Sys2Proof

/-- R388: a frame's header fields and payload fit their bits. -/
def Frame.wf (f : Frame) : Bool :=
  decide (f.ftype < 1024 ∧ f.dest < 4096 ∧ f.src < 4096 ∧ f.tag < 1024 ∧ f.flags < 16 ∧ f.hops < 4096)
    && decide (f.payload.length < 2 ^ 17)

/-- R388: a management frame's tag and source. -/
def tagSrcOk (tag src : Nat) : Bool := decide (tag < 1024 ∧ src < 4096)

/-- R8: a 110-bit device time as a count of 2^-20 ns. -/
def stampOk (t : Nat) : Bool := decide (t < 2 ^ 60 * (1000000000 * 2 ^ 20))

/-- R115: a correction value names an input, a slice, a kind and a comparator. -/
def CalVal.wf (c : CalVal) : Bool := decide (c.input < 6 ∧ c.slice < 9 ∧ c.kind < 5 ∧ c.comp < 10)

/-- R117: a SAR result is a signed 10-bit word. -/
def IQ.wf (x : IQ) : Bool := decide (-512 ≤ x.i ∧ x.i ≤ 511 ∧ -512 ≤ x.q ∧ x.q ≤ 511)

/-- Well-formed. -/
def Instr.wf : Instr → Bool
  | .xspiInitDone sfdp => sfdp.all (fun x => decide (x.1 < 65536 ∧ x.2 < 32))
  | .mbxLifecycle a t => decide (a < 2 ^ 20 ∧ t.length < 1024)
  | .amend _ ws => decide (ws.length < 2 ^ 17)
  | .fgCalInputDone _ _ vs => vs.all CalVal.wf
  | .fullFgCalDone _ vs gs => vs.all CalVal.wf && decide (gs.length ≤ 8)
  | .ramanFgCalDone _ vs gs => vs.all CalVal.wf && decide (gs.length ≤ 8)
  | .traceDeliver _ _ _ xs => xs.all IQ.wf
  | .ppsEdge q f => decide (q < 4 ∧ f < 256)
  | .tdcEdge _ _ q f => decide (q < 4 ∧ f < 256)
  | .tdcCalComplete _ h => decide (h.length ≤ 256)
  | .timeSet src tag seq t => tagSrcOk tag src && decide (seq < 1024) && stampOk t
  | .timeTrack src tag seq t => tagSrcOk tag src && decide (seq < 1024) && stampOk t
  | .timePpsLabel src tag seq n => tagSrcOk tag src && decide (seq < 1024 ∧ n < 2 ^ 60)
  | .trainingSetReceived _ _ xs => xs.all (fun x => decide (x < 1024))
  | .credit _ gs => decide (gs.length = 3) && gs.all (fun g => decide (g < 2 ^ 20))
  | .read _ tag src _ c => tagSrcOk tag src && decide (c < 1024)
  | .write _ tag src _ _ vs => tagSrcOk tag src && decide (vs.length < 1024)
  | .timedSend _ tag src ws => tagSrcOk tag src && decide (ws.length < 2 ^ 17)
  | .frameForward _ xs => xs.all (fun x => decide (x < 512))
  | .levelReq _ f t => f.wf && stampOk t
  | .levelResp _ f t => f.wf && stampOk t
  | .chainSync _ f => f.wf
  | .dqsOscRead ds => decide (ds.length ≤ 4)
  | .streamInput _ t => stampOk t
  | .powerOnReset .. | .pwrgoodRise .. | .pwrgoodFall .. | .resetNLow .. | .resetNRise .. | .otpReadDone ..
  | .stagingFilled .. | .imageVerificationDone .. | .mbxRecordHash .. | .warmHashCheck .. | .standbyExitStep .. | .stage1Release .. | .stage2Loaded .. | .selfTestDone .. | .planApplied ..
  | .scsFinalLock .. | .mbxHeartbeat .. | .mbxBootComplete .. | .mbxLaserArm .. | .mbxLaserDisarm ..
  | .mbxResetWarm .. | .mbxResetCold .. | .mbxResetLine .. | .mbxStandbyEnter .. | .mbxStandbyExit ..
  | .mbxDramFreq .. | .mbxLoopRelease .. | .mbxStaleClear .. | .mbxBadCode .. | .watchdogPeriodExpiry ..
  | .lineResetDone .. | .standbyThermalExit .. | .resetCmd .. | .standbyCmd .. | .fenceIssue .. | .fenceAck ..
  | .fenceComplete .. | .fenceTimeout .. | .rwfAutoFence .. | .traverseClockChangeDone .. | .featureOfferRepeat ..
  | .featureAccept .. | .featureOfferReceived .. | .featureChangedRepeat .. | .launchCmdArrive .. | .probeLaunch ..
  | .envelopeSubwindowEnd .. | .interlockTrip .. | .interlockRelease .. | .fibreBreakRaise .. | .fibreBreakClear ..
  | .rotationStep .. | .spareMeasureDone .. | .correctionStep .. | .refFallback .. | .refSettled ..
  | .priorityPassEnd .. | .overRange .. | .ramanFgCalStart .. | .ramanFgCalForce .. | .captureWindowEnd ..
  | .recal .. | .launchMeasureDone .. | .launchMeasureTimeout .. | .shotPass .. | .outputPass .. | .ramanPass ..
  | .servicePass .. | .backgroundSlice .. | .passDrop .. | .recoveryPass .. | .nop .. | .rep .. | .br .. | .end_ ..
  | .hook .. | .mode .. | .aovclr .. | .wait .. | .ld .. | .ldp .. | .st .. | .stp .. | .ald .. | .ast .. | .xld ..
  | .xadd .. | .alu .. | .alud .. | .alui .. | .cmp .. | .cmpi .. | .sel .. | .movi .. | .mac .. | .cmac ..
  | .dmac .. | .aop .. | .ash .. | .atst .. | .gmac .. | .atan .. | .mag .. | .mag2 .. | .unit .. | .rot .. | .lnr ..
  | .dbl .. | .expw .. | .div .. | .maxi .. | .mini .. | .portInput .. | .portDramRead .. | .portDramWrite ..
  | .portXbufRead .. | .portXbufWrite .. | .out .. | .xch .. | .prm .. | .captureRequest .. | .captureStart ..
  | .datumSlow .. | .ramanCapture .. | .ramanBlockEnd .. | .ramanBlockSelfPass .. | .coilcal .. | .coilCalResume ..
  | .calAgeExpiry .. | .fusionStart .. | .detectorSummary .. | .syncNEdge .. | .stCmdSync .. | .streamReset ..
  | .swapRequest .. | .coefWrite .. | .codeFrame .. | .ringWrite .. | .ringGapTimeout .. | .cursorStart ..
  | .cursorStop .. | .seekOldest .. | .seekNewest .. | .seekSerial .. | .seekDone .. | .cursorRead ..
  | .zoneStaleTimeout .. | .zonePortUpdate .. | .zqSelect .. | .zqAddressChange .. | .zqDeselect ..
  | .zqForceTimeout .. | .alarmStretchExpiry .. | .znAck .. | .loopFaultTimer .. | .loopReleaseTimer ..
  | .loopReleaseCmd .. | .loopOpen .. | .loopDeviation .. | .loopConditionClear .. | .m0ConversionEnd ..
  | .m1FrameStart .. | .m1ConversionEnd .. | .notchLengthUpdate .. | .hkRefWindowExit .. | .hkRefRestore ..
  | .urgentRequest .. | .burnoutPulse .. | .rtdOpenClear .. | .trefPresent .. | .trefLoss .. | .timeNoClock ..
  | .timeRelock .. | .disciplineMeasurement .. | .ppsLoss .. | .hostHoldover .. | .ppsOutPulse .. | .timeSnapshot ..
  | .timeAdjust .. | .tdcGateChange .. | .tdcWindowEnd .. | .tdcArm .. | .tdcDisarm .. | .tdcPop ..
  | .tdcFlushTimer .. | .tdcPairHoldEnd .. | .tdcPairWindowExpiry .. | .tdcCal .. | .tdcCalTimeout ..
  | .tdcCalRetry .. | .tdcCalPeriod .. | .monWindowExpiry .. | .laneDetectDone .. | .absentRetry .. | .linkActive ..
  | .blindTimeout .. | .trainStepPass .. | .trainStepTimeout .. | .downRetry .. | .laneLos .. | .losDetectReturn ..
  | .linkFaultDetect .. | .orderedSetInsert .. | .idleWake .. | .linkReset .. | .feLoopbackExit .. | .creditSend ..
  | .timedLaunch .. | .levelRunStart .. | .levelRunEnd .. | .dramTrainingDone .. | .shortRetrainStart ..
  | .trainingCollectionDone .. | .freqChangeDone .. | .thermalReturn .. | .dramRead .. | .freezeEnd ..
  | .freezeTimeout .. | .channelLossDone .. | .scrubRead .. | .c3AgePromote .. | .scsLockLoss .. | .scsRelock ..
  | .refclkLoss .. | .scsFreerunTimeout .. | .refclkReturn .. | .refclkAltLoss .. | .hostFenceIssue ..
  | .registerSnapshot .. | .loReadCapture .. | .hiReadShadow .. | .loWriteStage .. | .hiWriteCommit ..
  | .loStageExpiry .. | .rcRead .. | .registerWrite .. | .eventLogSelect .. | .svcRegRead .. | .svcRegWrite ..
  | .svcStatus .. | .flashRead .. | .flashProgram .. | .flashErase .. | .flashOpDone .. | .refclkAltPresent ..
  | .eiosReceived .. | .mr4Readout .. | .keeperSramError .. | .snapshotComplete .. | .jtagAccess .. => true

end Sys2Proof
end

