-- ==== Sys2Proof/Tests/Slice0.lean ====
section
/-! SUPPORT. The model's own tests: an ill-formed command for each check of WellFormed, worked examples of the spec, one
step of chosen commands, and for every statement with hypotheses a state and operands that meet them (witness_<statement>,
one conjunct for each clause with hypotheses). -/

namespace Sys2Proof.Tests
open Sys2Proof Sys2Proof.Machine Sys2Proof.Safety

-- The kernel checks the tests one after another, so that few of their evaluations stand in memory at once.
set_option Elab.async false

/-! ### Small states -/

/-- The base state in a boot phase. -/
def ph (n : Nat) (s : State) : State := setF s bmStateBootPhase n

/-- In standby. -/
def stby (s : State) : State := setF s bmPowerStandby 1

/-- With these records as the plan in effect. -/
def plan (rs : List PlanRec) (s : State) : State := { s with cfg := rs }

/-- A record of the plan, its payload written word by word. -/
def R (ty : Nat) (ps : List Nat) : PlanRec := { type := ty, payload := ps.map (BitVec.ofNat 10) }

/-- A link's quad is ACTIVE. -/
def up (l : Fin 3) (s : State) : State := modQuad s l (fun q => { q with st := .active })

/-- A link that carries bulk frames: ACTIVE with an accepted set of every feature; link 0, or a middle engine's west link. -/
def bulkUp (l : Fin 3) (s : State) : State :=
  modLink (modQuad { s with cfg := R 0x1E0 [5, 0, 2] :: s.cfg } l (fun q => { q with st := .active, partner := if l = 0 then 1023 else 3, role := if l = 0 then 0 else 1 })) l
    (fun x => { x with accepted := some (2 ^ 60 - 1) })

/-- A quad in a state. -/
def qd (q : Fin 3) (f : Quad → Quad) (s : State) : State := modQuad s q f

/-- At a device time, in stamp units of 2^-20 ns. -/
def at_ (u : Nat) (s : State) : State := { s with now := u * 1024 }

/-- At an elapsed time. -/
def later (u : Nat) (s : State) : State := { s with up := u * 1024 }

/-- A part of the state changed. -/
def kp (f : Keeper → Keeper) (s : State) : State := modKeeper s f
def bt (f : Boot → Boot) (s : State) : State := modBoot s f
def bk (f : Book → Book) (s : State) : State := { s with book := f s.book }
def fn (f : FenceUnit → FenceUnit) (s : State) : State := { s with fu := f s.fu }
def tv (t : Fin 8) (f : Trav → Trav) (s : State) : State := modTrav s t f
def pb (l : Fin 2) (f : Probe → Probe) (s : State) : State := modProbe s l f
def cv (l : Fin 2) (f : Conv → Conv) (s : State) : State := modConv s l f
def pc (l : Fin 2) (f : Pce → Pce) (s : State) : State := modPce s l f
def mm (f : MemSt → MemSt) (s : State) : State := modMem s f
def mc (c : Fin 4) (f : MemCh → MemCh) (s : State) : State := modCh s c f
def tm (f : TimeSt → TimeSt) (s : State) : State := modTime s f
def td (c : Fin 9) (f : TdcCh → TdcCh) (s : State) : State := modTdc s c f
def hq (f : HkSt → HkSt) (s : State) : State := modHk s f
def rd (n : Fin 4) (f : RtdSt → RtdSt) (s : State) : State := modRtd s n f
def zq (f : ZnSt → ZnSt) (s : State) : State := modZn s f
def lo (n : Fin 8) (f : LoopSt → LoopSt) (s : State) : State := modLoop s n f
def cd (f : CodeSt → CodeSt) (s : State) : State := modCode s f
def cu (c : Fin 16) (f : CursorSt → CursorSt) (s : State) : State := modCur s c f
def mg (f : MgmtSt → MgmtSt) (s : State) : State := modMgmt s f
def ram (l : Fin 2) (f : RamanLine → RamanLine) (s : State) : State := modRaman s l f
def lk (l : Fin 3) (f : Link → Link) (s : State) : State := modLink s l f
def nt (f : Net → Net) (s : State) : State := { s with net := f s.net }
def st (n : Nat) (f : StreamSt → StreamSt) (s : State) : State := modStrm s n f

/-- A predicate on every lane, and operands of the lane formats. -/
def p0 : Pred := { neg := false, psel := 0 }
def r0 : FmtR := { rd := 2, ra := 4, rb := 6, fn := 0, sh := 0, rnd := 0, sat := false, cj := false, a := false }
def i0 : FmtI := { rd := 2, ra := 4, fn := 0, w := false, imm := 3 }
def m0 : FmtM := { r := 2, x := 0, off := 16, scl := 0, inc := 0, acc := false }

/-- A kernel of hook 1 on every slice, and a traverse that runs it. -/
def kernRec : PlanRec := R 0x0E1 [0, 255, 1, 0, 0, 1, 0, 100, 0, 64, 70, 2]
def inKern (t : Fin 8) (s : State) : State :=
  tv t (fun T => { T with kern := some { k := 0, rest := [], h := 1, pc := 0, cyc := 0, ready := [], outs := [] } }) (plan [kernRec] s)

/-- The words of a sequence of records. -/
def recsWords (rs : List PlanRec) : List Word := rs.flatMap recWords

/-- A plan with no active line: PLAN_HEADER, PERMISSIONS for every class, DM_CONFIG, PLAN_END (R64, R65). -/
def thePlan : List PlanRec :=
  [R 1 [1, 0, 0, 0, 0, 0], R 2 [1023, 511, 0], R 0x200 [0, 1, 0, 1, 0, 10, 0, 0, 0, 0, 0, 0, 0], R 0x3FF []]

/-- The vendor's and an integrator's key, whose private keys are 2 and 3, and a signature's first half with nonce 5, from
arithmetic on the standard's curve. -/
def vendKey : PubKey :=
  { x := 0x8d999057ba3d2d969260045c55b97f089025959a6f434d651d207d19fb96e9e4fe0e86ebe0e64f85b96a9c75295df61,
    y := 0x8e80f1fa5b1b3cedb7bfe8dffd6dba74b275d875bc6cc43e904e505f256ab4255ffd43e94d39e22d61501e700a940e80 }
def integKey : PubKey :=
  { x := 0x77a41d4606ffa1464793c7e5fdc7d98cb9d3910202dcd06bea4f240d3566da6b408bbae5026580d02d7e5c70500c831,
    y := 0xc995f7ca0b0c42837d0bbe9602a9fc998520b41c85115aa5f7684c0edc111eacc24abd6be4b5d298b65f28600a2f1df1 }
def sigR : Nat :=
  0x11de24a2c251c777573cac5ea025e467f208e51dbff98fc54f6661cbe56583b037882f4a1ca297e60abcdbc3836d84bc

/-- A manifest of the part, revision B1, security version 9, with empty Fieldbook and microcode, and the vendor's signature
(R54). -/
def manifest0 : List Word :=
  wordsOf 2 2512 ++ wordsOf 1 1 ++ wordsOf 1 9 ++ wordsOf 7 0 ++ wordsOf 39 (shaWords []) ++ wordsOf 39 (shaWords [])
    ++ wordsOf 39 vendKey.x ++ wordsOf 39 vendKey.y ++ wordsOf 39 sigR
    ++ wordsOf 39 0x1ca0af53d4805c499a087bbb44acc9e3cd590638516373c313953143a1d90936022753ac76625eb08332c28d628b9d01

/-- A slot header (R53), and the slot from an address on: its manifest at word 64 and its plan at word 312. -/
def slotHead (seq : Nat) : List Word :=
  let b := wordsOf 2 (0x2B5 * 1024 + 0x0D1) ++ wordsOf 1 1 ++ wordsOf 1 0 ++ wordsOf 2 seq
    ++ (wordsOf 3 64 ++ wordsOf 3 245) ++ wordsOf 12 0 ++ (wordsOf 3 312 ++ wordsOf 3 (recsWords thePlan).length) ++ wordsOf 6 0
  b ++ wordsOf 4 (crcWords b)
def bytesAt (a : Nat) (ws : List Word) : Tab Byte :=
  ((packWords ws).zipIdx.map (fun x => (a + x.2, x.1))).filter (fun x => x.2 ≠ 0xFF#8)
def slotBytes (a seq : Nat) : Tab Byte :=
  bytesAt a (slotHead seq) ++ bytesAt (a + 80) manifest0 ++ bytesAt (a + 390) (recsWords thePlan)

/-- Flash with a directory (R52) of two slots: a whole one at 0x20000 of sequence number 5, the header of another at 0x40000
of a sequence number; the mask ROM's key. -/
def flashWith (x y seq : Nat) (s : State) : State :=
  let dir := wordsOf 3 x ++ wordsOf 3 y ++ wordsOf 6 0
  let f := bytesAt 0 (dir ++ wordsOf 4 (crcWords dir)) ++ slotBytes 0x20000 5 ++ bytesAt 0x40000 (slotHead seq)
  ph 1 (mg (fun m => { m with flash := f }) (bt (fun x => { x with staged := true }) (kp (fun k => { k with vendorHash := keyHash vendKey }) s)))

/-- A LIFECYCLE token (R46): its change, slot and hash, its signing key and the second half of its signature; those to
PROVISIONED, FIELD and RETURN, one that programs slot 3, one that revokes slot 1. -/
def tokWords (ask slot h : Nat) (k : PubKey) (sig : Nat) : List Word :=
  recWords { type := 0x3F0, payload := wordsOf 1 ask ++ wordsOf 1 slot ++ wordsOf 13 0 ++ wordsOf 39 h ++ wordsOf 39 k.x
    ++ wordsOf 39 k.y ++ wordsOf 39 sigR ++ wordsOf 39 sig }
def tokWords1 : List Word := tokWords 1 0 0 vendKey
  0x14946714ca71963d4bb36ff863284599751a7ea3f154860f79b4222bd641175d1bfb37c4ee42c78a8f862064f0946225
def tokWords2 : List Word := tokWords 2 0 0 integKey
  0x85b7115183bb450eef7da24d48165602f5bc7c6c0681d89992bfba1f5d461803be4ece1cabc4cf8f1cd33cf027d8deff
def tokWords3 : List Word := tokWords 3 0 0 vendKey
  0x24af102c9139011ccf94845d45e3d74275f3d5f37081374c8b4d6a392c723723cb8ec211e60bd1ae6209f3f1b393d44f
def tokWordsP : List Word := tokWords 4 3 77 vendKey
  0xfae527e932b163c11f8f64b238b65f546e18a7973e9ff0313101d093f27b60cd6f78f31d3499d5bab5fb61a15ea7b6eb
def tokWordsR : List Word := tokWords 5 1 0 integKey
  0x4327874fbf05ade413f110eb260f3674b49f4acc210ad585bb438c0fd0cdf55031ca7256fbf6da39eee2cc3817c1e6bd
def token (ask : TokenAsk) (k : PubKey) : Token := { ask := ask, uid := 0, signer := keyHash k }

/-- OTP with the key slots of a mask, slot 0 the integrator's, and the lifecycle bits of a state; the mask ROM's key. -/
def keys (m life : Nat) (s : State) : State :=
  kp (fun k => { k with vendorHash := keyHash vendKey, otp := { k.otp with
    keys := Vector.ofFn (fun i => if bitOf m i.val then if i.val = 0 then keyHash integKey else 100 + i.val else 0),
    life := BitVec.ofNat 9 (match life with | 1 => 7 | 2 => 0x3F | 3 => 0x1C0 | _ => 0) } }) s

/-- What stands in management SRAM for these tokens. -/
theorem seen1 (s : State) : tokenSeen s 7 tokWords1 = some (token (.toState 1) vendKey) :=
  (Laws.tokenSeen_eq s 7 _ (by decide +kernel) (by decide +kernel)).trans (by decide +kernel)
theorem seen2 (s : State) : tokenSeen s 7 tokWords2 = some (token (.toState 2) integKey) :=
  (Laws.tokenSeen_eq s 7 _ (by decide +kernel) (by decide +kernel)).trans (by decide +kernel)
theorem seen3 (s : State) : tokenSeen s 7 tokWords3 = some (token (.toState 3) vendKey) :=
  (Laws.tokenSeen_eq s 7 _ (by decide +kernel) (by decide +kernel)).trans (by decide +kernel)
theorem seenP (s : State) : tokenSeen s 7 tokWordsP = some (token (.program 3 77) vendKey) :=
  (Laws.tokenSeen_eq s 7 _ (by decide +kernel) (by decide +kernel)).trans (by decide +kernel)
theorem seenR (s : State) : tokenSeen s 7 tokWordsR = some (token (.revoke 1) integKey) :=
  (Laws.tokenSeen_eq s 7 _ (by decide +kernel) (by decide +kernel)).trans (by decide +kernel)

/-- An outstanding fence of every island, and a held write of traverse 2. -/
def fence : Fence := { id := 1023, scope := 0x3FFFF, acked := 0, missed := 0, serial := 0, at_ := 0, why := .fieldbook, took := 0, recs := [] }
def heldW : HeldWrite := { addr := 0x4801, mask := 63 * 2 ^ 14, value := 32 * 2 ^ 14, serial := 0 }

/-- A state that accepts an amendment of one record, and its words (R68 to R72). -/
def amendState (s : State) : State :=
  up 0 (ph 11 (plan thePlan (bk (fun b => { b with plan := thePlan, amended := thePlan })
    (mc 0 (fun c => { c with inService := true }) (mc 1 (fun c => { c with inService := true }) s)))))
def amendWords : List Word := recsWords [R 5 [1, 0, 1], R 0x1A2 [0, 0, 0, 0, 0], R 0x3FF []]

/-- A line with an envelope, its interlock closed and the SCS locked. -/
def armable (s : State) : State := kp (fun k => { k with scsLock := true }) (plan [R 1 [1, 0, 0, 0, 0, 3], R 0x024 [1]] s)

/-- A slot of a line, of kind 0; a launch command of slot 3. -/
def slotPay (l k : Nat) : List Word := (R 0 [l, k, 0, 1, 0, 0, 0, 0, 1, 0, 0, 0, 0, 0, 0, 0, 0, 1]).payload
def slotted (l : Fin 2) (s : State) : State := plan [{ type := 0x021, payload := slotPay l.val 15 }] s
def launchCmd : LaunchCmd := { slot := 3, m := 0, time := 0 }

/-- Launch reference of mode 1 of a line, its slot a break monitor, and a launch of it. -/
def refRec (l : Nat) : PlanRec := R 0x061 [l, 1, 0, 0, 0, 0, 0, 0, 16, 0, 0, 16, 0]
def launchRef0 : LaunchRef := { mode := 1, delay := 0, dRef := 0, start := 0, len := 16, floor := 0, avgN := 16 }
def refPlan (l : Fin 2) (s : State) : State := plan [refRec l.val, { type := 0x021, payload := slotPay l.val 15 }] s
def launch0 (due : Nat) : Launch :=
  { slot := 3, stamp := 8, at_ := 0, m := 0, point := 0, dark := false, gap := false, rephased := false, apr := false, realigned := false,
    fresh := false, era := 0, epochs := [], due := due, g := 1, kind := 0, k0 := 0, href := [], delay := 0, pow := [], cal := [], marked := false }

/-- Spectral shift, Raman and coil records of a line, and a Raman capture's trigger. -/
def specRec (l : Nat) : PlanRec := R 0x0A0 [l, 1, 64, 16, 3, 1, 0, 0]
def ramanRec (l : Nat) : PlanRec := R 0x0C0 [l, 2, 0, 1, 0, 4, 0, 0, 0, 1, 0, 0, 0, 0, 0, 0, 0, 0]
def coilRec (l : Nat) : PlanRec := R 0x0C1 [l, 0, 0, 1, 0, 0, 1, 0, 0, 0, 0]
def trig0 : RamanTrig := { era := 0, point := 9, launch := 1, slot := 3, edge := 4, at_ := 0, epochs := [] }
def block0 : RBlock :=
  { line := 1, blk := 0, stamp := 5, cells := [], dsum := Vector.replicate 2 0, dcnt := Vector.replicate 2 0, gain := Vector.replicate 2 0,
    rangeChanged := false, restarted := false, attempt := none, taken := 0, due := 0, epochs := [] }

/-- A sweep slot of line 1 with one station group and one point, so that a line has spectral records. -/
def specPlan (s : State) : State :=
  plan [R 1 [1, 0, 0, 0, 0, 3], R 0x020 [1, 400, 0, 4, 0, 0, 0, 0, 0, 1], specRec 1,
    R 0x021 [1, 2, 3, 1, 0, 0, 0, 0, 1, 0, 0, 0, 0, 0, 0, 0, 0, 0], R 0x023 [1, 2, 1, 5]] s
def specCfg1 : SpecCfg := { outSweeps := 1, capSweeps := 64, quiet := 16, w := 3, redatumK := 1, qMin := 0, auto := false, c := 1, pLo := 5, cLine := 1 }

/-- The kernel run of `inKern` and its record; the same with every cycle used. -/
def kernRun0 : KernRun := { k := 0, rest := [], h := 1, pc := 0, cyc := 0, ready := [], outs := [] }
def kernCfg0 : KernCfg := { k := 0, mask := 255, hook := 1, start := 0, len := 1, maxCycles := 100, codeLo := 64, codeHi := 70, nParams := 2 }
def spent (t : Fin 8) (s : State) : State := tv t (fun T => { T with kern := some { kernRun0 with cyc := 100 } }) (plan [kernRec] s)

/-- A stream of line 0 with product 0x010, its input stations and taps; it is served by the line's traverses. -/
def streamRec (n t : Nat) : PlanRec :=
  R 0x100 [n, 0x010, 0, 0, 0, 1, 0, 1, 0, 1, 0, 0, 1, 0, t, 1, 0, 0, 0, 0, 0, 0, 0, 0, 0, 1, 64, 0, 512]
def streamLine : List PlanRec :=
  [R 1 [1, 0, 0, 0, 0, 1], R 0x020 [0, 400, 0, 4, 0, 0, 0, 0, 0, 1], { type := 0x021, payload := slotPay 0 1 }]
def streamed (t : Nat) (s : State) : State := plan (streamLine ++ [streamRec 5 t]) s
def streamCfg (t : Nat) : StreamCfg := streamOfPayload (streamRec 5 t).payload

/-- A zone of stream 5 with latch, an alarm pin, and a loop driven by RTD 3. -/
def zoneRec (z : Nat) : PlanRec :=
  R 0x160 [z, 0, 5, 0, 0, 0, 0, 0, 0, 0, 0, 0, 0, 1, 0, 0, 0, 2, 0, 0, 0, 3, 0, 0, 0, 7, 0, 0, 0, 0, 0, 0, 0, 0, 0, 1, 0, 1]
def zoned (s : State) : State := plan (streamLine ++ [streamRec 5 0, zoneRec 7]) s
def loopRec (n manual : Nat) : PlanRec :=
  R 0x163 [n, 3, 3, 0, 0, 0, 0, 0, 1, 0, 0, 0, 0, 150, 0, 150, 0, 150, 0, 150, 0, 0, 1, 0, 1, 0, manual, 0, 0]
def rtdRec (n three : Nat) : PlanRec := R 0x181 [n, three, 0, 0, 0, 0, 0, 0, 1]

/-- A coding job, an entry of C2, the replay ring in the plan. -/
def job0 (ring : Bool) : CodeJob :=
  { stream := 5, event := false, prio := false, words := [1, 2], m := 1, e := 0, outWords := 1, links := 1, ring := ring, sent := false, seq := 3, stamp := 4, epoch := 0 }
def entry0 : RingEntry := { ty := 1, serial := 0, sw := 5, seq := 3, len := 1, stamp := 4, epoch := 0, body := [], at_ := 0 }
def ringed (s : State) : State := cd (fun c => { c with u := 16 }) (plan [R 0x140 [16, 0, 16, 0]] s)

/-- Records of the timebase, of a TDC channel and of a launch monitor. -/
def timeRec (src : Nat) : PlanRec := R 0x1A0 [src, 1000, 0, 50, 16, 0, 0, 0, 0, 0, 60, 0, 0, 0, 1, 0]
def tdcRec (c gate dest : Nat) : PlanRec := R 0x1A1 [c, 0, 0, 0, gate, 10, 0, 100, 0, 0, 0, dest, 1, 0]
def tdcCfg0 (gate dest : Nat) : TdcCfg :=
  { source := 0, edge := 0, interval := false, gateMode := gate, armNs := 10, pairWin := 100, dest := dest, flushUs := 1 }
def monRec (l c : Nat) : PlanRec := R 0x1A3 [l, c, 10, 0]
def held0 : TdcHeld := { stamp := 0, stop := false, f := 0, flags := 0, at_ := 0 }
def cal0 : TdcCal := { die := 5, at_ := 0, hist := [] }

/-- A quad's record and the symbols of a training set. -/
def quadRec (q : Nat) : PlanRec := R 0x1C0 [q, 3, 4, 0, 0, 0, 0, 0, 0, 0, 0]
def quadCfg0 (s : State) (q : Fin 3) : QuadCfg :=
  { rateMax := getF s (slQCtrlRateMax q.val), widthMax := 4, blind := false, rateFallback := false, stbyIdle := false, allowFe := false, preset := 0, fxCount := 256 }
def setSyms (id : Nat) : List Nat := [0x1BC, 1, 15, 0xF0, 0, 2, 0, 0, 0, 0] ++ List.replicate 5 id ++ [0x4A]

/-- Frames, and the records of the chain and of levelling. -/
def frame0 (dest flags hops n : Nat) : Frame :=
  { ftype := 0x101, dest := dest, src := 9, tag := 3, flags := flags, hops := hops, payload := List.replicate n 0 }
def bulk0 : Frame := { frame0 7 0 0 2 with ftype := 0x201 }
def timed0 : Frame := { frame0 7 0 0 4 with ftype := 0x004 }
def levelRec : PlanRec := R 0x1E1 [1, 1000, 0, 0, 0, 0, 0, 0]
def levelCfg0 : LevelCfg := { up := 1, period := 1000, asymW := 0, asymE := 0, failover := false }
def run0 : LevelRun := { link := 1, start := 0, begun := 5, t1 := [(0, 55)], sumE := 0, sumD := 0, done_ := 5, depth := 0, holdover := false }
def permit (c : Nat) : PlanRec := R 2 [2 ^ c % 1024, 2 ^ c / 1024, 0]

/-- DRAM: channels 0 and 1 in service with every set point trained; a freeze. -/
def dmUp (s : State) : State :=
  mc 0 (fun c => { c with inService := true, trained := 7 }) (mc 1 (fun c => { c with inService := true, trained := 7 }) s)
def freeze0 : Freeze := { retrain := false, chan := 1, sub := 0, addr := 0, at_ := 0, loss := none }

/-- A loop in a state with its record, an RTD that is sound and a reading since the plan took effect. -/
def okLoop (x : LoopState) (r : PlanRec) (s : State) : State :=
  ph 11 (lo 7 (fun l => { l with st := x, updated := true }) (plan [r] s))

/-- A TDC channel with three bins whose last edge stands where the next one's stamp falls. -/
def edged (s : State) : State :=
  td 7 (fun x => { x with table := some [512, 512, 512] }) (tm (fun t => { t with freqRef := 1 }) (plan [tdcRec 7 0 0] s))
def closeEdge (s : State) : State := td 7 (fun x => { x with lastEdge := some (edgeStamp (edged s) 7 3 2) }) (edged s)
def trainSet0 : TrainSet :=
  { inverted := false, ts2 := false, lane := 0, rates := 0, locked := 0, feReq := false, ack := false, eqReq := false, preset := 0, addr := 0, role := 0 }

/-- A request; both hashes as Benchmark computes them; a line whose last sub-windows are above AVG_MAX. -/
def mbxReq0 : MbxReq := { code := 1, a1 := 0, a2 := 0, a3 := 0 }
def hashed (s : State) : State := kp (fun k => { k with hashField := some (fieldDigest s), hashPlan := some (planDigest s) }) s
def loud (s : State) : State :=
  pb 1 (fun P => { P with subNow := 2 ^ 20 }) (plan [{ type := 0x021, payload := slotPay 1 15 }, R 0x024 [1, 0, 0, 0, 0, 0, 0, 0, 0]] s)

/-- The state after one command, the state before where it stops. -/
def after (c : Instr) (s : State) : State := match exec c s with | .next t => t | _ => s

/-! ### Ill-formed commands -/

def badFrame : Frame := { ftype := 1024, dest := 0, src := 0, tag := 0, flags := 0, hops := 0, payload := [] }
def goodFrame : Frame := { badFrame with ftype := 0x010 }

theorem test_wf_frame_good : (Instr.chainSync 0 goodFrame).wf = true := by decide
theorem test_wf_frame_type : (Instr.chainSync 0 badFrame).wf = false := by decide
theorem test_wf_frame_symbols : (Instr.frameForward 0 [0x1FB, 512]).wf = false := by decide
theorem test_wf_frame_hops : (Instr.chainSync 0 { goodFrame with hops := 4096 }).wf = false := by decide
theorem test_wf_level_req_stamp : (Instr.levelReq 0 goodFrame (2 ^ 120)).wf = false := by decide
theorem test_wf_level_resp_frame : (Instr.levelResp 0 badFrame 0).wf = false := by decide
theorem test_wf_sfdp_opcode : (Instr.xspiInitDone (some (65536, 8))).wf = false := by decide
theorem test_wf_token_address : (Instr.mbxLifecycle (2 ^ 20) []).wf = false := by decide
theorem test_wf_token_length : (Instr.mbxLifecycle 0 (List.replicate 1024 0)).wf = false := by decide +kernel
theorem test_wf_cal_input : (Instr.fgCalInputDone 0 0 [{ input := 6, slice := 0, kind := 0, comp := 0, value := 0 }]).wf = false := by decide
theorem test_wf_cal_slice : (Instr.fullFgCalDone 0 [{ input := 0, slice := 9, kind := 0, comp := 0, value := 0 }] []).wf = false := by decide
theorem test_wf_cal_gains : (Instr.ramanFgCalDone 0 [] [1, 2, 3, 4, 5, 6, 7, 8, 9]).wf = false := by decide
theorem test_wf_trace_code : (Instr.traceDeliver 0 0 0 [{ i := 512, q := 0 }]).wf = false := by decide
theorem test_wf_pps_quadrant : (Instr.ppsEdge 4 0).wf = false := by decide
theorem test_wf_tdc_fine : (Instr.tdcEdge 0 false 0 256).wf = false := by decide
theorem test_wf_tdc_hist : (Instr.tdcCalComplete 0 (List.replicate 257 0)).wf = false := by decide +kernel
theorem test_wf_time_set_tag : (Instr.timeSet 0 1024 0 0).wf = false := by decide
theorem test_wf_time_track_seq : (Instr.timeTrack 0 0 1024 0).wf = false := by decide
theorem test_wf_label_seconds : (Instr.timePpsLabel 0 0 0 (2 ^ 60)).wf = false := by decide
theorem test_wf_training_symbol : (Instr.trainingSetReceived 0 0 [1024]).wf = false := by decide
theorem test_wf_credit_classes : (Instr.credit 0 [1, 2]).wf = false := by decide
theorem test_wf_read_count : (Instr.read 0 0 0 0 1024).wf = false := by decide
theorem test_wf_write_source : (Instr.write 0 0 4096 0 0 []).wf = false := by decide
theorem test_wf_timed_send_tag : (Instr.timedSend 0 1024 0 []).wf = false := by decide
theorem test_wf_dqs : (Instr.dqsOscRead [1, 2, 3, 4, 5]).wf = false := by decide
theorem test_wf_stream_stamp : (Instr.streamInput 0 (2 ^ 120)).wf = false := by decide
theorem test_wf_heartbeat : Instr.mbxHeartbeat.wf = true := by decide

/-! ### Worked examples -/

/-- R364: K28.5, D21.5 and D10.2 at negative running disparity, and K28.5 at positive. -/
theorem test_code_groups : (encodeSym false 0x1BC, encodeSym false 0xB5, encodeSym false 0x4A, encodeSym true 0x1BC)
    = ((0b0011111010, true), (0b1010101010, false), (0b0101010101, false), (0b1100000101, false)) := by decide

/-- The words of the worked kernel of spec/09: MAC with ra = rb = 5, and OUT under p1 with rs 2, N 2, rf 4 and CODE 0x040. -/
theorem test_lane_word_mac : decodeLane 3 0x6000A50000#40 = some (.mac 3 { neg := false, psel := 0 }
    { rd := 0, ra := 5, rb := 5, fn := 0, sh := 0, rnd := 0, sat := false, cj := false, a := false }) := by decide +kernel
theorem test_lane_word_out : decodeLane 3 0xE489208000#40 = some (.out 3 { neg := false, psel := 1 }
    { rs := 2, n := 1, rf := 4, code := 0x040 }) := by decide +kernel

/-- R244: the worst case of the worked kernel of spec/09 is 12 cycles. -/
def workedKernel : List (BitVec 40) :=
  [0x2409F00100, 0x6000A50000, 0x7018001108, 0x4408460008, 0x482D44000F, 0x500560000F, 0xE489208000, 0x5888000020, 0x2C09F00100, 0x0C00000000]
theorem test_worked_kernel : kernWorst 0 workedKernel = 12 := by decide +kernel

/-- No row of the table has bits. -/
theorem test_no_word_spells_a_command : decodeTableWord 16 0x1234 = none := by decide

/-- The check value of CRC-32C over the digits 1 to 9. -/
theorem test_crc32c_check : crc32c [0x31#8, 0x32, 0x33, 0x34, 0x35, 0x36, 0x37, 0x38, 0x39] = 0xE3069283#32 := by decide +kernel

/-- The source of the worked example of R284: a header of 24 words and five samples of two words. -/
def sample5 : List Word := List.replicate 24 0 ++ [1234, 1240, 1251, 1259, 1270].flatMap (wordsOf 2)

/-- R284's worked example: the header words 0 to 6, the body, and the block's length of 42 words. -/
theorem test_coder_example : ((codeBlock sample5 24 5 1 2).1.take 7, (codeBlock sample5 24 5 1 2).1.drop 35, (codeBlock sample5 24 5 1 2).1.length)
    = ([0x084#10, 0x018, 0x000, 0x005, 0x000, 0x007, 0x000], [0x123#10, 0x3FA, 0x240, 0x181, 0x182, 0x005, 0x200], 42) := by decide +kernel

/-- R284: the sums of u decide for predictor 1, and the residual of the second sample is 6. -/
theorem test_coder_predictor : bestPred 20 0 0 [1234, 1240, 1251, 1259, 1270] = 1 := by decide
theorem test_coder_residual : residual 20 1240 (predict 1 20 1234 0) = 12 := by decide

/-- R6: a ten-bit field is signed from 512 on. -/
theorem test_signed : (signedOf 10 511, signedOf 10 512, signedOf 10 1023) = (511, -512, -1) := by decide

/-- R8: 1 s and 3/2 ns as a stamp and back. -/
theorem test_time110 : ofTime110 (time110 (secU + nsU + nsU / 2)) = secU + nsU + nsU / 2 := by decide

/-! ### One step -/

/-- R44: the heartbeat sets BM_WDOG's missed count to 0 and is granted. -/
theorem test_heartbeat : (getF (after .mbxHeartbeat (setF State.reset bmWdogMissed 2)) bmWdogMissed,
    getF (after .mbxHeartbeat State.reset) bmMbxLastCode) = (0, 1) := by decide

/-- R43: a code that no request has. -/
theorem test_bad_code : getF (after (.mbxBadCode 0x3F) State.reset) bmMbxLastStatus = 0x3FF := by decide

/-- R100: the fall of a line's interlock input turns its laser off and not the other's. -/
def lit : State := pb 1 (fun P => { P with laserEn := true }) (pb 0 (fun P => { P with laserEn := true }) State.reset)
theorem test_interlock : ((vget (after (.interlockTrip 1) lit).probe 1).laserEn, (vget (after (.interlockTrip 1) lit).probe 0).laserEn,
    (vget (after (.interlockTrip 1) lit).probe 1).ilkLow) = (false, true, true) := by decide +kernel

/-- R46: a token in management SRAM whose framing is not a record's is counted as one whose signature does not verify. -/
theorem test_no_token : (getF (after (.mbxLifecycle 0 [1, 2, 3]) State.reset) bmMbxLastCode,
    getF (after (.mbxLifecycle 0 [1, 2, 3]) State.reset) bmMbxLastStatus) = (11, 3) := by decide +kernel

/-- The check value of SHA-384 over "abc", from the published standard. -/
theorem test_sha384_check : sha384 [0x61, 0x62, 0x63]
    = 0xCB00753F45A35E8BB5A03D699AC65007272C32AB0EDED1631A8B605A43FF5BED8086072BA1E7CC2358BAECA134C825A7 := by decide +kernel

/-- R28: an identifier after 1,023 is 0. -/
theorem test_fence_id : (after (.fenceIssue 3) (ph 11 (fn (fun f => { f with nextId := 1023 }) State.reset))).fu.nextId = 0 := by decide

/-- R457: register 0x3FF.3FF is not defined, MG_SNAP_ADDR is; the latter holds what is written under the mask. -/
theorem test_unmapped : regDefined 0xFFFFF = false := by decide +kernel
theorem test_snap_addr : regGet (after (.registerWrite 0 0x31 0xABCDE 0x00FF0) State.reset) 0x31 = 0x00CD0 := by decide +kernel

/-- R27: a step takes the command at the front, and the rest of the queue stays. -/
theorem test_step_front : (match step { State.reset with pending := [.mbxHeartbeat, .znAck] } with | .next t => t.pending | _ => [])
    = [.znAck] := by decide

/-! ### Witnesses of the statements' hypotheses -/

theorem witness_BootFirstPhases :
    (∃ (s : State), s.keeper.pwrgood = true ∧ s.keeper.resetN = true ∧ s.keeper.warm = false ∧ bootPhase s = 0 ∧ s.keeper.boot.otpRead = false)
    ∧ (∃ (s : State), s.keeper.boot.otpRead = true ∧ s.keeper.warm = false ∧ bootPhase s = 0)
    ∧ (∃ (s : State), bootPhase s = 1) :=
  ⟨⟨kp (fun k => { k with refPresent := false }) State.reset, by decide⟩,
    ⟨bt (fun b => { b with otpRead := true }) State.reset, by decide⟩,
    ⟨ph 1 State.reset, by decide⟩⟩

theorem witness_ImageVerification_1 :
    ∃ (s : State) (a : Bool) (x : Nat) (y : Nat), bootPhase s = 1 ∧ s.keeper.boot.staged = true ∧ directory s = some (x, y) ∧ bFirst (headerAt s x).seq (headerAt s y).seq = false ∧ slotCode s x a = 0 :=
  ⟨flashWith 131072 262144 5 State.reset, true, 131072, 262144, by decide +kernel⟩

theorem witness_ImageVerification_2 :
    ∃ (s : State) (a : Bool) (b : Bool) (x : Nat) (y : Nat), bootPhase s = 1 ∧ s.keeper.boot.staged = true ∧ directory s = some (x, y) ∧ bFirst (headerAt s x).seq (headerAt s y).seq = false ∧ slotCode s x a ≠ 0 ∧ slotCode s y b = 0 :=
  ⟨flashWith 262144 131072 5 State.reset, false, true, 262144, 131072, by decide +kernel⟩

theorem witness_ImageVerification_3 :
    ∃ (s : State) (b : Bool) (x : Nat) (y : Nat), bootPhase s = 1 ∧ s.keeper.boot.staged = true ∧ directory s = some (x, y) ∧ bFirst (headerAt s x).seq (headerAt s y).seq = true ∧ slotCode s y b = 0 :=
  ⟨flashWith 262144 131072 4 State.reset, true, 262144, 131072, by decide +kernel⟩

theorem witness_ImageVerification_4 :
    ∃ (s : State) (x : Nat), (headerAt s x).ok = false :=
  ⟨State.reset, 0, by decide +kernel⟩

theorem witness_ImageVerification :
    (∃ (s : State) (a : Bool) (x : Nat) (y : Nat), bootPhase s = 1 ∧ s.keeper.boot.staged = true ∧ directory s = some (x, y) ∧ bFirst (headerAt s x).seq (headerAt s y).seq = false ∧ slotCode s x a = 0)
    ∧ (∃ (s : State) (a : Bool) (b : Bool) (x : Nat) (y : Nat), bootPhase s = 1 ∧ s.keeper.boot.staged = true ∧ directory s = some (x, y) ∧ bFirst (headerAt s x).seq (headerAt s y).seq = false ∧ slotCode s x a ≠ 0 ∧ slotCode s y b = 0)
    ∧ (∃ (s : State) (b : Bool) (x : Nat) (y : Nat), bootPhase s = 1 ∧ s.keeper.boot.staged = true ∧ directory s = some (x, y) ∧ bFirst (headerAt s x).seq (headerAt s y).seq = true ∧ slotCode s y b = 0)
    ∧ (∃ (s : State) (x : Nat), (headerAt s x).ok = false) :=
  ⟨witness_ImageVerification_1, witness_ImageVerification_2, witness_ImageVerification_3, witness_ImageVerification_4⟩

theorem witness_BootLaterPhases :
    (∃ (s : State) (src : List Word) (rest : List Word), bootPhase s = 2 ∧ s.keeper.coreRef ≠ .none_ ∧ decompress (stagedSection s 1).length s.keeper.boot.stage1Len (stagedSection s 1) = some (src, rest))
    ∧ (∃ (s : State), bootPhase s = 4 ∧ s.keeper.warm = true)
    ∧ (∃ (s : State) (src : List Word) (rest : List Word), bootPhase s = 4 ∧ s.keeper.warm = false ∧ decompress (stagedSection s 1).length s.keeper.boot.fieldLen (stagedSection s 1) = some (src, rest))
    ∧ (∃ (s : State) (t : Fin 8), bootPhase s = 6 ∧ bitOf s.keeper.boot.tested t.val = false ∧ s.keeper.boot.tested ||| 2 ^ t.val ≠ 255)
    ∧ (∃ (s : State) (t : Fin 8), bootPhase s = 6 ∧ bitOf s.keeper.boot.tested t.val = false ∧ s.keeper.boot.tested ||| 2 ^ t.val = 255)
    ∧ (∃ (s : State), planDue s = true)
    ∧ (∃ (s : State), bootPhase s = 8 ∧ s.keeper.scsLock = true)
    ∧ (∃ (s : State) (a : Bool) (b : Bool) (x : Nat) (y : Nat), bootPhase s = 1 ∧ s.keeper.boot.staged = true ∧ directory s = some (x, y) ∧ slotCode s x a ≠ 0 ∧ slotCode s y b ≠ 0) :=
  ⟨⟨ph 2 (kp (fun k => { k with coreRef := .refclk }) State.reset), [], [], by decide⟩,
    ⟨ph 4 (kp (fun k => { k with warm := true }) State.reset), by decide⟩,
    ⟨ph 4 State.reset, [], [], by decide⟩,
    ⟨ph 6 State.reset, 7, by decide⟩,
    ⟨ph 6 (bt (fun b => { b with tested := 127 }) State.reset), 7, by decide⟩,
    ⟨ph 7 State.reset, by decide⟩,
    ⟨ph 8 (kp (fun k => { k with scsLock := true }) State.reset), by decide⟩,
    ⟨flashWith 131072 262144 5 State.reset, false, false, 131072, 262144, by decide +kernel⟩⟩

theorem witness_MailboxAnswers :
    (∃ (s : State), 4 ≤ s.keeper.mbx.length)
    ∧ (∃ (s : State), s.keeper.mbx.length < 4 ∧ keeperRuns s = false)
    ∧ (∃ (s : State), s.keeper.mbx = [] ∧ keeperRuns s = true)
    ∧ (∃ (s : State), s.keeper.mbx = [] ∧ keeperRuns s = true ∧ ((s.keeper.boot.complete = true ∨ s.keeper.hashField = none ∨ s.keeper.hashPlan = none)))
    ∧ (∃ (s : State) (f : Nat) (p : Nat), s.keeper.mbx = [] ∧ keeperRuns s = true ∧ s.keeper.boot.complete = false ∧ s.keeper.hashField = some f ∧ s.keeper.hashPlan = some p ∧ s.keeper.boot.commit = false)
    ∧ (∃ (s : State), s.keeper.mbx = [] ∧ keeperRuns s = true)
    ∧ (∃ (s : State), s.keeper.mbx = [] ∧ keeperRuns s = true ∧ s.keeper.boot.complete = false)
    ∧ (∃ (s : State), s.keeper.mbx = [] ∧ keeperRuns s = true ∧ s.keeper.boot.complete = true)
    ∧ (∃ (s : State) (code : Fin 1024), s.keeper.mbx = [] ∧ keeperRuns s = true ∧ ((code.val = 0 ∨ 12 ≤ code.val))) :=
  ⟨⟨kp (fun k => { k with mbx := List.replicate 4 mbxReq0 }) State.reset, by decide⟩,
    ⟨kp (fun k => { k with resetN := false, mbx := [mbxReq0] }) State.reset, by decide⟩,
    ⟨State.reset, by decide⟩,
    ⟨State.reset, by decide⟩,
    ⟨kp (fun k => { k with hashField := some 1, hashPlan := some 2 }) State.reset, 1, 2, by decide⟩,
    ⟨State.reset, by decide⟩,
    ⟨State.reset, by decide⟩,
    ⟨bt (fun b => { b with complete := true }) State.reset, by decide⟩,
    ⟨State.reset, 12, by decide⟩⟩

theorem witness_LifecycleTokens :
    (∃ (s : State) (x : Nat) (ws : List Word), s.keeper.mbx = [] ∧ keeperRuns s = true ∧ tokenSeen s x ws = none)
    ∧ (∃ (s : State) (x : Nat) (ws : List Word) (tk : Token), s.keeper.mbx = [] ∧ keeperRuns s = true ∧ tokenSeen s x ws = some tk ∧ tk.uid ≠ s.keeper.otp.uid)
    ∧ (∃ (s : State) (x : Nat) (ws : List Word) (tk : Token), s.keeper.mbx = [] ∧ keeperRuns s = true ∧ tokenSeen s x ws = some tk ∧ tk.uid = s.keeper.otp.uid ∧ tk.ask = .toState 1 ∧ lifecycle s = 0 ∧ byVendor s tk = true ∧ (List.finRange 4).any (keyProgrammed s) = true)
    ∧ (∃ (s : State) (x : Nat) (ws : List Word) (tk : Token), s.keeper.mbx = [] ∧ keeperRuns s = true ∧ tokenSeen s x ws = some tk ∧ tk.uid = s.keeper.otp.uid ∧ tk.ask = .toState 2 ∧ lifecycle s = 1 ∧ bySlot s tk (fun _ => true) = true)
    ∧ (∃ (s : State) (x : Nat) (ws : List Word) (tk : Token), s.keeper.mbx = [] ∧ keeperRuns s = true ∧ tokenSeen s x ws = some tk ∧ tk.uid = s.keeper.otp.uid ∧ tk.ask = .toState 3 ∧ lifecycle s < 3 ∧ byVendor s tk = true)
    ∧ (∃ (s : State) (x : Nat) (ws : List Word) (tk : Token) (n : Fin 4) (h : Nat), s.keeper.mbx = [] ∧ keeperRuns s = true ∧ tokenSeen s x ws = some tk ∧ tk.uid = s.keeper.otp.uid ∧ tk.ask = .program n h ∧ lifecycle s = 0 ∧ byVendor s tk = true ∧ keyProgrammed s n = false)
    ∧ (∃ (s : State) (x : Nat) (ws : List Word) (tk : Token) (n : Fin 4) (h : Nat), s.keeper.mbx = [] ∧ keeperRuns s = true ∧ tokenSeen s x ws = some tk ∧ tk.uid = s.keeper.otp.uid ∧ tk.ask = .program n h ∧ keyProgrammed s n = true)
    ∧ (∃ (s : State) (x : Nat) (ws : List Word) (tk : Token) (n : Fin 4) (k : Fin 4), s.keeper.mbx = [] ∧ keeperRuns s = true ∧ tokenSeen s x ws = some tk ∧ tk.uid = s.keeper.otp.uid ∧ tk.ask = .revoke n ∧ bySlot s tk (fun k => decide (k ≠ n)) = true ∧ k ≠ n ∧ integratorKey s k = true)
    ∧ (∃ (s : State) (x : Nat) (ws : List Word) (tk : Token), s.keeper.mbx = [] ∧ keeperRuns s = true ∧ tokenSeen s x ws = some tk ∧ tk.uid = s.keeper.otp.uid ∧ tk.ask = .toState 2 ∧ lifecycle s = 1 ∧ bySlot s tk (fun _ => true) = false) :=
  ⟨⟨State.reset, 7, [], by decide +kernel⟩,
    ⟨kp (fun k => { k with otp := { k.otp with uid := 1 } }) State.reset, 7, tokWords1, token (.toState 1) vendKey, by decide +kernel, by decide +kernel, seen1 _, by decide +kernel⟩,
    ⟨keys 1 0 State.reset, 7, tokWords1, token (.toState 1) vendKey, by decide +kernel, by decide +kernel, seen1 _, by decide +kernel⟩,
    ⟨keys 1 1 State.reset, 7, tokWords2, token (.toState 2) integKey, by decide +kernel, by decide +kernel, seen2 _, by decide +kernel⟩,
    ⟨keys 1 2 State.reset, 7, tokWords3, token (.toState 3) vendKey, by decide +kernel, by decide +kernel, seen3 _, by decide +kernel⟩,
    ⟨keys 7 0 State.reset, 7, tokWordsP, token (.program 3 77) vendKey, 3, 77, by decide +kernel, by decide +kernel, seenP _, by decide +kernel⟩,
    ⟨keys 8 0 State.reset, 7, tokWordsP, token (.program 3 77) vendKey, 3, 77, by decide +kernel, by decide +kernel, seenP _, by decide +kernel⟩,
    ⟨keys 7 0 State.reset, 7, tokWordsR, token (.revoke 1) integKey, 1, 2, by decide +kernel, by decide +kernel, seenR _, by decide +kernel⟩,
    ⟨keys 2 1 State.reset, 7, tokWords2, token (.toState 2) integKey, by decide +kernel, by decide +kernel, seen2 _, by decide +kernel⟩⟩

theorem witness_DeviceResets :
    (∃ (s : State), s.keeper.pwrgood = true)
    ∧ (∃ (s : State), s.keeper.mbx = [] ∧ keeperRuns s = true) :=
  ⟨⟨State.reset, by decide⟩,
    ⟨State.reset, by decide⟩⟩

theorem witness_WarmResets :
    (∃ (s : State), s.keeper.mbx = [] ∧ keeperRuns s = true ∧ bootPhase s ≠ 15 ∧ (recentWarm s).length < (resetPolicy s).1)
    ∧ (∃ (s : State), s.keeper.mbx = [] ∧ keeperRuns s = true ∧ bootPhase s ≠ 15 ∧ (resetPolicy s).1 ≤ (recentWarm s).length)
    ∧ (∃ (s : State), s.keeper.mbx = [] ∧ keeperRuns s = true ∧ bootPhase s = 15)
    ∧ (∃ (s : State), coresRun s = true ∧ getF s bmWdogMissed < 2)
    ∧ (∃ (s : State), coresRun s = true ∧ 2 ≤ getF s bmWdogMissed ∧ (recentWarm s).length < (resetPolicy s).1)
    ∧ (∃ (s : State), s.keeper.warm = true ∧ bootPhase s < 4 ∧ hashesMatch s = true ∧ inStandby s = false)
    ∧ (∃ (s : State), s.keeper.warm = true ∧ bootPhase s < 4 ∧ s.keeper.hashField ≠ some (fieldDigest s))
    ∧ (∃ (s : State) (l : Nat), s.book.resetReq = some (1, l))
    ∧ (∃ (s : State) (l : Nat), s.book.resetReq = some (0, l) ∧ bootPhase s ≠ 15 ∧ (recentWarm s).length < (resetPolicy s).1) :=
  ⟨⟨ph 3 State.reset, by decide⟩,
    ⟨ph 3 (kp (fun k => { k with warmTimes := [0, 0, 0] }) State.reset), by decide⟩,
    ⟨ph 15 State.reset, by decide⟩,
    ⟨setF (ph 3 State.reset) bmWdogMissed 1, by decide⟩,
    ⟨setF (ph 3 State.reset) bmWdogMissed 2, by decide⟩,
    ⟨hashed (ph 2 (kp (fun k => { k with warm := true }) State.reset)), by decide +kernel⟩,
    ⟨ph 2 (kp (fun k => { k with warm := true }) State.reset), by decide⟩,
    ⟨bk (fun b => { b with resetReq := some (1, 0) }) State.reset, 0, by decide⟩,
    ⟨ph 11 (bk (fun b => { b with resetReq := some (0, 0) }) State.reset), 0, by decide⟩⟩

theorem witness_LineResets :
    (∃ (s : State) (l : Fin 2), s.keeper.mbx = [] ∧ keeperRuns s = true ∧ s.keeper.warm = false ∧ lineActive s l.val = true ∧ inStandby s = false)
    ∧ (∃ (s : State), s.keeper.mbx = [] ∧ keeperRuns s = true ∧ s.keeper.warm = true)
    ∧ (∃ (s : State) (l : Fin 2), s.keeper.mbx = [] ∧ keeperRuns s = true ∧ s.keeper.warm = false ∧ lineActive s l.val = false)
    ∧ (∃ (s : State) (l : Fin 2), s.keeper.lineReset.getLsbD l.val = true) :=
  ⟨⟨plan [R 1 [0, 0, 0, 0, 0, 3]] State.reset, 1, by decide⟩,
    ⟨kp (fun k => { k with warm := true }) State.reset, by decide⟩,
    ⟨plan [R 1 [0, 0, 0, 0, 0, 1]] State.reset, 1, by decide⟩,
    ⟨kp (fun k => { k with lineReset := 2 }) State.reset, 1, by decide⟩⟩

theorem witness_Standby :
    (∃ (s : State), s.keeper.mbx = [] ∧ keeperRuns s = true ∧ bootPhase s = 11 ∧ s.mem.freeze = none ∧ inStandby s = false)
    ∧ (∃ (s : State), s.keeper.mbx = [] ∧ keeperRuns s = true ∧ ((bootPhase s ≠ 11 ∨ s.mem.freeze ≠ none ∨ inStandby s = true)))
    ∧ (∃ (s : State), s.keeper.mbx = [] ∧ keeperRuns s = true ∧ inStandby s = true ∧ getF s bmPowerStbyCause ≠ 2 ∧ s.keeper.transit ≠ 2)
    ∧ (∃ (s : State), s.keeper.mbx = [] ∧ keeperRuns s = true ∧ inStandby s = true ∧ getF s bmPowerStbyCause = 2)
    ∧ (∃ (s : State), s.keeper.mbx = [] ∧ keeperRuns s = true ∧ inStandby s = false)
    ∧ (∃ (s : State) (t0 : Nat), inStandby s = true ∧ getF s bmPowerStbyCause = 2 ∧ s.keeper.coolSince = some t0 ∧ t0 + 60 * secU ≤ elapsed s ∧ s.keeper.transit ≠ 2)
    ∧ (∃ (s : State), s.keeper.transit = 2 ∧ s.keeper.exitStep = 0)
    ∧ (∃ (s : State), s.keeper.transit = 2 ∧ s.keeper.exitStep = 1 ∧ hashesMatch s = true)
    ∧ (∃ (s : State), s.keeper.transit = 2 ∧ s.keeper.exitStep = 1 ∧ s.keeper.hashPlan ≠ some (planDigest s))
    ∧ (∃ (s : State), s.keeper.transit = 2 ∧ s.keeper.exitStep = 2 ∧ (vget s.conv 0).fullCal = false ∧ (vget s.conv 1).fullCal = false)
    ∧ (∃ (s : State), s.book.standbyReq = some 0 ∧ bootPhase s = 11 ∧ s.mem.freeze = none ∧ inStandby s = false) :=
  ⟨⟨ph 11 State.reset, by decide⟩,
    ⟨ph 10 State.reset, by decide⟩,
    ⟨stby (ph 11 State.reset), by decide⟩,
    ⟨setF (stby (ph 11 State.reset)) bmPowerStbyCause 2, by decide⟩,
    ⟨ph 11 State.reset, by decide⟩,
    ⟨(kp (fun k => { k with coolSince := some 0 }) (setF (stby (ph 11 { State.reset with up := 60 * secU * 1024 })) bmPowerStbyCause 2)), 0, by decide⟩,
    ⟨kp (fun k => { k with transit := 2 }) State.reset, by decide⟩,
    ⟨hashed (kp (fun k => { k with transit := 2, exitStep := 1 }) State.reset), by decide +kernel⟩,
    ⟨kp (fun k => { k with transit := 2, exitStep := 1 }) State.reset, by decide⟩,
    ⟨kp (fun k => { k with transit := 2, exitStep := 2 }) State.reset, by decide⟩,
    ⟨ph 11 (bk (fun b => { b with standbyReq := some 0 }) State.reset), by decide⟩⟩

theorem witness_Clocks :
    (∃ (s : State), s.keeper.scsLock = true)
    ∧ (∃ (s : State), s.keeper.scsLock = false ∧ s.keeper.scsRef ≠ .none_ ∧ inStandby s = false)
    ∧ (∃ (s : State), s.keeper.refPresent = true ∧ s.keeper.scsRef = .refclk ∧ s.keeper.scsLock = true)
    ∧ (∃ (s : State), s.keeper.freqStale = true ∧ s.keeper.refPresent = false) :=
  ⟨⟨kp (fun k => { k with scsLock := true }) State.reset, by decide⟩,
    ⟨kp (fun k => { k with scsRef := .refclk }) State.reset, by decide⟩,
    ⟨kp (fun k => { k with scsLock := true, scsRef := .refclk }) State.reset, by decide⟩,
    ⟨kp (fun k => { k with freqStale := true, refPresent := false }) State.reset, by decide⟩⟩

theorem witness_Fences :
    (∃ (s : State), coresRun s = true ∧ s.fu.out.length < 64)
    ∧ (∃ (s : State), coresRun s = true ∧ s.fu.out.length = 64)
    ∧ (∃ (s : State) (isl : Fin 18) (id : Fin 1024), isl.val < 10 ∧ mayAck s isl.val id.val = true)
    ∧ (∃ (s : State) (isl : Fin 18) (id : Fin 1024), 10 ≤ isl.val ∧ mayAck s isl.val id.val = true)
    ∧ (∃ (s : State) (f : Fence) (rest : List Fence), s.fu.out = f :: rest ∧ f.scope &&& (f.acked ||| f.missed) = f.scope ∧ f.missed = 0 ∧ f.recs = [] ∧ s.fu.held = [] ∧ s.fu.heldRecs = [] ∧ s.fu.retry = [] ∧ f.why = .fieldbook)
    ∧ (∃ (s : State) (f : Fence) (rest : List Fence), s.fu.out = f :: rest ∧ f.scope &&& (f.acked ||| f.missed) ≠ f.scope)
    ∧ (∃ (s : State), 8 ≤ bootPhase s ∧ bootPhase s ≠ 15 ∧ s.keeper.warm = false ∧ autoOwed s ≠ 0 ∧ s.fu.out.length < 64)
    ∧ (∃ (s : State), inStandby s = true ∧ autoOwed s = 0)
    ∧ (∃ (s : State) (t : Fin 8), (vget s.trav t).clockChange = true) :=
  ⟨⟨fn (fun u => { u with out := List.replicate 63 fence }) (ph 3 State.reset), by decide⟩,
    ⟨fn (fun u => { u with out := List.replicate 64 fence }) (ph 3 State.reset), by decide⟩,
    ⟨fn (fun u => { u with out := [fence] }) State.reset, 9, 1023, by decide⟩,
    ⟨fn (fun u => { u with out := [fence] }) State.reset, 10, 1023, by decide⟩,
    ⟨fn (fun u => { u with out := [{ fence with acked := 0x3FFFF }] }) State.reset, { fence with acked := 0x3FFFF }, [], by decide⟩,
    ⟨fn (fun u => { u with out := [fence] }) State.reset, fence, [], by decide⟩,
    ⟨ph 8 (fn (fun u => { u with held := [heldW], autoMask := 2 ^ 12 }) State.reset), by decide⟩,
    ⟨stby State.reset, by decide⟩,
    ⟨tv 7 (fun T => { T with clockChange := true }) State.reset, 7, by decide⟩⟩

theorem witness_Amendments :
    (∃ (s : State) (l : Fin 3) (ws : List Word), linkUp s l = true ∧ frameOk (rxFrame s 0x105 hostAddr 0 ws) = true ∧ bootPhase s ≠ 15 ∧ (judgeAmend (noteRx s l (rxFrame s 0x105 hostAddr 0 ws)) (recordsOf ws).1 (recordsOf ws).2).status ≠ .accepted)
    ∧ (∃ (s : State) (l : Fin 3) (ws : List Word), linkUp s l = true ∧ frameOk (rxFrame s 0x105 hostAddr 0 ws) = true ∧ bootPhase s ≠ 15 ∧ s.fu.out.length < 64 ∧ (judgeAmend (noteRx s l (rxFrame s 0x105 hostAddr 0 ws)) (recordsOf ws).1 (recordsOf ws).2).status = .accepted)
    ∧ (∃ (s : State) (l : Fin 3) (ws : List Word), linkUp s l = true ∧ frameOk (rxFrame s 0x105 hostAddr 0 ws) = true ∧ bootPhase s = 15) :=
  ⟨⟨up 2 (ph 11 State.reset), 2, [], by decide⟩,
    ⟨amendState State.reset, 0, amendWords, by decide +kernel⟩,
    ⟨up 1 (ph 15 State.reset), 1, [], by decide⟩⟩

theorem witness_FeatureNegotiation :
    (∃ (s : State) (l : Fin 3) (n : Fin 1024), linkUp s l = true ∧ (vget s.net.links l).serial ≠ n.val)
    ∧ (∃ (s : State) (l : Fin 3) (w : BitVec 60) (n : Fin 1024), linkUp s l = true ∧ (vget s.net.links l).serial = n.val ∧ w.toNat &&& (vget s.net.links l).offer ≠ w.toNat)
    ∧ (∃ (s : State) (l : Fin 3) (w : BitVec 60) (n : Fin 1024), linkUp s l = true ∧ (vget s.net.links l).serial = n.val ∧ w.toNat &&& (vget s.net.links l).offer = w.toNat)
    ∧ (∃ (s : State) (l : Fin 3), (vget s.net.links l).unanswered = true ∧ linkUp s l = true)
    ∧ (∃ (s : State) (l : Fin 3), (vget s.net.links l).changed = true ∧ linkUp s l = true)
    ∧ (∃ (s : State) (l : Fin 3), linkUp s l = true) :=
  ⟨⟨up 1 State.reset, 1, 5, by decide⟩,
    ⟨up 1 (lk 1 (fun x => { x with offer := 6 }) State.reset), 1, 1, 0, by decide⟩,
    ⟨up 1 (lk 1 (fun x => { x with offer := 6 }) State.reset), 1, 2, 0, by decide⟩,
    ⟨up 2 (lk 2 (fun x => { x with unanswered := true }) State.reset), 2, by decide⟩,
    ⟨up 2 (lk 2 (fun x => { x with changed := true }) State.reset), 2, by decide⟩,
    ⟨up 2 State.reset, 2, by decide⟩⟩

theorem witness_LaserArming :
    (∃ (s : State) (l : Fin 2), s.keeper.mbx = [] ∧ keeperRuns s = true ∧ lifecycle s ≠ 3 ∧ inStandby s = false ∧ armConditions s l = true ∧ (vget s.probe l).ilkAt = none)
    ∧ (∃ (s : State) (l : Fin 2), s.keeper.mbx = [] ∧ keeperRuns s = true ∧ lifecycle s ≠ 3 ∧ inStandby s = false ∧ armConditions s l = false)
    ∧ (∃ (s : State), s.keeper.mbx = [] ∧ keeperRuns s = true ∧ lifecycle s = 3)
    ∧ (∃ (s : State), s.keeper.mbx = [] ∧ keeperRuns s = true)
    ∧ (∃ (s : State) (l : Fin 2), (vget s.probe l).ilkLow = false)
    ∧ (∃ (s : State) (l : Fin 2) (b : Nat), isSet s (psBreakActive l.val) = false ∧ breakFound (vget s.probe l) = some b)
    ∧ (∃ (s : State) (l : Fin 2), isSet s (psBreakActive l.val) = true ∧ 8 ≤ (vget s.probe l).noBreakRun) :=
  ⟨⟨armable State.reset, 1, by decide⟩,
    ⟨State.reset, 1, by decide⟩,
    ⟨keys 1 3 (kp (fun k => { k with otp := { k.otp with life := 0x1C0 } }) State.reset), by decide⟩,
    ⟨State.reset, by decide⟩,
    ⟨State.reset, 1, by decide⟩,
    ⟨pb 1 (fun P => { P with breakRun := List.replicate 8 100 }) State.reset, 1, 100, by decide⟩,
    ⟨pb 1 (fun P => { P with noBreakRun := 8 }) (setF State.reset (psBreakActive 1) 1), 1, by decide⟩⟩

theorem witness_Launches :
    (∃ (s : State) (l : Fin 2) (k : Fin 16) (c : SlotCfg) (x : Nat), slotAt s l.val k.val = some c ∧ (vget s.probe l).newOrigins = [] ∧ nextPoint s (vget s.probe l) c = some x ∧ stampNow s + 200 * nsU ≤ x)
    ∧ (∃ (s : State) (l : Fin 2) (k : Fin 16) (c : SlotCfg) (x : Nat), slotAt s l.val k.val = some c ∧ (vget s.probe l).newOrigins = [] ∧ nextPoint s (vget s.probe l) c = some x ∧ x < stampNow s + 200 * nsU)
    ∧ (∃ (s : State) (l : Fin 2), (vget s.probe l).cmds ≠ [])
    ∧ (∃ (s : State) (l : Fin 2), (vget s.probe l).emits = [] ∧ (envelopeOf s l.val).isSome = true ∧ activeMask s l.val ≠ 0 ∧ (envLimits s l.val).2.2 * 2 ^ 20 < sumN (((vget s.probe l).subNow :: (vget s.probe l).subs).take 16)) :=
  ⟨⟨slotted 1 (pb 1 (fun P => { P with slotOrigin := Vector.replicate 16 (some (200 * nsU)) }) State.reset), 1, 15, slotOfPayload (slotPay 1 15), 200 * nsU, by decide⟩,
    ⟨at_ 1 (slotted 1 (pb 1 (fun P => { P with slotOrigin := Vector.replicate 16 (some (200 * nsU)) }) State.reset)), 1, 15, slotOfPayload (slotPay 1 15), 200 * nsU, by decide⟩,
    ⟨pb 1 (fun P => { P with cmds := [launchCmd] }) State.reset, 1, by decide⟩,
    ⟨loud State.reset, 1, by decide⟩⟩

theorem witness_ConverterRotation :
    (∃ (w : SkewWindow), windowAccepted w = true)
    ∧ (∃ (w : SkewWindow), windowAccepted w = false)
    ∧ (∃ (s : State) (l : Fin 2), (vget s.conv l).shared = true)
    ∧ (∃ (s : State) (l : Fin 2) (i : Fin 6), bitOf (getF s (cvStatusFgBusy l.val)) i.val = false) :=
  ⟨⟨{ began := 0, sumSq := 64 * 2 ^ 20, maxBin := 5, medianBin := 5, targets := [] }, by decide⟩,
    ⟨{ began := 0, sumSq := 64 * 2 ^ 20 - 1, maxBin := 5, medianBin := 5, targets := [] }, by decide⟩,
    ⟨cv 1 (fun C => { C with shared := true }) State.reset, 1, by decide⟩,
    ⟨setF State.reset (cvStatusFgBusy 1) 0, 1, 5, by decide⟩⟩

theorem witness_ForegroundCalibration :
    (∃ (s : State) (l : Fin 2) (i : Fin 4), bitOf (getF s (cvStatusPass l.val)) i.val = true ∧ 9 ≤ vget (vget s.conv l).passSteps i)
    ∧ (∃ (s : State) (l : Fin 2) (i : Fin 4), bitOf (getF s (cvStatusFgBusy l.val)) i.val = true ∧ (vget s.conv l).fullCal = false ∧ (vget s.conv l).fgQueue = [])
    ∧ (∃ (s : State) (l : Fin 2), (vget s.conv l).fullCal = true)
    ∧ (∃ (s : State), (vget s.conv 0).fullCal = true ∧ (vget s.conv 1).fullCal = false ∧ bootPhase s = 5)
    ∧ (∃ (s : State) (l : Fin 2), getF s (cvCalStatusRamanFgPending l.val) = 1 ∧ (vget s.conv l).inWindow = false ∧ (vget s.conv l).fullCal = false)
    ∧ (∃ (s : State) (l : Fin 2), getF s (cvCalStatusRamanFgPending l.val) = 1)
    ∧ (∃ (s : State) (l : Fin 2), (vget s.conv l).ramanFg = true)
    ∧ (∃ (s : State) (l : Fin 2), (vget s.conv l).inWindow = true ∧ (vget s.conv l).ramanForce = false ∧ vget (vget s.conv l).deferred 0 = none ∧ vget (vget s.conv l).deferred 1 = none ∧ (vget s.conv l).apdPend = none)
    ∧ (∃ (s : State) (l : Fin 2) (r : Nat) (a : Bool), (vget s.conv l).inWindow = true ∧ (vget s.conv l).ramanForce = false ∧ vget (vget s.conv l).deferred 0 = some (r, a) ∧ vget (vget s.conv l).deferred 1 = none ∧ (vget s.conv l).apdPend = none ∧ r ≠ vget (vget s.conv l).range 0) :=
  ⟨⟨setF (cv 1 (fun C => { C with passSteps := vset C.passSteps 3 9 }) State.reset) (cvStatusPass 1) 8, 1, 3, by decide⟩,
    ⟨setF State.reset (cvStatusFgBusy 1) 8, 1, 3, by decide⟩,
    ⟨cv 1 (fun C => { C with fullCal := true }) State.reset, 1, by decide⟩,
    ⟨ph 5 (cv 0 (fun C => { C with fullCal := true }) State.reset), by decide⟩,
    ⟨setF State.reset (cvCalStatusRamanFgPending 1) 1, 1, by decide⟩,
    ⟨setF State.reset (cvCalStatusRamanFgPending 1) 1, 1, by decide⟩,
    ⟨cv 1 (fun C => { C with ramanFg := true }) State.reset, 1, by decide⟩,
    ⟨cv 1 (fun C => { C with inWindow := true }) State.reset, 1, by decide⟩,
    ⟨cv 1 (fun C => { C with inWindow := true, deferred := vset C.deferred 0 (some (2, true)) }) State.reset, 1, 2, true, by decide⟩⟩

theorem witness_LaunchMeasurement :
    (∃ (s : State) (l : Fin 2) (r : LaunchRef), launchRef s l.val = some r ∧ r.mode = 1 ∧ (vget s.pce l).measuring = false)
    ∧ (∃ (s : State) (l : Fin 2) (r : LaunchRef), launchRef s l.val = some r ∧ (vget s.pce l).measuring = true ∧ 4 * r.avgN ≤ (vget s.pce l).points ∧ (vget s.pce l).collected < r.avgN)
    ∧ (∃ (s : State) (l : Fin 2) (r : LaunchRef) (b : SlotCfg), launchRef s l.val = some r ∧ breakMonitor s l.val = some b ∧ (vget s.pce l).measuring = true ∧ r.avgN ≤ (vget s.pce l).collected ∧ aboveFloor (lget 0 (vget s.pce l).sums (peakIndex (vget s.pce l).sums)) r.avgN r.floor = true ∧ 0 ≤ (r.start : Int) + peakUnits s (vget s.pce l).sums (unitsPer b.g) - refUnits s l.val r.dRef ∧ (r.start : Int) + peakUnits s (vget s.pce l).sums (unitsPer b.g) - refUnits s l.val r.dRef ≤ 1048575 ∧ s.fu.out.length < 64)
    ∧ (∃ (s : State) (l : Fin 2) (r : LaunchRef) (b : SlotCfg), launchRef s l.val = some r ∧ breakMonitor s l.val = some b ∧ (vget s.pce l).measuring = true ∧ r.avgN ≤ (vget s.pce l).collected ∧ aboveFloor (lget 0 (vget s.pce l).sums (peakIndex (vget s.pce l).sums)) r.avgN r.floor = false)
    ∧ (∃ (s : State) (l : Fin 2) (k : Fin 16) (pol : Fin 2), dueLaunch (vget s.probe l) k.val pol.val = none)
    ∧ (∃ (s : State) (l : Fin 2) (k : Fin 16) (pol : Fin 2) (L : Launch), dueLaunch (vget s.probe l) k.val pol.val = some L ∧ L.due = 2 ^ pol.val ∧ (vget s.probe l).launches = [L]) :=
  ⟨⟨refPlan 1 State.reset, 1, launchRef0, by decide⟩,
    ⟨pc 1 (fun P => { P with measuring := true, points := 64, collected := 15 }) (refPlan 1 State.reset), 1, launchRef0, by decide⟩,
    ⟨pc 1 (fun P => { P with measuring := true, collected := 16, sums := [0, 2 ^ 45, 0] }) (refPlan 1 State.reset), 1, launchRef0, slotOfPayload (slotPay 1 15), by decide⟩,
    ⟨pc 1 (fun P => { P with measuring := true, collected := 16, sums := [0, 9, 0] }) (plan [R 0x061 [1, 1, 0, 0, 0, 0, 0, 0, 16, 0, 10, 16, 0], { type := 0x021, payload := slotPay 1 15 }] State.reset), 1, { launchRef0 with floor := 10 }, slotOfPayload (slotPay 1 15), by decide⟩,
    ⟨State.reset, 1, 3, 1, by decide⟩,
    ⟨pb 1 (fun P => { P with launches := [launch0 2] }) State.reset, 1, 3, 1, launch0 2, by decide⟩⟩

theorem witness_Passes :
    (∃ (s : State) (t : Fin 8) (r : ShotReq) (rest : List ShotReq) (l : Fin 2), (vget s.trav t).fg = r :: rest ∧ r.line = l.val ∧ passReady s t = true ∧ c0Waits s = false ∧ shotComplete s l r.stamp = true)
    ∧ (∃ (s : State) (t : Fin 8) (l : Nat) (tag : Nat) (stamp : Nat) (epoch : Nat) (c : Bool) (rest : List BgReq), (vget s.trav t).bg = .output l tag stamp epoch c :: rest ∧ (vget s.trav t).work = none ∧ bgReady s t = true ∧ c0Waits s = false)
    ∧ (∃ (s : State) (t : Fin 8) (l : Fin 2) (blk : Nat) (stamp : Nat) (rest : List BgReq), (vget s.trav t).bg = .raman l.val blk stamp :: rest ∧ (vget s.trav t).work = none ∧ bgReady s t = true)
    ∧ (∃ (s : State) (t : Fin 8), passReady s t = true ∧ (vget s.trav t).fg = [] ∧ (vget s.trav t).bg = [] ∧ (vget s.trav t).work = none)
    ∧ (∃ (s : State) (t : Fin 8) (l : Nat) (tag : Nat) (stamp : Nat) (epoch : Nat) (next : Nat) (c : Bool), (vget s.trav t).work = some { req := .output l tag stamp epoch c, next := next } ∧ bgReady s t = true ∧ c0Waits s = false)
    ∧ (∃ (s : State) (t : Fin 8), (vget s.trav t).run ≠ .idle)
    ∧ (∃ (s : State) (t : Fin 8), (vget s.trav t).refused ≠ 0)
    ∧ (∃ (s : State) (t : Fin 8), (vget s.trav t).recovery = true ∧ (vget s.trav t).run = .idle ∧ (vget s.trav t).kern = none ∧ (vget s.trav t).oos = false)
    ∧ (∃ (s : State) (t : Fin 8), (vget s.trav t).recovery = true ∧ (vget s.trav t).run = .idle ∧ (vget s.trav t).kern = none ∧ (vget s.trav t).oos = false) :=
  ⟨⟨tv 7 (fun T => { T with fg := [{ line := 1, stamp := 9 }] }) State.reset, 7, { line := 1, stamp := 9 }, [], 1, by decide⟩,
    ⟨tv 7 (fun T => { T with bg := [.output 1 5 9 2 false] }) State.reset, 7, 1, 5, 9, 2, false, [], by decide⟩,
    ⟨tv 7 (fun T => { T with bg := [.raman 1 5 9] }) State.reset, 7, 1, 5, 9, [], by decide⟩,
    ⟨State.reset, 7, by decide⟩,
    ⟨tv 7 (fun T => { T with work := some { req := .output 1 5 9 2 false, next := 0 } }) State.reset, 7, 1, 5, 9, 2, 0, false, by decide⟩,
    ⟨tv 7 (fun T => { T with run := .output }) State.reset, 7, by decide⟩,
    ⟨tv 7 (fun T => { T with refused := 1 }) State.reset, 7, by decide⟩,
    ⟨tv 7 (fun T => { T with recovery := true }) State.reset, 7, by decide⟩,
    ⟨tv 7 (fun T => { T with recovery := true }) State.reset, 7, by decide⟩⟩

theorem witness_SpectralAndRaman :
    (∃ (s : State) (l : Fin 2), (specCfg s l.val).isSome = true)
    ∧ (∃ (s : State) (l : Fin 2), (vget s.sense.specLine l).pending = true)
    ∧ (∃ (s : State) (l : Fin 2) (c : SpecCfg), specCfg s l.val = some c ∧ 0 < pendingStations s l.val ∧ (vget s.sense.specLine l).slow = false ∧ (vget s.sense.specLine l).capStart ≠ 0 ∧ 16 * c.capSweeps ≤ (vget s.sense.specLine l).done_)
    ∧ (∃ (s : State) (l : Fin 2) (b : Nat × Nat) (u : Nat × Nat × Bool), blockOver s l = true ∧ (vget s.sense.ramanLine l).open_ = some b ∧ (vget s.sense.ramanLine l).use = some u)
    ∧ (∃ (s : State) (l : Fin 2) (b : Nat × Nat) (u : Nat × Nat × Bool), selfPassDue s l = true ∧ (vget s.sense.ramanLine l).open_ = some b ∧ (vget s.sense.ramanLine l).use = some u)
    ∧ (∃ (s : State) (l : Fin 2) (c : CoilCfg), coilCfg s l.val = some c ∧ coilClear s c = true)
    ∧ (∃ (s : State) (l : Fin 2) (b : RBlock) (rest : List RBlock), (vget s.sense.ramanLine l).ready = b :: rest)
    ∧ (∃ (s : State) (l : Fin 2) (tr : RamanTrig) (rest : List RamanTrig) (c : RamanCfg), (vget s.probe l).ramanTrigs = tr :: rest ∧ ramanCfg s l.val = some c) :=
  ⟨⟨plan [specRec 1] State.reset, 1, by decide⟩,
    ⟨specPlan { State.reset with sense := { (State.reset).sense with specLine := Vector.replicate 2 { SpecLine.zero with pending := true } } }, 1, by decide⟩,
    ⟨specPlan (tv 7 (fun T => { T with lastSw := some 1024 }) { State.reset with sense := { (State.reset).sense with specLine := Vector.replicate 2 { SpecLine.zero with capStart := 1, done_ := 1024 } } }), 1, specCfg1, by decide⟩,
    ⟨pb 1 (fun P => { P with ramanTrigs := [trig0] }) (ram 1 (fun X => { X with open_ := some (0, 1), use := some (4, 1, false) }) (plan [ramanRec 1] State.reset)), 1, (0, 1), (4, 1, false), by decide⟩,
    ⟨ram 1 (fun X => { X with open_ := some (5, 1), use := some (4, 1, false) }) (plan [ramanRec 1] State.reset), 1, (5, 1), (4, 1, false), by decide⟩,
    ⟨plan [coilRec 1] State.reset, 1, { first := 0, last := 1, a := 0, b := 1, period := 3600, age := 86400 }, by decide⟩,
    ⟨ram 1 (fun X => { X with ready := [block0] }) State.reset, 1, block0, [], by decide⟩,
    ⟨pb 1 (fun P => { P with ramanTrigs := [trig0] }) (plan [ramanRec 1] State.reset), 1, trig0, [], { n := 2, launch := 1, outCap := 4, smooth := 0, gainNorm := false, stFloor := 1, gamma := 633000, dalpha := 0, c0 := 0 }, by decide⟩⟩

theorem witness_LaneArithmetic :
    (∃ (s : State) (t : Fin 8) (r : FmtR), issues s t 1 ∧ ((r.fn.val ≤ 4 ∨ r.fn.val = 8 ∨ r.fn.val = 9)))
    ∧ (∃ (s : State) (t : Fin 8) (r : FmtR), issues s t 1 ∧ ((r.fn.val = 5 ∨ r.fn.val = 6 ∨ r.fn.val = 7 ∨ r.fn.val = 10 ∨ r.fn.val = 11 ∨ r.fn.val = 13)))
    ∧ (∃ (s : State) (t : Fin 8) (r : FmtR), issues s t 1 ∧ evenReg r.rd = true ∧ evenReg r.ra = true ∧ evenReg r.rb = true ∧ ((r.fn.val ≤ 4 ∨ r.fn.val = 8 ∨ r.fn.val = 9)))
    ∧ (∃ (s : State) (t : Fin 8) (r : FmtR), issues s t 1 ∧ evenReg r.rd = true ∧ evenReg r.ra = true ∧ ((r.fn.val = 5 ∨ r.fn.val = 6 ∨ r.fn.val = 7 ∨ r.fn.val = 10 ∨ r.fn.val = 11 ∨ r.fn.val = 13)))
    ∧ (∃ (s : State) (t : Fin 8) (i : FmtI), issues s t 1 ∧ i.w = false ∧ ((i.fn.val ≤ 11 ∨ i.fn.val = 13)))
    ∧ (∃ (s : State) (t : Fin 8) (i : FmtI), issues s t 1 ∧ i.w = true ∧ evenReg i.rd = true ∧ evenReg i.ra = true ∧ ((i.fn.val ≤ 11 ∨ i.fn.val = 13))) :=
  ⟨⟨State.reset, 7, { r0 with fn := 9 }, ⟨trivial, by decide⟩⟩,
    ⟨State.reset, 7, { r0 with fn := 13 }, ⟨trivial, by decide⟩⟩,
    ⟨State.reset, 7, { r0 with fn := 9 }, ⟨trivial, by decide⟩⟩,
    ⟨State.reset, 7, { r0 with fn := 13 }, ⟨trivial, by decide⟩⟩,
    ⟨State.reset, 7, { i0 with fn := 13 }, ⟨trivial, by decide⟩⟩,
    ⟨State.reset, 7, { i0 with fn := 11, w := true }, ⟨trivial, by decide⟩⟩⟩

theorem witness_LaneSelection :
    (∃ (s : State) (t : Fin 8) (r : FmtR), issues s t 1 ∧ r.fn.val ≤ 5)
    ∧ (∃ (s : State) (t : Fin 8) (r : FmtR), issues s t 1 ∧ evenReg r.ra = true ∧ evenReg r.rb = true ∧ 8 ≤ r.fn.val ∧ r.fn.val ≤ 13)
    ∧ (∃ (s : State) (t : Fin 8) (i : FmtI), issues s t 1 ∧ i.fn.val % 8 ≤ 5 ∧ ((i.w = false ∨ evenReg i.ra = true)))
    ∧ (∃ (s : State) (t : Fin 8) (r : FmtR), issues s t 1 ∧ r.cj = false)
    ∧ (∃ (s : State) (t : Fin 8) (r : FmtR), issues s t 1 ∧ r.cj = true ∧ evenReg r.rd = true ∧ evenReg r.ra = true ∧ evenReg r.rb = true)
    ∧ (∃ (s : State) (t : Fin 8), issues s t 1)
    ∧ (∃ (s : State) (t : Fin 8) (rd : Fin 32), issues s t 1 ∧ evenReg rd = true)
    ∧ (∃ (s : State) (t : Fin 8) (i : FmtI) (kr : KernRun) (k : KernCfg), issues s t 1 ∧ (vget s.trav t).kern = some kr ∧ kernAt s kr.k = some k ∧ i.imm.toNat < k.nParams)
    ∧ (∃ (s : State) (t : Fin 8) (i : FmtI) (kr : KernRun) (k : KernCfg), issues s t 1 ∧ (vget s.trav t).kern = some kr ∧ kernAt s kr.k = some k ∧ k.nParams ≤ i.imm.toNat) :=
  ⟨⟨State.reset, 7, { r0 with fn := 5 }, ⟨trivial, by decide⟩⟩,
    ⟨State.reset, 7, { r0 with fn := 13 }, ⟨trivial, by decide⟩⟩,
    ⟨State.reset, 7, { i0 with fn := 13 }, ⟨trivial, by decide⟩⟩,
    ⟨State.reset, 7, r0, ⟨trivial, by decide⟩⟩,
    ⟨State.reset, 7, { r0 with cj := true }, ⟨trivial, by decide⟩⟩,
    ⟨State.reset, 7, trivial⟩,
    ⟨State.reset, 7, 4, ⟨trivial, by decide⟩⟩,
    ⟨inKern 7 State.reset, 7, { i0 with imm := 1 }, kernRun0, kernCfg0, ⟨⟨rfl, kernCfg0, by decide, by decide⟩, by decide⟩⟩,
    ⟨inKern 7 State.reset, 7, { i0 with imm := 2 }, kernRun0, kernCfg0, ⟨⟨rfl, kernCfg0, by decide, by decide⟩, by decide⟩⟩⟩

theorem witness_LaneControl :
    (∃ (s : State) (t : Fin 8), issues s t 1)
    ∧ (∃ (s : State) (t : Fin 8), (vget s.trav t).kern = none ∧ (vget s.trav t).rep = none)
    ∧ (∃ (s : State) (t : Fin 8) (r : Fin 32), (vget s.trav t).kern = none ∧ (vget s.trav t).rep = none ∧ laneW ((vget s.trav t).lanes.toList.getD (firstLane s t) Lane.zero) r.val = 0)
    ∧ (∃ (s : State) (t : Fin 8), (vget s.trav t).kern = none ∧ (vget s.trav t).rep = none)
    ∧ (∃ (s : State) (t : Fin 8), (vget s.trav t).kern = none ∧ (vget s.trav t).rep = none)
    ∧ (∃ (s : State) (t : Fin 8) (h : Fin 4), (vget s.trav t).kern = none ∧ (vget s.trav t).rep = none ∧ (kernsAt s t.val h.val).filter (fun k => !((vget s.trav t).susp.contains k)) = [])
    ∧ (∃ (s : State) (t : Fin 8) (h : Fin 4) (k : Nat) (rest : List Nat), (vget s.trav t).kern = none ∧ (vget s.trav t).rep = none ∧ (kernsAt s t.val h.val).filter (fun k => !((vget s.trav t).susp.contains k)) = k :: rest)
    ∧ (∃ (s : State) (t : Fin 8) (g : Bool), (vget s.trav t).kern = none ∧ (vget s.trav t).rep = none ∧ ((g = false ∨ (vget s.trav t).run = .service)))
    ∧ (∃ (s : State) (t : Fin 8), issues s t 1)
    ∧ (∃ (s : State) (t : Fin 8) (n : Fin 64), (vget s.trav t).kern = none ∧ (vget s.trav t).rep = none ∧ fifoReady s t { neg := false, psel := 0 } (n.val + 1) = true)
    ∧ (∃ (s : State) (t : Fin 8) (n : Fin 64), (vget s.trav t).kern = none ∧ fifoReady s t { neg := false, psel := 0 } (n.val + 1) = false) :=
  ⟨⟨State.reset, 7, trivial⟩,
    ⟨State.reset, 7, by decide⟩,
    ⟨State.reset, 7, 4, by decide⟩,
    ⟨State.reset, 7, by decide⟩,
    ⟨State.reset, 7, by decide⟩,
    ⟨State.reset, 7, 1, by decide⟩,
    ⟨plan [kernRec] State.reset, 7, 1, 0, [], by decide⟩,
    ⟨State.reset, 7, false, by decide⟩,
    ⟨State.reset, 7, trivial⟩,
    ⟨tv 7 (fun T => mapLanes T (fun _ L => { L with inFifo := [1, 2, 3, 4] })) State.reset, 7, 3, by decide⟩,
    ⟨State.reset, 7, 3, by decide⟩⟩

theorem witness_LaneMemory :
    (∃ (s : State) (t : Fin 8) (p : Pred) (m : FmtM), (vget s.trav t).kern = none ∧ m.inc.val ≠ 7 ∧ parityHits s t p m 1 = [])
    ∧ (∃ (s : State) (t : Fin 8) (p : Pred) (m : FmtM), (vget s.trav t).kern = none ∧ m.inc.val ≠ 7 ∧ evenReg m.r = true ∧ parityHits s t p m 2 = [])
    ∧ (∃ (s : State) (t : Fin 8) (p : Pred) (m : FmtM), (vget s.trav t).kern = none ∧ m.inc.val ≠ 7 ∧ parityHits s t p m 4 = [])
    ∧ (∃ (s : State) (t : Fin 8) (m : FmtM), (vget s.trav t).kern = none ∧ m.inc.val ≠ 7)
    ∧ (∃ (s : State) (t : Fin 8) (m : FmtM), (vget s.trav t).kern = none ∧ m.inc.val ≠ 7 ∧ evenReg m.r = true)
    ∧ (∃ (s : State) (t : Fin 8) (m : FmtM), (vget s.trav t).kern = none ∧ m.inc.val ≠ 7)
    ∧ (∃ (s : State) (t : Fin 8) (i : FmtI), issues s t 1 ∧ i.fn.val = 0)
    ∧ (∃ (s : State) (t : Fin 8) (i : FmtI), issues s t 1 ∧ i.fn.val = 1 ∧ evenReg i.ra = true)
    ∧ (∃ (s : State) (t : Fin 8), issues s t 1)
    ∧ (∃ (s : State) (t : Fin 8) (p : Pred) (m : FmtM) (kr : KernRun) (i : Fin 64), (vget s.trav t).kern = some kr ∧ issues s t 1 ∧ m.inc.val ≠ 7 ∧ laneExecs s t p i.val (lane s t i) = true ∧ windowOk (kernWindows s kr.k) true (memSpan (memAddr (lane s t i) m) 1) = false) :=
  ⟨⟨State.reset, 7, p0, m0, by decide⟩,
    ⟨State.reset, 7, p0, m0, by decide⟩,
    ⟨State.reset, 7, p0, m0, by decide⟩,
    ⟨State.reset, 7, m0, by decide⟩,
    ⟨State.reset, 7, m0, by decide⟩,
    ⟨State.reset, 7, m0, by decide⟩,
    ⟨State.reset, 7, i0, ⟨trivial, by decide⟩⟩,
    ⟨State.reset, 7, { i0 with fn := 1 }, ⟨trivial, by decide⟩⟩,
    ⟨State.reset, 7, trivial⟩,
    ⟨inKern 7 State.reset, 7, p0, m0, kernRun0, 3, ⟨rfl, ⟨rfl, kernCfg0, by decide, by decide⟩, by decide⟩⟩⟩

theorem witness_LaneAccumulators :
    (∃ (s : State) (t : Fin 8) (r : FmtR), issues s t 1 ∧ (vget s.trav t).gang = false ∧ r.fn.val ≤ 2)
    ∧ (∃ (s : State) (t : Fin 8) (r : FmtR), issues s t 1 ∧ (vget s.trav t).gang = false ∧ r.fn.val = 0 ∧ evenReg r.ra = true ∧ evenReg r.rb = true)
    ∧ (∃ (s : State) (t : Fin 8) (r : FmtR), issues s t 1 ∧ (vget s.trav t).gang = false ∧ r.fn.val = 0 ∧ evenReg r.ra = true ∧ evenReg r.rb = true)
    ∧ (∃ (s : State) (t : Fin 8) (r : FmtR), issues s t 1 ∧ r.fn.val ≤ 5 ∧ ((r.fn.val = 4 → evenReg r.ra = true)))
    ∧ (∃ (s : State) (t : Fin 8) (r : FmtR), issues s t 1 ∧ r.fn.val = 0)
    ∧ (∃ (s : State) (t : Fin 8) (r : FmtR), issues s t 1 ∧ r.fn.val = 1 ∧ evenReg r.rd = true)
    ∧ (∃ (s : State) (t : Fin 8) (r : FmtR), issues s t 1 ∧ r.fn.val ≤ 3)
    ∧ (∃ (s : State) (t : Fin 8) (r : FmtR), issues s t 1 ∧ (vget s.trav t).gang = true ∧ r.fn.val ≤ 1 ∧ evenReg r.ra = true ∧ evenReg r.rb = true) :=
  ⟨⟨State.reset, 7, r0, ⟨trivial, by decide⟩⟩,
    ⟨State.reset, 7, r0, ⟨trivial, by decide⟩⟩,
    ⟨State.reset, 7, r0, ⟨trivial, by decide⟩⟩,
    ⟨State.reset, 7, { r0 with fn := 4 }, ⟨trivial, by decide⟩⟩,
    ⟨State.reset, 7, r0, ⟨trivial, by decide⟩⟩,
    ⟨State.reset, 7, { r0 with fn := 1 }, ⟨trivial, by decide⟩⟩,
    ⟨State.reset, 7, { r0 with fn := 3 }, ⟨trivial, by decide⟩⟩,
    ⟨tv 7 (fun T => { T with gang := true }) State.reset, 7, { r0 with fn := 1 }, ⟨trivial, by decide⟩⟩⟩

theorem witness_LaneCordicUnit :
    (∃ (s : State) (t : Fin 8) (r : FmtR), issues s t 1 ∧ r.fn.val = 0 ∧ evenReg r.ra = true ∧ evenReg r.rb = true)
    ∧ (∃ (s : State) (t : Fin 8) (r : FmtR), issues s t 1 ∧ evenReg r.rd = true ∧ evenReg r.ra = true ∧ evenReg r.rb = true)
    ∧ (∃ (s : State) (t : Fin 8) (r : FmtR), issues s t 1 ∧ evenReg r.ra = true ∧ evenReg r.rb = true)
    ∧ (∃ (s : State) (t : Fin 8) (r : FmtR), issues s t 1 ∧ evenReg r.rd = true)
    ∧ (∃ (s : State) (t : Fin 8) (r : FmtR), issues s t 1 ∧ evenReg r.ra = true ∧ evenReg r.rb = true)
    ∧ (∃ (s : State) (t : Fin 8), issues s t 1)
    ∧ (∃ (s : State) (t : Fin 8), issues s t 1)
    ∧ (∃ (s : State) (t : Fin 8), issues s t 1)
    ∧ (∃ (s : State) (t : Fin 8) (r : FmtR), issues s t 21 ∧ r.fn.val = 0 ∧ evenReg r.rd = true)
    ∧ (∃ (s : State) (t : Fin 8) (r : FmtR), issues s t 1 ∧ r.fn.val ≤ 4 ∧ evenReg r.rd = true ∧ evenReg r.ra = true)
    ∧ (∃ (s : State) (t : Fin 8) (r : FmtR), issues s t 1 ∧ r.fn.val ≤ 4 ∧ evenReg r.rd = true ∧ evenReg r.ra = true) :=
  ⟨⟨State.reset, 7, r0, ⟨trivial, by decide⟩⟩,
    ⟨State.reset, 7, r0, ⟨trivial, by decide⟩⟩,
    ⟨State.reset, 7, r0, ⟨trivial, by decide⟩⟩,
    ⟨State.reset, 7, r0, ⟨trivial, by decide⟩⟩,
    ⟨State.reset, 7, r0, ⟨trivial, by decide⟩⟩,
    ⟨State.reset, 7, trivial⟩,
    ⟨State.reset, 7, trivial⟩,
    ⟨State.reset, 7, trivial⟩,
    ⟨State.reset, 7, r0, ⟨trivial, by decide⟩⟩,
    ⟨State.reset, 7, { r0 with fn := 4 }, ⟨trivial, by decide⟩⟩,
    ⟨State.reset, 7, { r0 with fn := 4 }, ⟨trivial, by decide⟩⟩⟩

theorem witness_LanePorts :
    (∃ (s : State) (t : Fin 8) (p : Pred), (vget s.trav t).kern = none ∧ fifoReady s t p 1 = true)
    ∧ (∃ (s : State) (t : Fin 8) (p : Pred) (r : Fin 32), (vget s.trav t).kern = none ∧ evenReg r = true ∧ fifoReady s t p 2 = true)
    ∧ (∃ (s : State) (t : Fin 8) (p : Pred), (vget s.trav t).kern = none ∧ fifoReady s t p 1 = false)
    ∧ (∃ (s : State) (t : Fin 8) (f : FmtP), (vget s.trav t).kern = none ∧ evenReg f.ra = true)
    ∧ (∃ (s : State) (t : Fin 8) (f : FmtP), (vget s.trav t).kern = none ∧ evenReg f.ra = true ∧ f.n.val + 1 + f.r.val ≤ 32)
    ∧ (∃ (s : State) (t : Fin 8) (r : Fin 32) (ra : Fin 32), (vget s.trav t).kern = none ∧ evenReg r = true ∧ evenReg ra = true)
    ∧ (∃ (s : State) (t : Fin 8) (r : Fin 32) (ra : Fin 32), (vget s.trav t).kern = none ∧ evenReg r = true ∧ evenReg ra = true)
    ∧ (∃ (s : State) (t : Fin 8) (o : FmtO) (kr : KernRun), (vget s.trav t).kern = some kr ∧ issues s t 1 ∧ (vget s.trav t).rep = none ∧ outLegal s t o = true)
    ∧ (∃ (s : State) (t : Fin 8) (r : FmtR), (vget s.trav t).kern = none ∧ r.fn.val ≤ 1 ∧ evenReg r.rd = true ∧ evenReg r.ra = true) :=
  ⟨⟨tv 7 (fun T => mapLanes T (fun _ L => { L with inFifo := [1, 2, 3, 4] })) State.reset, 7, p0, by decide⟩,
    ⟨tv 7 (fun T => mapLanes T (fun _ L => { L with inFifo := [1, 2, 3, 4] })) State.reset, 7, p0, 4, by decide⟩,
    ⟨State.reset, 7, p0, by decide⟩,
    ⟨State.reset, 7, { r := 2, ra := 4, n := 3, region := 1 }, by decide⟩,
    ⟨State.reset, 7, { r := 2, ra := 4, n := 3, region := 1 }, by decide⟩,
    ⟨State.reset, 7, 4, 4, by decide⟩,
    ⟨State.reset, 7, 4, 4, by decide⟩,
    ⟨inKern 7 State.reset, 7, { rs := 2, n := 1, rf := 3, code := 64 }, kernRun0, ⟨by decide, ⟨rfl, kernCfg0, by decide, by decide⟩, by decide⟩⟩,
    ⟨State.reset, 7, { r0 with fn := 1 }, by decide⟩⟩

theorem witness_LaneIllegal :
    (∃ (s : State) (t : Fin 8) (r : FmtR), (vget s.trav t).kern = none ∧ ((r.fn.val = 12 ∨ 14 ≤ r.fn.val)))
    ∧ (∃ (s : State) (t : Fin 8), (vget s.trav t).kern = none ∧ (vget s.trav t).gang = true)
    ∧ (∃ (s : State) (t : Fin 8) (m : FmtM), (vget s.trav t).kern = none ∧ m.inc.val = 7)
    ∧ (∃ (s : State) (t : Fin 8), (vget s.trav t).kern = none)
    ∧ (∃ (s : State) (t : Fin 8) (r : FmtR) (kr : KernRun), (vget s.trav t).kern = some kr ∧ ((r.fn.val = 12 ∨ 14 ≤ r.fn.val)))
    ∧ (∃ (s : State) (t : Fin 8) (kr : KernRun) (k : KernCfg), (vget s.trav t).kern = some kr ∧ kernAt s kr.k = some k ∧ kr.rest = [] ∧ k.maxCycles ≤ kr.cyc)
    ∧ (∃ (s : State) (t : Fin 8) (kr : KernRun), (vget s.trav t).kern = some kr) :=
  ⟨⟨State.reset, 7, { r0 with fn := 12 }, by decide⟩,
    ⟨tv 7 (fun T => { T with gang := true }) State.reset, 7, by decide⟩,
    ⟨State.reset, 7, { m0 with inc := 7 }, by decide⟩,
    ⟨State.reset, 7, by decide⟩,
    ⟨inKern 7 State.reset, 7, { r0 with fn := 14 }, kernRun0, by decide⟩,
    ⟨spent 7 State.reset, 7, { kernRun0 with cyc := 100 }, kernCfg0, by decide⟩,
    ⟨inKern 7 State.reset, 7, kernRun0, by decide⟩⟩

theorem witness_Streams :
    (∃ (s : State) (n : Fin 256) (c : StreamCfg) (l : Fin 2), streamAt s n.val = some c ∧ l.val = c.line ∧ streamShed s c = false ∧ inStandby s = false ∧ (strm s n.val).lastIn = none)
    ∧ (∃ (s : State) (n : Fin 256) (c : StreamCfg), streamAt s n.val = some c ∧ streamShed s c = true)
    ∧ (∃ (s : State) (n : Fin 256) (d : Fin 4) (c : StreamCfg), streamAt s n.val = some c ∧ (vget (strm s c.n).det d).sec < stampNow s / secU)
    ∧ (∃ (s : State) (n : Fin 256) (c : StreamCfg), streamAt s n.val = some c ∧ (strm s n.val).syncs.length < 4 ∧ (strm s n.val).lastIn = none)
    ∧ (∃ (s : State) (n : Fin 256) (c : StreamCfg), streamAt s n.val = some c ∧ 4 ≤ (strm s n.val).syncs.length)
    ∧ (∃ (s : State) (c : StreamCfg), (allStreams s).filter (fun x => x.syncPin) = [c] ∧ streamAt s c.n = some c ∧ (strm s c.n).syncs.length < 4 ∧ (strm s c.n).lastIn = none)
    ∧ (∃ (s : State) (n : Fin 256) (c : StreamCfg), streamAt s n.val = some c)
    ∧ (∃ (s : State) (n : Fin 256) (c : StreamCfg), streamAt s n.val = some c ∧ c.t ≠ 0)
    ∧ (∃ (s : State) (n : Fin 256) (c : StreamCfg), streamAt s n.val = some c ∧ getF s (stCoefSelIndex n.val) < c.t ∧ bankIdle (strm s n.val) (getF s (stCoefSelBank n.val)) = true)
    ∧ (∃ (s : State) (n : Fin 256) (c : StreamCfg), streamAt s n.val = some c ∧ getF s (stCoefSelIndex n.val) < c.t ∧ bankIdle (strm s n.val) (getF s (stCoefSelBank n.val)) = false) :=
  ⟨⟨streamed 4 State.reset, 5, streamCfg 4, 0, by decide⟩,
    ⟨bk (fun b => { b with shed := [(0, 0x010)] }) (streamed 4 State.reset), 5, streamCfg 4, by decide⟩,
    ⟨at_ secU (streamed 4 State.reset), 5, 3, streamCfg 4, by decide⟩,
    ⟨streamed 4 State.reset, 5, streamCfg 4, by decide⟩,
    ⟨st 5 (fun x => { x with syncs := [(1, false), (2, false), (3, true), (4, false)] }) (streamed 4 State.reset), 5, streamCfg 4, by decide⟩,
    ⟨streamed 4 State.reset, streamCfg 4, by decide⟩,
    ⟨streamed 4 State.reset, 5, streamCfg 4, by decide⟩,
    ⟨streamed 4 State.reset, 5, streamCfg 4, by decide⟩,
    ⟨setF (setF (streamed 4 State.reset) (stCoefSelIndex 5) 3) (stCoefSelBank 5) 1, 5, streamCfg 4, by decide⟩,
    ⟨setF (setF (streamed 4 State.reset) (stCoefSelIndex 5) 3) (stCoefSelBank 5) 0, 5, streamCfg 4, by decide⟩⟩

theorem witness_CodingAndReplay :
    (∃ (s : State) (j : CodeJob) (rest : List CodeJob), s.code.jobs = j :: rest ∧ j.ring = false)
    ∧ (∃ (s : State) (j : CodeJob) (rest : List CodeJob), s.code.jobs = j :: rest ∧ j.ring = true)
    ∧ (∃ (s : State) (e : RingEntry) (rest : List RingEntry), s.code.c2 = e :: rest ∧ dramStopped s = false ∧ ringOn s = true ∧ s.code.pos + e.len ≤ s.code.u * 32768)
    ∧ (∃ (s : State) (n : Fin 256) (g : GapSt), tabFind s.code.gaps n.val = some g ∧ g.at_ + secU ≤ elapsed s ∧ c2Room s 1 = true)
    ∧ (∃ (s : State) (c : Fin 16), ringOn s = true ∧ (vget s.code.cur c).seek = none)
    ∧ (∃ (s : State) (c : Fin 16), (vget s.code.cur c).seek = none)
    ∧ (∃ (s : State), ringOn s = true)
    ∧ (∃ (s : State), ringOn s = true)
    ∧ (∃ (s : State), ringOn s = true)
    ∧ (∃ (s : State) (c : Fin 16) (k : Nat) (v : Nat), (vget s.code.cur c).seek = some (k, v) ∧ dramStopped s = false)
    ∧ (∃ (s : State) (c : Fin 16), (vget s.code.cur c).run = true ∧ (vget s.code.cur c).seek = none ∧ dramStopped s = false ∧ ringOn s = true ∧ (vget s.code.cur c).next ≤ elapsed s ∧ curLinkOk s c = false)
    ∧ (∃ (s : State) (c : Fin 16), (vget s.code.cur c).run = true ∧ (vget s.code.cur c).seek = none ∧ dramStopped s = false ∧ ringOn s = true ∧ (vget s.code.cur c).next ≤ elapsed s ∧ curLinkOk s c = true ∧ getF s (bcCurCtrlMode c.val) = 1 ∧ s.code.ring = [])
    ∧ (∃ (s : State) (c : Fin 16) (e : RingEntry) (rest : List RingEntry), (vget s.code.cur c).run = true ∧ (vget s.code.cur c).seek = none ∧ dramStopped s = false ∧ ringOn s = true ∧ (vget s.code.cur c).next ≤ elapsed s ∧ curLinkOk s c = true ∧ getF s (bcCurCtrlMode c.val) = 1 ∧ s.code.ring.filter (fun e => !(serialBefore e.serial (vget s.code.cur c).pos) && curAdmits s c e) = e :: rest ∧ ((e.ty = 2 ∨ linkHas s (curLink s c) 0 = true)) ∧ outFill (vget s.net.links (curLink s c)) + frameBytes (replayFrame s c e) ≤ 4194304 - 65536) :=
  ⟨⟨cd (fun c => { c with jobs := [job0 false] }) (streamed 0 State.reset), job0 false, [], by decide⟩,
    ⟨cd (fun c => { c with jobs := [job0 true] }) (ringed State.reset), job0 true, [], by decide⟩,
    ⟨cd (fun c => { c with c2 := [entry0], pos := 16 * 32768 - 1 }) (ringed State.reset), entry0, [], by decide⟩,
    ⟨later secU (cd (fun c => { c with gaps := [(5, { n := 5, seq := 1, sw := 5, stamp := 0, at_ := 0 })] }) (ringed State.reset)), 5, { n := 5, seq := 1, sw := 5, stamp := 0, at_ := 0 }, by decide⟩,
    ⟨ringed State.reset, 15, by decide⟩,
    ⟨State.reset, 15, by decide⟩,
    ⟨ringed State.reset, by decide⟩,
    ⟨ringed State.reset, by decide⟩,
    ⟨ringed State.reset, by decide⟩,
    ⟨cu 15 (fun x => { x with seek := some (2, 1) }) (ringed State.reset), 15, 2, 1, by decide⟩,
    ⟨cu 15 (fun x => { x with run := true }) (ringed State.reset), 15, by decide⟩,
    ⟨setF (setF ((bulkUp 1 (cu 15 (fun x => { x with run := true }) (ringed State.reset)))) (bcCurCtrlDest 15) 1) (bcCurCtrlMode 15) 1, 15, by decide⟩,
    ⟨setF (setF (setF ((bulkUp 1 (cd (fun c => { c with ring := [entry0] }) (cu 15 (fun x => { x with run := true }) (ringed State.reset))))) (bcCurCtrlDest 15) 1) (bcCurCtrlMode 15) 1) (bcCurCtrlAll 15) 1, 15, entry0, [], by decide⟩⟩

theorem witness_Zones :
    (∃ (s : State) (z : Fin 4096), (zoneCfg s z.val).isSome = true ∧ s.zn.selected = false)
    ∧ (∃ (s : State) (z : Fin 4096), (zoneCfg s z.val).isSome = true ∧ s.zn.selected = true ∧ s.zn.forcing = false)
    ∧ (∃ (s : State) (z : Fin 4096), (zoneCfg s z.val).isSome = true ∧ s.zn.selected = true ∧ s.zn.forcing = true)
    ∧ (∃ (s : State), s.zn.selected = true ∧ s.zn.forcing = false)
    ∧ (∃ (s : State) (n : Fin 4), vget s.zn.pins n = true ∧ pinWanted s n.val = false ∧ vget s.zn.pinAt n + pinStretch s n.val * msU ≤ elapsed s)
    ∧ (∃ (s : State) (z : Fin 4096) (c : ZoneCfg), zoneCfg s z.val = some c ∧ (zoneAt s z.val).lastEval + c.staleMs * msU ≤ elapsed s)
    ∧ (∃ (s : State) (c : ZoneCfg), zoneCfg s (getF s znSelZone) = some c ∧ c.latch = true)
    ∧ (∃ (s : State) (l : Fin 2), s.keeper.mbx = [] ∧ keeperRuns s = true ∧ lineSensing s l.val = false)
    ∧ (∃ (s : State) (l : Fin 2), s.keeper.mbx = [] ∧ keeperRuns s = true ∧ lineSensing s l.val = true ∧ (vget s.zn.shotSince l).isSome = true ∧ ((zoneSlices s l.val).all (fun t => (vget s.zn.evalSince l).contains t)) = true) :=
  ⟨⟨zoned State.reset, 7, by decide⟩,
    ⟨zq (fun n => { n with selected := true }) (zoned State.reset), 7, by decide⟩,
    ⟨zq (fun n => { n with selected := true, forcing := true }) (zoned State.reset), 7, by decide⟩,
    ⟨zq (fun n => { n with selected := true }) State.reset, by decide⟩,
    ⟨ph 11 (zq (fun n => { n with pins := vset n.pins 3 true }) (zoned State.reset)), 3, by decide⟩,
    ⟨later msU (zoned State.reset), 7, zoneOfPayload (zoneRec 7).payload, by decide⟩,
    ⟨setF (zoned State.reset) znSelZone 7, zoneOfPayload (zoneRec 7).payload, by decide⟩,
    ⟨State.reset, 1, by decide⟩,
    ⟨kp (fun k => { k with scsLock := true }) (setF (zq (fun n => { n with shotSince := vset n.shotSince 1 (some 5) }) (zoned State.reset)) (psStatusArmed 1) 1), 1, by decide⟩⟩

theorem witness_Loops :
    (∃ (s : State) (n : Fin 8) (at_ : Nat), (vget s.zn.loops n).since = some at_ ∧ at_ + (loopCfg s n.val).faultMs * msU ≤ elapsed s ∧ (vget s.zn.loops n).st ≠ .fault)
    ∧ (∃ (s : State) (n : Fin 8), s.keeper.mbx = [] ∧ keeperRuns s = true ∧ loopCauses s n ≠ 0)
    ∧ (∃ (s : State) (n : Fin 8), s.keeper.mbx = [] ∧ keeperRuns s = true ∧ loopCauses s n = 0 ∧ (vget s.zn.loops n).st = .fault)
    ∧ (∃ (s : State) (n : Fin 8) (at_ : Nat), (loopCfg s n.val).manual = false ∧ (vget s.zn.loops n).clearAt = some at_ ∧ at_ + (loopCfg s n.val).releaseMs * msU ≤ elapsed s ∧ loopCauses s n = 0 ∧ (vget s.zn.loops n).st = .fault)
    ∧ (∃ (s : State) (n : Fin 8), (loopCfg s n.val).manual = true ∧ loopCauses s n = 0 ∧ (vget s.zn.loops n).st = .fault)
    ∧ (∃ (s : State) (n : Fin 8), (loopCfg s n.val).manual = false)
    ∧ (∃ (s : State) (n : Fin 8), getF s (hkLoopStatusOpen n.val) = 0) :=
  ⟨⟨later msU (lo 7 (fun x => { x with since := some 0, st := .normal }) (plan [loopRec 7 0] State.reset)), 7, 0, by decide⟩,
    ⟨State.reset, 7, by decide⟩,
    ⟨okLoop .fault (loopRec 7 0) State.reset, 7, by decide⟩,
    ⟨later msU (lo 7 (fun x => { x with clearAt := some 0 }) (okLoop .fault (loopRec 7 0) State.reset)), 7, 0, by decide⟩,
    ⟨okLoop .fault (loopRec 7 1) State.reset, 7, by decide⟩,
    ⟨plan [loopRec 7 0] State.reset, 7, by decide⟩,
    ⟨State.reset, 7, by decide⟩⟩

theorem witness_Housekeeping :
    (∃ (s : State) (n : Fin 4) (d : Int), s.hk.m0 = n.val ∧ rtdOn s n.val = true ∧ (vget s.hk.rtd n).open_ = false ∧ 8388607 ≤ d.natAbs)
    ∧ (∃ (s : State) (n : Fin 4) (d : Int), s.hk.m0 = n.val ∧ rtdOn s n.val = true ∧ (vget s.hk.rtd n).open_ = false ∧ d.natAbs < 8388607 ∧ rtdThree s n.val = true ∧ s.hk.orientB = false)
    ∧ (∃ (s : State) (d : Int), s.hk.m0 = 4 ∧ d.natAbs < 8388607)
    ∧ (∃ (s : State), s.hk.m1Busy = false)
    ∧ (∃ (s : State), s.hk.m1Busy = true)
    ∧ (∃ (s : State) (ch : Fin 32), s.hk.m1Busy = true ∧ s.hk.m1Ch = ch.val ∧ 5 ≤ ch.val ∧ ch.val < 13)
    ∧ (∃ (s : State) (ch : Fin 32), 5 ≤ ch.val ∧ s.hk.m1Busy = true ∧ s.hk.urgent.length < 4 ∧ ch.val ∉ s.hk.urgent)
    ∧ (∃ (s : State) (ch : Fin 32), 5 ≤ ch.val ∧ ((4 ≤ s.hk.urgent.length ∨ ch.val ∈ s.hk.urgent)))
    ∧ (∃ (s : State), s.time.freqRef ≠ 3)
    ∧ (∃ (s : State), s.time.freqRef = 3)
    ∧ (∃ (s : State), s.hk.m1Ext = true)
    ∧ (∃ (s : State) (n : Fin 4), rtdOn s n.val = true)
    ∧ (∃ (s : State) (n : Fin 4) (b : BitVec 4), rtdOn s n.val = true ∧ b ≠ 0 ∧ (vget s.hk.rtd n).open_ = false)
    ∧ (∃ (s : State) (n : Fin 4), (vget s.hk.rtd n).open_ = true ∧ 64 ≤ (vget s.hk.rtd n).clean) :=
  ⟨⟨hq (fun h => { h with m0 := 3 }) (plan [rtdRec 3 1] State.reset), 3, -8388607, by decide⟩,
    ⟨hq (fun h => { h with m0 := 3 }) (plan [rtdRec 3 1] State.reset), 3, 8388606, by decide⟩,
    ⟨hq (fun h => { h with m0 := 4 }) State.reset, -8388606, by decide⟩,
    ⟨State.reset, by decide⟩,
    ⟨hq (fun h => { h with m1Busy := true }) State.reset, by decide⟩,
    ⟨hq (fun h => { h with m1Busy := true, m1Ch := 12 }) State.reset, 12, by decide⟩,
    ⟨hq (fun h => { h with m1Busy := true, urgent := [5, 6, 7] }) State.reset, 31, by decide⟩,
    ⟨hq (fun h => { h with urgent := [5, 6, 7, 8] }) State.reset, 31, by decide⟩,
    ⟨tm (fun t => { t with freqRef := 0 }) State.reset, by decide⟩,
    ⟨tm (fun t => { t with freqRef := 3 }) State.reset, by decide⟩,
    ⟨hq (fun h => { h with m1Ext := true }) State.reset, by decide⟩,
    ⟨plan [rtdRec 3 0] State.reset, 3, by decide⟩,
    ⟨plan [rtdRec 3 0] State.reset, 3, 15, by decide⟩,
    ⟨rd 3 (fun r => { r with open_ := true, clean := 64 }) State.reset, 3, by decide⟩⟩

theorem witness_DeviceTime :
    (∃ (s : State) (e : Int), (timeCfg s).source ≠ 0 ∧ e.natAbs ≤ (timeCfg s).stepNs * nsU)
    ∧ (∃ (s : State) (e : Int), (timeCfg s).source ≠ 0 ∧ (timeCfg s).stepNs * nsU < e.natAbs)
    ∧ (∃ (s : State), (timeCfg s).source = 0)
    ∧ (∃ (s : State), s.keeper.warm = false ∧ permits s 9 = true ∧ (((timeCfg s).source = 0 ∨ (timeCfg s).source = 1)))
    ∧ (∃ (s : State), (timeCfg s).source = 2)
    ∧ (∃ (s : State), s.keeper.warm = false ∧ permits s 9 = true ∧ (timeCfg s).source = 1)
    ∧ (∃ (s : State), (timeCfg s).source ≠ 1)
    ∧ (∃ (s : State), s.keeper.warm = false ∧ permits s 9 = true ∧ (timeCfg s).source = 2)
    ∧ (∃ (s : State), (timeCfg s).source = 1 ∧ s.time.trackAt + (timeCfg s).hostHold * secU ≤ elapsed s ∧ s.time.holdover = false)
    ∧ (∃ (s : State), s.time.ppsPresent = true ∧ ((∀ p, s.time.ppsPrev = some p → p + 11 * secU / 10 ≤ stampNow s)))
    ∧ (∃ (s : State), s.time.freqRef ≠ 3 ∧ s.time.ppsPrev = none)
    ∧ (∃ (s : State) (ta : Nat) (d : Int), s.time.adjusts = [(ta, d)] ∧ ta ≤ stampNow s)
    ∧ (∃ (s : State), s.time.ppsDone < (stampNow s - (timeCfg s).outOffset * nsU) / secU) :=
  ⟨⟨plan [timeRec 1] State.reset, -1048576000, by decide⟩,
    ⟨plan [timeRec 1] State.reset, -1048576001, by decide⟩,
    ⟨State.reset, by decide⟩,
    ⟨plan [timeRec 1, permit 9] State.reset, by decide⟩,
    ⟨plan [timeRec 2] State.reset, by decide⟩,
    ⟨plan [timeRec 1, permit 9] State.reset, by decide⟩,
    ⟨plan [timeRec 2] State.reset, by decide⟩,
    ⟨plan [timeRec 2, permit 9] State.reset, by decide⟩,
    ⟨later (60 * secU) (plan [timeRec 1] State.reset), by decide⟩,
    ⟨at_ (11 * secU / 10) (tm (fun t => { t with ppsPresent := true, ppsPrev := some 0 }) State.reset), by decide⟩,
    ⟨tm (fun t => { t with freqRef := 0, ppsPrev := none }) State.reset, by decide⟩,
    ⟨tm (fun t => { t with adjusts := [(0, -5)] }) State.reset, 0, -5, by decide⟩,
    ⟨at_ secU (plan [timeRec 0] State.reset), by decide⟩⟩

theorem witness_TimeReferences :
    (∃ (s : State), refBest s = 3 ∧ s.time.freqRef ≠ 3)
    ∧ (∃ (s : State), refBest s ≠ 3) :=
  ⟨⟨kp (fun k => { k with refPresent := false }) (tm (fun t => { t with freqRef := 1 }) State.reset), by decide⟩,
    ⟨kp (fun k => { k with altPresent := true }) State.reset, by decide⟩⟩

theorem witness_TdcCommandEffects :
    (∃ (s : State), s.time.freqRef = 3)
    ∧ (∃ (s : State) (c : Fin 9) (k : TdcCfg), s.time.freqRef ≠ 3 ∧ c.val < 8 ∧ tdcCfg s c = some k ∧ k.edge = 0 ∧ k.gateMode = 0 ∧ (vget s.time.ch c).lastEdge = none ∧ (vget s.time.ch c).cal = none)
    ∧ (∃ (s : State) (c : Fin 9) (q : Nat) (f : Nat) (k : TdcCfg) (p : Nat), s.time.freqRef ≠ 3 ∧ c.val < 8 ∧ tdcCfg s c = some k ∧ k.edge = 0 ∧ k.gateMode = 0 ∧ (vget s.time.ch c).lastEdge = some p ∧ p ≤ edgeStamp s c q f ∧ edgeStamp s c q f < p + 8 * nsU)
    ∧ (∃ (s : State) (c : Fin 9) (k : TdcCfg), tdcCfg s c = some k ∧ k.gateMode = 3)
    ∧ (∃ (s : State) (c : Fin 9) (e : TdcEntry) (rest : List TdcEntry), ((tdcCfg s c).bind tdcLink) = none ∧ (vget s.time.ch c).q = e :: rest)
    ∧ (∃ (s : State) (c : Fin 9), (vget s.time.ch c).q = [])
    ∧ (∃ (s : State) (c : Fin 9) (k : TdcCfg) (l : Fin 3) (e : TdcEntry) (rest : List TdcEntry), tdcCfg s c = some k ∧ tdcLink k = some l ∧ (vget s.time.ch c).q = e :: rest ∧ e.at_ + k.flushUs * usU ≤ elapsed s ∧ linkHas s l 12 = true ∧ carriesBulk s l = true ∧ outFill (vget s.net.links l) ≤ 4000000)
    ∧ (∃ (s : State) (g : Fin 4) (k : TdcCfg), tdcCfg s (pairEven g) = some k ∧ ((∀ e, e ∈ (vget s.time.ch (pairEven g)).hold → e.at_ + 20 * nsU ≤ elapsed s)))
    ∧ (∃ (s : State) (g : Fin 4) (k : TdcCfg) (p : TdcHeld), tdcCfg s (pairEven g) = some k ∧ (vget s.time.ch (pairEven g)).pending = some p ∧ p.at_ + k.pairWin * nsU ≤ elapsed s) :=
  ⟨⟨tm (fun t => { t with freqRef := 3 }) State.reset, by decide⟩,
    ⟨tm (fun t => { t with freqRef := 1 }) (plan [tdcRec 7 0 0] State.reset), 7, tdcCfg0 0 0, by decide⟩,
    ⟨closeEdge State.reset, 7, 3, 2, tdcCfg0 0 0, edgeStamp (edged State.reset) 7 3 2, by decide⟩,
    ⟨plan [tdcRec 7 3 0] State.reset, 7, tdcCfg0 3 0, by decide⟩,
    ⟨td 7 (fun x => { x with q := [{ stamp := 1, value := 2, flags := 3, at_ := 4 }] }) (plan [tdcRec 7 0 0] State.reset), 7, { stamp := 1, value := 2, flags := 3, at_ := 4 }, [], by decide⟩,
    ⟨State.reset, 8, by decide⟩,
    ⟨later usU (bulkUp 1 (td 6 (fun x => { x with q := [{ stamp := 1, value := 2, flags := 3, at_ := 0 }] }) (plan [tdcRec 6 0 2] State.reset))), 6, tdcCfg0 0 2, 1, { stamp := 1, value := 2, flags := 3, at_ := 0 }, [], by decide⟩,
    ⟨plan [tdcRec 6 0 0] State.reset, 3, tdcCfg0 0 0, by decide⟩,
    ⟨later (100 * nsU) (td 6 (fun x => { x with pending := some held0 }) (plan [tdcRec 6 0 0] State.reset)), 3, tdcCfg0 0 0, held0, by decide⟩⟩

theorem witness_TdcCalibration :
    (∃ (s : State) (c : Fin 9), (vget s.time.ch c).cal = none ∧ s.time.freqRef ≠ 3)
    ∧ (∃ (s : State) (c : Fin 9) (h : List Nat) (k : TdcCal), (vget s.time.ch c).cal = some k ∧ sumN ((calHist s c k h).take 256) = calHits)
    ∧ (∃ (s : State) (c : Fin 9) (h : List Nat) (k : TdcCal), (vget s.time.ch c).cal = some k ∧ sumN ((calHist s c k h).take 256) ≠ calHits)
    ∧ (∃ (s : State) (c : Fin 9) (k : TdcCal), bitOf (tdcCalCfg s).2.2.1 c.val = true ∧ (vget s.time.ch c).cal = some k ∧ k.at_ + 60 * secU ≤ elapsed s)
    ∧ (∃ (s : State) (c : Fin 9) (at_ : Nat), (vget s.time.ch c).retryAt = some at_ ∧ at_ ≤ elapsed s ∧ (vget s.time.ch c).uncal = true ∧ (vget s.time.ch c).cal = none ∧ s.time.freqRef ≠ 3)
    ∧ (∃ (s : State) (c : Fin 9), tdcPeriodOver s c = true ∧ (vget s.time.ch c).uncal = false ∧ (vget s.time.ch c).retryAt = none ∧ (vget s.time.ch c).cal = none ∧ s.time.freqRef ≠ 3)
    ∧ (∃ (s : State) (l : Fin 2) (c : Fin 9) (win : Nat) (at_ : Nat) (rest : List (Nat × Bool)), ((List.finRange 9).findSome? (fun c => (monitorOf s c).bind (fun m => if m.1 = l then some (c, m.2) else none))) = some (c, win) ∧ vget s.time.shots l = rest ++ [(at_, false)] ∧ at_ + win * nsU ≤ stampNow s)
    ∧ (∃ (s : State) (l : Fin 2) (c : Fin 9) (win : Nat) (at_ : Nat) (rest : List (Nat × Bool)), ((List.finRange 9).findSome? (fun c => (monitorOf s c).bind (fun m => if m.1 = l then some (c, m.2) else none))) = some (c, win) ∧ vget s.time.shots l = rest ++ [(at_, true)] ∧ at_ + win * nsU ≤ stampNow s) :=
  ⟨⟨tm (fun t => { t with freqRef := 0 }) State.reset, 8, by decide⟩,
    ⟨td 8 (fun x => { x with cal := some cal0 }) State.reset, 8, [calHits], cal0, by decide⟩,
    ⟨td 8 (fun x => { x with cal := some cal0 }) State.reset, 8, [1, 2, 3], cal0, by decide⟩,
    ⟨later (60 * secU) (td 7 (fun x => { x with cal := some cal0 }) (plan [R 0x1A2 [0, 0, 0, 128, 0]] State.reset)), 7, cal0, by decide⟩,
    ⟨tm (fun t => { t with freqRef := 0 }) (td 7 (fun x => { x with retryAt := some 0, uncal := true }) State.reset), 7, 0, by decide⟩,
    ⟨tm (fun t => { t with freqRef := 0 }) (later (3600 * secU) (td 7 (fun x => { x with uncal := false }) State.reset)), 7, by decide⟩,
    ⟨at_ (10 * nsU) (tm (fun t => { t with shots := vset t.shots 1 [(0, false)] }) (plan [monRec 1 7, tdcRec 7 0 0] State.reset)), 1, 7, 10, 0, [], by decide⟩,
    ⟨at_ (10 * nsU) (tm (fun t => { t with shots := vset t.shots 1 [(0, true)] }) (plan [monRec 1 7, tdcRec 7 0 0] State.reset)), 1, 7, 10, 0, [], by decide⟩⟩

theorem witness_QuadStates :
    (∃ (s : State) (q : Fin 3), (quadAt s q).st = .detect ∧ (quadCfg s q).isSome = true)
    ∧ (∃ (s : State) (q : Fin 3) (c : QuadCfg) (m : BitVec 4), (quadAt s q).st = .detect ∧ quadCfg s q = some c ∧ m ≠ 0)
    ∧ (∃ (s : State) (q : Fin 3), (quadAt s q).st = .absent)
    ∧ (∃ (s : State) (q : Fin 3), (quadAt s q).st = .train ∧ (quadAt s q).step = 3 ∧ (quadAt s q).rateWait = false)
    ∧ (∃ (s : State) (q : Fin 3), (quadAt s q).st = .blind ∧ (quadCfg s q).isSome = true)
    ∧ (∃ (s : State) (q : Fin 3) (cause : Fin 8), (quadAt s q).st = .active ∧ 1 ≤ cause.val ∧ cause.val < 5 ∧ (quadCfg s q).isSome = true)
    ∧ (∃ (s : State) (q : Fin 3), (quadAt s q).st = .down)
    ∧ (∃ (s : State) (q : Fin 3), (quadCfg s q).isSome = true)
    ∧ (∃ (s : State) (q : Fin 3), (quadAt s q).st = .test ∧ (quadAt s q).partnerFe = true)
    ∧ (∃ (s : State) (q : Fin 3), inStandby s = true ∧ (quadAt s q).st = .idle ∧ (quadCfg s q).isSome = true) :=
  ⟨⟨qd 2 (fun q => { q with st := .detect }) (plan [quadRec 2] State.reset), 2, by decide⟩,
    ⟨qd 2 (fun q => { q with st := .detect }) (plan [quadRec 2] State.reset), 2, quadCfg0 (plan [quadRec 2] State.reset) 2, 8, by decide⟩,
    ⟨qd 2 (fun q => { q with st := .absent }) State.reset, 2, by decide⟩,
    ⟨qd 2 (fun q => { q with st := .train, step := 3 }) State.reset, 2, by decide⟩,
    ⟨qd 2 (fun q => { q with st := .blind }) (plan [quadRec 2] State.reset), 2, by decide⟩,
    ⟨up 2 (plan [quadRec 2] State.reset), 2, 4, by decide⟩,
    ⟨qd 2 (fun q => { q with st := .down }) State.reset, 2, by decide⟩,
    ⟨plan [quadRec 2] State.reset, 2, by decide⟩,
    ⟨qd 2 (fun q => { q with st := .test, partnerFe := true }) State.reset, 2, by decide⟩,
    ⟨stby (plan [quadRec 2] State.reset), 2, by decide⟩⟩

theorem witness_QuadTraining :
    (∃ (s : State) (q : Fin 3) (xs : List Nat) (t : TrainSet) (c : QuadCfg), trainSetOf xs = some t ∧ quadCfg s q = some c ∧ t.inverted = true ∧ (quadAt s q).st = .train)
    ∧ (∃ (s : State) (q : Fin 3) (p : Fin 4) (xs : List Nat) (t : TrainSet) (c : QuadCfg), trainSetOf xs = some t ∧ quadCfg s q = some c ∧ t.inverted = false ∧ t.feReq = false ∧ (quadAt s q).st = .train ∧ bitOf (quadAt s q).attempt p.val = true)
    ∧ (∃ (s : State) (q : Fin 3) (c : QuadCfg) (m : BitVec 4) (r : Nat), quadCfg s q = some c ∧ (quadAt s q).st = .train ∧ (quadAt s q).step = 0 ∧ metStep (quadAt s q) m.toNat ≠ 0 ∧ (quadAt s q).attempt &&& ((quadAt s q).passed ||| metStep (quadAt s q) m.toNat) = (quadAt s q).attempt ∧ (quadAt s q).attempt ≠ 0 ∧ agreedRate (quadAt s q) = some r)
    ∧ (∃ (s : State) (q : Fin 3) (m : BitVec 4), (quadAt s q).st = .train ∧ metStep (quadAt s q) m.toNat ≠ 0 ∧ (quadAt s q).attempt &&& ((quadAt s q).passed ||| metStep (quadAt s q) m.toNat) ≠ (quadAt s q).attempt)
    ∧ (∃ (s : State) (q : Fin 3) (c : QuadCfg) (m : BitVec 4) (w : Nat) (use : Nat), quadCfg s q = some c ∧ (quadAt s q).st = .train ∧ (quadAt s q).step = 2 ∧ metStep (quadAt s q) m.toNat ≠ 0 ∧ (quadAt s q).attempt &&& ((quadAt s q).passed ||| metStep (quadAt s q) m.toNat) = (quadAt s q).attempt ∧ (quadAt s q).attempt ≠ 0 ∧ formWidth ((quadAt s q).attempt &&& (quadAt s q).partnerLocked) c.widthMax = some (w, use))
    ∧ (∃ (s : State) (q : Fin 3) (c : QuadCfg), quadCfg s q = some c ∧ (quadAt s q).st = .train ∧ (quadAt s q).fails = 31 ∧ (quadAt s q).fromDown = false)
    ∧ (∃ (s : State) (q : Fin 3) (c : QuadCfg), quadCfg s q = some c ∧ (quadAt s q).st = .train ∧ (quadAt s q).fails < 31 ∧ (quadAt s q).fromDown = false ∧ (quadAt s q).rateWait = false)
    ∧ (∃ (s : State) (q : Fin 3) (p : Fin 4), (vget (quadAt s q).lanes p).idleRx = true)
    ∧ (∃ (s : State) (q : Fin 3) (p : Fin 4), (vget (quadAt s q).lanes p).idleRx = false ∧ (quadAt s q).st = .active)
    ∧ (∃ (s : State) (q : Fin 3) (p : Fin 4), (vget (quadAt s q).lanes p).los = true)
    ∧ (∃ (s : State) (q : Fin 3), (quadAt s q).st ≠ .test)
    ∧ (∃ (s : State) (q : Fin 3), (quadAt s q).st = .active) :=
  ⟨⟨qd 2 (fun q => { q with st := .train }) (plan [quadRec 2] State.reset), 2, setSyms 0xB5, (trainSetOf (setSyms 0xB5)).getD trainSet0, quadCfg0 (plan [quadRec 2] State.reset) 2, by decide⟩,
    ⟨qd 2 (fun q => { q with st := .train, attempt := 8 }) (plan [quadRec 2] State.reset), 2, 3, setSyms 0x4A, (trainSetOf (setSyms 0x4A)).getD trainSet0, quadCfg0 (plan [quadRec 2] State.reset) 2, by decide⟩,
    ⟨setF (qd 2 (fun q => { q with st := .train, attempt := 15, offer := 15, partnerRates := 5, topRate := 3, partnerLocked := 15, lanes := Vector.replicate 4 { SlLane.zero with runAck := 8, runTs2 := 8, runSent := 16 } }) (plan [quadRec 2] State.reset)) (slQCtrlRateMax 2) 3, 2, { quadCfg0 State.reset 2 with rateMax := 3 }, 15, 2, by decide⟩,
    ⟨setF (qd 2 (fun q => { q with st := .train, attempt := 15, offer := 15, partnerRates := 5, topRate := 3, partnerLocked := 15, lanes := Vector.replicate 4 { SlLane.zero with runAck := 8, runTs2 := 8, runSent := 16 } }) (plan [quadRec 2] State.reset)) (slQCtrlRateMax 2) 3, 2, 8, by decide⟩,
    ⟨setF (qd 2 (fun q => { q with st := .train, step := 2, attempt := 15, offer := 15, partnerRates := 5, topRate := 3, partnerLocked := 15, lanes := Vector.replicate 4 { SlLane.zero with runAck := 8, runTs2 := 8, runSent := 16 } }) (plan [quadRec 2] State.reset)) (slQCtrlRateMax 2) 3, 2, { quadCfg0 State.reset 2 with rateMax := 3 }, 15, 4, 15, by decide⟩,
    ⟨qd 2 (fun q => { q with st := .train, fails := 31 }) (plan [quadRec 2] State.reset), 2, quadCfg0 (plan [quadRec 2] State.reset) 2, by decide⟩,
    ⟨qd 2 (fun q => { q with st := .train, fails := 30 }) (plan [quadRec 2] State.reset), 2, quadCfg0 (plan [quadRec 2] State.reset) 2, by decide⟩,
    ⟨qd 2 (fun q => { q with lanes := vmod q.lanes 3 (fun x => { x with idleRx := true }) }) State.reset, 2, 3, by decide⟩,
    ⟨up 2 State.reset, 2, 3, by decide⟩,
    ⟨qd 2 (fun q => { q with lanes := vmod q.lanes 3 (fun x => { x with los := true }) }) State.reset, 2, 3, by decide⟩,
    ⟨up 2 State.reset, 2, by decide⟩,
    ⟨up 2 State.reset, 2, by decide⟩⟩

theorem witness_LinkFrames :
    (∃ (s : State) (l : Fin 3), linkUp s l = true)
    ∧ (∃ (s : State) (l : Fin 3), linkUp s l = true)
    ∧ (∃ (s : State) (l : Fin 3), linkUp s l = false)
    ∧ (∃ (s : State) (l : Fin 3) (xs : List Nat) (f : Frame), linkUp s l = true ∧ deframe xs = [.good f] ∧ frameOk f = true ∧ bitOf f.flags 0 = false ∧ f.dest ≠ ownAddr s ∧ 4095 ≤ f.hops)
    ∧ (∃ (s : State) (l : Fin 3) (xs : List Nat) (f : Frame), linkUp s l = true ∧ deframe xs = [.good f] ∧ frameOk f = true ∧ bitOf f.flags 0 = false ∧ f.dest ≠ ownAddr s ∧ f.hops < 4095 ∧ routeOf (noteRx s l f) false f = none)
    ∧ (∃ (s : State) (l : Fin 3) (xs : List Nat) (f : Frame) (out : Fin 3) (g : Frame), linkUp s l = true ∧ deframe xs = [.good f] ∧ frameOk f = true ∧ bitOf f.flags 0 = false ∧ f.dest ≠ ownAddr s ∧ f.hops < 4095 ∧ routeOf (noteRx s l f) false f = some (out, g) ∧ frameClass g = 2)
    ∧ (∃ (s : State) (l : Fin 3) (xs : List Nat) (f : Frame) (out : Fin 3) (g : Frame), linkUp s l = true ∧ deframe xs = [.good f] ∧ frameOk f = true ∧ bitOf f.flags 0 = false ∧ f.dest ≠ ownAddr s ∧ f.hops < 4095 ∧ routeOf (noteRx s l f) false f = some (out, g) ∧ frameClass g = 1)
    ∧ (∃ (s : State) (l : Fin 3) (xs : List Nat) (f : Frame), linkUp s l = true ∧ deframe xs = [.good f] ∧ frameOk f = true ∧ bitOf f.flags 0 = false ∧ f.dest = ownAddr s)
    ∧ (∃ (s : State) (l : Fin 3) (xs : List Nat) (f : Frame) (t0 : Nat), linkUp s l = true ∧ deframe xs = [.good f] ∧ frameOk f = true ∧ bitOf f.flags 0 = true ∧ (f.src, f.tag, t0) ∈ s.net.dups ∧ elapsed s < t0 + 100 * msU)
    ∧ (∃ (s : State) (l : Fin 3) (xs : List Nat), linkUp s l = true ∧ deframe xs = [.bad])
    ∧ (∃ (s : State) (l : Fin 3) (tag : Nat) (src : Nat) (ws : List Word), linkUp s l = true ∧ frameOk (rxFrame s 0x10A src tag ws) = true ∧ linkHas s l 11 = false)
    ∧ (∃ (s : State) (l : Fin 3) (tag : Nat) (src : Nat) (ws : List Word) (f : Frame), linkUp s l = true ∧ frameOk (rxFrame s 0x10A src tag ws) = true ∧ linkHas s l 11 = true ∧ 23 ≤ ws.length ∧ f = frameOf ((ws.drop 11).take 12) (ws.drop 23) ∧ frameClass f = 0 ∧ frameOk f = true ∧ bitsOf (wAt ((ws.drop 11).take 12) 5 2) 16 0 = f.payload.length ∧ s.net.timed.length < 16 ∧ stampNow s < ofTime110 (wAt ws 0 11))
    ∧ (∃ (s : State) (at_ : Nat) (f : Frame), s.net.timed = [(at_, f)] ∧ at_ ≤ stampNow s)
    ∧ (∃ (s : State) (at_ : Nat) (f : Frame), s.net.timed = [(at_, f)] ∧ stampNow s < at_) :=
  ⟨⟨up 2 State.reset, 2, by decide⟩,
    ⟨up 2 State.reset, 2, by decide⟩,
    ⟨State.reset, 2, by decide⟩,
    ⟨up 2 State.reset, 2, frameSyms (frame0 7 0 4095 2), frame0 7 0 4095 2, by decide⟩,
    ⟨up 2 State.reset, 2, frameSyms (frame0 7 0 4094 2), frame0 7 0 4094 2, by decide⟩,
    ⟨bulkUp 2 (up 1 State.reset), 1, frameSyms bulk0, bulk0, 2, bulk0, by decide⟩,
    ⟨bulkUp 2 (up 1 State.reset), 1, frameSyms (frame0 7 0 0 2), frame0 7 0 0 2, 2, frame0 7 0 0 2, by decide⟩,
    ⟨up 2 State.reset, 2, frameSyms (frame0 0 0 0 2), frame0 0 0 0 2, by decide⟩,
    ⟨nt (fun n => { n with dups := [(9, 3, elapsed (up 2 State.reset))] }) (up 2 State.reset), 2, frameSyms (frame0 0xFFF 1 0 2), frame0 0xFFF 1 0 2, elapsed (up 2 State.reset), by decide⟩,
    ⟨up 2 State.reset, 2, [symSof], by decide⟩,
    ⟨up 2 State.reset, 2, 3, 9, [], by decide⟩,
    ⟨bulkUp 2 State.reset, 2, 3, 9, timeWords (5 * secU) ++ frameBody timed0, timed0, by decide⟩,
    ⟨nt (fun n => { n with timed := [(0, frame0 4095 0 0 2)] }) State.reset, 0, frame0 4095 0 0 2, by decide⟩,
    ⟨at_ 0 (nt (fun n => { n with timed := [(1, frame0 4095 0 0 2)] }) State.reset), 1, frame0 4095 0 0 2, by decide⟩⟩

theorem witness_ChainLevelling :
    (∃ (s : State) (c : LevelCfg), levelCfg s = some c ∧ (timeCfg s).source = 3 ∧ s.net.level = none ∧ linkUp s (levelLink s c) = true)
    ∧ (∃ (s : State) (c : LevelCfg), levelCfg s = some c ∧ (timeCfg s).source = 3 ∧ s.net.level = none ∧ linkUp s (levelLink s c) = false)
    ∧ (∃ (s : State) (l : Fin 3) (f : Frame), linkUp s l = true ∧ f.payload.length = 12)
    ∧ (∃ (s : State) (l : Fin 3) (f : Frame) (r : LevelRun) (t1 : Nat), linkUp s l = true ∧ f.payload.length = 26 ∧ s.net.level = some r ∧ r.link = l.val ∧ elapsed s ≤ r.start + msU ∧ tabFind r.t1 (wAt f.payload 22 1) = some t1)
    ∧ (∃ (s : State) (r : LevelRun) (c : LevelCfg), s.net.level = some r ∧ levelCfg s = some c ∧ r.start + msU ≤ elapsed s ∧ r.done_ < 6)
    ∧ (∃ (s : State) (r : LevelRun) (c : LevelCfg), s.net.level = some r ∧ levelCfg s = some c ∧ elapsed s < r.start + msU ∧ r.done_ ≠ 8)
    ∧ (∃ (s : State) (l : Fin 3) (f : Frame), linkUp s l = true ∧ f.payload.length = 37 ∧ bitOf f.flags 0 = false ∧ permits s 4 = false)
    ∧ (∃ (s : State) (l : Fin 3) (f : Frame), linkUp s l = true ∧ f.payload.length = 37 ∧ bitOf f.flags 0 = false ∧ permits s 4 = true)
    ∧ (∃ (s : State) (l : Fin 3) (f : Frame) (n : Fin 256) (c : StreamCfg), linkUp s l = true ∧ f.payload.length = 37 ∧ bitOf f.flags 0 = false ∧ permits s 4 = true ∧ maskBits 256 (wAt f.payload 11 26) = [n.val] ∧ streamAt s n.val = some c ∧ (strm s n.val).syncs.length < 4 ∧ (strm s n.val).lastIn = none) :=
  ⟨⟨up 1 (plan [timeRec 3, levelRec] State.reset), levelCfg0, by decide⟩,
    ⟨plan [timeRec 3, levelRec] State.reset, levelCfg0, by decide⟩,
    ⟨up 2 State.reset, 2, frame0 0 0 0 12, by decide⟩,
    ⟨up 1 (nt (fun n => { n with level := some run0 }) (plan [timeRec 3, levelRec] State.reset)), 1, frame0 0 0 0 26, run0, 55, by decide⟩,
    ⟨later msU (nt (fun n => { n with level := some run0 }) (plan [timeRec 3, levelRec] State.reset)), run0, levelCfg0, by decide⟩,
    ⟨later (msU - 1) (nt (fun n => { n with level := some run0 }) (plan [timeRec 3, levelRec] State.reset)), run0, levelCfg0, by decide⟩,
    ⟨up 2 State.reset, 2, frame0 0 0 0 37, by decide⟩,
    ⟨up 2 (plan [permit 4] State.reset), 2, frame0 0 0 0 37, by decide⟩,
    ⟨up 2 (plan (permit 4 :: streamLine ++ [streamRec 5 4]) State.reset), 2, { frame0 0 0 0 37 with payload := List.replicate 11 0 ++ [32] ++ List.replicate 25 0 }, 5, streamCfg 4, by decide⟩⟩

theorem witness_DramTraining :
    (∃ (s : State), bootPhase s = 3 ∧ dmFitted s 0 = true ∧ ((∀ c, (vget s.mem.ch c).failed = false)))
    ∧ (∃ (s : State), bootPhase s = 3)
    ∧ (∃ (s : State), s.mem.selfRefresh = false ∧ s.mem.blackout = none)
    ∧ (∃ (s : State) (c : Fin 4), (vget s.mem.ch c).inService = true ∧ retrainDue s c = true ∧ anyTraining s = false ∧ s.mem.blackout = none ∧ s.mem.freeze = none ∧ s.mem.selfRefresh = false)
    ∧ (∃ (s : State) (c : Fin 4), (vget s.mem.ch c).training = true ∧ s.mem.blackout = none ∧ s.mem.waiting = none ∧ (vget s.mem.ch c).colls + 1 < stepColls (vget s.mem.ch c).step)
    ∧ (∃ (s : State) (c : Fin 4), (vget s.mem.ch c).training = true ∧ bootPhase s ≠ 3 ∧ s.mem.blackout = none ∧ s.mem.waiting = none ∧ s.mem.freeze = none ∧ stepColls (vget s.mem.ch c).step ≤ (vget s.mem.ch c).colls + 1 ∧ (vget s.mem.ch c).step = 4 ∧ dmRanks s ≤ (vget s.mem.ch c).rank + 1)
    ∧ (∃ (s : State) (c : Fin 4), (vget s.mem.ch c).training = true ∧ bootPhase s = 3 ∧ s.mem.blackout = none ∧ s.mem.waiting = none ∧ stepColls (vget s.mem.ch c).step ≤ (vget s.mem.ch c).colls + 1 ∧ (vget s.mem.ch c).step = 6 ∧ dmRanks s ≤ (vget s.mem.ch c).rank + 1)
    ∧ (∃ (s : State) (f : FreqChange), s.mem.blackout = some f ∧ s.mem.waiting = none)
    ∧ (∃ (s : State), s.keeper.mbx = [] ∧ keeperRuns s = true ∧ s.mem.selfRefresh = true)
    ∧ (∃ (s : State) (sp : Fin 3), s.keeper.mbx = [] ∧ keeperRuns s = true ∧ s.mem.selfRefresh = false ∧ ((s.mem.forced = true ∨ spUsable s sp.val = false)))
    ∧ (∃ (s : State) (sp : Fin 3), s.keeper.mbx = [] ∧ keeperRuns s = true ∧ s.mem.selfRefresh = false ∧ s.mem.forced = false ∧ spUsable s sp.val = true ∧ s.mem.blackout = none ∧ s.mem.waiting = none ∧ anyTraining s = false ∧ s.mem.setPoint ≠ sp.val) :=
  ⟨⟨ph 3 (plan [R 0x200 [0, 1, 0, 1, 0, 10, 0, 0, 0, 0, 0, 0, 0]] State.reset), by decide⟩,
    ⟨ph 3 State.reset, by decide⟩,
    ⟨State.reset, by decide⟩,
    ⟨mc 1 (fun x => { x with again := true }) (dmUp State.reset), 1, by decide⟩,
    ⟨mc 1 (fun x => { x with training := true, step := 1, colls := 30 }) (dmUp State.reset), 1, by decide⟩,
    ⟨mc 1 (fun x => { x with training := true, step := 4, colls := 63 }) (dmUp State.reset), 1, by decide⟩,
    ⟨ph 3 (mc 1 (fun x => { x with training := true, step := 6, colls := 4095, sp := 2, rank := 1 }) (dmUp State.reset)), 1, by decide⟩,
    ⟨mm (fun m => { m with blackout := some { target := 2, forced := true } }) (dmUp State.reset), { target := 2, forced := true }, by decide⟩,
    ⟨mm (fun m => { m with selfRefresh := true }) State.reset, by decide⟩,
    ⟨State.reset, 2, by decide⟩,
    ⟨mm (fun m => { m with setPoint := 2 }) (dmUp State.reset), 0, by decide⟩⟩

theorem witness_DramFaults :
    (∃ (s : State) (a : Nat), pairsIn s ≠ 0 ∧ s.mem.selfRefresh = false ∧ a < dataBytes s ∧ s.mem.freeze = none)
    ∧ (∃ (s : State) (a : Nat), pairsIn s ≠ 0 ∧ s.mem.selfRefresh = false ∧ a < dataBytes s ∧ s.mem.freeze = none ∧ s.mem.blackout = none)
    ∧ (∃ (s : State), s.mem.freeze = none ∧ s.mem.selfRefresh = false ∧ pairsIn s ≠ 0 ∧ s.mem.scrub + 1 < scrubBlocks s)
    ∧ (∃ (s : State), s.mem.freeze = none ∧ s.mem.selfRefresh = false ∧ pairsIn s ≠ 0 ∧ scrubBlocks s ≤ s.mem.scrub + 1)
    ∧ (∃ (s : State) (f : Freeze), s.mem.freeze = some f ∧ f.loss = none ∧ f.retrain = false ∧ s.mem.blackout = none ∧ s.mem.uePend = none ∧ untrained s = none)
    ∧ (∃ (s : State) (f : Freeze), s.mem.freeze = some f ∧ f.loss = none ∧ f.at_ + 50 * msU ≤ elapsed s ∧ (recentWarm s).length < (resetPolicy s).1)
    ∧ (∃ (s : State) (f : Freeze) (why : Nat), s.mem.freeze = some f ∧ f.loss = some why ∧ f.chan < 4)
    ∧ (∃ (s : State), s.mem.selfRefresh = false ∧ pairsIn s ≠ 0 ∧ s.mem.stepMr4 = false ∧ s.mem.blackout = none ∧ s.mem.setPoint = 0 ∧ setRate s 0 ≠ 6400)
    ∧ (∃ (s : State) (at_ : Nat), s.mem.forced = true ∧ s.mem.coolSince = some at_ ∧ at_ + 10 * secU ≤ elapsed s ∧ s.mem.blackout = none ∧ s.mem.waiting = none ∧ s.mem.freeze = none ∧ s.mem.selfRefresh = false ∧ s.mem.setPoint ≤ planSetPoint s) :=
  ⟨⟨dmUp State.reset, dataBytes (dmUp State.reset) - 1, by decide⟩,
    ⟨dmUp State.reset, dataBytes (dmUp State.reset) - 1, by decide⟩,
    ⟨dmUp State.reset, by decide⟩,
    ⟨mm (fun m => { m with scrub := scrubBlocks (dmUp State.reset) - 1 }) (dmUp State.reset), by decide⟩,
    ⟨mm (fun m => { m with freeze := some freeze0 }) (dmUp State.reset), freeze0, by decide⟩,
    ⟨later (50 * msU) (mm (fun m => { m with freeze := some freeze0 }) (dmUp State.reset)), freeze0, by decide⟩,
    ⟨mm (fun m => { m with freeze := some { freeze0 with loss := some 1, chan := 3 } }) (dmUp State.reset), { freeze0 with loss := some 1, chan := 3 }, 1, by decide⟩,
    ⟨mm (fun m => { m with setPoint := 0 }) (dmUp State.reset), by decide⟩,
    ⟨later (10 * secU) (mm (fun m => { m with forced := true, coolSince := some 0, setPoint := 0 }) (dmUp State.reset)), 0, by decide⟩⟩

theorem witness_RegisterReads :
    (∃ (s : State) (p : Path) (a : BitVec 20), regDefined a.toNat = true ∧ regBusy s a.toNat = false ∧ isLo a.toNat = false ∧ (pathOf s p).shadow = none)
    ∧ (∃ (s : State) (p : Path) (a : BitVec 20), regDefined a.toNat = true ∧ regBusy s a.toNat = false ∧ isLo a.toNat = true ∧ (pathOf s p).shadow = none)
    ∧ (∃ (s : State) (p : Path) (a : BitVec 20) (v : Nat), regDefined a.toNat = true ∧ regBusy s a.toNat = false ∧ (pathOf s p).shadow = some (a.toNat, v))
    ∧ (∃ (a : BitVec 20), regDefined a.toNat = false)
    ∧ (∃ (s : State) (a : BitVec 20), regDefined a.toNat = true ∧ regBusy s a.toNat = true)
    ∧ (∃ (s : State) (l : Fin 3) (n : Nat), linkUp s l = true ∧ n % 1024 = 0)
    ∧ (∃ (s : State) (l : Fin 3) (a : BitVec 20), linkUp s l = true ∧ regDefined a.toNat = true ∧ regBusy s a.toNat = false ∧ isLo a.toNat = false ∧ (pathOf s (linkPath l)).shadow = none) :=
  ⟨⟨State.reset, 4, 0x31, by decide⟩,
    ⟨ph 11 State.reset, 4, 0x808, by decide⟩,
    ⟨mg (fun m => { m with paths := vmod m.paths 4 (fun p => { p with shadow := some (0x809, 77) }) }) (ph 11 State.reset), 4, 0x809, 77, by decide⟩,
    ⟨0xFFFFF, by decide⟩,
    ⟨kp (fun k => { k with lineReset := 2 }) State.reset, 0x1802, by decide⟩,
    ⟨up 2 State.reset, 2, 1024, by decide⟩,
    ⟨up 2 (ph 11 State.reset), 2, 0x31, by decide⟩⟩

theorem witness_RegisterWrites :
    (∃ (a : BitVec 20), regDefined a.toNat = false)
    ∧ (∃ (p : Path) (a : BitVec 20) (m : BitVec 20), regDefined a.toNat = true ∧ benchOwned a.toNat m.toNat = true ∧ p.val ≤ 3)
    ∧ (∃ (s : State) (p : Path) (a : BitVec 20) (m : BitVec 20), regDefined a.toNat = true ∧ benchOwned a.toNat m.toNat = false ∧ p.val ≤ 3 ∧ classOk s a.toNat m.toNat = false)
    ∧ (∃ (s : State) (p : Path) (t : Fin 8) (v : BitVec 20), permits s 13 = true ∧ regBusy s (0x4001 + 1024 * t.val) = false ∧ (pathOf s p).staged = none ∧ 16 ≤ v.toNat / 2 ^ 14 ∧ v.toNat / 2 ^ 14 ≤ 32)
    ∧ (∃ (s : State) (p : Path) (a : BitVec 20) (m : BitVec 20), regDefined a.toNat = true ∧ benchOwned a.toNat m.toNat = false ∧ ((p.val ≤ 3 → classOk s a.toNat m.toNat = true)) ∧ regBusy s a.toNat = false ∧ isLoWritable a.toNat = true)
    ∧ (∃ (s : State) (p : Path) (w : BitVec 20) (at_ : Nat), (timeCfg s).source = 0 ∧ ((p.val ≤ 3 → permits s 9 = true)) ∧ regBusy s 0x809 = false ∧ (pathOf s p).staged = some (0x808, w.toNat, 2 ^ 20 - 1, at_) ∧ elapsed s < at_ + secU)
    ∧ (∃ (s : State) (p : Path) (x : Nat × Nat × Nat × Nat), (pathOf s p).staged = some x ∧ x.2.2.2 + secU ≤ elapsed s)
    ∧ (∃ (s : State) (p : Path), ((p.val ≤ 3 → permits s 15 = true)) ∧ s.fu.out.length < 64)
    ∧ (∃ (s : State) (p : Path), ((p.val ≤ 3 → permits s 15 = true)) ∧ 64 ≤ s.fu.out.length)
    ∧ (∃ (s : State) (l : Fin 3), linkUp s l = true)
    ∧ (∃ (s : State) (l : Fin 3) (a : BitVec 20), linkUp s l = true ∧ regDefined a.toNat = false) :=
  ⟨⟨0xFFFFF, by decide⟩,
    ⟨3, 0x1802, 0xFFFFF, by decide⟩,
    ⟨State.reset, 3, 0x808, 0xFFFFF, by decide⟩,
    ⟨ph 11 (plan [permit 13] State.reset), 3, 7, BitVec.ofNat 20 (32 * 2 ^ 14), by decide⟩,
    ⟨ph 11 (plan [permit 9] State.reset), 3, 0x808, 0xFFFFF, by decide⟩,
    ⟨mg (fun m => { m with paths := vmod m.paths 3 (fun p => { p with staged := some (0x808, 7, 2 ^ 20 - 1, 0) }) }) (ph 11 (plan [permit 9] (later (secU - 1) State.reset))), 3, 7, 0, by decide⟩,
    ⟨mg (fun m => { m with paths := vmod m.paths 3 (fun p => { p with staged := some (0x808, 7, 2 ^ 20 - 1, 0) }) }) (later secU State.reset), 3, (0x808, 7, 2 ^ 20 - 1, 0), by decide⟩,
    ⟨plan [permit 15] State.reset, 3, by decide⟩,
    ⟨fn (fun u => { u with out := List.replicate 64 fence }) (plan [permit 15] State.reset), 3, by decide⟩,
    ⟨up 2 State.reset, 2, by decide⟩,
    ⟨up 2 State.reset, 2, 0xFFFFF, by decide⟩⟩

theorem witness_ServiceAndLog :
    (∃ (s : State) (vs : List Nat), s.mgmt.snap = some (some vs))
    ∧ (∃ (s : State), s.mgmt.snap = some none)
    ∧ (∃ (s : State) (a : BitVec 24), a.toNat < 2 ^ 20 ∧ regDefined a.toNat = true ∧ regBusy s a.toNat = false ∧ isLo a.toNat = false ∧ (pathOf s 0).shadow = none)
    ∧ (∃ (a : BitVec 24), 2 ^ 20 ≤ a.toNat)
    ∧ (∃ (a : BitVec 24), 2 ^ 20 ≤ a.toNat)
    ∧ (∃ (s : State), s.mgmt.flashOp = none ∧ 3 ≤ bootPhase s ∧ lifecycle s ≠ 2)
    ∧ (∃ (s : State), ((s.mgmt.flashOp ≠ none ∨ (bootPhase s < 3 ∧ s.keeper.warm = false))))
    ∧ (∃ (s : State) (a : BitVec 32) (bs : List Byte), s.mgmt.flashOp = none ∧ 3 ≤ bootPhase s ∧ lifecycle s ≠ 2 ∧ bs ≠ [] ∧ a.toNat % 256 + bs.length ≤ 256)
    ∧ (∃ (s : State), s.mgmt.flashOp = none ∧ 3 ≤ bootPhase s ∧ lifecycle s ≠ 2)
    ∧ (∃ (s : State) (a : Nat), s.mgmt.flashOp = some (.erase a))
    ∧ (∃ (s : State) (a : Nat) (b : Byte), s.mgmt.flashOp = some (.program a [b]))
    ∧ (∃ (s : State) (a : Nat) (bs : List Byte), s.mgmt.flashOp = some (.program a bs)) :=
  ⟨⟨mg (fun m => { m with snap := some (some [1, 2, 3]) }) State.reset, [1, 2, 3], by decide⟩,
    ⟨mg (fun m => { m with snap := some none }) State.reset, by decide⟩,
    ⟨State.reset, 0x31, by decide⟩,
    ⟨0x100000, by decide⟩,
    ⟨0x100000, by decide⟩,
    ⟨ph 3 State.reset, by decide⟩,
    ⟨ph 2 State.reset, by decide⟩,
    ⟨ph 3 State.reset, 0x100FF, [7], by decide⟩,
    ⟨ph 3 State.reset, by decide⟩,
    ⟨mg (fun m => { m with flashOp := some (.erase 65536) }) State.reset, 65536, by decide⟩,
    ⟨mg (fun m => { m with flashOp := some (.program 65536 [7]) }) State.reset, 65536, 7, by decide⟩,
    ⟨mg (fun m => { m with flashOp := some (.program 65536 [7, 8]) }) State.reset, 65536, [7, 8], by decide⟩⟩

theorem witness_StepTakesTheFront :
    (∃ (s : State) (c : Instr) (rest : List Instr), s.pending = c :: rest) ∧ (∃ s : State, s.pending = []) :=
  ⟨⟨{ State.reset with pending := [.mbxHeartbeat, .znAck] }, .mbxHeartbeat, [.znAck], rfl⟩, ⟨State.reset, rfl⟩⟩

/-- A state that a command has changed, for the invariants: one fence outstanding, one log entry. -/
def busyState : State := fn (fun f => { f with out := [fence] }) (logEvent State.reset 0x014 0 2 1 0)

theorem witness_StepKeepsInvariants : ∃ s t : State, Safety.Inv s ∧ step s = .next t :=
  ⟨{ busyState with pending := [.znAck] }, after .znAck busyState, by unfold Safety.Inv; decide +kernel, rfl⟩

theorem witness_OtpOneWay :
    (∃ s t : State, step s = .next t)
    ∧ (∃ (s t : State) (c : Instr), s.keeper.mbx = [] ∧ (∀ a k, c ≠ .mbxLifecycle a k) ∧ c ≠ .mbxBootComplete ∧ exec c s = .next t) :=
  ⟨⟨{ State.reset with pending := [.mbxHeartbeat] }, after .mbxHeartbeat State.reset, rfl⟩,
    ⟨State.reset, after .mbxHeartbeat State.reset, .mbxHeartbeat, rfl, by simp, by simp, rfl⟩⟩

theorem witness_LaserInterlock : ∃ s t : State, interlocked s ∧ step s = .next t :=
  ⟨{ lit with pending := [.interlockTrip 1] }, after (.interlockTrip 1) lit, by unfold interlocked; decide +kernel, rfl⟩

theorem witness_FrameField : ∃ s t : State, exec (.launchCmdArrive 1 3) s = .next t := ⟨State.reset, _, rfl⟩

theorem witness_FrameLinks : ∃ s t : State, exec (.timeSnapshot 2) s = .next t := ⟨State.reset, _, rfl⟩

theorem witness_FrameSystem :
    (∃ s t : State, exec .pwrgoodRise s = .next t) ∧ (∃ s t : State, s.keeper.mbx = [] ∧ exec .mbxHeartbeat s = .next t) :=
  ⟨⟨State.reset, _, rfl⟩, ⟨State.reset, _, rfl, rfl⟩⟩

theorem witness_RegistersWritten :
    (∃ s t : State, exec (.overRange 1 5 3 9) s = .next t) ∧ (∃ s t : State, s.keeper.mbx = [] ∧ exec (.mbxBadCode 15) s = .next t) :=
  ⟨⟨State.reset, _, rfl⟩, ⟨State.reset, _, rfl, rfl⟩⟩

theorem witness_UnmappedAndBusy :
    (∃ a : BitVec 20, regDefined a.toNat = false)
    ∧ (∃ (s : State) (a : BitVec 20), regDefined a.toNat = true ∧ regBusy s a.toNat = true)
    ∧ (∃ (s : State) (a m : BitVec 20), regDefined a.toNat = true ∧ benchOwned a.toNat m.toNat = false
        ∧ classOk s a.toNat m.toNat = true ∧ regBusy s a.toNat = true)
    ∧ (∃ a : Nat, a / 1024 = 0 ∨ a / 1024 = 1 ∨ a / 1024 = 0x31 ∨ a / 1024 = 0x3C) :=
  ⟨⟨0xFFFFF, by decide⟩, ⟨State.reset, 0x4002, by decide +kernel⟩, ⟨State.reset, 0x1010, 0, by decide +kernel⟩,
    ⟨0x3C * 1024 + 1023, by decide⟩⟩

theorem witness_UsableSetPoint :
    (∃ (s : State) (sp : Fin 3) (ch : Fin 4), spUsable s sp.val = true ∧ (vget s.mem.ch ch).inService = true)
    ∧ (∃ (s : State) (sp : Fin 3) (ch : Fin 4), keeperRuns s = true ∧ s.keeper.mbx = [] ∧ (vget s.mem.ch ch).inService = true
        ∧ bitOf (vget s.mem.ch ch).trained sp.val = false) :=
  ⟨⟨dmUp State.reset, 2, 1, by decide +kernel⟩, ⟨mc 3 (fun c => { c with inService := true, trained := 3 }) State.reset, 2, 3, by decide +kernel⟩⟩

theorem witness_ReturnEntry :
    (∃ (s : State) (x : Nat) (ws : List Word) (k : Token), keeperRuns s = true ∧ s.keeper.mbx = [] ∧ tokenSeen s x ws = some k
        ∧ k.ask = .toState 3 ∧ byVendor s k = true ∧ k.uid = s.keeper.otp.uid ∧ lifecycle s < 3)
    ∧ (∃ s : State, keeperRuns s = true ∧ s.keeper.mbx = [] ∧ lifecycle s = 3) :=
  ⟨⟨keys 1 2 State.reset, 7, tokWords3, token (.toState 3) vendKey, by decide +kernel, by decide +kernel, seen3 _, by decide +kernel⟩,
    ⟨keys 0 3 State.reset, by decide +kernel⟩⟩

theorem witness_CoderRoundTrip : ∃ (src : List Word) (h m e o : Nat), 1 ≤ e ∧ e ≤ 3 ∧ 1 ≤ o ∧ o ≤ 4
    ∧ src.length = h + m * (o + e - 1) ∧ src.length ≤ 8192 := ⟨sample5, 24, 5, 1, 2, by decide⟩

theorem witness_CodedBlockLength : ∃ (src : List Word) (h m e o : Nat), 1 ≤ e ∧ e ≤ 3 ∧ 1 ≤ o ∧ o ≤ 4
    ∧ src.length = h + m * (o + e - 1) ∧ src.length ≤ 8192 := ⟨[1, 2, 3, 4, 5, 6], 2, 1, 1, 4, by decide⟩

end Sys2Proof.Tests
end

section
/-! SUPPORT. What each command can do, wherever it answers a next state: the parts of the state it changes, and that it keeps the
invariants of Safety.lean. One lemma per command, from the lemma of the operation it runs. -/

namespace Sys2Proof.Laws
open Sys2Proof Sys2Proof.Machine Sys2Proof.Safety

/-- Every part of the state. -/
def allParts : List Part := [.regs, .cfg, .keeper, .otp, .book, .log, .fu, .trav, .probe, .conv, .pce, .sense, .net, .time, .mem,
  .hk, .zn, .streams, .code, .mgmt, .flash, .samples, .dram, .xbuf, .now, .up, .freeCtr]

/-- Every part of the state but OTP: what a COLD reset may change (R48, R442). -/
def allButOtp : List Part := [.regs, .cfg, .keeper, .book, .log, .fu, .trav, .probe, .conv, .pce, .sense, .net, .time, .mem, .hk,
  .zn, .streams, .code, .mgmt, .flash, .samples, .dram, .xbuf, .now, .up, .freeCtr]

/-- The parts that a lane instruction may change: its traverse, and what a fault of its kernel records (R246). -/
def laneParts : List Part := [.regs, .log, .trav, .freeCtr]

/-- Wherever the command answers a next state, it has changed only the parts named and kept the invariants. -/
def Confined (ps : List Part) (c : Instr) : Prop := ∀ s t, exec c s = .next t → Moves ps s t

theorem Confined.keepsAllBut {ps : List Part} {c : Instr} (h : Confined ps c) : keepsAllBut ps c :=
  fun s t e => (h s t e).only

theorem Confined.inv {ps : List Part} {c : Instr} {s t : State} (h : Confined ps c) (e : exec c s = .next t) : Inv s → Inv t :=
  (h s t e).inv

/-- A command that always answers a next state. -/
theorem Confined.next {ps : List Part} {c : Instr} {f : State → State} (hc : ∀ s, exec c s = .next (f s))
    (hf : ∀ s, Moves ps s s → Moves ps s (f s)) : Confined ps c := by
  intro s t e
  rw [hc] at e
  cases e
  exact hf s (.refl _ s)

/-- A command whose meaning `x` is an instruction issued to the lanes. -/
theorem Confined.issue {ps : List Part} {c : Instr} {x : State → Host.Outcome State Fault Refusal} {t : Fin 8}
    {legal : State → Bool} {vOnly : Bool} {cost : State → LaneCost} {run : State → State → State}
    (hx : ∀ s, exec c s = x s) (hc : ∀ s, x s = issue s t (legal s) vOnly (cost s) (run s)) (hP : within laneParts ps = true)
    (hr : ∀ s s1, Moves ps s s1 → Moves ps s (run s s1)) : Confined ps c :=
  fun s _ e => issue_moves (((hx s).trans (hc s)).symm.trans e) hP (.refl _ s) (hr s)

/-- A lane instruction. -/
theorem Confined.laneOp {ps : List Part} {c : Instr} {t : Fin 8} {p : Pred} {legal : State → Bool} {cost : LaneCost}
    {f : State → Lane → Lane} (hc : ∀ s, exec c s = laneOp s t p (legal s) cost (f s)) (hP : within laneParts ps = true) :
    Confined ps c :=
  fun s _ e => laneOp_moves ((hc s).symm.trans e) hP (.refl _ s)

/-- R237, R242: an access to local memory. -/
theorem memOp_moves {P : List Part} {z s u : State} {t : Fin 8} {p : Pred} {m : FmtM} {legal store : Bool} {n : Nat}
    {c : LaneCost} {f : Nat → Lane → Lane} (e : memOp s t p m legal store n c f = .next u) (hP : within laneParts P = true)
    (h : Moves P z s) : Moves P z u := by
  refine issue_moves e hP h (fun s1 k => ?_)
  extract_lets T run
  have hrun : ∀ {s2 : State}, Moves P z s2 → Moves P z (run s2) :=
    fun k2 => settle_moves (within_trans rfl hP) (modTrav_moves (within_trans rfl hP) k2)
  have hpar : ∀ {hits : List (Nat × Nat)}, Moves P z (notePar s1 t hits) := notePar_moves (within_trans rfl hP) k
  split
  · exact hrun (.ite k hpar)
  · extract_lets ws
    split
    · exact kernelFault_moves (within_trans rfl hP) k
    · refine .ite (hrun k) ?_
      extract_lets
      split
      · exact kernelFault_moves (within_trans rfl hP) hpar
      · exact hrun hpar

/-- A command whose meaning `x` is an access to local memory. -/
theorem Confined.memOp {ps : List Part} {c : Instr} {x : State → Host.Outcome State Fault Refusal} {t : Fin 8} {p : Pred}
    {m : FmtM} {legal store : Bool} {n : Nat} {cost : LaneCost} {f : Nat → Lane → Lane} (hx : ∀ s, exec c s = x s)
    (hc : ∀ s, x s = memOp s t p m legal store n cost f) (hP : within laneParts ps = true) : Confined ps c :=
  fun s _ e => memOp_moves (((hx s).trans (hc s)).symm.trans e) hP (.refl _ s)

theorem powerOnReset_confined : Confined allButOtp .powerOnReset :=
  .next (fun _ => rfl) fun _ h => porReset_moves rfl h

theorem pwrgoodRise_confined : Confined [.keeper] .pwrgoodRise :=
  .next (fun _ => rfl) fun _ h => .setKeeper rfl rfl h

theorem pwrgoodFall_confined : Confined allButOtp .pwrgoodFall :=
  .next (fun _ => rfl) fun _ h => porReset_moves rfl (.setKeeper rfl rfl h)

theorem resetNLow_confined : Confined allButOtp .resetNLow :=
  .next (fun _ => rfl) fun _ h => .ite (coldReset_moves rfl (.setKeeper rfl rfl h)) (.setKeeper rfl rfl h)

theorem resetNRise_confined : Confined [.keeper] .resetNRise :=
  .next (fun _ => rfl) fun _ h => .setKeeper rfl rfl h

theorem otpReadDone_confined : Confined [.regs, .keeper, .log, .time, .hk, .freeCtr] .otpReadDone :=
  .next (fun _ => rfl) fun _ h => otpReadSt_moves rfl h

theorem xspiInitDone_confined (sfdp : Option (Nat × Nat)) : Confined [.regs, .keeper, .mgmt] (.xspiInitDone sfdp) :=
  .next (fun _ => rfl) fun _ h => xspiInitSt_moves rfl h

theorem stagingFilled_confined : Confined [.keeper, .mgmt] .stagingFilled :=
  .next (fun _ => rfl) fun _ h => stagingSt_moves rfl h

theorem imageVerificationDone_confined (readA readB : Bool) : Confined [.regs, .cfg, .keeper, .book, .log, .fu, .trav, .probe,
    .conv, .zn, .mgmt] (.imageVerificationDone readA readB) :=
  .next (fun _ => rfl) fun _ h => verifySt_moves rfl h

theorem stage1Release_confined : Confined [.regs, .mem, .mgmt] .stage1Release :=
  .next (fun _ => rfl) fun _ h => stage1St_moves rfl h

theorem stage2Loaded_confined : Confined [.regs, .cfg, .book, .conv, .hk] .stage2Loaded :=
  .next (fun _ => rfl) fun _ h => stage2St_moves rfl h

theorem selfTestDone_confined (t : Fin 8) (failLane : Option (Fin 64)) : Confined [.regs, .keeper, .book, .log, .fu, .trav,
    .pce, .sense, .net, .zn, .streams, .code, .xbuf] (.selfTestDone t failLane) :=
  .next (fun _ => rfl) fun _ h => selfTestSt_moves rfl h

theorem planApplied_confined : Confined [.regs, .cfg, .book, .log, .fu, .trav, .probe, .conv, .pce, .sense, .net, .time, .hk,
    .zn, .streams, .code, .xbuf, .freeCtr] .planApplied :=
  .next (fun _ => rfl) fun _ h => planAppliedSt_moves rfl h

theorem scsFinalLock_confined : Confined [.regs, .net] .scsFinalLock :=
  .next (fun _ => rfl) fun _ h => finalLockSt_moves rfl h

theorem mbxHeartbeat_confined : Confined allParts .mbxHeartbeat :=
  .next (fun _ => rfl) fun _ h => mbxSend_moves rfl h

theorem mbxBootComplete_confined : Confined allParts .mbxBootComplete :=
  .next (fun _ => rfl) fun _ h => mbxSend_moves rfl h

theorem mbxLaserArm_confined (line : Fin 2) : Confined allParts (.mbxLaserArm line) :=
  .next (fun _ => rfl) fun _ h => mbxSend_moves rfl h

theorem mbxLaserDisarm_confined (line : Fin 2) : Confined allParts (.mbxLaserDisarm line) :=
  .next (fun _ => rfl) fun _ h => mbxSend_moves rfl h

theorem mbxResetWarm_confined : Confined allParts .mbxResetWarm :=
  .next (fun _ => rfl) fun _ h => mbxSend_moves rfl h

theorem mbxResetCold_confined : Confined allParts .mbxResetCold :=
  .next (fun _ => rfl) fun _ h => mbxSend_moves rfl h

theorem mbxResetLine_confined (line : Fin 2) : Confined allParts (.mbxResetLine line) :=
  .next (fun _ => rfl) fun _ h => mbxSend_moves rfl h

theorem mbxStandbyEnter_confined : Confined allParts .mbxStandbyEnter :=
  .next (fun _ => rfl) fun _ h => mbxSend_moves rfl h

theorem mbxStandbyExit_confined : Confined allParts .mbxStandbyExit :=
  .next (fun _ => rfl) fun _ h => mbxSend_moves rfl h

theorem mbxDramFreq_confined (sp : Fin 3) : Confined allParts (.mbxDramFreq sp) :=
  .next (fun _ => rfl) fun _ h => mbxSend_moves rfl h

theorem mbxRecordHash_confined (amendedPlan : Bool) : Confined allParts (.mbxRecordHash amendedPlan) :=
  .next (fun _ => rfl) fun _ h => mbxSend_moves rfl h

theorem mbxLoopRelease_confined (n : Fin 8) : Confined allParts (.mbxLoopRelease n) :=
  .next (fun _ => rfl) fun _ h => mbxSend_moves rfl h

theorem mbxStaleClear_confined (line : Fin 2) : Confined allParts (.mbxStaleClear line) :=
  .next (fun _ => rfl) fun _ h => mbxSend_moves rfl h

theorem mbxLifecycle_confined (addr : Nat) (token : List Word) : Confined allParts (.mbxLifecycle addr token) :=
  .next (fun _ => rfl) fun _ h => lifecycleAsk_moves rfl h

theorem mbxBadCode_confined (code : Fin 1024) : Confined allParts (.mbxBadCode code) :=
  .next (fun _ => rfl) fun _ h => .whenB h (mbxSend_moves rfl h)

theorem watchdogPeriodExpiry_confined : Confined allButOtp .watchdogPeriodExpiry :=
  .next (fun _ => rfl) fun _ h => watchdogSt_moves rfl h

theorem warmHashCheck_confined : Confined allButOtp .warmHashCheck :=
  .next (fun _ => rfl) fun _ h => warmHashSt_moves rfl h

theorem lineResetDone_confined (line : Fin 2) : Confined [.regs, .keeper, .log, .probe, .conv, .pce, .hk, .freeCtr]
    (.lineResetDone line) :=
  .next (fun _ => rfl) fun _ h => lineResetDoneSt_moves rfl h

theorem standbyThermalExit_confined : Confined [.regs, .keeper, .conv, .net, .mem, .hk] .standbyThermalExit :=
  .next (fun _ => rfl) fun _ h => .whenB h (startExit_moves rfl h)

theorem resetCmd_confined : Confined allButOtp .resetCmd :=
  .next (fun _ => rfl) fun _ h => resetCmdSt_moves rfl h

theorem standbyCmd_confined : Confined [.regs, .keeper, .book, .log, .fu, .trav, .probe, .conv, .pce, .sense, .net, .time,
    .mem, .hk, .zn, .streams, .code, .freeCtr] .standbyCmd :=
  .next (fun _ => rfl) fun _ h => standbyCmdSt_moves rfl h

theorem fenceIssue_confined (scope : BitVec 18) : Confined [.regs, .fu] (.fenceIssue scope) :=
  .next (fun _ => rfl) fun _ h => .whenB h (bookFence_moves rfl h)

theorem fenceAck_confined (island : Fin 18) (id : Fin 1024) : Confined [.regs, .cfg, .keeper, .book, .log, .fu, .trav, .probe,
    .conv, .pce, .sense, .net, .time, .hk, .zn, .streams, .code, .mgmt, .now, .freeCtr] (.fenceAck island id) :=
  .next (fun _ => rfl) fun _ h => fenceAckSt_moves rfl h

theorem fenceComplete_confined : Confined [.regs, .cfg, .keeper, .book, .log, .fu, .trav, .probe, .conv, .pce, .sense, .net,
    .time, .hk, .zn, .streams, .code, .mgmt, .now, .freeCtr] .fenceComplete :=
  .next (fun _ => rfl) fun _ h => fenceCompleteSt_moves rfl h

theorem fenceTimeout_confined (id : Fin 1024) : Confined [.fu] (.fenceTimeout id) :=
  .next (fun _ => rfl) fun _ h => fenceTimeoutSt_moves rfl h

theorem rwfAutoFence_confined : Confined [.regs, .fu] .rwfAutoFence :=
  .next (fun _ => rfl) fun _ h => autoFenceSt_moves rfl h

theorem traverseClockChangeDone_confined (t : Fin 8) : Confined [.regs, .trav] (.traverseClockChangeDone t) :=
  .next (fun _ => rfl) fun _ h => clockDoneSt_moves rfl h

theorem amend_confined (link : Fin 3) (words : List Word) : Confined [.regs, .cfg, .keeper, .book, .fu, .probe, .net] (.amend
    link words) :=
  .next (fun _ => rfl) fun _ h => receive_moves rfl (fun _ k => amendSt_moves rfl k) h

theorem featureOfferRepeat_confined (l : Fin 3) : Confined [.net] (.featureOfferRepeat l) :=
  .next (fun _ => rfl) fun _ h => .whenB h (repeatOffer_moves rfl h)

theorem featureAccept_confined (l : Fin 3) (word : BitVec 60) (serial : Fin 1024) : Confined [.regs, .net] (.featureAccept l
    word serial) :=
  .next (fun _ => rfl) fun _ h => receive_moves rfl (fun _ k => acceptSt_moves rfl k) h

theorem featureOfferReceived_confined (l : Fin 3) (word : BitVec 60) (serial : Fin 1024) (changed : Bool) : Confined [.regs,
    .net] (.featureOfferReceived l word serial changed) :=
  .next (fun _ => rfl) fun _ h => receive_moves rfl (fun _ k => answerOffer_moves rfl k) h

theorem featureChangedRepeat_confined (l : Fin 3) : Confined [.net] (.featureChangedRepeat l) :=
  .next (fun _ => rfl) fun _ h => .whenB h (repeatOffer_moves rfl h)

theorem launchCmdArrive_confined (line : Fin 2) (slot : Fin 16) : Confined [.regs, .probe] (.launchCmdArrive line slot) :=
  .next (fun _ => rfl) fun _ h => launchCmdSt_moves rfl h

theorem probeLaunch_confined (line : Fin 2) : Confined [.regs, .log, .probe, .pce, .time, .zn, .freeCtr] (.probeLaunch line) :=
  .next (fun _ => rfl) fun _ h => probeLaunchSt_moves rfl h

theorem envelopeSubwindowEnd_confined (line : Fin 2) : Confined [.regs, .log, .probe] (.envelopeSubwindowEnd line) :=
  .next (fun _ => rfl) fun _ h => subwindowSt_moves rfl h

theorem interlockTrip_confined (line : Fin 2) : Confined [.regs, .keeper, .log, .probe, .conv, .net, .zn] (.interlockTrip line) :=
  .next (fun _ => rfl) fun _ h => ilkTripSt_moves rfl h

theorem interlockRelease_confined (line : Fin 2) : Confined [.probe] (.interlockRelease line) :=
  .next (fun _ => rfl) fun _ h => modProbe_moves rfl (fun _ _ i => Bool.noConfusion i) h

theorem fibreBreakRaise_confined (line : Fin 2) : Confined [.regs, .log, .net, .zn] (.fibreBreakRaise line) :=
  .next (fun _ => rfl) fun _ h => breakRaiseSt_moves rfl h

theorem fibreBreakClear_confined (line : Fin 2) : Confined [.regs] (.fibreBreakClear line) :=
  .next (fun _ => rfl) fun _ h => .whenB h (setF_moves rfl h)

theorem rotationStep_confined (line : Fin 2) (input : Fin 4) (window : Option SkewWindow) : Confined [.regs, .log, .conv]
    (.rotationStep line input window) :=
  .next (fun _ => rfl) fun _ h => rotationSt_moves rfl h

theorem spareMeasureDone_confined (line : Fin 2) (input : Fin 4) (offset gain : Int) (thresholds : List Int) : Confined [.conv]
    (.spareMeasureDone line input offset gain thresholds) :=
  .next (fun _ => rfl) fun _ h => spareSt_moves rfl h

theorem correctionStep_confined (line : Fin 2) : Confined [.conv] (.correctionStep line) :=
  .next (fun _ => rfl) fun _ h => modConv_moves rfl h

theorem refFallback_confined (line : Fin 2) : Confined [.regs, .log, .conv] (.refFallback line) :=
  .next (fun _ => rfl) fun _ h => refFallbackSt_moves rfl h

theorem refSettled_confined (line : Fin 2) : Confined [.conv] (.refSettled line) :=
  .next (fun _ => rfl) fun _ h => closeSpan_moves rfl (modConv_moves rfl h)

theorem priorityPassEnd_confined (line : Fin 2) (input : Fin 4) : Confined [.regs] (.priorityPassEnd line input) :=
  .next (fun _ => rfl) fun _ h => .whenB h (setMaskBit_moves rfl h)

theorem fgCalInputDone_confined (line : Fin 2) (input : Fin 4) (values : List CalVal) : Confined [.regs, .conv, .hk]
    (.fgCalInputDone line input values) :=
  .next (fun _ => rfl) fun _ h => fgInputSt_moves rfl h

theorem fullFgCalDone_confined (line : Fin 2) (values : List CalVal) (gains : List Nat) : Confined [.regs, .keeper, .log,
    .probe, .conv, .freeCtr] (.fullFgCalDone line values gains) :=
  .next (fun _ => rfl) fun _ h => fullFgDoneSt_moves rfl h

theorem overRange_confined (line : Fin 2) (input : Fin 6) (length gap : Nat) : Confined [.regs, .conv] (.overRange line input
    length gap) :=
  .next (fun _ => rfl) fun _ h => overRangeSt_moves rfl h

theorem ramanFgCalStart_confined (line : Fin 2) : Confined [.regs, .conv, .hk] (.ramanFgCalStart line) :=
  .next (fun _ => rfl) fun _ h => .whenB h (startRamanFg_moves rfl h)

theorem ramanFgCalForce_confined (line : Fin 2) : Confined [.conv] (.ramanFgCalForce line) :=
  .next (fun _ => rfl) fun _ h => .whenB h (modConv_moves rfl h)

theorem ramanFgCalDone_confined (line : Fin 2) (values : List CalVal) (gains : List Nat) : Confined [.regs, .conv]
    (.ramanFgCalDone line values gains) :=
  .next (fun _ => rfl) fun _ h => ramanFgDoneSt_moves rfl h

theorem captureWindowEnd_confined (line : Fin 2) : Confined [.regs, .conv, .hk] (.captureWindowEnd line) :=
  .next (fun _ => rfl) fun _ h => windowEndSt_moves rfl h

theorem recal_confined (line : Fin 2) : Confined [.pce] (.recal line) :=
  .next (fun _ => rfl) fun _ h => startMeasure_moves rfl h

theorem launchMeasureDone_confined (line : Fin 2) : Confined [.regs, .log, .fu, .pce, .freeCtr] (.launchMeasureDone line) :=
  .next (fun _ => rfl) fun _ h => measureDoneSt_moves rfl h

theorem launchMeasureTimeout_confined (line : Fin 2) : Confined [.regs, .log, .pce] (.launchMeasureTimeout line) :=
  .next (fun _ => rfl) fun _ h => measureTimeoutSt_moves rfl h

theorem traceDeliver_confined (line : Fin 2) (slot : Fin 16) (pol : Fin 2) (samples : List IQ) : Confined [.regs, .log, .trav,
    .probe, .pce, .freeCtr] (.traceDeliver line slot pol samples) :=
  .next (fun _ => rfl) fun _ h => traceSt_moves rfl h

theorem shotPass_confined (t : Fin 8) : Confined [.regs, .log, .trav, .pce, .sense, .samples, .dram, .freeCtr] (.shotPass t) :=
  .next (fun _ => rfl) fun _ h => shotPassSt_moves rfl h

theorem outputPass_confined (t : Fin 8) : Confined [.regs, .log, .trav, .sense, .samples, .dram, .xbuf, .freeCtr] (.outputPass
    t) :=
  .next (fun _ => rfl) fun _ h => startWork_moves rfl h

theorem ramanPass_confined (t : Fin 8) : Confined [.regs, .log, .trav, .sense, .samples, .dram, .xbuf, .freeCtr] (.ramanPass t) :=
  .next (fun _ => rfl) fun _ h => startWork_moves rfl h

theorem servicePass_confined (t : Fin 8) : Confined laneParts (.servicePass t) :=
  .next (fun _ => rfl) fun _ h => servicePassSt_moves rfl h

theorem backgroundSlice_confined (t : Fin 8) : Confined [.regs, .log, .trav, .sense, .samples, .dram, .xbuf, .freeCtr]
    (.backgroundSlice t) :=
  .next (fun _ => rfl) fun _ h => sliceSt_moves rfl h

theorem passDrop_confined (t : Fin 8) : Confined [.regs, .log, .trav] (.passDrop t) :=
  .next (fun _ => rfl) fun _ h => passDropSt_moves rfl h

theorem recoveryPass_confined (t : Fin 8) (failLane : Option (Fin 64)) : Confined [.regs, .book, .log, .fu, .trav, .pce,
    .sense, .net, .zn, .streams, .code, .xbuf] (.recoveryPass t failLane) :=
  .next (fun _ => rfl) fun _ h => recoveryPassSt_moves rfl h

theorem nop_confined (t : Fin 8) : Confined laneParts (.nop t) := by
  refine .issue (x := execNop t) (fun _ => rfl) (fun _ => rfl) rfl fun _ _ h => ?_
  exact modTrav_moves rfl h

theorem rep_confined (t : Fin 8) (src : Bool) (count : Fin 1024) (reg : Fin 32) (len : Fin 64) : Confined laneParts (.rep t src
    count reg len) := by
  intro s u e
  change execRep t src count reg len s = .next u at e
  unfold execRep at e
  extract_lets T n at e
  refine issue_moves e rfl (.refl _ s) fun _ h => ?_
  exact modTrav_moves rfl h

theorem br_confined (t : Fin 8) (p : Pred) (mode : Fin 4) (target : Fin 4096) : Confined laneParts (.br t p mode target) := by
  intro s u e
  change execBr t p mode target s = .next u at e
  unfold execBr at e
  extract_lets T taken inKernel at e
  refine issue_moves e rfl (.refl _ s) fun _ h => ?_
  exact modTrav_moves rfl h

theorem end_confined (t : Fin 8) : Confined [.regs, .log, .trav, .samples, .freeCtr] (.end_ t) := by
  refine .issue (x := execEnd t) (fun _ => rfl) (fun _ => rfl) rfl fun _ _ h => ?_
  split
  · exact nextKernel_moves rfl (.forEach (fun _ _ k => emitOut_moves rfl k) h)
  · exact modTrav_moves rfl h

theorem hook_confined (t : Fin 8) (h : Fin 4) : Confined laneParts (.hook t h) := by
  refine .issue (x := execHook t h) (fun _ => rfl) (fun _ => rfl) rfl fun _ _ h => ?_
  exact nextKernel_moves rfl (modTrav_moves rfl (modTrav_moves rfl h))

theorem mode_confined (t : Fin 8) (g : Bool) : Confined laneParts (.mode t g) := by
  intro s u e
  change execMode t g s = .next u at e
  unfold execMode at e
  extract_lets T at e
  refine issue_moves e rfl (.refl _ s) fun _ h => ?_
  exact modTrav_moves rfl h

theorem aovclr_confined (t : Fin 8) (p : Pred) : Confined laneParts (.aovclr t p) :=
  .laneOp (fun _ => rfl) rfl

theorem wait_confined (t : Fin 8) (n : Fin 64) : Confined laneParts (.wait t n) := by
  refine .issue (x := execWait t n) (fun _ => rfl) (fun _ => rfl) rfl fun _ _ h => ?_
  exact .ite (modTrav_moves rfl h) h

theorem ld_confined (t : Fin 8) (p : Pred) (m : FmtM) : Confined laneParts (.ld t p m) :=
  .memOp (x := execLd t p m) (fun _ => rfl) (fun _ => rfl) rfl

theorem ldp_confined (t : Fin 8) (p : Pred) (m : FmtM) : Confined laneParts (.ldp t p m) :=
  .memOp (x := execLdp t p m) (fun _ => rfl) (fun _ => rfl) rfl

theorem st_confined (t : Fin 8) (p : Pred) (m : FmtM) : Confined laneParts (.st t p m) :=
  .memOp (x := execSt t p m) (fun _ => rfl) (fun _ => rfl) rfl

theorem stp_confined (t : Fin 8) (p : Pred) (m : FmtM) : Confined laneParts (.stp t p m) :=
  .memOp (x := execStp t p m) (fun _ => rfl) (fun _ => rfl) rfl

theorem ald_confined (t : Fin 8) (p : Pred) (m : FmtM) : Confined laneParts (.ald t p m) :=
  .memOp (x := execAld t p m) (fun _ => rfl) (fun _ => rfl) rfl

theorem ast_confined (t : Fin 8) (p : Pred) (m : FmtM) : Confined laneParts (.ast t p m) :=
  .memOp (x := execAst t p m) (fun _ => rfl) (fun _ => rfl) rfl

theorem xld_confined (t : Fin 8) (p : Pred) (f : FmtI) : Confined laneParts (.xld t p f) :=
  .laneOp (fun _ => rfl) rfl

theorem xadd_confined (t : Fin 8) (p : Pred) (f : FmtI) : Confined laneParts (.xadd t p f) :=
  .laneOp (fun _ => rfl) rfl

theorem alu_confined (t : Fin 8) (p : Pred) (r : FmtR) : Confined laneParts (.alu t p r) :=
  .laneOp (fun _ => rfl) rfl

theorem alud_confined (t : Fin 8) (p : Pred) (r : FmtR) : Confined laneParts (.alud t p r) :=
  .laneOp (fun _ => rfl) rfl

theorem alui_confined (t : Fin 8) (p : Pred) (f : FmtI) : Confined laneParts (.alui t p f) :=
  .laneOp (fun _ => rfl) rfl

theorem cmp_confined (t : Fin 8) (p : Pred) (r : FmtR) : Confined laneParts (.cmp t p r) :=
  .laneOp (fun _ => rfl) rfl

theorem cmpi_confined (t : Fin 8) (p : Pred) (f : FmtI) : Confined laneParts (.cmpi t p f) :=
  .laneOp (fun _ => rfl) rfl

theorem sel_confined (t : Fin 8) (p : Pred) (r : FmtR) : Confined laneParts (.sel t p r) :=
  .laneOp (fun _ => rfl) rfl

theorem movi_confined (t : Fin 8) (p : Pred) (rd : Fin 32) (imm : BitVec 20) (w : Bool) : Confined laneParts (.movi t p rd imm
    w) :=
  .laneOp (fun _ => rfl) rfl

theorem mac_confined (t : Fin 8) (p : Pred) (r : FmtR) : Confined laneParts (.mac t p r) :=
  .laneOp (fun _ => rfl) rfl

theorem cmac_confined (t : Fin 8) (p : Pred) (r : FmtR) : Confined laneParts (.cmac t p r) :=
  .laneOp (fun _ => rfl) rfl

theorem dmac_confined (t : Fin 8) (p : Pred) (r : FmtR) : Confined laneParts (.dmac t p r) :=
  .laneOp (fun _ => rfl) rfl

theorem aop_confined (t : Fin 8) (p : Pred) (r : FmtR) : Confined laneParts (.aop t p r) :=
  .laneOp (fun _ => rfl) rfl

theorem ash_confined (t : Fin 8) (p : Pred) (r : FmtR) : Confined laneParts (.ash t p r) :=
  .laneOp (fun _ => rfl) rfl

theorem atst_confined (t : Fin 8) (p : Pred) (r : FmtR) : Confined laneParts (.atst t p r) :=
  .laneOp (fun _ => rfl) rfl

theorem gmac_confined (t : Fin 8) (p : Pred) (r : FmtR) : Confined laneParts (.gmac t p r) :=
  .laneOp (fun _ => rfl) rfl

theorem atan_confined (t : Fin 8) (p : Pred) (r : FmtR) : Confined laneParts (.atan t p r) :=
  .laneOp (fun _ => rfl) rfl

theorem mag_confined (t : Fin 8) (p : Pred) (r : FmtR) : Confined laneParts (.mag t p r) :=
  .laneOp (fun _ => rfl) rfl

theorem mag2_confined (t : Fin 8) (p : Pred) (r : FmtR) : Confined laneParts (.mag2 t p r) :=
  .laneOp (fun _ => rfl) rfl

theorem unit_confined (t : Fin 8) (p : Pred) (r : FmtR) : Confined laneParts (.unit t p r) :=
  .laneOp (fun _ => rfl) rfl

theorem rot_confined (t : Fin 8) (p : Pred) (r : FmtR) : Confined laneParts (.rot t p r) := by
  intro s u e
  change execRot t p r s = .next u at e
  unfold execRot at e
  extract_lets d at e
  refine issue_moves e rfl (.setFreeCtr rfl (.refl _ s)) fun _ h => ?_
  exact settle_moves rfl (modTrav_moves rfl h)

theorem lnr_confined (t : Fin 8) (p : Pred) (r : FmtR) : Confined laneParts (.lnr t p r) := by
  intro s u e
  change execLnr t p r s = .next u at e
  unfold execLnr at e
  extract_lets d at e
  refine issue_moves e rfl (.setFreeCtr rfl (.refl _ s)) fun _ h => ?_
  exact settle_moves rfl (modTrav_moves rfl h)

theorem dbl_confined (t : Fin 8) (p : Pred) (r : FmtR) : Confined laneParts (.dbl t p r) :=
  .laneOp (fun _ => rfl) rfl

theorem expw_confined (t : Fin 8) (p : Pred) (r : FmtR) : Confined laneParts (.expw t p r) :=
  .laneOp (fun _ => rfl) rfl

theorem div_confined (t : Fin 8) (p : Pred) (r : FmtR) : Confined laneParts (.div t p r) :=
  .laneOp (fun _ => rfl) rfl

theorem maxi_confined (t : Fin 8) (p : Pred) (r : FmtR) : Confined laneParts (.maxi t p r) :=
  .laneOp (fun _ => rfl) rfl

theorem mini_confined (t : Fin 8) (p : Pred) (r : FmtR) : Confined laneParts (.mini t p r) :=
  .laneOp (fun _ => rfl) rfl

theorem portInput_confined (t : Fin 8) (p : Pred) (pair : Bool) (r : Fin 32) : Confined laneParts (.portInput t p pair r) := by
  intro s u e
  change execPortInput t p pair r s = .next u at e
  unfold execPortInput at e
  extract_lets n at e
  refine issue_moves e rfl (.refl _ s) fun _ h => ?_
  exact .ite (settle_moves rfl (modTrav_moves rfl h)) h

theorem portDramRead_confined (t : Fin 8) (p : Pred) (f : FmtP) : Confined laneParts (.portDramRead t p f) := by
  refine .issue (x := execPortDramRead t p f) (fun _ => rfl) (fun _ => rfl) rfl fun _ _ h => ?_
  exact .ite h (settle_moves rfl (modTrav_moves rfl h))

theorem portDramWrite_confined (t : Fin 8) (p : Pred) (f : FmtP) : Confined [.regs, .log, .trav, .dram, .freeCtr]
    (.portDramWrite t p f) := by
  intro s u e
  change execPortDramWrite t p f s = .next u at e
  unfold execPortDramWrite at e
  extract_lets n at e
  refine issue_moves e rfl (.refl _ s) fun _ h => ?_
  exact .ite h (settle_moves rfl (.folded (fun _ _ k => .ite (dramPut_moves rfl k) k) h))

theorem portXbufRead_confined (t : Fin 8) (p : Pred) (r ra : Fin 32) : Confined laneParts (.portXbufRead t p r ra) := by
  refine .issue (x := execPortXbufRead t p r ra) (fun _ => rfl) (fun _ => rfl) rfl fun _ _ h => ?_
  exact settle_moves rfl (modTrav_moves rfl h)

theorem portXbufWrite_confined (t : Fin 8) (p : Pred) (r ra : Fin 32) : Confined [.regs, .log, .trav, .xbuf, .freeCtr]
    (.portXbufWrite t p r ra) := by
  refine .issue (x := execPortXbufWrite t p r ra) (fun _ => rfl) (fun _ => rfl) rfl fun _ _ h => ?_
  exact settle_moves rfl (.setXbuf rfl (fun w => tabSet_foldIf_wf 0 _ _ _ _ _ w) h)

theorem out_confined (t : Fin 8) (p : Pred) (o : FmtO) : Confined [.regs, .log, .trav, .samples, .freeCtr] (.out t p o) := by
  intro s u e
  change execOut t p o s = .next u at e
  unfold execOut at e
  extract_lets n at e
  refine issue_moves e rfl (.refl _ s) fun _ h => ?_
  split
  · exact settle_moves rfl (modTrav_moves rfl h)
  · exact settle_moves rfl (.forEach (fun _ _ k => emitOut_moves rfl k) h)

theorem xch_confined (t : Fin 8) (p : Pred) (r : FmtR) : Confined laneParts (.xch t p r) := by
  refine .issue (x := execXch t p r) (fun _ => rfl) (fun _ => rfl) rfl fun _ _ h => ?_
  exact settle_moves rfl (modTrav_moves rfl h)

theorem prm_confined (t : Fin 8) (p : Pred) (f : FmtI) : Confined laneParts (.prm t p f) :=
  fun s u e => by
    change execPrm t p f s = .next u at e
    unfold execPrm at e
    split at e
    · exact laneOp_moves e rfl (.refl _ s)
    · exact laneOp_moves e rfl (.ite (.refl _ s) (draw_moves rfl (.refl _ s)))

theorem captureRequest_confined (line : Fin 2) : Confined [.sense] (.captureRequest line) :=
  .next (fun _ => rfl) fun _ h => .whenB h (wantCapture_moves rfl h)

theorem captureStart_confined (line : Fin 2) : Confined [.trav, .sense, .dram] (.captureStart line) :=
  .next (fun _ => rfl) fun _ h => .whenB h (startCapture_moves rfl h)

theorem datumSlow_confined (line : Fin 2) : Confined [.regs, .log, .sense] (.datumSlow line) :=
  .next (fun _ => rfl) fun _ h => datumSlowSt_moves rfl h

theorem ramanCapture_confined (line : Fin 2) (asSamples stSamples asDark stDark : List Int) : Confined [.regs, .trav, .probe,
    .conv, .sense] (.ramanCapture line asSamples stSamples asDark stDark) :=
  .next (fun _ => rfl) fun _ h => ramanCaptureSt_moves rfl h

theorem ramanBlockEnd_confined (line : Fin 2) : Confined [.regs, .trav, .sense] (.ramanBlockEnd line) :=
  .next (fun _ => rfl) fun _ h => .whenB h (endBlock_moves rfl h)

theorem ramanBlockSelfPass_confined (line : Fin 2) : Confined [.regs, .trav, .sense] (.ramanBlockSelfPass line) :=
  .next (fun _ => rfl) fun _ h => .whenB h (endBlock_moves rfl h)

theorem coilcal_confined (line : Fin 2) : Confined [.sense] (.coilcal line) :=
  .next (fun _ => rfl) fun _ h => coilcalSt_moves rfl h

theorem coilCalResume_confined (line : Fin 2) : Confined [.sense] (.coilCalResume line) :=
  .next (fun _ => rfl) fun _ h => by
    split
    · exact h
    · exact .whenB h (modRaman_moves rfl h)

theorem calAgeExpiry_confined (line : Fin 2) : Confined [.regs] (.calAgeExpiry line) :=
  .next (fun _ => rfl) fun _ h => setF_moves rfl h

theorem fusionStart_confined (line : Fin 2) : Confined [.regs, .trav, .sense, .samples, .dram, .freeCtr] (.fusionStart line) :=
  .next (fun _ => rfl) fun _ h => fusionSt_moves rfl h

theorem streamInput_confined (n : Fin 256) (stamp : Nat) : Confined [.regs, .net, .zn, .streams, .code] (.streamInput n stamp) :=
  .next (fun _ => rfl) fun _ h => streamInputSt_moves rfl h

theorem detectorSummary_confined (n : Fin 256) (d : Fin 4) : Confined [.regs, .net, .streams, .code] (.detectorSummary n d) :=
  .next (fun _ => rfl) fun _ h => summarySt_moves rfl h

theorem syncNEdge_confined : Confined [.regs, .log, .streams] .syncNEdge :=
  .next (fun _ => rfl) fun _ h => syncEdgeSt_moves rfl h

theorem stCmdSync_confined (n : Fin 256) : Confined [.regs, .log, .streams] (.stCmdSync n) :=
  .next (fun _ => rfl) fun _ h => addSync_moves rfl h

theorem streamReset_confined (n : Fin 256) : Confined [.regs, .net, .streams, .code] (.streamReset n) :=
  .next (fun _ => rfl) fun _ h => streamResetSt_moves rfl h

theorem swapRequest_confined (n : Fin 256) : Confined [.regs, .fu] (.swapRequest n) :=
  .next (fun _ => rfl) fun _ h => swapRequestSt_moves rfl h

theorem coefWrite_confined (n : Fin 256) (value : BitVec 20) : Confined [.regs, .streams] (.coefWrite n value) :=
  .next (fun _ => rfl) fun _ h => coefWrite_moves rfl h

theorem codeFrame_confined : Confined [.regs, .net, .code] .codeFrame :=
  .next (fun _ => rfl) fun _ h => codeFrameSt_moves rfl h

theorem ringWrite_confined : Confined [.regs, .code] .ringWrite :=
  .next (fun _ => rfl) fun _ h => ringWriteSt_moves rfl h

theorem ringGapTimeout_confined (n : Fin 256) : Confined [.code] (.ringGapTimeout n) :=
  .next (fun _ => rfl) fun _ h => by
    split
    · exact h
    · exact .ite (pushGap_moves rfl h) h

theorem cursorStart_confined (c : Fin 16) : Confined [.regs, .code] (.cursorStart c) :=
  .next (fun _ => rfl) fun _ h => cursorStartSt_moves rfl h

theorem cursorStop_confined (c : Fin 16) : Confined [.code] (.cursorStop c) :=
  .next (fun _ => rfl) fun _ h => cursorStopSt_moves rfl h

theorem seekOldest_confined (c : Fin 16) : Confined [.code] (.seekOldest c) :=
  .next (fun _ => rfl) fun _ h => beginSeek_moves rfl h

theorem seekNewest_confined (c : Fin 16) : Confined [.code] (.seekNewest c) :=
  .next (fun _ => rfl) fun _ h => beginSeek_moves rfl h

theorem seekSerial_confined (c : Fin 16) : Confined [.code] (.seekSerial c) :=
  .next (fun _ => rfl) fun _ h => beginSeek_moves rfl h

theorem seekDone_confined (c : Fin 16) : Confined [.regs, .code] (.seekDone c) :=
  .next (fun _ => rfl) fun _ h => seekDoneSt_moves rfl h

theorem cursorRead_confined (c : Fin 16) : Confined [.regs, .net, .code] (.cursorRead c) :=
  .next (fun _ => rfl) fun _ h => cursorReadSt_moves rfl h

theorem zoneStaleTimeout_confined (z : Fin 4096) : Confined [.regs, .net, .zn] (.zoneStaleTimeout z) :=
  .next (fun _ => rfl) fun _ h => zoneStaleSt_moves rfl h

theorem zonePortUpdate_confined (z : Fin 4096) : Confined [.regs, .zn] (.zonePortUpdate z) :=
  .next (fun _ => rfl) fun _ h => .whenB h (portUpdate_moves rfl h)

theorem zqSelect_confined (addr : Fin 4096) : Confined [.zn] (.zqSelect addr) :=
  .next (fun _ => rfl) fun _ h => modZn_moves rfl h

theorem zqAddressChange_confined (addr : Fin 4096) : Confined [.zn] (.zqAddressChange addr) :=
  .next (fun _ => rfl) fun _ h => modZn_moves rfl h

theorem zqDeselect_confined : Confined [.zn] .zqDeselect :=
  .next (fun _ => rfl) fun _ h => applyHeld_moves rfl (modZn_moves rfl h)

theorem zqForceTimeout_confined : Confined [.regs, .zn] .zqForceTimeout :=
  .next (fun _ => rfl) fun _ h => .whenB h (applyHeld_moves rfl (bumpBy_moves rfl (modZn_moves rfl h)))

theorem alarmStretchExpiry_confined (pin : Fin 4) : Confined [.zn] (.alarmStretchExpiry pin) :=
  .next (fun _ => rfl) fun _ h => evalPin_moves rfl h

theorem znAck_confined : Confined [.zn] .znAck :=
  .next (fun _ => rfl) fun _ h => znAckSt_moves rfl h

theorem loopFaultTimer_confined (n : Fin 8) : Confined [.zn] (.loopFaultTimer n) :=
  .next (fun _ => rfl) fun _ h => .whenB h (loopFault_moves rfl h)

theorem loopReleaseTimer_confined (n : Fin 8) : Confined [.regs, .keeper, .zn, .freeCtr] (.loopReleaseTimer n) :=
  .next (fun _ => rfl) fun _ h => .whenB h (mbxLoopReleaseSt_moves rfl h)

theorem loopReleaseCmd_confined (n : Fin 8) : Confined [.regs, .keeper, .zn, .freeCtr] (.loopReleaseCmd n) :=
  .next (fun _ => rfl) fun _ h => loopReleaseCmdSt_moves rfl h

theorem loopOpen_confined (n : Fin 8) : Confined [.regs, .log] (.loopOpen n) :=
  .next (fun _ => rfl) fun _ h => logEvent_moves rfl (setF_moves rfl h)

theorem loopDeviation_confined (n : Fin 8) : Confined [.regs, .log] (.loopDeviation n) :=
  .next (fun _ => rfl) fun _ h => .whenB h (logEvent_moves rfl (setF_moves rfl h))

theorem loopConditionClear_confined (n : Fin 8) (openCond : Bool) : Confined [.regs] (.loopConditionClear n openCond) :=
  .next (fun _ => rfl) fun _ h => setF_moves rfl h

theorem m0ConversionEnd_confined (d : Int) : Confined [.regs, .hk, .zn, .freeCtr] (.m0ConversionEnd d) :=
  .next (fun _ => rfl) fun _ h => m0EndSt_moves rfl h

theorem m1FrameStart_confined : Confined [.hk] .m1FrameStart :=
  .next (fun _ => rfl) fun _ h => m1FrameSt_moves rfl h

theorem m1ConversionEnd_confined (ch : Fin 32) (value : Int) (isOver : Bool) : Confined [.regs, .keeper, .log, .fu, .trav,
    .probe, .conv, .pce, .sense, .net, .time, .mem, .hk, .zn, .streams, .code] (.m1ConversionEnd ch value isOver) :=
  .next (fun _ => rfl) fun _ h => m1EndSt_moves rfl h

theorem notchLengthUpdate_confined (count : Nat) : Confined [.hk] (.notchLengthUpdate count) :=
  .next (fun _ => rfl) fun _ h => notchSt_moves rfl h

theorem hkRefWindowExit_confined : Confined [.regs, .log, .hk] .hkRefWindowExit :=
  .next (fun _ => rfl) fun _ h => refExitSt_moves rfl h

theorem hkRefRestore_confined : Confined [.hk] .hkRefRestore :=
  .next (fun _ => rfl) fun _ h => hkChooseRef_moves rfl (modHk_moves rfl h)

theorem urgentRequest_confined (ch : Fin 32) : Confined [.regs, .hk] (.urgentRequest ch) :=
  .next (fun _ => rfl) fun _ h => urgentSt_moves rfl h

theorem burnoutPulse_confined (n : Fin 4) (openBalls : BitVec 4) : Confined [.regs, .log, .sense, .hk, .zn] (.burnoutPulse n
    openBalls) :=
  .next (fun _ => rfl) fun _ h => burnoutSt_moves rfl h

theorem rtdOpenClear_confined (n : Fin 4) : Confined [.hk, .zn] (.rtdOpenClear n) :=
  .next (fun _ => rfl) fun _ h => rtdClearSt_moves rfl h

theorem trefPresent_confined (is100 : Bool) : Confined [.regs, .log, .time, .hk, .freeCtr] (.trefPresent is100) :=
  .next (fun _ => rfl) fun _ h => timeRefs_moves rfl (modTime_moves rfl h)

theorem trefLoss_confined : Confined [.regs, .log, .time, .hk, .freeCtr] .trefLoss :=
  .next (fun _ => rfl) fun _ h => timeRefs_moves rfl (modTime_moves rfl h)

theorem timeNoClock_confined : Confined [.regs, .log, .time, .hk, .freeCtr] .timeNoClock :=
  .next (fun _ => rfl) fun _ h => .whenB h (timeRefs_moves rfl h)

theorem timeRelock_confined : Confined [.regs, .log, .time, .hk, .freeCtr] .timeRelock :=
  .next (fun _ => rfl) fun _ h => .whenB h (timeRefs_moves rfl h)

theorem disciplineMeasurement_confined (e : Int) (tm : Nat) : Confined [.regs, .log, .probe, .time, .now]
    (.disciplineMeasurement e tm) :=
  .next (fun _ => rfl) fun _ h => .whenB h (measure_moves rfl h)

theorem ppsEdge_confined (q f : Nat) : Confined [.regs, .log, .probe, .net, .time, .now, .freeCtr] (.ppsEdge q f) :=
  .next (fun _ => rfl) fun _ h => ppsEdgeSt_moves rfl h

theorem ppsLoss_confined : Confined [.regs, .time] .ppsLoss :=
  .next (fun _ => rfl) fun _ h => .whenB h (.ite (enterHoldover_moves rfl (modTime_moves rfl h)) (modTime_moves rfl h))

theorem hostHoldover_confined : Confined [.regs, .time] .hostHoldover :=
  .next (fun _ => rfl) fun _ h => .whenB h (enterHoldover_moves rfl h)

theorem timeSet_confined (src tag seq t : Nat) : Confined [.regs, .log, .probe, .net, .time, .now, .freeCtr] (.timeSet src tag
    seq t) :=
  .next (fun _ => rfl) fun _ h => timeSetSt_moves rfl h

theorem timeTrack_confined (src tag seq t : Nat) : Confined [.regs, .log, .probe, .net, .time, .now, .freeCtr] (.timeTrack src
    tag seq t) :=
  .next (fun _ => rfl) fun _ h => timeTrackSt_moves rfl h

theorem timePpsLabel_confined (src tag seq seconds : Nat) : Confined [.regs, .net, .time, .freeCtr] (.timePpsLabel src tag seq
    seconds) :=
  .next (fun _ => rfl) fun _ h => timeLabelSt_moves rfl h

theorem ppsOutPulse_confined : Confined [.time] .ppsOutPulse :=
  .next (fun _ => rfl) fun _ h => ppsOut_moves rfl h

theorem timeSnapshot_confined (src : Fin 4) : Confined [.regs, .freeCtr] (.timeSnapshot src) :=
  .next (fun _ => rfl) fun _ h => snapSt_moves rfl h

theorem timeAdjust_confined : Confined [.regs, .log, .probe, .time, .now] .timeAdjust :=
  .next (fun _ => rfl) fun _ h => adjustSt_moves rfl h

theorem tdcEdge_confined (ch : Fin 9) (falling : Bool) (q f : Nat) : Confined [.regs, .log, .probe, .net, .time, .now,
    .freeCtr] (.tdcEdge ch falling q f) :=
  .next (fun _ => rfl) fun _ h => tdcEdgeSt_moves rfl h

theorem tdcGateChange_confined (g : Fin 4) (level : Bool) : Confined [.time] (.tdcGateChange g level) :=
  .next (fun _ => rfl) fun _ h => gateSt_moves rfl h

theorem tdcWindowEnd_confined (g : Fin 4) : Confined [.time] (.tdcWindowEnd g) :=
  .next (fun _ => rfl) fun _ h => .folded (fun _ _ k => .ite (modTdc_moves rfl k) k) h

theorem tdcArm_confined (ch : Fin 9) : Confined [.time] (.tdcArm ch) :=
  .next (fun _ => rfl) fun _ h => softArm_moves rfl h

theorem tdcDisarm_confined (ch : Fin 9) : Confined [.time] (.tdcDisarm ch) :=
  .next (fun _ => rfl) fun _ h => softArm_moves rfl h

theorem tdcPop_confined (ch : Fin 9) : Confined [.regs, .time] (.tdcPop ch) :=
  .next (fun _ => rfl) fun _ h => tdcPopSt_moves rfl h

theorem tdcFlushTimer_confined (ch : Fin 9) : Confined [.net, .time] (.tdcFlushTimer ch) :=
  .next (fun _ => rfl) fun _ h => .whenB h (sendTdc_moves rfl h)

theorem tdcPairHoldEnd_confined (pair : Fin 4) : Confined [.regs, .net, .time] (.tdcPairHoldEnd pair) :=
  .next (fun _ => rfl) fun _ h => pairHoldSt_moves rfl h

theorem tdcPairWindowExpiry_confined (pair : Fin 4) : Confined [.regs, .time] (.tdcPairWindowExpiry pair) :=
  .next (fun _ => rfl) fun _ h => by
    split
    · exact .whenB h (bump_moves rfl (modTdc_moves rfl h))
    · exact h

theorem tdcCal_confined (ch : Fin 9) : Confined [.time] (.tdcCal ch) :=
  .next (fun _ => rfl) fun _ h => startTdcCal_moves rfl h

theorem tdcCalComplete_confined (ch : Fin 9) (hist : List Nat) : Confined [.regs, .log, .time] (.tdcCalComplete ch hist) :=
  .next (fun _ => rfl) fun _ h => tdcCalDoneSt_moves rfl h

theorem tdcCalTimeout_confined (ch : Fin 9) : Confined [.regs, .log, .time] (.tdcCalTimeout ch) :=
  .next (fun _ => rfl) fun _ h => .whenB h (failTdcCal_moves rfl h)

theorem tdcCalRetry_confined (ch : Fin 9) : Confined [.time] (.tdcCalRetry ch) :=
  .next (fun _ => rfl) fun _ h => .whenB h (.ite (startTdcCal_moves rfl h) (modTdc_moves rfl h))

theorem tdcCalPeriod_confined (ch : Fin 9) : Confined [.time] (.tdcCalPeriod ch) :=
  .next (fun _ => rfl) fun _ h => .whenB h (startTdcCal_moves rfl h)

theorem monWindowExpiry_confined (line : Fin 2) : Confined [.regs, .log, .time] (.monWindowExpiry line) :=
  .next (fun _ => rfl) fun _ h => monExpirySt_moves rfl h

theorem laneDetectDone_confined (q : Fin 3) (present : BitVec 4) : Confined [.net] (.laneDetectDone q present) :=
  .next (fun _ => rfl) fun _ h => detectDoneSt_moves rfl h

theorem absentRetry_confined (q : Fin 3) : Confined [.net] (.absentRetry q) :=
  .next (fun _ => rfl) fun _ h => .whenB h (modQuad_moves rfl h)

theorem linkActive_confined (q : Fin 3) : Confined [.regs, .net] (.linkActive q) :=
  .next (fun _ => rfl) fun _ h => linkActiveSt_moves rfl h

theorem blindTimeout_confined (q : Fin 3) : Confined [.regs, .net] (.blindTimeout q) :=
  .next (fun _ => rfl) fun _ h => blindTimeoutSt_moves rfl h

theorem trainingSetReceived_confined (q : Fin 3) (p : Fin 4) (symbols : List Nat) : Confined [.net] (.trainingSetReceived q p
    symbols) :=
  .next (fun _ => rfl) fun _ h => trainSetSt_moves rfl h

theorem trainStepPass_confined (q : Fin 3) (lanes : BitVec 4) : Confined [.regs, .log, .net] (.trainStepPass q lanes) :=
  .next (fun _ => rfl) fun _ h => .whenB h (stepIfDone_moves rfl (modQuad_moves rfl h))

theorem trainStepTimeout_confined (q : Fin 3) (lanes : BitVec 4) : Confined [.regs, .log, .net] (.trainStepTimeout q lanes) :=
  .next (fun _ => rfl) fun _ h => .whenB h (endStep_moves rfl h)

theorem downRetry_confined (q : Fin 3) : Confined [.net] (.downRetry q) :=
  .next (fun _ => rfl) fun _ h => .whenB h (modQuad_moves rfl (toDetect_moves rfl h))

theorem laneLos_confined (q : Fin 3) (p : Fin 4) : Confined [.regs, .log, .net] (.laneLos q p) :=
  .next (fun _ => rfl) fun _ h => laneLosSt_moves rfl h

theorem losDetectReturn_confined (q : Fin 3) (p : Fin 4) : Confined [.net] (.losDetectReturn q p) :=
  .next (fun _ => rfl) fun _ h => .whenB h (modQuad_moves rfl h)

theorem linkFaultDetect_confined (q : Fin 3) (cause : Fin 8) : Confined [.regs, .net] (.linkFaultDetect q cause) :=
  .next (fun _ => rfl) fun _ h => linkFaultSt_moves rfl h

theorem orderedSetInsert_confined (q : Fin 3) : Confined [.net] (.orderedSetInsert q) :=
  .next (fun _ => rfl) fun _ h => .whenB h (modQuad_moves rfl h)

theorem idleWake_confined (q : Fin 3) : Confined [.net] (.idleWake q) :=
  .next (fun _ => rfl) fun _ h => .whenB h (wakeQuad_moves rfl h)

theorem linkReset_confined (q : Fin 3) : Confined [.regs, .net] (.linkReset q) :=
  .next (fun _ => rfl) fun _ h => linkResetSt_moves rfl h

theorem feLoopbackExit_confined (q : Fin 3) : Confined [.net] (.feLoopbackExit q) :=
  .next (fun _ => rfl) fun _ h => .whenB h (toDetect_moves rfl h)

theorem credit_confined (l : Fin 3) (grants : List Nat) : Confined [.net] (.credit l grants) :=
  .next (fun _ => rfl) fun _ h => .whenB h (creditSt_moves rfl h)

theorem creditSend_confined (l : Fin 3) : Confined [.net] (.creditSend l) :=
  .next (fun _ => rfl) fun _ h => .whenB h (sendOn_moves rfl h)

theorem read_confined (l : Fin 3) (tag src : Nat) (addr : BitVec 20) (count : Nat) : Confined [.regs, .net, .mgmt, .freeCtr]
    (.read l tag src addr count) :=
  .next (fun _ => rfl) fun _ h => receive_moves rfl (fun _ k => linkReadSt_moves rfl k) h

theorem write_confined (l : Fin 3) (tag src : Nat) (addr mask : BitVec 20) (values : List (BitVec 20)) : Confined [.regs,
    .keeper, .log, .fu, .trav, .pce, .sense, .net, .time, .hk, .zn, .streams, .code, .mgmt, .freeCtr] (.write l tag src addr
    mask values) :=
  .next (fun _ => rfl) fun _ h => receive_moves rfl (fun _ k => linkWriteSt_moves rfl k) h

theorem timedSend_confined (l : Fin 3) (tag src : Nat) (words : List Word) : Confined [.regs, .net] (.timedSend l tag src
    words) :=
  .next (fun _ => rfl) fun _ h => receive_moves rfl (fun _ k => timedSendSt_moves rfl k) h

theorem timedLaunch_confined : Confined [.regs, .net] .timedLaunch :=
  .next (fun _ => rfl) fun _ h => timedLaunchSt_moves rfl h

theorem frameForward_confined (l : Fin 3) (symbols : List Nat) : Confined [.regs, .cfg, .keeper, .book, .log, .fu, .trav,
    .probe, .pce, .sense, .net, .time, .hk, .zn, .streams, .code, .mgmt, .now, .freeCtr] (.frameForward l symbols) :=
  .next (fun _ => rfl) fun _ h => .whenB h (.folded (fun _ _ k => takeItem_moves rfl k) h)

theorem levelRunStart_confined : Confined [.regs, .net, .time] .levelRunStart :=
  .next (fun _ => rfl) fun _ h => levelStartSt_moves rfl h

theorem levelReq_confined (l : Fin 3) (frame : Frame) (stamp : Nat) : Confined [.regs, .net] (.levelReq l frame stamp) :=
  .next (fun _ => rfl) fun _ h => receive_moves rfl (fun _ k => levelReqSt_moves rfl k) h

theorem levelResp_confined (l : Fin 3) (frame : Frame) (stamp : Nat) : Confined [.regs, .net] (.levelResp l frame stamp) :=
  .next (fun _ => rfl) fun _ h => receive_moves rfl (fun _ k => levelRespSt_moves rfl k) h

theorem levelRunEnd_confined : Confined [.regs, .log, .probe, .net, .time, .now, .freeCtr] .levelRunEnd :=
  .next (fun _ => rfl) fun _ h => levelEndSt_moves rfl h

theorem chainSync_confined (l : Fin 3) (frame : Frame) : Confined [.regs, .log, .net, .streams] (.chainSync l frame) :=
  .next (fun _ => rfl) fun _ h => receive_moves rfl (fun _ k => chainSyncSt_moves rfl k) h

theorem dramTrainingDone_confined (failed : BitVec 8) : Confined [.regs, .keeper, .book, .log, .fu, .trav, .probe, .conv,
    .sense, .net, .mem, .zn, .streams, .code, .xbuf] (.dramTrainingDone failed) :=
  .next (fun _ => rfl) fun _ h => trainingDoneSt_moves rfl h

theorem dqsOscRead_confined (drift : List Int) : Confined [.mem] (.dqsOscRead drift) :=
  .next (fun _ => rfl) fun _ h => .ite h (modMem_moves rfl h)

theorem shortRetrainStart_confined (ch : Fin 4) : Confined [.regs, .mem] (.shortRetrainStart ch) :=
  .next (fun _ => rfl) fun _ h => shortRetrainSt_moves rfl h

theorem trainingCollectionDone_confined (ch : Fin 4) (pass : Bool) : Confined allButOtp (.trainingCollectionDone ch pass) :=
  .next (fun _ => rfl) fun _ h => collectionSt_moves rfl h

theorem freqChangeDone_confined : Confined [.regs, .book, .log, .trav, .sense, .net, .mem, .zn, .streams, .code, .xbuf]
    .freqChangeDone :=
  .next (fun _ => rfl) fun _ h => freqDoneSt_moves rfl h

theorem thermalReturn_confined : Confined [.mem] .thermalReturn :=
  .next (fun _ => rfl) fun _ h => thermalReturnSt_moves rfl h

theorem dramRead_confined (addr : Nat) (single double other : Bool) : Confined allButOtp (.dramRead addr single double other) :=
  .next (fun _ => rfl) fun _ h => readCheck_moves rfl h

theorem freezeEnd_confined (intact : Bool) : Confined allButOtp (.freezeEnd intact) :=
  .next (fun _ => rfl) fun _ h => freezeEndSt_moves rfl h

theorem freezeTimeout_confined : Confined allButOtp .freezeTimeout :=
  .next (fun _ => rfl) fun _ h => freezeTimeoutSt_moves rfl h

theorem channelLossDone_confined : Confined [.regs, .book, .log, .trav, .sense, .net, .mem, .zn, .streams, .code, .dram, .xbuf,
    .freeCtr] .channelLossDone :=
  .next (fun _ => rfl) fun _ h => channelLossSt_moves rfl h

theorem scrubRead_confined (single double other : Bool) : Confined allButOtp (.scrubRead single double other) :=
  .next (fun _ => rfl) fun _ h => scrubSt_moves rfl h

theorem c3AgePromote_confined : Confined [.regs] .c3AgePromote :=
  .next (fun _ => rfl) fun _ h => bump_moves rfl h

theorem standbyExitStep_confined : Confined allButOtp .standbyExitStep :=
  .next (fun _ => rfl) fun _ h => exitStepSt_moves rfl h

theorem scsLockLoss_confined : Confined [.regs, .keeper, .log, .fu, .probe, .conv, .net, .zn] .scsLockLoss :=
  .next (fun _ => rfl) fun _ h => lockLoss_moves rfl h

theorem scsRelock_confined : Confined [.regs, .keeper, .log, .trav, .probe, .conv, .pce, .sense, .net, .hk, .zn, .streams,
    .code, .xbuf] .scsRelock :=
  .next (fun _ => rfl) fun _ h => relockSt_moves rfl h

theorem refclkLoss_confined : Confined [.regs, .keeper, .log, .net, .time, .hk, .freeCtr] .refclkLoss :=
  .next (fun _ => rfl) fun _ h => refLossSt_moves rfl h

theorem scsFreerunTimeout_confined : Confined [.regs, .keeper, .log, .fu, .probe, .conv, .net, .zn] .scsFreerunTimeout :=
  .next (fun _ => rfl) fun _ h => freerunSt_moves rfl h

theorem refclkReturn_confined : Confined [.regs, .keeper, .log, .net, .time, .hk, .freeCtr] .refclkReturn :=
  .next (fun _ => rfl) fun _ h => refReturnSt_moves rfl h

theorem refclkAltLoss_confined : Confined [.regs, .keeper, .log, .fu, .probe, .conv, .net, .time, .hk, .zn, .freeCtr]
    .refclkAltLoss :=
  .next (fun _ => rfl) fun _ h => altLossSt_moves rfl h

theorem hostFenceIssue_confined (path : Path) : Confined [.regs, .keeper, .log, .fu, .trav, .pce, .sense, .net, .time, .hk,
    .zn, .streams, .code, .mgmt, .freeCtr] (.hostFenceIssue path) :=
  .next (fun _ => rfl) fun _ h => writeSt_moves rfl h

theorem registerSnapshot_confined (path : Path) (clear : Bool) (count : Fin 8) : Confined [.regs, .keeper, .log, .fu, .trav,
    .pce, .sense, .net, .time, .hk, .zn, .streams, .code, .mgmt, .freeCtr] (.registerSnapshot path clear count) :=
  .next (fun _ => rfl) fun _ h => writeSt_moves rfl h

theorem loReadCapture_confined (path : Path) (addr : BitVec 20) : Confined [.regs, .mgmt, .freeCtr] (.loReadCapture path addr) :=
  .next (fun _ => rfl) fun _ h => readSt_moves rfl h

theorem hiReadShadow_confined (path : Path) (addr : BitVec 20) : Confined [.regs, .mgmt, .freeCtr] (.hiReadShadow path addr) :=
  .next (fun _ => rfl) fun _ h => readSt_moves rfl h

theorem loWriteStage_confined (path : Path) (addr value mask : BitVec 20) : Confined [.regs, .keeper, .log, .fu, .trav, .pce,
    .sense, .net, .time, .hk, .zn, .streams, .code, .mgmt, .freeCtr] (.loWriteStage path addr value mask) :=
  .next (fun _ => rfl) fun _ h => writeSt_moves rfl h

theorem hiWriteCommit_confined (path : Path) (addr value mask : BitVec 20) : Confined [.regs, .keeper, .log, .fu, .trav, .pce,
    .sense, .net, .time, .hk, .zn, .streams, .code, .mgmt, .freeCtr] (.hiWriteCommit path addr value mask) :=
  .next (fun _ => rfl) fun _ h => writeSt_moves rfl h

theorem loStageExpiry_confined (path : Path) : Confined [.mgmt] (.loStageExpiry path) :=
  .next (fun _ => rfl) fun _ h => .whenB h (modPath_moves rfl h)

theorem rcRead_confined (path : Path) (addr : BitVec 20) : Confined [.regs, .mgmt, .freeCtr] (.rcRead path addr) :=
  .next (fun _ => rfl) fun _ h => readSt_moves rfl h

theorem registerWrite_confined (path : Path) (addr value mask : BitVec 20) : Confined [.regs, .keeper, .log, .fu, .trav, .pce,
    .sense, .net, .time, .hk, .zn, .streams, .code, .mgmt, .freeCtr] (.registerWrite path addr value mask) :=
  .next (fun _ => rfl) fun _ h => writeSt_moves rfl h

theorem eventLogSelect_confined (index : Fin 1024) : Confined [.regs] (.eventLogSelect index) :=
  .next (fun _ => rfl) fun _ h => evShow_moves rfl (setF_moves rfl h)

theorem svcRegRead_confined (addr : BitVec 24) (count : Nat) : Confined [.regs, .mgmt, .freeCtr] (.svcRegRead addr count) :=
  .next (fun _ => rfl) fun _ h => svcReadSt_moves rfl h

theorem svcRegWrite_confined (addr mask : BitVec 24) (values : List (BitVec 24)) : Confined [.regs, .keeper, .log, .fu, .trav,
    .pce, .sense, .net, .time, .hk, .zn, .streams, .code, .mgmt, .freeCtr] (.svcRegWrite addr mask values) :=
  .next (fun _ => rfl) fun _ h => svcWriteSt_moves rfl h

theorem svcStatus_confined : Confined [.mgmt] .svcStatus :=
  .next (fun _ => rfl) fun _ h => modMgmt_moves rfl rfl rfl h

theorem flashRead_confined (addr : BitVec 32) (count : Nat) : Confined [.mgmt] (.flashRead addr count) :=
  .next (fun _ => rfl) fun _ h => flashCmd_moves rfl rfl rfl h

theorem flashProgram_confined (addr : BitVec 32) (bytes : List Byte) : Confined [.mgmt] (.flashProgram addr bytes) :=
  .next (fun _ => rfl) fun _ h => .whenB h (flashCmd_moves rfl rfl rfl h)

theorem flashErase_confined (addr : BitVec 32) : Confined [.mgmt] (.flashErase addr) :=
  .next (fun _ => rfl) fun _ h => flashCmd_moves rfl rfl rfl h

theorem flashOpDone_confined (ok : Bool) : Confined [.mgmt, .flash, .freeCtr] (.flashOpDone ok) :=
  .next (fun _ => rfl) fun _ h => flashOpDoneSt_moves rfl h

theorem refclkAltPresent_confined : Confined [.regs, .keeper, .log, .time, .hk, .freeCtr] .refclkAltPresent :=
  .next (fun _ => rfl) fun _ h => altPresentSt_moves rfl h

theorem eiosReceived_confined (q : Fin 3) (p : Fin 4) : Confined [.net] (.eiosReceived q p) :=
  .next (fun _ => rfl) fun _ h => .ite (toDetect_moves rfl (modQuad_moves rfl h)) (modQuad_moves rfl h)

theorem mr4Readout_confined (hot cool : Bool) : Confined [.mem] (.mr4Readout hot cool) :=
  .next (fun _ => rfl) fun _ h => mr4St_moves rfl h

theorem keeperSramError_confined : Confined allButOtp .keeperSramError :=
  .next (fun _ => rfl) fun _ h => coldReset_moves rfl h

theorem snapshotComplete_confined : Confined [.regs, .mgmt] .snapshotComplete :=
  .next (fun _ => rfl) fun _ h => snapDoneSt_moves rfl h

theorem jtagAccess_confined (ir : BitVec 8) : Confined [.mgmt, .freeCtr] (.jtagAccess ir) :=
  .next (fun _ => rfl) fun _ h => jtagSt_moves rfl h

/-! ### A step -/

/-- Every command has a frame within which it keeps the invariants. -/
theorem exec_confined : ∀ c : Instr, ∃ ps, Confined ps c
  | .powerOnReset => ⟨_, powerOnReset_confined⟩
  | .pwrgoodRise => ⟨_, pwrgoodRise_confined⟩
  | .pwrgoodFall => ⟨_, pwrgoodFall_confined⟩
  | .resetNLow => ⟨_, resetNLow_confined⟩
  | .resetNRise => ⟨_, resetNRise_confined⟩
  | .otpReadDone => ⟨_, otpReadDone_confined⟩
  | .xspiInitDone sfdp => ⟨_, xspiInitDone_confined sfdp⟩
  | .stagingFilled => ⟨_, stagingFilled_confined⟩
  | .imageVerificationDone readA readB => ⟨_, imageVerificationDone_confined readA readB⟩
  | .stage1Release => ⟨_, stage1Release_confined⟩
  | .stage2Loaded => ⟨_, stage2Loaded_confined⟩
  | .selfTestDone t failLane => ⟨_, selfTestDone_confined t failLane⟩
  | .planApplied => ⟨_, planApplied_confined⟩
  | .scsFinalLock => ⟨_, scsFinalLock_confined⟩
  | .mbxHeartbeat => ⟨_, mbxHeartbeat_confined⟩
  | .mbxBootComplete => ⟨_, mbxBootComplete_confined⟩
  | .mbxLaserArm line => ⟨_, mbxLaserArm_confined line⟩
  | .mbxLaserDisarm line => ⟨_, mbxLaserDisarm_confined line⟩
  | .mbxResetWarm => ⟨_, mbxResetWarm_confined⟩
  | .mbxResetCold => ⟨_, mbxResetCold_confined⟩
  | .mbxResetLine line => ⟨_, mbxResetLine_confined line⟩
  | .mbxStandbyEnter => ⟨_, mbxStandbyEnter_confined⟩
  | .mbxStandbyExit => ⟨_, mbxStandbyExit_confined⟩
  | .mbxDramFreq sp => ⟨_, mbxDramFreq_confined sp⟩
  | .mbxRecordHash amendedPlan => ⟨_, mbxRecordHash_confined amendedPlan⟩
  | .mbxLoopRelease n => ⟨_, mbxLoopRelease_confined n⟩
  | .mbxStaleClear line => ⟨_, mbxStaleClear_confined line⟩
  | .mbxLifecycle addr token => ⟨_, mbxLifecycle_confined addr token⟩
  | .mbxBadCode code => ⟨_, mbxBadCode_confined code⟩
  | .watchdogPeriodExpiry => ⟨_, watchdogPeriodExpiry_confined⟩
  | .warmHashCheck => ⟨_, warmHashCheck_confined⟩
  | .lineResetDone line => ⟨_, lineResetDone_confined line⟩
  | .standbyThermalExit => ⟨_, standbyThermalExit_confined⟩
  | .resetCmd => ⟨_, resetCmd_confined⟩
  | .standbyCmd => ⟨_, standbyCmd_confined⟩
  | .fenceIssue scope => ⟨_, fenceIssue_confined scope⟩
  | .fenceAck island id => ⟨_, fenceAck_confined island id⟩
  | .fenceComplete => ⟨_, fenceComplete_confined⟩
  | .fenceTimeout id => ⟨_, fenceTimeout_confined id⟩
  | .rwfAutoFence => ⟨_, rwfAutoFence_confined⟩
  | .traverseClockChangeDone t => ⟨_, traverseClockChangeDone_confined t⟩
  | .amend link words => ⟨_, amend_confined link words⟩
  | .featureOfferRepeat l => ⟨_, featureOfferRepeat_confined l⟩
  | .featureAccept l word serial => ⟨_, featureAccept_confined l word serial⟩
  | .featureOfferReceived l word serial changed => ⟨_, featureOfferReceived_confined l word serial changed⟩
  | .featureChangedRepeat l => ⟨_, featureChangedRepeat_confined l⟩
  | .launchCmdArrive line slot => ⟨_, launchCmdArrive_confined line slot⟩
  | .probeLaunch line => ⟨_, probeLaunch_confined line⟩
  | .envelopeSubwindowEnd line => ⟨_, envelopeSubwindowEnd_confined line⟩
  | .interlockTrip line => ⟨_, interlockTrip_confined line⟩
  | .interlockRelease line => ⟨_, interlockRelease_confined line⟩
  | .fibreBreakRaise line => ⟨_, fibreBreakRaise_confined line⟩
  | .fibreBreakClear line => ⟨_, fibreBreakClear_confined line⟩
  | .rotationStep line input window => ⟨_, rotationStep_confined line input window⟩
  | .spareMeasureDone line input offset gain thresholds => ⟨_, spareMeasureDone_confined line input offset gain thresholds⟩
  | .correctionStep line => ⟨_, correctionStep_confined line⟩
  | .refFallback line => ⟨_, refFallback_confined line⟩
  | .refSettled line => ⟨_, refSettled_confined line⟩
  | .priorityPassEnd line input => ⟨_, priorityPassEnd_confined line input⟩
  | .fgCalInputDone line input values => ⟨_, fgCalInputDone_confined line input values⟩
  | .fullFgCalDone line values gains => ⟨_, fullFgCalDone_confined line values gains⟩
  | .overRange line input length gap => ⟨_, overRange_confined line input length gap⟩
  | .ramanFgCalStart line => ⟨_, ramanFgCalStart_confined line⟩
  | .ramanFgCalForce line => ⟨_, ramanFgCalForce_confined line⟩
  | .ramanFgCalDone line values gains => ⟨_, ramanFgCalDone_confined line values gains⟩
  | .captureWindowEnd line => ⟨_, captureWindowEnd_confined line⟩
  | .recal line => ⟨_, recal_confined line⟩
  | .launchMeasureDone line => ⟨_, launchMeasureDone_confined line⟩
  | .launchMeasureTimeout line => ⟨_, launchMeasureTimeout_confined line⟩
  | .traceDeliver line slot pol samples => ⟨_, traceDeliver_confined line slot pol samples⟩
  | .shotPass t => ⟨_, shotPass_confined t⟩
  | .outputPass t => ⟨_, outputPass_confined t⟩
  | .ramanPass t => ⟨_, ramanPass_confined t⟩
  | .servicePass t => ⟨_, servicePass_confined t⟩
  | .backgroundSlice t => ⟨_, backgroundSlice_confined t⟩
  | .passDrop t => ⟨_, passDrop_confined t⟩
  | .recoveryPass t failLane => ⟨_, recoveryPass_confined t failLane⟩
  | .nop t => ⟨_, nop_confined t⟩
  | .rep t src count reg len => ⟨_, rep_confined t src count reg len⟩
  | .br t p mode target => ⟨_, br_confined t p mode target⟩
  | .end_ t => ⟨_, end_confined t⟩
  | .hook t h => ⟨_, hook_confined t h⟩
  | .mode t g => ⟨_, mode_confined t g⟩
  | .aovclr t p => ⟨_, aovclr_confined t p⟩
  | .wait t n => ⟨_, wait_confined t n⟩
  | .ld t p m => ⟨_, ld_confined t p m⟩
  | .ldp t p m => ⟨_, ldp_confined t p m⟩
  | .st t p m => ⟨_, st_confined t p m⟩
  | .stp t p m => ⟨_, stp_confined t p m⟩
  | .ald t p m => ⟨_, ald_confined t p m⟩
  | .ast t p m => ⟨_, ast_confined t p m⟩
  | .xld t p f => ⟨_, xld_confined t p f⟩
  | .xadd t p f => ⟨_, xadd_confined t p f⟩
  | .alu t p r => ⟨_, alu_confined t p r⟩
  | .alud t p r => ⟨_, alud_confined t p r⟩
  | .alui t p f => ⟨_, alui_confined t p f⟩
  | .cmp t p r => ⟨_, cmp_confined t p r⟩
  | .cmpi t p f => ⟨_, cmpi_confined t p f⟩
  | .sel t p r => ⟨_, sel_confined t p r⟩
  | .movi t p rd imm w => ⟨_, movi_confined t p rd imm w⟩
  | .mac t p r => ⟨_, mac_confined t p r⟩
  | .cmac t p r => ⟨_, cmac_confined t p r⟩
  | .dmac t p r => ⟨_, dmac_confined t p r⟩
  | .aop t p r => ⟨_, aop_confined t p r⟩
  | .ash t p r => ⟨_, ash_confined t p r⟩
  | .atst t p r => ⟨_, atst_confined t p r⟩
  | .gmac t p r => ⟨_, gmac_confined t p r⟩
  | .atan t p r => ⟨_, atan_confined t p r⟩
  | .mag t p r => ⟨_, mag_confined t p r⟩
  | .mag2 t p r => ⟨_, mag2_confined t p r⟩
  | .unit t p r => ⟨_, unit_confined t p r⟩
  | .rot t p r => ⟨_, rot_confined t p r⟩
  | .lnr t p r => ⟨_, lnr_confined t p r⟩
  | .dbl t p r => ⟨_, dbl_confined t p r⟩
  | .expw t p r => ⟨_, expw_confined t p r⟩
  | .div t p r => ⟨_, div_confined t p r⟩
  | .maxi t p r => ⟨_, maxi_confined t p r⟩
  | .mini t p r => ⟨_, mini_confined t p r⟩
  | .portInput t p pair r => ⟨_, portInput_confined t p pair r⟩
  | .portDramRead t p f => ⟨_, portDramRead_confined t p f⟩
  | .portDramWrite t p f => ⟨_, portDramWrite_confined t p f⟩
  | .portXbufRead t p r ra => ⟨_, portXbufRead_confined t p r ra⟩
  | .portXbufWrite t p r ra => ⟨_, portXbufWrite_confined t p r ra⟩
  | .out t p o => ⟨_, out_confined t p o⟩
  | .xch t p r => ⟨_, xch_confined t p r⟩
  | .prm t p f => ⟨_, prm_confined t p f⟩
  | .captureRequest line => ⟨_, captureRequest_confined line⟩
  | .captureStart line => ⟨_, captureStart_confined line⟩
  | .datumSlow line => ⟨_, datumSlow_confined line⟩
  | .ramanCapture line asSamples stSamples asDark stDark => ⟨_, ramanCapture_confined line asSamples stSamples asDark stDark⟩
  | .ramanBlockEnd line => ⟨_, ramanBlockEnd_confined line⟩
  | .ramanBlockSelfPass line => ⟨_, ramanBlockSelfPass_confined line⟩
  | .coilcal line => ⟨_, coilcal_confined line⟩
  | .coilCalResume line => ⟨_, coilCalResume_confined line⟩
  | .calAgeExpiry line => ⟨_, calAgeExpiry_confined line⟩
  | .fusionStart line => ⟨_, fusionStart_confined line⟩
  | .streamInput n stamp => ⟨_, streamInput_confined n stamp⟩
  | .detectorSummary n d => ⟨_, detectorSummary_confined n d⟩
  | .syncNEdge => ⟨_, syncNEdge_confined⟩
  | .stCmdSync n => ⟨_, stCmdSync_confined n⟩
  | .streamReset n => ⟨_, streamReset_confined n⟩
  | .swapRequest n => ⟨_, swapRequest_confined n⟩
  | .coefWrite n value => ⟨_, coefWrite_confined n value⟩
  | .codeFrame => ⟨_, codeFrame_confined⟩
  | .ringWrite => ⟨_, ringWrite_confined⟩
  | .ringGapTimeout n => ⟨_, ringGapTimeout_confined n⟩
  | .cursorStart c => ⟨_, cursorStart_confined c⟩
  | .cursorStop c => ⟨_, cursorStop_confined c⟩
  | .seekOldest c => ⟨_, seekOldest_confined c⟩
  | .seekNewest c => ⟨_, seekNewest_confined c⟩
  | .seekSerial c => ⟨_, seekSerial_confined c⟩
  | .seekDone c => ⟨_, seekDone_confined c⟩
  | .cursorRead c => ⟨_, cursorRead_confined c⟩
  | .zoneStaleTimeout z => ⟨_, zoneStaleTimeout_confined z⟩
  | .zonePortUpdate z => ⟨_, zonePortUpdate_confined z⟩
  | .zqSelect addr => ⟨_, zqSelect_confined addr⟩
  | .zqAddressChange addr => ⟨_, zqAddressChange_confined addr⟩
  | .zqDeselect => ⟨_, zqDeselect_confined⟩
  | .zqForceTimeout => ⟨_, zqForceTimeout_confined⟩
  | .alarmStretchExpiry pin => ⟨_, alarmStretchExpiry_confined pin⟩
  | .znAck => ⟨_, znAck_confined⟩
  | .loopFaultTimer n => ⟨_, loopFaultTimer_confined n⟩
  | .loopReleaseTimer n => ⟨_, loopReleaseTimer_confined n⟩
  | .loopReleaseCmd n => ⟨_, loopReleaseCmd_confined n⟩
  | .loopOpen n => ⟨_, loopOpen_confined n⟩
  | .loopDeviation n => ⟨_, loopDeviation_confined n⟩
  | .loopConditionClear n openCond => ⟨_, loopConditionClear_confined n openCond⟩
  | .m0ConversionEnd d => ⟨_, m0ConversionEnd_confined d⟩
  | .m1FrameStart => ⟨_, m1FrameStart_confined⟩
  | .m1ConversionEnd ch value isOver => ⟨_, m1ConversionEnd_confined ch value isOver⟩
  | .notchLengthUpdate count => ⟨_, notchLengthUpdate_confined count⟩
  | .hkRefWindowExit => ⟨_, hkRefWindowExit_confined⟩
  | .hkRefRestore => ⟨_, hkRefRestore_confined⟩
  | .urgentRequest ch => ⟨_, urgentRequest_confined ch⟩
  | .burnoutPulse n openBalls => ⟨_, burnoutPulse_confined n openBalls⟩
  | .rtdOpenClear n => ⟨_, rtdOpenClear_confined n⟩
  | .trefPresent is100 => ⟨_, trefPresent_confined is100⟩
  | .trefLoss => ⟨_, trefLoss_confined⟩
  | .timeNoClock => ⟨_, timeNoClock_confined⟩
  | .timeRelock => ⟨_, timeRelock_confined⟩
  | .disciplineMeasurement e tm => ⟨_, disciplineMeasurement_confined e tm⟩
  | .ppsEdge q f => ⟨_, ppsEdge_confined q f⟩
  | .ppsLoss => ⟨_, ppsLoss_confined⟩
  | .hostHoldover => ⟨_, hostHoldover_confined⟩
  | .timeSet src tag seq t => ⟨_, timeSet_confined src tag seq t⟩
  | .timeTrack src tag seq t => ⟨_, timeTrack_confined src tag seq t⟩
  | .timePpsLabel src tag seq seconds => ⟨_, timePpsLabel_confined src tag seq seconds⟩
  | .ppsOutPulse => ⟨_, ppsOutPulse_confined⟩
  | .timeSnapshot src => ⟨_, timeSnapshot_confined src⟩
  | .timeAdjust => ⟨_, timeAdjust_confined⟩
  | .tdcEdge ch falling q f => ⟨_, tdcEdge_confined ch falling q f⟩
  | .tdcGateChange g level => ⟨_, tdcGateChange_confined g level⟩
  | .tdcWindowEnd g => ⟨_, tdcWindowEnd_confined g⟩
  | .tdcArm ch => ⟨_, tdcArm_confined ch⟩
  | .tdcDisarm ch => ⟨_, tdcDisarm_confined ch⟩
  | .tdcPop ch => ⟨_, tdcPop_confined ch⟩
  | .tdcFlushTimer ch => ⟨_, tdcFlushTimer_confined ch⟩
  | .tdcPairHoldEnd pair => ⟨_, tdcPairHoldEnd_confined pair⟩
  | .tdcPairWindowExpiry pair => ⟨_, tdcPairWindowExpiry_confined pair⟩
  | .tdcCal ch => ⟨_, tdcCal_confined ch⟩
  | .tdcCalComplete ch hist => ⟨_, tdcCalComplete_confined ch hist⟩
  | .tdcCalTimeout ch => ⟨_, tdcCalTimeout_confined ch⟩
  | .tdcCalRetry ch => ⟨_, tdcCalRetry_confined ch⟩
  | .tdcCalPeriod ch => ⟨_, tdcCalPeriod_confined ch⟩
  | .monWindowExpiry line => ⟨_, monWindowExpiry_confined line⟩
  | .laneDetectDone q present => ⟨_, laneDetectDone_confined q present⟩
  | .absentRetry q => ⟨_, absentRetry_confined q⟩
  | .linkActive q => ⟨_, linkActive_confined q⟩
  | .blindTimeout q => ⟨_, blindTimeout_confined q⟩
  | .trainingSetReceived q p symbols => ⟨_, trainingSetReceived_confined q p symbols⟩
  | .trainStepPass q lanes => ⟨_, trainStepPass_confined q lanes⟩
  | .trainStepTimeout q lanes => ⟨_, trainStepTimeout_confined q lanes⟩
  | .downRetry q => ⟨_, downRetry_confined q⟩
  | .laneLos q p => ⟨_, laneLos_confined q p⟩
  | .losDetectReturn q p => ⟨_, losDetectReturn_confined q p⟩
  | .linkFaultDetect q cause => ⟨_, linkFaultDetect_confined q cause⟩
  | .orderedSetInsert q => ⟨_, orderedSetInsert_confined q⟩
  | .idleWake q => ⟨_, idleWake_confined q⟩
  | .linkReset q => ⟨_, linkReset_confined q⟩
  | .feLoopbackExit q => ⟨_, feLoopbackExit_confined q⟩
  | .credit l grants => ⟨_, credit_confined l grants⟩
  | .creditSend l => ⟨_, creditSend_confined l⟩
  | .read l tag src addr count => ⟨_, read_confined l tag src addr count⟩
  | .write l tag src addr mask values => ⟨_, write_confined l tag src addr mask values⟩
  | .timedSend l tag src words => ⟨_, timedSend_confined l tag src words⟩
  | .timedLaunch => ⟨_, timedLaunch_confined⟩
  | .frameForward l symbols => ⟨_, frameForward_confined l symbols⟩
  | .levelRunStart => ⟨_, levelRunStart_confined⟩
  | .levelReq l frame stamp => ⟨_, levelReq_confined l frame stamp⟩
  | .levelResp l frame stamp => ⟨_, levelResp_confined l frame stamp⟩
  | .levelRunEnd => ⟨_, levelRunEnd_confined⟩
  | .chainSync l frame => ⟨_, chainSync_confined l frame⟩
  | .dramTrainingDone failed => ⟨_, dramTrainingDone_confined failed⟩
  | .dqsOscRead drift => ⟨_, dqsOscRead_confined drift⟩
  | .shortRetrainStart ch => ⟨_, shortRetrainStart_confined ch⟩
  | .trainingCollectionDone ch pass => ⟨_, trainingCollectionDone_confined ch pass⟩
  | .freqChangeDone => ⟨_, freqChangeDone_confined⟩
  | .thermalReturn => ⟨_, thermalReturn_confined⟩
  | .dramRead addr single double other => ⟨_, dramRead_confined addr single double other⟩
  | .freezeEnd intact => ⟨_, freezeEnd_confined intact⟩
  | .freezeTimeout => ⟨_, freezeTimeout_confined⟩
  | .channelLossDone => ⟨_, channelLossDone_confined⟩
  | .scrubRead single double other => ⟨_, scrubRead_confined single double other⟩
  | .c3AgePromote => ⟨_, c3AgePromote_confined⟩
  | .standbyExitStep => ⟨_, standbyExitStep_confined⟩
  | .scsLockLoss => ⟨_, scsLockLoss_confined⟩
  | .scsRelock => ⟨_, scsRelock_confined⟩
  | .refclkLoss => ⟨_, refclkLoss_confined⟩
  | .scsFreerunTimeout => ⟨_, scsFreerunTimeout_confined⟩
  | .refclkReturn => ⟨_, refclkReturn_confined⟩
  | .refclkAltLoss => ⟨_, refclkAltLoss_confined⟩
  | .hostFenceIssue path => ⟨_, hostFenceIssue_confined path⟩
  | .registerSnapshot path clear count => ⟨_, registerSnapshot_confined path clear count⟩
  | .loReadCapture path addr => ⟨_, loReadCapture_confined path addr⟩
  | .hiReadShadow path addr => ⟨_, hiReadShadow_confined path addr⟩
  | .loWriteStage path addr value mask => ⟨_, loWriteStage_confined path addr value mask⟩
  | .hiWriteCommit path addr value mask => ⟨_, hiWriteCommit_confined path addr value mask⟩
  | .loStageExpiry path => ⟨_, loStageExpiry_confined path⟩
  | .rcRead path addr => ⟨_, rcRead_confined path addr⟩
  | .registerWrite path addr value mask => ⟨_, registerWrite_confined path addr value mask⟩
  | .eventLogSelect index => ⟨_, eventLogSelect_confined index⟩
  | .svcRegRead addr count => ⟨_, svcRegRead_confined addr count⟩
  | .svcRegWrite addr mask values => ⟨_, svcRegWrite_confined addr mask values⟩
  | .svcStatus => ⟨_, svcStatus_confined⟩
  | .flashRead addr count => ⟨_, flashRead_confined addr count⟩
  | .flashProgram addr bytes => ⟨_, flashProgram_confined addr bytes⟩
  | .flashErase addr => ⟨_, flashErase_confined addr⟩
  | .flashOpDone ok => ⟨_, flashOpDone_confined ok⟩
  | .refclkAltPresent => ⟨_, refclkAltPresent_confined⟩
  | .eiosReceived q p => ⟨_, eiosReceived_confined q p⟩
  | .mr4Readout hot cool => ⟨_, mr4Readout_confined hot cool⟩
  | .keeperSramError => ⟨_, keeperSramError_confined⟩
  | .snapshotComplete => ⟨_, snapshotComplete_confined⟩
  | .jtagAccess ir => ⟨_, jtagAccess_confined ir⟩

theorem exec_keeps_inv {c : Instr} {s t : State} (e : exec c s = .next t) (h : Inv s) : Inv t := by
  obtain ⟨ps, hc⟩ := exec_confined c
  exact hc.inv e h

/-- R18, R243: the next instruction of a running kernel is a command, a fault of the kernel, or nothing. -/
theorem kernelInstr_keeps_inv {s : State} {t : Fin 8} (h : Inv s) : Inv (kernelInstr s t) := by
  unfold kernelInstr
  split
  · exact h
  · split
    · exact (kernelFault_moves (P := allParts) rfl (.refl _ s)).inv h
    · split
      · next e => exact exec_keeps_inv e h
      · exact h

/-- Log entry 1: what the block does of its own in a tick: time passes, an upset may strike, kernels run. -/
theorem idle_keeps_inv {s : State} (h : Inv s) : Inv (idle s) := by
  unfold idle
  extract_lets s1 s2
  have h1 : Moves allParts s s1 := tick_moves rfl (.refl _ s)
  have h2 : Inv s2 := by
    unfold s2
    split
    · exact h1.inv h
    · exact (strike_moves rfl h1).inv h
  exact List.foldlRecOn _ _ h2 fun _ k _ _ => kernelInstr_keeps_inv k

/-- Settles O49: a step runs the command at the front of the queue, or with none waiting passes a tick; both keep the
invariants, which do not speak of the queue. -/
theorem stepKeepsInvariants : Obligations.StepKeepsInvariants := by
  intro s t h e
  unfold step at e
  split at e
  · rw [← Host.Outcome.next.inj e]
    exact idle_keeps_inv h
  · exact exec_keeps_inv e h

end Sys2Proof.Laws
end

section
/-! SUPPORT. Which registers an operation can write: `Writes A s t` says that from `s` to `t` no register changes but those at
the addresses `A`. The lemmas chain as those about `Moves` do, from `Writes A z s` to `Writes A z (f s)`; an operation that leaves
the registers alone chains by what `Moves` says of it. -/

namespace Sys2Proof.Laws
open Sys2Proof Sys2Proof.Machine Sys2Proof.Safety

/-- No register changes but those at the addresses named. -/
def Writes (A : List Nat) (s t : State) : Prop := ∀ a, a ∉ A → regGet t a = regGet s a

/-- Every part of the state but the registers. -/
def allButRegs : List Part := [.cfg, .keeper, .otp, .book, .log, .fu, .trav, .probe, .conv, .pce, .sense, .net, .time, .mem, .hk,
  .zn, .streams, .code, .mgmt, .flash, .samples, .dram, .xbuf, .now, .up, .freeCtr]

section
variable {A : List Nat} {z s : State}

theorem Writes.refl (A : List Nat) (s : State) : Writes A s s := fun _ _ => rfl

theorem Writes.of_regs {t : State} (h : Writes A z s) (e : t.regs = s.regs) : Writes A z t := by
  intro a ha
  rw [← h a ha]
  unfold regGet
  rw [e]

/-- What leaves the registers alone writes none. -/
theorem Writes.keep {t : State} (m : Moves allButRegs s t) (h : Writes A z s) : Writes A z t :=
  h.of_regs (m.only.1 .regs (by decide))

theorem Writes.ite {a b : State} {c : Prop} [Decidable c] (ha : Writes A z a) (hb : Writes A z b) :
    Writes A z (if c then a else b) := by split <;> assumption

theorem Writes.whenB {a b : State} {c : Bool} (ha : Writes A z a) (hb : Writes A z b) : Writes A z (Machine.whenB c a b) := by
  unfold Machine.whenB
  split <;> assumption

theorem Writes.foldl {α : Type} {g : State → α → State} (l : List α) (h : Writes A z s)
    (hg : ∀ s x, x ∈ l → Writes A z s → Writes A z (g s x)) : Writes A z (l.foldl g s) :=
  List.foldlRecOn l g h fun s k x hx => hg s x hx k

/-! ### What leaves the registers alone -/

theorem setKeeper_writes {x : Keeper} (h : Writes A z s) : Writes A z { s with keeper := x } := h.of_regs rfl

theorem setLog_writes {x : EventLog} (h : Writes A z s) : Writes A z { s with log := x } := h.of_regs rfl

theorem setFu_writes {x : FenceUnit} (h : Writes A z s) : Writes A z { s with fu := x } := h.of_regs rfl

theorem setSense_writes {x} (h : Writes A z s) : Writes A z { s with sense := x } := h.of_regs rfl

theorem setNet_writes {x} (h : Writes A z s) : Writes A z { s with net := x } := h.of_regs rfl

theorem setMgmt_writes {x} (h : Writes A z s) : Writes A z { s with mgmt := x } := h.of_regs rfl

theorem setFreeCtr_writes {x : Nat} (h : Writes A z s) : Writes A z { s with freeCtr := x } := h.of_regs rfl

theorem modTrav_writes {t : Fin 8} {f : Trav → Trav} (h : Writes A z s) : Writes A z (modTrav s t f) := h.of_regs rfl

theorem modProbe_writes {l : Fin 2} {f : Probe → Probe} (h : Writes A z s) : Writes A z (modProbe s l f) := h.of_regs rfl

theorem modConv_writes {l : Fin 2} {f : Conv → Conv} (h : Writes A z s) : Writes A z (modConv s l f) := h.of_regs rfl

theorem modPce_writes {l : Fin 2} {f : Pce → Pce} (h : Writes A z s) : Writes A z (modPce s l f) := h.of_regs rfl

theorem modZn_writes {f : ZnSt → ZnSt} (h : Writes A z s) : Writes A z (modZn s f) := h.of_regs rfl

theorem modHk_writes {f : HkSt → HkSt} (h : Writes A z s) : Writes A z (modHk s f) := h.of_regs rfl

theorem modTime_writes {f : TimeSt → TimeSt} (h : Writes A z s) : Writes A z (modTime s f) := h.of_regs rfl

theorem modTdc_writes {c : Fin 9} {f : TdcCh → TdcCh} (h : Writes A z s) : Writes A z (modTdc s c f) := h.of_regs rfl

theorem modCur_writes {c : Fin 16} {f : CursorSt → CursorSt} (h : Writes A z s) : Writes A z (modCur s c f) := h.of_regs rfl

theorem modStrm_writes {n : Nat} {f : StreamSt → StreamSt} (h : Writes A z s) : Writes A z (modStrm s n f) := h.of_regs rfl

theorem modQuad_writes {q : Fin 3} {f : Quad → Quad} (h : Writes A z s) : Writes A z (modQuad s q f) := h.of_regs rfl

theorem modLink_writes {l : Fin 3} {f : Link → Link} (h : Writes A z s) : Writes A z (modLink s l f) := h.of_regs rfl

theorem modKeeper_writes {f : Keeper → Keeper} (h : Writes A z s) : Writes A z (modKeeper s f) := h.of_regs rfl

/-! ### Registers, fields and the event log -/

theorem regPut_writes {a v : Nat} (ha : a ∈ A) (h : Writes A z s) : Writes A z (regPut s a v) := by
  intro b hb
  have hne : b ≠ a := fun e => hb (e ▸ ha)
  rw [regGet_put_ne s v hne, h b hb]

theorem setF_writes {f : Fld} {v : Nat} (hf : f.addr ∈ A) (h : Writes A z s) : Writes A z (setF s f v) := regPut_writes hf h

theorem bumpBy_writes {f : Fld} {n : Nat} (hf : f.addr ∈ A) (h : Writes A z s) : Writes A z (bumpBy s f n) := setF_writes hf h

theorem bump_writes {f : Fld} (hf : f.addr ∈ A) (h : Writes A z s) : Writes A z (bump s f) := bumpBy_writes hf h

theorem setMaskBit_writes {f : Fld} {i : Nat} {b : Bool} (hf : f.addr ∈ A) (h : Writes A z s) :
    Writes A z (setMaskBit s f i b) := setF_writes hf h

theorem logPush_writes {e : List Word} (hlog : 0xF008 ∈ A) (h : Writes A z s) : Writes A z (logPush s e) := by
  unfold logPush
  extract_lets full kept log s1
  have h1 : Writes A z s1 := h.of_regs rfl
  exact .ite (bump_writes hlog h1) h1

theorem logAt_writes {stamp code island sev unit_ arg : Nat} (hlog : 0xF008 ∈ A) (h : Writes A z s) :
    Writes A z (logAt s stamp code island sev unit_ arg) :=
  setLog_writes (logPush_writes hlog (.ite h (logPush_writes hlog h)))

theorem logEvent_writes {code island sev unit_ arg : Nat} (hlog : 0xF008 ∈ A) (h : Writes A z s) :
    Writes A z (logEvent s code island sev unit_ arg) := logAt_writes hlog h

/-! ### Mailbox answers and the loops -/

theorem mbxAnswer_writes {code status detail : Nat} (hmbx : 0x403 ∈ A) (h : Writes A z s) :
    Writes A z (mbxAnswer s code status detail) := setKeeper_writes (setF_writes hmbx (setF_writes hmbx h))

theorem mbxRefuse_writes {code : Nat} (hmbx : 0x403 ∈ A) (h : Writes A z s) : Writes A z (mbxRefuse s code) :=
  mbxAnswer_writes hmbx (setFreeCtr_writes h)

/-- R311: a release changes the loop alone. -/
theorem loopRelease_keepsRegs {t : State} {n : Fin 8} (e : loopRelease s n = some t) : Moves allButRegs s t := by
  unfold loopRelease at e
  split at e
  · cases e
  · extract_lets x c st at e
    split at e
    · cases e
      exact .refl _ _
    · cases e
      exact retarget_moves rfl (modLoop_moves rfl (.refl _ _))

theorem mbxLoopReleaseSt_writes {n : Fin 8} (hmbx : 0x403 ∈ A) (h : Writes A z s) : Writes A z (mbxLoopReleaseSt n s) := by
  unfold mbxLoopReleaseSt
  split
  next t e => exact mbxAnswer_writes hmbx (.keep (loopRelease_keepsRegs e) h)
  next => exact mbxRefuse_writes hmbx h

theorem loopReleaseCmdSt_writes {n : Fin 8} (hmbx : 0x403 ∈ A) (h : Writes A z s) : Writes A z (loopReleaseCmdSt n s) :=
  .whenB h (mbxLoopReleaseSt_writes hmbx h)

/-! ### The sequencer and the zones -/

theorem muteSlots_writes {l : Fin 2} {cause mask : Nat} (hlog : 0xF008 ∈ A) (hmute : 0x1802 + 1024 * l.val ∈ A)
    (h : Writes A z s) : Writes A z (muteSlots s l cause mask) := by
  unfold muteSlots
  refine .ite h ?_
  extract_lets old newly s1
  have h1 : Writes A z s1 := setF_writes hmute (setF_writes hmute h)
  exact .ite h1 (logEvent_writes hlog h1)

theorem dacTo_writes {l : Fin 2} {limit : Nat} (hlog : 0xF008 ∈ A) (hmute : 0x1802 + 1024 * l.val ∈ A)
    (hsat : 0x1804 + 1024 * l.val ∈ A) (h : Writes A z s) : Writes A z (dacTo s l limit) := by
  unfold dacTo
  extract_lets P
  refine .ite h ?_
  split
  exact muteSlots_writes hlog hmute (muteSlots_writes hlog hmute (bumpBy_writes hsat (modProbe_writes h)))

theorem dacNow_writes {l : Fin 2} (hlog : 0xF008 ∈ A) (hmute : 0x1802 + 1024 * l.val ∈ A) (hsat : 0x1804 + 1024 * l.val ∈ A)
    (h : Writes A z s) : Writes A z (dacNow s l) := dacTo_writes hlog hmute hsat h

theorem cutSlots_writes {l : Fin 2} {mask : Nat} (hlog : 0xF008 ∈ A) (hmute : 0x1802 + 1024 * l.val ∈ A)
    (hsat : 0x1804 + 1024 * l.val ∈ A) (h : Writes A z s) : Writes A z (cutSlots s l mask) :=
  modProbe_writes (dacNow_writes hlog hmute hsat h)

theorem cutLine_writes {l : Fin 2} (hlog : 0xF008 ∈ A) (hmute : 0x1802 + 1024 * l.val ∈ A) (hsat : 0x1804 + 1024 * l.val ∈ A)
    (h : Writes A z s) : Writes A z (cutLine s l) := modProbe_writes (dacNow_writes hlog hmute hsat h)

theorem disarmLine_writes {l : Fin 2} (hlog : 0xF008 ∈ A) (harm : 0x1800 + 1024 * l.val ∈ A)
    (hmute : 0x1802 + 1024 * l.val ∈ A) (hsat : 0x1804 + 1024 * l.val ∈ A) (h : Writes A z s) :
    Writes A z (disarmLine s l) :=
  .keep (apdUpdate_moves rfl (.refl _ _)) (modProbe_writes (setF_writes harm (cutLine_writes hlog hmute hsat h)))

theorem armLine_writes {l : Fin 2} (hlog : 0xF008 ∈ A) (harm : 0x1800 + 1024 * l.val ∈ A) (hmute : 0x1802 + 1024 * l.val ∈ A)
    (hsat : 0x1804 + 1024 * l.val ∈ A) (h : Writes A z s) : Writes A z (armLine s l) := by
  unfold armLine
  refine .ite h (.keep (apdUpdate_moves rfl (.refl _ _)) (modProbe_writes (setF_writes harm ?_)))
  exact setF_writes hmute (setF_writes hmute (setF_writes harm (dacNow_writes hlog hmute hsat h)))

theorem portUpdate_writes {y nib : Nat} (hforced : 0xC408 ∈ A) (h : Writes A z s) : Writes A z (portUpdate s y nib) := by
  unfold portUpdate
  refine .ite (modZn_writes h) ?_
  extract_lets s1
  have h1 : Writes A z s1 := modZn_writes h
  exact .keep (evalPins_moves rfl (.refl _ _)) (.ite (bump_writes hforced h1) h1)

theorem sendZoneRecords_writes {epoch fuel : Nat} {recs : List (List Word)} (hsent : 0xC409 ∈ A) (hdrop : 0xC40A ∈ A)
    (h : Writes A z s) : Writes A z (sendZoneRecords epoch fuel recs s) := by
  induction fuel generalizing recs s with
  | zero => exact h
  | succ n ih =>
    cases recs with
    | nil => exact h
    | cons r rs =>
      unfold sendZoneRecords
      extract_lets now seq pay s1
      have h1 : Writes A z s1 := modZn_writes h
      split
      next s2 ok e =>
      refine ih (bumpBy_writes (by split <;> assumption) ?_)
      split at e
      · exact .keep (sendOn_moves_eq e rfl (.refl _ _)) h1
      · cases e
        exact h1

theorem publish_writes {zs : List Nat} {epoch : Nat} (hsent : 0xC409 ∈ A) (hdrop : 0xC40A ∈ A) (h : Writes A z s) :
    Writes A z (publish s zs epoch) :=
  .foldl _ (sendZoneRecords_writes hsent hdrop h) fun _ _ _ k => .keep (putZone_moves rfl (.refl _ _)) k

theorem markZones_writes {p : ZoneCfg → Bool} {f : ZoneSt → ZoneSt} (hforced : 0xC408 ∈ A) (hsent : 0xC409 ∈ A)
    (hdrop : 0xC40A ∈ A) (h : Writes A z s) : Writes A z (markZones s p f) := by
  unfold markZones
  extract_lets cs s1 zs s2
  have h1 : Writes A z s1 := .foldl _ h fun _ _ _ k => .keep (putZone_moves rfl (.refl _ _)) k
  have h2 : Writes A z s2 := .foldl _ h1 fun _ _ _ k => portUpdate_writes hforced k
  exact .keep (loopsRefresh_moves rfl (.refl _ _)) (publish_writes hsent hdrop h2)

theorem staleLine_writes {l : Fin 2} {code : Nat} (hforced : 0xC408 ∈ A) (hsent : 0xC409 ∈ A) (hdrop : 0xC40A ∈ A)
    (h : Writes A z s) : Writes A z (staleLine s l code) := by
  unfold staleLine
  exact markZones_writes hforced hsent hdrop (modZn_writes h)

theorem zoneStaleSt_writes {y : Fin 4096} (hforced : 0xC408 ∈ A) (hsent : 0xC409 ∈ A) (hdrop : 0xC40A ∈ A)
    (h : Writes A z s) : Writes A z (zoneStaleSt y s) := by
  unfold zoneStaleSt
  split
  · exact h
  · exact .ite (markZones_writes hforced hsent hdrop h) h

theorem ilkTripSt_writes {l : Fin 2} (hlog : 0xF008 ∈ A) (harm : 0x1800 + 1024 * l.val ∈ A)
    (hmute : 0x1802 + 1024 * l.val ∈ A) (hsat : 0x1804 + 1024 * l.val ∈ A) (hforced : 0xC408 ∈ A) (hsent : 0xC409 ∈ A)
    (hdrop : 0xC40A ∈ A) (h : Writes A z s) : Writes A z (ilkTripSt l s) := by
  unfold ilkTripSt
  refine .ite h (staleLine_writes hforced hsent hdrop (logEvent_writes hlog ?_))
  exact disarmLine_writes hlog harm hmute hsat (setKeeper_writes (modProbe_writes h))

theorem breakRaiseSt_writes {l : Fin 2} (hlog : 0xF008 ∈ A) (hapr : 0x1800 + 1024 * l.val ∈ A)
    (hbreak : 0x1805 + 1024 * l.val ∈ A) (hforced : 0xC408 ∈ A) (hsent : 0xC409 ∈ A) (hdrop : 0xC40A ∈ A) (h : Writes A z s) :
    Writes A z (breakRaiseSt l s) := by
  unfold breakRaiseSt
  refine .ite h ?_
  split
  · exact h
  · refine markZones_writes hforced hsent hdrop (logEvent_writes hlog ?_)
    exact setF_writes hapr (setF_writes hbreak (setF_writes hbreak h))

theorem discardLaunch_writes {l : Fin 2} {c : SlotCfg} {t : Nat} (hlate : 0x1803 + 1024 * l.val ∈ A) (h : Writes A z s) :
    Writes A z (discardLaunch s l c t) := modProbe_writes (bump_writes hlate h)

theorem launchCmdSt_writes {l : Fin 2} {k : Fin 16} (hlate : 0x1803 + 1024 * l.val ∈ A) (h : Writes A z s) :
    Writes A z (launchCmdSt l k s) := by
  unfold launchCmdSt
  split
  · exact h
  · extract_lets s1 P
    have h1 : Writes A z s1 := modProbe_writes h
    split
    · exact h1
    · exact .ite (discardLaunch_writes hlate h1) (modProbe_writes h1)

theorem probeLaunchSt_writes {l : Fin 2} (hlog : 0xF008 ∈ A) (hphase : 0x400 ∈ A) (hmute : 0x1802 + 1024 * l.val ∈ A)
    (hsat : 0x1804 + 1024 * l.val ∈ A) (h : Writes A z s) : Writes A z (probeLaunchSt l s) := by
  unfold probeLaunchSt
  split
  · exact h
  · extract_lets time s' set dark es mask before s1 s2 s5 time5 zn5 s6
    have h0 : Writes A z s' := .keep (slewLaunch_moves rfl (.refl _ _)) (modProbe_writes h)
    have h2 : Writes A z s2 := setFreeCtr_writes (modProbe_writes (dacTo_writes hlog hmute hsat h0))
    have h5 : Writes A z s5 := .keep (countPoint_moves rfl (fireRaman_moves rfl (.refl _ _))) h2
    have h6 : Writes A z s6 := h5.of_regs rfl
    refine .ite ?_ h5
    exact .ite (setF_writes hphase h6) h6

theorem subwindowSt_writes {l : Fin 2} (hlog : 0xF008 ∈ A) (hmute : 0x1802 + 1024 * l.val ∈ A)
    (hsat : 0x1804 + 1024 * l.val ∈ A) (h : Writes A z s) : Writes A z (subwindowSt l s) := by
  unfold subwindowSt
  extract_lets s1
  have h1 : Writes A z s1 := modProbe_writes (dacNow_writes hlog hmute hsat h)
  split
  exact .ite (muteSlots_writes hlog hmute (cutSlots_writes hlog hmute hsat h1)) h1

/-! ### Converters -/

theorem urgentSt_writes {ch : Nat} (hurgent : 0xC802 ∈ A) (h : Writes A z s) : Writes A z (urgentSt ch s) := by
  unfold urgentSt
  refine .ite (.ite (bump_writes hurgent h) ?_) h
  exact .ite (modHk_writes h) (.keep (m1Take_moves rfl (.refl _ _)) (modHk_writes h))

theorem askRaman_writes {l : Fin 2} (hurgent : 0xC802 ∈ A) (h : Writes A z s) : Writes A z (askRaman s l) :=
  urgentSt_writes hurgent (modConv_writes h)

theorem askFast_writes {l : Fin 2} (hurgent : 0xC802 ∈ A) (h : Writes A z s) : Writes A z (askFast s l) :=
  urgentSt_writes hurgent (modConv_writes h)

theorem setBusy_writes {l : Fin 2} {mask : Nat} (hstatus : 0x1000 + 1024 * l.val ∈ A) (h : Writes A z s) :
    Writes A z (setBusy s l mask) :=
  setF_writes hstatus (.keep (closeSpan_moves rfl (openSpan_moves rfl (.refl _ _))) h)

theorem startRamanFg_writes {l : Fin 2} (hurgent : 0xC802 ∈ A) (hstatus : 0x1000 + 1024 * l.val ∈ A)
    (hcal : 0x1001 + 1024 * l.val ∈ A) (h : Writes A z s) : Writes A z (startRamanFg s l) :=
  askRaman_writes hurgent (setBusy_writes hstatus (setF_writes hcal (modConv_writes h)))

theorem startFullCal_writes {l : Fin 2} (hurgent : 0xC802 ∈ A) (hstatus : 0x1000 + 1024 * l.val ∈ A) (h : Writes A z s) :
    Writes A z (startFullCal s l) :=
  askRaman_writes hurgent (askFast_writes hurgent (setF_writes hstatus (setBusy_writes hstatus (modConv_writes h))))

theorem startFg_writes {l : Fin 2} (hurgent : 0xC802 ∈ A) (hstatus : 0x1000 + 1024 * l.val ∈ A) (h : Writes A z s) :
    Writes A z (startFg s l) := by
  unfold startFg
  refine .ite h ?_
  split
  · exact h
  · exact askFast_writes hurgent (setBusy_writes hstatus (modConv_writes h))

theorem resumeCal_writes {l : Fin 2} (hurgent : 0xC802 ∈ A) (hstatus : 0x1000 + 1024 * l.val ∈ A)
    (hcal : 0x1001 + 1024 * l.val ∈ A) (h : Writes A z s) : Writes A z (resumeCal s l) := by
  unfold resumeCal
  extract_lets s1
  have h1 : Writes A z s1 := startFg_writes hurgent hstatus h
  exact .ite (setF_writes hcal (modConv_writes h1)) h1

theorem exitCal_writes {l : Fin 2} (hurgent : 0xC802 ∈ A) (hstatus : 0x1000 + 1024 * l.val ∈ A) (h : Writes A z s) :
    Writes A z (exitCal s l) := by
  refine .ite (startFullCal_writes hurgent hstatus h) (.foldl _ h fun _ _ _ k => .ite k ?_)
  exact setMaskBit_writes hstatus (modConv_writes k)

theorem refFallbackSt_writes {l : Fin 2} (hlog : 0xF008 ∈ A) (hstatus : 0x1000 + 1024 * l.val ∈ A) (h : Writes A z s) :
    Writes A z (refFallbackSt l s) := by
  refine .ite (logEvent_writes hlog (setF_writes hstatus ?_)) h
  exact .keep (raiseSettling_moves rfl (.refl _ _)) (modConv_writes h)

theorem overRangeSt_writes {l : Fin 2} {i : Fin 6} {length gap : Nat} (hovr : 0x1008 + 1024 * l.val + i.val ∈ A)
    (h : Writes A z s) : Writes A z (overRangeSt l i length gap s) := by
  unfold overRangeSt
  refine .ite h ?_
  extract_lets u now s0 own s1
  have h0 : Writes A z own := .keep (addSpan_moves rfl (.refl _ _)) (modConv_writes h)
  have h1 : Writes A z s1 := .ite (.keep (addSpan_moves rfl (.refl _ _)) h0) h0
  exact .ite (bump_writes hovr h1) h1

/-! ### Fences and the launch measurement -/

theorem issueFence_writes {scope : Nat} {why : FenceFor} {recs : List PlanRec} (hepoch : 0x22 ∈ A) (h : Writes A z s) :
    Writes A z (issueFence s scope why recs) := .ite (setF_writes hepoch (setFu_writes h)) h

theorem bookFence_writes {scope : Nat} {why : FenceFor} (hepoch : 0x22 ∈ A) (h : Writes A z s) :
    Writes A z (bookFence s scope why) := .ite (issueFence_writes hepoch h) (setFu_writes h)

theorem autoFenceSt_writes (hepoch : 0x22 ∈ A) (h : Writes A z s) : Writes A z (autoFenceSt s) := by
  unfold autoFenceSt
  refine .ite ?_ h
  extract_lets m fu s1
  have h1 : Writes A z s1 := setFu_writes h
  exact .ite h1 (bookFence_writes hepoch h1)

theorem failMeasure_writes {l : Fin 2} {why : Nat} (hlog : 0xF008 ∈ A) (hfail : 0x2000 + 1024 * l.val ∈ A)
    (h : Writes A z s) : Writes A z (failMeasure s l why) := logEvent_writes hlog (setF_writes hfail (modPce_writes h))

theorem measureDoneSt_writes {l : Fin 2} (hlog : 0xF008 ∈ A) (hepoch : 0x22 ∈ A) (hfail : 0x2000 + 1024 * l.val ∈ A)
    (hdelay : 0x2003 + 1024 * l.val ∈ A) (h : Writes A z s) : Writes A z (measureDoneSt l s) := by
  unfold measureDoneSt
  split
  · extract_lets c avg top t res s0
    have h0 : Writes A z s0 := setFreeCtr_writes h
    refine .ite h ?_
    refine .ite (failMeasure_writes hlog hfail h0) (.ite (failMeasure_writes hlog hfail h0) ?_)
    exact bookFence_writes hepoch (setF_writes hdelay (modPce_writes h0))
  · exact h

theorem measureTimeoutSt_writes {l : Fin 2} (hlog : 0xF008 ∈ A) (hfail : 0x2000 + 1024 * l.val ∈ A) (h : Writes A z s) :
    Writes A z (measureTimeoutSt l s) := by
  unfold measureTimeoutSt
  split
  · exact h
  · exact .ite (failMeasure_writes hlog hfail h) h

/-! ### Traverses, products and streams -/

theorem passDropSt_writes {t : Fin 8} (hlog : 0xF008 ∈ A) (h : Writes A z s) : Writes A z (passDropSt t s) :=
  .ite h (logAt_writes hlog (modTrav_writes h))

theorem datumSlowSt_writes {l : Fin 2} (hlog : 0xF008 ∈ A) (h : Writes A z s) : Writes A z (datumSlowSt l s) := by
  unfold datumSlowSt
  split
  · exact h
  · exact .ite (logEvent_writes hlog (setSense_writes h)) h

theorem clockDoneSt_writes {t : Fin 8} (hclock : 0x4001 + 1024 * t.val ∈ A) (h : Writes A z s) : Writes A z (clockDoneSt t s) :=
  .ite (modTrav_writes (setF_writes hclock h)) h

theorem fuseStation_writes {k gate n : Nat} {b : RBlock} {epoch g l : Nat} {t : Fin 8} {st : Nat}
    (hdiverge : 0x300A + 16 * l ∈ A) (hreseed : 0x300B + 16 * l ∈ A) (h : Writes A z s) :
    Writes A z (fuseStation k gate n b epoch g l t s st) := by
  unfold fuseStation
  extract_lets r only bey emit q ray x sense
  have hemit : ∀ {u v v40 o f}, Writes A z u → Writes A z (emit u v v40 o f) := fun k =>
    .keep (emitProduct_moves rfl (emitProduct_moves rfl (emitProduct_moves rfl (.refl _ _)))) k
  refine .ite (hemit h) ?_
  split
  extract_lets
  refine .ite (hemit (setFreeCtr_writes (setFreeCtr_writes h))) ?_
  split
  extract_lets s1 s2 s3
  have h1 : Writes A z s1 := setSense_writes h
  have h2 : Writes A z s2 := .ite (bump_writes hdiverge h1) h1
  have h3 : Writes A z s3 := .ite (bump_writes hreseed h2) h2
  exact .ite (hemit h3) (hemit h3)

theorem fuseTrav_writes {l : Fin 2} {b : RBlock} {t : Fin 8} (hdiverge : 0x300A + 16 * l.val ∈ A)
    (hreseed : 0x300B + 16 * l.val ∈ A) (h : Writes A z s) : Writes A z (fuseTrav l b s t) := by
  unfold fuseTrav
  refine .ite h ?_
  extract_lets n s0
  split
  extract_lets own s1 s2
  have h1 : Writes A z s1 := .foldl _ (modTrav_writes h) fun _ _ _ k => .keep (deliverTR_moves rfl (.refl _ _)) k
  have h2 : Writes A z s2 := .keep (addBusy_moves rfl (.refl _ _)) h1
  split
  · exact h2
  · refine .keep (addBusy_moves rfl (.refl _ _)) (.foldl _ h2 fun _ _ _ k => ?_)
    exact fuseStation_writes hdiverge hreseed k

theorem fusionSt_writes {l : Fin 2} (hdiverge : 0x300A + 16 * l.val ∈ A) (hreseed : 0x300B + 16 * l.val ∈ A)
    (h : Writes A z s) : Writes A z (fusionSt l s) := by
  unfold fusionSt
  split
  · exact h
  · exact .foldl _ (setSense_writes h) fun _ _ _ k => fuseTrav_writes hdiverge hreseed k

theorem swapRequestSt_writes {n : Nat} (hswap : 0x800E + 64 * n ∈ A) (h : Writes A z s) : Writes A z (swapRequestSt n s) := by
  unfold swapRequestSt
  split
  · exact h
  · exact .ite h (setFu_writes (setF_writes hswap h))

theorem coefWrite_writes {n v : Nat} (hbusy : 0x8018 + 64 * n ∈ A) (h : Writes A z s) : Writes A z (coefWrite s n v).1 := by
  unfold coefWrite
  split
  · exact h
  · extract_lets b i
    split
    · exact h
    · split
      · exact modStrm_writes h
      · exact bump_writes hbusy h

theorem addSync_writes {n ts : Nat} (hlog : 0xF008 ∈ A) (hlate : 0x8019 + 64 * n ∈ A) (h : Writes A z s) :
    Writes A z (addSync s n ts) := by
  unfold addSync
  split
  · exact h
  · extract_lets x late
    exact .ite (logEvent_writes hlog h) (modStrm_writes (.ite (bump_writes hlate h) h))

/-! ### Replay cursors -/

theorem cursorStartSt_writes {c : Fin 16} (hstatus : 0xC044 + 8 * c.val ∈ A) (h : Writes A z s) :
    Writes A z (cursorStartSt c s) := .ite (modCur_writes (setF_writes hstatus h)) h

theorem moveCur_writes {c : Fin 16} {pos : Nat} {count : Bool} (hstatus : 0xC044 + 8 * c.val ∈ A)
    (hmoves : 0xC047 + 8 * c.val ∈ A) (h : Writes A z s) : Writes A z (moveCur s c pos count) := by
  unfold moveCur
  extract_lets s1
  have h1 : Writes A z s1 := setF_writes hstatus (modCur_writes h)
  exact .ite (bump_writes hmoves h1) h1

theorem seekDoneSt_writes {c : Fin 16} (hstatus : 0xC044 + 8 * c.val ∈ A) (hmoves : 0xC047 + 8 * c.val ∈ A)
    (h : Writes A z s) : Writes A z (seekDoneSt c s) := by
  unfold seekDoneSt
  extract_lets x old new fin
  split
  · exact h
  · have hfin : ∀ {u}, Writes A z u → Writes A z (fin u) := fun k => modCur_writes k
    have hset : ∀ {f}, Writes A z (fin (modCur s c f)) := hfin (modCur_writes h)
    refine .ite h ?_
    split
    · exact hset
    · exact hset
    · exact .ite (hfin (moveCur_writes hstatus hmoves h)) (.ite hset hset)
    · exact hset

theorem endRun_writes {c : Fin 16} (hstatus : 0xC044 + 8 * c.val ∈ A) (h : Writes A z s) : Writes A z (endRun s c) :=
  setF_writes hstatus (modCur_writes h)

theorem cursorReadSt_writes {c : Fin 16} (herr : 0xC00D ∈ A) (hstatus : 0xC044 + 8 * c.val ∈ A) (h : Writes A z s) :
    Writes A z (cursorReadSt c s) := by
  unfold cursorReadSt
  extract_lets x follow todo
  refine .ite h (.ite (modCur_writes h) ?_)
  clear_value todo
  split
  · exact .ite (modCur_writes h) (endRun_writes hstatus h)
  · extract_lets next last asIs body
    clear_value body
    split
    · extract_lets s1 s2
      have h2 : Writes A z s2 := modCur_writes (setF_writes hstatus (bump_writes herr (setF_writes herr h)))
      exact .ite (endRun_writes hstatus h2) h2
    · extract_lets w0 ws
      split
      next s1 _ e =>
      refine .ite ?_ (modCur_writes h)
      extract_lets s2
      have h1 : Writes A z s1 := .keep (sendOn_moves_eq e rfl (.refl _ _)) h
      have h2 : Writes A z s2 := modCur_writes h1
      exact .ite (endRun_writes hstatus h2) h2

/-! ### Housekeeping -/

theorem m0RtdSt_writes {n : Fin 4} {d : Int} (hdiscard : 0xC803 ∈ A) (h : Writes A z s) : Writes A z (m0RtdSt n d s) := by
  unfold m0RtdSt
  split
  refine .ite (.keep (m0Next_moves rfl (.refl _ _)) h) (.ite ?_ ?_)
  · exact .keep (m0Next_moves rfl (.refl _ _)) (bump_writes hdiscard (modHk_writes (modHk_writes h)))
  · extract_lets r
    exact .ite (modHk_writes h) (.keep (finishRtd_moves rfl (.refl _ _)) h)

theorem m0RefSt_writes {d : Int} (hstatus : 0xC800 ∈ A) (hdiscard : 0xC803 ∈ A) (h : Writes A z s) :
    Writes A z (m0RefSt d s) := by
  unfold m0RefSt
  split
  extract_lets s0 v s2 s1
  have h0 : Writes A z s0 := modHk_writes h
  have h2 : Writes A z s2 := modHk_writes (modHk_writes h0)
  have h1 : Writes A z s1 :=
    .ite (bump_writes hdiscard (modHk_writes (modHk_writes h0))) (.ite (setF_writes hstatus h2) h2)
  exact .keep (m0Next_moves rfl (.refl _ _)) h1

theorem m0EndSt_writes {d : Int} (hstatus : 0xC800 ∈ A) (hdiscard : 0xC803 ∈ A) (h : Writes A z s) :
    Writes A z (m0EndSt d s) := by
  unfold m0EndSt
  split
  · exact m0RtdSt_writes hdiscard h
  · exact m0RefSt_writes hstatus hdiscard h

theorem refExitSt_writes (hlog : 0xF008 ∈ A) (hstatus : 0xC800 ∈ A) (hdiscard : 0xC803 ∈ A) (h : Writes A z s) :
    Writes A z (refExitSt s) := by
  unfold refExitSt
  extract_lets s1
  have h1 : Writes A z s1 := modHk_writes h
  refine .ite (logEvent_writes hlog (setF_writes hstatus (modHk_writes ?_))) h1
  exact .ite (bump_writes hdiscard h1) h1

theorem rtdOpenSt_writes {n : Fin 4} {balls : BitVec 4} (hlog : 0xF008 ∈ A) (hdiscard : 0xC803 ∈ A)
    (hseen : 0xC808 + n.val ∈ A) (h : Writes A z s) : Writes A z (rtdOpenSt n balls s) := by
  unfold rtdOpenSt
  extract_lets s1 s2 s3 s4
  have h3 : Writes A z s3 := logEvent_writes hlog (setF_writes hseen (modHk_writes h))
  have h4 : Writes A z s4 := .ite (.keep (m0Next_moves rfl (.refl _ _)) (bump_writes hdiscard h3)) h3
  exact .keep (loopsRefresh_moves rfl (coilSuspend_moves rfl (.refl _ _))) h4

theorem burnoutSt_writes {n : Fin 4} {balls : BitVec 4} (hlog : 0xF008 ∈ A) (hdiscard : 0xC803 ∈ A)
    (hseen : 0xC808 + n.val ∈ A) (h : Writes A z s) : Writes A z (burnoutSt n balls s) :=
  .ite (.ite (modHk_writes h) (.ite (modHk_writes h) (rtdOpenSt_writes hlog hdiscard hseen h))) h

/-! ### Time and the TDC -/

theorem snapSt_writes {src : Fin 4} (hsnap : ∀ k, k < 6 → 0x802 + k ∈ A) (h : Writes A z s) : Writes A z (snapSt src s) :=
  .foldl _ (setFreeCtr_writes h) fun _ k hk i => setF_writes (hsnap k (List.mem_range.mp hk)) i

theorem setInc_writes {v : Nat} (hlo : 0x808 ∈ A) (hhi : 0x809 ∈ A) (h : Writes A z s) : Writes A z (setInc s v) :=
  setF_writes hhi (setF_writes hlo h)

theorem enterHoldover_writes (hlo : 0x808 ∈ A) (hhi : 0x809 ∈ A) (h : Writes A z s) : Writes A z (enterHoldover s) :=
  .ite h (setInc_writes hlo hhi (modTime_writes (modTime_writes h)))

theorem tdcPopSt_writes {c : Fin 9} (hentry : ∀ k, k < 8 → 0xC22 + 16 * c.val + k ∈ A) (h : Writes A z s) :
    Writes A z (tdcPopSt c s) := by
  unfold tdcPopSt
  extract_lets ch streaming e v s1
  have h1 : Writes A z s1 := .foldl _ h fun _ k hk i => setF_writes (hentry k (List.mem_range.mp hk)) i
  exact .ite (modTdc_writes h1) h1

theorem monExpirySt_writes {l : Fin 2} (hlog : 0xF008 ∈ A) (hmiss : ∀ c, c < 9 → 0xD05 + 8 * c ∈ A) (h : Writes A z s) :
    Writes A z (monExpirySt l s) := by
  unfold monExpirySt
  split
  next c win x _ _ =>
    extract_lets s1 ch s2
    have h1 : Writes A z s1 := modTime_writes h
    have h2 : Writes A z s2 := bump_writes (hmiss c.val c.isLt) (modTdc_writes h1)
    exact .ite (.ite h1 (.ite (logEvent_writes hlog (modTdc_writes h2)) h2)) h
  next => exact h

theorem failTdcCal_writes {c : Fin 9} {code : Nat} (hlog : 0xF008 ∈ A) (hfail : 0xC01 ∈ A) (hreject : 0xD06 + 8 * c.val ∈ A)
    (h : Writes A z s) : Writes A z (failTdcCal s c code) := by
  unfold failTdcCal
  refine .ite (logEvent_writes hlog (bump_writes hreject ?_)) h
  exact setF_writes hfail (setF_writes hfail (modTdc_writes h))

/-! ### Lanes and links -/

theorem blindTimeoutSt_writes {q : Fin 3} (hphase : 0x400 ∈ A) (h : Writes A z s) : Writes A z (blindTimeoutSt q s) := by
  unfold blindTimeoutSt
  refine .ite ?_ h
  extract_lets s1
  have h1 : Writes A z s1 := .keep (toTrain_moves rfl (.refl _ _)) h
  exact .ite (setF_writes hphase h1) h1

theorem linkFaultSt_writes {q : Fin 3} {cause : Fin 8} (hcount : 0xD003 + 32 * q.val ∈ A) (h : Writes A z s) :
    Writes A z (linkFaultSt q cause s) :=
  .ite (.keep (toBlind_moves rfl (.refl _ _)) (bump_writes hcount h)) h

theorem putWord60_writes {f : Nat → Fld} {w : Nat} (hf : ∀ k, k < 3 → (f k).addr ∈ A) (h : Writes A z s) :
    Writes A z (putWord60 s f w) :=
  .foldl _ h fun _ k hk i => setF_writes (hf k (List.mem_range.mp hk)) i

/-- R77: an offer goes out: its word shows at the host link, and how it stands in the link's status. -/
theorem sendOffer_writes {l : Fin 3} {changed wait : Bool} (hword : ∀ k, k < 12 → 0x11 + k ∈ A)
    (hstatus : 0xD400 + 32 * l.val ∈ A) (h : Writes A z s) : Writes A z (sendOffer s l changed wait) := by
  unfold sendOffer
  extract_lets w n s1 s2 s3
  have h1 : Writes A z s1 := modLink_writes h
  have h2 : Writes A z s2 := .ite (putWord60_writes (fun k hk => hword k (by omega)) h1) h1
  have h3 : Writes A z s3 := .ite (setF_writes hstatus h2) (.ite (setF_writes hstatus h2) h2)
  exact .keep (sendOn_moves rfl (.refl _ _)) h3

/-- The stream of a frame is one of the 256. -/
theorem frameStream_lt {f : Frame} {c : StreamCfg} (e : frameStream s f = some c) : c.n < 256 := by
  have hat : ∀ {n c}, streamAt s (n % 256) = some c → c.n < 256 := by
    intro n c e
    obtain ⟨p, hp, rfl⟩ := Option.map_eq_some_iff.mp e
    have hn := List.find?_some hp
    have : wAt p 0 1 = n % 256 := of_decide_eq_true hn
    show wAt p 0 1 < 256
    omega
  unfold frameStream at e
  split at e
  case h_6 => cases e
  all_goals exact hat e

theorem dropWithdrawn_writes {l : Fin 3} (hdrop : 0xC40A ∈ A) (hst : ∀ n, n < 256 → 0x8014 + 64 * n ∈ A) (h : Writes A z s) :
    Writes A z (dropWithdrawn s l) := by
  unfold dropWithdrawn
  extract_lets L own keep gone
  refine .ite h (.foldl _ (modLink_writes h) fun _ f _ k => .ite (bumpBy_writes hdrop k) ?_)
  split
  next c e => exact .ite (bump_writes (hst c.n (frameStream_lt e)) k) k
  next => exact k

/-! ### Training of a quad -/

theorem offerOnActive_writes {q : Fin 3} (hword : ∀ k, k < 12 → 0x11 + k ∈ A) (hstatus : 0xD400 + 32 * q.val ∈ A)
    (hdrop : 0xC40A ∈ A) (hst : ∀ n, n < 256 → 0x8014 + 64 * n ∈ A) (h : Writes A z s) : Writes A z (offerOnActive s q) := by
  unfold offerOnActive
  extract_lets Q L me same s1 w
  have hacc : ∀ k, k < 3 → (mgAccWord q.val k).addr ∈ A := by
    intro k hk
    have e : (mgAccWord q.val k).addr = 0x11 + (3 + 3 * q.val + k) := by simp only [mgAccWord]; omega
    rw [e]
    exact hword _ (by omega)
  have h1 : Writes A z s1 := modLink_writes h
  clear_value L
  split
  · refine .ite (.ite (sendOffer_writes hword hstatus h1) ?_) ?_
    · exact dropWithdrawn_writes hdrop hst (sendOffer_writes hword hstatus (putWord60_writes hacc (modLink_writes h1)))
    · exact sendOffer_writes hword hstatus (putWord60_writes hacc (modLink_writes h1))
  · exact sendOffer_writes hword hstatus h1

theorem toActive_writes {q : Fin 3} (hphase : 0x400 ∈ A) (hword : ∀ k, k < 12 → 0x11 + k ∈ A)
    (hstatus : 0xD400 + 32 * q.val ∈ A) (hdrop : 0xC40A ∈ A) (hst : ∀ n, n < 256 → 0x8014 + 64 * n ∈ A) (h : Writes A z s) :
    Writes A z (toActive s q) := by
  unfold toActive
  extract_lets wait s1 s2 s3 s4 s5
  have h2 : Writes A z s2 := modLink_writes (modQuad_writes h)
  have h3 : Writes A z s3 := .ite h2 (setF_writes hstatus h2)
  have h4 : Writes A z s4 := offerOnActive_writes hword hstatus hdrop hst h3
  have h5 : Writes A z s5 := .ite (setF_writes hphase h4) h4
  exact .ite (.keep (newTrain_moves rfl (.refl _ _)) h5) h5

theorem narrowTo_writes {q : Fin 3} {c : QuadCfg} {width use : Nat} (hlog : 0xF008 ∈ A) (hcount : 0xD003 + 32 * q.val ∈ A)
    (h : Writes A z s) : Writes A z (narrowTo s q c width use) := by
  unfold narrowTo
  extract_lets s1
  have h1 : Writes A z s1 := modQuad_writes h
  exact .ite (bump_writes hcount (logEvent_writes hlog h1)) h1

theorem failAttempt_writes {q : Fin 3} (hlog : 0xF008 ∈ A) (h : Writes A z s) : Writes A z (failAttempt s q) := by
  unfold failAttempt
  extract_lets Q n s1
  have h1 : Writes A z s1 := modQuad_writes h
  refine .ite (modQuad_writes h1) (.ite (logEvent_writes hlog (modQuad_writes h1)) (.ite ?_ ?_))
  · exact .keep (newTrain_moves rfl (.refl _ _)) h1
  · exact .keep (toDetect_moves rfl (.refl _ _)) h1

theorem failWidth_writes {q : Fin 3} {c : QuadCfg} (hlog : 0xF008 ∈ A) (h : Writes A z s) : Writes A z (failWidth s q c) :=
  failAttempt_writes hlog (.ite (modQuad_writes h) h)

theorem formLink_writes {q : Fin 3} {c : QuadCfg} {lanes : Nat} (hlog : 0xF008 ∈ A) (hcount : 0xD003 + 32 * q.val ∈ A)
    (h : Writes A z s) : Writes A z (formLink s q c lanes) := by
  unfold formLink
  extract_lets Q w
  split
  · exact failWidth_writes hlog h
  · exact narrowTo_writes hlog hcount (modQuad_writes h)

theorem alignEnd_writes {q : Fin 3} {c : QuadCfg} {lanes : Nat} (hlog : 0xF008 ∈ A) (hcount : 0xD003 + 32 * q.val ∈ A)
    (hactive : ∀ {u}, Writes A z u → Writes A z (toActive u q)) (h : Writes A z s) : Writes A z (alignEnd s q c lanes) := by
  unfold alignEnd
  refine .ite (hactive h) ?_
  split
  · exact failWidth_writes hlog h
  · exact hactive (narrowTo_writes hlog hcount h)

theorem endStep_writes {q : Fin 3} {lanes : Nat} (hlog : 0xF008 ∈ A) (hcount : 0xD003 + 32 * q.val ∈ A)
    (hactive : ∀ {u}, Writes A z u → Writes A z (toActive u q)) (h : Writes A z s) : Writes A z (endStep s q lanes) := by
  unfold endStep
  extract_lets Q
  split
  · exact h
  · refine .ite (failAttempt_writes hlog h) ?_
    split
    · split
      · exact failAttempt_writes hlog h
      · exact modQuad_writes h
    · exact modQuad_writes h
    · exact formLink_writes hlog hcount h
    · exact alignEnd_writes hlog hcount hactive h

theorem stepIfDone_writes {q : Fin 3} (hlog : 0xF008 ∈ A) (hcount : 0xD003 + 32 * q.val ∈ A)
    (hactive : ∀ {u}, Writes A z u → Writes A z (toActive u q)) (h : Writes A z s) : Writes A z (stepIfDone s q) :=
  .ite (endStep_writes hlog hcount hactive h) h

theorem laneLosSt_writes {q : Fin 3} {p : Fin 4} (hlog : 0xF008 ∈ A) (hcount : 0xD003 + 32 * q.val ∈ A)
    (hactive : ∀ {u}, Writes A z u → Writes A z (toActive u q)) (h : Writes A z s) : Writes A z (laneLosSt q p s) := by
  unfold laneLosSt
  extract_lets Q s1 left
  have h1 : Writes A z s1 := modQuad_writes h
  refine .ite h (.ite (.ite (failAttempt_writes hlog h1) ?_) h1)
  exact stepIfDone_writes hlog hcount hactive (modQuad_writes h1)

/-! ### The chain -/

theorem receive_writes {l : Fin 3} {f : Frame} {k : State → State} (hbad : 0xD402 + 32 * l.val ∈ A)
    (hk : ∀ {u}, Writes A z u → Writes A z (k u)) (h : Writes A z s) : Writes A z (receive s l f k) := by
  unfold receive
  extract_lets s1
  have h1 : Writes A z s1 := .keep (noteRx_moves rfl (.refl _ _)) h
  exact .ite (.ite (hk h1) (bump_writes hbad h1)) h

theorem levelReqSt_writes {l : Fin 3} {f : Frame} {stamp : Nat} (hbad : 0xD402 + 32 * l.val ∈ A) (h : Writes A z s) :
    Writes A z (levelReqSt l f stamp s) :=
  .ite (bump_writes hbad h) (.keep (sendOn_moves rfl (.refl _ _)) h)

theorem levelRespSt_writes {l : Fin 3} {f : Frame} {stamp : Nat} (hbad : 0xD402 + 32 * l.val ∈ A) (h : Writes A z s) :
    Writes A z (levelRespSt l f stamp s) := by
  unfold levelRespSt
  extract_lets p
  refine .ite (bump_writes hbad h) ?_
  split
  · exact h
  · split
    · exact h
    · exact .ite (setNet_writes h) h

theorem levelLost_writes {hold : Bool} (hlo : 0x808 ∈ A) (hhi : 0x809 ∈ A) (hdepth : 0xD481 ∈ A) (h : Writes A z s) :
    Writes A z (levelLost s hold) := by
  have h1 : Writes A z { s with net := { s.net with levelValid := false, levelMiss := s.net.levelMiss + 1 } } :=
    setNet_writes h
  exact .ite (setF_writes hdepth (enterHoldover_writes hlo hhi h1)) h1

theorem levelStartSt_writes (hlo : 0x808 ∈ A) (hhi : 0x809 ∈ A) (hdepth : 0xD481 ∈ A) (h : Writes A z s) :
    Writes A z (levelStartSt s) := by
  unfold levelStartSt
  split
  · exact h
  · extract_lets l
    exact .ite h (.ite (levelLost_writes hlo hhi hdepth h) (.keep (levelAsk_moves rfl (.refl _ _)) h))

/-! ### Boot, memory and the management space -/

theorem xspiInitSt_writes {sfdp : Option (Nat × Nat)} (hphase : 0x400 ∈ A) (h : Writes A z s) :
    Writes A z (xspiInitSt sfdp s) := .ite (setF_writes hphase (.keep (modBoot_moves rfl (.refl _ _)) (setMgmt_writes h))) h

theorem stage1St_writes (hphase : 0x400 ∈ A) (herr : 0x401 ∈ A) (hwdog : 0x404 ∈ A) (h : Writes A z s) :
    Writes A z (stage1St s) := by
  unfold stage1St
  refine .ite ?_ h
  extract_lets ws
  split
  · refine .keep (startBootTraining_moves rfl (.refl _ _)) (setF_writes hwdog (setF_writes hphase ?_))
    exact .keep (putSram_moves rfl (.refl _ _)) h
  · exact .ite (setF_writes herr h) (setF_writes herr h)

theorem stage2Boot_writes {src : List Word} (hphase : 0x400 ∈ A) (hurgent : 0xC802 ∈ A)
    (hstatus : ∀ l : Fin 2, 0x1000 + 1024 * l.val ∈ A) (h : Writes A z s) : Writes A z (stage2Boot s src) :=
  .foldl _ (setF_writes hphase (h.of_regs rfl)) fun _ l _ k => startFullCal_writes hurgent (hstatus l) (modConv_writes k)

theorem stage2St_writes (hphase : 0x400 ∈ A) (hurgent : 0xC802 ∈ A) (hstatus : ∀ l : Fin 2, 0x1000 + 1024 * l.val ∈ A)
    (hcal : ∀ l : Fin 2, 0x1001 + 1024 * l.val ∈ A) (h : Writes A z s) : Writes A z (stage2St s) := by
  unfold stage2St
  refine .ite (.ite (.foldl _ (setF_writes hphase h) fun _ l _ k => resumeCal_writes hurgent (hstatus l) (hcal l) k) ?_) h
  extract_lets ws
  split
  · exact stage2Boot_writes hphase hurgent hstatus h
  · exact h

theorem finalLockSt_writes (hphase : 0x400 ∈ A) (h : Writes A z s) : Writes A z (finalLockSt s) := by
  unfold finalLockSt
  refine .ite ?_ h
  extract_lets s1
  have h1 : Writes A z s1 :=
    .foldl _ (setF_writes hphase h) fun _ _ _ k => .ite (.keep (startQuad_moves rfl (.refl _ _)) k) k
  exact .ite (setF_writes hphase h1) h1

theorem shortRetrainSt_writes {c : Fin 4} (hcount : 0xE009 ∈ A) (h : Writes A z s) : Writes A z (shortRetrainSt c s) :=
  .ite (bump_writes hcount (.keep (modCh_moves rfl (.refl _ _)) h)) h

theorem snapDoneSt_writes (hdata : ∀ k, k < 8 → 0x32 + k ∈ A) (hstatus : 0x3A ∈ A) (h : Writes A z s) :
    Writes A z (snapDoneSt s) := by
  unfold snapDoneSt
  split
  · exact h
  · extract_lets mgmt s1
    have h1 : Writes A z s1 := setMgmt_writes h
    split
    · exact setF_writes hstatus h1
    · refine setF_writes hstatus (.foldl _ h1 fun _ k hk i => ?_)
      exact setF_writes (hdata k (List.mem_range.mp hk)) i

theorem evShow_writes (hentry : ∀ k, k < 4 → 0xF004 + k ∈ A) (h : Writes A z s) : Writes A z (evShow s) :=
  .foldl _ h fun _ k hk i => setF_writes (hentry k (List.mem_range.mp hk)) i

end
end Sys2Proof.Laws
end

section
/-! SUPPORT. Which registers a mailbox request writes that finds no other request waiting: what serving it writes, and that it
leaves the queue as it is. -/

namespace Sys2Proof.Laws
open Sys2Proof Sys2Proof.Machine Sys2Proof.Safety

section
variable {A : List Nat} {z s : State}

/-! ### What leaves the waiting requests alone -/

/-- The mailbox requests that wait stay as they are. -/
def KeepsQueue (z s : State) : Prop := s.keeper.mbx = z.keeper.mbx

/-- Every part of the state but the keeper. -/
def allButKeeper : List Part := [.regs, .cfg, .otp, .book, .log, .fu, .trav, .probe, .conv, .pce, .sense, .net, .time, .mem, .hk,
  .zn, .streams, .code, .mgmt, .flash, .samples, .dram, .xbuf, .now, .up, .freeCtr]

theorem KeepsQueue.keep {t : State} (m : Moves allButKeeper s t) (h : KeepsQueue z s) : KeepsQueue z t := by
  have e : t.keeper = s.keeper := m.only.1 .keeper (by decide)
  exact (congrArg Keeper.mbx e).trans h

theorem KeepsQueue.ite {a b : State} {c : Prop} [Decidable c] (ha : KeepsQueue z a) (hb : KeepsQueue z b) :
    KeepsQueue z (if c then a else b) := by split <;> assumption

theorem KeepsQueue.foldl {α : Type} {g : State → α → State} (l : List α) (h : KeepsQueue z s)
    (hg : ∀ s x, KeepsQueue z s → KeepsQueue z (g s x)) : KeepsQueue z (l.foldl g s) :=
  List.foldlRecOn l g h fun s k x _ => hg s x k

theorem mbxAnswer_keepsQueue {code status detail : Nat} (h : KeepsQueue z s) : KeepsQueue z (mbxAnswer s code status detail) := h

theorem mbxRefuse_keepsQueue {code : Nat} (h : KeepsQueue z s) : KeepsQueue z (mbxRefuse s code) := h

theorem setRearm_keepsQueue {l : Fin 2} {on : Bool} (h : KeepsQueue z s) : KeepsQueue z (setRearm s l on) := h

theorem modOtp_keepsQueue {f : Otp → Otp} (h : KeepsQueue z s) : KeepsQueue z (modOtp s f) := h

theorem disarmLine_keepsQueue {l : Fin 2} (h : KeepsQueue z s) : KeepsQueue z (disarmLine s l) :=
  .keep (disarmLine_moves rfl (.refl _ _)) h

/-! ### Serving one request -/

theorem bootCompleteSt_writes (hmbx : 0x403 ∈ A) (h : Writes A z s) : Writes A z (bootCompleteSt s) := by
  have h1 : Writes A z (mbxAnswer (modBoot s (fun b => { b with complete := true })) 2 mbxGranted 0) :=
    mbxAnswer_writes hmbx (modKeeper_writes h)
  exact .ite (mbxAnswer_writes hmbx h) (.ite (modKeeper_writes h1) h1)

theorem bootCompleteSt_keepsQueue (h : KeepsQueue z s) : KeepsQueue z (bootCompleteSt s) := .ite h (.ite h h)

theorem laserArmSt_writes {l : Fin 2} (hmbx : 0x403 ∈ A) (hlog : 0xF008 ∈ A) (harm : 0x1800 + 1024 * l.val ∈ A)
    (hmute : 0x1802 + 1024 * l.val ∈ A) (hsat : 0x1804 + 1024 * l.val ∈ A) (h : Writes A z s) :
    Writes A z (laserArmSt l s) := by
  have h1 : Writes A z (setRearm s l false) := setKeeper_writes h
  refine .ite (mbxAnswer_writes hmbx h1) (.ite (mbxAnswer_writes hmbx ?_) (mbxRefuse_writes hmbx h1))
  exact armLine_writes hlog harm hmute hsat h1

theorem laserArmSt_keepsQueue {l : Fin 2} (h : KeepsQueue z s) : KeepsQueue z (laserArmSt l s) := by
  have h1 : KeepsQueue z (setRearm s l false) := setRearm_keepsQueue h
  refine .ite (mbxAnswer_keepsQueue h1) (.ite (mbxAnswer_keepsQueue ?_) (mbxRefuse_keepsQueue h1))
  exact .keep (armLine_moves rfl (.refl _ _)) h1

theorem laserDisarmSt_writes {l : Fin 2} (hmbx : 0x403 ∈ A) (hlog : 0xF008 ∈ A) (harm : 0x1800 + 1024 * l.val ∈ A)
    (hmute : 0x1802 + 1024 * l.val ∈ A) (hsat : 0x1804 + 1024 * l.val ∈ A) (hforced : 0xC408 ∈ A) (hsent : 0xC409 ∈ A)
    (hdrop : 0xC40A ∈ A) (h : Writes A z s) : Writes A z (laserDisarmSt l s) :=
  mbxAnswer_writes hmbx (staleLine_writes hforced hsent hdrop (disarmLine_writes hlog harm hmute hsat (setKeeper_writes h)))

theorem laserDisarmSt_keepsQueue {l : Fin 2} (h : KeepsQueue z s) : KeepsQueue z (laserDisarmSt l s) :=
  mbxAnswer_keepsQueue (.keep (staleLine_moves rfl (.refl _ _)) (disarmLine_keepsQueue (setRearm_keepsQueue h)))

theorem startExit_writes (hurgent : 0xC802 ∈ A) (hstatus : ∀ l : Fin 2, 0x1000 + 1024 * l.val ∈ A) (h : Writes A z s) :
    Writes A z (startExit s) := by
  unfold startExit
  refine .ite h (setKeeper_writes (.foldl _ ?_ fun _ l _ k => exitCal_writes hurgent (hstatus l) ?_))
  · exact .foldl _ (h.of_regs rfl) fun _ _ _ k => .keep (wakeQuad_moves rfl (.refl _ _)) k
  · exact .keep (raiseSettling_moves rfl (.refl _ _)) (modConv_writes k)

theorem startExit_keepsQueue (h : KeepsQueue z s) : KeepsQueue z (startExit s) := by
  unfold startExit
  extract_lets _ _ s1 s2 s3
  have h1 : KeepsQueue z s1 := h
  have h2 : KeepsQueue z s2 := .foldl _ h1 fun _ _ k => .keep (wakeQuad_moves rfl (.refl _ _)) k
  have h3 : KeepsQueue z s3 := .foldl _ h2 fun _ _ k =>
    .keep (exitCal_moves rfl (raiseSettling_moves rfl (modConv_moves rfl (.refl _ _)))) k
  clear_value s3
  exact .ite h h3

theorem mbxExitSt_writes (hmbx : 0x403 ∈ A) (hurgent : 0xC802 ∈ A) (hstatus : ∀ l : Fin 2, 0x1000 + 1024 * l.val ∈ A)
    (h : Writes A z s) : Writes A z (mbxExitSt s) :=
  .ite (mbxAnswer_writes hmbx h)
    (.ite (mbxRefuse_writes hmbx h) (startExit_writes hurgent hstatus (mbxAnswer_writes hmbx h)))

theorem mbxExitSt_keepsQueue (h : KeepsQueue z s) : KeepsQueue z (mbxExitSt s) :=
  .ite (mbxAnswer_keepsQueue h) (.ite (mbxRefuse_keepsQueue h) (startExit_keepsQueue (mbxAnswer_keepsQueue h)))

theorem mbxDramFreqSt_writes {sp : Fin 3} (hmbx : 0x403 ∈ A) (h : Writes A z s) : Writes A z (mbxDramFreqSt sp s) := by
  have h1 : Writes A z (mbxAnswer s 7 mbxGranted 0) := mbxAnswer_writes hmbx h
  refine .ite (mbxAnswer_writes hmbx h) (.ite (mbxRefuse_writes hmbx h) (.ite h1 ?_))
  exact .keep (askChange_moves rfl (.refl _ _)) h1

theorem mbxDramFreqSt_keepsQueue {sp : Fin 3} (h : KeepsQueue z s) : KeepsQueue z (mbxDramFreqSt sp s) := by
  have h1 : KeepsQueue z (mbxAnswer s 7 mbxGranted 0) := mbxAnswer_keepsQueue h
  refine .ite (mbxAnswer_keepsQueue h) (.ite (mbxRefuse_keepsQueue h) (.ite h1 ?_))
  exact .keep (askChange_moves rfl (.refl _ _)) h1

theorem recordHashSt_writes {amended : Bool} (hmbx : 0x403 ∈ A) (h : Writes A z s) : Writes A z (recordHashSt amended s) :=
  .ite (mbxAnswer_writes hmbx (modKeeper_writes h))
    (.ite (mbxAnswer_writes hmbx h) (mbxAnswer_writes hmbx (modKeeper_writes h)))

theorem recordHashSt_keepsQueue {amended : Bool} (h : KeepsQueue z s) : KeepsQueue z (recordHashSt amended s) :=
  .ite (mbxAnswer_keepsQueue h) (.ite (mbxAnswer_keepsQueue h) (mbxAnswer_keepsQueue h))

theorem mbxLoopReleaseSt_keepsQueue {n : Fin 8} (h : KeepsQueue z s) : KeepsQueue z (mbxLoopReleaseSt n s) := by
  unfold mbxLoopReleaseSt
  split
  next t e => exact mbxAnswer_keepsQueue (.keep (loopRelease_moves_eq e rfl (.refl _ _)) h)
  next => exact mbxRefuse_keepsQueue h

/-- R47: what the entry of RETURN clears besides disarming the lines. -/
def wipeForReturn (s : State) : State :=
  modCode { s with dram := [], book := { s.book with amended := [], fieldCopy := [] } } (fun c => { c with ring := [], index := [] })

theorem enterReturn_eq (s : State) : enterReturn s =
    wipeForReturn ((List.finRange 2).foldl (fun s l => disarmLine (setRearm s l false) l) (programLife s 3)) := rfl

theorem wipeForReturn_writes (h : Writes A z s) : Writes A z (wipeForReturn s) := h.of_regs rfl

theorem wipeForReturn_keepsQueue (h : KeepsQueue z s) : KeepsQueue z (wipeForReturn s) := h

section
variable (hlog : 0xF008 ∈ A) (harm : ∀ l : Fin 2, 0x1800 + 1024 * l.val ∈ A) (hmute : ∀ l : Fin 2, 0x1802 + 1024 * l.val ∈ A)
  (hsat : ∀ l : Fin 2, 0x1804 + 1024 * l.val ∈ A)
include hlog harm hmute hsat

theorem enterReturn_writes (h : Writes A z s) : Writes A z (enterReturn s) := by
  rw [enterReturn_eq]
  refine wipeForReturn_writes (.foldl _ (modKeeper_writes h) fun _ l _ k => ?_)
  exact disarmLine_writes hlog (harm l) (hmute l) (hsat l) (setKeeper_writes k)

theorem tokenJudge_next_writes {t : Token} (h : Writes A z s) : Writes A z (tokenJudge s t).2.2.2 := by
  unfold tokenJudge
  extract_lets life
  split
  · split_ifs
    · exact modKeeper_writes h
    · exact modKeeper_writes h
    · exact enterReturn_writes hlog harm hmute hsat h
    · exact h
  · exact modKeeper_writes h
  · exact modKeeper_writes h

theorem mbxLifecycleSt_writes {token : Option Token} (hmbx : 0x403 ∈ A) (h : Writes A z s) :
    Writes A z (mbxLifecycleSt token s) := by
  unfold mbxLifecycleSt
  split
  · exact mbxAnswer_writes hmbx h
  next t =>
    have hnext := tokenJudge_next_writes hlog harm hmute hsat (t := t) h
    have hanswer : ∀ {status}, Writes A z (mbxAnswer s 11 status 0) := mbxAnswer_writes hmbx h
    exact .ite (mbxRefuse_writes hmbx h)
      (.ite hanswer (.ite hanswer (.ite (mbxRefuse_writes hmbx h) (mbxAnswer_writes hmbx hnext))))

end

theorem enterReturn_keepsQueue (h : KeepsQueue z s) : KeepsQueue z (enterReturn s) := by
  rw [enterReturn_eq]
  refine wipeForReturn_keepsQueue (.foldl _ (modOtp_keepsQueue h) fun _ _ k => ?_)
  exact disarmLine_keepsQueue (setRearm_keepsQueue k)

theorem tokenJudge_next_keepsQueue {t : Token} (h : KeepsQueue z s) : KeepsQueue z (tokenJudge s t).2.2.2 := by
  unfold tokenJudge
  extract_lets life
  split
  · split_ifs
    · exact modOtp_keepsQueue h
    · exact modOtp_keepsQueue h
    · exact enterReturn_keepsQueue h
    · exact h
  · exact modOtp_keepsQueue h
  · exact modOtp_keepsQueue h

theorem mbxLifecycleSt_keepsQueue {token : Option Token} (h : KeepsQueue z s) : KeepsQueue z (mbxLifecycleSt token s) := by
  unfold mbxLifecycleSt
  split
  · exact mbxAnswer_keepsQueue h
  next t =>
    have hnext := tokenJudge_next_keepsQueue (t := t) h
    exact .ite (mbxRefuse_keepsQueue h)
      (.ite (mbxAnswer_keepsQueue h)
        (.ite (mbxAnswer_keepsQueue h) (.ite (mbxRefuse_keepsQueue h) (mbxAnswer_keepsQueue hnext))))

/-! ### The mailbox where no request waits -/

/-- The request that `mbxSend` queues. -/
def mbxReqOf (code a1 a2 a3 : Nat) : MbxReq :=
  { code := BitVec.ofNat 10 code, a1 := BitVec.ofNat 10 a1, a2 := BitVec.ofNat 10 a2, a3 := BitVec.ofNat 10 a3 }

/-- The state with the requests `q` waiting. -/
def withQueue (s : State) (q : List MbxReq) : State := { s with keeper := { s.keeper with mbx := q } }

theorem withQueue_writes {q : List MbxReq} (h : Writes A z s) : Writes A z (withQueue s q) := setKeeper_writes h

theorem mbxRun_empty {n : Nat} (hq : s.keeper.mbx = []) : mbxRun n s = s := by
  cases n with
  | zero => rfl
  | succ n => simp only [mbxRun, hq]

theorem mbxRun_withQueue_one (n : Nat) (s : State) (r : MbxReq) :
    mbxRun (n + 1) (withQueue s [r]) = if keeperRuns s then mbxRun n (mbxServe (withQueue s []) r) else withQueue s [r] := rfl

theorem mbxSend_of_empty {code a1 a2 a3 : Nat} (hq : s.keeper.mbx = []) :
    mbxSend s code a1 a2 a3 = mbxRun 4 (withQueue s [mbxReqOf code a1 a2 a3]) := by
  have e : mbxSend s code a1 a2 a3 = if s.keeper.mbx.length < 4
      then mbxRun 4 (withQueue s (s.keeper.mbx ++ [mbxReqOf code a1 a2 a3])) else s := rfl
  rw [e, hq]
  rfl

/-- R42: a request that finds no other waiting is served alone, at once or when the keeper runs again. -/
theorem mbxSend_writes {code a1 a2 a3 : Nat} (hq : s.keeper.mbx = [])
    (hserve : ∀ {u}, Writes A z u → Writes A z (mbxServe u (mbxReqOf code a1 a2 a3)))
    (hqueue : ∀ {z u}, KeepsQueue z u → KeepsQueue z (mbxServe u (mbxReqOf code a1 a2 a3))) (h : Writes A z s) :
    Writes A z (mbxSend s code a1 a2 a3) := by
  have hdone : KeepsQueue (withQueue s []) (mbxServe (withQueue s []) (mbxReqOf code a1 a2 a3)) := hqueue rfl
  rw [mbxSend_of_empty hq, mbxRun_withQueue_one, mbxRun_empty hdone]
  exact .ite (hserve (withQueue_writes h)) (withQueue_writes h)

theorem mbxReqOf_line (code : Nat) (l : Fin 2) :
    (mbxReqOf code l.val 0 0).a1.toNat = l.val ∧ finOf 2 l.val (by decide) = l := by
  match l with
  | 0 => exact ⟨rfl, rfl⟩
  | 1 => exact ⟨rfl, rfl⟩

theorem mbxServe_laserArm (u : State) (l : Fin 2) : mbxServe u (mbxReqOf 3 l.val 0 0) = laserArmSt l u := by
  obtain ⟨ha, hl⟩ := mbxReqOf_line 3 l
  have e : (mbxReqOf 3 l.val 0 0).code.toNat = 3 := rfl
  unfold mbxServe
  simp only [e, ha, hl, l.isLt, if_true]

theorem mbxServe_laserDisarm (u : State) (l : Fin 2) : mbxServe u (mbxReqOf 4 l.val 0 0) = laserDisarmSt l u := by
  obtain ⟨ha, hl⟩ := mbxReqOf_line 4 l
  have e : (mbxReqOf 4 l.val 0 0).code.toNat = 4 := rfl
  unfold mbxServe
  simp only [e, ha, hl, l.isLt, if_true]

theorem mbxServe_badCode (u : State) {c : Nat} (hc : c < 1024) (hbad : ¬(1 ≤ c ∧ c ≤ 11)) :
    mbxServe u (mbxReqOf c 0 0 0) = mbxAnswer u c mbxBadCode 0 := by
  have e : (mbxReqOf c 0 0 0).code.toNat = c := Nat.mod_eq_of_lt hc
  unfold mbxServe
  rw [e]
  split
  case h_12 => rfl
  all_goals omega

end
end Sys2Proof.Laws
end

section
/-! SUPPORT. Which registers each command writes, command by command. -/

namespace Sys2Proof.Laws
open Sys2Proof Sys2Proof.Machine Sys2Proof.Safety

/-- A command that goes on to `f s` writes what `f` writes. -/
theorem writesRegs_of_next {A : List Nat} {c : Instr} {f : State → State} (hc : ∀ s, exec c s = .next (f s))
    (hf : ∀ {s}, Writes A s s → Writes A s (f s)) : writesRegs A c := by
  intro s t e
  rw [← Host.Outcome.next.inj ((hc s).symm.trans e)]
  exact hf (.refl A s)

/-- A mailbox request writes what serving it writes. -/
theorem answersRegs_of_next {A : List Nat} {c : Instr} {f : State → State} (hc : ∀ s, exec c s = .next (f s))
    (hf : ∀ {s}, s.keeper.mbx = [] → Writes A s s → Writes A s (f s)) : answersRegs A c := by
  intro s t hq e
  rw [← Host.Outcome.next.inj ((hc s).symm.trans e)]
  exact hf hq (.refl A s)

theorem mem_map_range {f : Nat → Nat} {n k : Nat} (hk : k < n) : f k ∈ (List.range n).map f :=
  List.mem_map_of_mem (List.mem_range.mpr hk)

/-! ### The mailbox -/

theorem mbxHeartbeat_answersRegs : answersRegs [0x403, 0x404] .mbxHeartbeat :=
  answersRegs_of_next (fun _ => rfl) fun hq => mbxSend_writes hq
    (fun h => mbxAnswer_writes (code := 1) (by simp) (setF_writes (.tail _ (.head _)) h)) (fun h => h)

theorem mbxBootComplete_answersRegs : answersRegs [0x403] .mbxBootComplete :=
  answersRegs_of_next (fun _ => rfl) fun hq => mbxSend_writes hq (bootCompleteSt_writes (by simp)) bootCompleteSt_keepsQueue

theorem mbxLaserArm_answersRegs (l : Fin 2) :
    answersRegs [0x403, 0xF008, 0x1800 + 1024 * l.val, 0x1802 + 1024 * l.val, 0x1804 + 1024 * l.val] (.mbxLaserArm l) := by
  refine answersRegs_of_next (f := fun s => mbxSend s 3 l.val 0 0) (fun _ => rfl) fun hq => mbxSend_writes hq ?_ ?_
  · intro u h
    rw [mbxServe_laserArm]
    exact laserArmSt_writes (by simp) (by simp) (by simp) (by simp) (by simp) h
  · intro _ u h
    rw [mbxServe_laserArm]
    exact laserArmSt_keepsQueue h

theorem mbxLaserDisarm_answersRegs (l : Fin 2) :
    answersRegs [0x403, 0xF008, 0x1800 + 1024 * l.val, 0x1802 + 1024 * l.val, 0x1804 + 1024 * l.val, 0xC408, 0xC409, 0xC40A]
      (.mbxLaserDisarm l) := by
  refine answersRegs_of_next (f := fun s => mbxSend s 4 l.val 0 0) (fun _ => rfl) fun hq => mbxSend_writes hq ?_ ?_
  · intro u h
    rw [mbxServe_laserDisarm]
    exact laserDisarmSt_writes (by simp) (by simp) (by simp) (by simp) (by simp) (by simp) (by simp) (by simp) h
  · intro _ u h
    rw [mbxServe_laserDisarm]
    exact laserDisarmSt_keepsQueue h

theorem mbxStandbyExit_answersRegs : answersRegs [0x403, 0x1000, 0x1400, 0xC802] .mbxStandbyExit :=
  answersRegs_of_next (fun _ => rfl) fun hq => mbxSend_writes hq
    (mbxExitSt_writes (by simp) (by simp) (by decide)) mbxExitSt_keepsQueue

theorem mbxDramFreq_answersRegs (sp : Fin 3) : answersRegs [0x403] (.mbxDramFreq sp) :=
  answersRegs_of_next (f := fun s => mbxSend s 7 sp.val 0 0) (fun _ => rfl) fun hq => mbxSend_writes hq
    (fun h => .ite (mbxDramFreqSt_writes (by simp) h) (mbxRefuse_writes (by simp) h))
    (fun h => .ite (mbxDramFreqSt_keepsQueue h) (mbxRefuse_keepsQueue h))

theorem mbxRecordHash_answersRegs (b : Bool) : answersRegs [0x403] (.mbxRecordHash b) :=
  answersRegs_of_next (f := fun s => mbxSend s 8 (b2n b) 0 0) (fun _ => rfl) fun hq => mbxSend_writes hq
    (fun h => .ite (recordHashSt_writes (by simp) h) (mbxRefuse_writes (by simp) h))
    (fun h => .ite (recordHashSt_keepsQueue h) (mbxRefuse_keepsQueue h))

theorem mbxLoopRelease_answersRegs (n : Fin 8) : answersRegs [0x403] (.mbxLoopRelease n) :=
  answersRegs_of_next (f := fun s => mbxSend s 9 n.val 0 0) (fun _ => rfl) fun hq => mbxSend_writes hq
    (fun h => .ite (mbxLoopReleaseSt_writes (by simp) h) (mbxRefuse_writes (by simp) h))
    (fun h => .ite (mbxLoopReleaseSt_keepsQueue h) (mbxRefuse_keepsQueue h))

theorem mbxLifecycle_answersRegs (a : Nat) (k : List Word) :
    answersRegs [0x403, 0xF008, 0x1800, 0x1802, 0x1804, 0x1C00, 0x1C02, 0x1C04] (.mbxLifecycle a k) :=
  answersRegs_of_next (f := lifecycleAsk a k) (fun _ => rfl) fun hq h => mbxSend_writes hq
    (mbxLifecycleSt_writes (by simp) (by decide) (by decide) (by decide) (by simp)) mbxLifecycleSt_keepsQueue
    (setMgmt_writes h)

theorem mbxBadCode_answersRegs (c : Fin 1024) : answersRegs [0x403] (.mbxBadCode c) := by
  refine answersRegs_of_next (fun _ => rfl) fun hq h => ?_
  unfold whenB
  split
  next hbad =>
    have hserve (u : State) : mbxServe u (mbxReqOf c.val 0 0 0) = mbxAnswer u c.val mbxBadCode 0 :=
      mbxServe_badCode u c.isLt (of_decide_eq_false (by simpa only [Bool.not_eq_true'] using hbad))
    refine mbxSend_writes hq (fun k => ?_) (fun k => ?_) h
    · rw [hserve]
      exact mbxAnswer_writes (by simp) k
    · rw [hserve]
      exact mbxAnswer_keepsQueue k
  next => exact h

theorem loopReleaseTimer_writesRegs (n : Fin 8) : writesRegs [0x403] (.loopReleaseTimer n) :=
  writesRegs_of_next (fun _ => rfl) fun h => .whenB h (mbxLoopReleaseSt_writes (by simp) h)

theorem loopReleaseCmd_writesRegs (n : Fin 8) : writesRegs [0x403] (.loopReleaseCmd n) :=
  writesRegs_of_next (fun _ => rfl) (loopReleaseCmdSt_writes (by simp))

/-! ### Lasers, sequencer and converters -/

theorem interlockTrip_writesRegs (l : Fin 2) :
    writesRegs [0xF008, 0x1800 + 1024 * l.val, 0x1802 + 1024 * l.val, 0x1804 + 1024 * l.val, 0xC408, 0xC409, 0xC40A]
      (.interlockTrip l) :=
  writesRegs_of_next (fun _ => rfl)
    (ilkTripSt_writes (by simp) (by simp) (by simp) (by simp) (by simp) (by simp) (by simp))

theorem fibreBreakRaise_writesRegs (l : Fin 2) :
    writesRegs [0xF008, 0x1800 + 1024 * l.val, 0x1805 + 1024 * l.val, 0xC408, 0xC409, 0xC40A] (.fibreBreakRaise l) :=
  writesRegs_of_next (fun _ => rfl) (breakRaiseSt_writes (by simp) (by simp) (by simp) (by simp) (by simp) (by simp))

theorem fibreBreakClear_writesRegs (l : Fin 2) : writesRegs [0x1805 + 1024 * l.val] (.fibreBreakClear l) :=
  writesRegs_of_next (fun _ => rfl) fun h => .whenB h (setF_writes (.head _) h)

theorem launchCmdArrive_writesRegs (l : Fin 2) (k : Fin 16) : writesRegs [0x1803 + 1024 * l.val] (.launchCmdArrive l k) :=
  writesRegs_of_next (fun _ => rfl) (launchCmdSt_writes (by simp))

theorem probeLaunch_writesRegs (l : Fin 2) :
    writesRegs [0xF008, 0x400, 0x1802 + 1024 * l.val, 0x1804 + 1024 * l.val] (.probeLaunch l) :=
  writesRegs_of_next (fun _ => rfl) (probeLaunchSt_writes (by simp) (by simp) (by simp) (by simp))

theorem envelopeSubwindowEnd_writesRegs (l : Fin 2) :
    writesRegs [0xF008, 0x1802 + 1024 * l.val, 0x1804 + 1024 * l.val] (.envelopeSubwindowEnd l) :=
  writesRegs_of_next (fun _ => rfl) (subwindowSt_writes (by simp) (by simp) (by simp))

theorem priorityPassEnd_writesRegs (l : Fin 2) (i : Fin 4) : writesRegs [0x1000 + 1024 * l.val] (.priorityPassEnd l i) :=
  writesRegs_of_next (fun _ => rfl) fun h => .whenB h (setMaskBit_writes (.head _) h)

theorem refFallback_writesRegs (l : Fin 2) : writesRegs [0xF008, 0x1000 + 1024 * l.val] (.refFallback l) :=
  writesRegs_of_next (fun _ => rfl) (refFallbackSt_writes (by simp) (by simp))

theorem ramanFgCalStart_writesRegs (l : Fin 2) :
    writesRegs [0xC802, 0x1000 + 1024 * l.val, 0x1001 + 1024 * l.val] (.ramanFgCalStart l) :=
  writesRegs_of_next (fun _ => rfl) fun h => .whenB h (startRamanFg_writes (by simp) (by simp) (by simp) h)

theorem overRange_writesRegs (l : Fin 2) (i : Fin 6) (n g : Nat) :
    writesRegs [0x1008 + 1024 * l.val + i.val] (.overRange l i n g) :=
  writesRegs_of_next (fun _ => rfl) (overRangeSt_writes (by simp))

theorem launchMeasureDone_writesRegs (l : Fin 2) :
    writesRegs [0xF008, 0x22, 0x2000 + 1024 * l.val, 0x2003 + 1024 * l.val] (.launchMeasureDone l) :=
  writesRegs_of_next (fun _ => rfl) (measureDoneSt_writes (by simp) (by simp) (by simp) (by simp))

theorem launchMeasureTimeout_writesRegs (l : Fin 2) : writesRegs [0xF008, 0x2000 + 1024 * l.val] (.launchMeasureTimeout l) :=
  writesRegs_of_next (fun _ => rfl) (measureTimeoutSt_writes (by simp) (by simp))

/-! ### Traverses, products, streams and cursors -/

theorem passDrop_writesRegs (t : Fin 8) : writesRegs [0xF008] (.passDrop t) :=
  writesRegs_of_next (fun _ => rfl) (passDropSt_writes (by simp))

theorem datumSlow_writesRegs (l : Fin 2) : writesRegs [0xF008] (.datumSlow l) :=
  writesRegs_of_next (fun _ => rfl) (datumSlowSt_writes (by simp))

theorem traverseClockChangeDone_writesRegs (t : Fin 8) : writesRegs [0x4001 + 1024 * t.val] (.traverseClockChangeDone t) :=
  writesRegs_of_next (fun _ => rfl) (clockDoneSt_writes (by simp))

theorem calAgeExpiry_writesRegs (l : Fin 2) : writesRegs [0x3006 + 16 * l.val] (.calAgeExpiry l) :=
  writesRegs_of_next (fun _ => rfl) (setF_writes (.head _))

theorem fusionStart_writesRegs (l : Fin 2) : writesRegs [0x300A + 16 * l.val, 0x300B + 16 * l.val] (.fusionStart l) :=
  writesRegs_of_next (fun _ => rfl) (fusionSt_writes (by simp) (by simp))

theorem swapRequest_writesRegs (n : Fin 256) : writesRegs [0x800E + 64 * n.val] (.swapRequest n) :=
  writesRegs_of_next (fun _ => rfl) (swapRequestSt_writes (by simp))

theorem coefWrite_writesRegs (n : Fin 256) (v : BitVec 20) : writesRegs [0x8018 + 64 * n.val] (.coefWrite n v) :=
  writesRegs_of_next (fun _ => rfl) (coefWrite_writes (by simp))

theorem stCmdSync_writesRegs (n : Fin 256) : writesRegs [0xF008, 0x8019 + 64 * n.val] (.stCmdSync n) :=
  writesRegs_of_next (fun _ => rfl) (addSync_writes (by simp) (by simp))

theorem cursorStart_writesRegs (c : Fin 16) : writesRegs [0xC044 + 8 * c.val] (.cursorStart c) :=
  writesRegs_of_next (fun _ => rfl) (cursorStartSt_writes (by simp))

theorem seekDone_writesRegs (c : Fin 16) : writesRegs [0xC044 + 8 * c.val, 0xC047 + 8 * c.val] (.seekDone c) :=
  writesRegs_of_next (fun _ => rfl) (seekDoneSt_writes (by simp) (by simp))

theorem cursorRead_writesRegs (c : Fin 16) : writesRegs [0xC00D, 0xC044 + 8 * c.val] (.cursorRead c) :=
  writesRegs_of_next (fun _ => rfl) (cursorReadSt_writes (by simp) (by simp))

/-! ### Zones, loops and housekeeping -/

theorem zonePortUpdate_writesRegs (y : Fin 4096) : writesRegs [0xC408] (.zonePortUpdate y) :=
  writesRegs_of_next (fun _ => rfl) fun h => .whenB h (portUpdate_writes (by simp) h)

theorem zoneStaleTimeout_writesRegs (y : Fin 4096) : writesRegs [0xC408, 0xC409, 0xC40A] (.zoneStaleTimeout y) :=
  writesRegs_of_next (fun _ => rfl) (zoneStaleSt_writes (by simp) (by simp) (by simp))

theorem zqForceTimeout_writesRegs : writesRegs [0xC408] .zqForceTimeout :=
  writesRegs_of_next (fun _ => rfl) fun h =>
    .whenB h (.keep (applyHeld_moves rfl (.refl _ _)) (bumpBy_writes (.head _) (modZn_writes h)))

theorem loopOpen_writesRegs (n : Fin 8) : writesRegs [0xF008, 0xC900 + 8 * n.val] (.loopOpen n) :=
  writesRegs_of_next (fun _ => rfl) fun h => logEvent_writes (by simp) (setF_writes (.tail _ (.head _)) h)

theorem loopDeviation_writesRegs (n : Fin 8) : writesRegs [0xF008, 0xC900 + 8 * n.val] (.loopDeviation n) :=
  writesRegs_of_next (fun _ => rfl) fun h => .whenB h (logEvent_writes (by simp) (setF_writes (.tail _ (.head _)) h))

theorem loopConditionClear_writesRegs (n : Fin 8) (b : Bool) : writesRegs [0xC900 + 8 * n.val] (.loopConditionClear n b) :=
  writesRegs_of_next (fun _ => rfl) (setF_writes (by cases b <;> exact .head _))

theorem m0ConversionEnd_writesRegs (d : Int) : writesRegs [0xC800, 0xC803] (.m0ConversionEnd d) :=
  writesRegs_of_next (fun _ => rfl) (m0EndSt_writes (by simp) (by simp))

theorem hkRefWindowExit_writesRegs : writesRegs [0xF008, 0xC800, 0xC803] .hkRefWindowExit :=
  writesRegs_of_next (fun _ => rfl) (refExitSt_writes (by simp) (by simp) (by simp))

theorem urgentRequest_writesRegs (c : Fin 32) : writesRegs [0xC802] (.urgentRequest c) :=
  writesRegs_of_next (fun _ => rfl) (urgentSt_writes (by simp))

theorem burnoutPulse_writesRegs (n : Fin 4) (b : BitVec 4) : writesRegs [0xF008, 0xC803, 0xC808 + n.val] (.burnoutPulse n b) :=
  writesRegs_of_next (fun _ => rfl) (burnoutSt_writes (by simp) (by simp) (by simp))

/-! ### Time and the TDC -/

theorem timeSnapshot_writesRegs (p : Fin 4) : writesRegs [0x802, 0x803, 0x804, 0x805, 0x806, 0x807] (.timeSnapshot p) :=
  writesRegs_of_next (fun _ => rfl) (snapSt_writes (by decide))

theorem hostHoldover_writesRegs : writesRegs [0x808, 0x809] .hostHoldover :=
  writesRegs_of_next (fun _ => rfl) fun h => .whenB h (enterHoldover_writes (by simp) (by simp) h)

theorem ppsLoss_writesRegs : writesRegs [0x808, 0x809] .ppsLoss :=
  writesRegs_of_next (fun _ => rfl) fun h =>
    .whenB h (.ite (enterHoldover_writes (by simp) (by simp) (modTime_writes h)) (modTime_writes h))

theorem tdcPop_writesRegs (c : Fin 9) : writesRegs ((List.range 8).map (fun k => 0xC22 + 16 * c.val + k)) (.tdcPop c) :=
  writesRegs_of_next (fun _ => rfl) (tdcPopSt_writes fun _ hk => mem_map_range hk)

theorem tdcPairWindowExpiry_writesRegs (k : Fin 4) : writesRegs [0xD03 + 16 * k.val] (.tdcPairWindowExpiry k) := by
  have hmem : (tdOrphanStartCount (pairEven k).val).addr ∈ [0xD03 + 16 * k.val] := by
    match k with
    | 0 => exact .head _
    | 1 => exact .head _
    | 2 => exact .head _
    | 3 => exact .head _
  refine writesRegs_of_next (fun _ => rfl) fun h => ?_
  split
  · exact .whenB h (bump_writes hmem (modTdc_writes h))
  · exact h

theorem monWindowExpiry_writesRegs (l : Fin 2) :
    writesRegs (0xF008 :: (List.range 9).map (fun c => 0xD05 + 8 * c)) (.monWindowExpiry l) :=
  writesRegs_of_next (fun _ => rfl) (monExpirySt_writes (by simp) fun _ hc => List.mem_cons_of_mem _ (mem_map_range hc))

theorem tdcCalTimeout_writesRegs (c : Fin 9) : writesRegs [0xF008, 0xC01, 0xD06 + 8 * c.val] (.tdcCalTimeout c) :=
  writesRegs_of_next (fun _ => rfl) fun h => .whenB h (failTdcCal_writes (by simp) (by simp) (by simp) h)

/-! ### Lanes, links and fences -/

theorem blindTimeout_writesRegs (q : Fin 3) : writesRegs [0x400] (.blindTimeout q) :=
  writesRegs_of_next (fun _ => rfl) (blindTimeoutSt_writes (by simp))

theorem laneLos_writesRegs (q : Fin 3) (k : Fin 4) : writesRegs ([0xF008, 0x400, 0xC40A] ++
    (List.range 12).map (fun n => 0x11 + n) ++ (List.range 3).map (fun n => 0xD003 + 32 * n) ++
    (List.range 3).map (fun n => 0xD400 + 32 * n) ++ (List.range 256).map (fun n => 0x8014 + 64 * n)) (.laneLos q k) := by
  refine writesRegs_of_next (fun _ => rfl) (laneLosSt_writes ?_ ?_ (toActive_writes ?_ ?_ ?_ ?_ ?_))
  all_goals simp only [List.mem_append]
  · exact .inl (.inl (.inl (.inl (by simp))))
  · exact .inl (.inl (.inr (mem_map_range q.isLt)))
  · exact .inl (.inl (.inl (.inl (by simp))))
  · exact fun _ hn => .inl (.inl (.inl (.inr (mem_map_range hn))))
  · exact .inl (.inr (mem_map_range q.isLt))
  · exact .inl (.inl (.inl (.inl (by simp))))
  · exact fun _ hn => .inr (mem_map_range hn)

theorem linkFaultDetect_writesRegs (q : Fin 3) (c : Fin 8) : writesRegs [0xD003 + 32 * q.val] (.linkFaultDetect q c) :=
  writesRegs_of_next (fun _ => rfl) (linkFaultSt_writes (by simp))

theorem levelRunStart_writesRegs : writesRegs [0xD481, 0x808, 0x809] .levelRunStart :=
  writesRegs_of_next (fun _ => rfl) (levelStartSt_writes (by simp) (by simp) (by simp))

theorem levelReq_writesRegs (l : Fin 3) (f : Frame) (t : Nat) : writesRegs [0xD402 + 32 * l.val] (.levelReq l f t) :=
  writesRegs_of_next (fun _ => rfl) (receive_writes (by simp) (levelReqSt_writes (by simp)))

theorem levelResp_writesRegs (l : Fin 3) (f : Frame) (t : Nat) : writesRegs [0xD402 + 32 * l.val] (.levelResp l f t) :=
  writesRegs_of_next (fun _ => rfl) (receive_writes (by simp) (levelRespSt_writes (by simp)))

theorem featureOfferReceived_writesRegs (l : Fin 3) (w : BitVec 60) (n : Fin 1024) (b : Bool) :
    writesRegs [0xD402 + 32 * l.val] (.featureOfferReceived l w n b) :=
  writesRegs_of_next (fun _ => rfl) (receive_writes (by simp) (.keep (answerOffer_moves rfl (.refl _ _))))

theorem fenceIssue_writesRegs (x : BitVec 18) : writesRegs [0x22] (.fenceIssue x) :=
  writesRegs_of_next (fun _ => rfl) fun h => .whenB h (bookFence_writes (by simp) h)

theorem rwfAutoFence_writesRegs : writesRegs [0x22] .rwfAutoFence :=
  writesRegs_of_next (fun _ => rfl) (autoFenceSt_writes (by simp))

/-! ### Boot, memory and management -/

theorem xspiInitDone_writesRegs (x : Option (Nat × Nat)) : writesRegs [0x400] (.xspiInitDone x) :=
  writesRegs_of_next (fun _ => rfl) (xspiInitSt_writes (by simp))

theorem stage1Release_writesRegs : writesRegs [0x400, 0x401, 0x404] .stage1Release :=
  writesRegs_of_next (fun _ => rfl) (stage1St_writes (by simp) (by simp) (by simp))

theorem stage2Loaded_writesRegs : writesRegs [0x400, 0x1000, 0x1001, 0x1400, 0x1401, 0xC802] .stage2Loaded :=
  writesRegs_of_next (fun _ => rfl) (stage2St_writes (by simp) (by simp) (by decide) (by decide))

theorem scsFinalLock_writesRegs : writesRegs [0x400] .scsFinalLock :=
  writesRegs_of_next (fun _ => rfl) (finalLockSt_writes (by simp))

theorem shortRetrainStart_writesRegs (c : Fin 4) : writesRegs [0xE009] (.shortRetrainStart c) :=
  writesRegs_of_next (fun _ => rfl) (shortRetrainSt_writes (by simp))

theorem c3AgePromote_writesRegs : writesRegs [0xE008] .c3AgePromote :=
  writesRegs_of_next (fun _ => rfl) (bump_writes (.head _))

theorem snapshotComplete_writesRegs :
    writesRegs [0x32, 0x33, 0x34, 0x35, 0x36, 0x37, 0x38, 0x39, 0x3A] .snapshotComplete :=
  writesRegs_of_next (fun _ => rfl) (snapDoneSt_writes (by decide) (by simp))

theorem eventLogSelect_writesRegs (i : Fin 1024) : writesRegs [0xF002, 0xF004, 0xF005, 0xF006, 0xF007] (.eventLogSelect i) :=
  writesRegs_of_next (fun _ => rfl) fun h => evShow_writes (by decide) (setF_writes (.head _) h)

/-- Settles O55: of each command named, the operations that it runs write no register but those of its list. -/
theorem registersWritten : Obligations.RegistersWritten :=
  ⟨mbxBootComplete_answersRegs, mbxBadCode_answersRegs, mbxDramFreq_answersRegs, mbxRecordHash_answersRegs,
    fun n => ⟨mbxLoopRelease_answersRegs n, loopReleaseTimer_writesRegs n, loopReleaseCmd_writesRegs n⟩,
    mbxHeartbeat_answersRegs, mbxLifecycle_answersRegs, mbxStandbyExit_answersRegs, mbxLaserArm_answersRegs,
    mbxLaserDisarm_answersRegs, interlockTrip_writesRegs, fibreBreakRaise_writesRegs, fibreBreakClear_writesRegs,
    launchCmdArrive_writesRegs, probeLaunch_writesRegs, envelopeSubwindowEnd_writesRegs, priorityPassEnd_writesRegs,
    refFallback_writesRegs, ramanFgCalStart_writesRegs, overRange_writesRegs, launchMeasureDone_writesRegs,
    launchMeasureTimeout_writesRegs, passDrop_writesRegs, datumSlow_writesRegs, traverseClockChangeDone_writesRegs,
    calAgeExpiry_writesRegs, fusionStart_writesRegs, swapRequest_writesRegs, coefWrite_writesRegs, stCmdSync_writesRegs,
    cursorStart_writesRegs, seekDone_writesRegs, cursorRead_writesRegs, zonePortUpdate_writesRegs,
    zoneStaleTimeout_writesRegs, zqForceTimeout_writesRegs, fun n => ⟨loopOpen_writesRegs n, loopDeviation_writesRegs n⟩,
    loopConditionClear_writesRegs, m0ConversionEnd_writesRegs, hkRefWindowExit_writesRegs, urgentRequest_writesRegs,
    burnoutPulse_writesRegs, timeSnapshot_writesRegs, ⟨hostHoldover_writesRegs, ppsLoss_writesRegs⟩, tdcPop_writesRegs,
    tdcPairWindowExpiry_writesRegs, monWindowExpiry_writesRegs, tdcCalTimeout_writesRegs, blindTimeout_writesRegs,
    laneLos_writesRegs, linkFaultDetect_writesRegs, levelRunStart_writesRegs,
    fun l f t => ⟨levelReq_writesRegs l f t, levelResp_writesRegs l f t⟩, featureOfferReceived_writesRegs,
    fenceIssue_writesRegs, rwfAutoFence_writesRegs, xspiInitDone_writesRegs, stage1Release_writesRegs,
    stage2Loaded_writesRegs, scsFinalLock_writesRegs, shortRetrainStart_writesRegs, c3AgePromote_writesRegs,
    snapshotComplete_writesRegs, eventLogSelect_writesRegs⟩

end Sys2Proof.Laws
end

section
/-! SUPPORT. The frame of a mailbox request that finds no other request waiting: it is served alone, since no answer puts a
request into the queue, and so changes what its own service changes (R42). -/

namespace Sys2Proof.Laws
open Sys2Proof Sys2Proof.Machine Sys2Proof.Safety

section
variable {P : List Part} {z s : State}

/-! ### Standby and the resets leave no request waiting -/

theorem disarmForEvent_keepsQueue {l : Fin 2} (h : KeepsQueue z s) : KeepsQueue z (disarmForEvent s l) :=
  disarmLine_keepsQueue (.ite (setRearm_keepsQueue h) h)

theorem standbyKeep_keepsQueue (h : KeepsQueue z s) : KeepsQueue z (standbyKeep s) :=
  .keep (keepRegs_moves rfl (idleQuads_moves rfl (.refl _ _))) h

theorem enterStandby_keepsQueue {cause : Nat} (h : KeepsQueue z s) : KeepsQueue z (enterStandby s cause) := by
  unfold enterStandby
  extract_lets s1 s2 s3 s4 s5 s6
  have h1 : KeepsQueue z s1 := .foldl _ h fun _ _ k => disarmForEvent_keepsQueue k
  have h2 : KeepsQueue z s2 := .foldl _ h1 fun _ _ k => k
  have m3 : Moves allButKeeper s2 s3 := .forEach (fun _ _ k => restartStream_moves rfl k) (.refl _ _)
  have m5 : Moves allButKeeper s4 s5 := holdLoops_moves rfl (.folded (fun _ _ k => staleLine_moves rfl k) (.refl _ _))
  have h5 : KeepsQueue z s5 := .keep m5 (.keep (setF_moves rfl (setF_moves rfl m3)) h2)
  have h6 : KeepsQueue z s6 := .foldl _ h5 fun u l k => by
    have m : Moves allButKeeper u (modConv (closeWindow (convStop u l true) l) l resetSpare) :=
      modConv_moves rfl (closeWindow_moves rfl (convStop_moves rfl (.refl _ _)))
    exact .keep (clearSticky_moves rfl (stopLineTravs_moves rfl (pceStop_moves rfl (sweepRestart_moves rfl m)))) k
  exact .keep (proxyAck_moves rfl (.refl _ _)) (standbyKeep_keepsQueue (.keep (clearLost_moves rfl (.refl _ _)) h6))

theorem mbxEnterSt_keepsQueue (h : KeepsQueue z s) : KeepsQueue z (mbxEnterSt s) :=
  .ite (enterStandby_keepsQueue (mbxAnswer_keepsQueue h)) (mbxAnswer_keepsQueue h)

theorem lineResetWork_keepsQueue {l : Fin 2} (h : KeepsQueue z s) : KeepsQueue z (lineResetWork s l) := by
  unfold lineResetWork
  extract_lets s1 s2
  have h1 : KeepsQueue z s1 := disarmForEvent_keepsQueue h
  have m2 : Moves allButKeeper s1 s2 := raiseSettling_moves rfl (closeWindow_moves rfl (emptyLine_moves rfl (.refl _ _)))
  exact .keep (clearTimers_moves rfl (staleLine_moves rfl (restartLineStreams_moves rfl m2))) h1

theorem lineResetSt_keepsQueue {l : Fin 2} (h : KeepsQueue z s) : KeepsQueue z (lineResetSt l s) := by
  unfold lineResetSt
  extract_lets s1 s2 s3 s4
  have m4 : Moves allButKeeper (lineResetWork s l) s4 :=
    modHk_moves rfl (keepRegs_moves rfl (bump_moves rfl
      (clearLost_moves rfl (clearSticky_moves rfl (convStop_moves rfl (.refl _ _))))))
  have h4 : KeepsQueue z s4 := .keep m4 (lineResetWork_keepsQueue h)
  clear_value s4
  exact .keep (proxyAck_moves rfl (.refl _ _)) h4

theorem mbxLineSt_keepsQueue {l : Fin 2} (h : KeepsQueue z s) : KeepsQueue z (mbxLineSt l s) :=
  .ite (mbxAnswer_keepsQueue h) (.ite (lineResetSt_keepsQueue (mbxAnswer_keepsQueue h)) (mbxAnswer_keepsQueue h))

theorem mbxStaleClearSt_keepsQueue {l : Fin 2} (h : KeepsQueue z s) : KeepsQueue z (mbxStaleClearSt l s) :=
  .ite (mbxAnswer_keepsQueue (.keep (markZones_moves rfl (.refl _ _)) h)) (mbxRefuse_keepsQueue h)

theorem coldReset_emptiesQueue (s : State) (cause : Nat) : (coldReset s cause).keeper.mbx = [] := rfl

theorem warmReset_emptiesQueue (s : State) (cause : Nat) : (warmReset s cause).keeper.mbx = [] := rfl

theorem warmCause_emptiesQueue (s : State) (cause : Nat) : (warmCause s cause).keeper.mbx = [] := by
  unfold warmCause
  extract_lets _ s1
  split
  · exact coldReset_emptiesQueue s1 9
  · exact warmReset_emptiesQueue s1 cause

theorem mbxWarmSt_leavesNone {host : Bool} (hq : s.keeper.mbx = []) : (mbxWarmSt host s).keeper.mbx = [] := by
  unfold mbxWarmSt
  split
  · exact hq
  · exact warmCause_emptiesQueue _ _

/-! ### A request served alone -/

theorem withQueue_moves {q : List MbxReq} (hP : within [.keeper] P = true) (h : Moves P z s) : Moves P z (withQueue s q) :=
  .setKeeper hP rfl h

/-- R42: a request that finds no other waiting is served alone, or waits for the keeper to run. -/
theorem mbxSend_alone {code a1 a2 a3 : Nat} (hq : s.keeper.mbx = [])
    (hnone : (mbxServe (withQueue s []) (mbxReqOf code a1 a2 a3)).keeper.mbx = []) :
    mbxSend s code a1 a2 a3 = if keeperRuns s then mbxServe (withQueue s []) (mbxReqOf code a1 a2 a3)
      else withQueue s [mbxReqOf code a1 a2 a3] := by
  rw [mbxSend_of_empty hq, mbxRun_withQueue_one, mbxRun_empty hnone]

/-- A service that leaves the queue as it is leaves no request waiting where none waits. -/
theorem KeepsQueue.leavesNone {f : State → State} (hf : ∀ {u}, KeepsQueue u u → KeepsQueue u (f u)) {u : State}
    (hq : u.keeper.mbx = []) : (f u).keeper.mbx = [] :=
  (hf (u := u) rfl).trans hq

/-- The frame of a request is that of its service `f`, where `f` leaves no request waiting. -/
theorem mbxSend_frame {code a1 a2 a3 : Nat} {f : State → State} (hserve : ∀ u, mbxServe u (mbxReqOf code a1 a2 a3) = f u)
    (hP : within [.keeper] P = true) (hf : ∀ {u}, Moves P z u → Moves P z (f u))
    (hnone : ∀ {u : State}, u.keeper.mbx = [] → (f u).keeper.mbx = []) (hq : s.keeper.mbx = []) (h : Moves P z s) :
    Moves P z (mbxSend s code a1 a2 a3) := by
  rw [mbxSend_alone hq (by rw [hserve]; exact hnone rfl), hserve]
  exact .ite (hf (withQueue_moves hP h)) (withQueue_moves hP h)

/-- A command that goes on to `g s` changes what `g` changes where no request waits. -/
theorem answersBut_of_next {c : Instr} {g : State → State} (hc : ∀ s, exec c s = .next (g s))
    (hg : ∀ {s}, s.keeper.mbx = [] → Moves P s s → Moves P s (g s)) : answersBut P c := by
  intro s t hq e
  rw [← Host.Outcome.next.inj ((hc s).symm.trans e)]
  exact (hg hq (.refl P s)).only

/-- The frame of a command that sends one request. -/
theorem answersBut_of_send {c : Instr} {code a1 a2 a3 : Nat} {f : State → State}
    (hc : ∀ s, exec c s = .next (mbxSend s code a1 a2 a3)) (hserve : ∀ u, mbxServe u (mbxReqOf code a1 a2 a3) = f u)
    (hP : within [.keeper] P = true) (hf : ∀ {z u}, Moves P z u → Moves P z (f u))
    (hnone : ∀ {u : State}, u.keeper.mbx = [] → (f u).keeper.mbx = []) : answersBut P c :=
  answersBut_of_next hc fun hq h => mbxSend_frame hserve hP hf hnone hq h

end

/-! ### What serves each request -/

theorem mbxServe_resetLine (u : State) (l : Fin 2) : mbxServe u (mbxReqOf 5 2 l.val 0) = mbxLineSt l u := by
  match l with
  | 0 => rfl
  | 1 => rfl

theorem mbxServe_dramFreq (u : State) (sp : Fin 3) : mbxServe u (mbxReqOf 7 sp.val 0 0) = mbxDramFreqSt sp u := by
  match sp with
  | 0 => rfl
  | 1 => rfl
  | 2 => rfl

theorem mbxServe_recordHash (u : State) (b : Bool) : mbxServe u (mbxReqOf 8 (b2n b) 0 0) = recordHashSt b u := by
  cases b <;> rfl

theorem mbxServe_loopRelease (u : State) (n : Fin 8) : mbxServe u (mbxReqOf 9 n.val 0 0) = mbxLoopReleaseSt n u := by
  fin_cases n <;> rfl

theorem mbxServe_staleClear (u : State) (l : Fin 2) : mbxServe u (mbxReqOf 10 l.val 0 0) = mbxStaleClearSt l u := by
  match l with
  | 0 => rfl
  | 1 => rfl

/-! ### Request by request -/

theorem mbxHeartbeat_answersBut : answersBut [.regs, .keeper] .mbxHeartbeat :=
  answersBut_of_send (fun _ => rfl) (fun _ => rfl) rfl (fun h => mbxAnswer_moves rfl (setF_moves rfl h)) (fun hq => hq)

theorem mbxBootComplete_answersBut : answersBut [.regs, .keeper, .otp] .mbxBootComplete :=
  answersBut_of_send (fun _ => rfl) (fun _ => rfl) rfl (bootCompleteSt_moves rfl)
    (KeepsQueue.leavesNone bootCompleteSt_keepsQueue)

theorem mbxLaserArm_answersBut (l : Fin 2) :
    answersBut [.regs, .keeper, .log, .probe, .conv, .freeCtr] (.mbxLaserArm l) :=
  answersBut_of_send (fun _ => rfl) (mbxServe_laserArm · l) rfl (laserArmSt_moves rfl)
    (KeepsQueue.leavesNone laserArmSt_keepsQueue)

theorem mbxLaserDisarm_answersBut (l : Fin 2) :
    answersBut [.regs, .keeper, .log, .probe, .conv, .net, .zn] (.mbxLaserDisarm l) :=
  answersBut_of_send (fun _ => rfl) (mbxServe_laserDisarm · l) rfl (laserDisarmSt_moves rfl)
    (KeepsQueue.leavesNone laserDisarmSt_keepsQueue)

theorem mbxResetWarm_answersBut : answersBut allButOtp .mbxResetWarm :=
  answersBut_of_send (fun _ => rfl) (fun _ => rfl) rfl (mbxWarmSt_moves rfl) mbxWarmSt_leavesNone

theorem mbxResetCold_answersBut : answersBut allButOtp .mbxResetCold :=
  answersBut_of_send (fun _ => rfl) (fun _ => rfl) rfl (mbxColdSt_moves rfl) (fun _ => coldReset_emptiesQueue _ _)

theorem mbxResetLine_answersBut (l : Fin 2) : answersBut [.regs, .keeper, .log, .fu, .trav, .probe, .conv, .pce, .sense, .net,
    .time, .hk, .zn, .streams, .code, .xbuf] (.mbxResetLine l) :=
  answersBut_of_send (fun _ => rfl) (mbxServe_resetLine · l) rfl (mbxLineSt_moves rfl)
    (KeepsQueue.leavesNone mbxLineSt_keepsQueue)

theorem mbxStandbyEnter_answersBut : answersBut [.regs, .keeper, .log, .fu, .trav, .probe, .conv, .pce, .sense, .net, .time,
    .mem, .hk, .zn, .streams, .code] .mbxStandbyEnter :=
  answersBut_of_send (fun _ => rfl) (fun _ => rfl) rfl (mbxEnterSt_moves rfl) (KeepsQueue.leavesNone mbxEnterSt_keepsQueue)

theorem mbxStandbyExit_answersBut : answersBut [.regs, .keeper, .conv, .net, .mem, .hk, .freeCtr] .mbxStandbyExit :=
  answersBut_of_send (fun _ => rfl) (fun _ => rfl) rfl (mbxExitSt_moves rfl) (KeepsQueue.leavesNone mbxExitSt_keepsQueue)

theorem mbxDramFreq_answersBut (sp : Fin 3) : answersBut [.regs, .keeper, .mem, .freeCtr] (.mbxDramFreq sp) :=
  answersBut_of_send (fun _ => rfl) (mbxServe_dramFreq · sp) rfl (mbxDramFreqSt_moves rfl)
    (KeepsQueue.leavesNone mbxDramFreqSt_keepsQueue)

theorem mbxRecordHash_answersBut (b : Bool) : answersBut [.regs, .keeper] (.mbxRecordHash b) :=
  answersBut_of_send (fun _ => rfl) (mbxServe_recordHash · b) rfl (recordHashSt_moves rfl)
    (KeepsQueue.leavesNone recordHashSt_keepsQueue)

theorem mbxLoopRelease_answersBut (n : Fin 8) : answersBut [.regs, .keeper, .zn, .freeCtr] (.mbxLoopRelease n) :=
  answersBut_of_send (fun _ => rfl) (mbxServe_loopRelease · n) rfl (mbxLoopReleaseSt_moves rfl)
    (KeepsQueue.leavesNone mbxLoopReleaseSt_keepsQueue)

theorem mbxStaleClear_answersBut (l : Fin 2) : answersBut [.regs, .keeper, .net, .zn, .freeCtr] (.mbxStaleClear l) :=
  answersBut_of_send (fun _ => rfl) (mbxServe_staleClear · l) rfl (mbxStaleClearSt_moves rfl)
    (KeepsQueue.leavesNone mbxStaleClearSt_keepsQueue)

theorem mbxLifecycle_answersBut (a : Nat) (k : List Word) :
    answersBut [.regs, .keeper, .otp, .book, .log, .probe, .conv, .code, .mgmt, .dram, .freeCtr] (.mbxLifecycle a k) :=
  answersBut_of_next (g := lifecycleAsk a k) (fun _ => rfl) fun hq h =>
    mbxSend_frame (fun _ => rfl) rfl (fun m => mbxLifecycleSt_moves rfl m)
      (fun hn => KeepsQueue.leavesNone mbxLifecycleSt_keepsQueue hn) hq (putSram_moves rfl h)

theorem mbxBadCode_answersBut (c : Fin 1024) : answersBut [.regs, .keeper] (.mbxBadCode c) := by
  refine answersBut_of_next (fun _ => rfl) fun hq h => ?_
  unfold whenB
  split
  next hbad =>
    have hcode : ¬(1 ≤ c.val ∧ c.val ≤ 11) := of_decide_eq_false (by simpa only [Bool.not_eq_true'] using hbad)
    exact mbxSend_frame (mbxServe_badCode · c.isLt hcode) rfl (mbxAnswer_moves rfl) (fun hn => hn) hq h
  next => exact h

end Sys2Proof.Laws
end

section
/-! SUPPORT. The frames of the commands, and the machine right after reset. -/

namespace Sys2Proof.Laws
open Sys2Proof Sys2Proof.Machine Sys2Proof.Safety

/-! ### The state after reset -/

/-- R458: with nothing written yet, a register holds the bits of its Reset column. -/
theorem regGet_reset (a : Nat) : regGet State.reset a = regReset a % 2 ^ 20 := BitVec.toNat_ofNat _ _

theorem isSet_reset_armed (l : Fin 2) : isSet State.reset (psStatusArmed l.val) = false := by
  match l with
  | 0 => rfl
  | 1 => rfl

theorem trav_reset (t : Fin 8) : vget State.reset.trav t = Trav.zero := Vector.getElem_replicate _

theorem probe_reset (l : Fin 2) : vget State.reset.probe l = Probe.zero := Vector.getElem_replicate _

theorem inv_reset : Inv State.reset := ⟨rfl, Nat.zero_le _, Nat.zero_le _⟩

theorem interlocked_reset : interlocked State.reset := by
  intro l _
  rw [probe_reset]
  rfl

/-- Settles O48: nothing is listed in the state after reset, so registers hold their Reset column, every unit its zero. -/
theorem resetState : Obligations.ResetState := by
  have hline (l : Fin 2) : (vget State.reset.probe l).laserEn = false ∧ (vget State.reset.probe l).ilkLow = false
      ∧ isSet State.reset (psStatusArmed l.val) = false ∧ lineActive State.reset l.val = false := by
    rw [probe_reset]
    exact ⟨rfl, rfl, isSet_reset_armed l, rfl⟩
  have htrav (t : Fin 8) : (vget State.reset.trav t).fg = [] ∧ (vget State.reset.trav t).bg = []
      ∧ (vget State.reset.trav t).kern = none := by
    rw [trav_reset]
    exact ⟨rfl, rfl, rfl⟩
  have hphase : bootPhase State.reset = 0 := rfl
  have hlife : lifecycle State.reset = 0 := rfl
  have hstandby : inStandby State.reset = false := rfl
  exact ⟨hphase, rfl, rfl, rfl, hline, htrav, regGet_reset, rfl, hlife, rfl, hstandby, inv_reset, interlocked_reset⟩

/-! ### The frames -/

/-- Settles O52: each command of the sensing path moves only the parts that its operation moves. -/
theorem frameField : Obligations.FrameField :=
  ⟨fun line slot => (launchCmdArrive_confined line slot).keepsAllBut,
    fun line => ⟨(probeLaunch_confined line).keepsAllBut, (envelopeSubwindowEnd_confined line).keepsAllBut,
      (interlockTrip_confined line).keepsAllBut, (interlockRelease_confined line).keepsAllBut,
      (fibreBreakRaise_confined line).keepsAllBut, (fibreBreakClear_confined line).keepsAllBut,
      (correctionStep_confined line).keepsAllBut, (refFallback_confined line).keepsAllBut,
      (refSettled_confined line).keepsAllBut, (ramanFgCalStart_confined line).keepsAllBut,
      (ramanFgCalForce_confined line).keepsAllBut, (captureWindowEnd_confined line).keepsAllBut,
      (recal_confined line).keepsAllBut, (launchMeasureDone_confined line).keepsAllBut,
      (launchMeasureTimeout_confined line).keepsAllBut, (captureRequest_confined line).keepsAllBut,
      (captureStart_confined line).keepsAllBut, (datumSlow_confined line).keepsAllBut,
      (ramanBlockEnd_confined line).keepsAllBut, (ramanBlockSelfPass_confined line).keepsAllBut,
      (coilcal_confined line).keepsAllBut, (coilCalResume_confined line).keepsAllBut,
      (calAgeExpiry_confined line).keepsAllBut, (fusionStart_confined line).keepsAllBut⟩,
    fun line input window => (rotationStep_confined line input window).keepsAllBut,
    fun line input offset gain thresholds => (spareMeasureDone_confined line input offset gain thresholds).keepsAllBut,
    fun line input => (priorityPassEnd_confined line input).keepsAllBut,
    fun line input values => (fgCalInputDone_confined line input values).keepsAllBut,
    fun line values gains => ⟨(fullFgCalDone_confined line values gains).keepsAllBut,
      (ramanFgCalDone_confined line values gains).keepsAllBut⟩,
    fun line input length gap => (overRange_confined line input length gap).keepsAllBut,
    fun line slot pol samples => (traceDeliver_confined line slot pol samples).keepsAllBut,
    fun t => ⟨(shotPass_confined t).keepsAllBut, (outputPass_confined t).keepsAllBut, (ramanPass_confined t).keepsAllBut,
      (servicePass_confined t).keepsAllBut, (backgroundSlice_confined t).keepsAllBut, (passDrop_confined t).keepsAllBut,
      (nop_confined t).keepsAllBut, (end_confined t).keepsAllBut⟩,
    fun t failLane => (recoveryPass_confined t failLane).keepsAllBut,
    fun t src count reg len => (rep_confined t src count reg len).keepsAllBut,
    fun t p mode target => (br_confined t p mode target).keepsAllBut,
    fun t h => (hook_confined t h).keepsAllBut,
    fun t g => (mode_confined t g).keepsAllBut,
    fun t p => (aovclr_confined t p).keepsAllBut,
    fun t n => (wait_confined t n).keepsAllBut,
    fun t p m => ⟨(ld_confined t p m).keepsAllBut, (ldp_confined t p m).keepsAllBut, (st_confined t p m).keepsAllBut,
      (stp_confined t p m).keepsAllBut, (ald_confined t p m).keepsAllBut, (ast_confined t p m).keepsAllBut⟩,
    fun t p f => ⟨(xld_confined t p f).keepsAllBut, (xadd_confined t p f).keepsAllBut, (alui_confined t p f).keepsAllBut,
      (cmpi_confined t p f).keepsAllBut, (prm_confined t p f).keepsAllBut⟩,
    fun t p r => ⟨(alu_confined t p r).keepsAllBut, (alud_confined t p r).keepsAllBut, (cmp_confined t p r).keepsAllBut,
      (sel_confined t p r).keepsAllBut, (mac_confined t p r).keepsAllBut, (cmac_confined t p r).keepsAllBut,
      (dmac_confined t p r).keepsAllBut, (aop_confined t p r).keepsAllBut, (ash_confined t p r).keepsAllBut,
      (atst_confined t p r).keepsAllBut, (gmac_confined t p r).keepsAllBut, (atan_confined t p r).keepsAllBut,
      (mag_confined t p r).keepsAllBut, (mag2_confined t p r).keepsAllBut, (unit_confined t p r).keepsAllBut,
      (rot_confined t p r).keepsAllBut, (lnr_confined t p r).keepsAllBut, (dbl_confined t p r).keepsAllBut,
      (expw_confined t p r).keepsAllBut, (div_confined t p r).keepsAllBut, (maxi_confined t p r).keepsAllBut,
      (mini_confined t p r).keepsAllBut, (xch_confined t p r).keepsAllBut⟩,
    fun t p rd imm w => (movi_confined t p rd imm w).keepsAllBut,
    fun t p pair r => (portInput_confined t p pair r).keepsAllBut,
    fun t p f => ⟨(portDramRead_confined t p f).keepsAllBut, (portDramWrite_confined t p f).keepsAllBut⟩,
    fun t p r ra => ⟨(portXbufRead_confined t p r ra).keepsAllBut, (portXbufWrite_confined t p r ra).keepsAllBut⟩,
    fun t p o => (out_confined t p o).keepsAllBut,
    fun line asSamples stSamples asDark stDark =>
      (ramanCapture_confined line asSamples stSamples asDark stDark).keepsAllBut,
    fun n stamp => (streamInput_confined n stamp).keepsAllBut,
    fun n d => (detectorSummary_confined n d).keepsAllBut,
    ⟨syncNEdge_confined.keepsAllBut, codeFrame_confined.keepsAllBut, ringWrite_confined.keepsAllBut⟩,
    fun n => ⟨(stCmdSync_confined n).keepsAllBut, (streamReset_confined n).keepsAllBut,
      (swapRequest_confined n).keepsAllBut, (ringGapTimeout_confined n).keepsAllBut⟩,
    fun n value => (coefWrite_confined n value).keepsAllBut,
    fun c => ⟨(cursorStart_confined c).keepsAllBut, (cursorStop_confined c).keepsAllBut,
      (seekOldest_confined c).keepsAllBut, (seekNewest_confined c).keepsAllBut, (seekSerial_confined c).keepsAllBut,
      (seekDone_confined c).keepsAllBut, (cursorRead_confined c).keepsAllBut⟩⟩

/-- Settles O54: each command of reset, boot, memory and management moves only the parts that its operation moves; a mailbox
request that finds no other waiting moves only those that its own service moves. -/
theorem frameSystem : Obligations.FrameSystem :=
  ⟨⟨powerOnReset_confined.keepsAllBut, pwrgoodRise_confined.keepsAllBut, pwrgoodFall_confined.keepsAllBut,
      resetNLow_confined.keepsAllBut, resetNRise_confined.keepsAllBut, otpReadDone_confined.keepsAllBut,
      stagingFilled_confined.keepsAllBut, stage1Release_confined.keepsAllBut, stage2Loaded_confined.keepsAllBut,
      planApplied_confined.keepsAllBut, scsFinalLock_confined.keepsAllBut, mbxHeartbeat_answersBut,
      mbxBootComplete_answersBut, mbxResetWarm_answersBut, mbxResetCold_answersBut, mbxStandbyEnter_answersBut,
      mbxStandbyExit_answersBut, watchdogPeriodExpiry_confined.keepsAllBut, warmHashCheck_confined.keepsAllBut,
      standbyThermalExit_confined.keepsAllBut, resetCmd_confined.keepsAllBut, standbyCmd_confined.keepsAllBut,
      fenceComplete_confined.keepsAllBut, rwfAutoFence_confined.keepsAllBut, freqChangeDone_confined.keepsAllBut,
      thermalReturn_confined.keepsAllBut, freezeTimeout_confined.keepsAllBut, channelLossDone_confined.keepsAllBut,
      c3AgePromote_confined.keepsAllBut, standbyExitStep_confined.keepsAllBut, scsLockLoss_confined.keepsAllBut,
      scsRelock_confined.keepsAllBut, refclkLoss_confined.keepsAllBut, scsFreerunTimeout_confined.keepsAllBut,
      refclkReturn_confined.keepsAllBut, refclkAltLoss_confined.keepsAllBut, svcStatus_confined.keepsAllBut,
      refclkAltPresent_confined.keepsAllBut, keeperSramError_confined.keepsAllBut, snapshotComplete_confined.keepsAllBut⟩,
    fun sfdp => (xspiInitDone_confined sfdp).keepsAllBut,
    fun readA readB => (imageVerificationDone_confined readA readB).keepsAllBut,
    fun t failLane => (selfTestDone_confined t failLane).keepsAllBut,
    fun line => ⟨mbxLaserArm_answersBut line, mbxLaserDisarm_answersBut line, mbxResetLine_answersBut line,
      mbxStaleClear_answersBut line, (lineResetDone_confined line).keepsAllBut⟩,
    mbxDramFreq_answersBut,
    mbxRecordHash_answersBut,
    mbxLoopRelease_answersBut,
    mbxLifecycle_answersBut,
    mbxBadCode_answersBut,
    fun scope => (fenceIssue_confined scope).keepsAllBut,
    fun island id => (fenceAck_confined island id).keepsAllBut,
    fun id => (fenceTimeout_confined id).keepsAllBut,
    fun t => (traverseClockChangeDone_confined t).keepsAllBut,
    fun link words => (amend_confined link words).keepsAllBut,
    fun l => ⟨(featureOfferRepeat_confined l).keepsAllBut, (featureChangedRepeat_confined l).keepsAllBut⟩,
    fun l word serial => (featureAccept_confined l word serial).keepsAllBut,
    fun l word serial changed => (featureOfferReceived_confined l word serial changed).keepsAllBut,
    fun failed => (dramTrainingDone_confined failed).keepsAllBut,
    fun drift => (dqsOscRead_confined drift).keepsAllBut,
    fun ch => (shortRetrainStart_confined ch).keepsAllBut,
    fun ch pass => (trainingCollectionDone_confined ch pass).keepsAllBut,
    fun addr single double other => (dramRead_confined addr single double other).keepsAllBut,
    fun intact => (freezeEnd_confined intact).keepsAllBut,
    fun single double other => (scrubRead_confined single double other).keepsAllBut,
    fun path => ⟨(hostFenceIssue_confined path).keepsAllBut, (loStageExpiry_confined path).keepsAllBut⟩,
    fun path clear count => (registerSnapshot_confined path clear count).keepsAllBut,
    fun path addr => ⟨(loReadCapture_confined path addr).keepsAllBut, (hiReadShadow_confined path addr).keepsAllBut,
      (rcRead_confined path addr).keepsAllBut⟩,
    fun path addr value mask => ⟨(loWriteStage_confined path addr value mask).keepsAllBut,
      (hiWriteCommit_confined path addr value mask).keepsAllBut, (registerWrite_confined path addr value mask).keepsAllBut⟩,
    fun index => (eventLogSelect_confined index).keepsAllBut,
    fun addr count => (svcRegRead_confined addr count).keepsAllBut,
    fun addr mask values => (svcRegWrite_confined addr mask values).keepsAllBut,
    fun addr count => (flashRead_confined addr count).keepsAllBut,
    fun addr bytes => (flashProgram_confined addr bytes).keepsAllBut,
    fun addr => (flashErase_confined addr).keepsAllBut,
    fun ok => (flashOpDone_confined ok).keepsAllBut,
    fun q p => (eiosReceived_confined q p).keepsAllBut,
    fun hot cool => (mr4Readout_confined hot cool).keepsAllBut,
    fun ir => (jtagAccess_confined ir).keepsAllBut⟩

end Sys2Proof.Laws
end

section
/-! SUPPORT. OTP goes one way (R48): what a mailbox request may program, and that no other command touches OTP. -/

namespace Sys2Proof.Laws
open Sys2Proof Sys2Proof.Machine Sys2Proof.Safety

section
variable {s t u : State}

/-! ### What is programmed stays -/

theorem otpKept_of_eq (e : t.keeper.otp = s.keeper.otp) : otpKept s t := by
  unfold otpKept
  rw [e]
  exact ⟨BitVec.and_self, BitVec.and_self, BitVec.and_self, fun _ _ => rfl, rfl, rfl⟩

theorem and_eq_trans {w : Nat} {a b c : BitVec w} (h : a &&& b = a) (k : b &&& c = b) : a &&& c = a := by
  rw [← h, BitVec.and_assoc, k]

theorem otpKept_trans (h : otpKept s t) (k : otpKept t u) : otpKept s u := by
  obtain ⟨hlife, htherm, hrevoke, hkeys, huid, htrim⟩ := h
  obtain ⟨klife, ktherm, krevoke, kkeys, kuid, ktrim⟩ := k
  refine ⟨and_eq_trans hlife klife, and_eq_trans htherm ktherm, and_eq_trans hrevoke krevoke, fun n hn => ?_,
    kuid.trans huid, ktrim.trans htrim⟩
  have e := hkeys n hn
  exact (kkeys n (e ▸ hn)).trans e

theorem otpKept_ite {c : Prop} [Decidable c] (h : otpKept s t) (k : otpKept s u) : otpKept s (if c then t else u) := by
  split <;> assumption

theorem otpKept_of_moves (m : Moves allButOtp s t) : otpKept s t := otpKept_of_eq (m.only.1 .otp (by decide))

/-- Bits that are set stay set where more are set. -/
theorem and_or_self {w : Nat} (a b : BitVec w) : a &&& (a ||| b) = a := by
  ext i
  rw [BitVec.getElem_and, BitVec.getElem_or, Bool.and_or_distrib_left, Bool.and_self]
  exact sup_inf_self

/-! ### The requests that program OTP -/

theorem modOtp_life_kept {x : BitVec 9} : otpKept s (modOtp s (fun o => { o with life := o.life ||| x })) :=
  ⟨and_or_self _ _, BitVec.and_self, BitVec.and_self, fun _ _ => rfl, rfl, rfl⟩

theorem modOtp_revoke_kept {x : BitVec 4} : otpKept s (modOtp s (fun o => { o with revoke := o.revoke ||| x })) :=
  ⟨BitVec.and_self, BitVec.and_self, and_or_self _ _, fun _ _ => rfl, rfl, rfl⟩

/-- R48: a key slot is programmed once: only one that holds no hash takes one. -/
theorem modOtp_key_kept {n : Fin 4} {h : Nat} (hn : keyProgrammed s n = false) :
    otpKept s (modOtp s (fun o => { o with keys := vset o.keys n h })) := by
  refine ⟨BitVec.and_self, BitVec.and_self, BitVec.and_self, fun m hm => ?_, rfl, rfl⟩
  have hnm : n ≠ m := by
    rintro rfl
    exact of_decide_eq_false hn hm
  exact vget_vset_ne _ _ hnm

/-- R50: the thermometer only rises. -/
theorem advanceCounter_kept {v : Nat} : otpKept s (advanceCounter s v) := by
  refine ⟨BitVec.and_self, ?_, BitVec.and_self, fun _ _ => rfl, rfl, rfl⟩
  refine List.foldlRecOn (motive := fun m => s.keeper.otp.therm &&& m = s.keeper.otp.therm) _ _ BitVec.and_self fun m hm i _ => ?_
  split
  · exact and_eq_trans hm (and_or_self _ _)
  · exact hm

theorem bootCompleteSt_kept : otpKept s (bootCompleteSt s) := by
  have hgrant : otpKept s (mbxAnswer (modBoot s (fun b => { b with complete := true })) 2 mbxGranted 0) := otpKept_of_eq rfl
  exact otpKept_ite (otpKept_of_eq rfl) (otpKept_ite (otpKept_trans hgrant advanceCounter_kept) hgrant)

theorem wipeForReturn_keeper : (wipeForReturn s).keeper = s.keeper := by
  unfold wipeForReturn
  rw [modCode_keeper]

theorem enterReturn_kept : otpKept s (enterReturn s) := by
  have hdisarm : Moves allButOtp (programLife s 3)
      ((List.finRange 2).foldl (fun s l => disarmLine (setRearm s l false) l) (programLife s 3)) :=
    .folded (fun _ _ k => disarmLine_moves rfl (setRearm_moves rfl k)) (.refl _ _)
  rw [enterReturn_eq]
  exact otpKept_trans (otpKept_trans modOtp_life_kept (otpKept_of_moves hdisarm)) (otpKept_of_eq (congrArg Keeper.otp wipeForReturn_keeper))

/-- R46, R48: the change that a token asks for, where its condition holds. -/
theorem tokenJudge_next_kept {tk : Token} (hcond : (tokenJudge s tk).2.2.1 = true) : otpKept s (tokenJudge s tk).2.2.2 := by
  revert hcond
  unfold tokenJudge
  extract_lets life
  split
  · split_ifs
    · exact fun _ => modOtp_life_kept
    · exact fun _ => modOtp_life_kept
    · exact fun _ => enterReturn_kept
    · exact fun _ => otpKept_of_eq rfl
  · exact fun hcond => modOtp_key_kept (by simpa using hcond)
  · exact fun _ => modOtp_revoke_kept

theorem mbxLifecycleSt_kept {token : Option Token} : otpKept s (mbxLifecycleSt token s) := by
  unfold mbxLifecycleSt
  split
  · exact otpKept_of_eq rfl
  next tk =>
    have hcond := tokenJudge_next_kept (s := s) (tk := tk)
    revert hcond
    obtain ⟨order, signer, cond, next⟩ := tokenJudge s tk
    intro hcond
    refine otpKept_ite (otpKept_of_eq rfl) (otpKept_ite (otpKept_of_eq rfl) (otpKept_ite (otpKept_of_eq rfl) ?_))
    cases cond with
    | false => exact otpKept_of_eq rfl
    | true => exact otpKept_trans (hcond rfl) (otpKept_of_eq (t := mbxAnswer next 11 mbxGranted 0) rfl)

/-! ### The mailbox -/

/-- R42: whatever request Benchmark answers, what is programmed stays. -/
theorem mbxServe_kept (r : MbxReq) : otpKept s (mbxServe s r) := by
  unfold mbxServe
  extract_lets a line
  clear_value a line
  have hrefuse : ∀ {code}, otpKept s (mbxRefuse s code) := otpKept_of_eq rfl
  split
  · exact otpKept_of_eq rfl
  · exact bootCompleteSt_kept
  · exact otpKept_ite (otpKept_of_moves (laserArmSt_moves rfl (.refl _ _))) hrefuse
  · exact otpKept_ite (otpKept_of_moves (laserDisarmSt_moves rfl (.refl _ _))) hrefuse
  · split
    · exact otpKept_of_moves (mbxWarmSt_moves rfl (.refl _ _))
    · exact otpKept_of_moves (mbxColdSt_moves rfl (.refl _ _))
    · exact otpKept_ite (otpKept_of_moves (mbxLineSt_moves rfl (.refl _ _))) hrefuse
    · exact hrefuse
  · split
    · exact otpKept_of_moves (mbxEnterSt_moves rfl (.refl _ _))
    · exact otpKept_of_moves (mbxExitSt_moves rfl (.refl _ _))
    · exact hrefuse
  · exact otpKept_ite (otpKept_of_moves (mbxDramFreqSt_moves rfl (.refl _ _))) hrefuse
  · exact otpKept_ite (otpKept_of_moves (recordHashSt_moves rfl (.refl _ _))) hrefuse
  · exact otpKept_ite (otpKept_of_moves (mbxLoopReleaseSt_moves rfl (.refl _ _))) hrefuse
  · exact otpKept_ite (otpKept_of_moves (mbxStaleClearSt_moves rfl (.refl _ _))) hrefuse
  · exact mbxLifecycleSt_kept
  · exact otpKept_of_eq rfl

theorem mbxRun_kept (n : Nat) (s : State) : otpKept s (mbxRun n s) := by
  induction n generalizing s with
  | zero => exact otpKept_of_eq rfl
  | succ n ih =>
    unfold mbxRun
    split
    · exact otpKept_of_eq rfl
    next r rest _ =>
      have hpop : otpKept s (modKeeper s (fun k => { k with mbx := rest })) := otpKept_of_eq rfl
      exact otpKept_ite (otpKept_trans (otpKept_trans hpop (mbxServe_kept r)) (ih _)) (otpKept_of_eq rfl)

theorem mbxSend_kept {code a1 a2 a3 : Nat} : otpKept s (mbxSend s code a1 a2 a3) := by
  unfold mbxSend
  extract_lets r
  have hqueue : otpKept s (modKeeper s (fun k => { k with mbx := k.mbx ++ [r] })) := otpKept_of_eq rfl
  exact otpKept_ite (otpKept_trans hqueue (mbxRun_kept 4 _)) (otpKept_of_eq rfl)

/-! ### Command by command -/

/-- The command programs nothing back; LIFECYCLE and BOOT_COMPLETE apart, it leaves OTP as it is where no request waits. -/
structure OtpSafe (c : Instr) : Prop where
  kept : ∀ s t, exec c s = .next t → otpKept s t
  same : (∀ a k, c ≠ .mbxLifecycle a k) → c ≠ .mbxBootComplete →
    ∀ s t, s.keeper.mbx = [] → exec c s = .next t → t.keeper.otp = s.keeper.otp

/-- A command whose parts do not hold OTP. -/
theorem Confined.otpSafe {ps : List Part} {c : Instr} (h : Confined ps c) (hps : within ps allButOtp = true) : OtpSafe c := by
  have hotp : .otp ∉ ps := fun hmem => absurd (mem_of_within hps hmem) (by decide)
  have same : ∀ s t, exec c s = .next t → t.keeper.otp = s.keeper.otp := fun s t e => (h s t e).only.1 .otp hotp
  exact ⟨fun s t e => otpKept_of_eq (same s t e), fun _ _ s t _ e => same s t e⟩

/-- A mailbox request whose own service leaves OTP alone. -/
theorem otpSafe_of_request {ps : List Part} {c : Instr} (h : answersBut ps c) (hps : within ps allButOtp = true)
    (hkept : ∀ s t, exec c s = .next t → otpKept s t) : OtpSafe c := by
  have hotp : .otp ∉ ps := fun hmem => absurd (mem_of_within hps hmem) (by decide)
  exact ⟨hkept, fun _ _ s t hq e => (h s t hq e).1 .otp hotp⟩

/-- A command that sends one request. -/
theorem kept_of_send {c : Instr} {code a1 a2 a3 : Nat} (hc : ∀ s, exec c s = .next (mbxSend s code a1 a2 a3)) :
    ∀ s t, exec c s = .next t → otpKept s t := by
  intro s t e
  rw [← Host.Outcome.next.inj ((hc s).symm.trans e)]
  exact mbxSend_kept

theorem mbxLifecycle_kept {a : Nat} {k : List Word} : ∀ s t, exec (.mbxLifecycle a k) s = .next t → otpKept s t := by
  intro s t e
  cases e
  have hput : otpKept s (putSram s (5 * (a % 2 ^ 20)) (packWords k)) := otpKept_of_eq rfl
  exact otpKept_trans hput mbxSend_kept

theorem mbxBadCode_kept {c : Fin 1024} : ∀ s t, exec (.mbxBadCode c) s = .next t → otpKept s t := by
  intro s t e
  cases e
  unfold whenB
  exact otpKept_ite mbxSend_kept (otpKept_of_eq rfl)

theorem exec_otpSafe : ∀ c : Instr, OtpSafe c
  | .mbxLifecycle _ _ => ⟨mbxLifecycle_kept, fun h _ => absurd rfl (h _ _)⟩
  | .mbxBootComplete => ⟨kept_of_send fun _ => rfl, fun _ h => absurd rfl h⟩
  | .mbxHeartbeat => otpSafe_of_request mbxHeartbeat_answersBut rfl (kept_of_send fun _ => rfl)
  | .mbxLaserArm l => otpSafe_of_request (mbxLaserArm_answersBut l) rfl (kept_of_send fun _ => rfl)
  | .mbxLaserDisarm l => otpSafe_of_request (mbxLaserDisarm_answersBut l) rfl (kept_of_send fun _ => rfl)
  | .mbxResetWarm => otpSafe_of_request mbxResetWarm_answersBut rfl (kept_of_send fun _ => rfl)
  | .mbxResetCold => otpSafe_of_request mbxResetCold_answersBut rfl (kept_of_send fun _ => rfl)
  | .mbxResetLine l => otpSafe_of_request (mbxResetLine_answersBut l) rfl (kept_of_send fun _ => rfl)
  | .mbxStandbyEnter => otpSafe_of_request mbxStandbyEnter_answersBut rfl (kept_of_send fun _ => rfl)
  | .mbxStandbyExit => otpSafe_of_request mbxStandbyExit_answersBut rfl (kept_of_send fun _ => rfl)
  | .mbxDramFreq sp => otpSafe_of_request (mbxDramFreq_answersBut sp) rfl (kept_of_send fun _ => rfl)
  | .mbxRecordHash b => otpSafe_of_request (mbxRecordHash_answersBut b) rfl (kept_of_send fun _ => rfl)
  | .mbxLoopRelease n => otpSafe_of_request (mbxLoopRelease_answersBut n) rfl (kept_of_send fun _ => rfl)
  | .mbxStaleClear l => otpSafe_of_request (mbxStaleClear_answersBut l) rfl (kept_of_send fun _ => rfl)
  | .mbxBadCode c => otpSafe_of_request (mbxBadCode_answersBut c) rfl mbxBadCode_kept
  | .powerOnReset => powerOnReset_confined.otpSafe rfl
  | .pwrgoodRise => pwrgoodRise_confined.otpSafe rfl
  | .pwrgoodFall => pwrgoodFall_confined.otpSafe rfl
  | .resetNLow => resetNLow_confined.otpSafe rfl
  | .resetNRise => resetNRise_confined.otpSafe rfl
  | .otpReadDone => otpReadDone_confined.otpSafe rfl
  | .xspiInitDone sfdp => (xspiInitDone_confined sfdp).otpSafe rfl
  | .stagingFilled => stagingFilled_confined.otpSafe rfl
  | .imageVerificationDone readA readB => (imageVerificationDone_confined readA readB).otpSafe rfl
  | .stage1Release => stage1Release_confined.otpSafe rfl
  | .stage2Loaded => stage2Loaded_confined.otpSafe rfl
  | .selfTestDone t failLane => (selfTestDone_confined t failLane).otpSafe rfl
  | .planApplied => planApplied_confined.otpSafe rfl
  | .scsFinalLock => scsFinalLock_confined.otpSafe rfl
  | .watchdogPeriodExpiry => watchdogPeriodExpiry_confined.otpSafe rfl
  | .warmHashCheck => warmHashCheck_confined.otpSafe rfl
  | .lineResetDone line => (lineResetDone_confined line).otpSafe rfl
  | .standbyThermalExit => standbyThermalExit_confined.otpSafe rfl
  | .resetCmd => resetCmd_confined.otpSafe rfl
  | .standbyCmd => standbyCmd_confined.otpSafe rfl
  | .fenceIssue scope => (fenceIssue_confined scope).otpSafe rfl
  | .fenceAck island id => (fenceAck_confined island id).otpSafe rfl
  | .fenceComplete => fenceComplete_confined.otpSafe rfl
  | .fenceTimeout id => (fenceTimeout_confined id).otpSafe rfl
  | .rwfAutoFence => rwfAutoFence_confined.otpSafe rfl
  | .traverseClockChangeDone t => (traverseClockChangeDone_confined t).otpSafe rfl
  | .amend link words => (amend_confined link words).otpSafe rfl
  | .featureOfferRepeat l => (featureOfferRepeat_confined l).otpSafe rfl
  | .featureAccept l word serial => (featureAccept_confined l word serial).otpSafe rfl
  | .featureOfferReceived l word serial changed => (featureOfferReceived_confined l word serial changed).otpSafe rfl
  | .featureChangedRepeat l => (featureChangedRepeat_confined l).otpSafe rfl
  | .launchCmdArrive line slot => (launchCmdArrive_confined line slot).otpSafe rfl
  | .probeLaunch line => (probeLaunch_confined line).otpSafe rfl
  | .envelopeSubwindowEnd line => (envelopeSubwindowEnd_confined line).otpSafe rfl
  | .interlockTrip line => (interlockTrip_confined line).otpSafe rfl
  | .interlockRelease line => (interlockRelease_confined line).otpSafe rfl
  | .fibreBreakRaise line => (fibreBreakRaise_confined line).otpSafe rfl
  | .fibreBreakClear line => (fibreBreakClear_confined line).otpSafe rfl
  | .rotationStep line input window => (rotationStep_confined line input window).otpSafe rfl
  | .spareMeasureDone line input offset gain thresholds => (spareMeasureDone_confined line input offset gain thresholds).otpSafe rfl
  | .correctionStep line => (correctionStep_confined line).otpSafe rfl
  | .refFallback line => (refFallback_confined line).otpSafe rfl
  | .refSettled line => (refSettled_confined line).otpSafe rfl
  | .priorityPassEnd line input => (priorityPassEnd_confined line input).otpSafe rfl
  | .fgCalInputDone line input values => (fgCalInputDone_confined line input values).otpSafe rfl
  | .fullFgCalDone line values gains => (fullFgCalDone_confined line values gains).otpSafe rfl
  | .overRange line input length gap => (overRange_confined line input length gap).otpSafe rfl
  | .ramanFgCalStart line => (ramanFgCalStart_confined line).otpSafe rfl
  | .ramanFgCalForce line => (ramanFgCalForce_confined line).otpSafe rfl
  | .ramanFgCalDone line values gains => (ramanFgCalDone_confined line values gains).otpSafe rfl
  | .captureWindowEnd line => (captureWindowEnd_confined line).otpSafe rfl
  | .recal line => (recal_confined line).otpSafe rfl
  | .launchMeasureDone line => (launchMeasureDone_confined line).otpSafe rfl
  | .launchMeasureTimeout line => (launchMeasureTimeout_confined line).otpSafe rfl
  | .traceDeliver line slot pol samples => (traceDeliver_confined line slot pol samples).otpSafe rfl
  | .shotPass t => (shotPass_confined t).otpSafe rfl
  | .outputPass t => (outputPass_confined t).otpSafe rfl
  | .ramanPass t => (ramanPass_confined t).otpSafe rfl
  | .servicePass t => (servicePass_confined t).otpSafe rfl
  | .backgroundSlice t => (backgroundSlice_confined t).otpSafe rfl
  | .passDrop t => (passDrop_confined t).otpSafe rfl
  | .recoveryPass t failLane => (recoveryPass_confined t failLane).otpSafe rfl
  | .nop t => (nop_confined t).otpSafe rfl
  | .rep t src count reg len => (rep_confined t src count reg len).otpSafe rfl
  | .br t p mode target => (br_confined t p mode target).otpSafe rfl
  | .end_ t => (end_confined t).otpSafe rfl
  | .hook t h => (hook_confined t h).otpSafe rfl
  | .mode t g => (mode_confined t g).otpSafe rfl
  | .aovclr t p => (aovclr_confined t p).otpSafe rfl
  | .wait t n => (wait_confined t n).otpSafe rfl
  | .ld t p m => (ld_confined t p m).otpSafe rfl
  | .ldp t p m => (ldp_confined t p m).otpSafe rfl
  | .st t p m => (st_confined t p m).otpSafe rfl
  | .stp t p m => (stp_confined t p m).otpSafe rfl
  | .ald t p m => (ald_confined t p m).otpSafe rfl
  | .ast t p m => (ast_confined t p m).otpSafe rfl
  | .xld t p f => (xld_confined t p f).otpSafe rfl
  | .xadd t p f => (xadd_confined t p f).otpSafe rfl
  | .alu t p r => (alu_confined t p r).otpSafe rfl
  | .alud t p r => (alud_confined t p r).otpSafe rfl
  | .alui t p f => (alui_confined t p f).otpSafe rfl
  | .cmp t p r => (cmp_confined t p r).otpSafe rfl
  | .cmpi t p f => (cmpi_confined t p f).otpSafe rfl
  | .sel t p r => (sel_confined t p r).otpSafe rfl
  | .movi t p rd imm w => (movi_confined t p rd imm w).otpSafe rfl
  | .mac t p r => (mac_confined t p r).otpSafe rfl
  | .cmac t p r => (cmac_confined t p r).otpSafe rfl
  | .dmac t p r => (dmac_confined t p r).otpSafe rfl
  | .aop t p r => (aop_confined t p r).otpSafe rfl
  | .ash t p r => (ash_confined t p r).otpSafe rfl
  | .atst t p r => (atst_confined t p r).otpSafe rfl
  | .gmac t p r => (gmac_confined t p r).otpSafe rfl
  | .atan t p r => (atan_confined t p r).otpSafe rfl
  | .mag t p r => (mag_confined t p r).otpSafe rfl
  | .mag2 t p r => (mag2_confined t p r).otpSafe rfl
  | .unit t p r => (unit_confined t p r).otpSafe rfl
  | .rot t p r => (rot_confined t p r).otpSafe rfl
  | .lnr t p r => (lnr_confined t p r).otpSafe rfl
  | .dbl t p r => (dbl_confined t p r).otpSafe rfl
  | .expw t p r => (expw_confined t p r).otpSafe rfl
  | .div t p r => (div_confined t p r).otpSafe rfl
  | .maxi t p r => (maxi_confined t p r).otpSafe rfl
  | .mini t p r => (mini_confined t p r).otpSafe rfl
  | .portInput t p pair r => (portInput_confined t p pair r).otpSafe rfl
  | .portDramRead t p f => (portDramRead_confined t p f).otpSafe rfl
  | .portDramWrite t p f => (portDramWrite_confined t p f).otpSafe rfl
  | .portXbufRead t p r ra => (portXbufRead_confined t p r ra).otpSafe rfl
  | .portXbufWrite t p r ra => (portXbufWrite_confined t p r ra).otpSafe rfl
  | .out t p o => (out_confined t p o).otpSafe rfl
  | .xch t p r => (xch_confined t p r).otpSafe rfl
  | .prm t p f => (prm_confined t p f).otpSafe rfl
  | .captureRequest line => (captureRequest_confined line).otpSafe rfl
  | .captureStart line => (captureStart_confined line).otpSafe rfl
  | .datumSlow line => (datumSlow_confined line).otpSafe rfl
  | .ramanCapture line asSamples stSamples asDark stDark => (ramanCapture_confined line asSamples stSamples asDark stDark).otpSafe rfl
  | .ramanBlockEnd line => (ramanBlockEnd_confined line).otpSafe rfl
  | .ramanBlockSelfPass line => (ramanBlockSelfPass_confined line).otpSafe rfl
  | .coilcal line => (coilcal_confined line).otpSafe rfl
  | .coilCalResume line => (coilCalResume_confined line).otpSafe rfl
  | .calAgeExpiry line => (calAgeExpiry_confined line).otpSafe rfl
  | .fusionStart line => (fusionStart_confined line).otpSafe rfl
  | .streamInput n stamp => (streamInput_confined n stamp).otpSafe rfl
  | .detectorSummary n d => (detectorSummary_confined n d).otpSafe rfl
  | .syncNEdge => syncNEdge_confined.otpSafe rfl
  | .stCmdSync n => (stCmdSync_confined n).otpSafe rfl
  | .streamReset n => (streamReset_confined n).otpSafe rfl
  | .swapRequest n => (swapRequest_confined n).otpSafe rfl
  | .coefWrite n value => (coefWrite_confined n value).otpSafe rfl
  | .codeFrame => codeFrame_confined.otpSafe rfl
  | .ringWrite => ringWrite_confined.otpSafe rfl
  | .ringGapTimeout n => (ringGapTimeout_confined n).otpSafe rfl
  | .cursorStart c => (cursorStart_confined c).otpSafe rfl
  | .cursorStop c => (cursorStop_confined c).otpSafe rfl
  | .seekOldest c => (seekOldest_confined c).otpSafe rfl
  | .seekNewest c => (seekNewest_confined c).otpSafe rfl
  | .seekSerial c => (seekSerial_confined c).otpSafe rfl
  | .seekDone c => (seekDone_confined c).otpSafe rfl
  | .cursorRead c => (cursorRead_confined c).otpSafe rfl
  | .zoneStaleTimeout z => (zoneStaleTimeout_confined z).otpSafe rfl
  | .zonePortUpdate z => (zonePortUpdate_confined z).otpSafe rfl
  | .zqSelect addr => (zqSelect_confined addr).otpSafe rfl
  | .zqAddressChange addr => (zqAddressChange_confined addr).otpSafe rfl
  | .zqDeselect => zqDeselect_confined.otpSafe rfl
  | .zqForceTimeout => zqForceTimeout_confined.otpSafe rfl
  | .alarmStretchExpiry pin => (alarmStretchExpiry_confined pin).otpSafe rfl
  | .znAck => znAck_confined.otpSafe rfl
  | .loopFaultTimer n => (loopFaultTimer_confined n).otpSafe rfl
  | .loopReleaseTimer n => (loopReleaseTimer_confined n).otpSafe rfl
  | .loopReleaseCmd n => (loopReleaseCmd_confined n).otpSafe rfl
  | .loopOpen n => (loopOpen_confined n).otpSafe rfl
  | .loopDeviation n => (loopDeviation_confined n).otpSafe rfl
  | .loopConditionClear n openCond => (loopConditionClear_confined n openCond).otpSafe rfl
  | .m0ConversionEnd d => (m0ConversionEnd_confined d).otpSafe rfl
  | .m1FrameStart => m1FrameStart_confined.otpSafe rfl
  | .m1ConversionEnd ch value isOver => (m1ConversionEnd_confined ch value isOver).otpSafe rfl
  | .notchLengthUpdate count => (notchLengthUpdate_confined count).otpSafe rfl
  | .hkRefWindowExit => hkRefWindowExit_confined.otpSafe rfl
  | .hkRefRestore => hkRefRestore_confined.otpSafe rfl
  | .urgentRequest ch => (urgentRequest_confined ch).otpSafe rfl
  | .burnoutPulse n openBalls => (burnoutPulse_confined n openBalls).otpSafe rfl
  | .rtdOpenClear n => (rtdOpenClear_confined n).otpSafe rfl
  | .trefPresent is100 => (trefPresent_confined is100).otpSafe rfl
  | .trefLoss => trefLoss_confined.otpSafe rfl
  | .timeNoClock => timeNoClock_confined.otpSafe rfl
  | .timeRelock => timeRelock_confined.otpSafe rfl
  | .disciplineMeasurement e tm => (disciplineMeasurement_confined e tm).otpSafe rfl
  | .ppsEdge q f => (ppsEdge_confined q f).otpSafe rfl
  | .ppsLoss => ppsLoss_confined.otpSafe rfl
  | .hostHoldover => hostHoldover_confined.otpSafe rfl
  | .timeSet src tag seq t => (timeSet_confined src tag seq t).otpSafe rfl
  | .timeTrack src tag seq t => (timeTrack_confined src tag seq t).otpSafe rfl
  | .timePpsLabel src tag seq seconds => (timePpsLabel_confined src tag seq seconds).otpSafe rfl
  | .ppsOutPulse => ppsOutPulse_confined.otpSafe rfl
  | .timeSnapshot src => (timeSnapshot_confined src).otpSafe rfl
  | .timeAdjust => timeAdjust_confined.otpSafe rfl
  | .tdcEdge ch falling q f => (tdcEdge_confined ch falling q f).otpSafe rfl
  | .tdcGateChange g level => (tdcGateChange_confined g level).otpSafe rfl
  | .tdcWindowEnd g => (tdcWindowEnd_confined g).otpSafe rfl
  | .tdcArm ch => (tdcArm_confined ch).otpSafe rfl
  | .tdcDisarm ch => (tdcDisarm_confined ch).otpSafe rfl
  | .tdcPop ch => (tdcPop_confined ch).otpSafe rfl
  | .tdcFlushTimer ch => (tdcFlushTimer_confined ch).otpSafe rfl
  | .tdcPairHoldEnd pair => (tdcPairHoldEnd_confined pair).otpSafe rfl
  | .tdcPairWindowExpiry pair => (tdcPairWindowExpiry_confined pair).otpSafe rfl
  | .tdcCal ch => (tdcCal_confined ch).otpSafe rfl
  | .tdcCalComplete ch hist => (tdcCalComplete_confined ch hist).otpSafe rfl
  | .tdcCalTimeout ch => (tdcCalTimeout_confined ch).otpSafe rfl
  | .tdcCalRetry ch => (tdcCalRetry_confined ch).otpSafe rfl
  | .tdcCalPeriod ch => (tdcCalPeriod_confined ch).otpSafe rfl
  | .monWindowExpiry line => (monWindowExpiry_confined line).otpSafe rfl
  | .laneDetectDone q present => (laneDetectDone_confined q present).otpSafe rfl
  | .absentRetry q => (absentRetry_confined q).otpSafe rfl
  | .linkActive q => (linkActive_confined q).otpSafe rfl
  | .blindTimeout q => (blindTimeout_confined q).otpSafe rfl
  | .trainingSetReceived q p symbols => (trainingSetReceived_confined q p symbols).otpSafe rfl
  | .trainStepPass q lanes => (trainStepPass_confined q lanes).otpSafe rfl
  | .trainStepTimeout q lanes => (trainStepTimeout_confined q lanes).otpSafe rfl
  | .downRetry q => (downRetry_confined q).otpSafe rfl
  | .laneLos q p => (laneLos_confined q p).otpSafe rfl
  | .losDetectReturn q p => (losDetectReturn_confined q p).otpSafe rfl
  | .linkFaultDetect q cause => (linkFaultDetect_confined q cause).otpSafe rfl
  | .orderedSetInsert q => (orderedSetInsert_confined q).otpSafe rfl
  | .idleWake q => (idleWake_confined q).otpSafe rfl
  | .linkReset q => (linkReset_confined q).otpSafe rfl
  | .feLoopbackExit q => (feLoopbackExit_confined q).otpSafe rfl
  | .credit l grants => (credit_confined l grants).otpSafe rfl
  | .creditSend l => (creditSend_confined l).otpSafe rfl
  | .read l tag src addr count => (read_confined l tag src addr count).otpSafe rfl
  | .write l tag src addr mask values => (write_confined l tag src addr mask values).otpSafe rfl
  | .timedSend l tag src words => (timedSend_confined l tag src words).otpSafe rfl
  | .timedLaunch => timedLaunch_confined.otpSafe rfl
  | .frameForward l symbols => (frameForward_confined l symbols).otpSafe rfl
  | .levelRunStart => levelRunStart_confined.otpSafe rfl
  | .levelReq l frame stamp => (levelReq_confined l frame stamp).otpSafe rfl
  | .levelResp l frame stamp => (levelResp_confined l frame stamp).otpSafe rfl
  | .levelRunEnd => levelRunEnd_confined.otpSafe rfl
  | .chainSync l frame => (chainSync_confined l frame).otpSafe rfl
  | .dramTrainingDone failed => (dramTrainingDone_confined failed).otpSafe rfl
  | .dqsOscRead drift => (dqsOscRead_confined drift).otpSafe rfl
  | .shortRetrainStart ch => (shortRetrainStart_confined ch).otpSafe rfl
  | .trainingCollectionDone ch pass => (trainingCollectionDone_confined ch pass).otpSafe rfl
  | .freqChangeDone => freqChangeDone_confined.otpSafe rfl
  | .thermalReturn => thermalReturn_confined.otpSafe rfl
  | .dramRead addr single double other => (dramRead_confined addr single double other).otpSafe rfl
  | .freezeEnd intact => (freezeEnd_confined intact).otpSafe rfl
  | .freezeTimeout => freezeTimeout_confined.otpSafe rfl
  | .channelLossDone => channelLossDone_confined.otpSafe rfl
  | .scrubRead single double other => (scrubRead_confined single double other).otpSafe rfl
  | .c3AgePromote => c3AgePromote_confined.otpSafe rfl
  | .standbyExitStep => standbyExitStep_confined.otpSafe rfl
  | .scsLockLoss => scsLockLoss_confined.otpSafe rfl
  | .scsRelock => scsRelock_confined.otpSafe rfl
  | .refclkLoss => refclkLoss_confined.otpSafe rfl
  | .scsFreerunTimeout => scsFreerunTimeout_confined.otpSafe rfl
  | .refclkReturn => refclkReturn_confined.otpSafe rfl
  | .refclkAltLoss => refclkAltLoss_confined.otpSafe rfl
  | .hostFenceIssue path => (hostFenceIssue_confined path).otpSafe rfl
  | .registerSnapshot path clear count => (registerSnapshot_confined path clear count).otpSafe rfl
  | .loReadCapture path addr => (loReadCapture_confined path addr).otpSafe rfl
  | .hiReadShadow path addr => (hiReadShadow_confined path addr).otpSafe rfl
  | .loWriteStage path addr value mask => (loWriteStage_confined path addr value mask).otpSafe rfl
  | .hiWriteCommit path addr value mask => (hiWriteCommit_confined path addr value mask).otpSafe rfl
  | .loStageExpiry path => (loStageExpiry_confined path).otpSafe rfl
  | .rcRead path addr => (rcRead_confined path addr).otpSafe rfl
  | .registerWrite path addr value mask => (registerWrite_confined path addr value mask).otpSafe rfl
  | .eventLogSelect index => (eventLogSelect_confined index).otpSafe rfl
  | .svcRegRead addr count => (svcRegRead_confined addr count).otpSafe rfl
  | .svcRegWrite addr mask values => (svcRegWrite_confined addr mask values).otpSafe rfl
  | .svcStatus => svcStatus_confined.otpSafe rfl
  | .flashRead addr count => (flashRead_confined addr count).otpSafe rfl
  | .flashProgram addr bytes => (flashProgram_confined addr bytes).otpSafe rfl
  | .flashErase addr => (flashErase_confined addr).otpSafe rfl
  | .flashOpDone ok => (flashOpDone_confined ok).otpSafe rfl
  | .refclkAltPresent => refclkAltPresent_confined.otpSafe rfl
  | .eiosReceived q p => (eiosReceived_confined q p).otpSafe rfl
  | .mr4Readout hot cool => (mr4Readout_confined hot cool).otpSafe rfl
  | .keeperSramError => keeperSramError_confined.otpSafe rfl
  | .snapshotComplete => snapshotComplete_confined.otpSafe rfl
  | .jtagAccess ir => (jtagAccess_confined ir).otpSafe rfl
/-! ### Steps -/

/-- R18, R243: the next instruction of a running kernel is a command, a fault of the kernel, or nothing. -/
theorem kernelInstr_otpKept (s : State) (k : Fin 8) : otpKept s (kernelInstr s k) := by
  unfold kernelInstr
  split
  · exact otpKept_of_eq rfl
  · split
    · exact otpKept_of_moves (kernelFault_moves rfl (.refl _ s))
    · split
      · next e => exact (exec_otpSafe _).kept _ _ e
      · exact otpKept_of_eq rfl

theorem idle_otpKept (s : State) : otpKept s (idle s) := by
  unfold idle
  extract_lets s1 s2
  have h1 : Moves allButOtp s s1 := tick_moves rfl (.refl _ s)
  have h2 : otpKept s s2 := by
    unfold s2
    split
    · exact otpKept_of_moves h1
    · exact otpKept_of_moves (strike_moves rfl h1)
  exact List.foldlRecOn _ _ h2 fun u h k _ => otpKept_trans h (kernelInstr_otpKept u k)

/-- Settles O50: a step runs a command or passes a tick; the requests that program OTP only set bits and fill empty key
slots, and nothing else touches OTP. -/
theorem otpOneWay : Obligations.OtpOneWay := by
  refine ⟨fun s t e => ?_, fun s t c hq hlife hboot e => (exec_otpSafe c).same hlife hboot s t hq e⟩
  unfold step at e
  split at e
  · rw [← Host.Outcome.next.inj e]
    exact idle_otpKept s
  next rest _ => exact (exec_otpSafe _).kept { s with pending := rest } t e

/-! ### The interlock -/

theorem exec_interlocked {c : Instr} (e : exec c s = .next t) (h : interlocked s) : interlocked t := by
  obtain ⟨ps, hc⟩ := exec_confined c
  exact (hc s t e).ilk h

theorem kernelInstr_interlocked {k : Fin 8} (h : interlocked s) : interlocked (kernelInstr s k) := by
  unfold kernelInstr
  split
  · exact h
  · split
    · exact (kernelFault_moves (P := allParts) rfl (.refl _ s)).ilk h
    · split
      · next e => exact exec_interlocked e h
      · exact h

theorem idle_interlocked (h : interlocked s) : interlocked (idle s) := by
  unfold idle
  extract_lets s1 s2
  have h1 : Moves allParts s s1 := tick_moves rfl (.refl _ s)
  have h2 : interlocked s2 := by
    unfold s2
    split
    · exact h1.ilk h
    · exact (strike_moves rfl h1).ilk h
  exact List.foldlRecOn _ _ h2 fun _ k _ _ => kernelInstr_interlocked k

/-- Settles O51: a step runs the command at the front of the queue, or with none waiting passes a tick; neither turns a laser
on under a low interlock input. -/
theorem laserInterlock : Obligations.LaserInterlock := by
  intro s t h e
  unfold step at e
  split at e
  · rw [← Host.Outcome.next.inj e]
    exact idle_interlocked h
  · exact exec_interlocked e h

end

end Sys2Proof.Laws
end

section
/-! SUPPORT. What a mailbox request answers where no other waits and the keeper core runs (R42): the state after it is that of
its service. And the statement about the mailbox itself. -/

namespace Sys2Proof.Laws
open Sys2Proof Sys2Proof.Machine Sys2Proof.Safety

section
variable {s : State} {c : Instr} {P : State → Prop}

/-! ### A command that goes on -/

theorem goesOnWith_of_next {t : State} (e : exec c s = .next t) (h : P t) : goesOnWith (exec c s) P := ⟨t, e, h⟩

theorem whenB_of_true {b : Bool} {t : State} (h : b = true) : whenB b s t = t := if_pos h

theorem whenB_of_false {b : Bool} {t : State} (h : b = false) : whenB b s t = s := if_neg (by simp [h])

/-- A field of a register that is not written keeps its value. -/
theorem getF_of_writes {A : List Nat} {z t : State} {f : Fld} (h : Writes A z t) (hf : f.addr ∉ A) : getF t f = getF z f := by
  unfold getF
  rw [h _ hf]

/-! ### The answer -/

theorem getF_mbxAnswer_code {code status detail : Nat} : getF (mbxAnswer s code status detail) bmMbxLastCode = code % 1024 :=
  (getF_setF_apart _ bmMbxLastStatus bmMbxLastCode _ rfl rfl rfl (by decide)).trans (getF_setF _ bmMbxLastCode _ rfl)

theorem getF_mbxAnswer_status {code status detail : Nat} : getF (mbxAnswer s code status detail) bmMbxLastStatus = status % 1024 :=
  getF_setF _ bmMbxLastStatus _ rfl

/-- R43: an answer changes no register but BM_MBX. -/
theorem getF_mbxAnswer_ne {code status detail : Nat} {f : Fld} (hf : f.addr ≠ 0x403) :
    getF (mbxAnswer s code status detail) f = getF s f :=
  getF_of_writes (mbxAnswer_writes (A := [0x403]) (by simp) (.refl _ s)) (by simpa using hf)

theorem getF_mbxRefuse_code {code : Nat} : getF (mbxRefuse s code) bmMbxLastCode = code % 1024 := getF_mbxAnswer_code

theorem getF_mbxRefuse_status {code : Nat} : getF (mbxRefuse s code) bmMbxLastStatus = 2 := getF_mbxAnswer_status

theorem mbxAnswer_only {P : List Part} {code status detail : Nat} (hP : within [.regs, .keeper] P = true) :
    changesOnly P s (mbxAnswer s code status detail) :=
  (mbxAnswer_moves hP (.refl _ s)).only

theorem mbxRefuse_only {code : Nat} : changesOnly [.regs, .keeper, .freeCtr] s (mbxRefuse s code) :=
  (mbxRefuse_moves rfl (.refl _ s)).only

/-! ### A request served at once -/

theorem withQueue_self (hq : s.keeper.mbx = []) : withQueue s [] = s := by
  unfold withQueue
  rw [← hq]

/-- R42: a request that finds no other waiting is answered at once while the keeper core runs. -/
theorem mbxSend_served {code a1 a2 a3 : Nat} {f : State → State} (hserve : ∀ u, mbxServe u (mbxReqOf code a1 a2 a3) = f u)
    (hq : s.keeper.mbx = []) (hk : keeperRuns s = true) (hnone : (f s).keeper.mbx = []) : mbxSend s code a1 a2 a3 = f s := by
  have e : mbxServe (withQueue s []) (mbxReqOf code a1 a2 a3) = f s := by rw [withQueue_self hq, hserve]
  rw [mbxSend_alone hq (by rw [e]; exact hnone), e, if_pos hk]

theorem goesOnWith_served {code a1 a2 a3 : Nat} {f : State → State} (hc : ∀ u, exec c u = .next (mbxSend u code a1 a2 a3))
    (hserve : ∀ u, mbxServe u (mbxReqOf code a1 a2 a3) = f u) (hq : s.keeper.mbx = []) (hk : keeperRuns s = true)
    (hnone : (f s).keeper.mbx = []) (h : P (f s)) : goesOnWith (exec c s) P := by
  refine goesOnWith_of_next (hc s) ?_
  rw [mbxSend_served hserve hq hk hnone]
  exact h

/-! ### The requests of the statement about the mailbox -/

theorem bootCompleteSt_refused (h : s.keeper.boot.complete = true ∨ s.keeper.hashField = none ∨ s.keeper.hashPlan = none) :
    bootCompleteSt s = mbxAnswer s 2 mbxRefusedSequence 0 := if_pos h

/-- R50: a grant for an image that is not COMMIT leaves the counter alone. -/
theorem bootCompleteSt_granted {f p : Nat} (hcomplete : s.keeper.boot.complete = false) (hf : s.keeper.hashField = some f)
    (hp : s.keeper.hashPlan = some p) (hcommit : s.keeper.boot.commit = false) :
    bootCompleteSt s = mbxAnswer (modBoot s (fun b => { b with complete := true })) 2 mbxGranted 0 := by
  unfold bootCompleteSt
  rw [if_neg (by simp [hcomplete, hf, hp]), hcommit]
  rfl

theorem recordHashSt_plan : recordHashSt true s =
    mbxAnswer (modKeeper s (fun k => { k with hashPlan := some (planDigest s) })) 8 mbxGranted 0 := rfl

theorem recordHashSt_field (h : s.keeper.boot.complete = false) : recordHashSt false s =
    mbxAnswer (modKeeper s (fun k => { k with hashField := some (fieldDigest s) })) 8 mbxGranted 0 := by
  unfold recordHashSt
  rw [h]
  rfl

theorem recordHashSt_field_refused (h : s.keeper.boot.complete = true) :
    recordHashSt false s = mbxAnswer s 8 mbxRefusedState 0 := by
  unfold recordHashSt
  rw [h]
  rfl

theorem mbxSend_full {code a1 a2 a3 : Nat} (h : 4 ≤ s.keeper.mbx.length) : mbxSend s code a1 a2 a3 = s :=
  if_neg (Nat.not_lt.mpr h)

/-- R42: while the keeper core does not run a request waits behind those before it. -/
theorem mbxSend_waits {code a1 a2 a3 : Nat} (hroom : s.keeper.mbx.length < 4) (hk : keeperRuns s = false) :
    mbxSend s code a1 a2 a3 = withQueue s (s.keeper.mbx ++ [mbxReqOf code a1 a2 a3]) := by
  have hstopped : ¬keeperRuns s = true := by
    rw [hk]
    exact Bool.false_ne_true
  refine (if_pos hroom).trans ?_
  change mbxRun 4 (withQueue s (s.keeper.mbx ++ [mbxReqOf code a1 a2 a3])) = _
  unfold mbxRun
  split
  · rfl
  · exact if_neg hstopped

/-- Settles O4: a request beyond four is dropped and one that the keeper core does not serve waits; else it is served, and
each service answers by its own conditions. -/
theorem mailboxAnswers : Obligations.MailboxAnswers := by
  refine ⟨fun s hfull => ?_, fun s hroom hk => ?_, fun s hq hk => ?_, fun s hq hk hno => ?_,
    fun s f p hq hk hcomplete hf hp hcommit => ?_, fun s hq hk => ?_, fun s hq hk hcomplete => ?_,
    fun s hq hk hcomplete => ?_, fun s code hq hk hbad => ?_⟩
  · exact goesOnWith_of_next rfl (mbxSend_full hfull)
  · refine goesOnWith_of_next rfl ?_
    rw [mbxSend_waits hroom hk]
    exact ⟨rfl, (withQueue_moves rfl (.refl _ s)).only⟩
  · refine goesOnWith_served (f := fun u => mbxAnswer (setF u bmWdogMissed 0) 1 mbxGranted 0) (fun _ => rfl) (fun _ => rfl)
      hq hk hq ?_
    have hmissed : getF (mbxAnswer (setF s bmWdogMissed 0) 1 mbxGranted 0) bmWdogMissed = 0 :=
      (getF_mbxAnswer_ne (by decide)).trans (getF_setF s bmWdogMissed 0 rfl)
    exact ⟨hmissed, getF_mbxAnswer_code, getF_mbxAnswer_status, hq,
      (mbxAnswer_moves rfl (setF_moves rfl (.refl _ s))).only⟩
  · refine goesOnWith_served (f := bootCompleteSt) (fun _ => rfl) (fun _ => rfl) hq hk ?_ ?_
    · exact KeepsQueue.leavesNone bootCompleteSt_keepsQueue hq
    · rw [bootCompleteSt_refused hno]
      exact ⟨getF_mbxAnswer_code, getF_mbxAnswer_status, rfl, rfl⟩
  · refine goesOnWith_served (f := bootCompleteSt) (fun _ => rfl) (fun _ => rfl) hq hk ?_ ?_
    · exact KeepsQueue.leavesNone bootCompleteSt_keepsQueue hq
    · rw [bootCompleteSt_granted hcomplete hf hp hcommit]
      exact ⟨getF_mbxAnswer_code, getF_mbxAnswer_status, rfl, rfl⟩
  · refine goesOnWith_served (fun _ => rfl) (mbxServe_recordHash · true) hq hk hq ?_
    rw [recordHashSt_plan]
    exact ⟨rfl, getF_mbxAnswer_code, getF_mbxAnswer_status⟩
  · refine goesOnWith_served (fun _ => rfl) (mbxServe_recordHash · false) hq hk ?_ ?_
    · exact KeepsQueue.leavesNone recordHashSt_keepsQueue hq
    · rw [recordHashSt_field hcomplete]
      exact ⟨rfl, getF_mbxAnswer_status⟩
  · refine goesOnWith_served (fun _ => rfl) (mbxServe_recordHash · false) hq hk ?_ ?_
    · exact KeepsQueue.leavesNone recordHashSt_keepsQueue hq
    · rw [recordHashSt_field_refused hcomplete]
      exact ⟨rfl, getF_mbxAnswer_status⟩
  · have hcode : ¬(1 ≤ code.val ∧ code.val ≤ 11) := by omega
    refine goesOnWith_of_next rfl ?_
    rw [whenB_of_true (by rw [decide_eq_false hcode]; rfl), mbxSend_served (mbxServe_badCode · code.isLt hcode) hq hk hq]
    exact ⟨getF_mbxAnswer_code.trans (Nat.mod_eq_of_lt code.isLt), getF_mbxAnswer_status, mbxAnswer_only rfl⟩

end

end Sys2Proof.Laws
end

section
/-! SUPPORT. The loop outputs (R310 to R312): what a fault, a release and a flag do to a loop. -/

namespace Sys2Proof.Laws
open Sys2Proof Sys2Proof.Machine Sys2Proof.Safety

section
variable {s t : State} {n : Fin 8}

/-! ### One loop changed -/

theorem vget_modLoop {f : LoopSt → LoopSt} : vget (modLoop s n f).zn.loops n = f (vget s.zn.loops n) := vget_vmod _ _ _

theorem vget_modLoop_ne {k : Fin 8} {f : LoopSt → LoopSt} (hk : k ≠ n) :
    vget (modLoop s n f).zn.loops k = vget s.zn.loops k := vget_vmod_ne _ _ hk.symm

/-- From `s` to `t` loop `n` has left its fault without a cause, and nothing but that loop has changed. -/
structure Released (n : Fin 8) (s t : State) : Prop where
  st : (vget t.zn.loops n).st ≠ .fault
  cause : (vget t.zn.loops n).cause = 0
  others : ∀ k, k ≠ n → vget t.zn.loops k = vget s.zn.loops k
  moves : Moves [.zn] s t

/-- A loop that follows its source takes its code. -/
theorem retarget_eq (s : State) (n : Fin 8) :
    retarget s n = s ∨ ∃ v, retarget s n = modLoop s n (fun x => { x with code := v }) := by
  unfold retarget
  split
  · split
    · exact .inl rfl
    next v _ => exact .inr ⟨v, rfl⟩
  · exact .inl rfl

theorem Released.retarget (h : Released n s t) : Released n s (retarget t n) := by
  obtain ⟨hst, hcause, hothers, hmoves⟩ := h
  rcases retarget_eq t n with e | ⟨v, e⟩
  · rw [e]
    exact ⟨hst, hcause, hothers, hmoves⟩
  · rw [e]
    refine ⟨?_, ?_, fun k hk => (vget_modLoop_ne hk).trans (hothers k hk), modLoop_moves rfl hmoves⟩
    · rw [vget_modLoop]
      exact hst
    · rw [vget_modLoop]
      exact hcause

/-! ### A release -/

/-- R311: while a cause holds nothing is released. -/
theorem loopRelease_of_cause (hc : loopCauses s n ≠ 0) : loopRelease s n = none := if_pos hc

/-- R311: with every cause cleared a loop in fault is released. -/
theorem loopRelease_of_clear (hc : loopCauses s n = 0) (hst : (vget s.zn.loops n).st = .fault) :
    ∃ t, loopRelease s n = some t ∧ Released n s t := by
  unfold loopRelease
  rw [if_neg (not_not.mpr hc)]
  extract_lets x c st
  rw [if_neg (not_not.mpr hst)]
  refine ⟨_, rfl, Released.retarget ⟨?_, ?_, fun k hk => vget_modLoop_ne hk, modLoop_moves rfl (.refl _ s)⟩⟩
  · rw [vget_modLoop]
    show st ≠ .fault
    unfold st
    split_ifs <;> exact LoopState.noConfusion
  · rw [vget_modLoop]

theorem mbxLoopReleaseSt_of_cause (hc : loopCauses s n ≠ 0) : mbxLoopReleaseSt n s = mbxRefuse s 9 := by
  unfold mbxLoopReleaseSt
  rw [loopRelease_of_cause hc]

theorem mbxLoopReleaseSt_of_clear (hc : loopCauses s n = 0) (hst : (vget s.zn.loops n).st = .fault) :
    ∃ t, mbxLoopReleaseSt n s = mbxAnswer t 9 mbxGranted 0 ∧ Released n s t := by
  obtain ⟨t, e, h⟩ := loopRelease_of_clear hc hst
  refine ⟨t, ?_, h⟩
  unfold mbxLoopReleaseSt
  rw [e]

/-! ### The flags -/

theorem logPush_entries_ne {e : List Word} : (logPush s e).log.entries ≠ [] := by
  have hpush : ∀ l : List (List Word), l ++ [e] ≠ [] := fun l => by simp
  unfold logPush
  extract_lets full kept s1
  split
  · exact hpush kept
  · exact hpush kept

theorem logEvent_entries_ne {code island sev unit_ arg : Nat} : (logEvent s code island sev unit_ arg).log.entries ≠ [] :=
  logPush_entries_ne

/-- R312: a flag of a loop that is set and logged. -/
theorem getF_logEvent_setF {f : Fld} {v code island sev unit_ arg : Nat} (hf : Fld.fits f = true) (haddr : f.addr ≠ 0xF008) :
    getF (logEvent (setF s f v) code island sev unit_ arg) f = v % 2 ^ (f.hi + 1 - f.lo) :=
  (getF_of_writes (logEvent_writes (A := [0xF008]) (by simp) (.refl _ _)) (by simpa using haddr)).trans (getF_setF s f v hf)

theorem hkLoopStatusOpen_addr_ne : (hkLoopStatusOpen n.val).addr ≠ 0xF008 := by
  have := n.isLt
  show 0x0C900 + 8 * n.val ≠ 0xF008
  omega

theorem logged_flag_only {f : Fld} {v code island sev unit_ arg : Nat} :
    changesOnly [.regs, .log] s (logEvent (setF s f v) code island sev unit_ arg) :=
  (logEvent_moves rfl (setF_moves rfl (.refl _ s))).only

/-- Settles O32: a fault drives the loop to one of the two fault currents; a release goes by `loopRelease` alone, whoever asks;
the flags are written and logged. -/
theorem loops : Obligations.Loops := by
  refine ⟨fun s n at_ hsince hdue hst => ?_, fun s n hq hk hc => ?_, fun s n hq hk hc hst => ?_,
    fun s n at_ hman hclear hdue hc hst => ?_, fun s n hman hc hst => ?_, fun s n hman => ?_, fun s n => ?_,
    fun s n hopen => ?_, fun s n b => ?_⟩
  · refine goesOnWith_of_next rfl ?_
    rw [whenB_of_true (by rw [hsince]; exact decide_eq_true hdue)]
    refine ⟨?_, ?_, ?_, fun k hk => vget_modLoop_ne hk, (loopFault_moves rfl (.refl _ s)).only⟩
    · exact congrArg LoopSt.st vget_modLoop
    · exact (congrArg LoopSt.cause vget_modLoop).trans (if_neg hst)
    · rw [show (vget (loopFault s n 1).zn.loops n).code = _ from congrArg LoopSt.code vget_modLoop]
      dsimp only
      split
      · exact .inl rfl
      · exact .inr rfl
  · refine goesOnWith_served (fun _ => rfl) (mbxServe_loopRelease · n) hq hk ?_ ?_
    · exact KeepsQueue.leavesNone mbxLoopReleaseSt_keepsQueue hq
    · rw [mbxLoopReleaseSt_of_cause hc]
      exact ⟨getF_mbxRefuse_code, getF_mbxRefuse_status, mbxRefuse_only.1 .zn (by decide), mbxRefuse_only⟩
  · refine goesOnWith_served (fun _ => rfl) (mbxServe_loopRelease · n) hq hk ?_ ?_
    · exact KeepsQueue.leavesNone mbxLoopReleaseSt_keepsQueue hq
    · obtain ⟨t, e, h⟩ := mbxLoopReleaseSt_of_clear hc hst
      rw [e]
      exact ⟨getF_mbxAnswer_code, getF_mbxAnswer_status, h.st, h.cause, h.others,
        (mbxAnswer_moves rfl (h.moves.mono rfl)).only⟩
  · obtain ⟨t, e, h⟩ := mbxLoopReleaseSt_of_clear hc hst
    refine goesOnWith_of_next rfl ?_
    rw [whenB_of_true (by rw [hman, hclear, Bool.not_false, Bool.true_and]; exact decide_eq_true hdue), e]
    exact ⟨h.st, h.cause, getF_mbxAnswer_status⟩
  · obtain ⟨t, e, h⟩ := mbxLoopReleaseSt_of_clear hc hst
    refine goesOnWith_of_next rfl ?_
    rw [loopReleaseCmdSt, whenB_of_true hman, e]
    exact ⟨h.st, h.cause, getF_mbxAnswer_status⟩
  · exact congrArg Host.Outcome.next (whenB_of_false hman)
  · exact goesOnWith_of_next rfl ⟨getF_logEvent_setF rfl hkLoopStatusOpen_addr_ne, logEvent_entries_ne, logged_flag_only⟩
  · refine goesOnWith_of_next rfl ?_
    rw [whenB_of_true (by simp [isSet, hopen])]
    exact ⟨getF_logEvent_setF rfl hkLoopStatusOpen_addr_ne, logEvent_entries_ne, logged_flag_only⟩
  · refine goesOnWith_of_next rfl ?_
    have hw (f : Fld) (a : Nat) (ha : a ≠ f.addr) : regGet (setF s f 0) a = regGet s a :=
      setF_writes (A := [f.addr]) (by simp) (.refl _ s) a (by simpa using ha)
    have honly (f : Fld) : changesOnly [.regs] s (setF s f 0) := (setF_moves rfl (.refl _ s)).only
    cases b with
    | true => exact ⟨getF_setF s (hkLoopStatusOpen n.val) 0 rfl, hw (hkLoopStatusOpen n.val), honly _⟩
    | false => exact ⟨getF_setF s (hkLoopStatusDeviating n.val) 0 rfl, hw (hkLoopStatusDeviating n.val), honly _⟩

end

end Sys2Proof.Laws
end


section
/-! SUPPORT. LIFECYCLE tokens and the entry of RETURN (R46 to R49): how a token is judged, and what a granted one programs. -/

namespace Sys2Proof.Laws
open Sys2Proof Sys2Proof.Machine Sys2Proof.Safety

section
variable {s : State} {x : Nat} {ws : List Word} {tk : Token} {P : State → Prop}

/-! ### The token that stands in management SRAM -/

/-- The state with the token where Fieldbook has put it. -/
def withToken (s : State) (x : Nat) (ws : List Word) : State := putSram s (5 * (x % 2 ^ 20)) (packWords ws)

theorem lifecycleReq_group (x : Nat) : (BitVec.ofNat 10 (x % 1024)).toNat + 1024 * (BitVec.ofNat 10 (x / 1024)).toNat = x % 2 ^ 20 := by
  rw [BitVec.toNat_ofNat, BitVec.toNat_ofNat]
  omega

/-- R43, R46: the request names the token that `tokenSeen` reads. -/
theorem mbxServe_lifecycle (s : State) (x : Nat) (ws : List Word) :
    mbxServe (withToken s x ws) (mbxReqOf 11 (x % 1024) (x / 1024) ws.length)
      = mbxLifecycleSt (tokenSeen s x ws) (withToken s x ws) := by
  have e : mbxServe (withToken s x ws) (mbxReqOf 11 (x % 1024) (x / 1024) ws.length)
      = mbxLifecycleSt (readToken (sramWords (withToken s x ws)
          (5 * ((BitVec.ofNat 10 (x % 1024)).toNat + 1024 * (BitVec.ofNat 10 (x / 1024)).toNat)) (BitVec.ofNat 10 ws.length).toNat))
        (withToken s x ws) := rfl
  rw [e, lifecycleReq_group, BitVec.toNat_ofNat]
  rfl

/-- R42, R46: LIFECYCLE with no other request waiting judges the token it has put into SRAM. -/
theorem goesOnWith_lifecycle (hq : s.keeper.mbx = []) (hk : keeperRuns s = true)
    (h : P (mbxLifecycleSt (tokenSeen s x ws) (withToken s x ws))) : goesOnWith (exec (.mbxLifecycle x ws) s) P := by
  have hq' : (withToken s x ws).keeper.mbx = [] := hq
  have e : mbxServe (withQueue (withToken s x ws) []) (mbxReqOf 11 (x % 1024) (x / 1024) ws.length)
      = mbxLifecycleSt (tokenSeen s x ws) (withToken s x ws) := by rw [withQueue_self hq', mbxServe_lifecycle]
  have hnone : (mbxLifecycleSt (tokenSeen s x ws) (withToken s x ws)).keeper.mbx = [] :=
    KeepsQueue.leavesNone mbxLifecycleSt_keepsQueue hq'
  refine goesOnWith_of_next (t := mbxSend (withToken s x ws) 11 (x % 1024) (x / 1024) ws.length) rfl ?_
  rw [mbxSend_alone hq' (by rw [e]; exact hnone), e, if_pos (show keeperRuns (withToken s x ws) = true from hk)]
  exact h

theorem lifecycle_withToken : lifecycle (withToken s x ws) = lifecycle s := rfl

theorem bySlot_withToken : bySlot (withToken s x ws) = bySlot s := rfl

theorem keyProgrammed_withToken : keyProgrammed (withToken s x ws) = keyProgrammed s := rfl

theorem mbxRefuse_withToken_otp {code : Nat} : (mbxRefuse (withToken s x ws) code).keeper.otp = s.keeper.otp :=
  (mbxRefuse_moves rfl (putSram_moves (P := allButOtp) rfl (.refl _ s))).only.1 .otp (by decide)

/-! ### The verdict -/

theorem mbxLifecycleSt_none : mbxLifecycleSt none s = mbxAnswer s 11 mbxRefusedSignature 0 := rfl

theorem mbxLifecycleSt_otherChip (hu : tk.uid ≠ s.keeper.otp.uid) : mbxLifecycleSt (some tk) s = mbxRefuse s 11 := if_pos hu

/-- R46: a token for this chip by its order, its signer and its condition, in this order. -/
theorem mbxLifecycleSt_some {order signer cond : Bool} {next : State} (hu : tk.uid = s.keeper.otp.uid)
    (hj : tokenJudge s tk = (order, signer, cond, next)) :
    mbxLifecycleSt (some tk) s = if !order then mbxAnswer s 11 mbxRefusedState 0
      else if !signer then mbxAnswer s 11 mbxRefusedSignature 0
      else if !cond then mbxRefuse s 11 else mbxAnswer next 11 mbxGranted 0 := by
  unfold mbxLifecycleSt
  simp only [hj]
  exact if_neg (not_not.mpr hu)

theorem goesOnWith_judged {order signer cond : Bool} {next : State} (hq : s.keeper.mbx = []) (hk : keeperRuns s = true)
    (ht : tokenSeen s x ws = some tk) (hu : tk.uid = s.keeper.otp.uid)
    (hj : tokenJudge (withToken s x ws) tk = (order, signer, cond, next))
    (h : P (if !order then mbxAnswer (withToken s x ws) 11 mbxRefusedState 0
      else if !signer then mbxAnswer (withToken s x ws) 11 mbxRefusedSignature 0
      else if !cond then mbxRefuse (withToken s x ws) 11 else mbxAnswer next 11 mbxGranted 0)) :
    goesOnWith (exec (.mbxLifecycle x ws) s) P := by
  refine goesOnWith_lifecycle hq hk ?_
  rw [ht, mbxLifecycleSt_some (s := withToken s x ws) hu hj]
  exact h

/-- R46: a token that passes every check is granted, and what it asks for stands. -/
theorem goesOnWith_granted {order signer cond : Bool} {next : State} (hq : s.keeper.mbx = []) (hk : keeperRuns s = true)
    (ht : tokenSeen s x ws = some tk) (hu : tk.uid = s.keeper.otp.uid)
    (hj : tokenJudge (withToken s x ws) tk = (order, signer, cond, next)) (ho : order = true) (hs : signer = true) (hc : cond = true)
    (h : P (mbxAnswer next 11 mbxGranted 0)) : goesOnWith (exec (.mbxLifecycle x ws) s) P := by
  subst ho hs hc
  exact goesOnWith_judged hq hk ht hu hj h

theorem tokenJudge_provision (ha : tk.ask = .toState 1) :
    tokenJudge s tk = (decide (lifecycle s = 0), byVendor s tk, (List.finRange 4).any (keyProgrammed s), programLife s 1) := by
  unfold tokenJudge
  rw [ha]
  rfl

theorem tokenJudge_field (ha : tk.ask = .toState 2) :
    tokenJudge s tk = (decide (lifecycle s = 1), bySlot s tk (fun _ => true), true, programLife s 2) := by
  unfold tokenJudge
  rw [ha]
  rfl

theorem tokenJudge_return (ha : tk.ask = .toState 3) :
    tokenJudge s tk = (decide (lifecycle s < 3), byVendor s tk, true, enterReturn s) := by
  unfold tokenJudge
  rw [ha]
  rfl

theorem tokenJudge_program {n : Fin 4} {h : Nat} (ha : tk.ask = .program n h) :
    tokenJudge s tk = (true, if lifecycle s = 0 then byVendor s tk else bySlot s tk (fun _ => true), !(keyProgrammed s n),
      modOtp s (fun o => { o with keys := vset o.keys n h })) := by
  unfold tokenJudge
  rw [ha]

theorem tokenJudge_revoke {n : Fin 4} (ha : tk.ask = .revoke n) :
    tokenJudge s tk = (true, bySlot s tk (fun k => decide (k ≠ n)),
      (List.finRange 4).any (fun k => decide (k ≠ n) && integratorKey s k),
      modOtp s (fun o => { o with revoke := o.revoke ||| BitVec.ofNat 4 (2 ^ n.val) })) := by
  unfold tokenJudge
  rw [ha]

/-! ### What a granted change programs -/

theorem enterReturn_otp (s : State) : (enterReturn s).keeper.otp = (programLife s 3).keeper.otp := by
  rw [enterReturn_eq, wipeForReturn_keeper]
  have hdisarm : Moves allButOtp (programLife s 3)
      ((List.finRange 2).foldl (fun s l => disarmLine (setRearm s l false) l) (programLife s 3)) :=
    .folded (fun _ _ k => disarmLine_moves rfl (setRearm_moves rfl k)) (.refl _ _)
  exact hdisarm.only.1 .otp (by decide)

theorem mbxAnswer_otp {code status detail : Nat} : (mbxAnswer s code status detail).keeper.otp = s.keeper.otp :=
  (mbxAnswer_only (P := allButOtp) rfl).1 .otp (by decide)

theorem mbxAnswer_dram {code status detail : Nat} : (mbxAnswer s code status detail).dram = s.dram :=
  (mbxAnswer_only (P := [.regs, .keeper]) rfl).1 .dram (by decide)

theorem enterReturn_dram (s : State) : (enterReturn s).dram = [] := by rw [enterReturn_eq]; rfl

theorem revoke_bit_set (r : BitVec 4) (n : Fin 4) : (r ||| BitVec.ofNat 4 (2 ^ n.val)).getLsbD n.val = true := by
  rw [BitVec.getLsbD_or]
  have : (BitVec.ofNat 4 (2 ^ n.val)).getLsbD n.val = true := by fin_cases n <;> rfl
  rw [this, Bool.or_true]

/-- Settles O5: a token is judged by its framing and signature, the chip it names, the order, its signer and its condition;
what passes programs the change it asks for and nothing else. -/
theorem lifecycleTokens : Obligations.LifecycleTokens := by
  refine ⟨fun s x ws hq hk ht => ?_, fun s x ws tk hq hk ht hu => ?_, fun s x ws tk hq hk ht hu ha hl hv hkey => ?_,
    fun s x ws tk hq hk ht hu ha hl hs => ?_, fun s x ws tk hq hk ht hu ha hl hv => ?_,
    fun s x ws tk n h hq hk ht hu ha hl hv hkey => ?_, fun s x ws tk n h hq hk ht hu ha hkey => ?_,
    fun s x ws tk n k hq hk ht hu ha hs hkn hkey => ?_, fun s x ws tk hq hk ht hu ha hl hs => ?_⟩
  · refine goesOnWith_lifecycle hq hk ?_
    rw [ht, mbxLifecycleSt_none]
    exact ⟨getF_mbxAnswer_code, getF_mbxAnswer_status, rfl⟩
  · refine goesOnWith_lifecycle hq hk ?_
    rw [ht, mbxLifecycleSt_otherChip (s := withToken s x ws) hu]
    exact ⟨getF_mbxRefuse_status, mbxRefuse_withToken_otp⟩
  · refine goesOnWith_granted hq hk ht hu (tokenJudge_provision ha) (decide_eq_true hl) hv hkey ?_
    exact ⟨getF_mbxAnswer_status, congrArg Otp.life mbxAnswer_otp, (congrArg Otp.keys mbxAnswer_otp).trans rfl⟩
  · refine goesOnWith_granted hq hk ht hu (tokenJudge_field ha) (decide_eq_true hl) hs rfl ?_
    exact ⟨getF_mbxAnswer_status, congrArg Otp.life mbxAnswer_otp⟩
  · refine goesOnWith_granted hq hk ht hu (tokenJudge_return ha) (decide_eq_true hl) hv rfl ?_
    exact ⟨getF_mbxAnswer_status, congrArg Otp.life (mbxAnswer_otp.trans (enterReturn_otp _)), mbxAnswer_dram.trans (enterReturn_dram _)⟩
  · refine goesOnWith_granted hq hk ht hu (tokenJudge_program ha) rfl ((if_pos hl).trans hv) (congrArg not hkey) ?_
    rw [mbxAnswer_otp]
    exact ⟨getF_mbxAnswer_status, vget_vset _ _ _, fun m hm => vget_vset_ne _ _ hm.symm⟩
  · refine goesOnWith_judged hq hk ht hu (tokenJudge_program ha) ?_
    rw [keyProgrammed_withToken, hkey]
    cases (if lifecycle (withToken s x ws) = 0 then byVendor (withToken s x ws) tk
      else bySlot (withToken s x ws) tk (fun _ => true)) with
    | false => exact mbxAnswer_otp (s := withToken s x ws)
    | true => exact mbxRefuse_withToken_otp
  · have hcond : (List.finRange 4).any (fun k => decide (k ≠ n) && integratorKey s k) = true :=
      List.any_eq_true.mpr ⟨k, List.mem_finRange k, by rw [decide_eq_true hkn]; exact hkey⟩
    refine goesOnWith_granted hq hk ht hu (tokenJudge_revoke ha) rfl hs hcond ?_
    rw [mbxAnswer_otp]
    exact ⟨getF_mbxAnswer_status, revoke_bit_set _ n⟩
  · refine goesOnWith_judged hq hk ht hu (tokenJudge_field ha) ?_
    rw [lifecycle_withToken, hl, bySlot_withToken, hs]
    exact ⟨getF_mbxAnswer_status, mbxAnswer_otp (s := withToken s x ws)⟩

end

end Sys2Proof.Laws
end


section
/-! SUPPORT. Entry to RETURN (R47): both lines disarmed, the key slots revoked, DRAM zero. -/

namespace Sys2Proof.Laws
open Sys2Proof Sys2Proof.Machine Sys2Proof.Safety

section
variable {s : State}

/-! ### One line's disarming leaves the other's probe -/

theorem dacTo_otherProbe {l m : Fin 2} {limit : Nat} (h : l ≠ m) : vget (dacTo s l limit).probe m = vget s.probe m := by
  unfold dacTo
  extract_lets P
  split
  · rfl
  · split
    extract_lets r cut s1 s2
    have hmute : Moves [.regs, .log] s1 (muteSlots (muteSlots s2 l 1 r.peakMask) l 2 (r.energyMask &&& (65535 - r.peakMask % 65536))) :=
      muteSlots_moves rfl (muteSlots_moves rfl (bumpBy_moves rfl (.refl _ _)))
    exact (congrArg (vget · m) (hmute.only.1 .probe (by decide))).trans (vget_vmod_ne _ _ h)

theorem cutLine_otherProbe {l m : Fin 2} (h : l ≠ m) : vget (cutLine s l).probe m = vget s.probe m :=
  (vget_vmod_ne _ _ h).trans (dacTo_otherProbe h)

theorem apdUpdate_probe {l : Fin 2} : (apdUpdate s l).probe = s.probe :=
  (apdUpdate_moves (P := [.conv]) rfl (.refl _ s)).only.1 .probe (by decide)

theorem disarmLine_otherProbe {l m : Fin 2} (h : l ≠ m) : vget (disarmLine s l).probe m = vget s.probe m := by
  unfold disarmLine
  extract_lets s1
  rw [apdUpdate_probe, modProbe_probe, vget_vmod_ne _ _ h, setF_probe, cutLine_otherProbe h]

/-! ### A line that is off -/

/-- R99: the laser is off and ARMED is clear. -/
def lineOff (s : State) (l : Fin 2) : Prop := (vget s.probe l).laserEn = false ∧ getF s (psStatusArmed l.val) = 0

theorem psStatusArmed_fits (l : Fin 2) : Fld.fits (psStatusArmed l.val) = true := by
  match l with
  | 0 => rfl
  | 1 => rfl

theorem getF_of_regs {t : State} {f : Fld} (e : t.regs = s.regs) : getF t f = getF s f :=
  getF_of_writes ((Writes.refl [] s).of_regs e) (by simp)

theorem disarmLine_off {l : Fin 2} : lineOff (disarmLine s l) l := by
  unfold disarmLine
  extract_lets s1
  refine ⟨?_, ?_⟩
  · rw [apdUpdate_probe, modProbe_probe, vget_vmod]
  · have hregs : (apdUpdate s1 l).regs = s1.regs := (apdUpdate_moves (P := [.conv]) rfl (.refl _ s1)).only.1 .regs (by decide)
    rw [getF_of_regs hregs, getF_of_regs (modProbe_regs _ _ _), getF_setF _ _ _ (psStatusArmed_fits l), Nat.zero_mod]

/-- R99: disarming one line leaves the other as it is. -/
theorem disarmLine_off_ne {l m : Fin 2} (h : l ≠ m) (hoff : lineOff s m) : lineOff (disarmLine s l) m := by
  obtain ⟨hlaser, harmed⟩ := hoff
  refine ⟨(congrArg Probe.laserEn (disarmLine_otherProbe h)).trans hlaser, ?_⟩
  have hw : Writes [0xF008, 0x1800 + 1024 * l.val, 0x1802 + 1024 * l.val, 0x1804 + 1024 * l.val] s (disarmLine s l) :=
    disarmLine_writes (by simp) (by simp) (by simp) (by simp) (.refl _ s)
  refine (getF_of_writes hw ?_).trans harmed
  have hv : l.val ≠ m.val := fun e => h (Fin.ext e)
  have := l.isLt
  have := m.isLt
  simp only [psStatusArmed, List.mem_cons, List.not_mem_nil, or_false, not_or]
  omega

/-! ### The state after entry -/

theorem wipeForReturn_probe : (wipeForReturn s).probe = s.probe := by
  unfold wipeForReturn
  rw [modCode_probe]

theorem wipeForReturn_regs : (wipeForReturn s).regs = s.regs := by
  unfold wipeForReturn
  rw [modCode_regs]

theorem wipeForReturn_off {l : Fin 2} (h : lineOff s l) : lineOff (wipeForReturn s) l := by
  unfold lineOff
  rw [wipeForReturn_probe, getF_of_regs wipeForReturn_regs]
  exact h

theorem setRearm_off {l m : Fin 2} {on : Bool} (h : lineOff s l) : lineOff (setRearm s m on) l := by
  unfold lineOff
  rw [getF_of_regs (t := setRearm s m on) rfl]
  exact h

theorem enterReturn_off (s : State) (l : Fin 2) : lineOff (enterReturn s) l := by
  rw [enterReturn_eq]
  refine wipeForReturn_off ?_
  have e : List.finRange 2 = [0, 1] := rfl
  rw [e, List.foldl_cons, List.foldl_cons, List.foldl_nil]
  match l with
  | 0 => exact disarmLine_off_ne (l := 1) (by decide) (setRearm_off disarmLine_off)
  | 1 => exact disarmLine_off

theorem enterReturn_wiped (s : State) : (enterReturn s).code.ring = [] ∧ (enterReturn s).book.amended = []
    ∧ (enterReturn s).book.fieldCopy = [] := by
  rw [enterReturn_eq]
  exact ⟨rfl, rfl, rfl⟩

/-- R46: with its three bits programmed the state reads RETURN, whatever bits stood before. -/
theorem lifecycleOf_return (b : BitVec 9) : lifecycleOf (b ||| 0x1C0#9) = 3 := by
  have hlo : 448 ≤ (b ||| 0x1C0#9).toNat := by
    rw [BitVec.toNat_or]
    exact Nat.right_le_or
  have hhi : (b ||| 0x1C0#9).toNat < 512 := (b ||| 0x1C0#9).isLt
  unfold lifecycleOf bitsOf
  generalize (b ||| 0x1C0#9).toNat = n at hlo hhi
  simp only [Nat.reduceAdd, Nat.reduceSub, Nat.reducePow]
  exact if_pos (by omega)

theorem lifecycle_enterReturn (s : State) : lifecycle (enterReturn s) = 3 := by
  unfold lifecycle
  rw [enterReturn_otp]
  exact lifecycleOf_return _

/-- R43: what the answer to a request leaves of the rest. -/
theorem mbxAnswer_lineOff {code status detail : Nat} {l : Fin 2} (h : lineOff s l) : lineOff (mbxAnswer s code status detail) l := by
  obtain ⟨hlaser, harmed⟩ := h
  have hprobe : (mbxAnswer s code status detail).probe = s.probe := (mbxAnswer_only (P := [.regs, .keeper]) rfl).1 .probe (by decide)
  refine ⟨by rw [hprobe, hlaser], (getF_mbxAnswer_ne ?_).trans harmed⟩
  simp only [psStatusArmed]
  omega

theorem keyRevoked_of_return (h : lifecycle s = 3) (n : Fin 4) : keyRevoked s n = true := by
  unfold keyRevoked
  rw [decide_eq_true h, Bool.or_true]

/-- R47: in RETURN LASER_ARM is refused. -/
theorem laserArmSt_return {l : Fin 2} (h : lifecycle s = 3) : laserArmSt l s = mbxAnswer (setRearm s l false) 3 mbxRefusedState 0 :=
  if_pos (.inl h)

/-- Settles O58: both lines are off, every slot counts as revoked and DRAM is zero after the entry; LASER_ARM asks for the
state first. -/
theorem returnEntry : Obligations.ReturnEntry := by
  refine ⟨fun s x ws k hk hq ht ha hv hu hl => ?_, fun s l hk hq hl => ?_⟩
  · refine goesOnWith_granted hq hk ht hu (tokenJudge_return ha) (decide_eq_true hl) hv rfl ?_
    have hret : lifecycle (mbxAnswer (enterReturn (withToken s x ws)) 11 mbxGranted 0) = 3 := by
      unfold lifecycle
      rw [mbxAnswer_otp]
      exact lifecycle_enterReturn _
    have honly : changesOnly [.regs, .keeper] (enterReturn (withToken s x ws)) (mbxAnswer (enterReturn (withToken s x ws)) 11 mbxGranted 0) :=
      mbxAnswer_only rfl
    have hcode := honly.1 .code (by decide)
    have hbook := honly.1 .book (by decide)
    obtain ⟨hring, hamended, hcopy⟩ := enterReturn_wiped (withToken s x ws)
    refine ⟨hret, fun l => ?_, keyRevoked_of_return hret, fun a => ?_, (congrArg CodeSt.ring hcode).trans hring,
      (congrArg Book.amended hbook).trans hamended, (congrArg Book.fieldCopy hbook).trans hcopy,
      getF_mbxAnswer_code, getF_mbxAnswer_status⟩
    · obtain ⟨hlaser, harmed⟩ := mbxAnswer_lineOff (code := 11) (status := mbxGranted) (detail := 0) (enterReturn_off (withToken s x ws) l)
      refine ⟨hlaser, ?_⟩
      unfold isSet
      rw [harmed]
      rfl
    · rw [mbxAnswer_dram, enterReturn_dram]
      rfl
  · refine goesOnWith_served (f := laserArmSt l) (fun _ => rfl) (fun u => mbxServe_laserArm u l) hq hk ?_ ?_
    · rw [laserArmSt_return hl]
      exact hq
    · rw [laserArmSt_return hl]
      have honly : changesOnly [.regs, .keeper] s (mbxAnswer (setRearm s l false) 3 mbxRefusedState 0) :=
        (mbxAnswer_moves rfl (setRearm_moves rfl (.refl _ s))).only
      exact ⟨getF_mbxAnswer_code, getF_mbxAnswer_status, honly.1 .probe (by decide), honly⟩

end

end Sys2Proof.Laws
end


section
/-! SUPPORT. WARM resets (R439, R440, R61, R44): what counts them, what they leave, and when a COLD reset takes their place. -/

namespace Sys2Proof.Laws
open Sys2Proof Sys2Proof.Machine Sys2Proof.Safety

section
variable {z s : State}

/-- A command that goes on to `f s`, with what `f` does there. -/
theorem goesOnWith_of_step {c : Instr} {f : State → State} {t : State} {P : State → Prop} (hc : exec c s = .next (f s)) (e : f s = t)
    (h : P t) : goesOnWith (exec c s) P := goesOnWith_of_next (hc.trans (congrArg _ e)) h

/-! ### What a WARM reset leaves of the keeper -/

/-- R440: both lines disarmed, the first step of a WARM reset. -/
def warmDisarm (s : State) : State :=
  (List.finRange 2).foldl (fun s l => modProbe (disarmForEvent s l) l (fun P => { P with rephPend := false })) s

/-- R440, R445: the work under way stops. -/
def warmStop (s1 : State) : State :=
  let s2 := (List.finRange 2).foldl (fun s l => closeWindow (convStop s l true) l) s1
  let s3 := (List.finRange 2).foldl (fun s l => ramanRestart (dasRestart (clearAct s l.val (fun _ => true)) l.val (fun _ => true)) l) s2
  let s4 := (List.finRange 2).foldl (fun s l => sweepRestart (pceStop s l) l) s3
  let s5 := forEach (allStreams s4) s4 (fun s c => restartStream s c true)
  let s6 := (List.finRange 2).foldl (fun s l => clearTimers (staleLine s l 2) l) s5
  ringWarm (warmQuads (warmLinks (clearLost (tdcWarm s6))))

theorem warmReset_eq (s : State) (cause : Nat) :
    warmReset s cause = proxyAck (warmKeep (stampNow s) cause (warmStop (warmDisarm s))) := rfl

theorem warmStop_moves (h : Moves allButKeeper z s) : Moves allButKeeper z (warmStop s) := by
  unfold warmStop
  extract_lets s2 s3 s4 s5 s6
  have h2 : Moves allButKeeper z s2 := .folded (fun _ _ k => closeWindow_moves rfl (convStop_moves rfl k)) h
  have h3 : Moves allButKeeper z s3 :=
    .folded (fun _ _ k => ramanRestart_moves rfl (dasRestart_moves rfl (clearAct_moves rfl k))) h2
  have h4 : Moves allButKeeper z s4 := .folded (fun _ _ k => sweepRestart_moves rfl (pceStop_moves rfl k)) h3
  have h5 : Moves allButKeeper z s5 := .forEach (fun _ _ k => restartStream_moves rfl k) h4
  have h6 : Moves allButKeeper z s6 := .folded (fun _ _ k => clearTimers_moves rfl (staleLine_moves rfl k)) h5
  exact ringWarm_moves rfl (warmQuads_moves rfl (warmLinks_moves rfl (clearLost_moves rfl (tdcWarm_moves rfl h6))))

theorem disarmForEvent_warmTimes {l : Fin 2} : (disarmForEvent s l).keeper.warmTimes = s.keeper.warmTimes := by
  unfold disarmForEvent
  extract_lets was
  have hk (u : State) : (disarmLine u l).keeper = u.keeper :=
    (disarmLine_moves (P := allButKeeper) rfl (.refl _ u)).only.1 .keeper (by decide)
  rw [hk]
  split <;> rfl

/-- R444: disarming the lines changes nothing of the count of WARM resets. -/
theorem warmDisarm_warmTimes : (warmDisarm s).keeper.warmTimes = s.keeper.warmTimes := by
  have e : List.finRange 2 = [0, 1] := rfl
  unfold warmDisarm
  rw [e, List.foldl_cons, List.foldl_cons, List.foldl_nil, modProbe_keeper, disarmForEvent_warmTimes, modProbe_keeper,
    disarmForEvent_warmTimes]

theorem warmStop_keeper : (warmStop s).keeper = s.keeper := (warmStop_moves (.refl _ s)).only.1 .keeper (by decide)

/-- R440, R455: the record of a WARM reset. -/
theorem warmReset_record (s : State) (cause : Nat) : (warmReset s cause).keeper.resetKind = 2
    ∧ (warmReset s cause).keeper.resetCause = cause ∧ (warmReset s cause).keeper.warm = true := by
  rw [warmReset_eq]
  exact ⟨rfl, rfl, rfl⟩

/-- R439: a WARM reset is counted. -/
theorem warmReset_warmTimes (s : State) (cause : Nat) :
    (warmReset s cause).keeper.warmTimes = s.keeper.warmTimes ++ [stampNow s] := by
  rw [warmReset_eq]
  have e : (proxyAck (warmKeep (stampNow s) cause (warmStop (warmDisarm s)))).keeper.warmTimes
      = (warmStop (warmDisarm s)).keeper.warmTimes ++ [stampNow s] := rfl
  rw [e, warmStop_keeper, warmDisarm_warmTimes]

theorem warmReset_otp (s : State) (cause : Nat) : (warmReset s cause).keeper.otp = s.keeper.otp :=
  (warmReset_moves (P := allButOtp) rfl (.refl _ s)).only.1 .otp (by decide)

theorem warmReset_resetReq (s : State) (cause : Nat) : (warmReset s cause).book.resetReq = none := by
  rw [warmReset_eq]
  rfl

/-! ### The escalation -/

/-- R439: the count holds the WARM resets of the last 600 s alone. -/
def forgetOldWarm (s : State) : State := { s with keeper := { s.keeper with warmTimes := recentWarm s } }

theorem forgetOldWarm_otp : (forgetOldWarm s).keeper.otp = s.keeper.otp := rfl

theorem forgetOldWarm_warmTimes : (forgetOldWarm s).keeper.warmTimes = recentWarm s := rfl

theorem warmCause_room {cause : Nat} (h : (recentWarm s).length < (resetPolicy s).1) :
    warmCause s cause = warmReset (forgetOldWarm s) cause := if_neg (Nat.not_le.mpr h)

theorem warmCause_full {cause : Nat} (h : (resetPolicy s).1 ≤ (recentWarm s).length) :
    warmCause s cause = coldReset (forgetOldWarm s) 9 := if_pos h

/-- R439, R454: counts and policy read the keeper, the plan and the time alone. -/
theorem recentWarm_of_only {t : State} {P : List Part} (m : changesOnly P s t) (hk : Part.keeper ∉ P) (hn : Part.now ∉ P) :
    recentWarm t = recentWarm s := by
  have ek : t.keeper = s.keeper := m.1 .keeper hk
  have en : t.now = s.now := m.1 .now hn
  unfold recentWarm stampNow
  rw [ek, en]

theorem resetPolicy_of_only {t : State} {P : List Part} (m : changesOnly P s t) (hc : Part.cfg ∉ P) (hb : Part.book ∉ P) :
    resetPolicy t = resetPolicy s := by
  have ec : t.cfg = s.cfg := m.1 .cfg hc
  have eb : t.book = s.book := m.1 .book hb
  unfold resetPolicy planRec recOf recsOf
  rw [ec, eb]

/-! ### RESET WARM -/

theorem mbxServe_resetWarm (u : State) : mbxServe u (mbxReqOf 5 0 0 0) = mbxWarmSt false u := rfl

theorem mbxWarmSt_granted {host : Bool} (hp : bootPhase s ≠ 15) :
    mbxWarmSt host s = warmCause (mbxAnswer s 5 mbxGranted 0) (askCause host) := if_neg hp

theorem mbxWarmSt_refused {host : Bool} (hp : bootPhase s = 15) : mbxWarmSt host s = mbxAnswer s 5 mbxRefusedState 0 := if_pos hp

theorem recentWarm_mbxAnswer {code status detail : Nat} : recentWarm (mbxAnswer s code status detail) = recentWarm s := rfl

theorem resetPolicy_mbxAnswer {code status detail : Nat} : resetPolicy (mbxAnswer s code status detail) = resetPolicy s :=
  resetPolicy_of_only (mbxAnswer_only (P := [.regs, .keeper]) rfl) (by decide) (by decide)

theorem mbxWarmSt_room {host : Bool} (hp : bootPhase s ≠ 15) (h : (recentWarm s).length < (resetPolicy s).1) :
    mbxWarmSt host s = warmReset (forgetOldWarm (mbxAnswer s 5 mbxGranted 0)) (askCause host) := by
  rw [mbxWarmSt_granted hp, warmCause_room]
  rw [recentWarm_mbxAnswer, resetPolicy_mbxAnswer]
  exact h

theorem mbxWarmSt_full {host : Bool} (hp : bootPhase s ≠ 15) (h : (resetPolicy s).1 ≤ (recentWarm s).length) :
    mbxWarmSt host s = coldReset (forgetOldWarm (mbxAnswer s 5 mbxGranted 0)) 9 := by
  rw [mbxWarmSt_granted hp, warmCause_full]
  rw [recentWarm_mbxAnswer, resetPolicy_mbxAnswer]
  exact h

/-! ### The watchdog -/

/-- R44: the third missed heartbeat is counted and logged before the reset. -/
def watchdogLogged (s : State) : State :=
  logEvent (bump s bmWdogWdogResets) 0x012 islBenchmark 2 0 (getF (bump s bmWdogWdogResets) bmWdogWdogResets)

theorem watchdogLogged_only (s : State) : changesOnly [.regs, .log] s (watchdogLogged s) :=
  (logEvent_moves rfl (bump_moves rfl (.refl _ s))).only

theorem watchdogSt_early (hr : coresRun s = true) (hm : getF s bmWdogMissed < 2) :
    watchdogSt s = setF s bmWdogMissed (getF s bmWdogMissed + 1) := by
  unfold watchdogSt
  rw [if_pos hr]
  exact if_pos hm

theorem watchdogSt_third (hr : coresRun s = true) (hm : 2 ≤ getF s bmWdogMissed) :
    watchdogSt s = warmCause (watchdogLogged s) 4 := by
  unfold watchdogSt
  rw [if_pos hr]
  exact if_neg (Nat.not_lt.mpr hm)

/-! ### The hash check -/

theorem warmHashSt_match (hw : s.keeper.warm = true) (hp : bootPhase s < 4) (hh : hashesMatch s = true) (hs : inStandby s = false) :
    warmHashSt s = setF { s with mem := { s.mem with selfRefresh := false } } bmStateBootPhase 4 := by
  have hdue : (s.keeper.warm && decide (bootPhase s < 4)) = true := by rw [hw, decide_eq_true hp]; rfl
  unfold warmHashSt
  rw [if_pos hdue, if_pos hh, hs]
  rfl

theorem warmHashSt_differs (hw : s.keeper.warm = true) (hp : bootPhase s < 4) (hh : hashesMatch s = false) :
    warmHashSt s = hashFail s := by
  have hdue : (s.keeper.warm && decide (bootPhase s < 4)) = true := by rw [hw, decide_eq_true hp]; rfl
  unfold warmHashSt
  rw [if_pos hdue, hh]
  rfl

theorem hashesMatch_of_field (h : s.keeper.hashField ≠ some (fieldDigest s)) : hashesMatch s = false :=
  decide_eq_false fun k => h k.1

/-- R468, R469: the first entry of an empty log follows its TIME_MARK. -/
theorem logEvent_empty_length {code island sev unit_ arg : Nat} (he : s.log.entries = []) (hl : s.log.lastSec = none) :
    (logEvent s code island sev unit_ arg).log.entries.length = 2 := by
  simp [logEvent, logAt, logPush, he, hl]

/-- R61: WARM_HASH_FAIL stands with its TIME_MARK in the log a COLD reset has emptied. -/
theorem hashFail_record (s : State) : (hashFail s).keeper.resetKind = 1 ∧ (hashFail s).keeper.resetCause = 8 ∧ (hashFail s).dram = []
    ∧ (hashFail s).log.entries.length = 2 := by
  unfold hashFail
  extract_lets which
  have hlog : changesOnly [.regs, .log] (coldReset s 8) (logEvent (coldReset s 8) 0x011 islBenchmark 2 0 which) :=
    (logEvent_moves rfl (.refl _ _)).only
  have hkeeper := hlog.1 .keeper (by decide)
  exact ⟨congrArg Keeper.resetKind hkeeper, congrArg Keeper.resetCause hkeeper, hlog.1 .dram (by decide), logEvent_empty_length rfl rfl⟩

/-! ### RESET_CMD -/

/-- R443: the request of a RESET_CMD is taken. -/
def takeResetReq (s : State) : State := { s with book := { s.book with resetReq := none } }

theorem resetCmdSt_cold {l : Nat} (h : s.book.resetReq = some (1, l)) : resetCmdSt s = mbxColdSt true (takeResetReq s) := by
  unfold resetCmdSt
  rw [h]
  rfl

theorem resetCmdSt_warm {l : Nat} (h : s.book.resetReq = some (0, l)) : resetCmdSt s = mbxWarmSt true (takeResetReq s) := by
  unfold resetCmdSt
  rw [h]
  rfl

/-- Settles O7: a WARM cause makes a WARM reset or, where the count is full, a COLD one; each clause is the record that reset
leaves. -/
theorem warmResets : Obligations.WarmResets := by
  refine ⟨fun s hq hk hp hroom => ?_, fun s hq hk hp hfull => ?_, fun s hq hk hp => ?_, fun s hr hm => ?_, fun s hr hm hroom => ?_,
    fun s hw hp hh hs => ?_, fun s hw hp hh => ?_, fun s l h => ?_, fun s l h hp hroom => ?_⟩
  · refine goesOnWith_served (fun _ => rfl) mbxServe_resetWarm hq hk (mbxWarmSt_leavesNone hq) ?_
    rw [mbxWarmSt_room hp hroom]
    obtain ⟨hkind, hcause, hwarm⟩ := warmReset_record (forgetOldWarm (mbxAnswer s 5 mbxGranted 0)) (askCause false)
    refine ⟨hkind, hcause, hwarm, ?_, ?_⟩
    · rw [warmReset_warmTimes, List.length_append, forgetOldWarm_warmTimes, recentWarm_mbxAnswer, List.length_singleton]
    · rw [warmReset_otp, forgetOldWarm_otp, mbxAnswer_otp]
  · refine goesOnWith_served (fun _ => rfl) mbxServe_resetWarm hq hk (mbxWarmSt_leavesNone hq) ?_
    rw [mbxWarmSt_full hp hfull]
    exact ⟨rfl, rfl, rfl, rfl⟩
  · refine goesOnWith_served (fun _ => rfl) mbxServe_resetWarm hq hk (mbxWarmSt_leavesNone hq) ?_
    rw [mbxWarmSt_refused hp]
    exact ⟨getF_mbxAnswer_code, getF_mbxAnswer_status, mbxAnswer_only rfl⟩
  · refine goesOnWith_of_step (f := watchdogSt) rfl (watchdogSt_early hr hm) ⟨?_, fun a ha => ?_, (setF_moves rfl (.refl _ s)).only⟩
    · rw [getF_setF _ _ _ rfl]
      exact Nat.mod_eq_of_lt (Nat.lt_of_lt_of_le (Nat.succ_lt_succ hm) (by decide))
    · exact setF_writes (A := [bmWdogMissed.addr]) (by simp) (.refl _ s) a (by simpa using ha)
  · have hroom' : (recentWarm (watchdogLogged s)).length < (resetPolicy (watchdogLogged s)).1 := by
      rw [recentWarm_of_only (watchdogLogged_only s) (by decide) (by decide),
        resetPolicy_of_only (watchdogLogged_only s) (by decide) (by decide)]
      exact hroom
    refine goesOnWith_of_step (f := watchdogSt) rfl ((watchdogSt_third hr hm).trans (warmCause_room hroom')) ?_
    exact warmReset_record _ 4
  · exact goesOnWith_of_step (f := warmHashSt) rfl (warmHashSt_match hw hp hh hs) ⟨getF_setF _ _ _ rfl, rfl, rfl⟩
  · exact goesOnWith_of_step (f := warmHashSt) rfl (warmHashSt_differs hw hp (hashesMatch_of_field hh)) (hashFail_record s)
  · exact goesOnWith_of_step (f := resetCmdSt) rfl (resetCmdSt_cold h) ⟨rfl, rfl, rfl⟩
  · have hphase : bootPhase (takeResetReq s) ≠ 15 := hp
    refine goesOnWith_of_step (f := resetCmdSt) rfl ((resetCmdSt_warm h).trans (mbxWarmSt_room hphase hroom)) ?_
    obtain ⟨hkind, hcause, -⟩ := warmReset_record (forgetOldWarm (mbxAnswer (takeResetReq s) 5 mbxGranted 0)) (askCause true)
    exact ⟨hkind, hcause, warmReset_resetReq _ _⟩

end

end Sys2Proof.Laws
end


section
/-! SUPPORT. The boot (R51 to R58, R240): clocks and flash, verification of the two slots, and the phases up to the final lock. -/

namespace Sys2Proof.Laws
open Sys2Proof Sys2Proof.Machine Sys2Proof.Safety

section
variable {z s t : State}

/-! ### The first phases -/

/-- R58, R450: the keeper's record of the read of OTP, with the reference both clocks take. -/
def otpReadClocks (s : State) : State :=
  let ref : ClkRef := if s.keeper.refPresent then .refclk else if s.keeper.altPresent then .alt else .none_
  modKeeper (modBoot s (fun b => { b with otpRead := true })) (fun k =>
    { k with scsRef := ref, coreRef := ref, scsLock := decide (ref ≠ .none_), scsStopped := decide (ref = .none_) })

theorem otpReadSt_due (hw : s.keeper.pwrgood = true) (hr : s.keeper.resetN = true) (hwarm : s.keeper.warm = false)
    (hp : bootPhase s = 0) (ho : s.keeper.boot.otpRead = false) : otpReadSt s = startAllCals (timeRefs (otpReadClocks s)) := by
  have hdue : (keeperRuns s && !s.keeper.warm && decide (bootPhase s = 0) && !s.keeper.boot.otpRead) = true := by
    unfold keeperRuns
    rw [hw, hr, hwarm, ho, decide_eq_true hp]
    rfl
  exact if_pos hdue

theorem otpReadSt_keeper (s : State) : (startAllCals (timeRefs (otpReadClocks s))).keeper = (otpReadClocks s).keeper :=
  (startAllCals_moves (P := allButKeeper) rfl (timeRefs_moves rfl (.refl _ (otpReadClocks s)))).only.1 .keeper (by decide)

theorem otpReadClocks_reference (h : s.keeper.refPresent = true) : (otpReadClocks s).keeper.scsRef = .refclk
    ∧ (otpReadClocks s).keeper.coreRef = .refclk ∧ (otpReadClocks s).keeper.scsLock = true := by
  unfold otpReadClocks
  rw [if_pos h]
  exact ⟨rfl, rfl, rfl⟩

theorem xspiInitSt_due {sfdp : Option (Nat × Nat)} (ho : s.keeper.boot.otpRead = true) (hwarm : s.keeper.warm = false)
    (hp : bootPhase s = 0) : xspiInitSt sfdp s
      = setF (modBoot { s with mgmt := { s.mgmt with flashBus := xspiReset } } (fun b => { b with octal := sfdp })) bmStateBootPhase 1 := by
  have hdue : (s.keeper.boot.otpRead && !s.keeper.warm && decide (bootPhase s = 0)) = true := by
    rw [ho, hwarm, decide_eq_true hp]
    rfl
  exact if_pos hdue

/-- R51: the read command has gone out, and the sections count as staged. -/
def stagingRead (s : State) : State :=
  modBoot { s with mgmt := { s.mgmt with flashBus := [readOpcode s] } } (fun b => { b with staged := true })

theorem stageSlot_staged {a : Nat} {h : SlotHeader} : (stageSlot s a h).keeper.boot.staged = s.keeper.boot.staged := rfl

theorem stageSlot_flashBus {a : Nat} {h : SlotHeader} : (stageSlot s a h).mgmt.flashBus = s.mgmt.flashBus := rfl

theorem stagingRead_only (s : State) : Moves [.keeper, .mgmt] s (stagingRead s) :=
  .setKeeper rfl rfl (.setMgmt rfl rfl rfl (.refl _ s))

/-- R55: with or without a slot that fits, the read command has gone out and the staging has ended. -/
theorem stagingSt_cases (hp : bootPhase s = 1) : stagingSt s = stagingRead s ∨ ∃ a h, stagingSt s = stageSlot (stagingRead s) a h := by
  unfold stagingSt
  rw [if_pos hp]
  extract_lets s1
  split
  · exact .inl rfl
  · next a _ _ =>
    extract_lets h
    split
    · exact .inr ⟨_, _, rfl⟩
    · exact .inl rfl

/-- Settles O1: each phase's step is taken as its conditions hold, and its record reads off. -/
theorem bootFirstPhases : Obligations.BootFirstPhases := by
  refine ⟨fun s hw hr hwarm hp ho => ?_, fun s sfdp ho hwarm hp => ?_, fun s hp => ?_⟩
  · refine goesOnWith_of_step (f := otpReadSt) rfl (otpReadSt_due hw hr hwarm hp ho) ?_
    rw [otpReadSt_keeper]
    exact ⟨rfl, otpReadClocks_reference, rfl⟩
  · refine goesOnWith_of_step (f := xspiInitSt sfdp) rfl (xspiInitSt_due ho hwarm hp) ⟨getF_setF _ _ _ rfl, rfl, rfl, fun a ha => ?_⟩
    exact setF_writes (A := [bmStateBootPhase.addr]) (by simp) ((Writes.refl _ s).of_regs rfl) a (by simpa using ha)
  · refine goesOnWith_of_next (t := stagingSt s) rfl ?_
    rcases stagingSt_cases hp with e | ⟨a, h, e⟩
    · rw [e]
      exact ⟨rfl, rfl, (stagingRead_only s).only⟩
    · rw [e, stageSlot_staged, stageSlot_flashBus]
      exact ⟨rfl, rfl, (stageSlot_moves rfl (stagingRead_only s)).only⟩

/-! ### What a slot holds is in the flash -/

theorem headerAt_of_mgmt {a : Nat} (e : t.mgmt = s.mgmt) : headerAt t a = headerAt s a := by
  unfold headerAt flashWords flashByte
  rw [e]

theorem sectionAt_of_mgmt {a i : Nat} {h : SlotHeader} (e : t.mgmt = s.mgmt) : sectionAt t a h i = sectionAt s a h i := by
  unfold sectionAt flashWords flashByte
  rw [e]

theorem planAt_of_mgmt {a : Nat} {h : SlotHeader} (e : t.mgmt = s.mgmt) : planAt t a h = planAt s a h := by
  unfold planAt
  rw [sectionAt_of_mgmt e]

/-! ### A slot is booted -/

/-- R57, R58: BM_STATE and MG_IMAGE_SEQ of a slot that is booted. -/
def bootRegs (s : State) (n a : Nat) (alt : Bool) : State :=
  setF (setF (setF (setF s bmStateBootSlot n) bmStateAltBoot (b2n alt)) mgImageSeq (headerAt s a).seq) bmStateBootPhase 2

theorem bootSlot_regs {n a : Nat} {alt : Bool} : (bootSlot s n a alt).regs = (bootRegs s n a alt).regs := rfl

theorem bootSlot_phase {n a : Nat} {alt : Bool} : bootPhase (bootSlot s n a alt) = 2 :=
  (getF_of_regs bootSlot_regs).trans (getF_setF _ _ _ rfl)

theorem bootSlot_slot {n a : Nat} {alt : Bool} : getF (bootSlot s n a alt) bmStateBootSlot = n % 4 := by
  rw [getF_of_regs bootSlot_regs]
  unfold bootRegs
  rw [getF_setF_apart _ bmStateBootPhase bmStateBootSlot _ rfl rfl rfl (by decide), getF_setF_ne _ _ _ _ (by decide),
    getF_setF_apart _ bmStateAltBoot bmStateBootSlot _ rfl rfl rfl (by decide)]
  exact getF_setF _ _ _ rfl

theorem bootSlot_alt {n a : Nat} {alt : Bool} : getF (bootSlot s n a alt) bmStateAltBoot = b2n alt := by
  rw [getF_of_regs bootSlot_regs]
  unfold bootRegs
  rw [getF_setF_apart _ bmStateBootPhase bmStateAltBoot _ rfl rfl rfl (by decide), getF_setF_ne _ _ _ _ (by decide)]
  cases alt <;> exact getF_setF _ _ _ rfl

/-- R57: booting a slot leaves the codes recorded. -/
theorem bootSlot_bootErr {n a : Nat} {alt : Bool} {f : Fld} (hf : f.addr = 0x401) : getF (bootSlot s n a alt) f = getF s f := by
  rw [getF_of_regs bootSlot_regs]
  unfold bootRegs
  rw [getF_setF_ne _ _ _ _ (by rw [hf]; decide), getF_setF_ne _ _ _ _ (by rw [hf]; decide),
    getF_setF_ne _ _ _ _ (by rw [hf]; decide), getF_setF_ne _ _ _ _ (by rw [hf]; decide)]

theorem bootSlot_verified {n a : Nat} {alt : Bool} : (bootSlot s n a alt).keeper.boot.verified = true := rfl

theorem bootSlot_secVersion {n a : Nat} {alt : Bool} : (bootSlot s n a alt).keeper.boot.secVersion
    = (manifestOf (sectionAt s a (headerAt s a) 0)).secVersion := rfl

theorem bootSlot_plan {n a : Nat} {alt : Bool} : (bootSlot s n a alt).book.plan = (planAt s a (headerAt s a)).1 := rfl

/-! ### The code of a slot -/

theorem slotCode_unread (s : State) (x : Nat) : slotCode s x false = 0x00B := rfl

theorem slotCode_badHeader {x : Nat} (h : (headerAt s x).ok = false) : slotCode s x true = 0x001 := by
  unfold slotCode
  extract_lets hd life field m cert plan
  have hok : (!hd.ok) = true := by rw [show hd.ok = false from h]; rfl
  rw [if_neg (by decide), if_pos hok]

theorem code_ite_lt {c : Prop} [Decidable c] {m n : Nat} (hm : m < 1024) (hn : n < 1024) : (if c then m else n) < 1024 := by
  split <;> assumption

/-- R81: every code fits its field. -/
theorem slotCode_lt (s : State) (x : Nat) (read : Bool) : slotCode s x read < 1024 := by
  unfold slotCode
  extract_lets hd life field m cert plan
  iterate 12 refine code_ite_lt (by decide) ?_
  decide

/-! ### The order of the two slots -/

/-- R56, R57: slot A is tried first, then slot B. -/
theorem verifySt_aFirst {a b : Bool} {x y : Nat} (hp : bootPhase s = 1) (hs : s.keeper.boot.staged = true)
    (hd : directory s = some (x, y)) (hb : bFirst (headerAt s x).seq (headerAt s y).seq = false) :
    verifySt a b s = if slotCode s x a = 0 then bootSlot (setF s bmBootErrErrA (slotCode s x a)) 1 x false
      else if slotCode s y b = 0 then
        bootSlot (setF (setF s bmBootErrErrA (slotCode s x a)) bmBootErrErrB (slotCode s y b)) 2 y true
      else enterRecovery (setF (setF s bmBootErrErrA (slotCode s x a)) bmBootErrErrB (slotCode s y b)) := by
  unfold verifySt
  rw [if_pos ⟨hp, hs⟩, hd]
  exact if_neg (by rw [show bFirst _ _ = false from hb]; decide)

/-- R56, R57: slot B is tried first, then slot A. -/
theorem verifySt_bFirst {a b : Bool} {x y : Nat} (hp : bootPhase s = 1) (hs : s.keeper.boot.staged = true)
    (hd : directory s = some (x, y)) (hb : bFirst (headerAt s x).seq (headerAt s y).seq = true) :
    verifySt a b s = if slotCode s y b = 0 then bootSlot (setF s bmBootErrErrB (slotCode s y b)) 2 y false
      else if slotCode s x a = 0 then
        bootSlot (setF (setF s bmBootErrErrB (slotCode s y b)) bmBootErrErrA (slotCode s x a)) 1 x true
      else enterRecovery (setF (setF s bmBootErrErrB (slotCode s y b)) bmBootErrErrA (slotCode s x a)) := by
  unfold verifySt
  rw [if_pos ⟨hp, hs⟩, hd]
  exact if_pos hb

/-- Settles O2: the slot tried first is booted where its code is 0; else its code stands and the other one is booted. -/
theorem imageVerification : Obligations.ImageVerification := by
  refine ⟨fun s a b x y hp hs hd hb hx => ?_, fun s a b x y hp hs hd hb hx hy => ?_, fun s a b x y hp hs hd hb hy => ?_,
    slotCode_unread, fun s x h => slotCode_badHeader h⟩
  · have e : verifySt a b s = bootSlot (setF s bmBootErrErrA (slotCode s x a)) 1 x false :=
      (verifySt_aFirst hp hs hd hb).trans (if_pos hx)
    have hm : (setF s bmBootErrErrA (slotCode s x a)).mgmt = s.mgmt := rfl
    refine goesOnWith_of_step (f := verifySt a b) rfl e ⟨bootSlot_phase, bootSlot_slot, bootSlot_alt, ?_, bootSlot_verified, ?_, ?_⟩
    · rw [bootSlot_bootErr rfl, getF_setF _ _ _ rfl, hx]
      rfl
    · rw [bootSlot_secVersion, headerAt_of_mgmt hm, sectionAt_of_mgmt hm]
    · rw [bootSlot_plan, headerAt_of_mgmt hm, planAt_of_mgmt hm]
  · have e : verifySt a b s = bootSlot (setF (setF s bmBootErrErrA (slotCode s x a)) bmBootErrErrB (slotCode s y b)) 2 y true :=
      (verifySt_aFirst hp hs hd hb).trans ((if_neg hx).trans (if_pos hy))
    have hm : (setF (setF s bmBootErrErrA (slotCode s x a)) bmBootErrErrB (slotCode s y b)).mgmt = s.mgmt := rfl
    refine goesOnWith_of_step (f := verifySt a b) rfl e ⟨bootSlot_phase, bootSlot_slot, bootSlot_alt, ?_, ?_, ?_⟩
    · rw [bootSlot_bootErr rfl, getF_setF_apart _ bmBootErrErrB bmBootErrErrA _ rfl rfl rfl (by decide), getF_setF _ _ _ rfl]
      exact Nat.mod_eq_of_lt (slotCode_lt s x a)
    · rw [bootSlot_secVersion, headerAt_of_mgmt hm, sectionAt_of_mgmt hm]
    · rw [bootSlot_plan, headerAt_of_mgmt hm, planAt_of_mgmt hm]
  · have e : verifySt a b s = bootSlot (setF s bmBootErrErrB (slotCode s y b)) 2 y false :=
      (verifySt_bFirst hp hs hd hb).trans (if_pos hy)
    have hm : (setF s bmBootErrErrB (slotCode s y b)).mgmt = s.mgmt := rfl
    refine goesOnWith_of_step (f := verifySt a b) rfl e ⟨bootSlot_phase, bootSlot_slot, bootSlot_alt, ?_, ?_⟩
    · rw [bootSlot_bootErr rfl, getF_setF _ _ _ rfl, hy]
      rfl
    · rw [bootSlot_plan, headerAt_of_mgmt hm, planAt_of_mgmt hm]

end

end Sys2Proof.Laws
end


section
/-! SUPPORT. The later boot phases (R57, R58, R240): stage 1 and 2, self-tests, the plan and the final lock. -/

namespace Sys2Proof.Laws
open Sys2Proof Sys2Proof.Machine Sys2Proof.Safety

section
variable {z s t : State}

/-! ### Stage 1 -/

/-- R58: stage 1 stands in SRAM and runs. -/
def stage1Runs (s : State) (src : List Word) : State :=
  setF (setF (putSram s stage1Base (packWords src)) bmStateBootPhase 3) bmWdogMissed 0

theorem stage1St_runs {src rest : List Word} (hp : bootPhase s = 2) (hc : s.keeper.coreRef ≠ .none_)
    (hd : decompress (stagedSection s 1).length s.keeper.boot.stage1Len (stagedSection s 1) = some (src, rest)) :
    stage1St s = startBootTraining (stage1Runs s src) := by
  unfold stage1St
  rw [if_pos ⟨hp, hc⟩]
  simp only [hd]
  rfl

theorem startBootTraining_regs : (startBootTraining s).regs = s.regs := rfl

theorem stage1Runs_missed {src : List Word} : getF (stage1Runs s src) bmWdogMissed = 0 := getF_setF _ _ _ rfl

theorem stage1Runs_phase {src : List Word} : bootPhase (stage1Runs s src) = 3 :=
  (getF_setF_ne _ _ _ _ (by decide)).trans (getF_setF _ _ _ rfl)

/-! ### Full calibration of both lines -/

/-- Full calibration runs on the same lines in both states. -/
def sameFullCal (z s : State) : Prop := ∀ m : Fin 2, (vget s.conv m).fullCal = (vget z.conv m).fullCal

theorem sameFullCal.keep (h : sameFullCal z s) (e : t.conv = s.conv) : sameFullCal z t := by
  unfold sameFullCal
  rw [e]
  exact h

theorem sameFullCal.modConv {l : Fin 2} {f : Conv → Conv} (h : sameFullCal z s) (hf : ∀ C, (f C).fullCal = C.fullCal) :
    sameFullCal z (Machine.modConv s l f) := by
  intro m
  rw [modConv_conv]
  by_cases e : l = m
  · subst e
    rw [vget_vmod, hf]
    exact h l
  · rw [vget_vmod_ne _ _ e]
    exact h m

theorem sameFullCal.openSpan {l : Fin 2} {why : MarkWhy} {mask : Nat} (h : sameFullCal z s) :
    sameFullCal z (Machine.openSpan s l why mask) := by
  unfold Machine.openSpan
  split
  · exact h
  · exact h.modConv fun _ => rfl

theorem sameFullCal.closeSpan {l : Fin 2} {why : MarkWhy} {mask : Nat} (h : sameFullCal z s) :
    sameFullCal z (Machine.closeSpan s l why mask) := by
  unfold Machine.closeSpan
  exact h.modConv fun _ => rfl

theorem sameFullCal.setF {f : Fld} {v : Nat} (h : sameFullCal z s) : sameFullCal z (Machine.setF s f v) :=
  h.keep (setF_conv s f v)

theorem sameFullCal.setBusy {l : Fin 2} {mask : Nat} (h : sameFullCal z s) : sameFullCal z (Machine.setBusy s l mask) := by
  unfold Machine.setBusy
  exact h.openSpan.closeSpan.setF

theorem sameFullCal.urgentSt {ch : Nat} (h : sameFullCal z s) : sameFullCal z (Machine.urgentSt ch s) :=
  h.keep ((urgentSt_moves (P := [.regs, .hk]) rfl (.refl _ s)).only.1 .conv (by decide))

theorem sameFullCal.askFast {l : Fin 2} (h : sameFullCal z s) : sameFullCal z (Machine.askFast s l) := by
  unfold Machine.askFast
  exact sameFullCal.urgentSt (h.modConv fun _ => rfl)

theorem sameFullCal.askRaman {l : Fin 2} (h : sameFullCal z s) : sameFullCal z (Machine.askRaman s l) := by
  unfold Machine.askRaman
  exact sameFullCal.urgentSt (h.modConv fun _ => rfl)

/-- R124: the line's record as its full calibration starts. -/
def fullCalBegun (C : Conv) : Conv :=
  { C with fullCal := true, fgQueue := [], ramanFg := false, ramanForce := false, ramanOwed := false,
           fgStart := (C.die.head?.map (·.2)).getD 0, fgStartRaman := C.dieRaman.getD ((C.die.head?.map (·.2)).getD 0) }

theorem startFullCal_eq (s : State) (l : Fin 2) : startFullCal s l
    = askRaman (askFast (setF (setBusy (modConv s l fullCalBegun) l 63) (cvStatusPass l.val) 0) l) l := rfl

theorem startFullCal_sameFullCal {l : Fin 2} : sameFullCal (modConv s l fullCalBegun) (startFullCal s l) := by
  rw [startFullCal_eq]
  have hbusy : sameFullCal (modConv s l fullCalBegun) (setF (setBusy (modConv s l fullCalBegun) l 63) (cvStatusPass l.val) 0) :=
    sameFullCal.setF (sameFullCal.setBusy fun _ => rfl)
  exact hbusy.askFast.askRaman

/-- R124: full calibration runs on a line with every input isolated. -/
def calibrating (s : State) (l : Fin 2) : Prop := (vget s.conv l).fullCal = true ∧ getF s (cvStatusFgBusy l.val) = 63

theorem cvStatus_fits (l : Fin 2) : Fld.fits (cvStatusFgBusy l.val) = true ∧ Fld.fits (cvStatusPass l.val) = true := by
  match l with
  | 0 => exact ⟨rfl, rfl⟩
  | 1 => exact ⟨rfl, rfl⟩

theorem startFullCal_calibrating {l : Fin 2} : calibrating (startFullCal s l) l := by
  obtain ⟨hbusy, hpass⟩ := cvStatus_fits l
  refine ⟨?_, ?_⟩
  · rw [startFullCal_sameFullCal, modConv_conv, vget_vmod]
    rfl
  · rw [startFullCal_eq]
    have hask (u : State) : Writes [0xC802] u (askRaman (askFast u l) l) :=
      askRaman_writes (by simp) (askFast_writes (by simp) (.refl _ u))
    have haddr : (cvStatusFgBusy l.val).addr ∉ [0xC802] := by
      have := l.isLt
      simp only [cvStatusFgBusy, List.mem_singleton]
      omega
    rw [getF_of_writes (hask _) haddr, getF_setF_apart _ _ _ _ hpass hbusy rfl (.inl (show 3 < 10 by decide))]
    exact getF_setF _ _ _ hbusy

theorem startFullCal_calibrating_ne {l m : Fin 2} (h : l ≠ m) (hc : calibrating s m) : calibrating (startFullCal s l) m := by
  obtain ⟨hfull, hbusy⟩ := hc
  refine ⟨?_, ?_⟩
  · rw [startFullCal_sameFullCal, modConv_conv, vget_vmod_ne _ _ h]
    exact hfull
  · have hw : Writes [0xC802, 0x1000 + 1024 * l.val] s (startFullCal s l) := startFullCal_writes (by simp) (by simp) (.refl _ s)
    refine (getF_of_writes hw ?_).trans hbusy
    have hv : l.val ≠ m.val := fun e => h (Fin.ext e)
    have := m.isLt
    simp only [cvStatusFgBusy, List.mem_cons, List.not_mem_nil, or_false, not_or]
    omega

theorem modConv_calibrating {l m : Fin 2} {f : Conv → Conv} (hf : ∀ C, (f C).fullCal = C.fullCal) (hc : calibrating s m) :
    calibrating (modConv s l f) m := by
  obtain ⟨hfull, hbusy⟩ := hc
  exact ⟨(sameFullCal.modConv (z := s) (fun _ => rfl) hf m).trans hfull, (getF_of_regs (modConv_regs _ _ _)).trans hbusy⟩

/-! ### Stage 2 -/

theorem stage2St_warm (hp : bootPhase s = 4) (hw : s.keeper.warm = true) :
    stage2St s = (List.finRange 2).foldl resumeCal (setF s bmStateBootPhase 6) := by
  unfold stage2St
  rw [if_pos hp, if_pos hw]

theorem resumeCal_phase : bootPhase ((List.finRange 2).foldl resumeCal s) = bootPhase s := by
  refine getF_of_writes (A := [0xC802, 0x1000, 0x1001, 0x1400, 0x1401]) ?_ (by decide)
  exact .foldl _ (.refl _ s) fun _ l _ k => resumeCal_writes (by simp) (by fin_cases l <;> decide) (by fin_cases l <;> decide) k

theorem stage2St_cold {src rest : List Word} (hp : bootPhase s = 4) (hw : s.keeper.warm = false)
    (hd : decompress (stagedSection s 1).length s.keeper.boot.fieldLen (stagedSection s 1) = some (src, rest)) :
    stage2St s = stage2Boot s src := by
  unfold stage2St
  rw [if_pos hp, hw]
  simp only [hd]
  rfl

/-- R58: Fieldbook stands in DRAM, BOOT_PHASE 5. -/
def stage2Runs (s : State) (src : List Word) : State := setF { s with book := { s.book with fieldCopy := src } } bmStateBootPhase 5

/-- R120, R135: a line's choice of reference, as the plan has it. -/
def takeRefsel (s : State) (src : List Word) (u : State) (l : Fin 2) : State :=
  modConv u l (fun C => { C with
    shared := refShared { s with book := { s.book with fieldCopy := src }, cfg := s.book.amended } l.val })

theorem stage2Boot_eq (s : State) (src : List Word) : stage2Boot s src
    = startFullCal (takeRefsel s src (startFullCal (takeRefsel s src (stage2Runs s src) 0) 0) 1) 1 := rfl

theorem takeRefsel_calibrating {src : List Word} {l m : Fin 2} (h : calibrating t m) : calibrating (takeRefsel s src t l) m := by
  unfold takeRefsel
  exact modConv_calibrating (fun _ => rfl) h

theorem stage2Boot_calibrating {src : List Word} (l : Fin 2) : calibrating (stage2Boot s src) l := by
  rw [stage2Boot_eq]
  match l with
  | 0 => exact startFullCal_calibrating_ne (by decide) (takeRefsel_calibrating startFullCal_calibrating)
  | 1 => exact startFullCal_calibrating

theorem stage2Boot_phase {src : List Word} : bootPhase (stage2Boot s src) = 5 := by
  have hw : Writes [0xC802, 0x1000, 0x1400] (stage2Runs s src) (stage2Boot s src) :=
    .foldl _ (.refl _ _) fun _ l _ k => startFullCal_writes (by simp) (by fin_cases l <;> decide) (modConv_writes k)
  exact (getF_of_writes hw (by decide)).trans (getF_setF _ _ _ rfl)

theorem stage2Boot_fieldCopy {src : List Word} : (stage2Boot s src).book.fieldCopy = src := by
  have hm : Moves [.regs, .conv, .hk] (stage2Runs s src) (stage2Boot s src) :=
    .folded (fun _ _ k => startFullCal_moves rfl (modConv_moves rfl k)) (.refl _ _)
  exact congrArg Book.fieldCopy (hm.only.1 .book (by decide))

/-! ### Self-tests -/

/-- R240: a traverse's self-test has ended. -/
def selfTested (s : State) (t : Fin 8) : State := modBoot s (fun b => { b with tested := b.tested ||| 2 ^ t.val })

theorem selfTestSt_passed {t : Fin 8} (hp : bootPhase s = 6) (hb : bitOf s.keeper.boot.tested t.val = false) :
    selfTestSt t none s = if s.keeper.boot.tested ||| 2 ^ t.val = 255 then setF (placeKernels (selfTested s t)) bmStateBootPhase 7
      else selfTested s t := if_pos ⟨hp, hb⟩

/-! ### The plan takes effect -/

theorem planAppliedSt_due (h : planDue s = true) : planAppliedSt s
    = bookFence (evalBudgets (if s.keeper.warm then loadParams { s with cfg := s.book.amended }
        else loadPlan (loadParams { s with cfg := s.book.amended }))) allIslands .plan := by
  unfold planAppliedSt
  rw [if_pos h]

/-- R36: what follows the plan's own application changes neither the plan nor the outstanding fences. -/
theorem planLoaded_only (s : State) (b : Bool) : changesOnly [.regs, .log, .trav, .probe, .conv, .pce, .sense, .net, .time, .hk, .zn,
    .streams, .code, .freeCtr, .book, .xbuf] s (evalBudgets (if b then loadParams s else loadPlan (loadParams s))) :=
  (evalBudgets_moves rfl (.ite (loadParams_moves rfl (.refl _ s)) (loadPlan_moves rfl (loadParams_moves rfl (.refl _ s))))).only

/-- R27: with room, a fence joins the outstanding ones. -/
theorem issueFence_out {scope : Nat} {why : FenceFor} {recs : List PlanRec} (h : s.fu.out.length < 64) :
    (issueFence s scope why recs).fu.out.length = s.fu.out.length + 1 := by
  unfold issueFence
  extract_lets f
  rw [if_pos (show fenceRoom s = true from decide_eq_true h)]
  exact List.length_append

theorem bookFence_out {scope : Nat} {why : FenceFor} (h : s.fu.out.length < 64) :
    (bookFence s scope why).fu.out.length = s.fu.out.length + 1 := by
  unfold bookFence
  rw [if_pos (show fenceRoom s = true from decide_eq_true h)]
  exact issueFence_out h

/-! ### The final lock and recovery -/

/-- R58: the quads that are idle start. -/
def startIdleQuads (s : State) : State :=
  (List.finRange 3).foldl (fun s q => if (quadAt s q).st = .idle then startQuad s q else s) s

theorem startIdleQuads_moves : Moves [.net] s (startIdleQuads s) :=
  .folded (fun _ _ k => .ite (startQuad_moves rfl k) k) (.refl _ s)

theorem finalLockSt_due (hp : bootPhase s = 8) (hl : s.keeper.scsLock = true) :
    finalLockSt s = startIdleQuads (setF s bmStateBootPhase 9)
      ∨ finalLockSt s = setF (startIdleQuads (setF s bmStateBootPhase 9)) bmStateBootPhase 10 := by
  unfold finalLockSt
  rw [if_pos ⟨hp, hl⟩]
  extract_lets s1
  split
  · exact .inr rfl
  · exact .inl rfl

theorem enterRecovery_phase (s : State) : bootPhase (enterRecovery s) = 15 := by
  have hm : Moves [.fu, .zn] (setF ((List.finRange 2).foldl disarmForEvent s) bmStateBootPhase 15) (enterRecovery s) :=
    proxyAck_moves rfl (loopsRefresh_moves rfl (.refl _ _))
  exact (getF_of_regs (hm.only.1 .regs (by decide))).trans (getF_setF _ _ _ rfl)

/-- Settles O3: every phase is left as its work ends, and a verification that accepts no slot ends in recovery. -/
theorem bootLaterPhases : Obligations.BootLaterPhases := by
  refine ⟨fun s src rest hp hc hd => ?_, fun s hp hw => ?_, fun s src rest hp hw hd => ?_, fun s t hp hb hn => ?_,
    fun s t hp hb hall => ?_, fun s hdue => ?_, fun s hp hl => ?_, fun s a b x y hp hs hd hx hy => ?_⟩
  · refine goesOnWith_of_step (f := stage1St) rfl (stage1St_runs hp hc hd) ⟨?_, ?_, rfl, ?_⟩
    · exact (getF_of_regs startBootTraining_regs).trans stage1Runs_phase
    · exact (getF_of_regs startBootTraining_regs).trans stage1Runs_missed
    · exact (startBootTraining_moves rfl (setF_moves rfl (setF_moves rfl (putSram_moves rfl (.refl _ s))))).only
  · refine goesOnWith_of_step (f := stage2St) rfl (stage2St_warm hp hw) ⟨?_, ?_⟩
    · exact resumeCal_phase.trans (getF_setF _ _ _ rfl)
    · exact (Moves.folded (fun _ _ k => resumeCal_moves rfl k) (setF_moves rfl (.refl _ s))).only
  · obtain ⟨hfull0, hbusy0⟩ := stage2Boot_calibrating (s := s) (src := src) 0
    obtain ⟨hfull1, hbusy1⟩ := stage2Boot_calibrating (s := s) (src := src) 1
    exact goesOnWith_of_step (f := stage2St) rfl (stage2St_cold hp hw hd)
      ⟨stage2Boot_phase, stage2Boot_fieldCopy, hfull0, hfull1, hbusy0, hbusy1⟩
  · exact goesOnWith_of_step (f := selfTestSt t none) rfl ((selfTestSt_passed hp hb).trans (if_neg hn)) ⟨rfl, hp⟩
  · exact goesOnWith_of_step (f := selfTestSt t none) rfl ((selfTestSt_passed hp hb).trans (if_pos hall)) ⟨hall, getF_setF _ _ _ rfl⟩
  · have honly := planLoaded_only { s with cfg := s.book.amended } s.keeper.warm
    have hfu := honly.1 .fu (by decide)
    refine goesOnWith_of_step (f := planAppliedSt) rfl (planAppliedSt_due hdue) ⟨?_, ?_, fun hroom => ?_⟩
    · exact ((bookFence_moves (P := [.regs, .fu]) rfl (.refl _ _)).only.1 .cfg (by decide)).trans (honly.1 .cfg (by decide))
    · exact ((bookFence_moves (P := [.regs, .fu]) rfl (.refl _ _)).only.1 .keeper (by decide)).trans (honly.1 .keeper (by decide))
    · have hlen := congrArg (fun u : FenceUnit => u.out.length) hfu
      exact (bookFence_out (hlen.trans_lt hroom)).trans (congrArg (· + 1) hlen)
  · have hm := startIdleQuads_moves (s := setF s bmStateBootPhase 9)
    refine goesOnWith_of_next (t := finalLockSt s) rfl ⟨?_, (finalLockSt_moves rfl (.refl _ s)).only⟩
    rcases finalLockSt_due hp hl with e | e
    · rw [e]
      exact .inl ((getF_of_regs (hm.only.1 .regs (by decide))).trans (getF_setF _ _ _ rfl))
    · rw [e]
      exact .inr (getF_setF _ _ _ rfl)
  · refine goesOnWith_of_next (t := verifySt a b s) rfl ?_
    cases hb : bFirst (headerAt s x).seq (headerAt s y).seq with
    | true =>
      rw [verifySt_bFirst hp hs hd hb, if_neg hy, if_neg hx]
      exact enterRecovery_phase _
    | false =>
      rw [verifySt_aFirst hp hs hd hb, if_neg hx, if_neg hy]
      exact enterRecovery_phase _

end

end Sys2Proof.Laws
end


section
/-! SUPPORT. Amendments (R70 to R73): what an accepted one records, and what answers it. -/

namespace Sys2Proof.Laws
open Sys2Proof Sys2Proof.Machine Sys2Proof.Safety

section
variable {z s : State}

/-! ### A frame of this engine's own type -/

theorem receive_accepted {l : Fin 3} {f : Frame} {k : State → State} (hu : linkUp s l = true) (hf : frameOk f = true) :
    receive s l f k = k (noteRx s l f) := by
  unfold receive
  rw [if_pos hu, if_pos hf]

theorem noteRx_only {l : Fin 3} {f : Frame} : Moves [.net] s (noteRx s l f) := noteRx_moves rfl (.refl _ s)

theorem bootPhase_noteRx {l : Fin 3} {f : Frame} : bootPhase (noteRx s l f) = bootPhase s :=
  getF_of_regs (noteRx_only.only.1 .regs (by decide))

theorem exec_amend (s : State) (l : Fin 3) (ws : List Word) :
    exec (.amend l ws) s = .next (receive s l (rxFrame s 0x105 hostAddr 0 ws) (amendSt l ws)) := rfl

/-! ### The words of a record -/

theorem wordsVal_lt (ws : List Word) : wordsVal ws < 1024 ^ ws.length := by
  induction ws with
  | nil => exact Nat.one_pos
  | cons w ws ih =>
    have hw : w.toNat < 1024 := w.isLt
    rw [List.length_cons, Nat.pow_succ, wordsVal]
    omega

/-- Two words fill a register. -/
theorem wAt_two_lt (p : List Word) (i : Nat) : wAt p i 2 < 2 ^ 20 := by
  have hlen : ((p.drop i).take 2).length ≤ 2 := List.length_take_le _ _
  calc wAt p i 2 < 1024 ^ ((p.drop i).take 2).length := wordsVal_lt _
    _ ≤ 1024 ^ 2 := Nat.pow_le_pow_right (by decide) hlen
    _ = 2 ^ 20 := rfl

/-! ### The answers -/

/-- R70: the sequence number that an amendment's first record names. -/
def amendSeq (rs : List PlanRec) : Nat := wAt ((rs[0]?.map (fun r => r.payload)).getD []) 0 2

/-- R71: the answer goes to the host. -/
def amendTold (s : State) (l : Fin 3) (rs : List PlanRec) (a : AmendAnswer) : State :=
  tellHost s l 6 (statusWords (amendSeq rs) a)

theorem amendTold_moves {l : Fin 3} {rs : List PlanRec} {a : AmendAnswer} : Moves [.net] s (amendTold s l rs a) :=
  tellHost_moves rfl (.refl _ s)

theorem amendSt_recovery {l : Fin 3} {ws : List Word} (hp : bootPhase s = 15) : amendSt l ws s = s := if_pos hp

theorem amendSt_refused {l : Fin 3} {ws : List Word} (hp : bootPhase s ≠ 15)
    (h : (judgeAmend s (recordsOf ws).1 (recordsOf ws).2).status ≠ .accepted) :
    amendSt l ws s = amendTold s l (recordsOf ws).1 (judgeAmend s (recordsOf ws).1 (recordsOf ws).2) := by
  unfold amendSt
  rw [if_neg hp]
  simp only [if_neg h]
  rfl

theorem amendSt_accepted {l : Fin 3} {ws : List Word} (hp : bootPhase s ≠ 15)
    (h : (judgeAmend s (recordsOf ws).1 (recordsOf ws).2).status = .accepted) :
    amendSt l ws s = amendTold (acceptAmend s l (recordsOf ws).1) l (recordsOf ws).1 (judgeAmend s (recordsOf ws).1 (recordsOf ws).2) := by
  unfold amendSt
  rw [if_neg hp]
  simp only [if_pos h]
  rfl

/-! ### What an accepted amendment records -/

/-- R72: the amended plan has the changes. -/
def amendEntered (s : State) (rs : List PlanRec) : State :=
  { s with book := { s.book with amended := mergeRecs s.book.amended ((rs.drop 1).dropLast) } }

/-- R43, R72: its new hash is recorded, and the sequence number advances. -/
def amendRecorded (s : State) (rs : List PlanRec) : State :=
  setF (recordHashSt true (amendEntered s rs)) mgAmendSeqSeq (amendSeq rs)

theorem acceptAmend_eq (s : State) (l : Fin 3) (rs : List PlanRec) : acceptAmend s l rs
    = issueFence (amendRecorded s rs)
        (recsScope { s with cfg := mergeRecs s.book.amended ((rs.drop 1).dropLast) } ((rs.drop 1).dropLast))
        (.amend (amendSeq rs) l) ((rs.drop 1).dropLast) := rfl

theorem amendRecorded_moves {rs : List PlanRec} (h : Moves [.regs, .keeper] z (amendEntered s rs)) :
    Moves [.regs, .keeper] z (amendRecorded s rs) := setF_moves rfl (recordHashSt_moves rfl h)

/-- R72, R73: the amended plan with its hash and sequence number, and one more fence; the plan in effect waits for it. -/
theorem acceptAmend_record {l : Fin 3} {rs : List PlanRec} (hroom : s.fu.out.length < 64) :
    (acceptAmend s l rs).fu.out.length = s.fu.out.length + 1
      ∧ (acceptAmend s l rs).book = (amendEntered s rs).book
      ∧ (acceptAmend s l rs).keeper.hashPlan = some (planDigest (amendEntered s rs))
      ∧ getF (acceptAmend s l rs) mgAmendSeqSeq = amendSeq rs
      ∧ Moves [.regs, .book, .keeper, .fu] s (acceptAmend s l rs) := by
  have hrec := (amendRecorded_moves (rs := rs) (.refl _ (amendEntered s rs))).only
  have hfu : (amendRecorded s rs).fu = s.fu := hrec.1 .fu (by decide)
  rw [acceptAmend_eq]
  generalize hscope : recsScope _ _ = scope
  have hfence : Moves [.regs, .fu] (amendRecorded s rs)
      (issueFence (amendRecorded s rs) scope (.amend (amendSeq rs) l) ((rs.drop 1).dropLast)) :=
    issueFence_moves rfl (.refl _ _)
  have hwrites : Writes [0x22] (amendRecorded s rs)
      (issueFence (amendRecorded s rs) scope (.amend (amendSeq rs) l) ((rs.drop 1).dropLast)) :=
    issueFence_writes (by simp) (.refl _ _)
  refine ⟨?_, ?_, ?_, ?_, ?_⟩
  · rw [issueFence_out (by rw [hfu]; exact hroom), hfu]
  · exact (hfence.only.1 .book (by decide)).trans (hrec.1 .book (by decide))
  · exact congrArg Keeper.hashPlan (hfence.only.1 .keeper (by decide))
  · rw [getF_of_writes hwrites (by decide)]
    exact (getF_setF _ _ _ rfl).trans (Nat.mod_eq_of_lt (wAt_two_lt _ _))
  · exact issueFence_moves rfl (setF_moves rfl (recordHashSt_moves rfl (.setBook rfl (.refl _ s))))

/-- Settles O12: a refused amendment is answered and no more; an accepted one is recorded, held for a fence and answered. -/
theorem amendments : Obligations.Amendments := by
  refine ⟨fun s l ws hu hf hp hno => ?_, fun s l ws hu hf hp hroom hyes => ?_, fun s l ws hu hf hp => ?_⟩
  · have hp' : bootPhase (noteRx s l (rxFrame s 0x105 hostAddr 0 ws)) ≠ 15 := by rw [bootPhase_noteRx]; exact hp
    refine goesOnWith_of_next ((exec_amend s l ws).trans (congrArg _ ((receive_accepted hu hf).trans (amendSt_refused hp' hno)))) ?_
    have hnote := noteRx_only (s := s) (l := l) (f := rxFrame s 0x105 hostAddr 0 ws)
    have honly := (hnote.trans (amendTold_moves (l := l) (rs := (recordsOf ws).1)
      (a := judgeAmend (noteRx s l (rxFrame s 0x105 hostAddr 0 ws)) (recordsOf ws).1 (recordsOf ws).2))).only
    exact ⟨honly.1 .book (by decide), honly.1 .fu (by decide), honly.1 .regs (by decide), honly⟩
  · have hp' : bootPhase (noteRx s l (rxFrame s 0x105 hostAddr 0 ws)) ≠ 15 := by rw [bootPhase_noteRx]; exact hp
    refine goesOnWith_of_next ((exec_amend s l ws).trans (congrArg _ ((receive_accepted hu hf).trans (amendSt_accepted hp' hyes)))) ?_
    have hnote := noteRx_only (s := s) (l := l) (f := rxFrame s 0x105 hostAddr 0 ws)
    generalize judgeAmend _ (recordsOf ws).1 (recordsOf ws).2 = a
    generalize noteRx s l (rxFrame s 0x105 hostAddr 0 ws) = u at hnote
    generalize (recordsOf ws).1 = rs
    have hfu : u.fu = s.fu := hnote.only.1 .fu (by decide)
    have hbook : u.book = s.book := hnote.only.1 .book (by decide)
    have hcfg : u.cfg = s.cfg := hnote.only.1 .cfg (by decide)
    obtain ⟨hout, hentered, hhash, hseq, haccept⟩ := acceptAmend_record (l := l) (rs := rs) (by rw [hfu]; exact hroom)
    have htold := (amendTold_moves (s := acceptAmend u l rs) (l := l) (rs := rs) (a := a))
    have hb : (amendTold (acceptAmend u l rs) l rs a).book = (amendEntered u rs).book := (htold.only.1 .book (by decide)).trans hentered
    have hcfg' : (acceptAmend u l rs).cfg = u.cfg := haccept.only.1 .cfg (by decide)
    refine ⟨?_, ?_, ?_, ?_, ?_, ?_, ?_⟩
    · rw [htold.only.1 .fu (by decide), hout, hfu]
    · rw [htold.only.1 .cfg (by decide), hcfg', hcfg]
    · rw [hb, ← hbook]
      rfl
    · rw [hb, ← hbook]
      rfl
    · rw [getF_of_regs (htold.only.1 .regs (by decide)), hseq]
      rfl
    · rw [htold.only.1 .keeper (by decide), hhash]
      unfold planDigest
      rw [hb]
    · exact (hnote.mono rfl |>.trans (haccept.mono rfl) |>.trans (htold.mono rfl)).only
  · have hp' : bootPhase (noteRx s l (rxFrame s 0x105 hostAddr 0 ws)) = 15 := bootPhase_noteRx.trans hp
    exact goesOnWith_of_next ((exec_amend s l ws).trans (congrArg _ ((receive_accepted hu hf).trans (amendSt_recovery hp')))) rfl

end

end Sys2Proof.Laws
end


section
/-! SUPPORT. DRAM training and set points (R57, R423 to R430): what a training leaves of a channel, and when a set point changes. -/

namespace Sys2Proof.Laws
open Sys2Proof Sys2Proof.Machine Sys2Proof.Safety

section
variable {z s t : State}

/-! ### Boot training -/

/-- R423, R424: a fitted channel one of whose subchannels failed, named or found. -/
def trainBad (failed : BitVec 8) (s : State) (c : Nat) : Bool :=
  dmFitted s c && (failed.getLsbD (2 * c) || failed.getLsbD (2 * c + 1) || (vget s.mem.ch (chanFin c)).failed)

/-- R424: a fitted pair without a failing channel. -/
def trainPairOk (failed : BitVec 8) (s : State) (p : Nat) : Bool :=
  dmFitted s (2 * p) && !(trainBad failed s (2 * p)) && !(trainBad failed s (2 * p + 1))

/-- R423: the channels as boot training leaves them, at F0. -/
def trainedMem (failed : BitVec 8) (s : State) : State :=
  modMem s (fun m => { m with setPoint := 0, ch := Vector.ofFn (fun c : Fin 4 =>
    { vget m.ch c with trained := if dmFitted s c.val && !(trainBad failed s c.val) then 7 else 0,
                       inService := trainPairOk failed s (c.val / 2), training := false, step := 0,
                       at_ := elapsed s, die := m.die.getD 0 }) })

/-- R424: a failed channel is logged. -/
def trainLogged (failed : BitVec 8) (s : State) : State :=
  forEach ((List.range 4).filter (trainBad failed s)) (trainedMem failed s) (fun s c => logEvent s 0x02A 4 2 c 0)

theorem trainLogged_moves {failed : BitVec 8} : Moves [.regs, .log] (trainedMem failed s) (trainLogged failed s) :=
  .forEach (fun _ _ k => logEvent_moves rfl k) (.refl _ _)

theorem trainingDoneSt_boot {failed : BitVec 8} (hp : bootPhase s = 3) : trainingDoneSt failed s
    = if trainPairOk failed s 0 || trainPairOk failed s 1 then setF (evalBudgets (trainLogged failed s)) bmStateBootPhase 4
      else enterRecovery (trainLogged failed s) := if_pos hp

theorem trainBad_none (hf : ∀ c, (vget s.mem.ch c).failed = false) (c : Nat) : trainBad 0 s c = false := by
  have hbit (i : Nat) : (0 : BitVec 8).getLsbD i = false := BitVec.getLsbD_zero
  unfold trainBad
  rw [hf, hbit, hbit, Bool.or_false, Bool.or_false, Bool.and_false]

theorem trainPairOk_none (hf : ∀ c, (vget s.mem.ch c).failed = false) (h : dmFitted s 0 = true) : trainPairOk 0 s 0 = true := by
  unfold trainPairOk
  rw [trainBad_none hf, trainBad_none hf, Nat.mul_zero, h]
  rfl

theorem trainBad_all {c : Nat} (hc : c < 4) : trainBad 255 s c = dmFitted s c := by
  have hbit : (255 : BitVec 8).getLsbD (2 * c) = true := by interval_cases c <;> rfl
  unfold trainBad
  rw [hbit, Bool.true_or, Bool.true_or, Bool.and_true]

theorem trainPairOk_all {p : Nat} (hp : p < 2) : trainPairOk 255 s p = false := by
  unfold trainPairOk
  rw [trainBad_all (by omega), Bool.and_not_self, Bool.false_and]

theorem vget_ofFn {α : Type} {n : Nat} (f : Fin n → α) (i : Fin n) : vget (Vector.ofFn f) i = f i := Vector.getElem_ofFn _

theorem trainedMem_trained {failed : BitVec 8} (c : Fin 4) : (vget (trainedMem failed s).mem.ch c).trained
    = if dmFitted s c.val && !(trainBad failed s c.val) then 7 else 0 := congrArg MemCh.trained (vget_ofFn _ c)

theorem trainedMem_inService {failed : BitVec 8} (c : Fin 4) : (vget (trainedMem failed s).mem.ch c).inService
    = trainPairOk failed s (c.val / 2) := congrArg MemCh.inService (vget_ofFn _ c)

/-- R423: boot training with no failed channel leaves the pair of channel 0 in service at F0. -/
theorem trainingDoneSt_good (hp : bootPhase s = 3) (h0 : dmFitted s 0 = true) (hf : ∀ c, (vget s.mem.ch c).failed = false) :
    trainingDoneSt 0 s = setF (evalBudgets (trainLogged 0 s)) bmStateBootPhase 4 := by
  rw [trainingDoneSt_boot hp, trainPairOk_none hf h0]
  rfl

/-- R57: with every subchannel failed Benchmark enters recovery. -/
theorem trainingDoneSt_failed (hp : bootPhase s = 3) : trainingDoneSt 255 s = enterRecovery (trainLogged 255 s) := by
  rw [trainingDoneSt_boot hp, trainPairOk_all (by decide), trainPairOk_all (by decide)]
  rfl

/-! ### Training in service -/

/-- R426: the interval oscillators of the channels in service. -/
def driftRead (ds : List Int) (s : State) : State :=
  modMem s (fun m => { m with ch := Vector.ofFn (fun c : Fin 4 =>
    match ds[c.val]? with
    | some d => if (vget m.ch c).inService then { vget m.ch c with drift := d } else vget m.ch c
    | none => vget m.ch c) })

theorem exec_dqsOscRead {ds : List Int} (hr : s.mem.selfRefresh = false) (hb : s.mem.blackout = none) :
    exec (.dqsOscRead ds) s = .next (driftRead ds s) := by
  have hidle : (s.mem.selfRefresh || s.mem.blackout.isSome) = false := by rw [hr, hb]; rfl
  exact congrArg _ (if_neg (by rw [hidle]; decide))

theorem driftRead_drift {ds : List Int} {c : Fin 4} {d : Int} (hs : (vget s.mem.ch c).inService = true) (hd : ds[c.val]? = some d) :
    (vget (driftRead ds s).mem.ch c).drift = d := by
  unfold driftRead
  rw [modMem_mem, vget_ofFn, hd]
  simp only [hs, if_true]

theorem driftRead_trained {ds : List Int} (c : Fin 4) : (vget (driftRead ds s).mem.ch c).trained = (vget s.mem.ch c).trained := by
  unfold driftRead
  rw [modMem_mem, vget_ofFn]
  split
  · split <;> rfl
  · rfl

/-- R426: a short retrain begins at D3. -/
def retrainBegun (x : MemCh) : MemCh :=
  { x with training := true, step := 3, colls := 0, rank := 0, okStep := false, again := false }

theorem shortRetrainSt_due {c : Fin 4} (hs : (vget s.mem.ch c).inService = true) (hd : retrainDue s c = true)
    (ht : anyTraining s = false) (hb : s.mem.blackout = none) (hf : s.mem.freeze = none) (hr : s.mem.selfRefresh = false) :
    shortRetrainSt c s = bump (modCh s c retrainBegun) dmRetrainCount := by
  have hdue : ((vget s.mem.ch c).inService && retrainDue s c && !(anyTraining s) && s.mem.blackout.isNone && s.mem.freeze.isNone
      && !s.mem.selfRefresh) = true := by
    rw [hs, hd, ht, hb, hf, hr]
    rfl
  exact if_pos hdue

theorem vget_modCh {c : Fin 4} {f : MemCh → MemCh} : vget (modCh s c f).mem.ch c = f (vget s.mem.ch c) := vget_vmod _ _ _

/-! ### A collection ends -/

/-- With no change of set point waiting, what the collection leaves stands. -/
theorem collectionSt_step {c : Fin 4} {pass : Bool} (ht : (vget s.mem.ch c).training = true) (hb : s.mem.blackout = none)
    (e : collectStep s c pass = some t) (hw : t.mem.waiting = none) : collectionSt c pass s = t := by
  have hdue : ((vget s.mem.ch c).training && s.mem.blackout.isNone) = true := by rw [ht, hb]; rfl
  unfold collectionSt
  rw [if_pos hdue, e]
  simp only [hw]

theorem collectStep_more {c : Fin 4} {pass : Bool} (h : (vget s.mem.ch c).colls + 1 < stepColls (vget s.mem.ch c).step) :
    collectStep s c pass = some (modCh s c (fun x => { x with colls := x.colls + 1, okStep := (vget s.mem.ch c).okStep || pass })) :=
  if_pos h

/-- R423: the last collection of the last step of the last rank ends the training. -/
theorem collectStep_last {c : Fin 4} (hc : stepColls (vget s.mem.ch c).step ≤ (vget s.mem.ch c).colls + 1)
    (hl : lastStep s ≤ (vget s.mem.ch c).step) (hr : dmRanks s ≤ (vget s.mem.ch c).rank + 1) :
    collectStep s c true = some (endTraining s c) := by
  unfold collectStep
  extract_lets x ok
  have hok : (!ok) = false := by
    rw [show ok = true from Bool.or_true _]
    rfl
  rw [if_neg (Nat.not_lt.mpr hc), hok, if_neg Bool.false_ne_true, if_neg (Nat.not_lt.mpr hl), if_neg (Nat.not_lt.mpr hr)]

theorem lastStep_service (hp : bootPhase s ≠ 3) (hf : s.mem.freeze = none) : lastStep s = 4 := by
  have : ¬(s.mem.freeze.isSome = true ∨ bootPhase s = 3) := by
    rw [hf]
    exact fun h => h.elim (by decide) hp
  exact if_neg this

theorem lastStep_boot (hp : bootPhase s = 3) : lastStep s = 6 := if_pos (.inr hp)

/-- R423: TRAINED at the set point, from now on. -/
def trainedInService (s : State) (x : MemCh) : MemCh :=
  { x with training := false, step := 0, colls := 0, rank := 0, okStep := false, drift := 0, at_ := elapsed s,
           die := s.mem.die.getD x.die, trained := bitsPut x.trained s.mem.setPoint s.mem.setPoint 1 }

/-- R423: TRAINED at one set point, and at boot the next one follows. -/
def trainedAtBoot (x : MemCh) : MemCh :=
  { x with trained := bitsPut x.trained x.sp x.sp 1, colls := 0, rank := 0, okStep := false,
           training := decide (x.sp ≠ 0), step := if x.sp = 0 then 0 else 1, sp := x.sp - 1 }

theorem endTraining_service {c : Fin 4} (hp : bootPhase s ≠ 3) : endTraining s c = modCh s c (trainedInService s) := if_neg hp

theorem endTraining_boot {c : Fin 4} (hp : bootPhase s = 3) : endTraining s c = modCh s c trainedAtBoot := if_pos hp

theorem bitOf_put_one (v i : Nat) : bitOf (bitsPut v i i 1) i = true := by
  have h : bitsOf (bitsPut v i i 1) i i = 1 := by
    rw [bitsOf_put _ _ _ _ (Nat.le_refl i), Nat.add_sub_cancel_left]
    rfl
  unfold bitsOf at h
  rw [Nat.add_sub_cancel_left] at h
  exact decide_eq_true h

/-! ### Set points -/

/-- The set point and the change under way are the same in both. -/
def sameSetPoint (z s : State) : Prop :=
  s.mem.setPoint = z.mem.setPoint ∧ s.mem.blackout = z.mem.blackout ∧ s.mem.waiting = z.mem.waiting

theorem sameSetPoint_keep {P : List Part} (h : sameSetPoint z s) (m : changesOnly P s t) (hP : Part.mem ∉ P) : sameSetPoint z t := by
  have e : t.mem = s.mem := m.1 .mem hP
  unfold sameSetPoint
  rw [e]
  exact h

theorem modCh_sameSetPoint {c : Fin 4} {f : MemCh → MemCh} (h : sameSetPoint z s) : sameSetPoint z (modCh s c f) := h

theorem startFreeze_sameSetPoint {f : Freeze} (h : sameSetPoint z s) : sameSetPoint z (startFreeze s f) := by
  have hm : sameSetPoint z (modMem s (fun m => { m with freeze := some { f with at_ := elapsed s } })) := h
  exact sameSetPoint_keep hm (staleFreeze_moves (P := [.regs, .net, .zn]) rfl (.refl _ _)).only (by decide)

theorem startPendUe_sameSetPoint (h : sameSetPoint z s) : sameSetPoint z (startPendUe s) := by
  unfold startPendUe
  split
  · exact h
  · split
    · exact startFreeze_sameSetPoint h
    · exact h

theorem nextFreeze_sameSetPoint (h : sameSetPoint z s) : sameSetPoint z (nextFreeze s) := by
  unfold nextFreeze
  split
  · exact h
  · split
    · exact modCh_sameSetPoint (startFreeze_sameSetPoint h)
    · exact startPendUe_sameSetPoint h

/-- R428: the blackout ends at the new set point. -/
def freqEnded (s : State) (f : FreqChange) : State := modMem s (fun m => { m with blackout := none, setPoint := f.target })

/-- R430, R431: a freeze for retraining takes the channel that is UNTRAINED at the new set point; else one that is due starts. -/
def freqFrozen (s : State) : State :=
  match s.mem.blackout, s.mem.freeze, untrained s with
  | none, some z, some c => if z.retrain && z.loss.isNone then
      modCh s c (fun x => { x with training := true, step := 1, colls := 0, rank := 0, okStep := false }) else s
  | _, _, _ => nextFreeze s

theorem freqFrozen_sameSetPoint : sameSetPoint s (freqFrozen s) := by
  have hself : sameSetPoint s s := ⟨rfl, rfl, rfl⟩
  unfold freqFrozen
  split
  · split
    · exact modCh_sameSetPoint hself
    · exact hself
  · exact nextFreeze_sameSetPoint hself

theorem freqSettled_sameSetPoint : sameSetPoint s (evalBudgets (freqFrozen s)) :=
  sameSetPoint_keep freqFrozen_sameSetPoint
    (evalBudgets_moves (P := [.regs, .book, .log, .trav, .sense, .net, .zn, .streams, .code, .xbuf]) rfl (.refl _ _)).only (by decide)

/-- R428: with no other change waiting, the end of a blackout starts none. -/
theorem freqDoneSt_last {f : FreqChange} (hb : s.mem.blackout = some f) (hw : s.mem.waiting = none) :
    freqDoneSt s = evalBudgets (freqFrozen (freqEnded s f)) := by
  have hw1 : (freqEnded s f).mem.waiting = none := hw
  have hw4 : (evalBudgets (freqFrozen (freqEnded s f))).mem.waiting = none := by
    obtain ⟨-, -, hwait⟩ := freqSettled_sameSetPoint (s := freqEnded s f)
    exact hwait.trans hw1
  unfold freqDoneSt
  split
  next e => exact absurd (hb.symm.trans e) (Option.some_ne_none f)
  next g e =>
    obtain rfl : f = g := Option.some.inj (hb.symm.trans e)
    extract_lets s1 s2 s3 s4
    have e2 : s2 = freqEnded s f := by
      unfold s2
      rw [show s1.mem.waiting = none from hw]
      rfl
    have e4 : s4 = evalBudgets (freqFrozen (freqEnded s f)) := by
      rw [← e2]
      rfl
    rw [e4, hw4]

/-! ### DRAM_FREQ -/

theorem mbxDramFreqSt_state {sp : Fin 3} (hr : s.mem.selfRefresh = true) : mbxDramFreqSt sp s = mbxAnswer s 7 mbxRefusedState 0 :=
  if_pos hr

theorem mbxDramFreqSt_refused {sp : Fin 3} (hr : s.mem.selfRefresh = false) (h : s.mem.forced = true ∨ spUsable s sp.val = false) :
    mbxDramFreqSt sp s = mbxRefuse s 7 := by
  have hno : (s.mem.forced || !(spUsable s sp.val)) = true := by
    rcases h with h | h
    · rw [h, Bool.true_or]
    · rw [h, Bool.not_false, Bool.or_true]
  unfold mbxDramFreqSt
  rw [hr, if_neg Bool.false_ne_true, if_pos hno]

/-- R427, R428: a usable set point other than the present one, with nothing under way, begins its blackout at once. -/
theorem mbxDramFreqSt_granted {sp : Fin 3} (hr : s.mem.selfRefresh = false) (hf : s.mem.forced = false)
    (hu : spUsable s sp.val = true) (hb : s.mem.blackout = none) (ht : anyTraining s = false) (hn : s.mem.setPoint ≠ sp.val) :
    mbxDramFreqSt sp s = startChange (mbxAnswer s 7 mbxGranted 0) { target := sp.val, forced := false } := by
  have hyes : (s.mem.forced || !(spUsable s sp.val)) = false := by rw [hf, hu]; rfl
  have hmem : (mbxAnswer s 7 mbxGranted 0).mem = s.mem := (mbxAnswer_only (P := [.regs, .keeper]) rfl).1 .mem (by decide)
  have hcoming : comingSp (mbxAnswer s 7 mbxGranted 0) = s.mem.setPoint := by
    unfold comingSp
    rw [hmem, hb]
    cases s.mem.waiting <;> rfl
  have hidle : ((mbxAnswer s 7 mbxGranted 0).mem.blackout.isSome || anyTraining (mbxAnswer s 7 mbxGranted 0)) = false := by
    unfold anyTraining
    rw [hmem, hb]
    exact ht
  unfold mbxDramFreqSt
  extract_lets s1
  rw [hr, if_neg Bool.false_ne_true, hyes, if_neg Bool.false_ne_true, if_neg (by rw [hcoming]; exact hn)]
  unfold askChange
  rw [hidle, if_neg Bool.false_ne_true]

/-- Settles O42: training ends with the channels TRAINED or in recovery; a set point changes when its blackout ends. -/
theorem dramTraining : Obligations.DramTraining := by
  refine ⟨fun s hp h0 hf => ?_, fun s hp => ?_, fun s ds hr hb => ?_, fun s c hs hd ht hb hf hr => ?_,
    fun s c b ht hb hw hm => ?_, fun s c ht hp hb hw hf hc hstep hrank => ?_, fun s c ht hp hb hw hc hstep hrank => ?_,
    fun s f hb hw => ?_, fun s sp hq hk hr => ?_, fun s sp hq hk hr h => ?_, fun s sp hq hk hr hf hu hb hw ht hn => ?_⟩
  · have hmem : (setF (evalBudgets (trainLogged 0 s)) bmStateBootPhase 4).mem = (trainedMem 0 s).mem :=
      (setF_moves (P := [.regs, .book, .log, .trav, .sense, .net, .zn, .streams, .code, .xbuf]) rfl
        (evalBudgets_moves rfl (trainLogged_moves.mono rfl))).only.1 .mem (by decide)
    have hpair := trainPairOk_none hf h0
    refine goesOnWith_of_step (f := trainingDoneSt 0) rfl (trainingDoneSt_good hp h0 hf) ⟨getF_setF _ _ _ rfl, ?_, ?_, ?_, ?_⟩
    · rw [hmem]
      rfl
    · rw [hmem, trainedMem_inService]
      exact hpair
    · rw [hmem, trainedMem_inService]
      exact hpair
    · rw [hmem, trainedMem_trained, trainBad_none hf]
      exact if_pos (by rw [show dmFitted s (0 : Fin 4).val = true from h0]; rfl)
  · have hmem : (enterRecovery (trainLogged 255 s)).mem = (trainedMem 255 s).mem :=
      (enterRecovery_moves (P := [.regs, .keeper, .log, .fu, .probe, .conv, .zn]) rfl (trainLogged_moves.mono rfl)).only.1 .mem (by decide)
    refine goesOnWith_of_step (f := trainingDoneSt 255) rfl (trainingDoneSt_failed hp) ⟨enterRecovery_phase _, fun c => ?_⟩
    rw [hmem, trainedMem_trained, trainBad_all c.isLt, Bool.and_not_self]
    rfl
  · exact goesOnWith_of_next (exec_dqsOscRead hr hb)
      ⟨fun c d hs hd => driftRead_drift hs hd, driftRead_trained, (modMem_moves rfl (.refl _ s)).only⟩
  · have hch : (bump (modCh s c retrainBegun) dmRetrainCount).mem.ch = vmod s.mem.ch c retrainBegun := rfl
    refine goesOnWith_of_step (f := shortRetrainSt c) rfl (shortRetrainSt_due hs hd ht hb hf hr) ⟨?_, ?_, ?_, ?_, fun k hk => ?_, ?_⟩
    · rw [hch, vget_vmod]
      rfl
    · rw [hch, vget_vmod]
      rfl
    · rw [hch, vget_vmod]
      rfl
    · rw [getF_bump _ _ rfl, getF_of_regs (modCh_regs _ _ _)]
      rfl
    · rw [hch, vget_vmod_ne _ _ hk.symm]
    · exact (bump_moves rfl (modCh_moves rfl (.refl _ s))).only
  · refine goesOnWith_of_step (f := collectionSt c b) rfl (collectionSt_step ht hb (collectStep_more hm) hw) ⟨?_, ?_, ?_⟩
    · rw [vget_modCh]
    · rw [vget_modCh]
      exact ht
    · exact (modCh_moves rfl (.refl _ s)).only
  · have hlast : lastStep s ≤ (vget s.mem.ch c).step := by rw [lastStep_service hp hf, hstep]
    have e : collectStep s c true = some (modCh s c (trainedInService s)) := by
      rw [collectStep_last hc hlast hrank, endTraining_service hp]
    refine goesOnWith_of_step (f := collectionSt c true) rfl (collectionSt_step ht hb e hw) ?_
    rw [vget_modCh]
    exact ⟨rfl, bitOf_put_one _ _, rfl, rfl, (modCh_moves rfl (.refl _ s)).only⟩
  · have hlast : lastStep s ≤ (vget s.mem.ch c).step := by rw [lastStep_boot hp, hstep]
    have e : collectStep s c true = some (modCh s c trainedAtBoot) := by
      rw [collectStep_last hc hlast hrank, endTraining_boot hp]
    refine goesOnWith_of_step (f := collectionSt c true) rfl (collectionSt_step ht hb e hw) ?_
    rw [vget_modCh]
    exact ⟨rfl, rfl, rfl, (modCh_moves rfl (.refl _ s)).only⟩
  · obtain ⟨hset, hblack, -⟩ := freqSettled_sameSetPoint (s := freqEnded s f)
    exact goesOnWith_of_step (f := freqDoneSt) rfl (freqDoneSt_last hb hw) ⟨hset, hblack⟩
  · refine goesOnWith_served (fun _ => rfl) (mbxServe_dramFreq · sp) hq hk (KeepsQueue.leavesNone mbxDramFreqSt_keepsQueue hq) ?_
    rw [mbxDramFreqSt_state hr]
    exact ⟨getF_mbxAnswer_code, getF_mbxAnswer_status, (mbxAnswer_only (P := [.regs, .keeper]) rfl).1 .mem (by decide)⟩
  · refine goesOnWith_served (fun _ => rfl) (mbxServe_dramFreq · sp) hq hk (KeepsQueue.leavesNone mbxDramFreqSt_keepsQueue hq) ?_
    rw [mbxDramFreqSt_refused hr h]
    exact ⟨getF_mbxRefuse_code, getF_mbxRefuse_status, mbxRefuse_only.1 .mem (by decide)⟩
  · refine goesOnWith_served (fun _ => rfl) (mbxServe_dramFreq · sp) hq hk (KeepsQueue.leavesNone mbxDramFreqSt_keepsQueue hq) ?_
    rw [mbxDramFreqSt_granted hr hf hu hb ht hn]
    have hstatus : getF (startChange (mbxAnswer s 7 mbxGranted 0) { target := sp.val, forced := false }) bmMbxLastStatus = 0 :=
      (getF_of_regs (modMem_regs _ _)).trans getF_mbxAnswer_status
    exact ⟨hstatus, rfl, rfl, (startChange_moves rfl (mbxAnswer_moves rfl (.refl _ s))).only⟩

end

end Sys2Proof.Laws
end


section
/-! SUPPORT. A WRITE of one register (R458, R459, R463, R467): its checks, what is stored and what waits for a fence. -/

namespace Sys2Proof.Laws
open Sys2Proof Sys2Proof.Machine Sys2Proof.Safety

section
variable {s t : State} {p : Path} {a v m : Nat}

/-! ### The checks of a WRITE of one register -/

theorem addrsOf_one (a : Nat) : addrsOf a 1 = [a] := rfl

/-- R395: the answer, once the register has been written or has refused. -/
def writeResult : State × Nat → Nat × Nat × Nat × State
  | (t, 0) => (stOk, 0, 1023, t)
  | (t, d + 1) => (stRefused, d + 1, 0, t)

/-- R40, R67, R457: the checks in their order, for one register. -/
theorem writeRegs_one : writeRegs s p a m [v]
    = if regDefined a = false then (stUnmapped, 0, 0, s)
      else if benchOwned a m = true then
        (stBenchOwned, 0, 0, if !decide (p.val ≤ 3) && (touched a m).any (fun r => decide (r.acc = .rwb)) then bump s bmViolationCount else s)
      else if (decide (p.val ≤ 3) && !classOk s a m) = true then (stNotPermitted, 0, 0, s)
      else if regBusy s a = true then (stBusy, 0, 0, s)
      else writeResult (pathWrite s p a v m) := by
  unfold writeRegs
  simp only [List.length_singleton, addrsOf_one, List.isEmpty_cons, List.any_cons, List.any_nil, List.all_cons, List.all_nil,
    List.zip_cons_cons, List.zip_nil_left, Bool.or_false, Bool.and_true, ne_eq, not_true_eq_false, decide_false, Bool.not_eq_true',
    Bool.false_eq_true, Nat.reduceLT, or_self, if_false, writeAll]
  generalize pathWrite s p a v m = r
  obtain ⟨t, d⟩ := r
  cases d <;> rfl

theorem writeSt_unmapped (h : regDefined a = false) : writeSt p a m [v] s = pathAnswer s p stUnmapped 0 [0] := by
  unfold writeSt
  rw [writeRegs_one, if_pos h]

theorem writeSt_benchOwned (h : regDefined a = true) (hb : benchOwned a m = true) (hp : p.val ≤ 3) :
    writeSt p a m [v] s = pathAnswer s p stBenchOwned 0 [0] := by
  unfold writeSt
  rw [writeRegs_one, if_neg (by rw [h]; decide), if_pos hb, decide_eq_true hp]
  rfl

theorem writeSt_notPermitted (h : regDefined a = true) (hb : benchOwned a m = false) (hp : p.val ≤ 3) (hc : classOk s a m = false) :
    writeSt p a m [v] s = pathAnswer s p stNotPermitted 0 [0] := by
  have hno : (decide (p.val ≤ 3) && !classOk s a m) = true := by rw [decide_eq_true hp, hc]; rfl
  unfold writeSt
  rw [writeRegs_one, if_neg (by rw [h]; decide), if_neg (by rw [hb]; decide), if_pos hno]

/-- R395, R458: a WRITE of one register that passes every check does what the register's path does. -/
theorem writeSt_passes (h : regDefined a = true) (hb : benchOwned a m = false) (hc : p.val ≤ 3 → classOk s a m = true)
    (hbusy : regBusy s a = false) : writeSt p a m [v] s = pathAnswer (writeResult (pathWrite s p a v m)).2.2.2 p
      (writeResult (pathWrite s p a v m)).1 (writeResult (pathWrite s p a v m)).2.1 [(writeResult (pathWrite s p a v m)).2.2.1] := by
  have hyes : (decide (p.val ≤ 3) && !classOk s a m) = false := by
    by_cases hp : p.val ≤ 3
    · rw [hc hp, Bool.not_true, Bool.and_false]
    · rw [decide_eq_false hp, Bool.false_and]
  unfold writeSt
  rw [writeRegs_one, if_neg (by rw [h]; decide), if_neg (by rw [hb]; decide), if_neg (by rw [hyes]; decide),
    if_neg (by rw [hbusy]; decide)]

/-! ### Registers that the host may write -/

/-- R40, R67: a register outside Benchmark's block, none of whose fields is RWB or needs another class than `c`. -/
def openReg (a : Nat) (c : Option Nat) : Bool :=
  regDefined a && decide (a / 1024 ≠ 1) && (regRows a).all (fun r => decide (r.acc ≠ .rwb)
    && decide (fieldClass a r = none ∨ fieldClass a r = c))

theorem benchOwned_openReg {c : Option Nat} (h : openReg a c = true) (m : Nat) : benchOwned a m = false := by
  simp only [openReg, Bool.and_eq_true, decide_eq_true_eq, List.all_eq_true] at h
  obtain ⟨⟨-, hblock⟩, hrows⟩ := h
  unfold benchOwned
  rw [decide_eq_false hblock, Bool.false_or, List.any_eq_false]
  intro r hr
  obtain ⟨hacc, -⟩ := hrows r (List.mem_of_mem_filter hr)
  simpa using hacc

theorem classOk_openReg {c : Option Nat} (h : openReg a c = true) (hc : ∀ k, c = some k → permits s k = true) (m : Nat) :
    classOk s a m = true := by
  simp only [openReg, Bool.and_eq_true, decide_eq_true_eq, List.all_eq_true] at h
  obtain ⟨-, hrows⟩ := h
  refine List.all_eq_true.mpr fun r hr => ?_
  obtain ⟨-, hclass⟩ := hrows r (List.mem_of_mem_filter (List.mem_of_mem_filter hr))
  split
  · rfl
  next k e =>
    rcases hclass with hclass | hclass
    · rw [hclass] at e
      cases e
    · exact hc k (hclass.symm.trans e)

/-- R458: an open register whose class is permitted and whose island answers takes the write. -/
theorem writeSt_openReg {c : Option Nat} (h : openReg a c = true) (hc : p.val ≤ 3 → ∀ k, c = some k → permits s k = true)
    (hbusy : regBusy s a = false) (e : pathWrite s p a v m = (t, 0)) : writeSt p a m [v] s = pathAnswer t p stOk 0 [1023] := by
  have hdef : regDefined a = true := by
    simp only [openReg, Bool.and_eq_true] at h
    exact h.1.1
  rw [writeSt_passes hdef (benchOwned_openReg h m) (fun hp => classOk_openReg h (hc hp) m) hbusy, e]
  rfl

theorem writeSt_openReg_refused {c : Option Nat} {d : Nat} (h : openReg a c = true)
    (hc : p.val ≤ 3 → ∀ k, c = some k → permits s k = true) (hbusy : regBusy s a = false) (e : pathWrite s p a v m = (t, d + 1)) :
    writeSt p a m [v] s = pathAnswer t p stRefused (d + 1) [0] := by
  have hdef : regDefined a = true := by
    simp only [openReg, Bool.and_eq_true] at h
    exact h.1.1
  rw [writeSt_passes hdef (benchOwned_openReg h m) (fun hp => classOk_openReg h (hc hp) m) hbusy, e]
  rfl

/-! ### The answer of a path -/

theorem pathOf_pathAnswer {st d : Nat} {vs : List Nat} :
    pathOf (pathAnswer s p st d vs) p = { pathOf s p with status := st, detail := d, values := vs } := vget_vmod _ _ _

theorem pathOf_modPath {f : PathSt → PathSt} : pathOf (modPath s p f) p = f (pathOf s p) := vget_vmod _ _ _

theorem pathAnswer_regs {st d : Nat} {vs : List Nat} : (pathAnswer s p st d vs).regs = s.regs := rfl

theorem pathAnswer_fu {st d : Nat} {vs : List Nat} : (pathAnswer s p st d vs).fu = s.fu := rfl

theorem pathAnswer_only {st d : Nat} {vs : List Nat} : Moves [.mgmt] s (pathAnswer s p st d vs) := pathAnswer_moves rfl (.refl _ s)

/-! ### One register of a path -/

/-- R463: a register that is neither half of a pair is written at once. -/
theorem pathWrite_single (hlo : isLo a = false) (hhi : isHi a = false) :
    pathWrite s p a v m = regWrite s (decide (p.val ≤ 3)) a v m := by
  have hw : isLoWritable a = false := by unfold isLoWritable; rw [hlo, Bool.false_and]
  unfold pathWrite
  extract_lets ext x s0
  have e : s0 = s := by
    unfold s0
    rw [hlo]
    rfl
  rw [hw, if_neg Bool.false_ne_true, e]
  split
  · rw [if_neg (by rw [hhi]; exact fun k => Bool.false_ne_true k.1)]
  · rfl

/-- R463: a LO of a writable pair is staged. -/
def stageLo (s : State) (p : Path) (a v m : Nat) : State :=
  modPath (modPath s p (fun x => { x with staged := none })) p (fun x => { x with staged := some (a, v, m, elapsed s) })

theorem pathWrite_lo (h : isLoWritable a = true) : pathWrite s p a v m = (stageLo s p a v m, 0) := by
  have hlo : isLo a = true := by
    unfold isLoWritable at h
    exact (Bool.and_eq_true_iff.mp h).1
  unfold pathWrite
  rw [if_pos h, hlo]
  rfl

/-- R463: the path's staged LO is taken. -/
def unstage (s : State) (p : Path) : State := modPath s p (fun x => { x with staged := none })

theorem pathOf_unstage : pathOf (unstage s p) p = { pathOf s p with staged := none } := pathOf_modPath

/-- R463: a HI takes with it the LO staged less than 1 s before. -/
theorem pathWrite_hi {w k at_ : Nat} {u : State} {d : Nat} (hlo : isLo (a + 1) = false) (hhi : isHi (a + 1) = true)
    (hs : (pathOf s p).staged = some (a, w, k, at_)) (ht : elapsed s < at_ + secU)
    (e : regWrite (unstage s p) (decide (p.val ≤ 3)) a w k = (u, d)) :
    pathWrite s p (a + 1) v m = regWrite u (decide (p.val ≤ 3)) (a + 1) v m := by
  have hw : isLoWritable (a + 1) = false := by unfold isLoWritable; rw [hlo, Bool.false_and]
  unfold pathWrite
  extract_lets ext x s0
  have e0 : s0 = s := by
    unfold s0
    rw [hlo]
    rfl
  have hx : x.staged = some (a, w, k, at_) := hs
  rw [hw, if_neg Bool.false_ne_true, e0]
  simp only [hx]
  rw [if_pos ⟨hhi, trivial, ht⟩]
  have e' : regWrite (modPath s p (fun x => { x with staged := none })) ext a w k = (u, d) := e
  rw [e']

/-! ### One register -/

/-- R458: outside the streams and the commands, a register is stored and what waits for a fence is held. -/
theorem regWrite_stored {ext : Bool} (hr : rangeBad s a v m = false) (hst : ¬(0x8000 ≤ a ∧ a < 0xC000)) (hfence : a ≠ 0x21)
    (hev : a ≠ 0xF002) (hcmd : fenceCmd a = false) (hwo : ∀ u x, woActions u a x = u) :
    regWrite s ext a v m = (holdWrite (storeWrite s a v m) ext a v (heldMaskOf (storeWrite s a v m) a v m), 0) := by
  unfold regWrite
  extract_lets st n s1 s2 s3
  have hst' : st = false := decide_eq_false hst
  have e3 : s3 = s2 := by
    unfold s3
    rw [hcmd, if_neg Bool.false_ne_true, hwo]
  rw [hr, if_neg Bool.false_ne_true, hst', Bool.false_and, if_neg Bool.false_ne_true, Bool.false_and, Bool.false_and,
    Bool.false_and, if_neg Bool.false_ne_true, if_neg (fun k => hfence k.1), if_neg (fun k => hev k.1), e3]

/-- R459: the value a write leaves in the RW bits of a register without W1C fields. -/
def maskedValue (old v m : Nat) : Nat := (old &&& (2 ^ 20 - 1 - m)) ||| (v &&& m)

theorem maskedValue_lt {old : Nat} (hm : m < 2 ^ 20) : maskedValue old v m < 2 ^ 20 := by
  unfold maskedValue
  exact Nat.or_lt_two_pow (Nat.and_lt_two_pow _ (by omega)) (Nat.and_lt_two_pow _ hm)

theorem maskedValue_zero {old : Nat} (ho : old < 2 ^ 20) : maskedValue old v 0 = old := by
  unfold maskedValue
  rw [Nat.and_zero, Nat.or_zero, Nat.sub_zero, Nat.and_two_pow_sub_one_eq_mod, Nat.mod_eq_of_lt ho]

theorem storeWrite_masked (hm : m < 2 ^ 20) (hclr : regMask (fun r => decide (r.acc = .w1c) && !r.live) a = 0)
    (ht : ¬(0x4000 ≤ a ∧ a < 0x6000 ∧ a % 1024 = 0)) : storeWrite s a v m
      = regPut s a (maskedValue (regGet s a) v (m &&& regMask (fun r => decide (r.acc = .rw) && !r.live) a)) := by
  have hmask : m &&& regMask (fun r => decide (r.acc = .rw) && !r.live) a < 2 ^ 20 :=
    Nat.lt_of_le_of_lt Nat.and_le_left hm
  unfold storeWrite
  extract_lets rw_ clr old new s1
  have hnew : new = maskedValue (regGet s a) v rw_ := by
    have hc : clr = 0 := by unfold clr; rw [hclr, Nat.and_zero]
    have hlt : maskedValue (regGet s a) v rw_ < 2 ^ 20 := maskedValue_lt hmask
    unfold new
    rw [hc, Nat.sub_zero, Nat.and_two_pow_sub_one_eq_mod]
    exact Nat.mod_eq_of_lt hlt
  rw [if_neg (fun k => ht ⟨k.1, k.2.1, k.2.2.1⟩)]
  unfold s1
  rw [hnew]

/-! ### MG_SNAP_ADDR -/

theorem rangeBad_of_none (h : ∀ u, ranges u a = []) : rangeBad s a v m = false := by
  unfold rangeBad
  extract_lets new
  rw [h]
  rfl

theorem heldMaskOf_none (hcmd : fenceCmd a = false) (hmask : regMask (fun r => decide (r.acc = .rwf) && !r.live) a = 0) :
    heldMaskOf s a v m = 0 := by
  unfold heldMaskOf
  extract_lets w
  have hw : w = 0 := by unfold w; rw [hmask, Nat.and_zero]
  rw [hcmd, if_neg Bool.false_ne_true, hw, Nat.zero_and, ite_self, ite_self]

theorem regWrite_snapAddr {ext : Bool} (hm : m < 2 ^ 20) :
    regWrite s ext 0x31 v m = (regPut s 0x31 (maskedValue (regGet s 0x31) v m), 0) := by
  have hmask : m &&& regMask (fun r => decide (r.acc = .rw) && !r.live) 0x31 = m := by
    have e : regMask (fun r => decide (r.acc = .rw) && !r.live) 0x31 = 2 ^ 20 - 1 := by decide
    rw [e, Nat.and_two_pow_sub_one_eq_mod, Nat.mod_eq_of_lt hm]
  rw [regWrite_stored (rangeBad_of_none fun _ => rfl) (by decide) (by decide) (by decide) rfl (fun _ _ => rfl),
    storeWrite_masked hm (by decide) (by decide), hmask, heldMaskOf_none rfl (by decide)]
  exact congrArg (·, 0) (if_pos rfl)

theorem getF_full {f : Fld} (hhi : f.hi = 19) (hlo : f.lo = 0) : getF s f = regGet s f.addr := by
  unfold getF bitsOf
  rw [hhi, hlo, Nat.pow_zero, Nat.div_one]
  exact Nat.mod_eq_of_lt (regGet_lt s f.addr)

/-- R459, R464: a WRITE to MG_SNAP_ADDR. -/
def snapAddrWritten (s : State) (p : Path) (v m : Nat) : State :=
  pathAnswer (regPut s 0x31 (maskedValue (regGet s 0x31) v m)) p stOk 0 [1023]

theorem writeSt_snapAddr (hm : m < 2 ^ 20) : writeSt p 0x31 m [v] s = snapAddrWritten s p v m := by
  refine writeSt_openReg (c := none) (by decide) (fun _ k hk => absurd hk.symm (Option.some_ne_none k)) rfl ?_
  rw [pathWrite_single (by decide) (by decide), regWrite_snapAddr hm]

theorem snapAddrWritten_addr (hm : m < 2 ^ 20) : getF (snapAddrWritten s p v m) mgSnapAddrAddr
    = (getF s mgSnapAddrAddr &&& (2 ^ 20 - 1 - m)) ||| (v &&& m) := by
  have e : getF s mgSnapAddrAddr = regGet s 0x31 := getF_full rfl rfl
  unfold snapAddrWritten
  rw [getF_of_regs pathAnswer_regs, getF_full rfl rfl, e]
  exact (regGet_put s 0x31 _).trans (Nat.mod_eq_of_lt (maskedValue_lt hm))

theorem snapAddrWritten_moves : Moves [.regs, .mgmt] s (snapAddrWritten s p v m) :=
  pathAnswer_moves rfl (regPut_moves rfl (.refl _ s))

theorem snapAddrWritten_other {b : Nat} (h : b ≠ 0x31) : regGet (snapAddrWritten s p v m) b = regGet s b := regGet_put_ne s _ h

/-! ### Registers that wait for a fence -/

/-- R29: a write that waits for the next fence of its island. -/
def heldFor (s : State) (a v m : Nat) : HeldWrite := { addr := a, mask := m, value := v &&& m, serial := s.fu.issued }

theorem holdWrite_held {ext : Bool} (hst : ¬(0x8000 ≤ a ∧ a < 0xC000)) (hm : m ≠ 0) :
    (holdWrite s ext a v m).fu.held = s.fu.held ++ [heldFor s a v m] ∧ (holdWrite s ext a v m).regs = s.regs := by
  unfold holdWrite
  rw [if_neg hm]
  extract_lets s1
  have e : s1 = s := if_neg fun k => hst ⟨k.1, k.2.1⟩
  rw [e]
  exact ⟨rfl, rfl⟩

theorem heldMaskOf_rwf (hc : incClosed s a = false) (hcmd : fenceCmd a = false) (hst : ¬(0x8000 ≤ a ∧ a < 0xC000)) :
    heldMaskOf s a v m = m &&& regMask (fun r => decide (r.acc = .rwf) && !r.live) a := by
  unfold heldMaskOf
  rw [hc, if_neg Bool.false_ne_true, hcmd, if_neg Bool.false_ne_true]
  exact if_neg fun k => hst ⟨k.1, k.2.1⟩

/-- R458: a register without RW fields keeps its bits. -/
theorem storeWrite_kept (hm : m < 2 ^ 20) (hclr : regMask (fun r => decide (r.acc = .w1c) && !r.live) a = 0)
    (hrw : regMask (fun r => decide (r.acc = .rw) && !r.live) a = 0) (ht : ¬(0x4000 ≤ a ∧ a < 0x6000 ∧ a % 1024 = 0)) :
    storeWrite s a v m = regPut s a (regGet s a) := by
  rw [storeWrite_masked hm hclr ht, hrw, Nat.and_zero, maskedValue_zero (regGet_lt s a)]

theorem regGet_of_regs (e : t.regs = s.regs) (b : Nat) : regGet t b = regGet s b := by
  unfold regGet
  rw [e]

theorem regGet_putSelf (b : Nat) : regGet (regPut s a (regGet s a)) b = regGet s b := by
  by_cases h : b = a
  · subst h
    rw [regGet_put, Nat.mod_eq_of_lt (regGet_lt s b)]
  · exact regGet_put_ne s _ h

/-- A register outside the streams and the commands whose written fields all wait for a fence. -/
def fencedReg (a : Nat) : Bool :=
  decide (¬(0x8000 ≤ a ∧ a < 0xC000)) && decide (a ≠ 0x21) && decide (a ≠ 0xF002) && !fenceCmd a
    && decide (¬(0x4000 ≤ a ∧ a < 0x6000 ∧ a % 1024 = 0)) && decide (regMask (fun r => decide (r.acc = .w1c) && !r.live) a = 0)
    && decide (regMask (fun r => decide (r.acc = .rw) && !r.live) a = 0)

/-- R29, R459: what a write to such a register leaves. -/
theorem regWrite_fenced {ext : Bool} (hf : fencedReg a = true) (hr : rangeBad s a v m = false) (hwo : ∀ u x, woActions u a x = u)
    (hm : m < 2 ^ 20) (hm0 : m ≠ 0) (hc : incClosed s a = false)
    (hmask : m &&& regMask (fun r => decide (r.acc = .rwf) && !r.live) a = m) :
    ∃ u, regWrite s ext a v m = (u, 0) ∧ u.fu.held = s.fu.held ++ [heldFor s a v m] ∧ (∀ b, regGet u b = regGet s b)
      ∧ Moves [.regs, .fu] s u := by
  simp only [fencedReg, Bool.and_eq_true, Bool.not_eq_true', decide_eq_true_eq] at hf
  obtain ⟨⟨⟨⟨⟨⟨hst, hfence⟩, hev⟩, hcmd⟩, ht⟩, hclr⟩, hrw⟩ := hf
  have hc' : incClosed (regPut s a (regGet s a)) a = false := hc
  have e : regWrite s ext a v m = (holdWrite (regPut s a (regGet s a)) ext a v m, 0) := by
    rw [regWrite_stored hr hst hfence hev hcmd hwo, storeWrite_kept hm hclr hrw ht, heldMaskOf_rwf hc' hcmd hst, hmask]
  obtain ⟨hheld, hregs⟩ := holdWrite_held (s := regPut s a (regGet s a)) (ext := ext) (v := v) hst hm0
  refine ⟨_, e, hheld, fun b => (regGet_of_regs hregs b).trans (regGet_putSelf b), ?_⟩
  exact holdWrite_moves rfl (regPut_moves rfl (.refl _ s))

/-! ### TR_CLOCK.STEPS -/

theorem trClock_open (t : Fin 8) : openReg (0x4001 + 1024 * t.val) (some 13) = true := by fin_cases t <;> decide

theorem trClock_fenced (t : Fin 8) : fencedReg (0x4001 + 1024 * t.val) = true := by fin_cases t <;> decide

theorem trClock_single (t : Fin 8) : isLo (0x4001 + 1024 * t.val) = false ∧ isHi (0x4001 + 1024 * t.val) = false := by
  fin_cases t <;> decide

theorem trClock_woActions (t : Fin 8) (u : State) (x : Nat) : woActions u (0x4001 + 1024 * t.val) x = u := by
  fin_cases t <;> rfl

theorem trClock_mask (t : Fin 8) :
    63 * 2 ^ 14 &&& regMask (fun r => decide (r.acc = .rwf) && !r.live) (0x4001 + 1024 * t.val) = 63 * 2 ^ 14 := by
  fin_cases t <;> decide

theorem trClock_ranges (t : Fin 8) (u : State) : ranges u (0x4001 + 1024 * t.val) = [(19, 14, 16, 32)] := by
  fin_cases t <;> rfl

/-- R458: the bits a write of STEPS would leave in STEPS. -/
theorem steps_written (x : Nat) (hv : v < 2 ^ 20) :
    bitsOf ((x &&& (2 ^ 20 - 1 - 63 * 2 ^ 14 % 2 ^ 20)) ||| (v &&& 63 * 2 ^ 14)) 19 14 = v / 2 ^ 14 := by
  have hlow : (x &&& (2 ^ 14 - 1)) / 2 ^ 14 = 0 := by
    rw [Nat.and_two_pow_sub_one_eq_mod]
    exact Nat.div_eq_of_lt (Nat.mod_lt _ (by decide))
  have hhigh : (v &&& 63 * 2 ^ 14) / 2 ^ 14 = v / 2 ^ 14 := by
    rw [← Nat.shiftRight_eq_div_pow, Nat.shiftRight_and_distrib, Nat.shiftRight_eq_div_pow, Nat.shiftRight_eq_div_pow]
    have e : 63 * 2 ^ 14 / 2 ^ 14 = 2 ^ 6 - 1 := rfl
    rw [e, Nat.and_two_pow_sub_one_eq_mod]
    omega
  have hor : ((x &&& (2 ^ 14 - 1)) ||| (v &&& 63 * 2 ^ 14)) / 2 ^ 14 = v / 2 ^ 14 := by
    rw [← Nat.shiftRight_eq_div_pow, Nat.shiftRight_or_distrib, Nat.shiftRight_eq_div_pow, Nat.shiftRight_eq_div_pow, hlow, hhigh,
      Nat.zero_or]
  have hmask : 2 ^ 20 - 1 - 63 * 2 ^ 14 % 2 ^ 20 = 2 ^ 14 - 1 := rfl
  unfold bitsOf
  rw [hmask, hor]
  omega

theorem trClock_inRange (t : Fin 8) (hv : v < 2 ^ 20) (hlo : 16 ≤ v / 2 ^ 14) (hhi : v / 2 ^ 14 ≤ 32) :
    rangeBad s (0x4001 + 1024 * t.val) v (63 * 2 ^ 14) = false := by
  unfold rangeBad
  extract_lets new
  have hf : bitsOf new 19 14 = v / 2 ^ 14 := steps_written _ hv
  have hin : ¬(v / 2 ^ 14 < 16 ∨ 32 < v / 2 ^ 14) := by omega
  simp only [trClock_ranges, List.any_cons, List.any_nil, Bool.or_false, hf, decide_eq_false hin, Bool.and_false]

/-- R23, R29: STEPS waits for a fence. -/
theorem writeSt_steps (t : Fin 8) (hc : permits s 13 = true) (hb : regBusy s (0x4001 + 1024 * t.val) = false) (hv : v < 2 ^ 20)
    (hlo : 16 ≤ v / 2 ^ 14) (hhi : v / 2 ^ 14 ≤ 32) :
    ∃ u, writeSt p (0x4001 + 1024 * t.val) (63 * 2 ^ 14) [v] s = pathAnswer u p stOk 0 [1023]
      ∧ u.fu.held = s.fu.held ++ [heldFor s (0x4001 + 1024 * t.val) v (63 * 2 ^ 14)] ∧ (∀ b, regGet u b = regGet s b)
      ∧ Moves [.regs, .fu] s u := by
  have hclosed : incClosed s (0x4001 + 1024 * t.val) = false := by
    have : ¬(0x4001 + 1024 * t.val = 0x808 ∨ 0x4001 + 1024 * t.val = 0x809) := by omega
    unfold incClosed
    rw [decide_eq_false this, Bool.false_and]
  obtain ⟨u, e, hheld, hregs, hmoves⟩ := regWrite_fenced (ext := decide (p.val ≤ 3)) (trClock_fenced t)
    (trClock_inRange (s := s) t hv hlo hhi) (trClock_woActions t) (by decide) (by decide) hclosed (trClock_mask t)
  obtain ⟨hsingle, hpair⟩ := trClock_single t
  refine ⟨u, writeSt_openReg (trClock_open t) (fun _ k hk => ?_) hb ((pathWrite_single hsingle hpair).trans e), hheld, hregs, hmoves⟩
  obtain rfl : 13 = k := Option.some.inj hk
  exact hc

/-! ### TM_INC -/

/-- R341: under FREE both halves of TM_INC wait for a fence. -/
theorem regWrite_inc {ext : Bool} {i : Nat} (hi : i = 0x808 ∨ i = 0x809) (hfree : (timeCfg s).source = 0) (hv : v < 2 ^ 20) :
    ∃ u, regWrite s ext i v (2 ^ 20 - 1) = (u, 0) ∧ u.fu.held = s.fu.held ++ [{ heldFor s i v (2 ^ 20 - 1) with value := v }]
      ∧ (∀ b, regGet u b = regGet s b) ∧ Moves [.regs, .fu] s u := by
  have hclosed : incClosed s i = false := by
    unfold incClosed
    rw [hfree, decide_eq_false (fun h : (0 : Nat) ≠ 0 => h rfl), Bool.and_false]
  have hvalue : heldFor s i v (2 ^ 20 - 1) = { heldFor s i v (2 ^ 20 - 1) with value := v } := by
    unfold heldFor
    rw [Nat.and_two_pow_sub_one_eq_mod, Nat.mod_eq_of_lt hv]
  rw [← hvalue]
  rcases hi with rfl | rfl
  · exact regWrite_fenced (by decide) (rangeBad_of_none fun _ => rfl) (fun _ _ => rfl) (by decide) (by decide) hclosed (by decide)
  · exact regWrite_fenced (by decide) (rangeBad_of_none fun _ => rfl) (fun _ _ => rfl) (by decide) (by decide) hclosed (by decide)

/-- R463: the HI of TM_INC is written with the LO staged before it. -/
theorem writeSt_inc {w at_ : Nat} (hfree : (timeCfg s).source = 0) (hc : p.val ≤ 3 → permits s 9 = true)
    (hb : regBusy s 0x809 = false) (hs : (pathOf s p).staged = some (0x808, w, 2 ^ 20 - 1, at_)) (ht : elapsed s < at_ + secU)
    (hw : w < 2 ^ 20) (hv : v < 2 ^ 20) :
    ∃ u, writeSt p 0x809 (2 ^ 20 - 1) [v] s = pathAnswer u p stOk 0 [1023] ∧ pathOf u p = pathOf (unstage s p) p
      ∧ u.fu.held.map (fun h => (h.addr, h.value)) = s.fu.held.map (fun h => (h.addr, h.value)) ++ [(0x808, w), (0x809, v)]
      ∧ (∀ b, regGet u b = regGet s b) := by
  obtain ⟨u, eu, hheld, hregs, hmoves⟩ := regWrite_inc (s := unstage s p) (ext := decide (p.val ≤ 3)) (.inl rfl) hfree hw
  have hfree' : (timeCfg u).source = 0 := by
    have hcfg : u.cfg = s.cfg := hmoves.only.1 .cfg (by decide)
    unfold timeCfg recOf recsOf
    rw [hcfg]
    exact hfree
  obtain ⟨t, et, hheld', hregs', hmoves'⟩ := regWrite_inc (s := u) (ext := decide (p.val ≤ 3)) (.inr rfl) hfree' hv
  refine ⟨t, writeSt_openReg (c := some 9) (by decide) (fun hp k hk => ?_) hb ((pathWrite_hi (by decide) (by decide) hs ht eu).trans et),
    ?_, ?_, fun b => ?_⟩
  · obtain rfl : 9 = k := Option.some.inj hk
    exact hc hp
  · have hm : t.mgmt = (unstage s p).mgmt := (hmoves.trans hmoves').only.1 .mgmt (by decide)
    unfold pathOf
    rw [hm]
  · rw [hheld', hheld]
    simp [heldFor, unstage, modPath]
  · rw [hregs', hregs]
    rfl

/-! ### MG_FENCE.ISSUE -/

theorem regWrite_issue {ext : Bool} : regWrite s ext 0x21 (2 ^ 19) (2 ^ 19) = hostFence s := by
  unfold regWrite
  extract_lets st n s1 s2 s3
  have hst : st = false := rfl
  rw [rangeBad_of_none (fun _ => rfl), if_neg Bool.false_ne_true, hst, Bool.false_and, if_neg Bool.false_ne_true, Bool.false_and,
    Bool.false_and, Bool.false_and, if_neg Bool.false_ne_true]
  exact if_pos (by decide)

/-- R467: the host's fence, its status and identifier shown. -/
def hostFenced (s : State) : State :=
  setF (setF (issueFence s (getF s mgFenceScopeMask) .host []) mgFenceStatus 1) mgFenceHostId s.fu.nextId

theorem hostFence_room (h : s.fu.out.length < 64) : hostFence s = (hostFenced s, 0) :=
  if_pos (show fenceRoom s = true from decide_eq_true h)

theorem hostFence_full (h : 64 ≤ s.fu.out.length) : hostFence s = (setF s mgFenceStatus 2, 7) :=
  if_neg (show ¬fenceRoom s = true from fun k => Nat.not_lt.mpr h (of_decide_eq_true k))

theorem hostFenced_status : getF (hostFenced s) mgFenceStatus = 1 :=
  (getF_setF_apart _ mgFenceHostId mgFenceStatus _ rfl rfl rfl (by decide)).trans (getF_setF _ _ _ rfl)

theorem hostFenced_hostId : getF (hostFenced s) mgFenceHostId = s.fu.nextId % 1024 := getF_setF _ _ _ rfl

theorem hostFenced_fu : (hostFenced s).fu = (issueFence s (getF s mgFenceScopeMask) .host []).fu := by
  unfold hostFenced
  rw [setF_fu, setF_fu]

/-- R25, R27: the fence issued is the last of the outstanding ones. -/
theorem issueFence_last {scope : Nat} {why : FenceFor} {recs : List PlanRec} (h : s.fu.out.length < 64) :
    (issueFence s scope why recs).fu.out.getLast?.map (fun f => (f.id, f.scope)) = some (s.fu.nextId, scope % 2 ^ 18) := by
  unfold issueFence
  extract_lets f
  rw [if_pos (show fenceRoom s = true from decide_eq_true h)]
  exact congrArg (Option.map _) List.getLast?_concat

theorem fence_pathWrite : pathWrite s p 0x21 (2 ^ 19) (2 ^ 19) = hostFence s :=
  (pathWrite_single (by decide) (by decide)).trans regWrite_issue

theorem fence_permits (hc : p.val ≤ 3 → permits s 15 = true) (hp : p.val ≤ 3) (k : Nat) (hk : some 15 = some k) : permits s k = true := by
  obtain rfl : 15 = k := Option.some.inj hk
  exact hc hp

theorem writeSt_fence (hc : p.val ≤ 3 → permits s 15 = true) (h : s.fu.out.length < 64) :
    writeSt p 0x21 (2 ^ 19) [2 ^ 19] s = pathAnswer (hostFenced s) p stOk 0 [1023] :=
  writeSt_openReg (c := some 15) (by decide) (fence_permits hc) rfl (fence_pathWrite.trans (hostFence_room h))

theorem writeSt_fence_full (hc : p.val ≤ 3 → permits s 15 = true) (h : 64 ≤ s.fu.out.length) :
    writeSt p 0x21 (2 ^ 19) [2 ^ 19] s = pathAnswer (setF s mgFenceStatus 2) p stRefused 7 [0] :=
  writeSt_openReg_refused (c := some 15) (d := 6) (by decide) (fence_permits hc) rfl (fence_pathWrite.trans (hostFence_full h))

/-! ### A WRITE on a link -/

theorem wordsOf_length (n v : Nat) : (wordsOf n v).length = n := by
  induction n generalizing v with
  | zero => rfl
  | succ n ih => exact congrArg (· + 1) (ih _)

/-- R389: a WRITE of one register is within its type's limit. -/
theorem frameOk_write {src tag a c m v : Nat} :
    frameOk (rxFrame s 0x102 src tag (wordsOf 2 a ++ wordsOf 1 c ++ wordsOf 2 m ++ [v].flatMap (wordsOf 2))) = true := by
  have e : frameLimit 0x102 = some 517 := rfl
  simp only [frameOk, rxFrame, e, List.length_append, wordsOf_length, List.flatMap_cons, List.flatMap_nil, List.length_nil]
  rfl

theorem exec_write (s : State) (l : Fin 3) (tag src : Nat) (a m v : BitVec 20) : exec (.write l tag src a m [v]) s
    = .next (receive s l
        (rxFrame s 0x102 src tag (wordsOf 2 a.toNat ++ wordsOf 1 1 ++ wordsOf 2 m.toNat ++ [v.toNat].flatMap (wordsOf 2)))
        (linkWriteSt l tag src a.toNat m.toNat [v.toNat])) := rfl

/-- R395: what a WRITE of one register on a link leaves is the WRITE on its path, and frames. -/
theorem exec_write_one (l : Fin 3) (tag src : Nat) (a m v : BitVec 20) (hu : linkUp s l = true) :
    ∃ u t, exec (.write l tag src a m [v]) s = .next t ∧ Moves [.net] s u
      ∧ Moves [.net] (writeSt (linkPath l) a.toNat m.toNat [v.toNat] u) t := by
  refine ⟨noteRx s l (rxFrame s 0x102 src tag (wordsOf 2 a.toNat ++ wordsOf 1 1 ++ wordsOf 2 m.toNat ++ [v.toNat].flatMap (wordsOf 2))),
    _, (exec_write s l tag src a m v).trans (congrArg _ (receive_accepted hu frameOk_write)), noteRx_only, ?_⟩
  exact sendOn_moves rfl (.refl _ _)

theorem pathOf_of_moves {P : List Part} (h : Moves P s t) (hP : Part.mgmt ∉ P) : pathOf t p = pathOf s p := by
  have e : t.mgmt = s.mgmt := h.only.1 .mgmt hP
  unfold pathOf
  rw [e]

theorem maskedValue_full {old : Nat} (hv : v < 2 ^ 20) : maskedValue old v (2 ^ 20 - 1) = v := by
  unfold maskedValue
  rw [Nat.sub_self, Nat.and_zero, Nat.zero_or, Nat.and_two_pow_sub_one_eq_mod, Nat.mod_eq_of_lt hv]

/-! ### A stage ends -/

theorem exec_loStageExpiry {x : Nat × Nat × Nat × Nat} (hs : (pathOf s p).staged = some x) (ht : x.2.2.2 + secU ≤ elapsed s) :
    exec (.loStageExpiry p) s = .next (unstage s p) := by
  obtain ⟨a, w, k, at_⟩ := x
  have hdue : (match (pathOf s p).staged with | none => false | some (_, _, _, t) => decide (t + secU ≤ elapsed s)) = true := by
    rw [hs]
    exact decide_eq_true ht
  exact congrArg _ (whenB_of_true hdue)

theorem exec_registerWrite (s : State) (p : Path) (a v m : BitVec 20) :
    exec (.registerWrite p a v m) s = .next (writeSt p a.toNat m.toNat [v.toNat] s) := rfl

theorem exec_hostFenceIssue (s : State) (p : Path) :
    exec (.hostFenceIssue p) s = .next (writeSt p 0x21 (2 ^ 19) [2 ^ 19] s) := rfl

theorem exec_hiWriteCommit (s : State) (p : Path) (a v m : BitVec 20) :
    exec (.hiWriteCommit p a v m) s = .next (writeSt p a.toNat m.toNat [v.toNat] s) := rfl

theorem exec_loWriteStage (s : State) (p : Path) (a v m : BitVec 20) :
    exec (.loWriteStage p a v m) s = .next (writeSt p a.toNat m.toNat [v.toNat] s) := rfl

/-- Settles O45: the checks answer in their order and change no register; what passes them is stored, staged, held for a fence or
issues one. -/
theorem registerWrites : Obligations.RegisterWrites := by
  refine ⟨fun s p v m => ?_, fun s p a v m h => ?_, fun s p a v m h hb hp => ?_, fun s p a v m h hb hp hc => ?_,
    fun s p t v hc hb hs hlo hhi => ?_, fun s p a v m h hb hc hbusy hlo => ?_, fun s p v w at_ hfree hc hb hs ht => ?_,
    fun s p x hs ht => ?_, fun s p hc hroom => ?_, fun s p hc hfull => ?_, fun s l tag src v hu => ?_,
    fun s l tag src a m v hu h => ?_⟩
  · have hm : m.toNat < 2 ^ 20 := m.isLt
    refine goesOnWith_of_next ((exec_registerWrite s p 0x31 v m).trans (congrArg _ (writeSt_snapAddr hm)))
      ⟨?_, snapAddrWritten_addr hm, fun a ha => snapAddrWritten_other ha, snapAddrWritten_moves.only⟩
    exact congrArg PathSt.status pathOf_pathAnswer
  · exact goesOnWith_of_next ((exec_registerWrite s p a v m).trans (congrArg _ (writeSt_unmapped h)))
      ⟨congrArg PathSt.status pathOf_pathAnswer, pathAnswer_only.only⟩
  · exact goesOnWith_of_next ((exec_registerWrite s p a v m).trans (congrArg _ (writeSt_benchOwned h hb hp)))
      ⟨congrArg PathSt.status pathOf_pathAnswer, pathAnswer_only.only⟩
  · exact goesOnWith_of_next ((exec_registerWrite s p a v m).trans (congrArg _ (writeSt_notPermitted h hb hp hc)))
      ⟨congrArg PathSt.status pathOf_pathAnswer, pathAnswer_only.only⟩
  · have ha : (BitVec.ofNat 20 (0x4001 + 1024 * t.val)).toNat = 0x4001 + 1024 * t.val := by
      rw [BitVec.toNat_ofNat]
      omega
    obtain ⟨u, e, hheld, hregs, hmoves⟩ := writeSt_steps (p := p) t hc hb v.isLt hlo hhi
    refine goesOnWith_of_next (t := pathAnswer u p stOk 0 [1023])
      ((exec_registerWrite s p _ v _).trans (congrArg _ (by rw [ha]; exact e))) ⟨?_, ?_, ?_, ?_, ?_⟩
    · exact congrArg PathSt.status pathOf_pathAnswer
    · rw [getF_of_regs pathAnswer_regs]
      unfold getF
      rw [hregs]
    · rw [pathAnswer_fu, hheld]
      exact List.length_append
    · rw [pathAnswer_fu, hheld, List.getLast?_concat]
      rfl
    · exact (hmoves.mono rfl |>.trans (pathAnswer_only.mono rfl)).only
  · have e : writeSt p a.toNat m.toNat [v.toNat] s = pathAnswer (stageLo s p a.toNat v.toNat m.toNat) p stOk 0 [1023] := by
      rw [writeSt_passes h hb hc hbusy, pathWrite_lo hlo]
      rfl
    refine goesOnWith_of_next ((exec_loWriteStage s p a v m).trans (congrArg _ e)) ⟨?_, ?_, ?_⟩
    · exact congrArg PathSt.status pathOf_pathAnswer
    · exact (congrArg PathSt.staged pathOf_pathAnswer).trans (congrArg PathSt.staged pathOf_modPath)
    · exact (pathAnswer_moves rfl (modPath_moves rfl (modPath_moves rfl (.refl _ s)))).only
  · obtain ⟨u, e, hpath, hheld, hregs⟩ := writeSt_inc hfree hc hb hs ht w.isLt v.isLt
    refine goesOnWith_of_next ((exec_hiWriteCommit s p 0x809 v 0xFFFFF).trans (congrArg _ e)) ⟨?_, ?_, ?_, ?_⟩
    · exact congrArg PathSt.status pathOf_pathAnswer
    · refine (congrArg PathSt.staged pathOf_pathAnswer).trans ((congrArg PathSt.staged hpath).trans ?_)
      exact congrArg PathSt.staged pathOf_unstage
    · rw [pathAnswer_fu, List.map_drop, hheld]
      exact List.drop_left' (List.length_map _)
    · rw [getF_of_regs pathAnswer_regs]
      unfold getF
      rw [hregs]
  · refine goesOnWith_of_next (exec_loStageExpiry hs ht) ⟨?_, ?_, (modPath_moves rfl (.refl _ s)).only⟩
    · exact congrArg PathSt.staged pathOf_unstage
    · rw [pathOf_unstage]
  · refine goesOnWith_of_next ((exec_hostFenceIssue s p).trans (congrArg _ (writeSt_fence hc hroom))) ⟨?_, ?_, ?_, ?_, ?_, ?_⟩
    · exact congrArg PathSt.status pathOf_pathAnswer
    · rw [pathAnswer_fu, hostFenced_fu]
      exact issueFence_out hroom
    · have hscope : getF s mgFenceScopeMask < 2 ^ 18 := getF_lt s mgFenceScopeMask
      rw [pathAnswer_fu, hostFenced_fu, issueFence_last hroom, Nat.mod_eq_of_lt hscope]
    · exact (getF_of_regs pathAnswer_regs).trans hostFenced_status
    · exact (getF_of_regs pathAnswer_regs).trans hostFenced_hostId
    · exact (pathAnswer_moves rfl (setF_moves rfl (setF_moves rfl (issueFence_moves rfl (.refl _ s))))).only
  · refine goesOnWith_of_next ((exec_hostFenceIssue s p).trans (congrArg _ (writeSt_fence_full hc hfull)))
      ⟨?_, ?_, ?_, ?_, ?_⟩
    · exact congrArg PathSt.status pathOf_pathAnswer
    · exact congrArg PathSt.detail pathOf_pathAnswer
    · rw [pathAnswer_fu, setF_fu]
    · exact (getF_of_regs pathAnswer_regs).trans (getF_setF _ _ _ rfl)
    · exact (pathAnswer_moves rfl (setF_moves rfl (.refl _ s))).only
  · obtain ⟨u, t, e, hnote, hsent⟩ := exec_write_one l tag src 0x31 0xFFFFF v hu
    have hv : v.toNat < 2 ^ 20 := v.isLt
    have hw : writeSt (linkPath l) (0x31 : BitVec 20).toNat (0xFFFFF : BitVec 20).toNat [v.toNat] u
        = snapAddrWritten u (linkPath l) v.toNat (2 ^ 20 - 1) := writeSt_snapAddr (by decide)
    rw [hw] at hsent
    refine goesOnWith_of_next e ⟨?_, ?_, ?_⟩
    · rw [pathOf_of_moves hsent (by decide)]
      exact congrArg PathSt.status pathOf_pathAnswer
    · rw [getF_of_regs (hsent.only.1 .regs (by decide)), snapAddrWritten_addr (by decide)]
      exact maskedValue_full hv
    · exact (hnote.mono rfl |>.trans (snapAddrWritten_moves.mono rfl) |>.trans (hsent.mono rfl)).only
  · obtain ⟨u, t, e, hnote, hsent⟩ := exec_write_one l tag src a m v hu
    rw [writeSt_unmapped h] at hsent
    refine goesOnWith_of_next e ⟨?_, (hnote.mono rfl |>.trans (pathAnswer_only.mono rfl) |>.trans (hsent.mono rfl)).only⟩
    rw [pathOf_of_moves hsent (by decide)]
    exact congrArg PathSt.status pathOf_pathAnswer

end

end Sys2Proof.Laws
end

section
/-! SUPPORT. The sequencer's DACs (R86, R101): what putting out samples leaves of a line, and that a waveform is never put out
twice up to the same sample. -/

namespace Sys2Proof.Laws
open Sys2Proof Sys2Proof.Machine Sys2Proof.Safety

section
variable {s : State} {l : Fin 2} {limit : Nat}

/-! ### What the DACs leave of a line -/

/-- R86: the samples that a line's DACs put out up to a limit. -/
def dacOut (s : State) (l : Fin 2) (limit : Nat) : DacRun :=
  dacRun (aprScale s l.val) (envLimits s l.val).1 (envLimits s l.val).2.1 limit (vget s.probe l).emits

/-- R86, R101: the line's record after its DACs put out samples at the present time. -/
def dacTaken (now : Nat) (r : DacRun) (P : Probe) : Probe :=
  darkLaunches now (r.emits.filter (fun e => match e.cut with | none => false | some c => decide (c < e.t0 + e.n))) { P with
    emits := r.emits.filter (fun e => decide (e.pos < e.n)), dac := if r.out.isEmpty then P.dac else r.out.reverse,
    subNow := P.subNow + r.energy }

theorem dacTo_idle (h : (vget s.probe l).emits = []) : dacTo s l limit = s := if_pos (List.isEmpty_iff.mpr h)

theorem dacNow_idle (h : (vget s.probe l).emits = []) : dacNow s l = s := dacTo_idle h

theorem dacTo_probe (h : (vget s.probe l).emits ≠ []) :
    (dacTo s l limit).probe = vmod s.probe l (dacTaken (stampNow s) (dacOut s l limit)) := by
  unfold dacTo
  rw [if_neg (fun hn => h (List.isEmpty_iff.mp hn))]
  exact (muteSlots_moves (P := [.regs, .log]) rfl (muteSlots_moves rfl (bumpBy_moves rfl (.refl _ _)))).only.1 .probe (by decide)

/-- What no output of samples changes in a line's record stays. -/
theorem dacTo_keeps {α : Type} {f : Probe → α} (hf : ∀ now r P, f (dacTaken now r P) = f P) :
    f (vget (dacTo s l limit).probe l) = f (vget s.probe l) := by
  by_cases h : (vget s.probe l).emits = []
  · rw [dacTo_idle h]
  · rw [dacTo_probe h, vget_vmod, hf]

theorem dacNow_keeps {α : Type} {f : Probe → α} (hf : ∀ now r P, f (dacTaken now r P) = f P) :
    f (vget (dacNow s l).probe l) = f (vget s.probe l) := dacTo_keeps hf

/-! ### How far the waveforms have come -/

theorem foldl_min_le {α : Type} (f : α → Nat) (es : List α) (x : Nat) :
    es.foldl (fun a e => min a (f e)) x ≤ x ∧ ∀ e ∈ es, es.foldl (fun a e => min a (f e)) x ≤ f e := by
  induction es generalizing x with
  | nil => simp
  | cons e es ih =>
    obtain ⟨hx, hes⟩ := ih (min x (f e))
    refine ⟨hx.trans (Nat.min_le_left _ _), fun y hy => ?_⟩
    rcases List.mem_cons.mp hy with rfl | hy
    · exact hx.trans (Nat.min_le_right _ _)
    · exact hes y hy

theorem le_foldl_max {α : Type} (f : α → Nat) (es : List α) (x : Nat) :
    x ≤ es.foldl (fun a e => max a (f e)) x ∧ ∀ e ∈ es, f e ≤ es.foldl (fun a e => max a (f e)) x := by
  induction es generalizing x with
  | nil => simp
  | cons e es ih =>
    obtain ⟨hx, hes⟩ := ih (max x (f e))
    refine ⟨(Nat.le_max_left _ _).trans hx, fun y hy => ?_⟩
    rcases List.mem_cons.mp hy with rfl | hy
    · exact (Nat.le_max_right _ _).trans hx
    · exact hes y hy

/-- Every waveform has been put out up to DAC sample `t`, and none covers samples from `top` on. -/
def dacAt (t top : Nat) (es : List Emit) : Prop := ∀ e ∈ es, t ≤ e.t0 + e.pos ∧ e.t0 + e.n ≤ top

theorem mem_dacSample {apr pk en t : Nat} {r : DacRun} {e : Emit} (h : e ∈ (dacSample apr pk en r t).emits) :
    ∃ d ∈ r.emits, e.t0 = d.t0 ∧ e.n = d.n ∧ e.pos = if d.t0 + d.pos = t then d.pos + 1 else d.pos := by
  obtain ⟨y, hy, rfl⟩ := List.mem_map.mp h
  obtain ⟨x, hx, rfl⟩ := List.mem_map.mp hy
  exact ⟨x.1, (List.of_mem_zip hx).1, rfl, rfl, rfl⟩

theorem dacSample_at {apr pk en t top : Nat} {r : DacRun} (h : dacAt t top r.emits) :
    dacAt (t + 1) top (dacSample apr pk en r t).emits := by
  intro e he
  obtain ⟨d, hd, ht0, hn, hpos⟩ := mem_dacSample he
  obtain ⟨hfrom, htop⟩ := h d hd
  rw [ht0, hn, hpos]
  refine ⟨?_, htop⟩
  split <;> omega

theorem dacSamples_at {apr pk en from_ top : Nat} {r : DacRun} (h : dacAt from_ top r.emits) (n : Nat) :
    dacAt (from_ + n) top ((List.range n).foldl (fun r i => dacSample apr pk en r (from_ + i)) r).emits := by
  induction n with
  | zero => exact h
  | succ n ih =>
    rw [List.range_succ, List.foldl_append]
    exact dacSample_at ih

/-- R86: the waveforms that are not yet over stand at the limit. -/
theorem dacRun_at {apr pk en : Nat} {es : List Emit} {e : Emit} (he : e ∈ (dacRun apr pk en limit es).emits) (hn : e.pos < e.n) :
    limit ≤ e.t0 + e.pos := by
  obtain ⟨-, hfrom⟩ := foldl_min_le (fun e : Emit => e.t0 + e.pos) es limit
  obtain ⟨-, htop⟩ := le_foldl_max (fun e : Emit => e.t0 + e.n) es 0
  obtain ⟨hpos, hend⟩ := dacSamples_at (r := { emits := es, sat := 0, peakMask := 0, energyMask := 0, energy := 0, out := [] })
    (fun d hd => ⟨hfrom d hd, htop d hd⟩) _ e he
  omega

/-- Waveforms that stand at the limit put out nothing more. -/
theorem dacRun_of_at {apr pk en : Nat} {es : List Emit} (h : ∀ e ∈ es, limit ≤ e.t0 + e.pos) :
    dacRun apr pk en limit es = { emits := es, sat := 0, peakMask := 0, energyMask := 0, energy := 0, out := [] } := by
  have hfrom : es.foldl (fun a e => min a (e.t0 + e.pos)) limit = limit := by
    induction es with
    | nil => rfl
    | cons e es ih =>
      rw [List.foldl_cons, Nat.min_eq_left (h e (.head _))]
      exact ih fun d hd => h d (.tail _ hd)
  unfold dacRun
  rw [hfrom]
  dsimp only
  rw [Nat.sub_eq_zero_of_le (Nat.min_le_left _ _)]
  rfl

theorem dacTo_at : ∀ e ∈ (vget (dacTo s l limit).probe l).emits, limit ≤ e.t0 + e.pos := by
  intro e he
  by_cases h : (vget s.probe l).emits = []
  · rw [dacTo_idle h, h] at he
    cases he
  · rw [dacTo_probe h, vget_vmod] at he
    obtain ⟨hrun, hn⟩ := List.mem_filter.mp he
    exact dacRun_at hrun (of_decide_eq_true hn)

theorem dacTo_energy_of_at (h : ∀ e ∈ (vget s.probe l).emits, limit ≤ e.t0 + e.pos) :
    (vget (dacTo s l limit).probe l).subNow = (vget s.probe l).subNow := by
  by_cases he : (vget s.probe l).emits = []
  · rw [dacTo_idle he]
  · rw [dacTo_probe he, vget_vmod, dacOut, dacRun_of_at h]
    rfl

/-! ### Muted slots -/

theorem muteSlots_probe {cause mask : Nat} : (muteSlots s l cause mask).probe = s.probe :=
  (muteSlots_moves (P := [.regs, .log]) rfl (.refl _ s)).only.1 .probe (by decide)

/-- The fields of PS_MUTE lie apart in its register. -/
theorem psMute_fits (l : Fin 2) : Fld.fits (psMuteMuted l.val) = true ∧ Fld.fits (psMuteCause l.val) = true := by
  match l with
  | 0 => exact ⟨rfl, rfl⟩
  | 1 => exact ⟨rfl, rfl⟩

theorem muteSlots_mutes {cause mask : Nat} (h : mask ≠ 0) :
    getF (muteSlots s l cause mask) (psMuteMuted l.val) = (getF s (psMuteMuted l.val) ||| mask) % 2 ^ 16
      ∧ getF (muteSlots s l cause mask) (psMuteCause l.val) = cause % 4 := by
  obtain ⟨hmuted, hcause⟩ := psMute_fits l
  have hlog : 0x1802 + 1024 * l.val ∉ [0xF008] := by
    have := l.isLt
    simp only [List.mem_singleton]
    omega
  have hlogged (u : State) {f : Fld} (hf : f.addr = 0x1802 + 1024 * l.val) {c : Prop} [Decidable c] {code island sev unit_ arg : Nat} :
      getF (if c then u else logEvent u code island sev unit_ arg) f = getF u f :=
    getF_of_writes (A := [0xF008]) (.ite (.refl _ u) (logEvent_writes (by simp) (.refl _ u))) (by rw [hf]; exact hlog)
  unfold muteSlots
  rw [if_neg h]
  extract_lets old newly s1
  rw [hlogged s1 rfl, hlogged s1 rfl]
  exact ⟨(getF_setF_apart _ _ _ _ hcause hmuted rfl (.inr (show 15 < 18 by decide))).trans (getF_setF _ _ _ hmuted),
    getF_setF _ _ _ hcause⟩

end

end Sys2Proof.Laws
end

section
/-! SUPPORT. Launch commands, launches and the envelope's sub-windows (R95, R97, R101). -/

namespace Sys2Proof.Laws
open Sys2Proof Sys2Proof.Machine Sys2Proof.Safety

section
variable {s t u : State} {l : Fin 2}

/-! ### A launch command arrives -/

theorem vmod_self {α : Type} {n : Nat} {v : Vector α n} {i : Fin n} {f : α → α} (h : f (vget v i) = vget v i) : vmod v i f = v :=
  (congrArg (Vector.set v i.val · i.isLt) h).trans (Vector.set_getElem_self i.isLt)

theorem modProbe_self {f : Probe → Probe} (h : f (vget s.probe l) = vget s.probe l) : modProbe s l f = s :=
  congrArg (fun p => { s with probe := p }) (vmod_self h)

theorem originDue_of_none {now : Nat} {P : Probe} (h : P.newOrigins = []) : originDue now P = P := by
  unfold originDue
  rw [h]
  rfl

theorem laterOrigins_of_none {P : Probe} {k : Nat} (h : P.newOrigins = []) : laterOrigins P k = [] := by
  unfold laterOrigins
  rw [h]
  split <;> rfl

theorem moveToNew_of_none {P : Probe} {c : SlotCfg} (h : P.newOrigins = []) : moveToNew s P c = P := by
  unfold moveToNew
  rw [laterOrigins_of_none h]
  rfl

/-- R95: the sequencer holds the command of a slot's next schedule point. -/
def holdCmd (c : SlotCfg) (x : Nat) (P : Probe) : Probe :=
  { setNextM P c.slot (lget 0 P.nextM.toList c.slot + 1) with
    cmds := P.cmds ++ [{ slot := c.slot, m := lget 0 P.nextM.toList c.slot, time := x }] }

/-- R95: with no new origin accepted the schedule stands, and a command goes by its time alone. -/
theorem launchCmdSt_scheduled {k : Fin 16} {c : SlotCfg} {x : Nat} (hc : slotAt s l.val k.val = some c)
    (hnew : (vget s.probe l).newOrigins = []) (hx : nextPoint s (vget s.probe l) c = some x) :
    launchCmdSt l k s = if x < stampNow s + 200 * nsU then discardLaunch s l c x else modProbe s l (holdCmd c x) := by
  have hself : modProbe s l (fun P => moveToNew s (originDue (stampNow s) P) c) = s :=
    modProbe_self (by rw [originDue_of_none hnew, moveToNew_of_none hnew])
  unfold launchCmdSt
  rw [hc]
  dsimp only
  rw [hself, hx]
  rfl

theorem discardLaunch_cmds {c : SlotCfg} {x : Nat} :
    (vget (discardLaunch s l c x).probe l).cmds = (vget s.probe l).cmds := by
  unfold discardLaunch
  rw [modProbe_probe, vget_vmod]
  rfl

theorem psLateCount_fits (l : Fin 2) : Fld.fits (psLateCount l.val) = true := by
  match l with
  | 0 => rfl
  | 1 => rfl

/-! ### What a launch leaves of the held commands -/

/-- The line's sequencer holds the same commands in both states, and no other line's record differs. -/
structure HoldsCmds (l : Fin 2) (s t : State) : Prop where
  cmds : (vget t.probe l).cmds = (vget s.probe l).cmds
  others : ∀ k, k ≠ l → vget t.probe k = vget s.probe k

theorem HoldsCmds.of_probe (e : t.probe = s.probe) : HoldsCmds l s t := ⟨by rw [e], fun _ _ => by rw [e]⟩

theorem HoldsCmds.refl (l : Fin 2) (s : State) : HoldsCmds l s s := .of_probe rfl

theorem HoldsCmds.trans (h : HoldsCmds l s t) (k : HoldsCmds l t u) : HoldsCmds l s u :=
  ⟨k.cmds.trans h.cmds, fun m hm => (k.others m hm).trans (h.others m hm)⟩

theorem HoldsCmds.ite {c : Prop} [Decidable c] (ht : HoldsCmds l s t) (hu : HoldsCmds l s u) : HoldsCmds l s (if c then t else u) := by
  split <;> assumption

theorem HoldsCmds.modProbe {f : Probe → Probe} (hf : ∀ P, (f P).cmds = P.cmds) : HoldsCmds l s (Machine.modProbe s l f) :=
  ⟨by rw [modProbe_probe, vget_vmod, hf], fun _ hk => vget_vmod_ne _ _ hk.symm⟩

theorem foldl_keeps_cmds {α : Type} {g : Probe → α → Probe} (hg : ∀ P x, (g P x).cmds = P.cmds) (xs : List α) (P : Probe) :
    (xs.foldl g P).cmds = P.cmds :=
  List.foldlRecOn (motive := fun Q => Q.cmds = P.cmds) xs g rfl fun Q hQ x _ => (hg Q x).trans hQ

theorem reachOrigin_cmds {P : Probe} {n : Nat} : (reachOrigin P n).cmds = P.cmds :=
  foldl_keeps_cmds (g := moveSlot n) (fun _ _ => rfl) _ P

theorem originDue_cmds {now : Nat} {P : Probe} : (originDue now P).cmds = P.cmds :=
  foldl_keeps_cmds (fun Q n => by split; exacts [reachOrigin_cmds, rfl]) _ P

theorem passPoints_cmds {time : Nat} {set : List (SlotCfg × Nat)} {P : Probe} : (passPoints time set P).cmds = P.cmds :=
  foldl_keeps_cmds (fun Q x => by split <;> rfl) _ P

theorem slewLaunch_holds {time : Nat} : HoldsCmds l s (slewLaunch s l time) :=
  have hdraw : HoldsCmds l s (draw s).2 := .of_probe rfl
  .ite (.modProbe fun _ => rfl) (.ite (hdraw.trans (.modProbe fun _ => rfl)) (.refl l s))

theorem dacTo_holds {limit : Nat} : HoldsCmds l s (dacTo s l limit) :=
  ⟨dacTo_keeps fun _ _ _ => rfl, fun _ hk => dacTo_otherProbe hk.symm⟩

theorem fireRaman_holds {time : Nat} {set : List (SlotCfg × Nat)} {dark : SlotCfg → Bool} :
    HoldsCmds l s (fireRaman s l time set dark) := by
  unfold fireRaman
  split
  · split
    · exact .ite (.modProbe fun _ => rfl) (.refl l s)
    · exact .refl l s
  · exact .refl l s

theorem countPoint_holds {set : List (SlotCfg × Nat)} : HoldsCmds l s (countPoint s l set) :=
  .of_probe ((countPoint_moves (P := [.pce]) rfl (.refl _ s)).only.1 .probe (by decide))

/-- The earliest of the held commands' times is the time of one of them. -/
theorem earliest_mem {cmds : List LaunchCmd} {t0 : Nat} {ts : List Nat} (h : cmds.map (fun c => c.time) = t0 :: ts) :
    ∃ c ∈ cmds, c.time = ts.foldl min t0 := by
  have hmem : ts.foldl min t0 ∈ t0 :: ts := List.min?_mem rfl
  rw [← h] at hmem
  exact List.mem_map.mp hmem

/-- R94: a launch takes the commands due at its time, one at least, and leaves the others and the other line's record. -/
theorem probeLaunchSt_cmds (h : (vget s.probe l).cmds ≠ []) : ∃ time, (∃ c ∈ (vget s.probe l).cmds, c.time = time)
    ∧ (vget (probeLaunchSt l s).probe l).cmds = (vget s.probe l).cmds.filter (fun c => c.time ≠ time)
    ∧ ∀ k, k ≠ l → vget (probeLaunchSt l s).probe k = vget s.probe k := by
  unfold probeLaunchSt
  split
  · next hnil => exact absurd (List.map_eq_nil_iff.mp hnil) h
  · next t0 ts htimes =>
    extract_lets time s' set dark es mask before s1 s2 s5 time5 zn5 s6
    have hbefore : HoldsCmds l s before :=
      (HoldsCmds.modProbe fun _ => originDue_cmds).trans (slewLaunch_holds.trans dacTo_holds)
    have h1 : (vget s1.probe l).cmds = (vget s.probe l).cmds.filter (fun c => c.time ≠ time) := by
      rw [← hbefore.cmds]
      exact congrArg Probe.cmds (vget_vmod _ _ _)
    have hothers : ∀ k, k ≠ l → vget s1.probe k = vget s.probe k := fun k hk =>
      (vget_vmod_ne _ _ hk.symm).trans (hbefore.others k hk)
    have h2 : HoldsCmds l s1 s2 := .of_probe rfl
    have hfire : HoldsCmds l s2 (fireRaman s2 l time set dark) := fireRaman_holds
    have h5 : HoldsCmds l s1 s5 := h2.trans (hfire.trans countPoint_holds)
    have h6 : HoldsCmds l s1 s6 := h5.trans (.of_probe rfl)
    have hphase : HoldsCmds l s1 (if bootPhase s6 = 10 then setF s6 bmStateBootPhase 11 else s6) :=
      .ite (h6.trans (.of_probe (setF_probe _ _ _))) h6
    obtain ⟨hcmds, hrest⟩ := HoldsCmds.ite (c := set.any (fun x => !(dark x.1)) = true) hphase h5
    exact ⟨time, earliest_mem htimes, hcmds.trans h1, fun k hk => (hrest k hk).trans (hothers k hk)⟩

/-! ### A sub-window of the envelope ends -/

/-- R101: the next sub-window begins, and the last sixteen are kept. -/
def nextSubwindow (P : Probe) : Probe := { P with subs := (P.subNow :: P.subs).take 16, subNow := 0 }

/-- R101: the energy of the last sixteen sub-windows exceeds the line's AVG_MAX. -/
def overAverage (s : State) (l : Fin 2) (P : Probe) : Prop :=
  (envelopeOf s l.val).isSome ∧ (envLimits s l.val).2.2 * 2 ^ 20 < sumN P.subs

/-- R101: every active slot of the line is muted for its average. -/
def muteActive (s : State) (l : Fin 2) : State := muteSlots (cutSlots s l (activeMask s l.val)) l 3 (activeMask s l.val)

theorem subwindowSt_within (h : ¬overAverage s l (vget (modProbe (dacNow s l) l nextSubwindow).probe l)) :
    subwindowSt l s = modProbe (dacNow s l) l nextSubwindow := if_neg h

theorem subwindowSt_over (h : overAverage s l (vget (modProbe (dacNow s l) l nextSubwindow).probe l)) :
    subwindowSt l s = muteActive (modProbe (dacNow s l) l nextSubwindow) l := if_pos h

/-- A sub-window that has just begun, at the present time. -/
theorem nextSubwindow_probe : vget (modProbe (dacNow s l) l nextSubwindow).probe l = nextSubwindow (vget (dacNow s l).probe l) :=
  vget_vmod _ _ _

/-- R101: cutting slots leaves the sub-windows where the DACs have put out all there was. -/
theorem cutSlots_subwindows {mask : Nat} (h : ∀ e ∈ (vget s.probe l).emits, dacTime s (stampNow s) / dacU ≤ e.t0 + e.pos) :
    (vget (cutSlots s l mask).probe l).subNow = (vget s.probe l).subNow
      ∧ (vget (cutSlots s l mask).probe l).subs = (vget s.probe l).subs :=
  ⟨(congrArg Probe.subNow (vget_vmod _ _ _)).trans (dacTo_energy_of_at h),
    (congrArg Probe.subs (vget_vmod _ _ _)).trans (dacNow_keeps (f := Probe.subs) fun _ _ _ => rfl)⟩

theorem dacNow_clock : dacTime (modProbe (dacNow s l) l nextSubwindow) (stampNow (modProbe (dacNow s l) l nextSubwindow))
    = dacTime s (stampNow s) := by
  have hm := (dacNow_moves (P := [.regs, .log, .probe]) (l := l) rfl (.refl _ s)).only
  have hnow : (modProbe (dacNow s l) l nextSubwindow).now = s.now := hm.1 .now (by decide)
  have hup : (modProbe (dacNow s l) l nextSubwindow).up = s.up := hm.1 .up (by decide)
  unfold dacTime elapsed stampNow
  rw [hnow, hup]

/-- R101: muting at the end of a sub-window leaves the new sub-window and the last sixteen. -/
theorem subwindowSt_subwindows : (vget (subwindowSt l s).probe l).subNow = 0
    ∧ (vget (subwindowSt l s).probe l).subs = ((vget (dacNow s l).probe l).subNow :: (vget s.probe l).subs).take 16 := by
  have hsubs : (vget (dacNow s l).probe l).subs = (vget s.probe l).subs := dacNow_keeps fun _ _ _ => rfl
  rw [← hsubs]
  by_cases h : overAverage s l (vget (modProbe (dacNow s l) l nextSubwindow).probe l)
  · have hat : ∀ e ∈ (vget (modProbe (dacNow s l) l nextSubwindow).probe l).emits,
        dacTime (modProbe (dacNow s l) l nextSubwindow) (stampNow (modProbe (dacNow s l) l nextSubwindow)) / dacU ≤ e.t0 + e.pos := by
      rw [dacNow_clock, nextSubwindow_probe]
      exact dacTo_at
    obtain ⟨hnow, hlast⟩ := cutSlots_subwindows (mask := activeMask (modProbe (dacNow s l) l nextSubwindow) l.val) hat
    rw [subwindowSt_over h, muteActive, muteSlots_probe, hnow, hlast, nextSubwindow_probe]
    exact ⟨rfl, rfl⟩
  · rw [subwindowSt_within h, nextSubwindow_probe]
    exact ⟨rfl, rfl⟩

/-- R101: with no waveform in progress, slots that are cut change no register. -/
theorem cutSlots_idle_regs {mask : Nat} (h : (vget s.probe l).emits = []) : (cutSlots s l mask).regs = s.regs := by
  unfold cutSlots
  rw [modProbe_regs, dacNow_idle h]

/-- Settles O15: a command goes by the time of its slot's next point; a launch filters the held commands by its time; the DACs
have nothing left to put out when a sub-window that ends over AVG_MAX mutes the line. -/
theorem launches : Obligations.Launches := by
  refine ⟨fun s l k c x hc hnew hx hdue => ?_, fun s l k c x hc hnew hx hlate => ?_, fun s l hcmds => ?_, fun s l => ?_,
    fun s l hidle henv hmask hover => ?_⟩
  · refine goesOnWith_of_step (f := launchCmdSt l k) rfl ((launchCmdSt_scheduled hc hnew hx).trans (if_neg (Nat.not_lt.mpr hdue)))
      ⟨congrArg Probe.cmds (vget_vmod _ _ _), ?_⟩
    exact (modProbe_moves (f := holdCmd c x) (P := [.probe]) rfl (fun _ hp => hp) (.refl _ s)).only
  · refine goesOnWith_of_step (f := launchCmdSt l k) rfl ((launchCmdSt_scheduled hc hnew hx).trans (if_pos hlate))
      ⟨?_, discardLaunch_cmds, (discardLaunch_moves rfl (.refl _ s)).only⟩
    exact (getF_of_regs (modProbe_regs _ _ _)).trans (getF_bump s _ (psLateCount_fits l))
  · obtain ⟨time, ⟨c, hc, htime⟩, hheld, hothers⟩ := probeLaunchSt_cmds hcmds
    refine goesOnWith_of_next rfl ⟨?_, hothers⟩
    rw [hheld]
    exact List.length_filter_lt_length_iff_exists.mpr ⟨c, hc, by simp [htime]⟩
  · obtain ⟨hnow, hsubs⟩ := subwindowSt_subwindows (s := s) (l := l)
    refine goesOnWith_of_next rfl ⟨hnow, ?_, (subwindowSt_moves rfl (.refl _ s)).only⟩
    rw [hsubs]
    rfl
  · have hnext : vget (modProbe s l nextSubwindow).probe l = nextSubwindow (vget s.probe l) := vget_vmod _ _ _
    have hstep : subwindowSt l s = muteActive (modProbe s l nextSubwindow) l := by
      have hold := subwindowSt_over (s := s) (l := l)
      rw [dacNow_idle hidle, hnext] at hold
      exact hold ⟨henv, hover⟩
    refine goesOnWith_of_step (f := subwindowSt l) rfl hstep ?_
    obtain ⟨hmuted, hcause⟩ := muteSlots_mutes (s := cutSlots (modProbe s l nextSubwindow) l (activeMask s l.val)) (l := l)
      (cause := 3) hmask
    have hregs : (cutSlots (modProbe s l nextSubwindow) l (activeMask s l.val)).regs = s.regs :=
      (cutSlots_idle_regs (by rw [hnext]; exact hidle)).trans (modProbe_regs _ _ _)
    rw [getF_of_regs hregs] at hmuted
    exact ⟨hmuted, hcause⟩

end

end Sys2Proof.Laws
end

section
/-! SUPPORT. Arming and disarming a line, its interlock, and fibre break (R99, R100, R104, R105). -/

namespace Sys2Proof.Laws
open Sys2Proof Sys2Proof.Machine Sys2Proof.Safety

section
variable {s : State} {l : Fin 2}

/-! ### LASER_ARM -/

/-- R99: the line's record once it is armed: a schedule that waits for the grant takes its origin at `at_`. -/
def armedProbe (settle at_ : Nat) (P : Probe) : Probe :=
  let P1 := if P.needOrigin then startOrigin P at_ else P
  { P1 with laserEn := !P1.ilkLow, settleTo := settle }

/-- R99, R105: the fields of PS_STATUS and PS_MUTE that arming writes. -/
def armRegs (s : State) (l : Fin 2) : State :=
  setF (setF (setF (setF s (psStatusArmed l.val) 1) (psMuteMuted l.val) 0) (psMuteCause l.val) 0) (psStatusApr l.val) 0

/-- R100: with no fall of the interlock input near, arming goes through. -/
theorem armLine_eq (h : (vget s.probe l).ilkAt = none) :
    ∃ settle at_, armLine s l = apdUpdate (modProbe (armRegs (dacNow s l) l) l (armedProbe settle at_)) l := by
  unfold armLine
  rw [h]
  exact ⟨_, _, rfl⟩

theorem armedProbe_laserEn {settle at_ : Nat} {P : Probe} (h : P.ilkLow = false) : (armedProbe settle at_ P).laserEn = true := by
  have horigin : (if P.needOrigin then startOrigin P at_ else P).ilkLow = false := by
    split <;> exact h
  exact congrArg not horigin

theorem psStatus_fits (l : Fin 2) : Fld.fits (psStatusArmed l.val) = true ∧ Fld.fits (psStatusApr l.val) = true := by
  match l with
  | 0 => exact ⟨rfl, rfl⟩
  | 1 => exact ⟨rfl, rfl⟩

/-- PS_STATUS and PS_MUTE are two registers. -/
theorem psStatus_ne_psMute (l : Fin 2) : 0x1800 + 1024 * l.val ≠ 0x1802 + 1024 * l.val := by omega

theorem armRegs_probe : (armRegs s l).probe = s.probe := by
  unfold armRegs
  rw [setF_probe, setF_probe, setF_probe, setF_probe]

theorem armRegs_armed : getF (armRegs s l) (psStatusArmed l.val) = 1 := by
  obtain ⟨harmed, hapr⟩ := psStatus_fits l
  unfold armRegs
  rw [getF_setF_apart _ _ _ _ hapr harmed rfl (.inl (show 17 < 19 by decide)), getF_setF_ne _ _ _ _ (psStatus_ne_psMute l),
    getF_setF_ne _ _ _ _ (psStatus_ne_psMute l)]
  exact getF_setF _ _ _ harmed

theorem armRegs_muted : getF (armRegs s l) (psMuteMuted l.val) = 0 := by
  obtain ⟨hmuted, hcause⟩ := psMute_fits l
  unfold armRegs
  rw [getF_setF_ne _ _ _ _ (psStatus_ne_psMute l).symm,
    getF_setF_apart _ _ _ _ hcause hmuted rfl (.inr (show 15 < 18 by decide))]
  exact getF_setF _ _ _ hmuted

theorem apdUpdate_regs : (apdUpdate s l).regs = s.regs :=
  (apdUpdate_moves (P := [.conv]) rfl (.refl _ s)).only.1 .regs (by decide)

/-- R99: a grant arms the line, turns its laser on and clears its mutes. -/
theorem armLine_arms (hat : (vget s.probe l).ilkAt = none) (hilk : (vget s.probe l).ilkLow = false) :
    (vget (armLine s l).probe l).laserEn = true ∧ getF (armLine s l) (psStatusArmed l.val) = 1
      ∧ getF (armLine s l) (psMuteMuted l.val) = 0 := by
  obtain ⟨settle, at_, e⟩ := armLine_eq hat
  have hregs : (armLine s l).regs = (armRegs (dacNow s l) l).regs := by rw [e, apdUpdate_regs, modProbe_regs]
  refine ⟨?_, (getF_of_regs hregs).trans armRegs_armed, (getF_of_regs hregs).trans armRegs_muted⟩
  rw [e, apdUpdate_probe, modProbe_probe, vget_vmod, armRegs_probe]
  exact armedProbe_laserEn ((dacNow_keeps (f := Probe.ilkLow) fun _ _ _ => rfl).trans hilk)

theorem armConditions_ilk (h : armConditions s l = true) : (vget s.probe l).ilkLow = false := by
  simp only [armConditions, Bool.and_eq_true, Bool.not_eq_true'] at h
  obtain ⟨⟨⟨-, hilk⟩, -⟩, -⟩ := h
  exact hilk

theorem laserArmSt_eq (hlife : lifecycle s ≠ 3) (hstand : inStandby s = false) :
    laserArmSt l s = if armConditions s l then mbxAnswer (armLine (setRearm s l false) l) 3 mbxGranted 0
      else mbxRefuse (setRearm s l false) 3 := by
  have hasked : ¬(lifecycle (setRearm s l false) = 3
      ∨ inStandby (setRearm s l false) = true ∧ (setRearm s l false).keeper.transit ≠ 2) := by
    rintro (h | ⟨h, -⟩)
    · exact hlife h
    · exact Bool.false_ne_true (hstand.symm.trans h)
  exact if_neg hasked

theorem laserArmSt_granted (hlife : lifecycle s ≠ 3) (hstand : inStandby s = false) (hcond : armConditions s l = true) :
    laserArmSt l s = mbxAnswer (armLine (setRearm s l false) l) 3 mbxGranted 0 := (laserArmSt_eq hlife hstand).trans (if_pos hcond)

theorem laserArmSt_refused (hlife : lifecycle s ≠ 3) (hstand : inStandby s = false) (hcond : armConditions s l = false) :
    laserArmSt l s = mbxRefuse (setRearm s l false) 3 :=
  (laserArmSt_eq hlife hstand).trans (if_neg (by rw [hcond]; exact Bool.false_ne_true))

theorem mbxAnswer_probe {code status detail : Nat} : (mbxAnswer s code status detail).probe = s.probe :=
  (mbxAnswer_only (P := [.regs, .keeper]) rfl).1 .probe (by decide)

/-! ### Disarming and the interlock -/

theorem staleLine_probe {code : Nat} : (staleLine s l code).probe = s.probe :=
  (staleLine_moves (P := [.regs, .net, .zn]) rfl (.refl _ s)).only.1 .probe (by decide)

theorem laserDisarmSt_probe : (laserDisarmSt l s).probe = (disarmLine (setRearm s l false) l).probe :=
  mbxAnswer_probe.trans staleLine_probe

/-- R100: disarming leaves the interlock input and the time of its last fall. -/
theorem disarmLine_interlock : (vget (disarmLine s l).probe l).ilkLow = (vget s.probe l).ilkLow
    ∧ (vget (disarmLine s l).probe l).ilkAt = (vget s.probe l).ilkAt := by
  unfold disarmLine
  extract_lets s1
  rw [apdUpdate_probe, modProbe_probe, vget_vmod, setF_probe, cutLine, modProbe_probe, vget_vmod]
  exact ⟨dacNow_keeps (f := Probe.ilkLow) fun _ _ _ => rfl, dacNow_keeps (f := Probe.ilkAt) fun _ _ _ => rfl⟩

/-- R100: Ln_ILK_N is seen to fall. -/
def ilkFallen (at_ : Nat) (P : Probe) : Probe := { P with ilkLow := true, ilkAt := some at_, laserEn := false }

theorem ilkTripSt_probe (h : (vget s.probe l).ilkLow = false) :
    (ilkTripSt l s).probe = (disarmLine (setRearm (modProbe s l (ilkFallen (elapsed s))) l false) l).probe := by
  unfold ilkTripSt
  rw [if_neg (by rw [h]; exact Bool.false_ne_true)]
  exact staleLine_probe.trans ((logEvent_moves (P := [.regs, .log]) rfl (.refl _ _)).only.1 .probe (by decide))

/-! ### Fibre break -/

theorem psBreak_fits (l : Fin 2) : Fld.fits (psBreakActive l.val) = true ∧ Fld.fits (psBreakStation l.val) = true := by
  match l with
  | 0 => exact ⟨rfl, rfl⟩
  | 1 => exact ⟨rfl, rfl⟩

/-- R104: PS_BREAK shows the break and PS_STATUS the APR level. -/
def breakRegs (s : State) (l : Fin 2) (b : Nat) : State :=
  setF (setF (setF s (psBreakActive l.val) 1) (psBreakStation l.val) b) (psStatusApr l.val) 1

theorem psBreak_ne_psStatus (l : Fin 2) : 0x1805 + 1024 * l.val ≠ 0x1800 + 1024 * l.val := by omega

theorem breakRegs_log {b : Nat} : (breakRegs s l b).log = s.log := by
  unfold breakRegs
  rw [setF_log, setF_log, setF_log]

theorem breakRegs_active {b : Nat} : getF (breakRegs s l b) (psBreakActive l.val) = 1 := by
  obtain ⟨hactive, hstation⟩ := psBreak_fits l
  unfold breakRegs
  rw [getF_setF_ne _ _ _ _ (psBreak_ne_psStatus l),
    getF_setF_apart _ _ _ _ hstation hactive rfl (.inl (show 17 < 19 by decide))]
  exact getF_setF _ _ _ hactive

theorem breakRegs_station {b : Nat} : getF (breakRegs s l b) (psBreakStation l.val) = b % 2 ^ 18 :=
  (getF_setF_ne _ _ _ _ (psBreak_ne_psStatus l)).trans (getF_setF _ _ _ (psBreak_fits l).2)

theorem breakRegs_apr {b : Nat} : getF (breakRegs s l b) (psStatusApr l.val) = 1 := getF_setF _ _ _ (psStatus_fits l).2

/-- R104: a break is raised in the registers, logged and marked on the zones beyond it. -/
theorem breakRaiseSt_found {b : Nat} (ha : isSet s (psBreakActive l.val) = false) (hb : breakFound (vget s.probe l) = some b) :
    ∃ p f, breakRaiseSt l s = markZones (logEvent (breakRegs s l b) 0x015 (7 + l.val) 2 l.val b) p f := by
  unfold breakRaiseSt
  rw [if_neg (by rw [ha]; exact Bool.false_ne_true), hb]
  exact ⟨_, _, rfl⟩

/-- R468: an entry pushed into the event log takes the place of at most one. -/
theorem logPush_length_le {e : List Word} : s.log.entries.length ≤ (logPush s e).log.entries.length := by
  unfold logPush
  extract_lets full kept log s1
  have hkept : s.log.entries.length ≤ kept.length + 1 := by
    unfold kept
    split
    · rw [List.length_drop]
      omega
    · exact Nat.le_succ _
  have h1 : s.log.entries.length ≤ s1.log.entries.length := by
    rw [show s1.log.entries = kept ++ [e] from rfl, List.length_append]
    exact hkept
  split
  · exact h1
  · exact h1

theorem logEvent_length_le {code island sev unit_ arg : Nat} :
    s.log.entries.length ≤ (logEvent s code island sev unit_ arg).log.entries.length := by
  unfold logEvent logAt
  extract_lets hi s1 s2
  have h1 : s.log.entries.length ≤ s1.log.entries.length := by
    unfold s1
    split
    · exact Nat.le_refl _
    · exact logPush_length_le
  exact h1.trans logPush_length_le

/-- A log entry and the marking of zones write no register below those of the zones. -/
theorem getF_markZones_logEvent {p : ZoneCfg → Bool} {f : ZoneSt → ZoneSt} {g : Fld} {code island sev unit_ arg : Nat}
    (hg : g.addr < 0xC408) : getF (markZones (logEvent s code island sev unit_ arg) p f) g = getF s g := by
  refine getF_of_writes (A := [0xF008, 0xC408, 0xC409, 0xC40A]) ?_ ?_
  · exact markZones_writes (by simp) (by simp) (by simp) (logEvent_writes (by simp) (.refl _ _))
  · simp only [List.mem_cons, List.not_mem_nil, or_false, not_or]
    omega

theorem markZones_log {p : ZoneCfg → Bool} {f : ZoneSt → ZoneSt} : (markZones s p f).log = s.log :=
  (markZones_moves (P := [.regs, .net, .zn]) rfl (.refl _ s)).only.1 .log (by decide)

theorem breakRaiseSt_raises {b : Nat} (ha : isSet s (psBreakActive l.val) = false) (hb : breakFound (vget s.probe l) = some b) :
    getF (breakRaiseSt l s) (psBreakActive l.val) = 1 ∧ getF (breakRaiseSt l s) (psBreakStation l.val) = b % 2 ^ 18
      ∧ getF (breakRaiseSt l s) (psStatusApr l.val) = 1 ∧ s.log.entries.length ≤ (breakRaiseSt l s).log.entries.length := by
  obtain ⟨p, f, e⟩ := breakRaiseSt_found ha hb
  have haddr : 0x1805 + 1024 * l.val < 0xC408 ∧ 0x1800 + 1024 * l.val < 0xC408 := by omega
  obtain ⟨hbreak, hstatus⟩ := haddr
  rw [e]
  refine ⟨(getF_markZones_logEvent hbreak).trans breakRegs_active, (getF_markZones_logEvent hbreak).trans breakRegs_station,
    (getF_markZones_logEvent hstatus).trans breakRegs_apr, ?_⟩
  rw [markZones_log, ← breakRegs_log (b := b) (l := l)]
  exact logEvent_length_le

/-- Settles O14: a grant arms through `armLine`, whatever disarms goes through `disarmLine`, and what follows them (the answer,
the log, the zones) leaves the line's record; the fields of fibre break are written and read back. -/
theorem laserArming : Obligations.LaserArming := by
  refine ⟨fun s l hq hk hlife hstand hcond hat => ?_, fun s l hq hk hlife hstand hcond => ?_, fun s l hq hk hlife => ?_,
    fun s l hq hk => ?_, fun s l hilk => ?_, fun s l => ?_, fun s l b ha hb => ?_, fun s l ha hrun => ?_⟩
  · refine goesOnWith_served (f := laserArmSt l) (fun _ => rfl) (fun u => mbxServe_laserArm u l) hq hk
      (KeepsQueue.leavesNone laserArmSt_keepsQueue hq) ?_
    rw [laserArmSt_granted hlife hstand hcond]
    obtain ⟨hlaser, harmed, hmuted⟩ := armLine_arms (s := setRearm s l false) hat (armConditions_ilk hcond)
    have haddr : 0x1800 + 1024 * l.val ≠ 0x403 ∧ 0x1802 + 1024 * l.val ≠ 0x403 := by omega
    obtain ⟨hstatus, hmute⟩ := haddr
    refine ⟨?_, (getF_mbxAnswer_ne hstatus).trans harmed, (getF_mbxAnswer_ne hmute).trans hmuted, getF_mbxAnswer_code,
      getF_mbxAnswer_status⟩
    rw [mbxAnswer_probe]
    exact hlaser
  · refine goesOnWith_served (f := laserArmSt l) (fun _ => rfl) (fun u => mbxServe_laserArm u l) hq hk
      (KeepsQueue.leavesNone laserArmSt_keepsQueue hq) ?_
    rw [laserArmSt_refused hlife hstand hcond]
    exact ⟨mbxRefuse_only.1 .probe (by decide), getF_mbxRefuse_code, getF_mbxRefuse_status⟩
  · refine goesOnWith_served (f := laserArmSt l) (fun _ => rfl) (fun u => mbxServe_laserArm u l) hq hk
      (KeepsQueue.leavesNone laserArmSt_keepsQueue hq) ?_
    rw [laserArmSt_return hlife]
    exact ⟨mbxAnswer_probe, getF_mbxAnswer_status⟩
  · refine goesOnWith_served (f := laserDisarmSt l) (fun _ => rfl) (fun u => mbxServe_laserDisarm u l) hq hk
      (KeepsQueue.leavesNone laserDisarmSt_keepsQueue hq) ?_
    rw [laserDisarmSt_probe]
    exact ⟨disarmLine_off.1, getF_mbxAnswer_code, getF_mbxAnswer_status, fun k hne => disarmLine_otherProbe hne.symm⟩
  · refine goesOnWith_of_next (t := ilkTripSt l s) rfl ?_
    have hfallen : vget (setRearm (modProbe s l (ilkFallen (elapsed s))) l false).probe l = ilkFallen (elapsed s) (vget s.probe l) :=
      vget_vmod _ _ _
    obtain ⟨hlow, hat⟩ := disarmLine_interlock (s := setRearm (modProbe s l (ilkFallen (elapsed s))) l false) (l := l)
    rw [hfallen] at hlow hat
    rw [ilkTripSt_probe hilk]
    exact ⟨hlow, disarmLine_off.1, hat, fun k hne => (disarmLine_otherProbe hne.symm).trans (vget_vmod_ne _ _ hne.symm)⟩
  · refine goesOnWith_of_next rfl ⟨congrArg Probe.ilkLow (vget_vmod _ _ _), ?_, ?_⟩
    · rw [modProbe_probe, vget_vmod]
    · exact (interlockRelease_confined l s _ rfl).only
  · obtain ⟨hactive, hstation, hapr, hlog⟩ := breakRaiseSt_raises ha hb
    have honly := (breakRaiseSt_moves (P := [.regs, .log, .net, .zn]) (l := l) rfl (.refl _ s)).only
    exact goesOnWith_of_next (t := breakRaiseSt l s) rfl
      ⟨honly.1 .probe (by decide), honly.1 .keeper (by decide), hactive, hstation, hapr, Nat.le_succ_of_le hlog⟩
  · obtain ⟨hactive, hstation⟩ := psBreak_fits l
    have hdue : (isSet s (psBreakActive l.val) && decide (8 ≤ (vget s.probe l).noBreakRun)) = true := by
      rw [ha, decide_eq_true hrun]
      rfl
    refine goesOnWith_of_next (congrArg Host.Outcome.next (whenB_of_true hdue)) ⟨getF_setF s _ 0 hactive, ?_,
      (setF_moves rfl (.refl _ s)).only⟩
    exact getF_setF_apart _ _ _ _ hactive hstation rfl (.inr (show 17 < 19 by decide))

end

end Sys2Proof.Laws
end

section
/-! SUPPORT. The converters' registers and records (R122 to R131): the bits of a mask field, what isolating inputs leaves, and the
measured gains. -/

namespace Sys2Proof.Laws
open Sys2Proof Sys2Proof.Machine Sys2Proof.Safety

section
variable {s : State} {l : Fin 2}

/-! ### The bits of a mask field -/

theorem bitOf_eq_testBit (v i : Nat) : bitOf v i = v.testBit i := Nat.testBit_eq_decide_div_mod_eq.symm

theorem bitOf_eq_bitsOf (v i : Nat) : bitOf v i = decide (bitsOf v i i = 1) := by
  unfold bitOf bitsOf
  rw [Nat.add_sub_cancel_left, Nat.pow_one]

theorem bitOf_put_zero (v i : Nat) : bitOf (bitsPut v i i 0) i = false := by
  rw [bitOf_eq_bitsOf, bitsOf_put _ _ _ _ (Nat.le_refl i), Nat.zero_mod]
  rfl

theorem bitOf_put_ne (v x : Nat) {i j : Nat} (h : j ≠ i) : bitOf (bitsPut v i i x) j = bitOf v j := by
  rw [bitOf_eq_bitsOf, bitOf_eq_bitsOf]
  rcases Nat.lt_or_gt_of_ne h with hlt | hgt
  · rw [bitsOf_put_below _ _ _ _ _ _ (Nat.le_refl i) hlt (Nat.le_refl j)]
  · rw [bitsOf_put_above _ _ _ _ _ _ (Nat.le_refl i) hgt]

theorem bitOf_lor (v w i : Nat) : bitOf (v ||| w) i = (bitOf v i || bitOf w i) := by
  rw [bitOf_eq_testBit, bitOf_eq_testBit, bitOf_eq_testBit, Nat.testBit_or]

theorem bitOf_mod_two_pow {v n i : Nat} (h : i < n) : bitOf (v % 2 ^ n) i = bitOf v i := by
  rw [bitOf_eq_testBit, bitOf_eq_testBit, Nat.testBit_mod_two_pow, decide_eq_true h, Bool.true_and]

theorem bitOf_getF_setF {f : Fld} {v i : Nat} (hf : Fld.fits f = true) (hi : i < f.hi + 1 - f.lo) :
    bitOf (getF (setF s f v) f) i = bitOf v i := by
  rw [getF_setF _ _ _ hf, bitOf_mod_two_pow hi]

/-- A bit of a mask field that is cleared is clear. -/
theorem bitOf_setMaskBit_false {f : Fld} {i : Nat} (hf : Fld.fits f = true) (hi : i < f.hi + 1 - f.lo) :
    bitOf (getF (setMaskBit s f i false) f) i = false := (bitOf_getF_setF hf hi).trans (bitOf_put_zero _ _)

/-- Clearing a bit of a mask field leaves the others. -/
theorem bitOf_setMaskBit_false_ne {f : Fld} {i j : Nat} (hf : Fld.fits f = true) (hj : j < f.hi + 1 - f.lo) (h : j ≠ i) :
    bitOf (getF (setMaskBit s f i false) f) j = bitOf (getF s f) j := (bitOf_getF_setF hf hj).trans (bitOf_put_ne _ _ h)

/-! ### The fields of a line's converters -/

theorem cvCalStatus_fits (l : Fin 2) :
    Fld.fits (cvCalStatusNotConv l.val) = true ∧ Fld.fits (cvCalStatusRamanFgPending l.val) = true := by
  match l with
  | 0 => exact ⟨rfl, rfl⟩
  | 1 => exact ⟨rfl, rfl⟩

theorem cvPgaChanges_fits (l : Fin 2) : Fld.fits (cvPgaChanges l.val) = true := by
  match l with
  | 0 => rfl
  | 1 => rfl

theorem cvPgaGainGain_fits (l k : Nat) : Fld.fits (cvPgaGainGain l k) = true := rfl

/-- CV_CAL_STATUS and CV_STATUS are two registers. -/
theorem cvCalStatus_ne_cvStatus (l : Fin 2) : 0x1001 + 1024 * l.val ≠ 0x1000 + 1024 * l.val := by omega

/-! ### Isolating inputs -/

/-- What the marks of samples do not bear on stays in the line's record. -/
theorem openSpan_keeps {α : Type} {g : Conv → α} (hg : ∀ C x, g { C with spans := x } = g C) {why : MarkWhy} {mask : Nat} :
    g (vget (openSpan s l why mask).conv l) = g (vget s.conv l) := by
  unfold openSpan
  split
  · rfl
  · exact (congrArg g (vget_vmod _ _ _)).trans (hg _ _)

theorem setBusy_keeps {α : Type} {g : Conv → α} (hg : ∀ C x, g { C with spans := x } = g C) {mask : Nat} :
    g (vget (setBusy s l mask).conv l) = g (vget s.conv l) :=
  (congrArg g (vget_vmod _ _ _)).trans ((hg _ _).trans (openSpan_keeps hg))

/-- R123: FG_BUSY is the mask of the isolated inputs. -/
theorem getF_setBusy {mask : Nat} : getF (setBusy s l mask) (cvStatusFgBusy l.val) = mask % 64 :=
  getF_setF _ _ _ (cvStatus_fits l).1

theorem getF_setBusy_ne {mask : Nat} {f : Fld} (hf : f.addr ≠ 0x1000 + 1024 * l.val) : getF (setBusy s l mask) f = getF s f :=
  getF_of_writes (setBusy_writes (A := [0x1000 + 1024 * l.val]) (by simp) (.refl _ s)) (by simpa using hf)

theorem bitOf_setBusy {mask i : Nat} (hi : i < 6) : bitOf (getF (setBusy s l mask) (cvStatusFgBusy l.val)) i = bitOf mask i := by
  rw [getF_setBusy]
  exact bitOf_mod_two_pow hi

/-! ### Correction values and gains -/

theorem setApplied_keeps {α : Type} {g : Conv → α} (hg : ∀ C x y, g { C with target := x, applied := y } = g C) (C : Conv)
    (key : Nat) (v : Int) : g (setApplied C key v) = g C := by
  unfold setApplied
  split
  split
  · exact hg _ _ _
  · rfl

theorem foldl_setApplied_keeps {α : Type} {g : Conv → α} (hg : ∀ C x y, g { C with target := x, applied := y } = g C)
    (values : List CalVal) (C : Conv) :
    g (values.foldl (fun C v => setApplied C (calKey v.input v.slice v.kind v.comp) v.value) C) = g C :=
  List.foldlRecOn (motive := fun D => g D = g C) values _ rfl fun _ hD _ _ => (setApplied_keeps hg _ _ _).trans hD

/-- R123: writing correction values changes the corrections alone. -/
theorem writeCals_keeps {α : Type} {g : Conv → α} (hg : ∀ C x y, g { C with target := x, applied := y } = g C)
    {p : Nat → Bool} {values : List CalVal} : g (vget (writeCals s l p values).conv l) = g (vget s.conv l) :=
  (congrArg g (vget_vmod _ _ _)).trans (foldl_setApplied_keeps hg _ _)

/-- R130: the gains of the first `n` of a line's eight PGA ranges are written. -/
def writeGains (s : State) (l : Nat) (gains : List Nat) (n : Nat) : State :=
  (List.range n).foldl (fun s k => setPgaGain s l (k / 4) (k % 4) (lget 65536 gains k)) s

theorem writeGains_succ {l : Nat} {gains : List Nat} {n : Nat} : writeGains s l gains (n + 1)
    = setPgaGain (writeGains s l gains n) l (n / 4) (n % 4) (lget 65536 gains n) := by
  unfold writeGains
  rw [List.range_succ, List.foldl_append]
  rfl

/-- R130: range 0 is 1.0 exactly, and any other reads as measured. -/
theorem getF_writeGains {l : Nat} {gains : List Nat} {n k : Nat} (h : k < n) : getF (writeGains s l gains n) (cvPgaGainGain l k)
    = (if k % 4 = 0 then 65536 else lget 65536 gains k) % 2 ^ 20 := by
  induction n with
  | zero => exact absurd h (Nat.not_lt_zero k)
  | succ n ih =>
    rw [writeGains_succ, setPgaGain, Nat.div_add_mod]
    rcases Nat.lt_succ_iff_lt_or_eq.mp h with hlt | rfl
    · have haddr : (cvPgaGainGain l k).addr ≠ (cvPgaGainGain l n).addr := by
        simp only [cvPgaGainGain]
        omega
      rw [getF_setF_ne _ _ _ _ haddr, ih hlt]
    · exact getF_setF _ _ _ (cvPgaGainGain_fits l k)

end

end Sys2Proof.Laws
end

section
/-! SUPPORT. Calibration in the foreground (R122 to R124, R129) and the end of a capture window (R131). -/

namespace Sys2Proof.Laws
open Sys2Proof Sys2Proof.Machine Sys2Proof.Safety

section
variable {z s u : State} {l : Fin 2}

/-! ### A fast input is done -/

/-- R123: the input's values and the die reading of its start are written, and it converges. -/
def inputWritten (l : Fin 2) (i : Fin 4) (vs : List CalVal) (s : State) : State :=
  setMaskBit (setFS (writeCals s l (fun j => j = i.val) vs) (cvCalTempTemp l.val i.val) (vget s.conv l).fgStart)
    (cvCalStatusNotConv l.val) i.val false

theorem startFg_of_empty (h : (vget s.conv l).fgQueue = []) : startFg s l = s := by
  unfold startFg
  extract_lets C
  rw [show C.fgQueue = [] from h]
  exact ite_self s

theorem inputWritten_fgQueue {i : Fin 4} {vs : List CalVal} :
    (vget (inputWritten l i vs s).conv l).fgQueue = (vget s.conv l).fgQueue :=
  writeCals_keeps (g := Conv.fgQueue) (s := s) (p := fun j => j = i.val) (values := vs) fun _ _ _ => rfl

/-- R123: with no further input queued, the one that is done is no longer isolated and no more follows. -/
theorem fgInputSt_last {i : Fin 4} {vs : List CalVal} (hbusy : bitOf (getF s (cvStatusFgBusy l.val)) i.val = true)
    (hfull : (vget s.conv l).fullCal = false) (hqueue : (vget s.conv l).fgQueue = []) : fgInputSt l i vs s
      = setBusy (inputWritten l i vs s) l (bitsPut (getF (inputWritten l i vs s) (cvStatusFgBusy l.val)) i.val i.val 0) := by
  have hdue : (bitOf (getF s (cvStatusFgBusy l.val)) i.val && !(vget s.conv l).fullCal) = true := by
    rw [hbusy, hfull]
    rfl
  refine (if_pos hdue).trans (startFg_of_empty ?_)
  exact (setBusy_keeps fun _ _ => rfl).trans (inputWritten_fgQueue.trans hqueue)

/-! ### A full calibration ends -/

/-- R124: full calibration no longer runs on the line. -/
def fullCalEnded (C : Conv) : Conv := { C with fullCal := false }

theorem sameFullCal.folded {α : Type} {g : State → α → State} {xs : List α} (h : sameFullCal z s)
    (hg : ∀ s x, sameFullCal z s → sameFullCal z (g s x)) : sameFullCal z (xs.foldl g s) :=
  List.foldlRecOn xs g h fun s k x _ => hg s x k

theorem sameFullCal.ended (h : sameFullCal z s) :
    sameFullCal (Machine.modConv z l fullCalEnded) (Machine.modConv s l fullCalEnded) := by
  intro m
  rw [modConv_conv, modConv_conv]
  by_cases e : l = m
  · subst e
    rw [vget_vmod, vget_vmod]
    rfl
  · rw [vget_vmod_ne _ _ e, vget_vmod_ne _ _ e]
    exact h m

/-- R124: CV_CAL_TEMP of the six inputs, from the readings of the start. -/
def writeTemps (s : State) (l : Fin 2) (C : Conv) : State :=
  (List.range 6).foldl (fun s i => setFS s (cvCalTempTemp l.val i) (if i < 4 then C.fgStart else C.fgStartRaman)) s

/-- R124, R130: the state in which a full calibration's results stand and no input is isolated any more. -/
def fullCalWritten (l : Fin 2) (vs : List CalVal) (gs : List Nat) (s : State) : State :=
  setF (setBusy (setF (writeGains (writeTemps (writeCals s l (fun _ => true) vs) l (vget s.conv l)) l.val gs 8)
    (cvCalStatusNotConv l.val) 0) l 0) (cvCalStatusRamanFgPending l.val) 0

theorem fullCalSt_eq {vs : List CalVal} {gs : List Nat} :
    fullCalSt l vs gs s = modConv (fullCalWritten l vs gs s) l fullCalEnded := rfl

theorem fullCalSt_sameFullCal {vs : List CalVal} {gs : List Nat} :
    sameFullCal (modConv s l fullCalEnded) (fullCalSt l vs gs s) := by
  have hcals : sameFullCal s (writeCals s l (fun _ => true) vs) :=
    sameFullCal.modConv (fun _ => rfl) fun C => foldl_setApplied_keeps (fun _ _ _ => rfl) _ C
  have htemps : sameFullCal s (writeTemps (writeCals s l (fun _ => true) vs) l (vget s.conv l)) := hcals.folded fun _ _ k => k
  have hgains : sameFullCal s (writeGains (writeTemps (writeCals s l (fun _ => true) vs) l (vget s.conv l)) l.val gs 8) :=
    htemps.folded fun _ _ k => k
  rw [fullCalSt_eq]
  exact hgains.setF.setBusy.setF.ended

theorem fullCalSt_writes {A : List Nat} {vs : List CalVal} {gs : List Nat} (hstatus : 0x1000 + 1024 * l.val ∈ A)
    (hcal : 0x1001 + 1024 * l.val ∈ A) (htemp : ∀ i < 6, 0x1002 + 1024 * l.val + i ∈ A)
    (hgain : ∀ k < 8, 0x1020 + 1024 * l.val + k ∈ A) : Writes A s (fullCalSt l vs gs s) := by
  have htemps : Writes A s (writeTemps (writeCals s l (fun _ => true) vs) l (vget s.conv l)) :=
    .foldl _ (modConv_writes (.refl A s)) fun _ i hi k => setF_writes (htemp i (List.mem_range.mp hi)) k
  have hgains : Writes A s (writeGains (writeTemps (writeCals s l (fun _ => true) vs) l (vget s.conv l)) l.val gs 8) :=
    .foldl _ htemps fun _ n hn k => setF_writes (by rw [Nat.div_add_mod]; exact hgain n (List.mem_range.mp hn)) k
  exact modConv_writes (setF_writes hcal (setBusy_writes hstatus (setF_writes hcal hgains)))

/-- R124: the registers of the line's converters once the results stand. -/
theorem fullCalSt_status {vs : List CalVal} {gs : List Nat} : getF (fullCalSt l vs gs s) (cvStatusFgBusy l.val) = 0
    ∧ getF (fullCalSt l vs gs s) (cvCalStatusNotConv l.val) = 0 := by
  obtain ⟨hconv, hpending⟩ := cvCalStatus_fits l
  rw [fullCalSt_eq, getF_of_regs (modConv_regs _ _ _), getF_of_regs (modConv_regs _ _ _)]
  refine ⟨(getF_setF_ne _ _ _ _ (cvCalStatus_ne_cvStatus l).symm).trans getF_setBusy, ?_⟩
  refine (getF_setF_apart _ _ _ _ hpending hconv rfl (.inl (show 15 < 16 by decide))).trans ?_
  exact (getF_setBusy_ne (cvCalStatus_ne_cvStatus l)).trans (getF_setF _ _ _ hconv)

/-- R130: range 0 of both Raman inputs has a gain of 1.0 exactly. -/
theorem fullCalSt_gain {vs : List CalVal} {gs : List Nat} {k : Nat} (hk : k < 8) (hrange : k % 4 = 0) :
    getF (fullCalSt l vs gs s) (cvPgaGainGain l.val k) = 65536 := by
  have hstatus : 0x1020 + 1024 * l.val + k ≠ 0x1000 + 1024 * l.val := by omega
  have hcal : 0x1020 + 1024 * l.val + k ≠ 0x1001 + 1024 * l.val := by omega
  rw [fullCalSt_eq, getF_of_regs (modConv_regs _ _ _), fullCalWritten, getF_setF_ne _ _ _ _ hcal, getF_setBusy_ne hstatus,
    getF_setF_ne _ _ _ _ hcal, getF_writeGains hk, if_pos hrange]
  rfl

theorem fullCalSt_phase {vs : List CalVal} {gs : List Nat} : bootPhase (fullCalSt l vs gs s) = bootPhase s := by
  have hin {a : Nat} (h : 0x1000 ≤ a ∧ a < 0x1800) : a ∈ List.range' 0x1000 0x800 := List.mem_range'_1.mpr h
  refine getF_of_writes (A := List.range' 0x1000 0x800)
    (fullCalSt_writes (hin (by omega)) (hin (by omega)) (fun _ _ => hin (by omega)) fun _ _ => hin (by omega)) ?_
  exact fun hmem => absurd (List.mem_range'_1.mp hmem).1 (by decide)

/-! ### What follows a full calibration -/

theorem armLine_sameFullCal (h : sameFullCal z s) : sameFullCal z (armLine s l) := by
  unfold armLine
  extract_lets near P0 settle s0 s1 s2
  have hdac : (dacNow s l).conv = s.conv := (dacNow_moves (P := [.regs, .log, .probe]) rfl (.refl _ s)).only.1 .conv (by decide)
  have h2 : s2.conv = s.conv := by rw [modProbe_conv, setF_conv, setF_conv, setF_conv, setF_conv, hdac]
  split
  · exact h
  · exact (h.keep h2).modConv fun C => by split <;> rfl

theorem laserArmSt_sameFullCal (h : sameFullCal z s) : sameFullCal z (laserArmSt l s) := by
  unfold laserArmSt
  extract_lets s1
  have h1 : sameFullCal z s1 := h.keep rfl
  have hanswer (u : State) (status : Nat) : (mbxAnswer u 3 status 0).conv = u.conv :=
    (mbxAnswer_only (P := [.regs, .keeper]) rfl).1 .conv (by decide)
  split
  · exact h1.keep (hanswer _ _)
  · split
    · exact (armLine_sameFullCal h1).keep (hanswer _ _)
    · exact h1.keep (mbxRefuse_only.1 .conv (by decide))

theorem rearmLines_sameFullCal (h : sameFullCal z s) : sameFullCal z (rearmLines s) := by
  refine h.folded fun _ _ k => ?_
  split
  · exact laserArmSt_sameFullCal k
  · exact k

/-- R444: arming again writes the registers of mailbox, log and sequencers alone. -/
theorem rearmLines_writes {A : List Nat} (hmbx : 0x403 ∈ A) (hlog : 0xF008 ∈ A) (harm : ∀ l : Fin 2, 0x1800 + 1024 * l.val ∈ A)
    (hmute : ∀ l : Fin 2, 0x1802 + 1024 * l.val ∈ A) (hsat : ∀ l : Fin 2, 0x1804 + 1024 * l.val ∈ A) (h : Writes A z s) :
    Writes A z (rearmLines s) :=
  .foldl _ h fun _ l _ k => .ite (laserArmSt_writes hmbx hlog (harm l) (hmute l) (hsat l) k) k

/-- R124, R58, R452: once the results stand, no more follows, or the boot goes on, or the lines are armed again. -/
theorem fullFgDoneSt_cases {vs : List CalVal} {gs : List Nat} (h : (vget s.conv l).fullCal = true) :
    fullFgDoneSt l vs gs s = fullCalSt l vs gs s ∨ fullFgDoneSt l vs gs s = setF (fullCalSt l vs gs s) bmStateBootPhase 6
      ∨ fullFgDoneSt l vs gs s = rearmLines (fullCalSt l vs gs s) := by
  unfold fullFgDoneSt
  rw [if_pos h]
  extract_lets s1
  split
  · exact .inl rfl
  · split
    · exact .inr (.inl rfl)
    · split
      · exact .inr (.inr rfl)
      · exact .inl rfl

theorem fullFgDoneSt_sameFullCal {vs : List CalVal} {gs : List Nat} (h : (vget s.conv l).fullCal = true) :
    sameFullCal (modConv s l fullCalEnded) (fullFgDoneSt l vs gs s) := by
  have hwritten : sameFullCal (modConv s l fullCalEnded) (fullCalSt l vs gs s) := fullCalSt_sameFullCal
  rcases fullFgDoneSt_cases h with e | e | e <;> rw [e]
  · exact hwritten
  · exact hwritten.setF
  · exact rearmLines_sameFullCal hwritten

/-- R124, R58, R452: what follows the results of a full calibration leaves the converters' registers. -/
theorem getF_fullFgDoneSt {vs : List CalVal} {gs : List Nat} {f : Fld} (h : (vget s.conv l).fullCal = true)
    (hf : 0x1000 ≤ f.addr ∧ f.addr < 0x1800) : getF (fullFgDoneSt l vs gs s) f = getF (fullCalSt l vs gs s) f := by
  rcases fullFgDoneSt_cases h with e | e | e <;> rw [e]
  · exact getF_setF_ne _ _ _ _ (show f.addr ≠ 0x400 by omega)
  · refine getF_of_writes (A := [0x403, 0xF008, 0x1800, 0x1C00, 0x1802, 0x1C02, 0x1804, 0x1C04]) ?_ ?_
    · exact rearmLines_writes (by simp) (by simp) (by decide) (by decide) (by decide) (.refl _ _)
    · simp only [List.mem_cons, List.not_mem_nil, or_false, not_or]
      omega

/-- R58: at the end of the boot's last full calibration the boot goes on. -/
theorem fullFgDoneSt_boot {vs : List CalVal} {gs : List Nat} (h0 : (vget s.conv 0).fullCal = true)
    (h1 : (vget s.conv 1).fullCal = false) (hp : bootPhase s = 5) :
    fullFgDoneSt 0 vs gs s = setF (fullCalSt 0 vs gs s) bmStateBootPhase 6 := by
  have hnone : (List.finRange 2).any (fun k => (vget (fullCalSt 0 vs gs s).conv k).fullCal) = false := by
    have hsame : sameFullCal (modConv s 0 fullCalEnded) (fullCalSt 0 vs gs s) := fullCalSt_sameFullCal
    have hline : (vget (fullCalSt 0 vs gs s).conv 0).fullCal = false := by rw [hsame 0, modConv_conv, vget_vmod]; rfl
    have hother : (vget (fullCalSt 0 vs gs s).conv 1).fullCal = false := by
      rw [hsame 1, modConv_conv, vget_vmod_ne _ _ (by decide), h1]
    simp [List.finRange_succ, hline, hother]
  unfold fullFgDoneSt
  rw [if_pos h0]
  extract_lets s1
  rw [if_neg (Bool.not_eq_true _ ▸ hnone), if_pos (fullCalSt_phase.trans hp)]

/-! ### Calibration of the Raman inputs -/

theorem askRaman_keeps {α : Type} {g : Conv → α} (hg : ∀ C x, g { C with askRaman := x } = g C) :
    g (vget (askRaman s l).conv l) = g (vget s.conv l) := by
  unfold askRaman
  rw [(urgentSt_moves (P := [.regs, .hk]) rfl (.refl _ _)).only.1 .conv (by decide)]
  exact (congrArg g (vget_vmod _ _ _)).trans (hg _ _)

theorem getF_askRaman {f : Fld} (hf : f.addr ≠ 0xC802) : getF (askRaman s l) f = getF s f :=
  getF_of_writes (askRaman_writes (A := [0xC802]) (by simp) (.refl _ s)) (by simpa using hf)

/-- R129: the line's record as the calibration of AS and ST starts. -/
def ramanFgBegun (C : Conv) : Conv := { C with ramanFg := true, ramanForce := false, fgStartRaman := C.dieRaman.getD 0 }

/-- R129: outside a full calibration AS and ST are isolated, with what was isolated before. -/
theorem startRamanFg_eq (h : (vget s.conv l).fullCal = false) : startRamanFg s l
    = askRaman (setBusy (setF (modConv s l ramanFgBegun) (cvCalStatusRamanFgPending l.val) 0) l
        (getF s (cvStatusFgBusy l.val) ||| 48)) l := by
  have hboth : 48 * b2n (!(vget s.conv l).fullCal) = 48 := by rw [h]; rfl
  rw [← hboth]
  rfl

theorem startRamanFg_ramanFg : (vget (startRamanFg s l).conv l).ramanFg = true := by
  refine (askRaman_keeps (g := Conv.ramanFg) fun _ _ => rfl).trans ((setBusy_keeps (g := Conv.ramanFg) fun _ _ => rfl).trans ?_)
  exact congrArg Conv.ramanFg (vget_vmod _ _ _)

/-- R129: at the start the calibration pends no more and AS and ST are isolated. -/
theorem startRamanFg_status (h : (vget s.conv l).fullCal = false) :
    getF (startRamanFg s l) (cvCalStatusRamanFgPending l.val) = 0
      ∧ bitOf (getF (startRamanFg s l) (cvStatusFgBusy l.val)) 4 = true
      ∧ bitOf (getF (startRamanFg s l) (cvStatusFgBusy l.val)) 5 = true := by
  have hcal : 0x1001 + 1024 * l.val ≠ 0xC802 := by omega
  have hstatus : 0x1000 + 1024 * l.val ≠ 0xC802 := by omega
  rw [startRamanFg_eq h, getF_askRaman hcal, getF_askRaman hstatus, bitOf_setBusy (by decide), bitOf_setBusy (by decide),
    bitOf_lor, bitOf_lor]
  refine ⟨?_, Bool.or_true _, Bool.or_true _⟩
  exact (getF_setBusy_ne (cvCalStatus_ne_cvStatus l)).trans (getF_setF _ _ _ (cvCalStatus_fits l).2)

/-- R129: the results of the calibration of AS and ST, before they are used again. -/
def ramanWritten (l : Fin 2) (vs : List CalVal) (gs : List Nat) (s : State) : State :=
  [0, 1].foldl (fun u n => setPgaGain u l.val n (lget 0 (vget s.conv l).range.toList n) (lget 65536 gs n))
    ([4, 5].foldl (fun u i => setFS u (cvCalTempTemp l.val i) (vget s.conv l).fgStartRaman)
      (writeCals s l (fun i => decide (4 ≤ i)) vs))

/-- R129: no calibration of AS and ST runs on the line. -/
def ramanFgEnded (C : Conv) : Conv := { C with ramanFg := false }

theorem ramanFgDoneSt_running {vs : List CalVal} {gs : List Nat} (h : (vget s.conv l).ramanFg = true) : ramanFgDoneSt l vs gs s
    = modConv (setBusy (ramanWritten l vs gs s) l (getF (ramanWritten l vs gs s) (cvStatusFgBusy l.val) % 16)) l ramanFgEnded :=
  if_pos h

/-- The fast inputs' part of a mask holds neither AS nor ST. -/
theorem bitOf_mod_sixteen (v : Nat) {i : Nat} (h : 4 ≤ i) : bitOf (v % 16) i = false := by
  rw [bitOf_eq_testBit, show 16 = 2 ^ 4 from rfl, Nat.testBit_mod_two_pow, decide_eq_false (Nat.not_lt.mpr h), Bool.false_and]

theorem ramanFgDoneSt_ends {vs : List CalVal} {gs : List Nat} (h : (vget s.conv l).ramanFg = true) :
    (vget (ramanFgDoneSt l vs gs s).conv l).ramanFg = false
      ∧ bitOf (getF (ramanFgDoneSt l vs gs s) (cvStatusFgBusy l.val)) 4 = false
      ∧ bitOf (getF (ramanFgDoneSt l vs gs s) (cvStatusFgBusy l.val)) 5 = false := by
  rw [ramanFgDoneSt_running h, getF_of_regs (modConv_regs _ _ _), bitOf_setBusy (by decide), bitOf_setBusy (by decide)]
  exact ⟨congrArg Conv.ramanFg (vget_vmod _ _ _), bitOf_mod_sixteen _ (by decide), bitOf_mod_sixteen _ (by decide)⟩

/-! ### A capture window ends -/

/-- R131: a deferred range is taken. -/
def rangeTaken (n : Fin 2) (r : Nat) (C : Conv) : Conv :=
  { C with deferred := vset C.deferred n none, range := vset C.range n r, hist := vset C.hist n [],
           changed := vset C.changed n (vget C.changed n || decide (r ≠ vget C.range n)) }

/-- R131: no capture window is open. -/
def windowClosed (C : Conv) : Conv := { C with inWindow := false }

theorem applyRange_of_none {n : Fin 2} (h : vget (vget s.conv l).deferred n = none) : applyRange s l n = s := by
  unfold applyRange
  extract_lets C
  rw [show vget C.deferred n = none from h]

theorem applyRange_of_change {n : Fin 2} {r : Nat} {a : Bool} (h : vget (vget s.conv l).deferred n = some (r, a))
    (hr : r ≠ vget (vget s.conv l).range n) : applyRange s l n = bump (modConv s l (rangeTaken n r)) (cvPgaChanges l.val) := by
  unfold applyRange
  extract_lets C
  rw [show vget C.deferred n = some (r, a) from h]
  exact if_neg hr

theorem modConv_congr {f g : Conv → Conv} (h : f (vget s.conv l) = g (vget s.conv l)) : modConv s l f = modConv s l g :=
  congrArg (fun x => { s with conv := s.conv.set l.val x }) h

/-- R131: with neither an APD code waiting nor a calibration forced, a window's end takes the deferred ranges alone. -/
theorem windowEndSt_ranges (hu : applyRange (applyRange s l 0) l 1 = u) (hopen : (vget s.conv l).inWindow = true)
    (hforce : (vget u.conv l).ramanForce = false) (hapd : (vget u.conv l).apdPend = none) :
    windowEndSt l s = modConv u l windowClosed := by
  have hclose : closeWindow s l = modConv u l windowClosed := by
    unfold closeWindow
    rw [hu]
    refine modConv_congr ?_
    split
    · rfl
    · next w hw => exact absurd (hw.symm.trans hapd) (Option.some_ne_none w)
  have hnone : (vget (modConv u l windowClosed).conv l).ramanForce = false := by
    rw [modConv_conv, vget_vmod]
    exact hforce
  unfold windowEndSt
  rw [if_pos hopen, hclose]
  exact if_neg (by rw [hnone]; exact Bool.false_ne_true)

/-- Settles O17: each calibration writes its results, then the inputs it isolated; the ends of a window take the ranges that
were deferred. -/
theorem foregroundCalibration : Obligations.ForegroundCalibration := by
  refine ⟨fun s l i hpass hsteps => ?_, fun s l i vs hbusy hfull hqueue => ?_, fun s l vs gs hfull => ?_,
    fun s vs gs h0 h1 hp => ?_, fun s l hpending hshut hfull => ?_, fun s l hpending => ?_, fun s l vs gs hrun => ?_,
    fun s l hopen hforce hd0 hd1 hapd => ?_, fun s l r a hopen hforce hd0 hd1 hapd hr => ?_⟩
  · obtain ⟨-, hfits⟩ := cvStatus_fits l
    have hdue : (bitOf (getF s (cvStatusPass l.val)) i.val && decide (9 ≤ vget (vget s.conv l).passSteps i)) = true := by
      rw [hpass, decide_eq_true hsteps]
      rfl
    refine goesOnWith_of_next (congrArg Host.Outcome.next (whenB_of_true hdue)) ⟨bitOf_setMaskBit_false hfits i.isLt,
      fun j hj => bitOf_setMaskBit_false_ne hfits j.isLt (fun e => hj (Fin.ext e)), ?_⟩
    exact (setMaskBit_moves rfl (.refl _ s)).only
  · refine goesOnWith_of_step (f := fgInputSt l i vs) rfl (fgInputSt_last hbusy hfull hqueue) ⟨?_, ?_, ?_, ?_⟩
    · exact (bitOf_setBusy (by omega)).trans (bitOf_put_zero _ _)
    · rw [getF_setBusy_ne (cvCalStatus_ne_cvStatus l)]
      exact bitOf_setMaskBit_false (cvCalStatus_fits l).1 i.isLt
    · exact (setBusy_keeps (g := Conv.fgQueue) fun _ _ => rfl).trans (inputWritten_fgQueue.trans hqueue)
    · exact (setBusy_moves rfl (setMaskBit_moves rfl (setFS_moves rfl (writeCals_moves rfl (.refl _ s))))).only
  · obtain ⟨hbusy, hconv⟩ := fullCalSt_status (s := s) (l := l) (vs := vs) (gs := gs)
    have hlast : (vget (fullFgDoneSt l vs gs s).conv l).fullCal = false := by
      rw [fullFgDoneSt_sameFullCal hfull, modConv_conv, vget_vmod]
      rfl
    have haddr (a : Nat) (h : 0x1000 ≤ a ∧ a < 0x1400) : 0x1000 ≤ a + 1024 * l.val ∧ a + 1024 * l.val < 0x1800 := by omega
    have hgain (k : Nat) (h : k < 8) : 0x1000 ≤ 0x1020 + 1024 * l.val + k ∧ 0x1020 + 1024 * l.val + k < 0x1800 := by omega
    exact goesOnWith_of_next (t := fullFgDoneSt l vs gs s) rfl ⟨hlast,
      (getF_fullFgDoneSt hfull (haddr 0x1000 (by decide))).trans hbusy,
      (getF_fullFgDoneSt hfull (haddr 0x1001 (by decide))).trans hconv,
      (getF_fullFgDoneSt hfull (hgain 0 (by decide))).trans (fullCalSt_gain (by decide) rfl),
      (getF_fullFgDoneSt hfull (hgain 4 (by decide))).trans (fullCalSt_gain (by decide) rfl)⟩
  · exact goesOnWith_of_step (f := fullFgDoneSt 0 vs gs) rfl (fullFgDoneSt_boot h0 h1 hp) (getF_setF _ _ _ rfl)
  · have hdue : (isSet s (cvCalStatusRamanFgPending l.val) && !(vget s.conv l).inWindow) = true := by
      rw [isSet, hpending, hshut]
      rfl
    obtain ⟨hended, has, hst⟩ := startRamanFg_status hfull
    exact goesOnWith_of_next (congrArg Host.Outcome.next (whenB_of_true hdue))
      ⟨startRamanFg_ramanFg, hended, has, hst, (startRamanFg_moves rfl (.refl _ s)).only⟩
  · refine goesOnWith_of_next (congrArg Host.Outcome.next (whenB_of_true (decide_eq_true hpending))) ⟨?_, ?_⟩
    · exact congrArg Conv.ramanForce (vget_vmod _ _ _)
    · exact (modConv_moves rfl (.refl _ s)).only
  · obtain ⟨hended, has, hst⟩ := ramanFgDoneSt_ends (vs := vs) (gs := gs) hrun
    exact goesOnWith_of_next (t := ramanFgDoneSt l vs gs s) rfl ⟨hended, has, hst, (ramanFgDoneSt_moves rfl (.refl _ s)).only⟩
  · have hu : applyRange (applyRange s l 0) l 1 = s := by rw [applyRange_of_none hd0, applyRange_of_none hd1]
    refine goesOnWith_of_step (f := windowEndSt l) rfl (windowEndSt_ranges hu hopen hforce hapd) ?_
    rw [modConv_conv, vget_vmod]
    exact ⟨rfl, rfl, (modConv_moves rfl (.refl _ s)).only⟩
  · have hbumped : (vget (bump (modConv s l (rangeTaken 0 r)) (cvPgaChanges l.val)).conv l) = rangeTaken 0 r (vget s.conv l) :=
      vget_vmod _ _ _
    have hu : applyRange (applyRange s l 0) l 1 = bump (modConv s l (rangeTaken 0 r)) (cvPgaChanges l.val) := by
      rw [applyRange_of_change hd0 hr]
      refine applyRange_of_none ?_
      rw [hbumped]
      exact (vget_vset_ne _ _ (by decide)).trans hd1
    refine goesOnWith_of_step (f := windowEndSt l) rfl
      (windowEndSt_ranges hu hopen (by rw [hbumped]; exact hforce) (by rw [hbumped]; exact hapd)) ?_
    rw [modConv_conv, vget_vmod, hbumped]
    refine ⟨rfl, vget_vset _ _ _, ?_, ?_, ?_⟩
    · refine (vget_vset _ _ _).trans ?_
      rw [decide_eq_true hr, Bool.or_true]
    · exact (getF_of_regs (modConv_regs _ _ _)).trans (getF_bump _ _ (cvPgaChanges_fits l))
    · exact (modConv_moves rfl (bump_moves rfl (modConv_moves rfl (.refl _ s)))).only

end

end Sys2Proof.Laws
end

section
/-! SUPPORT. The targets that a spare measurement sets (R113, R115), and the state that refutes the statement about rotation. -/

namespace Sys2Proof.Laws
open Sys2Proof Sys2Proof.Machine Sys2Proof.Safety

section
variable {s : State} {C : Conv} {key : Nat} {v : Int}

/-! ### Setting a target -/

theorem setTarget_of_exists (h : calExists key = true) : setTarget C key v
    = { C with target := tabSet (calNominal key) C.target key (clampI (calRange key).1 (calRange key).2 v) } := if_pos h

theorem calTarget_setTarget (h : calExists key = true) :
    calTarget (setTarget C key v) key = clampI (calRange key).1 (calRange key).2 v := by
  rw [setTarget_of_exists h]
  exact tabGet_set _ _ _ _

theorem calTarget_setTarget_ne {other : Nat} (h : other ≠ key) : calTarget (setTarget C key v) other = calTarget C other := by
  unfold calTarget setTarget
  split
  split
  · exact tabGet_set_ne _ _ _ _ h
  · rfl

/-! ### What a measured spare sets -/

/-- The offset and the gain of each of a fast input's nine slices exist, and each has its own range. -/
theorem calKey_offset_gain : ∀ (i : Fin 4) (k : Fin 9), calExists (calKey i.val k.val 1 0) = true
    ∧ calExists (calKey i.val k.val 2 0) = true ∧ calRange (calKey i.val k.val 1 0) = (-512, 511)
    ∧ calRange (calKey i.val k.val 2 0) = (0, 1023) := by decide

theorem calKey_ne_threshold (i k comp : Nat) {kind : Nat} (h : kind < 4) : calKey i k kind 0 ≠ calKey i k 4 comp := by
  unfold calKey
  omega

/-- R113: the thresholds of a slice leave the targets of its offset and gain. -/
theorem calTarget_thresholds {i k kind : Nat} (h : kind < 4) (xs : List (Int × Nat)) :
    calTarget (xs.foldl (fun C x => setTarget C (calKey i k 4 x.2) x.1) C) (calKey i k kind 0) = calTarget C (calKey i k kind 0) :=
  List.foldlRecOn (motive := fun D => calTarget D (calKey i k kind 0) = calTarget C (calKey i k kind 0)) xs _ rfl
    fun _ hD _ _ => (calTarget_setTarget_ne (calKey_ne_threshold i k _ h)).trans hD

/-- R113, R115: where the spare is one of the nine slices, its offset and gain become its targets. -/
theorem spareSt_targets {l : Fin 2} {i : Fin 4} {offset gain : Int} {th : List Int} (k : Fin 9)
    (h : vget (vget s.conv l).spare i = k.val) :
    calTarget (vget (spareSt l i offset gain th s).conv l) (calKey i.val k.val 1 0) = clampI (-512) 511 offset
      ∧ calTarget (vget (spareSt l i offset gain th s).conv l) (calKey i.val k.val 2 0) = clampI 0 1023 gain := by
  obtain ⟨hoffset, hgain, hoffsetRange, hgainRange⟩ := calKey_offset_gain i k
  have hne : calKey i.val k.val 1 0 ≠ calKey i.val k.val 2 0 := by
    unfold calKey
    omega
  unfold spareSt
  rw [modConv_conv, vget_vmod]
  dsimp only
  rw [h, calTarget_thresholds (by decide), calTarget_thresholds (by decide), calTarget_setTarget_ne hne,
    calTarget_setTarget hoffset, calTarget_setTarget hgain, hoffsetRange, hgainRange]
  exact ⟨rfl, rfl⟩

/-! ### A spare that is no slice -/

/-- The state after reset, but that the spare of input 0 of line 0 is given as slice 9. -/
def spareNine : State := modConv State.reset 0 (fun C => { C with spare := vset C.spare 0 9 })

theorem spareNine_spare : vget (vget spareNine.conv 0).spare 0 = 9 := by decide

/-- Slice 9 has no offset, so a measured offset of 1 sets no target there. -/
theorem spareSt_spareNine : calTarget (vget (spareSt 0 0 1 0 [] spareNine).conv 0) (calKey 0 9 1 0) = 0 := by decide

/-- Refutes O16: the statement ranges over every state, and one in which the spare of an input is slice 9, which no input has (R112,
R115), keeps the target of the offset at 0 whatever is measured. With a spare among the nine slices the clause holds
(`spareSt_targets`). -/
theorem not_converterRotation : ¬ Obligations.ConverterRotation := by
  unfold Obligations.ConverterRotation
  rintro ⟨-, -, -, hspare, -⟩
  obtain ⟨t, hnext, -, -, hoffset, -, -⟩ := hspare spareNine 0 0 1 0 []
  have ht : spareSt 0 0 1 0 [] spareNine = t := Host.Outcome.next.inj hnext
  rw [← ht, spareNine_spare] at hoffset
  exact absurd (spareSt_spareNine.symm.trans hoffset) (by decide)

end

end Sys2Proof.Laws
end

section
/-! SUPPORT. The launch delay measurement (R148, R149): its start, its two failures and its result; and what the delivery of a
branch trace leaves of a line's launches (R145). -/

namespace Sys2Proof.Laws
open Sys2Proof Sys2Proof.Machine Sys2Proof.Safety

section
variable {s : State} {l : Fin 2} {r : LaunchRef} {b : SlotCfg}

/-! ### The start and the failures of a measurement -/

theorem pcStatusCalFail_fits (l : Fin 2) : Fld.fits (pcStatusCalFail l.val) = true := by
  match l with
  | 0 => rfl
  | 1 => rfl

theorem pcLaunchMeasDelay_fits (l : Fin 2) : Fld.fits (pcLaunchMeasDelay l.val) = true := by
  match l with
  | 0 => rfl
  | 1 => rfl

/-- R148: a measurement begins, with nothing collected. -/
def measureBegun (c : Pce) : Pce := { c with measuring := true, collected := 0, points := 0, sums := [] }

/-- R148, R149: a measurement has ended. -/
def measureEnded (c : Pce) : Pce := { c with measuring := false }

theorem startMeasure_begins (hr : launchRef s l.val = some r) (hmode : r.mode = 1) (hidle : (vget s.pce l).measuring = false) :
    startMeasure s l = modPce s l measureBegun := by
  unfold startMeasure
  rw [hr]
  exact if_pos ⟨hmode, hidle⟩

theorem failMeasure_pce {why : Nat} : (failMeasure s l why).pce = vmod s.pce l measureEnded :=
  (logEvent_moves (P := [.regs, .log]) rfl (.refl _ _)).only.1 .pce (by decide)

/-- R149: CAL_FAIL is set, and the log entry leaves it. -/
theorem failMeasure_calFail {why : Nat} : getF (failMeasure s l why) (pcStatusCalFail l.val) = 1 := by
  have haddr : 0x2000 + 1024 * l.val ≠ 0xF008 := by omega
  exact getF_logEvent_setF (pcStatusCalFail_fits l) haddr

theorem measureTimeoutSt_fails (hr : launchRef s l.val = some r) (hrun : (vget s.pce l).measuring = true)
    (hpoints : 4 * r.avgN ≤ (vget s.pce l).points) (hfew : (vget s.pce l).collected < r.avgN) :
    measureTimeoutSt l s = failMeasure s l 3 := by
  unfold measureTimeoutSt
  rw [hr]
  dsimp only
  rw [hrun, decide_eq_true hpoints, decide_eq_true hfew]
  rfl

/-! ### The averages are complete -/

/-- R148: the delay that the collected sums give. -/
def measuredDelay (s : State) (l : Fin 2) (r : LaunchRef) (b : SlotCfg) : Int :=
  (r.start : Int) + peakUnits s (vget s.pce l).sums (unitsPer b.g) - refUnits s l.val r.dRef

/-- R148: the measurement has ended with a delay in PC_LAUNCH_MEAS. -/
def delayWritten (s : State) (l : Fin 2) (v : Nat) : State :=
  setF (modPce { s with freeCtr := s.freeCtr + 1 } l measureEnded) (pcLaunchMeasDelay l.val) v

theorem measureDoneSt_below (hr : launchRef s l.val = some r) (hb : breakMonitor s l.val = some b)
    (hrun : (vget s.pce l).measuring = true) (hn : r.avgN ≤ (vget s.pce l).collected)
    (hfloor : aboveFloor (lget 0 (vget s.pce l).sums (peakIndex (vget s.pce l).sums)) r.avgN r.floor = false) :
    measureDoneSt l s = failMeasure { s with freeCtr := s.freeCtr + 1 } l 1 := by
  have hdone : ¬((vget s.pce l).measuring = false ∨ (vget s.pce l).collected < r.avgN) := by simp [hrun, hn]
  unfold measureDoneSt
  rw [hr, hb]
  dsimp only
  rw [if_neg hdone, hfloor]
  rfl

theorem measureDoneSt_found (hr : launchRef s l.val = some r) (hb : breakMonitor s l.val = some b)
    (hrun : (vget s.pce l).measuring = true) (hn : r.avgN ≤ (vget s.pce l).collected)
    (hfloor : aboveFloor (lget 0 (vget s.pce l).sums (peakIndex (vget s.pce l).sums)) r.avgN r.floor = true)
    (hlo : 0 ≤ measuredDelay s l r b) (hhi : measuredDelay s l r b ≤ 1048575) :
    measureDoneSt l s = bookFence (delayWritten s l (measuredDelay s l r b).toNat) (2 ^ (7 + l.val))
      (.measured l (measuredDelay s l r b).toNat) := by
  have hdone : ¬((vget s.pce l).measuring = false ∨ (vget s.pce l).collected < r.avgN) := by simp [hrun, hn]
  have hrange : ¬(measuredDelay s l r b < 0 ∨ 1048575 < measuredDelay s l r b) := by omega
  unfold measureDoneSt
  rw [hr, hb]
  dsimp only
  rw [if_neg hdone, hfloor]
  exact (if_neg Bool.false_ne_true).trans (if_neg hrange)

/-- R75: a fence of Fieldbook's own writes no register but MG_EPOCH. -/
theorem getF_bookFence {scope : Nat} {why : FenceFor} {f : Fld} (hf : f.addr ≠ 0x22) : getF (bookFence s scope why) f = getF s f :=
  getF_of_writes (A := [0x22]) (bookFence_writes (by simp) (.refl _ s)) (by simpa using hf)

theorem bookFence_pce {scope : Nat} {why : FenceFor} : (bookFence s scope why).pce = s.pce :=
  (bookFence_moves (P := [.regs, .fu]) rfl (.refl _ s)).only.1 .pce (by decide)

theorem delayWritten_pce {v : Nat} : (delayWritten s l v).pce = vmod s.pce l measureEnded := setF_pce _ _ _

/-- R148: PC_LAUNCH_MEAS reads as the delay where that is within its range. -/
theorem getF_delayWritten {d : Int} (hlo : 0 ≤ d) (hhi : d ≤ 1048575) :
    (getF (delayWritten s l d.toNat) (pcLaunchMeasDelay l.val) : Int) = d := by
  have hread : getF (delayWritten s l d.toNat) (pcLaunchMeasDelay l.val) = d.toNat % 2 ^ 20 :=
    getF_setF _ _ _ (pcLaunchMeasDelay_fits l)
  omega

/-! ### What a delivered trace leaves of the launches -/

variable {L : Launch} {k : Fin 16} {pol : Fin 2} {xs : List IQ} {u : State}

/-- R101: a cut waveform marks its launch DARK; nothing else of a launch changes. -/
theorem darkLaunches_launches {now : Nat} {es : List Emit} {P : Probe} : ∃ dark : Launch → Bool,
    (darkLaunches now es P).launches = P.launches.map (fun x => { x with dark := dark x }) := by
  refine ⟨fun x => es.any (fun e => decide (e.slot = x.slot ∧ e.stamp = x.stamp)) || x.dark, ?_⟩
  refine List.map_congr_left fun x _ => ?_
  dsimp only
  split
  · next hcut => rw [hcut, Bool.true_or]
  · next hcut => rw [Bool.eq_false_of_not_eq_true hcut, Bool.false_or]

theorem dacTo_launches {limit : Nat} : ∃ dark : Launch → Bool,
    (vget (dacTo s l limit).probe l).launches = (vget s.probe l).launches.map (fun x => { x with dark := dark x }) := by
  by_cases h : (vget s.probe l).emits = []
  · exact ⟨Launch.dark, by rw [dacTo_idle h, List.map_id']⟩
  · rw [dacTo_probe h, vget_vmod]
    exact darkLaunches_launches

theorem noteBreak_launches {P : Probe} {st : Option Nat} : (noteBreak P st).launches = P.launches := by
  cases st <;> rfl

theorem monitorDone_launches {n : Nat} :
    (vget (monitorDone s l L n).probe l).launches = (vget s.probe l).launches := by
  unfold monitorDone
  split
  · split
    · rfl
    · extract_lets s1 c
      have h1 : (vget s1.probe l).launches = (vget s.probe l).launches :=
        (congrArg Probe.launches (vget_vmod _ _ _)).trans noteBreak_launches
      rw [apply_ite State.probe, modPce_probe, ite_self]
      exact h1
  · rfl

/-- R103, R148: what the monitor slot's launch adds leaves the launches that wait for traces. -/
theorem monitored_keeps {n : Nat} :
    (vget (if L.due = 0 then monitorDone s l L n else s).probe l).launches = (vget s.probe l).launches
      ∧ (if L.due = 0 then monitorDone s l L n else s).freeCtr = s.freeCtr := by
  split
  · exact ⟨monitorDone_launches, (monitorDone_moves (P := [.probe, .pce]) rfl (.refl _ s)).only.1 .freeCtr (by decide)⟩
  · exact ⟨rfl, rfl⟩

/-- R145, R164: a trace that joins those for the lanes leaves the sequencer. -/
theorem queueTrace_keeps {offset : Nat} {tr : Trace} : (queueTrace (noteNoise s l.val tr) l offset tr).probe = s.probe
    ∧ (queueTrace (noteNoise s l.val tr) l offset tr).freeCtr = s.freeCtr := by
  obtain ⟨honly, -⟩ : changesOnly [.regs, .trav, .pce] s (queueTrace (noteNoise s l.val tr) l offset tr) :=
    (queueTrace_moves rfl (noteNoise_moves rfl (.refl _ s))).only
  exact ⟨honly .probe (by decide), honly .freeCtr (by decide)⟩

theorem noteCal_due {ys : List (Int × Int)} {ovr own : List Nat} : (noteCal s l L ys ovr own).due = L.due := by
  unfold noteCal
  split
  · rfl
  · split <;> rfl

theorem cancelInput_freeCtr {i : Fin 4} {codes : List (Int × Bool)} {stale : List Bool} :
    (cancelInput s l i L codes stale).2.freeCtr = s.freeCtr + 1 := by
  unfold cancelInput
  extract_lets
  dsimp only
  split <;> rfl

theorem cancelled_freeCtr {ci cq : List (Int × Bool)} {si sq : List Bool} :
    (cancelled s l pol L ci cq si sq).2.freeCtr = s.freeCtr + 2 :=
  cancelInput_freeCtr.trans (congrArg (· + 1) cancelInput_freeCtr)

/-- The launch as it stands once the DACs have put out its waveform. -/
def launchPutOut (s : State) (l : Fin 2) (L : Launch) : Launch :=
  ((vget s.probe l).launches.find? (fun x => x.slot = L.slot && x.stamp = L.stamp)).getD L

theorem launchPutOut_of_one {d : Bool} (h : (vget s.probe l).launches = [{ L with dark := d }]) :
    launchPutOut s l L = { L with dark := d } := by
  simp [launchPutOut, h]

/-- Clearing the only bit that is set leaves none. -/
theorem bitsPut_two_pow_zero (i : Nat) : bitsPut (2 ^ i) i i 0 = 0 := by
  have hbit : bitsOf (2 ^ i) i i = 1 := by
    rw [bitsOf, Nat.div_self (Nat.two_pow_pos i), Nat.add_sub_cancel_left, Nat.pow_one]
  rw [bitsPut, hbit, Nat.one_mul, Nat.sub_self, Nat.zero_mod, Nat.zero_mul]

/-- R145: a launch of slot and stamp of `L` becomes `L1`, and leaves the list where it waits for no trace. -/
def launchTaken (L L1 x : Launch) : Option Launch :=
  if x.slot = L.slot ∧ x.stamp = L.stamp then (if L1.due = 0 then none else some L1) else some x

/-- R145: with no launch that waits for the polarisation nothing is delivered. -/
theorem traceSt_none (hd : dueLaunch (vget s.probe l) k.val pol.val = none) : traceSt l k pol xs s = s := by
  unfold traceSt
  rw [hd]

/-- R145: the launch that a delivered trace belongs to waits for its polarisation no more. -/
theorem traceSt_takes (hd : dueLaunch (vget s.probe l) k.val pol.val = some L) (hu : dacFinish s l L.stamp = u) :
    ∃ L1, L1.due = bitsPut (launchPutOut u l L).due pol.val pol.val 0
      ∧ (vget (traceSt l k pol xs s).probe l).launches = (vget u.probe l).launches.filterMap (launchTaken (launchPutOut u l L) L1)
      ∧ (traceSt l k pol xs s).freeCtr = u.freeCtr + 3 := by
  unfold traceSt
  rw [hd]
  dsimp -zeta only
  rw [hu]
  extract_lets +onlyGivenNames s0 L0 C ci cq si sq
  have hL0 : L0 = launchPutOut u l L := rfl
  have hfree1 : (cancelled s0 l pol L0 ci cq si sq).2.freeCtr = u.freeCtr + 2 := cancelled_freeCtr
  have hprobe1 : (cancelled s0 l pol L0 ci cq si sq).2.probe = u.probe :=
    (cancelled_moves (P := [.pce, .freeCtr]) rfl (.refl _ s0)).only.1 .probe (by decide)
  clear_value L0
  generalize cancelled s0 l pol L0 ci cq si sq = c at hfree1 hprobe1 ⊢
  extract_lets grp sat0 ovr stale own gs n L1 s2 s3 s4 s5 offset tr
  have hdue : L1.due = bitsPut L0.due pol.val pol.val 0 := noteCal_due
  have hfree2 : s2.freeCtr = c.2.freeCtr + 1 := rfl
  have hprobe2 : s2.probe = c.2.probe := rfl
  obtain ⟨hcount, -⟩ : changesOnly [.regs] s2 s3 := (Moves.ite (bump_moves rfl (.refl _ s2)) (.refl _ s2)).only
  have hprobe3 : s3.probe = s2.probe := hcount .probe (by decide)
  have hfree3 : s3.freeCtr = s2.freeCtr := hcount .freeCtr (by decide)
  have htaken : (vget s4.probe l).launches = (vget s3.probe l).launches.filterMap (launchTaken L0 L1) :=
    congrArg Probe.launches (vget_vmod _ _ _)
  have hfree4 : s4.freeCtr = s3.freeCtr := rfl
  obtain ⟨hlaunches5, hfree5⟩ : (vget s5.probe l).launches = (vget s4.probe l).launches ∧ s5.freeCtr = s4.freeCtr :=
    monitored_keeps
  obtain ⟨hprobe, hfree⟩ := queueTrace_keeps (s := s5) (l := l) (offset := offset) (tr := tr)
  rw [← hL0, hprobe, hfree]
  refine ⟨L1, hdue, ?_, ?_⟩
  · rw [hlaunches5, htaken, hprobe3, hprobe2, hprobe1]
  · rw [hfree5, hfree4, hfree3, hfree2, hfree1]

/-- R145: the only launch of a line leaves with the last of its traces. -/
theorem traceSt_last (hd : dueLaunch (vget s.probe l) k.val pol.val = some L) (hdue : L.due = 2 ^ pol.val)
    (hone : (vget s.probe l).launches = [L]) :
    (vget (traceSt l k pol xs s).probe l).launches = [] ∧ s.freeCtr < (traceSt l k pol xs s).freeCtr := by
  obtain ⟨dark, hput⟩ : ∃ dark : Launch → Bool, (vget (dacFinish s l L.stamp).probe l).launches
      = (vget s.probe l).launches.map (fun x => { x with dark := dark x }) := dacTo_launches
  rw [hone, List.map_singleton] at hput
  obtain ⟨L1, hwaits, hleft, hfree⟩ := traceSt_takes (xs := xs) hd rfl
  have hctr : (dacFinish s l L.stamp).freeCtr = s.freeCtr :=
    (dacFinish_moves (P := [.regs, .log, .probe]) rfl (.refl _ s)).only.1 .freeCtr (by decide)
  rw [launchPutOut_of_one hput] at hwaits hleft
  have hnone : L1.due = 0 := hwaits.trans (by rw [hdue]; exact bitsPut_two_pow_zero pol.val)
  rw [hput] at hleft
  refine ⟨hleft.trans ?_, by omega⟩
  simp [launchTaken, hnone]

/-- Settles O18: a measurement starts, fails or writes its delay by its branch; the fence it waits for and the log entry leave what
it wrote; a delivered trace takes its launch out of those that wait for it. -/
theorem launchMeasurement : Obligations.LaunchMeasurement := by
  refine ⟨fun s l r hr hmode hidle => ?_, fun s l r hr hrun hpoints hfew => ?_,
    fun s l r b hr hb hrun hn hfloor hlo hhi hroom => ?_, fun s l r b hr hb hrun hn hfloor => ?_,
    fun s l k pol xs hd => ?_, fun s l k pol xs L hd hdue hone => ?_⟩
  · refine goesOnWith_of_step (f := fun s => startMeasure s l) rfl (startMeasure_begins hr hmode hidle) ?_
    rw [modPce_pce, vget_vmod]
    exact ⟨rfl, rfl, rfl, rfl, (modPce_moves rfl (.refl _ s)).only⟩
  · refine goesOnWith_of_step (f := measureTimeoutSt l) rfl (measureTimeoutSt_fails hr hrun hpoints hfew) ?_
    rw [failMeasure_pce, vget_vmod]
    exact ⟨rfl, failMeasure_calFail, rfl, (failMeasure_moves rfl (.refl _ s)).only⟩
  · refine goesOnWith_of_step (f := measureDoneSt l) rfl (measureDoneSt_found hr hb hrun hn hfloor hlo hhi) ?_
    have haddr : 0x2003 + 1024 * l.val ≠ 0x22 := by omega
    rw [bookFence_pce, delayWritten_pce, vget_vmod, getF_bookFence haddr]
    refine ⟨rfl, getF_delayWritten hlo hhi, bookFence_out hroom, rfl, ?_⟩
    exact (bookFence_moves rfl (setF_moves rfl (modPce_moves rfl (.setFreeCtr rfl (.refl _ s))))).only
  · refine goesOnWith_of_step (f := measureDoneSt l) rfl (measureDoneSt_below hr hb hrun hn hfloor) ?_
    rw [failMeasure_pce, vget_vmod]
    exact ⟨rfl, failMeasure_calFail, rfl, (failMeasure_moves rfl (.setFreeCtr rfl (.refl _ s))).only⟩
  · exact congrArg Host.Outcome.next (traceSt_none hd)
  · obtain ⟨hnone, hfree⟩ := traceSt_last (xs := xs) hd hdue hone
    exact goesOnWith_of_next (t := traceSt l k pol xs s) rfl ⟨hnone, hfree, (traceSt_moves rfl (.refl _ s)).only⟩

end

end Sys2Proof.Laws
end

section
/-! SUPPORT. Spectral captures and Raman blocks (R187, R188, R201 to R213): what the end of a block writes, what fusion leaves of a
line's Raman state, and what a Raman capture leaves of its trigger and its capture window. -/

namespace Sys2Proof.Laws
open Sys2Proof Sys2Proof.Machine Sys2Proof.Safety

section
variable {s : State} {l : Fin 2}

/-! ### Spectral captures -/

/-- R187: the capture that starts at the sweep with a tag. -/
def captureFrom (tag : Nat) : SpecLine := { pending := false, capStart := tag, done_ := 0, seen := tag, slow := false }

theorem startCapture_specLine {tag : Nat} : vget (startCapture s l tag).sense.specLine l = captureFrom tag := vget_vset _ _ _

/-- R188: DATUM_SLOW is noted for the running capture. -/
def datumNoted (s : State) (l : Fin 2) : State :=
  { s with sense := { s.sense with specLine := vset s.sense.specLine l { vget s.sense.specLine l with slow := true } } }

theorem logEvent_sense {code island sev unit_ arg : Nat} : (logEvent s code island sev unit_ arg).sense = s.sense :=
  (logEvent_moves (P := [.regs, .log]) rfl (.refl _ s)).only.1 .sense (by decide)

/-- R188: a capture that is overdue is noted as slow, once. -/
theorem datumSlowSt_slow {c : SpecCfg} (hc : specCfg s l.val = some c) (hpending : 0 < pendingStations s l.val)
    (hslow : (vget s.sense.specLine l).slow = false) (hstart : (vget s.sense.specLine l).capStart ≠ 0)
    (hdone : 16 * c.capSweeps ≤ (vget s.sense.specLine l).done_) :
    (vget (datumSlowSt l s).sense.specLine l).slow = true := by
  have hlogged : datumSlowSt l s = logEvent (datumNoted s l) 0x019 6 1 l.val (pendingStations s l.val) := by
    unfold datumSlowSt
    rw [hc]
    exact if_pos ⟨hpending, hslow, hstart, hdone⟩
  rw [hlogged, logEvent_sense]
  exact congrArg SpecLine.slow (vget_vset _ _ _)

/-! ### The Raman state of a line -/

theorem modRaman_ramanLine {f : RamanLine → RamanLine} :
    vget (modRaman s l f).sense.ramanLine l = f (vget s.sense.ramanLine l) := vget_vmod _ _ _

/-- R209: RM_CAL_AGE as the expiry leaves it: the larger of what it was and one second past the limit. -/
theorem getF_calAgeExpired {limit : Nat} :
    getF (setF s (rmCalAgeAge l.val) (max (getF s (rmCalAgeAge l.val)) (min 1048575 limit))) (rmCalAgeAge l.val)
      = max (getF s (rmCalAgeAge l.val)) (min 1048575 limit) := by
  have hage : getF s (rmCalAgeAge l.val) < 1048576 := getF_lt s _
  have hread := getF_setF s (rmCalAgeAge l.val) (max (getF s (rmCalAgeAge l.val)) (min 1048575 limit)) rfl
  exact hread.trans (Nat.mod_eq_of_lt (show _ < 1048576 by omega))

/-! ### A block ends -/

theorem requestBgs_sense {r : BgReq} (ts : List (Fin 8)) : (forEach ts s (fun s t => requestBg s t r)).sense = s.sense :=
  (Moves.forEach (P := [.regs, .trav]) (fun _ _ k => requestBg_moves rfl k) (.refl _ s)).only.1 .sense (by decide)

/-- R203, R242: the end of a block is its requests and the cells, then the new state `f` of the line and RM_STATUS. -/
theorem endBlock_of_open {b : Nat × Nat} {w : Nat × Nat × Bool} (hopen : (vget s.sense.ramanLine l).open_ = some b)
    (huse : (vget s.sense.ramanLine l).use = some w) : ∃ u f,
    endBlock s l = setF (modRaman u l f) (rmStatusRestartBlocks l.val) (min 1023 ((vget s.sense.ramanLine l).since + 1))
      ∧ u.sense.ramanLine = s.sense.ramanLine ∧ ∀ X, (f X).open_ = none ∧ (f X).count = X.count + 1 := by
  generalize ht : endBlock s l = t
  unfold endBlock at ht
  obtain ⟨outCap, k, gainNorm⟩ := w
  extract_lets +onlyGivenNames X at ht
  have hopenX : X.open_ = some b := hopen
  have huseX : X.use = some (outCap, k, gainNorm) := huse
  rw [hopenX, huseX] at ht
  dsimp -zeta only at ht
  extract_lets +onlyGivenNames att room blk s1 held s2 at ht
  have hline : s1.sense.ramanLine = s.sense.ramanLine := congrArg Sense.ramanLine (requestBgs_sense _)
  exact ⟨s2, _, ht.symm, hline, fun _ => ⟨rfl, rfl⟩⟩

/-- R203: the open block of a line is closed and counted, in RM_STATUS too. -/
theorem endBlock_closes {b : Nat × Nat} {w : Nat × Nat × Bool} (hopen : (vget s.sense.ramanLine l).open_ = some b)
    (huse : (vget s.sense.ramanLine l).use = some w) :
    (vget (endBlock s l).sense.ramanLine l).open_ = none
      ∧ (vget (endBlock s l).sense.ramanLine l).count = (vget s.sense.ramanLine l).count + 1
      ∧ getF (endBlock s l) (rmStatusRestartBlocks l.val) = min 1023 ((vget s.sense.ramanLine l).since + 1) := by
  obtain ⟨u, f, hend, hline, hf⟩ := endBlock_of_open hopen huse
  obtain ⟨hclosed, hcount⟩ := hf (vget s.sense.ramanLine l)
  rw [hend, setF_sense, modRaman_ramanLine, hline]
  refine ⟨hclosed, hcount, (getF_setF _ _ _ rfl).trans (Nat.mod_eq_of_lt ?_)⟩
  exact Nat.lt_succ_of_le (min_le_left 1023 _)

/-! ### What fusion leaves of the Raman state -/

/-- A step that keeps a property of the state keeps it over a list. -/
theorem foldl_keeps {α β : Type} {f : State → β} {g : State → α → State} (hg : ∀ s x, f (g s x) = f s) (xs : List α) :
    f (xs.foldl g s) = f s :=
  List.foldlRecOn (motive := fun t => f t = f s) xs g rfl fun t ht x _ => (hg t x).trans ht

/-- R194: T_R at a station in mode 2 leaves the lines' Raman state. -/
theorem deliverTR_ramanLine {k st : Nat} {v : Option Int} : (deliverTR s k st v).sense.ramanLine = s.sense.ramanLine := by
  unfold deliverTR
  split
  · cases v with
    | none => rfl
    | some v => exact apply_ite (fun t : State => t.sense.ramanLine) _ _ _ |>.trans (ite_self _)
  · rfl

theorem emitProduct_sense {t : Fin 8} {k n code st stamp epoch w v flag : Nat} :
    (emitProduct s t k n code st stamp epoch w v flag).sense = s.sense :=
  (emitProduct_moves (P := [.samples]) rfl (.refl _ s)).only.1 .sense (by decide)

theorem countIf_sense {f : Fld} {c : Bool} : (if c then bump s f else s).sense = s.sense := by
  split <;> rfl

/-- R211 to R216: the fused products of a station leave the lines' Raman state. -/
theorem fuseStation_ramanLine {k gate n epoch g line st : Nat} {b : RBlock} {t : Fin 8} :
    (fuseStation k gate n b epoch g line t s st).sense.ramanLine = s.sense.ramanLine := by
  unfold fuseStation
  extract_lets +onlyGivenNames r only bey emit
  have hemit : ∀ u v v40 o f, (emit u v v40 o f).sense.ramanLine = u.sense.ramanLine := fun _ _ _ _ _ =>
    congrArg Sense.ramanLine (emitProduct_sense.trans (emitProduct_sense.trans emitProduct_sense))
  clear_value emit
  split
  · exact hemit s _ _ _ _
  · split
    next tR R _ =>
      extract_lets +onlyGivenNames cal
      split
      · exact hemit (draw (draw s).2).2 _ _ _ _
      · extract_lets +onlyGivenNames q ray x
        split
        next y div re _ =>
          extract_lets +onlyGivenNames held s1 s2 s3 f
          have hcounts : s3.sense = s1.sense := countIf_sense.trans countIf_sense
          have hline : s3.sense.ramanLine = s1.sense.ramanLine := congrArg Sense.ramanLine hcounts
          split
          · exact (hemit s3 _ _ _ _).trans hline
          · exact (hemit s3 _ _ _ _).trans hline

/-- R242: the work on a ready block on one traverse leaves the lines' Raman state. -/
theorem fuseTrav_ramanLine {b : RBlock} {t : Fin 8} : (fuseTrav l b s t).sense.ramanLine = s.sense.ramanLine := by
  unfold fuseTrav
  split
  · rfl
  · extract_lets +onlyGivenNames n
    split
    next f m _ =>
      extract_lets +onlyGivenNames own s0 s1 s2
      have hdelivered : s1.sense.ramanLine = s0.sense.ramanLine :=
        foldl_keeps (f := fun s => s.sense.ramanLine) (fun _ _ => deliverTR_ramanLine) own
      split
      · exact hdelivered
      · next k gate _ =>
        exact (foldl_keeps (f := fun s => s.sense.ramanLine) (fun _ _ => fuseStation_ramanLine) own).trans hdelivered

/-- R242: a fusion takes the oldest ready block from the line. -/
theorem fusionSt_ready {b : RBlock} {rest : List RBlock} (hready : (vget s.sense.ramanLine l).ready = b :: rest) :
    (vget (fusionSt l s).sense.ramanLine l).ready = rest := by
  unfold fusionSt
  rw [hready]
  have hkept := foldl_keeps (s := modRaman s l (fun X => { X with ready := rest })) (g := fuseTrav l b)
    (f := fun s => s.sense.ramanLine) (fun _ _ => fuseTrav_ramanLine) (lineTravs s l.val)
  exact (congrArg (fun v => (vget v l).ready) hkept).trans (congrArg RamanLine.ready modRaman_ramanLine)

/-! ### A Raman capture -/

/-- R202: the triggers that a capture leaves. -/
def trigsLeft (rest : List RamanTrig) (P : Probe) : Probe := { P with ramanTrigs := rest }

/-- R131, R202: a capture takes the oldest trigger and ends with an open window. -/
theorem ramanCaptureSt_of_trigger {as_ st_ asDark stDark : List Int} {tr : RamanTrig} {rest : List RamanTrig} {c : RamanCfg}
    (htrigs : (vget s.probe l).ramanTrigs = tr :: rest) (hc : ramanCfg s l.val = some c) : ∃ u f,
    ramanCaptureSt l as_ st_ asDark stDark s = modConv u l f ∧ u.probe = vmod s.probe l (trigsLeft rest)
      ∧ ∀ C, (f C).inWindow = true := by
  generalize ht : ramanCaptureSt l as_ st_ asDark stDark s = t
  unfold ramanCaptureSt at ht
  rw [htrigs, hc] at ht
  dsimp -zeta only at ht
  extract_lets +onlyGivenNames s1 s2 C stale gn a b dark s3 added s4 peak s5 s6 at ht
  obtain ⟨hended, -⟩ : changesOnly [.regs, .trav, .sense] s s1 := (Moves.ite (endBlock_moves rfl (.refl _ s)) (.refl _ s)).only
  have hprobe1 : s1.probe = s.probe := hended .probe (by decide)
  have hopened : Moves [.regs, .conv, .sense] (modProbe s1 l (trigsLeft rest)) s2 := openBlock_moves rfl (.refl _ _)
  have hranged : Moves [.regs, .conv, .sense] (modProbe s1 l (trigsLeft rest)) s3 := rangeEffect_moves rfl hopened
  have hsummed : Moves [.regs, .conv, .sense] (modProbe s1 l (trigsLeft rest)) s4 :=
    .ite (markStale_moves rfl hranged) (addCapture_moves rfl (modRaman_moves rfl hranged))
  obtain ⟨hkept, -⟩ : changesOnly [.regs, .conv, .sense] (modProbe s1 l (trigsLeft rest)) s6 :=
    (autoRange_moves rfl (autoRange_moves rfl hsummed)).only
  have hprobe6 : s6.probe = vmod s1.probe l (trigsLeft rest) := hkept .probe (by decide)
  exact ⟨s6, _, ht.symm, hprobe6.trans (congrArg (fun P => vmod P l _) hprobe1), fun _ => rfl⟩

theorem ramanCaptureSt_takes {as_ st_ asDark stDark : List Int} {tr : RamanTrig} {rest : List RamanTrig} {c : RamanCfg}
    (htrigs : (vget s.probe l).ramanTrigs = tr :: rest) (hc : ramanCfg s l.val = some c) :
    (vget (ramanCaptureSt l as_ st_ asDark stDark s).probe l).ramanTrigs = rest
      ∧ (vget (ramanCaptureSt l as_ st_ asDark stDark s).conv l).inWindow = true := by
  obtain ⟨u, f, hcapture, hprobe, hwindow⟩ := ramanCaptureSt_of_trigger htrigs hc
  rw [hcapture, modConv_probe, hprobe, modConv_conv, vget_vmod, vget_vmod]
  exact ⟨rfl, hwindow _⟩

end

/-- Settles O20: each command runs its one operation where its condition holds. The end of a block writes the line's state after its
requests, which leave it; the work of a fusion on each traverse leaves the blocks that are ready; the rest of a capture leaves the
triggers, and it ends by opening the window. -/
theorem spectralAndRaman : Obligations.SpectralAndRaman := by
  refine ⟨fun s l hc => ?_, fun s l hpend => ?_, fun s l c hc hpending hslow hstart hdone => ?_,
    fun s l b u hover hopen huse => ?_, fun s l b u hdue hopen huse => ?_, fun s l => ?_, fun s l c hc hclear => ?_, fun s l => ?_,
    fun s l b rest hready => ?_, fun s l a b x y tr rest c htrigs hc => ?_⟩
  · refine goesOnWith_of_step (f := fun s => whenB (specCfg s l.val).isSome s (wantCapture s l)) rfl (whenB_of_true hc) ?_
    exact ⟨congrArg SpecLine.pending (vget_vmod _ _ _), rfl, (wantCapture_moves rfl (.refl _ s)).only⟩
  · refine goesOnWith_of_step (f := fun s => whenB (vget s.sense.specLine l).pending s (startCapture s l (nextSweep s l))) rfl
      (whenB_of_true hpend) ?_
    rw [startCapture_specLine]
    exact ⟨rfl, rfl, rfl, (startCapture_moves rfl (.refl _ s)).only⟩
  · exact goesOnWith_of_next (t := datumSlowSt l s) rfl
      ⟨datumSlowSt_slow hc hpending hslow hstart hdone, (datumSlowSt_moves rfl (.refl _ s)).only⟩
  · obtain ⟨hclosed, hcount, hstatus⟩ := endBlock_closes hopen huse
    exact goesOnWith_of_step (f := fun s => whenB (blockOver s l) s (endBlock s l)) rfl (whenB_of_true hover)
      ⟨hclosed, hcount, hstatus, (endBlock_moves rfl (.refl _ s)).only⟩
  · obtain ⟨hclosed, hcount, -⟩ := endBlock_closes hopen huse
    exact goesOnWith_of_step (f := fun s => whenB (selfPassDue s l) s (endBlock s l)) rfl (whenB_of_true hdue)
      ⟨hclosed, hcount, (endBlock_moves rfl (.refl _ s)).only⟩
  · exact goesOnWith_of_next (t := coilcalSt l s) rfl
      ⟨congrArg RamanLine.coilReq modRaman_ramanLine, rfl, (coilcalSt_moves rfl (.refl _ s)).only⟩
  · refine goesOnWith_of_next (t := modRaman s l (fun X => { X with suspended := false })) ?_
      ⟨congrArg RamanLine.suspended modRaman_ramanLine, (modRaman_moves rfl (.refl _ s)).only⟩
    show execCoilCalResume l s = _
    unfold execCoilCalResume
    rw [hc]
    exact congrArg Host.Outcome.next (whenB_of_true hclear)
  · refine goesOnWith_of_next rfl ?_
    rw [getF_calAgeExpired]
    exact ⟨le_max_right _ _, le_max_left _ _, (setF_moves rfl (.refl _ s)).only⟩
  · exact goesOnWith_of_next (t := fusionSt l s) rfl (fusionSt_ready hready)
  · obtain ⟨htaken, hwindow⟩ := ramanCaptureSt_takes (as_ := a) (st_ := b) (asDark := x) (stDark := y) htrigs hc
    exact goesOnWith_of_next (t := ramanCaptureSt l a b x y s) rfl
      ⟨htaken, hwindow, (ramanCaptureSt_moves rfl (.refl _ s)).only⟩

end Sys2Proof.Laws
end

section
/-! SUPPORT. How a lane instruction issues (R233, R244, R246): outside a kernel, within a kernel's cycles, and as a kernel fault. -/

namespace Sys2Proof.Laws
open Sys2Proof Sys2Proof.Machine Sys2Proof.Safety

section
variable {s : State} {t : Fin 8} {legal vOnly : Bool} {c : LaneCost} {run : State → State}

theorem issue_outside (hk : (vget s.trav t).kern = none) (hl : legal = true) : issue s t legal vOnly c run = .next (run s) := by
  unfold issue
  rw [hk, hl]
  rfl

theorem issue_illegal_outside (hk : (vget s.trav t).kern = none) (hl : legal = false) :
    issue s t legal vOnly c run = .fault .laneIllegal := by
  unfold issue
  rw [hk, hl]
  rfl

theorem issue_illegal_in_kernel {kr : KernRun} (hk : (vget s.trav t).kern = some kr) (hl : legal = false ∨ vOnly = true) :
    issue s t legal vOnly c run = .next (kernelFault s t kr 3 (firstLane s t)) := by
  have hbad : (!legal || vOnly) = true := by rcases hl with rfl | rfl <;> simp
  unfold issue
  rw [hk]
  exact if_pos hbad

/-- R244: the state in which an instruction of a kernel runs: its cycles are counted. -/
def cyclesCounted (s : State) (t : Fin 8) (kr : KernRun) (c : LaneCost) : State :=
  let T := ({ cyc := kr.cyc, ready := kr.ready } : Timing).after c
  modTrav s t (fun X => { X with kern := some { kr with cyc := T.cyc, ready := T.ready } })

theorem issue_past_limit {kr : KernRun} {k : KernCfg} (hk : (vget s.trav t).kern = some kr) (hl : legal = true) (hv : vOnly = false)
    (hat : kernAt s kr.k = some k) (hlim : k.maxCycles < (({ cyc := kr.cyc, ready := kr.ready } : Timing).after c).cyc) :
    issue s t legal vOnly c run = .next (kernelFault s t kr 2 (firstLane s t)) := by
  unfold issue
  rw [hk, hl, hv]
  simp only [hat]
  exact if_pos hlim

theorem issue_in_kernel {kr : KernRun} (hk : (vget s.trav t).kern = some kr) (hl : legal = true) (hv : vOnly = false)
    (hi : issues s t c.issue) : issue s t legal vOnly c run = .next (run (cyclesCounted s t kr c)) := by
  unfold issues at hi
  rw [hk] at hi
  obtain ⟨hready, k, hat, hle⟩ := hi
  have hin : ¬ k.maxCycles < (({ cyc := kr.cyc, ready := kr.ready } : Timing).after c).cyc := by
    rw [hready, after_idle]
    omega
  unfold issue
  rw [hk, hl, hv]
  simp only [hat]
  exact if_neg hin

end

section
variable {s : State} {t : Fin 8} {P : State → Prop}

/-- A plain lane instruction that is legal and may issue, by what it makes of the lanes. -/
theorem goesOnWith_laneOp {i : Instr} {p : Pred} {legal : Bool} {c : LaneCost} {f : Lane → Lane}
    (hexec : exec i s = laneOp s t p legal c f) (hl : legal = true) (hi : issues s t c.issue)
    (hP : ∀ u, lanesBecome [.regs, .trav] s u t p f → P u) : goesOnWith (exec i s) P := by
  subst hl
  obtain ⟨u, hu, hb⟩ := laneOp_becomes s t p c f hi
  exact goesOnWith_of_next (hexec.trans hu) (hP u hb)

theorem lanesBecome_congr {ps : List Part} {u : State} {p : Pred} {f g : Lane → Lane} (h : ∀ L, f L = g L)
    (hb : lanesBecome ps s u t p f) : lanesBecome ps s u t p g := funext h ▸ hb

end

end Sys2Proof.Laws
end

section
/-! SUPPORT. Comparisons, selection, immediates and parameters of the lanes (R230, R233). -/

namespace Sys2Proof.Laws
open Sys2Proof Sys2Proof.Machine Sys2Proof.Safety

/-! ### Operands -/

/-- R6: a two's complement field reads back unsigned. -/
theorem fieldOf_signedOf (w v : Nat) : fieldOf w (signedOf w v) = v % 2 ^ w := by
  have hpow : (2 : Int) ^ w = ((2 ^ w : Nat) : Int) := by push_cast; rfl
  unfold fieldOf signedOf
  extract_lets x
  have hx : x < 2 ^ w := Nat.mod_lt _ (by positivity)
  have hcast : ((x : Int) % (2 ^ w : Int)).toNat = x := by
    rw [hpow, ← Int.natCast_mod, Int.toNat_natCast, Nat.mod_eq_of_lt hx]
  split
  · exact hcast
  · rw [Int.sub_emod_right]
    exact hcast

/-- R6: a value that fits its width is its own field, read signed. -/
theorem signedOf_fieldOf {w : Nat} {v : Int} (hw : 0 < w) (hlo : -(2 ^ (w - 1) : Int) ≤ v) (hhi : v < 2 ^ (w - 1)) :
    signedOf w (fieldOf w v) = v := by
  obtain ⟨n, rfl⟩ : ∃ n, w = n + 1 := ⟨w - 1, by omega⟩
  simp only [Nat.add_sub_cancel] at hlo hhi
  have hpow : ((2 ^ n : Nat) : Int) = (2 : Int) ^ n := by push_cast; rfl
  have hdouble : (2 : Int) ^ (n + 1) = 2 * 2 ^ n := by ring
  have hpos : (0 : Int) < 2 ^ n := by positivity
  have hfield : ((fieldOf (n + 1) v : Nat) : Int) = v % 2 ^ (n + 1) := Int.toNat_of_nonneg (Int.emod_nonneg _ (by positivity))
  have hlt : fieldOf (n + 1) v < 2 ^ (n + 1) := by
    have := Int.emod_lt_of_pos v (show (0 : Int) < 2 ^ (n + 1) by positivity)
    zify
    omega
  unfold signedOf
  simp only [Nat.add_sub_cancel, Nat.mod_eq_of_lt hlt]
  by_cases hv : 0 ≤ v
  · have hmod : v % 2 ^ (n + 1) = v := Int.emod_eq_of_lt hv (by omega)
    rw [if_pos (by zify; omega), hfield, hmod]
  · have hmod : v % 2 ^ (n + 1) = v + 2 ^ (n + 1) := by
      rw [← Int.add_emod_right, Int.emod_eq_of_lt (by omega) (by omega)]
    rw [if_neg (by zify; omega), hfield, hmod]
    ring

theorem laneW_lt (L : Lane) (i : Nat) : laneW L i < 1024 := BitVec.isLt _

theorem fieldOf_laneWS (L : Lane) (i : Nat) : fieldOf 10 (laneWS L i) = laneW L i :=
  (fieldOf_signedOf 10 _).trans (Nat.mod_eq_of_lt (laneW_lt L i))

/-- R233: IMM16 at the width of a word is its low ten bits. -/
theorem immVal_word (imm : BitVec 16) : immVal 10 imm = signedOf 10 (imm.toNat % 1024) := by
  have hlow : fieldOf 10 imm.toInt = imm.toNat % 1024 := by
    unfold fieldOf
    rw [BitVec.toInt_eq_toNat_bmod, Int.bmod]
    omega
  unfold immVal
  rw [hlow]

/-- R233: IMM16 at the width of a pair is its signed value. -/
theorem immVal_pair (imm : BitVec 16) : immVal 20 imm = imm.toInt := by
  have hlo := imm.le_toInt
  have hhi := imm.toInt_lt
  exact signedOf_fieldOf (by decide) (by norm_num at hlo ⊢; omega) (by norm_num at hhi ⊢; omega)

/-! ### PRM -/

section
variable {s : State} {t : Fin 8}

theorem issues_draw {n : Nat} (hi : issues s t n) : issues (draw s).2 t n := hi

/-- Drawing a free value leaves the lanes and what they hold alone. -/
theorem lanesBecome_of_draw {u : State} {p : Pred} {f : Lane → Lane} (h : lanesBecome [.regs, .trav] (draw s).2 u t p f) :
    lanesBecome [.regs, .trav, .freeCtr] s u t p f := by
  obtain ⟨hlanes, hothers, hpc, honly, hpending⟩ := h
  have hholds : ∀ i, laneHolds (draw s).2 t i = laneHolds s t i := laneHolds_congr rfl (fun _ => rfl) t rfl rfl
  refine ⟨fun i => ?_, hothers, hpc, fun q hq => ?_, hpending⟩
  · have he := hlanes i
    simp only [laneExecs, hholds] at he
    exact he
  · simp only [List.mem_cons, List.not_mem_nil, or_false, not_or] at hq
    obtain ⟨hregs, htrav, hfree⟩ := hq
    exact Part.same_trans ((draw_moves rfl (.refl [.freeCtr] s)).only.1 q (by simpa using hfree)) (honly q (by simp [hregs, htrav]))

theorem exec_prm_in_kernel {p : Pred} {i : FmtI} {kr : KernRun} {k : KernCfg} (hk : (vget s.trav t).kern = some kr)
    (hat : kernAt s kr.k = some k) (hin : i.imm.toNat < k.nParams) : exec (.prm t p i) s
      = laneOp s t p true (laneCost (.prm t p i)) (fun L => putW L i.rd.val ((kernParam s t kr.k i.imm.toNat).toNat : Int) false) := by
  show execPrm t p i s = _
  unfold execPrm
  simp only [hk, hat, if_pos hin]

theorem exec_prm_beyond {p : Pred} {i : FmtI} {kr : KernRun} {k : KernCfg} (hk : (vget s.trav t).kern = some kr)
    (hat : kernAt s kr.k = some k) (hout : k.nParams ≤ i.imm.toNat) : exec (.prm t p i) s
      = laneOp (draw s).2 t p true (laneCost (.prm t p i)) (fun L => putW L i.rd.val ((draw s).1 : Int) false) := by
  show execPrm t p i s = _
  unfold execPrm
  simp only [hk, hat, if_neg (Nat.not_lt.mpr hout)]

end

/-- Settles O22: each instruction is a plain lane operation; its clauses are the comparison, operand or immediate by its code and
width. -/
theorem laneSelection : Obligations.LaneSelection := by
  refine ⟨fun s t p r hi hfn => ?_, fun s t p r hi ha hb hlo hhi => ?_, fun s t p i hi hfn hw => ?_, fun s t p r hi hcj => ?_,
    fun s t p r hi hcj hd ha hb => ?_, fun s t p rd imm hi => ?_, fun s t p rd imm hi hd => ?_,
    fun s t p i kr k hi hk hat hin => ?_, fun s t p i kr k hi hk hat hout => ?_⟩
  · have hnarrow : ¬ 8 ≤ r.fn.val := by omega
    refine goesOnWith_laneOp rfl (by simp [hnarrow]; omega) hi (fun u hu => ⟨_, hu, ?_⟩)
    simp only [hnarrow, decide_false, widthOf, regVal, Bool.false_eq_true, if_false]
    refine ⟨fun h L => ?_, fun h L => ?_, fun h L => ?_, fun h L => ?_, fun h L => ?_, fun h L => ?_⟩ <;>
      rw [h] <;> simp only [cmpFn, fieldOf_laneWS]
  · have hwide : 8 ≤ r.fn.val := hlo
    refine goesOnWith_laneOp rfl (by simp [ha, hb]; omega) hi (fun u hu => ⟨_, hu, ?_⟩)
    simp only [hwide, decide_true, regVal, if_true]
    refine ⟨fun h L => ?_, fun h L => ?_, fun h L => ?_⟩ <;> rw [h] <;> rfl
  · have hlegal : (decide (i.fn.val % 8 ≤ 5) && (!i.w || evenReg i.ra)) = true := by rcases hw with h | h <;> simp [hfn, h]
    refine goesOnWith_laneOp rfl hlegal hi (fun u hu => ⟨_, hu, fun h hw L => ?_, fun h hw L => ?_, fun h hw L => ?_⟩)
    · rw [h, hw, ← immVal_word]; rfl
    · rw [h, hw, ← immVal_word]; rfl
    · rw [h, hw, ← immVal_pair]; rfl
  · refine goesOnWith_laneOp rfl (by simp [hcj]) hi (fun u hu => lanesBecome_congr (fun L => ?_) hu)
    simp only [hcj, putR, regVal, regTag, Bool.false_eq_true, if_false]
    split <;> rfl
  · refine goesOnWith_laneOp rfl (by simp [hd, ha, hb]) hi (fun u hu => lanesBecome_congr (fun L => ?_) hu)
    simp only [hcj, putR, regVal, regTag, if_true]
    split <;> rfl
  · exact goesOnWith_laneOp rfl rfl hi (fun u hu => hu)
  · exact goesOnWith_laneOp rfl (by simp [hd]) hi (fun u hu => hu)
  · exact goesOnWith_laneOp (exec_prm_in_kernel hk hat hin) rfl hi (fun u hu => hu)
  · obtain ⟨u, hu, hb⟩ := laneOp_becomes (draw s).2 t p (laneCost (.prm t p i))
      (fun L => putW L i.rd.val ((draw s).1 : Int) false) (issues_draw hi)
    exact goesOnWith_of_next ((exec_prm_beyond hk hat hout).trans hu) ⟨_, lanesBecome_of_draw hb⟩

end Sys2Proof.Laws
end

section
/-! SUPPORT. The control instructions of the lanes (R237 to R239, R243), the next kernel of a hook, and kernel faults (R246). -/

namespace Sys2Proof.Laws
open Sys2Proof Sys2Proof.Machine Sys2Proof.Safety

section
variable {s : State} {t : Fin 8} {kr : KernRun} {cause lane : Nat}

/-! ### The next kernel -/

theorem nextKernel_none {h : Nat} {ks : List Nat} (hks : ks.filter (fun k => !((vget s.trav t).susp.contains k)) = []) :
    nextKernel s t h ks = modTrav s t (fun T => { T with kern := none, rep := none, stIdx := T.stIdx + 1 }) := by
  unfold nextKernel
  simp only [hks]

theorem nextKernel_starts {h k : Nat} {ks rest : List Nat}
    (hks : ks.filter (fun k => !((vget s.trav t).susp.contains k)) = k :: rest) :
    ((vget (nextKernel s t h ks).trav t).kern.map (fun x => (x.k, x.rest, x.h, x.cyc))) = some (k, rest, h, 0)
      ∧ (vget (nextKernel s t h ks).trav t).stIdx = (vget s.trav t).stIdx ∧ (nextKernel s t h ks).freeCtr = s.freeCtr + 1 := by
  unfold nextKernel
  simp only [hks, modTrav_trav, vget_vmod, mapLanes]
  exact ⟨rfl, trivial, trivial⟩

theorem nextKernel_susp {h : Nat} {ks : List Nat} : (vget (nextKernel s t h ks).trav t).susp = (vget s.trav t).susp := by
  cases hks : ks.filter (fun k => !((vget s.trav t).susp.contains k)) with
  | nil => rw [nextKernel_none hks, modTrav_trav, vget_vmod]
  | cons k rest =>
    unfold nextKernel
    simp only [hks, modTrav_trav, vget_vmod, mapLanes]

/-! ### Kernel faults -/

theorem trKfault_fits (t : Fin 8) : Fld.fits (trKfaultCause t.val) = true ∧ Fld.fits (trKfaultKernel t.val) = true
    ∧ Fld.fits (trKfaultLane t.val) = true := ⟨rfl, rfl, rfl⟩

/-- The registers that a kernel fault writes before it is logged. -/
def kfaultRegs (s : State) (t : Fin 8) (kr : KernRun) (cause lane : Nat) : State :=
  setF (setF (setF (setF s (trKfaultCause t.val) cause) (trKfaultKernel t.val) kr.k) (trKfaultLane t.val) lane) (trKaddrAddr t.val)
    (kr.pc - 3072)

/-- R246: a kernel is suspended on a traverse. -/
def suspend (k : Nat) (T : Trav) : Trav := { T with susp := if T.susp.contains k then T.susp else T.susp ++ [k] }

theorem suspend_susp (k : Nat) (T : Trav) : k ∈ (suspend k T).susp := by
  unfold suspend
  by_cases h : T.susp.contains k = true
  · simp only [h, if_true]
    exact List.contains_iff_mem.mp h
  · simp only [h, if_false, Bool.false_eq_true]
    exact List.mem_append_right _ (List.mem_singleton.mpr rfl)

/-- A kernel fault up to the kernel that goes on: registers, log entry, and the kernel suspended. -/
def kfaultNoted (s : State) (t : Fin 8) (kr : KernRun) (cause lane : Nat) : State :=
  modTrav (logEvent (kfaultRegs s t kr cause lane) 0x01D (10 + t.val) 1 t.val (cause * 1024 + kr.k * 64 + lane)) t (suspend kr.k)

theorem kernelFault_eq :
    kernelFault s t kr cause lane = nextKernel (kfaultNoted s t kr cause lane) t kr.h kr.rest := rfl

theorem kfaultRegs_cause : getF (kfaultRegs s t kr cause lane) (trKfaultCause t.val) = cause % 8 := by
  obtain ⟨hc, hk, hl⟩ := trKfault_fits t
  have haddr : (trKfaultCause t.val).addr ≠ (trKaddrAddr t.val).addr := by show 0x4007 + 1024 * t.val ≠ 0x4008 + 1024 * t.val; omega
  rw [kfaultRegs, getF_setF_ne _ _ _ _ haddr, getF_setF_apart _ _ _ _ hl hc rfl (.inl (show 12 < 17 by decide)),
    getF_setF_apart _ _ _ _ hk hc rfl (.inl (show 16 < 17 by decide)), getF_setF _ _ _ hc]
  rfl

theorem kfaultRegs_kernel :
    getF (kfaultRegs s t kr cause lane) (trKfaultKernel t.val) = kr.k % 16 := by
  obtain ⟨-, hk, hl⟩ := trKfault_fits t
  have haddr : (trKfaultKernel t.val).addr ≠ (trKaddrAddr t.val).addr := by show 0x4007 + 1024 * t.val ≠ 0x4008 + 1024 * t.val; omega
  rw [kfaultRegs, getF_setF_ne _ _ _ _ haddr, getF_setF_apart _ _ _ _ hl hk rfl (.inl (show 12 < 13 by decide)), getF_setF _ _ _ hk]
  rfl

theorem logEvent_trav {code island sev unit_ arg : Nat} : (logEvent s code island sev unit_ arg).trav = s.trav :=
  (logEvent_moves (P := [.regs, .log]) rfl (.refl _ s)).only.1 .trav (by decide)

theorem kfaultRegs_trav : (kfaultRegs s t kr cause lane).trav = s.trav := by
  unfold kfaultRegs
  rw [setF_trav, setF_trav, setF_trav, setF_trav]

theorem kfaultNoted_trav :
    vget (kfaultNoted s t kr cause lane).trav t = suspend kr.k (vget s.trav t) := by
  have hlogged : (logEvent (kfaultRegs s t kr cause lane) 0x01D (10 + t.val) 1 t.val (cause * 1024 + kr.k * 64 + lane)).trav = s.trav :=
    logEvent_trav.trans kfaultRegs_trav
  rw [← hlogged]
  exact vget_vmod _ _ _

theorem kfaultNoted_writes :
    Writes [0xF008] (kfaultRegs s t kr cause lane) (kfaultNoted s t kr cause lane) := by
  unfold kfaultNoted
  exact modTrav_writes (logEvent_writes (by decide) (.refl _ _))

/-- What the registers show of a kernel fault is what was written for it. -/
theorem getF_kernelFault {f : Fld} (hf : f.addr ≠ 0xF008) :
    getF (kernelFault s t kr cause lane) f = getF (kfaultRegs s t kr cause lane) f := by
  have hregs : (kernelFault s t kr cause lane).regs = (kfaultNoted s t kr cause lane).regs := by
    rw [kernelFault_eq]
    exact (nextKernel_moves (P := [.trav, .freeCtr]) rfl (.refl _ _)).only.1 .regs (by decide)
  rw [getF_of_regs hregs]
  exact getF_of_writes kfaultNoted_writes (by simpa using hf)

/-- R246: TR_KFAULT shows cause and kernel, and the kernel is suspended on the traverse. -/
theorem kernelFault_shows : getF (kernelFault s t kr cause lane) (trKfaultCause t.val) = cause % 8
    ∧ getF (kernelFault s t kr cause lane) (trKfaultKernel t.val) = kr.k % 16
    ∧ kr.k ∈ (vget (kernelFault s t kr cause lane).trav t).susp := by
  have hlog : 0x4007 + 1024 * t.val ≠ 0xF008 := by omega
  refine ⟨(getF_kernelFault hlog).trans kfaultRegs_cause, (getF_kernelFault hlog).trans kfaultRegs_kernel, ?_⟩
  rw [kernelFault_eq, nextKernel_susp, kfaultNoted_trav]
  exact suspend_susp kr.k _

/-- R246: with no kernel of the hook left, vendor microcode goes on at the next station. -/
theorem kernelFault_resumes (hrest : kr.rest = []) :
    (vget (kernelFault s t kr cause lane).trav t).kern = none
      ∧ (vget (kernelFault s t kr cause lane).trav t).stIdx = (vget s.trav t).stIdx + 1 := by
  rw [kernelFault_eq, nextKernel_none (by rw [hrest]; rfl), modTrav_trav, vget_vmod]
  exact ⟨rfl, congrArg (fun T => T.stIdx + 1) kfaultNoted_trav⟩

end

/-! ### Illegal instructions -/

theorem laneOp_illegal_outside {s : State} {t : Fin 8} {i : Instr} {p : Pred} {legal : Bool} {c : LaneCost} {f : Lane → Lane}
    (hexec : exec i s = laneOp s t p legal c f) (hk : (vget s.trav t).kern = none) (hl : legal = false) :
    exec i s = .fault .laneIllegal := hexec.trans (issue_illegal_outside hk hl)

theorem laneOp_illegal_in_kernel {s : State} {t : Fin 8} {i : Instr} {p : Pred} {legal : Bool} {c : LaneCost} {f : Lane → Lane}
    {kr : KernRun} (hexec : exec i s = laneOp s t p legal c f) (hk : (vget s.trav t).kern = some kr) (hl : legal = false) :
    exec i s = .next (kernelFault s t kr 3 (firstLane s t)) := hexec.trans (issue_illegal_in_kernel hk (.inl hl))

theorem memOp_illegal_outside {s : State} {t : Fin 8} {p : Pred} {m : FmtM} {legal store : Bool} {n : Nat} {c : LaneCost}
    {f : Nat → Lane → Lane} (hk : (vget s.trav t).kern = none) (hinc : m.inc.val = 7) :
    memOp s t p m legal store n c f = .fault .laneIllegal := by
  unfold memOp
  exact issue_illegal_outside hk (by simp [hinc])

theorem aluLegal_reserved {fn : Fin 16} (h : fn.val = 12 ∨ 14 ≤ fn.val) : aluLegal fn.val = false := by
  simp only [aluLegal, Bool.or_eq_false_iff, decide_eq_false_iff_not]
  omega

/-- Settles O28: each of these instructions is issued as illegal, or past its kernel's cycles. -/
theorem laneIllegal : Obligations.LaneIllegal := by
  refine ⟨fun s t p r hk hfn => ?_, fun s t p r hk hg => ?_, fun s t p m hk hinc => ?_, fun s t p i hk => ?_,
    fun s t p r kr hk hfn => ?_, fun s t kr k hk hat hrest hcyc => ?_, fun s t n kr hk => ?_⟩
  · exact laneOp_illegal_outside rfl hk (by rw [aluLegal_reserved hfn]; rfl)
  · exact laneOp_illegal_outside rfl hk (by rw [hg]; simp)
  · show execLd t p m s = _
    unfold execLd
    exact memOp_illegal_outside hk hinc
  · have hprm : exec (.prm t p i) s = laneOp s t p false (laneCost (.prm t p i)) id := by
      show execPrm t p i s = _
      unfold execPrm
      rw [hk]
    exact laneOp_illegal_outside hprm hk rfl
  · exact goesOnWith_of_next (laneOp_illegal_in_kernel rfl hk (by rw [aluLegal_reserved hfn]; rfl)) kernelFault_shows
  · have hlim : k.maxCycles < (({ cyc := kr.cyc, ready := kr.ready } : Timing).after (laneCost (.nop t))).cyc := Nat.lt_succ_of_le hcyc
    obtain ⟨hcause, -, hsusp⟩ := kernelFault_shows (s := s) (t := t) (kr := kr) (cause := 2) (lane := firstLane s t)
    obtain ⟨hkern, hidx⟩ := kernelFault_resumes (s := s) (t := t) (kr := kr) (cause := 2) (lane := firstLane s t) hrest
    refine goesOnWith_of_next (t := kernelFault s t kr 2 (firstLane s t)) ?_ ⟨hcause, hkern, hidx, hsusp⟩
    show execNop t s = _
    unfold execNop
    exact issue_past_limit hk rfl rfl hat hlim
  · obtain ⟨hcause, -, hsusp⟩ := kernelFault_shows (s := s) (t := t) (kr := kr) (cause := 3) (lane := firstLane s t)
    refine goesOnWith_of_next (t := kernelFault s t kr 3 (firstLane s t)) ?_ ⟨hcause, hsusp⟩
    show execWait t n s = _
    unfold execWait
    exact issue_illegal_in_kernel hk (.inr rfl)

end Sys2Proof.Laws
end

section
/-! SUPPORT. The control instructions of the lanes (R237 to R239, R243): each outside a kernel changes its traverse alone. -/

namespace Sys2Proof.Laws
open Sys2Proof Sys2Proof.Machine Sys2Proof.Safety

section
variable {s : State} {t : Fin 8}

/-! ### Moving past an instruction -/

theorem advance_outside {T : Trav} (hk : T.kern = none) (hr : T.rep = none) : advance T = { T with pc := (T.pc + 1) % 4096 } := by
  unfold advance
  simp only [hk, hr]

theorem cyclesCounted_moves {kr : KernRun} {c : LaneCost} : Moves [.trav] s (cyclesCounted s t kr c) := modTrav_moves rfl (.refl _ s)

/-- An instruction that does nothing but move the traverse on. -/
theorem lanesBecome_advance {s1 : State} (hlanes : (vget s1.trav t).lanes = (vget s.trav t).lanes)
    (hothers : ∀ k : Fin 8, k ≠ t → vget s1.trav k = vget s.trav k) (hout : (vget s.trav t).kern = none → s1 = s)
    (hmoves : Moves [.trav] s s1) : lanesBecome [.trav] s (modTrav s1 t advance) t { neg := false, psel := 0 } id := by
  refine ⟨fun i => ?_, fun k hk => ?_, fun hkern hrep => ?_, (modTrav_moves rfl hmoves).only⟩
  · rw [id, ite_self]
    show vget (vget (vmod s1.trav t advance) t).lanes i = vget (vget s.trav t).lanes i
    rw [vget_vmod, (advance_lanes _).1, hlanes]
  · rw [modTrav_trav, vget_vmod_ne _ _ (Ne.symm hk), hothers k hk]
  · rw [hout hkern, modTrav_trav, vget_vmod, advance_outside hkern hrep]
    exact ⟨rfl, hkern⟩

theorem exec_nop_advances (hi : issues s t 1) :
    goesOnWith (exec (.nop t) s) (fun u => lanesBecome [.trav] s u t { neg := false, psel := 0 } id) := by
  show goesOnWith (execNop t s) _
  unfold execNop
  cases hk : (vget s.trav t).kern with
  | none => exact ⟨_, issue_outside hk rfl, lanesBecome_advance rfl (fun _ _ => rfl) (fun _ => rfl) (.refl _ s)⟩
  | some kr =>
    refine ⟨_, issue_in_kernel hk rfl rfl hi, lanesBecome_advance ?_ (fun k hkt => ?_) (fun h => ?_) cyclesCounted_moves⟩
    · rw [cyclesCounted, modTrav_trav, vget_vmod]
    · rw [cyclesCounted, modTrav_trav, vget_vmod_ne _ _ (Ne.symm hkt)]
    · rw [hk] at h
      cases h

/-! ### Outside a kernel and a repeat -/

theorem modTrav_only {f : Trav → Trav} : changesOnly [.trav] s (modTrav s t f) := (modTrav_moves rfl (.refl _ s)).only

theorem modTrav_congr {f g : Trav → Trav} (h : f (vget s.trav t) = g (vget s.trav t)) : modTrav s t f = modTrav s t g :=
  congrArg (fun T => { s with trav := vset s.trav t T }) h

theorem exec_rep_repeats {src : Bool} {c : Fin 1024} {r : Fin 32} {n : Fin 64} (hk : (vget s.trav t).kern = none)
    (hr : (vget s.trav t).rep = none) (hsrc : src = false) : exec (.rep t src c r n) s = .next (modTrav s t (fun T =>
      { T with pc := (T.pc + 1) % 4096, rep := some { len := n.val + 1, count := c.val + 1, pos := 0, rc := 0 } })) := by
  show execRep t src c r n s = _
  unfold execRep
  rw [hsrc]
  refine (issue_outside hk (decide_eq_true hr)).trans (congrArg _ (modTrav_congr ?_))
  simp only [advance_outside hk hr, Bool.false_eq_true, if_false, Nat.add_one_ne_zero]

/-- R237: a count of 0 skips the body. -/
theorem exec_rep_skips {c : Fin 1024} {r : Fin 32} {n : Fin 64} (hk : (vget s.trav t).kern = none) (hr : (vget s.trav t).rep = none)
    (hzero : laneW ((vget s.trav t).lanes.toList.getD (firstLane s t) Lane.zero) r.val = 0) :
    exec (.rep t true c r n) s = .next (modTrav s t (fun T => { T with pc := (T.pc + 1) % 4096 + n.val + 1 })) := by
  show execRep t true c r n s = _
  unfold execRep
  refine (issue_outside hk (decide_eq_true hr)).trans (congrArg _ (modTrav_congr ?_))
  simp only [advance_outside hk hr, if_true, hzero, hk]

theorem exec_br_outside {p : Pred} {m : Fin 4} {a : Fin 4096} (hk : (vget s.trav t).kern = none) (hr : (vget s.trav t).rep = none) :
    exec (.br t p m a) s = .next (modTrav s t (fun T =>
      { T with pc := if brTaken s t p m.val then a.val else (T.pc + 1) % 4096 })) := by
  show execBr t p m a s = _
  unfold execBr
  refine (issue_outside hk (by simp only [hk, hr, decide_true, Bool.and_self])).trans (congrArg _ (modTrav_congr ?_))
  cases brTaken s t p m.val
  · simp only [Bool.false_eq_true, if_false, advance_outside hk hr]
  · simp only [if_true, hk]

theorem exec_end_outside (hk : (vget s.trav t).kern = none) (hr : (vget s.trav t).rep = none) :
    exec (.end_ t) s = .next (modTrav s t (fun T => { T with run := .idle, gang := false, rep := none, pc := 0 })) := by
  show execEnd t s = _
  unfold execEnd
  refine (issue_outside hk (decide_eq_true hr)).trans (congrArg _ ?_)
  simp only [hk]

theorem exec_mode_outside {g : Bool} (hk : (vget s.trav t).kern = none) (hr : (vget s.trav t).rep = none)
    (hg : g = false ∨ (vget s.trav t).run = .service) :
    exec (.mode t g) s = .next (modTrav s t (fun T => { T with gang := g, pc := (T.pc + 1) % 4096 })) := by
  have hlegal : (decide ((vget s.trav t).rep = none) && (!g || decide ((vget s.trav t).run = .service))) = true := by
    rcases hg with h | h <;> simp [hr, h]
  show execMode t g s = _
  unfold execMode
  exact (issue_outside hk hlegal).trans (congrArg _ (modTrav_congr (advance_outside hk hr)))

theorem exec_wait_ready {n : Fin 64} (hk : (vget s.trav t).kern = none) (hr : (vget s.trav t).rep = none)
    (hready : fifoReady s t { neg := false, psel := 0 } (n.val + 1) = true) :
    exec (.wait t n) s = .next (modTrav s t (fun T => { T with pc := (T.pc + 1) % 4096 })) := by
  show execWait t n s = _
  unfold execWait
  exact (issue_outside hk rfl).trans (congrArg _ ((if_pos hready).trans (modTrav_congr (advance_outside hk hr))))

theorem exec_wait_stalls {n : Fin 64} (hk : (vget s.trav t).kern = none)
    (hready : fifoReady s t { neg := false, psel := 0 } (n.val + 1) = false) : exec (.wait t n) s = .next s := by
  show execWait t n s = _
  unfold execWait
  exact (issue_outside hk rfl).trans (congrArg _ (if_neg (by simp [hready])))

/-! ### HOOK -/

theorem kernsAt_congr {u : State} (hcfg : u.cfg = s.cfg) (i h : Nat) : kernsAt u i h = kernsAt s i h := by
  have hat : kernAt u = kernAt s := by
    funext k
    simp only [kernAt, recBy, recsOf, hcfg]
  simp only [kernsAt, hat]

/-- R243: the traverse has moved past a HOOK and counted its event at the stations. -/
def hookCounted (s : State) (t : Fin 8) (h : Fin 4) : State :=
  modTrav (modTrav s t advance) t (fun T => { T with hookSeq := (List.range 64).foldl (fun q i =>
    match laneStation (modTrav s t advance) t (decide (h.val = 2)) i with
    | none => q
    | some (st, _) => tabSet 0 q (h.val * 2 ^ 18 + st) ((tabGet 0 q (h.val * 2 ^ 18 + st) + 1) % 1024)) T.hookSeq })

theorem exec_hook_outside {h : Fin 4} (hk : (vget s.trav t).kern = none) (hr : (vget s.trav t).rep = none) :
    exec (.hook t h) s = .next (nextKernel (hookCounted s t h) t h.val (kernsAt s t.val h.val)) := by
  show execHook t h s = _
  unfold execHook
  refine (issue_outside hk (decide_eq_true hr)).trans (congrArg Host.Outcome.next ?_)
  rw [← kernsAt_congr (s := s) (u := hookCounted s t h) rfl]
  rfl

theorem hookCounted_moves {h : Fin 4} : Moves [.trav] s (hookCounted s t h) := modTrav_moves rfl (modTrav_moves rfl (.refl _ s))

theorem hookCounted_trav {h : Fin 4} (hk : (vget s.trav t).kern = none) (hr : (vget s.trav t).rep = none) :
    (vget (hookCounted s t h).trav t).susp = (vget s.trav t).susp ∧ (vget (hookCounted s t h).trav t).stIdx = (vget s.trav t).stIdx
      ∧ (vget (hookCounted s t h).trav t).pc = ((vget s.trav t).pc + 1) % 4096 := by
  rw [hookCounted, modTrav_trav, vget_vmod, modTrav_trav, vget_vmod, advance_outside hk hr]
  exact ⟨rfl, rfl, rfl⟩

end

/-- Settles O23: outside kernels and repeats each instruction changes its traverse by one update, which reads off. -/
theorem laneControl : Obligations.LaneControl := by
  refine ⟨fun s t hi => exec_nop_advances hi, fun s t c r n hk hr => ?_, fun s t c r n hk hr hz => ?_, fun s t p m a hk hr => ?_,
    fun s t hk hr => ?_, fun s t h hk hr hks => ?_, fun s t h k rest hk hr hks => ?_, fun s t g hk hr hg => ?_,
    fun s t p hi => goesOnWith_laneOp rfl rfl hi (fun u hu => hu), fun s t n hk hr hready => ?_,
    fun s t n hk hready => exec_wait_stalls hk hready⟩
  · refine goesOnWith_of_next (exec_rep_repeats hk hr rfl) ?_
    rw [modTrav_trav, vget_vmod]
    exact ⟨rfl, rfl, rfl, modTrav_only⟩
  · refine goesOnWith_of_next (exec_rep_skips hk hr hz) ?_
    rw [modTrav_trav, vget_vmod]
    exact ⟨hr, rfl, rfl, modTrav_only⟩
  · refine goesOnWith_of_next (exec_br_outside hk hr) ?_
    rw [modTrav_trav, vget_vmod]
    exact ⟨fun htaken => if_pos htaken, fun hpast => if_neg (by simp [hpast]), rfl, modTrav_only⟩
  · refine goesOnWith_of_next (exec_end_outside hk hr) ?_
    rw [modTrav_trav, vget_vmod]
    exact ⟨rfl, rfl, rfl, modTrav_only⟩
  · obtain ⟨hsusp, hidx, hpc⟩ := hookCounted_trav (h := h) hk hr
    refine goesOnWith_of_next ((exec_hook_outside hk hr).trans (congrArg _ (nextKernel_none (by rw [hsusp]; exact hks)))) ?_
    rw [modTrav_trav, vget_vmod]
    exact ⟨congrArg (· + 1) hidx, rfl, hpc, (modTrav_moves rfl hookCounted_moves).only⟩
  · obtain ⟨hsusp, hidx, -⟩ := hookCounted_trav (h := h) hk hr
    obtain ⟨hkern, hst, hfree⟩ := nextKernel_starts (s := hookCounted s t h) (t := t) (h := h.val) (by rw [hsusp]; exact hks)
    have hdrawn : (hookCounted s t h).freeCtr = s.freeCtr := hookCounted_moves.only.1 .freeCtr (by decide)
    exact goesOnWith_of_next (exec_hook_outside hk hr) ⟨hkern, hst.trans hidx, by rw [hfree, hdrawn],
      (nextKernel_moves rfl (hookCounted_moves.mono rfl)).only⟩
  · refine goesOnWith_of_next (exec_mode_outside hk hr hg) ?_
    rw [modTrav_trav, vget_vmod]
    exact ⟨rfl, rfl, rfl, modTrav_only⟩
  · refine goesOnWith_of_next (exec_wait_ready hk hr hready) ?_
    rw [modTrav_trav, vget_vmod]
    exact ⟨rfl, rfl, modTrav_only⟩

end Sys2Proof.Laws
end

section
/-! SUPPORT. The lanes' local memory (R231, R241, R244): what a word reads after a store, accesses outside kernels, and a store outside
the windows of a kernel. -/

namespace Sys2Proof.Laws
open Sys2Proof Sys2Proof.Machine Sys2Proof.Safety

section
variable {L : Lane} {m : FmtM} {a n v : Nat}

/-! ### Words and values -/

theorem wordsOf_eq_map (n v : Nat) : wordsOf n v = (List.range n).map (fun i => BitVec.ofNat 10 (v / 1024 ^ i)) := by
  induction n generalizing v with
  | zero => rfl
  | succ n ih =>
    rw [wordsOf, ih, List.range_succ_eq_map, List.map_cons, List.map_map]
    refine congrArg₂ _ (by rw [Nat.pow_zero, Nat.div_one]) (List.map_congr_left (fun i _ => ?_))
    show BitVec.ofNat 10 (v / 1024 / 1024 ^ i) = BitVec.ofNat 10 (v / 1024 ^ (i + 1))
    rw [Nat.div_div_eq_div_mul, Nat.pow_succ']

theorem wordsVal_wordsOf (n v : Nat) : wordsVal (wordsOf n v) = v % 1024 ^ n := by
  induction n generalizing v with
  | zero => simp [wordsOf, wordsVal, Nat.mod_one]
  | succ n ih =>
    have hword : (BitVec.ofNat 10 v).toNat = v % 1024 := BitVec.toNat_ofNat _ _
    rw [wordsOf, wordsVal, ih, hword, Nat.pow_succ', Nat.mod_mul]

theorem signedOf_bounds {w : Nat} (hw : 0 < w) (v : Nat) : -(2 ^ (w - 1) : Int) ≤ signedOf w v ∧ signedOf w v < 2 ^ (w - 1) := by
  obtain ⟨k, rfl⟩ : ∃ k, w = k + 1 := ⟨w - 1, by omega⟩
  have hdouble : (2 : Int) ^ (k + 1) = 2 * 2 ^ k := by ring
  have hpos : (0 : Int) < 2 ^ k := by positivity
  unfold signedOf
  extract_lets x
  have hx : (x : Int) < 2 ^ (k + 1) := by exact_mod_cast (Nat.mod_lt v (by positivity) : x < 2 ^ (k + 1))
  simp only [Nat.add_sub_cancel]
  split
  · next h =>
    have hhalf : (x : Int) < 2 ^ k := by exact_mod_cast h
    constructor <;> omega
  · next h =>
    have hhalf : (2 : Int) ^ k ≤ x := by exact_mod_cast Nat.not_lt.mp h
    constructor <;> omega

theorem fieldOf_lt (w : Nat) (v : Int) : fieldOf w v < 2 ^ w := by
  unfold fieldOf
  have hpos : (0 : Int) < 2 ^ w := by positivity
  have hlt := Int.emod_lt_of_pos v hpos
  have hnonneg := Int.emod_nonneg v hpos.ne'
  zify
  rwa [Int.toNat_of_nonneg hnonneg]

/-! ### A word after a store -/

theorem memRead_lt : memRead L a < 1024 := by
  unfold memRead
  split
  · decide
  · exact BitVec.isLt _

theorem memRead_memWrite (w : Word) : memRead (memWrite L a w) a = w.toNat := by
  have hgood : (L.badPar.filter (fun b => b ≠ a)).contains a = false := by simp
  unfold memRead memWrite
  rw [hgood, tabGet_set]
  rfl

theorem memRead_memWrite_ne {b : Nat} (w : Word) (h : b ≠ a) : memRead (memWrite L a w) b = memRead L b := by
  have hbad : (L.badPar.filter (fun b => b ≠ a)).contains b = L.badPar.contains b := by
    rw [Bool.eq_iff_iff, List.contains_iff_mem, List.contains_iff_mem, List.mem_filter]
    simp [h]
  unfold memRead memWrite
  rw [hbad, tabGet_set_ne _ _ _ _ h]

theorem memWriteN_zero : memWriteN L a 0 v = L := rfl

theorem memWriteN_succ :
    memWriteN L a (n + 1) v = memWrite (memWriteN L a n v) ((a + n) % 16384) (BitVec.ofNat 10 (v / 1024 ^ n)) := by
  unfold memWriteN memSpan
  rw [wordsOf_eq_map, wordsOf_eq_map, List.zip_map', List.zip_map', List.range_succ, List.map_append, List.foldl_append]
  rfl

/-- A run of words stored: word i of the value stands at address a + i, modulo 16,384. -/
theorem memRead_memWriteN {i : Nat} (hi : i < n) (hn : n ≤ 16384) :
    memRead (memWriteN L a n v) ((a + i) % 16384) = v / 1024 ^ i % 1024 := by
  induction n with
  | zero => omega
  | succ n ih =>
    rw [memWriteN_succ]
    by_cases h : i = n
    · rw [h, memRead_memWrite]
      exact BitVec.toNat_ofNat _ _
    · rw [memRead_memWrite_ne _ (by omega)]
      exact ih (by omega) (by omega)

/-- It leaves every other word alone. -/
theorem memRead_memWriteN_ne {b : Nat} (h : b ∉ memSpan a n) : memRead (memWriteN L a n v) b = memRead L b := by
  induction n with
  | zero => rfl
  | succ n ih =>
    rw [memSpan, List.range_succ, List.map_append, List.mem_append, not_or] at h
    obtain ⟨hbelow, hat⟩ := h
    rw [memWriteN_succ, memRead_memWrite_ne _ (by simpa using hat)]
    exact ih hbelow

theorem memReadN_memWriteN (hn : n ≤ 16384) : memReadN (memWriteN L a n v) a n = v % 1024 ^ n := by
  rw [← wordsVal_wordsOf, wordsOf_eq_map, memReadN, memSpan, List.map_map]
  refine congrArg wordsVal (List.map_congr_left (fun i hi => ?_))
  show BitVec.ofNat 10 (memRead (memWriteN L a n v) ((a + i) % 16384)) = BitVec.ofNat 10 (v / 1024 ^ i)
  rw [memRead_memWriteN (List.mem_range.mp hi) hn]
  exact BitVec.eq_of_toNat_eq (by simp)

/-- R233: a pair read, low word first. -/
theorem memReadN_pair (ha : a < 16384) : memReadN L a 2 = memRead L a + 1024 * memRead L ((a + 1) % 16384) := by
  have hword : ∀ b, (BitVec.ofNat 10 (memRead L b)).toNat = memRead L b := fun b =>
    (BitVec.toNat_ofNat _ _).trans (Nat.mod_eq_of_lt memRead_lt)
  show (BitVec.ofNat 10 (memRead L ((a + 0) % 16384))).toNat + 1024 * ((BitVec.ofNat 10 (memRead L ((a + 1) % 16384))).toNat + 1024 * 0) = _
  rw [hword, hword, Nat.add_zero, Nat.mod_eq_of_lt ha]
  rfl

/-- A store changes local memory alone. -/
theorem memWriteN_keeps : ∃ x y, memWriteN L a n v = { L with mem := x, badPar := y } := by
  induction n with
  | zero => exact ⟨L.mem, L.badPar, rfl⟩
  | succ n ih =>
    obtain ⟨x, y, h⟩ := ih
    rw [memWriteN_succ, h]
    exact ⟨_, _, rfl⟩

/-! ### The address and the index register -/

theorem memAddr_lt : memAddr L m < 16384 := Nat.mod_lt _ (by decide)

theorem memInc_keeps : ∃ x, memInc L m = { L with x := x } := by
  unfold memInc
  extract_lets d
  split
  · exact ⟨L.x, rfl⟩
  · exact ⟨_, rfl⟩

theorem memRead_memInc {b : Nat} : memRead (memInc L m) b = memRead L b := by
  obtain ⟨x, h⟩ := memInc_keeps (L := L) (m := m)
  rw [h]
  rfl

theorem memReadN_memInc : memReadN (memInc L m) a n = memReadN L a n := by
  unfold memReadN
  simp only [memRead_memInc]

/-- A store with its index register: the registers and accumulators stay. -/
theorem store_keeps : (memInc (memWriteN L a n v) m).w = L.w ∧ (memInc (memWriteN L a n v) m).acc0 = L.acc0
    ∧ (memInc (memWriteN L a n v) m).acc1 = L.acc1 := by
  obtain ⟨x, hinc⟩ := memInc_keeps (L := memWriteN L a n v) (m := m)
  obtain ⟨mem, bad, hwrite⟩ := memWriteN_keeps (L := L) (a := a) (n := n) (v := v)
  rw [hinc, hwrite]
  exact ⟨rfl, rfl, rfl⟩

/-- Its words stand at its addresses. -/
theorem store_reads {i : Nat} (hi : i < n) (hn : n ≤ 16384) :
    memRead (memInc (memWriteN L a n v) m) ((a + i) % 16384) = v / 1024 ^ i % 1024 := memRead_memInc.trans (memRead_memWriteN hi hn)

theorem store_reads_first (hn : n ≤ 16384) (h0 : 0 < n) (ha : a < 16384) :
    memRead (memInc (memWriteN L a n v) m) a = v % 1024 := by
  have hfirst := store_reads (L := L) (m := m) (a := a) (v := v) h0 hn
  rwa [Nat.add_zero, Nat.mod_eq_of_lt ha, Nat.pow_zero, Nat.div_one] at hfirst

theorem store_leaves {b : Nat} (h : b ∉ memSpan a n) : memRead (memInc (memWriteN L a n v) m) b = memRead L b :=
  memRead_memInc.trans (memRead_memWriteN_ne h)

/-! ### Accumulators -/

/-- R238: what an accumulator takes that fits it. -/
theorem accFresh_fits {acc tag : Bool} {x : Int} (hlo : -(2 ^ 39 : Int) ≤ x) (hhi : x < 2 ^ 39) :
    accFresh L acc x tag = setAcc (setAcc L acc 0 false false) acc x false tag := by
  unfold accFresh accWrite
  rw [if_neg (by omega), if_neg (by omega)]

theorem setAcc_reads {acc sat tag : Bool} {x : Int} (hlo : -(2 ^ 39 : Int) ≤ x) (hhi : x < 2 ^ 39) :
    laneAcc (setAcc L acc x sat tag) acc = x ∧ laneSat (setAcc L acc x sat tag) acc = sat
      ∧ laneAccInv (setAcc L acc x sat tag) acc = tag := by
  have hval : (BitVec.ofInt 40 x).toInt = x := by
    rw [BitVec.toInt_ofInt]
    exact Int.bmod_eq_of_le (by norm_num at hlo ⊢; omega) (by norm_num at hhi ⊢; omega)
  cases acc
  · exact ⟨hval, rfl, rfl⟩
  · exact ⟨hval, rfl, rfl⟩

theorem setAcc_keeps {acc sat tag : Bool} {x : Int} : (setAcc L acc x sat tag).w = L.w ∧ (setAcc L acc x sat tag).mem = L.mem := by
  cases acc
  · exact ⟨rfl, rfl⟩
  · exact ⟨rfl, rfl⟩

end

section
variable {s : State} {t : Fin 8} {p : Pred} {m : FmtM}

/-! ### An access outside a kernel -/

/-- Outside a kernel, where no word read has wrong parity, an access is a plain lane instruction. -/
theorem memOp_outside {legal store : Bool} {n : Nat} {c : LaneCost} {f : Nat → Lane → Lane} (hk : (vget s.trav t).kern = none)
    (hinc : m.inc.val ≠ 7) (hl : legal = true) (hpar : store = true ∨ parityHits s t p m n = []) :
    memOp s t p m legal store n c f = laneOp s t p true c (fun L => memInc (f (memAddr L m) L) m) := by
  have hread : (if store then s else notePar s t (parityHits s t p m n)) = s := by
    rcases hpar with h | h
    · rw [h]
      rfl
    · rw [h]
      exact ite_self s
  unfold memOp laneOp
  rw [issue_outside hk (by simp [hl, hinc]), issue_outside hk rfl]
  simp only [hk, hread]

theorem goesOnWith_memOp {i : Instr} {legal store : Bool} {n : Nat} {c : LaneCost} {f : Nat → Lane → Lane} {P : State → Prop}
    (hexec : exec i s = memOp s t p m legal store n c f) (hk : (vget s.trav t).kern = none) (hinc : m.inc.val ≠ 7) (hl : legal = true)
    (hpar : store = true ∨ parityHits s t p m n = [])
    (hP : ∀ u, lanesBecome [.regs, .trav] s u t p (fun L => memInc (f (memAddr L m) L) m) → P u) : goesOnWith (exec i s) P := by
  have hi : issues s t c.issue := by
    unfold issues
    rw [hk]
    trivial
  exact goesOnWith_laneOp (hexec.trans (memOp_outside hk hinc hl hpar)) rfl hi hP

theorem exec_ld : exec (.ld t p m) s
    = memOp s t p m true false 1 (laneCost (.ld t p m)) (fun a L => putW L m.r.val (memReadN L a 1 : Nat) false) := rfl

theorem exec_ldp : exec (.ldp t p m) s
    = memOp s t p m (evenReg m.r) false 2 (laneCost (.ldp t p m)) (fun a L => putD L m.r.val (memReadN L a 2 : Nat) false) := rfl

theorem exec_ald : exec (.ald t p m) s = memOp s t p m true false 4 (laneCost (.ald t p m))
    (fun a L => accFresh L m.acc (signedOf 40 (memReadN L a 4)) false) := rfl

theorem exec_st : exec (.st t p m) s
    = memOp s t p m true true 1 (laneCost (.st t p m)) (fun a L => memWriteN L a 1 (laneW L m.r.val)) := rfl

theorem exec_stp : exec (.stp t p m) s
    = memOp s t p m (evenReg m.r) true 2 (laneCost (.stp t p m)) (fun a L => memWriteN L a 2 (laneD L m.r.val)) := rfl

theorem exec_ast : exec (.ast t p m) s
    = memOp s t p m true true 4 (laneCost (.ast t p m)) (fun a L => memWriteN L a 4 (fieldOf 40 (laneAcc L m.acc))) := rfl

/-! ### A store outside a kernel's windows -/

theorem cyclesCounted_trav {kr : KernRun} {c : LaneCost} : ∃ cyc ready,
    vget (cyclesCounted s t kr c).trav t = { vget s.trav t with kern := some { kr with cyc := cyc, ready := ready } } :=
  ⟨_, _, vget_vmod _ _ _⟩

theorem cyclesCounted_execs {kr : KernRun} {c : LaneCost} {i : Nat} {L : Lane} (hk : (vget s.trav t).kern = some kr) :
    laneExecs (cyclesCounted s t kr c) t p i L = laneExecs s t p i L := by
  have hoos : ∀ k, (vget (cyclesCounted s t kr c).trav k).oos = (vget s.trav k).oos := fun k => by
    by_cases h : t = k
    · rw [← h, cyclesCounted, modTrav_trav, vget_vmod]
    · rw [cyclesCounted, modTrav_trav, vget_vmod_ne _ _ h]
  obtain ⟨cyc, ready, ht⟩ := cyclesCounted_trav (s := s) (t := t) (kr := kr) (c := c)
  have hgrid : onRamanGrid (vget (cyclesCounted s t kr c).trav t) = onRamanGrid (vget s.trav t) := by
    rw [ht]
    simp only [onRamanGrid, hk]
  have hholds : laneHolds (cyclesCounted s t kr c) t i = laneHolds s t i :=
    laneHolds_congr (s := s) (u := cyclesCounted s t kr c) rfl hoos t (by rw [ht]) hgrid i
  unfold laneExecs
  rw [hholds]

theorem mem_lanesOf (T : Trav) (i : Fin 64) : (i.val, vget T.lanes i) ∈ lanesOf T :=
  List.mem_map.mpr ⟨i.val, List.mem_range.mpr i.isLt, by simp [vget, List.getD]⟩

/-- R244, R246: a store by an executing lane outside the windows of its kernel is a kernel fault of cause 1. -/
theorem exec_st_outside_window {kr : KernRun} {i : Fin 64} (hk : (vget s.trav t).kern = some kr) (hi : issues s t 1)
    (hinc : m.inc.val ≠ 7) (hexec : laneExecs s t p i.val (lane s t i) = true)
    (hwin : windowOk (kernWindows s kr.k) true (memSpan (memAddr (lane s t i) m) 1) = false) :
    ∃ s1 kr1 x, exec (.st t p m) s = .next (kernelFault s1 t kr1 1 x) ∧ kr1.k = kr.k := by
  obtain ⟨cyc, ready, ht⟩ := cyclesCounted_trav (s := s) (t := t) (kr := kr) (c := laneCost (.st t p m))
  have hwins : kernWindows (cyclesCounted s t kr (laneCost (.st t p m))) kr.k = kernWindows s kr.k := rfl
  have hfound : ((lanesOf (vget s.trav t)).find? (fun x => laneExecs s t p x.1 x.2
      && !(windowOk (kernWindows s kr.k) true (memSpan (memAddr x.2 m) 1)))).isSome = true := by
    rw [List.find?_isSome]
    refine ⟨_, mem_lanesOf _ i, ?_⟩
    show (laneExecs s t p i.val (lane s t i) && !(windowOk (kernWindows s kr.k) true (memSpan (memAddr (lane s t i) m) 1))) = true
    rw [hexec, hwin]
    rfl
  obtain ⟨x, hx⟩ := Option.isSome_iff_exists.mp hfound
  refine ⟨cyclesCounted s t kr (laneCost (.st t p m)), { kr with cyc := cyc, ready := ready }, x.1, ?_, rfl⟩
  rw [exec_st]
  unfold memOp
  refine (issue_in_kernel hk (by simp [hinc]) rfl hi).trans (congrArg Host.Outcome.next ?_)
  simp only [ht, cyclesCounted_execs hk, hwins]
  have hlanes : lanesOf { vget s.trav t with kern := some { kr with cyc := cyc, ready := ready } } = lanesOf (vget s.trav t) := rfl
  rw [hlanes, hx]

end

/-- Settles O24: outside a kernel an access is a plain lane operation, whose words are those of `memRead_memWriteN` and its like; the
fault is that of the lane whose access lies outside the windows. -/
theorem laneMemory : Obligations.LaneMemory := by
  refine ⟨fun s t p m hk hinc hpar => ?_, fun s t p m hk hinc hr hpar => ?_, fun s t p m hk hinc hpar => ?_, fun s t p m hk hinc => ?_,
    fun s t p m hk hinc hr => ?_, fun s t p m hk hinc => ?_, fun s t p i hi hfn => ?_, fun s t p i hi hfn ha => ?_,
    fun s t p i hi => goesOnWith_laneOp rfl rfl hi (fun u hu => hu), fun s t p m kr i hk hi hinc hexec hwin => ?_⟩
  · exact goesOnWith_memOp exec_ld hk hinc rfl (.inr hpar) (fun u hu => hu)
  · exact goesOnWith_memOp exec_ldp hk hinc hr (.inr hpar) (fun u hu => lanesBecome_congr (fun L => by rw [memReadN_pair memAddr_lt]) hu)
  · refine goesOnWith_memOp exec_ald hk hinc rfl (.inr hpar) (fun u hu => ⟨_, hu, fun L => ?_⟩)
    obtain ⟨hlo, hhi⟩ := signedOf_bounds (w := 40) (by decide) (memReadN L (memAddr L m) 4)
    obtain ⟨x, hx⟩ := memInc_keeps (L := accFresh L m.acc (signedOf 40 (memReadN L (memAddr L m) 4)) false) (m := m)
    rw [hx, accFresh_fits hlo hhi]
    obtain ⟨hval, hsat, htag⟩ := setAcc_reads (L := setAcc L m.acc 0 false false) (acc := m.acc) (sat := false) (tag := false) hlo hhi
    obtain ⟨hw, hmem⟩ := setAcc_keeps (L := setAcc L m.acc 0 false false) (acc := m.acc) (sat := false) (tag := false)
      (x := signedOf 40 (memReadN L (memAddr L m) 4))
    exact ⟨hval, hsat, htag, hw.trans setAcc_keeps.1, hmem.trans setAcc_keeps.2⟩
  · refine goesOnWith_memOp exec_st hk hinc rfl (.inl rfl) (fun u hu => ⟨_, hu, fun L => ?_⟩)
    obtain ⟨hw, h0, h1⟩ := store_keeps (L := L) (m := m) (a := memAddr L m) (n := 1) (v := laneW L m.r.val)
    refine ⟨(store_reads_first (by decide) (by decide) memAddr_lt).trans (Nat.mod_eq_of_lt (laneW_lt L _)), fun a ha => ?_, hw, h0, h1⟩
    refine store_leaves (fun hspan => ha ?_)
    rw [← Nat.mod_eq_of_lt (memAddr_lt (L := L) (m := m))]
    exact List.mem_singleton.mp hspan
  · refine goesOnWith_memOp exec_stp hk hinc hr (.inl rfl) (fun u hu => ⟨_, hu, fun L => ?_⟩)
    have hlow := laneW_lt L m.r.val
    have hhigh := laneW_lt L (m.r.val + 1)
    refine ⟨(store_reads_first (by decide) (by decide) memAddr_lt).trans ?_,
      (store_reads (i := 1) (by decide) (by decide)).trans ?_, fun a ha => store_leaves ha, store_keeps.1⟩
    · unfold laneD
      omega
    · unfold laneD
      omega
  · refine goesOnWith_memOp exec_ast hk hinc rfl (.inl rfl) (fun u hu => ⟨_, hu, fun L => ?_⟩)
    obtain ⟨-, h0, h1⟩ := store_keeps (L := L) (m := m) (a := memAddr L m) (n := 4) (v := fieldOf 40 (laneAcc L m.acc))
    refine ⟨?_, fun a ha => store_leaves ha, h0, h1⟩
    rw [memReadN_memInc, memReadN_memWriteN (by decide)]
    exact Nat.mod_eq_of_lt (fieldOf_lt 40 _)
  · exact goesOnWith_laneOp rfl (by simp [hfn]) hi (fun u hu => lanesBecome_congr (fun L => by rw [if_pos hfn]) hu)
  · exact goesOnWith_laneOp rfl (by simp [hfn, ha]) hi (fun u hu => lanesBecome_congr (fun L => by rw [if_neg (by omega)]) hu)
  · obtain ⟨s1, kr1, x, hst, hsame⟩ := exec_st_outside_window hk hi hinc hexec hwin
    refine goesOnWith_of_next hst ?_
    rw [← hsame]
    exact kernelFault_shows

end Sys2Proof.Laws
end

section
/-! SUPPORT. The survey streams (R251 to R276): what one command leaves in its stream, and what a reset clears. -/

namespace Sys2Proof.Laws
open Sys2Proof Sys2Proof.Machine Sys2Proof.Safety

section
variable {s : State}

/-! ### One stream -/

@[simp] theorem strm_modStrm {n : Nat} {f : StreamSt → StreamSt} : strm (modStrm s n f) n = f (strm s n) := tabGet_put ..

theorem getF_modStrm {n : Nat} {f : StreamSt → StreamSt} {g : Fld} : getF (modStrm s n f) g = getF s g := getF_of_regs rfl

theorem getF_setFu {fu : FenceUnit} {g : Fld} : getF { s with fu := fu } g = getF s g := getF_of_regs rfl

theorem strm_of_streams {u : State} (h : u.streams = s.streams) (n : Nat) : strm u n = strm s n :=
  congrArg (fun t => tabGet StreamSt.zero t n) h

/-! ### Inputs (R253, R255) -/

theorem find_line {l : Fin 2} {n : Nat} (h : l.val = n) : (List.finRange 2).find? (fun k => decide (k.val = n)) = some l := by
  subst h
  revert l
  decide

/-- R253: the first input of a stream sets the next grid point, whatever its chain makes of the value. -/
theorem streamInputSt_first {n : Fin 256} {stamp : Nat} {c : StreamCfg} {l : Fin 2} (hc : streamAt s n.val = some c)
    (hl : l.val = c.line) (hshed : streamShed s c = false) (hsb : inStandby s = false) (hlast : (strm s n.val).lastIn = none) :
    ∃ s1, streamInputSt n stamp s = modStrm s1 n.val (fun x =>
      { x with expect := some (stamp + gridGap s c l stamp), gridEra := (vget s.probe l).era, gridShift := (vget s.probe l).shift }) := by
  unfold streamInputSt
  simp only [hc, find_line hl, hshed, hsb, hlast, Bool.or_self, Bool.and_false, Bool.false_eq_true, if_false]
  exact ⟨_, rfl⟩

/-- R247: a shed stream takes no input. -/
theorem streamInputSt_shed {n : Fin 256} {stamp : Nat} {c : StreamCfg} (hc : streamAt s n.val = some c) (hshed : streamShed s c = true) :
    streamInputSt n stamp s = s := by
  unfold streamInputSt
  simp only [hc, hshed, Bool.true_or, if_true]
  split <;> rfl

/-! ### Detectors (R267, R268) -/

/-- R268: sending event frames leaves the detectors' counts. -/
theorem sendEvents_det {c : StreamCfg} {stamp fuel : Nat} {rs : List (List Word)} :
    (strm (sendEvents c stamp fuel rs s) c.n).det = (strm s c.n).det := by
  induction fuel generalizing rs s with
  | zero => rfl
  | succ fuel ih =>
    cases rs with
    | nil => rfl
    | cons r rs =>
      unfold sendEvents
      refine ih.trans ?_
      rw [strm_of_streams ((sendFrame_moves (P := [.regs, .net, .code]) rfl (.refl _ _)).only.1 .streams (by decide)), strm_modStrm]

/-- R267: the first event of a second starts new counts. -/
theorem detSummary_new_second {c : StreamCfg} {d : Fin 4} {now : Nat} (h : (vget (strm s c.n).det d).sec ≠ now) :
    vget (strm (detSummary s c d now).1 c.n).det d = { vget (strm s c.n).det d with sec := now, sent := 0, supp := 0 } := by
  unfold detSummary
  rw [if_pos h, strm_modStrm, vget_vset]

theorem summarySt_new_second {n : Nat} {d : Fin 4} {c : StreamCfg} (hc : streamAt s n = some c)
    (h : (vget (strm s c.n).det d).sec ≠ stampNow s / secU) :
    vget (strm (summarySt n d s) c.n).det d = { vget (strm s c.n).det d with sec := stampNow s / secU, sent := 0, supp := 0 } := by
  unfold summarySt
  simp only [hc]
  rw [sendEvents_det, detSummary_new_second h]

/-! ### Syncs (R261 to R263) -/

/-- R262: with fewer than four waiting and no input processed, a sync waits with the others, in the order of time. -/
theorem addSync_waits {n ts : Nat} {c : StreamCfg} (hc : streamAt s n = some c) (hfew : (strm s n).syncs.length < 4)
    (hlast : (strm s n).lastIn = none) : addSync s n ts = modStrm s n (fun x =>
      { x with syncs := (x.syncs ++ [(ts, false)]).mergeSort (fun a b => decide (a.1 ≤ b.1)) }) := by
  unfold addSync
  simp only [hc, hlast, Nat.not_le.2 hfew, Bool.false_eq_true, if_false]

theorem addSync_added {n ts : Nat} {c : StreamCfg} (hc : streamAt s n = some c) (hfew : (strm s n).syncs.length < 4)
    (hlast : (strm s n).lastIn = none) : (strm (addSync s n ts) n).syncs.length = (strm s n).syncs.length + 1
      ∧ (ts, false) ∈ (strm (addSync s n ts) n).syncs ∧ changesOnly [.streams] s (addSync s n ts) := by
  rw [addSync_waits hc hfew hlast, strm_modStrm]
  refine ⟨?_, ?_, (modStrm_moves rfl (.refl _ s)).only⟩
  · rw [List.length_mergeSort, List.length_append, List.length_singleton]
  · exact List.mem_mergeSort.2 (List.mem_append_right _ (List.mem_singleton_self _))

/-- R262: a fifth sync is only logged. -/
theorem addSync_logged {n ts : Nat} {c : StreamCfg} (hc : streamAt s n = some c) (hfull : 4 ≤ (strm s n).syncs.length) :
    Moves [.regs, .log] s (addSync s n ts) := by
  unfold addSync
  simp only [hc, hfull, if_true]
  exact logEvent_moves rfl (.refl _ s)

/-! ### A reset's counters (R276) -/

/-- A field written 0 after a field of another place, or itself, was: it stays 0. -/
theorem getF_setF_zero_of {f g : Fld} (hf : Fld.fits f = true) (hg : Fld.fits g = true)
    (h : g = f ∨ g.addr ≠ f.addr ∨ g.hi < f.lo ∨ f.hi < g.lo) (h0 : getF s g = 0) : getF (setF s f 0) g = 0 := by
  by_cases ha : g.addr = f.addr
  · rcases h with rfl | h | h
    · rw [getF_setF s g 0 hg, Nat.zero_mod]
    · exact absurd ha h
    · rw [getF_setF_apart s f g 0 hf hg ha h.symm, h0]
  · rw [getF_setF_ne s f g 0 ha, h0]

/-- Fields written 0 in turn, each one another place than the rest or the same: a field among them reads 0. -/
theorem getF_foldl_zero {fs : List Fld} {g : Fld} (hg : Fld.fits g = true)
    (hfs : ∀ f ∈ fs, Fld.fits f = true ∧ (g = f ∨ g.addr ≠ f.addr ∨ g.hi < f.lo ∨ f.hi < g.lo)) (h : g ∈ fs ∨ getF s g = 0) :
    getF (fs.foldl (fun s f => setF s f 0) s) g = 0 := by
  induction fs generalizing s with
  | nil => exact h.resolve_left List.not_mem_nil
  | cons f fs ih =>
    have hf := hfs f List.mem_cons_self
    refine ih (fun x hx => hfs x (List.mem_cons_of_mem f hx)) ?_
    rcases h with h | h
    · rcases List.mem_cons.1 h with rfl | h
      · exact .inr (by rw [getF_setF s g 0 hg, Nat.zero_mod])
      · exact .inl h
    · exact .inr (getF_setF_zero_of hf.1 hg hf.2 h)

/-- R276: the fields a stream's reset clears. -/
def streamCounters (n : Nat) : List Fld :=
  [stStatusAov n, stDropCount n, stFilledCount n, stSatCount n, stSwapSupersededCount n, stBankBusyCount n,
    stSyncsApplied n, stSyncsLate n] ++ (List.range 4).map (fun d => stDetEventsCount n d)

theorem clearStreamCounters_eq {n : Nat} : clearStreamCounters s n = (streamCounters n).foldl (fun s f => setF s f 0) s := rfl

/-- A stream's counters stand as those of stream 0 do, 64 registers further for each stream. -/
theorem streamCounters_shift {n : Nat} :
    streamCounters n = (streamCounters 0).map (fun f => { f with addr := f.addr + 64 * n }) := by
  simp [streamCounters, stStatusAov, stDropCount, stFilledCount, stSatCount, stSwapSupersededCount, stBankBusyCount, stSyncsApplied,
    stSyncsLate, stDetEventsCount, List.range_succ]
  omega

/-- No two of a stream's counters overlap. -/
theorem streamCounters_apart {n : Nat} {f g : Fld} (hf : f ∈ streamCounters n) (hg : g ∈ streamCounters n) :
    Fld.fits f = true ∧ (g = f ∨ g.addr ≠ f.addr ∨ g.hi < f.lo ∨ f.hi < g.lo) := by
  have hzero : ∀ f ∈ streamCounters 0, ∀ g ∈ streamCounters 0,
    Fld.fits f = true ∧ (g = f ∨ g.addr ≠ f.addr ∨ g.hi < f.lo ∨ f.hi < g.lo) := by decide
  rw [streamCounters_shift] at hf hg
  obtain ⟨f0, hf0, rfl⟩ := List.mem_map.1 hf
  obtain ⟨g0, hg0, rfl⟩ := List.mem_map.1 hg
  obtain ⟨hfits, rfl | haddr | hbits⟩ := hzero f0 hf0 g0 hg0
  · exact ⟨hfits, .inl rfl⟩
  · exact ⟨hfits, .inr (.inl (fun h => haddr (Nat.add_right_cancel h)))⟩
  · exact ⟨hfits, .inr (.inr hbits)⟩

theorem getF_clearStreamCounters {n : Nat} {g : Fld} (hg : g ∈ streamCounters n) : getF (clearStreamCounters s n) g = 0 := by
  rw [clearStreamCounters_eq]
  exact getF_foldl_zero (streamCounters_apart hg hg).1 (fun f hf => streamCounters_apart hf hg) (.inl hg)

theorem streamResetSt_eq {n : Nat} {c : StreamCfg} (hc : streamAt s n = some c) : streamResetSt n s =
    modStrm (clearStreamCounters (restartStream s c false) n) n (fun x => { x with seq := 0, evSeq := 0 }) := by
  unfold streamResetSt
  simp only [hc]

theorem streamResetSt_counter {n : Nat} {c : StreamCfg} {g : Fld} (hc : streamAt s n = some c) (hg : g ∈ streamCounters n) :
    getF (streamResetSt n s) g = 0 := by
  rw [streamResetSt_eq hc, getF_modStrm, getF_clearStreamCounters hg]

/-! ### Swaps and coefficients (R258, R259) -/

/-- R259: a swap asked for is a write of ST_SWAP held for its fence. -/
theorem swapRequestSt_held {n : Nat} {c : StreamCfg} (hc : streamAt s n = some c) (ht : c.t ≠ 0) :
    getF (swapRequestSt n s) (stSwapReq n) = 1 ∧ (swapRequestSt n s).fu.held.length = s.fu.held.length + 1 := by
  unfold swapRequestSt
  simp only [hc, ht, if_false]
  refine ⟨?_, by rw [List.length_append, List.length_singleton]⟩
  rw [getF_setFu, getF_setF s (stSwapReq n) 1 rfl]
  rfl

theorem coefWrite_stored {n v : Nat} {c : StreamCfg} (hc : streamAt s n = some c) (hi : getF s (stCoefSelIndex n) < c.t)
    (hb : bankIdle (strm s n) (getF s (stCoefSelBank n)) = true) : (coefWrite s n v).1 = modStrm s n (fun x =>
      { x with coef := tabSet 0 x.coef (getF s (stCoefSelBank n) * 256 + getF s (stCoefSelIndex n)) (v % 2 ^ 20) }) := by
  unfold coefWrite
  simp only [hc, Nat.not_le.2 hi, hb, if_false, if_true]

theorem coefWrite_busy {n v : Nat} {c : StreamCfg} (hc : streamAt s n = some c) (hi : getF s (stCoefSelIndex n) < c.t)
    (hb : bankIdle (strm s n) (getF s (stCoefSelBank n)) = false) : (coefWrite s n v).1 = bump s (stBankBusyCount n) := by
  unfold coefWrite
  simp only [hc, Nat.not_le.2 hi, hb, if_false, Bool.false_eq_true]

end

/-- Settles O29: each command's effect on its stream, from the lemmas above. -/
theorem streams : Obligations.Streams := by
  unfold Obligations.Streams
  refine ⟨?_, ?_, ?_, ?_, ?_, ?_, ?_, ?_, ?_, ?_⟩
  · intro s n c l stamp hc hl hshed hsb hlast
    obtain ⟨s1, h⟩ := streamInputSt_first (stamp := stamp) hc hl hshed hsb hlast
    refine goesOnWith_of_next (t := streamInputSt n stamp s) rfl ⟨?_, ?_, (streamInputSt_moves rfl (.refl _ s)).only⟩ <;>
      rw [h, strm_modStrm]
  · intro s n c hc hshed stamp
    exact congrArg Host.Outcome.next (streamInputSt_shed hc hshed)
  · intro s n d c hc hsec
    have h := summarySt_new_second hc hsec.ne
    exact goesOnWith_of_next (t := summarySt n.val d s) rfl
      ⟨by rw [h], by rw [h], by rw [h], (summarySt_moves rfl (.refl _ s)).only⟩
  · intro s n c hc hfew hlast
    exact goesOnWith_of_next rfl (addSync_added hc hfew hlast)
  · intro s n c hc hfull
    have h := addSync_logged (ts := stampNow s + 50 * usU) hc hfull
    exact goesOnWith_of_next rfl ⟨h.only.1 .streams (by decide), h.only⟩
  · intro s c hpin hc hfew hlast
    have h : syncEdgeSt s = addSync s c.n (stampNow s) := by
      unfold syncEdgeSt
      rw [hpin]
      rfl
    exact goesOnWith_of_next (congrArg Host.Outcome.next h) (addSync_added hc hfew hlast)
  · intro s n c hc
    have h0 := fun g => streamResetSt_counter (g := g) hc
    refine goesOnWith_of_next (t := streamResetSt n.val s) rfl ⟨?_, ?_, h0 _ ?_, h0 _ ?_, h0 _ ?_, h0 _ ?_, h0 _ ?_⟩
    · rw [streamResetSt_eq hc, strm_modStrm]
    · rw [streamResetSt_eq hc, strm_modStrm]
    all_goals simp [streamCounters]
  · intro s n c hc ht
    obtain ⟨hreq, hheld⟩ := swapRequestSt_held hc ht
    have h : Moves [.regs, .fu] s (swapRequestSt n.val s) := swapRequestSt_moves rfl (.refl _ s)
    exact goesOnWith_of_next (t := swapRequestSt n.val s) rfl
      ⟨hreq, hheld, congrArg StreamSt.bank (strm_of_streams (h.only.1 .streams (by decide)) _), h.only⟩
  · intro s n v c hc hi hb
    refine goesOnWith_of_next (congrArg Host.Outcome.next (coefWrite_stored hc hi hb))
      ⟨?_, ?_, (modStrm_moves rfl (.refl _ s)).only⟩
    · rw [strm_modStrm, tabGet_set, Nat.mod_eq_of_lt v.isLt]
    · rw [strm_modStrm]
  · intro s n v c hc hi hb
    exact goesOnWith_of_next (congrArg Host.Outcome.next (coefWrite_busy hc hi hb))
      ⟨getF_bump s (stBankBusyCount n.val) rfl, (bump_moves rfl (.refl _ s)).only⟩

end Sys2Proof.Laws
end

section
/-! SUPPORT. Passes of a traverse (R222 to R225, R240, R241): what a pass shows of its traverse, and that its work, a drop and a
recovery of other traverses leave that alone. -/

namespace Sys2Proof.Laws
open Sys2Proof Sys2Proof.Machine Sys2Proof.Safety

section
variable {s u : State} {t : Fin 8} {β γ : Type} {g : Trav → β}

/-! ### One view of all traverses -/

/-- What `g` reads of each traverse. -/
def travsBy (g : Trav → β) (s : State) (t : Fin 8) : β := g (vget s.trav t)

theorem travsBy_of_trav (h : u.trav = s.trav) : travsBy g u = travsBy g s := by
  unfold travsBy
  rw [h]

theorem travsBy_of_moves {P : List Part} (h : Moves P s u) (hP : Part.trav ∉ P) : travsBy g u = travsBy g s :=
  travsBy_of_trav (h.only.1 .trav hP)

theorem travsBy_modTrav {f : Trav → Trav} (h : ∀ T, g (f T) = g T) : travsBy g (modTrav s t f) = travsBy g s := by
  funext k
  unfold travsBy
  rw [modTrav_trav]
  rcases eq_or_ne t k with rfl | hk
  · rw [vget_vmod, h]
  · rw [vget_vmod_ne _ _ hk]

theorem travsBy_modTrav_self {f : Trav → Trav} : travsBy g (modTrav s t f) t = g (f (vget s.trav t)) :=
  congrArg g (by rw [modTrav_trav, vget_vmod])

/-- A view of a kept view is kept. -/
theorem travsBy_part (f : β → γ) (h : travsBy g u = travsBy g s) : travsBy (fun T => f (g T)) u = travsBy (fun T => f (g T)) s :=
  funext fun k => congrArg f (congrFun h k)

theorem vget_map {α δ : Type} {n : Nat} (f : α → δ) (v : Vector α n) (i : Fin n) : vget (v.map f) i = f (vget v i) :=
  Vector.getElem_map ..

/-- What a pass shows of its traverse. -/
structure PassView where
  run : PassKind
  stamp : Nat
  epoch : Nat
  kern : Option KernRun
  pc : Nat
  fg : List ShotReq
  blk : Nat

def passView (T : Trav) : PassView := ⟨T.run, T.stamp, T.epoch, T.kern, T.pc, T.fg, T.blk⟩

/-- The pass and its background queue. -/
def sliceView (T : Trav) : PassView × List BgReq := (passView T, T.bg)

/-- The pass and whether its traverse is in service and sound. -/
def standing (T : Trav) : PassView × Bool × Bool := (passView T, T.oos, T.recovery)

/-! ### Entry (R228) -/

theorem logParity_trav {h : Nat × Nat} :
    (logEvent (bump s (trParityCount t.val)) 0x01C (10 + t.val) 1 t.val (h.1 * 2 ^ 14 + h.2)).trav = s.trav := by
  rw [logEvent_trav, bump_trav]

theorem notePar_view {hits : List (Nat × Nat)} : travsBy sliceView (notePar s t hits) = travsBy sliceView s := by
  unfold notePar
  extract_lets s1
  have h1 : travsBy sliceView s1 = travsBy sliceView s :=
    foldl_keeps (fun _ _ => travsBy_of_trav logParity_trav) hits
  split
  · exact h1
  · rw [← h1]
    exact travsBy_modTrav fun _ => by simp only [sliceView, passView, mapLanes]

theorem enterPass_view {k : PassKind} {stamp epoch grp : Nat} : sliceView (vget (enterPass s t k stamp epoch grp).trav t)
    = (⟨k, stamp, epoch, none, 0, (vget s.trav t).fg, (vget s.trav t).blk⟩, (vget s.trav t).bg) := by
  unfold enterPass passParity
  refine (congrFun notePar_view t).trans ?_
  refine (congrFun (travsBy_of_trav (s := modTrav s t _) rfl) t).trans ?_
  rw [travsBy_modTrav_self]
  simp only [sliceView, passView, mapLanes]

theorem notePar_others {hits : List (Nat × Nat)} {k : Fin 8} (hk : k ≠ t) : vget (notePar s t hits).trav k = vget s.trav k := by
  unfold notePar
  extract_lets s1
  have h1 : s1.trav = s.trav :=
    foldl_keeps (f := State.trav) (fun _ _ => logParity_trav) hits
  split
  · rw [h1]
  · rw [modTrav_trav, vget_vmod_ne _ _ hk.symm, h1]

theorem enterPass_others {kind : PassKind} {stamp epoch grp : Nat} {k : Fin 8} (hk : k ≠ t) :
    vget (enterPass s t kind stamp epoch grp).trav k = vget s.trav k := by
  unfold enterPass passParity
  refine (notePar_others hk).trans ?_
  show vget (vmod s.trav t _) k = _
  rw [vget_vmod_ne _ _ hk.symm]

/-- R223: no pass starts while one runs. -/
theorem passReady_running (h : (vget s.trav t).run ≠ .idle) : passReady s t = false := by
  unfold passReady
  simp only [h, decide_false, Bool.false_and]

theorem bgReady_running (h : (vget s.trav t).run ≠ .idle) : bgReady s t = false := by
  rw [bgReady, passReady_running h, Bool.false_and]

/-! ### Cycles, requests and restarts keep the standing of every traverse -/

theorem addBusy_view {n : Nat} (h : ∀ T a b, g { T with busy := a, busy10 := b } = g T) : travsBy g (addBusy s t n) = travsBy g s :=
  travsBy_modTrav fun T => h T _ _

theorem seqRestart_standing {l h : Nat} {p : Nat → Bool} : travsBy standing (seqRestart s l h p) = travsBy standing s := by
  funext k
  unfold travsBy seqRestart
  rw [vget_ofFn]
  dsimp only
  split <;> rfl

theorem dasRestart_standing {l : Nat} {p : Nat → Bool} : travsBy standing (dasRestart s l p) = travsBy standing s :=
  seqRestart_standing.trans (travsBy_of_trav rfl)

theorem zeroWindow_standing : travsBy standing (zeroWindow s t) = travsBy standing s := by
  unfold zeroWindow
  exact travsBy_modTrav fun _ => by simp only [standing, passView, mapLanes]

theorem dropOpen_standing : travsBy standing (dropOpen s t) = travsBy standing s := by
  unfold dropOpen
  extract_lets s1
  have h1 : travsBy standing s1 = travsBy standing s := travsBy_modTrav fun _ => rfl
  split
  · exact h1
  · exact (travsBy_of_moves (clearAct_moves (P := [.sense]) rfl (.refl _ _)) (by decide)).trans h1

theorem dropWork_standing : travsBy standing (dropWork s t) = travsBy standing s := by
  unfold dropWork
  extract_lets s1
  have h1 : travsBy standing s1 = travsBy standing s := travsBy_modTrav fun _ => rfl
  split
  · split
    · exact (travsBy_of_moves (leaveBlock_moves (P := [.regs, .sense]) rfl (.refl _ _)) (by decide)).trans h1
    · exact h1
  · exact h1

theorem ramanRestart_standing {l : Fin 2} : travsBy standing (ramanRestart s l) = travsBy standing s := by
  unfold ramanRestart
  extract_lets other s0 s1
  have h1 : travsBy standing s1 = travsBy standing s :=
    travsBy_of_moves (modRaman_moves (P := [.regs, .sense]) rfl (restartAveraging_moves rfl (.refl _ s))) (by decide)
  refine seqRestart_standing.trans (seqRestart_standing.trans (Eq.trans ?_ h1))
  funext k
  unfold travsBy
  rw [vget_map]
  rfl

theorem requestBg_standing {r : BgReq} : travsBy standing (requestBg s t r) = travsBy standing s := by
  unfold requestBg
  split
  · unfold refuseReq
    exact (travsBy_of_trav (bump_trav ..)).trans (travsBy_modTrav fun _ => rfl)
  · exact travsBy_modTrav fun _ => rfl

theorem setOpen_standing {c : Bool} {o : Option OpenSpan} {w : Option Nat} :
    travsBy standing (setOpen s t c o w) = travsBy standing s :=
  travsBy_modTrav fun T => by cases c <;> rfl

/-! ### The work of a shot pass -/

/-- R169: the DAS part of a shot pass. -/
theorem dasPass_standing {l : Fin 2} {stamp epoch : Nat} : travsBy standing (dasPass s l t stamp epoch) = travsBy standing s := by
  unfold dasPass
  split
  · rfl
  · split
    · extract_lets offs j s1 traces bs n beyond
      split
      extract_lets own s2 s3 s4
      have h1 : travsBy standing s1 = travsBy standing s :=
        travsBy_of_moves (formDiffs_moves (P := [.pce]) rfl (.refl _ s)) (by decide)
      have h2 : travsBy standing s2 = travsBy standing s1 := foldl_keeps (fun _ _ =>
        travsBy_of_moves (dasStation_moves (P := [.regs, .sense, .samples, .dram]) rfl (.refl _ _)) (by decide)) own
      have h3 : travsBy standing s3 = travsBy standing s2 := foldl_keeps (fun _ _ =>
        travsBy_of_moves (gaugeStation_moves (P := [.sense, .samples]) rfl (.refl _ _)) (by decide)) _
      have h4 : travsBy standing s4 = travsBy standing s3 := travsBy_modTrav fun _ => rfl
      exact (addBusy_view fun _ _ _ => rfl).trans (h4.trans (h3.trans (h2.trans h1)))
    · rfl

theorem leaveAt_standing {l start : Nat} {c : Bool} : travsBy standing (leaveAt s t l start c) = travsBy standing s := by
  unfold leaveAt
  split
  · split
    · rfl
    · refine setOpen_standing.trans ?_
      split
      · exact requestBg_standing
      · rfl
  · rfl

theorem openAt_standing {o : OpenSpan} {w : SweepAt} {c : Bool} : travsBy standing (openAt s t o w c) = travsBy standing s := by
  unfold openAt
  split
  · rfl
  · exact setOpen_standing
  · dsimp only
    split <;> exact setOpen_standing

theorem closeAt_standing {l now len : Nat} {c : Bool} : travsBy standing (closeAt s t l now len c) = travsBy standing s := by
  unfold closeAt
  split
  · rfl
  · split
    · exact setOpen_standing.trans requestBg_standing
    · rfl

theorem missedPeriods_standing {l out last start : Nat} {span : Nat → OpenSpan} :
    travsBy standing (missedPeriods s t l out last start span) = travsBy standing s := by
  unfold missedPeriods
  split
  · exact foldl_keeps (fun _ _ => requestBg_standing) _
  · rfl

/-- R185, R186: the sweep part of a shot pass. -/
theorem sweepPass_standing {l : Fin 2} {stamp : Nat} : travsBy standing (sweepPass s l t stamp) = travsBy standing s := by
  unfold sweepPass
  split
  · rfl
  · split
    · extract_lets cc out sw w X span ps s0 s1 bs s2 s2' s3 T
      split
      extract_lets s4 s5
      have h0 : travsBy standing s0 = travsBy standing s := by
        unfold s0
        split
        · exact dropOpen_standing
        · rfl
      have h1 : travsBy standing s1 = travsBy standing s0 := by
        refine travsBy_of_moves (countSweep_moves (P := [.sense]) rfl ?_) (by decide)
        split
        · exact wantCapture_moves rfl (.refl _ _)
        · exact .refl _ _
      have h2 : travsBy standing s2 = travsBy standing s1 := leaveAt_standing.trans leaveAt_standing
      have h2' : travsBy standing s2' = travsBy standing s2 := by
        unfold s2'
        split
        · rfl
        · rfl
        · exact missedPeriods_standing
      have h3 : travsBy standing s3 = travsBy standing s2' := openAt_standing.trans openAt_standing
      have h4 : travsBy standing s4 = travsBy standing s3 := by
        refine foldl_keeps (fun s p => foldl_keeps (fun s i => ?_) _) _
        dsimp only
        split
        · exact travsBy_of_moves (accumulate_moves (P := [.sense, .dram]) rfl (.refl _ s)) (by decide)
        · rfl
      have h5 : travsBy standing s5 = travsBy standing s4 := by
        unfold s5
        split
        · exact closeAt_standing.trans closeAt_standing
        · rfl
      refine (addBusy_view fun _ _ _ => rfl).trans (Eq.trans (travsBy_modTrav ?_) ?_)
      · exact fun _ => rfl
      · rw [h5, h4, h3, h2', h2, h1, h0]
    · rfl

/-- R222: a shot pass shows its entry, once its request has left the queue. -/
theorem shotPassSt_view {r : ShotReq} {rest : List ShotReq} {l : Fin 2} (hfg : (vget s.trav t).fg = r :: rest) (hl : r.line = l.val)
    (hready : passReady s t = true) (hwait : c0Waits s = false) (hall : shotComplete s l r.stamp = true) :
    ∃ epoch, passView (vget (shotPassSt t s).trav t) = ⟨.shot, r.stamp, epoch, none, 0, rest, (vget s.trav t).blk⟩ := by
  unfold shotPassSt
  simp -zeta only [hfg, find_line hl.symm, hready, hwait, hall, Bool.not_false, Bool.and_self, if_true]
  extract_lets trs epoch s1 s2 s3
  have h1 : passView (vget s1.trav t) = ⟨.shot, r.stamp, epoch, none, 0, rest, (vget s.trav t).blk⟩ := by
    refine (congrArg Prod.fst enterPass_view).trans ?_
    rw [modTrav_trav, vget_vmod]
  have h2 : travsBy passView s2 = travsBy passView s1 :=
    travsBy_modTrav fun _ => by simp only [passView, mapLanes]
  have h3 : travsBy passView s3 = travsBy passView s2 :=
    travsBy_part Prod.fst (sweepPass_standing.trans dasPass_standing)
  refine ⟨epoch, ?_⟩
  rw [modPce_trav]
  exact (congrFun (h3.trans h2) t).trans h1

/-! ### Background work (R223) -/

/-- R186, R189: a slice of an output request leaves the pass and the queue. -/
theorem outputSlice_view {l tag stamp epoch next : Nat} {c : Bool} :
    travsBy sliceView (outputSlice s l t tag stamp epoch c next).1 = travsBy sliceView s := by
  unfold outputSlice
  split
  · rfl
  · extract_lets n b cost len own g s1 two
    refine (addBusy_view fun _ _ _ => rfl).trans ?_
    unfold s1
    split
    · rfl
    · split
      · exact foldl_keeps (fun _ _ => travsBy_of_moves (commitStation_moves (P := [.sense, .dram]) rfl (.refl _ _)) (by decide)) own
      · exact foldl_keeps (fun _ _ =>
          travsBy_of_moves (outputStation_moves (P := [.regs, .sense, .samples, .dram]) rfl (.refl _ _)) (by decide)) own

/-- R205: a slice of a Raman block leaves the pass and the queue. -/
theorem ramanSlice_view {l : Fin 2} {blk next : Nat} : travsBy sliceView (ramanSlice s l t blk next).1 = travsBy sliceView s := by
  unfold ramanSlice
  split
  · extract_lets block len own base s1 s2 s3 coil final
    have h1 : travsBy sliceView s1 = travsBy sliceView s := by
      refine (travsBy_of_moves (setFS_moves (P := [.regs]) rfl (setFS_moves rfl (.refl _ _))) (by decide)).trans ?_
      exact travsBy_modTrav fun _ => by simp only [sliceView, passView, mapLanes]
    have h2 : travsBy sliceView s2 = travsBy sliceView s1 := foldl_keeps (fun _ _ =>
      travsBy_of_moves (ramanStationSt_moves (P := [.sense, .samples, .xbuf, .freeCtr]) rfl (.refl _ _)) (by decide)) own
    have h3 : travsBy sliceView s3 = travsBy sliceView s2 := addBusy_view fun _ _ _ => rfl
    split
    · exact h3.trans (h2.trans h1)
    · refine (travsBy_of_moves (leaveBlock_moves (P := [.regs, .sense]) rfl (.refl _ _)) (by decide)).trans ?_
      exact (addBusy_view fun _ _ _ => rfl).trans (h3.trans (h2.trans h1))
  · rfl

/-- A slice shows its entry. -/
theorem runSlice_view {w : BgWork} : travsBy sliceView (runSlice s t w) = travsBy sliceView (enterSlice s t w) := by
  unfold runSlice
  extract_lets s0
  split
  next s1 left h =>
    refine Eq.trans (travsBy_modTrav (fun _ => rfl : ∀ T : Trav, sliceView { T with work := _ } = sliceView T)) ?_
    have h1 : s1 = (s1, left).1 := rfl
    rw [h1, ← h]
    split
    · exact outputSlice_view
    · split
      · rfl
      · exact ramanSlice_view

theorem sliceView_setStation {n : Nat} :
    sliceView (vget (modTrav s t (fun T => { T with stIdx := n })).trav t) = sliceView (vget s.trav t) :=
  congrFun (travsBy_modTrav (g := sliceView) (f := fun T => { T with stIdx := n }) fun _ => rfl) t

theorem sliceView_setBlock {n : Nat} : sliceView (vget (modTrav s t (fun T => { T with blk := n })).trav t)
    = ({ (sliceView (vget s.trav t)).1 with blk := n }, (sliceView (vget s.trav t)).2) := by
  rw [modTrav_trav, vget_vmod]
  rfl

theorem enterSlice_output {l tag stamp epoch next : Nat} {c : Bool} :
    sliceView (vget (enterSlice s t { req := .output l tag stamp epoch c, next := next }).trav t)
      = (⟨.output, stamp, epoch, none, 0, (vget s.trav t).fg, (vget s.trav t).blk⟩, (vget s.trav t).bg) := by
  unfold enterSlice
  rw [sliceView_setStation, enterPass_view]

theorem blkEntered_view {blk stamp epoch next : Nat} {k : PassKind} : sliceView (vget (modTrav (modTrav (enterPass s t k stamp epoch 0) t
      (fun T => { T with blk := blk })) t (fun T => { T with stIdx := next })).trav t)
    = (⟨k, stamp, epoch, none, 0, (vget s.trav t).fg, blk⟩, (vget s.trav t).bg) := by
  rw [sliceView_setStation, sliceView_setBlock, enterPass_view]

theorem enterSlice_raman {l blk stamp next : Nat} :
    ∃ epoch, sliceView (vget (enterSlice s t { req := .raman l blk stamp, next := next }).trav t)
      = (⟨.raman, stamp, epoch, none, 0, (vget s.trav t).fg, blk⟩, (vget s.trav t).bg) := by
  unfold enterSlice
  exact ⟨_, blkEntered_view⟩

/-- R222: the oldest request starts with its first slice. -/
theorem startWork_output {l tag stamp epoch : Nat} {c : Bool} {rest : List BgReq}
    (hbg : (vget s.trav t).bg = .output l tag stamp epoch c :: rest) (hwork : (vget s.trav t).work = none)
    (hready : bgReady s t = true) (hwait : c0Waits s = false) : startWork s t true =
      runSlice (modTrav s t (fun T => { T with bg := rest })) t { req := .output l tag stamp epoch c, next := 0 } := by
  unfold startWork
  simp only [hbg, hwork, hready, hwait, Bool.not_false, Bool.and_self, if_true]

theorem startWork_raman {l blk stamp : Nat} {rest : List BgReq} (hbg : (vget s.trav t).bg = .raman l blk stamp :: rest)
    (hwork : (vget s.trav t).work = none) (hready : bgReady s t = true) : startWork s t false =
      runSlice (modTrav s t (fun T => { T with bg := rest })) t { req := .raman l blk stamp, next := 0 } := by
  unfold startWork
  simp only [hbg, hwork, hready, Bool.not_false, Bool.and_self, if_true]

theorem sliceSt_output {l tag stamp epoch next : Nat} {c : Bool}
    (hwork : (vget s.trav t).work = some { req := .output l tag stamp epoch c, next := next }) (hready : bgReady s t = true)
    (hwait : c0Waits s = false) : sliceSt t s = runSlice s t { req := .output l tag stamp epoch c, next := next } := by
  unfold sliceSt
  simp only [hwork, hready, hwait, Bool.not_false, Bool.and_self, if_true]

theorem servicePassSt_starts (hready : passReady s t = true) (hfg : (vget s.trav t).fg = []) (hbg : (vget s.trav t).bg = [])
    (hwork : (vget s.trav t).work = none) : servicePassSt t s = enterPass s t .service (stampNow s) 0 0 := by
  unfold servicePassSt
  simp only [hready, hfg, hbg, hwork, List.isEmpty_nil, Option.isNone_none, Bool.and_self, if_true]

/-- The view of a slice of an output request, and of one of a Raman block, at its entry. -/
theorem runSlice_output_view {l tag stamp epoch next : Nat} {c : Bool} :
    sliceView (vget (runSlice s t { req := .output l tag stamp epoch c, next := next }).trav t)
      = (⟨.output, stamp, epoch, none, 0, (vget s.trav t).fg, (vget s.trav t).blk⟩, (vget s.trav t).bg) :=
  (congrFun runSlice_view t).trans enterSlice_output

theorem startWork_output_view {l tag stamp epoch : Nat} {c : Bool} {rest : List BgReq}
    (hbg : (vget s.trav t).bg = .output l tag stamp epoch c :: rest) (hwork : (vget s.trav t).work = none)
    (hready : bgReady s t = true) (hwait : c0Waits s = false) : sliceView (vget (startWork s t true).trav t)
      = (⟨.output, stamp, epoch, none, 0, (vget s.trav t).fg, (vget s.trav t).blk⟩, rest) := by
  rw [startWork_output hbg hwork hready hwait, runSlice_output_view, modTrav_trav, vget_vmod]

theorem startWork_raman_view {l blk stamp : Nat} {rest : List BgReq} (hbg : (vget s.trav t).bg = .raman l blk stamp :: rest)
    (hwork : (vget s.trav t).work = none) (hready : bgReady s t = true) : ∃ epoch,
      sliceView (vget (startWork s t false).trav t) = (⟨.raman, stamp, epoch, none, 0, (vget s.trav t).fg, blk⟩, rest) := by
  obtain ⟨epoch, h⟩ := enterSlice_raman (s := modTrav s t (fun T => { T with bg := rest })) (t := t) (l := l) (blk := blk)
    (stamp := stamp) (next := 0)
  refine ⟨epoch, ?_⟩
  rw [startWork_raman hbg hwork hready]
  refine (congrFun runSlice_view t).trans (h.trans ?_)
  rw [modTrav_trav, vget_vmod]

/-! ### While a pass runs (R223) -/

theorem shotPassSt_not_ready (h : passReady s t = false) : shotPassSt t s = s := by
  unfold shotPassSt
  split
  · rfl
  · split
    · rfl
    · simp only [h, Bool.false_and, Bool.false_eq_true, if_false]

theorem startWork_not_ready {output : Bool} (h : bgReady s t = false) : startWork s t output = s := by
  unfold startWork
  extract_lets T
  split
  · simp only [h, Bool.and_false, Bool.false_eq_true, if_false]
  · rfl

theorem servicePassSt_not_ready (h : passReady s t = false) : servicePassSt t s = s := by
  unfold servicePassSt
  simp only [h, Bool.false_and, Bool.false_eq_true, if_false]

theorem sliceSt_not_ready (h : bgReady s t = false) : sliceSt t s = s := by
  unfold sliceSt
  split
  · rfl
  · simp only [h, Bool.false_and, Bool.false_eq_true, if_false]

/-! ### Drops and recovery (R224, R240, R241) -/

theorem passDropSt_trav (h : (vget s.trav t).refused ≠ 0) :
    (passDropSt t s).trav = vmod s.trav t (fun T => { T with refused := 0 }) := by
  unfold passDropSt
  simp only [h, if_false]
  exact (logAt_moves (P := [.regs, .log]) rfl (.refl _ _)).only.1 .trav (by decide)

/-- Restarts of a recovery's stations keep the standing of every traverse. -/
theorem recoverTrav_standing : travsBy standing (recoverTrav s t) = travsBy standing (modTrav (dropWork s t) t (fun T =>
    { T with recovery := false, run := .idle })) := by
  unfold recoverTrav
  extract_lets s1
  have h1 : travsBy standing s1 = travsBy standing (modTrav (dropWork s t) t (fun T => { T with recovery := false, run := .idle })) := by
    unfold s1 travsBy
    funext k
    rw [modTrav_trav, modTrav_trav]
    rcases eq_or_ne t k with rfl | hk
    · rw [vget_vmod, vget_vmod]
      simp only [standing, passView, mapLanes]
    · rw [vget_vmod_ne _ _ hk, vget_vmod_ne _ _ hk]
  split
  · exact h1
  next l _ =>
    extract_lets s2
    have h2 : travsBy standing s2 = travsBy standing s1 := foldl_keeps (fun _ _ => zeroWindow_standing) _
    split
    split
    extract_lets coh ram s3
    have h3 : travsBy standing s3 = travsBy standing s2 := dropOpen_standing.trans dasRestart_standing
    exact (travsBy_of_trav rfl).trans (h3.trans (h2.trans h1))

/-- R241: the recovered traverse is sound, and in service as it was. -/
theorem recoverTrav_self : (vget (recoverTrav s t).trav t).recovery = false
    ∧ (vget (recoverTrav s t).trav t).oos = (vget s.trav t).oos := by
  have h := congrFun (recoverTrav_standing (s := s) (t := t)) t
  rw [travsBy_modTrav_self] at h
  have hw := congrFun (dropWork_standing (s := s) (t := t)) t
  obtain ⟨_, hoos, hrec⟩ : _ ∧ _ ∧ _ := by simpa only [travsBy, standing, Prod.mk.injEq] using h
  obtain ⟨_, hwoos, _⟩ : _ ∧ _ ∧ _ := by simpa only [travsBy, standing, Prod.mk.injEq] using hw
  exact ⟨hrec, hoos.trans hwoos⟩

/-- R241: a recovery puts no traverse in or out of service. -/
theorem recoverTrav_oos : travsBy Trav.oos (recoverTrav s t) = travsBy Trav.oos s := by
  refine (travsBy_part (fun x => x.2.1) recoverTrav_standing).trans (Eq.trans (travsBy_modTrav ?_) (travsBy_part (fun x => x.2.1) dropWork_standing))
  exact fun _ => rfl

/-- R422: nor does a restored product. -/
theorem restoreProduct_standing {x : Nat × Nat} : travsBy standing (restoreProduct s x) = travsBy standing s := by
  unfold restoreProduct
  split
  · rfl
  next l _ =>
    extract_lets sense s1
    have h1 : travsBy standing s1 = travsBy standing s := by
      unfold s1
      split
      · exact dasRestart_standing.trans (foldl_keeps (fun _ _ => zeroWindow_standing) _)
      · split
        · exact foldl_keeps (fun _ _ => dropOpen_standing) _
        · split
          · exact ramanRestart_standing
          · split
            · exact seqRestart_standing.trans (travsBy_of_trav rfl)
            · rfl
    refine Eq.trans (foldl_keeps (fun _ _ => ?_) _) h1
    exact travsBy_of_moves (restartStream_moves (P := [.regs, .net, .streams, .code]) rfl (.refl _ _)) (by decide)

/-- R36, R422: the evaluation of the budgets keeps the standing of every traverse. -/
theorem evalBudgets_standing : travsBy standing (evalBudgets s) = travsBy standing s := by
  unfold evalBudgets
  extract_lets old new s1 s2 s3
  have h2 : travsBy standing s2 = travsBy standing s1 := by
    refine foldl_keeps (fun s x => ?_) _
    split
    · exact travsBy_of_moves (stopCursors_moves (P := [.code]) rfl (.refl _ s)) (by decide)
    · exact travsBy_of_trav logEvent_trav
  have h3 : travsBy standing s3 = travsBy standing s2 := by
    refine foldl_keeps (fun s x => ?_) _
    split
    · rfl
    · exact restoreProduct_standing.trans (travsBy_of_trav logEvent_trav)
  have h : travsBy standing s3 = travsBy standing s := h3.trans (h2.trans (travsBy_of_trav rfl))
  split
  · exact h
  · exact (travsBy_of_moves (featureChanged_moves (P := [.regs, .net, .zn]) rfl (markStopped_moves rfl (.refl _ s3))) (by decide)).trans h

/-- R240: a traverse that fails its march test is out of service. -/
theorem laneFail_oos {lane : Nat} : (vget (laneFail s t lane).trav t).oos = true := by
  unfold laneFail
  extract_lets l s1 sense s2 s3 s4
  have h1 : travsBy Trav.oos s1 = travsBy Trav.oos (stopTrav s t) := travsBy_of_trav logEvent_trav
  have h3 : travsBy Trav.oos s3 = travsBy Trav.oos s2 := foldl_keeps (fun _ _ => travsBy_of_trav (modPce_trav ..)) _
  have h4 : travsBy Trav.oos s4 = travsBy Trav.oos s3 := by
    unfold s4
    split
    · rfl
    · exact (foldl_keeps (fun _ _ => recoverTrav_oos) _).trans
        (travsBy_part (fun x => x.2.1) (ramanRestart_standing.trans dasRestart_standing))
  have h5 : travsBy Trav.oos (proxyAck (evalBudgets s4)) = travsBy Trav.oos s4 :=
    (travsBy_of_moves (proxyAck_moves (P := [.fu]) rfl (.refl _ _)) (by decide)).trans (travsBy_part (fun x => x.2.1) evalBudgets_standing)
  refine (congrFun (h5.trans (h4.trans (h3.trans h1))) t).trans ?_
  unfold stopTrav
  rw [travsBy_modTrav_self]

theorem recoveryPassSt_passed (hrec : (vget s.trav t).recovery = true) (hrun : (vget s.trav t).run = .idle)
    (hkern : (vget s.trav t).kern = none) (hoos : (vget s.trav t).oos = false) :
    recoveryPassSt t none s = restartTravStreams (recoverTrav s t) t := by
  unfold recoveryPassSt
  simp only [hrec, hrun, hkern, hoos, decide_true, Option.isNone_none, Bool.not_false, Bool.and_self, if_true]

theorem recoveryPassSt_failed {i : Fin 64} (hrec : (vget s.trav t).recovery = true) (hrun : (vget s.trav t).run = .idle)
    (hkern : (vget s.trav t).kern = none) (hoos : (vget s.trav t).oos = false) :
    recoveryPassSt t (some i) s = laneFail s t i.val := by
  unfold recoveryPassSt
  simp only [hrec, hrun, hkern, hoos, decide_true, Option.isNone_none, Bool.not_false, Bool.and_self, if_true]

end

/-- Settles O19: each clause from the view of the state its command leads to. -/
theorem passes : Obligations.Passes := by
  unfold Obligations.Passes
  refine ⟨?_, ?_, ?_, ?_, ?_, ?_, ?_, ?_, ?_⟩
  · intro s t r rest l hfg hl hready hwait hall
    obtain ⟨epoch, h⟩ := shotPassSt_view hfg hl hready hwait hall
    simp only [passView, PassView.mk.injEq] at h
    obtain ⟨hrun, hstamp, _, hkern, _, hq, _⟩ := h
    exact goesOnWith_of_next (t := shotPassSt t s) rfl ⟨hq, hrun, hstamp, hkern⟩
  · intro s t l tag stamp epoch c rest hbg hwork hready hwait
    have h := startWork_output_view hbg hwork hready hwait
    simp only [sliceView, passView, PassView.mk.injEq, Prod.mk.injEq] at h
    obtain ⟨⟨hrun, hstamp, hepoch, _⟩, hq⟩ := h
    exact goesOnWith_of_next (t := startWork s t true) rfl ⟨hq, hrun, hstamp, hepoch⟩
  · intro s t l blk stamp rest hbg hwork hready
    obtain ⟨epoch, h⟩ := startWork_raman_view hbg hwork hready
    simp only [sliceView, passView, PassView.mk.injEq, Prod.mk.injEq] at h
    obtain ⟨⟨hrun, hstamp, _, _, _, _, hblk⟩, hq⟩ := h
    exact goesOnWith_of_next (t := startWork s t false) rfl ⟨hq, hrun, hstamp, hblk⟩
  · intro s t hready hfg hbg hwork
    have h := enterPass_view (s := s) (t := t) (k := .service) (stamp := stampNow s) (epoch := 0) (grp := 0)
    simp only [sliceView, passView, PassView.mk.injEq, Prod.mk.injEq] at h
    obtain ⟨⟨hrun, _, _, _, hpc, _⟩, _⟩ := h
    exact goesOnWith_of_next (congrArg Host.Outcome.next (servicePassSt_starts hready hfg hbg hwork))
      ⟨hrun, hpc, fun k hk => enterPass_others hk⟩
  · intro s t l tag stamp epoch next c hwork hready hwait
    have h := runSlice_output_view (s := s) (t := t) (l := l) (tag := tag) (stamp := stamp) (epoch := epoch) (next := next) (c := c)
    simp only [sliceView, passView, PassView.mk.injEq, Prod.mk.injEq] at h
    obtain ⟨⟨hrun, hstamp, _, _, _, hfg, _⟩, hq⟩ := h
    exact goesOnWith_of_next (congrArg Host.Outcome.next (sliceSt_output hwork hready hwait)) ⟨hrun, hstamp, hq, hfg⟩
  · intro s t hrun
    have hp := passReady_running hrun
    have hb := bgReady_running hrun
    exact ⟨congrArg Host.Outcome.next (shotPassSt_not_ready hp), congrArg Host.Outcome.next (startWork_not_ready hb),
      congrArg Host.Outcome.next (startWork_not_ready hb), congrArg Host.Outcome.next (servicePassSt_not_ready hp),
      congrArg Host.Outcome.next (sliceSt_not_ready hb)⟩
  · intro s t hn
    refine goesOnWith_of_next (t := passDropSt t s) rfl ⟨?_, ?_, (passDropSt_moves rfl (.refl _ s)).only⟩ <;>
      rw [passDropSt_trav hn, vget_vmod]
  · intro s t hrec hrun hkern hoos
    obtain ⟨hsound, hserved⟩ := recoverTrav_self (s := s) (t := t)
    have htrav : (restartTravStreams (recoverTrav s t) t).trav = (recoverTrav s t).trav :=
      (restartTravStreams_moves (P := [.regs, .net, .streams, .code]) rfl (.refl _ _)).only.1 .trav (by decide)
    refine goesOnWith_of_next (congrArg Host.Outcome.next (recoveryPassSt_passed hrec hrun hkern hoos)) ?_
    rw [htrav]
    exact ⟨hsound, hserved.trans hoos⟩
  · intro s t i hrec hrun hkern hoos
    exact goesOnWith_of_next (congrArg Host.Outcome.next (recoveryPassSt_failed hrec hrun hkern hoos)) laneFail_oos

end Sys2Proof.Laws
end

section
/-! SUPPORT. The block coder and its decoder (R278 to R285): each piece of the decoder reads back what the matching piece of
the coder wrote, from a field's bits up to the whole block. -/

namespace Sys2Proof.Laws
open Sys2Proof Sys2Proof.Machine

/-! ### Bits -/

theorem b2n_bitOf (v i : Nat) : b2n (bitOf v i) = v / 2 ^ i % 2 := by
  unfold b2n bitOf
  split
  · next h => exact (of_decide_eq_true h).symm
  · next h => exact ((Nat.mod_two_eq_zero_or_one _).resolve_right (fun h1 => h (decide_eq_true h1))).symm

theorem readBits_bitsMsb (n a v : Nat) (r : List Bool) : readBits n a (bitsMsb n v ++ r) = some (a * 2 ^ n + v % 2 ^ n, r) := by
  induction n generalizing a with
  | zero => simp [readBits, bitsMsb, Nat.mod_one]
  | succ n ih =>
    have hval : (2 * a + v / 2 ^ n % 2) * 2 ^ n + v % 2 ^ n = a * 2 ^ (n + 1) + v % 2 ^ (n + 1) := by
      rw [Nat.mod_pow_succ]
      ring
    rw [bitsMsb, List.cons_append, readBits, ih, b2n_bitOf, hval]

/-- A value that fits its width reads back. -/
theorem readBits_of_lt {n v : Nat} (h : v < 2 ^ n) (r : List Bool) : readBits n 0 (bitsMsb n v ++ r) = some (v, r) := by
  rw [readBits_bitsMsb, Nat.zero_mul, Nat.zero_add, Nat.mod_eq_of_lt h]

/-! ### Rice codes (R282) -/

theorem readUnary_stopped {n j : Nat} (h : j < n) (q : Nat) (r : List Bool) :
    readUnary n q (List.replicate j true ++ false :: r) = some (q + j, r) := by
  induction j generalizing n q with
  | zero =>
    obtain ⟨n, rfl⟩ := Nat.exists_eq_add_one.2 h
    rfl
  | succ j ih =>
    obtain ⟨n, rfl⟩ := Nat.exists_eq_add_one.2 (Nat.zero_lt_of_lt h)
    show readUnary n (q + 1) (List.replicate j true ++ false :: r) = _
    rw [ih (Nat.lt_of_succ_lt_succ h), Nat.add_right_comm, Nat.add_assoc]

theorem readUnary_full (n q : Nat) (r : List Bool) : readUnary n q (List.replicate n true ++ r) = some (q + n, r) := by
  induction n generalizing q with
  | zero => rfl
  | succ n ih =>
    show readUnary n (q + 1) (List.replicate n true ++ r) = _
    rw [ih, Nat.add_right_comm, Nat.add_assoc]

/-- R282: a Rice code reads back, both with its quotient in unary and escaped. -/
theorem readRice_riceCode {w u : Nat} (hu : u < 2 ^ w) (k : Nat) (r : List Bool) : readRice w k (riceCode w k u ++ r) = some (u, r) := by
  unfold riceCode readRice
  extract_lets q
  by_cases hq : q < 24
  · have hsum : q * 2 ^ k + u % 2 ^ k = u := Nat.div_add_mod' u (2 ^ k)
    rw [if_pos hq, List.append_assoc, List.append_assoc, List.singleton_append, readUnary_stopped hq, Nat.zero_add]
    simp only [if_pos hq, readBits_bitsMsb, Option.map_some, Nat.zero_mul, Nat.zero_add, hsum]
  · rw [if_neg hq, List.append_assoc, readUnary_full]
    simp only [Nat.zero_add, Nat.lt_irrefl, if_false]
    exact readBits_of_lt hu r

/-! ### Residuals (R281) -/

/-- R281: a mapped residual fits the field's width. -/
theorem residual_lt {w : Nat} (hw : 0 < w) (x pr : Nat) : Machine.residual w x pr < 2 ^ w := by
  obtain ⟨hlo, hhi⟩ := signedOf_bounds hw (fieldOf w ((x : Int) - pr))
  obtain ⟨n, rfl⟩ : ∃ n, w = n + 1 := ⟨w - 1, by omega⟩
  have hpow : (2 : Int) ^ n = ((2 ^ n : Nat) : Int) := by push_cast; rfl
  simp only [Nat.add_sub_cancel, hpow] at hlo hhi
  unfold Machine.residual
  extract_lets r
  split <;> omega

/-- A number's signed reading stands for it in sums modulo 2^w. -/
theorem fieldOf_add_signedOf (w : Nat) (a v : Int) : fieldOf w (a + signedOf w (fieldOf w v)) = fieldOf w (a + v) := by
  have hpos : (0 : Int) < 2 ^ w := by positivity
  have hread : (fieldOf w (signedOf w (fieldOf w v)) : Int) = fieldOf w v := by
    rw [fieldOf_signedOf, Nat.mod_eq_of_lt (fieldOf_lt w v)]
  have hmod (y : Int) : (fieldOf w y : Int) = y % 2 ^ w := Int.toNat_of_nonneg (Int.emod_nonneg _ hpos.ne')
  rw [hmod, hmod] at hread
  have hsum : (a + signedOf w (fieldOf w v)) % 2 ^ w = (a + v) % 2 ^ w := Int.ModEq.add_left a hread
  unfold fieldOf at hsum ⊢
  rw [hsum]

theorem fieldOf_natCast {w x : Nat} (h : x < 2 ^ w) : fieldOf w (x : Int) = x := by
  have hcast : (x : Int) % 2 ^ w = x := Int.emod_eq_of_lt (Int.natCast_nonneg x) (by exact_mod_cast h)
  rw [fieldOf, hcast, Int.toNat_natCast]

/-- R281: the decoder adds to the prediction what the coder took from the value. -/
theorem unresidual_residual {w x : Nat} (hx : x < 2 ^ w) (pr : Nat) : unresidual w (Machine.residual w x pr) pr = x := by
  have hval : fieldOf w ((pr : Int) + signedOf w (fieldOf w ((x : Int) - pr))) = x := by
    rw [fieldOf_add_signedOf, add_sub_cancel, fieldOf_natCast hx]
  unfold unresidual Machine.residual
  extract_lets r u'
  have hr : u' = r := by
    unfold u'
    split <;> split <;> omega
  rw [hr]
  exact hval

/-! ### One field of a segment (R280, R284) -/

/-- R282: with k = 63 the values themselves stand in the stream. -/
theorem decodeField_plain {w : Nat} (p : Nat) {xs : List Nat} (hx : ∀ x ∈ xs, x < 2 ^ w) (acc : List Nat) (r : List Bool) :
    decodeField w p 63 xs.length acc (xs.flatMap (bitsMsb w) ++ r) = some (xs.reverse ++ acc, r) := by
  induction xs generalizing acc with
  | nil => rfl
  | cons x xs ih =>
    obtain ⟨hx0, hxs⟩ := List.forall_mem_cons.1 hx
    rw [List.flatMap_cons, List.append_assoc, List.length_cons, decodeField, if_pos rfl, readBits_of_lt hx0]
    simp only [ih hxs, List.reverse_cons, List.append_assoc, List.singleton_append]

/-- R282: with k = 62 every value is its prediction. -/
theorem decodeField_predicted {w p : Nat} {xs acc : List Nat} (hx : ∀ x ∈ xs, x < 2 ^ w)
    (hu : ∀ u ∈ residuals p w (lget 0 acc 0) (lget 0 acc 1) xs, u = 0) (r : List Bool) :
    decodeField w p 62 xs.length acc r = some (xs.reverse ++ acc, r) := by
  induction xs generalizing acc with
  | nil => rfl
  | cons x xs ih =>
    obtain ⟨hx0, hxs⟩ := List.forall_mem_cons.1 hx
    obtain ⟨hu0, hus⟩ := List.forall_mem_cons.1 hu
    have hval := unresidual_residual hx0 (predict p w (lget 0 acc 0) (lget 0 acc 1))
    rw [hu0] at hval
    rw [List.length_cons, decodeField, if_neg (by decide), if_pos rfl]
    simp only [hval, ih (acc := x :: acc) hxs hus, List.reverse_cons, List.append_assoc, List.singleton_append]

/-- R282: with any other k the Rice codes of the residuals stand there, and each value is rebuilt from those before it. -/
theorem decodeField_rice {w p k : Nat} (hw : 0 < w) (hk : k ≠ 62) (hk' : k ≠ 63) {xs acc : List Nat} (hx : ∀ x ∈ xs, x < 2 ^ w)
    (r : List Bool) :
    decodeField w p k xs.length acc ((residuals p w (lget 0 acc 0) (lget 0 acc 1) xs).flatMap (riceCode w k) ++ r)
      = some (xs.reverse ++ acc, r) := by
  induction xs generalizing acc with
  | nil => rfl
  | cons x xs ih =>
    obtain ⟨hx0, hxs⟩ := List.forall_mem_cons.1 hx
    have hval := unresidual_residual hx0 (predict p w (lget 0 acc 0) (lget 0 acc 1))
    have hrest := ih (acc := x :: acc) hxs
    rw [residuals, List.flatMap_cons, List.append_assoc, List.length_cons, decodeField, if_neg hk', if_neg hk,
      readRice_riceCode (residual_lt hw _ _)]
    simp only [hval]
    rw [List.reverse_cons, List.append_assoc, List.singleton_append]
    exact hrest

theorem bestPred_lt (w x1 x2 : Nat) (xs : List Nat) : bestPred w x1 x2 xs < 4 := by
  unfold bestPred
  extract_lets sum
  simp only [List.foldl_cons, List.foldl_nil]
  split <;> split <;> split <;> omega

/-- A choice among numbers below a bound stays below it. -/
theorem foldl_choice_lt {b : Nat} {c : Nat → Nat → Prop} [∀ a k, Decidable (c a k)] {l : List Nat} {a : Nat} (ha : a < b)
    (hl : ∀ k ∈ l, k < b) : l.foldl (fun a k => if c a k then k else a) a < b := by
  induction l generalizing a with
  | nil => exact ha
  | cons k l ih =>
    obtain ⟨hk, hl⟩ := List.forall_mem_cons.1 hl
    refine ih (a := if c a k then k else a) ?_ hl
    split
    · exact hk
    · exact ha

/-- R284: the parameter is 62 with every residual zero, 63, or below the width. -/
theorem bestParam_cases {w : Nat} (hw : 0 < w) (us : List Nat) :
    (bestParam w us = 62 ∧ ∀ u ∈ us, u = 0) ∨ bestParam w us = 63 ∨ bestParam w us < w := by
  unfold bestParam
  split
  · next h => exact .inl ⟨rfl, fun u hu => of_decide_eq_true (List.all_eq_true.1 h u hu)⟩
  · extract_lets len k
    split
    · exact .inr (.inl rfl)
    · exact .inr (.inr (foldl_choice_lt hw (fun k hk => List.mem_range.1 hk)))

/-- R285: a coded field's header and codes read back, and the decoder goes on with the fields after it. -/
theorem decodeCols_codeSegment {w n : Nat} (hw : 0 < w) (hw' : w ≤ 40) {xs acc : List Nat} (hx : ∀ x ∈ xs, x < 2 ^ w)
    (hn : xs.length = n) {cs cs' : List (Nat × List Nat)} {bs r : List Bool} (hcs : decodeCols n cs bs = .ok (cs', r)) :
    decodeCols n ((w, acc) :: cs) (codeSegment w (lget 0 acc 0) (lget 0 acc 1) xs ++ bs) = .ok ((w, xs.reverse ++ acc) :: cs', r) := by
  have hread {p k : Nat} {code : List Bool} (hp : p < 2 ^ 2) (hk : k < 2 ^ 6) (hok : ¬(w ≤ k ∧ k ≠ 62 ∧ k ≠ 63))
      (hcode : decodeField w p k n acc (code ++ bs) = some (xs.reverse ++ acc, bs)) :
      decodeCols n ((w, acc) :: cs) (bitsMsb 2 p ++ bitsMsb 6 k ++ code ++ bs) = .ok ((w, xs.reverse ++ acc) :: cs', r) := by
    rw [List.append_assoc, List.append_assoc, decodeCols, readBits_of_lt hp]
    simp only [readBits_of_lt hk, if_neg hok, hcode, hcs]
  subst hn
  have hp := bestPred_lt w (lget 0 acc 0) (lget 0 acc 1) xs
  unfold codeSegment
  extract_lets p us k
  rcases bestParam_cases hw us with ⟨h62, hzero⟩ | h63 | hlt
  · have hk : k = 62 := h62
    rw [hk, if_neg (by decide), if_pos rfl]
    exact hread hp (by decide) (by omega) (decodeField_predicted hx hzero bs)
  · have hk : k = 63 := h63
    rw [if_pos hk]
    exact hread (by decide) (by decide) (by omega) (decodeField_plain 0 hx acc bs)
  · have hk : k < w := hlt
    rw [if_neg (by omega), if_neg (by omega)]
    exact hread hp (by omega) (by omega) (decodeField_rice hw (by omega) (by omega) hx bs)

/-! ### Segments -/

/-- R281: what a column's segment `i` puts into the bitstream, its predictor running on from the segment before. -/
def columnCode (i : Nat) (c : Nat × List Nat) : List Bool :=
  let x1 := if 64 * i = 0 then 0 else lget 0 c.2 (64 * i - 1)
  let x2 := if 64 * i < 2 then 0 else lget 0 c.2 (64 * i - 2)
  codeSegment c.1 x1 x2 ((c.2.drop (64 * i)).take 64)

theorem codeSegments_eq (cols : List (Nat × List Nat)) (m : Nat) :
    codeSegments cols m = (List.range (ceilDiv m 64)).flatMap (fun i => cols.flatMap (columnCode i)) := rfl

/-- A column as the decoder holds it after its first `a` values. -/
def columnSeen (a : Nat) (c : Nat × List Nat) : Nat × List Nat := (c.1, (c.2.take a).reverse)

/-- R278: a column of `m` values, each within the width of its field. -/
structure ColumnFits (m : Nat) (c : Nat × List Nat) : Prop where
  pos : 0 < c.1
  width : c.1 ≤ 40
  length : c.2.length = m
  value : ∀ x ∈ c.2, x < 2 ^ c.1

/-- The value `j` places back from the `a`-th is the decoder's `j`-th newest. -/
theorem lget_columnSeen {c : Nat × List Nat} {a j : Nat} (ha : a ≤ c.2.length) :
    lget 0 (columnSeen a c).2 j = if a < j + 1 then 0 else lget 0 c.2 (a - (j + 1)) := by
  have hlen : (c.2.take a).length = a := List.length_take_of_le ha
  unfold lget columnSeen
  split
  · next h => exact List.getD_eq_default _ _ (by rw [List.length_reverse, hlen]; omega)
  · next h =>
    simp only [List.getD_eq_getElem?_getD]
    rw [List.getElem?_reverse (by omega), hlen, List.getElem?_take_of_lt (by omega), Nat.sub_sub, Nat.add_comm 1 j]

theorem columnCode_eq {c : Nat × List Nat} {i : Nat} (hi : 64 * i ≤ c.2.length) :
    columnCode i c = codeSegment c.1 (lget 0 (columnSeen (64 * i) c).2 0) (lget 0 (columnSeen (64 * i) c).2 1)
      ((c.2.drop (64 * i)).take 64) := by
  rw [lget_columnSeen hi, lget_columnSeen hi]
  simp only [Nat.zero_add, Nat.lt_one_iff, Nat.reduceAdd]
  rfl

theorem columnSeen_next (a n : Nat) (c : Nat × List Nat) :
    columnSeen (a + n) c = (c.1, ((c.2.drop a).take n).reverse ++ (columnSeen a c).2) := by
  unfold columnSeen
  rw [List.take_add, List.reverse_append]

/-- R285: one segment of every column reads back. -/
theorem decodeCols_segment {m i : Nat} (hi : 64 * i ≤ m) {cols : List (Nat × List Nat)} (hc : ∀ c ∈ cols, ColumnFits m c)
    (r : List Bool) : decodeCols (min 64 (m - 64 * i)) (cols.map (columnSeen (64 * i))) (cols.flatMap (columnCode i) ++ r)
      = .ok (cols.map (columnSeen (64 * (i + 1))), r) := by
  induction cols with
  | nil => rfl
  | cons c cs ih =>
    obtain ⟨hc0, hcs⟩ := List.forall_mem_cons.1 hc
    obtain ⟨hpos, hwidth, hlen, hval⟩ := hc0
    have hseg : ∀ x ∈ (c.2.drop (64 * i)).take 64, x < 2 ^ c.1 :=
      fun x hx => hval x (List.mem_of_mem_drop (List.mem_of_mem_take hx))
    have hn : ((c.2.drop (64 * i)).take 64).length = min 64 (m - 64 * i) := by rw [List.length_take, List.length_drop, hlen]
    rw [List.flatMap_cons, List.append_assoc, columnCode_eq (hlen ▸ hi), List.map_cons, List.map_cons, Nat.mul_succ,
      columnSeen_next (64 * i) 64 c]
    exact decodeCols_codeSegment hpos hwidth hseg hn (ih hcs)

/-- R285: the segments from `i` on read back. -/
theorem decodeSegs_segments {m : Nat} {cols : List (Nat × List Nat)} (hc : ∀ c ∈ cols, ColumnFits m c) (r : List Bool) (f i : Nat)
    (hlast : 64 * (i + f) < m + 64) :
    decodeSegs f (m - 64 * i) (cols.map (columnSeen (64 * i)))
        ((List.range' i f).flatMap (fun i => cols.flatMap (columnCode i)) ++ r)
      = .ok (cols.map (columnSeen (64 * (i + f))), r) := by
  induction f generalizing i with
  | zero => rfl
  | succ f ih =>
    have hrest := ih (i + 1) (by omega)
    rw [List.range'_succ, List.flatMap_cons, List.append_assoc, decodeSegs, decodeCols_segment (by omega) hc]
    simp only [Nat.sub_sub, ← Nat.mul_succ]
    rw [hrest, Nat.add_right_comm, Nat.add_assoc]

theorem ceilDiv_bounds (a : Nat) {b : Nat} (hb : 0 < b) : a ≤ b * ceilDiv a b ∧ b * ceilDiv a b < a + b := by
  unfold ceilDiv
  have hdiv := Nat.div_add_mod (a + b - 1) b
  have hmod := Nat.mod_lt (a + b - 1) hb
  omega

/-- R285: the bitstream of a block reads back, value for value. -/
theorem decodeSegs_codeSegments {m : Nat} {cols : List (Nat × List Nat)} (hc : ∀ c ∈ cols, ColumnFits m c) (r : List Bool) :
    decodeSegs (ceilDiv m 64) m (cols.map (fun c => (c.1, []))) (codeSegments cols m ++ r)
      = .ok (cols.map (fun c => (c.1, c.2.reverse)), r) := by
  obtain ⟨hall, hlast⟩ := ceilDiv_bounds m (b := 64) (by decide)
  have h := decodeSegs_segments hc r (ceilDiv m 64) 0 (by omega)
  have hend : cols.map (columnSeen (64 * (0 + ceilDiv m 64))) = cols.map (fun c => (c.1, c.2.reverse)) :=
    List.map_congr_left (fun c hcm => by
      unfold columnSeen
      rw [List.take_of_length_le (by rw [(hc c hcm).length]; omega)])
  rw [hend, ← List.range_eq_range', ← codeSegments_eq] at h
  exact h

/-! ### The bitstream in words (R280) -/

/-- The number whose binary digits follow those of `a`. -/
def appendBits (a : Nat) (l : List Bool) : Nat := l.foldl (fun a b => 2 * a + b2n b) a

theorem appendBits_div (a : Nat) (l : List Bool) : appendBits a l / 2 ^ l.length = a := by
  induction l generalizing a with
  | nil => exact Nat.div_one a
  | cons b l ih =>
    have hb : b2n b < 2 := by cases b <;> decide
    show appendBits (2 * a + b2n b) l / 2 ^ (l.length + 1) = a
    rw [Nat.pow_succ, ← Nat.div_div_eq_div_mul, ih]
    omega

/-- The digits of such a number read back. -/
theorem bitsMsb_appendBits (a : Nat) (l : List Bool) : bitsMsb l.length (appendBits a l) = l := by
  induction l generalizing a with
  | nil => rfl
  | cons b l ih =>
    have hbit : bitOf (appendBits (2 * a + b2n b) l) l.length = b := by
      rw [bitOf, appendBits_div]
      cases b <;> simp [b2n, Nat.add_mod]
    show bitOf (appendBits (2 * a + b2n b) l) l.length :: bitsMsb l.length (appendBits (2 * a + b2n b) l) = b :: l
    rw [hbit, ih]

/-- The ten bits of the next word, filled with zeros past the end. -/
theorem nextBits_eq (bs : List Bool) :
    (List.range 10).map (fun i => bs.getD i false) = bs.take 10 ++ List.replicate (10 - bs.length) false := by
  refine List.ext_getElem (by simp; omega) (fun i hi _ => ?_)
  have hi : i < 10 := by simpa using hi
  rw [List.getElem_map, List.getElem_range, List.getElem_append]
  split
  · next h =>
    rw [List.length_take] at h
    rw [List.getElem_take, List.getD_eq_getElem _ _ (by omega)]
  · next h =>
    rw [List.length_take] at h
    rw [List.getElem_replicate, List.getD_eq_default _ _ (by omega)]

theorem packedWord_bits (bs : List Bool) :
    bitsMsb 10 (BitVec.ofNat 10 ((List.range 10).foldl (fun a i => 2 * a + b2n (bs.getD i false)) 0)).toNat
      = bs.take 10 ++ List.replicate (10 - bs.length) false := by
  have hfold : (List.range 10).foldl (fun a i => 2 * a + b2n (bs.getD i false)) 0
      = appendBits 0 ((List.range 10).map (fun i => bs.getD i false)) := (List.foldl_map ..).symm
  have hlen : ((List.range 10).map (fun i => bs.getD i false)).length = 10 := by simp
  have hdiv := appendBits_div 0 ((List.range 10).map (fun i => bs.getD i false))
  have hread := bitsMsb_appendBits 0 ((List.range 10).map (fun i => bs.getD i false))
  rw [hlen] at hdiv hread
  rw [hfold, BitVec.toNat_ofNat, Nat.mod_eq_of_lt ((Nat.div_eq_zero_iff_lt (by decide)).1 hdiv), hread, nextBits_eq]

theorem packBits_length_le (n : Nat) (bs : List Bool) : (packBits n bs).length ≤ n := by
  induction n generalizing bs with
  | zero => exact Nat.le_refl 0
  | succ n ih =>
    unfold packBits
    split
    · exact Nat.zero_le _
    · exact Nat.succ_le_succ (ih _)

/-- R280: the words of a bitstream hold its bits, then zeros to the end of the last word. -/
theorem packBits_bits {n : Nat} {bs : List Bool} (hlo : 10 * n < bs.length + 10) (hhi : bs.length ≤ 10 * n) :
    (packBits n bs).flatMap (fun w => bitsMsb 10 w.toNat) = bs ++ List.replicate (10 * n - bs.length) false := by
  induction n generalizing bs with
  | zero =>
    obtain rfl : bs = [] := List.eq_nil_of_length_eq_zero (by omega)
    rfl
  | succ n ih =>
    have hne : ¬ bs.isEmpty = true := by
      rw [List.isEmpty_iff_length_eq_zero]
      omega
    rw [packBits, if_neg hne, List.flatMap_cons, packedWord_bits]
    rcases Nat.lt_or_ge bs.length 10 with hlt | hge
    · obtain rfl : n = 0 := by omega
      rw [List.take_of_length_le hlt.le]
      exact List.append_nil _
    · have hdrop : (bs.drop 10).length = bs.length - 10 := List.length_drop
      rw [ih (by omega) (by omega), Nat.sub_eq_zero_of_le hge, List.replicate_zero, List.append_nil, ← List.append_assoc,
        List.take_append_drop, hdrop]
      congr 2
      omega

/-! ### Elements (R278) -/

theorem wordsOf_wordsVal (ws : List Word) : wordsOf ws.length (wordsVal ws) = ws := by
  induction ws with
  | nil => rfl
  | cons w ws ih =>
    have hw : w.toNat < 1024 := w.isLt
    have hlow : BitVec.ofNat 10 (w.toNat + 1024 * wordsVal ws) = w := by
      refine BitVec.eq_of_toNat_eq ?_
      rw [BitVec.toNat_ofNat]
      omega
    have hhigh : (w.toNat + 1024 * wordsVal ws) / 1024 = wordsVal ws := by omega
    rw [List.length_cons, wordsVal, wordsOf, hlow, hhigh, ih]

/-- R4: the words of a field stand for its value. -/
theorem wordsOf_wAt {ws : List Word} {i n : Nat} (h : i + n ≤ ws.length) : wordsOf n (wAt ws i n) = (ws.drop i).take n := by
  have hlen : ((ws.drop i).take n).length = n := by
    rw [List.length_take, List.length_drop]
    omega
  have hread := wordsOf_wordsVal ((ws.drop i).take n)
  rw [hlen] at hread
  exact hread

theorem wAt_lt (ws : List Word) (i n : Nat) : wAt ws i n < 2 ^ (10 * n) := by
  have hlen : ((ws.drop i).take n).length ≤ n := List.length_take_le ..
  rw [Nat.pow_mul]
  exact (wordsVal_lt _).trans_le (Nat.pow_le_pow_right (by decide) hlen)

theorem elementsOf_length (s m : Nat) (ws : List Word) : (elementsOf s m ws).length = m := by
  induction m generalizing ws with
  | zero => rfl
  | succ m ih => rw [elementsOf, List.length_cons, ih]

theorem elementsOf_flatten {s m : Nat} {ws : List Word} (h : ws.length = m * s) : (elementsOf s m ws).flatten = ws := by
  induction m generalizing ws with
  | zero => exact (List.eq_nil_of_length_eq_zero (h.trans (Nat.zero_mul s))).symm
  | succ m ih =>
    rw [elementsOf, List.flatten_cons, ih (by rw [List.length_drop, h, Nat.succ_mul, Nat.add_sub_cancel]), List.take_append_drop]

theorem elementsOf_size {s m : Nat} {ws : List Word} (h : ws.length = m * s) : ∀ w ∈ elementsOf s m ws, w.length = s := by
  induction m generalizing ws with
  | zero => exact fun _ hw => absurd hw List.not_mem_nil
  | succ m ih =>
    rw [Nat.succ_mul] at h
    exact List.forall_mem_cons.2 ⟨List.length_take_of_le (by omega), ih (by rw [List.length_drop, h, Nat.add_sub_cancel])⟩

/-- R278: the fields of an element, lowest first, with their widths and places. -/
theorem fieldWidths_cases {e : Nat} (he : 1 ≤ e) (he' : e ≤ 3) (o : Nat) :
    (e = 1 ∧ (fieldWidths e o).zipIdx = [(10 * o, 0)]) ∨ (e = 2 ∧ (fieldWidths e o).zipIdx = [(10 * o, 0), (10, 1)])
      ∨ (e = 3 ∧ (fieldWidths e o).zipIdx = [(10 * o, 0), (10, 1), (10, 2)]) := by
  obtain rfl | rfl | rfl : e = 1 ∨ e = 2 ∨ e = 3 := by omega
  · exact .inl ⟨rfl, rfl⟩
  · exact .inr (.inl ⟨rfl, rfl⟩)
  · exact .inr (.inr ⟨rfl, rfl⟩)

/-- Every field fits its width, and no width is 0 or above 40 bits. -/
theorem elementField_lt {e o : Nat} (he : 1 ≤ e) (he' : e ≤ 3) (ho : 1 ≤ o) (ho' : o ≤ 4) (ws : List Word) :
    ∀ x ∈ (fieldWidths e o).zipIdx, 0 < x.1 ∧ x.1 ≤ 40 ∧ elementField o x.2 ws < 2 ^ x.1 := by
  have hfirst : 0 < 10 * o ∧ 10 * o ≤ 40 ∧ elementField o 0 ws < 2 ^ (10 * o) := ⟨by omega, by omega, wAt_lt ws 0 o⟩
  have hother (j : Nat) : 0 < 10 ∧ 10 ≤ 40 ∧ elementField o (j + 1) ws < 2 ^ 10 := ⟨by decide, by decide, wAt_lt ws _ 1⟩
  rcases fieldWidths_cases he he' o with ⟨-, h⟩ | ⟨-, h⟩ | ⟨-, h⟩ <;> rw [h]
  · exact List.forall_mem_singleton.2 hfirst
  · exact List.forall_mem_cons.2 ⟨hfirst, List.forall_mem_singleton.2 (hother 0)⟩
  · exact List.forall_mem_cons.2 ⟨hfirst, List.forall_mem_cons.2 ⟨hother 0, List.forall_mem_singleton.2 (hother 1)⟩⟩

/-- R278: an element's fields, word after word, are the element. -/
theorem elementFields_words {e o : Nat} (he : 1 ≤ e) (he' : e ≤ 3) {ws : List Word} (hws : ws.length = o + e - 1) :
    (fieldWidths e o).zipIdx.flatMap (fun x => wordsOf (x.1 / 10) (elementField o x.2 ws)) = ws := by
  have hfirst : wordsOf (10 * o / 10) (elementField o 0 ws) = ws.take o := by
    rw [Nat.mul_div_cancel_left o (by decide)]
    exact wordsOf_wAt (by omega)
  have hother {j : Nat} (hj : o + j + 1 ≤ ws.length) : wordsOf (10 / 10) (elementField o (j + 1) ws) = (ws.drop (o + j)).take 1 :=
    wordsOf_wAt (i := o + (j + 1) - 1) hj
  rcases fieldWidths_cases he he' o with ⟨rfl, h⟩ | ⟨rfl, h⟩ | ⟨rfl, h⟩ <;> rw [h] <;>
    simp only [List.flatMap_cons, List.flatMap_nil, List.append_nil]
  · rw [hfirst, List.take_of_length_le (by omega)]
  · rw [hfirst, hother (j := 0) (by omega), List.take_of_length_le (l := ws.drop (o + 0)) (by rw [List.length_drop]; omega)]
    exact List.take_append_drop o ws
  · rw [hfirst, hother (j := 0) (by omega), hother (j := 1) (by omega),
      List.take_of_length_le (l := ws.drop (o + 1)) (by rw [List.length_drop]; omega), ← List.drop_drop (i := 1) (j := o) (l := ws)]
    rw [Nat.add_zero, List.take_append_drop, List.take_append_drop]

/-- R278: the columns of a block's elements. -/
def columnsOf (e o : Nat) (els : List (List Word)) : List (Nat × List Nat) :=
  (fieldWidths e o).zipIdx.map (fun x => (x.1, els.map (elementField o x.2)))

theorem columnsOf_fit {e o : Nat} (he : 1 ≤ e) (he' : e ≤ 3) (ho : 1 ≤ o) (ho' : o ≤ 4) (els : List (List Word)) :
    ∀ c ∈ columnsOf e o els, ColumnFits els.length c := by
  refine List.forall_mem_map.2 (fun x hx => ?_)
  have h (ws : List Word) := elementField_lt he he' ho ho' ws x hx
  exact ⟨(h []).1, (h []).2.1, List.length_map _, List.forall_mem_map.2 (fun ws _ => (h ws).2.2)⟩

theorem columnsOf_empty (e o : Nat) (els : List (List Word)) :
    (fieldWidths e o).map (fun w => (w, ([] : List Nat))) = (columnsOf e o els).map (fun c => (c.1, [])) := by
  have h : (fieldWidths e o).zipIdx.map Prod.fst = fieldWidths e o := List.zipIdx_map_fst ..
  unfold columnsOf
  conv_lhs => rw [← h]
  rw [List.map_map, List.map_map]
  rfl

/-- R278: the columns of elements give back the elements' words. -/
theorem joinCols_columnsOf {e o : Nat} (he : 1 ≤ e) (he' : e ≤ 3) {els : List (List Word)}
    (hels : ∀ ws ∈ els, ws.length = o + e - 1) : joinCols (columnsOf e o els) els.length = els.flatten := by
  have hrow (i : Nat) (hi : i < els.length) :
      (columnsOf e o els).flatMap (fun c => wordsOf (c.1 / 10) (lget 0 c.2 i)) = els[i] := by
    have hword (x : Nat × Nat) : lget 0 (els.map (elementField o x.2)) i = elementField o x.2 els[i] := by
      unfold lget
      rw [List.getD_eq_getElem _ _ (by simpa using hi), List.getElem_map]
    unfold columnsOf
    rw [List.flatMap_map]
    simp only [hword]
    exact elementFields_words he he' (hels _ (List.getElem_mem hi))
  unfold joinCols
  rw [List.flatMap_def]
  congr 1
  refine List.ext_getElem (by simp) (fun i hi hi' => ?_)
  rw [List.getElem_map, List.getElem_range, hrow i hi']

/-! ### Blocks (R279, R283, R285) -/

/-- R279: the 11 words of a coded block's header. -/
def blockHead (raw : Bool) (h m e o lc crc : Nat) : List Word :=
  [BitVec.ofNat 10 (128 + 64 * b2n raw + 16 * (e - 1) + 4 * (o - 1))] ++ wordsOf 2 h ++ wordsOf 2 m ++ wordsOf 2 lc ++ wordsOf 4 crc

/-- R280: the bitstream of a block. -/
def blockStream (src : List Word) (h m e o : Nat) : List Bool :=
  codeSegments (columnsOf e o (elementsOf (o + e - 1) m (src.drop h))) m

/-- R279: the body of a coded block: the elements as they are, or the bitstream in words. -/
def blockBody (src : List Word) (h m e o : Nat) : List Word :=
  if (codeBlock src h m e o).2 then src.drop h
  else packBits (ceilDiv (blockStream src h m e o).length 10) (blockStream src h m e o)

theorem codeBlock_eq (src : List Word) (h m e o : Nat) : (codeBlock src h m e o).1 =
    blockHead (codeBlock src h m e o).2 h m e o (blockBody src h m e o).length (crcWords src) ++ src.take h
      ++ blockBody src h m e o := rfl

/-- R280, R283: RAW is set where the bitstream gains nothing, or there are no elements. -/
theorem codeBlock_raw_iff (src : List Word) (h m e o : Nat) : (codeBlock src h m e o).2 = true
    ↔ m * (o + e - 1) ≤ ceilDiv (blockStream src h m e o).length 10 ∨ m = 0 := by
  show (decide _ || decide _) = true ↔ _
  rw [Bool.or_eq_true, decide_eq_true_iff, decide_eq_true_iff]
  rfl

theorem blockHead_length (raw : Bool) (h m e o lc crc : Nat) : (blockHead raw h m e o lc crc).length = 11 := rfl

section
variable {raw : Bool} {h m e o lc crc : Nat} {tail : List Word}

/-- R279: the first header word holds the format, RAW, E − 1 and OUT_WORDS − 1. -/
theorem wAt_blockHead_zero (he : e ≤ 3) (ho : o ≤ 4) :
    wAt (blockHead raw h m e o lc crc ++ tail) 0 1 = 128 + 64 * b2n raw + 16 * (e - 1) + 4 * (o - 1) := by
  have hb : b2n raw ≤ 1 := by cases raw <;> decide
  show (BitVec.ofNat 10 _).toNat + 1024 * 0 = _
  rw [BitVec.toNat_ofNat]
  omega

theorem bitOf_blockHead_raw (he : e ≤ 3) (ho : o ≤ 4) : bitOf (wAt (blockHead raw h m e o lc crc ++ tail) 0 1) 6 = raw := by
  rw [wAt_blockHead_zero he ho, bitOf]
  cases raw
  · exact decide_eq_false (by simp only [b2n, Bool.false_eq_true, if_false]; omega)
  · exact decide_eq_true (by simp only [b2n, if_true]; omega)

/-- R279, R285: a coded block's header reads back. -/
theorem blockHdr_blockHead (he : 1 ≤ e) (he' : e ≤ 3) (ho : 1 ≤ o) (ho' : o ≤ 4) (hsize : h + m * (o + e - 1) ≤ 8192)
    (hlc : lc ≤ m * (o + e - 1)) (hraw : raw = true → lc = m * (o + e - 1)) (hcrc : crc < 2 ^ 32) :
    blockHdr (blockHead raw h m e o lc crc ++ tail) = .ok { raw, e, outWords := o, h, m, lc, crc } := by
  have hm : m ≤ m * (o + e - 1) := Nat.le_mul_of_pos_right m (by omega)
  have hb : b2n raw ≤ 1 := by cases raw <;> decide
  have hw0 := wAt_blockHead_zero (raw := raw) (h := h) (m := m) (lc := lc) (crc := crc) (tail := tail) he' ho'
  have htwo {x : Nat} (hx : x ≤ 8192) : wordsVal (wordsOf 2 x) = x := by
    rw [wordsVal_wordsOf, Nat.mod_eq_of_lt (by omega)]
  have hh : wAt (blockHead raw h m e o lc crc ++ tail) 1 2 = h := htwo (by omega)
  have hm' : wAt (blockHead raw h m e o lc crc ++ tail) 3 2 = m := htwo (by omega)
  have hl : wAt (blockHead raw h m e o lc crc ++ tail) 5 2 = lc := htwo (by omega)
  have hc : wAt (blockHead raw h m e o lc crc ++ tail) 7 4 = crc :=
    (wordsVal_wordsOf 4 crc).trans (Nat.mod_eq_of_lt (by omega))
  have hbitE : bitsOf (128 + 64 * b2n raw + 16 * (e - 1) + 4 * (o - 1)) 5 4 + 1 = e := by
    unfold bitsOf
    omega
  have hbitO : bitsOf (128 + 64 * b2n raw + 16 * (e - 1) + 4 * (o - 1)) 3 2 + 1 = o := by
    unfold bitsOf
    omega
  have hlen : ¬ (blockHead raw h m e o lc crc ++ tail).length < 11 := by
    rw [List.length_append, blockHead_length]
    omega
  have hbitR : bitOf (128 + 64 * b2n raw + 16 * (e - 1) + 4 * (o - 1)) 6 = raw := hw0 ▸ bitOf_blockHead_raw he' ho'
  unfold blockHdr
  simp only [hw0, hh, hm', hl, hc, hbitE, hbitO, hbitR]
  rw [if_neg hlen]
  refine if_neg ?_
  rintro (hformat | hfields | hlong | ⟨hr, hne⟩)
  · omega
  · omega
  · omega
  · exact hne (hraw hr)

end

section
variable {x : BlockHdr} {head pre body rest : List Word}

/-- R285: where header, leading words and body stand in the words available. -/
theorem block_parts (hhead : head.length = 11) (hpre : pre.length = x.h) (hbody : body.length = x.lc) :
    ¬ (head ++ pre ++ body ++ rest).length < 11 + x.h + x.lc ∧ ((head ++ pre ++ body ++ rest).drop 11).take x.h = pre
      ∧ ((head ++ pre ++ body ++ rest).drop (11 + x.h)).take x.lc = body := by
  have hboth : (head ++ pre).length = 11 + x.h := by rw [List.length_append, hhead, hpre]
  refine ⟨?_, ?_, ?_⟩
  · simp only [List.length_append]
    omega
  · rw [List.append_assoc, List.append_assoc, List.drop_left' hhead, List.take_left' hpre]
  · rw [List.append_assoc (head ++ pre), List.drop_left' hboth, List.take_left' hbody]

/-- R285: a block with RAW set delivers its leading words and its body. -/
theorem decodeBlock_raw (hx : blockHdr (head ++ pre ++ body ++ rest) = .ok x) (hraw : x.raw = true) (hhead : head.length = 11)
    (hpre : pre.length = x.h) (hbody : body.length = x.lc) (hcrc : crcWords (pre ++ body) = x.crc) :
    decodeBlock (head ++ pre ++ body ++ rest) = .ok (pre ++ body) := by
  obtain ⟨hlen, htake, htake'⟩ := block_parts (rest := rest) hhead hpre hbody
  unfold decodeBlock
  simp only [hx, if_neg hlen, htake, htake', hraw, if_true, hcrc]

/-- R285: any other block delivers its leading words and what its bitstream decodes to, less than a word of zeros left over. -/
theorem decodeBlock_coded (hx : blockHdr (head ++ pre ++ body ++ rest) = .ok x) (hraw : x.raw = false) (hhead : head.length = 11)
    (hpre : pre.length = x.h) (hbody : body.length = x.lc) {cols : List (Nat × List Nat)} {n : Nat} (hn : n < 10)
    (hdec : decodeSegs (ceilDiv x.m 64) x.m ((fieldWidths x.e x.outWords).map (fun w => (w, [])))
      (body.flatMap (fun w => bitsMsb 10 w.toNat)) = .ok (cols.map (fun c => (c.1, c.2.reverse)), List.replicate n false))
    (hcrc : crcWords (pre ++ joinCols cols x.m) = x.crc) :
    decodeBlock (head ++ pre ++ body ++ rest) = .ok (pre ++ joinCols cols x.m) := by
  obtain ⟨hlen, htake, htake'⟩ := block_parts (rest := rest) hhead hpre hbody
  have hrev : (cols.map (fun c => (c.1, c.2.reverse))).map (fun c => (c.1, c.2.reverse)) = cols := by
    simp only [List.map_map, Function.comp_def, List.reverse_reverse, Prod.mk.eta, List.map_id']
  have hzeros : ¬ (10 ≤ (List.replicate n false).length ∨ (List.replicate n false).any id = true) := by
    rw [List.length_replicate, List.any_replicate]
    simp only [id, ite_self, Bool.false_eq_true, or_false]
    omega
  unfold decodeBlock
  simp only [hx, if_neg hlen, htake, htake', hraw, Bool.false_eq_true, if_false, hdec, if_neg hzeros, hrev, hcrc, if_true]

end

section
variable {src : List Word} {h m e o : Nat}

/-- R283: the body of a coded block is no longer than its elements, and as long as they are with RAW set. -/
theorem blockBody_length (hlen : src.length = h + m * (o + e - 1)) :
    (blockBody src h m e o).length ≤ m * (o + e - 1)
      ∧ ((codeBlock src h m e o).2 = true → (blockBody src h m e o).length = m * (o + e - 1)) := by
  have hdrop : (src.drop h).length = m * (o + e - 1) := by
    rw [List.length_drop]
    omega
  have hraw := codeBlock_raw_iff src h m e o
  have hpack := packBits_length_le (ceilDiv (blockStream src h m e o).length 10) (blockStream src h m e o)
  unfold blockBody
  split
  · exact ⟨hdrop.le, fun _ => hdrop⟩
  · next hr =>
    have hgain : ¬ (m * (o + e - 1) ≤ ceilDiv (blockStream src h m e o).length 10 ∨ m = 0) := fun hc => hr (hraw.2 hc)
    exact ⟨by omega, fun h => absurd h hr⟩

/-- R278 to R282, R285: whatever the coder made of a source, the decoder rebuilds the source from it. -/
theorem decodeBlock_codeBlock (he : 1 ≤ e) (he' : e ≤ 3) (ho : 1 ≤ o) (ho' : o ≤ 4) (hlen : src.length = h + m * (o + e - 1))
    (hsize : src.length ≤ 8192) (rest : List Word) : decodeBlock ((codeBlock src h m e o).1 ++ rest) = .ok src := by
  obtain ⟨hbody, hbodyRaw⟩ := blockBody_length hlen
  have hcrc : crcWords src < 2 ^ 32 := BitVec.isLt _
  have hdrop : (src.drop h).length = m * (o + e - 1) := by
    rw [List.length_drop]
    omega
  have htake : (src.take h).length = h := List.length_take_of_le (by omega)
  have hhdr := blockHdr_blockHead (tail := src.take h ++ blockBody src h m e o ++ rest) he he' ho ho' (hlen ▸ hsize) hbody hbodyRaw
    hcrc
  rw [← List.append_assoc, ← List.append_assoc] at hhdr
  rw [codeBlock_eq]
  cases hraw : (codeBlock src h m e o).2 with
  | true =>
    have hb : blockBody src h m e o = src.drop h := if_pos hraw
    rw [hraw, hb] at hhdr
    rw [hb]
    have hdec := decodeBlock_raw hhdr rfl rfl htake rfl (by rw [List.take_append_drop])
    rwa [List.take_append_drop] at hdec
  | false =>
    have hb : blockBody src h m e o = packBits (ceilDiv (blockStream src h m e o).length 10) (blockStream src h m e o) :=
      if_neg (by rw [hraw]; decide)
    obtain ⟨hlo, hhi⟩ := ceilDiv_bounds (blockStream src h m e o).length (b := 10) (by decide)
    have hbits := packBits_bits hhi hlo
    have hm : (elementsOf (o + e - 1) m (src.drop h)).length = m := elementsOf_length ..
    have hfit := columnsOf_fit he he' ho ho' (elementsOf (o + e - 1) m (src.drop h))
    have hjoin := joinCols_columnsOf he he' (elementsOf_size hdrop)
    rw [hm] at hfit hjoin
    rw [elementsOf_flatten hdrop] at hjoin
    have hsegs := decodeSegs_codeSegments hfit
    rw [hraw] at hhdr
    have hdec := decodeBlock_coded hhdr rfl rfl htake rfl (n := 10 * ceilDiv (blockStream src h m e o).length 10
      - (blockStream src h m e o).length) (cols := columnsOf e o (elementsOf (o + e - 1) m (src.drop h))) (by omega)
      (by rw [hb, hbits, columnsOf_empty]; exact hsegs _) (by rw [hjoin, List.take_append_drop])
    rwa [hjoin, List.take_append_drop] at hdec

end

/-- Settles O59: the decoder reads back bits, codes, columns and elements in turn. -/
theorem coderRoundTrip : Obligations.CoderRoundTrip := by
  intro src rest h m e o he he' ho ho' hlen hsize
  exact decodeBlock_codeBlock he he' ho ho' hlen hsize rest

/-- Settles O60: RAW is the coder's own condition, and a body no longer than its elements follows 11 words and the source's leading words. -/
theorem codedBlockLength : Obligations.CodedBlockLength := by
  intro src h m e o he he' ho ho' hlen hsize cols
  refine ⟨codeBlock_raw_iff src h m e o, ?_, ?_⟩
  · rw [codeBlock_eq, List.append_assoc, bitOf_blockHead_raw he' ho']
  · have hbody := (blockBody_length (e := e) (o := o) hlen).1
    rw [codeBlock_eq]
    simp only [List.length_append, blockHead_length, List.length_take]
    omega

end Sys2Proof.Laws
end

section
/-! SUPPORT. The frames of the commands of housekeeping, time, lanes and links (R297 to R409). -/

namespace Sys2Proof.Laws
open Sys2Proof Sys2Proof.Machine Sys2Proof.Safety

/-- Settles O53: each command of housekeeping, time, lanes and links moves only the parts that its operation moves. -/
theorem frameLinks : Obligations.FrameLinks :=
  ⟨fun z => ⟨(zoneStaleTimeout_confined z).keepsAllBut, (zonePortUpdate_confined z).keepsAllBut⟩,
    fun addr => ⟨(zqSelect_confined addr).keepsAllBut, (zqAddressChange_confined addr).keepsAllBut⟩,
    ⟨zqDeselect_confined.keepsAllBut, zqForceTimeout_confined.keepsAllBut, znAck_confined.keepsAllBut,
      m1FrameStart_confined.keepsAllBut, hkRefWindowExit_confined.keepsAllBut, hkRefRestore_confined.keepsAllBut,
      trefLoss_confined.keepsAllBut, timeNoClock_confined.keepsAllBut, timeRelock_confined.keepsAllBut,
      ppsLoss_confined.keepsAllBut, hostHoldover_confined.keepsAllBut, ppsOutPulse_confined.keepsAllBut,
      timeAdjust_confined.keepsAllBut, timedLaunch_confined.keepsAllBut, levelRunStart_confined.keepsAllBut,
      levelRunEnd_confined.keepsAllBut⟩,
    fun pin => (alarmStretchExpiry_confined pin).keepsAllBut,
    fun n => ⟨(loopFaultTimer_confined n).keepsAllBut, (loopReleaseTimer_confined n).keepsAllBut,
      (loopReleaseCmd_confined n).keepsAllBut, (loopOpen_confined n).keepsAllBut, (loopDeviation_confined n).keepsAllBut⟩,
    fun n openCond => (loopConditionClear_confined n openCond).keepsAllBut,
    fun d => (m0ConversionEnd_confined d).keepsAllBut,
    fun ch value isOver => (m1ConversionEnd_confined ch value isOver).keepsAllBut,
    fun count => (notchLengthUpdate_confined count).keepsAllBut,
    fun ch => (urgentRequest_confined ch).keepsAllBut,
    fun n openBalls => (burnoutPulse_confined n openBalls).keepsAllBut,
    fun n => (rtdOpenClear_confined n).keepsAllBut,
    fun is100 => (trefPresent_confined is100).keepsAllBut,
    fun e tm => (disciplineMeasurement_confined e tm).keepsAllBut,
    fun q f => (ppsEdge_confined q f).keepsAllBut,
    fun src tag seq t => ⟨(timeSet_confined src tag seq t).keepsAllBut, (timeTrack_confined src tag seq t).keepsAllBut⟩,
    fun src tag seq seconds => (timePpsLabel_confined src tag seq seconds).keepsAllBut,
    fun src => (timeSnapshot_confined src).keepsAllBut,
    fun ch falling q f => (tdcEdge_confined ch falling q f).keepsAllBut,
    fun g level => (tdcGateChange_confined g level).keepsAllBut,
    fun g => (tdcWindowEnd_confined g).keepsAllBut,
    fun ch => ⟨(tdcArm_confined ch).keepsAllBut, (tdcDisarm_confined ch).keepsAllBut, (tdcPop_confined ch).keepsAllBut,
      (tdcFlushTimer_confined ch).keepsAllBut, (tdcCal_confined ch).keepsAllBut, (tdcCalTimeout_confined ch).keepsAllBut,
      (tdcCalRetry_confined ch).keepsAllBut, (tdcCalPeriod_confined ch).keepsAllBut⟩,
    fun pair => ⟨(tdcPairHoldEnd_confined pair).keepsAllBut, (tdcPairWindowExpiry_confined pair).keepsAllBut⟩,
    fun ch hist => (tdcCalComplete_confined ch hist).keepsAllBut,
    fun line => (monWindowExpiry_confined line).keepsAllBut,
    fun q present => (laneDetectDone_confined q present).keepsAllBut,
    fun q => ⟨(absentRetry_confined q).keepsAllBut, (linkActive_confined q).keepsAllBut,
      (blindTimeout_confined q).keepsAllBut, (downRetry_confined q).keepsAllBut, (orderedSetInsert_confined q).keepsAllBut,
      (idleWake_confined q).keepsAllBut, (linkReset_confined q).keepsAllBut, (feLoopbackExit_confined q).keepsAllBut⟩,
    fun q p symbols => (trainingSetReceived_confined q p symbols).keepsAllBut,
    fun q lanes => ⟨(trainStepPass_confined q lanes).keepsAllBut, (trainStepTimeout_confined q lanes).keepsAllBut⟩,
    fun q p => ⟨(laneLos_confined q p).keepsAllBut, (losDetectReturn_confined q p).keepsAllBut⟩,
    fun q cause => (linkFaultDetect_confined q cause).keepsAllBut,
    fun l grants => (credit_confined l grants).keepsAllBut,
    fun l => (creditSend_confined l).keepsAllBut,
    fun l tag src addr count => (read_confined l tag src addr count).keepsAllBut,
    fun l tag src addr mask values => (write_confined l tag src addr mask values).keepsAllBut,
    fun l tag src words => (timedSend_confined l tag src words).keepsAllBut,
    fun l symbols => (frameForward_confined l symbols).keepsAllBut,
    fun l frame stamp => ⟨(levelReq_confined l frame stamp).keepsAllBut, (levelResp_confined l frame stamp).keepsAllBut⟩,
    fun l frame => (chainSync_confined l frame).keepsAllBut⟩

end Sys2Proof.Laws
end

section
/-! SUPPORT. The coder's queue, the replay ring and its cursors (R277, R289 to R295). -/

namespace Sys2Proof.Laws
open Sys2Proof Sys2Proof.Machine Sys2Proof.Safety

section
variable {s : State}

/-! ### The coder (R277, R292) -/

/-- What admission to the ring leaves alone of coder and ring: the frames waiting, the readable entries, the next serial. -/
def admitView (s : State) : List CodeJob × List RingEntry × Nat := (s.code.jobs, s.code.ring, s.code.write)

theorem pushGap_eq {n : Nat} {g : GapSt} (hg : tabFind s.code.gaps n = some g) (hroom : c2Room s 1 = true) :
    pushGap s n = modCode s (fun c => { c with
      c2 := c.c2 ++ [{ ty := 2, serial := 0, sw := g.sw, seq := g.seq, len := 1, stamp := g.stamp, epoch := min g.n 1023, body := [],
                       at_ := 0 }]
      gaps := tabErase c.gaps n }) := by
  unfold pushGap
  simp only [hg, hroom, if_true]
  rfl

/-- R292: a second after the first loss the GAP entry is due. -/
theorem execRingGapTimeout_due {n : Fin 256} {g : GapSt} (hg : tabFind s.code.gaps n.val = some g) (hdue : g.at_ + secU ≤ elapsed s) :
    execRingGapTimeout n s = .next (pushGap s n.val) := by
  unfold execRingGapTimeout
  simp only [hg, hdue, if_true]

theorem pushGap_admitView (n : Nat) : admitView (pushGap s n) = admitView s := by
  unfold pushGap
  split
  · rfl
  · split <;> rfl

theorem pushDueGaps_admitView : admitView (pushDueGaps s) = admitView s := by
  unfold pushDueGaps forEach
  exact foldl_keeps (fun _ (x : Nat × GapSt) => pushGap_admitView x.1) _

theorem ringAdmit_admitView (j : CodeJob) (body : List Word) : admitView (ringAdmit s j body) = admitView s := by
  have hgaps : admitView (pushGap (pushDueGaps s) j.stream) = admitView s :=
    (pushGap_admitView j.stream).trans pushDueGaps_admitView
  unfold ringAdmit
  extract_lets s1 n
  split <;> exact hgaps

theorem sendLinks_code (ls : List (Fin 3)) (ftype : Nat) (ws : List Word) : (sendLinks s ls ftype ws).1.code = s.code :=
  (sendLinks_moves (P := [.net]) rfl (.refl _ s)).only.1 .code (by decide)

/-- R277: the frame at the head leaves the queue; nothing else changes of what counters, links and admission to the ring leave
alone. -/
theorem codeFrameSt_keeps {β : Type} {g : State → β} {j : CodeJob} {rest : List CodeJob} (hjobs : s.code.jobs = j :: rest)
    (hbump : ∀ u f, g (bump u f) = g u) (hsend : ∀ u ls ftype ws, g (sendLinks u ls ftype ws).1 = g u)
    (hadmit : j.ring = true → ∀ u body, g (ringAdmit u j body) = g u) :
    ∃ n k, g (codeFrameSt s) = g (modCode s (fun c => { c with jobs := rest, srcWords := n, codWords := k })) := by
  have hcount (b : Bool) (u : State) (f : Fld) : g (if b = true then bump u f else u) = g u := by
    split
    · exact hbump u f
    · rfl
  have hring (u : State) (body : List Word) : g (if j.ring = true then ringAdmit u j body else u) = g u := by
    split
    · next h => exact hadmit h u body
    · rfl
  unfold codeFrameSt
  simp only [hjobs]
  exact ⟨_, _, ((hcount _ _ _).trans (hring _ _)).trans ((hsend _ _ _ _).trans (hcount _ _ _))⟩

/-! ### The writer (R291, R292) -/

/-- What making room leaves alone of coder and ring: the entries waiting, the next serial and the writer's position. -/
def writerView (s : State) : List RingEntry × Nat × Nat := (s.code.c2, s.code.write, s.code.pos)

theorem moveCur_code (c : Fin 16) (pos : Nat) (count : Bool) :
    (moveCur s c pos count).code = (modCur s c (fun x => { x with pos := pos, moved := true })).code := by
  unfold moveCur
  extract_lets s1
  have hs1 : s1.code = _ := setF_code ..
  split
  · rw [bump_code, hs1]
  · exact hs1

theorem moveCur_writerView (c : Fin 16) (pos : Nat) (count : Bool) : writerView (moveCur s c pos count) = writerView s := by
  rw [writerView, moveCur_code]
  rfl

theorem setOldest_writerView (n : Nat) : writerView (setOldest s n) = writerView s := by
  refine (foldl_keeps (f := writerView) (fun s c => ?_) _).trans rfl
  split
  · exact moveCur_writerView c n true
  · rfl

theorem freeGranules_writerView (a b : Nat) : writerView (freeGranules s a b) = writerView s := by
  unfold freeGranules
  extract_lets left n
  split
  · rfl
  · exact setOldest_writerView n

theorem noteIndex_writerView (e : RingEntry) : writerView (noteIndex s e) = writerView s := by
  unfold noteIndex
  extract_lets ch firstIn
  split <;> rfl

/-- R291: an entry takes the next serial and the writer's position; the writer goes on behind it. -/
theorem putEntry_written (e : RingEntry) : (putEntry s e).code.c2 = s.code.c2
    ∧ (putEntry s e).code.write = (s.code.write + 1) % 2 ^ 30 ∧ (putEntry s e).code.pos = s.code.pos + e.len
    ∧ (putEntry s e).code.ring.getLast? = some { e with serial := s.code.write, at_ := s.code.pos } := by
  have hview := (noteIndex_writerView { e with serial := s.code.write, at_ := s.code.pos }).trans
    (freeGranules_writerView (s := s) s.code.pos (s.code.pos + e.len))
  simp only [writerView, Prod.mk.injEq] at hview
  obtain ⟨hc2, hwrite, -⟩ := hview
  exact ⟨hc2, congrArg (fun n => (n + 1) % 2 ^ 30) hwrite, rfl, List.getLast?_concat ..⟩

/-- R291: an entry that fits before the end of U is written where the writer stands. -/
theorem ringWriteSt_fits {e : RingEntry} {rest : List RingEntry} (hc2 : s.code.c2 = e :: rest) (hgo : dramStopped s = false)
    (hon : ringOn s = true) (hfits : s.code.pos + e.len ≤ s.code.u * 32768) :
    ringWriteSt s = putEntry (modCode s (fun c => { c with c2 := rest })) e := by
  unfold ringWriteSt
  simp only [hc2, hgo, hon, Bool.not_true, Bool.or_self, Bool.false_eq_true, if_false]
  exact congrArg (fun u => putEntry u e) (if_pos hfits)

theorem tabFind_erase {α : Type} (t : Tab α) (a : Nat) : tabFind (tabErase t a) a = none := by
  unfold tabErase
  induction t with
  | nil => rfl
  | cons e t ih =>
    obtain ⟨k, v⟩ := e
    rw [List.filter_cons]
    split
    · next h => rw [tabFind, if_neg (fun hak => of_decide_eq_true h hak.symm), ih]
    · exact ih

/-! ### One cursor (R293, R295) -/

@[simp] theorem cur_modCur {c : Fin 16} {f : CursorSt → CursorSt} : vget (modCur s c f).code.cur c = f (vget s.code.cur c) :=
  vget_vmod ..

theorem getF_modCur {c : Fin 16} {f : CursorSt → CursorSt} {g : Fld} : getF (modCur s c f) g = getF s g := getF_of_regs rfl

theorem cursorStartSt_eq {c : Fin 16} (hon : ringOn s = true) : cursorStartSt c s = modCur (setF s (bcCurStatusEnd c.val) 0) c
    (fun x => { x with run := true, last := (s.code.write + 2 ^ 30 - 1) % 2 ^ 30,
                       st := if x.seek.isSome then .seeking else runState s c x.pos }) := if_pos hon

theorem beginSeek_eq {c : Fin 16} {kind v : Nat} (hon : ringOn s = true) :
    beginSeek c kind v s = modCur s c (fun x => { x with seek := some (kind, v), st := .seeking }) := if_pos hon

/-- R295: a seek's end: the cursor runs on from where it is, or is stopped there. -/
def endSeek (c : Fin 16) (s : State) : State :=
  modCur s c (fun x => { x with seek := none, st := if x.run then runState s c x.pos else .stopped })

section
variable {c : Fin 16} {v : Nat}

/-- R295: a seek of any kind moves the cursor, then it ends. -/
theorem seekDoneSt_ends {k : Nat} (hseek : (vget s.code.cur c).seek = some (k, v)) (hgo : dramStopped s = false) :
    ∃ u, seekDoneSt c s = endSeek c u := by
  unfold seekDoneSt
  simp only [hseek, hgo, Bool.false_eq_true, if_false]
  split
  · exact ⟨_, rfl⟩
  · exact ⟨_, rfl⟩
  · split
    · exact ⟨_, rfl⟩
    · split <;> exact ⟨_, rfl⟩
  · exact ⟨_, rfl⟩

theorem seekDoneSt_oldest (hseek : (vget s.code.cur c).seek = some (1, v)) (hgo : dramStopped s = false) :
    seekDoneSt c s = endSeek c (modCur s c (fun x => { x with pos := s.code.oldest })) := by
  unfold seekDoneSt
  simp only [hseek, hgo, Bool.false_eq_true, if_false]
  rfl

theorem seekDoneSt_newest (hseek : (vget s.code.cur c).seek = some (2, v)) (hgo : dramStopped s = false) :
    seekDoneSt c s = endSeek c (modCur s c (fun x => { x with pos := s.code.write })) := by
  unfold seekDoneSt
  simp only [hseek, hgo, Bool.false_eq_true, if_false]
  rfl

/-- R295: a serial older than the oldest gives the oldest, and the cursor counts as moved. -/
theorem seekDoneSt_serial_old (hseek : (vget s.code.cur c).seek = some (3, v)) (hgo : dramStopped s = false)
    (hold : serialBefore v s.code.oldest = true) : seekDoneSt c s = endSeek c (moveCur s c s.code.oldest false) := by
  unfold seekDoneSt
  simp only [hseek, hgo, hold, Bool.false_eq_true, if_false, if_true]
  rfl

theorem seekDoneSt_serial_held (hseek : (vget s.code.cur c).seek = some (3, v)) (hgo : dramStopped s = false)
    (hold : serialBefore v s.code.oldest = false) (hnew : serialBefore s.code.write v = false) :
    seekDoneSt c s = endSeek c (modCur s c (fun x => { x with pos := v })) := by
  unfold seekDoneSt
  simp only [hseek, hgo, hold, hnew, Bool.false_eq_true, if_false]
  rfl

end

theorem moveCur_cur {c : Fin 16} {pos : Nat} :
    vget (moveCur s c pos false).code.cur c = { vget s.code.cur c with pos := pos, moved := true } := by
  rw [moveCur_code, cur_modCur]

/-! ### Reading (R293, R294) -/

/-- R293: the cursor runs, no seek is in progress, DRAM and ring are at work and the rate cap admits a frame. -/
structure CursorReads (s : State) (c : Fin 16) : Prop where
  run : (vget s.code.cur c).run = true
  seek : (vget s.code.cur c).seek = none
  going : dramStopped s = false
  on : ringOn s = true
  due : (vget s.code.cur c).next ≤ elapsed s

variable {c : Fin 16}

theorem CursorReads.notHeld (h : CursorReads s c) : (!(vget s.code.cur c).run || (vget s.code.cur c).seek.isSome || dramStopped s
    || !(ringOn s) || decide (elapsed s < (vget s.code.cur c).next)) = false := by
  obtain ⟨hrun, hseek, hgo, hon, hdue⟩ := h
  simp only [hrun, hseek, hgo, hon, Nat.not_lt.2 hdue, Bool.not_true, Option.isSome_none, decide_false, Bool.or_self]

/-- R293: a cursor whose link does not carry its frames waits. -/
theorem cursorReadSt_waits (h : CursorReads s c) (hlink : curLinkOk s c = false) :
    cursorReadSt c s = modCur s c (fun x => { x with st := .waiting }) := by
  unfold cursorReadSt
  simp only [h.notHeld, hlink, Bool.false_eq_true, if_false, Bool.not_false, if_true]

/-- R293: a following cursor with nothing left to read stands at the tail. -/
theorem cursorReadSt_tail (h : CursorReads s c) (hlink : curLinkOk s c = true) (hmode : getF s (bcCurCtrlMode c.val) = 1)
    (hring : s.code.ring = []) : cursorReadSt c s = modCur s c (fun x => { x with pos := s.code.write, st := .tail }) := by
  have hfollow : isSet s (bcCurCtrlMode c.val) = true := decide_eq_true hmode
  unfold cursorReadSt
  simp only [h.notHeld, hlink, hfollow, hring, Bool.false_eq_true, if_false, Bool.not_true, if_true, List.filter_nil]

/-- R400: a link that carries bulk frames takes one that its output buffer has room for. -/
theorem sendOn_bulk {l : Fin 3} {f : Frame} (hclass : frameClass f = 2) (hbulk : carriesBulk s l = true)
    (hroom : outFill (vget s.net.links l) + frameBytes f ≤ 4194304 - 65536) :
    sendOn s l f = (modLink s l (fun L => { L with bulk := L.bulk ++ [f] }), true) := by
  have hup : linkUp s l = true := by
    unfold carriesBulk at hbulk
    simp only [Bool.and_eq_true] at hbulk
    exact hbulk.1.1
  unfold sendOn
  simp only [hup, hclass, hbulk, Nat.not_lt.2 hroom, Bool.not_true, Bool.false_eq_true, if_false, decide_false, Bool.or_self]

theorem frameClass_replayFrame {e : RingEntry} : frameClass (replayFrame s c e) = 2 := by
  show ftypeOf 2 3 / 256 % 4 = 2
  decide

/-- R294: a following cursor sends the first entry left to read and goes on behind it. -/
theorem cursorReadSt_sends {e : RingEntry} {rest : List RingEntry} (h : CursorReads s c) (hlink : curLinkOk s c = true)
    (hmode : getF s (bcCurCtrlMode c.val) = 1)
    (htodo : s.code.ring.filter (fun e => !(serialBefore e.serial (vget s.code.cur c).pos) && curAdmits s c e) = e :: rest)
    (hasIs : e.ty = 2 ∨ linkHas s (curLink s c) 0 = true)
    (hroom : outFill (vget s.net.links (curLink s c)) + frameBytes (replayFrame s c e) ≤ 4194304 - 65536) :
    ∃ n, cursorReadSt c s = modCur (modLink s (curLink s c) (fun L => { L with bulk := L.bulk ++ [replayFrame s c e] })) c
      (fun x => { x with pos := (e.serial + 1) % 2 ^ 30, moved := false, st := .running, next := n }) := by
  have hfollow : isSet s (bcCurCtrlMode c.val) = true := decide_eq_true hmode
  have hbulk : carriesBulk s (curLink s c) = true := (Bool.and_eq_true_iff.1 hlink).1
  have hplain : (decide (e.ty = 2) || linkHas s (curLink s c) 0) = true := by
    rwa [Bool.or_eq_true, decide_eq_true_iff]
  have hsend := sendOn_bulk frameClass_replayFrame hbulk hroom
  have hfalse : b2n false = 0 := rfl
  refine ⟨elapsed s + capTime s c (replayFrame s c e).payload.length, ?_⟩
  unfold replayFrame at hsend ⊢
  unfold cursorReadSt
  simp only [h.notHeld, hlink, hfollow, hplain, htodo, Bool.false_eq_true, if_false, Bool.not_true, if_true, Bool.true_or, Bool.and_true,
    Bool.false_and, hfalse, Nat.mul_zero, Nat.add_zero, hsend]
  rfl

end

/-- Settles O30: each command's effect on queue, ring and cursor, from the lemmas above. -/
theorem codingAndReplay : Obligations.CodingAndReplay := by
  unfold Obligations.CodingAndReplay
  refine ⟨?_, ?_, ?_, ?_, ?_, ?_, ?_, ?_, ?_, ?_, ?_, ?_, ?_⟩
  · intro s j rest hjobs hring
    obtain ⟨n, k, h⟩ := codeFrameSt_keeps (g := State.code) hjobs (fun u f => bump_code u f) (fun _ => sendLinks_code)
      (fun h => absurd (h.symm.trans hring) (by decide))
    refine goesOnWith_of_next (t := codeFrameSt s) rfl ⟨?_, ?_, ?_, (codeFrameSt_moves rfl (.refl _ s)).only⟩ <;> rw [h] <;> rfl
  · intro s j rest hjobs _
    have hbump (u : State) (f : Fld) : admitView (bump u f) = admitView u := by rw [admitView, bump_code, admitView]
    have hsend (u : State) (ls : List (Fin 3)) (ftype : Nat) (ws : List Word) :
        admitView (sendLinks u ls ftype ws).1 = admitView u := by rw [admitView, sendLinks_code, admitView]
    obtain ⟨n, k, h⟩ := codeFrameSt_keeps (g := admitView) hjobs hbump hsend (fun _ _ => ringAdmit_admitView j)
    simp only [admitView, modCode_code, Prod.mk.injEq] at h
    obtain ⟨hrest, hring, hwrite⟩ := h
    exact goesOnWith_of_next (t := codeFrameSt s) rfl ⟨hrest, hring, hwrite, (codeFrameSt_moves rfl (.refl _ s)).only⟩
  · intro s e rest hc2 hgo hon hfits
    obtain ⟨hrest, hwrite, hpos, hlast⟩ := putEntry_written (s := modCode s (fun c => { c with c2 := rest })) e
    refine goesOnWith_of_next (t := ringWriteSt s) rfl ⟨?_, ?_, ?_, ?_, (ringWriteSt_moves rfl (.refl _ s)).only⟩ <;>
      rw [ringWriteSt_fits hc2 hgo hon hfits] <;> assumption
  · intro s n g hg hdue hroom
    refine goesOnWith_of_next (execRingGapTimeout_due hg hdue) ⟨?_, ?_, ?_, (pushGap_moves rfl (.refl _ s)).only⟩ <;> rw [pushGap_eq hg hroom, modCode_code]
    · exact List.length_append
    · simp only [List.getLast?_concat, Option.map_some]
    · exact tabFind_erase _ _
  · intro s c hon _
    refine goesOnWith_of_next (congrArg Host.Outcome.next (cursorStartSt_eq hon)) ⟨?_, ?_, ?_, ?_, ?_⟩
    · rw [cur_modCur]
    · rw [getF_modCur, getF_setF _ _ _ rfl, Nat.zero_mod]
    · rw [cur_modCur, setF_code]
    · rw [cur_modCur]
    · exact (modCur_moves rfl (setF_moves rfl (.refl _ s))).only
  · intro s c hseek
    refine goesOnWith_of_next (t := cursorStopSt c s) rfl ⟨?_, ?_, ?_, (cursorStopSt_moves rfl (.refl _ s)).only⟩ <;>
      rw [cursorStopSt, cur_modCur]
    rw [hseek]
    rfl
  · intro s c hon
    refine goesOnWith_of_next (congrArg Host.Outcome.next (beginSeek_eq hon)) ⟨?_, ?_, (modCur_moves rfl (.refl _ s)).only⟩ <;>
      rw [cur_modCur]
  · intro s c hon
    refine goesOnWith_of_next (congrArg Host.Outcome.next (beginSeek_eq hon)) ⟨?_, ?_, (modCur_moves rfl (.refl _ s)).only⟩ <;>
      rw [cur_modCur]
  · intro s c hon
    refine goesOnWith_of_next (congrArg Host.Outcome.next (beginSeek_eq hon)) ⟨?_, ?_, (modCur_moves rfl (.refl _ s)).only⟩ <;>
      rw [cur_modCur]
    rfl
  · intro s c k v hseek hgo
    refine goesOnWith_of_next (t := seekDoneSt c s) rfl ⟨?_, ?_, ?_, ?_, ?_, (seekDoneSt_moves rfl (.refl _ s)).only⟩
    · obtain ⟨u, h⟩ := seekDoneSt_ends hseek hgo
      rw [h, endSeek, cur_modCur]
    · rintro rfl
      rw [seekDoneSt_oldest hseek hgo, endSeek, cur_modCur, cur_modCur]
    · rintro rfl
      rw [seekDoneSt_newest hseek hgo, endSeek, cur_modCur, cur_modCur]
    · rintro rfl hold
      rw [seekDoneSt_serial_old hseek hgo hold, endSeek, cur_modCur, moveCur_cur]
      exact ⟨rfl, rfl⟩
    · rintro rfl hold hnew
      rw [seekDoneSt_serial_held hseek hgo hold hnew, endSeek, cur_modCur, cur_modCur]
  · intro s c hrun hseek hgo hon hdue hlink
    refine goesOnWith_of_next (congrArg Host.Outcome.next (cursorReadSt_waits ⟨hrun, hseek, hgo, hon, hdue⟩ hlink))
      ⟨?_, ?_, (modCur_moves rfl (.refl _ s)).only⟩ <;> rw [cur_modCur]
  · intro s c hrun hseek hgo hon hdue hlink hmode hring
    refine goesOnWith_of_next (congrArg Host.Outcome.next (cursorReadSt_tail ⟨hrun, hseek, hgo, hon, hdue⟩ hlink hmode hring))
      ⟨?_, ?_, (modCur_moves rfl (.refl _ s)).only⟩ <;> rw [cur_modCur]
  · intro s c e rest hrun hseek hgo hon hdue hlink hmode htodo hasIs hroom
    obtain ⟨n, h⟩ := cursorReadSt_sends ⟨hrun, hseek, hgo, hon, hdue⟩ hlink hmode htodo hasIs hroom
    refine goesOnWith_of_next (congrArg Host.Outcome.next h)
      ⟨?_, ?_, ?_, ?_, rfl, (modCur_moves rfl (modLink_moves rfl (.refl _ s))).only⟩
    · rw [cur_modCur]
    · rw [cur_modCur]
    · rw [cur_modCur]
    · exact congrArg Link.bulk (vget_vmod ..)

end Sys2Proof.Laws
end

section
/-! SUPPORT. Zones, the zone query port and the ALARM pins (R303 to R309): what reaches the port's table and when, and that a cause
put on a zone stands after the port, the event frames and the loops have seen it. -/

namespace Sys2Proof.Laws
open Sys2Proof Sys2Proof.Machine Sys2Proof.Safety

section
variable {s : State} {z nib : Nat}

/-! ### The ALARM pins (R309) -/

/-- A look at one pin changes nothing but pins. -/
theorem evalPin_eq (s : State) (n : Fin 4) :
    ∃ on at_, evalPin s n = modZn s (fun x => { x with pins := on, pinAt := at_ }) := by
  unfold evalPin
  extract_lets on
  split
  · split
    · exact ⟨s.zn.pins, s.zn.pinAt, rfl⟩
    · exact ⟨_, _, rfl⟩
  · split
    · exact ⟨_, s.zn.pinAt, rfl⟩
    · exact ⟨s.zn.pins, s.zn.pinAt, rfl⟩

theorem evalPins_eq (s : State) : ∃ on at_, evalPins s = modZn s (fun x => { x with pins := on, pinAt := at_ }) := by
  refine List.foldlRecOn (motive := fun t => ∃ on at_, t = modZn s (fun x => { x with pins := on, pinAt := at_ }))
    (List.finRange 4) evalPin ⟨s.zn.pins, s.zn.pinAt, rfl⟩ fun t ht n _ => ?_
  obtain ⟨_, _, rfl⟩ := ht
  obtain ⟨on, at_, h⟩ := evalPin_eq (modZn s _) n
  exact ⟨on, at_, h⟩

theorem evalPins_keeps {β : Type} {g : ZnSt → β} (hg : ∀ x on at_, g { x with pins := on, pinAt := at_ } = g x) :
    g (evalPins s).zn = g s.zn := by
  obtain ⟨on, at_, h⟩ := evalPins_eq s
  rw [h]
  exact hg s.zn on at_

@[simp] theorem evalPins_port : (evalPins s).zn.port = s.zn.port := evalPins_keeps (g := ZnSt.port) fun _ _ _ => rfl

@[simp] theorem evalPins_zones : (evalPins s).zn.zones = s.zn.zones := evalPins_keeps (g := ZnSt.zones) fun _ _ _ => rfl

@[simp] theorem evalPins_held : (evalPins s).zn.held = s.zn.held := evalPins_keeps (g := ZnSt.held) fun _ _ _ => rfl

@[simp] theorem evalPins_selected : (evalPins s).zn.selected = s.zn.selected := evalPins_keeps (g := ZnSt.selected) fun _ _ _ => rfl

@[simp] theorem evalPins_forcing : (evalPins s).zn.forcing = s.zn.forcing := evalPins_keeps (g := ZnSt.forcing) fun _ _ _ => rfl

@[simp] theorem getF_evalPins {f : Fld} : getF (evalPins s) f = getF s f := by
  obtain ⟨on, at_, h⟩ := evalPins_eq s
  rw [h]
  rfl

/-- R309: a pin that is no longer wanted is released once STRETCH has passed. -/
theorem evalPin_released {n : Fin 4} (hon : vget s.zn.pins n = true) (hunwanted : pinWanted s n.val = false)
    (hdue : vget s.zn.pinAt n + pinStretch s n.val * msU ≤ elapsed s) :
    evalPin s n = modZn s (fun x => { x with pins := vset x.pins n false }) := by
  unfold evalPin
  simp only [hon, hunwanted, hdue, decide_true, Bool.and_self, Bool.false_eq_true, if_false, if_true]

/-! ### The port's table (R308) -/

theorem portUpdate_deselected (hsel : s.zn.selected = false) :
    portUpdate s z nib = evalPins (modZn s (fun n => { n with port := tabPut n.port z nib })) := by
  unfold portUpdate
  rw [hsel]
  rfl

theorem portUpdate_waits (hsel : s.zn.selected = true) (hforce : s.zn.forcing = false) : portUpdate s z nib =
    modZn s (fun n => { n with held := n.held.filter (fun h => h.1 ≠ z) ++ [(z, nib)] }) := by
  unfold portUpdate
  rw [hsel, hforce]
  rfl

theorem portUpdate_forced (hsel : s.zn.selected = true) (hforce : s.zn.forcing = true) : portUpdate s z nib =
    evalPins (bump (modZn s (fun n => { n with port := tabPut n.port z nib })) znForcedCount) := by
  unfold portUpdate
  rw [hsel, hforce]
  rfl

theorem applyHeld_port_of_nil (h : s.zn.held = []) : (applyHeld s).zn.port = s.zn.port := by
  rw [applyHeld, evalPins_port, modZn_zn, h]
  rfl

theorem applyHeld_held : (applyHeld s).zn.held = [] := by rw [applyHeld, evalPins_held, modZn_zn]

theorem applyHeld_zones : (applyHeld s).zn.zones = s.zn.zones := by rw [applyHeld, evalPins_zones, modZn_zn]

theorem applyHeld_selected : (applyHeld s).zn.selected = s.zn.selected := by rw [applyHeld, evalPins_selected, modZn_zn]

theorem applyHeld_forcing : (applyHeld s).zn.forcing = s.zn.forcing := by rw [applyHeld, evalPins_forcing, modZn_zn]

theorem getF_applyHeld {f : Fld} : getF (applyHeld s) f = getF s f := getF_evalPins

/-! ### What port, loops and event frames leave of the zones -/

theorem portUpdate_zones (s : State) (z nib : Nat) : (portUpdate s z nib).zn.zones = s.zn.zones := by
  unfold portUpdate
  split
  · rfl
  · rw [evalPins_zones]
    split <;> rfl

theorem retarget_zones (s : State) (n : Fin 8) : (retarget s n).zn.zones = s.zn.zones := by
  rcases retarget_eq s n with h | ⟨v, h⟩ <;> rw [h]
  rfl

theorem ite_zones {p : Prop} [Decidable p] {t : State} (h : t.zn.zones = s.zn.zones) :
    (if p then t else s).zn.zones = s.zn.zones := by
  split
  · exact h
  · rfl

/-- R311: each cause that a check finds changes the loop alone. -/
theorem loopCheck_zones (s : State) (n : Fin 8) : (loopCheck s n).zn.zones = s.zn.zones := by
  unfold loopCheck
  extract_lets m x c newly now s1 faulted s2 s3 s4 s5
  have h2 : s2.zn.zones = s1.zn.zones := ite_zones rfl
  have h3 : s3.zn.zones = s2.zn.zones := ite_zones rfl
  have h4 : s4.zn.zones = s3.zn.zones := ite_zones rfl
  have h5 : s5.zn.zones = s4.zn.zones := ite_zones rfl
  exact Eq.trans (ite_zones rfl) (h5.trans (h4.trans (h3.trans h2)))

theorem loopsRefresh_zones : (loopsRefresh s).zn.zones = s.zn.zones :=
  foldl_keeps (f := fun u => u.zn.zones) (fun u n => (retarget_zones _ n).trans (loopCheck_zones u n)) _

theorem sendZoneRecords_zones {epoch fuel : Nat} {recs : List (List Word)} :
    (sendZoneRecords epoch fuel recs s).zn.zones = s.zn.zones := by
  induction fuel generalizing recs s with
  | zero => rfl
  | succ fuel ih =>
    cases recs with
    | nil => rfl
    | cons r rs =>
      unfold sendZoneRecords
      extract_lets now seq pay s1
      split
      next s2 ok e =>
      have hsent : s2.zn = s1.zn := by
        split at e
        · exact (sendOn_moves_eq (P := [.net]) e rfl (.refl _ s1)).only.1 .zn (by decide)
        · cases e
          rfl
      rw [ih, bumpBy_zn, hsent]
      rfl

/-! ### One zone -/

theorem zoneAt_of_zones {t : State} (h : t.zn.zones = s.zn.zones) : zoneAt t z = zoneAt s z := congrArg (tabGet _ · z) h

theorem zoneAt_putZone {x : ZoneSt} : zoneAt (putZone s z x) z = x := tabGet_put _ _ _ _

theorem zoneAt_putZone_ne {y : Nat} {x : ZoneSt} (h : y ≠ z) : zoneAt (putZone s z x) y = zoneAt s y := tabGet_put_ne _ _ _ h

/-- A zone of the plan stands among them under its number. -/
theorem mem_zonesOf_of_zoneCfg {c : ZoneCfg} (h : zoneCfg s z = some c) : c ∈ zonesOf s ∧ c.z = z := by
  obtain ⟨p, hp, rfl⟩ := Option.map_eq_some_iff.mp h
  have hz : decide (wAt p 0 2 = z) = true := List.find?_some (p := fun p => decide (wAt p 0 2 = z)) hp
  exact ⟨List.mem_map_of_mem (List.mem_of_find?_eq_some hp), of_decide_eq_true hz⟩

/-- R315: a report changes what was last shown of a zone, not its causes. -/
theorem publish_stale {zs : List Nat} {epoch : Nat} : (zoneAt (publish s zs epoch) z).stale = (zoneAt s z).stale := by
  have hshown (u : State) (y : Nat) :
      (zoneAt (putZone u y { zoneAt u y with shown := zoneNib (zoneAt u y) }) z).stale = (zoneAt u z).stale := by
    by_cases h : z = y
    · rw [h, zoneAt_putZone]
    · rw [zoneAt_putZone_ne h]
  unfold publish
  extract_lets recs s1
  have h1 : zoneAt s1 z = zoneAt s z := zoneAt_of_zones sendZoneRecords_zones
  exact (foldl_keeps (f := fun u => (zoneAt u z).stale) hshown zs).trans (congrArg ZoneSt.stale h1)

/-! ### Zones marked with a cause (R304) -/

variable {f : ZoneSt → ZoneSt} {P : Nat → Prop}

/-- R304: one zone gets a cause or loses it. -/
def markZone (f : ZoneSt → ZoneSt) (s : State) (c : ZoneCfg) : State :=
  let x := zoneAt s c.z
  let y := f x
  putZone s c.z { y with stamp := stampNow s,
                         frz := if y.fault ≠ 0 ∨ y.stale ≠ 0 then some (x.frz.getD (stampNow s)) else x.frz }

theorem markZone_stale {c : ZoneCfg} : (zoneAt (markZone f s c) c.z).stale = (f (zoneAt s c.z)).stale := by
  rw [markZone, zoneAt_putZone]

theorem markZone_zone_ne {c : ZoneCfg} (h : z ≠ c.z) : zoneAt (markZone f s c) z = zoneAt s z := zoneAt_putZone_ne h

/-- What the mark makes of STALE holds of every zone marked, and stays where it held. -/
theorem foldl_markZone_stale (hf : ∀ x, P (f x).stale) {cs : List ZoneCfg} (h : (∃ c ∈ cs, c.z = z) ∨ P (zoneAt s z).stale) :
    P (zoneAt (cs.foldl (markZone f) s) z).stale := by
  induction cs generalizing s with
  | nil => exact h.resolve_left (fun ⟨_, hc, _⟩ => List.not_mem_nil hc)
  | cons c cs ih =>
    refine ih ?_
    by_cases hz : z = c.z
    · subst hz
      exact .inr (markZone_stale ▸ hf _)
    · rw [markZone_zone_ne hz]
      exact h.imp_left fun ⟨d, hd, hdz⟩ => ⟨d, (List.mem_cons.mp hd).resolve_left (fun e => hz (e ▸ hdz.symm)), hdz⟩

/-- R304: what a mark makes of STALE holds of each zone marked. -/
theorem markZones_stale {p : ZoneCfg → Bool} {c : ZoneCfg} (hf : ∀ x, P (f x).stale) (hc : c ∈ zonesOf s) (hp : p c = true) :
    P (zoneAt (markZones s p f) c.z).stale := by
  have hmarked : P (zoneAt (((zonesOf s).filter p).foldl (markZone f) s) c.z).stale :=
    foldl_markZone_stale hf (.inl ⟨c, List.mem_filter.mpr ⟨hc, hp⟩, rfl⟩)
  unfold markZones
  extract_lets cs s1 zs s2
  have hport : s2.zn.zones = s1.zn.zones :=
    foldl_keeps (f := fun u => u.zn.zones) (fun u y => portUpdate_zones u y _) zs
  rw [zoneAt_of_zones loopsRefresh_zones, publish_stale, zoneAt_of_zones hport]
  exact hmarked

theorem zoneStaleSt_due {n : Fin 4096} {c : ZoneCfg} (hcfg : zoneCfg s n.val = some c)
    (hdue : (zoneAt s n.val).lastEval + c.staleMs * msU ≤ elapsed s) :
    zoneStaleSt n s = markZones s (fun d => decide (d.z = n.val)) (fun x => { x with stale := x.stale ||| 1 }) := by
  unfold zoneStaleSt
  rw [hcfg]
  exact if_pos hdue

theorem znAckSt_latching {c : ZoneCfg} (hcfg : zoneCfg s (getF s znSelZone) = some c) (hlatch : c.latch = true) :
    znAckSt s = putZone s (getF s znSelZone) { zoneAt s (getF s znSelZone) with unlatch := true } := by
  unfold znAckSt
  extract_lets y
  rw [hcfg]
  exact if_pos hlatch

/-! ### STALE_CLEAR (R43) -/

variable {l : Fin 2}

theorem mbxStaleClearSt_unsensed (h : lineSensing s l.val = false) : mbxStaleClearSt l s = mbxRefuse s 10 := by
  unfold mbxStaleClearSt
  rw [h]
  rfl

theorem mbxStaleClearSt_granted (hsense : lineSensing s l.val = true) (hshot : (vget s.zn.shotSince l).isSome = true)
    (hall : ((zoneSlices s l.val).all (fun t => (vget s.zn.evalSince l).contains t)) = true) :
    mbxStaleClearSt l s = mbxAnswer (markZones s (fun c => decide (zoneLine s c = some l.val))
      (fun x => { x with stale := x.stale &&& 17 })) 10 mbxGranted 0 := by
  unfold mbxStaleClearSt
  rw [hsense, hshot, hall]
  rfl

end

/-- Settles O31: an update goes to the table or waits by the port's select and force flags; a mark, an acknowledgement and the
release of a pin are what their commands leave. -/
theorem zones : Obligations.Zones := by
  refine ⟨fun s z hcfg hsel => ?_, fun s z hcfg hsel hforce => ?_, fun s z hcfg hsel hforce => ?_, fun s a => ?_, fun s a => ?_,
    fun s => ?_, fun s hsel hforce => ?_, fun s n hon hunwanted hdue => ?_, fun s z c hcfg hdue => ?_,
    fun s c hcfg hlatch => ?_, fun s l hq hk hsense => ?_, fun s l hq hk hsense hshot hall => ?_⟩
  · refine goesOnWith_of_next rfl ?_
    rw [whenB_of_true hcfg, portUpdate_deselected hsel, evalPins_port, evalPins_zones, evalPins_held]
    exact ⟨tabGet_put _ _ _ _, rfl, rfl, (evalPins_moves rfl (modZn_moves rfl (.refl _ s))).only⟩
  · refine goesOnWith_of_next rfl ?_
    rw [whenB_of_true hcfg, portUpdate_waits hsel hforce]
    exact ⟨rfl, List.mem_append_right _ (List.mem_singleton_self _), (modZn_moves rfl (.refl _ s)).only⟩
  · refine goesOnWith_of_next rfl ?_
    rw [whenB_of_true hcfg, portUpdate_forced hsel hforce, evalPins_port, getF_evalPins, bump_zn]
    exact ⟨tabGet_put _ _ _ _, getF_bump _ znForcedCount rfl,
      (evalPins_moves rfl (bump_moves rfl (modZn_moves rfl (.refl _ s)))).only⟩
  · exact goesOnWith_of_next rfl ⟨rfl, rfl, rfl, (modZn_moves rfl (.refl _ s)).only⟩
  · exact goesOnWith_of_next rfl ⟨rfl, rfl, rfl, (modZn_moves rfl (.refl _ s)).only⟩
  · exact goesOnWith_of_next rfl ⟨applyHeld_selected, applyHeld_held, applyHeld_zones, fun h => applyHeld_port_of_nil h,
      (applyHeld_moves rfl (modZn_moves rfl (.refl _ s))).only⟩
  · refine goesOnWith_of_next rfl ?_
    rw [whenB_of_true (by rw [hsel, hforce]; rfl), getF_applyHeld]
    exact ⟨applyHeld_forcing, applyHeld_held, getF_bumpBy _ znForcedCount _ rfl,
      (applyHeld_moves rfl (bumpBy_moves rfl (modZn_moves rfl (.refl _ s)))).only⟩
  · refine goesOnWith_of_step (f := (evalPin · n)) rfl (evalPin_released hon hunwanted hdue) ?_
    exact ⟨vget_vset _ _ _, fun m hm => vget_vset_ne _ _ hm.symm, (modZn_moves rfl (.refl _ s)).only⟩
  · refine goesOnWith_of_step (f := zoneStaleSt z) rfl (zoneStaleSt_due hcfg hdue) ⟨?_, (markZones_moves rfl (.refl _ s)).only⟩
    obtain ⟨hc, hz⟩ := mem_zonesOf_of_zoneCfg hcfg
    have hbit (x : Nat) : bitOf (x ||| 1) 0 = true := by rw [bitOf_lor, show bitOf 1 0 = true from rfl, Bool.or_true]
    rw [← hz]
    exact markZones_stale (P := fun v => bitOf v 0 = true) (fun x => hbit x.stale) hc (decide_eq_true rfl)
  · refine goesOnWith_of_step (f := znAckSt) rfl (znAckSt_latching hcfg hlatch) ?_
    rw [zoneAt_putZone]
    exact ⟨rfl, rfl, (putZone_moves rfl (.refl _ s)).only⟩
  · refine goesOnWith_served (fun _ => rfl) (mbxServe_staleClear · l) hq hk ?_ ?_
    · exact KeepsQueue.leavesNone mbxStaleClearSt_keepsQueue hq
    · rw [mbxStaleClearSt_unsensed hsense]
      exact ⟨getF_mbxRefuse_code, getF_mbxRefuse_status, mbxRefuse_only.1 .zn (by decide), mbxRefuse_only⟩
  · refine goesOnWith_served (fun _ => rfl) (mbxServe_staleClear · l) hq hk ?_ ?_
    · exact KeepsQueue.leavesNone mbxStaleClearSt_keepsQueue hq
    · rw [mbxStaleClearSt_granted hsense hshot hall]
      exact ⟨getF_mbxAnswer_code, getF_mbxAnswer_status⟩

end Sys2Proof.Laws
end

section
/-! SUPPORT. The housekeeping converters (R318 to R331): what the end of a conversion delivers and takes next, urgent requests, the
external reference, and RTD burn-out. -/

namespace Sys2Proof.Laws
open Sys2Proof Sys2Proof.Machine Sys2Proof.Safety

section
variable {s : State} {n : Fin 4} {d : Int}

/-- The search for the one index that passes a test finds it. -/
theorem find_finRange {k : Nat} {p : Fin k → Bool} {i : Fin k} (h : ∀ j, p j = true ↔ j = i) :
    (List.finRange k).find? p = some i := by
  cases hfind : (List.finRange k).find? p with
  | none => exact absurd ((h i).mpr rfl) (List.find?_eq_none.mp hfind i (List.mem_finRange i))
  | some j => rw [(h j).mp (List.find?_some hfind)]

/-! ### What leaves the readings and the RTDs alone -/

@[simp] theorem logEvent_hk {code island sev unit_ arg : Nat} : (logEvent s code island sev unit_ arg).hk = s.hk :=
  (logEvent_moves (P := [.regs, .log]) rfl (.refl _ s)).only.1 .hk (by decide)

@[simp] theorem loopsRefresh_hk : (loopsRefresh s).hk = s.hk :=
  (loopsRefresh_moves (P := [.zn]) rfl (.refl _ s)).only.1 .hk (by decide)

@[simp] theorem coilSuspend_hk {rtd : Nat} : (coilSuspend s rtd).hk = s.hk :=
  (coilSuspend_moves (P := [.sense]) rfl (.refl _ s)).only.1 .hk (by decide)

@[simp] theorem modLoop_hk {l : Fin 8} {f : LoopSt → LoopSt} : (modLoop s l f).hk = s.hk := rfl

theorem vget_modRtd {f : RtdSt → RtdSt} : vget (modRtd s n f).hk.rtd n = f (vget s.hk.rtd n) := vget_vmod _ _ _

theorem vget_modVal {ch : Fin 32} {f : HkVal → HkVal} : vget (modVal s ch f).hk.vals ch = f (vget s.hk.vals ch) := vget_vmod _ _ _

/-- R324: the end of M0's visit changes which channel is visited, not what was read. -/
@[simp] theorem m0Next_vals : (m0Next s).hk.vals = s.hk.vals := rfl

@[simp] theorem m0Next_rtd : (m0Next s).hk.rtd = s.hk.rtd := rfl

@[simp] theorem m0Next_refAt : (m0Next s).hk.refAt = s.hk.refAt := rfl

@[simp] theorem getF_m0Next {f : Fld} : getF (m0Next s) f = getF s f := getF_of_regs rfl

/-! ### A conversion of M0 ends (R318, R324) -/

theorem m0EndSt_rtd (h : s.hk.m0 = n.val) : m0EndSt d s = m0RtdSt n d s := by
  unfold m0EndSt
  rw [find_finRange (i := n) (fun j => by rw [h, decide_eq_true_iff, Fin.val_inj])]

theorem m0EndSt_ref (h : s.hk.m0 = 4) : m0EndSt d s = m0RefSt d s := by
  unfold m0EndSt
  rw [List.find?_eq_none.mpr (fun j _ => by rw [h, decide_eq_true_iff]; exact j.isLt.ne)]

theorem clampD_over (h : 8388607 ≤ d.natAbs) : (clampD d).2 = true := decide_eq_true h

theorem clampD_inside (h : d.natAbs < 8388607) : clampD d = (d, false) := by
  refine Prod.ext ?_ (decide_eq_false (by omega))
  show clampI _ _ d = d
  rw [clampI, if_neg (by omega), if_neg (by omega)]

/-- R323: an over-range discards the conversion and lowers the gain to 1. -/
theorem m0RtdSt_over (hon : rtdOn s n.val = true) (hopen : (vget s.hk.rtd n).open_ = false) (hd : 8388607 ≤ d.natAbs) :
    m0RtdSt n d s = m0Next (bump (modVal (modRtd s n (fun r => { r with gain := 0 })) ⟨n.val, by omega⟩
      (fun v => { v with over_ := true })) hkDiscardCount) := by
  unfold m0RtdSt
  simp only [hon, hopen, clampD_over hd, Bool.not_true, Bool.or_self, Bool.false_eq_true, if_false, if_true]

/-- R327: orientation A of a three-wire RTD waits for orientation B. -/
theorem m0RtdSt_orientA (hon : rtdOn s n.val = true) (hopen : (vget s.hk.rtd n).open_ = false) (hd : d.natAbs < 8388607)
    (hthree : rtdThree s n.val = true) (hA : s.hk.orientB = false) :
    m0RtdSt n d s = modHk s (fun h => { h with orientB := true, rA := rtdOhms s n.val (vget s.hk.rtd n).gain d }) := by
  unfold m0RtdSt
  simp only [hon, hopen, clampD_inside hd, hthree, hA, Bool.not_true, Bool.not_false, Bool.or_self, Bool.and_self,
    Bool.false_eq_true, if_false, if_true]

/-- R322: channel 4's reading is delivered whether or not it shows drift. -/
theorem m0RefSt_reading (hd : d.natAbs < 8388607) : vget (m0RefSt d s).hk.vals 4
    = { value := Config.hkRefValue d s.hk.refGain, at_ := elapsed s, valid := true, over_ := false, fault := false } := by
  unfold m0RefSt
  split
  next x isOver hclamp =>
  obtain ⟨rfl, rfl⟩ := Prod.mk.inj ((clampD_inside hd).symm.trans hclamp)
  extract_lets s0 v s2 s1
  have h2 : vget s2.hk.vals 4 = { value := v, at_ := elapsed s, valid := true, over_ := false, fault := false } := vget_modVal
  have h1 : s1.hk = s2.hk := by
    unfold s1
    rw [if_neg Bool.false_ne_true]
    split <;> rfl
  rw [m0Next_vals, h1, h2]

theorem m0RefSt_refAt : (m0RefSt d s).hk.refAt = elapsed s := by
  unfold m0RefSt
  split
  extract_lets s0 v s2 s1
  rw [m0Next_refAt]
  unfold s1
  split
  · rfl
  · split <;> rfl

/-! ### M1 takes a conversion (R325, R326) -/

theorem m1Take_frame {c : Nat} {rest : List Nat} (h : s.hk.frame = c :: rest) :
    m1Take s = modHk s (fun k => { k with frame := rest, m1Ch := c, m1Busy := true }) := by
  unfold m1Take
  rw [h]

theorem m1Take_idle (hframe : s.hk.frame = []) (hurgent : s.hk.urgent = []) :
    (m1Take s).hk.m1Busy = false := by
  unfold m1Take
  rw [hframe, hurgent]
  rfl

@[simp] theorem m1Take_vals : (m1Take s).hk.vals = s.hk.vals := by
  unfold m1Take
  split <;> rfl

/-- R325: a frame ends with two rails. -/
theorem frameList_ne_nil : frameList s ≠ [] := List.append_ne_nil_of_right_ne_nil _ (List.cons_ne_nil _ _)

/-- R325: M1 begins with the frame's first conversion where it is idle, and completes the one under way where it is not. -/
theorem m1FrameSt_idle (h : s.hk.m1Busy = false) : m1FrameSt s = m1Take (modHk s (fun h =>
    { h with frame := frameList s, nextDie := (h.nextDie + diePerFrame s) % 18 })) := by
  unfold m1FrameSt
  rw [h]
  rfl

theorem m1FrameSt_busy (h : s.hk.m1Busy = true) : m1FrameSt s = modHk s (fun h =>
    { h with frame := frameList s, nextDie := (h.nextDie + diePerFrame s) % 18 }) := by
  unfold m1FrameSt
  rw [h]
  rfl

/-- R312, R325: a loop's sense voltage ends as its channel's reading and as the loop's sense code. -/
theorem m1EndSt_sense {ch : Fin 32} {l : Fin 8} {v : Int} {o : Bool} (hbusy : s.hk.m1Busy = true) (hch : s.hk.m1Ch = ch.val)
    (hl : ch.val = l.val + 5) : ∃ code, m1EndSt ch v o s = m1Take (modVal (modLoop
      (modVal s ch (fun _ => { value := v, at_ := elapsed s, valid := true, over_ := false, fault := false }))
      l (fun x => { x with sense := code })) ch (fun x => { x with over_ := o })) := by
  refine ⟨senseCode s l.val v, ?_⟩
  have hfind : (List.finRange 8).find? (fun j => decide (j.val + 5 = ch.val)) = some l :=
    find_finRange fun j => by rw [hl, decide_eq_true_iff, Nat.add_right_cancel_iff, Fin.val_inj]
  unfold m1EndSt
  rw [if_pos ⟨hbusy, hch⟩]
  extract_lets put s1
  have h1 : s1 = modLoop (put s) l (fun x => { x with sense := senseCode s l.val v }) := by
    unfold s1
    rw [if_pos (by omega), hfind]
  rw [h1]

/-! ### Urgent requests (R326) -/

theorem urgentSt_queued {ch : Nat} (hlo : 5 ≤ ch) (hhi : ch < 32) (hbusy : s.hk.m1Busy = true) (hroom : s.hk.urgent.length < 4)
    (hnew : ch ∉ s.hk.urgent) : urgentSt ch s = modHk s (fun h => { h with urgent := h.urgent ++ [ch] }) := by
  have hkeep : ¬ (4 ≤ s.hk.urgent.length ∨ s.hk.urgent.contains ch = true) := by
    rw [List.contains_iff_mem, not_or]
    exact ⟨hroom.not_ge, hnew⟩
  unfold urgentSt
  rw [if_pos ⟨hlo, hhi⟩, if_neg hkeep]
  exact if_pos hbusy

theorem urgentSt_dropped {ch : Nat} (hlo : 5 ≤ ch) (hhi : ch < 32) (hdrop : 4 ≤ s.hk.urgent.length ∨ ch ∈ s.hk.urgent) :
    urgentSt ch s = bump s hkUrgentDropCount := by
  unfold urgentSt
  rw [if_pos ⟨hlo, hhi⟩, if_pos (hdrop.imp_right List.contains_iff_mem.mpr)]

/-! ### The external reference (R322) -/

/-- R322: M1 leaves EXT; the fall-back is flagged and logged whether or not a conversion is discarded. -/
theorem refExitSt_ext (h : s.hk.m1Ext = true) : ∃ u, u.hk.extIn = false ∧
    refExitSt s = logEvent (setF (modHk u (fun h => { h with m1Ext := false })) hkStatusRefFallback 1) 0x017 3 1 0 1 := by
  unfold refExitSt
  extract_lets s1
  rw [if_pos h]
  refine ⟨if s.hk.m1Busy then bump s1 hkDiscardCount else s1, ?_, rfl⟩
  split <;> rfl

/-! ### Burn-out (R330, R331) -/

theorem burnoutSt_clean (hon : rtdOn s n.val = true) :
    burnoutSt n 0 s = modRtd s n (fun r => { r with clean := min 64 (r.clean + 1) }) := by
  unfold burnoutSt
  rw [if_pos hon]
  rfl

theorem burnoutSt_opens {balls : BitVec 4} (hon : rtdOn s n.val = true) (hballs : balls ≠ 0)
    (hopen : (vget s.hk.rtd n).open_ = false) : burnoutSt n balls s = rtdOpenSt n balls s := by
  unfold burnoutSt
  simp only [hon, hballs, hopen, Bool.false_eq_true, if_false, if_true]

/-- R330: an RTD found open, whether or not M0 visits it, is marked with its leads. -/
theorem rtdOpenSt_rtd {balls : BitVec 4} : vget (rtdOpenSt n balls s).hk.rtd n
    = { vget s.hk.rtd n with open_ := true, leads := balls, clean := 0, openAt := some (elapsed s) } := by
  unfold rtdOpenSt
  extract_lets s1 s2 s3 s4
  have h1 : vget s1.hk.rtd n = _ := vget_modRtd
  have h3 : s3.hk = s1.hk := logEvent_hk
  have h4 : s4.hk.rtd = s3.hk.rtd := by
    unfold s4
    split <;> rfl
  rw [loopsRefresh_hk, coilSuspend_hk, h4, h3, h1]

theorem getF_rtdOpenSt_seen {balls : BitVec 4} : getF (rtdOpenSt n balls s) (hkRtdStatusOpenSeen n.val) = 1 := by
  have haddr (a : Nat) (ha : a ∉ [0xC808, 0xC809, 0xC80A, 0xC80B]) : (hkRtdStatusOpenSeen n.val).addr ≠ a := by
    have := n.isLt
    show 0xC808 + n.val ≠ a
    simp only [List.mem_cons, List.not_mem_nil, not_or, or_false] at ha
    omega
  unfold rtdOpenSt
  extract_lets s1 s2 s3 s4
  have h3 : getF s3 (hkRtdStatusOpenSeen n.val) = 1 := getF_logEvent_setF rfl (haddr 0xF008 (by decide))
  have h4 : getF s4 (hkRtdStatusOpenSeen n.val) = getF s3 (hkRtdStatusOpenSeen n.val) := by
    unfold s4
    split
    · rw [getF_m0Next, getF_bump_ne _ _ _ (haddr 0xC803 (by decide))]
    · rfl
  have hrest : (loopsRefresh (coilSuspend s4 n.val)).regs = s4.regs :=
    (loopsRefresh_moves (P := [.sense, .zn]) rfl (coilSuspend_moves rfl (.refl _ s4))).only.1 .regs (by decide)
  rw [getF_of_regs hrest, h4, h3]

theorem rtdClearSt_clean (hopen : (vget s.hk.rtd n).open_ = true) (hclean : 64 ≤ (vget s.hk.rtd n).clean) : rtdClearSt n s =
    loopsRefresh (modRtd s n (fun r => { r with open_ := false, leads := 0, openAt := some (elapsed s) })) := by
  unfold rtdClearSt
  exact if_pos ⟨hopen, hclean⟩

end

/-- Settles O33: each end of a conversion, request and pulse goes by the equation of its case, and what follows it (M0's or M1's
next conversion, the log, the coil and the loops) leaves the readings and the RTDs alone. -/
theorem housekeeping : Obligations.Housekeeping := by
  refine ⟨fun s n d hm hon hopen hd => ?_, fun s n d hm hon hopen hd hthree hA => ?_, fun s d hm hd => ?_, fun s hidle => ?_,
    fun s hbusy => ?_, fun s ch v o hbusy hch hlo hhi => ?_, fun s ch hlo hbusy hroom hnew => ?_, fun s ch hlo hdrop => ?_,
    fun s c href => ?_, fun s c href => ?_, fun s hext => ?_, fun s => ?_, fun s n hon => ?_, fun s n b hon hb hopen => ?_,
    fun s n hopen hclean => ?_⟩
  · refine goesOnWith_of_step (f := m0EndSt d) rfl ((m0EndSt_rtd hm).trans (m0RtdSt_over hon hopen hd)) ⟨?_, ?_, ?_, ?_⟩
    · exact congrArg RtdSt.gain vget_modRtd
    · exact congrArg HkVal.over_ vget_modVal
    · rw [getF_m0Next, getF_bump _ _ rfl]
      rfl
    · exact (m0Next_moves rfl (bump_moves rfl (modVal_moves rfl (modRtd_moves rfl (.refl _ s))))).only
  · refine goesOnWith_of_step (f := m0EndSt d) rfl ((m0EndSt_rtd hm).trans (m0RtdSt_orientA hon hopen hd hthree hA)) ?_
    exact ⟨rfl, rfl, hm, rfl, (modHk_moves rfl (.refl _ s)).only⟩
  · refine goesOnWith_of_step (f := m0EndSt d) rfl (m0EndSt_ref hm) ?_
    rw [m0RefSt_reading hd]
    exact ⟨rfl, rfl, rfl, m0RefSt_refAt, (m0RefSt_moves rfl (.refl _ s)).only⟩
  · obtain ⟨c, rest, hframe⟩ := List.exists_cons_of_ne_nil (frameList_ne_nil (s := s))
    refine goesOnWith_of_step (f := m1FrameSt) rfl ((m1FrameSt_idle hidle).trans (m1Take_frame hframe)) ?_
    exact ⟨rfl, rfl, hframe.symm, (modHk_moves rfl (modHk_moves rfl (.refl _ s))).only⟩
  · refine goesOnWith_of_step (f := m1FrameSt) rfl (m1FrameSt_busy hbusy) ?_
    exact ⟨rfl, rfl, (modHk_moves rfl (.refl _ s)).only⟩
  · obtain ⟨code, he⟩ := m1EndSt_sense (l := ⟨ch.val - 5, by omega⟩) (v := v) (o := o) hbusy hch (by show _ = _ - 5 + 5; omega)
    refine goesOnWith_of_step (f := m1EndSt ch v o) rfl he ?_
    rw [m1Take_vals, vget_modVal, modLoop_hk, vget_modVal]
    exact ⟨rfl, rfl, rfl, rfl, fun hframe hurgent => m1Take_idle hframe hurgent,
      (m1Take_moves rfl (modVal_moves rfl (modLoop_moves rfl (modVal_moves rfl (.refl _ s))))).only⟩
  · refine goesOnWith_of_step (f := urgentSt ch.val) rfl (urgentSt_queued hlo ch.isLt hbusy hroom hnew) ?_
    exact ⟨rfl, (modHk_moves rfl (.refl _ s)).only⟩
  · refine goesOnWith_of_step (f := urgentSt ch.val) rfl (urgentSt_dropped hlo ch.isLt hdrop) ?_
    exact ⟨getF_bump _ _ rfl, (bump_moves rfl (.refl _ s)).only⟩
  · refine goesOnWith_of_step (f := notchSt c) rfl (if_neg href) ?_
    exact ⟨rfl, rfl, (modHk_moves rfl (.refl _ s)).only⟩
  · refine goesOnWith_of_step (f := notchSt c) rfl (if_pos href) ?_
    exact ⟨rfl, rfl, (modHk_moves rfl (.refl _ s)).only⟩
  · have honly : changesOnly [.regs, .log, .hk] s (refExitSt s) := (refExitSt_moves rfl (.refl _ s)).only
    obtain ⟨u, hu, he⟩ := refExitSt_ext hext
    rw [he] at honly
    refine goesOnWith_of_step (f := refExitSt) rfl he ?_
    rw [logEvent_hk, setF_hk, modHk_hk]
    exact ⟨rfl, hu, getF_logEvent_setF rfl (by decide), honly⟩
  · exact goesOnWith_of_next rfl ⟨rfl, rfl, (hkChooseRef_moves rfl (modHk_moves rfl (.refl _ s))).only⟩
  · refine goesOnWith_of_step (f := burnoutSt n 0) rfl (burnoutSt_clean hon) ?_
    rw [vget_modRtd]
    exact ⟨rfl, rfl, (modRtd_moves rfl (.refl _ s)).only⟩
  · refine goesOnWith_of_step (f := burnoutSt n b) rfl (burnoutSt_opens hon hb hopen) ?_
    rw [rtdOpenSt_rtd]
    exact ⟨rfl, rfl, rfl, getF_rtdOpenSt_seen, (rtdOpenSt_moves rfl (.refl _ s)).only⟩
  · refine goesOnWith_of_step (f := rtdClearSt n) rfl (rtdClearSt_clean hopen hclean) ?_
    rw [loopsRefresh_hk, vget_modRtd]
    exact ⟨rfl, rfl, (loopsRefresh_moves rfl (modRtd_moves rfl (.refl _ s))).only⟩

end Sys2Proof.Laws
end

section
/-! SUPPORT. The clocks in a step that has no command: device time and elapsed time rise by one tick, and nothing else that happens
in it moves them (R337, R339). -/

namespace Sys2Proof.Laws
open Sys2Proof Sys2Proof.Machine Sys2Proof.Safety

section
variable {s : State} {i j : Instr} {w : BitVec 40} {n : Nat}

/-! ### What a custom kernel executes -/

/-- The command, wherever it answers a next state, moves neither device time nor elapsed time. -/
def KeepsClocks (i : Instr) : Prop := ∃ ps, Confined ps i ∧ Part.now ∉ ps ∧ Part.up ∉ ps

theorem Confined.keepsClocks {ps : List Part} (h : Confined ps i) (hnow : Part.now ∉ ps) (hup : Part.up ∉ ps) : KeepsClocks i :=
  ⟨ps, h, hnow, hup⟩

/-- An instruction that changes what a lane instruction changes. -/
theorem Confined.lane_keepsClocks (h : Confined laneParts i) : KeepsClocks i := h.keepsClocks (by decide) (by decide)

theorem KeepsClocks.of_some (h : KeepsClocks i) (e : some i = some j) : KeepsClocks j := Option.some.inj e ▸ h

theorem KeepsClocks.of_ifLow (h : KeepsClocks i) (e : ifLow w n i = some j) : KeepsClocks j := by
  unfold ifLow at e
  split at e
  · exact h.of_some e
  · cases e

theorem decodePort_keepsClocks {t : Fin 8} (e : decodePort t w = some j) : KeepsClocks j := by
  unfold decodePort at e
  extract_lets p at e
  split at e
  · exact (portInput_confined _ _ _ _).lane_keepsClocks.of_some e
  · exact (portInput_confined _ _ _ _).lane_keepsClocks.of_some e
  · exact (portDramRead_confined _ _ _).lane_keepsClocks.of_some e
  · exact ((portDramWrite_confined _ _ _).keepsClocks (by decide) (by decide)).of_some e
  · exact (portXbufRead_confined _ _ _ _).lane_keepsClocks.of_some e
  · exact ((portXbufWrite_confined _ _ _ _).keepsClocks (by decide) (by decide)).of_some e
  · cases e

theorem decodeR_keepsClocks {t : Fin 8} (e : decodeR t w = some j) : KeepsClocks j := by
  unfold decodeR at e
  extract_lets p r at e
  split at e
  · exact (alu_confined _ _ _).lane_keepsClocks.of_some e
  · exact (alud_confined _ _ _).lane_keepsClocks.of_some e
  · exact (cmp_confined _ _ _).lane_keepsClocks.of_some e
  · exact (sel_confined _ _ _).lane_keepsClocks.of_some e
  · exact (mac_confined _ _ _).lane_keepsClocks.of_some e
  · exact (cmac_confined _ _ _).lane_keepsClocks.of_some e
  · exact (dmac_confined _ _ _).lane_keepsClocks.of_some e
  · exact (aop_confined _ _ _).lane_keepsClocks.of_some e
  · exact (ash_confined _ _ _).lane_keepsClocks.of_some e
  · exact (atst_confined _ _ _).lane_keepsClocks.of_some e
  · exact (gmac_confined _ _ _).lane_keepsClocks.of_some e
  · exact (atan_confined _ _ _).lane_keepsClocks.of_some e
  · exact (mag_confined _ _ _).lane_keepsClocks.of_some e
  · exact (mag2_confined _ _ _).lane_keepsClocks.of_some e
  · exact (unit_confined _ _ _).lane_keepsClocks.of_some e
  · exact (rot_confined _ _ _).lane_keepsClocks.of_some e
  · exact (lnr_confined _ _ _).lane_keepsClocks.of_some e
  · exact (dbl_confined _ _ _).lane_keepsClocks.of_some e
  · exact (expw_confined _ _ _).lane_keepsClocks.of_some e
  · exact (div_confined _ _ _).lane_keepsClocks.of_some e
  · exact (maxi_confined _ _ _).lane_keepsClocks.of_some e
  · exact (mini_confined _ _ _).lane_keepsClocks.of_some e
  · exact (xch_confined _ _ _).lane_keepsClocks.of_some e
  · cases e

/-- R18, R230: every instruction that a word of a traverse's store spells is one of the lanes', and none of those moves the clocks. -/
theorem decodeLane_keepsClocks {t : Fin 8} (e : decodeLane t w = some j) : KeepsClocks j := by
  unfold decodeLane at e
  extract_lets p at e
  split at e
  · exact (nop_confined _).lane_keepsClocks.of_some e
  · exact (rep_confined _ _ _ _ _).lane_keepsClocks.of_some e
  · exact (br_confined _ _ _ _).lane_keepsClocks.of_some e
  · exact ((end_confined _).keepsClocks (by decide) (by decide)).of_some e
  · exact (hook_confined _ _).lane_keepsClocks.of_some e
  · exact (mode_confined _ _).lane_keepsClocks.of_some e
  · exact (aovclr_confined _ _).lane_keepsClocks.of_some e
  · exact (wait_confined _ _).lane_keepsClocks.of_some e
  · exact (ld_confined _ _ _).lane_keepsClocks.of_ifLow e
  · exact (ldp_confined _ _ _).lane_keepsClocks.of_ifLow e
  · exact (st_confined _ _ _).lane_keepsClocks.of_ifLow e
  · exact (stp_confined _ _ _).lane_keepsClocks.of_ifLow e
  · exact (ald_confined _ _ _).lane_keepsClocks.of_ifLow e
  · exact (ast_confined _ _ _).lane_keepsClocks.of_ifLow e
  · exact (xld_confined _ _ _).lane_keepsClocks.of_some e
  · exact (xadd_confined _ _ _).lane_keepsClocks.of_some e
  · exact (alui_confined _ _ _).lane_keepsClocks.of_some e
  · exact (cmpi_confined _ _ _).lane_keepsClocks.of_some e
  · exact (movi_confined _ _ _ _ _).lane_keepsClocks.of_ifLow e
  · split at e
    · exact decodePort_keepsClocks e
    · cases e
  · exact ((out_confined _ _ _).keepsClocks (by decide) (by decide)).of_ifLow e
  · exact (prm_confined _ _ _).lane_keepsClocks.of_some e
  · split at e
    · exact decodeR_keepsClocks e
    · cases e

/-! ### A tick -/

/-- Device time, elapsed time and the waiting commands. -/
def clockView (s : State) : Nat × Nat × List Instr := (s.now, s.up, s.pending)

theorem clockView_of_moves {ps : List Part} {t : State} (h : Moves ps s t) (hnow : Part.now ∉ ps) (hup : Part.up ∉ ps) :
    clockView t = clockView s := by
  have enow : t.now = s.now := h.only.1 .now hnow
  have eup : t.up = s.up := h.only.1 .up hup
  unfold clockView
  rw [enow, eup, h.only.2]

theorem clockView_advance (now up : Nat) : clockView { s with now := now, up := up } = (now, up, s.pending) := rfl

theorem kernelInstr_clockView (s : State) (t : Fin 8) : clockView (kernelInstr s t) = clockView s := by
  unfold kernelInstr
  split
  · rfl
  · split
    · exact clockView_of_moves (kernelFault_moves (P := laneParts) rfl (.refl _ s)) (by decide) (by decide)
    next i hi =>
      obtain ⟨ps, hc, hnow, hup⟩ := decodeLane_keepsClocks hi
      split
      next u hu => exact clockView_of_moves (hc s u hu) hnow hup
      · rfl

theorem dacNow_clockView (s : State) (l : Fin 2) : clockView (dacNow s l) = clockView s :=
  clockView_of_moves (dacNow_moves (P := [.regs, .log, .probe]) rfl (.refl _ s)) (by decide) (by decide)

theorem strike_clockView (u : Nat × Nat × Nat) : clockView (strike s u) = clockView s := rfl

/-- R337, R339: a tick adds the increment to both clocks; device time stops at its greatest value. -/
theorem tick_clockView : clockView (tick s) = (min timeTop (s.now + tickInc s), s.up + tickInc s, s.pending) := by
  unfold tick
  extract_lets next s0 s1 s2
  have h0 : Moves [.regs, .net, .freeCtr] s s0 := .folded (fun _ _ k => quadTick_moves rfl k) (levelTick_moves rfl (.refl _ s))
  have h1 : Moves [.regs, .log, .trav, .net, .code, .freeCtr] s s1 := .ite (secondEnd_moves rfl (h0.mono rfl)) (h0.mono rfl)
  have h2 : Moves [.regs, .log, .trav, .net, .code, .freeCtr] s s2 := .ite (.setTrav rfl h1) h1
  rw [foldl_keeps dacNow_clockView, clockView_advance, h2.only.2]

theorem idle_clockView : clockView (idle s) = (min timeTop (s.now + tickInc s), s.up + tickInc s, s.pending) := by
  unfold idle
  extract_lets s1 s2
  have h2 : clockView s2 = clockView (tick s) := by
    unfold s2
    split
    · rfl
    · exact strike_clockView _
  exact (foldl_keeps kernelInstr_clockView _).trans (h2.trans tick_clockView)

end

/-- Settles O47: a step is the command at the front, or with none waiting the tick, which moves both clocks by the increment. -/
theorem stepTakesTheFront : Obligations.StepTakesTheFront := by
  refine ⟨fun s c rest h => ?_, fun s h => ⟨idle s, ?_, rfl, ?_⟩⟩
  · unfold step
    rw [h]
  · unfold step
    rw [h]
  · have hview := idle_clockView (s := s)
    simp only [clockView, Prod.mk.injEq] at hview
    obtain ⟨hnow, hup, hpending⟩ := hview
    exact ⟨hnow, hup, hpending.trans h⟩

end Sys2Proof.Laws
end

section
/-! SUPPORT. Usable set points of DRAM (R425): what DRAM_FREQ to another answers. -/

namespace Sys2Proof.Laws
open Sys2Proof Sys2Proof.Machine Sys2Proof.Safety

section
variable {s : State} {sp : Fin 3} {ch : Fin 4}

theorem trained_of_spUsable (h : spUsable s sp.val = true) (hs : (vget s.mem.ch ch).inService = true) :
    bitOf (vget s.mem.ch ch).trained sp.val = true := by
  unfold spUsable at h
  obtain ⟨hall, -⟩ := Bool.and_eq_true_iff.1 h
  have hch := List.all_eq_true.1 hall ch (List.mem_finRange ch)
  rwa [hs, Bool.not_true, Bool.false_or] at hch

theorem spUsable_of_untrained (hs : (vget s.mem.ch ch).inService = true) (ht : bitOf (vget s.mem.ch ch).trained sp.val = false) :
    spUsable s sp.val = false := by
  rw [Bool.eq_false_iff]
  intro h
  exact Bool.false_ne_true (ht.symm.trans (trained_of_spUsable h hs))

end

/-- Settles O57: a set point at which an in-service channel is UNTRAINED is not usable, and DRAM_FREQ to it is refused by the state of
self-refresh or by the condition, before memory is touched. -/
theorem usableSetPoint : Obligations.UsableSetPoint := by
  refine ⟨fun s ch sp => (Bool.eq_false_or_eq_true _), fun s sp h ch hs => trained_of_spUsable h hs, fun s sp ch hk hq hs ht => ?_⟩
  refine goesOnWith_served (fun _ => rfl) (mbxServe_dramFreq · sp) hq hk (KeepsQueue.leavesNone mbxDramFreqSt_keepsQueue hq) ?_
  cases hr : s.mem.selfRefresh with
  | true =>
    rw [mbxDramFreqSt_state hr, getF_mbxAnswer_status]
    exact ⟨(mbxAnswer_only (P := [.regs, .keeper]) rfl).1 .mem (by decide), getF_mbxAnswer_code, by decide⟩
  | false =>
    rw [mbxDramFreqSt_refused hr (.inr (spUsable_of_untrained hs ht)), getF_mbxRefuse_status]
    exact ⟨mbxRefuse_only.1 .mem (by decide), getF_mbxRefuse_code, by decide⟩

end Sys2Proof.Laws
end

section
/-! SUPPORT. A READ of one register (R395, R457, R462, R465): what each check answers, and what a read leaves. -/

namespace Sys2Proof.Laws
open Sys2Proof Sys2Proof.Machine Sys2Proof.Safety

section
variable {s t : State} {p : Path} {a b v m : Nat}

/-! ### The register -/

theorem regReadRc_eq : regReadRc s a = ((regRead s a).1, clearRc (regRead s a).2 a) := rfl

theorem regRead_regs : (regRead s a).2.regs = s.regs := by
  unfold regRead
  dsimp only
  split <;> rfl

theorem and_complement (x : Nat) : x &&& (2 ^ 20 - 1 - m) &&& m = 0 := by
  refine Nat.eq_of_testBit_eq fun i => ?_
  rw [Nat.testBit_and, Nat.testBit_and, Nat.zero_testBit]
  by_cases hm : m < 2 ^ 20
  · rw [show 2 ^ 20 - 1 - m = 2 ^ 20 - (m + 1) by omega, Nat.testBit_two_pow_sub_succ hm]
    cases m.testBit i <;> simp
  · rw [show 2 ^ 20 - 1 - m = 0 by omega, Nat.zero_testBit, Bool.and_false, Bool.false_and]

/-- R465: the RC fields are 0 after the read. -/
theorem regGet_clearRc : regGet (clearRc s a) a &&& regMask (fun r => decide (r.acc = .rc)) a = 0 := by
  have hlt : regGet s a &&& (2 ^ 20 - 1 - regMask (fun r => decide (r.acc = .rc)) a) < 2 ^ 20 :=
    Nat.lt_of_le_of_lt Nat.and_le_left (regGet_lt s a)
  unfold clearRc
  rw [regGet_put, Nat.mod_eq_of_lt hlt, and_complement]

theorem regGet_regReadRc_ne (h : b ≠ a) : regGet (regReadRc s a).2 b = regGet s b :=
  (regGet_put_ne _ _ h).trans (regGet_of_regs regRead_regs b)

/-! ### The register on a path (R462) -/

theorem pathRead_plain (hlo : isLo a = false) (hs : (pathOf s p).shadow = none) : pathRead s p a = regReadRc s a := by
  unfold pathRead
  simp only [hs, hlo, Bool.false_eq_true, if_false]

theorem pathRead_lo (hlo : isLo a = true) (hs : (pathOf s p).shadow = none) : pathRead s p a = ((regRead s a).1,
    modPath (regReadRc s a).2 p (fun x => { x with shadow := some (a + 1, (regRead s (a + 1)).1) })) := by
  unfold pathRead
  simp only [hs, hlo, if_true]
  rfl

theorem pathRead_shadow (hs : (pathOf s p).shadow = some (a, v)) :
    pathRead s p a = (v, modPath s p (fun x => { x with shadow := none })) := by
  unfold pathRead
  simp only [hs, if_true]

/-! ### The transaction -/

/-- R395, R457: the checks in their order, for one register. -/
theorem readRegs_one : readRegs s p a 1
    = if (regDefined a && regBusy s a) = true then (stBusy, [0], s)
      else if regDefined a = true then (stOk, [(pathRead s p a).1], (pathRead s p a).2)
      else (stUnmapped, [0], s) := by
  unfold readRegs readAll
  simp only [addrsOf_one, List.any_cons, List.any_nil, List.all_cons, List.all_nil, Bool.or_false, Bool.and_true, ne_eq,
    not_true_eq_false, decide_false, Bool.false_eq_true, Nat.one_ne_zero, Nat.not_ofNat_lt_one, or_self, if_false, List.foldl_cons,
    List.foldl_nil, List.nil_append]
  cases regDefined a <;> rfl

theorem readRegs_unmapped (h : regDefined a = false) : readRegs s p a 1 = (stUnmapped, [0], s) := by
  rw [readRegs_one, h]
  rfl

theorem readRegs_busy (h : regDefined a = true) (hb : regBusy s a = true) : readRegs s p a 1 = (stBusy, [0], s) := by
  rw [readRegs_one, h, hb]
  rfl

theorem readRegs_mapped (h : regDefined a = true) (hb : regBusy s a = false) :
    readRegs s p a 1 = (stOk, [(pathRead s p a).1], (pathRead s p a).2) := by
  rw [readRegs_one, h, hb]
  rfl

theorem readRegs_empty : readRegs s p a 0 = (stBadRequest, [], s) := rfl

theorem readSt_eq {c st : Nat} {vs : List Nat} (e : readRegs s p a c = (st, vs, t)) : readSt p a c s = pathAnswer t p st 0 vs := by
  unfold readSt
  rw [e]

theorem linkReadSt_eq {l : Fin 3} {tag src c st : Nat} {vs : List Nat} (e : readRegs s (linkPath l) a c = (st, vs, t)) :
    linkReadSt l tag src a c s = respond (pathAnswer t (linkPath l) st 0 vs) l 0x103 src tag
      ([BitVec.ofNat 10 st, 0] ++ vs.flatMap (wordsOf 2)) := by
  unfold linkReadSt
  rw [e]

/-- R457: a WRITE that passes owner and class finds the island held. -/
theorem writeSt_busy (h : regDefined a = true) (hb : benchOwned a m = false) (hc : classOk s a m = true) (hbusy : regBusy s a = true) :
    writeSt p a m [v] s = pathAnswer s p stBusy 0 [0] := by
  unfold writeSt
  rw [writeRegs_one, if_neg (by rw [h]; decide), if_neg (by rw [hb]; decide), hc, Bool.not_true, Bool.and_false,
    if_neg Bool.false_ne_true, if_pos hbusy]

/-- R457: the blocks of the management units themselves are never busy. -/
theorem regBusy_management (h : a / 1024 = 0 ∨ a / 1024 = 1 ∨ a / 1024 = 0x31 ∨ a / 1024 = 0x3C) : regBusy s a = false := by
  have hin : [0x000, 0x001, 0x031, 0x03C].contains (a / 1024) = true := by
    rcases h with h | h | h | h <;> rw [h] <;> rfl
  unfold regBusy
  rw [hin]
  rfl

/-! ### A READ as a command -/

/-- R457: a READ of one register that answers at once changes no more than its path. -/
theorem readSt_answered {st : Nat} {vs : List Nat} (e : readRegs s p a 1 = (st, vs, s)) :
    (pathOf (readSt p a 1 s) p).status = st ∧ (pathOf (readSt p a 1 s) p).values = vs ∧ Moves [.mgmt] s (readSt p a 1 s) := by
  rw [readSt_eq e, pathOf_pathAnswer]
  exact ⟨rfl, rfl, pathAnswer_only⟩

/-- R390: a READ is within its type's limit. -/
theorem frameOk_read {src tag n k : Nat} : frameOk (rxFrame s 0x101 src tag (wordsOf 2 n ++ wordsOf 1 k)) = true := by
  have e : frameLimit 0x101 = some 3 := rfl
  simp only [frameOk, rxFrame, e, List.length_append, wordsOf_length]
  rfl

/-- R395: a READ on a link that is ACTIVE, behind the note of its frame. -/
theorem exec_read {l : Fin 3} {tag src n : Nat} {x : BitVec 20} (hu : linkUp s l = true) :
    exec (.read l tag src x n) s = .next (linkReadSt l tag src x.toNat (n % 1024)
      (noteRx s l (rxFrame s 0x101 src tag (wordsOf 2 x.toNat ++ wordsOf 1 n)))) :=
  congrArg _ (receive_accepted hu frameOk_read)

theorem regBusy_noteRx {l : Fin 3} {f : Frame} : regBusy (noteRx s l f) a = regBusy s a := rfl

theorem pathOf_noteRx {l : Fin 3} {f : Frame} : pathOf (noteRx s l f) p = pathOf s p := rfl

theorem pathOf_respond {l : Fin 3} {ftype src tag : Nat} {ws : List Word} : pathOf (respond s l ftype src tag ws) p = pathOf s p :=
  pathOf_of_moves (respond_moves (P := [.net]) rfl (.refl _ s)) (by decide)

theorem regs_respond {l : Fin 3} {ftype src tag : Nat} {ws : List Word} : (respond s l ftype src tag ws).regs = s.regs :=
  (respond_moves (P := [.net]) rfl (.refl _ s)).only.1 .regs (by decide)

end

/-- Settles O44: an unmapped or busy register is answered at once; another gives its value or its shadow, and loses its RC bits. -/
theorem registerReads : Obligations.RegisterReads := by
  refine ⟨fun s p a h hb hlo hs => ?_, fun s p a h hb hlo hs => ?_, fun s p a v h hb hs => ?_, fun s p a h => ?_,
    fun s p a h hb => ?_, fun s l tag src a n hu hn => ?_, fun s l tag src a hu h hb hlo hs => ?_⟩
  · have e := (readRegs_mapped (p := p) h hb).trans (by rw [pathRead_plain hlo hs])
    refine goesOnWith_of_step (f := readSt p a.toNat 1) rfl (readSt_eq e) ?_
    rw [pathOf_pathAnswer]
    exact ⟨rfl, rfl, regGet_clearRc, fun b hne => regGet_regReadRc_ne hne, (pathAnswer_moves rfl (regReadRc_moves rfl (.refl _ s))).only⟩
  · have e := (readRegs_mapped (p := p) h hb).trans (by rw [pathRead_lo hlo hs])
    refine goesOnWith_of_step (f := readSt p a.toNat 1) rfl (readSt_eq e) ?_
    rw [pathOf_pathAnswer, pathOf_modPath]
    exact ⟨rfl, rfl, rfl, (pathAnswer_moves rfl (modPath_moves rfl (regReadRc_moves rfl (.refl _ s)))).only⟩
  · have e := (readRegs_mapped (p := p) h hb).trans (by rw [pathRead_shadow hs])
    refine goesOnWith_of_step (f := readSt p a.toNat 1) rfl (readSt_eq e) ?_
    rw [pathOf_pathAnswer, pathOf_modPath]
    exact ⟨rfl, rfl, rfl, (pathAnswer_moves rfl (modPath_moves rfl (.refl _ s))).only⟩
  · obtain ⟨hst, hvs, hmoves⟩ := readSt_answered (readRegs_unmapped (s := s) (p := p) h)
    exact goesOnWith_of_next rfl ⟨hst, hvs, hmoves.only⟩
  · obtain ⟨hst, -, hmoves⟩ := readSt_answered (readRegs_busy (p := p) h hb)
    exact goesOnWith_of_next rfl ⟨hst, hmoves.only⟩
  · have e := exec_read (tag := tag) (src := src) (n := n) (x := a) hu
    rw [hn, linkReadSt_eq readRegs_empty] at e
    refine goesOnWith_of_next e ?_
    rw [pathOf_respond, pathOf_pathAnswer]
    exact ⟨rfl, rfl, (respond_moves rfl (pathAnswer_moves rfl (noteRx_moves rfl (.refl _ s)))).only⟩
  · have e := exec_read (tag := tag) (src := src) (n := 1) (x := a) hu
    rw [linkReadSt_eq ((readRegs_mapped h (regBusy_noteRx.trans hb)).trans
      (by rw [pathRead_plain hlo (congrArg PathSt.shadow pathOf_noteRx |>.trans hs)])) ] at e
    refine goesOnWith_of_next e ?_
    rw [pathOf_respond, pathOf_pathAnswer]
    refine ⟨rfl, fun b hne => (regGet_of_regs regs_respond b).trans (regGet_regReadRc_ne hne), ?_⟩
    exact (respond_moves rfl (pathAnswer_moves rfl (regReadRc_moves rfl (noteRx_moves rfl (.refl _ s))))).only

/-- Settles O56: what no register defines is UNMAPPED and what is held is BUSY, on both kinds of access; neither changes a register. -/
theorem unmappedAndBusy : Obligations.UnmappedAndBusy := by
  refine ⟨fun s p a h => ?_, fun s p a v m h => ?_, fun s p a h hb => ?_, fun s p a v m h hown hc hb => ?_,
    fun s a h => regBusy_management h⟩
  · obtain ⟨hst, hvs, hmoves⟩ := readSt_answered (readRegs_unmapped (s := s) (p := p) h)
    exact goesOnWith_of_next rfl ⟨hst, hvs, hmoves.only.1 .regs (by decide)⟩
  · exact goesOnWith_of_next ((exec_registerWrite s p a v m).trans (congrArg _ (writeSt_unmapped h)))
      ⟨congrArg PathSt.status pathOf_pathAnswer, pathAnswer_regs, pathAnswer_fu⟩
  · obtain ⟨hst, -, hmoves⟩ := readSt_answered (readRegs_busy (p := p) h hb)
    exact goesOnWith_of_next rfl ⟨hst, hmoves.only.1 .regs (by decide)⟩
  · exact goesOnWith_of_next ((exec_registerWrite s p a v m).trans (congrArg _ (writeSt_busy h hown hc hb)))
      ⟨congrArg PathSt.status pathOf_pathAnswer, pathAnswer_regs, pathAnswer_fu⟩

end Sys2Proof.Laws
end

section
/-! SUPPORT. The channels of the TDC as the time island holds them, their calibrations, and the frequency reference (R338, R339, R353
to R357). -/

namespace Sys2Proof.Laws
open Sys2Proof Sys2Proof.Machine Sys2Proof.Safety

/-- A property that every step keeps, and that the step of x brings about, holds after a fold over a list with x in it. -/
theorem foldl_establishes {α β : Type} {p : β → Prop} {g : β → α → β} (keep : ∀ b y, p b → p (g b y)) {x : α} (make : ∀ b, p (g b x))
    {l : List α} {b : β} (h : x ∈ l) : p (l.foldl g b) := by
  induction l generalizing b with
  | nil => cases h
  | cons y l ih =>
    rcases List.mem_cons.1 h with rfl | h
    · exact List.foldlRecOn l g (make b) fun _ hb y _ => keep _ y hb
    · exact ih h

section
variable {s t : State} {c d : Fin 9} {code : Nat} {f : TdcCh → TdcCh}

/-! ### A channel -/

theorem modTdc_ch : vget (modTdc s c f).time.ch c = f (vget s.time.ch c) := vget_vmod _ _ _

theorem modTdc_ch_ne (h : c ≠ d) : vget (modTdc s c f).time.ch d = vget s.time.ch d := vget_vmod_ne _ _ h

@[simp] theorem logEvent_time {code island sev unit_ arg : Nat} : (logEvent s code island sev unit_ arg).time = s.time :=
  (logEvent_moves (P := [.regs, .log]) rfl (.refl _ s)).only.1 .time (by decide)

/-- What the time island holds beside its channels. -/
def timebase (s : State) : TimeSt := { s.time with ch := State.reset.time.ch }

theorem setHk_timebase (s : State) (x : HkSt) : timebase { s with hk := x } = timebase s := rfl

theorem setHk_time (s : State) (x : HkSt) : ({ s with hk := x } : State).time = s.time := rfl

theorem modTdc_timebase : timebase (modTdc s c f) = timebase s := rfl

/-! ### A calibration ends without a table (R355) -/

/-- R355: what a failed calibration leaves in its channel. -/
def failedCal (at_ : Nat) (x : TdcCh) : TdcCh := { x with cal := none, retryAt := some (at_ + 10 * secU) }

theorem failTdcCal_idle (h : (vget s.time.ch c).cal = none) : failTdcCal s c code = s := by
  unfold failTdcCal
  rw [h]
  rfl

theorem failTdcCal_running (h : (vget s.time.ch c).cal.isSome = true) : failTdcCal s c code =
    logEvent (bump (setF (setF (modTdc s c (failedCal (elapsed s))) tdCalfailFail (getF s tdCalfailFail ||| 2 ^ c.val)) tdCalfailCode code)
      (tdCalRejectCount c.val)) 0x026 2 1 0 (c.val + 16 * code) := if_pos h

theorem failTdcCal_time (h : (vget s.time.ch c).cal.isSome = true) :
    (failTdcCal s c code).time = (modTdc s c (failedCal (elapsed s))).time := by
  rw [failTdcCal_running h, logEvent_time]
  rfl

theorem failTdcCal_timebase : timebase (failTdcCal s c code) = timebase s := by
  cases h : (vget s.time.ch c).cal with
  | none => rw [failTdcCal_idle h]
  | some k =>
    have e := failTdcCal_time (code := code) (h ▸ rfl : (vget s.time.ch c).cal.isSome = true)
    unfold timebase
    rw [e]
    rfl

theorem failTdcCal_cal : (vget (failTdcCal s c code).time.ch c).cal = none := by
  cases h : (vget s.time.ch c).cal with
  | none => rw [failTdcCal_idle h, h]
  | some k => rw [failTdcCal_time (h ▸ rfl), modTdc_ch]; rfl

theorem failTdcCal_ch_ne (h : c ≠ d) : vget (failTdcCal s c code).time.ch d = vget s.time.ch d := by
  cases hk : (vget s.time.ch c).cal with
  | none => rw [failTdcCal_idle hk]
  | some k => rw [failTdcCal_time (hk ▸ rfl), modTdc_ch_ne h]

theorem failTdcCal_stays (h : (vget s.time.ch d).cal = none) : (vget (failTdcCal s c code).time.ch d).cal = none := by
  by_cases hd : c = d
  · rw [hd, failTdcCal_cal]
  · rw [failTdcCal_ch_ne hd, h]

/-- R339: after a failure on every channel none calibrates. -/
theorem failTdcCal_all (c : Fin 9) : (vget ((List.finRange 9).foldl (fun s c => failTdcCal s c code) s).time.ch c).cal = none :=
  foldl_establishes (p := fun s => (vget s.time.ch c).cal = none) (g := fun s c => failTdcCal s c code)
    (fun _ _ h => failTdcCal_stays h) (fun _ => failTdcCal_cal) (List.mem_finRange c)

/-! ### A calibration starts (R356) -/

/-- R356: what a calibration that starts leaves in its channel. -/
def startedCal (die : Int) (at_ : Nat) (x : TdcCh) : TdcCh := { x with cal := some { die := die, at_ := at_, hist := [] }, retryAt := none }

theorem startTdcCal_starts (h : (vget s.time.ch c).cal = none) (hr : s.time.freqRef ≠ 3) :
    startTdcCal s c = modTdc s c (startedCal (s.time.die.getD 0) (elapsed s)) := by
  unfold startTdcCal
  rw [h, decide_eq_false hr]
  rfl

theorem startTdcCal_timebase : timebase (startTdcCal s c) = timebase s := by
  unfold startTdcCal
  split <;> rfl

/-! ### The frequency reference -/

theorem restartCals_timebase : timebase (restartCals s) = timebase s := by
  unfold restartCals
  refine foldl_keeps (f := timebase) (fun s c => ?_) _
  split
  · exact startTdcCal_timebase.trans failTdcCal_timebase
  · rfl

@[simp] theorem setInc_time {n : Nat} : (setInc s n).time = s.time := rfl

/-- R338: the switch takes the best reference and leaves the presence of TREF_IN. -/
theorem switchRef_refs : (switchRef s).time.freqRef = refBest s ∧ (switchRef s).time.trefPresent = s.time.trefPresent := by
  unfold switchRef
  dsimp only [draw]
  split
  next h => exact ⟨h.symm, rfl⟩
  · rw [logEvent_time]
    split <;> exact ⟨rfl, rfl⟩

theorem timeRefs_timebase : timebase (timeRefs s) = timebase (switchRef s) := by
  unfold timeRefs
  extract_lets s1
  split
  · rfl
  · split
    · exact (setHk_timebase _ _).trans (foldl_keeps (f := timebase) (fun _ _ => failTdcCal_timebase) _)
    · exact restartCals_timebase

/-- R338: the time island ends on the best reference. -/
theorem timeRefs_freqRef : (timeRefs s).time.freqRef = refBest s :=
  (congrArg TimeSt.freqRef timeRefs_timebase).trans switchRef_refs.1

theorem timeRefs_trefPresent : (timeRefs s).time.trefPresent = s.time.trefPresent :=
  (congrArg TimeSt.trefPresent timeRefs_timebase).trans switchRef_refs.2

theorem timeRefs_only : changesOnly [.regs, .log, .time, .hk, .freeCtr] s (timeRefs s) := (timeRefs_moves rfl (.refl _ s)).only

/-- R339: with no reference every running calibration fails, and the notch centres run free. -/
theorem timeRefs_stopped (h : refBest s = 3) (hr : s.time.freqRef ≠ 3) : timeRefs s =
    { ((List.finRange 9).foldl (fun s c => failTdcCal s c 3) (switchRef s)) with hk := { (switchRef s).hk with notchFree := true } } := by
  have e : (switchRef s).time.freqRef = 3 := switchRef_refs.1.trans h
  unfold timeRefs
  dsimp only
  rw [if_neg (fun h3 => hr (h3.symm.trans e)), if_pos e]

end

/-- Settles O35: every change of a reference ends on the best one, and the loss of the last fails each calibration in turn. -/
theorem timeReferences : Obligations.TimeReferences := by
  refine ⟨fun s b => ?_, fun s => ?_, fun s h hr => ?_, fun s h => ?_⟩
  · have honly := (timeRefs_moves (P := [.regs, .log, .time, .hk, .freeCtr]) rfl
      (modTime_moves (f := fun t => { t with trefPresent := true, tref100 := b }) rfl (.refl _ s))).only
    exact goesOnWith_of_next rfl ⟨timeRefs_trefPresent, timeRefs_freqRef, honly.1 .now (by decide), honly⟩
  · have honly := (timeRefs_moves (P := [.regs, .log, .time, .hk, .freeCtr]) rfl
      (modTime_moves (f := fun t => { t with trefPresent := false }) rfl (.refl _ s))).only
    exact goesOnWith_of_next rfl ⟨timeRefs_trefPresent, timeRefs_freqRef, honly.1 .now (by decide), honly⟩
  · refine goesOnWith_of_step (f := fun s => whenB _ s (timeRefs s)) rfl (whenB_of_true (decide_eq_true h)) ?_
    refine ⟨timeRefs_freqRef.trans h, fun c => ?_, ?_, timeRefs_only⟩
    · rw [timeRefs_stopped h hr, setHk_time]
      exact failTdcCal_all c
    · rw [timeRefs_stopped h hr]
  · exact goesOnWith_of_step (f := fun s => whenB _ s (timeRefs s)) rfl (whenB_of_true (decide_eq_true h)) ⟨timeRefs_freqRef, timeRefs_only⟩

end Sys2Proof.Laws
end

section
/-! SUPPORT. What a calibration of a TDC channel leaves in the channel and in its registers, and the monitor of a line's launches
(R353 to R357). -/

namespace Sys2Proof.Laws
open Sys2Proof Sys2Proof.Machine Sys2Proof.Safety

section
variable {s t : State} {c : Fin 9} {code : Nat} {k : TdcCal} {h : List Nat} {l : Fin 2} {win at_ : Nat} {b : Bool}
  {rest : List (Nat × Bool)}

/-- An event changes one register, its own counter. -/
theorem getF_logEvent {f : Fld} {code island sev unit_ arg : Nat} (h : f.addr ≠ 0xF008) :
    getF (logEvent s code island sev unit_ arg) f = getF s f :=
  getF_of_writes (logEvent_writes (A := [0xF008]) (by simp) (.refl _ _)) (by simpa using h)

/-! ### The registers of a failure (R355) -/

theorem tdCalRejectCount_addr : (tdCalRejectCount c.val).addr = 0xD06 + 8 * c.val := rfl

theorem calfail_addr_ne_reject : 0xC01 ≠ (tdCalRejectCount c.val).addr := by
  rw [tdCalRejectCount_addr]
  omega

theorem failTdcCal_code (hk : (vget s.time.ch c).cal.isSome = true) : getF (failTdcCal s c code) tdCalfailCode = code % 8 := by
  rw [failTdcCal_running hk, getF_logEvent (by decide), getF_bump_ne _ _ _ calfail_addr_ne_reject, getF_setF _ _ _ rfl]
  rfl

theorem failTdcCal_flag (hk : (vget s.time.ch c).cal.isSome = true) : bitOf (getF (failTdcCal s c code) tdCalfailFail) c.val = true := by
  rw [failTdcCal_running hk, getF_logEvent (by decide), getF_bump_ne _ _ _ calfail_addr_ne_reject,
    getF_setF_apart _ tdCalfailCode tdCalfailFail _ rfl rfl rfl (by decide), bitOf_getF_setF rfl c.isLt, bitOf_lor, bitOf_eq_testBit (2 ^ c.val),
    Nat.testBit_two_pow_self, Bool.or_true]

theorem failTdcCal_rejects (hk : (vget s.time.ch c).cal.isSome = true) :
    getF (failTdcCal s c code) (tdCalRejectCount c.val) = min (getF s (tdCalRejectCount c.val) + 1) 1048575 := by
  have hne : (tdCalRejectCount c.val).addr ≠ 0xC01 := calfail_addr_ne_reject.symm
  have hlog : (tdCalRejectCount c.val).addr ≠ 0xF008 := by
    rw [tdCalRejectCount_addr]
    omega
  rw [failTdcCal_running hk, getF_logEvent hlog, getF_bump _ _ rfl, getF_setF_ne _ _ _ _ hne, getF_setF_ne _ _ _ _ hne]
  rfl

theorem failTdcCal_ch (hk : (vget s.time.ch c).cal.isSome = true) :
    vget (failTdcCal s c code).time.ch c = failedCal (elapsed s) (vget s.time.ch c) := by
  rw [failTdcCal_time hk, modTdc_ch]

/-! ### The judgement of a histogram (R354) -/

theorem tdcCalDoneSt_waits (hk : (vget s.time.ch c).cal = some k) (hn : sumN ((calHist s c k h).take 256) ≠ calHits) :
    tdcCalDoneSt c h s = s := by
  unfold tdcCalDoneSt
  rw [hk]
  exact if_pos hn

/-- R354: what an accepted calibration leaves in its channel. -/
def acceptedCal (h : List Nat) (at_ : Nat) (die : Int) (x : TdcCh) : TdcCh :=
  { x with table := some (tableOf h), uncal := false, cal := none, retryAt := none, calAt := at_, calTemp := die }

theorem tdcCalDoneSt_accepts (hk : (vget s.time.ch c).cal = some k) (hn : sumN ((calHist s c k h).take 256) = calHits)
    (hok : histOk s c (calHist s c k h) = true) :
    tdcCalDoneSt c h s = modTdc s c (acceptedCal (calHist s c k h) (elapsed s) k.die) := by
  unfold tdcCalDoneSt
  rw [hk]
  exact (if_neg (not_not_intro hn)).trans (if_pos hok)

theorem tdcCalDoneSt_rejects (hk : (vget s.time.ch c).cal = some k) (hn : sumN ((calHist s c k h).take 256) = calHits)
    (hok : histOk s c (calHist s c k h) = false) : tdcCalDoneSt c h s = failTdcCal s c 1 := by
  unfold tdcCalDoneSt
  rw [hk]
  exact (if_neg (not_not_intro hn)).trans (if_neg (Bool.eq_false_iff.1 hok))

/-! ### The monitor (R357) -/

/-- The channel that monitors a line, with its window. -/
def lineMonitor (s : State) (l : Fin 2) : Option (Fin 9 × Nat) :=
  (List.finRange 9).findSome? (fun c => (monitorOf s c).bind (fun m => if m.1 = l then some (c, m.2) else none))

/-- The oldest launch of a line leaves the list of its launches. -/
def shotOver (s : State) (l : Fin 2) : State := modTime s (fun t => { t with shots := vmod t.shots l List.dropLast })

theorem shotOver_shots (hs : vget s.time.shots l = rest ++ [(at_, b)]) : vget (shotOver s l).time.shots l = rest := by
  refine (vget_vmod _ _ _).trans ?_
  rw [hs, List.dropLast_concat]

/-- R357: a launch without a matched edge is one miss more of its channel. -/
def launchMissed (s : State) (c : Fin 9) : State :=
  bump (modTdc s c (fun x => { x with misses := x.misses + 1 })) (tdMonMissCount c.val)

theorem monExpirySt_matched (hm : lineMonitor s l = some (c, win)) (hs : vget s.time.shots l = rest ++ [(at_, true)])
    (hat : at_ + win * nsU ≤ stampNow s) : monExpirySt l s = shotOver s l := by
  unfold monExpirySt
  unfold lineMonitor at hm
  rw [hm, hs, List.getLast?_concat]
  exact if_pos hat

theorem monExpirySt_unmatched (hm : lineMonitor s l = some (c, win)) (hs : vget s.time.shots l = rest ++ [(at_, false)])
    (hat : at_ + win * nsU ≤ stampNow s) : monExpirySt l s = launchMissed (shotOver s l) c ∨ monExpirySt l s =
      logEvent (modTdc (launchMissed (shotOver s l) c) c (fun x => { x with monLogged := true })) 0x027 2 1 l.val c.val := by
  unfold monExpirySt
  unfold lineMonitor at hm
  rw [hm, hs, List.getLast?_concat]
  simp only [Bool.false_eq_true, if_false]
  rw [if_pos hat]
  split
  · exact .inr rfl
  · exact .inl rfl

/-- What the miss of a launch leaves in its line, its channel and the channel's counter. -/
def MissNoted (s : State) (l : Fin 2) (c : Fin 9) (rest : List (Nat × Bool)) (t : State) : Prop :=
  vget t.time.shots l = rest ∧ (vget t.time.ch c).misses = (vget s.time.ch c).misses + 1
    ∧ getF t (tdMonMissCount c.val) = min (getF s (tdMonMissCount c.val) + 1) 1048575

theorem launchMissed_noted (hs : vget s.time.shots l = rest ++ [(at_, b)]) : MissNoted s l c rest (launchMissed (shotOver s l) c) :=
  ⟨shotOver_shots hs, congrArg TdcCh.misses (modTdc_ch (s := shotOver s l)), getF_bump _ _ rfl⟩

theorem MissNoted.logged {sev unit_ arg : Nat} (h : MissNoted s l c rest t) :
    MissNoted s l c rest (logEvent (modTdc t c (fun x => { x with monLogged := true })) code 2 sev unit_ arg) := by
  obtain ⟨hshots, hmisses, hcount⟩ := h
  have haddr : (tdMonMissCount c.val).addr ≠ 0xF008 := by
    show 0xD05 + 8 * c.val ≠ 0xF008
    omega
  unfold MissNoted
  rw [logEvent_time, modTdc_ch, getF_logEvent haddr]
  exact ⟨hshots, hmisses, hcount⟩

end

/-- Settles O37: a calibration starts, is accepted or fails as its histogram and its time say, and a launch that is over is a miss
unless an edge matched it. -/
theorem tdcCalibration : Obligations.TdcCalibration := by
  refine ⟨fun s c hcal hr => ?_, fun s c h k hk hn => ?_, fun s c h k hk hn => congrArg _ (tdcCalDoneSt_waits hk hn),
    fun s c k hext hk hat => ?_, fun s c at_ hretry hat hu hcal hr => ?_, fun s c hp hu hretry hcal hr => ?_,
    fun s l c win at_ rest hm hs hat => ?_, fun s l c win at_ rest hm hs hat => ?_⟩
  · refine goesOnWith_of_step (f := fun s => startTdcCal s c) rfl (startTdcCal_starts hcal hr) ?_
    rw [modTdc_ch]
    exact ⟨rfl, rfl, rfl, (modTdc_moves rfl (.refl _ s)).only⟩
  · cases hok : histOk s c (calHist s c k h) with
    | true =>
      refine goesOnWith_of_step (f := tdcCalDoneSt c h) rfl (tdcCalDoneSt_accepts hk hn hok) ?_
      rw [modTdc_ch]
      exact ⟨rfl, fun _ => ⟨rfl, rfl, rfl, rfl, (modTdc_moves rfl (.refl _ s)).only⟩, fun e => absurd e (by decide)⟩
    | false =>
      have hrun : (vget s.time.ch c).cal.isSome = true := by rw [hk]; rfl
      refine goesOnWith_of_step (f := tdcCalDoneSt c h) rfl (tdcCalDoneSt_rejects hk hn hok) ?_
      rw [failTdcCal_ch hrun]
      exact ⟨rfl, fun e => absurd e (by decide), fun _ => ⟨rfl, rfl, failTdcCal_code hrun, failTdcCal_flag hrun, failTdcCal_rejects hrun⟩⟩
  · have hrun : (vget s.time.ch c).cal.isSome = true := by rw [hk]; rfl
    refine goesOnWith_of_step (f := fun s => whenB _ s (failTdcCal s c 2)) rfl (whenB_of_true ?_) ?_
    · simp only [hext, hk, Bool.true_and, decide_eq_true_eq]
      exact hat
    · rw [failTdcCal_ch hrun]
      exact ⟨rfl, rfl, failTdcCal_code hrun, (failTdcCal_moves rfl (.refl _ s)).only⟩
  · refine goesOnWith_of_step (f := fun s => whenB _ s _) rfl ((whenB_of_true ?_).trans ((if_pos ?_).trans (startTdcCal_starts hcal hr))) ?_
    · simp only [hretry, decide_eq_true_eq]
      exact hat
    · rw [hu]
      rfl
    · rw [modTdc_ch]
      exact ⟨rfl, rfl, (modTdc_moves rfl (.refl _ s)).only⟩
  · refine goesOnWith_of_step (f := fun s => whenB _ s (startTdcCal s c)) rfl
      ((whenB_of_true ?_).trans (startTdcCal_starts hcal hr)) ?_
    · rw [hp, hu, hretry]
      rfl
    · rw [modTdc_ch]
      exact ⟨rfl, (modTdc_moves rfl (.refl _ s)).only⟩
  · have hnoted : MissNoted s l c rest (monExpirySt l s) := by
      rcases monExpirySt_unmatched hm hs hat with e | e <;> rw [e]
      · exact launchMissed_noted hs
      · exact (launchMissed_noted hs).logged
    obtain ⟨hshots, hmisses, hcount⟩ := hnoted
    exact goesOnWith_of_next rfl ⟨hshots, hmisses, hcount, (monExpirySt_moves rfl (.refl _ s)).only⟩
  · exact goesOnWith_of_step (f := monExpirySt l) rfl (monExpirySt_matched hm hs hat)
      ⟨shotOver_shots hs, rfl, (modTime_moves rfl (.refl _ s)).only⟩

end Sys2Proof.Laws
end

section
/-! SUPPORT. An edge of PPS_IN in the dead time of channel 8 (R343, R348). -/

namespace Sys2Proof.Laws
open Sys2Proof Sys2Proof.Machine Sys2Proof.Safety

section
variable {s : State} {c : Fin 9} {p x q f : Nat}

/-- R348: an edge within 8 ns of the last is counted and lost. -/
theorem edgeLost_dead (hl : (vget s.time.ch c).lastEdge = some p) (hp : p ≤ x) (hx : x < p + 8 * nsU) :
    edgeLost s c x = (true, bump (modTdc s c (fun y => { y with dead := true })) (tdDeadCount c.val)) := by
  unfold edgeLost
  simp only [hl]
  exact if_pos (decide_eq_true ⟨hp, hx⟩)

theorem ppsEdgeSt_dead (hr : s.time.freqRef ≠ 3) (hl : (vget s.time.ch 8).lastEdge = some p) (hp : p ≤ edgeStamp s 8 q f)
    (hx : edgeStamp s 8 q f < p + 8 * nsU) :
    ppsEdgeSt q f s = bump (modTdc s 8 (fun y => { y with dead := true })) (tdDeadCount 8) := by
  unfold ppsEdgeSt
  rw [if_neg hr]
  simp only [edgeLost_dead hl hp hx, if_true]
  rfl

/-- Channel 8 accepted an edge at this tick; PPS_IN itself has no edge noted, as after a loss of PPS_IN (R343). -/
def ppsJustEdged : State := modTdc State.reset 8 (fun x => { x with lastEdge := some (edgeStamp State.reset 8 0 0) })

/-- A last edge moves no stamp. -/
theorem ppsJustEdged_stamp : edgeStamp ppsJustEdged 8 0 0 = edgeStamp State.reset 8 0 0 := rfl

end

/-- Refutes O34: its clause on PPS_EDGE says that the first edge of PPS_IN is noted whenever the time island has a reference, with no
word on dead time. An edge within 8 ns of the last one that channel 8 took is lost before PPS_IN sees it (R348), as in
`ppsJustEdged`: the edge is counted in TD_DEAD and PPS_IN still has none noted. -/
theorem not_deviceTime : ¬ Obligations.DeviceTime := by
  rintro ⟨-, -, -, -, -, -, -, -, -, -, hpps, -⟩
  have hr : ppsJustEdged.time.freqRef ≠ 3 := by decide
  obtain ⟨t, ht, hprev, -⟩ := hpps ppsJustEdged 0 0 hr rfl
  have hdead : exec (.ppsEdge 0 0) ppsJustEdged = .next (bump (modTdc ppsJustEdged 8 (fun y => { y with dead := true })) (tdDeadCount 8)) :=
    congrArg _ (ppsEdgeSt_dead hr rfl ppsJustEdged_stamp.ge (ppsJustEdged_stamp ▸ Nat.lt_add_of_pos_right (by decide)))
  rw [hdead] at ht
  cases ht
  cases hprev

end Sys2Proof.Laws
end

section
/-! SUPPORT. The commands of the TDC (R348 to R352): edges, gates, queues and pairs, each by the channel it changes. -/

namespace Sys2Proof.Laws
open Sys2Proof Sys2Proof.Machine Sys2Proof.Safety

section
variable {s t : State} {c d : Fin 9} {g : Fin 4} {k : TdcCfg} {q f x n : Nat} {l : Fin 3} {b : Bool}

/-! ### What a change of one channel keeps of another, or of a projection that it does not touch -/

theorem modTdc_keeps {α : Type} {p : TdcCh → α} {h : TdcCh → TdcCh} (hp : ∀ y, p (h y) = p y) :
    p (vget (modTdc s d h).time.ch c) = p (vget s.time.ch c) := by
  by_cases e : d = c
  · rw [e, modTdc_ch, hp]
  · rw [modTdc_ch_ne e]

theorem whenB_cases (b : Bool) (s t : State) : whenB b s t = t ∨ whenB b s t = s := ite_eq_or_eq _ t s

/-! ### Registers written one after the other -/

/-- Fields of different registers, written in turn, each hold their own value. -/
theorem getF_writeEach {fs : Nat → Fld} {v : Nat → Nat} {i : Nat} (hfit : Fld.fits (fs i) = true)
    (hne : ∀ j, j ≠ i → (fs i).addr ≠ (fs j).addr) (hi : i < n) :
    getF ((List.range n).foldl (fun s j => setF s (fs j) (v j)) s) (fs i) = v i % 2 ^ ((fs i).hi + 1 - (fs i).lo) := by
  induction n with
  | zero => cases hi
  | succ n ih =>
    rw [List.range_succ, List.foldl_append, List.foldl_cons, List.foldl_nil]
    by_cases e : n = i
    · rw [e, getF_setF _ _ _ hfit]
    · rw [getF_setF_ne _ _ _ _ (hne n e), ih (by omega)]

/-! ### Frames of the queue (R351) -/

/-- The frame of a channel's oldest entries. -/
def tdcFrame (s : State) (c : Fin 9) : Frame :=
  ownFrame s (ftypeOf 2 4) hostAddr 0 ([BitVec.ofNat 10 c.val, BitVec.ofNat 10 ((vget s.time.ch c).q.take 32).length]
    ++ wordsOf 2 (vget s.time.ch c).seq ++ (((vget s.time.ch c).q.take 32).map entryWords).flatten)

/-- A sent frame's entries leave the queue. -/
def sentChannel (y : TdcCh) : TdcCh := { y with q := y.q.drop 32, seq := (y.seq + 1) % 2 ^ 20 }

theorem entryWords_length (e : TdcEntry) : (entryWords e).length = 16 := by
  simp only [entryWords, timeWords, List.length_append, wordsOf_length, List.length_cons, List.length_nil]

theorem entryWords_flatten_length (es : List TdcEntry) : (es.map entryWords).flatten.length = 16 * es.length := by
  induction es with
  | nil => rfl
  | cons e es ih =>
    rw [List.map_cons, List.flatten_cons, List.length_append, ih, entryWords_length, List.length_cons]
    omega

theorem frameClass_tdcFrame : frameClass (tdcFrame s c) = 2 := by
  show ftypeOf 2 4 / 256 % 4 = 2
  decide

theorem frameBytes_tdcFrame : frameBytes (tdcFrame s c) ≤ 1000 := by
  have hlen : (tdcFrame s c).payload.length = 4 + 16 * min 32 (vget s.time.ch c).q.length := by
    simp only [tdcFrame, ownFrame, List.length_append, List.length_cons, List.length_nil, wordsOf_length,
      entryWords_flatten_length, List.length_take]
  unfold frameBytes frameWords ceilDiv
  rw [hlen]
  omega

theorem sendTdc_tries (hl : (tdcCfg s c).bind tdcLink = some l) (hq : (vget s.time.ch c).q ≠ []) (h12 : linkHas s l 12 = true) :
    sendTdc s c = if (sendOn s l (tdcFrame s c)).2 then modTdc (sendOn s l (tdcFrame s c)).1 c sentChannel
      else (sendOn s l (tdcFrame s c)).1 := by
  have hne : ((vget s.time.ch c).q.take 32).isEmpty = false := by
    rw [List.isEmpty_eq_false_iff]
    exact fun h => hq (by simpa using h)
  unfold sendTdc
  simp only [hl, hne, h12, Bool.not_true, Bool.or_self, Bool.false_eq_true, if_false]
  rfl

theorem sendOn_time {F : Frame} : (sendOn s l F).1.time = s.time := (sendOn_moves (P := [.net]) rfl (.refl _ s)).only.1 .time (by decide)

/-- R351: the queues stay, or the channel's frame has been sent. -/
theorem sendTdc_time : (sendTdc s c).time = s.time ∨ (sendTdc s c).time = (modTdc s c sentChannel).time := by
  cases hl : (tdcCfg s c).bind tdcLink with
  | none =>
    unfold sendTdc
    rw [hl]
    exact .inl rfl
  | some l =>
    by_cases hq : (vget s.time.ch c).q = []
    · unfold sendTdc
      simp only [hl, hq, List.take_nil, List.isEmpty_nil, Bool.true_or, if_true, true_or]
    · cases h12 : linkHas s l 12 with
      | false =>
        unfold sendTdc
        simp only [hl, h12, Bool.not_false, Bool.or_true, if_true, true_or]
      | true =>
        rw [sendTdc_tries hl hq h12]
        split
        · right
          show { (sendOn s l (tdcFrame s c)).1.time with ch := vmod (sendOn s l (tdcFrame s c)).1.time.ch c sentChannel } = _
          rw [sendOn_time]
          rfl
        · exact .inl sendOn_time

theorem sendTdc_sent (hl : (tdcCfg s c).bind tdcLink = some l) (hq : (vget s.time.ch c).q ≠ []) (h12 : linkHas s l 12 = true)
    (hbulk : carriesBulk s l = true) (hroom : outFill (vget s.net.links l) ≤ 4000000) : sendTdc s c =
      modTdc (modLink s l (fun L => { L with bulk := L.bulk ++ [tdcFrame s c] })) c sentChannel := by
  have hsize := frameBytes_tdcFrame (s := s) (c := c)
  rw [sendTdc_tries hl hq h12, sendOn_bulk frameClass_tdcFrame hbulk (by omega)]
  rfl

theorem sendIfFull_keeps {α : Type} {p : TdcCh → α} (hp : ∀ y, p (sentChannel y) = p y) :
    p (vget (sendIfFull s d).time.ch c) = p (vget s.time.ch c) := by
  unfold sendIfFull
  split
  · rcases sendTdc_time (s := s) (c := d) with e | e <;> rw [e]
    exact modTdc_keeps hp
  · rfl

/-! ### Edges (R348 to R353) -/

theorem enqueue_lastEdge {stamp flags came : Nat} {v : Int} :
    (vget (enqueue s d stamp v flags came).time.ch c).lastEdge = (vget s.time.ch c).lastEdge := by
  unfold enqueue
  extract_lets ch fl e
  split <;> exact modTdc_keeps fun _ => rfl

theorem monitorEdge_lastEdge {line : Fin 2} {win edge : Nat} :
    (vget (monitorEdge s d line win x edge).time.ch c).lastEdge = (vget s.time.ch c).lastEdge := by
  unfold monitorEdge
  split
  · rfl
  · split
    · refine (sendIfFull_keeps (p := TdcCh.lastEdge) fun _ => rfl).trans ?_
      exact (modTdc_keeps (p := TdcCh.lastEdge) (by intro y; rfl)).trans enqueue_lastEdge
    · rfl

theorem noteHit_lastEdge {ext : Nat} {y : TdcCh} : (noteHit ext c f y).lastEdge = y.lastEdge := by
  unfold noteHit
  split
  · rfl
  · split <;> rfl

/-- R348: an accepted edge is the channel's last. -/
theorem takeEdge_lastEdge : (vget (takeEdge s c b f x).time.ch c).lastEdge = some x := by
  have hnote : (vget (modTdc s c (fun y => noteHit (tdcCalCfg s).2.2.1 c f { y with lastEdge := some x })).time.ch c).lastEdge = some x := by
    rw [modTdc_ch, noteHit_lastEdge]
  unfold takeEdge
  dsimp only
  split
  · exact monitorEdge_lastEdge.trans hnote
  · split
    · exact (modTdc_keeps (p := TdcCh.lastEdge) (by intro y; rfl)).trans hnote
    · exact (sendIfFull_keeps (p := TdcCh.lastEdge) fun _ => rfl).trans (enqueue_lastEdge.trans hnote)

theorem edgeLost_first (hl : (vget s.time.ch c).lastEdge = none) (hcal : (vget s.time.ch c).cal = none) :
    edgeLost s c x = (false, s) := by
  unfold edgeLost
  simp only [hl, hcal]
  rfl

/-- A rising edge of a channel that is always armed. -/
theorem tdcEdgeSt_always (hr : s.time.freqRef ≠ 3) (hc : c.val < 8) (hk : tdcCfg s c = some k) (he : k.edge = 0) (hg : k.gateMode = 0) :
    tdcEdgeSt c false q f s = acceptEdge s c false f (edgeStamp s c q f) := by
  have harm : armedFor s c k (edgeStamp s c q f) = some true := by
    unfold armedFor
    simp only [hg]
  unfold tdcEdgeSt
  simp only [if_neg hr, if_neg (Nat.ne_of_lt hc), hk, he, harm]
  rfl

/-! ### Gates (R350) -/

/-- The four gates with one of them set to a level. -/
def gatesWith (v : BitVec 4) (g : Fin 4) (level : Bool) : BitVec 4 := if level then v ||| (1#4 <<< g.val) else v &&& ~~~(1#4 <<< g.val)

theorem gatesWith_getLsbD (v : BitVec 4) (g h : Fin 4) (level : Bool) :
    (gatesWith v g level).getLsbD h.val = if h = g then level else v.getLsbD h.val := by
  revert v g h level
  decide

theorem gateSt_gates : (gateSt g b s).time.gates = if s.time.gates.getLsbD g.val = b then s.time.gates else gatesWith s.time.gates g b := by
  unfold gateSt
  extract_lets now s1
  split
  · rfl
  · split
    · rfl
    · refine foldl_keeps (f := fun s => s.time.gates) (fun s c => ?_) _
      split
      · split
        · rfl
        · split <;> rfl
      · rfl

theorem gateSt_getLsbD (h : Fin 4) : (gateSt g b s).time.gates.getLsbD h.val = if h = g then b else s.time.gates.getLsbD h.val := by
  rw [gateSt_gates]
  split
  next hb =>
    split
    next e => rw [e, hb]
    · rfl
  · exact gatesWith_getLsbD _ _ _ _

/-- R350: the end of a gate's window, channel by channel. -/
def windowEnd (g : Fin 4) (s : State) (c : Fin 9) : State :=
  if c.val < 8 ∧ gateOf c = g ∧ (vget s.time.ch c).until_ ≤ stampNow s then modTdc s c (fun y => { y with win := false }) else s

theorem windowEnd_other (h : gateOf c ≠ g) : vget (windowEnd g s d).time.ch c = vget s.time.ch c := by
  unfold windowEnd
  split
  next hd => exact modTdc_ch_ne fun e => h (e ▸ hd.2.1)
  · rfl

theorem windowEnd_until : (vget (windowEnd g s d).time.ch c).until_ = (vget s.time.ch c).until_ := by
  unfold windowEnd
  split
  · exact modTdc_keeps fun _ => rfl
  · rfl

theorem windowEnd_now : stampNow (windowEnd g s d) = stampNow s := by
  unfold windowEnd
  split <;> rfl

theorem windowEnd_win (hc : c.val < 8) (hg : gateOf c = g) (h : (vget s.time.ch c).until_ ≤ stampNow s) :
    (vget (windowEnd g s c).time.ch c).win = false := by
  unfold windowEnd
  rw [if_pos ⟨hc, hg, h⟩, modTdc_ch]

theorem windowEnd_stays (h : (vget s.time.ch c).win = false) : (vget (windowEnd g s d).time.ch c).win = false := by
  unfold windowEnd
  split
  · by_cases e : d = c
    · rw [e, modTdc_ch]
    · rw [modTdc_ch_ne e, h]
  · exact h

/-- R350: a window that has ended is closed by then. -/
theorem windowEnd_all (hc : c.val < 8) (hg : gateOf c = g) (h : (vget s.time.ch c).until_ ≤ stampNow s) :
    (vget ((List.finRange 9).foldl (windowEnd g) s).time.ch c).win = false := by
  refine foldl_establishes (p := fun s => (vget s.time.ch c).until_ ≤ stampNow s → (vget s.time.ch c).win = false) (g := windowEnd g)
    (fun s d hs hle => windowEnd_stays (hs ?_)) (fun s hle => windowEnd_win hc hg ?_) (List.mem_finRange c) ?_
  · rwa [windowEnd_until, windowEnd_now] at hle
  · rwa [windowEnd_until, windowEnd_now] at hle
  · rwa [foldl_keeps (f := fun s => (vget s.time.ch c).until_) (fun _ _ => windowEnd_until),
      foldl_keeps (f := stampNow) fun _ _ => windowEnd_now]

theorem softArm_mode3 (hk : tdcCfg s c = some k) (hg : k.gateMode = 3) : softArm c b s = modTdc s c (fun y => { y with soft := b }) := by
  unfold softArm
  rw [hk]
  exact if_pos hg

/-! ### Pops (R351) -/

/-- A value in the registers of a channel's entry. -/
def entryShown (s : State) (c : Fin 9) (v : Nat) : State :=
  (List.range 8).foldl (fun s k => setF s (tdChEntryWords c.val k) (v / 2 ^ (20 * k))) s

theorem getF_entryShown {v i : Nat} (hi : i < 8) : getF (entryShown s c v) (tdChEntryWords c.val i) = v / 2 ^ (20 * i) % 2 ^ 20 := by
  refine getF_writeEach rfl (fun j hj => ?_) hi
  show 0xC22 + 16 * c.val + i ≠ 0xC22 + 16 * c.val + j
  omega

theorem entryShown_time {v : Nat} : (entryShown s c v).time = s.time := foldl_keeps (f := State.time) (fun s _ => setF_time s _ _) _

theorem tdcPopSt_head {e : TdcEntry} {rest : List TdcEntry} (hl : (tdcCfg s c).bind tdcLink = none) (hq : (vget s.time.ch c).q = e :: rest) :
    tdcPopSt c s = modTdc (entryShown s c (wordsVal (entryWords e))) c (fun y => { y with q := y.q.drop 1 }) := by
  unfold tdcPopSt
  simp only [hl, hq]
  rfl

theorem tdcPopSt_empty (hq : (vget s.time.ch c).q = []) : tdcPopSt c s = entryShown s c 0 := by
  unfold tdcPopSt
  simp only [hq, List.head?_nil, ite_self]
  rfl

/-! ### Pairs (R352) -/

theorem pairOne_rest (win : Nat) (e : TdcHeld) (rest : List TdcHeld) :
    (pairOne g win e rest s).2 = rest ∨ ∃ h, (pairOne g win e rest s).2 = rest.erase h := by
  unfold pairOne
  extract_lets ch expire s1 w
  split
  · split
    · exact .inl rfl
    · split
      · exact .inl rfl
      · split <;> exact .inl rfl
  · split
    · exact .inl rfl
    · split
      next h _ => exact .inr ⟨h, rfl⟩
      · exact .inl rfl

theorem pairOne_fewer (win : Nat) (e : TdcHeld) (rest : List TdcHeld) :
    (pairOne g win e rest s).2.length ≤ rest.length ∧ (pairOne g win e rest s).2 ⊆ rest := by
  rcases pairOne_rest (s := s) (g := g) win e rest with h | ⟨y, h⟩ <;> rw [h]
  · exact ⟨le_rfl, List.Subset.refl _⟩
  · exact ⟨List.length_erase_le, List.erase_subset⟩

/-- R352: where every hold has ended no edge stays held. -/
theorem pairRun_hold {win limit : Nat} {es : List TdcHeld} (hn : es.length ≤ n) (hend : ∀ e ∈ es, e.at_ + 20 * nsU ≤ limit) :
    (vget (pairRun g win limit n es s).time.ch (pairEven g)).hold = [] := by
  induction n generalizing es s with
  | zero =>
    rw [List.length_eq_zero_iff.1 (Nat.le_zero.1 hn), pairRun, modTdc_ch]
  | succ n ih =>
    cases es with
    | nil => rw [pairRun, modTdc_ch]
    | cons e es =>
      obtain ⟨hlen, hsub⟩ := pairOne_fewer (s := s) (g := g) win e es
      rw [pairRun, if_neg (Nat.not_lt.2 (hend e List.mem_cons_self))]
      exact ih (hlen.trans (Nat.le_of_succ_le_succ hn)) fun y hy => hend y (List.mem_cons_of_mem e (hsub hy))

theorem pairHoldSt_hold (hk : tdcCfg s (pairEven g) = some k)
    (hend : ∀ e, e ∈ (vget s.time.ch (pairEven g)).hold → e.at_ + 20 * nsU ≤ elapsed s) :
    (vget (pairHoldSt g s).time.ch (pairEven g)).hold = [] := by
  unfold pairHoldSt
  rw [hk]
  exact pairRun_hold le_rfl fun e he => hend e (List.mem_mergeSort.1 he)

/-- R352: a start whose window has passed is an orphan. -/
theorem tdcPairWindowExpiry_orphan {p : TdcHeld} (hk : tdcCfg s (pairEven g) = some k)
    (hp : (vget s.time.ch (pairEven g)).pending = some p) (hat : p.at_ + k.pairWin * nsU ≤ elapsed s) :
    exec (.tdcPairWindowExpiry g) s =
      .next (bump (modTdc s (pairEven g) (fun y => { y with pending := none })) (tdOrphanStartCount (pairEven g).val)) := by
  show execTdcPairWindowExpiry g s = _
  unfold execTdcPairWindowExpiry
  rw [hk, hp]
  exact congrArg _ (whenB_of_true (decide_eq_true hat))

end

/-- Settles O36: each command of the TDC by the lemma that says what it leaves in its channel. -/
theorem tdcCommandEffects : Obligations.TdcCommandEffects := by
  refine ⟨fun s c b q f hr => congrArg _ (if_pos hr), fun s c q f k hr hc hk he hg hl hcal => ?_,
    fun s c q f k p hr hc hk he hg hl hp hx => ?_, fun s g b => ?_, fun s g => ?_, fun s c k hk hg => ⟨?_, ?_⟩,
    fun s c e rest hl hq => ?_, fun s c hq => ?_, fun s c => ?_, fun s c k l e rest hk hl hq hat h12 hbulk hroom => ?_,
    fun s g k hk hend => ?_, fun s g k p hk hp hat => ?_⟩
  · refine goesOnWith_of_step (f := tdcEdgeSt c false q f) rfl (tdcEdgeSt_always hr hc hk he hg) ?_
    unfold acceptEdge
    rw [edgeLost_first hl hcal]
    exact ⟨takeEdge_lastEdge, (takeEdge_moves (P := [.regs, .net, .time]) rfl (.refl _ s)).only.1 .now (by decide)⟩
  · refine goesOnWith_of_step (f := tdcEdgeSt c false q f) rfl (tdcEdgeSt_always hr hc hk he hg) ?_
    unfold acceptEdge
    simp only [edgeLost_dead hl hp hx, if_true]
    refine ⟨?_, ?_, ?_, getF_bump _ _ rfl, (bump_moves rfl (modTdc_moves rfl (.refl _ s))).only⟩
    · exact (modTdc_keeps (p := TdcCh.lastEdge) (by intro y; rfl)).trans hl
    · exact congrArg TdcCh.dead modTdc_ch
    · exact modTdc_keeps (p := TdcCh.q) (by intro y; rfl)
  · refine goesOnWith_of_next rfl ⟨?_, fun h hne => ?_, (gateSt_moves rfl (.refl _ s)).only⟩
    · rw [gateSt_getLsbD, if_pos rfl]
    · rw [gateSt_getLsbD, if_neg hne]
  · obtain ⟨t, ht, hframe⟩ : goesOnWith (exec (.tdcWindowEnd g) s) (changesOnly [.time] s) :=
      goesOnWith_of_next rfl (tdcWindowEnd_confined g s _ rfl).only
    cases ht
    exact goesOnWith_of_next rfl ⟨fun c hc hg h => windowEnd_all hc hg h,
      fun c hg => foldl_keeps (f := fun s => vget s.time.ch c) (fun _ _ => windowEnd_other hg) _, hframe⟩
  · refine goesOnWith_of_step (f := softArm c true) rfl (softArm_mode3 hk hg) ?_
    rw [modTdc_ch]
    exact ⟨rfl, (modTdc_moves rfl (.refl _ s)).only⟩
  · refine goesOnWith_of_step (f := softArm c false) rfl (softArm_mode3 hk hg) ?_
    rw [modTdc_ch]
    exact ⟨rfl, (modTdc_moves rfl (.refl _ s)).only⟩
  · refine goesOnWith_of_next rfl ⟨?_, fun i hi => ?_, (tdcPopSt_moves rfl (.refl _ s)).only⟩
    · rw [tdcPopSt_head hl hq, modTdc_ch, entryShown_time, hq]
      rfl
    · rw [tdcPopSt_head hl hq, getF_of_regs (modTdc_regs _ _ _), getF_entryShown (by omega)]
  · refine goesOnWith_of_next rfl ⟨fun i hi => ?_, ?_, ?_⟩
    · rw [tdcPopSt_empty hq, getF_entryShown hi, Nat.zero_div, Nat.zero_mod]
    · rw [tdcPopSt_empty hq, entryShown_time]
    · rw [tdcPopSt_empty hq]
      exact (Moves.folded (P := [.regs]) (fun _ _ h => setF_moves rfl h) (.refl _ s)).only
  · refine goesOnWith_of_next rfl ⟨?_, (tdcFlushTimer_confined c s _ rfl).only⟩
    rcases whenB_cases _ s (sendTdc s c) with e | e <;> rw [e]
    · rcases sendTdc_time (s := s) (c := c) with e | e <;> rw [e]
      · exact .inl rfl
      · rw [modTdc_ch]
        exact .inr ⟨rfl, rfl⟩
    · exact .inl rfl
  · have hmin : (rest.map (fun e => e.at_)).foldl min e.at_ ≤ e.at_ := (foldl_min_le id (rest.map TdcEntry.at_) e.at_).1
    have hdue : decide ((rest.map (fun e => e.at_)).foldl min e.at_ + k.flushUs * usU ≤ elapsed s) = true :=
      decide_eq_true ((Nat.add_le_add_right hmin _).trans hat)
    have hsent : sendTdc s c = _ := sendTdc_sent (by rw [hk]; exact hl) (by rw [hq]; exact List.cons_ne_nil e rest) h12 hbulk hroom
    refine goesOnWith_of_step (f := fun s => whenB _ s (sendTdc s c)) rfl ((whenB_of_true ?_).trans hsent) ?_
    · simp only [hk, hq, List.map_cons]
      exact hdue
    · refine ⟨?_, ?_, ?_, ?_⟩
      · rw [modTdc_ch, ← hq]
        rfl
      · rw [modTdc_ch]
        rfl
      · exact (congrArg (fun L : Link => L.bulk.length) (vget_vmod _ _ _)).trans List.length_append
      · exact (modTdc_moves rfl (modLink_moves rfl (.refl _ s))).only
  · have honly := (pairHoldSt_moves (P := [.regs, .net, .time]) (g := g) rfl (.refl _ s)).only
    exact goesOnWith_of_next rfl ⟨pairHoldSt_hold hk hend, honly.1 .now (by decide), honly⟩
  · refine goesOnWith_of_next (tdcPairWindowExpiry_orphan hk hp hat) ?_
    refine ⟨?_, getF_bump _ _ rfl, (bump_moves rfl (modTdc_moves rfl (.refl _ s))).only⟩
    exact congrArg TdcCh.pending modTdc_ch

end Sys2Proof.Laws
end

section
/-! SUPPORT. The states of a quad (R372 to R377, R384): what each change of state leaves in the quad, and what it leaves of the link's
credits. -/

namespace Sys2Proof.Laws
open Sys2Proof Sys2Proof.Machine Sys2Proof.Safety

section
variable {s t : State} {q k l : Fin 3} {c : QuadCfg} {f : Quad → Quad} {Q R : Quad}

/-! ### A quad and its record -/

theorem quadAt_modQuad : quadAt (modQuad s q f) q = f (quadAt s q) := vget_vmod _ _ _

theorem quadAt_modQuad_ne (h : q ≠ k) : quadAt (modQuad s q f) k = quadAt s k := vget_vmod_ne _ _ h

theorem quadAt_setF {F : Fld} {v : Nat} : quadAt (setF s F v) q = quadAt s q := rfl

theorem quadCfg_isSome_of_cfg (e : t.cfg = s.cfg) : (quadCfg t q).isSome = (quadCfg s q).isSome := by
  unfold quadCfg recBy recsOf
  rw [e, Option.isSome_map, Option.isSome_map]

theorem quadCfg_some_of_isSome (h : (quadCfg s q).isSome = true) : ∃ c, quadCfg s q = some c := Option.isSome_iff_exists.1 h

/-! ### The lanes present -/

theorem presentMask_of (h : ∀ p, (vget R.lanes p).present = (vget Q.lanes p).present) : presentMask R = presentMask Q := by
  unfold presentMask
  simp only [h]

/-- R372: the lanes that receiver detection has found. -/
def detectedLanes (m : BitVec 4) (Q : Quad) : Quad :=
  { Q with lanes := Vector.ofFn (fun p : Fin 4 => { vget Q.lanes p with present := m.getLsbD p.val }) }

theorem mask_of_bits (m : BitVec 4) :
    (List.finRange 4).foldl (fun n p => if m.getLsbD p.val then n + 2 ^ p.val else n) 0 = m.toNat := by
  revert m
  decide

theorem presentMask_detectedLanes (m : BitVec 4) : presentMask (detectedLanes m Q) = m.toNat := by
  unfold presentMask detectedLanes
  simp only [vget_ofFn]
  exact mask_of_bits m

/-! ### ACTIVE is left -/

theorem leaveActive_quads : (leaveActive s q).net.quads = s.net.quads := by
  unfold leaveActive
  split <;> rfl

@[simp] theorem quadAt_leaveActive : quadAt (leaveActive s q) k = quadAt s k := congrArg (vget · k) leaveActive_quads

theorem leaveActive_of_ne (h : (quadAt s q).st ≠ .active) : leaveActive s q = s := if_neg h

/-- R394: a link that leaves ACTIVE has no credits. -/
theorem leaveActive_credit (h : (quadAt s q).st = .active) : (vget (leaveActive s q).net.links q).creditOk = false := by
  unfold leaveActive
  rw [if_pos h]
  exact congrArg Link.creditOk (vget_vmod _ _ _)

/-! ### Detection, training, BLIND -/

/-- R372: a quad at the start of detection. -/
def detectingQuad (Q : Quad) : Quad :=
  { Q with st := .detect, lanes := Q.lanes.map (fun x => { laneStop (freshLane x) with present := false, los := false }),
           attempt := 0, step := 0, partnerFe := false }

theorem toDetect_quad : quadAt (toDetect s q) q = detectingQuad (quadAt s q) := by
  unfold toDetect
  rw [quadAt_modQuad, quadAt_leaveActive]
  rfl

/-- R374: a quad at the start of T0. -/
def trainingQuad (now : Nat) (Q : Quad) : Quad :=
  beginStep now 0 { Q with
    st := .train, attempt := presentMask Q, offer := offeredRates Q, partnerRates := 0,
    partnerLocked := 0, working := 0, lanes := Q.lanes.map (fun x => laneStop (freshLane x)) }

theorem toTrain_enters (h : (quadCfg s q).isSome = true) : toTrain s q = modQuad (leaveActive s q) q (trainingQuad (elapsed s)) := by
  unfold toTrain
  rw [if_neg (by rw [Option.isNone_iff_eq_none]; exact Option.isSome_iff_ne_none.1 h)]
  rfl

/-- R378: a quad whose new attempt has the RATE_MAX of its register. -/
def attemptingQuad (rate : Nat) (Q : Quad) : Quad := { Q with topRate := rate, rateWait := false }

theorem newTrain_enters (h : (quadCfg s q).isSome = true) : newTrain s q =
    modQuad (leaveActive (startAttempt s q) q) q (trainingQuad (elapsed s)) := toTrain_enters (s := startAttempt s q) h

theorem quadAt_startAttempt : quadAt (startAttempt s q) q = attemptingQuad (getF s (slQCtrlRateMax q.val)) (quadAt s q) := quadAt_modQuad

/-- R373: a quad in BLIND, on the settings that it has kept. -/
def blindQuad (Q : Quad) : Quad :=
  { Q with st := .blind, step := 0, attempt := presentMask Q, rate := Q.kept.rate, width := Q.kept.width, inUse := Q.kept.inUse,
           reversed := Q.kept.reversed,
           lanes := Q.lanes.map (fun x => { laneStop (freshLane x) with preset := x.storedPreset, polInv := x.storedPol }) }

theorem toBlind_enters (hc : quadCfg s q = some c) : toBlind s q = if c.blind && !(quadAt s q).rateWait then
    modQuad (startAttempt (leaveActive s q) q) q blindQuad else newTrain s q := by
  unfold toBlind
  rw [hc]
  rfl

theorem trainingQuad_present {now : Nat} : presentMask (trainingQuad now Q) = presentMask Q := by
  refine presentMask_of fun p => ?_
  simp only [trainingQuad, beginStep, vget_map]
  rfl

theorem blindQuad_present : presentMask (blindQuad Q) = presentMask Q := by
  refine presentMask_of fun p => ?_
  simp only [blindQuad, vget_map]
  rfl

theorem attemptingQuad_present {rate : Nat} : presentMask (attemptingQuad rate Q) = presentMask Q := rfl

theorem newTrain_quad (h : (quadCfg s q).isSome = true) :
    (quadAt (newTrain s q) q).st = .train ∧ presentMask (quadAt (newTrain s q) q) = presentMask (quadAt s q) := by
  rw [newTrain_enters h, quadAt_modQuad, quadAt_leaveActive, quadAt_startAttempt]
  exact ⟨rfl, trainingQuad_present.trans attemptingQuad_present⟩

/-- R373: BLIND, or T0 where the record or a change of RATE_MAX says so; the lanes present stay. -/
theorem toBlind_quad (hc : quadCfg s q = some c) : (quadAt (toBlind s q) q).st
    = (if c.blind = true ∧ (quadAt s q).rateWait = false then .blind else .train)
    ∧ presentMask (quadAt (toBlind s q) q) = presentMask (quadAt s q) := by
  have hsome : (quadCfg s q).isSome = true := by rw [hc]; rfl
  rw [toBlind_enters hc]
  by_cases hb : c.blind = true ∧ (quadAt s q).rateWait = false
  · obtain ⟨hblind, hwait⟩ := id hb
    rw [if_pos hb, if_pos (by rw [hblind, hwait]; rfl), quadAt_modQuad, quadAt_startAttempt, quadAt_leaveActive]
    exact ⟨rfl, blindQuad_present.trans attemptingQuad_present⟩
  · rw [if_neg hb, if_neg (by simpa using hb)]
    exact newTrain_quad hsome

theorem toBlind_runs (h : (quadCfg s q).isSome = true) : (quadAt (toBlind s q) q).st = .blind ∨ (quadAt (toBlind s q) q).st = .train := by
  obtain ⟨c, hc⟩ := quadCfg_some_of_isSome h
  rw [(toBlind_quad hc).1]
  split
  · exact .inl rfl
  · exact .inr rfl

theorem toBlind_credit (h : (quadCfg s q).isSome = true) (ha : (quadAt s q).st = .active) :
    (vget (toBlind s q).net.links q).creditOk = false := by
  obtain ⟨c, hc⟩ := quadCfg_some_of_isSome h
  rw [toBlind_enters hc]
  split
  · exact leaveActive_credit ha
  · rw [newTrain_enters h]
    refine leaveActive_credit (s := startAttempt s q) ?_
    rw [quadAt_startAttempt]
    exact ha

/-! ### ACTIVE is entered -/

/-- The quads, and each link's credits. -/
def creditView (s : State) : Vector Quad 3 × (Fin 3 → Vector Nat 3 × Bool) :=
  (s.net.quads, fun l => ((vget s.net.links l).grant, (vget s.net.links l).creditOk))

theorem creditView_modLink {g : Link → Link} (h : ∀ L, (g L).grant = L.grant ∧ (g L).creditOk = L.creditOk) :
    creditView (modLink s l g) = creditView s := by
  refine congrArg (Prod.mk s.net.quads) (funext fun i => ?_)
  show ((vget (vmod s.net.links l g) i).grant, (vget (vmod s.net.links l g) i).creditOk) = _
  by_cases e : l = i
  · obtain ⟨hgrant, hok⟩ := h (vget s.net.links l)
    rw [← e, vget_vmod, hgrant, hok]
  · rw [vget_vmod_ne _ _ e]

theorem creditView_sendOn {F : Frame} : creditView (sendOn s l F).1 = creditView s := by
  unfold sendOn
  extract_lets L
  split
  · rfl
  · split
    · exact creditView_modLink fun _ => ⟨rfl, rfl⟩
    · exact creditView_modLink fun _ => ⟨rfl, rfl⟩
    · split
      · rfl
      · exact creditView_modLink fun _ => ⟨rfl, rfl⟩

theorem creditView_setF {F : Fld} {v : Nat} : creditView (setF s F v) = creditView s := rfl

theorem creditView_putWord60 {g : Nat → Fld} {w : Nat} : creditView (putWord60 s g w) = creditView s :=
  foldl_keeps (f := creditView) (fun _ _ => creditView_setF) _

theorem creditView_sendOffer {changed wait : Bool} : creditView (sendOffer s l changed wait) = creditView s := by
  unfold sendOffer
  extract_lets w n s1 s2 s3
  have h1 : creditView s1 = creditView s := creditView_modLink fun _ => ⟨rfl, rfl⟩
  have h2 : creditView s2 = creditView s1 := by
    unfold s2
    split
    · exact creditView_putWord60
    · rfl
  have h3 : creditView s3 = creditView s2 := by
    unfold s3
    split
    · exact creditView_setF
    · split
      · exact creditView_setF
      · rfl
  exact creditView_sendOn.trans (h3.trans (h2.trans h1))

theorem creditView_dropWithdrawn : creditView (dropWithdrawn s l) = creditView s := by
  unfold dropWithdrawn
  extract_lets L own keep gone
  split
  · rfl
  · refine (foldl_keeps (f := creditView) (fun s f => ?_) gone).trans (creditView_modLink fun _ => ⟨rfl, rfl⟩)
    split
    · exact creditView_setF
    · split
      · split
        · exact creditView_setF
        · rfl
      · rfl

/-- R398: the offer at ACTIVE changes no quad and no credits. -/
theorem creditView_offerOnActive : creditView (offerOnActive s q) = creditView s := by
  unfold offerOnActive
  extract_lets Q L me same s1
  have h1 : creditView s1 = creditView s := creditView_modLink fun _ => ⟨rfl, rfl⟩
  split
  · split
    · split
      · exact creditView_sendOffer.trans h1
      · refine creditView_dropWithdrawn.trans (creditView_sendOffer.trans (creditView_putWord60.trans (.trans ?_ h1)))
        exact creditView_modLink fun _ => ⟨rfl, rfl⟩
    · refine creditView_sendOffer.trans (creditView_putWord60.trans (.trans ?_ h1))
      exact creditView_modLink fun _ => ⟨rfl, rfl⟩
  · exact creditView_sendOffer.trans h1

/-- R376, R394: what ACTIVE is entered with: no failed attempts, and credits that restart. -/
def FreshActive (q : Fin 3) (v : Vector Quad 3 × (Fin 3 → Vector Nat 3 × Bool)) : Prop :=
  (vget v.1 q).st = .active ∧ (vget v.1 q).fails = 0 ∧ v.2 q = (Vector.replicate 3 0, false)

theorem toActive_fresh (h : (quadAt s q).rateWait = false) : FreshActive q (creditView (toActive s q)) := by
  unfold toActive
  extract_lets wait s1 s2 s3 s4 s5
  have h2 : FreshActive q (creditView s2) := by
    refine ⟨congrArg Quad.st (quadAt_modQuad (s := s)), congrArg Quad.fails (quadAt_modQuad (s := s)), ?_⟩
    exact congrArg (fun L : Link => (L.grant, L.creditOk)) (vget_vmod s1.net.links q _)
  have h3 : creditView s3 = creditView s2 := by
    unfold s3
    split
    · rfl
    · exact creditView_setF
  have h5 : creditView s5 = creditView s4 := by
    unfold s5
    split
    · exact creditView_setF
    · rfl
  rw [if_neg (by rw [show wait = false from h]; decide), h5, creditView_offerOnActive, h3]
  exact h2

/-! ### The commands -/

theorem detectDoneSt_absent (hst : (quadAt s q).st = .detect) (hc : (quadCfg s q).isSome = true) :
    detectDoneSt q 0 s = modQuad (modQuad s q (detectedLanes 0)) q (fun Q => { Q with st := .absent }) :=
  (if_pos ⟨hst, hc⟩).trans (if_pos rfl)

theorem detectDoneSt_present {m : BitVec 4} (hst : (quadAt s q).st = .detect) (hc : (quadCfg s q).isSome = true) (hm : m ≠ 0) :
    detectDoneSt q m s = toBlind (modQuad s q (detectedLanes m)) q := (if_pos ⟨hst, hc⟩).trans (if_neg hm)

theorem bootPhase_toTrain : bootPhase (toTrain s q) = bootPhase s :=
  getF_of_regs ((toTrain_moves (P := [.net]) rfl (.refl _ s)).only.1 .regs (by decide))

/-- R58, R373: BLIND has timed out: training, and in boot phase 9 the local quad's phase ends. -/
theorem blindTimeoutSt_trains (hst : (quadAt s q).st = .blind) : blindTimeoutSt q s =
    if q = 0 ∧ bootPhase s = 9 then setF (toTrain s q) bmStateBootPhase 10 else toTrain s q := by
  unfold blindTimeoutSt
  dsimp only
  rw [if_pos hst, bootPhase_toTrain]

theorem linkFaultSt_faults {cause : Fin 8} (hst : (quadAt s q).st = .active) (hlo : 1 ≤ cause.val) (hhi : cause.val < 5) :
    linkFaultSt q cause s = toBlind (bump s (slQCountRetrains q.val)) q := by
  have hne : cause ≠ 0 := fun e => by simp [e] at hlo
  unfold linkFaultSt
  simp only [hst, hhi, decide_eq_false hne, Bool.false_and, and_self, if_true]

/-- R384, R386, R411: the counters that a LINK reset clears. -/
def linkCounters (q : Nat) : List Fld :=
  [slQCountRetrains q, slQCountNarrowings q]
    ++ (List.range 4).flatMap (fun p => [slLnErrCount (4 * q + p), slLnPrbsCount (4 * q + p)])
    ++ [lkRxBadCount q, lkNorouteCount q, lkTtlDropCount q, lkDupCount q, lkRefusedCount q, lkFeatStaleCount q]

/-- R384: a quad after a LINK reset. -/
def resetQuad (Q : Quad) : Quad := { Q with fails := 0, fromDown := false, capRate := false, below := none, rateWait := false }

theorem linkResetSt_clears (hc : quadCfg s q = some c) : linkResetSt q s =
    (linkCounters q.val).foldl (fun s f => setF s f 0) (modQuad (toDetect s q) q resetQuad) := by
  unfold linkResetSt
  rw [hc]
  rfl

theorem linkCounters_apart (q : Fin 3) (g : Fld)
    (hg : g ∈ [slQCountRetrains q.val, slQCountNarrowings q.val, slLnErrCount (4 * q.val), lkRxBadCount q.val]) :
    g ∈ linkCounters q.val ∧ Fld.fits g = true
      ∧ ∀ f ∈ linkCounters q.val, Fld.fits f = true ∧ (g = f ∨ g.addr ≠ f.addr ∨ g.hi < f.lo ∨ f.hi < g.lo) := by
  revert q g
  decide

theorem getF_linkResetSt (hc : quadCfg s q = some c) {g : Fld}
    (hg : g ∈ [slQCountRetrains q.val, slQCountNarrowings q.val, slLnErrCount (4 * q.val), lkRxBadCount q.val]) :
    getF (linkResetSt q s) g = 0 := by
  obtain ⟨hmem, hfit, hapart⟩ := linkCounters_apart q g hg
  rw [linkResetSt_clears hc]
  exact getF_foldl_zero hfit hapart (.inl hmem)

theorem quadAt_linkResetSt (hc : quadCfg s q = some c) : quadAt (linkResetSt q s) q = resetQuad (detectingQuad (quadAt s q)) := by
  rw [linkResetSt_clears hc, foldl_keeps (f := fun s => quadAt s q) (fun _ _ => quadAt_setF), quadAt_modQuad, toDetect_quad]

theorem wakeQuad_st (hc : quadCfg s q = some c) (hst : (quadAt s q).st = .idle) : (quadAt (wakeQuad s q) q).st = (quadAt (toBlind s q) q).st := by
  unfold wakeQuad
  simp only [hc, hst, if_true]
  rw [quadAt_modQuad]

end

/-- Settles O38: each change of a quad's state by the lemma that says what it leaves in the quad. -/
theorem quadStates : Obligations.QuadStates := by
  refine ⟨fun s q hst hc => ?_, fun s q c m hst hc hm => ?_, fun s q hst => ?_, fun s q hst hstep hwait => ?_, fun s q hst hc => ?_,
    fun s q cause hst hlo hhi hc => ?_, fun s q hst => ?_, fun s q hc => ?_, fun s q hst hfe => ?_, fun s q hsb hst hc => ?_⟩
  · refine goesOnWith_of_step (f := detectDoneSt q 0) rfl (detectDoneSt_absent hst hc) ?_
    refine ⟨?_, fun k hk => ?_, (modQuad_moves rfl (modQuad_moves rfl (.refl _ s))).only⟩
    · rw [quadAt_modQuad]
    · rw [quadAt_modQuad_ne hk.symm, quadAt_modQuad_ne hk.symm]
  · have hsome : (quadCfg s q).isSome = true := by rw [hc]; rfl
    obtain ⟨hblind, hpresent⟩ := toBlind_quad (s := modQuad s q (detectedLanes m)) hc
    refine goesOnWith_of_step (f := detectDoneSt q m) rfl (detectDoneSt_present hst hsome hm) ⟨?_, ?_, ?_⟩
    · rw [hblind, quadAt_modQuad]
      rfl
    · rw [hpresent, quadAt_modQuad, presentMask_detectedLanes]
    · exact (toBlind_moves rfl (modQuad_moves rfl (.refl _ s))).only
  · refine goesOnWith_of_step (f := fun s => whenB _ s (modQuad s q _)) rfl (whenB_of_true (decide_eq_true hst)) ⟨?_, ?_⟩
    · rw [quadAt_modQuad]
    · exact (modQuad_moves rfl (.refl _ s)).only
  · obtain ⟨hactive, hfails, hcredit⟩ := toActive_fresh hwait
    refine goesOnWith_of_step (f := linkActiveSt q) (t := toActive s q) rfl (if_pos (.inr ⟨hst, hstep⟩)) ?_
    exact ⟨hactive, hfails, congrArg Prod.snd hcredit, congrArg Prod.fst hcredit, (toActive_moves rfl (.refl _ s)).only⟩
  · have honly := (blindTimeoutSt_moves (P := [.regs, .net]) (q := q) rfl (.refl _ s)).only
    have hquad : quadAt (blindTimeoutSt q s) q = trainingQuad (elapsed s) (quadAt s q) := by
      have htrain : quadAt (toTrain s q) q = trainingQuad (elapsed s) (quadAt s q) := by
        rw [toTrain_enters hc, quadAt_modQuad, quadAt_leaveActive]
      rw [blindTimeoutSt_trains hst]
      split <;> exact htrain
    refine goesOnWith_of_next rfl ⟨?_, ?_, fun hq hb => ?_, fun hq => ?_, honly⟩
    · rw [hquad]
      rfl
    · rw [hquad]
      rfl
    · rw [blindTimeoutSt_trains hst, if_pos ⟨hq, hb⟩]
      exact getF_setF _ _ _ rfl
    · rw [blindTimeoutSt_trains hst, if_neg (fun h => hq h.1), bootPhase_toTrain]
  · have hbump : (quadCfg (bump s (slQCountRetrains q.val)) q).isSome = true := (quadCfg_isSome_of_cfg (bump_cfg s _)).trans hc
    refine goesOnWith_of_step (f := linkFaultSt q cause) rfl (linkFaultSt_faults hst hlo hhi) ?_
    refine ⟨toBlind_runs hbump, ?_, toBlind_credit hbump hst, (toBlind_moves rfl (bump_moves rfl (.refl _ s))).only⟩
    rw [getF_of_regs ((toBlind_moves (P := [.net]) rfl (.refl _ _)).only.1 .regs (by decide)), getF_bump _ _ rfl]
    rfl
  · refine goesOnWith_of_step (f := fun s => whenB _ s (modQuad (toDetect s q) q _)) rfl (whenB_of_true (decide_eq_true hst)) ?_
    rw [quadAt_modQuad, toDetect_quad]
    exact ⟨rfl, rfl, (modQuad_moves rfl (toDetect_moves rfl (.refl _ s))).only⟩
  · obtain ⟨c, hc⟩ := quadCfg_some_of_isSome hc
    have hcleared {g : Fld} (hg) : getF (linkResetSt q s) g = 0 := getF_linkResetSt hc hg
    refine goesOnWith_of_next (t := linkResetSt q s) rfl ?_
    rw [quadAt_linkResetSt hc]
    exact ⟨rfl, rfl, hcleared (by simp), hcleared (by simp), hcleared (by simp), hcleared (by simp), (linkResetSt_moves rfl (.refl _ s)).only⟩
  · refine goesOnWith_of_step (f := fun s => whenB _ s (toDetect s q)) rfl (whenB_of_true (by rw [hst, hfe]; rfl)) ?_
    rw [toDetect_quad]
    exact ⟨rfl, rfl, (toDetect_moves rfl (.refl _ s)).only⟩
  · obtain ⟨c, hcfg⟩ := quadCfg_some_of_isSome hc
    refine goesOnWith_of_step (f := fun s => whenB _ s (wakeQuad s q)) rfl (whenB_of_true hsb) ?_
    rw [wakeQuad_st hcfg hst]
    exact ⟨toBlind_runs hc, (wakeQuad_moves rfl (.refl _ s)).only⟩

end Sys2Proof.Laws
end

section
/-! SUPPORT. Training of a quad (R367 to R379): training sets, the end of a step, failed attempts, loss of signal. -/

namespace Sys2Proof.Laws
open Sys2Proof Sys2Proof.Machine Sys2Proof.Safety

section
variable {s : State} {q : Fin 3} {p : Fin 4} {c : QuadCfg} {xs : List Nat} {t : TrainSet} {Q : Quad} {m lanes r width use : Nat}
  {f : SlLane → SlLane}

theorem quadCfg_modQuad {g : Quad → Quad} : quadCfg (modQuad s q g) q = quadCfg s q := rfl

theorem modLane_lane : vget (modLane Q p f).lanes p = f (vget Q.lanes p) := vget_vmod _ _ _

@[simp] theorem logEvent_net {code island sev unit_ arg : Nat} : (logEvent s code island sev unit_ arg).net = s.net :=
  (logEvent_moves (P := [.regs, .log]) rfl (.refl _ s)).only.1 .net (by decide)

theorem quadAt_logEvent {code island sev unit_ arg : Nat} : quadAt (logEvent s code island sev unit_ arg) q = quadAt s q :=
  congrArg (fun n : Net => vget n.quads q) logEvent_net

/-! ### Training sets (R369) -/

/-- R369: a lane that an inverted set reached: its polarity turns and its counts start again. -/
def turnedLane (x : SlLane) : SlLane := { x with polInv := !x.polInv, runAny := 0, runAck := 0, runTs2 := 0 }

theorem trainSetSt_inverted (ht : trainSetOf xs = some t) (hc : quadCfg s q = some c) (hinv : t.inverted = true)
    (hst : (quadAt s q).st = .train) : (quadAt (trainSetSt q p xs s) q).st = .train
      ∧ vget (quadAt (trainSetSt q p xs s) q).lanes p = turnedLane (vget (quadAt s q).lanes p) := by
  unfold trainSetSt
  simp only [ht, hc, hinv, hst, if_true, or_true]
  rw [quadAt_modQuad, modLane_lane, quadAt_modQuad, modLane_lane]
  exact ⟨hst, rfl⟩

/-- R369: a quad with what a training set on a lane says. -/
def notedQuad (p : Fin 4) (t : TrainSet) (Q : Quad) : Quad :=
  { modLane Q p (fun x => noteSet x t) with partnerRates := t.rates, partnerLocked := t.locked, partner := t.addr, role := t.role }

theorem trainSetSt_noted (ht : trainSetOf xs = some t) (hc : quadCfg s q = some c) (hinv : t.inverted = false) (hfe : t.feReq = false)
    (hst : (quadAt s q).st = .train) (hin : bitOf (quadAt s q).attempt p.val = true) :
    trainSetSt q p xs s = modQuad s q (notedQuad p t) := by
  unfold trainSetSt
  simp only [ht, hc, hinv, hfe, hst, hin, Bool.false_eq_true, reduceCtorEq, ne_eq, not_true_eq_false, Bool.true_eq_false, false_and,
    or_self, if_false]
  rfl

theorem noteSet_runAny {x : SlLane} : (noteSet x t).runAny = min 8 (x.runAny + 1) := by
  unfold noteSet
  extract_lets x1
  split <;> rfl

/-! ### The end of a step (R374, R375) -/

/-- Lanes that pass the running step. -/
def passing (m : Nat) (Q : Quad) : Quad := { Q with passed := Q.passed ||| m }

theorem execTrainStepPass_next (hst : (quadAt s q).st = .train) {v : BitVec 4} (hm : metStep (quadAt s q) v.toNat ≠ 0) :
    exec (.trainStepPass q v) s = .next (stepIfDone (modQuad s q (passing (metStep (quadAt s q) v.toNat))) q) :=
  congrArg _ (whenB_of_true (decide_eq_true ⟨hst, hm⟩))

theorem execTrainStepTimeout_all (hst : (quadAt s q).st = .train) :
    exec (.trainStepTimeout q 15) s = .next (endStep s q 0) :=
  (congrArg _ (whenB_of_true (decide_eq_true hst))).trans (congrArg (fun n => Host.Outcome.next (endStep s q n)) (Nat.and_zero _))

theorem stepIfDone_waits (h : (quadAt s q).attempt &&& (quadAt s q).passed ≠ (quadAt s q).attempt) : stepIfDone s q = s := if_neg h

theorem stepIfDone_ends (h : (quadAt s q).attempt &&& ((quadAt s q).passed ||| m) = (quadAt s q).attempt) :
    stepIfDone (modQuad s q (passing m)) q = endStep (modQuad s q (passing m)) q (quadAt s q).attempt := by
  unfold stepIfDone
  dsimp only
  rw [quadAt_modQuad]
  exact if_pos h

theorem endStep_fails (hc : quadCfg s q = some c) : endStep s q 0 = failAttempt s q := by
  unfold endStep
  rw [hc]
  rfl

/-- R374: a quad that goes from T0 to T1. -/
def ratedQuad (now lanes r : Nat) (Q : Quad) : Quad :=
  beginStep now 1 { Q with attempt := lanes, agreed := r, lanes := Q.lanes.map (fun x => { x with runTs2 := 0 }) }

theorem endStep_rated (hc : quadCfg s q = some c) (hl : lanes ≠ 0) (hstep : (quadAt s q).step = 0) (hr : agreedRate (quadAt s q) = some r) :
    endStep s q lanes = modQuad s q (ratedQuad (elapsed s) lanes r) := by
  unfold endStep
  simp only [hc, hl, hstep, hr, if_false]
  rfl

theorem endStep_forms (hc : quadCfg s q = some c) (hl : lanes ≠ 0) (hstep : (quadAt s q).step = 2) :
    endStep s q lanes = formLink s q c lanes := by
  unfold endStep
  simp only [hc, hl, hstep, if_false]

theorem quadAt_narrowTo :
    quadAt (narrowTo s q c width use) q = sleepLanes { quadAt s q with attempt := use, width := width, inUse := use } (15 - use) := by
  unfold narrowTo
  extract_lets s1
  have h1 : quadAt s1 q = _ := quadAt_modQuad
  split
  · exact (quadAt_logEvent (s := s1)).trans h1
  · exact h1

/-- R375: a link forms on the lanes that both sides have locked. -/
theorem formLink_quad (hw : formWidth (lanes &&& (quadAt s q).partnerLocked) c.widthMax = some (width, use)) :
    (quadAt (formLink s q c lanes) q).step = 3 ∧ (quadAt (formLink s q c lanes) q).width = width
      ∧ (quadAt (formLink s q c lanes) q).inUse = use ∧ (quadAt (formLink s q c lanes) q).rate = (quadAt s q).agreed := by
  unfold formLink
  simp only [hw]
  rw [quadAt_narrowTo, quadAt_modQuad]
  exact ⟨rfl, rfl, rfl, rfl⟩

/-! ### Failed attempts (R376) -/

theorem failAttempt_down (hfails : (quadAt s q).fails = 31) (hdown : (quadAt s q).fromDown = false) : failAttempt s q =
    logEvent (modQuad (modQuad s q (fun Q => { Q with fails := 32, rateWait := false })) q (fun Q => { Q with st := .down })) 0x029 5 2 q.val 0 := by
  unfold failAttempt
  simp only [hfails, hdown, Bool.false_eq_true, if_false]
  rfl

theorem failAttempt_again (hfails : (quadAt s q).fails < 31) (hdown : (quadAt s q).fromDown = false) (hwait : (quadAt s q).rateWait = false) :
    failAttempt s q = toDetect (modQuad s q (fun Q => { Q with fails := (quadAt s q).fails + 1, rateWait := false })) q := by
  have hmin : min 32 ((quadAt s q).fails + 1) = (quadAt s q).fails + 1 := by omega
  unfold failAttempt
  simp only [hmin, hdown, hwait, Bool.false_eq_true, if_false]
  exact if_neg (by omega)

/-! ### Loss of signal (R376, R379) -/

/-- A lane without signal. -/
def lostLane (x : SlLane) : SlLane := { x with los := true, symLock := false, runAny := 0, runAck := 0, runTs2 := 0 }

theorem laneLosSt_active (hidle : (vget (quadAt s q).lanes p).idleRx = false) (hst : (quadAt s q).st = .active) :
    laneLosSt q p s = modQuad s q (fun Q => modLane Q p lostLane) := by
  unfold laneLosSt
  simp only [hidle, hst, Bool.false_eq_true, reduceCtorEq, false_and, if_false]
  rfl

end

/-- Settles O39: training sets, the ends of a step and the losses of a lane, each by what it leaves in the quad. -/
theorem quadTraining : Obligations.QuadTraining := by
  refine ⟨fun s q p xs t c ht hc hinv hst => ?_, fun s q p xs t c ht hc hinv hfe hst hin => ?_,
    fun s q c m r hc hst hstep hm hall hne hr => ?_, fun s q m hst hm hall => ?_, fun s q c m w use hc hst hstep hm hall hne hw => ?_,
    fun s q c hc hst hfails hdown => ?_, fun s q c hc hst hfails hdown hwait => ?_, fun s q p hidle => congrArg _ (if_pos hidle),
    fun s q p hidle hst => ?_, fun s q p hlos => ?_, fun s q p hst => ?_, fun s q hst => ?_⟩
  · obtain ⟨htrain, hlane⟩ := trainSetSt_inverted (p := p) ht hc hinv hst
    refine goesOnWith_of_next (t := trainSetSt q p xs s) rfl ⟨?_, ?_, htrain, (trainSetSt_moves rfl (.refl _ s)).only⟩
    · rw [hlane]
      rfl
    · rw [hlane]
      rfl
  · refine goesOnWith_of_step (f := trainSetSt q p xs) rfl (trainSetSt_noted ht hc hinv hfe hst hin) ?_
    rw [quadAt_modQuad]
    refine ⟨rfl, rfl, ?_, (modQuad_moves rfl (.refl _ s)).only⟩
    exact (congrArg SlLane.runAny modLane_lane).trans noteSet_runAny
  · refine goesOnWith_of_next (execTrainStepPass_next hst hm) ?_
    rw [stepIfDone_ends hall, endStep_rated (r := r) (quadCfg_modQuad.trans hc) hne (by rw [quadAt_modQuad]; exact hstep) (by rw [quadAt_modQuad]; exact hr),
      quadAt_modQuad, quadAt_modQuad]
    exact ⟨rfl, rfl, rfl, hst, (modQuad_moves rfl (modQuad_moves rfl (.refl _ s))).only⟩
  · refine goesOnWith_of_next (execTrainStepPass_next hst hm) ?_
    rw [stepIfDone_waits (by rw [quadAt_modQuad]; exact hall), quadAt_modQuad]
    exact ⟨rfl, rfl, (modQuad_moves rfl (.refl _ s)).only⟩
  · obtain ⟨hthree, hwidth, huse, hrate⟩ := formLink_quad (s := modQuad s q (passing (metStep (quadAt s q) m.toNat)))
      (lanes := (quadAt s q).attempt) (c := c) (width := w) (use := use) (q := q) (by rw [quadAt_modQuad]; exact hw)
    refine goesOnWith_of_next (execTrainStepPass_next hst hm) ?_
    rw [stepIfDone_ends hall, endStep_forms (quadCfg_modQuad.trans hc) hne (by rw [quadAt_modQuad]; exact hstep)]
    rw [quadAt_modQuad] at hrate
    refine ⟨hthree, hwidth, huse, hrate, ?_⟩
    exact (formLink_moves rfl (modQuad_moves rfl (.refl _ s))).only
  · refine goesOnWith_of_next ((execTrainStepTimeout_all hst).trans (congrArg _ ((endStep_fails hc).trans (failAttempt_down hfails hdown)))) ?_
    rw [quadAt_logEvent, quadAt_modQuad, quadAt_modQuad]
    exact ⟨rfl, rfl, (logEvent_moves rfl (modQuad_moves rfl (modQuad_moves rfl (.refl _ s)))).only⟩
  · refine goesOnWith_of_next
      ((execTrainStepTimeout_all hst).trans (congrArg _ ((endStep_fails hc).trans (failAttempt_again hfails hdown hwait)))) ?_
    rw [toDetect_quad, quadAt_modQuad]
    exact ⟨rfl, rfl, (toDetect_moves rfl (modQuad_moves rfl (.refl _ s))).only⟩
  · refine goesOnWith_of_step (f := laneLosSt q p) rfl (laneLosSt_active hidle hst) ?_
    rw [quadAt_modQuad, modLane_lane]
    exact ⟨rfl, rfl, hst, (modQuad_moves rfl (.refl _ s)).only⟩
  · refine goesOnWith_of_step (f := fun s => whenB _ s (modQuad s q (fun Q => modLane Q p _))) rfl (whenB_of_true hlos) ?_
    rw [quadAt_modQuad, modLane_lane]
    exact ⟨rfl, rfl, (modQuad_moves rfl (.refl _ s)).only⟩
  · refine goesOnWith_of_next (t := modQuad s q (fun Q => modLane Q p (fun x => { x with idleRx := true })))
      (congrArg _ (if_neg fun h => hst h.1)) ?_
    rw [quadAt_modQuad, modLane_lane]
    exact ⟨rfl, rfl, (modQuad_moves rfl (.refl _ s)).only⟩
  · refine goesOnWith_of_step (f := fun s => whenB _ s (modQuad s q _)) rfl (whenB_of_true (decide_eq_true (.inl hst))) ?_
    rw [quadAt_modQuad]
    exact ⟨rfl, rfl, (modQuad_moves rfl (.refl _ s)).only⟩

end Sys2Proof.Laws
end

section
/-! SUPPORT. Frames on a link (R387 to R405): what a link keeps while a frame is noted or sent, where a frame of the stream goes, and
frames held for a time. -/

namespace Sys2Proof.Laws
open Sys2Proof Sys2Proof.Machine Sys2Proof.Safety

section
variable {s : State} {l k out : Fin 3} {f g : Frame} {xs : List Nat} {ws : List Word} {tag src : Nat}

/-! ### A link -/

theorem modLink_link {h : Link → Link} : vget (modLink s l h).net.links l = h (vget s.net.links l) := vget_vmod _ _ _

theorem modLink_link_ne {h : Link → Link} (e : l ≠ k) : vget (modLink s l h).net.links k = vget s.net.links k := vget_vmod_ne _ _ e

theorem modLink_keeps {α : Type} {p : Link → α} {h : Link → Link} (hp : ∀ L, p (h L) = p L) :
    p (vget (modLink s l h).net.links k) = p (vget s.net.links k) := by
  by_cases e : l = k
  · rw [e, modLink_link, hp]
  · rw [modLink_link_ne e]

/-- R393: a received frame uses up credit, and no more. -/
theorem noteRx_keeps {α : Type} {p : Link → α} (hp : ∀ (L : Link) x, p { L with given := x } = p L) :
    p (vget (noteRx s l f).net.links k) = p (vget s.net.links k) := modLink_keeps fun L => hp L _

theorem linkUp_noteRx : linkUp (noteRx s l f) k = linkUp s k := rfl

theorem linkHas_noteRx {n : Nat} : linkHas (noteRx s l f) k n = linkHas s k n := by
  unfold linkHas
  rw [noteRx_keeps (p := Link.accepted) fun _ _ => rfl]

theorem getF_noteRx {F : Fld} : getF (noteRx s l f) F = getF s F := getF_of_regs rfl

/-! ### A frame of this engine (R391) -/

/-- What the links hold, but for the frames themselves. -/
def netRest (s : State) : Net := { s.net with links := State.reset.net.links }

theorem sendOn_netRest : netRest (sendOn s l f).1 = netRest s := by
  unfold sendOn
  extract_lets L
  split
  · rfl
  · split
    · rfl
    · rfl
    · split <;> rfl

theorem sendOn_timed : (sendOn s l f).1.net.timed = s.net.timed := by
  show (netRest (sendOn s l f).1).timed = (netRest s).timed
  rw [sendOn_netRest]

theorem sendOn_prio (hu : linkUp s l = true) (hc : frameClass f = 0) :
    sendOn s l f = (modLink s l (fun L => { L with prio := L.prio ++ [f] }), true) := by
  unfold sendOn
  simp only [hu, hc, Bool.not_true, Bool.false_eq_true, if_false]

theorem sendOn_mgmt (hu : linkUp s l = true) (hc : frameClass f = 1) :
    sendOn s l f = (modLink s l (fun L => { L with mgmt := L.mgmt ++ [f] }), true) := by
  unfold sendOn
  simp only [hu, hc, Bool.not_true, Bool.false_eq_true, if_false]

theorem frameClass_ownFrame {ftype dest : Nat} : frameClass (ownFrame s ftype dest tag ws) = ftype / 256 % 4 := rfl

/-- R395: the answer to a WRITE or a TIMED_SEND waits with the link's management frames. -/
theorem writeResp_up {st d i : Nat} (hu : linkUp s l = true) : writeResp s l src tag st d i = modLink s l (fun L =>
    { L with mgmt := L.mgmt ++ [ownFrame s 0x104 src tag [BitVec.ofNat 10 st, BitVec.ofNat 10 d, BitVec.ofNat 10 i]] }) :=
  congrArg Prod.fst (sendOn_mgmt hu (by rw [frameClass_ownFrame]))

/-! ### The way of a frame (R403, R404) -/

theorem ringWay_hops {own : Bool} (h : ringWay s own f l = some (out, g)) : g.hops = f.hops := by
  unfold ringWay at h
  split at h
  · cases h
    rfl
  · dsimp only at h
    split at h
    · cases h
      rfl
    · cases h

/-- R403: the way of a frame leaves its hop count to `passOn`. -/
theorem routeOf_hops {own : Bool} (h : routeOf s own f = some (out, g)) : g.hops = f.hops := by
  unfold routeOf at h
  split at h
  split at h
  · extract_lets m at h
    split at h
    · exact congrArg (fun x => Frame.hops x.2) (Option.some.inj h).symm
    · cases h
  · split at h
    · split at h
      · cases h
        rfl
      · split at h
        · exact ringWay_hops h
        · split at h
          · exact ringWay_hops h
          · cases h
    · split at h
      · exact ringWay_hops h
      · exact ringWay_hops h

theorem passOn_bulk (hh : g.hops < 4095) (hc : frameClass g = 2) :
    passOn s l out g = modLink s out (fun L => { L with fwd := L.fwd ++ [(l.val, { g with hops := g.hops + 1 })] }) := by
  have hc1 : frameClass { g with hops := g.hops + 1 } = 2 := hc
  unfold passOn forwardOn
  rw [if_neg (Nat.not_le.2 hh), hc1]
  rfl

theorem passOn_mgmt (hh : g.hops < 4095) (hc : frameClass g = 1) :
    passOn s l out g = modLink s out (fun L => { L with mgmt := L.mgmt ++ [{ g with hops := g.hops + 1 }] }) := by
  have hc1 : frameClass { g with hops := g.hops + 1 } = 1 := hc
  unfold passOn forwardOn
  rw [if_neg (Nat.not_le.2 hh), hc1]
  rfl

/-! ### A frame of the byte stream (R387 to R405) -/

theorem frameForward_one {x : RxItem} (hu : linkUp s l = true) (hx : deframe xs = [x]) :
    exec (.frameForward l xs) s = .next (takeItem l s x) := by
  show Host.Outcome.next (whenB (linkUp s l) s ((deframe xs).foldl (takeItem l) s)) = _
  rw [whenB_of_true hu, hx]
  rfl

theorem frameForward_good (hu : linkUp s l = true) (hx : deframe xs = [.good f]) (hok : frameOk f = true) :
    exec (.frameForward l xs) s = .next (forwardSt l f (noteRx s l f)) :=
  (frameForward_one hu hx).trans (congrArg _ (receive_accepted hu hok))

theorem forwardSt_own (hall : bitOf f.flags 0 = false) (hd : f.dest = ownAddr s) : forwardSt l f s = deliver l f s := by
  unfold forwardSt
  rw [if_neg (Bool.eq_false_iff.1 hall), if_pos hd]

theorem forwardSt_hopLimit (hall : bitOf f.flags 0 = false) (hd : f.dest ≠ ownAddr s) (hh : 4095 ≤ f.hops) :
    forwardSt l f s = bump s (lkTtlDropCount l.val) := by
  unfold forwardSt
  rw [if_neg (Bool.eq_false_iff.1 hall), if_neg hd, if_pos hh]

theorem forwardSt_noRoute (hall : bitOf f.flags 0 = false) (hd : f.dest ≠ ownAddr s) (hh : f.hops < 4095)
    (hr : routeOf s false f = none) : forwardSt l f s = bump s (lkNorouteCount l.val) := by
  unfold forwardSt
  rw [if_neg (Bool.eq_false_iff.1 hall), if_neg hd, if_neg (Nat.not_le.2 hh), hr]

theorem forwardSt_passes (hall : bitOf f.flags 0 = false) (hd : f.dest ≠ ownAddr s) (hh : f.hops < 4095)
    (hr : routeOf s false f = some (out, g)) : forwardSt l f s = passOn s l out g := by
  unfold forwardSt
  rw [if_neg (Bool.eq_false_iff.1 hall), if_neg hd, if_neg (Nat.not_le.2 hh), hr]

/-- R404: a copy of an ALL frame seen in the last 100 ms. -/
theorem forwardSt_copy {t0 : Nat} (hall : bitOf f.flags 0 = true) (hm : (f.src, f.tag, t0) ∈ s.net.dups)
    (ht : elapsed s < t0 + 100 * msU) : forwardSt l f s = bump s (lkDupCount l.val) := by
  have hseen : (freshDups s).any (fun d => decide (d.1 = f.src ∧ d.2.1 = f.tag)) = true :=
    List.any_eq_true.2 ⟨_, List.mem_filter.2 ⟨hm, decide_eq_true ht⟩, decide_eq_true ⟨rfl, rfl⟩⟩
  have hnone : passAll s l f = none := if_pos hseen
  unfold forwardSt
  rw [if_pos hall, hnone]

/-- R403: a frame that is counted, not passed on, changes its counter alone. -/
theorem counted_noteRx {F : Fld} (hF : Fld.fits F = true) :
    getF (bump (noteRx s l f) F) F = min (getF s F + 1) (2 ^ (F.hi + 1 - F.lo) - 1) ∧ changesOnly [.regs, .net] s (bump (noteRx s l f) F) := by
  rw [getF_bump _ _ hF, getF_noteRx]
  exact ⟨rfl, (bump_moves rfl (noteRx_moves rfl (.refl _ s))).only⟩

/-! ### Frames held for a time (R401) -/

theorem timedSendSt_featureless (h : linkHas s l 11 = false) : timedSendSt l tag src ws s = writeResp s l src tag stBadRequest 0 0 := by
  unfold timedSendSt
  simp only [h, Bool.not_false, Bool.true_or, if_true]

/-- R401: a held frame waits for a time that has not come. -/
theorem timedSendSt_holds (h11 : linkHas s l 11 = true) (hlen : 23 ≤ ws.length)
    (hf : f = frameOf ((ws.drop 11).take 12) (ws.drop 23)) (hc : frameClass f = 0) (hok : frameOk f = true)
    (hn : bitsOf (wAt ((ws.drop 11).take 12) 5 2) 16 0 = f.payload.length) (hroom : s.net.timed.length < 16)
    (ht : stampNow s < ofTime110 (wAt ws 0 11)) : timedSendSt l tag src ws s =
      { writeResp s l src tag stOk 0 1023 with net :=
        { (writeResp s l src tag stOk 0 1023).net with
          timed := (writeResp s l src tag stOk 0 1023).net.timed ++ [(ofTime110 (wAt ws 0 11), f)] } } := by
  have hnot : ¬ ofTime110 (wAt ws 0 11) + incOf s / 1024 ≤ stampNow s := by omega
  unfold timedSendSt
  simp only [← hf, h11, hlen, hc, hok, hn, Nat.not_le.2 hroom, hnot, decide_true, Bool.not_true, Bool.and_self, Bool.or_self,
    Bool.false_eq_true, if_false]

theorem sendRouted_timed : (sendRouted s f).1.net.timed = s.net.timed := by
  unfold sendRouted
  split
  · exact sendOn_timed
  · rfl

theorem broadcast_timed : (broadcast s f).net.timed = s.net.timed := by
  unfold broadcast
  extract_lets h kept s1
  refine foldl_keeps (f := fun s => s.net.timed) (fun s m => ?_) _
  split
  · exact sendOn_timed
  · rfl

theorem leaves_timed : (if bitOf f.flags 0 then broadcast s f else (sendRouted s f).1).net.timed = s.net.timed := by
  split
  · exact broadcast_timed
  · exact sendRouted_timed

theorem launchFrame_timed {t : Nat} : (launchFrame s t f).net.timed = s.net.timed := by
  unfold launchFrame
  by_cases h : t + incOf s / 1024 ≤ stampNow s
  · simp only [h, decide_true, if_true]
    exact leaves_timed (s := bump s lkTimedLate) (f := { f with flags := f.flags ||| flagLate })
  · simp only [h, decide_false, Bool.false_eq_true, if_false]
    exact leaves_timed

/-- The state with a list of frames held. -/
def withTimed (s : State) (xs : List (Nat × Frame)) : State := { s with net := { s.net with timed := xs } }

theorem timedLaunchSt_due {at_ : Nat} (h : s.net.timed = [(at_, f)]) (ht : at_ ≤ stampNow s) :
    timedLaunchSt s = launchFrame (withTimed s []) at_ f := by
  have hfirst : firstTimed s.net.timed = some (at_, f) := by rw [h]; rfl
  unfold timedLaunchSt
  rw [hfirst]
  dsimp only
  rw [if_pos ht, h, List.erase_cons_head]
  rfl

theorem timedLaunchSt_waits {at_ : Nat} (h : s.net.timed = [(at_, f)]) (ht : stampNow s < at_) : timedLaunchSt s = s := by
  have hfirst : firstTimed s.net.timed = some (at_, f) := by rw [h]; rfl
  unfold timedLaunchSt
  simp only [hfirst, Nat.not_le.2 ht, if_false]

end

/-- Settles O40: each frame by the branch of the receiver that takes it. -/
theorem linkFrames : Obligations.LinkFrames := by
  refine ⟨fun s l g hu => ?_, fun s l hu => ?_, fun s l hu => ⟨?_, fun g => ?_, fun xs => ?_⟩,
    fun s l xs f hu hx hok hall hd hh => ?_, fun s l xs f hu hx hok hall hd hh hr => ?_,
    fun s l xs f out g hu hx hok hall hd hh hr hc => ?_, fun s l xs f out g hu hx hok hall hd hh hr hc => ?_,
    fun s l xs f hu hx hok hall hd => ?_, fun s l xs f t0 hu hx hok hall hm ht => ?_, fun s l xs hu hx => ?_,
    fun s l tag src ws hu hok h11 => ?_, fun s l tag src ws f hu hok h11 hlen hf hc hin hn hroom ht => ?_,
    fun s at_ f h ht => ?_, fun s at_ f h ht => congrArg _ (timedLaunchSt_waits h ht)⟩
  · refine goesOnWith_of_step (f := fun s => whenB _ s (creditSt l g s)) rfl (whenB_of_true hu) ?_
    unfold creditSt
    rw [modLink_link]
    exact ⟨rfl, fun c => vget_ofFn _ c, (modLink_moves rfl (.refl _ s)).only⟩
  · refine goesOnWith_of_step (f := fun s => whenB _ s (sendOn s l _).1) rfl
      ((whenB_of_true hu).trans (congrArg Prod.fst (sendOn_prio hu (by rw [frameClass_ownFrame])))) ?_
    rw [modLink_link]
    exact ⟨rfl, rfl, List.length_append, (modLink_moves rfl (.refl _ s)).only⟩
  · exact congrArg _ (whenB_of_false hu)
  · exact congrArg _ (whenB_of_false hu)
  · exact congrArg _ (whenB_of_false hu)
  · refine goesOnWith_of_next (frameForward_good hu hx hok) ?_
    rw [forwardSt_hopLimit hall (s := noteRx s l f) hd hh]
    exact counted_noteRx rfl
  · refine goesOnWith_of_next (frameForward_good hu hx hok) ?_
    rw [forwardSt_noRoute hall (s := noteRx s l f) hd hh hr]
    exact counted_noteRx rfl
  · have hhops := routeOf_hops hr
    refine goesOnWith_of_next (frameForward_good hu hx hok) ?_
    rw [forwardSt_passes hall (s := noteRx s l f) hd hh hr, passOn_bulk (hhops ▸ hh) hc, modLink_link, hhops]
    refine ⟨?_, (modLink_moves rfl (noteRx_moves rfl (.refl _ s))).only⟩
    rw [noteRx_keeps (p := Link.fwd) fun _ _ => rfl]
  · have hhops := routeOf_hops hr
    refine goesOnWith_of_next (frameForward_good hu hx hok) ?_
    rw [forwardSt_passes hall (s := noteRx s l f) hd hh hr, passOn_mgmt (hhops ▸ hh) hc, modLink_link, hhops]
    refine ⟨?_, (modLink_moves rfl (noteRx_moves rfl (.refl _ s))).only⟩
    rw [noteRx_keeps (p := Link.mgmt) fun _ _ => rfl]
  · exact (frameForward_good hu hx hok).trans (congrArg _ (forwardSt_own hall hd))
  · refine goesOnWith_of_next (frameForward_good hu hx hok) ?_
    rw [forwardSt_copy hall (s := noteRx s l f) hm ht]
    exact counted_noteRx rfl
  · exact goesOnWith_of_next (frameForward_one hu hx) ⟨getF_bump _ _ rfl, (rxBad_moves rfl (.refl _ s)).only⟩
  · refine goesOnWith_of_step (f := fun s => receive s l _ (timedSendSt l tag src ws)) rfl
      ((receive_accepted hu hok).trans (timedSendSt_featureless (linkHas_noteRx.trans h11))) ?_
    exact ⟨sendOn_timed, (writeResp_moves rfl (noteRx_moves rfl (.refl _ s))).only⟩
  · have hup : linkUp (noteRx s l (rxFrame s 0x10A src tag ws)) l = true := hu
    have hholds := timedSendSt_holds (s := noteRx s l (rxFrame s 0x10A src tag ws)) (tag := tag) (src := src)
      (linkHas_noteRx.trans h11) hlen hf hc hin hn hroom ht
    refine goesOnWith_of_step (f := fun s => receive s l _ (timedSendSt l tag src ws)) rfl ((receive_accepted hu hok).trans hholds) ?_
    rw [writeResp_up hup]
    refine ⟨rfl, ?_, ?_⟩
    · refine (congrArg (fun L : Link => L.mgmt.length) modLink_link).trans (List.length_append.trans ?_)
      rw [noteRx_keeps (p := Link.mgmt) fun _ _ => rfl]
      rfl
    · exact (Moves.setNet rfl (modLink_moves rfl (noteRx_moves rfl (.refl _ s)))).only
  · have honly := (launchFrame_moves (P := [.regs, .net]) (t := at_) (f := f) rfl
      (Moves.setNet (x := (withTimed s []).net) rfl (.refl _ s))).only
    refine goesOnWith_of_step (f := timedLaunchSt) rfl (timedLaunchSt_due h ht) ⟨?_, honly.1 .now (by decide), honly⟩
    exact launchFrame_timed

end Sys2Proof.Laws
end

section
/-! SUPPORT. Chain levelling (R406, R407) and CHAIN_SYNC (R408): a run from its first request to its end, and the syncs of a mask. -/

namespace Sys2Proof.Laws
open Sys2Proof Sys2Proof.Machine Sys2Proof.Safety

section
variable {s : State} {l : Fin 3} {f : Frame} {c : LevelCfg} {r : LevelRun} {stamp t1 : Nat} {hold : Bool}

/-- The state with a level run, or none, under way. -/
def withLevel (s : State) (x : Option LevelRun) : State := { s with net := { s.net with level := x } }

theorem sendOn_level : (sendOn s l f).1.net.level = s.net.level := by
  show (netRest (sendOn s l f).1).level = (netRest s).level
  rw [sendOn_netRest]

theorem finOf_val (l : Fin 3) : finOf 3 l.val (by decide) = l := Fin.ext (Nat.mod_eq_of_lt l.isLt)

/-! ### The start of a run (R406) -/

/-- R406: a run with no exchange begun. -/
def newRun (link start : Nat) : LevelRun :=
  { link := link, start := start, begun := 0, t1 := [], sumE := 0, sumD := 0, done_ := 0, depth := 4095, holdover := false }

theorem levelStartSt_up (hc : levelCfg s = some c) (hsrc : (timeCfg s).source = 3) (hnone : s.net.level = none)
    (hu : linkUp s (levelLink s c) = true) : levelStartSt s = levelAsk s (newRun (levelLink s c).val (elapsed s)) := by
  unfold levelStartSt
  simp only [hc, hsrc, hnone, hu, Option.isSome_none, Bool.false_eq_true, ne_eq, not_true_eq_false, or_self, if_false, Bool.not_true]
  rfl

theorem levelStartSt_down (hc : levelCfg s = some c) (hsrc : (timeCfg s).source = 3) (hnone : s.net.level = none)
    (hu : linkUp s (levelLink s c) = false) : levelStartSt s = levelLost s true := by
  unfold levelStartSt
  simp only [hc, hsrc, hnone, hu, Option.isSome_none, Bool.false_eq_true, ne_eq, not_true_eq_false, or_self, if_false, Bool.not_false,
    if_true]

/-- R406: the request of a run's next exchange. -/
def askFrame (s : State) (l : Fin 3) (r : LevelRun) : Frame :=
  ownFrame s 0x008 ((quadAt s l).partner % 4096) 0 (timeWords (levelStamp (stampNow s)) ++ [BitVec.ofNat 10 r.begun])

theorem levelAsk_up (hl : r.link = l.val) (hu : linkUp s l = true) : levelAsk s r =
    modLink (withLevel s (some { r with begun := r.begun + 1 })) l (fun L => { L with prio := L.prio ++ [askFrame s l r] }) := by
  have hfin : finOf 3 r.link (by decide) = l := by rw [hl, finOf_val]
  have hup : linkUp (withLevel s (some { r with begun := r.begun + 1 })) l = true := hu
  unfold levelAsk
  rw [hfin]
  exact congrArg Prod.fst (sendOn_prio hup (by rw [frameClass_ownFrame]))

/-! ### No run delivered (R407) -/

/-- One period more without a delivery. -/
def missedRun (s : State) : State := { s with net := { s.net with levelValid := false, levelMiss := s.net.levelMiss + 1 } }

theorem enterHoldover_holds : (enterHoldover s).time.holdover = true := by
  unfold enterHoldover
  split
  next h => exact h
  · rfl

theorem enterHoldover_net : (enterHoldover s).net = s.net := (enterHoldover_moves (P := [.regs, .time]) rfl (.refl _ s)).only.1 .net (by decide)

theorem levelLost_net : (levelLost s hold).net = (missedRun s).net := by
  unfold levelLost
  extract_lets s1
  split
  · rw [setF_net, enterHoldover_net]
    rfl
  · rfl

theorem levelLost_held : levelLost s true = setF (enterHoldover (missedRun s)) lkLevelDepth 4095 := by
  unfold levelLost
  exact if_pos (Or.inl rfl)

/-! ### Requests and responses (R406) -/

/-- R406: the response to a request, stamped as it leaves. -/
def respFrame (s : State) (f : Frame) (stamp : Nat) : Frame :=
  ownFrame s 0x009 f.src 0 (timeWords (levelStamp stamp) ++ timeWords (levelStamp (stampNow s))
    ++ [BitVec.ofNat 10 (wAt f.payload 11 1)] ++ wordsOf 2 (ownDepth s) ++ [BitVec.ofNat 10 (b2n s.time.holdover)])

theorem levelReqSt_answers (hn : ¬ f.payload.length < 12) (hu : linkUp s l = true) :
    levelReqSt l f stamp s = modLink s l (fun L => { L with prio := L.prio ++ [respFrame s f stamp] }) :=
  (if_neg hn).trans (congrArg Prod.fst (sendOn_prio hu (by rw [frameClass_ownFrame])))

theorem timeWords_length (n : Nat) : (timeWords n).length = 11 := wordsOf_length _ _

theorem respFrame_stamp : (respFrame s f stamp).payload.take 11 = timeWords (levelStamp stamp) := by
  simp only [respFrame, ownFrame, List.append_assoc]
  exact List.take_left' (timeWords_length _)

theorem respFrame_number : ((respFrame s f stamp).payload.drop 22).take 1 = [BitVec.ofNat 10 (wAt f.payload 11 1)] := by
  simp only [respFrame, ownFrame, List.append_assoc]
  rw [← List.append_assoc (timeWords _), List.drop_left' (by rw [List.length_append, timeWords_length, timeWords_length])]
  rfl

/-- R406: a run with one exchange more completed. -/
def exchanged (r : LevelRun) (p : List Word) (t1 t4 : Nat) : LevelRun :=
  let a : Int := (t4 : Int) - (ofTime110 (wAt p 11 11) : Nat)
  let b : Int := (ofTime110 (wAt p 0 11) : Nat) - (t1 : Int)
  { r with t1 := tabErase r.t1 (wAt p 22 1), sumE := r.sumE + (a - b), sumD := r.sumD + (a + b), done_ := r.done_ + 1,
           depth := wAt p 23 2 % 4096, holdover := bitOf (wAt p 25 1) 0 }

theorem levelRespSt_completes (hn : ¬ f.payload.length < 26) (hr : s.net.level = some r) (hl : r.link = l.val)
    (ht : elapsed s ≤ r.start + msU) (hf : tabFind r.t1 (wAt f.payload 22 1) = some t1) :
    levelRespSt l f stamp s = withLevel s (some (exchanged r f.payload t1 (levelStamp stamp))) := by
  unfold levelRespSt
  simp only [if_neg hn, hr, hf]
  exact if_pos ⟨hl, ht⟩

/-! ### The end of a run (R406, R407) -/

theorem levelEndSt_lost (hr : s.net.level = some r) (hc : levelCfg s = some c) (ht : r.start + msU ≤ elapsed s) (hd : r.done_ < 6) :
    levelEndSt s = levelLost (withLevel s none) false := by
  unfold levelEndSt
  simp only [hr, hc]
  rw [if_pos (.inr ht), if_neg (by omega), decide_eq_false (by omega)]
  rfl

theorem levelEndSt_runs (hr : s.net.level = some r) (hc : levelCfg s = some c) (ht : elapsed s < r.start + msU) (hd : r.done_ ≠ 8) :
    levelEndSt s = s := by
  unfold levelEndSt
  simp only [hr, hc]
  exact if_neg (by omega)

/-! ### CHAIN_SYNC (R408) -/

/-- A frame taken as a CHAIN_SYNC. -/
def asChainSync (f : Frame) : Frame := { f with ftype := 0x00A }

/-- R390: a frame within the limit of a listed type. -/
theorem frameOk_of_limit {n ty : Nat} (ht : f.ftype = ty) (hl : frameLimit ty = some n) (hn : f.payload.length ≤ n) :
    frameOk f = true := by
  unfold frameOk
  rw [ht, hl]
  exact decide_eq_true hn

theorem frameOk_asChainSync (hn : f.payload.length = 37) : frameOk (asChainSync f) = true :=
  frameOk_of_limit (ty := 0x00A) (n := 37) rfl rfl (Nat.le_of_eq hn)

theorem exec_chainSync (hu : linkUp s l = true) (hn : f.payload.length = 37) (hall : bitOf f.flags 0 = false) :
    exec (.chainSync l f) s = .next (chainApply l (asChainSync f) (noteRx s l (asChainSync f))) := by
  refine congrArg Host.Outcome.next ((receive_accepted hu (frameOk_asChainSync hn)).trans ?_)
  unfold chainSyncSt
  exact (if_neg (not_not_intro hn)).trans (if_neg (Bool.eq_false_iff.1 hall))

theorem permits_noteRx {n : Nat} : permits (noteRx s l f) n = permits s n := rfl

theorem chainApply_refused (hn : f.payload.length = 37) (hp : permits s 4 = false) : chainApply l f s = bump s (lkRefusedCount l.val) :=
  (if_neg (not_not_intro hn)).trans (if_neg (Bool.eq_false_iff.1 hp))

theorem chainApply_syncs (hn : f.payload.length = 37) (hp : permits s 4 = true) :
    chainApply l f s = syncMask s (wAt f.payload 11 26) (ofTime110 (wAt f.payload 0 11)) :=
  (if_neg (not_not_intro hn)).trans (if_pos hp)

/-- The registers that syncs of streams write. -/
def syncRegs : List Nat := 0xF008 :: (List.range 256).map (fun n => 0x8019 + 64 * n)

theorem syncMask_writes {mask ts : Nat} : Writes syncRegs s (syncMask s mask ts) := by
  refine .foldl _ (.refl _ s) fun t n hn h => addSync_writes List.mem_cons_self (List.mem_cons_of_mem _ ?_) h
  exact List.mem_map_of_mem (List.mem_of_mem_filter hn)

theorem lkRefusedCount_not_sync : (lkRefusedCount l.val).addr ∉ syncRegs := by
  show 0xD406 + 32 * l.val ∉ syncRegs
  intro h
  rcases List.mem_cons.1 h with h | h
  · omega
  · obtain ⟨n, hn, e⟩ := List.mem_map.1 h
    have := List.mem_range.1 hn
    omega

theorem streamAt_noteRx {n : Nat} : streamAt (noteRx s l f) n = streamAt s n := rfl

end

/-- Settles O41: a run by its commands, in their order, and a CHAIN_SYNC by what class 4 permits. -/
theorem chainLevelling : Obligations.ChainLevelling := by
  refine ⟨fun s c hc hsrc hnone hu => ?_, fun s c hc hsrc hnone hu => ?_, fun s l f stamp hu hn => ?_,
    fun s l f stamp r t1 hu hn hr hl ht hf => ?_, fun s r c hr hc ht hd => ?_,
    fun s r c hr hc ht hd => congrArg _ (levelEndSt_runs hr hc ht hd), fun s l f hu hn hall hp => ?_, fun s l f hu hn hall hp => ?_,
    fun s l f n c hu hn hall hp hmask hc hfew hlast => ?_⟩
  · have honly := (levelAsk_moves (P := [.net]) (r := newRun (levelLink s c).val (elapsed s)) rfl (.refl _ s)).only
    refine goesOnWith_of_step (f := levelStartSt) rfl (levelStartSt_up hc hsrc hnone hu) ⟨?_, ?_, honly.1 .time (by decide), honly⟩
    · rw [levelAsk_up rfl hu]
      rfl
    · rw [levelAsk_up rfl hu, modLink_link]
      exact List.length_append
  · refine goesOnWith_of_step (f := levelStartSt) rfl (levelStartSt_down hc hsrc hnone hu) ⟨?_, ?_, ?_, ?_, (levelLost_moves rfl (.refl _ s)).only⟩
    · rw [levelLost_held, setF_time]
      exact enterHoldover_holds
    · rw [levelLost_net]
      exact hnone
    · rw [levelLost_net]
      rfl
    · rw [levelLost_held]
      exact getF_setF _ _ _ rfl
  · have hok : frameOk { f with ftype := 0x008 } = true :=
      frameOk_of_limit (ty := 0x008) (n := 16) rfl rfl (by rw [hn]; decide)
    have hup : linkUp (noteRx s l { f with ftype := 0x008 }) l = true := hu
    refine goesOnWith_of_step (f := fun s => receive s l { f with ftype := 0x008 } (levelReqSt l { f with ftype := 0x008 } stamp)) rfl
      ((receive_accepted hu hok).trans (levelReqSt_answers (by rw [hn]; decide) hup)) ?_
    rw [modLink_link, noteRx_keeps (p := Link.prio) fun _ _ => rfl]
    refine ⟨rfl, rfl, rfl, List.length_append, ?_, (modLink_moves rfl (noteRx_moves rfl (.refl _ s))).only⟩
    rw [List.getLast?_concat]
    simp only [Option.map_some, respFrame_stamp, respFrame_number]
    rfl
  · have hok : frameOk { f with ftype := 0x009 } = true :=
      frameOk_of_limit (ty := 0x009) (n := 28) rfl rfl (by rw [hn]; decide)
    have hrun := levelRespSt_completes (s := noteRx s l { f with ftype := 0x009 }) (f := { f with ftype := 0x009 }) (stamp := stamp)
      (by rw [hn]; decide) hr hl ht hf
    refine goesOnWith_of_step (f := fun s => receive s l { f with ftype := 0x009 } (levelRespSt l { f with ftype := 0x009 } stamp)) rfl
      ((receive_accepted hu hok).trans hrun) ⟨rfl, ?_, (Moves.setNet rfl (noteRx_moves rfl (.refl _ s))).only⟩
    exact congrArg some (add_assoc _ _ _).symm
  · refine goesOnWith_of_step (f := levelEndSt) rfl (levelEndSt_lost hr hc ht hd) ?_
    rw [levelLost_net]
    exact ⟨rfl, rfl, rfl, (levelLost_moves (P := [.regs, .net, .time]) rfl (.refl _ (withLevel s none))).only.1 .now (by decide)⟩
  · refine goesOnWith_of_next ((exec_chainSync hu hn hall).trans (congrArg _ (chainApply_refused hn hp))) ?_
    obtain ⟨hcount, honly⟩ := counted_noteRx (s := s) (l := l) (f := asChainSync f) (F := lkRefusedCount l.val) rfl
    exact ⟨hcount, honly.1 .streams (by decide), honly⟩
  · refine goesOnWith_of_next ((exec_chainSync hu hn hall).trans (congrArg _ (chainApply_syncs hn hp))) ⟨?_, ?_⟩
    · rw [getF_of_writes syncMask_writes lkRefusedCount_not_sync, getF_noteRx]
    · exact (syncMask_moves rfl (noteRx_moves rfl (.refl _ s))).only
  · have hone : syncMask (noteRx s l (asChainSync f)) (wAt f.payload 11 26) (ofTime110 (wAt f.payload 0 11))
        = addSync (noteRx s l (asChainSync f)) n.val (ofTime110 (wAt f.payload 0 11)) := by
      unfold syncMask
      rw [hmask]
      rfl
    obtain ⟨hlen, hmem, honly⟩ := addSync_added (s := noteRx s l (asChainSync f)) (ts := ofTime110 (wAt f.payload 0 11))
      (streamAt_noteRx.trans hc) hfew hlast
    refine goesOnWith_of_next ((exec_chainSync hu hn hall).trans (congrArg _ ((chainApply_syncs (s := noteRx s l _) (f := asChainSync f) hn hp).trans hone))) ⟨hlen, hmem, ?_⟩
    rw [addSync_waits (streamAt_noteRx.trans hc) hfew hlast]
    exact (modStrm_moves rfl (noteRx_moves rfl (.refl _ s))).only

end Sys2Proof.Laws
end

section
/-! SUPPORT. The resets of the whole device (R437, R438, R484): what a POR and a COLD reset leave. -/

namespace Sys2Proof.Laws
open Sys2Proof Sys2Proof.Machine Sys2Proof.Safety

section
variable {s : State} {kind cause : Nat}

/-- R437: after a COLD reset or a POR the registers hold their reset values, DRAM and the log are empty, no WARM reset is counted, and
OTP is as it was. -/
def Emptied (s t : State) : Prop :=
  t.regs = [] ∧ t.dram = [] ∧ t.log.entries = [] ∧ t.keeper.warmTimes = [] ∧ t.keeper.otp = s.keeper.otp

theorem coldState_empties (s : State) (kind cause : Nat) : Emptied s (coldState s kind cause) := ⟨rfl, rfl, rfl, rfl, rfl⟩

theorem coldState_record (s : State) (kind cause : Nat) :
    (coldState s kind cause).keeper.resetKind = kind ∧ (coldState s kind cause).keeper.resetCause = cause := ⟨rfl, rfl⟩

/-- R438: flash keeps its contents over a COLD reset. -/
theorem coldReset_flash (s : State) (cause : Nat) : (coldReset s cause).mgmt.flash = s.mgmt.flash := rfl

/-- R42, R438: RESET COLD. -/
theorem mbxServe_resetCold (u : State) : mbxServe u (mbxReqOf 5 1 0 0) = coldReset u 3 := rfl

end

/-- Settles O6: every reset of the whole device is a COLD reset or a POR, of its own cause; the rising edges change a level alone. -/
theorem deviceResets : Obligations.DeviceResets := by
  refine ⟨fun s => ?_, fun s => ?_, fun s => ?_, fun s hp => ?_, fun s => ?_, fun s => ?_, fun s hq hk => ?_⟩
  · obtain ⟨hregs, hdram, hlog, -, hotp⟩ := coldState_empties s 0 0
    exact goesOnWith_of_next (t := porReset s) rfl ⟨rfl, hregs, hdram, hlog, hotp⟩
  · obtain ⟨hregs, -, -, -, hotp⟩ := coldState_empties { s with keeper := { s.keeper with pwrgood := false } } 0 0
    exact goesOnWith_of_next (t := porReset { s with keeper := { s.keeper with pwrgood := false } }) rfl ⟨rfl, rfl, hregs, hotp⟩
  · exact goesOnWith_of_next rfl ⟨rfl, rfl, (pwrgoodRise_confined s _ rfl).only⟩
  · obtain ⟨hregs, hdram, -, -, hotp⟩ := coldState_empties { s with keeper := { s.keeper with resetN := false } } 1 1
    exact goesOnWith_of_next (t := coldReset { s with keeper := { s.keeper with resetN := false } } 1) (congrArg _ (if_pos hp))
      ⟨rfl, rfl, rfl, hregs, hdram, hotp, rfl⟩
  · exact goesOnWith_of_next rfl ⟨rfl, rfl, (resetNRise_confined s _ rfl).only⟩
  · obtain ⟨hregs, hdram, -, hwarm, hotp⟩ := coldState_empties s 1 10
    obtain ⟨hkind, hcause⟩ := coldState_record s 1 10
    exact goesOnWith_of_next (t := coldReset s 10) rfl ⟨hkind, hcause, hregs, hdram, hwarm, hotp, coldReset_flash s 10⟩
  · obtain ⟨hregs, -, -, -, hotp⟩ := coldState_empties s 1 3
    obtain ⟨hkind, hcause⟩ := coldState_record s 1 3
    exact goesOnWith_served (f := fun u => coldReset u 3) (fun _ => rfl) mbxServe_resetCold hq hk (coldReset_emptiesQueue s 3)
      ⟨hkind, hcause, hregs, hotp, coldReset_flash s 3⟩

end Sys2Proof.Laws
end

section
/-! SUPPORT. LINE resets (R441, R442): what a line's reset leaves of the other line, of the lasers and of the keeper. -/

namespace Sys2Proof.Laws
open Sys2Proof Sys2Proof.Machine Sys2Proof.Safety

/-- Every part of the state but the sequencers. -/
def allButProbe : List Part := [.regs, .cfg, .keeper, .otp, .book, .log, .fu, .trav, .conv, .pce, .sense, .net, .time, .mem, .hk,
  .zn, .streams, .code, .mgmt, .flash, .samples, .dram, .xbuf, .now, .up, .freeCtr]

/-- Every part of the state but the sequencers and the converters. -/
def allButLines : List Part := [.regs, .cfg, .keeper, .otp, .book, .log, .fu, .trav, .pce, .sense, .net, .time, .mem, .hk,
  .zn, .streams, .code, .mgmt, .flash, .samples, .dram, .xbuf, .now, .up, .freeCtr]

section
variable {z s t : State} {l m : Fin 2}

/-! ### The other line -/

/-- The sequencer and the converters of a line stay as they are. -/
def KeepsLine (m : Fin 2) (z s : State) : Prop := vget s.probe m = vget z.probe m ∧ vget s.conv m = vget z.conv m

theorem KeepsLine.refl (m : Fin 2) (z : State) : KeepsLine m z z := ⟨rfl, rfl⟩

theorem KeepsLine.keep (k : Moves allButLines s t) (h : KeepsLine m z s) : KeepsLine m z t := by
  obtain ⟨hprobe, hconv⟩ := h
  exact ⟨(congrArg (vget · m) (k.only.1 .probe (by decide))).trans hprobe, (congrArg (vget · m) (k.only.1 .conv (by decide))).trans hconv⟩

theorem KeepsLine.modProbe {f : Probe → Probe} (hlm : l ≠ m) (h : KeepsLine m z s) : KeepsLine m z (Machine.modProbe s l f) :=
  ⟨(vget_vmod_ne _ _ hlm).trans h.1, h.2⟩

theorem KeepsLine.modConv {f : Conv → Conv} (hlm : l ≠ m) (h : KeepsLine m z s) : KeepsLine m z (Machine.modConv s l f) :=
  ⟨h.1, (vget_vmod_ne _ _ hlm).trans h.2⟩

theorem KeepsLine.setF {f : Fld} {v : Nat} (h : KeepsLine m z s) : KeepsLine m z (Machine.setF s f v) :=
  h.keep (setF_moves rfl (.refl _ s))

theorem KeepsLine.openSpan {why : MarkWhy} {mask : Nat} (hlm : l ≠ m) (h : KeepsLine m z s) :
    KeepsLine m z (Machine.openSpan s l why mask) := by
  unfold Machine.openSpan
  split
  · exact h
  · exact h.modConv hlm

theorem KeepsLine.setBusy {mask : Nat} (hlm : l ≠ m) (h : KeepsLine m z s) : KeepsLine m z (Machine.setBusy s l mask) :=
  ((h.openSpan hlm).modConv hlm).setF

theorem KeepsLine.raiseSettling (hlm : l ≠ m) (h : KeepsLine m z s) : KeepsLine m z (Machine.raiseSettling s l) := by
  unfold Machine.raiseSettling
  split
  · exact h
  · exact (h.modConv hlm).openSpan hlm

theorem KeepsLine.applyRange {n : Fin 2} (hlm : l ≠ m) (h : KeepsLine m z s) : KeepsLine m z (Machine.applyRange s l n) := by
  unfold Machine.applyRange
  extract_lets C
  split
  · exact h
  · extract_lets s1
    split
    · exact h.modConv hlm
    · exact (h.modConv hlm).keep (bump_moves rfl (.refl _ s1))

theorem KeepsLine.closeWindow (hlm : l ≠ m) (h : KeepsLine m z s) : KeepsLine m z (Machine.closeWindow s l) :=
  ((h.applyRange hlm).applyRange hlm).modConv hlm

theorem KeepsLine.convStop {requeue : Bool} (hlm : l ≠ m) (h : KeepsLine m z s) : KeepsLine m z (Machine.convStop s l requeue) :=
  ((h.modConv hlm).setBusy hlm).setF.setF

theorem KeepsLine.disarmLine (hlm : l ≠ m) (h : KeepsLine m z s) : KeepsLine m z (Machine.disarmLine s l) := by
  refine ⟨(disarmLine_otherProbe hlm).trans h.1, Eq.trans ?_ h.2⟩
  unfold Machine.disarmLine Machine.apdUpdate
  extract_lets s1 w
  have hcut : s1.conv = s.conv := by
    rw [modProbe_conv, setF_conv]
    exact (cutLine_moves (P := [.regs, .log, .probe]) rfl (.refl _ s)).only.1 .conv (by decide)
  rw [modConv_conv, vget_vmod_ne _ _ hlm, hcut]

theorem KeepsLine.disarmForEvent (hlm : l ≠ m) (h : KeepsLine m z s) : KeepsLine m z (Machine.disarmForEvent s l) := by
  unfold Machine.disarmForEvent
  extract_lets was
  split
  · exact KeepsLine.disarmLine hlm h
  · exact h.disarmLine hlm

theorem KeepsLine.emptyLine (hlm : l ≠ m) (h : KeepsLine m z s) : KeepsLine m z (Machine.emptyLine s l) := by
  unfold Machine.emptyLine
  extract_lets s1 s2 s3
  have h2 : KeepsLine m z s2 := KeepsLine.modProbe hlm ((h.modProbe hlm).keep (pceLineReset_moves rfl (.refl _ s1)))
  exact h2.keep (ramanRestart_moves rfl (dasRestart_moves rfl (zeroLine_moves rfl (stopLineTravs_moves rfl (.refl _ s2)))))

theorem KeepsLine.lineResetWork (hlm : l ≠ m) (h : KeepsLine m z s) : KeepsLine m z (Machine.lineResetWork s l) :=
  ((((h.disarmForEvent hlm).emptyLine hlm).closeWindow hlm).raiseSettling hlm).keep
    (clearTimers_moves rfl (staleLine_moves rfl (restartLineStreams_moves rfl (.refl _ _))))

/-! ### The lasers -/

/-- Each line's laser is on or off as it was. -/
def SameLaser (z s : State) : Prop := ∀ m : Fin 2, (vget s.probe m).laserEn = (vget z.probe m).laserEn

theorem SameLaser.refl (z : State) : SameLaser z z := fun _ => rfl

theorem SameLaser.keep (k : Moves allButProbe s t) (h : SameLaser z s) : SameLaser z t := by
  unfold SameLaser
  rw [show t.probe = s.probe from k.only.1 .probe (by decide)]
  exact h

theorem SameLaser.modProbe {f : Probe → Probe} (hf : ∀ P, (f P).laserEn = P.laserEn) (h : SameLaser z s) :
    SameLaser z (Machine.modProbe s l f) := by
  intro k
  rw [modProbe_probe]
  by_cases e : l = k
  · subst e
    rw [vget_vmod, hf]
    exact h l
  · rw [vget_vmod_ne _ _ e]
    exact h k

theorem SameLaser.foldl {α : Type} {g : State → α → State} (xs : List α) (h : SameLaser z s)
    (hg : ∀ s x, SameLaser z s → SameLaser z (g s x)) : SameLaser z (xs.foldl g s) :=
  List.foldlRecOn xs g h fun s k x _ => hg s x k

theorem SameLaser.sweepRestart (h : SameLaser z s) : SameLaser z (Machine.sweepRestart s l) := h.modProbe fun _ => rfl

theorem SameLaser.emptyLine (h : SameLaser z s) : SameLaser z (Machine.emptyLine s l) := by
  unfold Machine.emptyLine
  extract_lets s1 s2 s3
  have h1 : SameLaser z s1 := h.modProbe fun _ => rfl
  have h2 : SameLaser z s2 := (h1.keep (pceLineReset_moves rfl (.refl _ s1))).sweepRestart
  exact h2.keep (ramanRestart_moves rfl (dasRestart_moves rfl (zeroLine_moves rfl (stopLineTravs_moves rfl (.refl _ s2)))))

theorem disarmForEvent_laser : (vget (disarmForEvent s l).probe l).laserEn = false := disarmLine_off.1

/-- R441: the work of a LINE reset turns the line's laser off. -/
theorem lineResetWork_laser : (vget (lineResetWork s l).probe l).laserEn = false := by
  have h : SameLaser (disarmForEvent s l) (lineResetWork s l) := (SameLaser.refl _).emptyLine.keep
    (clearTimers_moves rfl (staleLine_moves rfl (restartLineStreams_moves rfl
      (raiseSettling_moves rfl (closeWindow_moves rfl (.refl _ _))))))
  exact (h l).trans disarmForEvent_laser

/-! ### A LINE reset -/

theorem line_bit_set (b : BitVec 2) (l : Fin 2) : (b ||| BitVec.ofNat 2 (2 ^ l.val)).getLsbD l.val = true := by
  revert b l
  decide

theorem line_bit_cleared (b : BitVec 2) (l : Fin 2) : (b &&& ~~~(BitVec.ofNat 2 (2 ^ l.val))).getLsbD l.val = false := by
  revert b l
  decide

theorem proxyAck_only (u : State) : changesOnly [.fu] u (proxyAck u) := (proxyAck_moves rfl (.refl _ u)).only

theorem lineResetSt_bit : (lineResetSt l s).keeper.lineReset.getLsbD l.val = true := by
  unfold lineResetSt
  extract_lets s1 s2 s3 s4
  rw [(proxyAck_only _).1 .keeper (by decide)]
  exact line_bit_set _ l

/-- What follows the work of a LINE reset, its converters aside, is neither of the sequencers nor of the converters. -/
theorem lineResetSt_lines : ∃ u, Moves allButLines (convStop (lineResetWork s l) l true) u ∧ KeepsLine m u (lineResetSt l s)
    ∧ SameLaser u (lineResetSt l s) := by
  unfold lineResetSt
  extract_lets s1 s2 s3 s4
  have h4 : Moves allButLines (convStop (lineResetWork s l) l true) s4 :=
    modHk_moves rfl (keepRegs_moves rfl (bump_moves rfl (clearLost_moves rfl (clearSticky_moves rfl (.refl _ _)))))
  clear_value s4
  refine ⟨s4, h4, ?_, ?_⟩
  · exact KeepsLine.keep (proxyAck_moves rfl (.refl _ _)) (KeepsLine.refl m s4)
  · exact SameLaser.keep (proxyAck_moves rfl (.refl _ _)) (SameLaser.refl s4)

theorem lineResetSt_laser : (vget (lineResetSt l s).probe l).laserEn = false := by
  obtain ⟨u, hu, -, hsame⟩ := lineResetSt_lines (s := s) (l := l) (m := l)
  have hprobe : u.probe = (lineResetWork s l).probe := (hu.only.1 .probe (by decide)).trans
    ((convStop_moves (P := [.regs, .conv]) rfl (.refl _ (lineResetWork s l))).only.1 .probe (by decide))
  rw [hsame l, hprobe, lineResetWork_laser]

theorem lineResetSt_otherLine (hlm : l ≠ m) : KeepsLine m s (lineResetSt l s) := by
  obtain ⟨u, hu, hsame, -⟩ := lineResetSt_lines (s := s) (l := l) (m := m)
  obtain ⟨hprobe, hconv⟩ := (((KeepsLine.refl m s).lineResetWork hlm).convStop (requeue := true) hlm).keep hu
  exact ⟨hsame.1.trans hprobe, hsame.2.trans hconv⟩

theorem mbxAnswer_keepsLine {code status detail : Nat} : KeepsLine m s (mbxAnswer s code status detail) :=
  (KeepsLine.refl m s).keep (mbxAnswer_moves rfl (.refl _ s))

/-! ### The keeper while lines are armed again -/

/-- The lines under reset and the steps of a standby exit stay as they are. -/
def KeepsTransit (z s : State) : Prop :=
  s.keeper.lineReset = z.keeper.lineReset ∧ s.keeper.transit = z.keeper.transit ∧ s.keeper.exitStep = z.keeper.exitStep

theorem KeepsTransit.refl (z : State) : KeepsTransit z z := ⟨rfl, rfl, rfl⟩

theorem KeepsTransit.keep (k : Moves allButKeeper s t) (h : KeepsTransit z s) : KeepsTransit z t := by
  unfold KeepsTransit
  rw [show t.keeper = s.keeper from k.only.1 .keeper (by decide)]
  exact h

theorem mbxAnswer_keepsTransit {code status detail : Nat} (h : KeepsTransit z s) : KeepsTransit z (mbxAnswer s code status detail) := h

theorem mbxRefuse_keepsTransit {code : Nat} (h : KeepsTransit z s) : KeepsTransit z (mbxRefuse s code) := h

theorem setRearm_keepsTransit {on : Bool} (h : KeepsTransit z s) : KeepsTransit z (setRearm s l on) := h

theorem laserArmSt_keepsTransit (h : KeepsTransit z s) : KeepsTransit z (laserArmSt l s) := by
  unfold laserArmSt
  extract_lets s1
  have h1 : KeepsTransit z s1 := setRearm_keepsTransit h
  split
  · exact mbxAnswer_keepsTransit h1
  · split
    · exact mbxAnswer_keepsTransit (h1.keep (armLine_moves rfl (.refl _ s1)))
    · exact mbxRefuse_keepsTransit h1

theorem rearmLines_keepsTransit (h : KeepsTransit z s) : KeepsTransit z (rearmLines s) := by
  refine List.foldlRecOn _ _ h fun u hu k _ => ?_
  split
  · exact laserArmSt_keepsTransit hu
  · exact hu

/-- R441: at its end the line is no longer under reset. -/
theorem lineResetDoneSt_bit (h : s.keeper.lineReset.getLsbD l.val = true) :
    (lineResetDoneSt l s).keeper.lineReset.getLsbD l.val = false := by
  unfold lineResetDoneSt
  rw [if_pos h]
  extract_lets k s1
  have hk : KeepsTransit s1 (restartSchedule (remeasure (resumeCal s1 l) l) l) :=
    (KeepsTransit.refl s1).keep (restartSchedule_moves rfl (remeasure_moves rfl (resumeCal_moves rfl (.refl _ s1))))
  rw [(rearmLines_keepsTransit hk).1]
  exact line_bit_cleared _ l

theorem lineResetDone_otp : (lineResetDoneSt l s).keeper.otp = s.keeper.otp :=
  (lineResetDoneSt_moves (P := [.regs, .keeper, .log, .probe, .conv, .pce, .hk, .freeCtr]) rfl (.refl _ s)).only.1 .otp (by decide)

/-! ### The request -/

theorem mbxLineSt_warm (h : s.keeper.warm = true) : mbxLineSt l s = mbxAnswer s 5 4 0 := if_pos h

theorem mbxLineSt_inactive (hw : s.keeper.warm = false) (h : lineActive s l.val = false) : mbxLineSt l s = mbxAnswer s 5 1 0 := by
  unfold mbxLineSt
  rw [hw, h, Bool.false_and, if_neg Bool.false_ne_true, if_neg Bool.false_ne_true]
  rfl

theorem mbxLineSt_granted (hw : s.keeper.warm = false) (h : lineActive s l.val = true) (hs : inStandby s = false) :
    mbxLineSt l s = lineResetSt l (mbxAnswer s 5 0 0) := by
  unfold mbxLineSt
  rw [hw, h, hs, if_neg Bool.false_ne_true, Bool.not_false, Bool.and_true, if_pos rfl]
  rfl

end

/-- Settles O8: a granted LINE reset is its own line's work, which leaves the other line's sequencer and converters alone. -/
theorem lineResets : Obligations.LineResets := by
  have served {s : State} {l : Fin 2} {P : State → Prop} (hq : s.keeper.mbx = []) (hk : keeperRuns s = true)
      (h : P (mbxLineSt l s)) : goesOnWith (exec (.mbxResetLine l) s) P :=
    goesOnWith_served (fun _ => rfl) (mbxServe_resetLine · l) hq hk (KeepsQueue.leavesNone mbxLineSt_keepsQueue hq) h
  refine ⟨fun s l hq hk hw ha hs => served hq hk ?_, fun s l hq hk hw => served hq hk ?_, fun s l hq hk hw ha => served hq hk ?_,
    fun s l h => ?_⟩
  · rw [mbxLineSt_granted hw ha hs]
    refine ⟨lineResetSt_bit, lineResetSt_laser, fun k hkl => ?_⟩
    obtain ⟨hprobe, hconv⟩ := lineResetSt_otherLine (s := mbxAnswer s 5 0 0) hkl.symm
    obtain ⟨hprobe', hconv'⟩ := mbxAnswer_keepsLine (s := s) (m := k) (code := 5) (status := 0) (detail := 0)
    exact ⟨hprobe.trans hprobe', hconv.trans hconv'⟩
  · rw [mbxLineSt_warm hw]
    exact ⟨getF_mbxAnswer_code, getF_mbxAnswer_status, mbxAnswer_only rfl⟩
  · rw [mbxLineSt_inactive hw ha]
    exact ⟨getF_mbxAnswer_code, getF_mbxAnswer_status, mbxAnswer_only rfl⟩
  · exact goesOnWith_of_next (t := lineResetDoneSt l s) rfl ⟨lineResetDoneSt_bit h, lineResetDone_otp⟩

end Sys2Proof.Laws
end

section
/-! SUPPORT. Standby (R442, R446, R447, R449): what entry leaves, how an exit starts, its steps and its end. -/

namespace Sys2Proof.Laws
open Sys2Proof Sys2Proof.Machine Sys2Proof.Safety

section
variable {z s : State} {cause : Nat}

/-! ### Entry -/

/-- R99: with every line disarmed, no laser is on. -/
theorem foldl_disarmForEvent_laser (l : Fin 2) : (vget ((List.finRange 2).foldl disarmForEvent s).probe l).laserEn = false := by
  rw [show List.finRange 2 = [0, 1] from rfl, List.foldl_cons, List.foldl_cons, List.foldl_nil]
  match l with
  | 0 => rw [((KeepsLine.refl 0 _).disarmForEvent (by decide)).1, disarmForEvent_laser]
  | 1 => exact disarmForEvent_laser

theorem standbyKeep_probe (u : State) : (standbyKeep u).probe = u.probe := by
  unfold standbyKeep
  extract_lets k
  rw [(keepRegs_moves (P := [.regs, .net]) rfl (idleQuads_moves rfl (.refl _ _))).only.1 .probe (by decide)]

theorem standbyKeep_sameLaser (h : SameLaser z s) : SameLaser z (standbyKeep s) := by
  unfold SameLaser
  rw [standbyKeep_probe]
  exact h

theorem enterStandby_sameLaser : SameLaser ((List.finRange 2).foldl disarmForEvent s) (enterStandby s cause) := by
  unfold enterStandby
  extract_lets s1 s2 s3 s4 s5 s6
  have h2 : SameLaser s1 s2 := (SameLaser.refl s1).foldl _ fun _ _ k => k.modProbe fun _ => rfl
  have m3 : Moves allButProbe s2 s3 := .forEach (fun _ _ k => restartStream_moves rfl k) (.refl _ _)
  have m5 : Moves allButProbe s4 s5 := holdLoops_moves rfl (.folded (fun _ _ k => staleLine_moves rfl k) (.refl _ _))
  have h5 : SameLaser s1 s5 := .keep m5 (.keep (setF_moves rfl (setF_moves rfl m3)) h2)
  have h6 : SameLaser s1 s6 := .foldl _ h5 fun u l k => by
    have m : Moves allButProbe u (modConv (closeWindow (convStop u l true) l) l resetSpare) :=
      modConv_moves rfl (closeWindow_moves rfl (convStop_moves rfl (.refl _ _)))
    exact .keep (clearSticky_moves rfl (stopLineTravs_moves rfl (pceStop_moves rfl (.refl _ _)))) (k.keep m).sweepRestart
  clear_value s6
  have h7 : SameLaser s1 (clearLost s6) := h6.keep (clearLost_moves rfl (.refl _ s6))
  exact .keep (proxyAck_moves rfl (.refl _ _)) (standbyKeep_sameLaser h7)

theorem enterStandby_laser (l : Fin 2) : (vget (enterStandby s cause).probe l).laserEn = false :=
  (enterStandby_sameLaser l).trans (foldl_disarmForEvent_laser l)

theorem standbyKeep_mem (u : State) : (standbyKeep u).mem.selfRefresh = true ∧ (standbyKeep u).mem.setPoint = 2
    ∧ (standbyKeep u).mem.blackout = none := by
  unfold standbyKeep
  extract_lets k
  rw [(keepRegs_moves (P := [.regs, .net]) rfl (idleQuads_moves rfl (.refl _ _))).only.1 .mem (by decide)]
  exact ⟨rfl, rfl, rfl⟩

/-- R446: DRAM is in self-refresh at set point F2, and no blackout is under way. -/
theorem enterStandby_mem : (enterStandby s cause).mem.selfRefresh = true ∧ (enterStandby s cause).mem.setPoint = 2
    ∧ (enterStandby s cause).mem.blackout = none := by
  unfold enterStandby
  extract_lets s1 s2 s3 s4 s5 s6
  rw [(proxyAck_only _).1 .mem (by decide)]
  exact standbyKeep_mem _

theorem enterStandby_book : (enterStandby s cause).book = s.book :=
  (enterStandby_moves (P := [.regs, .keeper, .log, .fu, .trav, .probe, .conv, .pce, .sense, .net, .time, .mem, .hk, .zn, .streams,
    .code]) rfl (.refl _ s)).only.1 .book (by decide)

theorem mbxEnterSt_granted (hb : bootPhase s = 11) (hf : s.mem.freeze = none) (hs : inStandby s = false) :
    mbxEnterSt s = enterStandby (mbxAnswer s 6 0 0) 1 := if_pos ⟨hb, hf, hs⟩

theorem mbxEnterSt_refused (h : bootPhase s ≠ 11 ∨ s.mem.freeze ≠ none ∨ inStandby s = true) :
    mbxEnterSt s = mbxAnswer s 6 1 0 := by
  refine if_neg fun ⟨hb, hf, hs⟩ => ?_
  rcases h with h | h | h
  · exact h hb
  · exact h hf
  · exact Bool.false_ne_true (hs.symm.trans h)

/-! ### The start of an exit -/

/-- R447: a granted exit: its first step is due, and DRAM leaves self-refresh. -/
theorem startExit_starts (h : s.keeper.transit ≠ 2) : (startExit s).keeper.transit = 2 ∧ (startExit s).keeper.exitStep = 0
    ∧ (startExit s).mem.selfRefresh = false := by
  unfold startExit
  rw [if_neg h]
  extract_lets _ _ s1 s2 s3
  have hm : Moves [.regs, .conv, .net, .hk] s1 s3 :=
    .folded (fun _ _ k => exitCal_moves rfl (raiseSettling_moves rfl (modConv_moves rfl k)))
      (.folded (fun _ _ k => wakeQuad_moves rfl k) (.refl _ s1))
  have hk : s3.keeper = s1.keeper := hm.only.1 .keeper (by decide)
  have hmem : s3.mem = s1.mem := hm.only.1 .mem (by decide)
  clear_value s3
  refine ⟨(congrArg Keeper.transit hk).trans rfl, (congrArg Keeper.exitStep hk).trans rfl, (congrArg MemSt.selfRefresh hmem).trans rfl⟩

theorem mbxExitSt_awake (h : inStandby s = false) : mbxExitSt s = mbxAnswer s 6 1 0 := if_pos h

theorem mbxExitSt_thermal (h : inStandby s = true) (hc : getF s bmPowerStbyCause = 2) : mbxExitSt s = mbxRefuse s 6 := by
  unfold mbxExitSt
  rw [h, if_neg (by simp), if_pos hc]

theorem mbxExitSt_granted (h : inStandby s = true) (hc : getF s bmPowerStbyCause ≠ 2) :
    mbxExitSt s = startExit (mbxAnswer s 6 0 0) := by
  unfold mbxExitSt
  rw [h, if_neg (by simp), if_neg hc]
  rfl

/-! ### The steps of an exit -/

/-- R447: the exit is one step further. -/
def exitCounted (s : State) : State := { s with keeper := { s.keeper with exitStep := s.keeper.exitStep + 1 } }

/-- R447: DRAM is at the operating set point, at least at a forced one. -/
def exitClocked (s : State) : State := { s with mem := { s.mem with
  setPoint := if s.mem.forced then max s.mem.setPoint (planSetPoint s) else planSetPoint s } }

theorem exitCounted_moves : Moves [.keeper] s (exitCounted s) := by
  unfold exitCounted
  with_reducible apply Moves.setKeeper rfl
  · with_reducible exact keeper_mk_otp
  · exact .refl _ s

theorem exitStepSt_first (h : s.keeper.transit = 2) (he : s.keeper.exitStep = 0) :
    exitStepSt s = evalBudgets (exitClocked (exitCounted s)) := by
  unfold exitStepSt
  rw [if_pos h]
  extract_lets k s1
  split
  · rfl
  · next e => exact absurd (e.symm.trans he) (by decide)
  · next e _ => exact absurd he e

theorem exitStepSt_second (h : s.keeper.transit = 2) (he : s.keeper.exitStep = 1) :
    exitStepSt s = if hashesMatch s then exitCounted s else hashFail s := by
  unfold exitStepSt
  rw [if_pos h]
  extract_lets k s1
  split
  · next e => exact absurd (e.symm.trans he) (by decide)
  · rfl
  · next _ e => exact absurd he e

theorem exitStepSt_last (h : s.keeper.transit = 2) (he : s.keeper.exitStep = 2) (h0 : (vget s.conv 0).fullCal = false)
    (h1 : (vget s.conv 1).fullCal = false) : exitStepSt s = endExit (exitCounted s) := by
  have hnone : (List.finRange 2).any (fun l => (vget s.conv l).fullCal) = false := by
    rw [show List.finRange 2 = [0, 1] from rfl, List.any_cons, List.any_cons, List.any_nil, h0, h1]
    rfl
  unfold exitStepSt
  rw [if_pos h]
  extract_lets k s1
  split
  · next e => exact absurd (e.symm.trans he) (by decide)
  · next e => exact absurd (e.symm.trans he) (by decide)
  · exact if_neg (ne_true_of_eq_false hnone)

theorem hashesMatch_of_plan (h : s.keeper.hashPlan ≠ some (planDigest s)) : hashesMatch s = false :=
  decide_eq_false fun k => h k.2

theorem evalBudgets_keeper (u : State) : (evalBudgets u).keeper = u.keeper :=
  (evalBudgets_moves (P := [.regs, .book, .log, .trav, .sense, .net, .zn, .streams, .code, .xbuf]) rfl (.refl _ u)).only.1 .keeper
    (by decide)

/-- R447: no exit is under way any more. -/
def exitEnded (s : State) : State := { s with keeper := { s.keeper with transit := 0, exitStep := 0, coolSince := none } }

theorem endExit_eq (s : State) : ∃ u, endExit s = rearmLines (unholdLoops (exitEnded u)) := ⟨_, rfl⟩

theorem endExit_ends : (endExit s).keeper.transit = 0 ∧ (endExit s).keeper.exitStep = 0 := by
  obtain ⟨u, e⟩ := endExit_eq s
  have hu : KeepsTransit (exitEnded u) (unholdLoops (exitEnded u)) := (KeepsTransit.refl _).keep (unholdLoops_moves rfl (.refl _ _))
  obtain ⟨-, htransit, hstep⟩ := rearmLines_keepsTransit hu
  rw [e]
  exact ⟨htransit, hstep⟩

/-! ### The thermal hold and STANDBY_CMD -/

/-- R449: the hold has lasted its 60 s below the limit. -/
theorem standbyThermalExit_due {t0 : Nat} (hs : inStandby s = true) (hc : getF s bmPowerStbyCause = 2)
    (ht : s.keeper.coolSince = some t0) (hle : t0 + 60 * secU ≤ elapsed s) :
    exec .standbyThermalExit s = .next (startExit s) := by
  have hdue : (inStandby s && decide (getF s bmPowerStbyCause = 2) &&
      (match s.keeper.coolSince with | none => false | some t => decide (t + 60 * secU ≤ elapsed s))) = true := by
    simp only [hs, hc, ht, decide_true, Bool.true_and, decide_eq_true_eq]
    exact hle
  exact congrArg Host.Outcome.next (whenB_of_true hdue)

/-- R443: the request of a STANDBY_CMD is taken. -/
def takeStandbyReq (s : State) : State := { s with book := { s.book with standbyReq := none } }

theorem standbyCmdSt_enter (h : s.book.standbyReq = some 0) : standbyCmdSt s = mbxEnterSt (takeStandbyReq s) := by
  unfold standbyCmdSt
  rw [h]
  rfl

end

/-- Settles O9: entry and exit as their requests are granted or refused, and the steps of an exit one by one. -/
theorem standby : Obligations.Standby := by
  have entered {s : State} {P : State → Prop} (hq : s.keeper.mbx = []) (hk : keeperRuns s = true) (h : P (mbxEnterSt s)) :
      goesOnWith (exec .mbxStandbyEnter s) P :=
    goesOnWith_served (fun _ => rfl) (fun _ => rfl) hq hk (KeepsQueue.leavesNone mbxEnterSt_keepsQueue hq) h
  have left {s : State} {P : State → Prop} (hq : s.keeper.mbx = []) (hk : keeperRuns s = true) (h : P (mbxExitSt s)) :
      goesOnWith (exec .mbxStandbyExit s) P :=
    goesOnWith_served (fun _ => rfl) (fun _ => rfl) hq hk (KeepsQueue.leavesNone mbxExitSt_keepsQueue hq) h
  have stepped {s t : State} {P : State → Prop} (e : exitStepSt s = t) (h : P t) : goesOnWith (exec .standbyExitStep s) P :=
    goesOnWith_of_step (f := exitStepSt) rfl e h
  refine ⟨fun s hq hk hb hf hs => entered hq hk ?_, fun s hq hk h => entered hq hk ?_, fun s hq hk hs hc ht => left hq hk ?_,
    fun s hq hk hs hc => left hq hk ?_, fun s hq hk hs => left hq hk ?_, fun s t0 hs hc ht hle hn => ?_, fun s h he => ?_,
    fun s h he hm => ?_, fun s h he hne => ?_, fun s h he h0 h1 => ?_, fun s hr hb hf hs => ?_⟩
  · obtain ⟨hself, hpoint, hblack⟩ := enterStandby_mem (s := mbxAnswer s 6 0 0) (cause := 1)
    rw [mbxEnterSt_granted hb hf hs]
    exact ⟨hself, hpoint, enterStandby_laser 0, enterStandby_laser 1, hblack⟩
  · rw [mbxEnterSt_refused h]
    exact ⟨getF_mbxAnswer_code, getF_mbxAnswer_status, mbxAnswer_only rfl⟩
  · rw [mbxExitSt_granted hs hc]
    exact startExit_starts (s := mbxAnswer s 6 0 0) ht
  · rw [mbxExitSt_thermal hs hc]
    exact ⟨getF_mbxRefuse_code, getF_mbxRefuse_status, mbxRefuse_only⟩
  · rw [mbxExitSt_awake hs]
    exact ⟨getF_mbxAnswer_code, getF_mbxAnswer_status, mbxAnswer_only rfl⟩
  · obtain ⟨htransit, -, hself⟩ := startExit_starts hn
    exact goesOnWith_of_next (standbyThermalExit_due hs hc ht hle) ⟨htransit, hself⟩
  · refine stepped (exitStepSt_first h he) ?_
    rw [evalBudgets_keeper]
    exact ⟨congrArg (· + 1) he, h⟩
  · refine stepped ((exitStepSt_second h he).trans (if_pos hm)) ⟨congrArg (· + 1) he, exitCounted_moves.only⟩
  · obtain ⟨hkind, hcause, -, -⟩ := hashFail_record s
    have hno : ¬ hashesMatch s = true := by simp [hashesMatch_of_plan hne]
    exact stepped ((exitStepSt_second h he).trans (if_neg hno)) ⟨hkind, hcause⟩
  · exact stepped (exitStepSt_last h he h0 h1) endExit_ends
  · obtain ⟨hself, hpoint, -⟩ := enterStandby_mem (s := mbxAnswer (takeStandbyReq s) 6 0 0) (cause := 1)
    have e : standbyCmdSt s = enterStandby (mbxAnswer (takeStandbyReq s) 6 0 0) 1 :=
      (standbyCmdSt_enter hr).trans (mbxEnterSt_granted (s := takeStandbyReq s) hb hf hs)
    refine goesOnWith_of_step (f := standbyCmdSt) rfl e ⟨hself, hpoint, ?_⟩
    have hbook : (mbxAnswer (takeStandbyReq s) 6 0 0).book = (takeStandbyReq s).book :=
      (mbxAnswer_only (P := [.regs, .keeper]) rfl).1 .book (by decide)
    rw [enterStandby_book, hbook]
    rfl

end Sys2Proof.Laws
end

section
/-! SUPPORT. The sample clock and its references (R450, R451, R452): what each event leaves of the keeper's clock monitors. -/

namespace Sys2Proof.Laws
open Sys2Proof Sys2Proof.Machine Sys2Proof.Safety

section
variable {z s : State}

/-! ### The clock monitors -/

/-- Lock, its free-running, and the presence of the reference clocks are as they were. -/
def KeepsClock (z s : State) : Prop := s.keeper.scsLock = z.keeper.scsLock ∧ s.keeper.freqStale = z.keeper.freqStale
  ∧ s.keeper.refPresent = z.keeper.refPresent ∧ s.keeper.altPresent = z.keeper.altPresent

theorem KeepsClock.refl (z : State) : KeepsClock z z := ⟨rfl, rfl, rfl, rfl⟩

theorem KeepsClock.of_keeper {t : State} (e : t.keeper = s.keeper) (h : KeepsClock z s) : KeepsClock z t := by
  unfold KeepsClock
  rw [e]
  exact h

theorem KeepsClock.keep {t : State} (k : Moves allButKeeper s t) (h : KeepsClock z s) : KeepsClock z t :=
  h.of_keeper (k.only.1 .keeper (by decide))

theorem KeepsClock.ite {a b : State} {c : Prop} [Decidable c] (ha : KeepsClock z a) (hb : KeepsClock z b) :
    KeepsClock z (if c then a else b) := by split <;> assumption

theorem KeepsClock.disarmForEvent {l : Fin 2} (h : KeepsClock z s) : KeepsClock z (Machine.disarmForEvent s l) := by
  unfold Machine.disarmForEvent
  extract_lets was
  split
  · exact KeepsClock.keep (disarmLine_moves rfl (.refl _ _)) h
  · exact h.keep (disarmLine_moves rfl (.refl _ s))

theorem KeepsClock.lineResetWork {l : Fin 2} (h : KeepsClock z s) : KeepsClock z (Machine.lineResetWork s l) :=
  h.disarmForEvent.keep (clearTimers_moves rfl (staleLine_moves rfl (restartLineStreams_moves rfl
    (raiseSettling_moves rfl (closeWindow_moves rfl (emptyLine_moves rfl (.refl _ _)))))))

theorem KeepsClock.timeRefs (h : KeepsClock z s) : KeepsClock z (Machine.timeRefs s) := h.keep (timeRefs_moves rfl (.refl _ s))

theorem KeepsClock.rebBlind (h : KeepsClock z s) : KeepsClock z (Machine.rebBlind s) := h.keep (rebBlind_moves rfl (.refl _ s))

theorem modKeeper_keepsClock {f : Keeper → Keeper} (h : KeepsClock z s) (hl : ∀ k, (f k).scsLock = k.scsLock)
    (hf : ∀ k, (f k).freqStale = k.freqStale) (hr : ∀ k, (f k).refPresent = k.refPresent)
    (ha : ∀ k, (f k).altPresent = k.altPresent) : KeepsClock z (modKeeper s f) := by
  obtain ⟨hlock, hstale, href, halt⟩ := h
  exact ⟨(hl _).trans hlock, (hf _).trans hstale, (hr _).trans href, (ha _).trans halt⟩

/-! ### Loss of lock -/

/-- R452: lock is lost. -/
def lockGone (s : State) : State :=
  modKeeper s (fun k => { k with scsLock := false, calOwed := k.calOwed || inStandby s })

/-- R452: a loss of lock, after the lines have been disarmed: it is counted, and the converters stop. -/
def lockCounted (s : State) : State :=
  proxyAck ((List.finRange 2).foldl (fun s l => staleLine (convStop s l false) l 2) (bump s bmClockUnlocks))

theorem lockCounted_moves (s : State) : Moves [.regs, .conv, .net, .zn, .fu] s (lockCounted s) :=
  proxyAck_moves rfl (.folded (fun _ _ k => staleLine_moves rfl (convStop_moves rfl k)) (bump_moves rfl (.refl _ s)))

theorem lockLoss_locked (h : s.keeper.scsLock = true) :
    lockLoss s = lockCounted (lockGone ((List.finRange 2).foldl disarmForEvent s)) := if_pos h

theorem foldl_disarmForEvent_keepsClock : KeepsClock s ((List.finRange 2).foldl disarmForEvent s) :=
  List.foldlRecOn _ disarmForEvent (KeepsClock.refl s) fun _ k _ _ => k.disarmForEvent

theorem lockGone_keeper : (lockGone s).keeper.scsLock = false ∧ (lockGone s).keeper.refPresent = s.keeper.refPresent
    ∧ (lockGone s).keeper.altPresent = s.keeper.altPresent := ⟨rfl, rfl, rfl⟩

theorem lockGone_probe : (lockGone s).probe = s.probe := rfl

/-- R452: after a loss of lock there is none, and the reference clocks are present as before. -/
theorem lockLoss_keeper : (lockLoss s).keeper.scsLock = false ∧ (lockLoss s).keeper.refPresent = s.keeper.refPresent
    ∧ (lockLoss s).keeper.altPresent = s.keeper.altPresent := by
  cases h : s.keeper.scsLock with
  | true =>
    obtain ⟨-, -, href, halt⟩ := foldl_disarmForEvent_keepsClock (s := s)
    obtain ⟨glock, gref, galt⟩ := lockGone_keeper (s := (List.finRange 2).foldl disarmForEvent s)
    rw [lockLoss_locked h, (lockCounted_moves _).only.1 .keeper (by decide)]
    exact ⟨glock, gref.trans href, galt.trans halt⟩
  | false =>
    have e : lockLoss s = s := if_neg (ne_true_of_eq_false h)
    rw [e]
    exact ⟨h, rfl, rfl⟩

theorem lockLoss_laser (h : s.keeper.scsLock = true) (l : Fin 2) : (vget (lockLoss s).probe l).laserEn = false := by
  rw [lockLoss_locked h, (lockCounted_moves _).only.1 .probe (by decide), lockGone_probe]
  exact foldl_disarmForEvent_laser l

/-! ### Relock -/

/-- R452: one line after a relock: as after a LINE reset, with a full calibration. -/
def relockLine (s : State) (l : Fin 2) : State :=
  let s1 := remeasure (startFullCal (lineResetWork s l) l) l
  if lineActive s1 l.val then restartSchedule s1 l else s1

/-- R452: the SCS holds lock again. -/
def relocked (s : State) : State := modKeeper s (fun k => { k with scsLock := true, freqStale := false, scsStopped := false })

theorem relockSt_eq (hl : s.keeper.scsLock = false) (hr : s.keeper.scsRef ≠ .none_) (hs : inStandby s = false) :
    relockSt s = relockLine (relockLine (relocked s) 0) 1 := by
  have hno : ¬ (s.keeper.scsLock = true ∨ s.keeper.scsRef = .none_) := by simp [hl, hr]
  have hwake : ¬ inStandby (relocked s) = true := ne_true_of_eq_false hs
  have e : relockSt s = if inStandby (relocked s) = true then relocked s else (List.finRange 2).foldl relockLine (relocked s) :=
    if_neg hno
  rw [e, if_neg hwake, show List.finRange 2 = [0, 1] from rfl, List.foldl_cons, List.foldl_cons, List.foldl_nil]

theorem relockLine_moves (s : State) (l : Fin 2) :
    Moves [.pce, .probe] (startFullCal (lineResetWork s l) l) (relockLine s l) := by
  have h1 : Moves [.pce, .probe] (startFullCal (lineResetWork s l) l) (remeasure (startFullCal (lineResetWork s l) l) l) :=
    remeasure_moves rfl (.refl _ _)
  exact .ite (restartSchedule_moves rfl h1) h1

theorem KeepsClock.relockLine {l : Fin 2} (h : KeepsClock z s) : KeepsClock z (Laws.relockLine s l) := by
  have hk : KeepsClock z (startFullCal (Machine.lineResetWork s l) l) := h.lineResetWork.keep (startFullCal_moves rfl (.refl _ _))
  exact hk.of_keeper ((relockLine_moves s l).only.1 .keeper (by decide))

theorem relockLine_conv (s : State) (l : Fin 2) : (relockLine s l).conv = (startFullCal (lineResetWork s l) l).conv :=
  (relockLine_moves s l).only.1 .conv (by decide)

theorem relockLine_fullCal (s : State) (l : Fin 2) : (vget (relockLine s l).conv l).fullCal = true := by
  rw [relockLine_conv]
  exact startFullCal_calibrating.1

theorem relockLine_fullCal_ne {l m : Fin 2} (h : l ≠ m) : (vget (relockLine s l).conv m).fullCal = (vget s.conv m).fullCal := by
  rw [relockLine_conv, startFullCal_sameFullCal, modConv_conv, vget_vmod_ne _ _ h]
  exact congrArg Conv.fullCal ((KeepsLine.refl m s).lineResetWork h).2

/-! ### The reference clocks -/

/-- R451: the core PLL changes its reference, which is none of the monitors. -/
theorem coreRef_keepsClock {r : ClkRef} (h : KeepsClock z s) : KeepsClock z (modKeeper s (fun k => { k with coreRef := r })) := h

/-- R450: REFCLK is absent, and the SCS that tracked it runs free. -/
def refGone (s : State) : State := modKeeper s (fun k => { k with refPresent := false, freqStale := true })

theorem refLossSt_tracking (hp : s.keeper.refPresent = true) (hr : s.keeper.scsRef = .refclk) (hl : s.keeper.scsLock = true) :
    KeepsClock (refGone s) (refLossSt s) := by
  unfold refLossSt
  rw [if_pos hp]
  extract_lets s1 s2 s3
  have h2 : KeepsClock (refGone s) s2 := by
    have e : s2 = logEvent (modKeeper s1 (fun k => { k with freqStale := true })) 0x02C islBenchmark 2 0 0 := if_pos ⟨hr, hl⟩
    rw [e]
    exact KeepsClock.keep (logEvent_moves rfl (.refl _ _)) (KeepsClock.refl (refGone s))
  clear_value s2
  have h3 : KeepsClock (refGone s) s3 :=
    KeepsClock.ite (.ite (coreRef_keepsClock h2).rebBlind (coreRef_keepsClock h2)) h2
  exact h3.timeRefs

theorem freerunSt_unlocks (hf : s.keeper.freqStale = true) (hp : s.keeper.refPresent = false) :
    (freerunSt s).keeper.scsLock = false := by
  have hdue : (s.keeper.freqStale && !s.keeper.refPresent) = true := by rw [hf, hp]; rfl
  unfold freerunSt
  rw [if_pos hdue]
  exact lockLoss_keeper.1

/-- R450, R451: REFCLK is present again. -/
def refBack (s : State) : State := modKeeper s (fun k =>
  { k with refPresent := true, freqStale := k.freqStale && !(k.scsLock && decide (k.scsRef = .refclk)),
           scsRef := if k.scsStopped then .refclk else k.scsRef, scsStopped := false })

theorem refReturnSt_keepsClock : KeepsClock (refBack s) (refReturnSt s) := by
  unfold refReturnSt
  extract_lets s1 s2
  have h1 : KeepsClock (refBack s) s1 := KeepsClock.refl _
  clear_value s1
  have h2 : KeepsClock (refBack s) s2 := by
    unfold s2
    split
    · exact KeepsClock.rebBlind h1
    · exact h1
  exact h2.timeRefs

theorem refBack_tracking (hl : s.keeper.scsLock = true) (hr : s.keeper.scsRef = .refclk) : (refBack s).keeper.freqStale = false := by
  unfold refBack modKeeper
  simp [hl, hr]

/-- R450: whether REFCLK_ALT is present. -/
def altSet (s : State) (on : Bool) : State := modKeeper s (fun k => { k with altPresent := on })

theorem altPresentSt_keepsClock : KeepsClock (altSet s true) (altPresentSt s) := by
  unfold altPresentSt
  extract_lets s1 s2
  have h1 : KeepsClock (altSet s true) s1 := KeepsClock.refl _
  clear_value s1
  have h2 : KeepsClock (altSet s true) s2 := by
    unfold s2
    split
    · exact h1
    · exact h1
  exact h2.timeRefs

/-- R451: the loss of REFCLK_ALT is a loss of lock where the SCS ran on it, and leaves REFCLK as it is. -/
theorem altLossSt_present : (altLossSt s).keeper.altPresent = false ∧ (altLossSt s).keeper.refPresent = s.keeper.refPresent := by
  unfold altLossSt
  extract_lets s1 ref s2 s3
  have h1 : s1.keeper.altPresent = false ∧ s1.keeper.refPresent = s.keeper.refPresent := ⟨rfl, rfl⟩
  clear_value s1
  have h2 : s2.keeper.altPresent = false ∧ s2.keeper.refPresent = s.keeper.refPresent := by
    unfold s2
    split
    · obtain ⟨-, href, halt⟩ := lockLoss_keeper (s := s1)
      exact ⟨halt.trans h1.1, href.trans h1.2⟩
    · exact h1
  clear_value s2
  have hcore {r : ClkRef} : KeepsClock s2 (modKeeper s2 (fun k => { k with coreRef := r })) := coreRef_keepsClock (.refl s2)
  have h3 : KeepsClock s2 s3 := .ite (.ite hcore.rebBlind hcore) (.refl s2)
  obtain ⟨-, -, href, halt⟩ := h3.timeRefs
  exact ⟨halt.trans h2.1, href.trans h2.2⟩

end

/-- Settles O10: each event of the clocks, by what it leaves of lock and of the references' presence. -/
theorem clocks : Obligations.Clocks := by
  refine ⟨fun s h => ?_, fun s hl hr hs => ?_, fun s hp hr hl => ?_, fun s hf hp => ?_, fun s => ?_, fun s => ?_, fun s => ?_⟩
  · exact goesOnWith_of_next (t := lockLoss s) rfl ⟨lockLoss_keeper.1, lockLoss_laser h 0, lockLoss_laser h 1⟩
  · refine goesOnWith_of_step (f := relockSt) rfl (relockSt_eq hl hr hs) ?_
    obtain ⟨hlock, hstale, -, -⟩ := (KeepsClock.refl (relocked s)).relockLine (l := 0) |>.relockLine (l := 1)
    exact ⟨hlock, hstale, (relockLine_fullCal_ne (by decide)).trans (relockLine_fullCal _ 0), relockLine_fullCal _ 1⟩
  · obtain ⟨hlock, hstale, href, -⟩ := refLossSt_tracking hp hr hl
    exact goesOnWith_of_next (t := refLossSt s) rfl ⟨href, hstale, hlock.trans hl⟩
  · exact goesOnWith_of_next (t := freerunSt s) rfl (freerunSt_unlocks hf hp)
  · obtain ⟨-, hstale, href, -⟩ := refReturnSt_keepsClock (s := s)
    exact goesOnWith_of_next (t := refReturnSt s) rfl ⟨href, fun hl hr => hstale.trans (refBack_tracking hl hr)⟩
  · obtain ⟨-, -, href, halt⟩ := altPresentSt_keepsClock (s := s)
    exact goesOnWith_of_next (t := altPresentSt s) rfl ⟨halt, href⟩
  · exact goesOnWith_of_next (t := altLossSt s) rfl altLossSt_present

end Sys2Proof.Laws
end

section
/-! SUPPORT. Snapshots and the log's window (R464, R468, R471): what a command to MG_SNAP_CMD and its completion leave, and what
EV_SEL shows. -/

namespace Sys2Proof.Laws
open Sys2Proof Sys2Proof.Machine Sys2Proof.Safety

section
variable {s : State} {p : Path} {a v m : Nat}

/-! ### A snapshot starts -/

/-- R459: a register outside the streams, the fences and the event log: its bits are stored or held, and its commands act. -/
theorem regWrite_acts {ext : Bool} (hr : rangeBad s a v m = false) (hst : ¬(0x8000 ≤ a ∧ a < 0xC000)) (hfence : a ≠ 0x21)
    (hev : a ≠ 0xF002) (hcmd : fenceCmd a = false) :
    regWrite s ext a v m = (woActions (holdWrite (storeWrite s a v m) ext a v (heldMaskOf (storeWrite s a v m) a v m)) a
      (v &&& m &&& regMask (fun r => decide (r.acc = .wo)) a), 0) := by
  unfold regWrite
  extract_lets st n s1 s2 s3
  have hst' : st = false := decide_eq_false hst
  have e3 : s3 = woActions s2 a (v &&& m &&& regMask (fun r => decide (r.acc = .wo)) a) := by
    unfold s3
    rw [hcmd, if_neg Bool.false_ne_true]
  rw [hr, if_neg Bool.false_ne_true, hst', Bool.false_and, if_neg Bool.false_ne_true, Bool.false_and, Bool.false_and,
    Bool.false_and, if_neg Bool.false_ne_true, if_neg (fun k => hfence k.1), if_neg (fun k => hev k.1), e3]

/-- R464: MG_SNAP_CMD.GO takes the snapshot. -/
theorem woActions_snapshot {x : Nat} (h : bitOf x 19 = true) :
    woActions s 0x30 x = snapshotSt s (bitOf x 18) (bitsOf x 17 15 + 1) := if_pos h

/-- R464: whether or not it copies, the snapshot is in progress. -/
theorem snapshotSt_snap {clear : Bool} {count : Nat} : (snapshotSt s clear count).mgmt.snap.isSome = true := by
  unfold snapshotSt
  extract_lets a0 as_
  split
  · split
    rfl
  · rfl

/-- R464: the word that a snapshot command writes. -/
def snapWord (clear : Bool) (n : Fin 8) : Nat := 2 ^ 19 + fb 18 clear + n.val * 2 ^ 15

theorem snapWord_go (clear : Bool) (n : Fin 8) :
    bitOf (snapWord clear n &&& (2 ^ 20 - 1) &&& regMask (fun r => decide (r.acc = .wo)) 0x30) 19 = true := by
  have e : regMask (fun r => decide (r.acc = .wo)) 0x30 = 0xF8000 := by decide
  rw [e]
  revert clear n
  decide

theorem regWrite_snapshot {ext : Bool} (h : bitOf (v &&& m &&& regMask (fun r => decide (r.acc = .wo)) 0x30) 19 = true) :
    ∃ u b k, regWrite s ext 0x30 v m = (snapshotSt u b k, 0) := by
  have e := regWrite_acts (s := s) (ext := ext) (a := 0x30) (v := v) (m := m) (rangeBad_of_none fun _ => rfl) (by decide) (by decide)
    (by decide) rfl
  rw [woActions_snapshot h] at e
  exact ⟨_, _, _, e⟩

theorem writeSt_snapshot (clear : Bool) (n : Fin 8) : ∃ u b k, writeSt p 0x30 (2 ^ 20 - 1) [snapWord clear n] s
    = pathAnswer (snapshotSt u b k) p stOk 0 [1023] := by
  obtain ⟨u, b, k, e⟩ := regWrite_snapshot (s := s) (ext := decide (p.val ≤ 3)) (snapWord_go clear n)
  rw [← pathWrite_single (by decide) (by decide)] at e
  exact ⟨u, b, k, writeSt_openReg (c := none) (by decide) (fun _ k hk => absurd hk.symm (Option.some_ne_none k)) rfl e⟩

/-! ### A snapshot completes -/

/-- R464: no snapshot is in progress any more. -/
def snapCleared (s : State) : State := { s with mgmt := { s.mgmt with snap := none } }

/-- R464: MG_SNAP_DATA shows the copied values. -/
def snapShown (s : State) (vs : List Nat) : State :=
  (List.range 8).foldl (fun s i => setF s (mgSnapDataData i) (lget 0 vs i)) s

theorem snapDoneSt_copied {vs : List Nat} (h : s.mgmt.snap = some (some vs)) :
    snapDoneSt s = setF (snapShown (snapCleared s) vs) mgSnapStatusErr 0 := by
  unfold snapDoneSt
  rw [h]
  rfl

theorem snapDoneSt_failed (h : s.mgmt.snap = some none) : snapDoneSt s = setF (snapCleared s) mgSnapStatusErr 1 := by
  unfold snapDoneSt
  rw [h]
  rfl

theorem snapDataData_ne (i : Nat) (hi : i < 8) : (mgSnapDataData i).addr ≠ mgSnapStatusErr.addr := by
  simp only [mgSnapDataData, mgSnapStatusErr]
  omega

theorem getF_snapShown {vs : List Nat} {i : Nat} (hi : i < 8) : getF (snapShown s vs) (mgSnapDataData i) = lget 0 vs i % 2 ^ 20 :=
  getF_writeEach (fs := mgSnapDataData) rfl (fun j hj => by simp only [mgSnapDataData]; omega) hi

theorem snapShown_moves {vs : List Nat} : Moves [.regs] s (snapShown s vs) := .folded (fun _ _ k => setF_moves rfl k) (.refl _ s)

theorem snapDoneSt_only : changesOnly [.regs, .mgmt] s (snapDoneSt s) := (snapDoneSt_moves rfl (.refl _ s)).only

/-! ### The log's window -/

/-- R471: the number that EV_ENTRY shows for an index. -/
def shownEntry (s : State) (i : Nat) : Nat := match logIndex s i with | none => 0 | some e => wordsVal e

theorem evShow_eq (s : State) :
    evShow s = (List.range 4).foldl (fun u k => setF u (evEntryWords k) (shownEntry s (getF s evSelIndex) / 2 ^ (20 * k))) s := rfl

theorem getF_evShow_entry {k : Nat} (hk : k < 4) :
    getF (evShow s) (evEntryWords k) = shownEntry s (getF s evSelIndex) / 2 ^ (20 * k) % 2 ^ 20 := by
  rw [evShow_eq]
  exact getF_writeEach (fs := evEntryWords) (v := fun k => shownEntry s (getF s evSelIndex) / 2 ^ (20 * k)) rfl
    (fun j hj => by simp only [evEntryWords]; omega) hk

theorem getF_evShow_index : getF (evShow s) evSelIndex = getF s evSelIndex := by
  have hw : Writes [0xF004, 0xF005, 0xF006, 0xF007] s (evShow s) := evShow_writes (by decide) (.refl _ s)
  exact getF_of_writes hw (by decide)

theorem shownEntry_div {i n : Nat} :
    shownEntry s i / n = (match logIndex s i with | none => 0 | some e => wordsVal e / n) := by
  unfold shownEntry
  cases logIndex s i with
  | none => exact Nat.zero_div n
  | some e => rfl

theorem shownEntry_setF {f : Fld} {i : Nat} : shownEntry (setF s f v) i = shownEntry s i := by
  unfold shownEntry logIndex
  rw [setF_log]

end

end Sys2Proof.Laws
end

section
/-! SUPPORT. The service port, the boot flash behind it and JTAG (R45, R472, R473, R496). -/

namespace Sys2Proof.Laws
open Sys2Proof Sys2Proof.Machine Sys2Proof.Safety

section
variable {s : State} {p : Path} {a v m n : Nat}

/-! ### Registers through the service port -/

/-- R472: the answer of the service port. -/
def svcAnswer (s : State) (status : Nat) (out : List Byte) : State :=
  modMgmt s (fun x => { x with svcStatus := status, svcOut := out })

theorem svcAnswer_moves {status : Nat} {out : List Byte} : Moves [.mgmt] s (svcAnswer s status out) := modMgmt_moves rfl rfl rfl (.refl _ s)

theorem readAll_one (h : regDefined a = true) : readAll s p [a] = ([(pathRead s p a).1], (pathRead s p a).2) := by
  unfold readAll
  rw [List.foldl_cons, List.foldl_nil, if_pos h]
  rfl

/-- R472: a register that answers. -/
theorem svcReadSt_one (ha : a < 2 ^ 20) (h : regDefined a = true) (hb : regBusy s a = false) :
    svcReadSt a 1 s = svcAnswer (pathRead s svcPath a).2 0 (0xA5#8 :: regBytes (pathRead s svcPath a).1) := by
  have hin : min 1 (1024 - a % 1024) = 1 := by omega
  unfold svcReadSt
  simp only [if_pos ha, hin, addrsOf_one, readAll_one h, List.any_cons, List.any_nil, List.all_cons, List.all_nil, h, hb,
    Bool.and_false, Bool.or_false, Bool.and_true, Bool.false_eq_true, if_false, Nat.lt_irrefl, Bool.true_eq_false, or_self,
    Nat.sub_self, List.replicate_zero, List.append_nil, List.flatMap_cons, List.flatMap_nil]
  rfl

/-- R472: beyond the registers there are zeros. -/
theorem svcReadSt_beyond (ha : 2 ^ 20 ≤ a) : svcReadSt a 1 s = svcAnswer s 3 [0xA5#8, 0, 0, 0] := by
  unfold svcReadSt
  rw [if_neg (Nat.not_lt.mpr ha)]
  rfl

/-- R464, R472: a write of MG_SNAP_ADDR. -/
def svcSnapAddr (s : State) (v : Nat) : State :=
  svcAnswer (pathAnswer (regPut s 0x31 (maskedValue (regGet s 0x31) v (2 ^ 20 - 1))) svcPath stOk 0 [1023]) stOk []

theorem writeRegs_snapAddr (hm : m < 2 ^ 20) :
    writeRegs s p 0x31 m [v] = (stOk, 0, 1023, regPut s 0x31 (maskedValue (regGet s 0x31) v m)) := by
  have hopen : openReg 0x31 none = true := by decide
  have hclass : classOk s 0x31 m = true := classOk_openReg hopen (fun k hk => absurd hk.symm (Option.some_ne_none k)) m
  have hdef : regDefined 0x31 = true := by decide
  have hbusy : regBusy s 0x31 = false := regBusy_management (.inl rfl)
  rw [writeRegs_one, if_neg (by rw [hdef]; decide), if_neg (by rw [benchOwned_openReg hopen m]; decide), hclass, Bool.not_true,
    Bool.and_false, if_neg Bool.false_ne_true, if_neg (by rw [hbusy]; decide), pathWrite_single (by decide) (by decide),
    regWrite_snapAddr hm]
  rfl

theorem svcWriteSt_snapAddr (v : Nat) : svcWriteSt 0x31 0xFFFFF [v] s = svcSnapAddr s (v % 2 ^ 20) := by
  unfold svcWriteSt
  rw [if_neg (by decide), List.map_cons, List.map_nil, writeRegs_snapAddr (by decide)]
  rfl

theorem svcSnapAddr_addr (hv : v < 2 ^ 20) : getF (svcSnapAddr s v) mgSnapAddrAddr = v := by
  have hregs : (svcSnapAddr s v).regs = (regPut s 0x31 (maskedValue (regGet s 0x31) v (2 ^ 20 - 1))).regs :=
    (svcAnswer_moves.only.1 .regs (by decide)).trans pathAnswer_regs
  rw [getF_of_regs hregs, getF_full rfl rfl]
  refine (regGet_put s 0x31 _).trans ((Nat.mod_eq_of_lt (maskedValue_lt (by decide))).trans ?_)
  exact maskedValue_full hv

theorem svcSnapAddr_moves : Moves [.regs, .mgmt] s (svcSnapAddr s v) := by
  unfold svcSnapAddr svcAnswer
  exact modMgmt_moves rfl rfl rfl (pathAnswer_moves rfl (regPut_moves rfl (.refl _ s)))

theorem svcWriteSt_beyond {vs : List Nat} (ha : 2 ^ 20 ≤ a) : svcWriteSt a m vs s = svcAnswer s 3 [] := if_pos ha

/-! ### Flash commands -/

theorem flashRefuses_open {as_ : List Nat} (ho : s.mgmt.flashOp = none) (hb : 3 ≤ bootPhase s) (hl : lifecycle s ≠ 2) :
    flashRefuses s as_ = false := by
  unfold flashRefuses
  rw [ho, decide_eq_false (Nat.not_lt.mpr hb), decide_eq_false hl]
  rfl

theorem flashRefuses_closed {as_ : List Nat} (h : s.mgmt.flashOp ≠ none ∨ (bootPhase s < 3 ∧ s.keeper.warm = false)) :
    flashRefuses s as_ = true := by
  unfold flashRefuses
  rcases h with h | ⟨hb, hw⟩
  · rw [Option.isSome_iff_ne_none.mpr h, Bool.true_or, Bool.true_or]
  · rw [decide_eq_true hb, hw, Bool.not_false, Bool.and_true, Bool.or_true, Bool.true_or]

theorem flashCmd_open {as_ bus : List Nat} {f : MgmtSt → MgmtSt} (h : flashRefuses s as_ = false) :
    flashCmd s as_ bus f = modMgmt s (fun m => { f m with flashBus := bus }) := if_neg (ne_true_of_eq_false h)

/-- R473: the state after a flash command that is refused. -/
def flashDenied (s : State) : State := modMgmt s (fun m => { m with flashRefused := true, svcOut := [] })

theorem flashCmd_denied {as_ bus : List Nat} {f : MgmtSt → MgmtSt} (h : flashRefuses s as_ = true) :
    flashCmd s as_ bus f = flashDenied s := if_pos h

theorem flashDenied_moves : Moves [.mgmt] s (flashDenied s) := modMgmt_moves rfl rfl rfl (.refl _ s)

/-! ### What a flash operation leaves -/

theorem tabGet_filter {α : Type} (d : α) (q : Nat → Bool) (t : Tab α) (i : Nat) :
    tabGet d (t.filter (fun e => !(q e.1))) i = if q i then d else tabGet d t i := by
  induction t with
  | nil => exact (ite_self d).symm
  | cons e t ih =>
    obtain ⟨k, x⟩ := e
    by_cases hk : i = k
    · subst hk
      cases hq : q i <;> simp [tabGet, hq, ih]
    · cases hq : q k <;> simp [tabGet, hq, hk, ih]

/-- R472: bytes outside those put keep their value. -/
theorem tabGet_flashPut_ne {t : Tab Byte} {bs : List Byte} {i : Nat} (h : i < a ∨ a + bs.length ≤ i) :
    tabGet 0xFF#8 (flashPut t a bs) i = tabGet 0xFF#8 t i := by
  unfold flashPut
  refine List.foldlRecOn (motive := fun u => tabGet 0xFF#8 u i = tabGet 0xFF#8 t i) _ _ rfl fun u hu x hx => ?_
  have hx2 : x.2 < bs.length := List.snd_lt_of_mem_zipIdx hx
  exact (tabGet_set_ne _ _ _ _ (by omega)).trans hu

theorem flashDone_wf {op : FlashOp} {t : Tab Byte} (k : tabWf (fun _ => 0xFF#8) t = true) :
    tabWf (fun _ => 0xFF#8) (flashDone t op) = true := by
  cases op with
  | program a bs => exact tabSet_fold_wf (0xFF#8) _ _ _ _ k
  | erase a => exact tabFilter_wf _ _ _ k

theorem flashDone_moves (s : State) (op : FlashOp) :
    Moves [.mgmt, .flash] s (modMgmt s (fun m => { m with flash := flashDone m.flash op, flashOp := none })) :=
  Moves.setFlash rfl flashDone_wf rfl (.refl _ s)

theorem flashOpDoneSt_good {op : FlashOp} (h : s.mgmt.flashOp = some op) :
    flashOpDoneSt true s = modMgmt s (fun m => { m with flash := flashDone m.flash op, flashOp := none }) := by
  unfold flashOpDoneSt
  rw [h]
  rfl

/-- R472: the bytes that an operation which failed leaves open. -/
def openBytes (s : State) (n : Nat) : List Byte := (List.range n).map (fun i => BitVec.ofNat 8 (Config.freeNat (s.freeCtr + i)))

theorem flashOpDoneSt_bad {bs : List Byte} (h : s.mgmt.flashOp = some (.program a bs)) :
    flashOpDoneSt false s = modMgmt { s with freeCtr := s.freeCtr + bs.length }
      (fun m => { m with flash := flashPut m.flash a (openBytes s bs.length), flashOp := none, flashFail := true }) := by
  unfold flashOpDoneSt
  rw [h]
  rfl

theorem openBytes_length : (openBytes s n).length = n := by
  unfold openBytes
  rw [List.length_map, List.length_range]

theorem tabGet_flashErased {t : Tab Byte} {i : Nat} : tabGet 0xFF#8 (flashDone t (.erase a)) i
    = if a ≤ i ∧ i < a + 65536 then 0xFF#8 else tabGet 0xFF#8 t i := by
  have e := tabGet_filter 0xFF#8 (fun k => decide (a ≤ k ∧ k < a + 65536)) t i
  simp only [decide_eq_true_eq] at e
  exact e

theorem tabGet_flashProgrammed {t : Tab Byte} {b : Byte} {i : Nat} : tabGet 0xFF#8 (flashDone t (.program a [b])) i
    = if i = a then b &&& tabGet 0xFF#8 t a else tabGet 0xFF#8 t i := by
  have e : flashDone t (.program a [b]) = tabSet 0xFF#8 t a (b &&& tabGet 0xFF#8 t a) := rfl
  rw [e]
  split
  · next hi => rw [hi, tabGet_set]
  · next hi => exact tabGet_set_ne _ _ _ _ hi

/-! ### JTAG -/

/-- R496: IDCODE. -/
theorem idcode_reads (x : Nat) : idcode x % 2 = 1 ∧ idcode x / 2 ^ 12 = 2 ^ 16 + 0x09D0 := by
  unfold idcode
  omega

/-- R496: what an instruction shifts out. -/
def jtagOut (cls x : Nat) : Nat := if cls = 0 then idcode x else if cls = 1 then 0 else x

/-- R45, R496: an instruction that the lifecycle permits is loaded. -/
def jtagLoaded (s : State) (ir : Nat) : State := modMgmt (draw s).2 (fun m =>
  { m with jtagIr := some ir, jtagOk := true, jtagData := jtagOut (Config.jtagClass ir) (draw s).1 })

/-- R45, R496: one that it does not permit is not. -/
def jtagDenied (s : State) : State := modMgmt (draw s).2 (fun m => { m with jtagOk := false })

theorem jtagSt_eq (ir : Nat) (s : State) : jtagSt ir s
    = if jtagPermits (lifecycle s) (Config.jtagClass ir) then jtagLoaded s ir else jtagDenied s := rfl

theorem jtagSt_only {ir : Nat} : changesOnly [.mgmt, .freeCtr] s (jtagSt ir s) := (jtagSt_moves rfl (.refl _ s)).only

end

/-- Settles O46: each command of the management units by the state that it leaves. -/
theorem serviceAndLog : Obligations.ServiceAndLog := by
  refine ⟨fun s p c n => ?_, fun s vs h => ?_, fun s h => ?_, fun s i => ?_, fun s a ha h hb hlo hs => ?_, fun s a ha => ?_,
    fun s v => ?_, fun s a m v ha => ?_, fun s => ?_, fun s a n ho hb hl => ?_, fun s a n h => ⟨?_, ?_⟩,
    fun s a bs ho hb hl hne hfit => ?_, fun s a ho hb hl => ?_, fun s a h => ?_, fun s a b h => ?_, fun s a bs h => ?_,
    fun s ir => ?_⟩
  · obtain ⟨u, b, k, e⟩ := writeSt_snapshot (s := s) (p := p) c n
    exact goesOnWith_of_step (f := writeSt p 0x30 (2 ^ 20 - 1) [snapWord c n]) rfl e
      ⟨snapshotSt_snap, congrArg PathSt.status pathOf_pathAnswer⟩
  · have honly := snapDoneSt_only (s := s)
    have e := snapDoneSt_copied h
    rw [e] at honly
    refine goesOnWith_of_step (f := snapDoneSt) rfl e ⟨?_, getF_setF _ _ _ rfl, fun i hi => ?_, honly⟩
    · rw [(setF_moves (P := [.regs]) rfl snapShown_moves).only.1 .mgmt (by decide)]
      rfl
    · exact (getF_setF_ne _ _ _ _ (snapDataData_ne i hi)).trans (getF_snapShown hi)
  · have honly := snapDoneSt_only (s := s)
    have e := snapDoneSt_failed h
    rw [e] at honly
    refine goesOnWith_of_step (f := snapDoneSt) rfl e ⟨?_, getF_setF _ _ _ rfl, fun i hi => ?_, honly⟩
    · rw [(setF_moves (P := [.regs]) rfl (.refl _ (snapCleared s))).only.1 .mgmt (by decide)]
      rfl
    · exact (getF_setF_ne _ _ _ _ (snapDataData_ne i hi)).trans (getF_of_regs rfl)
  · have hindex : getF (setF s evSelIndex i.val) evSelIndex = i.val :=
      (getF_setF _ evSelIndex _ rfl).trans (Nat.mod_eq_of_lt i.isLt)
    refine goesOnWith_of_next (t := evShow (setF s evSelIndex i.val)) rfl ⟨getF_evShow_index.trans hindex, fun k hk => ?_, ?_⟩
    · have e : getF (evShow (setF s evSelIndex i.val)) (evEntryWords k) = shownEntry s i.val / 2 ^ (20 * k) % 2 ^ 20 := by
        rw [getF_evShow_entry hk, hindex, shownEntry_setF]
      exact e.trans (congrArg (· % 2 ^ 20) shownEntry_div)
    · have hm : Moves [.regs] s (evShow (setF s evSelIndex i.val)) := evShow_moves rfl (setF_moves rfl (.refl _ s))
      exact ⟨hm.only.1 .log (by decide), hm.only⟩
  · have e : svcReadSt a.toNat 1 s = svcAnswer (regReadRc s a.toNat).2 0 (0xA5#8 :: regBytes (regRead s a.toNat).1) := by
      rw [svcReadSt_one ha h hb, pathRead_plain (p := svcPath) hlo hs]
      rfl
    exact goesOnWith_of_step (f := svcReadSt a.toNat 1) rfl e
      ⟨rfl, rfl, (modMgmt_moves rfl rfl rfl (regReadRc_moves rfl (.refl _ s))).only⟩
  · exact goesOnWith_of_step (f := svcReadSt a.toNat 1) rfl (svcReadSt_beyond ha) ⟨rfl, rfl, svcAnswer_moves.only⟩
  · exact goesOnWith_of_step (f := svcWriteSt 0x31 0xFFFFF [v.toNat]) rfl (svcWriteSt_snapAddr v.toNat)
      ⟨rfl, svcSnapAddr_addr (Nat.mod_lt _ (by decide)), svcSnapAddr_moves.only⟩
  · exact goesOnWith_of_step (f := svcWriteSt a.toNat m.toNat [v.toNat]) rfl (svcWriteSt_beyond ha) ⟨rfl, svcAnswer_moves.only⟩
  · exact goesOnWith_of_next rfl ⟨rfl, rfl, rfl, rfl, (modMgmt_moves rfl rfl rfl (.refl _ s)).only⟩
  · refine goesOnWith_of_next (congrArg Host.Outcome.next (flashCmd_open (flashRefuses_open ho hb hl)))
      ⟨?_, fun i hi => ?_, rfl, (modMgmt_moves rfl rfl rfl (.refl _ s)).only⟩
    · simp [modMgmt]
    · simp [modMgmt, hi]
  · exact goesOnWith_of_next (congrArg Host.Outcome.next (flashCmd_denied (flashRefuses_closed h))) ⟨rfl, rfl, flashDenied_moves.only⟩
  · exact goesOnWith_of_next (congrArg Host.Outcome.next (flashCmd_denied (flashRefuses_closed h)))
      ⟨rfl, rfl, rfl, flashDenied_moves.only⟩
  · have hdue : (!bs.isEmpty && decide (a.toNat % 256 + bs.length ≤ 256)) = true := by
      rw [decide_eq_true hfit, Bool.and_true, Bool.not_eq_true', List.isEmpty_eq_false_iff]
      exact hne
    exact goesOnWith_of_next (congrArg Host.Outcome.next ((whenB_of_true hdue).trans (flashCmd_open (flashRefuses_open ho hb hl))))
      ⟨rfl, rfl, (modMgmt_moves rfl rfl rfl (.refl _ s)).only⟩
  · exact goesOnWith_of_next (congrArg Host.Outcome.next (flashCmd_open (flashRefuses_open ho hb hl)))
      ⟨rfl, rfl, (modMgmt_moves rfl rfl rfl (.refl _ s)).only⟩
  · exact goesOnWith_of_step (f := flashOpDoneSt true) rfl (flashOpDoneSt_good h)
      ⟨rfl, fun i => tabGet_flashErased, (flashDone_moves s _).only⟩
  · exact goesOnWith_of_step (f := flashOpDoneSt true) rfl (flashOpDoneSt_good h)
      ⟨rfl, fun i => tabGet_flashProgrammed, (flashDone_moves s _).only⟩
  · have honly : changesOnly [.mgmt, .flash, .freeCtr] s (flashOpDoneSt false s) := (flashOpDoneSt_moves rfl (.refl _ s)).only
    have e := flashOpDoneSt_bad h
    rw [e] at honly
    refine goesOnWith_of_step (f := flashOpDoneSt false) rfl e ⟨rfl, rfl, fun i hi => ?_, honly⟩
    exact tabGet_flashPut_ne (by rw [openBytes_length]; exact hi)
  · have honly := jtagSt_only (s := s) (ir := ir.toNat)
    have e := jtagSt_eq ir.toNat s
    cases hp : jtagPermits (lifecycle s) (Config.jtagClass ir.toNat) with
    | false =>
      rw [hp, if_neg Bool.false_ne_true] at e
      rw [e] at honly
      exact goesOnWith_of_step (f := jtagSt ir.toNat) rfl e
        ⟨rfl, fun _ => ⟨rfl, rfl⟩, fun k => absurd k Bool.false_ne_true, honly⟩
    | true =>
      rw [hp, if_pos rfl] at e
      rw [e] at honly
      refine goesOnWith_of_step (f := jtagSt ir.toNat) rfl e
        ⟨rfl, fun k => absurd k.symm Bool.false_ne_true, fun _ => ⟨rfl, fun hc => ?_, fun hc => ?_⟩, honly⟩
      · have hout : (jtagLoaded s ir.toNat).mgmt.jtagData = idcode (draw s).1 := if_pos hc
        rw [hout]
        exact idcode_reads _
      · have hne : Config.jtagClass ir.toNat ≠ 0 := by omega
        exact (if_neg hne).trans (if_pos hc)

end Sys2Proof.Laws
end
